-- ==== Sys2Proof/Word.lean ====
section
/-! DEFINITION. The word types of the model: bytes and the bit vectors that the manual numbers as words. -/

namespace Sys2Proof

/-- One byte of a memory, a ring entry or a packet. -/
abbrev Byte := BitVec 8

/-- A 32-bit register or tag word. -/
abbrev Word32 := BitVec 32

/-- A 64-bit word: a slot op, a digest, a translation entry. -/
abbrev Word64 := BitVec 64

end Sys2Proof
end

