-- ==== Sys2Proof/Syntax.lean ====
section
/-! DEFINITION. The commands of the block: one constructor of `Instr` per row of spec/opcode_table.json, in the table's
order, and the operand types they carry. A row of the table gives no bits, so an operand is what the rule named with the
row says arrives from outside (a packet, an edge, a register access) or names the unit whose event it is.

Host commands carry the submission ring `q` and the host tag `cid` of a command that COMMAND_FETCH has taken (R408, R412);
their arguments are the 64 bytes fetched, and their parameter block is read from host memory, except where the manual
gives the block no layout, and then the block is an operand. -/

namespace Sys2Proof

/-- The target of a cue: a score lane's unit, an output pin (R38), or PPS_OUT, which a host cue series drives (R50). -/
inductive CueTarget where
  | lane (k : Nat)
  | pin (n : Nat)
  | ppsOut
  deriving DecidableEq, Repr

/-- Who issued a cue (R41, R43). -/
inductive CueSource where
  | score
  | host
  | reflex
  deriving DecidableEq, Repr

/-- What a cue asks for: a slot op of a unit at its beat, or one of the pin actions of R43. -/
inductive CueAction where
  | slotOp (word : BitVec 64) (beat : Nat) (ctx : Option (Nat × Nat))
  | level (on : Bool)
  | pulse (width : Nat)
  | strobeStart
  | strobeStop
  deriving DecidableEq, Repr

/-- A cue (R38): target, source, instant in Bandstand nanoseconds, action, the late limit of a pin cue (R40); of a score's pin cue the
batch id and number of the batch whose work it is, when the sequencer issued its op (R39), and whether the late start of that op has
been counted for the batch (R40, R66). -/
structure Cue where
  target : CueTarget
  source : CueSource
  instant : Nat
  action : CueAction
  lateLimit : Nat
  ctx : Option (Nat × Nat) := none
  opIssued : Option Nat := none
  counted : Bool := false
  deriving DecidableEq, Repr

/-- The modes of a cue pin (R42). -/
inductive PinMode where
  | disabled
  | input
  | output
  | strobe
  deriving DecidableEq, Repr

/-- The edges that an input pin stamps (R42). -/
inductive EdgeSel where
  | rising
  | falling
  | both
  deriving DecidableEq, Repr

/-- The PIN_CONFIG block: the parameters of R42 and the late limit of R40. The manual gives it no byte layout. -/
structure PinParams where
  edge : EdgeSel
  filter : Nat
  activeHigh : Bool
  base : Bool
  drive : Nat
  width : Nat
  period : Nat
  count : Nat
  lateLimit : Nat
  deriving DecidableEq, Repr

/-- The REFLEX_CONFIG block: the fields of R45. -/
structure ReflexParams where
  source : Nat
  edge : EdgeSel
  armed : Bool
  target : Nat
  action : CueAction
  delay : Nat
  holdOff : Nat
  deriving DecidableEq, Repr

/-- The discipline sources of R47, in the order of TIM_STATE.SOURCE (R399). -/
inductive TimeSource where
  | none
  | trellis
  | ptp0
  | ptp1
  | ppsIn
  | hostSet
  deriving DecidableEq, Repr

/-- The TIME_CONFIG block (R419): source order, steps in service, holdover rate, PPS_OUT width, PTP domain and
transport, Trellis asymmetry for each link (R460). The manual gives it no byte layout. -/
structure TimeParams where
  order : List TimeSource
  stepsInService : Bool
  holdoverRate : Nat
  ppsOutWidth : Nat
  ptpDomain : Nat
  ptpTransport : Nat
  asym : List Int
  deriving DecidableEq, Repr

/-- The NET_CONFIG block: the port settings of R186, static addresses and whether addresses come by DHCPv4 and by SLAAC. -/
structure NetParams where
  speed25 : Bool
  rsFec : Bool
  ipv4 : List Byte
  dhcp : Bool := false
  ipv6 : List (List Byte)
  slaac : Bool := false
  mtu : Nat
  vlan : Option Nat
  deriving DecidableEq, Repr

/-- The header of a PTP message (R197): its domain, its transport (0 UDP over IPv4, 1 UDP over IPv6, 2 IEEE 802.3) and the port
identity of its sender. -/
structure PtpHeader where
  domain : Nat
  transport : Nat
  sender : List Byte
  deriving DecidableEq, Repr

/-- A PTP message with its hardware stamp (R197); origin times and corrections in units of 2^-16 ns. A Sync carries its interval
as n in 1/2^n s (R49). `delayReqSent` is no message received: it is the hardware stamp of the delay request that the port has sent. -/
inductive PtpMessage where
  | announce (dataSet : List Byte)
  | sync (seq : Nat) (twoStep : Bool) (syncLog : Int) (origin : Int) (correction : Int) (stamp : Int)
  | followUp (seq : Nat) (origin : Int) (correction : Int)
  | delayReqSent (seq : Nat) (stamp : Int)
  | delayResp (seq : Nat) (received : Int) (correction : Int)
  deriving DecidableEq, Repr

/-- A PTP message as it arrives: its header and its body (R197). -/
structure PtpPacket where
  header : PtpHeader
  message : PtpMessage
  deriving DecidableEq, Repr

/-- The forming of a stream's next record: whether its bytes come out with a poison mark, and whether they do so again when they are
formed once more (R362). -/
structure RecordForming where
  stream : Nat
  marked : Bool
  again : Bool
  deriving DecidableEq, Repr

/-- A DHCP message that reaches the port (R186): the server's offer of an address, its acknowledgement, its refusal. -/
inductive DhcpMessage where
  | offer (address : List Byte)
  | ack (address : List Byte)
  | nak
  deriving DecidableEq, Repr

/-- What comes in fragments and is reassembled (R186). -/
inductive Reassembled where
  | rtsp
  | rtcpBye (stream : Nat)
  | rtcpOther
  | dhcp (m : DhcpMessage)
  deriving DecidableEq, Repr

/-- The packet kinds of the slow path (R187): a UDP packet whose checksum fails; a fragment of a datagram, by the datagram's
identification, with its place, its size and what the whole carries; the outcome of ARP or Neighbor Discovery for an address; router
advertisements with the 64-bit prefix that allows SLAAC; a membership query with its version of IGMP, or of MLD for IPv6 (R186). -/
inductive SlowKind where
  | damaged
  | fragment (id offset : Nat) (more : Bool) (size : Nat) (whole : Reassembled)
  | neighbour (address : List Byte) (resolved : Bool)
  | rtcpBye (stream : Nat)
  | rtcpOther
  | dhcp (m : DhcpMessage)
  | arp
  | neighborDiscovery (netPrefix : Option (List Byte))
  | membershipQuery (ipv6 : Bool) (version : Nat)
  | icmpEcho
  | unmatchedUdp
  | pauseFrame
  | unsupported
  deriving DecidableEq, Repr

/-- An RTP packet as the depacketiser sees it (R188, R189): the matched fields, the fixed RTP header with its flags of padding and
extension and its CSRC count, the bytes behind that header, whether it came in fragments or with IP header options or extension
headers (R186), and whether its FCS and UDP checksum hold. -/
structure RtpPacket where
  port : Nat
  vlan : Option Nat
  dst : List Byte
  dport : Nat
  src : List Byte
  ssrc : Nat
  version : Nat
  payloadType : Nat
  seq : Nat
  ts : Nat
  marker : Bool
  padding : Bool := false
  extension : Bool := false
  csrcs : Nat := 0
  data : List Byte
  fragmented : Bool
  options : Bool := false
  checksOk : Bool
  stamp : Nat
  deriving DecidableEq, Repr

/-- The profiles that R211 names. -/
inductive Profile where
  | constrainedBaseline
  | baseline
  | main
  | extended
  | high
  | high10
  | high422
  | high444
  | scalable
  | multiview
  | hevcMain
  | hevcMain10
  | rangeExtensions
  | screenContent
  | multilayer
  deriving DecidableEq, Repr

/-- What a sequence parameter set says (R211, R215, R216, R218, R219): profile, frame_mbs_only_flag (true in HEVC), chroma format 0 to
3, bit depth, coded size, the conformance window or frame cropping, the pictures that its DPB takes, the pictures that may precede one
in decode order and follow it in output order, the limit of output latency, the side of a CTU or macroblock, its bytes. -/
structure Sps where
  profile : Profile
  progressive : Bool
  chroma : Nat
  depth : Nat
  codedW : Nat
  codedH : Nat
  width : Nat
  height : Nat
  xoff : Nat
  yoff : Nat
  dpb : Nat
  reorder : Nat
  latency : Option Nat
  block : Nat
  body : List Byte
  deriving DecidableEq, Repr

/-- What a picture parameter set says (R211, R221): the SPS that it names, whether it calls for FMO or ASO, the widths of its tile
columns and the heights of its tile rows in CTUs (none without tiles), its bytes. -/
structure Pps where
  sps : Nat
  flexible : Bool
  cols : List Nat
  rows : List Nat
  body : List Byte
  deriving DecidableEq, Repr

/-- A parameter set with its id, what it refers to, and whether it parses (R221). -/
inductive ParamSet where
  | vps (id : Nat) (parses : Bool)
  | sps (id vps : Nat) (parses : Bool) (v : Sps)
  | pps (id : Nat) (parses : Bool) (v : Pps)
  deriving DecidableEq, Repr

/-- What an rtpmap names (R193): H264/90000, H265/90000, or anything else. -/
inductive MediaCodec where
  | h264
  | h265
  | other
  deriving DecidableEq, Repr

/-- A media description of a DESCRIBE answer (R193, R196, R221): whether it is video, its rtpmap, its packetisation mode is the
interleaved one, its sprop-max-don-diff, the sources of its source filter, the parameter sets that it declares, its URL. -/
structure MediaDesc where
  video : Bool
  codec : MediaCodec
  payloadType : Nat
  interleaved : Bool
  donDiff : Nat
  sources : List (List Byte)
  sprop : List ParamSet
  control : List Byte
  deriving DecidableEq, Repr

/-- A challenge of an RTSP server (R186): Basic, Digest with MD5, Digest with SHA-256, with realm and nonce. -/
inductive RtspChallenge where
  | basic (realm : List Byte)
  | digestMd5 (realm nonce : List Byte)
  | digestSha256 (realm nonce : List Byte)
  deriving DecidableEq, Repr

/-- What an RTSP response says (R193): its code; for an answer that the credentials are missing, the challenges it offers; the
target of a redirect; the media descriptions; the transport that the session negotiates: address, ports and SSRC of its flow entry
(R188). -/
structure RtspResponse where
  code : Nat
  unauthorised : Bool
  challenges : List RtspChallenge
  redirect : Option (List Byte)
  media : List MediaDesc
  getParameter : Bool
  sessionTimeout : Nat
  dst : List Byte
  dport : Nat
  src : Option (List Byte)
  ssrc : Option Nat
  deriving DecidableEq, Repr

/-- Why a source counts as lost (R194). -/
inductive LostCause where
  | keepAlive
  | bye
  | idle
  deriving DecidableEq, Repr

/-- The facts of one slice that Quinbuar's parse and the Fountain's decode find (R221, R223 to R227): the picture parameter set that it
refers to, its first CTU or macroblock in decoding order and how many it holds, whether it is a dependent segment, the block in which a syntax error
is found, the bytes of its data, the bins that decoding them takes and the block in which these pass the limit of R225, the entries
of its reference picture lists as constructed, list 0 first, by decode number and none for one that is missing, and whether it uses
syntax outside the table of R211. -/
structure SliceFacts where
  pps : Nat
  first : Nat
  blocks : Nat
  dependent : Bool
  errorAt : Option Nat
  bytes : Nat
  bins : Nat
  passAt : Nat
  refs : List (Option Nat)
  unsupported : Bool
  deriving DecidableEq, Repr

/-- The facts of one access unit that H.264 and H.265 define and Quinbuar's parse finds (R221): the parameter sets that it carries,
its surviving slices in order, picture type, order count, whether it is output, restarts the order counts without being a random-access
picture (H.264 memory management control operation 5) or asks that prior pictures are not output, the decode numbers that its
reference marking keeps, whether its decoded picture hash disagrees, the decode numbers that its marking makes long-term references,
and how many non-existing frames of H.264 the DPB holds as it enters (R224). -/
structure PictureFacts where
  sets : List ParamSet
  slices : List SliceFacts
  irap : Bool
  idrOrBla : Bool
  cra : Bool
  rasl : Bool
  isReference : Bool
  poc : Int
  shown : Bool
  restarts : Bool
  noPriorOutput : Bool
  kept : List Nat
  hashMismatch : Bool
  longTerm : List Nat := []
  inferred : Nat := 0
  deriving DecidableEq, Repr

/-- The section of a STREAM_OPEN block that its SOURCE decides (R420); the manual names its contents without widths. -/
inductive SourceSection where
  | rtsp (transport port : Nat) (url user password : List Byte)
  | rtpFlow (port : Nat) (vlan : Option Nat) (dst : List Byte) (dport : Nat) (src : Option (List Byte))
      (ssrc : Option Nat) (payloadType : Nat) (hevc : Bool)
  | belvedere (port channel dataType width height : Nat) (lanes laneRate : Nat) (laneOrder : List Nat) (polarity : List Bool)
  | hostFormat (format : Nat)
  deriving DecidableEq, Repr

/-- The bank classes of a package's bank map (R298). -/
inductive BankClass where
  | lc
  | be
  | shared
  deriving DecidableEq, Repr

/-- An adaptable layer of a package (R264, R265): its columns N and rows K, where its W4 columns lie in the weight block at the
pitch of R95, the base exponent of each column, and the exponents of A and B. -/
structure AdaptLayer where
  off : Nat
  n : Nat
  k : Nat
  colExp : List Int
  expA : Int
  expB : Int
  deriving DecidableEq, Repr

/-- A Milry package: what R88 to R134, R155, R178, R247, R254, R264 and R298 say it carries. The manual gives the
container no layout, so its parts are operands, each in the bytes that its own rule lays out; `dictionaryAt` is where in Terrace the
tokeniser dictionary lies (R178 names no place). -/
structure Package where
  pkgid : Nat
  images : List (List Byte)
  layers : List Byte
  geometry : List Byte
  filters : List (List Byte)
  bankMap : List BankClass
  dictionary : List Byte
  dictionaryAt : Nat := 0
  weights : List (Nat × List Byte)
  kvLayers : Nat
  kvWidth : Nat
  kvSigned : Bool
  recordLayer : Nat
  adapts : Bool
  adaptSlots : Nat
  adaptLayers : List AdaptLayer
  weightBlock : Nat
  wordBatch : List (Nat × Nat)
  batchNms : Nat
  detectionList : Nat
  detectionPitch : Nat
  detectionLength : Nat
  detectionToken : Nat
  trackLength : Nat
  deriving DecidableEq, Repr

/-- What one point of a training sweep meets on the DRAM's side (R327, R328): the bursts that fail there, each by its index with its
failing lanes. -/
abbrev TrainPoint : Type := List (Nat × List Nat)

/-- A training sweep (R328): points per UI, and its points in order. -/
structure TrainSweep where
  perUi : Nat
  points : List TrainPoint
  deriving DecidableEq, Repr

/-- What the full training of a channel meets at one rate, sweep by sweep (R328). -/
structure ChannelTraining where
  caDelay : TrainSweep
  caVref : TrainSweep
  wck : TrainSweep
  gate : TrainSweep
  readDq : TrainSweep
  writeDq : TrainSweep
  vrefCtl : TrainSweep
  vrefDram : TrainSweep
  quick : TrainPoint
  deriving DecidableEq, Repr

/-- What boot finds (R476): the outcome of the thirteen steps, units that a test fails, the physical columns that S6 finds bad
in each Orangery, the DRAM channels' training, link widths and peers (link, serial, far link), whether the board's own content of a
flash slot is valid, and whether Quinbuar starts within 2 s. -/
structure BootFacts where
  steps : List Bool
  failedIslands : List Nat
  badColumns : List (List Nat)
  badRow : List Bool
  failedPergola : List Bool
  quickCheck : List TrainPoint
  train8533 : List ChannelTraining
  train6400 : List ChannelTraining
  pathDelays : List Nat
  /-- The other time paths and the cue-pin output delays that S5 measures (R197, R459, R513). -/
  ethLatencies : List (Nat × Nat)
  trellisLatencies : List Nat
  pinDelays : List (Nat × Nat × Nat)
  quinbuarStarts : Bool
  linkWidths : List Nat
  peers : List (Nat × Nat × Nat)
  meshOk : Bool
  avsAck : Bool
  /-- The slots that no STAGE has written: MAGIC, LENGTH, hash, key hash and signature are right (R483); their ROLLBACK and KEYIDX. -/
  slotsValid : List Bool
  slotRollback : List Nat := [0, 0]
  slotKey : List Nat := [0, 0]
  /-- TEST_EN is high as MAINGOOD rises (R502). -/
  testEn : Bool := false
  /-- The Orangery under test when S6 fails (R476). -/
  orangeryTested : Nat := 0
  /-- The step during which MAINGOOD falls or a reset comes, so that it does not finish (R480). -/
  cutAt : Option Nat := none
  deriving DecidableEq, Repr

/-- Link errors from which the link recovers by replay (R396). -/
inductive LinkError where
  | receiver
  | badTlp
  | badDllp
  | replayRollover
  | replayTimeout
  deriving DecidableEq, Repr

/-- Fatal errors of a TLP or of the link (R396). -/
inductive FatalError where
  | malformed
  | receiverOverflow
  | flowControl
  | dataLink
  deriving DecidableEq, Repr

/-- PCI Express errors that the Gatehouse detects (R396); a request that is not supported has its BAR0 offset. -/
inductive PcieError where
  | linkRecovered (e : LinkError)
  | poisonedBar0
  | poisonedBar2 (offset : Nat) (bytes : List Byte)
  | poisonedCompletion (addr len : Nat)
  | ecrcWrite
  | ecrcCompletion (addr len : Nat)
  | unsupported (offset : Nat)
  | unexpectedCompletion
  | fatal (e : FatalError)
  deriving DecidableEq, Repr

/-- The classes of work (R273) and real-time ports (R321) as requesters of the memory system. -/
inductive ReqClass where
  | lc
  | be
  | control
  | realTime (port : Nat)
  deriving DecidableEq, Repr

/-- Every command of the block. -/
inductive Instr where
  -- Bandstand time and cues
  | beacon (drift : List Int)
  | beaconMiss (island : Nat)
  | cueIssue (c : Cue)
  | heldCueRelease (t : CueTarget)
  | cueTakeEffect (t : CueTarget)
  | pulseEnd (pin : Nat)
  | strobePeriod (pin : Nat)
  | pinEdge (pin : Nat) (rising : Bool) (stamp : Nat)
  | reflexHoldoffEnd (rule : Nat)
  | ptpMessage (port : Nat) (m : PtpPacket)
  | ppsInEdge (stamp : Nat)
  | disciplineLoss
  | stepApply
  | oscPeriodMeasured (period : Nat)
  | oscChangeover
  | timePllLock
  | aonSupplySwitch (mainMillivolts heldMs : Nat)
  -- The score
  | scoreStart
  | scoreWordIssue
  | nop (lane : Nat)
  | tokenSet
  | tokenAdd
  | claimOpen
  | bell
  | branchFill
  | jump
  | halt
  | scoreHalted
  | tile (orangery : Nat)
  | claim (orangery : Nat)
  | claimFetch (orangery : Nat)
  | lut4 (pergola : Nat)
  | eltwise (pergola : Nat)
  | pool (pergola : Nat)
  | boxdec (pergola : Nat)
  | nms (pergola : Nat)
  | softmax (pergola : Nat)
  | argmax (pergola : Nat)
  | copy (mover : Nat)
  | fetchAhead (mover : Nat)
  | pageFetch (mover : Nat)
  | steer (topiary : Nat)
  | gather
  | assoc
  | update
  | append
  | alist
  | pinLevel
  | pinPulse
  | strobeStart
  | strobeStop
  | reflexArm
  | digest
  | trace
  | opComplete (lane : Nat)
  | gateWatchdog (lane : Nat)
  | scoreRestart
  -- Aviary pages and prompts
  | demandFill (page : Nat)
  | pageFillComplete (page : Nat) (ok : Bool)
  | pageSpill
  | pageSpillComplete (page : Nat) (ok : Bool)
  | promptEncoded (slot : Nat)
  -- Ingest
  | slowPathPacket (port : Nat) (kind : SlowKind)
  | rtpPacket (p : RtpPacket)
  | reorderWindowExpiry (stream : Nat)
  | frameRelease (stream : Nat)
  | rtspResponse (stream : Nat) (r : RtspResponse)
  | rtspKeepalive (stream : Nat)
  | sourceLost (stream : Nat) (cause : LostCause)
  | reconnect (stream : Nat)
  | multicastReport (stream : Nat)
  | rtcpReport (stream : Nat)
  | frameStartPacket (port channel number stamp : Nat)
  | linePacket (port channel dataType : Nat) (payload : List Byte) (headerOk crcOk : Bool) (stamp : Nat)
  | frameEndPacket (port channel number : Nat)
  | dphySyncLoss (port : Nat)
  -- Decode and clips
  | pictureDecodeStart (fountain : Nat) (facts : PictureFacts)
  | pictureDecodeComplete (fountain : Nat)
  | fountainWatchdog (fountain : Nat)
  | clipPictureEncode (session stamp : Nat) (damaged concealed : Bool) (rowBits : List Nat)
  -- Frame pipeline
  | topiaryTake (topiary : Nat)
  | slotGrant (topiary : Nat)
  | slotWriteComplete (topiary : Nat)
  | trainingJobStart
  | trainingJobComplete
  | recordForm (r : RecordForming)
  | recordEmit (stream : Nat)
  | pinNotice
  -- Memory system
  | cacheAccess (addr : Nat) (write full poisoned : Bool) (cls : ReqClass)
  | dramRequest (channel : Nat) (linkError : Nat)
  | beRequestPromote (channel : Nat)
  | refreshInterval (channel : Nat)
  | refreshIssue (channel : Nat)
  | dramTempPoll (hot : List Bool)
  | dramEcsPoll (counts : List Nat)
  | wckTrack (counts : List Nat)
  | scrub (addr : Nat) (flipped : Nat)
  | tlbInvalidate (base size : Nat)
  | hostReadIssue (addr len : Nat)
  | hostReadCompletion (tag : Nat) (error : Bool) (poisoned : Bool)
  | completionTimeout (tag : Nat)
  -- Jasper and locks
  | alloc (pool account n : Nat) (reserve : Bool) (tail : Nat)
  | reserveAllocResume (pool : Nat)
  | retain (index : Nat)
  | release (index : Nat)
  | releaseChain (head : Nat)
  | censusPass (pool : Nat)
  | lockAcquire (lock owner : Nat)
  | lockRelease (lock owner : Nat)
  -- Errors and partial reset
  | errorReport (status island unit stream arg0 arg1 : Nat) (torn poison : Bool)
  | coalesceFlush (island unit : Nat)
  | parityFault (island unit register : Nat)
  | partialReset (island cause : Nat)
  | islandUnfence (selfTestPassed : Bool)
  -- Gatehouse
  | configRequest (write : Bool) (offset : Nat) (value : BitVec 32) (byteEnables : BitVec 4)
  | msixEnable (on functionMask : Bool)
  | vectorUnmask (vector : Nat)
  | powerStateChange (d3hot : Bool)
  | registerWrite (offset : Nat) (value : BitVec 32) (byteEnables : BitVec 4)
  | apertureAccess (write : Bool) (offset : Nat) (bytes : List Byte)
  | keylockWrite (dia : Bool) (value : BitVec 32)
  | keylockExpiry (dia : Bool)
  | sqDoorbell (q tail : Nat)
  | cqDoorbell (head : Nat)
  | drDoorbell (ring head : Nat)
  | ringEnable (value : BitVec 32)
  | timNsRead (eightBytes : Bool)
  | timSnap
  | errTailWrite (tail : Nat)
  | islandResetGo (value : BitVec 32)
  | deviceResetGo (value : BitVec 32)
  | diagWindowAccess (write : Bool) (offset : Nat) (value : BitVec 32)
  | fundamentalReset
  | hotReset
  | flr
  | pcieError (e : PcieError)
  -- Mailbox
  | commandFetch
  | commandComplete
  | notice
  | cmdNop (q cid : Nat)
  | identify (q cid : Nat)
  | hello (q cid : Nat)
  | packageLoad (q cid : Nat) (pkg : Package)
  | streamOpen (q cid : Nat) (sec : SourceSection)
  | streamClose (q cid : Nat)
  | setDecodeMode (q cid : Nat)
  | setAnalyseConcealed (q cid : Nat)
  | setCaptureSet (q cid : Nat) (sec : SourceSection)
  | liftQuarantine (q cid : Nat)
  | setLinks (q cid : Nat)
  | setAdaptationMode (q cid : Nat)
  | streamStats (q cid : Nat)
  | frameSubmit (q cid : Nat)
  | subscribe (q cid : Nat)
  | unsubscribe (q cid : Nat)
  | promptSet (q cid : Nat)
  | promptBind (q cid : Nat)
  | contextSet (q cid : Nat)
  | clipRequest (q cid : Nat)
  | clipCancel (q cid : Nat)
  | adaptAdopt (q cid : Nat)
  | timeConfig (q cid : Nat) (p : TimeParams)
  | timeSet (q cid : Nat)
  | pinConfig (q cid : Nat) (p : PinParams)
  | hostPinLevel (q cid : Nat)
  | hostPinPulse (q cid : Nat)
  | hostStrobeStart (q cid : Nat)
  | hostStrobeStop (q cid : Nat)
  | reflexConfig (q cid : Nat) (p : ReflexParams)
  | netConfig (q cid : Nat) (p : NetParams)
  | setWayMasks (q cid : Nat)
  | setColdTier (q cid : Nat) (base size : Nat)
  | setCensus (q cid : Nat)
  | journalRead (q cid : Nat)
  | stage (q cid : Nat)
  | switch (q cid : Nat)
  | updateResume
  | updateRevert
  | commit (q cid : Nat)
  | ledgerClear (q cid : Nat)
  | ledgerSizes (q cid : Nat)
  | islandReset (q cid : Nat)
  -- Trellis
  | linkTrainingComplete (link : Nat) (passed : Bool) (width : Nat)
  | linkSignalLoss (link : Nat)
  | flitReceive (link : Nat) (flit : List Byte) (fecOk : Bool) (stamp : Nat)
  | flitSlot (link : Nat)
  | ackTimer (link : Nat)
  | nakHoldoffExpiry (link : Nat)
  | replayTimeout (link : Nat)
  | timeReqPeriod
  | timeReq (link : Nat)
  | timeResp (link : Nat)
  | epochAck (src pkgid status prompts : Nat)
  | epochPropose (pkgid epoch chips : Nat)
  | epochTimeout
  | commitPeriod
  | commitMessage (src : Nat) (entries : List (Nat × Nat × Bool × Nat))
  | peerStatePeriod
  | peerState (src : Nat) (members : Nat) (updating : Bool) (links : List (Nat × Nat))
  | peerLossTimeout (chip : Nat)
  | gallery (src srcStream stream : Nat) (ended : Bool) (trackId stamp : Nat) (box : List Nat) (gid : BitVec 64)
      (tag : BitVec 32) (embedding : List Byte)
  | relay (src dst channel : Nat) (message : List Byte)
  | relayRefuse (src dst type mnum : Nat)
  | relayRetry (dst : Nat)
  -- Power, boot, package
  | pwrfail (asserted : Bool) (lowNs : Nat)
  | maingoodFall
  | lastBreathEnd
  | boot (facts : BootFacts)
  | avsAdjust (target : Nat) (ack : Bool)
  | junctionHot (island tj : Nat)
  | thermalTrip (island tj : Nat)
  | timerefLoss (stoppedNs : Nat)
  | unitGate (island : Nat)
  | smbReadTj
  | smbReadTjIsland
  | smbReadStatus
  | smbReadBootstep
  | smbReadStepping
  | smbAlertResponse
  | smbAlertRepeat
  | bypass
  | idcode
  | samplePreload (cells : List Bool)
  | extest
  | tapReset
  | timerefReturn
  | linkSignalReturn (link : Nat)
  | alwaysOnDomainLoss
  | alwaysOnPowerUp
  | interleavedRtpSegment (stream : Nat) (p : RtpPacket)
  | smbUnlistedCommand (code : Nat)
  | perstNDeassert
  deriving DecidableEq, Repr

end Sys2Proof
end

