-- ==== Sys2Proof/Machine/Bytes.lean ====
section
/-! DEFINITION. Bytes: the little-endian order of R10, bit fields by R7, signed fields, saturation, rounding of R127, the
CRC-32C of R334 and R435 and the CRC-64 of R147. -/

namespace Sys2Proof.Machine

/-- The low `n` bytes of `v`, least significant first (R10). -/
def leBytes : (n v : Nat) → List Byte
  | 0, _ => []
  | n + 1, v => BitVec.ofNat 8 v :: leBytes n (v / 256)

/-- The number that bytes stand for, least significant first (R10). -/
def leNat : List Byte → Nat
  | [] => 0
  | b :: bs => b.toNat + 256 * leNat bs

/-- The `n` bytes at offset `off`; bytes beyond the end are left out. -/
def slice (bs : List Byte) (off n : Nat) : List Byte := (bs.drop off).take n

/-- The unsigned field of `n` bytes at offset `off` (R10). -/
def field (bs : List Byte) (off n : Nat) : Nat := leNat (slice bs off n)

/-- Bits [lo + w - 1 : lo] of a number (R7). -/
def bits (v lo w : Nat) : Nat := v / 2 ^ lo % 2 ^ w

/-- Bit `i` of a number (R7). -/
def bitAt (v i : Nat) : Bool := v / 2 ^ i % 2 == 1

/-- A number of `w` bits read as two's complement. -/
def signed (w v : Nat) : Int :=
  let u := v % 2 ^ w
  if u < 2 ^ (w - 1) then (u : Int) else (u : Int) - 2 ^ w

/-- The `w`-bit two's complement code of an integer. -/
def unsigned (w : Nat) (i : Int) : Nat := (i % 2 ^ w).toNat

/-- The signed field of `n` bytes at offset `off`. -/
def sfield (bs : List Byte) (off n : Nat) : Int := signed (8 * n) (field bs off n)

/-- `v` kept within `lo` and `hi`. -/
def clamp (lo hi v : Int) : Int := if v < lo then lo else if hi < v then hi else v

/-- `v` saturated to `w` bits signed. -/
def satS (w : Nat) (v : Int) : Int := clamp (-(2 ^ (w - 1))) (2 ^ (w - 1) - 1) v

/-- `v` saturated to `w` bits unsigned. -/
def satU (w : Nat) (v : Int) : Int := clamp 0 (2 ^ w - 1) v

/-- `a / b` rounded to nearest, halves to even, for `b > 0`. -/
def divHalfEven (a : Int) (b : Nat) : Int :=
  let q := a / (b : Int)
  let r := 2 * (a % (b : Int))
  if r < b then q else if (b : Int) < r then q + 1 else if q % 2 = 0 then q else q + 1

/-- `a / 2^k` rounded to nearest, halves to even; a left shift when `k` is negative. -/
def shiftHalfEven (a : Int) (k : Int) : Int :=
  if k ≤ 0 then a * 2 ^ (-k).toNat else divHalfEven a (2 ^ k.toNat)

/-- `⌈a / b⌉`. -/
def ceilDiv (a b : Nat) : Nat := (a + b - 1) / b

/-- `a` raised to the next multiple of `b`. -/
def roundUp (a b : Nat) : Nat := ceilDiv a b * b

/-- Whether every byte is 0. -/
def allZero (bs : List Byte) : Bool := bs.all (· == 0)

/-- `bs` cut or filled with zero bytes to `n`. -/
def padTo (n : Nat) (bs : List Byte) : List Byte := bs.take n ++ List.replicate (n - bs.length) 0

/-- One bit of a reflected CRC over 32 bits. -/
def crc32Bit (c : BitVec 32) : BitVec 32 := if c.getLsbD 0 then (c >>> 1) ^^^ 0x82F63B78#32 else c >>> 1

/-- One byte of the CRC-32C. -/
def crc32Byte (c : BitVec 32) (b : Byte) : BitVec 32 :=
  crc32Bit (crc32Bit (crc32Bit (crc32Bit (crc32Bit (crc32Bit (crc32Bit (crc32Bit (c ^^^ b.zeroExtend 32))))))))

/-- CRC-32C of RFC 3720 (R334, R435). -/
def crc32c (bs : List Byte) : BitVec 32 := ~~~ (bs.foldl crc32Byte 0xFFFFFFFF#32)

/-- One bit of the CRC-64 whose polynomial ECMA-182 gives, most significant bit first (R147). -/
def crc64Bit (c : BitVec 64) : BitVec 64 := if c.getLsbD 63 then (c <<< 1) ^^^ 0x42F0E1EBA9EA3693#64 else c <<< 1

/-- One byte of the CRC-64. -/
def crc64Byte (c : BitVec 64) (b : Byte) : BitVec 64 :=
  crc64Bit (crc64Bit (crc64Bit (crc64Bit (crc64Bit (crc64Bit (crc64Bit (crc64Bit (c ^^^ (b.zeroExtend 64 <<< 56)))))))))

/-- The integer square root, rounded down, by `n` doublings of the candidate. -/
def isqrtFrom : (n r v : Nat) → Nat
  | 0, r, _ => r
  | n + 1, r, v => let t := r + 2 ^ n; isqrtFrom n (if t * t ≤ v then t else r) v

/-- ⌊√v⌋ for v below 2^64. -/
def isqrt (v : Nat) : Nat := isqrtFrom 32 0 v

/-- Replace element `i` of a list by `f` of it; nothing changes outside the list. -/
def upd {α : Type} (l : List α) (i : Nat) (f : α → α) : List α := l.modify i f

/-- The first position at which `p` holds. -/
def posOf {α : Type} (p : α → Bool) (l : List α) : Option Nat := l.findIdx? p

/-- Rows of `k` elements, the last one short where the list ends; `n` bounds their number. -/
def chunks {α : Type} (k : Nat) : (n : Nat) → List α → List (List α)
  | 0, _ => []
  | _, [] => []
  | n + 1, l => l.take k :: chunks k n (l.drop k)

/-- Insertion of `a` before the first element that `lt a` holds of: with equals it goes after. -/
def insertBy {α : Type} (lt : α → α → Bool) (a : α) : List α → List α
  | [] => [a]
  | b :: l => if lt a b then a :: b :: l else b :: insertBy lt a l

/-- A stable sort. -/
def sortBy {α : Type} (lt : α → α → Bool) (l : List α) : List α := l.foldl (fun acc a => insertBy lt a acc) []

end Sys2Proof.Machine
end

