-- ==== Sys2Proof/Config.lean ====
section
/-! DEFINITION. What a part fixes (R1) and the free values: what the manual leaves to a published standard, to the
resident package or to nobody. A free value is an opaque constant, so nothing in Lean can evaluate it and a claim that
holds, holds whatever it is. -/

namespace Sys2Proof.Config

/-- The free value of width `w` with serial number `n`: the step reads State.freeCount and advances it. -/
opaque freeBits (w : Nat) (n : Nat) : BitVec w

/-- A free natural number with serial number `n`. -/
opaque freeNat (n : Nat) : Nat

/-- The status code that a replica error carries in the error log: R35 names the report and no code. -/
opaque replicaErrorStatus : Nat

/-- The status with which the error log reports that a newer trigger replaced a pending training job: R266 names the report and no
code. -/
opaque supersededStatus : Nat

/-- The error estimate of R54 while the Bandstand is in ACQUIRE, which the manual does not state. -/
opaque acquireErrorEstimate (offset : Int) : Nat

/-- What the prediction of a block takes from an entry of a reference picture list beside its samples: its order count, its motion and
whether it is a long-term reference (the standards' temporal prediction and implicit weights). -/
structure Reference where
  poc : Int
  motion : List Byte
  longTerm : Bool
  deriving DecidableEq, Repr

/-- The motion of a decoded picture, which later pictures predict theirs from: laid down by H.264 and H.265 (R211). -/
opaque decodedMotion (hevc : Bool) (sets : List (List Byte)) (accessUnit : List Byte) (poc : Int) (references : List (List Reference))
    (concealed : List (Nat × Nat)) : List Byte

/-- The decoded sample bytes of an access unit: a function of the codec, of the parameter sets that its slices name, of the access
unit's bytes and order count, of the entries of each slice's reference picture lists with their samples and of the blocks that decode
leaves to concealment, laid down by H.264 and H.265 and not by the manual (R211). -/
opaque decodedPicture (hevc : Bool) (sets : List (List Byte)) (accessUnit : List Byte) (poc : Int)
    (references : List (List (Reference × List Byte))) (concealed : List (Nat × Nat)) (size : Nat) : List Byte

/-- The unspecified samples that the frame store of a withheld damaged picture holds (R223). -/
opaque damagedSamples (n size : Nat) : List Byte

/-- The slice of one clip picture: R236 to R238 fix the tools and the motion vectors, the standard fixes the bits. `place` is the
picture's place behind its IDR picture, 0 for that one itself, and `idrs` the IDR pictures before it, from which the slice header takes its
numbers. The reference is the previous coded picture; a vector is that of a block: x, y, size, then its components in quarter samples. -/
opaque codedSlice (source : List Byte) (reference : Option (List Byte)) (width height : Nat) (hevc : Bool) (place idrs : Nat)
    (vectors : List (Nat × Nat × Nat × Int × Int)) (qps : List Nat) (bits : Nat) : List Byte

/-- The picture that decoding such a slice gives, which is the reference of the next one (R236). -/
opaque codedSamples (source : List Byte) (reference : Option (List Byte)) (width height : Nat) (hevc : Bool) (place idrs : Nat)
    (vectors : List (Nat × Nat × Nat × Int × Int)) (qps : List Nat) (bits : Nat) : List Byte

/-- The parameter sets before an IDR picture of a clip: VPS in HEVC, SPS and PPS, with start codes, for a size, a level and VUI
timing from a period in ns (R236); the standard fixes the bits. -/
opaque clipParameterSets (hevc : Bool) (width height level period : Nat) : List Byte

/-- The quarter-sample interpolation of the standard at a fraction of a sample, over the 8 × 8 integer samples around it (R238). -/
opaque interpolated (hevc : Bool) (taps : List (List Nat)) (fx fy : Nat) : Nat

/-- The bits of a motion vector difference of R238, which the standard's prediction of vectors fixes: by the vectors of the blocks
before it (x, y, size and components), by block and vector. -/
opaque vectorBits (hevc : Bool) (before : List (Nat × Nat × Nat × Int × Int)) (x y size : Nat) (mvx mvy : Int) : Nat

/-- What the clip encoder makes of a 2 × 2 block of a source that is not 4:2:0, channel lists of its four pixels: Y of its first
pixel, Cb and Cr (R236 codes 4:2:0 and no rule says how). -/
opaque encoderSample (rgb : Bool) (pixels : List (List Int)) (channel : Nat) : Nat

/-- What the clip encoder reads of a source outside its picture, where a crop reaches beyond it: no rule says (R231, R237). -/
opaque beyondPicture (x y channel : Nat) : Nat

/-- A DQ delay after a reading of the WCK oscillator count, by the delay, the count before and the count read (R330). -/
opaque trackedDelay (delay before now : Nat) : Nat

/-- λ(QP) of R238, a fixed table whose entries the manual does not give. -/
opaque lambdaTable (qp : Nat) : Nat

/-- SHA-384 of R483. -/
opaque sha384 (body : List Byte) : List Byte

/-- Which of the values that it may find a unit finds that reads a byte without the writer's token, by the read's serial number and the
byte's address: an earlier one by its place, or the newest (R18, log 169). -/
opaque staleRead (serial addr : Nat) : Nat

/-- The interface identifier of an Ethernet port, which SLAAC joins to a prefix (R186); the standard and the port's own address fix it. -/
opaque interfaceId (port : Nat) : BitVec 64

/-- ECDSA P-384 verification of R483. -/
opaque ecdsaVerify (pubkey header sig : List Byte) : Bool

/-- The fused SHA-384 hash of key `k` of R483. -/
opaque fusedKeyHash (k : Nat) : List Byte

/-- The pages that the package's text encoder makes of a token list (R180): bytes of KV layer `l`, page `p`. -/
opaque textEncoder (pkgid : Nat) (tokens : List Nat) (l p : Nat) : List Byte

/-- The key tag and value tag of token `t` of a prompt in KV layer `l`, which the package's text encoder makes (R156, R180). -/
opaque textTags (pkgid : Nat) (tokens : List Nat) (l t : Nat) : Nat × Nat

/-- The key tag and value tag of token `t` of host rows in KV layer `l` (CONTEXT_SET of R419, R156). -/
opaque contextTags (pkgid : Nat) (rows : List Byte) (l t : Nat) : Nat × Nat

/-- The tokens that host rows hold in the package's context format (CONTEXT_SET of R419). -/
opaque contextTokens (pkgid : Nat) (rows : List Byte) : Nat

/-- The pages that the package's context format gives for host rows (CONTEXT_SET of R419). -/
opaque contextRows (pkgid : Nat) (rows : List Byte) (l p : Nat) : List Byte

/-- The 16 ATTR bytes of an object entry, in the layout that the package declares (R433); `prompt` holds the tokens that the frame uses
(R180). -/
opaque attributes (pkgid stream frame detection : Nat) (prompt : List Nat) : List Byte

/-- The events of a frame that the package's event head gives, each with its KIND above 0x8000 and its DATA (R434); `prompt` as above. -/
opaque eventHead (pkgid stream frame : Nat) (prompt : List Nat) : List (Nat × List Byte)

/-- The embedding of a detection, tag and codes: the package's embedder makes it, with the tokens that the frame uses (R180), and the
manual gives it no place (R176). -/
opaque embedding (pkgid stream frame detection : Nat) (prompt : List Nat) : Nat × List Byte

/-- The gallery entry that the package's gallery head matches to an embedding, by position among the entries (R177). -/
opaque galleryMatch (pkgid : Nat) (embedding : List Byte) (entries : List (List Byte)) : Option Nat

/-- The exact ACC32 gradient of one adapter parameter over a minibatch of augmented slots with their labels, at the
parameter's own scale: the package's training section computes it (R267). -/
opaque gradient (pkgid : Nat) (minibatch : List (List Byte × List (List Byte))) (adapter : List Int) (parameter : Nat) : Int

/-- The ACC32 loss of one validation sample under an adapter: the package's training section computes it (R268). -/
opaque validationLoss (pkgid : Nat) (adapter : List Int) (sample : List Byte) (labels : List (List Byte)) : Int

/-- What an island register reads through the diagnostics window (R403), whose internal layout no chapter gives. -/
opaque islandRegister (island offset serial : Nat) : BitVec 32

end Sys2Proof.Config
end

