-- ==== Sys2Proof/Machine/State.lean ====
section
/-! DEFINITION. The state of the block as plain data: every register, queue, counter, mode and pin that the manual gives
the package, in one structure per unit, and the queue of the commands that are waiting. Each field names its rule and its
value after reset. Times are Bandstand nanoseconds unless a field says otherwise. -/

namespace Sys2Proof.Machine

/-- A sparse table: pairs of a key and a value, keys strictly rising. -/
abbrev Tab (α : Type) := List (Nat × α)

/-- A memory: addresses strictly rising, no entry equal to 0, which is what an unlisted address reads as. -/
abbrev Memory := List Host.Cell

/-- The states of the Bandstand (R48), in the order of TIM_STATE.STATE (R399). -/
inductive TimeState where
  | free
  | acquire
  | locked
  | holdover
  deriving DecidableEq, Repr

/-- The PTP clock of one Ethernet port (R197): the chosen master and the exchange in progress. Reset: empty. -/
structure PtpPort where
  /-- Data set and port identity of the best master announced (R197); reset none. -/
  master : Option (List Byte × List Byte)
  /-- Sequence number of the Sync whose follow-up is awaited (R197); reset none. -/
  syncSeq : Option Nat
  /-- Origin time of the last Sync plus its correction, in 2^-16 ns (R197); reset 0. -/
  t1 : Int
  /-- Hardware stamp of the last Sync, in 2^-16 ns (R197); reset 0. -/
  t2 : Int
  /-- Whether t1 and t2 belong to one completed Sync (R197); reset false. -/
  haveSync : Bool
  /-- Sequence number of the next delay request, 16 bits (R197); reset 0, DESIGN CHOICE (log 6). -/
  nextReq : Nat
  /-- Sequence number of the delay request sent whose hardware stamp is awaited (R197); reset none. -/
  asked : Option Nat
  /-- Sequence number and stamp of the delay request sent (R197); reset none. -/
  t3 : Option (Nat × Int)
  /-- The masters that have announced themselves, by port identity, each with the steady time of its last Announce, and the time of the
  last one of the best master (R197); reset none and 0. -/
  foreign : List (List Byte × Nat) := []
  heard : Nat := 0
  deriving DecidableEq, Repr

/-- The Bandstand (R31 to R59). -/
structure Band where
  /-- Master count, 96 bits: 64 of nanoseconds, 16 of fraction, 16 hidden, in units of 2^-32 ns (R31); reset 0, DESIGN CHOICE (log 6). -/
  count : Nat
  /-- Steady count of elapsed nanoseconds, 2 per time-PLL cycle (R366); reset 0, DESIGN CHOICE (log 6). -/
  steady : Nat
  /-- Island 0's own time in 2^-16 ns, on either clock (R56, R515); reset 0. -/
  aon : Nat := 0
  /-- The count runs on the time PLL; false while it runs on the oscillator (R56); reset true. -/
  onPll : Bool
  /-- Rate correction in 2^-32 ppb, within 200,000 ppb (R31, R48); reset 0, DESIGN CHOICE (log 6). -/
  rate : Int
  /-- TIM_STATE.STATE, 2 bits (R48, R399); reset FREE. -/
  tstate : TimeState
  /-- TIM_STATE.SOURCE, 3 bits (R399); reset none. -/
  source : TimeSource
  /-- Preference order of the sources (R47); reset Trellis, PTP 0, PTP 1, PPS_IN, host. -/
  order : List TimeSource
  /-- Integral of the servo, in 2^-16 ns (R48); reset 0. -/
  integ : Int
  /-- Offset of the last sample, in 2^-16 ns (R48); reset 0, DESIGN CHOICE (log 6). -/
  lastTheta : Int
  /-- Consecutive samples within the lock bound (R48); reset 0. -/
  lockRun : Nat
  /-- Consecutive samples beyond 10,000 ns while LOCKED (R48); reset 0. -/
  badRun : Nat
  /-- Step waiting for its beat boundary, in 2^-16 ns (R51); reset none. -/
  pendingStep : Option Int
  /-- Step being removed by slewing at the full rate, in 2^-32 ns (R52); reset 0. -/
  slewLeft : Int
  /-- The host has enabled steps in service (R52); reset false, DESIGN CHOICE (log 6). -/
  stepsInService : Bool
  /-- Seconds are known from PTP or a host set since time was lost (R50); reset false. -/
  secondsKnown : Bool
  /-- Holdover growth of the error estimate in ns per second (R54); reset 1,000. -/
  holdoverRate : Nat
  /-- Error estimate when the present state was entered (R54); none reads as unknown; reset none. -/
  errBase : Option Nat
  /-- Bandstand count in ns at which errBase was taken (R54); reset 0, DESIGN CHOICE (log 6). -/
  errFrom : Nat
  /-- Steady time of the last sample of the current source (R47, R49); reset 0, DESIGN CHOICE (log 6). -/
  lastSample : Nat
  /-- PTP Sync interval as n in 1/2^n s, 0 to 7 (R49); reset 3. -/
  syncLog : Nat
  /-- Measured oscillator period in 2^-16 ns (R56); reset 30,517 ns and 0x9400. -/
  oscPeriod : Nat
  /-- PPS_OUT width in ns (R50); reset 10 ms. -/
  ppsOutWidth : Nat
  /-- Instant of the next edge of PPS_OUT's cue series, in ns: a rise at a whole second, or the fall that ends the width (R50);
  reset 0, DESIGN CHOICE (log 6). -/
  ppsNext : Nat
  /-- PPS_OUT is high (R50); reset false. -/
  ppsOut : Bool
  /-- Late cues of PPS_OUT (R40, R51); reset 0. -/
  ppsLate : Nat
  /-- PTP domain 0 to 127 (R197); reset 0, DESIGN CHOICE (log 6). -/
  ptpDomain : Nat
  /-- PTP transport: 0 UDP IPv4, 1 UDP IPv6, 2 IEEE 802.3 (R197); reset 0, DESIGN CHOICE (log 6). -/
  ptpTransport : Nat
  /-- ASYM of each Trellis link in ns (R460); reset 0. -/
  asym : List Int
  /-- The PTP clocks of ports 0 and 1 (R197). -/
  ptp : List PtpPort
  /-- Time is marked lost (R58); reset false. -/
  timeLost : Bool
  /-- Nanosecond count of the last beacon sent (R34); reset 0. -/
  lastBeacon : Nat
  /-- The two words of the last beacon: the count, Gray-coded, and the rate correction in units of 2^-24 (R34); reset 0. -/
  beaconCount : BitVec 64
  beaconRate : BitVec 16
  deriving DecidableEq, Repr

/-- The side of a clock island that other rules name (R16, R34, R35, R368). -/
structure Island where
  /-- Replica minus master count in ns as the last beacon found it (R34); reset 0, DESIGN CHOICE (log 6). -/
  replicaErr : Int
  /-- What the replica slews out before the next beacon, in ns (R34); reset 0, DESIGN CHOICE (log 6). -/
  slew : Int
  /-- Rate word of the last beacon (R34); reset 0, DESIGN CHOICE (log 6). -/
  rateWord : BitVec 16
  /-- Time-ready (R35); reset false. -/
  ready : Bool
  /-- Consecutive beacons that agreed within 4 ns (R35); reset 0. -/
  agree : Nat
  /-- Consecutive beacons missed (R35); reset 0. -/
  missed : Nat
  /-- The next beacon does not reach it (R35, log 196); reset false. -/
  skips : Bool
  /-- Path delay from boot step S5 in ns (R34); reset 0 before the ledger is loaded. -/
  pathDelay : Nat
  /-- Fenced by the start ledger until LEDGER_CLEAR (R481); reset false. -/
  bootFenced : Bool
  /-- Power-gated (R489); reset false. -/
  gated : Bool
  /-- Woken from power gating and not time-ready since (R489); reset false. -/
  waking : Bool
  /-- Its units in their safe state after a parity fault (R363); reset none. -/
  safe : List Nat
  deriving DecidableEq, Repr

/-- A cue in a queue with its issue time in Bandstand ns (R38), and whether its island was time-ready when it received it (R36). -/
structure QueuedCue where
  cue : Cue
  issued : Nat
  ready : Bool := true
  deriving DecidableEq, Repr

/-- One cue pin (R40 to R44). -/
structure Pin where
  /-- Mode (R42); reset DISABLED. -/
  mode : PinMode
  /-- Edge and the other parameters of R42 and R40; reset rising, 0, active high, false, 4 mA, 0, 0, 0, 0, DESIGN CHOICE (log 6). -/
  par : PinParams
  /-- Base level set by a cue or the configuration (R43); reset false, DESIGN CHOICE (log 6). -/
  base : Bool
  /-- Cue queue of 16 for score and host (R41); reset empty. -/
  cues : List QueuedCue
  /-- Score cues that the distributor holds while the queue is full (R41); reset empty. -/
  held : List Cue
  /-- Reflex queue of 16 (R41); reset empty. -/
  reflex : List QueuedCue
  /-- End of the active time of the pulses (R43); reset none. -/
  pulseEnd : Option Nat
  /-- Next period of the strobe train and pulses left, none for unlimited (R42); reset none. -/
  train : Option (Nat × Option Nat)
  /-- Timestamp queue of 64: rising flag and stamp (R44); reset empty. -/
  stamps : List (Bool × Nat)
  /-- Stamp of the first held stamp that no notice carries yet (R436); reset none. -/
  firstHeld : Option Nat
  /-- Last edge stamped (R44); reset none. -/
  lastEdge : Option Nat
  /-- Overflow counter (R44); reset 0. -/
  overflow : Nat
  /-- Missed counter (R40, R41); reset 0. -/
  missedCues : Nat
  /-- Misdirected counter (R43); reset 0. -/
  misdirected : Nat
  /-- Late-cue counter (R40); reset 0. -/
  lateCues : Nat
  deriving DecidableEq, Repr

/-- One reflex rule (R45). -/
structure Reflex where
  /-- The fields of R45; reset source 0, rising, disarmed, target 0, level off, 0, 0, DESIGN CHOICE (log 6). -/
  par : ReflexParams
  /-- End of the hold-off (R45); reset none. -/
  holdUntil : Option Nat
  /-- Edges suppressed during hold-off (R45); reset 0. -/
  suppressed : Nat
  deriving DecidableEq, Repr

/-- A slot op that its cue has released to its unit (R63, R66). -/
structure IssuedOp where
  /-- The 64-bit slot op (R63). -/
  word : BitVec 64
  /-- Its beat (R62). -/
  beat : Nat
  /-- Its instant in ns (R37). -/
  instant : Nat
  /-- When it was released to its unit, steady ns, from which the gate watchdog counts (R70). -/
  since : Nat
  /-- The batch id and the number of the batch that it belongs to, where it belongs to one (R87, R289). -/
  ctx : Option (Nat × Nat)
  /-- Its cue was late (R36, R39, R40). -/
  late : Bool := false
  /-- When the sequencer issued it, Bandstand ns; of an op of lane 54 (R38, R39). -/
  issued : Option Nat := none
  deriving DecidableEq, Repr

/-- An op that its unit has started (R66, R68). -/
structure RunningOp where
  /-- The op. -/
  op : IssuedOp
  /-- Pages that it pins until it completes (R169). -/
  pages : List Nat
  /-- Its last effect has been made; OP_COMPLETE makes it visible and signals (R68). -/
  finished : Bool
  deriving DecidableEq, Repr

/-- One of the 56 lanes (R61, R66). -/
structure Lane where
  /-- Cue queue of 16 (R41); reset empty. -/
  cues : List QueuedCue
  /-- Score cues held at the distributor (R41); reset empty. -/
  held : List Cue
  /-- Ops whose instant has come, oldest first (R66); reset empty. -/
  due : List IssuedOp
  /-- The op that occupies the unit (R66); reset none. -/
  running : Option RunningOp
  /-- Late starts (R66); reset 0. -/
  lateStarts : Nat
  /-- Late-cue counter (R40, R370); reset 0. -/
  lateCues : Nat
  deriving DecidableEq, Repr

/-- A claim counter (R71, R79, R80). -/
structure Claim where
  /-- Value, 32 bits (R79); reset 0. -/
  value : Nat
  /-- Limit, 21 bits (R71); reset 0. -/
  limit : Nat
  deriving DecidableEq, Repr

/-- One slot of a batch as granted (R256, R257). -/
structure Slot where
  /-- Stream, device frame number, crop index and rank (R257). -/
  stream : Nat
  frame : Nat
  crop : Nat
  rank : Nat
  /-- FLAGS[1] full-frame crop, FLAGS[2] concealed source, FLAGS[3] augmented, FLAGS[4] poison (R257). -/
  full : Bool
  concealed : Bool
  augmented : Bool
  poison : Bool
  /-- Crop and inner rectangles (R257). -/
  cx : Nat
  cy : Nat
  cw : Nat
  ch : Nat
  ox : Nat
  oy : Nat
  iw : Nat
  ih : Nat
  /-- Adapter version and training epoch (R257). -/
  aver : Nat
  epoch : Nat
  /-- FLAGS[0] filled, and whether the Topiary has written the slot (R256, R259). -/
  filled : Bool
  written : Bool
  deriving DecidableEq, Repr

/-- One batch of a batch id (R255, R256, R289): an "instance" of the manual. -/
structure Batch where
  /-- Its number, from 0 at package load (R255). -/
  num : Nat
  /-- Its slots in order (R256). -/
  slots : List Slot
  /-- The bell time once BELL has closed it (R71). -/
  bellAt : Option Nat
  /-- FILLTOK has been signalled (R256). -/
  signalled : Bool
  /-- The status of the job fault that tore it down (R87). -/
  torn : Option Nat
  /-- The stream to which that fault is attributed (R291). -/
  blame : Option Nat
  /-- The Topiary lanes whose STEER for it has started (R255). -/
  steered : List Nat
  /-- Late starts of its ops (R40, R66). -/
  lateStarts : Nat
  /-- For each length register that Quinbuar wrote for it, the length of every frame's own sample: stream, frame, length (R78). -/
  lens : List (Nat × List (Nat × Nat × Nat))
  /-- The gathered rows that its slot table flags invalid: stream, frame, frame-relative row (R168). -/
  invalid : List (Nat × Nat × Nat)
  deriving DecidableEq, Repr

/-- One batch id (R254 to R256, R274). -/
structure BatchId where
  /-- Number of the next batch to open (R255); reset 0. -/
  next : Nat
  /-- BELL ops issued for it, so that the ops that follow a BELL belong to the batch it closes (R71); reset 0. -/
  issued : Nat
  /-- The open batch (R255); reset none. -/
  cur : Option Batch
  /-- Batches closed by BELL whose work is not done, oldest first (R255); reset empty. -/
  closed : List Batch
  /-- Fill count frozen at the last BELL (R71); reset 0. -/
  fill : Nat
  /-- Bell time of the last BELL (R71, R72); reset none. -/
  lastBell : Option Nat
  /-- First bell beat bi (R275); reset 0. -/
  firstBell : Nat
  /-- Bell period in beats (R274); reset 0. -/
  period : Nat
  deriving DecidableEq, Repr

/-- An entry of the trace ring (R64, R149). -/
inductive TraceEntry where
  | marker (value beat : Nat)
  | digest (layer stream frame : Nat) (value : BitVec 64)
  deriving DecidableEq, Repr

/-- One output row's measure (R136, R141): held until the batch's last op completes. A row that no frame owns is measured for its
tag alone; `tags` are the addresses of the row's tag, one for each output region that ops of the layer wrote. -/
structure Measure where
  layer : Nat
  batch : Nat
  num : Nat
  row : Nat
  owned : Bool
  stream : Nat
  frame : Nat
  frameRow : Nat
  slot : Nat
  need : Option Int
  satn : Nat
  tags : List Nat
  deriving DecidableEq, Repr

/-- What the token block has done with a token in one local cycle (R67, log 209): the count of the cycle, the sum after its increments,
the value of its TOKEN_SET, and what its tests have consumed. -/
structure TokenCycle where
  count : Nat
  sum : Nat
  setTo : Option Nat
  used : Nat
  deriving DecidableEq, Repr

/-- The score sequencer, token block, claim counters and length registers of island 39 (R60 to R91). -/
structure Score where
  /-- The resident score image of this chip (R88); reset empty. -/
  image : List Byte
  /-- The sequencer reads words (R62, R71); reset false. -/
  running : Bool
  /-- A halt is requested (R74); reset false. -/
  haltReq : Bool
  /-- The score is stopped for a swap or an update (R74); reset false. -/
  stopped : Bool
  /-- The start waits for the score epoch (R90); reset false. -/
  armed : Bool
  /-- The gate watchdog has halted the sequencer (R70); reset false. -/
  watchdogHalt : Bool
  /-- Byte offset of the next word within the cue stream (R62); reset 0. -/
  pc : Nat
  /-- Beat that the next word covers (R62); reset 0. -/
  beat : Nat
  /-- The score epoch in ns (R37, R90); reset 0. -/
  epoch : Nat
  /-- Word offset that the JUMP which halted the score would have read (R487); reset 0. -/
  resumeAt : Nat
  /-- The JUMP, HALT or BRANCH_FILL that the sequencer has read and not yet evaluated: it reads no further word before
  (R71, R72); reset none. -/
  control : Option (BitVec 64)
  /-- Instant of the last completion of a started op, in ns (R70); reset 0. -/
  lastDone : Nat
  /-- rb and C of R274: beat of the first visit of RESTART and the spacing, none when the stream ends in HALT; reset 0, none. -/
  restartBeat : Nat
  restartSpacing : Option Nat
  /-- The 56 lanes (R61). -/
  lanes : List Lane
  /-- The 4,096 gate tokens, 16 bits each, 0 when not listed (R65); reset 0. -/
  tokens : Tab Nat
  /-- The last local cycle of each token in which the token block acted on it (R67, log 209); reset none. -/
  cycles : Tab TokenCycle
  /-- The 64 claim counters (R79). -/
  claims : List Claim
  /-- The 32 length registers, 32 bits each (R78); reset 0. -/
  lens : List Nat
  /-- The 64 batch ids (R254). -/
  batches : List BatchId
  /-- The trace ring, oldest first (R64); reset empty. -/
  trace : List TraceEntry
  /-- The measure buffers (R136); reset empty. -/
  measures : List Measure
  /-- The latches that are set: layer, batch id, bank, slot (R141); reset empty. -/
  latches : List (Nat × Nat × Nat × Nat)
  /-- Garnet digests by layer, stream, frame (R148); reset empty. -/
  digests : List (Nat × Nat × Nat × BitVec 64)
  deriving DecidableEq, Repr

/-- One Orangery (R92, R105, R108). Its local store lies in device memory (R302). -/
structure Orangery where
  /-- The bad ones of the 136 physical columns, from the start ledger (R108); reset none. -/
  badColumns : List Nat
  /-- Skipped-tile count (R79); reset 0. -/
  skipped : Nat
  /-- The accumulator banks of the cells, 2 × 128 × 136 × 32 bits, by (bank × 128 + row) × 136 + physical column (R92); reset 0,
  DESIGN CHOICE (log 6). -/
  banks : Tab (BitVec 32)
  /-- The pass registers of the cells, 24 bits, by row × 136 + physical column (R92); reset 0, DESIGN CHOICE (log 6). -/
  pass : Tab (BitVec 24)
  /-- What waits in the 8-entry elastic links of the feeders and drains, by link: 128 rows, 136 columns, 136 drains (R92). A tile
  fills and empties them within its step; reset empty. -/
  links : Tab (List (BitVec 32))
  deriving DecidableEq, Repr

/-- A run-ahead fault that is still live (R85): the mover that marked it, its status and whether an op has faulted on it. -/
structure DeferredFault where
  id : Nat
  mover : Nat
  status : Nat
  used : Bool
  deriving DecidableEq, Repr

/-- One way of a system-cache set (R307 to R309). -/
structure CacheWay where
  valid : Bool
  line : Nat
  dirty : Bool
  poison : Bool
  deriving DecidableEq, Repr

/-- One set of the system cache: sixteen ways and the fifteen tree bits (R307, R309). -/
structure CacheSet where
  ways : List CacheWay
  tree : List Bool
  deriving DecidableEq, Repr

/-- The work that a unit reads a DRAM line for (R326): a frame of a stream by its serial number, or an Aviary page. -/
inductive Reader where
  | none
  | frame (stream id : Nat)
  | page (d : Nat)
  deriving DecidableEq, Repr

/-- A request waiting at a DRAM controller (R320). -/
structure DramReq where
  line : Nat
  write : Bool
  /-- The bytes that a write puts or a read needs, bit i for byte i (R324). -/
  enables : BitVec 64
  /-- The bytes of a read that the write queue forwards; none of a write (R324). -/
  overlay : BitVec 64
  /-- A write's line carries a poison mark; a read's line has its poison-map bit set (R325). -/
  poisoned : Bool
  cls : ReqClass
  /-- The score lane whose op reads the line, where one does (R305, R326). -/
  lane : Option Nat
  since : Nat
  promoted : Bool
  /-- What the line is read for, where no lane's op reads it (R326). -/
  reader : Reader := .none
  deriving DecidableEq, Repr

/-- What a controller's pattern generator drives (R327). -/
inductive TrainPattern where
  | prbs7
  | prbs15
  | prbs31
  | walkingOne
  | walkingZero
  | set
  deriving DecidableEq, Repr

/-- A controller's training helpers (R327): the pattern, the 64 bytes that Quinbuar set, the inverted lanes, whether it drives the CA bus
or fills write bursts; the compare helper's error counts, those of the 16 DQ and 2 DMI bits and behind them those of the CA bits, and the
first failing burst. -/
structure TrainHelper where
  pattern : TrainPattern
  bytes : List Byte
  inverted : List Nat
  onCa : Bool
  counts : List Nat
  firstFail : Option Nat
  deriving DecidableEq, Repr

/-- What training selects for a channel (R328): a place in each sweep; per CA bit, per byte, per DQ and DMI bit. -/
structure DramDelays where
  caDelay : List Nat
  caVref : Nat
  wck : Nat
  gate : List Nat
  readDq : List Nat
  writeDq : List Nat
  vrefCtl : Nat
  vrefDram : Nat
  deriving DecidableEq, Repr

/-- One DRAM channel with its controller (R317 to R330). -/
structure Channel where
  /-- Fenced until the next boot (R329); reset false. -/
  fenced : Bool
  /-- On the conservative 6400 MT/s profile (R329); reset false. -/
  conservative : Bool
  /-- In self-refresh (R368); reset false. -/
  selfRefresh : Bool
  /-- Requests in order of presentation, the write queue's entries among them (R308, R320, R324); reset empty. -/
  queue : List DramReq
  /-- Owed refreshes, 0 to 8 (R322); reset 0. -/
  owed : Nat
  /-- A refresh is forced (R322); reset false. -/
  forced : Bool
  /-- Pairs refreshed in the current round (R323); reset none. -/
  round : List Nat
  /-- Banks that a real-time burst holds open (R323); reset none. -/
  heldBanks : List Nat
  /-- Forced refreshes that interrupted a burst, status 0x0623 (R323); reset 0. -/
  interrupted : Nat
  /-- tREFIpb in ns (R319); reset 488. -/
  trefi : Nat
  /-- Link errors corrected (R326); reset 0. -/
  corrected : Nat
  /-- Last WCK oscillator count and the delay adjustment made from it (R330); reset 0, DESIGN CHOICE (log 6). -/
  wckCount : Nat
  /-- Pattern generator and compare helper (R327); reset DESIGN CHOICE (log 6). -/
  helper : TrainHelper
  /-- The delays and Vrefs in use (R328, R330); reset none. -/
  delays : Option DramDelays
  /-- Lines whose poison-map bit is set (R325); reset none. -/
  poisonMap : List Nat
  deriving DecidableEq, Repr

/-- A device read of host memory waiting for or holding a tag (R392). -/
structure HostRead where
  tag : Option Nat
  addr : Nat
  len : Nat
  reserved : Bool
  /-- An op of the score waits for the data (R314). -/
  forOp : Bool
  deriving DecidableEq, Repr

/-- A cached translation (R316): the 4 KiB page of the windows, and its entry of R312, a 2 MiB leaf as `big`. -/
structure TlbEntry where
  page : Nat
  word : Nat
  big : Bool
  deriving DecidableEq, Repr

/-- An SRAM byte whose write not every unit sees (R18): the values that a reader may still find, the lane of the writer, the tokens that
have signalled its completion, and the lanes that have waited on one of them. -/
structure Unsettled where
  olds : List Byte
  lane : Nat
  tokens : List Nat
  seen : List Nat
  deriving DecidableEq, Repr

/-- The memory system (R302 to R332). -/
structure Mem where
  /-- The device address map below the windows, byte by byte (R302); what an unlisted byte reads as is 0, DESIGN CHOICE (log 5). -/
  bytes : Memory
  /-- Host memory (R302, R405); an unlisted byte reads 0, DESIGN CHOICE (log 5). -/
  host : Memory
  /-- 64-bit SRAM words that carry a poison mark, by address (R305); reset none. -/
  sramPoison : List Nat
  /-- Lines of marked bytes with the status of the mark's first source, by address / 64 (R361); reset none. -/
  causes : Tab Nat
  /-- The status of the first source of the mark that was read last (R361); reset 0. -/
  cause : Nat
  /-- Host lines of 64 bytes whose reads fail or arrive poisoned, with 0x0604 or 0x0901 (R314, R396); reset none. -/
  hostBad : Tab Nat
  /-- Those of them whose completions fail ECRC (R361, R396); reset none. -/
  hostEcrc : List Nat
  /-- SRAM words that hold a correctable error (R305); reset none. -/
  sbe : List Nat
  /-- SRAM words that hold an uncorrectable error (R305); reset none. -/
  ue : List Nat
  /-- Deferred-faulty bytes: address and fault (R85); reset none. -/
  deferred : Tab Nat
  /-- The faults that deferred bytes name (R85); reset none. -/
  faults : List DeferredFault
  /-- Serial number of the next deferred fault (the model's own); reset 0. -/
  nextFault : Nat
  /-- Discarded-fault counters of the 24 movers (R85); reset 0. -/
  discarded : List Nat
  /-- SRAM bytes that a unit has written and that not every other unit sees (R18); reset none. -/
  unsettled : Tab Unsettled
  /-- Serial number of the reads that may meet such a byte (the model's own, log 169); reset 0. -/
  mixes : Nat
  /-- The SRAM bytes written since a unit's writes began, while they are gathered (the model's own, R18); reset none. -/
  noting : Option (List Nat) := none
  /-- What the unit at work reads DRAM lines for (the model's own, R326); reset none. -/
  reader : Reader := .none
  /-- System-cache sets that hold something, by slice × 512 + set (R307); reset none. -/
  cache : Tab CacheSet
  /-- Way masks of LC, BE and Control, 16 bits each (R297); reset 0x03FF, 0x3C00, 0xC000. -/
  wayMasks : List Nat
  /-- Base of the level-1 translation table (R311); reset 0, set in boot step S8. -/
  l1Base : Nat
  /-- The shared TLB by set of 8 ways, newest first (R316, log 43); reset none. -/
  tlb : Tab (List TlbEntry)
  /-- The micro-TLBs of the requester groups, 32 entries each, newest first (R316, log 43); reset none. -/
  micro : List (List TlbEntry) := List.replicate 6 []
  /-- Host lines that have arrived for ops that wait (R314); reset none. -/
  hostIn : List Nat
  /-- The 16 channels. -/
  chans : List Channel
  /-- Last error-check-and-scrub count of each DRAM die (R326, log 42); reset none, which stands for 0 (DESIGN CHOICE, log 6). -/
  ecsCounts : List Nat
  /-- Ports RT0 to RT15 in panic (R321); reset false. -/
  panic : List Bool
  /-- Panic thresholds of the ports in bytes (R321), loaded from the ledger; reset 0 before the load. -/
  thresholds : List Nat
  /-- Host reads waiting or outstanding (R392); reset none. -/
  reads : List HostRead
  /-- Corrections counted per Terrace bank for 0x0015 (R367): count and start of its 60 s; reset 0. -/
  corrections : List (Nat × Nat)
  deriving DecidableEq, Repr

/-- The kinds of sequence (R152). -/
inductive SeqKind where
  | track
  | context
  | prompt
  | gallery
  deriving DecidableEq, Repr

/-- A token record (R157) with the tags of its key and value rows per KV layer (R156). -/
structure Token where
  slot : Nat
  frame : Nat
  stamp : Nat
  box : List Nat
  score : Nat
  cls : Nat
  det : Nat
  flags : Nat
  tags : List (Nat × Nat × Nat)
  /-- The tokens of the prompt that its frame used (R176, R180; the model's own). -/
  prompt : List Nat := []
  deriving DecidableEq, Repr

/-- A live entry of the sequence table (R153); STREAM is 0xFF for a PROMPT. -/
structure Seq where
  kind : SeqKind
  stream : Nat
  parent : Option Nat
  trackId : Nat
  ntok : Nat
  ppages : Nat
  head : Nat
  hits : Nat
  misses : Nat
  first : Nat
  last : Nat
  gid : Nat
  dropped : Nat
  tokens : List Token
  deriving DecidableEq, Repr

/-- The tiers of a page (R159, R162). -/
inductive Tier where
  | hot
  | warm
  | cold
  | moving
  deriving DecidableEq, Repr

/-- A page descriptor (R159) with the backing that admission reserved for the page (R163). -/
structure Page where
  tier : Tier
  count : Nat
  poison : Bool
  pins : Nat
  frame : Nat
  lastUse : Nat
  /-- Its reserved backing: cold or warm, and the frame there (R163). -/
  backCold : Bool
  backFrame : Nat
  /-- The tier that a moving page comes from (R162, R164). -/
  source : Tier
  /-- Moved into the hot tier by a prefetch that nothing has used yet (R86). -/
  prefetched : Bool
  /-- Head of the Jasper cells that its transfer holds, 0 for none (R165, R338). -/
  cells : Nat
  /-- The status that marked it: 0x0504, or 0x0640 (R166, R358). -/
  fillStatus : Nat
  deriving DecidableEq, Repr

/-- An effect that an Aviary op has written to a frame's journal (R174). The codes of a token are by KV layer: key, value and
whether a byte carried a mark. -/
inductive AviaryEffect where
  | hit (seq det : Nat)
  | miss (seq : Nat)
  | ends (seq : Nat)
  | birth (det seq trackId gid : Nat)
  | refused (count : Nat)
  | token (seq : Nat) (tok : Token) (kv : List (Nat × List Byte × List Byte × Bool))
  | publish (seq stream : Nat) (ended : Bool)
  deriving DecidableEq, Repr

/-- One frame's journal (R174). -/
structure FrameJournal where
  stream : Nat
  frame : Nat
  effects : List AviaryEffect
  deriving DecidableEq, Repr

/-- A prompt slot (R152, R180): its text, which a package swap tokenises again (R294), its tokens, its sequence once encoded,
and the command that set it. -/
structure Prompt where
  text : List Byte
  tokens : List Nat
  seq : Option Nat
  cmd : Option (Nat × Nat)
  deriving DecidableEq, Repr

/-- A gallery entry (R176). -/
structure GalleryEntry where
  chip : Nat
  stream : Nat
  ended : Bool
  trackId : Nat
  stamp : Nat
  box : List Nat
  gid : Nat
  tag : Nat
  codes : List Byte
  deriving DecidableEq, Repr

/-- The Aviary, island 38 (R152 to R182). -/
structure Aviary where
  /-- Live sequences by id, 0 to 16,383 (R152, R153); reset none. -/
  seqs : Tab Seq
  /-- Page descriptors by index (R159); reset none. -/
  pages : Tab Page
  /-- Mapping of page slots: (sequence × 16 + layer) × 256 + slot to descriptor index (R156, R159); reset none. -/
  maps : Tab Nat
  /-- Sequence-table address, fixed in boot step S9 (R153); reset 0. -/
  seqTable : Nat
  /-- Base of the warm tier's carve-out (R154, R162); reset 0x0014_0000_0000, DESIGN CHOICE (log 6). -/
  warmBase : Nat
  /-- Cold region: host base and size in bytes (R162); reset none. -/
  cold : Option (Nat × Nat)
  /-- Frames reserved by admission, and whether in the cold tier (R163), by owner: stream s at s, its CONTEXT at 128 + s, its
  GALLERY at 256 + s, prompt slot p at 384 + p; reset none. -/
  reserved : Tab (Bool × Nat)
  /-- Attention lists by the address at which ALIST wrote them: page descriptors (R168); reset none. -/
  alists : Tab (List Nat)
  /-- Pages whose fill waits or runs (R162, R164); reset none. -/
  fills : List Nat
  /-- Pages whose spill runs (R164); reset none. -/
  spills : List Nat
  /-- Pages whose transfer waits for Jasper cells (R341); reset none. -/
  starved : List Nat
  /-- Overflow-copy counter (R160), declined and unused prefetches (R84, R164), births refused (R173); reset 0. -/
  overflowCopies : Nat
  declined : Nat
  unused : Nat
  birthsRefused : Nat
  /-- Per-frame journals (R174); reset none. -/
  journals : List FrameJournal
  /-- The 64 prompt slots (R152); reset none. -/
  prompts : List (Option Prompt)
  deriving DecidableEq, Repr

/-- A datagram that is being reassembled (R186): the places and sizes of its fragments, and its length once the last is there. -/
structure FragmentBuf where
  id : Nat
  got : List (Nat × Nat)
  total : Option Nat
  deriving DecidableEq, Repr

/-- An Ethernet port (R186, R187, R196). -/
structure EthPort where
  /-- Settings (R186); reset none. -/
  net : Option NetParams
  /-- Slow-path packets in the present second and the second's start, steady ns (R187); reset 0. -/
  slowCount : Nat
  slowFrom : Nat
  /-- Slow-path packets for the Lodge (R187); reset 0. -/
  slowTaken : Nat
  /-- Packets dropped beyond the rate, and PAUSE and unsupported frames dropped (R186, R187); reset 0. -/
  slowDropped : Nat
  pauseDropped : Nat
  unsupported : Nat
  /-- IPv4 address obtained by DHCP, and IPv6 addresses formed by SLAAC (R186); reset none. -/
  lease : Option (List Byte)
  autoAddrs : List (List Byte)
  /-- Datagrams that are being reassembled (R186); reset none. -/
  parts : List FragmentBuf
  /-- Addresses that ARP or Neighbor Discovery could not resolve (R186, R208); reset none. -/
  unresolved : List (List Byte)
  /-- The older IGMP version that a querier on the link speaks, and until when it counts, steady ns (R186); reset none. -/
  oldQuerier : Option (Nat × Nat)
  /-- Multicast groups joined: address, and for each stream that uses it the sources that its filter gives (R196); reset none. -/
  groups : List (List Byte × List (Nat × List (List Byte)))
  /-- Addresses for which the port has sent an ARP or Neighbor Discovery request (R186); reset none. -/
  asked : List (List Byte) := []
  deriving DecidableEq, Repr

/-- A flow-table entry (R188). -/
structure Flow where
  port : Nat
  vlan : Option Nat
  dst : List Byte
  dport : Nat
  src : Option (List Byte)
  ssrc : Option Nat
  payloadType : Nat
  hevc : Bool
  deriving DecidableEq, Repr

/-- A packet that the depacketiser holds for an access unit not yet released (R189, R190): RTP timestamp, marker, payload,
arrival. -/
structure Piece where
  ts : Nat
  marker : Bool
  payload : List Byte
  stamp : Nat
  /-- Sum of the steps applied since it arrived, in ns (R495 ruling 20). -/
  shift : Int := 0
  deriving DecidableEq, Repr

/-- The depacketiser's state of one stream (R188 to R192). -/
structure Rtp where
  flow : Option Flow
  /-- The SSRC that an "any" entry follows (R191); reset none. -/
  ssrc : Option Nat
  /-- Extended number after the newest packet, and the last number of the newest access unit released (R191); reset none. -/
  expected : Option Nat
  released : Option Nat
  /-- RTP timestamp of an access unit that a full jitter buffer released lost: what else of it arrives is late (R191, R192). -/
  cut : Option Nat
  /-- Packets held, by extended sequence number (R190); reset none. -/
  pieces : Tab Piece
  /-- Packets discarded, late packets, missing markers (R189 to R191); reset 0. -/
  discarded : Nat
  late : Nat
  missingMarker : Nat
  /-- Steady time of the last arrival (R194). -/
  lastArrival : Nat
  deriving DecidableEq, Repr

/-- The states of an RTSP session (R193, R194). -/
inductive RtspPhase where
  | idle
  | options
  | describe
  | setup
  | play
  | playing
  | lost
  | failed
  deriving DecidableEq, Repr

/-- The RTSP client of one stream (R193, R194, R196). -/
structure Rtsp where
  phase : RtspPhase
  transport : Nat
  port : Nat
  /-- The URL that requests name: the host's, or the target of a redirect (R193). -/
  url : List Byte
  /-- The challenge that requests answer with the host's credentials, once the server has made one (R186, R193). -/
  auth : Option RtspChallenge
  /-- The media description that the session takes (R193). -/
  media : Option MediaDesc
  redirects : Nat
  timeout : Nat
  getParameter : Bool
  lastSent : Nat
  /-- Failed reconnections since the loss, and when the next is due, steady ns (R194). -/
  attempts : Nat
  retryAt : Nat
  /-- Unsolicited membership reports still to send, and when the next is due (R196). -/
  reportsLeft : Nat
  reportAt : Nat
  /-- When the last RTCP report left (R196). -/
  rtcpAt : Nat
  /-- The STREAM_OPEN that waits for the session: ring and tag (R193). -/
  openCmd : Option (Nat × Nat)
  /-- The RTSP version that the client speaks: 2.0, and 1.0 with a server that does not know it (R186; DESIGN CHOICE, log 236). -/
  version : Nat := 2
  deriving DecidableEq, Repr

/-- A capture set (R200). -/
structure CaptureSet where
  port : Nat
  channel : Nat
  dataType : Nat
  width : Nat
  height : Nat
  deriving DecidableEq, Repr

/-- The frame that a Belvedere port is storing (R201, R203). -/
structure CaptureFrame where
  number : Nat
  stamp : Nat
  lines : Nat
  head : Nat
  tailCell : Nat
  damaged : Nat
  truncated : Nat
  extra : Nat
  complete : Bool
  /-- Serial number of the frame that it became (the model's own). -/
  id : Nat
  /-- Sum of the steps applied since its start, in ns (R495 ruling 20). -/
  shift : Int := 0
  deriving DecidableEq, Repr

/-- The capture side of a Belvedere stream (R200 to R203). -/
structure Capture where
  active : CaptureSet
  shadow : CaptureSet
  /-- The commit pending: its steady time and the commands to complete at its adoption (R202). -/
  pending : Option (Nat × List (Nat × Nat))
  frame : Option CaptureFrame
  /-- Discarded lines and irregularities carried as events by the next frame served: status and count (R203). -/
  events : List (Nat × Nat)
  missingEnd : Nat
  deriving DecidableEq, Repr

/-- A Belvedere port (R198, R203). -/
structure SensorPort where
  lanes : Nat
  laneRate : Nat
  /-- Lane order and per-lane polarity as the host set them (R198); reset none. -/
  laneOrder : List Nat
  polarity : List Bool
  discarded : Nat
  eccErrors : Nat
  deriving DecidableEq, Repr

/-- The stage that a frame has reached (R19, R183). -/
inductive FrameStage where
  | queued
  | landing
  | decoding
  | reordering
  | ready
  | cropping
  | waiting
  | launched
  | detected
  | skipped
  | formed
  deriving DecidableEq, Repr

/-- One crop of a frame (R250 to R253): index, full-frame flag, rectangle. -/
structure Crop where
  full : Bool
  x : Nat
  y : Nat
  w : Nat
  h : Nat
  deriving DecidableEq, Repr

/-- One detection after the frame-level NMS (R258, R433). -/
structure Detection where
  box : List Nat
  score : Nat
  cls : Nat
  deriving DecidableEq, Repr

/-- One event entry of a record (R434): KIND, STATUS and the data bytes. -/
structure Event where
  kind : Nat
  status : Nat
  data : List Byte
  deriving DecidableEq, Repr

/-- One frame of a stream, from its ingest queue to its record (R183, R282). -/
structure Frame where
  /-- Serial number within the stream in order of ingest (the model's own). -/
  id : Nat
  /-- Device frame number once it has one (R218). -/
  num : Option Nat
  /-- Frame timestamp, time zero and OUTREADY (R184, R219). -/
  stamp : Nat
  tzero : Nat
  outReady : Nat
  hostStamp : Bool
  /-- Sum of the steps applied since it landed, in ns: its launch deadline and age limit move by it (R495 ruling 20). -/
  shift : Int
  /-- Head cell of its chain and the bytes it holds (R183, R334). -/
  head : Nat
  size : Nat
  /-- The capture set that it was captured with (R201). -/
  set : Option CaptureSet
  /-- Lost mark (R190). -/
  lost : Bool
  /-- RTP timestamp of an access unit that came over Ethernet (R192). -/
  rtpTs : Option Nat
  /-- It has entered landing (R183). -/
  landed : Bool
  stage : FrameStage
  /-- Outcome so far: skip reason of R432 with its status, 0 while served. -/
  reason : Nat
  status : Nat
  /-- Decode results (R216): the facts, the active parameter set, the first status that damaged or concealed the picture, the frame
  store, concealed mark, count of concealed blocks. -/
  facts : Option PictureFacts
  sps : Option Sps
  firstMark : Nat
  store : Option Nat
  concealed : Bool
  ccount : Nat
  /-- The full decode of a withheld reference picture goes on although the frame is not analysed (R220). -/
  decodeOnly : Bool
  /-- Crops (R252) and the slots granted: batch id, number, first slot. -/
  crops : List Crop
  slotAt : Option (Nat × Nat × Nat)
  /-- Poison: set, with the status of the first source (R361). -/
  poison : Option Nat
  /-- Layers latched for its samples whose ACTION is 1, and the sum of their WIDEMAX in µs (R145, R286). -/
  widened : Nat
  widenMax : Nat
  /-- The prompt slot that its timestamp selects, once it has launched (R180). -/
  prompt : Option Nat
  /-- The layers latched for its samples whose widen path runs (R145). -/
  wideLayers : List Nat
  /-- Flagged rows, saturated accumulators and late starts of its work (R145, R146, R433). -/
  flagged : Nat
  satAcc : Nat
  late : Nat
  galleryMissing : Bool
  detections : List Detection
  events : List Event
  /-- Times at which the stages were reached (R433). -/
  times : List Nat
  /-- Whether its Topiary has taken it, and then the adapter version that it uses with that version's codes (R266, R269). -/
  taken : Bool
  aver : Nat
  adapter : List Int
  /-- Slots as written, with their bytes, that the sample cache will take (R260). -/
  samples : List (Slot × List Byte)
  deriving DecidableEq, Repr

/-- A picture that a decoder keeps (R218, R223, R226): decode number, order count, damage and concealment marks, frame store. Its
`frameId` is the serial number of its frame; in a clip's decode it is the landing order of its source. -/
structure RefPicture where
  dec : Nat
  frameId : Nat
  stamp : Nat
  poc : Int
  damaged : Bool
  concealed : Bool
  store : Nat
  reference : Bool
  /-- It waits for the output process, and the pictures that have overtaken it there (R218). -/
  waiting : Bool
  latency : Nat
  /-- It is not output (R218): the standard removes it without. -/
  hidden : Bool
  /-- It is a whole copy, placed in output directly after the picture before it (R227). -/
  copy : Bool
  /-- A reset of its Fountain has marked it damaged as a reference (R230). -/
  spoiled : Bool
  /-- What its SPS says (R216). -/
  sps : Sps
  /-- It was shed and is not decoded (R220): it goes through the output process without a frame store (R218). -/
  bare : Bool := false
  /-- Its motion, and whether it is a long-term reference, for the pictures that name it (R211). -/
  motion : List Byte := []
  longTerm : Bool := false
  deriving DecidableEq, Repr

/-- The decode modes (R222). -/
inductive DecodeMode where
  | contain
  | startup
  | test
  | recovery
  deriving DecidableEq, Repr

/-- The parameter sets that Quinbuar stores (R221): VPS ids, SPS by id with the VPS each names, PPS by id. -/
structure ParamStore where
  vps : List Nat
  sps : Tab (Nat × Sps)
  pps : Tab Pps
  deriving DecidableEq, Repr

/-- A decode context (R222 to R230): of a stream on its Fountain, or of a clip (R234). -/
structure Decoder where
  hevc : Bool
  mode : DecodeMode
  joined : Bool
  inDamage : Bool
  inherit : Bool
  /-- The last random-access picture had NoRaslOutputFlag 1, so its RASL pictures cannot be decoded (R224). -/
  raslDrop : Bool
  pictures : List RefPicture
  nextDec : Nat
  /-- Parameter sets stored, and the active SPS (R215, R221). -/
  sets : ParamStore
  sps : Option Sps
  /-- Frame store and order count of the most recently decoded picture (R227). -/
  last : Option Nat
  lastPoc : Int
  deriving DecidableEq, Repr

/-- An adapter (R264): version, the codes of A and B in order, digest. -/
structure Adapter where
  version : Nat
  codes : List Int
  digest : BitVec 64
  deriving DecidableEq, Repr

/-- A candidate that waits for adoption (R269). -/
structure Candidate where
  trigger : Nat
  codes : List Int
  digest : BitVec 64
  deriving DecidableEq, Repr

/-- The fields of a STREAM_OPEN block (R420), each in its own width, by their names there. -/
structure OpenBlock where
  source : Nat
  cls : Nat
  batch : Nat
  pool : Nat
  period : Nat
  maxW : Nat
  maxH : Nat
  depth : Nat
  dpb : Nat
  cmax : Nat
  fullN : Nat
  peakPix : Nat
  peakBits : Nat
  margin : Nat
  minPad : Nat
  missMax : Nat
  modes : Nat
  maxTracks : Nat
  tp : Nat
  preroll : Nat
  xperiod : Nat
  xdelay : Nat
  beMaxAge : Nat
  wr : Nat
  idle : Nat
  seed : Nat
  cquota : Nat
  cstride : Nat
  epochs : Nat
  adaptN : Nat
  jitter : Nat
  bmax : Nat
  cmaxP : Nat
  lr : Nat
  plMin : Nat
  plHits : Nat
  vmin : Nat
  gmargin : Nat
  deriving DecidableEq, Repr

/-- The nine outcome counts of R422, in its order. -/
structure Counts where
  served : Nat
  delayed : Nat
  late : Nat
  shedBe : Nat
  refused : Nat
  damaged : Nat
  concealed : Nat
  fault : Nat
  widened : Nat
  deriving DecidableEq, Repr

/-- A subscription that takes a record, as it stood when the record was formed (R425): kind, id, which SUBSCRIBE began it, types. -/
structure Taker where
  udp : Bool
  id : Nat
  born : Nat
  types : Nat
  deriving DecidableEq, Repr

/-- A record formed and not yet emitted (R437): device frame number, bytes. -/
structure FormedRecord where
  frame : Nat
  bytes : List Byte
  /-- What forming it once more from its sources gives (R362). -/
  source : List Byte := []
  /-- The subscriptions that take it (R425). -/
  takers : List Taker := []
  deriving DecidableEq, Repr

/-- A retained access unit of a pre-roll ring (R233): landing stamp, chain, bytes, IRAP, frame timestamp, lost mark. -/
structure RingUnit where
  tzero : Nat
  head : Nat
  size : Nat
  irap : Bool
  stamp : Nat
  lost : Bool
  deriving DecidableEq, Repr

/-- One open stream (R277, R420). -/
structure Stream where
  cfg : OpenBlock
  sec : SourceSection
  /-- Units that the stream is assigned to (R213, R244), steering age (R22). -/
  fountain : Option Nat
  topiary : Nat
  age : Nat
  /-- Adapter slot, adopted adapter, candidate in HOLD, pending adoption with its timestamp (R264, R269). -/
  adapterSlot : Option Nat
  adapter : Adapter
  candidate : Option Candidate
  adoptFrom : List (Nat × Candidate)
  autoAdopt : List Candidate
  hold : Bool
  /-- Frame credit in quarter nanoseconds of P: c = credit / (4 P) (R281), and the previous frame's timestamp. -/
  credit : Int
  prevStamp : Option Nat
  /-- Step to subtract from the next frame's spacing (R495 ruling 20). -/
  creditStep : Int
  /-- Next ingest serial number and next device frame number (R218). -/
  nextId : Nat
  nextNum : Nat
  /-- Frames in the ingest queue and in landing and later, oldest first (R183, R21). -/
  frames : List Frame
  rtp : Rtp
  rtsp : Rtsp
  capture : Option Capture
  /-- Decode state (R222 to R228). -/
  dec : Decoder
  modeChange : Option (DecodeMode × Nat × Nat)
  analyseConcealed : Bool
  storeBase : Nat
  stores : Nat
  /-- Quarantine and the count of R292. -/
  quarantined : Bool
  faultRun : Nat
  /-- Outcome counts (R422), counts since the last overload notice and its time (R288). -/
  counts : Counts
  shedSince : Nat
  refusedSince : Nat
  overloadAt : Option Nat
  /-- Tracking: next track id, device frame number of the newest committed frame and its timestamp (R173, R174). -/
  nextTrack : Nat
  committed : Option (Nat × Nat)
  /-- Steering states by device frame number, newest first: per track its id and its newest two own tokens as frame and box
  (R250, R251). -/
  steers : List (Nat × List (Nat × List (Nat × List Nat)))
  lastOutcome : Option Nat
  /-- Links and gallery (R176), newest committed timestamps of linked sources: chip, stream, stamp, closed (R177). -/
  links : List (Nat × Nat)
  gallery : List GalleryEntry
  commits : List (Nat × Nat × Nat × Bool)
  /-- Prompt bindings: timestamp and slot, oldest first, and their number so far (R180, R433). -/
  bindings : List (Nat × Option Nat)
  pgen : Nat
  context : Option Nat
  /-- Pre-roll ring: landing stamp, head cell, size, IRAP, frame timestamp (R233). -/
  ring : List RingUnit
  /-- Records formed and not emitted, next frame to emit, records dropped on its rings (R437, R422). -/
  formed : List FormedRecord
  nextEmit : Nat
  ringDrops : Nat
  /-- Events for the next record (R434). -/
  nextEvents : List Event
  /-- Sample-cache entries skipped (R261). -/
  cacheSkipped : Nat
  newestDigest : BitVec 64
  newestTrigger : Nat
  closing : Bool
  deriving DecidableEq, Repr

/-- What a Fountain decodes (R214, R234): a frame of a stream by its serial number, or the next source of a clip session. -/
inductive DecodeTarget where
  | stream (n id : Nat)
  | clip (i : Nat)
  deriving DecidableEq, Repr

/-- A Fountain (R214, R225): what it decodes, the facts, steady time of the start. -/
structure Fountain where
  busy : Option (DecodeTarget × PictureFacts × Nat)
  paused : Bool
  /-- The address windows that Quinbuar has set for the picture: those it may read, and the frame store that it may write (R225);
  reset none. -/
  reads : List (Nat × Nat)
  writes : List (Nat × Nat)
  /-- The frame store that the picture in decode takes (R216); reset 0. -/
  store : Nat
  deriving DecidableEq, Repr

/-- A source that a clip references (R234): frame timestamp, head cell, bytes, lost mark, and the capture set of a sensor frame. -/
structure ClipSource where
  stamp : Nat
  head : Nat
  size : Nat
  lost : Bool
  set : Option CaptureSet
  deriving DecidableEq, Repr

/-- A picture that a clip's decode has put out and that waits for the encoder (R235): its parameter set and place of its samples. -/
structure ClipPicture where
  stamp : Nat
  damaged : Bool
  concealed : Bool
  sps : Sps
  store : Nat
  deriving DecidableEq, Repr

/-- A clip session (R231 to R241). -/
structure Clip where
  q : Nat
  cid : Nat
  stream : Nat
  hevc : Bool
  decim : Nat
  rateMode : Nat
  gop : Nat
  qinit : Nat
  qmin : Nat
  qmax : Nat
  cx : Nat
  cy : Nat
  cw : Nat
  ch : Nat
  t0 : Nat
  t1 : Nat
  rate : Nat
  drain : Nat
  buffer : Nat
  idxAddr : Nat
  idxLen : Nat
  bufs : List (Nat × Nat)
  /-- When it was accepted, steady ns (R214), and what it takes of its stream: the declaration, the section, the Fountain. -/
  accepted : Nat
  cfg : OpenBlock
  sec : SourceSection
  fountain : Option Nat
  /-- Sources referenced and not yet decoded, or not yet coded where the stream is not compressed (R234). -/
  sources : List ClipSource
  /-- Its decode context, its frame stores of the retention budget, and the pictures that wait for the encoder in output order (R234,
  R235). -/
  dec : Decoder
  storeBase : Nat
  stores : Nat
  ready : List ClipPicture
  /-- The previous coded picture as decoded, the reference of the next (R236). -/
  reference : Option (List Byte)
  /-- f of R239 as a fraction over the denominator `den`, qprev, coded pictures, bytes written, index entries, omitted. -/
  fnum : Int
  den : Nat
  qprev : Nat
  coded : Nat
  written : Nat
  omitted : Nat
  firstStamp : Option Nat
  lastStamp : Option Nat
  endStatus : Option Nat
  lastLanded : Bool
  deriving DecidableEq, Repr

/-- A Topiary's work (R245): stream, frame serial number, class BE, and the slots asked for or being written. -/
structure TopiaryJob where
  stream : Nat
  frame : Nat
  be : Bool
  asked : Bool
  granted : Bool
  deriving DecidableEq, Repr

/-- A Topiary (R244, R245). -/
structure Topiary where
  cur : Option TopiaryJob
  suspended : Option TopiaryJob
  deriving DecidableEq, Repr

/-- An entry of the decoded sample cache (R260). -/
structure CachedSample where
  stream : Nat
  frame : Nat
  slot : Slot
  bytes : List Byte
  labels : List (List Byte)
  deriving DecidableEq, Repr

/-- A training job (R266): stream, trigger frame, starting adapter, snapshot. -/
structure TrainJob where
  stream : Nat
  trigger : Nat
  /-- The adapter version that it starts from, and its codes. -/
  version : Nat
  start : List Int
  samples : List (Nat × Nat)
  since : Nat
  deriving DecidableEq, Repr

/-- A Jasper pool (R337 to R342). -/
structure Pool where
  /-- POOLBASE, N, F, RINGBASE, OWNERBASE (R337); reset 0 before boot step S9. -/
  base : Nat
  size : Nat
  floor : Nat
  ringBase : Nat
  ownerBase : Nat
  /-- Cells never taken yet start here, and released cells in order of release (R339). -/
  fresh : Nat
  freed : List Nat
  /-- Cells that a RETAIN took from the ring without an ALLOC (R344). -/
  lent : List Nat
  /-- The cells in the on-chip head and tail caches, oldest first (R339). -/
  head : List Nat
  tail : List Nat
  /-- Quotas and used counts of the accounts (R338), by account. -/
  quota : Tab Nat
  used : Tab Nat
  /-- The reserve ALLOCs that wait, in order of arrival: account, cells, tail (R341, R343). -/
  waiting : List (Nat × Nat × Nat)
  /-- Head index of the last ALLOC answered (R340). -/
  lastHead : Nat
  /-- Event counters by status (R337). -/
  events : Tab Nat
  /-- Ring entries written back behind the first N − 1, and read, so far (R339). -/
  ringTail : Nat
  ringHead : Nat
  /-- Findings of the last census pass: cell, COUNT, expected (R345), and its steady time. -/
  findings : List (Nat × Nat × Nat)
  censusAt : Option Nat
  deriving DecidableEq, Repr

/-- One hardware lock (R346). -/
structure Lock where
  /-- Held or free (R346); reset free. -/
  held : Bool
  /-- Owner id, 16 bits (R346); reset 0. -/
  owner : Nat
  /-- BROKEN (R346); reset false. -/
  broken : Bool
  deriving DecidableEq, Repr

/-- An error-log report (R364). -/
structure Report where
  stamp : Nat
  status : Nat
  island : Nat
  unit : Nat
  stream : Nat
  arg0 : Nat
  arg1 : Nat
  torn : Bool
  poison : Bool
  deriving DecidableEq, Repr

/-- One error source: a pair of island and unit (R365, R366). -/
structure ErrorSource where
  island : Nat
  unit : Nat
  /-- First-error capture register (R365). -/
  captured : Option Report
  /-- Open interval: status and steady start (R366). -/
  interval : Option (Nat × Nat)
  /-- Coalesce counter, 16 bits, with the first coalesced report and the flags that any of them set (R365, R366). -/
  counter : Nat
  first : Option Report
  anyTorn : Bool
  anyPoison : Bool
  /-- Dropped counter, 32 bits (R365). -/
  dropped : Nat
  deriving DecidableEq, Repr

/-- The error log (R364 to R367). -/
structure ErrLog where
  /-- Head, 32 bits (R364); reset 0. -/
  head : Nat
  /-- Tail, 32 bits (R364); reset 0. -/
  tail : Nat
  /-- Entries and reports dropped since the last overflow entry and the time of the first drop (R367); reset 0. -/
  droppedEntries : Nat
  droppedReports : Nat
  firstDrop : Nat
  /-- Terrace address of the ring, ERR_BASE (R400); reset 0. -/
  base : Nat
  /-- The sources that have reported (R365); reset none. -/
  sources : List ErrorSource
  /-- ERR_STAT NEW, OVERFLOW, HALF (R400); reset 0. -/
  stat : BitVec 3
  /-- S9 has set the register BASE (R400); reset false. -/
  placed : Bool := false
  deriving DecidableEq, Repr

/-- A partial reset in progress or waiting (R368, R372): island, cause, steady time of the request, and the ISLAND_RESET command
that asked for it. -/
structure ResetJob where
  island : Nat
  cause : Nat
  since : Nat
  cmd : Option (Nat × Nat)
  deriving DecidableEq, Repr

/-- The Gatehouse, island 2 (R376 to R404). -/
structure Gate where
  /-- Configuration space: the writable dwords by offset (R377, R378); reset 0 but for Device Control. -/
  cfg : Tab (BitVec 32)
  /-- Registers of BAR0 that hold what was last written or set, by offset (R397 to R403); the reset values of R397 to R403. -/
  regs : Tab (BitVec 32)
  /-- MSI-X table: address, data and mask of the 64 vectors (R376); reset 0 and masked, PRESUMED (log 7). -/
  msix : List (BitVec 64 × BitVec 32 × Bool)
  /-- PBA bits (R389); reset 0. -/
  pba : BitVec 64
  /-- MSI-X Enable and Function Mask (R389, R391); reset 0. -/
  msixOn : Bool
  funcMask : Bool
  /-- INTA is asserted (R390); reset false. -/
  inta : Bool
  /-- D3hot (R379); reset false. -/
  d3hot : Bool
  /-- The link is up, and fundamental reset is released (R393); reset false. -/
  linkUp : Bool
  /-- Configuration requests are answered: S4 is complete (R477); reset false. -/
  configReady : Bool
  /-- The island whose reset PWR_ISLRST has started, while its GO reads 1 (R401); reset none. -/
  islrst : Option Nat
  /-- Steady time at which PWR and DIA were unlocked (R384); reset none. -/
  pwrKey : Option Nat
  diaKey : Option Nat
  /-- Time latch: NS_HI and FRAC (R399); reset 0. -/
  latchHi : BitVec 32
  latchFrac : BitVec 16
  /-- Correctable link errors counted (R396); reset 0. -/
  linkErrors : Nat
  /-- LCK counters REFUSED and BROKENACQ, 16 bits (R402); reset 0. -/
  lockRefused : Nat
  lockBroken : Nat
  /-- Sticky AER status, by error (R396); reset none. -/
  aer : List Nat
  /-- A reset that came while island 2 was fenced: 1 hot reset, 2 FLR (R495 ruling 13); reset 0. -/
  heldReset : Nat
  /-- A host session has ended, and the host has not enabled a ring since: no host request starts (R394); reset false. -/
  sessionOver : Bool
  deriving DecidableEq, Repr

/-- A command that Quinbuar has fetched (R408, R412): its ring, its 64 bytes' fields, whether it was fetched poisoned,
SQHEAD after it, and once it has ended its status, result and whether RBUF was written. -/
structure HostCmd where
  q : Nat
  cid : Nat
  opc : Nat
  flags : Nat
  plen : Nat
  pbuf : Nat
  rbuf : Nat
  rlen : Nat
  reservedZero : Bool
  args : List Byte
  poisoned : Bool
  sqHead : Nat
  stamp : Nat
  started : Bool
  done : Option (Nat × Nat × Bool)
  /-- What its completion writes to RBUF (R414); none as fetched. -/
  buffer : List Byte := []
  /-- The block of a SUBSCRIBE that has run, for its settings to apply at the completion (R425); none as fetched. -/
  block : List Byte := []
  deriving DecidableEq, Repr

/-- A notice (R423). -/
structure NoticeMsg where
  status : Nat
  stream : Nat
  result : Nat
  deriving DecidableEq, Repr

/-- A submission ring (R405 to R409). -/
structure SubRing where
  head : Nat
  tail : Nat
  running : Bool
  /-- Landing stamps of doorbells: the tail written and its time (R411). -/
  bells : List (Nat × Nat)
  deriving DecidableEq, Repr

/-- A delivery-ring subscription (R424 to R428). -/
structure RingSub where
  types : Nat
  vector : Nat
  streams : Nat
  pins : Nat
  base : Nat
  size : Nat
  statAddr : Nat
  tail : Nat
  headCount : Nat
  dropped : Nat
  /-- Which SUBSCRIBE began it (R425); a replacing one keeps it. -/
  born : Nat := 0
  deriving DecidableEq, Repr

/-- A UDP subscription (R206, R424). -/
structure UdpSub where
  types : Nat
  streams : Nat
  pins : Nat
  port : Nat
  family : Nat
  vlan : Nat
  dscp : Nat
  hops : Nat
  payload : Nat
  dport : Nat
  sport : Nat
  saddr : List Byte
  daddr : List Byte
  seq : Nat
  /-- Datagrams that wait while the port cannot send (R208). -/
  backlog : List (List Byte)
  dropped : Nat
  /-- Which SUBSCRIBE began it (R425). -/
  born : Nat := 0
  deriving DecidableEq, Repr

/-- A record that waits in the backlog of UDP destinations, each with the record's SEQ there (R440). -/
structure UnsentRecord where
  stream : Nat
  frame : Nat
  bytes : List Byte
  dests : List (Nat × Nat)
  deriving DecidableEq, Repr

/-- A notice record that waits to be formed (R440): stream, pins, entries. -/
structure HeldNotice where
  stream : Option Nat
  pins : Nat
  entries : List Event
  deriving DecidableEq, Repr

/-- A request of Quinbuar that has met TARGET_RESET (R370): which, how often, and the fence that it met last by the time at which its reset
was asked for. -/
structure Retry where
  request : Nat
  tries : Nat
  fence : Nat
  deriving DecidableEq, Repr

/-- The mailboxes (R405 to R429). -/
structure Mailbox where
  /-- Submission rings 0 to 3 (R405); reset counts 0, stopped. -/
  sq : List SubRing
  /-- Completion ring: entries written, host count, running, entries reserved (R406, R408); reset 0. -/
  cqTail : Nat
  cqHead : Nat
  cqRunning : Bool
  reserved : Nat
  /-- Commands in progress in order of fetch (R408); reset none. -/
  cmds : List HostCmd
  /-- Commands that have ended, in order of completion (R410); reset none. -/
  ended : List HostCmd
  /-- Pending notices, at most 64, and those dropped (R423); reset none. -/
  notices : List NoticeMsg
  noticesDropped : Nat
  /-- Completions and notices discarded while CQEN is clear (R409); reset 0. -/
  discarded : Nat
  /-- Minor version of the session, none without one (R417); reset none. -/
  session : Option Nat
  /-- Delivery-ring and UDP subscriptions (R424); reset none. -/
  rings : List (Option RingSub)
  udp : List (Option UdpSub)
  /-- Subscriptions begun (R425); reset 0. -/
  subCount : Nat := 0
  /-- Records sent to UDP destinations whose ports cannot send (R208, R440); reset none. -/
  unsent : List UnsentRecord := []
  /-- Notice records whose forming waits (R440); reset none. -/
  heldNotices : List HeldNotice := []
  /-- Requests to be retried after an unfence (R370); reset none. -/
  retries : List Retry := []
  deriving DecidableEq, Repr

/-- A record of the metadata journal (R439): stream, frame, type, bytes, acknowledged, recovered. -/
structure JournalRec where
  stream : Nat
  frame : Nat
  bytes : List Byte
  recovered : Bool
  deriving DecidableEq, Repr

/-- A package load in progress (R294, R463): its command, the image of this chip, the step reached (1 awaits a proposal, 2 the
halt), the steady time at which it was verified, and the epoch agreed. -/
structure LoadJob where
  q : Nat
  cid : Nat
  pkg : Package
  image : List Byte
  step : Nat
  since : Nat
  epoch : Option Nat
  deriving DecidableEq, Repr

/-- A flit kept for replay (R448): sequence number, channel, first and last flags, payload, stored check. -/
structure KeptFlit where
  seq : Nat
  vc : Nat
  first : Bool
  last : Bool
  payload : List Byte
  check : Nat
  deriving DecidableEq, Repr

/-- The states of a Trellis link (R446). -/
inductive LinkState where
  | down
  | training
  | up
  | retrain
  | fenced
  deriving DecidableEq, Repr

/-- A flit waiting for its first send: channel, first, last, payload. -/
structure OutFlit where
  vc : Nat
  first : Bool
  last : Bool
  payload : List Byte
  /-- Of a message that this chip relays for another pair (R458). -/
  relay : Bool := false
  deriving DecidableEq, Repr

/-- One Trellis link (R443 to R455). -/
structure Link where
  /-- State (R446); reset DOWN. -/
  state : LinkState
  /-- The TRAINING that runs began in DOWN (R449); reset true. -/
  fromDown : Bool
  /-- Failed trainings in a row (R446); reset 0. -/
  fails : Nat
  /-- Lanes in use: 4, 2 or 1 (R443); reset 4. -/
  width : Nat
  /-- Chip at the far end (R444); reset none. -/
  peer : Option Nat
  /-- Next sequence number to send, 12 bits (R449); reset 0. -/
  nextSeq : Nat
  /-- Unacknowledged DATA flits, oldest first, at most 1,024 (R449); reset none. -/
  kept : List KeptFlit
  /-- Flits still to be replayed (R452, R453); reset none. -/
  replay : List KeptFlit
  /-- Replays in a row that released nothing (R453); reset 0. -/
  fruitless : Nat
  /-- Steady time of the last release (R453); reset 0, DESIGN CHOICE (log 6). -/
  lastRelease : Nat
  /-- Next number expected, 12 bits (R450); reset 0. -/
  expect : Nat
  /-- Flits accepted since the last report, and when the first of them came (R451); reset 0. -/
  unreported : Nat
  unreportedFrom : Nat
  /-- A NULL flit is due (R451); reset false. -/
  nullDue : Bool
  /-- The next flit carries NAK; steady time of the last NAK (R452); reset false, none. -/
  nak : Bool
  nakAt : Option Nat
  /-- Credits for time, control and bulk (R454); reset 8, 32, 192. -/
  credits : List Nat
  /-- Last CREDIT counts received, and receive buffers freed, mod 256 (R447, R454); reset 0. -/
  creditSeen : List Nat
  freed : List Nat
  /-- Flits waiting to be sent (R455); reset none. -/
  queue : List OutFlit
  /-- Slots since a bulk flit was sent (R455); reset 0. -/
  sinceBulk : Nat
  /-- Message being received on each channel: bytes so far (R456); reset empty. -/
  partialMsg : List (List Byte)
  /-- A flit of the time message being received was replayed (R459); reset false. -/
  partialRpl : Bool
  /-- Time exchange (R459): the request to answer, t1, t2 and whether a flit of it was replayed; the response that has arrived,
  t1 to t4 and the same; reset none. -/
  request : Option (Nat × Nat × Bool)
  response : Option (Nat × Nat × Nat × Nat × Bool)
  /-- Discarded flits for CRC and FEC, samples discarded (R448, R459); reset 0. -/
  crcErrors : Nat
  fecErrors : Nat
  samplesDropped : Nat
  deriving DecidableEq, Repr

/-- A message that a link has not acknowledged, or that waits for a relay (R458): its destination, the chip at the far end of the
link it took, its channel, its bytes, and the steady time of the attempt. -/
structure SentMsg where
  dst : Nat
  hop : Nat
  channel : Nat
  bytes : List Byte
  since : Nat
  deriving DecidableEq, Repr

/-- The joined system as this chip knows it (R443 to R468). -/
structure Trellis where
  /-- The five links. -/
  links : List Link
  /-- Chip index, chip count and the chip indices of the members (R445); reset 0, 1 and chip 0. -/
  chip : Nat
  chips : Nat
  members : List Nat
  /-- Steady time of the last PEER_STATE of each member, and an update mark's time (R464, R495 ruling 12); reset none. -/
  heard : List (Nat × Nat × Option Nat)
  /-- Link states that peers have reported: chip, links as state and far chip (R457); reset none. -/
  peerLinks : List (Nat × List (Nat × Nat))
  /-- Next MNUM by destination and channel; MNUMs accepted: source, destination, channel, number (R456); reset none. -/
  mnumNext : List (Nat × Nat × Nat)
  mnumSeen : List (Nat × Nat × Nat × Nat)
  /-- Relay buffers: source, destination, bytes (R458); reset none. -/
  relays : List (Nat × Nat × List Byte)
  /-- Messages refused by a relay, and those that no member can relay, due again (R458, R495 ruling 22); reset none. -/
  refused : List SentMsg
  /-- Messages that their link has not acknowledged, oldest first (R458); reset none. -/
  sent : List SentMsg
  /-- Messages sent by relay, kept for a refusal till the relay ends (R458, log 35); reset none. -/
  relayed : List SentMsg
  /-- Chips that this one reaches by relay (R458); reset none. -/
  relaying : List Nat
  /-- EPOCH_ACKs that chip 0 holds: chip, package id, status, bound prompts, steady time (R463); reset none. -/
  acks : List (Nat × Nat × Nat × Nat × Nat)
  /-- Steady times of the last TIME_REQ, COMMIT and PEER_STATE sent (R456, R457, R459); reset 0, DESIGN CHOICE (log 6). -/
  timeReqAt : Nat
  commitAt : Nat
  peerStateAt : Nat
  /-- Messages discarded for a reserved TYPE or a wrong length (R457); reset 0. -/
  badMessages : Nat
  /-- Closed streams of this chip: own stream, chip and stream linked to it, newest committed timestamp (R456); reset none. -/
  closedLinks : List (Nat × Nat × Nat × Nat) := []
  deriving DecidableEq, Repr

/-- A step record of the ledger (R480). -/
structure StepRecord where
  outcome : Nat
  method : Nat
  goodRuns : Nat
  status : Nat
  boot : Nat
  deriving DecidableEq, Repr

/-- The size fields of the ledger (R479): JSIZE, sample cache and clip budget in MiB, the pools of R337 as POOLBASE, N, F, RINGBASE
and OWNERBASE, and the port thresholds of R321. -/
structure LedgerSizes where
  jsizeMiB : Nat
  cacheMiB : Nat
  clipMiB : Nat
  pools : List (Nat × Nat × Nat × Nat × Nat)
  thresholds : List Nat
  deriving DecidableEq, Repr

/-- The start ledger (R479), its fields by name. -/
structure Ledger where
  gen : Nat
  boots : Nat
  lbSeq : Nat
  steps : List StepRecord
  fencedIslands : List Nat
  /-- Islands whose self-test failed in a partial reset since the last boot (R368). -/
  failedTests : List Nat
  fencedBanks : List Nat
  dram : List Nat
  badColumns : List (List Nat)
  linkWidths : List Nat
  serial : Nat
  subsystem : Nat
  vddTarget : Nat
  perstScope : Bool
  activeSlot : Nat
  slotVersions : List Nat
  timeLost : Bool
  jsizeMiB : Nat
  cacheMiB : Nat
  clipMiB : Nat
  pools : List (Nat × Nat × Nat × Nat × Nat)
  thresholds : List Nat
  pathDelays : List Nat
  /-- Per Ethernet port the PCS and the FEC latency, per Trellis link its path latency, per cue pin its output delay at 4, 8 and 12 mA
  (R197, R459, R476, R479, R513). -/
  ethLatencies : List (Nat × Nat)
  trellisLatencies : List Nat
  pinDelays : List (Nat × Nat × Nat)
  /-- The channels with results, each with the package serial and the stepping with which they were taken (R329). -/
  dramTrained : Tab (Nat × Nat)
  /-- The results of the channels' trainings (R328, R329). -/
  dramResults : Tab DramDelays
  bankCounts : List Nat
  /-- Sizes that LEDGER_SIZES wrote for the next boot (R486); reset none. -/
  nextSizes : Option LedgerSizes
  /-- LEDGER_CLEAR or COMMIT asks the next boot to unfence what the ledger fences (R481, R486); reset false. -/
  unfence : Bool
  /-- The Orangery widths as in OWIDTH (R431, R479); reset 0, full width. -/
  oWidths : List Nat := List.replicate 16 0
  /-- The Orangery that S6 tested when it failed (R476); reset none. -/
  underTest : Option Nat := none
  deriving DecidableEq, Repr

/-- A copy of the ledger on the store die or in the flash (R478, R479): its contents, MAGIC, and the CRC-64 written with them. -/
structure LedgerCopy where
  ledger : Ledger
  magic : Nat
  crc : BitVec 64
  deriving DecidableEq, Repr

/-- A firmware slot of the flash (R482): its header and body bytes. -/
structure FlashSlot where
  bytes : List Byte
  deriving DecidableEq, Repr

/-- What last breath has written to the store die (R473, R475): time block, journal tail, ledger, summaries, each with its CRC-64, and the
marker; `begun` since its start until S11 has read it. -/
structure Breath where
  time : Option ((Nat × Nat × Nat) × BitVec 64)
  records : Option (List JournalRec × BitVec 64)
  ledger : Bool
  summaries : Option (List Byte × BitVec 64)
  marker : Bool
  begun : Bool := false
  deriving DecidableEq, Repr

/-- A firmware update in progress (R486, R487). -/
structure Update where
  staged : Nat
  verified : Bool
  /-- SWITCH: the step reached, its command, the start of the new image, the state of the score at the halt. -/
  switching : Option (Nat × Nat × Nat × Nat)
  startedAt : Nat
  haltedAt : Nat
  waitingReset : List ResetJob
  prevVersion : Nat
  trial : Bool
  deriving DecidableEq, Repr

/-- The instructions of the test access port (R517). -/
inductive TapInstr where
  | bypass
  | idcode
  | samplePreload
  | extest
  deriving DecidableEq, Repr

/-- Power, boot, SMBus and JTAG (R469 to R491, R502 to R517). -/
structure Power where
  /-- MAINGOOD, PERST_N deasserted, PWRFAIL_N asserted, TEST_EN, TIMEREF present (R502); reset false, false, false, false, true. -/
  maingood : Bool
  perstReleased : Bool
  pwrfail : Bool
  testEn : Bool
  timeref : Bool
  /-- PWR_STAT.AONBKUP, and the always-on domain is alive (R472); reset false, true. -/
  aonBkup : Bool
  aonAlive : Bool
  /-- Islands 1 to 60 run (R470); reset false. -/
  running : Bool
  /-- Boot waits at S1 for TIMEREF with these facts (R511); reset none. -/
  waitingBoot : Option BootFacts
  /-- LBDONE (R510); reset true. -/
  lbdone : Bool
  /-- Last breath runs (R473), and a thermal trip started it (R490); reset false. -/
  breath : Bool
  thermal : Bool
  /-- When last breath began, by island 0's own time in 2^-16 ns (R473); reset 0. -/
  breathAt : Nat := 0
  /-- THERMTRIP_N driven low (R490); reset false. -/
  thermtrip : Bool
  /-- Island 0 has lost its count since the last boot (R58); reset false. -/
  countLost : Bool
  /-- What the store die holds of the last breath (R473); reset none. -/
  store : Breath
  /-- Hottest junction in degrees and its island (R401); reset 0 and 0, DESIGN CHOICE (log 6). -/
  tj : Int
  tjIsland : Nat
  /-- Steady time of the last 0x0808 (R490); reset none. -/
  hotAt : Option Nat
  /-- VDD_CORE target in mV (R471); reset 800, the regulator's boot voltage (R506). -/
  vdd : Nat
  avsAt : Nat
  /-- Last boot step completed, 0 to 12 (R401, R515); reset 0. -/
  bootStep : Nat
  /-- Recovery mode (R485); reset false. -/
  recovery : Bool
  /-- The ledger shadow, the two copies on the store die and the flash mirror; none is invalid (R478); reset none. -/
  ledger : Ledger
  copyA : Option LedgerCopy
  copyB : Option LedgerCopy
  mirror : Option LedgerCopy
  /-- Flash slots A and B (R482), fused rollback count, revoked keys (R483); reset none, 0, none. -/
  slots : List (Option FlashSlot)
  rollback : Nat
  revoked : List Nat
  /-- Running Quinbuar version and its slot (R418, R486); reset 0. -/
  version : Nat
  runSlot : Nat
  update : Update
  /-- SMB_ALERT_N asserted, and when it was released (R515); reset false, none. -/
  alert : Bool
  alertReleased : Option Nat
  /-- Instruction and boundary cells of the test access port (R517); reset IDCODE, none. -/
  tap : TapInstr
  cells : List Bool
  /-- A boot that a reset cuts off in a step (R480); reset false. -/
  cut : Bool := false
  /-- During EXTEST, what the pins PERST_N and TIMEREF have become, which it keeps from the core (R517); reset asserted, running. -/
  perstPin : Bool := false
  timerefPin : Bool := true
  deriving DecidableEq, Repr

/-- The header of a datagram (R206): Ethernet port, VLAN, addresses, UDP ports, DSCP, hop limit and UDP checksum. -/
structure DatagramHead where
  port : Nat
  vlan : Nat
  saddr : List Byte
  daddr : List Byte
  sport : Nat
  dport : Nat
  dscp : Nat
  hops : Nat
  checksum : Nat
  deriving DecidableEq, Repr

/-- An RTSP request (R193): method, URL, the transport asked for with SETUP (0 UDP unicast, 1 UDP multicast, 2 TCP interleaved),
and the challenge answered, with user and password. -/
structure RtspRequest where
  method : Nat
  url : List Byte
  transport : Option Nat
  auth : Option (RtspChallenge × List Byte × List Byte)
  /-- The RTSP version, 1.0 or 2.0, and the TCP window that the connection offers (R186). -/
  version : Nat := 2
  window : Nat := 262144
  deriving DecidableEq, Repr

/-- A membership report for a group of a port (R186, R196): its version of IGMP, or of MLD for IPv6; a leave says that the group is
left; a report of version 3 of IGMP or 2 of MLD carries the filter: the sources in INCLUDE mode, none in EXCLUDE mode with an
empty list. -/
structure GroupReport where
  port : Nat
  group : List Byte
  version : Nat
  join : Bool
  sources : Option (List (List Byte))
  deriving DecidableEq, Repr

/-- What leaves the package. -/
inductive Out where
  /-- Data returned to the reader of a register, configuration dword or aperture. -/
  | readData (value : List Byte)
  /-- A configuration request answered with retry status (R477), or a request answered with UR. -/
  | retry
  | unsupportedRequest
  /-- An MSI-X message (R389) and the INTA messages (R390). -/
  | msix (addr : BitVec 64) (data : BitVec 32)
  | assertInta
  | deassertInta
  /-- A request to host memory that the device has sent (R392). -/
  | hostRead (tag addr len : Nat)
  /-- A memory write TLP that carries EP (R360). -/
  | hostWriteEp (addr len : Nat)
  /-- An error message to the root complex: 0 correctable, 1 non-fatal, 2 fatal (R396). -/
  | errorMessage (severity : Nat)
  /-- A UDP datagram to destination d (R207). -/
  | datagram (dest : Nat) (head : DatagramHead) (bytes : List Byte)
  /-- RTSP, IGMP or MLD and RTCP packets for a stream (R193, R196). -/
  | rtspRequest (stream : Nat) (r : RtspRequest)
  | membershipReport (r : GroupReport)
  | rtcpReport (stream : Nat)
  /-- The Lodge's answer to a slow-path packet (R186). -/
  | slowAnswer (port : Nat) (kind : SlowKind)
  /-- The DHCP client's messages on a port (R186): a discovery, or a request for an offered address. -/
  | dhcpDiscover (port : Nat)
  | dhcpRequest (port : Nat) (address : List Byte)
  /-- The ARP or Neighbor Discovery request of a port for an address (R186). -/
  | neighbourRequest (port : Nat) (address : List Byte)
  /-- A flit on a Trellis link (R447), and a message handed to a link. -/
  | flit (link : Nat) (bytes : List Byte)
  /-- The pin levels that changed: cue pin and level (R43), and the level of PPS_OUT (R50). -/
  | pinLevel (pin : Nat) (level : Bool)
  | ppsOut (level : Bool)
  /-- A PTP delay request on an Ethernet port, by sequence number (R197). -/
  | ptpDelayReq (port seq : Nat)
  /-- SMBus answers (R515). -/
  | smbByte (value : BitVec 8)
  | smbNack
  | smbAlertAnswer
  /-- Test access port shift-out (R517). -/
  | tapShift (bits : List Bool)
  /-- The lock result word of R347, and the result of a Jasper operation: 0 or its status, and the index. -/
  | lockResult (word : BitVec 32)
  | cellResult (status index : Nat)
  /-- Status that a refused request receives (R302, R346, R348, R369). -/
  | fenceOutcome (status : Nat)
  /-- AVSBus target write (R471). -/
  | avsTarget (millivolts : Nat)
  /-- Bytes written to the QSPI flash: address and number (R482). -/
  | flashWrite (addr len : Nat)
  deriving DecidableEq, Repr

/-- The state of the block. -/
structure State where
  /-- The commands that wait, first in, first out (the model's own queue of the host's form); reset empty. -/
  pending : List Instr
  /-- Time-PLL or oscillator cycles that a step on an empty queue stands for (the model's own); reset 1, DESIGN CHOICE (log 3). -/
  idleCycles : Nat
  /-- Serial number of the next free value (the model's own); reset 0, DESIGN CHOICE (log 4). -/
  freeCount : Nat
  /-- What has left the package, oldest first (the model's own record); reset empty. -/
  out : List Out
  band : Band
  islands : List Island
  pins : List Pin
  reflexes : List Reflex
  score : Score
  orangeries : List Orangery
  mem : Mem
  aviary : Aviary
  eth : List EthPort
  sensors : List SensorPort
  fountains : List Fountain
  topiaries : List Topiary
  /-- Clip sessions (R231), by number 0 to 31; reset none. -/
  clips : List (Option Clip)
  /-- The 128 streams (R15); reset none open. -/
  streams : List (Option Stream)
  /-- The resident Milry package (R294); reset none. -/
  pkg : Option Package
  /-- The load in progress (R294, R492); reset none. -/
  load : Option LoadJob
  /-- The decoded sample cache (R260); reset empty. -/
  samples : List CachedSample
  /-- Pending training jobs and the running one (R266); reset none. -/
  trainPending : List TrainJob
  trainRunning : Option TrainJob
  pools : List Pool
  /-- Census enabled and its repair (R345); reset false. -/
  censusOn : Bool
  censusRepair : Bool
  locks : List Lock
  err : ErrLog
  /-- The island fenced by a partial reset, and resets waiting (R368, R372); reset none. -/
  fenced : Option ResetJob
  resetQueue : List ResetJob
  gate : Gate
  mbx : Mailbox
  /-- The metadata journal, oldest first (R439); reset empty. -/
  journal : List JournalRec
  trellis : Trellis
  power : Power
  deriving DecidableEq, Repr

/-- Why the block stops: no rule stops it, so there is no fault. A command whose condition does not hold, or that names no object of
the block, changes nothing (log 10, log 154). -/
inductive Fault where
  deriving DecidableEq, Repr

/-- Why a command has no meaning here. -/
inductive Refusal where
  /-- No meaning is modelled for the row: Dispatch raises it for an arm that has none. Safe. -/
  | notModelled (mnemonic : String)
  deriving DecidableEq, Repr

def PtpPort.reset : PtpPort where
  master := none
  syncSeq := none
  t1 := 0
  t2 := 0
  haveSync := false
  nextReq := 0
  asked := none
  t3 := none

def Band.reset : Band where
  count := 0
  steady := 0
  onPll := true
  rate := 0
  tstate := .free
  source := .none
  order := [.trellis, .ptp0, .ptp1, .ppsIn, .hostSet]
  integ := 0
  lastTheta := 0
  lockRun := 0
  badRun := 0
  pendingStep := none
  slewLeft := 0
  stepsInService := false
  secondsKnown := false
  holdoverRate := 1000
  errBase := none
  errFrom := 0
  lastSample := 0
  syncLog := 3
  oscPeriod := 30517 * 2 ^ 16 + 0x9400
  ppsOutWidth := 10000000
  ppsNext := 0
  ppsOut := false
  ppsLate := 0
  ptpDomain := 0
  ptpTransport := 0
  asym := [0, 0, 0, 0, 0]
  ptp := [PtpPort.reset, PtpPort.reset]
  timeLost := false
  lastBeacon := 0
  beaconCount := 0
  beaconRate := 0

def Island.reset : Island where
  replicaErr := 0
  slew := 0
  rateWord := 0
  ready := false
  agree := 0
  missed := 0
  skips := false
  pathDelay := 0
  bootFenced := false
  gated := false
  waking := false
  safe := []

def PinParams.reset : PinParams where
  edge := .rising
  filter := 0
  activeHigh := true
  base := false
  drive := 4
  width := 0
  period := 0
  count := 0
  lateLimit := 0

def Pin.reset : Pin where
  mode := .disabled
  par := PinParams.reset
  base := false
  cues := []
  held := []
  reflex := []
  pulseEnd := none
  train := none
  stamps := []
  firstHeld := none
  lastEdge := none
  overflow := 0
  missedCues := 0
  misdirected := 0
  lateCues := 0

def Reflex.reset : Reflex where
  par := { source := 0, edge := .rising, armed := false, target := 0, action := .level false, delay := 0, holdOff := 0 }
  holdUntil := none
  suppressed := 0

def Lane.reset : Lane where
  cues := []
  held := []
  due := []
  running := none
  lateStarts := 0
  lateCues := 0

def BatchId.reset : BatchId where
  next := 0
  issued := 0
  cur := none
  closed := []
  fill := 0
  lastBell := none
  firstBell := 0
  period := 0

def Score.reset : Score where
  image := []
  running := false
  haltReq := false
  stopped := false
  armed := false
  watchdogHalt := false
  pc := 0
  beat := 0
  epoch := 0
  resumeAt := 0
  control := none
  lastDone := 0
  restartBeat := 0
  restartSpacing := none
  lanes := List.replicate 56 Lane.reset
  tokens := []
  cycles := []
  claims := List.replicate 64 { value := 0, limit := 0 }
  lens := List.replicate 32 0
  batches := List.replicate 64 BatchId.reset
  trace := []
  measures := []
  latches := []
  digests := []

def Channel.reset : Channel where
  fenced := false
  conservative := false
  selfRefresh := false
  queue := []
  owed := 0
  forced := false
  round := []
  heldBanks := []
  interrupted := 0
  trefi := 488
  corrected := 0
  wckCount := 0
  helper := { pattern := .prbs7, bytes := List.replicate 64 0, inverted := [], onCa := false, counts := [], firstFail := none }
  delays := none
  poisonMap := []

def Mem.reset : Mem where
  bytes := []
  host := []
  sramPoison := []
  causes := []
  cause := 0
  hostBad := []
  hostEcrc := []
  sbe := []
  ue := []
  deferred := []
  faults := []
  nextFault := 0
  discarded := List.replicate 24 0
  unsettled := []
  mixes := 0
  cache := []
  wayMasks := [0x03FF, 0x3C00, 0xC000]
  l1Base := 0
  tlb := []
  hostIn := []
  chans := List.replicate 16 Channel.reset
  ecsCounts := []
  panic := List.replicate 16 false
  thresholds := List.replicate 16 0
  reads := []
  corrections := List.replicate 32 (0, 0)

def Aviary.reset : Aviary where
  seqs := []
  pages := []
  maps := []
  seqTable := 0
  warmBase := 0x001400000000
  cold := none
  reserved := []
  alists := []
  fills := []
  spills := []
  starved := []
  overflowCopies := 0
  declined := 0
  unused := 0
  birthsRefused := 0
  journals := []
  prompts := List.replicate 64 none

def EthPort.reset : EthPort where
  net := none
  slowCount := 0
  slowFrom := 0
  slowTaken := 0
  slowDropped := 0
  pauseDropped := 0
  unsupported := 0
  lease := none
  autoAddrs := []
  parts := []
  unresolved := []
  oldQuerier := none
  groups := []

def Pool.reset : Pool where
  base := 0
  size := 0
  floor := 0
  ringBase := 0
  ownerBase := 0
  fresh := 1
  freed := []
  lent := []
  head := []
  tail := []
  quota := []
  used := []
  waiting := []
  lastHead := 0
  events := []
  ringTail := 0
  ringHead := 0
  findings := []
  censusAt := none

def ErrLog.reset : ErrLog where
  head := 0
  tail := 0
  droppedEntries := 0
  droppedReports := 0
  firstDrop := 0
  base := 0
  sources := []
  stat := 0

/-- The reset values of the BAR0 registers that hold a stored value other than 0 (R397 to R403), with the ID
word that the part fixes (RN640-12C, stepping A1: DESIGN CHOICE, log 2). -/
def Gate.resetRegs : Tab (BitVec 32) :=
  [(0x000000, 0x06400C01), (0x000014, 0x0000001F), (0x000018, 0x03020100),
   (0x200010, 0xFFFFFFFF), (0x200028, 0x00000003), (0x300014, 0x00000006), (0x500000, 0x00000001)]

/-- Configuration space after its reset: in Device Control the max read request size is 512 bytes, and the AER severities and the
mask of Advisory Non-Fatal are as PCI Express has them (PRESUMED, log 9); Extended Tag Field Enable is 1, as GHS_TAGS says (R397). -/
def Gate.resetCfg : Tab (BitVec 32) := [(0x58, 0x00002100), (0x10C, 0x00462030), (0x114, 0x00002000)]

def Gate.reset : Gate where
  cfg := Gate.resetCfg
  regs := Gate.resetRegs
  msix := List.replicate 64 (0, 0, true)
  pba := 0
  msixOn := false
  funcMask := false
  inta := false
  d3hot := false
  linkUp := false
  configReady := false
  pwrKey := none
  islrst := none
  diaKey := none
  latchHi := 0
  latchFrac := 0
  linkErrors := 0
  lockRefused := 0
  lockBroken := 0
  aer := []
  heldReset := 0
  sessionOver := false

def Mailbox.reset : Mailbox where
  sq := List.replicate 4 { head := 0, tail := 0, running := false, bells := [] }
  cqTail := 0
  cqHead := 0
  cqRunning := false
  reserved := 0
  cmds := []
  ended := []
  notices := []
  noticesDropped := 0
  discarded := 0
  session := none
  rings := List.replicate 64 none
  udp := List.replicate 64 none

def Link.reset : Link where
  state := .down
  fromDown := true
  fails := 0
  width := 4
  peer := none
  nextSeq := 0
  kept := []
  replay := []
  fruitless := 0
  lastRelease := 0
  expect := 0
  unreported := 0
  unreportedFrom := 0
  nullDue := false
  nak := false
  nakAt := none
  credits := [8, 32, 192]
  creditSeen := [0, 0, 0]
  freed := [0, 0, 0]
  queue := []
  sinceBulk := 0
  partialMsg := [[], [], []]
  partialRpl := false
  request := none
  response := none
  crcErrors := 0
  fecErrors := 0
  samplesDropped := 0

def Trellis.reset : Trellis where
  links := List.replicate 5 Link.reset
  chip := 0
  chips := 1
  members := [0]
  heard := []
  peerLinks := []
  mnumNext := []
  mnumSeen := []
  relays := []
  refused := []
  sent := []
  relayed := []
  relaying := []
  acks := []
  timeReqAt := 0
  commitAt := 0
  peerStateAt := 0
  badMessages := 0

/-- The ledger's default values, taken when no copy and no mirror is valid (R478). The sizes that the manual gives are
JSIZE 256 MiB (R439) and the clip budget 1 GiB (R234); the rest is DESIGN CHOICE (log 8). -/
def Ledger.default : Ledger where
  gen := 0
  boots := 0
  lbSeq := 0
  steps := List.replicate 13 { outcome := 0, method := 0, goodRuns := 0, status := 0, boot := 0 }
  fencedIslands := []
  failedTests := []
  fencedBanks := []
  dram := List.replicate 16 0
  badColumns := List.replicate 16 []
  linkWidths := List.replicate 5 4
  serial := 0
  subsystem := 0x06401E9C
  vddTarget := 800
  perstScope := false
  activeSlot := 0
  slotVersions := [0, 0]
  timeLost := false
  jsizeMiB := 256
  cacheMiB := 4096
  clipMiB := 1024
  pools := [(0x001000200000, 1048576, 1024, 0x001020200000, 0x001030200000),
            (0x001C00200000, 1048576, 1024, 0x001C20200000, 0x001C30200000)]
  thresholds := [4096, 196608, 196608, 196608, 49152, 24576, 24576, 24576, 24576, 8192, 8192, 8192, 8192, 0, 0, 0]
  pathDelays := List.replicate 61 0
  ethLatencies := List.replicate 2 (0, 0)
  trellisLatencies := List.replicate 5 0
  pinDelays := List.replicate 16 (0, 0, 0)
  dramTrained := []
  dramResults := []
  bankCounts := List.replicate 32 0
  nextSizes := none
  unfence := false

def Power.reset : Power where
  maingood := false
  perstReleased := false
  pwrfail := false
  testEn := false
  timeref := true
  aonBkup := false
  aonAlive := true
  running := false
  waitingBoot := none
  lbdone := true
  breath := false
  thermal := false
  thermtrip := false
  countLost := false
  store := { time := none, records := none, ledger := false, summaries := none, marker := false }
  tj := 0
  tjIsland := 0
  hotAt := none
  vdd := 800
  avsAt := 0
  bootStep := 0
  recovery := false
  ledger := Ledger.default
  copyA := none
  copyB := none
  mirror := none
  slots := [none, none]
  rollback := 0
  revoked := []
  version := 0
  runSlot := 0
  update := { staged := 0, verified := false, switching := none, startedAt := 0, haltedAt := 0, waitingReset := [],
              prevVersion := 0, trial := false }
  alert := false
  alertReleased := none
  tap := .idcode
  cells := []

/-- The block right after its reset: island 0 has power, MAINGOOD and PERST_N are low, nothing has booted (R470, R476). -/
def State.reset : State where
  pending := []
  idleCycles := 1
  freeCount := 0
  out := []
  band := Band.reset
  islands := List.replicate 61 Island.reset
  pins := List.replicate 16 Pin.reset
  reflexes := List.replicate 16 Reflex.reset
  score := Score.reset
  orangeries := List.replicate 16 { badColumns := [], skipped := 0, banks := [], pass := [], links := [] }
  mem := Mem.reset
  aviary := Aviary.reset
  eth := List.replicate 2 EthPort.reset
  sensors := List.replicate 4 { lanes := 0, laneRate := 0, laneOrder := [], polarity := [], discarded := 0, eccErrors := 0 }
  fountains := List.replicate 4 { busy := none, paused := false, reads := [], writes := [], store := 0 }
  topiaries := List.replicate 4 { cur := none, suspended := none }
  clips := List.replicate 32 none
  streams := List.replicate 128 none
  pkg := none
  load := none
  samples := []
  trainPending := []
  trainRunning := none
  pools := List.replicate 8 Pool.reset
  censusOn := false
  censusRepair := false
  locks := List.replicate 256 { held := false, owner := 0, broken := false }
  err := ErrLog.reset
  fenced := none
  resetQueue := []
  gate := Gate.reset
  mbx := Mailbox.reset
  journal := []
  trellis := Trellis.reset
  power := Power.reset

end Sys2Proof.Machine
end

