-- ==== Sys2Proof/Machine/Tables.lean ====
section
/-! DEFINITION. Sparse tables and memories: the one place where an entry or a byte is read and written. A memory lists its
addresses strictly rising and no byte equal to 0, which is what an unlisted address reads as (log 5), so that equal
memories are equal lists. -/

namespace Sys2Proof.Machine

/-- The entry of key `k`. -/
def tabGet {α : Type} (k : Nat) : Tab α → Option α
  | [] => none
  | (a, v) :: t => if k = a then some v else if k < a then none else tabGet k t

/-- The entry of key `k`, or `d`. -/
def tabGetD {α : Type} (k : Nat) (d : α) (t : Tab α) : α := (tabGet k t).getD d

/-- The table with the entry of key `k` set to `v`. -/
def tabPut {α : Type} (k : Nat) (v : α) : Tab α → Tab α
  | [] => [(k, v)]
  | (a, w) :: t => if k = a then (k, v) :: t else if k < a then (k, v) :: (a, w) :: t else (a, w) :: tabPut k v t

/-- The table without key `k`. -/
def tabDel {α : Type} (k : Nat) : Tab α → Tab α
  | [] => []
  | (a, w) :: t => if k = a then t else if k < a then (a, w) :: t else (a, w) :: tabDel k t

/-- The table with `f` applied to the entry of key `k`, where there is one. -/
def tabUpd {α : Type} (k : Nat) (f : α → α) (t : Tab α) : Tab α :=
  match tabGet k t with
  | some v => tabPut k (f v) t
  | none => t

/-- The canonical form of a memory: addresses strictly rising above `lo`, no byte 0. -/
def memWfFrom : (lo : Option Nat) → Memory → Bool
  | _, [] => true
  | lo, (a, b) :: m => (match lo with | none => true | some l => decide (l < a)) && b != 0 && memWfFrom (some a) m

/-- The canonical form of a memory. -/
def memWf (m : Memory) : Bool := memWfFrom none m

/-- The byte at address `a`; 0 when it is not listed. -/
def memGet (m : Memory) (a : Nat) : Byte := tabGetD a 0 m

/-- The memory with byte `b` at address `a`; writing 0 removes the entry. -/
def memPut (a : Nat) (b : Byte) (m : Memory) : Memory := if b = 0 then tabDel a m else tabPut a b m

/-- The `n` bytes from address `a`. -/
def memRead (m : Memory) (a n : Nat) : List Byte := (List.range n).map fun i => memGet m (a + i)

/-- The memory with `bs` written from address `a`. -/
def memWrite (a : Nat) : List Byte → Memory → Memory
  | [], m => m
  | b :: bs, m => memWrite (a + 1) bs (memPut a b m)

/-- The little-endian number of `n` bytes at address `a` (R10). -/
def memNat (m : Memory) (a n : Nat) : Nat := leNat (memRead m a n)

/-- Set membership as a list with no repeats, kept rising. -/
def setAdd (k : Nat) : List Nat → List Nat
  | [] => [k]
  | a :: l => if k = a then a :: l else if k < a then k :: a :: l else a :: setAdd k l

/-- The set without `k`. -/
def setDel (k : Nat) (l : List Nat) : List Nat := l.filter (· != k)

end Sys2Proof.Machine
end

