-- ==== Sys2Proof/Machine/Flags.lean ====
section
/-! DEFINITION. Status and interrupt flags of the Gatehouse: which causes are set and enabled (R388), and what a change of
them sends (R389 to R391). Every change of a cause, of a mask or of a vector goes through `withCauses`. -/

namespace Sys2Proof.Machine

/-- The outcome of a command. -/
abbrev Res := Host.Outcome State Fault Refusal

/-- Add to what has left the package. -/
def emit (o : Out) (s : State) : State := { s with out := s.out ++ [o] }

/-- Bandstand time in whole nanoseconds, 64 bits (R11, R31). -/
def nowNs (s : State) : Nat := s.band.count / 2 ^ 32 % 2 ^ 64

/-- The BAR0 register stored at a BAR0 offset. -/
def reg (s : State) (off : Nat) : BitVec 32 := tabGetD off 0 s.gate.regs

/-- Store a BAR0 register; a register at 0 is not listed. -/
def setReg (off : Nat) (v : BitVec 32) (s : State) : State :=
  { s with gate := { s.gate with regs := if v = 0 then tabDel off s.gate.regs else tabPut off v s.gate.regs } }

/-- Set the bits of `m` in a stored register. -/
def orReg (off : Nat) (m : BitVec 32) (s : State) : State := setReg off (reg s off ||| m) s

/-- Clear the bits of `m` in a stored register. -/
def clrReg (off : Nat) (m : BitVec 32) (s : State) : State := setReg off (reg s off &&& ~~~m) s

/-- A configuration dword (R377, R378). -/
def cfgReg (s : State) (off : Nat) : BitVec 32 := tabGetD off 0 s.gate.cfg

/-- Command.Memory Space, Bus Master and Interrupt Disable (R377, R390). -/
def memSpace (s : State) : Bool := (cfgReg s 0x04).getLsbD 1
def busMaster (s : State) : Bool := (cfgReg s 0x04).getLsbD 2
def intDisable (s : State) : Bool := (cfgReg s 0x04).getLsbD 10

/-- The interrupt causes of R388. -/
inductive Cause where
  | cq
  | dr (d : Nat)
  | err
  | tim
  | pwr
  deriving DecidableEq, Repr

/-- Bit d of GHS_DRPEND (R397). -/
def drPending (s : State) (d : Nat) : Bool :=
  if d < 32 then (reg s 0x20).getLsbD d else (reg s 0x24).getLsbD (d - 32)

/-- Whether a cause is set (R388, R397). -/
def causeSet (s : State) : Cause → Bool
  | .cq => (reg s 0x10).getLsbD 0
  | .dr d => drPending s d
  | .err => s.err.stat &&& (reg s 0x300014).setWidth 3 != 0
  | .tim => (reg s 0x200024) &&& (reg s 0x200028) &&& 3 != 0
  | .pwr => (reg s 0x10).getLsbD 4

/-- The bit of a cause in GHS_INTCAUSE and GHS_INTMASK; all DR causes share one (R388). -/
def causeBit : Cause → Nat
  | .cq => 0
  | .dr _ => 1
  | .err => 2
  | .tim => 3
  | .pwr => 4

/-- A cause that is set and enabled (R388). -/
def causeOn (s : State) (c : Cause) : Bool := causeSet s c && (reg s 0x14).getLsbD (causeBit c)

/-- The MSI-X vector of a cause (R388). -/
def causeVector (s : State) : Cause → Nat
  | .cq => bits (reg s 0x18).toNat 0 6
  | .err => bits (reg s 0x18).toNat 8 6
  | .tim => bits (reg s 0x18).toNat 16 6
  | .pwr => bits (reg s 0x18).toNat 24 6
  | .dr d => match s.mbx.rings.getD d none with
    | some r => r.vector % 64
    | none => 0

/-- Every cause. -/
def allCauses : List Cause := [.cq, .err, .tim, .pwr] ++ (List.range 64).map .dr

/-- The causes that are set and enabled. -/
def onCauses (s : State) : List Cause := allCauses.filter (causeOn s)

/-- The level of R390. -/
def intLevel (s : State) : Bool := allCauses.any (causeOn s)

/-- An island that is fenced by a partial reset or by the start ledger takes no request (R369, R481). -/
def resetFenced (s : State) (i : Nat) : Bool :=
  (match s.fenced with | some j => j.island == i | none => false)
    || (match s.islands[i]? with | some x => x.bootFenced | none => false)

/-- An island of several units: the Ethernet ports, the Belvedere ports, and island 39 with its banks and movers (R16). -/
def manyUnits (i : Nat) : Bool := i == 3 || i == 4 || i == 39

/-- A unit of an island is in its safe state (R363); in an island of one unit that is any. -/
def unitSafe (s : State) (i u : Nat) : Bool :=
  match s.islands[i]? with | some x => if manyUnits i then x.safe.contains u else !x.safe.isEmpty | none => false

/-- An island that is fenced, or whose one unit is in its safe state, starts nothing and drives nothing (R363, R369, R481). -/
def islandFenced (s : State) (i : Nat) : Bool := resetFenced s i || (!manyUnits i && unitSafe s i 0)

/-- A unit of an island starts nothing and drives nothing: its island is fenced, or it is in its safe state (R363, R369). -/
def unitFenced (s : State) (i u : Nat) : Bool := resetFenced s i || unitSafe s i u

/-- A front-end island takes no work: it is power-gated, or woken and not time-ready yet (R489). -/
def asleep (s : State) (i : Nat) : Bool := match s.islands[i]? with | some x => x.gated || x.waking | none => false

/-- The Gatehouse may send requests: D0 (R379), Bus Master (PRESUMED, log 9), and island 2 neither fenced nor in its safe state (R363,
R369, R383). -/
def canSend (s : State) : Bool := !s.gate.d3hot && busMaster s && !islandFenced s 2

/-- The Gatehouse may start a request to host memory: none between the end of a host session and the next enable of a ring (R394). -/
def canAsk (s : State) : Bool := canSend s && !s.gate.sessionOver

/-- Vector `v` cannot send now: Function Mask, its mask bit (R389), or no request may leave (R379, log 9). -/
def vecMasked (s : State) (v : Nat) : Bool :=
  s.gate.funcMask || (s.gate.msix.getD v (0, 0, true)).2.2 || !canSend s

/-- Set or clear PBA bit `v`. -/
def setPba (v : Nat) (on : Bool) (s : State) : State :=
  let m : BitVec 64 := 1#64 <<< v
  { s with gate := { s.gate with pba := if on then s.gate.pba ||| m else s.gate.pba &&& ~~~m } }

/-- Send the message of vector `v`, or note it in the PBA while it is masked (R389). -/
def sendVector (v : Nat) (s : State) : State :=
  if vecMasked s v then setPba v true s
  else
    let e := s.gate.msix.getD v (0, 0, true)
    emit (.msix e.1 e.2.1) (setPba v false s)

/-- Send the message of each vector once. -/
def sendVectors : List Nat → State → State
  | [], s => s
  | v :: vs, s => sendVectors vs (sendVector v s)

/-- Bits of the PBA clear when no enabled cause mapped to their vector remains set (R389). -/
def prunePba (s : State) : State :=
  let live := (onCauses s).map (causeVector s)
  { s with gate := { s.gate with
      pba := (List.range 64).foldl (fun p v => if live.contains v then p else p &&& ~~~(1#64 <<< v)) s.gate.pba } }

/-- The INTA messages of R390 for the present level. -/
def updateInta (s : State) : State :=
  let want := intLevel s && !intDisable s
  if s.gate.d3hot || islandFenced s 2 || want == s.gate.inta then s
  else emit (if want then .assertInta else .deassertInta) { s with gate := { s.gate with inta := want } }

/-- What a change of causes from `s` to `t` sends: with MSI-X enabled one message for each enabled cause that goes from
clear to set (R389), without it the INTA messages (R390). -/
def causeEdges (s t : State) : State :=
  let rising := (onCauses t).filter fun c => !causeOn s c
  if t.gate.msixOn then sendVectors ((rising.map (causeVector t)).eraseDups) (prunePba t) else updateInta (prunePba t)

/-- Apply a change that may set or clear causes. -/
def withCauses (f : State → State) (s : State) : State := causeEdges s (f s)

/-- Send what the PBA holds for vectors that are no longer masked, where an enabled cause mapped to them is still set (R389). -/
def releasePba (s : State) : State :=
  if s.gate.msixOn then
    let s := prunePba s
    sendVectors ((List.range 64).filter fun v => s.gate.pba.getLsbD v && !vecMasked s v) s
  else s

/-- The message of every unmasked vector that has an enabled cause set; a masked one is noted in the PBA (R391, R395). -/
def resendCauses (s : State) : State :=
  if s.gate.msixOn then sendVectors (((onCauses s).map (causeVector s)).eraseDups) (prunePba s) else updateInta (prunePba s)

/-- Set the cause CQ (R388). -/
def setCq (s : State) : State := withCauses (orReg 0x10 1) s

/-- Set the cause PWR (R388). -/
def setPwr (s : State) : State := withCauses (orReg 0x10 0x10) s

/-- Set the cause DR(d) (R388). -/
def setDr (d : Nat) (s : State) : State :=
  withCauses (orReg (if d < 32 then 0x20 else 0x24) (1#32 <<< (d % 32))) s

/-- Set bits of ERR_STAT (R400). -/
def setErrStat (m : BitVec 3) (s : State) : State :=
  withCauses (fun s => { s with err := { s.err with stat := s.err.stat ||| m } }) s

/-- Set bits of TIM_STAT (R399). -/
def setTimStat (m : BitVec 32) (s : State) : State := withCauses (orReg 0x200024 m) s

end Sys2Proof.Machine
end

