-- ==== Sys2Proof/Machine/Ledger.lean ====
section
/-! DEFINITION. The start ledger as the store die and the flash hold it (R478 to R480): its 64 KiB, its copies, and where they lie. What
R479 does not lay out within an area is laid out here (DESIGN CHOICE, log 68). -/

namespace Sys2Proof.Machine

/-- A number from digits of `w` bits, lowest first. -/
def packDigits (w : Nat) (l : List Nat) : Nat := l.foldr (fun d acc => d + 2 ^ w * acc) 0

/-- The number whose bits are set at the places of a list. -/
def maskOf (l : List Nat) : Nat := l.foldl (fun v i => v ||| 2 ^ i) 0

/-- CRC-64 of bytes (R147, R473, R479). -/
def crc64 (bs : List Byte) : BitVec 64 := bs.foldl crc64Byte 0

/-- A step record (R480). -/
def stepBytes (r : StepRecord) : List Byte :=
  leBytes 1 r.outcome ++ leBytes 1 r.method ++ leBytes 2 r.goodRuns ++ leBytes 2 r.status ++ leBytes 2 0 ++ leBytes 8 r.boot

/-- The sizes that the next boot takes (R479, R486). -/
def sizeBytes (l : Ledger) : List Byte :=
  let z := l.nextSizes.getD { jsizeMiB := l.jsizeMiB, cacheMiB := l.cacheMiB, clipMiB := l.clipMiB, pools := l.pools, thresholds := l.thresholds }
  let pool (p : Nat × Nat × Nat × Nat × Nat) : List Byte :=
    leBytes 8 p.1 ++ leBytes 4 p.2.1 ++ leBytes 4 p.2.2.1 ++ leBytes 8 p.2.2.2.1 ++ leBytes 8 p.2.2.2.2
  padTo 256 ((z.pools.map pool).flatten) ++ leBytes 4 z.jsizeMiB ++ leBytes 4 z.cacheMiB ++ leBytes 4 z.clipMiB ++ leBytes 4 0
    ++ padTo 64 ((z.thresholds.map (leBytes 4)).flatten)

/-- The training results of a channel (R328, R329, R479). -/
def dramBytes (l : Ledger) (k : Nat) : List Byte :=
  let taken := match l.dramTrained.find? fun x => x.1 == k with
    | some x => leBytes 8 x.2.1 ++ leBytes 1 x.2.2 ++ leBytes 7 1
    | none => leBytes 16 0
  let places (n : Nat) (p : List Nat) : List Byte := padTo n ((p.map (leBytes 2)).flatten)
  match l.dramResults.find? fun x => x.1 == k with
  | some x =>
    let d := x.2
    padTo 1024 (taken ++ places 64 d.caDelay ++ leBytes 2 d.caVref ++ leBytes 2 d.wck ++ places 64 d.gate ++ places 128 d.readDq
      ++ places 128 d.writeDq ++ leBytes 2 d.vrefCtl ++ leBytes 2 d.vrefDram)
  | none => padTo 1024 taken

/-- Bytes 0x0040 to 0xFFFF of the ledger, which its CRC-64 covers (R479). -/
def ledgerBody (l : Ledger) : List Byte :=
  let fences := leBytes 8 (maskOf l.fencedIslands) ++ leBytes 4 (maskOf l.fencedBanks) ++ leBytes 4 (packDigits 2 l.dram)
    ++ leBytes 8 (packDigits 4 l.oWidths) ++ leBytes 4 (packDigits 4 l.linkWidths) ++ leBytes 8 (maskOf l.failedTests)
    ++ leBytes 1 (if l.unfence then 1 else 0) ++ leBytes 1 (match l.underTest with | some o => o + 1 | none => 0)
  let identity := leBytes 8 l.serial ++ leBytes 4 l.subsystem ++ leBytes 2 l.vddTarget ++ leBytes 1 (if l.perstScope then 1 else 0)
    ++ leBytes 1 l.activeSlot ++ padTo 8 ((l.slotVersions.map (leBytes 4)).flatten) ++ leBytes 1 (if l.timeLost then 1 else 0)
  let times := (l.pathDelays.map (leBytes 4)).flatten ++ (l.ethLatencies.map fun x => leBytes 4 x.1 ++ leBytes 4 x.2).flatten
    ++ (l.trellisLatencies.map (leBytes 4)).flatten
    ++ (l.pinDelays.map fun x => leBytes 4 x.1 ++ leBytes 4 x.2.1 ++ leBytes 4 x.2.2).flatten
  let columns := (l.badColumns.map fun c => leBytes 32 (maskOf c)).flatten ++ (l.bankCounts.map (leBytes 4)).flatten
  padTo 208 ((l.steps.map stepBytes).flatten) ++ padTo 48 fences ++ padTo 192 identity ++ padTo 512 (sizeBytes l) ++ padTo 1024 times
    ++ padTo 2048 columns ++ ((List.range 16).map (dramBytes l)).flatten ++ List.replicate 45056 0

/-- MAGIC of the ledger (R479). -/
def ledgerMagic : Nat := 0x06401ED6

/-- The header of a copy (R479). -/
def ledgerHead (c : LedgerCopy) : List Byte :=
  padTo 64 (leBytes 4 c.magic ++ leBytes 2 1 ++ leBytes 2 0 ++ leBytes 8 c.ledger.gen ++ leBytes 4 c.ledger.boots
    ++ leBytes 4 c.ledger.lbSeq ++ leBytes 8 c.crc.toNat)

/-- The 64 KiB of a copy (R478, R479). -/
def copyBytes (c : LedgerCopy) : List Byte := ledgerHead c ++ ledgerBody c.ledger

/-- A ledger as it is written, with its MAGIC and its CRC-64 (R478, R479). -/
def copyOf (l : Ledger) : LedgerCopy := { ledger := l, magic := ledgerMagic, crc := crc64 (ledgerBody l) }

/-- A copy is valid: its MAGIC is correct and its CRC-64 matches (R478). -/
def copyValid (c : LedgerCopy) : Bool := c.magic == ledgerMagic && c.crc == crc64 (ledgerBody c.ledger)

/-- What a place of the store die or of the flash holds, if it is valid (R478). -/
def validLedger (c : Option LedgerCopy) : Option Ledger := (c.filter copyValid).map (·.ledger)

/-- The places of the copies on the store die (R478), and of the mirror and the slots in the flash (R482). -/
def copyPlace (second : Bool) : Nat := if second then 0x0010000 else 0x0000000
def mirrorPlace : Nat := 0x0000000
def slotPlace (slot : Nat) : Nat := if slot % 2 = 0 then 0x0100000 else 0x1100000

/-- The bytes of the sections that last breath writes (R473): time block, journal tail, ledger, track summaries. -/
def timeBlock (t : Nat × Nat × Nat) : List Byte := padTo 64 (leBytes 12 t.1 ++ leBytes 1 t.2.1 ++ leBytes 4 t.2.2)
def tailBytes (rs : List JournalRec) : List Byte := (rs.map (·.bytes)).flatten

/-- A section of last breath carries its own CRC-64 (R473). -/
def sealedOk {α : Type} (bytes : α → List Byte) (x : Option (α × BitVec 64)) : Bool :=
  match x with
  | some (b, c) => c == crc64 (bytes b)
  | none => false

end Sys2Proof.Machine
end

