-- ==== Sys2Proof/Machine/Ops.lean ====
section
/-! DEFINITION. The operations that every unit shares: outcomes, free values, updates of one unit, the error log of R364
to R367, fences of R368 and R481. -/

namespace Sys2Proof.Machine

/-- The command is done and leaves `s`. -/
def done (s : State) : Res := .next s

/-- `t` where `ok` holds: an event whose condition does not hold does not happen, and nothing changes (log 10). -/
def doneIf (ok : Bool) (t s : State) : Res := .next (if ok then t else s)

/-- Guard an index: an event of an object that does not exist does not happen (R15, log 154). -/
def inRange (ok : Bool) (s : State) (r : Res) : Res := if ok then r else done s

/-- A free value of `w` bits, and the state with the next serial number (log 4). -/
def freeBits (w : Nat) (s : State) : BitVec w × State :=
  (Config.freeBits w s.freeCount, { s with freeCount := s.freeCount + 1 })

/-- `n` free bytes. -/
def freeBytes (n : Nat) (s : State) : List Byte × State :=
  ((List.range n).map fun i => Config.freeBits 8 (s.freeCount + i), { s with freeCount := s.freeCount + n })

/-- A free natural number. -/
def freeNat (s : State) : Nat × State := (Config.freeNat s.freeCount, { s with freeCount := s.freeCount + 1 })

def updPin (n : Nat) (f : Pin → Pin) (s : State) : State := { s with pins := upd s.pins n f }
def updReflex (n : Nat) (f : Reflex → Reflex) (s : State) : State := { s with reflexes := upd s.reflexes n f }
def updIsland (n : Nat) (f : Island → Island) (s : State) : State := { s with islands := upd s.islands n f }
def updScore (f : Score → Score) (s : State) : State := { s with score := f s.score }
def updLane (k : Nat) (f : Lane → Lane) (s : State) : State := updScore (fun c => { c with lanes := upd c.lanes k f }) s
def updClaim (k : Nat) (f : Claim → Claim) (s : State) : State := updScore (fun c => { c with claims := upd c.claims k f }) s
def updBatchId (b : Nat) (f : BatchId → BatchId) (s : State) : State :=
  updScore (fun c => { c with batches := upd c.batches b f }) s

/-- Update an instance of a batch id. -/
def updBatch (b num : Nat) (f : Batch → Batch) (s : State) : State :=
  updBatchId b (fun x => { x with
    cur := x.cur.map fun y => if y.num = num then f y else y
    closed := x.closed.map fun y => if y.num = num then f y else y }) s

def updOrangery (k : Nat) (f : Orangery → Orangery) (s : State) : State := { s with orangeries := upd s.orangeries k f }
def updMem (f : Mem → Mem) (s : State) : State := { s with mem := f s.mem }
def updChan (k : Nat) (f : Channel → Channel) (s : State) : State := updMem (fun m => { m with chans := upd m.chans k f }) s
def updAviary (f : Aviary → Aviary) (s : State) : State := { s with aviary := f s.aviary }
def updEth (k : Nat) (f : EthPort → EthPort) (s : State) : State := { s with eth := upd s.eth k f }
def updSensor (k : Nat) (f : SensorPort → SensorPort) (s : State) : State := { s with sensors := upd s.sensors k f }
def updFountain (k : Nat) (f : Fountain → Fountain) (s : State) : State := { s with fountains := upd s.fountains k f }
def updTopiary (k : Nat) (f : Topiary → Topiary) (s : State) : State := { s with topiaries := upd s.topiaries k f }
def updPool (k : Nat) (f : Pool → Pool) (s : State) : State := { s with pools := upd s.pools k f }
def updLock (k : Nat) (f : Lock → Lock) (s : State) : State := { s with locks := upd s.locks k f }
def updGate (f : Gate → Gate) (s : State) : State := { s with gate := f s.gate }
def updMbx (f : Mailbox → Mailbox) (s : State) : State := { s with mbx := f s.mbx }
def updTrellis (f : Trellis → Trellis) (s : State) : State := { s with trellis := f s.trellis }
def updLink (k : Nat) (f : Link → Link) (s : State) : State := updTrellis (fun t => { t with links := upd t.links k f }) s
def updPower (f : Power → Power) (s : State) : State := { s with power := f s.power }
def updBand (f : Band → Band) (s : State) : State := { s with band := f s.band }
def updErr (f : ErrLog → ErrLog) (s : State) : State := { s with err := f s.err }

/-- Update an open stream; nothing happens to a stream that is not open. -/
def updStream (n : Nat) (f : Stream → Stream) (s : State) : State :=
  { s with streams := upd s.streams n (fun o => o.map f) }

/-- Update a running clip session. -/
def updClip (n : Nat) (f : Clip → Clip) (s : State) : State := { s with clips := upd s.clips n (fun o => o.map f) }

/-- The open stream of an index. -/
def stream? (s : State) (n : Nat) : Option Stream := s.streams.getD n none

/-- The steady count of R366 in ns. -/
def steadyNs (s : State) : Nat := s.band.steady

/-- The position of source (island, unit) among those that have reported. -/
def sourceAt (island unit : Nat) (l : List ErrorSource) : Option Nat :=
  posOf (fun x => x.island == island && x.unit == unit) l

/-- A source that has not reported yet (R365). -/
def freshSource (island unit : Nat) : ErrorSource :=
  { island := island, unit := unit, captured := none, interval := none, counter := 0, first := none, anyTorn := false,
    anyPoison := false, dropped := 0 }

/-- The registers of source (island, unit) (R365). -/
def getSource (island unit : Nat) (s : State) : ErrorSource :=
  match sourceAt island unit s.err.sources with
  | some i => s.err.sources.getD i (freshSource island unit)
  | none => freshSource island unit

/-- Store the registers of a source. -/
def putSource (x : ErrorSource) (s : State) : State :=
  updErr (fun e => match sourceAt x.island x.unit e.sources with
    | some i => { e with sources := e.sources.set i x }
    | none => { e with sources := e.sources ++ [x] }) s

/-- The 32 bytes of a log entry (R364). -/
def entryBytes (r : Report) (count : Nat) (overflow : Bool) : List Byte :=
  let flags := (if r.torn then 1 else 0) + (if r.poison then 2 else 0) + (if overflow then 4 else 0)
  leBytes 8 r.stamp ++ leBytes 2 r.status ++ leBytes 1 r.island ++ leBytes 1 r.unit ++ leBytes 2 count
    ++ leBytes 1 flags ++ leBytes 1 r.stream ++ leBytes 8 r.arg0 ++ leBytes 8 r.arg1

/-- HEAD − TAIL, modulo 2^32 (R364, R400). -/
def logUsed (e : ErrLog) : Nat := (e.head + 2 ^ 32 - e.tail) % 2 ^ 32

/-- Write an entry at the head, with room in the ring: NEW, and HALF when HEAD − TAIL reaches 512 (R364, R400). Its words get fresh ECC
(R305). -/
def pushEntry (bs : List Byte) (s : State) : State :=
  let a := s.err.base + 32 * (s.err.head % 1024)
  let other (w : Nat) : Bool := !decide (a / 8 ≤ w ∧ w < a / 8 + 4)
  let t := { s with mem := { s.mem with bytes := memWrite a bs s.mem.bytes, sramPoison := s.mem.sramPoison.filter other
                                        ue := s.mem.ue.filter other, sbe := s.mem.sbe.filter other },
                    err := { s.err with head := (s.err.head + 1) % 2 ^ 32 } }
  setErrStat (if logUsed t.err = 512 then 5 else 1) t

/-- The overflow entry that goes before the first ordinary one once there is room again (R367). -/
def pushOverflow (s : State) : State :=
  if s.err.droppedEntries = 0 || logUsed s.err == 1024 then s
  else
    let r : Report := { stamp := nowNs s, status := 0x0010, island := 39, unit := 0, stream := 0xFF,
                        arg0 := s.err.droppedReports, arg1 := s.err.firstDrop, torn := false, poison := false }
    pushEntry (entryBytes r (min 65535 s.err.droppedEntries) true)
      (updErr (fun e => { e with droppedEntries := 0, droppedReports := 0 }) s)

/-- Write an entry that covers `count` reports, or count it as dropped when the ring is full (R367). -/
def writeEntry (r : Report) (count : Nat) (s : State) : State :=
  let s := pushOverflow s
  if logUsed s.err = 1024 then
    let x := getSource r.island r.unit s
    let t := putSource { x with dropped := min (2 ^ 32 - 1) (x.dropped + count) } s
    setErrStat 2 (updErr (fun e => { e with
      droppedEntries := e.droppedEntries + 1, droppedReports := e.droppedReports + count,
      firstDrop := if e.droppedEntries = 0 then nowNs s else e.firstDrop }) t)
  else pushEntry (entryBytes r count false) s

/-- Write the entry of a source's coalesced reports, where it has any (R366). -/
def flushSource (x : ErrorSource) (s : State) : State :=
  match x.first with
  | some r => if x.counter > 0 then writeEntry { r with torn := x.anyTorn, poison := x.anyPoison } x.counter s else s
  | none => s

/-- The length of a coalescing interval in steady ns (R366). -/
def intervalNs : Nat := 1000000

/-- At the end of an interval with a count, its entry is written and a new interval opens at that instant, with the same status (R366). -/
def dueFlush (island unit : Nat) (s : State) : State :=
  let x := getSource island unit s
  match x.interval with
  | some (c, start) =>
    if start + intervalNs ≤ steadyNs s ∧ 0 < x.counter then
      flushSource x (putSource { x with interval := some (c, start + intervalNs), counter := 0, first := none, anyTorn := false,
                                        anyPoison := false } s)
    else s
  | none => s

/-- An error report (R365, R366): a flush that is due comes first, and the report joins the interval that it opens. -/
def report (r : Report) (s : State) : State :=
  let s := dueFlush r.island r.unit s
  let x := getSource r.island r.unit s
  let x := { x with captured := x.captured.or (some r) }
  let t := steadyNs s
  let open? := match x.interval with
    | some (c, start) => c == r.status && decide (t < start + intervalNs)
    | none => false
  if open? then
    putSource (if x.counter < 65535 then { x with
        counter := x.counter + 1, first := x.first.or (some r), anyTorn := x.anyTorn || r.torn, anyPoison := x.anyPoison || r.poison }
      else { x with dropped := min (2 ^ 32 - 1) (x.dropped + 1) }) s
  else
    let s := putSource { x with interval := some (r.status, t), counter := 0, first := none, anyTorn := false,
                                anyPoison := false } s
    writeEntry r 1 (flushSource x s)

/-- The arguments of a report beside its status, island and unit. -/
structure LogArgs where
  stream : Nat := 0xFF
  arg0 : Nat := 0
  arg1 : Nat := 0
  torn : Bool := false
  poison : Bool := false

/-- Log a status from (island, unit) now. -/
def logErr (status island unit : Nat) (s : State) (a : LogArgs := {}) : State :=
  report { stamp := nowNs s, status := status, island := island, unit := unit, stream := a.stream, arg0 := a.arg0,
           arg1 := a.arg1, torn := a.torn, poison := a.poison } s

/-- EXTEST has taken the main I/O pins from the core (R517). -/
def pinsTaken (s : State) : Bool := s.power.tap == .extest

/-- The ledger shadow goes to the older copy with its generation raised by 1 (R478). -/
def writeCopy (p : Power) : Power :=
  let l := { p.ledger with gen := p.ledger.gen + 1 }
  let older : Bool := match p.copyA, p.copyB with
    | none, _ => true
    | some _, none => false
    | some a, some b => decide (a.ledger.gen ≤ b.ledger.gen)
  if older then { p with ledger := l, copyA := some (copyOf l) } else { p with ledger := l, copyB := some (copyOf l) }

/-- The core drives a scanned pin; what it drives during EXTEST is lost (R517). -/
def emitPin (o : Out) (s : State) : State := if pinsTaken s then s else emit o s

/-- Bytes leave for the flash (R482); EXTEST has taken its pins from the core, so that the access is lost (R517). -/
def flashWrite (a n : Nat) (s : State) : State := emitPin (.flashWrite a n) s

/-- A ledger change from S11 on: the older copy and the flash mirror (R478), which EXTEST keeps from the flash (R517). -/
def saveLedger (s : State) : State :=
  flashWrite mirrorPlace 0x10000
    (updPower (fun p => let q := writeCopy p; { q with mirror := if pinsTaken s then q.mirror else some (copyOf q.ledger) }) s)

/-- Wake a power-gated island: it takes no work before beacons have made it time-ready again (R35, R489; log 53). -/
def wakeIsland (i : Nat) (s : State) : State :=
  updIsland i (fun x => if x.gated then { x with gated := false, waking := true, ready := false, agree := 0, missed := 0 } else x) s

/-- An AER status bit is set (R396): bits of Uncorrectable Error Status below 32, of Correctable Error Status from 32 (their places are
those of PCI Express, PRESUMED, log 9). -/
def noteAer (n : Nat) (s : State) : State := updGate (fun g => { g with aer := setAdd n g.aer }) s

/-- An error message leaves: its reporting is enabled in Device Control, or by SERR# Enable for another than a correctable error
(R396, log 9). -/
def sendError (severity : Nat) (s : State) : State :=
  let on := (cfgReg s 0x58).getLsbD severity || (severity != 0 && (cfgReg s 0x04).getLsbD 8)
  if on && !s.gate.d3hot && !islandFenced s 2 then emit (.errorMessage severity) s else s

/-- An error is reported in AER (R396): its status bit, and unless its mask bit is set a message of the severity that the Severity
register gives it. -/
def setAer (n : Nat) (s : State) : State :=
  let s := noteAer n s
  if 32 ≤ n then if (cfgReg s 0x114).getLsbD (n - 32) then s else sendError 0 s
  else if (cfgReg s 0x108).getLsbD n then s
  else sendError (if (cfgReg s 0x10C).getLsbD n then 2 else 1) s

/-- An error that is reported as Advisory Non-Fatal sets its own bit and the advisory one, whose message is correctable; where its severity
is fatal it is reported as that (R396, log 9). -/
def setAdvisory (n : Nat) (s : State) : State :=
  if (cfgReg s 0x10C).getLsbD n then setAer n s else setAer 45 (noteAer n s)

/-- A request that is completed as Unsupported Request and logged (R380, R396). -/
def badRequest (off : Nat) (s : State) : State := setAer 20 (logErr 0x0903 2 0 s { arg0 := off })

/-- A host write to a BAR (R379, R395): none without a link; Unsupported Request in D3hot and without Memory Space; dropped while
island 2 is fenced. -/
def hostWrites (off : Nat) (f : State → State) (s : State) : State :=
  if !s.gate.linkUp then s
  else if s.gate.d3hot || !memSpace s then badRequest off s
  else if islandFenced s 2 then s
  else f s

/-- The bytes of all ones that a fenced island 2 answers with (R395). -/
def allOnes (n : Nat) : List Byte := List.replicate n 0xFF

/-- A host read of a BAR, as a write of it but for the data. -/
def hostReads (off n : Nat) (f : State → List Byte × State) (s : State) : State :=
  if !s.gate.linkUp then s
  else if s.gate.d3hot || !memSpace s then emit .unsupportedRequest (badRequest off s)
  else if islandFenced s 2 then emit (.readData (allOnes n)) s
  else let (bs, t) := f s; emit (.readData bs) t

/-- The part's speed grade as the ID register holds it: 0xC or 0xA (R1, R397). -/
def grade (s : State) : Nat := bits (reg s 0).toNat 8 4

/-- The core clock in MHz (R1). -/
def coreMHz (s : State) : Nat := if grade s = 0xC then 1200 else 1000

end Sys2Proof.Machine
end

