-- ==== Sys2Proof/Machine/Bandstand.lean ====
section
/-! DEFINITION. The Bandstand (R31 to R59, R197): the master count, beacons, the discipline servo, steps, the change-over to
the oscillator. Offsets and steps are in units of 2^-16 ns, the rate in 2^-32 ppb, the count in 2^-32 ns. -/

namespace Sys2Proof.Machine

/-- The full slewing rate of ±200 ppm (R31, R48), in 2^-32 ppb. -/
def fullRate : Int := 200000 * 2 ^ 32

/-- What a rate correction adds to one PLL cycle of 2 ns, in 2^-32 ns (R31). -/
def cycleGain (rate : Int) : Int := 2 * rate / 1000000000

/-- What slewing adds to each PLL cycle beyond the rate correction while a step is being slewed out (R52). -/
def slewGain (b : Band) : Int :=
  if b.slewLeft = 0 then 0
  else if 0 < b.slewLeft then max 0 (cycleGain fullRate - cycleGain b.rate)
  else min 0 (cycleGain (-fullRate) - cycleGain b.rate)

/-- What slewing adds over `n` cycles: never more than is left. -/
def slewOver (b : Band) (n : Nat) : Int :=
  let x := slewGain b * n
  if x.natAbs < b.slewLeft.natAbs then x else if slewGain b = 0 then 0 else b.slewLeft

/-- `n` cycles of the clock that advances the count: the time PLL, or the oscillator on backup (R31, R56). -/
def advance (n : Nat) (b : Band) : Band :=
  if b.onPll then
    let extra := slewOver b n
    { b with
      count := (b.count + n * (2 ^ 33 + cycleGain b.rate) + extra).toNat % 2 ^ 96
      steady := b.steady + 2 * n
      aon := b.aon + 2 * n * 2 ^ 16
      slewLeft := b.slewLeft - extra }
  else { b with count := (b.count + n * b.oscPeriod * 2 ^ 16) % 2 ^ 96, aon := b.aon + n * b.oscPeriod }

/-- The time that an idle step lets pass (log 3). -/
def idle (s : State) : State := updBand (advance s.idleCycles) s

/-- lock_bound in 2^-16 ns and lock_count of a source (R49). -/
def lockBound : TimeSource → Nat
  | .trellis => 10 * 2 ^ 16
  | .ptp0 => 100 * 2 ^ 16
  | .ptp1 => 100 * 2 ^ 16
  | .ppsIn => 50 * 2 ^ 16
  | .hostSet => 0
  | .none => 0

def lockCount : TimeSource → Nat
  | .trellis => 64
  | .ptp0 => 16
  | .ptp1 => 16
  | .ppsIn => 8
  | .hostSet => 0
  | .none => 0

/-- step_threshold in 2^-16 ns (R49). -/
def stepThreshold : TimeSource → Nat
  | .hostSet => 0
  | _ => 1000 * 2 ^ 16

/-- 1 / t of R49: samples per second. -/
def samplesPerSecond (b : Band) : TimeSource → Nat
  | .trellis => 1000
  | .ptp0 => 2 ^ b.syncLog
  | .ptp1 => 2 ^ b.syncLog
  | _ => 1

/-- 1 / kp and 1 / ki of R49. -/
def kpInv : TimeSource → Nat
  | .trellis => 16
  | .ptp0 => 8
  | .ptp1 => 8
  | _ => 4

def kiInv : TimeSource → Nat
  | .trellis => 1024
  | .ptp0 => 256
  | .ptp1 => 256
  | _ => 64

/-- The loss interval of a source in ns; a host set has none (R49). -/
def lossInterval (b : Band) : TimeSource → Option Nat
  | .trellis => some 4000000
  | .ptp0 => some (4000000000 / 2 ^ b.syncLog)
  | .ptp1 => some (4000000000 / 2 ^ b.syncLog)
  | .ppsIn => some 1500000000
  | .hostSet => none
  | .none => none

/-- The link to the time master is FENCED, so that Trellis samples come from the relaying member (R461). -/
def samplesRelayed (s : State) : Bool :=
  let master := s.trellis.members.foldl min s.trellis.chip
  s.trellis.links.any fun l => l.peer == some master && l.state == .fenced

/-- What R53 and R461 add to the estimate of a Trellis source. -/
def trellisBudget (s : State) : Nat := if samplesRelayed s then 60 else 20

/-- The estimate grown at a rate in ns per second since its base was taken (R54, R57). -/
def grownEstimate (rate : Nat) (s : State) : Option Nat :=
  s.band.errBase.map fun e => e + (nowNs s - s.band.errFrom) * rate / 1000000000

/-- The error estimate of R54 in ns; none reads as unknown. On the oscillator it grows at 50,000 ns/s in every state but FREE
(R57); LOCKED adds the budget of R53 and R461 to a Trellis source, and HOLDOVER grows at its rate. -/
def errEstimate (s : State) : Option Nat :=
  let b := s.band
  if b.tstate = .free then none
  else if !b.onPll then grownEstimate 50000 s
  else match b.tstate with
    | .free => none
    | .acquire => some (Config.acquireErrorEstimate b.lastTheta)
    | .locked => some (lockBound b.source / 2 ^ 16 + (if b.source == .trellis then trellisBudget s else 0))
    | .holdover => grownEstimate b.holdoverRate s

/-- Take the present estimate as the base from which it grows. -/
def foldEstimate (s : State) : State :=
  updBand (fun b => { b with errBase := errEstimate s, errFrom := nowNs s }) s

/-- Enter a state of R48; a change sets TIM_STAT.STATECHG (R399). -/
def enterState (t : TimeState) (s : State) : State :=
  if s.band.tstate = t then s else setTimStat 2 (updBand (fun b => { b with tstate := t }) s)

/-- Whether any stream is open (R52). -/
def anyStream (s : State) : Bool := s.streams.any Option.isSome

/-- No step may be applied: a stream is open and the host has not enabled steps in service (R52). -/
def stepsBarred (s : State) : Bool := anyStream s && !s.band.stepsInService

/-- Ask for a step of `d`: it waits for a beat boundary (R51), or it is slewed out while no step may be applied (R52); what an earlier
one has left over is in the offset that this one removes. -/
def requestStep (d : Int) (s : State) : State :=
  if stepsBarred s then updBand (fun b => { b with slewLeft := d * 2 ^ 16, pendingStep := none }) s
  else updBand (fun b => { b with pendingStep := some d, slewLeft := 0 }) s

/-- The servo of R48 on an offset `theta` of the current source. -/
def servo (theta : Int) (s : State) : State :=
  let src := s.band.source
  let s := updBand (fun b => { b with lastTheta := theta, lastSample := b.steady }) s
  if src == .hostSet then requestStep (-theta) (updBand (fun b => { b with integ := 0 }) s)
  else if s.band.tstate == .acquire && decide (stepThreshold src < theta.natAbs) then
    requestStep (-theta) (updBand (fun b => { b with integ := 0, lockRun := 0 }) s)
  else
    let integ := s.band.integ + theta
    let y := -((theta * (kiInv src / kpInv src : Nat) + integ) * (samplesPerSecond s.band src : Nat) * 2 ^ 16
      / (kiInv src : Nat))
    let run := if theta.natAbs < lockBound src then s.band.lockRun + 1 else 0
    let bad := if 10000 * 2 ^ 16 < theta.natAbs then s.band.badRun + 1 else 0
    let s := updBand (fun b => { b with integ := integ, rate := clamp (-fullRate) fullRate y, lockRun := run,
                                        badRun := bad }) s
    let s := if lockCount src ≤ run then enterState .locked s else s
    if s.band.tstate == .locked && 4 ≤ bad then
      enterState .acquire (updBand (fun b => { b with badRun := 0, lockRun := 0 }) s)
    else s

/-- The rank of a source in the order of R47; sources outside the order rank last. -/
def rank (b : Band) (src : TimeSource) : Nat := (posOf (· == src) b.order).getD b.order.length

/-- During steps 4 and 5 of an update's switch no sample is processed and no step is applied (R495 ruling 11). -/
def timeFrozen (s : State) : Bool :=
  match s.power.update.switching with
  | some (step, _, _, _) => step == 4 || step == 5
  | none => false

/-- Accept a source: ACQUIRE, integ 0, the rate correction kept (R48); time is no longer lost (R58), which the ledger keeps (R478). -/
def acceptSource (src : TimeSource) (s : State) : State :=
  let t := updPower (fun p => { p with ledger := { p.ledger with timeLost := false } }) (updBand (fun b => { b with
    source := src, integ := 0, lockRun := 0, badRun := 0, timeLost := false }) s)
  enterState .acquire (if s.power.running && s.power.ledger.timeLost then saveLedger t else t)

/-- A sample of a source (R47, R48): the current source's goes to the servo; another source is accepted in FREE and
HOLDOVER, or when it ranks above the current one (DEDUCED, log 11). -/
def takeSample (src : TimeSource) (theta : Int) (s : State) : State :=
  if timeFrozen s || !s.band.order.contains src then s
  else
    let s := match src with
      | .ptp0 => updBand (fun b => { b with secondsKnown := true }) s
      | .ptp1 => updBand (fun b => { b with secondsKnown := true }) s
      | .hostSet => updBand (fun b => { b with secondsKnown := true }) s
      | _ => s
    let idleState := s.band.tstate == .free || s.band.tstate == .holdover
    if !idleState && s.band.source == src then servo theta s
    else if idleState || decide (rank s.band src < rank s.band s.band.source) then servo theta (acceptSource src s)
    else s

/-- The Gray code of a count (R34). -/
def grayOf (n : BitVec 64) : BitVec 64 := n ^^^ (n >>> 1)

/-- One round of decoding a Gray code. -/
def grayFold (g : BitVec 64) (k : Nat) : BitVec 64 := g ^^^ (g >>> k)

/-- The count that a Gray code stands for (R34). -/
def ofGray (g : BitVec 64) : BitVec 64 := [1, 2, 4, 8, 16, 32].foldl grayFold g

/-- The rate word of a beacon: the rate correction as a signed 16-bit count of 2^-24 of the nominal rate, rounded down (R34; unit and
rounding DESIGN CHOICE, log 157). -/
def rateWord (rate : Int) : BitVec 16 := BitVec.ofInt 16 (rate * 2 ^ 24 / (1000000000 * 2 ^ 32))

/-- The master count as a beacon carries it, and the count that an island's replica reads when the beacon reaches it: the beacon is
on its way for the path delay, and since the last beacon the replica has slewed out what that one found and has drifted by `d`
(R34). -/
def beaconTime (b : Band) : Int := (ofGray b.beaconCount).toNat
def replicaAt (sent : Nat) (d : Int) (x : Island) : Int := sent + x.pathDelay + (x.replicaErr - x.slew + d)

/-- What a beacon finds: the replica minus the beacon time with the path delay added (R34). -/
def beaconDiff (b : Band) (sent : Nat) (d : Int) (x : Island) : Int := replicaAt sent d x - (beaconTime b + x.pathDelay)

/-- A beacon with difference `e` reaches a running island (R34, R35): beyond 16 ns the replica takes the beacon's value at once and
the island is not time-ready; within that the replica slews the difference out before the next beacon, and two beacons in a row
within 4 ns make the island time-ready. -/
def takeBeacon (w : BitVec 16) (e : Int) (x : Island) : Island :=
  if 16 < e.natAbs then { x with replicaErr := 0, slew := 0, rateWord := w, ready := false, agree := 0, missed := 0 }
  else if e.natAbs ≤ 4 then
    let ready := x.ready || decide (2 ≤ x.agree + 1)
    { x with replicaErr := e, slew := e, rateWord := w, agree := x.agree + 1, missed := 0, ready := ready,
             waking := x.waking && !ready }
  else { x with replicaErr := e, slew := e, rateWord := w, agree := 0, missed := 0 }

/-- BEACON (R34, R35): every running island that the beacon reaches compares it with its replica; `drift` gives, island by island, by how many ns
the replica's own clock has moved it from the master count since the last beacon. -/
def beaconAt (drift : List Int) (s : State) : (n : Nat) → State
  | 0 => s
  | n + 1 =>
    let s := beaconAt drift s n
    match s.islands[n]? with
    | none => s
    | some x =>
      if x.gated then s
      else if x.skips then updIsland n (fun x => { x with skips := false }) s
      else
        let e := beaconDiff s.band s.band.lastBeacon (drift.getD n 0) x
        let t := updIsland n (takeBeacon s.band.beaconRate e) s
        if 16 < e.natAbs then logErr Config.replicaErrorStatus n 0 t else t

/-- The beacon's instant: the multiple of 1,000 ns that the count has reached (R34). -/
def beaconInstant (s : State) : Nat := nowNs s / 1000 * 1000

/-- The Bandstand forms the two words of a beacon (R34). -/
def sendBeacon (s : State) : State :=
  updBand (fun b => { b with lastBeacon := beaconInstant s, beaconCount := grayOf (BitVec.ofNat 64 (beaconInstant s)),
                             beaconRate := rateWord b.rate }) s

/-- A beacon is due: the count has reached a multiple of 1,000 ns since the last one (R34). -/
def beaconDue (s : State) : Bool := s.power.running && decide (nowNs s / 1000 ≠ s.band.lastBeacon / 1000)

/-- BEACON (R34). -/
def execBeacon (drift : List Int) (s : State) : Res :=
  doneIf (beaconDue s) (beaconAt drift (sendBeacon s) 61) s

/-- An island misses a beacon, the one that the Bandstand sends next (R35; log 196): the replica has slewed out what the last one
found; after the fourth in a row the island is not time-ready. -/
def missBeacon (x : Island) : Island :=
  { x with replicaErr := x.replicaErr - x.slew, slew := 0, missed := x.missed + 1, agree := 0, skips := true,
           ready := x.ready && decide (x.missed + 1 < 4) }

/-- BEACON_MISS (R35). -/
def execBeaconMiss (island : Nat) (s : State) : Res :=
  inRange (decide (island < 61)) s <| doneIf s.power.running (updIsland island missBeacon s) s

/-- Update the PTP clock of a port (R197). -/
def updPtp (port : Nat) (f : PtpPort → PtpPort) (s : State) : State :=
  updBand (fun b => { b with ptp := upd b.ptp port f }) s

/-- The source that a PTP port is (R47). -/
def ptpSource (port : Nat) : TimeSource := if port = 0 then .ptp0 else .ptp1

/-- The PTP clock of a port. -/
def ptpPort (s : State) (port : Nat) : PtpPort := s.band.ptp.getD port PtpPort.reset

/-- The announce interval in ns, and a master that has announced itself within 3 of them (PRESUMED of the default profile of IEEE 1588,
log 158). -/
def announceNs : Nat := 2000000000
def masterAlive (now : Nat) (p : PtpPort) : Bool := p.master.isSome && decide (now ≤ p.heard + 3 * announceNs)

/-- The port that the PTP function runs on (R47, R197): of the ports on which a master is announced, the one that comes first in the
order of sources (DEDUCED, log 158). -/
def ptpRuns (s : State) (port : Nat) : Bool :=
  masterAlive (steadyNs s) (ptpPort s port) &&
    (!masterAlive (steadyNs s) (ptpPort s (1 - port)) || decide (rank s.band (ptpSource port) ≤ rank s.band (ptpSource (1 - port))))

/-- A message is in the clock's domain and on its transport (R197). -/
def ptpHeard (h : PtpHeader) (s : State) : Bool := h.domain == s.band.ptpDomain && h.transport == s.band.ptpTransport

/-- A message of the running clock's master (R197). -/
def ptpMine (port : Nat) (h : PtpHeader) (s : State) : Bool :=
  ptpHeard h s && ptpRuns s port && ((ptpPort s port).master.map (·.2)) == some h.sender

/-- The data set of an Announce is better than another one, each with its sender (R197): the default best master clock algorithm. A data
set holds the Announce's bytes from grandmasterPriority1 to stepsRemoved, most significant first: priority 1, class, accuracy, variance,
priority 2, identity, which compare in this order; of one grandmaster the fewer steps, then the lower sender (PRESUMED of IEEE 1588, log
158). -/
def betterMaster (a sa b sb : List Byte) : Bool :=
  let nums (l : List Byte) : List Nat := l.map (·.toNat)
  if slice a 6 8 = slice b 6 8 then decide (nums (slice a 14 2 ++ sa) < nums (slice b 14 2 ++ sb))
  else decide (nums (a.take 14) < nums (b.take 14))

/-- An Announce counts from the second one of its sender in 4 announce intervals on, unless it stands 255 steps from its grandmaster
(PRESUMED of IEEE 1588 with its default interval of 2 s, log 158). -/
def announceCounts (now : Nat) (d sender : List Byte) (p : PtpPort) : Bool :=
  (p.foreign.any fun f => f.1 == sender && decide (now ≤ f.2 + 4 * announceNs)) && slice d 14 2 != [0x00, 0xFF]

/-- An Announce (R197): the first master that counts is taken, and so is a better one or any one where the master is silent; the master's
own replaces its data set. -/
def takeAnnounce (now : Nat) (d sender : List Byte) (p : PtpPort) : PtpPort :=
  let foreign := (p.foreign.filter fun f => f.1 != sender && decide (now ≤ f.2 + 4 * announceNs)) ++ [(sender, now)]
  let taken : PtpPort := { PtpPort.reset with master := some (d, sender), nextReq := p.nextReq, heard := now }
  let q : PtpPort :=
    if !announceCounts now d sender p then p
    else match p.master with
      | none => taken
      | some (old, who) =>
        if who = sender then { p with master := some (d, sender), heard := now }
        else if !masterAlive now p || betterMaster d sender old who then taken
        else p
  { q with foreign := foreign }

/-- The Sync of an exchange is complete: the port sends its delay request (R197; the moment is DEDUCED, log 158). -/
def askDelay (port : Nat) (s : State) : State :=
  let n := (ptpPort s port).nextReq
  emit (.ptpDelayReq port n)
    (updPtp port (fun p => { p with haveSync := true, asked := some n, t3 := none, nextReq := (n + 1) % 65536 }) s)

/-- The latency of a port's PCS, and of its FEC where it runs RS-FEC, in ns (R186, S5 of R477). -/
def portLatency (s : State) (port : Nat) : Int :=
  let l := s.power.ledger.ethLatencies.getD port (0, 0)
  let fec := match (s.eth[port]?).bind (·.net) with | some n => n.rsFec | none => false
  l.1 + (if fec then l.2 else 0)

/-- A hardware stamp of a PTP event message, corrected for the port's fixed PCS and FEC latency of boot step S5, in 2^-16 ns (R197): a
message that arrives crossed the pins earlier than the stamp says, one that leaves crosses them later. -/
def stampIn (s : State) (port : Nat) (stamp : Int) : Int := stamp - portLatency s port * 2 ^ 16
def stampOut (s : State) (port : Nat) (stamp : Int) : Int := stamp + portLatency s port * 2 ^ 16

/-- PTP_MESSAGE (R197): a completed Sync and delay exchange gives θ = ((t2 − t1) − (t4 − t3)) / 2. A Sync of the master carries the
Sync interval of R49 (PRESUMED of IEEE 1588, log 158). -/
def execPtpMessage (port : Nat) (m : PtpPacket) (s : State) : Res :=
  let h := m.header
  inRange (decide (port < 2)) s <|
    if !s.power.running || unitFenced s 3 port || asleep s 3 then done s
    else match m.message with
    | .announce d => doneIf (ptpHeard h s) (updPtp port (takeAnnounce (steadyNs s) d h.sender) s) s
    | .sync seq two n origin corr stamp =>
        let s1 := if 0 ≤ n ∧ n ≤ 7 then updBand (fun b => { b with syncLog := n.toNat }) s else s
        let t := updPtp port (fun p => { p with
          syncSeq := if two then some seq else none, t1 := if two then corr else origin + corr, t2 := stampIn s port stamp,
          haveSync := false }) s1
        doneIf (ptpMine port h s) (if two then t else askDelay port t) s
    | .followUp seq origin corr =>
        doneIf (ptpMine port h s && (ptpPort s port).syncSeq == some seq)
          (askDelay port (updPtp port (fun p => { p with syncSeq := none, t1 := p.t1 + origin + corr }) s)) s
    | .delayReqSent seq stamp =>
        doneIf ((ptpPort s port).asked == some seq)
          (updPtp port (fun p => { p with asked := none, t3 := some (seq, stampOut s port stamp) }) s) s
    | .delayResp seq received corr =>
        let p := ptpPort s port
        match p.t3 with
        | some (q, t3) =>
          let theta := ((p.t2 - p.t1) - (received - corr - t3)) / 2
          doneIf (ptpMine port h s && q == seq && p.haveSync)
            (takeSample (ptpSource port) theta (updPtp port (fun p => { p with t3 := none, haveSync := false }) s)) s
        | none => done s

/-- The stamp minus its nearest whole second, in ns (R50); a stamp half a second from both takes the earlier one (DESIGN CHOICE,
log 159). -/
def ppsOffset (stamp : Nat) : Int :=
  let r := stamp % 1000000000
  if r ≤ 500000000 then (r : Int) else (r : Int) - 1000000000

/-- PPS_IN_EDGE (R50): phase only, and not before the seconds are known. -/
def execPpsInEdge (stamp : Nat) (s : State) : Res :=
  doneIf (s.power.running && !pinsTaken s && s.band.secondsKnown) (takeSample .ppsIn (ppsOffset stamp * 2 ^ 16) s) s

/-- The current source has given no sample for its loss interval (R47, R49). -/
def sourceLate (s : State) : Bool :=
  (s.band.tstate == .acquire || s.band.tstate == .locked) && !timeFrozen s &&
    (match lossInterval s.band s.band.source with
     | some n => decide (s.band.lastSample + n ≤ s.band.steady)
     | none => false)

/-- The PTP port of a source. -/
def sourcePort : TimeSource → Option Nat
  | .ptp0 => some 0
  | .ptp1 => some 1
  | _ => none

/-- A lost PTP source is available again once a master is announced on its port (R47; DEDUCED, log 158). -/
def forgetMaster (src : TimeSource) (s : State) : State :=
  match sourcePort src with
  | some k => updPtp k (fun p => { PtpPort.reset with nextReq := p.nextReq }) s
  | none => s

/-- HOLDOVER: the rate correction is held and no source is current (R47, R48). A step that waits and a slewing of R52 that runs go on
when the source is lost or another is accepted (DESIGN CHOICE, log 197). -/
def loseSource (s : State) : State :=
  enterState .holdover
    (updBand (fun b => { b with source := .none, lockRun := 0, badRun := 0 }) (forgetMaster s.band.source (foldEstimate s)))

/-- DISCIPLINE_LOSS (R47). -/
def execDisciplineLoss (s : State) : Res := doneIf (sourceLate s) (loseSource s) s

/-- An instant moved by `d` ns. -/
def shiftBy (d : Int) (t : Nat) : Nat := (t + d).toNat

/-- A cue moved by a step: host cues keep their instants (R51). -/
def shiftCue (d : Int) (c : Cue) : Cue := if c.source == .host then c else { c with instant := shiftBy d c.instant }

/-- A queued cue moved by a step, with its issue time, so that its lead stays (R51). -/
def shiftQueued (d : Int) (c : QueuedCue) : QueuedCue :=
  if c.cue.source == .host then c else { c with cue := shiftCue d c.cue, issued := shiftBy d c.issued }

/-- A pin's cues moved by a step, and the last edge that the next one is held against (R44); equal instants keep their order
(R51). The end of an active pulse and a running train keep their instants, as a reflex rule's hold-off does: R51 moves pending cues alone
(DESIGN CHOICE, log 160). -/
def shiftPin (d : Int) (p : Pin) : Pin :=
  { p with cues := sortBy (fun a b => decide (a.cue.instant < b.cue.instant)) (p.cues.map (shiftQueued d)),
           held := p.held.map (shiftCue d), reflex := p.reflex.map (shiftQueued d), lastEdge := p.lastEdge.map (shiftBy d) }

/-- A batch id's bell times moved by a step (R51). -/
def shiftBatches (d : Int) (x : BatchId) : BatchId :=
  { x with lastBell := x.lastBell.map (shiftBy d),
           closed := x.closed.map fun y => { y with bellAt := y.bellAt.map (shiftBy d) } }

/-- A lane's cues and due ops moved by a step (R51). -/
def shiftLane (d : Int) (l : Lane) : Lane :=
  { l with cues := sortBy (fun a b => decide (a.cue.instant < b.cue.instant)) (l.cues.map (shiftQueued d)),
           held := l.held.map (shiftCue d),
           due := l.due.map fun o => { o with instant := shiftBy d o.instant, issued := o.issued.map (shiftBy d) } }

/-- A frame that landed before a step: its deadline and age limit move (R495 ruling 20). -/
def shiftFrame (d : Int) (f : Frame) : Frame := { f with shift := f.shift + d }

/-- The time-step event of R434. -/
def timeStepEvent (d : Int) : Event := { kind := 0x0010, status := 0, data := leBytes 8 (unsigned 64 d) }

/-- An open stream at a step (R51, R495 ruling 20). -/
def shiftStream (d : Int) (x : Stream) : Stream :=
  { x with nextEvents := x.nextEvents ++ [timeStepEvent d], creditStep := x.creditStep + d,
           frames := x.frames.map (shiftFrame d)
           rtp := { x.rtp with pieces := x.rtp.pieces.map fun p => (p.1, { p.2 with shift := p.2.shift + d }) }
           capture := x.capture.map fun c => { c with frame := c.frame.map fun f => { f with shift := f.shift + d } } }

/-- A step of `d` in 2^-16 ns takes effect (R51): the count, the pending score and reflex cues, the score epoch and every bell time
move. Instants are whole nanoseconds, so they move by the step rounded down (DESIGN CHOICE, log 12). Every replica moves with the count:
the islands' differences and their being time-ready stand (DESIGN CHOICE, log 198). -/
def applyStep (d : Int) (s : State) : State :=
  let n := d / 2 ^ 16
  let s := { s with
    band := { s.band with count := (s.band.count + d * 2 ^ 16).toNat % 2 ^ 96, pendingStep := none, slewLeft := 0,
                          lastBeacon := shiftBy n s.band.lastBeacon, errFrom := shiftBy n s.band.errFrom }
    pins := s.pins.map (shiftPin n)
    score := { s.score with epoch := shiftBy n s.score.epoch, lanes := s.score.lanes.map (shiftLane n), cycles := [],
                            batches := s.score.batches.map (shiftBatches n) }
    streams := s.streams.map fun o => o.map (shiftStream n)
    power := { s.power with update := { s.power.update with haltedAt := shiftBy n s.power.update.haltedAt } } }
  setTimStat 1 s

/-- What one cycle of the clock adds to the count, in 2^-32 ns (R31, R52, R56). -/
def cycleAddend (b : Band) : Int := if b.onPll then 2 ^ 33 + cycleGain b.rate + slewGain b else b.oscPeriod * 2 ^ 16

/-- The count is at a beat boundary, or has passed it in its last cycle (R37; the count meets the boundary itself only where its
addend is 2 ns, so that the first cycle at or after the boundary stands for it: DEDUCED, log 161). -/
def atBeat (b : Band) : Bool := decide (((b.count % (64 * 2 ^ 32) : Nat) : Int) < cycleAddend b)

/-- STEP_APPLY (R51, R52): the pending step takes effect at a beat boundary; where a stream has been opened since it was asked for and
the host has not enabled steps in service, it is slewed out instead. -/
def execStepApply (s : State) : Res :=
  match s.band.pendingStep with
  | some d =>
    doneIf (!timeFrozen s && atBeat s.band)
      (if stepsBarred s then requestStep d (updBand (fun b => { b with pendingStep := none }) s) else applyStep d s) s
  | none => done s

/-- OSC_PERIOD_MEASURED (R56): the period over 2^20 cycles, in 2^-16 ns, measured while locked to TIMEREF. -/
def execOscPeriodMeasured (period : Nat) (s : State) : Res :=
  doneIf (s.band.onPll && s.power.timeref && s.power.running) (updBand (fun b => { b with oscPeriod := period }) s) s

/-- OSC_CHANGEOVER (R56): without main rails, or without TIMEREF (R511), the count runs on the oscillator. -/
def execOscChangeover (s : State) : Res :=
  doneIf (s.band.onPll && (!s.power.maingood || !s.power.timeref))
    (updBand (fun b => { b with onPll := false }) (foldEstimate s)) s

/-- The time PLL locks: the count changes back, and the state becomes HOLDOVER (R56). FREE stays until a source is accepted (R48,
R58). -/
def lockPll (s : State) : State :=
  if s.band.onPll then s
  else
    let t := updBand (fun b => { b with onPll := true, source := .none, lockRun := 0, badRun := 0 }) (foldEstimate s)
    if s.band.tstate = .free then t else enterState .holdover t

/-- TIME_PLL_LOCK (R56). -/
def execTimePllLock (s : State) : Res := doneIf (s.power.maingood && s.power.timeref) (lockPll s) s

end Sys2Proof.Machine
end

