-- ==== Sys2Proof/Machine/DramTraining.lean ====
section
/-! DEFINITION. DRAM training (R327 to R329): the pattern generator and the compare helper, the sweeps and what each step selects. What
the DRAM's side answers at each point of a sweep comes with BOOT. -/

namespace Sys2Proof.Machine

/-- Lanes of a channel: its CA bits (those of LPDDR5, PRESUMED, log 189), the 16 DQ and 2 DMI bits, the bytes. -/
def caLanes : Nat := 7
def dqLanes : Nat := 18
def byteLanes : Nat := 2

/-- The bits of a PRBS with the polynomial x^n + x^m + 1 (R327); `last` holds the n bits before, newest first. -/
def prbsBits (n m : Nat) : (count : Nat) → (last : List Bool) → List Bool
  | 0, _ => []
  | k + 1, last =>
    let b := xor (last.getD (n - 1) false) (last.getD (m - 1) false)
    b :: prbsBits n m k ((b :: last).take n)

/-- What the generator drives on a lane in the 16 beats of a burst (R327), before inversion. A PRBS is the same on every lane and starts
from ones at each burst, a walking bit moves by a lane at each beat, and a beat of a set pattern takes two of its bytes (DESIGN CHOICE,
log 189). -/
def patternBits (h : TrainHelper) (lanes burst lane : Nat) : List Bool :=
  let beat (i : Nat) : Nat := 16 * burst + i
  match h.pattern with
  | .prbs7 => prbsBits 7 6 16 (List.replicate 7 true)
  | .prbs15 => prbsBits 15 14 16 (List.replicate 15 true)
  | .prbs31 => prbsBits 31 28 16 (List.replicate 31 true)
  | .walkingOne => (List.range 16).map fun i => beat i % max 1 lanes == lane
  | .walkingZero => (List.range 16).map fun i => beat i % max 1 lanes != lane
  | .set => (List.range 16).map fun i => bitAt (field h.bytes (2 * (beat i % 32)) 2) lane

/-- What leaves a lane: inverted where the lane is (R327). -/
def driven (h : TrainHelper) (lanes burst lane : Nat) : List Bool :=
  (patternBits h lanes burst lane).map fun b => xor b (h.inverted.contains lane)

/-- What a lane reads back of a burst: as it was driven, or where the DRAM's side changes it, turned. -/
def readBack (h : TrainHelper) (lanes lane : Nat) (b : Nat × List Nat) : List Bool :=
  (driven h lanes b.1 lane).map fun x => xor x (b.2.contains lane)

/-- The compare helper finds a lane of a burst in error: what it reads is not what the generator drives (R327). -/
def laneFails (h : TrainHelper) (lanes lane : Nat) (b : Nat × List Nat) : Bool := readBack h lanes lane b != driven h lanes b.1 lane

/-- The compare helper's count of a lane, saturating at 16 bits (R327). -/
def compareErrors (h : TrainHelper) (lanes : Nat) (p : TrainPoint) (lane : Nat) : Nat := min 65535 (p.filter (laneFails h lanes lane)).length

/-- The bursts of a point in which a lane fails. -/
def laneErrors (p : TrainPoint) (lane : Nat) : Nat := (p.filter fun b => b.2.contains lane).length

/-- The bursts of a point that a step runs: those below `n` (R328). -/
def burstsBelow (n : Nat) (p : TrainPoint) : TrainPoint := p.filter fun b => decide (b.1 < n)

/-- The helpers after a run of a pattern over a point (R327): the counts of the lanes that it drives, and the first failing burst; those
of the other bus stand. -/
def runHelper (pattern : TrainPattern) (onCa : Bool) (lanes : Nat) (p : TrainPoint) (h : TrainHelper) : TrainHelper :=
  let h := { h with pattern := pattern, onCa := onCa }
  let counts := (List.range lanes).map (compareErrors h lanes p)
  let failing := p.filter fun b => (List.range lanes).any fun k => laneFails h lanes k b
  { h with
    counts := if onCa then padCounts dqLanes (h.counts.take dqLanes) ++ counts else counts ++ h.counts.drop dqLanes
    firstFail := (failing.map (·.1)).min? }
where
  /-- Counts of `n` lanes, 0 for one that has not been driven. -/
  padCounts (n : Nat) (l : List Nat) : List Nat := l ++ List.replicate (n - l.length) 0

/-- The passing windows of a sweep: first point and length of each run. -/
def windows : (at_ : Nat) → (open_ : Option Nat) → List Bool → List (Nat × Nat)
  | at_, some a, [] => [(a, at_ - a)]
  | _, none, [] => []
  | at_, some a, ok :: l => if ok then windows (at_ + 1) (some a) l else (a, at_ - a) :: windows (at_ + 1) none l
  | at_, none, ok :: l => windows (at_ + 1) (if ok then some at_ else none) l

/-- The largest passing window; of several the first (DESIGN CHOICE, log 189). -/
def bestWindow (ok : List Bool) : Option (Nat × Nat) :=
  (windows 0 none ok).foldl (fun b w => match b with
    | some v => if v.2 < w.2 then some w else some v
    | none => some w) none

/-- The window is wide enough (R328): 0.2 UI, or 10 % of the range for a Vref sweep. -/
def wideEnough (vref : Bool) (w : TrainSweep) (len : Nat) : Bool :=
  if vref then decide (w.points.length ≤ 10 * len) else decide (w.perUi ≤ 5 * len)

/-- What a sweep selects over the points that pass: the centre of the largest window, the lower of two middle points (DESIGN CHOICE, log
189); none where the window is too narrow (R328). -/
def selectCentre (vref : Bool) (w : TrainSweep) (ok : List Bool) : Option Nat :=
  (bestWindow ok).bind fun b => if wideEnough vref w b.2 then some (b.1 + (b.2 - 1) / 2) else none

/-- A sweep over all lanes at once, of `n` bursts at each point. -/
def sweepAll (vref : Bool) (n : Nat) (w : TrainSweep) : Option Nat :=
  selectCentre vref w (w.points.map fun p => (burstsBelow n p).isEmpty)

/-- A sweep lane by lane; none where a lane has no window. -/
def sweepLanes (lanes n : Nat) (w : TrainSweep) : Option (List Nat) :=
  (List.range lanes).foldr (fun k l =>
    match selectCentre false w (w.points.map fun p => laneErrors (burstsBelow n p) k == 0), l with
    | some c, some l => some (c :: l)
    | _, _ => none) (some [])

/-- Bursts at each point of steps 4 and 5, and of the quick check (R328). -/
def pointBursts : Nat := 4096
def quickBursts : Nat := 65536

/-- Step 6 (R328): no error is allowed. -/
def quickPasses (p : TrainPoint) : Bool := (burstsBelow quickBursts p).isEmpty

/-- What steps 1 to 5 select, where each of them passes (R328). -/
def trainedDelays (f : ChannelTraining) : Option DramDelays :=
  (sweepLanes caLanes quickBursts f.caDelay).bind fun ca => (sweepAll true quickBursts f.caVref).bind fun caV =>
    (sweepAll false quickBursts f.wck).bind fun wck => (sweepLanes byteLanes quickBursts f.gate).bind fun gate =>
      (sweepLanes dqLanes pointBursts f.readDq).bind fun rd => (sweepLanes dqLanes pointBursts f.writeDq).bind fun wr =>
        (sweepAll true pointBursts f.vrefCtl).bind fun v0 => (sweepAll true pointBursts f.vrefDram).map fun v1 =>
          { caDelay := ca, caVref := caV, wck := wck, gate := gate, readDq := rd, writeDq := wr, vrefCtl := v0, vrefDram := v1 }

/-- The last point of a sweep. -/
def lastPoint (w : TrainSweep) : TrainPoint := w.points.getLast?.getD []

/-- The helpers after a full training (R327, R328): the last step that ran with a pattern leaves its own; steps 2 and 3 use the DRAM's
feedback. -/
def helperAfter (f : ChannelTraining) (h : TrainHelper) : TrainHelper :=
  let h := runHelper .prbs7 true caLanes (lastPoint (if (sweepLanes caLanes quickBursts f.caDelay).isSome then f.caVref else f.caDelay)) h
  if (sweepLanes caLanes quickBursts f.caDelay).isNone || (sweepAll true quickBursts f.caVref).isNone
      || (sweepAll false quickBursts f.wck).isNone || (sweepLanes byteLanes quickBursts f.gate).isNone then h
  else
    let deskew := (sweepLanes dqLanes pointBursts f.readDq).isSome
    let h := runHelper .prbs15 false dqLanes (burstsBelow pointBursts (lastPoint (if deskew then f.writeDq else f.readDq))) h
    if !deskew || (sweepLanes dqLanes pointBursts f.writeDq).isNone then h
    else
      let ctl := (sweepAll true pointBursts f.vrefCtl).isSome
      let h := runHelper .prbs31 false dqLanes (burstsBelow pointBursts (lastPoint (if ctl then f.vrefDram else f.vrefCtl))) h
      if (trainedDelays f).isNone then h else runHelper .prbs15 false dqLanes (burstsBelow quickBursts f.quick) h

/-- The results of a full training, where every step passes (R328). -/
def fullTraining (f : ChannelTraining) : Option DramDelays := if quickPasses f.quick then trainedDelays f else none

/-- A training that meets no error: one point in every sweep, for a channel of which BOOT's facts say nothing. -/
def cleanTraining : ChannelTraining :=
  let w : TrainSweep := { perUi := 1, points := [[]] }
  { caDelay := w, caVref := w, wck := w, gate := w, readDq := w, writeDq := w, vrefCtl := w, vrefDram := w, quick := [] }

end Sys2Proof.Machine
end

