-- ==== Sys2Proof/Machine/Operands.lean ====
section
/-! DEFINITION. Operand forms: slot ops (R63), lanes and their units (R61), the score image and its descriptors (R75, R83,
R88, R115), tags and formats (R126, R128). Each field is read in one place. -/

namespace Sys2Proof.Machine

/-- Fields of a slot op (R63). -/
def opOpc (w : BitVec 64) : Nat := bits w.toNat 58 6
def opGm (w : BitVec 64) : Nat := bits w.toNat 56 2
def opSig (w : BitVec 64) : Bool := bitAt w.toNat 55
def opWtok (w : BitVec 64) : Nat := bits w.toNat 43 12
def opStok (w : BitVec 64) : Nat := bits w.toNat 31 12
def opNeed (w : BitVec 64) : Nat := bits w.toNat 27 4
def opArg (w : BitVec 64) : Nat := bits w.toNat 0 27

/-- Fields of ARG (R64): value, limit, counter or batch id, threshold, target, descriptor, claim counter, pin, width,
level bit, layer. -/
def argValue (w : BitVec 64) : Nat := bits w.toNat 0 16
def argLimit (w : BitVec 64) : Nat := bits w.toNat 0 21
def argHigh (w : BitVec 64) : Nat := bits w.toNat 21 6
def argThreshold (w : BitVec 64) : Nat := bits w.toNat 13 8
def argTarget (w : BitVec 64) : Nat := bits w.toNat 0 13
def argDesc (w : BitVec 64) : Nat := bits w.toNat 0 20
def argCounter (w : BitVec 64) : Nat := bits w.toNat 20 6
def argPin (w : BitVec 64) : Nat := bits w.toNat 23 4
def argWidth (w : BitVec 64) : Nat := bits w.toNat 0 23
def argBit (w : BitVec 64) : Bool := bitAt w.toNat 0

/-- The lanes of the units (R61). -/
def orangeryLane (o : Nat) : Nat := o + 1
def pergolaLane (p : Nat) : Nat := p + 17
def moverLane (m : Nat) : Nat := m + 25
def topiaryLane (t : Nat) : Nat := t + 49
def aviaryLane : Nat := 53
def pinLane : Nat := 54
def traceLane : Nat := 55

/-- The island of a lane's unit (R16, R61); lanes 0, 54 and 55 belong to the sequencer of island 39. -/
def laneIsland (k : Nat) : Nat :=
  if 1 ≤ k ∧ k ≤ 16 then 14 + (k - 1)
  else if 17 ≤ k ∧ k ≤ 24 then 30 + (k - 17)
  else if 49 ≤ k ∧ k ≤ 52 then 9 + (k - 49)
  else if k = 53 then 38
  else 39

/-- The sub-unit of a lane within its island, as the error log names it (R364): the mover's number, 24 for the sequencer with its lanes 0,
54 and 55 (DESIGN CHOICE, log 216), else 0. -/
def laneUnit (k : Nat) : Nat := if 25 ≤ k ∧ k ≤ 48 then k - 25 else if laneIsland k = 39 then 24 else 0

/-- An offset and a count or length of the image header (R88). -/
structure Section where
  off : Nat
  len : Nat
  deriving DecidableEq, Repr

/-- The section whose header field lies at `at_`. -/
def sectionAt (img : List Byte) (at_ : Nat) : Section := { off := field img at_ 4, len := field img (at_ + 4) 4 }

/-- The header fields of R88. -/
def imgMagic (img : List Byte) : Nat := field img 0x00 4
def imgVersion (img : List Byte) : Nat := field img 0x04 2
def imgChip (img : List Byte) : Nat := field img 0x06 1
def imgChips (img : List Byte) : Nat := field img 0x07 1
def imgLength (img : List Byte) : Nat := field img 0x08 4
def imgCrc (img : List Byte) : Nat := field img 0x0C 4
def imgPkgid (img : List Byte) : Nat := field img 0x10 8
def imgLanes (img : List Byte) : Nat := field img 0x18 8
def imgClaimOnly (img : List Byte) : Nat := field img 0x20 2
def imgWatchdog (img : List Byte) : Nat := field img 0x22 2
def imgEntry (img : List Byte) : Nat := field img 0x24 2
def imgRestart (img : List Byte) : Nat := field img 0x26 2
def imgStaging (img : List Byte) : Nat := field img 0x28 4
def imgCues (img : List Byte) : Section := sectionAt img 0x30
def imgTiles (img : List Byte) : Section := sectionAt img 0x38
def imgVecs (img : List Byte) : Section := sectionAt img 0x40
def imgMoves (img : List Byte) : Section := sectionAt img 0x48
def imgAvds (img : List Byte) : Section := sectionAt img 0x50
def imgTargets (img : List Byte) : Section := sectionAt img 0x58
def imgTokInit (img : List Byte) : Section := sectionAt img 0x60

/-- The cue-stream offset of branch target `i` (R88). -/
def imgTarget (img : List Byte) (i : Nat) : Nat := field img ((imgTargets img).off + 4 * i) 4

/-- The lanes present in a mask, ascending (R60). -/
def maskLanes (mask : Nat) : List Nat := (List.range 56).filter (bitAt mask)

/-- The cue word at a cue-stream offset: its lanes with their slot ops, and its length in bytes (R60). -/
def cueWord (img : List Byte) (off : Nat) : List (Nat × BitVec 64) × Nat :=
  let a := (imgCues img).off + off
  let lanes := maskLanes (field img a 8)
  (lanes.zipIdx.map fun p => (p.1, BitVec.ofNat 64 (field img (a + 8 + 8 * p.2) 8)), 8 + 8 * lanes.length)

/-- A tile descriptor (R75). -/
structure TileDesc where
  layer : Nat
  opmode : Nat
  flags : Nat
  tm : Nat
  tn : Nat
  tk : Nat
  gn : Nat
  lm : Nat
  ln : Nat
  lk : Nat
  lenM : Nat
  lenN : Nat
  lenK : Nat
  rsv0 : Nat
  fixidx : Nat
  abase : Nat
  bbase : Nat
  obase : Nat
  opitch : Nat
  rsv1 : Nat
  deriving DecidableEq, Repr

/-- The tile descriptor in 64 bytes (R75). -/
def tileDesc (b : List Byte) : TileDesc where
  layer := field b 0x00 2
  opmode := field b 0x02 1
  flags := field b 0x03 1
  tm := field b 0x04 2
  tn := field b 0x06 2
  tk := field b 0x08 2
  gn := field b 0x0A 2
  lm := field b 0x0C 4
  ln := field b 0x10 4
  lk := field b 0x14 4
  lenM := field b 0x18 1
  lenN := field b 0x19 1
  lenK := field b 0x1A 1
  rsv0 := field b 0x1B 1
  fixidx := field b 0x1C 4
  abase := field b 0x20 8
  bbase := field b 0x28 8
  obase := field b 0x30 8
  opitch := field b 0x38 4
  rsv1 := field b 0x3C 4

/-- KIND, PAIR and OUT of an OPMODE (R97). -/
def omKind (m : Nat) : Nat := bits m 5 3
def omPair (m : Nat) : Nat := bits m 2 3
def omOut (m : Nat) : Nat := bits m 0 2

/-- Tile descriptor `i` of an image. -/
def imgTile (img : List Byte) (i : Nat) : TileDesc := tileDesc (slice img ((imgTiles img).off + 64 * i) 64)

/-- A mover descriptor (R83). -/
structure MoverDesc where
  src : Nat
  dst : Nat
  spitch : Nat
  dpitch : Nat
  rowb : Nat
  mode : Nat
  rows : Nat
  deriving DecidableEq, Repr

/-- The mover descriptor in 32 bytes (R83). -/
def moverDesc (b : List Byte) : MoverDesc where
  src := field b 0x00 8
  dst := field b 0x08 8
  spitch := field b 0x10 4
  dpitch := field b 0x14 4
  rowb := field b 0x18 3
  mode := field b 0x1B 1
  rows := field b 0x1C 4

/-- Mover descriptor `i` of an image. -/
def imgMove (img : List Byte) (i : Nat) : MoverDesc := moverDesc (slice img ((imgMoves img).off + 32 * i) 32)

/-- A Pergola descriptor (R115). -/
structure VecDesc where
  func : Nat
  flags : Nat
  layer : Nat
  count : Nat
  len : Nat
  rsv : Nat
  in0 : Nat
  in1 : Nat
  out : Nat
  ipitch : Nat
  opitch : Nat
  params : List Byte
  deriving DecidableEq, Repr

/-- The Pergola descriptor in 64 bytes (R115). -/
def vecDesc (b : List Byte) : VecDesc where
  func := field b 0x00 1
  flags := field b 0x01 1
  layer := field b 0x02 2
  count := field b 0x04 4
  len := field b 0x08 4
  rsv := field b 0x0C 4
  in0 := field b 0x10 8
  in1 := field b 0x18 8
  out := field b 0x20 8
  ipitch := field b 0x28 4
  opitch := field b 0x2C 4
  params := slice b 0x30 16

/-- Pergola descriptor `i` of an image. -/
def imgVec (img : List Byte) (i : Nat) : VecDesc := vecDesc (slice img ((imgVecs img).off + 64 * i) 64)

/-- Byte `i` of PARAMS, and a field of `n` bytes from it (R116). -/
def param (d : VecDesc) (i : Nat) : Nat := field d.params i 1
def paramN (d : VecDesc) (i n : Nat) : Nat := field d.params i n

/-- The 32 bytes of Aviary descriptor `i` of an image (R88, R168). -/
def imgAvd (img : List Byte) (i : Nat) : List Byte := slice img ((imgAvds img).off + 32 * i) 32

/-- A batch geometry entry (R254). -/
structure Geom where
  batch : Nat
  kind : Nat
  cls : Nat
  chans : Nat
  slots : Nat
  dw : Nat
  dh : Nat
  format : Nat
  fit : Nat
  matrix : Nat
  filter : Nat
  pad : Nat
  exp : Int
  area0 : Nat
  area1 : Nat
  table0 : Nat
  table1 : Nat
  spitch : Nat
  filltok : Nat
  wblk : Nat
  woff : Nat
  deriving DecidableEq, Repr

/-- The entry of batch id `k` in a geometry table; an id at or beyond the table's length is absent (R254). -/
def geomOf (table : List Byte) (k : Nat) : Geom :=
  let b := slice table (64 * k) 64
  { batch := field b 0x00 1, kind := field b 0x01 1, cls := field b 0x02 1, chans := field b 0x03 1,
    slots := field b 0x04 2, dw := field b 0x06 2, dh := field b 0x08 2, format := field b 0x0A 1,
    fit := field b 0x0B 1, matrix := field b 0x0C 1, filter := field b 0x0D 1, pad := field b 0x0E 1,
    exp := sfield b 0x0F 1, area0 := field b 0x10 8, area1 := field b 0x18 8, table0 := field b 0x20 8,
    table1 := field b 0x28 8, spitch := field b 0x30 4, filltok := field b 0x34 2, wblk := field b 0x36 1,
    woff := field b 0x38 4 }

/-- The entry of batch id `k` in the resident package. -/
def geom (s : State) (k : Nat) : Geom := geomOf (match s.pkg with | some p => p.geometry | none => []) k

/-- Slot area and slot table of instance `j` (R255). -/
def geomArea (g : Geom) (j : Nat) : Nat := if j % 2 = 0 then g.area0 else g.area1
def geomTable (g : Geom) (j : Nat) : Nat := if j % 2 = 0 then g.table0 else g.table1

/-- The formats of R126 by FMT code. -/
def fmtA4u : Nat := 0
def fmtA4s : Nat := 1
def fmtA2u : Nat := 2
def fmtA2s : Nat := 3
def fmtA1 : Nat := 4
def fmtA8 : Nat := 5
def fmtA16 : Nat := 6
def fmtAcc32 : Nat := 7
def fmtW4 : Nat := 8
def fmtW2 : Nat := 9
def fmtTernary : Nat := 10
def fmtW1 : Nat := 11
def fmtW8 : Nat := 12
def fmtW16 : Nat := 13

/-- The bits of a format (R126). -/
def fmtBits (f : Nat) : Nat :=
  match f with
  | 0 => 4 | 1 => 4 | 2 => 2 | 3 => 2 | 4 => 1 | 5 => 8 | 6 => 16 | 7 => 32
  | 8 => 4 | 9 => 2 | 10 => 2 | 11 => 1 | 12 => 8 | 13 => 16 | _ => 0

/-- An activation format (R126). -/
def fmtIsAct (f : Nat) : Bool := decide (f ≤ 7)

/-- A weight format (R126). -/
def fmtIsWeight (f : Nat) : Bool := decide (8 ≤ f ∧ f ≤ 13)

/-- A format with an unsigned code (R126). -/
def fmtUnsigned (f : Nat) : Bool := f == 0 || f == 2

/-- The value that a code stands for before its exponent and zero point: signed or unsigned, 2b − 1 for one bit (R101,
R126). -/
def fmtValue (f code : Nat) : Int :=
  if f = 4 ∨ f = 11 then 2 * (code % 2 : Nat) - 1
  else if fmtUnsigned f then (code % 2 ^ fmtBits f : Nat)
  else signed (fmtBits f) code

/-- The code range of a format (R126). -/
def fmtLo (f : Nat) : Int :=
  if f = 4 ∨ f = 11 then 0 else if fmtUnsigned f then 0 else if f = 8 then -7 else if f = 10 then -1 else -(2 ^ (fmtBits f - 1))
def fmtHi (f : Nat) : Int :=
  if f = 4 ∨ f = 11 then 1 else if fmtUnsigned f then 2 ^ fmtBits f - 1 else 2 ^ (fmtBits f - 1) - 1

/-- A W4 or ternary poison code (R127). -/
def fmtPoison (f code : Nat) : Bool := (f == 8 && code % 16 == 8) || (f == 10 && code % 4 == 2)

/-- The fields of a tag (R128). -/
def tagExp (t : Nat) : Int := signed 8 t
def tagZp (t : Nat) : Nat := bits t 8 4
def tagFmt (t : Nat) : Nat := bits t 12 4

/-- A tag (R128). -/
def mkTag (exp : Int) (zp fmt : Nat) (flag wide : Bool) (satn : Nat) : Nat :=
  unsigned 8 exp + zp * 2 ^ 8 + fmt * 2 ^ 12 + (if flag then 2 ^ 16 else 0) + (if wide then 2 ^ 17 else 0)
    + min 255 satn * 2 ^ 24

/-- The layer numerics entry (R133). -/
structure LayerEntry where
  ofmt : Nat
  zfix : Nat
  einit : Int
  w : Nat
  h : Nat
  key : Nat
  g : Nat
  rl : Nat
  lt : Nat
  action : Nat
  path : Nat
  wof : Nat
  widemax : Nat
  hbase : Nat
  hstride : Nat
  hist : Nat
  rsv : Nat
  deriving DecidableEq, Repr

/-- The entry of layer `l` in the package's table (R133). -/
def layerEntry (table : List Byte) (l : Nat) : LayerEntry :=
  let b := slice table (32 * l) 32
  { ofmt := field b 0x00 1, zfix := field b 0x01 1, einit := sfield b 0x02 1, w := bits (field b 0x03 1) 0 4,
    h := bits (field b 0x03 1) 4 2, key := bits (field b 0x03 1) 6 2, g := field b 0x04 1, rl := field b 0x05 1,
    lt := field b 0x06 2, action := field b 0x08 1, path := field b 0x09 1, wof := field b 0x0A 2,
    widemax := field b 0x0C 4, hbase := field b 0x10 8, hstride := field b 0x18 4, hist := field b 0x03 1,
    rsv := field b 0x1C 4 }

/-- The entry of a layer in the resident package. -/
def residentLayer (s : State) (l : Nat) : LayerEntry :=
  match s.pkg with
  | some p => layerEntry p.layers l
  | none => layerEntry [] l

/-- A cue word with its offset. -/
abbrev Word := Nat × List (Nat × BitVec 64)

/-- The words of a cue stream from an offset to its end, where each lies inside it and every mask is in range (R60, check 4). -/
def parseWords (img : List Byte) : (fuel off : Nat) → Option (List Word)
  | 0, off => if off = (imgCues img).len then some [] else none
  | fuel + 1, off =>
    if off = (imgCues img).len then some []
    else if (imgCues img).len < off + 8 then none
    else
      let (ops, len) := cueWord img off
      if 2 ^ 56 ≤ field img ((imgCues img).off + off) 8 || decide ((imgCues img).len < off + len) then none
      else (parseWords img fuel (off + len)).map fun l => (off, ops) :: l

/-- Every word of an image; none when its cue stream does not parse. -/
def imgWords (img : List Byte) : Option (List Word) := parseWords img ((imgCues img).len / 8) 0

/-- The ops of an image with an opcode on the lanes that `k` holds of. -/
def opsWith (ws : List Word) (opc : Nat) (k : Nat → Bool) : List (BitVec 64) :=
  (ws.map fun w => (w.2.filter fun x => k x.1 && opOpc x.2 == opc).map (·.2)).flatten

/-- The layer ids that an image names (R134). -/
def imageLayers (img : List Byte) (ws : List Word) : List Nat :=
  ((List.range (imgTiles img).len).map fun i => (imgTile img i).layer)
    ++ ((List.range (imgVecs img).len).map fun i => (imgVec img i).layer)
    ++ (opsWith ws 0x3E fun k => k == traceLane).map argValue

/-- The named layer ids with those that their WOF names, and so on (R134). -/
def closeLayers (table : List Byte) : (fuel : Nat) → List Nat → List Nat
  | 0, l => l
  | n + 1, l =>
    let more := (l ++ l.map fun i => (layerEntry table i).wof).eraseDups
    if more.length = l.length then l else closeLayers table n more

/-- The named layers of an image. -/
def namedLayers (table img : List Byte) (ws : List Word) : List Nat :=
  closeLayers table (table.length / 32 + 1) (imageLayers img ws).eraseDups

/-- The layer ids that the resident package names (R134). -/
def residentNamed (s : State) : List Nat :=
  match s.pkg with
  | some p => namedLayers p.layers s.score.image ((imgWords s.score.image).getD [])
  | none => []

end Sys2Proof.Machine
end

