-- ==== Sys2Proof/Machine/CuePins.lean ====
section
/-! DEFINITION. Cues, cue pins and the reflex path (R36 to R46). A cue waits in its target's queue with its issue time;
CUE_TAKE_EFFECT applies the first one whose instant has come. -/

namespace Sys2Proof.Machine

/-- The places of a cue queue and of a reflex queue (R41), and of a timestamp queue (R44). -/
def cueDepth : Nat := 16
def stampDepth : Nat := 64

/-- The cue lead in ns (R38). -/
def cueLead : Nat := 160

/-- An output mode (R43). -/
def pinDrives (p : Pin) : Bool := p.mode == .output || p.mode == .strobe

/-- The pin is active: its base level or a pulse on it is (R43). -/
def pinActive (p : Pin) : Bool := p.base == p.par.activeHigh || p.pulseEnd.isSome

/-- The level that the pin drives. -/
def pinLevel (p : Pin) : Bool := if pinActive p then p.par.activeHigh else !p.par.activeHigh

/-- Change a pin, and note the level when the driven level changes; an edge that is made during EXTEST is lost (R517). -/
def drivePin (n : Nat) (f : Pin → Pin) (s : State) : State :=
  match s.pins[n]? with
  | none => s
  | some p =>
    let q := f p
    let t := updPin n f s
    if pinDrives q && (!pinDrives p || pinLevel p != pinLevel q) && !pinsTaken s then emit (.pinLevel n (pinLevel q)) t else t

/-- Queue a cue in order of instant, equal instants in order of issue (R41), with its island's readiness as it is received (R36). -/
def enqueue (now : Nat) (ready : Bool) (c : Cue) (q : List QueuedCue) : List QueuedCue :=
  insertBy (fun a b => decide (a.cue.instant < b.cue.instant)) { cue := c, issued := now, ready := ready } q

/-- The island that a cue's target lies in: the cue pins and PPS_OUT lie in island 0 (R16, R42). -/
def cueIsland : CueTarget → Nat
  | .lane k => laneIsland k
  | _ => 0

/-- The island of a target is time-ready (R35). -/
def targetReady (t : CueTarget) (s : State) : Bool :=
  match s.islands[cueIsland t]? with | some x => x.ready | none => true

/-- The count that the replica of a target's island shows (R35, R36). -/
def replicaNow (t : CueTarget) (s : State) : Int :=
  nowNs s + (match s.islands[cueIsland t]? with | some x => x.replicaErr | none => 0)

/-- Whether the distributor refuses a cue with 0x0020: a host cue whose target's queue is full (R41). -/
def cueRefused (c : Cue) (s : State) : Bool :=
  c.source == .host && (match c.target with
    | .lane k => (match s.score.lanes[k]? with | some l => decide (cueDepth ≤ l.cues.length) | none => true)
    | .pin n => (match s.pins[n]? with | some p => pinDrives p && decide (cueDepth ≤ p.cues.length) | none => true)
    | .ppsOut => true)

/-- The distributor holds a score cue for a pin: its queue is full, or one is held already (R41). -/
def pinHolds (n : Nat) (s : State) : Bool :=
  match s.pins[n]? with
  | some p => pinDrives p && !(decide (p.cues.length < cueDepth) && p.held.isEmpty)
  | none => false

/-- A cue reaches the distributor (R38, R41, R43). Of a score's pin cue the issue time is that of its op (R39; DEDUCED, log 81). PPS_OUT
takes only the edges of its own series (R50). -/
def issueCue (c : Cue) (s : State) : State :=
  let now := nowNs s
  let ready := targetReady c.target s
  match c.target with
  | .ppsOut => s
  | .lane k =>
    match c.source with
    | .reflex => s
    | .host => if cueRefused c s then s else updLane k (fun l => { l with cues := enqueue now ready c l.cues }) s
    | .score => updLane k (fun l =>
        if l.cues.length < cueDepth && l.held.isEmpty then { l with cues := enqueue now ready c l.cues }
        else { l with held := l.held ++ [c] }) s
  | .pin n =>
    match s.pins[n]? with
    | none => s
    | some p =>
      if !pinDrives p then updPin n (fun p => { p with misdirected := p.misdirected + 1 }) s
      else match c.source with
        | .reflex =>
          if p.reflex.length < cueDepth then updPin n (fun p => { p with reflex := enqueue now ready c p.reflex }) s
          else logErr 0x0023 0 n (updPin n (fun p => { p with missedCues := p.missedCues + 1 }) s) { arg0 := c.instant }
        | .host => if cueRefused c s then s else updPin n (fun p => { p with cues := enqueue now ready c p.cues }) s
        | .score => updPin n (fun p =>
            if p.cues.length < cueDepth && p.held.isEmpty then { p with cues := enqueue (c.opIssued.getD now) ready c p.cues }
            else { p with held := p.held ++ [c] }) s

/-- The target of a cue exists (R15). -/
def targetOk : CueTarget → Bool
  | .lane k => decide (k < 56)
  | .pin n => decide (n < 16)
  | .ppsOut => true

/-- CUE_ISSUE (R38, R41). -/
def execCueIssue (c : Cue) (s : State) : Res := inRange (targetOk c.target) s (done (issueCue c s))

/-- The lane-54 op whose cue the distributor held is complete: its cue is armed at its pin, or dropped (R68). -/
def armPinOp (s : State) : State :=
  updLane pinLane (fun l => { l with running := l.running.map fun r => { r with finished := true } }) s

/-- The first cue that a pin holds enters its queue once that has room (R41). -/
def releaseHeld (now : Nat) (ready : Bool) (p : Pin) : Pin :=
  match p.held with
  | c :: rest => if p.cues.length < cueDepth then { p with cues := enqueue now ready c p.cues, held := rest } else p
  | [] => p

/-- A pin's first held cue may enter its queue. -/
def mayRelease (n : Nat) (s : State) : Bool :=
  match s.pins[n]? with
  | some p => !p.held.isEmpty && decide (p.cues.length < cueDepth)
  | none => false

/-- HELD_CUE_RELEASE (R41): the first held cue enters the queue once it has room, and is issued then; a held pin cue's op is complete
with that (R68). -/
def execHeldCueRelease (t : CueTarget) (s : State) : Res :=
  inRange (targetOk t) s <|
    let now := nowNs s
    let ready := targetReady t s
    match t with
    | .ppsOut => done s
    | .lane k => done (updLane k (fun l =>
        match l.held with
        | c :: rest => if l.cues.length < cueDepth then { l with cues := enqueue now ready c l.cues, held := rest } else l
        | [] => l) s)
    | .pin n => doneIf (mayRelease n s) (armPinOp (updPin n (releaseHeld now ready) s)) s

/-- The order of sources at one instant: reflex, score, host (R43). -/
def sourceRank : CueSource → Nat
  | .reflex => 0
  | .score => 1
  | .host => 2

/-- Whether cue `a` is applied before `b`. -/
def cueBefore (a b : QueuedCue) : Bool :=
  decide (a.cue.instant < b.cue.instant)
    || (a.cue.instant == b.cue.instant && decide (sourceRank a.cue.source < sourceRank b.cue.source))

/-- The next cue of a pin: its reflex and cue queues together in the order of R43. -/
def nextPinCue (p : Pin) : Option QueuedCue := (sortBy cueBefore (p.reflex ++ p.cues)).head?

/-- A pin without one cue of its queues. -/
def dropPinCue (c : QueuedCue) (p : Pin) : Pin :=
  if c.cue.source == .reflex then { p with reflex := p.reflex.erase c } else { p with cues := p.cues.erase c }

/-- A cue is late: received while its island was not time-ready, issued less than the lead before its instant, or taking effect more
than 4 ns after it (R36, R38 to R40, R51). A reflex cue's lead always holds (R46), so that only its island can make it late. -/
def cueLate (c : QueuedCue) (now : Nat) : Bool :=
  !c.ready || (c.cue.source != .reflex &&
    (decide (c.cue.instant < c.issued + cueLead) || decide (c.cue.instant + 4 < now)))

/-- The later of two ends of active time (R43). -/
def laterEnd (a : Option Nat) (b : Nat) : Option Nat := some (max (a.getD 0) b)

/-- Start a train on a pin at time `t` with its configured W, P and N (R42); a pin without them starts nothing, and a start while a
train runs takes its place (DESIGN CHOICE, log 162). -/
def startTrain (t : Nat) (p : Pin) : Pin :=
  if p.par.width < 8 || p.par.period < p.par.width + 8 then p
  else
    { p with pulseEnd := laterEnd p.pulseEnd (t + p.par.width),
             train := if p.par.count = 1 then none
                      else some (t + p.par.period, if p.par.count = 0 then none else some (p.par.count - 1)) }

/-- The effect of a cue's action on its pin at time `t` (R43). A start cue at a pin in mode OUTPUT, for which R42 names no W, P and N, runs
a train where the pin's parameters hold valid ones (DESIGN CHOICE, log 224). -/
def applyAction (a : CueAction) (t : Nat) (p : Pin) : Pin :=
  match a with
  | .level on => { p with base := on }
  | .pulse w => { p with pulseEnd := laterEnd p.pulseEnd (t + w) }
  | .strobeStart => startTrain t p
  | .strobeStop => { p with train := none }
  | .slotOp _ _ _ => p

/-- One more late start of a batch's work (R40). -/
def countLate (ctx : Option (Nat × Nat)) (s : State) : State :=
  match ctx with
  | some (b, n) => updBatch b n (fun y => { y with lateStarts := y.lateStarts + 1 }) s
  | none => s

/-- A pin cue takes effect (R40, R43): a late cue beyond its late limit is dropped and counted as missed, another late one counts for
its pin and, once with its op, for the batch whose work it is. -/
def takePinCue (n : Nat) (c : QueuedCue) (s : State) : State :=
  let now := nowNs s
  let late := cueLate c now
  let s := updPin n (dropPinCue c) s
  if late && c.cue.lateLimit != 0 && decide (c.cue.lateLimit < now - c.cue.instant) then
    updPin n (fun p => { p with missedCues := p.missedCues + 1 }) s
  else
    let s := if late then countLate (if c.cue.counted then none else c.cue.ctx) (updPin n (fun p => { p with lateCues := p.lateCues + 1 }) s) else s
    drivePin n (applyAction c.cue.action (if late then now else c.cue.instant)) s

/-- A unit's cue takes effect: its op is due, and late where the cue is (R36, R40, R66). An op that then waits for its gate or its unit
holds none of the 16 places of the cue queue (DESIGN CHOICE, log 223). -/
def takeLaneCue (k : Nat) (c : QueuedCue) (s : State) : State :=
  let late := cueLate c (nowNs s)
  updLane k (fun l => { l with
    cues := l.cues.erase c
    lateCues := if late then l.lateCues + 1 else l.lateCues
    due := match c.cue.action with
      | .slotOp w b ctx =>
        l.due ++ [{ word := w, beat := b, instant := c.cue.instant, since := steadyNs s, ctx := ctx, late := late }]
      | _ => l.due }) s

/-- The first whole second after a time (R50). -/
def secondAfter (t : Nat) : Nat := (t / 1000000000 + 1) * 1000000000

/-- The next edge of PPS_OUT's cue series (R50): a rise at a whole second, then the fall that ends its width, which falls within the
second. An edge more than 4 ns after its instant is late, as after a forward step (R40, R51); the rises that a step has passed over
are one late rise (DESIGN CHOICE, log 163). EXTEST keeps the level from the ball (R517). -/
def takePps (s : State) : State :=
  let b := s.band
  let late := decide (b.ppsNext + 4 < nowNs s)
  let start := if late then nowNs s else b.ppsNext
  let t := updBand (fun b => { b with
    ppsOut := !b.ppsOut, ppsLate := if late then b.ppsLate + 1 else b.ppsLate,
    ppsNext := if b.ppsOut then secondAfter start else start + b.ppsOutWidth }) s
  if pinsTaken s then t else emit (.ppsOut (!b.ppsOut)) t

/-- PULSE_END (R43): the active time of a pin's pulses is over. -/
def execPulseEnd (pin : Nat) (s : State) : Res :=
  inRange (decide (pin < 16)) s <|
    match (s.pins[pin]?).bind fun p => p.pulseEnd with
    | some e => doneIf (decide (e ≤ nowNs s)) (drivePin pin (fun p => { p with pulseEnd := none }) s) s
    | none => done s

/-- The next pulse of a pin's train (R42). -/
def trainPulse (p : Pin) : Pin :=
  match p.train with
  | some (t, left) =>
    let next := t + p.par.period
    { p with pulseEnd := laterEnd p.pulseEnd (t + p.par.width),
             train := match left with
               | none => some (next, none)
               | some k => if k ≤ 1 then none else some (next, some (k - 1)) }
  | none => p

/-- STROBE_PERIOD (R42). -/
def execStrobePeriod (pin : Nat) (s : State) : Res :=
  inRange (decide (pin < 16)) s <|
    match (s.pins[pin]?).bind fun p => p.train with
    | some (t, _) => doneIf (decide (t ≤ nowNs s)) (drivePin pin trainPulse s) s
    | none => done s

/-- Whether an edge setting takes an edge (R42). -/
def edgeMatches (e : EdgeSel) (rising : Bool) : Bool :=
  match e with
  | .rising => rising
  | .falling => !rising
  | .both => true

/-- A rule sees a stamped edge of its source pin: the reflex cue, or one more suppressed edge (R45). -/
def reflexSees (pin : Nat) (rising : Bool) (stamp filter : Nat) (r : Nat) (s : State) : State :=
  match s.reflexes[r]? with
  | none => s
  | some x =>
    if x.par.armed && x.par.source == pin && edgeMatches x.par.edge rising then
      let held := match x.holdUntil with | some h => decide (stamp < h) | none => false
      if held then updReflex r (fun x => { x with suppressed := x.suppressed + 1 }) s
      else
        issueCue { target := .pin x.par.target, source := .reflex, instant := stamp + 192 + filter + x.par.delay,
                   action := x.par.action, lateLimit := 0 }
          (updReflex r (fun x => { x with holdUntil := some (stamp + x.par.holdOff) }) s)
    else s

/-- An edge's stamp enters the pin's queue, or is counted when the queue is full (R44). -/
def stampEdge (rising : Bool) (stamp : Nat) (p : Pin) : Pin :=
  if p.stamps.length < stampDepth then
    { p with stamps := p.stamps ++ [(rising, stamp)], lastEdge := some stamp, firstHeld := p.firstHeld.or (some stamp) }
  else { p with overflow := p.overflow + 1, lastEdge := some stamp }

/-- The stamp of an edge is its time to ±4 ns, and the edge is seen once it has persisted for the filter time, at most 24 ns after that
(R44, R46). -/
def stampHolds (stamp filter now : Nat) : Bool := decide (stamp + filter ≤ now + 4 ∧ now ≤ stamp + filter + 28)

/-- PIN_EDGE (R44, R45): an edge that has persisted for the pin's filter time. An edge whose stamp finds the timestamp queue full is
stamped and counted all the same, and reflex rules see it (DESIGN CHOICE, log 164). -/
def execPinEdge (pin : Nat) (rising : Bool) (stamp : Nat) (s : State) : Res :=
  match s.pins[pin]? with
  | none => done s
  | some p =>
    let resolved := match p.lastEdge with | some e => decide (e + 8 ≤ stamp) | none => true
    doneIf (s.power.running && !pinsTaken s && p.mode == .input && edgeMatches p.par.edge rising && resolved
        && stampHolds stamp p.par.filter (nowNs s))
      ((List.range 16).foldl (fun s r => reflexSees pin rising stamp p.par.filter r s) (updPin pin (stampEdge rising stamp) s))
      s

/-- REFLEX_HOLDOFF_END (R45). -/
def execReflexHoldoffEnd (rule : Nat) (s : State) : Res :=
  match s.reflexes[rule]? with
  | none => done s
  | some x => match x.holdUntil with
    | some h => doneIf (decide (h ≤ nowNs s)) (updReflex rule (fun x => { x with holdUntil := none }) s) s
    | none => done s

/-- Every cue queued for a pin is dropped and counted as misdirected (R43). -/
def dropCues (p : Pin) : Pin :=
  { p with cues := [], held := [], reflex := [],
           misdirected := p.misdirected + p.cues.length + p.held.length + p.reflex.length }

/-- A pin's mode changes, and cues that the distributor holds for it are dropped. -/
def dropsHeld (n : Nat) (m : PinMode) (s : State) : Bool :=
  match s.pins[n]? with
  | some p => p.mode != m && !p.held.isEmpty
  | none => false

/-- A pin's mode is set (R42, R43): a change ends pulses and trains. -/
def setPinMode (n : Nat) (m : PinMode) (par : PinParams) (s : State) : State :=
  let t := drivePin n (fun p =>
    let p := if p.mode = m then p else { dropCues p with pulseEnd := none, train := none }
    { p with mode := m, par := par, base := par.base }) s
  if dropsHeld n m s then armPinOp t else t

end Sys2Proof.Machine
end

