-- ==== Sys2Proof/Machine/Cache.lean ====
section
/-! DEFINITION. The stores behind the device address map: its ranges and DRAM channels (R302, R317), the system cache and what its
slices present to the controllers (R307 to R310, R324), ECC words and poison marks (R305, R325), reads and writes of physical
addresses, the Gatehouse's reads of host memory (R392) and the translated windows (R311 to R313). -/

namespace Sys2Proof.Machine

/-- The ranges of R302. -/
inductive Region where
  | terrace
  | orangery
  | pergola
  | hot
  | dramGeneral
  | dramRealTime
  | host
  | general
  | sequence
  | nowhere
  deriving DecidableEq, Repr

/-- The range of an address (R302). -/
def regionOf (a : Nat) : Region :=
  if a < 0x4000000 then .terrace
  else if a < 0x6000000 then .orangery
  else if a < 0x6400000 then .pergola
  else if 0x8000000 ≤ a ∧ a < 0x9000000 then .hot
  else if 0x1000000000 ≤ a ∧ a < 0x1C00000000 then .dramGeneral
  else if 0x1C00000000 ≤ a ∧ a < 0x2000000000 then .dramRealTime
  else if 0x400000000000 ≤ a ∧ a < 0x500000000000 then .host
  else if 0x800000000000 ≤ a ∧ a < 0x804000000000 then .general
  else if 0x804000000000 ≤ a ∧ a < 0x808000000000 then .sequence
  else .nowhere

/-- An on-chip SRAM of the map (R302, R305). -/
def isSram (a : Nat) : Bool :=
  match regionOf a with
  | .terrace => true
  | .orangery => true
  | .pergola => true
  | .hot => true
  | _ => false

/-- The unfenced channels of a region, ascending (R317). -/
def liveChans (s : State) (realTime : Bool) : List Nat :=
  ((List.range 16).filter fun k => (if realTime then decide (12 ≤ k) else decide (k < 12)) &&
    (match s.mem.chans[k]? with | some c => !c.fenced | none => false))

/-- The channel and channel offset of a DRAM address (R317); none beyond the region's size or in the poison maps. -/
def dramMap (s : State) (a : Nat) : Option (Nat × Nat) :=
  let rt := regionOf a == .dramRealTime
  let base := if rt then 0x1C00000000 else 0x1000000000
  if regionOf a == .dramGeneral || rt then
    let c := liveChans s rt
    let n := c.length
    let g := (a - base) / 256
    if n = 0 || 0x100000000 * n - 0x800000 * n ≤ a - base then none
    else some (c.getD (g % n) 0, g / n * 256 + a % 256)
  else none

/-- Whether a physical address is backed: SRAM, or DRAM within its region's size (R302, R317). -/
def backed (s : State) (a : Nat) : Bool := isSram a || (dramMap s a).isSome

/-- The island and sub-unit that report an SRAM or DRAM address (R16, R364). -/
def addrSource (s : State) (a : Nat) : Nat × Nat :=
  match regionOf a with
  | .terrace => (39, a / 0x200000)
  | .orangery => (14 + (a - 0x4000000) / 0x200000, 0)
  | .pergola => (30 + (a - 0x6000000) / 0x80000, 0)
  | .hot => (38, 0)
  | _ => match dramMap s a with
    | some (k, _) => (40 + k, 0)
    | none => (39, 0)

/-- An SRAM word outside the map (R302, R305): the Lodge memories, the codec caches, the ingest and packet buffers. It is named by
2^48 × (island + 1) plus its place (DESIGN CHOICE, log 193). -/
def outsideSram (a : Nat) : Bool := decide (0x2000000000000 ≤ a ∧ a < 0xF000000000000)

/-- The key of the system-cache set of a line: its slice is its channel, its set bits [14:6] of the channel offset (R307). -/
def setKey (chan line : Nat) : Nat := chan * 512 + line % 512

/-- The cached way that holds a line (R307). -/
def cachedWay (s : State) (chan line : Nat) : Option CacheWay :=
  (tabGet (setKey chan line) s.mem.cache).bind fun x => x.ways.find? fun w => w.valid && w.line == line

/-- A word that stands in an SRAM with ECC: of the map, outside it, or in a cached line (R305). -/
def eccWord (s : State) (a : Nat) : Bool :=
  isSram a || outsideSram a || (match dramMap s a with | some (k, off) => (cachedWay s k (off / 64)).isSome | none => false)

/-- The island and sub-unit that report an SRAM word: a cached line's is the system cache of island 39 (R16, R305). -/
def wordSource (s : State) (a : Nat) : Nat × Nat :=
  if outsideSram a then (a / 2 ^ 48 - 1, 0) else if isSram a then addrSource s a else (39, 0)

/-- Every byte of a line. -/
def allBytes : BitVec 64 := BitVec.allOnes 64

/-- The mark of a line after a queued write of it (R324, R325). -/
def queuedMark (line : Nat) (mark : Bool) (r : DramReq) : Bool :=
  if r.write && r.line == line then (if r.poisoned then true else if r.enables = allBytes then false else mark) else mark

/-- Whether a line carries a poison mark (R309, R324, R325): in the cache, else as the youngest queued write leaves the poison
map. -/
def lineMark (s : State) (chan line : Nat) : Bool :=
  match cachedWay s chan line with
  | some w => w.poison
  | none => match s.mem.chans[chan]? with
    | some c => c.queue.foldl (queuedMark line) (c.poisonMap.contains line)
    | none => false

/-- Whether a physical byte carries a poison mark: the SRAM word's (R305), or the DRAM line's (R325). -/
def poisonAt (s : State) (a : Nat) : Bool :=
  if isSram a then s.mem.sramPoison.contains (a / 8)
  else match dramMap s a with
    | some (k, off) => lineMark s k (off / 64)
    | none => false

/-- The status of the first source of the mark at an address (R359, R361): as it was written there, else that of the error which the
memory itself finds. -/
def causeAt (s : State) (a : Nat) : Nat :=
  if s.mem.ue.contains (a / 8) then 0x0611 else tabGetD (a / 64) (if isSram a then 0x0611 else 0x0614) s.mem.causes

/-- A mark with this status has been read: what is made of the bytes carries it on (R361). -/
def setCause (st : Nat) (s : State) : State := updMem (fun m => { m with cause := st }) s

/-- The mark that cells carry has the status of the source read last (R361). -/
def noteCause (as : List Nat) (s : State) : State :=
  if as.isEmpty then s
  else
    let st := if s.mem.cause = 0 then 0x0611 else s.mem.cause
    updMem (fun m => { m with causes := ((as.map fun a => a / 64).eraseDups).foldl (fun t l => tabPut l st t) m.causes }) s

/-- A set that holds nothing (R307). -/
def emptySet : CacheSet :=
  { ways := List.replicate 16 { valid := false, line := 0, dirty := false, poison := false }, tree := List.replicate 15 false }

/-- The ways that a class allocates in (R297, R309); a real-time port allocates in none. -/
def classWays (s : State) (cls : ReqClass) : Nat :=
  match cls with
  | .lc => s.mem.wayMasks.getD 0 0
  | .be => s.mem.wayMasks.getD 1 0
  | .control => s.mem.wayMasks.getD 2 0
  | .realTime _ => 0

/-- Whether `mask` allows one of `n` ways from `lo` on. -/
def anyWay (mask lo n : Nat) : Bool := (List.range n).any fun i => bitAt mask (lo + i)

/-- The way that the tree points to among the allowed ones (R309): a set bit points to the upper half. -/
def treeVictim (tree : List Bool) (mask : Nat) : (depth node lo : Nat) → Nat
  | 0, _, lo => lo
  | d + 1, node, lo =>
    let half := 2 ^ d
    let up := if !anyWay mask lo half then true else if !anyWay mask (lo + half) half then false else tree.getD node false
    if up then treeVictim tree mask d (2 * node + 2) (lo + half) else treeVictim tree mask d (2 * node + 1) lo

/-- The tree after an access to way `w`: every node on its path points to the other half (R309). -/
def treeTouch (w : Nat) : (depth node lo : Nat) → List Bool → List Bool
  | 0, _, _, tree => tree
  | d + 1, node, lo, tree =>
    let half := 2 ^ d
    let upper := decide (lo + half ≤ w)
    let tree := tree.set node (!upper)
    if upper then treeTouch w d (2 * node + 2) (lo + half) tree else treeTouch w d (2 * node + 1) lo tree

/-- The way that a miss replaces: the lowest invalid allowed one, else by the tree (R309). -/
def victimWay (x : CacheSet) (mask : Nat) : Nat :=
  match (List.range 16).find? fun i => bitAt mask i && (match x.ways[i]? with | some w => !w.valid | none => false) with
  | some i => i
  | none => treeVictim x.tree mask 4 0 0

/-- The entries of a controller's write queue (R320, R324): 64, eight of them held for ports in panic. -/
def writeQueue (s : State) (q : List DramReq) : List DramReq :=
  let urgent (r : DramReq) : Bool := match r.cls with | .realTime p => s.mem.panic.getD p false | _ => false
  let w := q.filter (·.write)
  ((w.filter fun r => !urgent r).take 56 ++ w.filter urgent).take 64

/-- The youngest queued write of a line takes a later write of it (R324). -/
def mergeYoungest (r : DramReq) (q : List DramReq) : List DramReq :=
  match posOf (fun x : DramReq => x.write && x.line == r.line) q.reverse with
  | some i => upd q (q.length - 1 - i) fun x =>
      { x with enables := x.enables ||| r.enables, poisoned := r.poisoned || (x.poisoned && r.enables != allBytes) }
  | none => q

/-- The bytes of a line that queued writes hold (R324). -/
def queuedBytes (line : Nat) (q : List DramReq) : BitVec 64 :=
  q.foldl (fun m r => if r.write && r.line == line then m ||| r.enables else m) 0

/-- A write is presented to its controller (R308): it merges into an entry that is not yet issued (R324). -/
def presentWrite (chan : Nat) (r : DramReq) (s : State) : State :=
  match s.mem.chans[chan]? with
  | none => s
  | some c =>
    if (writeQueue s c.queue).any fun x => x.line == r.line then
      updChan chan (fun c => { c with queue := mergeYoungest r c.queue }) s
    else updChan chan (fun c => { c with queue := c.queue ++ [r] }) s

/-- The summary bit of a line's 64 KiB (R325). -/
def summaryBit (c : Channel) (line : Nat) : Bool := c.poisonMap.any fun l => l / 1024 == line / 1024

/-- A read consults the poison map only where its summary bit is set (R325). -/
def mapBit (c : Channel) (line : Nat) : Bool := summaryBit c line && c.poisonMap.contains line

/-- A read is presented to its controller (R308, R324): a read that queued writes cover needs no DRAM access; of another, the queued
bytes and the map's bit hold as they are now, whatever is presented after it. -/
def presentRead (chan : Nat) (r : DramReq) (s : State) : State :=
  match s.mem.chans[chan]? with
  | none => s
  | some c =>
    let o := queuedBytes r.line c.queue &&& r.enables
    if o = r.enables then s
    else updChan chan (fun c => { c with queue := c.queue ++ [{ r with overlay := o, poisoned := mapBit c r.line }] }) s

/-- The device address of a channel's line (R317). -/
def lineAddr (s : State) (k line : Nat) : Nat :=
  let rt := decide (12 ≤ k)
  let live := liveChans s rt
  let pos := (posOf (fun c => c == k) live).getD 0
  let off := 64 * line
  (if rt then 0x1C00000000 else 0x1000000000) + (off / 256 * live.length + pos) * 256 + off % 256

/-- The 64-bit words of a channel's line, by their device addresses. -/
def lineWords (s : State) (k line : Nat) : List Nat := (List.range 8).map fun i => lineAddr s k line / 8 + i

/-- A line's way after an access that hits it (R307, R309). -/
def hitWay (write : Bool) (enables : BitVec 64) (poisoned : Bool) (w : CacheWay) : CacheWay :=
  if write then { w with dirty := true, poison := poisoned || (w.poison && enables != allBytes) } else w

/-- The set after an access to way `i`. -/
def touchSet (i : Nat) (f : CacheWay → CacheWay) (x : CacheSet) : CacheSet :=
  { ways := upd x.ways i f, tree := treeTouch i 4 0 0 x.tree }

/-- One access of a line by a unit (R308). -/
structure LineAccess where
  chan : Nat
  line : Nat
  write : Bool
  enables : BitVec 64
  poisoned : Bool
  cls : ReqClass
  lane : Option Nat
  deriving DecidableEq, Repr

/-- The request that an access presents. -/
def reqOf (a : LineAccess) (s : State) : DramReq :=
  { line := a.line, write := a.write, enables := a.enables, overlay := 0, poisoned := a.poisoned, cls := a.cls, lane := a.lane,
    since := steadyNs s, promoted := false, reader := if a.write || a.lane.isSome then .none else s.mem.reader }

/-- Corrections of a Terrace bank are counted; beyond 1,000,000 in 60 s, 0x0015 is logged and the ledger keeps the count, which
fences the bank at the next package load (R367; the window is DESIGN CHOICE, log 40). -/
def countCorrection (a : Nat) (s : State) : State :=
  if regionOf a != .terrace then s
  else
    let b := a / 0x200000
    let (n, t) := s.mem.corrections.getD b (0, 0)
    let fresh := n == 0 || decide (t + 60000000000 ≤ steadyNs s)
    let k := if fresh then 1 else n + 1
    let s := updMem (fun m => { m with corrections := m.corrections.set b (k, if fresh then steadyNs s else t) }) s
    if k = 1000001 then
      logErr 0x0015 39 b (saveLedger (updPower (fun p => { p with
        ledger := { p.ledger with bankCounts := p.ledger.bankCounts.set b k } }) s)) { arg0 := k }
    else s

/-- A single-bit error of an SRAM word is corrected, written back and logged (R305). -/
def correctWord (w : Nat) (s : State) : State :=
  let (i, u) := wordSource s (8 * w)
  countCorrection (8 * w) (logErr 0x0610 i u (updMem (fun m => { m with sbe := setDel w m.sbe }) s) { arg0 := 8 * w })

/-- A unit other than a score lane reads a word with an uncorrectable error: 0x0611 is logged, and the data carries a mark (R305). -/
def noteWord (w : Nat) (s : State) : State :=
  if s.mem.ue.contains w then
    let (i, u) := wordSource s (8 * w)
    logErr 0x0611 i u s { arg0 := 8 * w, poison := true }
  else if s.mem.sbe.contains w then correctWord w s
  else s

/-- The words with an error in an island's memories outside the map (R302, R305). -/
def outsideWords (island : Nat) (l : List Nat) : List Nat := l.filter fun w => outsideSram (8 * w) && (8 * w) / 2 ^ 48 == island + 1

/-- An uncorrectable error stands in such a memory of an island. -/
def outsideBad (island : Nat) (s : State) : Bool := !(outsideWords island s.mem.ue).isEmpty

/-- The unit of an island reads its memories outside the map, and its work meets every error in them (R305): one of a single bit is
corrected, another is logged and its word's data carries a mark; what the unit stores there next has fresh ECC (DESIGN CHOICE, log 193). -/
def meetOutside (island : Nat) (s : State) : State :=
  let bad := outsideWords island s.mem.ue
  let t := (bad ++ outsideWords island s.mem.sbe).foldl (fun s w => noteWord w s) s
  updMem (fun m => { m with ue := m.ue.filter fun w => !bad.contains w, cause := if bad.isEmpty then m.cause else 0x0611 }) t

/-- A line leaves the cache: written back when it is dirty, and read out for that, so that its errors are corrected or logged, and marked
when one of its words holds an uncorrectable error (R305, R309). -/
def evictLine (chan : Nat) (cls : ReqClass) (w : CacheWay) (s : State) : State :=
  if !w.valid then s
  else
    let ws := lineWords s chan w.line
    let bad := ws.any fun x => s.mem.ue.contains x
    let met := if w.dirty then (ws.filter fun x => s.mem.ue.contains x || s.mem.sbe.contains x).foldl (fun s x => noteWord x s) s else s
    let t := updMem (fun m => { m with ue := m.ue.filter fun x => !ws.contains x, sbe := m.sbe.filter fun x => !ws.contains x }) met
    if w.dirty then
      presentWrite chan (reqOf { chan := chan, line := w.line, write := true, enables := allBytes, poisoned := w.poison || bad, cls := cls, lane := none } s) t
    else t

/-- A miss that allocates (R309): the victim leaves, a full-line write reads nothing, and any other access reads the line first. -/
def allocateLine (a : LineAccess) (s : State) : State :=
  let x := (tabGet (setKey a.chan a.line) s.mem.cache).getD emptySet
  let i := victimWay x (classWays s a.cls)
  let full := a.write && a.enables == allBytes
  let mark := if full then a.poisoned else (a.write && a.poisoned) || lineMark s a.chan a.line
  let s := match x.ways[i]? with
    | some w => evictLine a.chan a.cls w s
    | none => s
  let s := if full then s else presentRead a.chan (reqOf { a with write := false, enables := allBytes, poisoned := false } s) s
  let x := touchSet i (fun _ => { valid := true, line := a.line, dirty := a.write, poison := mark }) x
  updMem (fun m => { m with cache := tabPut (setKey a.chan a.line) x m.cache }) s

/-- The access of one line in its slice (R308, R309); a real-time port's miss goes to the controller. -/
def accessLine (a : LineAccess) (s : State) : State :=
  let x := (tabGet (setKey a.chan a.line) s.mem.cache).getD emptySet
  match posOf (fun w : CacheWay => w.valid && w.line == a.line) x.ways with
  | some i => updMem (fun m => { m with
      cache := tabPut (setKey a.chan a.line) (touchSet i (hitWay a.write a.enables a.poisoned) x) m.cache }) s
  | none =>
    if classWays s a.cls = 0 then if a.write then presentWrite a.chan (reqOf a s) s else presentRead a.chan (reqOf a s) s
    else allocateLine a s

/-- Quinbuar cleans and invalidates a physical range, the `n` lines of a channel from line `lo` on (R310): dirty ones are written back, and none is cached any more. -/
def cleanLines (chan lo n : Nat) (s : State) : State :=
  let inside (w : CacheWay) : Bool := w.valid && decide (lo ≤ w.line ∧ w.line < lo + n)
  let sets := s.mem.cache.filter fun x => x.1 / 512 == chan
  let s := sets.foldl (fun s x => x.2.ways.foldl (fun s w => if inside w then evictLine chan .control w s else s) s) s
  let clean (x : CacheSet) : CacheSet :=
    { x with ways := x.ways.map fun w => if inside w then { w with valid := false, dirty := false, poison := false } else w }
  updMem (fun m => { m with cache :=
    (m.cache.map fun x => if x.1 / 512 = chan then (x.1, clean x.2) else x).filter fun x => x.2.ways.any (·.valid) }) s

/-- The lines of a channel, 4 GiB (R317). -/
def channelLines : Nat := 0x4000000

/-- Clean and invalidate the lines of a channel (R310). -/
def cleanChannel (chan : Nat) (s : State) : State := cleanLines chan 0 channelLines s

/-- Buffer of a real-time port in bytes (R321); 0 for the reserved ports. -/
def portBuffer (p : Nat) : Nat :=
  if p = 0 then 16384 else if p ≤ 3 then 262144 else if p = 4 then 65536 else if p ≤ 12 then 32768 else 0

/-- Bytes of a port's requests that wait, reads or writes. -/
def portWaiting (s : State) (p : Nat) (write : Bool) : Nat :=
  64 * ((s.mem.chans.map fun c => (c.queue.filter fun r => r.cls == .realTime p && r.write == write).length).sum)

/-- A port's buffer level is past its threshold by `slack` or more (R321). A port that writes holds the bytes that wait to be
written, one that reads lacks the bytes that wait to be read (DESIGN CHOICE, log 41); the read side of RT5 to RT8 has the
mirror of its write threshold. -/
def portPast (s : State) (p slack : Nat) : Bool :=
  let b := portBuffer p
  let t := s.mem.thresholds.getD p 0
  let held := portWaiting s p true
  let left := b - portWaiting s p false
  let writeSide := decide (t < held + slack)
  let readSide (t : Nat) : Bool := decide (left < t + slack)
  if p = 0 ∨ (9 ≤ p ∧ p ≤ 12) then readSide t
  else if p ≤ 4 then writeSide
  else if p ≤ 8 then writeSide || readSide (b - t)
  else false

/-- Panic enters past the threshold and leaves once the level has recovered by an eighth of the buffer beyond it (R321). -/
def updatePanic (s : State) : State :=
  updMem (fun m => { m with
    panic := m.panic.zipIdx.map fun x => portPast s x.2 (if x.1 then portBuffer x.2 / 8 else 0) }) s

/-- A requester may make the access: a real-time port reaches only the real-time region, in its direction (R296, R321). -/
def portMay (a : Nat) (write : Bool) (cls : ReqClass) : Bool :=
  match cls with
  | .realTime p => regionOf a == .dramRealTime &&
      (if p = 0 ∨ (9 ≤ p ∧ p ≤ 12) then !write else if p ≤ 4 then write else decide (p ≤ 8))
  | _ => true

/-- A unit accesses a DRAM line (R308); a port's buffer level follows (R321). -/
def unitLine (a : LineAccess) (s : State) : State :=
  match a.cls with
  | .realTime _ => updatePanic (accessLine a s)
  | _ => accessLine a s

/-- The 64 bytes of a sequence-table entry (R153); a GALLERY holds as many tokens as its ring has entries. -/
def seqEntry (s : State) (x : Seq) : List Byte :=
  let kind := match x.kind with | .track => 1 | .context => 2 | .prompt => 3 | .gallery => 4
  let ntok := if x.kind = .gallery then (match s.streams.getD x.stream none with | some y => y.gallery.length | none => 0) else x.ntok
  leBytes 1 kind ++ leBytes 1 x.stream ++ leBytes 2 (x.parent.getD 0xFFFF) ++ leBytes 4 x.trackId ++ leBytes 2 ntok
    ++ leBytes 1 x.ppages ++ leBytes 1 x.head ++ leBytes 2 x.hits ++ leBytes 1 x.misses ++ [0] ++ leBytes 4 x.first
    ++ leBytes 4 x.last ++ leBytes 8 x.gid ++ leBytes 4 x.dropped ++ List.replicate 28 0

/-- A token record's 32 bytes (R157). -/
def tokenBytes (t : Token) : List Byte :=
  leBytes 4 t.frame ++ leBytes 8 t.stamp ++ ((t.box.map (leBytes 2)).flatten) ++ leBytes 2 t.score ++ leBytes 2 t.cls
    ++ leBytes 2 t.det ++ leBytes 2 t.flags ++ leBytes 4 0

/-- A byte of a sequence's tag blocks and token records (R156, R157). -/
def tokenByte (s : State) (q off : Nat) : Byte :=
  match tabGet q s.aviary.seqs with
  | none => 0
  | some x =>
    if off < 0xF80000 then
      let n := (off - 0xF00000) / 128
      let slot := 16 * (n % 256) + (off - 0xF00000) % 128 / 8
      match x.tokens.find? fun t => t.slot == slot with
      | some t =>
        let tags := (t.tags.find? fun y => y.1 == n / 256).getD (0, 0, 0)
        let w := if (off - 0xF00000) % 8 < 4 then tags.2.1 else tags.2.2
        BitVec.ofNat 8 (w / 256 ^ (off % 4))
      | none => 0
    else
      match x.tokens.find? fun t => t.slot == (off - 0xF80000) / 32 with
      | some t => (tokenBytes t).getD (off % 32) 0
      | none => 0

/-- A sequence's level-2 tables: eight of 4 KiB, one for each of its level-1 entries (R311); their place in DRAM is DESIGN CHOICE
(log 8). -/
def seqTables : Nat := 0x001080000000

/-- The place of the tag blocks and token records: 160 pages of each sequence (R156; DESIGN CHOICE, log 8). -/
def tagBlocks : Nat := 0x001800000000

/-- Page slot of a sequence's granule number (R156): layer, slot and granule, where it names a page. -/
def granuleOf (g n : Nat) : Option (Nat × Nat × Nat) :=
  if g = 0 then none else some (n / g / 256, n / g % 256, n % g)

/-- NL, d_kv and g of the resident package (R155). -/
def kvLayers (s : State) : Nat := match s.pkg with | some p => p.kvLayers | none => 0
def kvWidth (s : State) : Nat := match s.pkg with | some p => p.kvWidth | none => 0
def kvGran (s : State) : Nat := ceilDiv (kvWidth s) 256

/-- The key of a sequence's page slot (R156). -/
def mapKey (seq layer slot : Nat) : Nat := (seq * 16 + layer) * 256 + slot

/-- The level-1 entry of the sequence window's 2 MiB number `n` (R311, R312): a pointer to its level-2 table while the sequence lives. -/
def seqL1 (s : State) (n : Nat) : Nat :=
  if (tabGet (n / 8) s.aviary.seqs).isSome then seqTables + 4096 * n + 1 else 0

/-- The level-2 entry of 4 KiB page `n` of sequence `q` (R156, R312): a page reference to the descriptor and granule that the Aviary
has mapped there, writable. The tag blocks and token records are leaves (R156). -/
def seqL2 (s : State) (q n : Nat) : Nat :=
  if n < 3840 then
    match granuleOf (kvGran s) n with
    | some (l, p, j) =>
      if kvLayers s ≤ l then 0
      else match tabGet (mapKey q l p) s.aviary.maps with
        | some d => 3 + 4 + (d % 2 ^ 24 + j * 2 ^ 24) * 4096
        | none => 0
    | none => 0
  else if n < 4000 then 2 + 4 + (tagBlocks + (q * 160 + (n - 3840)) * 4096)
  else 0

/-- A byte of a pool's free ring (R339): an entry that has not been written since boot names the cell behind the one before it. -/
def ringByte (s : State) (p : Nat) : Byte :=
  match s.pools.find? fun q => decide (q.ringBase ≤ p ∧ p < q.ringBase + 4 * (q.size - 1)) with
  | some q =>
    let n := (p - q.ringBase) / 4
    if memNat s.mem.bytes (q.ringBase + 4 * n) 4 = 0 then BitVec.ofNat 8 ((n + 1) / 256 ^ ((p - q.ringBase) % 4)) else memGet s.mem.bytes p
  | none => memGet s.mem.bytes p

/-- A byte of device memory: the sequence table (R153), the sequence window's translation entries (R311), the tag blocks and the token
records (R156) lie in DRAM, and every unit reads there what the Aviary holds (log 175). -/
def deviceByte (s : State) (p : Nat) : Byte :=
  let t := s.aviary.seqTable
  let l1 := s.mem.l1Base + 8 * 131072
  if t ≠ 0 ∧ t ≤ p ∧ p < t + 0x100000 then
    match tabGet ((p - t) / 64) s.aviary.seqs with
    | some x => (seqEntry s x).getD ((p - t) % 64) 0
    | none => 0
  else if s.mem.l1Base ≠ 0 ∧ l1 ≤ p ∧ p < l1 + 8 * 131072 then
    BitVec.ofNat 8 (seqL1 s ((p - l1) / 8) / 256 ^ ((p - l1) % 8))
  else if s.mem.l1Base ≠ 0 ∧ seqTables ≤ p ∧ p < seqTables + 0x20000000 then
    let n := (p - seqTables) / 4096
    let w := if (tabGet (n / 8) s.aviary.seqs).isSome then seqL2 s (n / 8) (n % 8 * 512 + (p - seqTables) % 4096 / 8) else 0
    BitVec.ofNat 8 (w / 256 ^ ((p - seqTables) % 8))
  else if s.mem.l1Base ≠ 0 ∧ tagBlocks ≤ p ∧ p < tagBlocks + 0x280000000 then
    tokenByte s ((p - tagBlocks) / 0xA0000) (0xF00000 + (p - tagBlocks) % 0xA0000)
  else if 0x1000000000 ≤ p ∧ p < 0x2000000000 then ringByte s p
  else memGet s.mem.bytes p

/-- The little-endian number of `n` bytes of device memory. -/
def deviceNat (s : State) (a n : Nat) : Nat := leNat ((List.range n).map fun i => deviceByte s (a + i))

/-- One byte to write: address, value, mark. -/
structure Cell where
  addr : Nat
  val : Byte
  mark : Bool
  deriving DecidableEq, Repr

/-- A write of a byte clears its deferred mark; a fault whose last mark goes unused is counted for its mover (R85). -/
def clearDeferred (a : Nat) (s : State) : State :=
  match tabGet a s.mem.deferred with
  | none => s
  | some id =>
    let d := tabDel a s.mem.deferred
    if d.any fun x => x.2 == id then updMem (fun m => { m with deferred := d }) s
    else
      let f := s.mem.faults.find? fun f => f.id == id
      updMem (fun m => { m with
        deferred := d, faults := m.faults.filter fun f => f.id != id,
        discarded := match f with
          | some f => if f.used then m.discarded else upd m.discarded f.mover (· + 1)
          | none => m.discarded }) s

/-- The words of SRAMs with the ECC of new data (R305): a full-word write with a mark or without. -/
def freshWords (ws : List Nat) (marked : Nat → Bool) (s : State) : State :=
  updMem (fun m => { m with
    sramPoison := ws.foldl (fun l w => if marked w then setAdd w l else setDel w l) m.sramPoison
    ue := m.ue.filter fun w => !ws.contains w, sbe := m.sbe.filter fun w => !ws.contains w }) s

/-- The mark of one 64-bit SRAM word after cells were written into it (R305). -/
def settleWord (cs : List Cell) (w : Nat) (s : State) : State :=
  let here := cs.filter fun c => c.addr / 8 == w
  let full := (List.range 8).all fun i => here.any fun c => c.addr == 8 * w + i
  let marked := here.any (·.mark)
  let (i, u) := wordSource s (8 * w)
  if full then freshWords [w] (fun _ => marked) s
  else if s.mem.ue.contains w then
    logErr 0x0611 i u (updMem (fun m => { m with
        sramPoison := setAdd w m.sramPoison, ue := setDel w m.ue, causes := tabPut (w / 8) 0x0611 m.causes }) s)
      { arg0 := 8 * w, poison := true }
  else
    let s := if marked then updMem (fun m => { m with sramPoison := setAdd w m.sramPoison }) s else s
    if s.mem.sbe.contains w then correctWord w s else s

/-- The bytes of line `l` that cells write (R324). -/
def lineEnables (cs : List Cell) (l : Nat) : BitVec 64 :=
  cs.foldl (fun m c => if c.addr / 64 = l then m ||| (1#64 <<< (c.addr % 64)) else m) 0

/-- A unit of a class writes cells of one DRAM line: through its slice, with the mark that they carry (R308, R325); the line's words
get fresh ECC where they are cached (R305). -/
def settleLine (cls : ReqClass) (cs : List Cell) (l : Nat) (s : State) : State :=
  match dramMap s (64 * l) with
  | none => s
  | some (k, off) =>
    let here := cs.filter fun c => c.addr / 64 == l
    let full (w : Nat) : Bool := (List.range 8).all fun i => here.any fun c => c.addr == 8 * w + i
    let ws := (here.map fun c => c.addr / 8).eraseDups.filter fun w => s.mem.ue.contains w || s.mem.sbe.contains w
    let bad := ws.filter fun w => !full w
    let mark := here.any (·.mark) || bad.any fun w => s.mem.ue.contains w
    unitLine { chan := k, line := off / 64, write := true, enables := lineEnables cs l, poisoned := mark, cls := cls, lane := none }
      (let t := bad.foldl (fun s w => noteWord w s) s
       updMem (fun m => { m with ue := m.ue.filter fun w => !ws.contains w, sbe := m.sbe.filter fun w => !ws.contains w }) t)

/-- What a write leaves of the bytes that not every unit sees (R18): one that is written again is what it is now, and a unit's own write is
noted for its lane. -/
def noteWritten (as : List Nat) (m : Mem) : Mem :=
  { m with unsettled := m.unsettled.filter fun x => !as.contains x.1, noting := m.noting.map (· ++ as) }

/-- A unit of a class writes cells at physical addresses: bytes, deferred marks, ECC and poison marks. -/
def writePhys (cls : ReqClass) (cs : List Cell) (s : State) : State :=
  let s := updMem (fun m => noteWritten ((cs.map (·.addr)).filter isSram)
    { m with bytes := cs.foldl (fun b c => memPut c.addr c.val b) m.bytes }) s
  let s := noteCause ((cs.filter (·.mark)).map (·.addr)) (cs.foldl (fun s c => clearDeferred c.addr s) s)
  let words := ((cs.filter fun c => isSram c.addr).map fun c => c.addr / 8).eraseDups
  let lines := ((cs.filter fun c => !isSram c.addr).map fun c => c.addr / 64).eraseDups
  lines.foldl (fun s l => settleLine cls cs l s) (words.foldl (fun s w => settleWord cs w s) s)

/-- What a unit of a class finds in `n` bytes from a physical address: each byte with its mark (R305, R314, R325). -/
def unitBytes (s : State) (a n : Nat) : List (Byte × Bool) :=
  (List.range n).map fun i => (deviceByte s (a + i), poisonAt s (a + i) || s.mem.ue.contains ((a + i) / 8))

/-- What such a read leaves behind: its lines pass their slices (R308), errors of words are corrected or logged (R305). -/
def unitRead (cls : ReqClass) (a n : Nat) (s : State) : State :=
  if n = 0 then s
  else
    let words := (List.range ((a + n + 7) / 8 - a / 8)).map fun i => a / 8 + i
    let lines := (List.range ((a + n + 63) / 64 - a / 64)).map fun i => a / 64 + i
    let s := lines.foldl (fun s l => match dramMap s (64 * l) with
      | some (k, off) => unitLine { chan := k, line := off / 64, write := false, enables := allBytes, poisoned := false, cls := cls, lane := none } s
      | none => s) s
    let s := match (words.map (8 * ·)).find? fun w => poisonAt s w || s.mem.ue.contains (w / 8) with
      | some w => setCause (causeAt s w) s
      | none => s
    (words.filter fun w => s.mem.ue.contains w || s.mem.sbe.contains w).foldl (fun s w => noteWord w s) s

/-- Work that reads DRAM lines for a frame or a page (R326). -/
def readingFor (r : Reader) (work : State → State) (s : State) : State :=
  let t := work (updMem (fun m => { m with reader := r }) s)
  updMem (fun m => { m with reader := s.mem.reader }) t

/-- Bytes as cells from an address, all with one mark. -/
def cellsAt (a : Nat) (bs : List Byte) (mark : Bool) : List Cell :=
  bs.zipIdx.map fun x => { addr := a + x.2, val := x.1, mark := mark }

/-! ### Translation (R311 to R316) -/

/-- A translation entry's fields (R312). -/
def tteType (e : Nat) : Nat := bits e 0 2
def tteW (e : Nat) : Bool := bitAt e 2
def tteTarget (e : Nat) : Nat := bits e 12 36 * 4096
def tteReserved (e : Nat) : Bool := bits e 3 9 != 0 || bits e 48 16 != 0

/-- The page descriptor and granule of a page reference (R312). -/
def ttePage (e : Nat) : Nat := bits e 12 24
def tteGranule (e : Nat) : Nat := bits e 36 4

/-- What the first three checks of R313 find for an address of the windows: the entry that translates it, a 2 MiB leaf as `big`. -/
def walk (s : State) (a : Nat) : Option (Nat × Bool) :=
  let x := a - 0x800000000000
  let e1 := deviceNat s (s.mem.l1Base + 8 * (x / 0x200000)) 8
  if tteType e1 = 2 then
    if tteReserved e1 || bits e1 12 9 != 0 then none else some (e1, true)
  else if tteType e1 = 1 then
    let e2 := deviceNat s (tteTarget e1 + 8 * (x / 4096 % 512)) 8
    let page := tteType e2 == 3 && regionOf a == .sequence
    if (tteType e2 != 2 && !page) || tteReserved e1 || tteReserved e2 then none
    else if page && (bits e2 40 8 != 0 || decide (kvGran s ≤ tteGranule e2) || (tabGet (ttePage e2) s.aviary.pages).isNone) then none
    else some (e2, false)
  else none

/-- The addresses of the entries that a walk reads (R311). -/
def walkReads (s : State) (a : Nat) : List Nat :=
  let x := a - 0x800000000000
  let at1 := s.mem.l1Base + 8 * (x / 0x200000)
  let e1 := deviceNat s at1 8
  if tteType e1 = 1 then [at1, tteTarget e1 + 8 * (x / 4096 % 512)] else [at1]

/-- The pages of the windows among addresses. -/
def windowPages (as : List Nat) : List Nat :=
  ((as.filter fun a => decide (0x800000000000 ≤ a)).map fun a => a / 4096).eraseDups

/-- The set of the shared TLB that holds a page, and what it holds for it (R316). -/
def tlbSet (page : Nat) : Nat := page % 512
def tlbHit (s : State) (page : Nat) : Option TlbEntry :=
  (tabGetD (tlbSet page) [] s.mem.tlb).find? fun e => e.page == page

/-- What a micro-TLB holds for a page (R316). -/
def microHit (s : State) (group page : Nat) : Option TlbEntry := (s.mem.micro.getD group []).find? fun e => e.page == page

/-- The requester groups of the micro-TLBs: the Orangeries, the Pergolas, the movers, the Topiaries, the Aviary; the last one is that of
Quinbuar, of the fixed-function units and of writes (R316 names no groups: DESIGN CHOICE, log 43). -/
def tlbGroup (k : Nat) : Nat :=
  if 1 ≤ k ∧ k ≤ 16 then 0 else if 17 ≤ k ∧ k ≤ 24 then 1 else if 25 ≤ k ∧ k ≤ 48 then 2 else if 49 ≤ k ∧ k ≤ 52 then 3
  else if k = 53 then 4 else 5

/-- A micro-TLB takes an entry and drops the oldest of 32 (R316). -/
def microFill (group : Nat) (e : TlbEntry) (s : State) : State :=
  if (microHit s group e.page).isSome then s
  else updMem (fun m => { m with micro := upd m.micro group fun l => (e :: l).take 32 }) s

/-- An access of a group to a page of the windows (R309, R316): a miss in its micro-TLB takes the entry from the shared TLB; a miss there
walks the tables through the Control ways and fills both, and a set of the shared one drops the oldest of eight (log 43). -/
def tlbFill (group page : Nat) (s : State) : State :=
  if (microHit s group page).isSome then s
  else match tlbHit s page with
    | some e => microFill group e s
    | none =>
      let t := (walkReads s (4096 * page)).foldl (fun s a => unitRead .control a 8 s) s
      match walk s (4096 * page) with
      | none => t
      | some (w, big) =>
        let e : TlbEntry := { page := page, word := w, big := big }
        microFill group e (updMem (fun m => { m with
          tlb := tabPut (tlbSet page) ((e :: tabGetD (tlbSet page) [] m.tlb).take 8) m.tlb }) t)

/-- The entry that translates an address (R313, R316): as a TLB holds it, else as the walk finds it. -/
def translate (s : State) (a : Nat) : Option (Nat × Bool) :=
  match (tlbHit s (a / 4096)).or (s.mem.micro.findSome? fun l => l.find? fun e => e.page == a / 4096) with
  | some e => some (e.word, e.big)
  | none => walk s a

/-- The entries of a TLB that lie outside a range (R316). -/
def outsideRange (base size : Nat) (l : List TlbEntry) : List TlbEntry :=
  l.filter fun e => !decide (base < 4096 * e.page + 4096 ∧ 4096 * e.page < base + size)

/-- No TLB holds an entry of a range any more (R316). -/
def tlbDrop (base size : Nat) (s : State) : State :=
  updMem (fun m => { m with
    micro := m.micro.map (outsideRange base size)
    tlb := m.tlb.filterMap fun x =>
      let l := outsideRange base size x.2
      if l.isEmpty then none else some (x.1, l) }) s

/-- No TLB holds an entry any more (R316). -/
def tlbClear (s : State) : State := updMem (fun m => { m with tlb := [], micro := m.micro.map fun _ => [] }) s

/-! ### Host memory (R302, R314, R392) -/

/-- The max payload size of Device Control, at most 512 (R376, R392). -/
def maxPayload (s : State) : Nat := min 512 (128 * 2 ^ bits (cfgReg s 0x58).toNat 5 3)

/-- The memory write TLPs of cells: split at `m` bytes from the first one's address on (R392; DESIGN CHOICE, log 219). -/
def writeTlps (m : Nat) (cs : List Cell) : List (List Cell) :=
  let a := (cs.head?.map (·.addr)).getD 0
  let part (c : Cell) : Nat := (c.addr - a) / m
  ((cs.map part).eraseDups).map fun k => cs.filter fun c => part c == k

/-- A TLP whose payload includes a marked byte carries EP (R360). -/
def emitEp (cs : List Cell) (s : State) : State :=
  if cs.any (·.mark) then emit (.hostWriteEp ((cs.head?.map (·.addr)).getD 0) cs.length) s else s

/-- Write to host memory through a general-window leaf or from the Gatehouse, in TLPs (R360, R392); dropped when no request may
leave (R314, R379, R394). -/
def writeHost (cs : List Cell) (s : State) : State :=
  if cs.isEmpty then s
  else if !canAsk s then logErr 0x0604 2 0 s { arg0 := (cs.head?.map (·.addr)).getD 0 }
  else
    (writeTlps (maxPayload s) cs).foldl (fun s t => emitEp t s)
      (updMem (fun m => { m with host := cs.foldl (fun b c => memPut c.addr c.val b) m.host }) s)

/-- Extended Tag Field Enable and the max read request size of Device Control (R376, R392). -/
def tagCount (s : State) : Nat := if (cfgReg s 0x58).getLsbD 8 then 256 else 32
def maxRead (s : State) : Nat := min 4096 (128 * 2 ^ bits (cfgReg s 0x58).toNat 12 3)

/-- The tag that a waiting read may take: the lowest free one of its share (R392). -/
def freeTag (s : State) (reserved : Bool) : Option Nat :=
  let n := tagCount s
  let used := s.mem.reads.filterMap (·.tag)
  (List.range n).find? fun t => !used.contains t && (reserved || decide (n / 8 ≤ t))

/-- Give the waiting reads their tags in order (R392); `fuel` bounds their number. -/
def startReads : (fuel : Nat) → State → State
  | 0, s => s
  | fuel + 1, s =>
    if !canAsk s then s
    else match posOf (fun r : HostRead => r.tag.isNone && (freeTag s r.reserved).isSome) s.mem.reads with
      | none => s
      | some i => match s.mem.reads[i]? with
        | none => s
        | some r => match freeTag s r.reserved with
          | none => s
          | some t => startReads fuel (emit (.hostRead t r.addr r.len)
              (updMem (fun m => { m with reads := upd m.reads i fun r => { r with tag := some t } }) s))

/-- A read split at the max read request size (R392). -/
def splitRead (m : Nat) (reserved forOp : Bool) : (fuel a n : Nat) → List HostRead
  | 0, _, _ => []
  | fuel + 1, a, n =>
    if n = 0 then []
    else
      let k := min n (max 1 m)
      { tag := none, addr := a, len := k, reserved := reserved, forOp := forOp } :: splitRead m reserved forOp fuel (a + k) (n - k)

/-- The host lines of a read. -/
def readLines (a n : Nat) : List Nat := (List.range ((a + n + 63) / 64 - a / 64)).map fun i => a / 64 + i

/-- Reads of host memory that no TLP leaves for, fail at once (R314, R379): their data is marked. -/
def failReads (rs : List HostRead) (s : State) : State :=
  rs.foldl (fun s r =>
    let lines := readLines r.addr r.len
    logErr 0x0604 2 0 (updMem (fun m => { m with
      hostBad := lines.foldl (fun l x => tabPut x 0x0604 l) m.hostBad
      hostIn := if r.forOp then lines.foldl (fun l x => setAdd x l) m.hostIn else m.hostIn }) s)
      { arg0 := r.addr, arg1 := r.len, poison := true }) s

/-- The device asks the host for bytes (R392): split, and sent as tags come free. -/
def askHost (addr len : Nat) (reserved forOp : Bool) (s : State) : State :=
  let new := splitRead (maxRead s) reserved forOp (ceilDiv len (maxRead s)) addr len
  let s := updMem (fun m => { m with reads := m.reads ++ new }) s
  startReads s.mem.reads.length s

end Sys2Proof.Machine
end

