-- ==== Sys2Proof/Machine/Jasper.lean ====
section
/-! DEFINITION. The Jasper buffer pool (R334 to R345): cells and chains in DRAM, the allocator's operations, the census. The
order of the free ring is held as the cells never taken yet, in rising order, and behind them the released cells in order of release; its
entries move to and from DRAM as the on-chip caches do (R339; log 88). -/

namespace Sys2Proof.Machine

/-- Pool and cell of an index (R336). -/
def cellPool (i : Nat) : Nat := i / 2 ^ 21 % 8
def cellOf (i : Nat) : Nat := i % 2 ^ 21

/-- The index of a cell of a pool (R336). -/
def cellIndex (q c : Nat) : Nat := q * 2 ^ 21 + c

/-- A pool that boot step S9 has configured (R337). -/
def poolReady (s : State) (q : Nat) : Bool := match s.pools[q]? with | some p => decide (0 < p.size) | none => false

/-- The index names a cell of a configured pool that may be allocated. -/
def cellOk (s : State) (i : Nat) : Bool :=
  match s.pools[i / 2 ^ 21]? with
  | some p => decide (0 < cellOf i ∧ cellOf i < p.size)
  | none => false

/-- The address of a cell (R336). -/
def cellAddr (s : State) (i : Nat) : Nat :=
  (match s.pools[cellPool i]? with | some p => p.base | none => 0) + 256 * cellOf i

/-- NEXT and COUNT of a cell (R334). -/
def cellNext (s : State) (i : Nat) : Nat := memNat s.mem.bytes (cellAddr s i + 0xF8) 3
def cellCount (s : State) (i : Nat) : Nat := memNat s.mem.bytes (cellAddr s i + 0xFB) 1

/-- Write bytes of a cell at an offset. -/
def putCell (i off : Nat) (bs : List Byte) (s : State) : State :=
  writePhys .control (cellsAt (cellAddr s i + off) bs false) s

def setNext (i n : Nat) (s : State) : State := putCell i 0xF8 (leBytes 3 n) s
def setCount (i n : Nat) (s : State) : State := putCell i 0xFB (leBytes 1 n) s

/-- The place of a cell's owner map entry, and the account in it (R337, R338). -/
def ownerAddr (s : State) (i : Nat) : Nat := (match s.pools[cellPool i]? with | some p => p.ownerBase | none => 0) + cellOf i
def cellAccount (s : State) (i : Nat) : Nat := memNat s.mem.bytes (ownerAddr s i) 1

def setAccount (i a : Nat) (s : State) : State := writePhys .control (cellsAt (ownerAddr s i) (leBytes 1 a) false) s

/-- FREE: the cells of the ring whose COUNT is 0 (R339). -/
def poolFree (s : State) (q : Nat) : Nat :=
  match s.pools[q]? with
  | none => 0
  | some p =>
    let lentFresh := p.lent.filter fun c => decide (p.fresh ≤ c) && cellCount s (cellIndex q c) != 0
    (p.size - p.fresh - lentFresh.length)
      + (p.freed.eraseDups.filter fun c => decide (c < p.fresh) && cellCount s (cellIndex q c) == 0).length

/-- Quota and used count of an account (R338); account 255 has quota N − 1. -/
def poolQuota (p : Pool) (a : Nat) : Nat := tabGetD a (if a = 255 then p.size - 1 else 0) p.quota
def poolUsed (p : Pool) (a : Nat) : Nat := tabGetD a 0 p.used

/-- An operation of a pool that fails is counted by its status (R337). -/
def countEvent (q st : Nat) (s : State) : State :=
  if st = 0 then s else updPool q (fun p => { p with events := tabPut st (tabGetD st 0 p.events + 1) p.events }) s

/-- The address of an entry of a pool's free ring, counted from the first (R337, R339). -/
def ringEntry (p : Pool) (n : Nat) : Nat := p.ringBase + 4 * (n % (p.size - 1))

/-- What an entry of the ring names: an entry that has not been written since boot, the cell behind the one before it (R339;
DEDUCED, log 88). -/
def ringCell (s : State) (p : Pool) (n : Nat) : Nat :=
  let v := memNat s.mem.bytes (ringEntry p n) 4
  if v = 0 then n % (p.size - 1) + 1 else v

/-- The entries that the ring holds in DRAM, behind those read and before those still in the tail cache (R339). -/
def ringLeft (p : Pool) : Nat := p.size - 1 + p.ringTail - p.ringHead

/-- The on-chip head cache is refilled where it holds 64 entries or fewer: with 128 from the ring, as far as it has them (R339), in the
class of the movers' rank. -/
def refill (q : Nat) (s : State) : State :=
  match s.pools[q]? with
  | none => s
  | some p =>
    if p.head.length ≤ 64 then
      let ns := (List.range (min 128 (ringLeft p))).map (p.ringHead + ·)
      updPool q (fun p => { p with head := p.head ++ ns.map (ringCell s p), ringHead := p.ringHead + ns.length })
        (((ns.map fun n => ringEntry p n / 64).eraseDups).foldl (fun s l => unitRead .be (64 * l) 64 s) s)
    else s

/-- The cell that the allocator hands out next: the oldest of the head cache, and where the ring in DRAM is empty too, of the tail cache
(R339; DEDUCED, log 88). -/
def nextFree (p : Pool) : Option Nat := match p.head with | c :: _ => some c | [] => p.tail.head?

/-- Take the cell at the head of the ring (R339). -/
def takeCell (q : Nat) (s : State) : Nat × State :=
  match s.pools[q]? with
  | none => (0, s)
  | some p => match nextFree p with
    | some c => (cellIndex q c, updPool q (fun p => { p with
        head := p.head.drop 1, tail := if p.head.isEmpty then p.tail.drop 1 else p.tail
        fresh := max p.fresh (c + 1), freed := p.freed.erase c }) s)
    | none => (0, s)

/-- Take `n` cells, COUNT 1 each, linked in the order taken, with the account in the owner map (R340). -/
def takeCells (q account : Nat) : (n : Nat) → (prev : Nat) → State → List Nat × State
  | 0, _, s => ([], s)
  | n + 1, prev, s =>
    let (c, s) := takeCell q s
    let s := setAccount c account (setCount c 1 (setNext c 0 s))
    let s := if prev = 0 then s else setNext prev c s
    let (cs, s) := takeCells q account n c s
    (c :: cs, s)

/-- Why an ALLOC fails (R340, R341), or 0. -/
def allocStatus (s : State) (q account n : Nat) (reserve : Bool) (tail : Nat) : Nat :=
  match s.pools[q]? with
  | none => 0x0633
  | some p =>
    if reserve && account != 255 then 0x0633
    else if tail != 0 && (!cellOk s tail || cellPool tail != q || cellCount s tail == 0 || cellNext s tail != 0) then 0x063A
    else if poolQuota p account < poolUsed p account + n then 0x0630
    else if !reserve && decide (poolFree s q < p.floor + n) then 0x0631
    else 0

/-- The on-chip tail cache after a RELEASE: at 448 entries, the 128 oldest are written back to the ring (R339). -/
def writeBack (q : Nat) (s : State) : State :=
  match s.pools[q]? with
  | none => s
  | some p =>
    if 448 ≤ p.tail.length then
      let cells := ((p.tail.take 128).zipIdx.map fun x =>
        cellsAt (ringEntry p (p.size - 1 + p.ringTail + x.2)) (leBytes 4 x.1) false).flatten
      updPool q (fun p => { p with tail := p.tail.drop 128, ringTail := p.ringTail + 128 }) (writePhys .be cells s)
    else s

/-- An ALLOC whose checks hold: the head index and the state (R340). -/
def allocCells (q account n tail : Nat) (s : State) : Nat × State :=
  let (cs, s) := takeCells q account n tail (refill q s)
  let head := cs.headD 0
  (head, refill q (updPool q (fun p => { p with used := tabPut account (poolUsed p account + n) p.used, lastHead := head }) s))

/-- The allocator reads NEXT and COUNT of a cell through its line's slice (R308). -/
def noteCell (i : Nat) (s : State) : State := unitRead .control (cellAddr s i + 0xF8) 4 s

/-- It reads those of an ALLOC's tail (R308, R340). -/
def noteTail (tail : Nat) (s : State) : State := if tail = 0 then s else noteCell tail s

/-- ALLOC (R340, R341): the status, 0 when it is done, and the head index; TARGET_RESET while island 39 is fenced, whose rings are built
anew before it serves another one (R352, R369). -/
def allocOp (q account n : Nat) (reserve : Bool) (tail : Nat) (s : State) : Nat × Nat × State :=
  let st := if islandFenced s 39 then 0x0011 else allocStatus s q account n reserve tail
  let s := noteTail tail s
  if st = 0x0011 then (st, 0, s)
  else if st ≠ 0 then (st, 0, countEvent q st s)
  else
    let (h, s) := allocCells q account n tail s
    (0, h, s)

/-- RETAIN (R340, R342): 0x0632 at COUNT 255. -/
def retainOp (i : Nat) (s : State) : Nat × State :=
  let c := cellCount s i
  let s := noteCell i s
  if c = 255 then (0x0632, countEvent (cellPool i) 0x0632 s)
  else
    let s := if c = 0 then updPool (cellPool i) (fun p => { p with lent := setAdd (cellOf i) p.lent }) s else s
    (0, setCount i (c + 1) s)

/-- RELEASE (R340, R342): nothing at COUNT 0; at the last count the cell joins the ring's tail. -/
def releaseOp (i : Nat) (s : State) : State :=
  let c := cellCount s i
  let s := noteCell i s
  if c = 0 then s
  else
    let s := setCount i (c - 1) s
    if c = 1 then
      let a := cellAccount s i
      let s := unitRead .control (ownerAddr s i) 1 s
      writeBack (cellPool i) (updPool (cellPool i) (fun p => { p with
        freed := p.freed ++ [cellOf i], used := tabPut a (poolUsed p a - 1) p.used, tail := p.tail ++ [cellOf i],
        lent := setDel (cellOf i) p.lent }) s)
    else s

/-- RELEASE_CHAIN (R340): NEXT is read before the cell is released; the walk goes on only behind a cell whose COUNT reached 0. -/
def releaseChainOp : (fuel : Nat) → (head : Nat) → State → State
  | 0, _, s => s
  | fuel + 1, head, s =>
    let next := cellNext s head
    let last := cellCount s head == 1
    let s := releaseOp head s
    if last && next != 0 && cellCount s head == 0 then releaseChainOp fuel next s else s

/-- The longest chain: every cell of a pool. -/
def chainFuel : Nat := 2097152

/-- Release a chain that a holder has, where it has one. -/
def freeChain (head : Nat) (s : State) : State := if head = 0 then s else releaseChainOp chainFuel head s

/-- The bytes 0x00 to 0xF7 of a cell that holds `data`, at most 248 bytes (R334). -/
def cellData (data : List Byte) : List Byte :=
  if data.length = 248 then data else padTo 247 data ++ leBytes 1 data.length

/-- The window that Quinbuar sets an ingest port, the cells of a pool (R303): the hardware blocks a write outside it. -/
def inPool (s : State) (i : Nat) : Bool := match s.pools[cellPool i]? with | some p => decide (cellOf i < p.size) | none => false

/-- Fill a cell whose NEXT is final: DATA and CHECK, complemented in a short cell (R334, R340). -/
def fillCell (cls : ReqClass) (i : Nat) (data : List Byte) (marks : List Bool) (s : State) : State :=
  if !inPool s i then s else
  let d := cellData data
  let c := crc32c (d ++ leBytes 3 (cellNext s i))
  let c := if data.length = 248 then c else ~~~c
  let a := cellAddr s i
  let cells := d.zipIdx.map fun x => ({ addr := a + x.2, val := x.1, mark := marks.getD x.2 false } : Cell)
  writePhys cls (cells ++ cellsAt (a + 0xFC) (leBytes 4 c.toNat) false) s

/-- What a reader finds in a cell: its data, or that its check fails (R335). -/
def readCell (s : State) (i : Nat) : Option (List Byte) :=
  let bs := (unitBytes s (cellAddr s i) 256).map (·.1)
  let c := crc32c (bs.take 0xFB)
  let check := BitVec.ofNat 32 (field bs 0xFC 4)
  let len := field bs 0xF7 1
  if check = c then some (bs.take 248)
  else if check = ~~~c ∧ len ≤ 247 then some (bs.take len)
  else none

/-- The cells of a chain of data: `n` more cells of at most 32 an ALLOC, each naming the last as its tail (R340). -/
def growChain (q account : Nat) (reserve : Bool) : (fuel n : Nat) → (tail : Nat) → State → Nat × State
  | 0, _, _, s => (0, s)
  | _, 0, _, s => (0, s)
  | fuel + 1, n, tail, s =>
    let k := min n 32
    let (st, h, s) := allocOp q account k reserve tail s
    if st ≠ 0 then (st, s)
    else
      let last := lastCell 32 h s
      growChain q account reserve fuel (n - k) last s
where
  /-- The last cell of a chain of at most `fuel` further links. -/
  lastCell : Nat → Nat → State → Nat
    | 0, i, _ => i
    | f + 1, i, s => if cellNext s i = 0 then i else lastCell f (cellNext s i) s

/-- The cells of a chain from its head. -/
def chainCells : (fuel : Nat) → (head : Nat) → State → List Nat
  | 0, _, _ => []
  | fuel + 1, head, s => if head = 0 then [] else head :: chainCells fuel (cellNext s head) s

/-- Build a chain that holds `data` (R340): status and head. A failure leaves no cell behind. -/
def buildChain (cls : ReqClass) (q account : Nat) (data : List Byte) (marks : List Bool) (s : State) : Nat × Nat × State :=
  let parts := if data.isEmpty then [[]] else chunks 248 data.length data
  let n := parts.length
  let (st, h, t) := allocOp q account (min n 32) false 0 s
  if st ≠ 0 then (st, 0, s)
  else
    let (st, t) := growChain q account false n (n - min n 32) (growChain.lastCell 32 h t) t
    if st ≠ 0 then (st, 0, s)
    else
      let cells := chainCells n h t
      (0, h, (cells.zip parts).zipIdx.foldl (fun s x => fillCell cls x.1.1 x.1.2 (marks.drop (248 * x.2)) s) t)

/-- What reading a chain finds: its bytes, which of them carry a poison mark, the first cell that fails its check. -/
structure ChainRead where
  bytes : List Byte
  marks : List Bool
  bad : Option Nat
  deriving DecidableEq, Repr

/-- A byte of the chain carries a poison mark. -/
def ChainRead.poison (r : ChainRead) : Bool := r.marks.any id

/-- What reading a chain leaves behind: its lines pass their slices (R308). -/
def noteChain (cls : ReqClass) (head : Nat) (s : State) : State :=
  (chainCells chainFuel head s).foldl (fun s i => unitRead cls (cellAddr s i) 256 s) s

/-- Read a chain cell by cell; NEXT of a cell that fails its check is never followed (R358). -/
def readChain : (fuel : Nat) → (head : Nat) → State → ChainRead
  | 0, _, _ => { bytes := [], marks := [], bad := none }
  | fuel + 1, head, s =>
    if head = 0 then { bytes := [], marks := [], bad := none }
    else match readCell s head with
      | none => { bytes := [], marks := [], bad := some head }
      | some d =>
        let a := cellAddr s head
        let r := readChain fuel (cellNext s head) s
        { bytes := d ++ r.bytes, marks := (unitBytes s a d.length).map (·.2) ++ r.marks, bad := r.bad }

/-- The arguments of an ALLOC are in range (R340). -/
def allocOk (s : State) (q account n : Nat) : Bool :=
  poolReady s q && decide (account < 256 ∧ 1 ≤ n ∧ n ≤ 32)

/-- ALLOC (R340, R341), which a fenced island 39 answers TARGET_RESET (R352, R369): a reserve ALLOC waits while the pool holds fewer free cells, and its wait is logged once. -/
def execAlloc (pool account n : Nat) (reserve : Bool) (tail : Nat) (s : State) : Res :=
  inRange (allocOk s pool account n) s <|
    if islandFenced s 39 then done (emit (.cellResult 0x0011 0) s)
    else
    let st := allocStatus s pool account n reserve tail
    let s := noteTail tail s
    if st ≠ 0 then done (emit (.cellResult st 0) (countEvent pool st s))
    else if reserve && decide (poolFree s pool < n) then
      done (logErr 0x0638 39 0 (updPool pool (fun p => { p with waiting := p.waiting ++ [(account, n, tail)] }) s) { arg0 := pool })
    else
      let (h, s) := allocCells pool account n tail s
      done (emit (.cellResult 0 h) s)

/-- RESERVE_ALLOC_RESUME (R341, R343): the oldest waiting ALLOC for which enough cells are free runs. -/
def execReserveAllocResume (pool : Nat) (s : State) : Res :=
  match s.pools[pool]?.filter (fun _ => !islandFenced s 39) with
  | none => done s
  | some p => match p.waiting.find? fun w => decide (w.2.1 ≤ poolFree s pool) with
    | none => done s
    | some w =>
      let s := updPool pool (fun p => { p with waiting := p.waiting.erase w }) s
      let (h, s) := allocCells pool w.1 w.2.1 w.2.2 s
      done (emit (.cellResult 0 h) s)

/-- RETAIN (R340, R342). -/
def execRetain (index : Nat) (s : State) : Res :=
  inRange (cellOk s index) s <|
    if islandFenced s 39 then done (emit (.cellResult 0x0011 index) s)
    else
      let (st, t) := retainOp index s
      done (emit (.cellResult st index) t)

/-- RELEASE (R340, R342). -/
def execRelease (index : Nat) (s : State) : Res := inRange (cellOk s index) s (if islandFenced s 39 then done (emit (.cellResult 0x0011 index) s) else done (releaseOp index s))

/-- RELEASE_CHAIN (R340). -/
def execReleaseChain (head : Nat) (s : State) : Res := inRange (cellOk s head) s (if islandFenced s 39 then done (emit (.cellResult 0x0011 head) s) else done (freeChain head s))

/-- The chain heads that Quinbuar's registry holds: streams' frames, pre-roll rings, clips, page transfers in flight (R345). -/
def registry (s : State) : List Nat :=
  let ofStream (x : Stream) : List Nat :=
    x.frames.map (·.head) ++ x.ring.map (fun r => r.head) ++
      (match x.capture with | some c => (match c.frame with | some f => [f.head] | none => []) | none => [])
  let streams := ((s.streams.filterMap id).map ofStream).flatten
  let clips := ((s.clips.filterMap id).map fun c => c.sources.map fun x => x.head).flatten
  (streams ++ clips ++ s.aviary.pages.map (·.2.cells)).filter (· != 0)

/-- The cells of a pool that may be live: those taken from the ring, and those that a RETAIN made live in it (R344, R345). -/
def censusCells (p : Pool) : List Nat := (List.range p.fresh ++ p.lent.filter fun c => decide (p.fresh ≤ c)).filter (· != 0)

/-- The expected count of a cell: registered heads plus NEXT links from live cells (R345). -/
def expectedCount (s : State) (q c : Nat) (p : Pool) : Nat :=
  let i := cellIndex q c
  ((registry s).filter (· == i)).length
    + ((censusCells p).filter fun d => cellCount s (cellIndex q d) != 0 && cellNext s (cellIndex q d) == i).length

/-- The findings of a census pass over a pool: cell, COUNT, expected count (R345). -/
def censusFindings (s : State) (q : Nat) (p : Pool) : List (Nat × Nat × Nat) :=
  (censusCells p).filterMap fun c =>
    let n := cellCount s (cellIndex q c)
    let e := expectedCount s q c p
    if n != e || (n != 0 && (p.freed.contains c || decide (p.fresh ≤ c))) then some (c, n, e) else none

/-- Report one finding that two passes in a row have made, and repair a leak where the host has enabled it (R345). -/
def reportFinding (q : Nat) (f : Nat × Nat × Nat) (s : State) : State :=
  let i := cellIndex q f.1
  if f.2.1 ≠ 0 ∧ f.2.2 = 0 then
    let s := logErr 0x0635 39 0 s { arg0 := i, arg1 := cellAccount s i }
    if s.censusRepair then (List.range f.2.1).foldl (fun s _ => releaseOp i s) s else s
  else logErr 0x0634 39 0 s { arg0 := i, arg1 := f.2.1 + f.2.2 * 2 ^ 8 + cellAccount s i * 2 ^ 16 }

/-- CENSUS_PASS (R345): at most once per 10 s per pool; a finding is reported when two consecutive passes make it. -/
def execCensusPass (pool : Nat) (s : State) : Res :=
  match s.pools[pool]? with
  | none => done s
  | some p =>
    let dueNow := match p.censusAt with | some t => decide (t + 10000000000 ≤ steadyNs s) | none => true
    if s.censusOn && poolReady s pool && dueNow then
      let fs := censusFindings s pool p
      let s' := updPool pool (fun p => { p with findings := fs, censusAt := some (steadyNs s) }) s
      done ((fs.filter fun f => p.findings.contains f).foldl (fun s f => reportFinding pool f s) s')
    else done s

end Sys2Proof.Machine
end

