-- ==== Sys2Proof/Machine/Locks.lean ====
section
/-! DEFINITION. The hardware locks (R346 to R352, R402). -/

namespace Sys2Proof.Machine

/-- The island of an owner id (R346). -/
def ownerIsland (o : Nat) : Nat := o / 1024 % 64

/-- A requester's range: locks 0 to 63 for the host of island 2, locks 64 to 255 for Quinbuar and the Warden (R346). -/
def lockRange (lock owner : Nat) : Bool :=
  if lock < 64 then ownerIsland owner == 2 else ownerIsland owner == 0 || ownerIsland owner == 1

/-- LCK.HOSTEN (R402). -/
def hostLocks (s : State) : Bool := (reg s 0x500000).getLsbD 0

/-- Whether an acquire or a release is served at all: in range, and host locks enabled for an acquire of the host. -/
def lockServed (lock owner : Nat) (s : State) : Bool :=
  lockRange lock owner && (ownerIsland owner != 2 || hostLocks s)

/-- The result word of R347. -/
def lockWord (result owner : Nat) : BitVec 32 := BitVec.ofNat 32 (result + owner * 2 ^ 16)

/-- Count up to 65,535 (R402). -/
def sat16 (n : Nat) : Nat := min 65535 (n + 1)

/-- The acquire of a lock that serves the requester (R347). -/
def acquireLock (lock owner : Nat) (x : Lock) (s : State) : State :=
  if x.held then emit (.lockResult (lockWord 2 x.owner)) s
  else
    let s := updLock lock (fun _ => { held := true, owner := owner, broken := false }) s
    let s := if x.broken && ownerIsland owner == 2 then updGate (fun g => { g with lockBroken := sat16 g.lockBroken }) s else s
    emit (.lockResult (lockWord (if x.broken then 1 else 0) owner)) s

/-- An acquire that is refused: the result REFUSED, and out of the requester's range the status 0x0637 (R346, R347). -/
def refuseAcquire (inside : Bool) (s : State) : State :=
  let s := emit (.lockResult (lockWord 3 0)) s
  if inside then s else emit (.fenceOutcome 0x0637) s

/-- An acquire that reaches the lock block of island 39: never while that is fenced (R352, R369). -/
def takeLock (lock owner : Nat) (s : State) : State :=
  if resetFenced s 39 then emit (.fenceOutcome 0x0011) s
  else match s.locks[lock]? with
    | some x => if lockServed lock owner s then acquireLock lock owner x s else refuseAcquire (lockRange lock owner) s
    | none => refuseAcquire false s

/-- The host's acquire is a read of BAR0 (R402), answered as every other in D3hot and while island 2 is fenced (R379, R395). -/
def hostAcquire (lock owner : Nat) (s : State) : State :=
  if !s.gate.linkUp then s
  else if s.gate.d3hot || !memSpace s then
    emit .unsupportedRequest (badRequest (0x540000 + 4 * (64 * (owner % 1024) + lock)) s)
  else if islandFenced s 2 then emit (.lockResult (BitVec.allOnes 32)) s
  else takeLock lock owner s

/-- LOCK_ACQUIRE (R346, R347, R402): it never waits; out of the requester's range, which no lock beyond 255 is in, or with HOSTEN 0,
the result is REFUSED. -/
def execLockAcquire (lock owner : Nat) (s : State) : Res :=
  inRange (decide (owner < 65536)) s
    (done (if ownerIsland owner = 2 then hostAcquire lock owner s else takeLock lock owner s))

/-- The owner releases a lock (R348). -/
def freeLock (x : Lock) : Lock := { x with held := false, owner := 0 }

/-- A release that is refused: its requester receives the status (R346, R348); the host's is counted as well (R402). -/
def refuseRelease (owner status : Nat) (s : State) : State :=
  emit (.fenceOutcome status)
    (if ownerIsland owner = 2 then updGate (fun g => { g with lockRefused := sat16 g.lockRefused }) s else s)

/-- A release that reaches the lock block of island 39 (R346, R348, R369). -/
def giveLock (lock owner : Nat) (s : State) : State :=
  if resetFenced s 39 then emit (.fenceOutcome 0x0011) s
  else match s.locks[lock]? with
    | some x =>
      if lockRange lock owner && x.held && x.owner == owner then updLock lock freeLock s
      else refuseRelease owner (if lockRange lock owner then 0x0636 else 0x0637) s
    | none => refuseRelease owner 0x0637 s

/-- LOCK_RELEASE (R346, R348): refused with 0x0637 out of the requester's range, with 0x0636 by any other than the owner; the host's is a
write of BAR0, which a fenced island 2 drops (R379, R395, R402). -/
def execLockRelease (lock owner : Nat) (s : State) : Res :=
  inRange (decide (owner < 65536)) s <|
    done (if ownerIsland owner = 2 then hostWrites (0x580000 + 4 * (64 * (owner % 1024) + lock)) (giveLock lock owner) s
          else giveLock lock owner s)

/-- What a forced release leaves (R349). -/
def brokenLock : Lock := { held := false, owner := 0, broken := true }

/-- The context number of batch id `b`'s instance `n` as an owner of locks: Quinbuar names the context of instance parity `n mod 2` (DESIGN
CHOICE, log 214). -/
def lockContext (b n : Nat) : Nat := 1024 + (2 * b + n % 2) % 1024

/-- Quinbuar ends a context on a fault: the locks of that context are force-released (R349). -/
def breakContext (b n : Nat) (s : State) : State :=
  { s with locks := s.locks.map fun x => if x.held && x.owner == lockContext b n then brokenLock else x }

/-- Every lock whose owner names a reset island is freed with BROKEN set (R349). -/
def breakLocks (island : Nat) (s : State) : State :=
  { s with locks := s.locks.map fun x => if x.held && ownerIsland x.owner == island then brokenLock else x }

/-- Every held lock is freed with BROKEN set (R352). -/
def breakAllLocks (s : State) : State :=
  { s with locks := s.locks.map fun x => if x.held then brokenLock else x }

end Sys2Proof.Machine
end

