-- ==== Sys2Proof/Machine/Frames.lean ====
section
/-! DEFINITION. Frames and batches as every stage sees them: finding and changing a frame (R183, R282), deciding a skip
(R432), the batch of a slot (R255), tearing a batch down (R87, R289 to R293). -/

namespace Sys2Proof.Machine

/-- The skip reasons of R432. -/
def reasonShedBe : Nat := 1
def reasonLate : Nat := 2
def reasonDamaged : Nat := 3
def reasonConcealed : Nat := 4
def reasonFault : Nat := 5
def reasonWidened : Nat := 6
def reasonRefused : Nat := 7

/-- Classes of R273 as CLASS codes (R254, R420). -/
def isLc (x : Stream) : Bool := x.cfg.cls == 0

/-- The frame of a stream with a serial number. -/
def frameOf (x : Stream) (id : Nat) : Option Frame := x.frames.find? fun f => f.id == id

/-- The frame of a stream index with a serial number. -/
def getFrame (s : State) (n id : Nat) : Option Frame := (stream? s n).bind fun x => frameOf x id

/-- The frame of a stream with a device frame number. -/
def frameByNum (x : Stream) (num : Nat) : Option Frame := x.frames.find? fun f => f.num == some num

/-- Update one frame. -/
def updFrame (n id : Nat) (f : Frame → Frame) (s : State) : State :=
  updStream n (fun x => { x with frames := x.frames.map fun y => if y.id = id then f y else y }) s

/-- Update the frame with a device frame number. -/
def updFrameNum (n num : Nat) (f : Frame → Frame) (s : State) : State :=
  updStream n (fun x => { x with frames := x.frames.map fun y => if y.num = some num then f y else y }) s

/-- A frame's outcome is decided: the first decision stands (R282). -/
def decide1 (reason status : Nat) (f : Frame) : Frame :=
  if f.reason = 0 then { f with reason := reason, status := status, stage := .skipped } else f

/-- A frame yields a skip record with a reason and a status. -/
def skipFrame (n id reason status : Nat) (s : State) : State := updFrame n id (decide1 reason status) s

/-- Note that a frame reached stage `i` (0 to 7) of R19 now. -/
def stamp (i : Nat) (t : Nat) (f : Frame) : Frame :=
  { f with times := (padToNat 8 f.times).set i t }
where
  padToNat (n : Nat) (l : List Nat) : List Nat := l.take n ++ List.replicate (n - l.length) 0

/-- The frame's reference time t_ref: time zero, or OUTREADY where R219 applies (R283). -/
def frameRef (f : Frame) : Nat := max f.tzero f.outReady

/-- The launch deadline of an LC frame, moved by the steps since it landed (R283, R495 ruling 20). -/
def deadline (f : Frame) : Int := (frameRef f : Int) + 23500000 + f.shift

/-- The batch of an id with an instance number: the open one or a closed one. -/
def getBatch (s : State) (b num : Nat) : Option Batch :=
  match s.score.batches[b]? with
  | none => none
  | some x =>
    match x.cur.filter fun y => y.num == num with
    | some y => some y
    | none => x.closed.find? fun y => y.num == num

/-- The streams with a sample in a batch, ascending. -/
def batchStreams (y : Batch) : List Nat := y.slots.foldl (fun l x => setAdd x.stream l) []

/-- The frames with a sample in a batch, by stream and device frame number, in order of first slot. -/
def batchFrames (y : Batch) : List (Nat × Nat) := (y.slots.map fun x => (x.stream, x.frame)).eraseDups

/-- Add a notice for the host: at most 64 wait, and one that finds them all is dropped and counted (R423). Without a session it is
dropped (R495 rulings 4 and 18; DEDUCED, log 47). -/
def addNotice (x : NoticeMsg) (s : State) : State :=
  updMbx (fun m =>
    if m.session.isNone then m
    else if m.notices.length < 64 then { m with notices := m.notices ++ [x] }
    else { m with noticesDropped := m.noticesDropped + 1 }) s

/-- The statuses with which a reset or a fence of an island faults its work (R291, R495 ruling 15). -/
def resetStatus (status : Nat) : Bool := status == 0x0011 || status == 0x0012 || status == 0x0214 || status == 0x0309

/-- A job fault in a training batch ends the running job, and the host learns it (R270, R290). -/
def failTraining (s : State) : State :=
  match s.trainRunning with
  | none => s
  | some j => addNotice { status := 0x0305, stream := j.stream, result := j.trigger } { s with trainRunning := none }

/-- The instance is torn down: every frame with a sample in it yields FAULT with the status (R87, R289), and its context's locks are freed
(R349). A training job fails with its
batch, but for a reset it restarts from its snapshot, which gives the same result (R270). -/
def tearDown (b num status : Nat) (blame : Option Nat) (s : State) : State :=
  match getBatch s b num with
  | none => s
  | some y =>
    if y.torn.isSome then s
    else
      let s := updBatch b num (fun y => { y with torn := some status, blame := blame }) s
      let s := breakContext b num s
      let s := if (geom s b).kind = 1 && !resetStatus status then failTraining s else s
      (batchFrames y).foldl (fun s x => updFrameNum x.1 x.2 (decide1 reasonFault status) s) s

/-- Whether a context is torn down. -/
def isTorn (s : State) (ctx : Option (Nat × Nat)) : Bool :=
  match ctx with
  | some (b, n) => (match getBatch s b n with | some y => y.torn.isSome | none => false)
  | none => false

/-- A job fault of an op on a lane: logged with its context torn down (R87, R289, R366). A fault outside every batch is only
logged. -/
def jobFault (lane : Nat) (ctx : Option (Nat × Nat)) (status arg0 : Nat) (blame : Option Nat) (s : State) : State :=
  let blame := if resetStatus status then none else blame
  let s := logErr status (laneIsland lane) (laneUnit lane) s
    { arg0 := arg0, torn := ctx.isSome, stream := blame.getD 0xFF }
  match ctx with
  | some (b, n) => tearDown b n status blame s
  | none => s

/-- A command in progress ends with a status and a result; `rbuf` tells whether RBUF was written (R410). -/
def finishCmd (q cid status result : Nat) (rbuf : Bool) (s : State) : State :=
  match s.mbx.cmds.find? fun c => c.q == q && c.cid == cid with
  | some c => updMbx (fun m => { m with cmds := m.cmds.erase c,
                                        ended := m.ended ++ [{ c with done := some (status, result, rbuf) }] }) s
  | none => s

/-- Change what a command in progress holds. -/
def updCmd (q cid : Nat) (f : HostCmd → HostCmd) (s : State) : State :=
  updMbx (fun m => { m with cmds := m.cmds.map fun c => if c.q == q && c.cid == cid then f c else c }) s

/-- A command in progress ends with a status and a result, and with bytes that its completion writes to RBUF (R414). -/
def finishBuf (q cid status result : Nat) (bs : List Byte) (s : State) : State :=
  finishCmd q cid status result true (updCmd q cid (fun c => { c with buffer := bs }) s)

/-- A stream's adaptation jobs are dropped (R270). -/
def dropJobs (n : Nat) (s : State) : State :=
  { s with trainPending := s.trainPending.filter fun j => j.stream != n, trainRunning := s.trainRunning.filter fun j => j.stream != n }

/-- The third faulted context in a row quarantines a stream (R292, R293); its adaptation job is dropped (R495 ruling 21), but where an update's
switch has paused it before (R270), which it then outlives (R500). -/
def countFault (n : Nat) (faulted : Bool) (s : State) : State :=
  match stream? s n with
  | none => s
  | some x =>
    if !faulted then updStream n (fun x => { x with faultRun := 0 }) s
    else if x.faultRun + 1 < 3 || x.quarantined then updStream n (fun x => { x with faultRun := x.faultRun + 1 }) s
    else
      let s := updStream n (fun x => { x with faultRun := x.faultRun + 1, quarantined := true }) s
      let s := if s.power.update.switching.isSome then s else dropJobs n s
      addNotice { status := 0x0329, stream := n, result := 0 } s

/-- An instance has ended: each of its streams counts it; one torn down by a fault that is not the stream's leaves the count
(DEDUCED, log 28) (R292). -/
def endBatch (b num : Nat) (s : State) : State :=
  match getBatch s b num with
  | none => s
  | some y =>
    let s := (batchStreams y).foldl (fun s n =>
      if y.torn.isSome && y.blame != some n then s else countFault n y.torn.isSome s) s
    updBatchId b (fun x => { x with closed := x.closed.filter fun z => z.num != num }) s

end Sys2Proof.Machine
end

