-- ==== Sys2Proof/Machine/Delivery.lean ====
section
/-! DEFINITION. Records and their delivery (R206 to R208, R424 to R440): the bytes of a record, the delivery rings and UDP
destinations that take it, the metadata journal. -/

namespace Sys2Proof.Machine

/-- One entry of a record's entry section (R433). -/
def eventBytes (e : Event) : List Byte := leBytes 2 e.kind ++ leBytes 2 e.status ++ padTo 28 e.data

/-- The smallest q with an error estimate of at most 2^q ns, at most 62; 63 when it is unknown (R431). -/
def errExponent (e : Option Nat) : Nat :=
  match e with
  | none => 63
  | some n => ((List.range 63).find? fun q => decide (n ≤ 2 ^ q)).getD 62

/-- The code of a Bandstand state (R399). -/
def timeStateCode : TimeState → Nat
  | .free => 0
  | .acquire => 1
  | .locked => 2
  | .holdover => 3

/-- TIMEQ (R431). -/
def timeQ (s : State) : Nat := timeStateCode s.band.tstate + 4 * errExponent (errEstimate s)

/-- What a record's header says (R431), apart from what the state gives. -/
structure RecordHead where
  type : Nat
  reason : Nat
  stream : Nat
  frame : Nat
  stamp : Nat
  flags : Nat
  status : Nat
  digest : BitVec 64
  deriving DecidableEq, Repr

/-- FLAGS[6] (R58). -/
def lostFlag (s : State) : Nat := if s.band.timeLost then 2 ^ 6 else 0

/-- The 32 header bytes (R431). -/
def headBytes (s : State) (h : RecordHead) (nobj nevt : Nat) : List Byte :=
  leBytes 1 (h.type + 16) ++ leBytes 1 h.reason ++ leBytes 1 h.stream ++ leBytes 1 (timeQ s) ++ leBytes 4 h.frame
    ++ leBytes 8 h.stamp ++ leBytes 2 (h.flags + lostFlag s) ++ leBytes 2 h.status ++ leBytes 2 nobj ++ leBytes 1 nevt
    ++ leBytes 1 s.trellis.chip ++ leBytes 8 h.digest.toNat

/-- A record's bytes with their trailer (R430, R435). -/
def sealRecord (body : List Byte) : List Byte := body ++ leBytes 4 (crc32c body).toNat

/-- The entries that fit: `keep` first entries, then at most 251 events, then one EVENTS_DROPPED for the rest (R434). -/
def fitEvents (detail events : List Event) : List Event :=
  if detail.length + events.length ≤ 255 then detail ++ events
  else detail ++ events.take 251 ++
    [{ kind := 0x001A, status := 0, data := leBytes 4 (events.length - 251) }]

/-- A record (R430): header, objects, entries, trailer. -/
def recordBytes (s : State) (h : RecordHead) (objects : List (List Byte)) (detail events : List Event) : List Byte :=
  let es := fitEvents detail events
  sealRecord (headBytes s h objects.length es.length ++ objects.flatten ++ (es.map eventBytes).flatten)

/-- Replace bytes at an offset. -/
def putAt (bs : List Byte) (off : Nat) (new : List Byte) : List Byte := bs.take off ++ new ++ bs.drop (off + new.length)

/-- The copy of a frame or skip record without its three detail entries (R438). -/
def dropDetail (bs : List Byte) : List Byte :=
  let at_ := 32 + 48 * bits (field bs 0x14 2) 0 11
  let body := (bs.take at_ ++ bs.drop (at_ + 96)).take (bs.length - 100)
  sealRecord (putAt body 0x16 (leBytes 1 (field bs 0x16 1 - 3)))

/-- The pad record that fills the end of a ring (R426, R431, R436): a header alone. -/
def padRecord (s : State) : List Byte :=
  headBytes s { type := 3, reason := 0, stream := 0, frame := 0, stamp := 0, flags := 0, status := 0, digest := 0 } 0 0

/-- The trailer of a record is that of its bytes (R435). -/
def trailerOk (bs : List Byte) : Bool := sealRecord (bs.take (bs.length - 4)) == bs

/-- Write to host memory as the Gatehouse does; nothing leaves while it may not send (R379). -/
def hostWrite (a : Nat) (bs : List Byte) (s : State) : State := writeHost (cellsAt a bs false) s

/-- The status word of a ring (R426). -/
def ringStatus (r : RingSub) : List Byte := leBytes 2 r.tail ++ leBytes 2 0 ++ leBytes 4 (min (2 ^ 32 - 1) r.dropped)

/-- Update a delivery ring. -/
def updRing (d : Nat) (f : RingSub → RingSub) (s : State) : State :=
  updMbx (fun m => { m with rings := upd m.rings d fun o => o.map f }) s

/-- A record is dropped for ring `d` (R428): counted in the status word, logged, and counted for its stream. -/
def dropForRing (d : Nat) (r : RingSub) (stream : Option Nat) (s : State) : State :=
  let r := { r with dropped := r.dropped + 1 }
  let s := updRing d (fun _ => r) s
  let s := match stream with
    | some n => updStream n (fun x => { x with ringDrops := x.ringDrops + 1 }) s
    | none => s
  let s := logErr 0x0912 1 d s { stream := stream.getD 0xFF, arg0 := d }
  if canSend s then hostWrite r.statAddr (ringStatus r) s else s

/-- Write a record into ring `d` (R426); in D3hot every ring counts as full (R496). -/
def deliverRing (d : Nat) (r : RingSub) (stream : Option Nat) (bs : List Byte) (s : State) : State :=
  let size := 2 ^ r.size
  let u := ceilDiv bs.length 64
  let p := size - r.tail % size
  let f := size - (r.tail + 65536 - r.headCount) % 65536
  let at_ (n : Nat) : Nat := r.base + 64 * (n % size)
  if s.gate.d3hot then dropForRing d r stream s
  else if u ≤ p ∧ u ≤ f then
    let r := { r with tail := (r.tail + u) % 65536 }
    setDr d (hostWrite r.statAddr (ringStatus r) (updRing d (fun _ => r) (hostWrite (at_ (r.tail + 65536 - u)) bs s)))
  else if p < u ∧ p + u ≤ f then
    let s := hostWrite (at_ 0) bs (hostWrite (at_ r.tail) (padRecord s) s)
    let r := { r with tail := (r.tail + p + u) % 65536 }
    setDr d (hostWrite r.statAddr (ringStatus r) (updRing d (fun _ => r) s))
  else dropForRing d r stream s

/-- A record is dropped for each ring that takes it (R428). -/
def dropForRings (ts : List Taker) (stream : Nat) (s : State) : State :=
  (ts.filter fun t => !t.udp).foldl (fun s t => match s.mbx.rings.getD t.id none with
    | some r => if r.born = t.born then dropForRing t.id r (some stream) s else s
    | none => s) s

/-- Update a UDP destination. -/
def updUdp (d : Nat) (f : UdpSub → UdpSub) (s : State) : State :=
  updMbx (fun m => { m with udp := upd m.udp d fun o => o.map f }) s

/-- The IPv4 and the IPv6 addresses of a port: static ones, and those that DHCP or SLAAC gave it (R186). -/
def portIpv4 (e : EthPort) (n : NetParams) : List Byte := if n.ipv4.isEmpty then e.lease.getD [] else n.ipv4
def portIpv6 (e : EthPort) (n : NetParams) : List (List Byte) := n.ipv6 ++ e.autoAddrs

/-- The port of a destination can send: it is configured, and neither its island nor its Lodge is fenced. -/
def portSends (s : State) (p : Nat) : Bool :=
  !unitFenced s 3 p && !asleep s 3 && (match s.eth[p]? with | some e => e.net.isSome | none => false)

/-- A destination's address can be resolved (R208): its port has an address of the family, and ARP or Neighbor Discovery has not failed for
the destination (DESIGN CHOICE, log 24). -/
def udpResolved (s : State) (u : UdpSub) : Bool :=
  match s.eth[u.port]? with
  | some e => (match e.net with
    | some n => !e.unresolved.contains (u.daddr.take (if u.family = 4 then 4 else 16)) &&
        (if u.family = 4 then !(portIpv4 e n).isEmpty else !(portIpv6 e n).isEmpty)
    | none => false)
  | none => false

/-- The ones' complement sum of 16-bit words, most significant byte first (RFC 768). -/
def onesSum : List Byte → Nat
  | a :: b :: l => fold (a.toNat * 256 + b.toNat + onesSum l)
  | [a] => a.toNat * 256
  | [] => 0
where
  fold (n : Nat) : Nat := n % 65536 + n / 65536

/-- The bytes of a number, most significant first, as network headers have them. -/
def netBytes (n v : Nat) : List Byte := (leBytes n v).reverse

/-- The UDP checksum over pseudo-header, UDP header and payload, with 0 sent as 0xFFFF; always generated (R206). -/
def udpChecksum (src dst : List Byte) (sport dport : Nat) (bytes : List Byte) : Nat :=
  let len := 8 + bytes.length
  let pseudo := src ++ dst ++ netBytes 4 len ++ netBytes 4 17
  let c := 65535 - onesSum (pseudo ++ netBytes 2 sport ++ netBytes 2 dport ++ netBytes 2 len ++ [0, 0] ++ bytes)
  if c = 0 then 65535 else c

/-- The header of a datagram of a destination (R206). -/
def datagramHead (u : UdpSub) (bytes : List Byte) : DatagramHead :=
  let k := if u.family = 4 then 4 else 16
  let src := u.saddr.take k
  let dst := u.daddr.take k
  { port := u.port, vlan := u.vlan, saddr := src, daddr := dst, sport := u.sport, dport := u.dport, dscp := u.dscp, hops := u.hops,
    checksum := udpChecksum src dst u.sport u.dport bytes }

/-- The datagrams of a record (R207). -/
def datagrams (u : UdpSub) (bs : List Byte) : List (List Byte) :=
  let k := max 1 (u.payload - 16)
  let parts := chunks k bs.length bs
  parts.zipIdx.map fun x =>
    leBytes 2 0x6A53 ++ leBytes 1 1 ++ leBytes 1 (if x.2 + 1 = parts.length then 1 else 0) ++ leBytes 4 u.seq
      ++ leBytes 2 x.2 ++ leBytes 2 parts.length ++ leBytes 4 (k * x.2) ++ x.1

/-- The bytes that wait in a destination's backlog (R208). -/
def backlogBytes (u : UdpSub) : Nat := (u.backlog.map List.length).sum

/-- A multicast address (R196). -/
def isMulticast (a : List Byte) : Bool :=
  if a.length = 4 then decide (224 ≤ (a.headD 0).toNat ∧ (a.headD 0).toNat < 240) else a.length == 16 && a.headD 0 == 0xFF

/-- A port asks for the neighbour of an address that it has not asked for yet (R186; DESIGN CHOICE, log 237). -/
def askNeighbour (p : Nat) (a : List Byte) (s : State) : State :=
  match s.eth[p]? with
  | some e =>
    if isMulticast a || e.asked.contains a then s
    else emit (.neighbourRequest p a) (updEth p (fun e => { e with asked := e.asked ++ [a] }) s)
  | none => s

/-- The address of a destination. -/
def udpAddress (u : UdpSub) : List Byte := u.daddr.take (if u.family = 4 then 4 else 16)

/-- Send what a destination's backlog holds, once its port can send. -/
def flushUdp (d : Nat) (s : State) : State :=
  match s.mbx.udp.getD d none with
  | some u =>
    if portSends s u.port && !u.backlog.isEmpty then
      let s := askNeighbour u.port (udpAddress u) s
      u.backlog.foldl (fun s g => emit (.datagram d (datagramHead u g) g) s) (updUdp d (fun u => { u with backlog := [] }) s)
    else s
  | none => s

/-- Send what every backlog holds. -/
def flushAllUdp (s : State) : State := (List.range 64).foldl (fun s d => flushUdp d s) s

/-- Send a record to a UDP destination, or drop it whole: either way it takes the next SEQ, so that a subscriber sees the gap
(R207, R208). -/
def deliverUdp (d : Nat) (u : UdpSub) (bs : List Byte) (s : State) : State :=
  let gs := datagrams u bs
  let s := if portSends s u.port then askNeighbour u.port (udpAddress u) s else s
  if !udpResolved s u || decide (4194304 < backlogBytes u + (gs.map List.length).sum) then
    logErr 0x0130 3 d (updUdp d (fun u => { u with dropped := u.dropped + 1, seq := (u.seq + 1) % 2 ^ 32 }) s) { arg0 := d }
  else
    flushUdp d (updUdp d (fun u => { u with backlog := u.backlog ++ gs, seq := (u.seq + 1) % 2 ^ 32 }) s)

/-- Whether a subscription takes a record (R424): its type, and its stream or one of its pins. -/
def takesRecord (types streams pins type : Nat) (stream : Option Nat) (pinSet : Nat) : Bool :=
  bitAt types type && (match stream with
    | some n => bitAt streams n
    | none => (List.range 16).any fun i => bitAt pins i && bitAt pinSet i)

/-- The form in which a subscription takes a record (R438). -/
def recordFor (types type : Nat) (bs : List Byte) : List Byte :=
  if decide (type ≤ 1) && !bitAt types 3 then dropDetail bs else bs

/-- The subscriptions that take a record formed now (R424, R425): the delivery rings, then the UDP destinations. -/
def takersOf (s : State) (type : Nat) (stream : Option Nat) (pinSet : Nat) : List Taker :=
  ((List.range 64).filterMap fun d => (s.mbx.rings.getD d none).bind fun r =>
    if takesRecord r.types r.streams r.pins type stream pinSet then some { udp := false, id := d, born := r.born, types := r.types } else none)
  ++ (List.range 64).filterMap fun d => (s.mbx.udp.getD d none).bind fun u =>
    if takesRecord u.types u.streams u.pins type stream pinSet then some { udp := true, id := d, born := u.born, types := u.types } else none

/-- Deliver a record to one of its takers, unless that subscription has ended (R425). -/
def deliverOne (type : Nat) (stream : Option Nat) (bs : List Byte) (t : Taker) (s : State) : State :=
  if t.udp then match s.mbx.udp.getD t.id none with
    | some u => if u.born = t.born then deliverUdp t.id u (recordFor t.types type bs) s else s
    | none => s
  else match s.mbx.rings.getD t.id none with
    | some r => if r.born = t.born then deliverRing t.id r stream (recordFor t.types type bs) s else s
    | none => s

/-- Deliver a record to every ring and destination that takes it (R424 to R429). -/
def deliver (type : Nat) (stream : Option Nat) (ts : List Taker) (bs : List Byte) (s : State) : State :=
  ts.foldl (fun s t => deliverOne type stream bs t s) s

/-- A record waits in a destination's backlog: a datagram with its SEQ does (R207, R208). -/
def waitsAt (s : State) (x : Nat × Nat) : Bool :=
  match s.mbx.udp.getD x.1 none with | some u => u.backlog.any fun g => field g 4 4 == x.2 | none => false

/-- The records that are not yet written to some UDP destination that takes them (R440). -/
def unsentRecords (s : State) : List UnsentRecord := s.mbx.unsent.filter fun r => r.dests.any (waitsAt s)

/-- The UDP destinations among the takers in whose backlog the record just delivered waits. -/
def owedTo (ts : List Taker) (s : State) : List (Nat × Nat) :=
  (ts.filter (·.udp)).filterMap fun t => (s.mbx.udp.getD t.id none).bind fun u =>
    let x := (t.id, (u.seq + 2 ^ 32 - 1) % 2 ^ 32)
    if waitsAt s x then some x else none

/-- The bytes that the journal holds (R439). -/
def journalBytes (j : List JournalRec) : Nat := (j.map fun r => r.bytes.length).sum

/-- Evict the oldest records until at most `room` bytes are held. -/
def evict (room : Nat) : List JournalRec → List JournalRec
  | [] => []
  | r :: l => if journalBytes (r :: l) ≤ room then r :: l else evict room l

/-- A record enters the journal (R439). -/
def journalAdd (r : JournalRec) (s : State) : State :=
  { s with journal := evict (s.power.ledger.jsizeMiB * 2 ^ 20 - r.bytes.length) s.journal ++ [r] }

/-- A record is emitted: into the journal and to its subscribers (R437, R439); till it has left every UDP destination's backlog it is not
acknowledged (R440). -/
def emitRecord (type : Nat) (stream : Option Nat) (frame : Nat) (ts : List Taker) (bs : List Byte) (s : State) : State :=
  let s := deliver type stream ts bs (journalAdd { stream := stream.getD 0xFF, frame := frame, bytes := bs, recovered := false } s)
  let r : UnsentRecord := { stream := stream.getD 0xFF, frame := frame, bytes := bs, dests := owedTo ts s }
  updMbx (fun m => { m with unsent := unsentRecords s ++ [r].filter fun r => !r.dests.isEmpty }) s

/-- The bytes of the unacknowledged records: those formed that wait for their emission, and those that wait in a backlog (R440). -/
def unackedBytes (s : State) : Nat :=
  ((s.streams.filterMap id).map fun x => (x.formed.map fun r => r.bytes.length).sum).sum
    + ((unsentRecords s).map fun r => r.bytes.length).sum

/-- A notice record with its entries (R436): formed and emitted at once (R437), where the unacknowledged records with it stay within 262,144
bytes (R440) and no reset keeps Quinbuar from host memory; else it waits, behind those that wait already. -/
def noticeRecord (stream : Option Nat) (pinSet : Nat) (es : List Event) (s : State) : State :=
  let h : RecordHead := { type := 2, reason := 0, stream := stream.getD 0xFF, frame := 0, stamp := nowNs s, flags := 0,
                          status := 0, digest := 0 }
  let bs := recordBytes s h [] [] es
  if s.mbx.heldNotices.isEmpty && !islandFenced s 2 && decide (unackedBytes s + bs.length ≤ 262144) then
    emitRecord 2 stream 0 (takersOf s 2 stream pinSet) bs s
  else updMbx (fun m => { m with heldNotices := m.heldNotices ++ [{ stream := stream, pins := pinSet, entries := es }] }) s

/-- The notice records that wait are formed, as far as they can be (R440). -/
def formHeld (s : State) : State :=
  s.mbx.heldNotices.foldl (fun s x => noticeRecord x.stream x.pins x.entries s) (updMbx (fun m => { m with heldNotices := [] }) s)

/-- The stream-state notice of R194: 0 lost, 1 recovered, and the reconnection attempt; a loss of status 0x0102 carries the
server's code behind them (R209; its place is DESIGN CHOICE, log 178). -/
def streamState (n status state attempt code : Nat) (s : State) : State :=
  noticeRecord (some n) 0 [{ kind := 0x0018, status := status,
                             data := leBytes 1 state ++ leBytes 2 attempt ++ (if status = 0 then [] else leBytes 2 code) }] s
end Sys2Proof.Machine
end

