-- ==== Sys2Proof/Machine/Pages.lean ====
section
/-! DEFINITION. Aviary pages (R155 to R163): allocation, sharing, and the mapping of host buffers (R302). The bytes of a page lie where its
tier says: in the hot tier, in the warm carve-out of DRAM or in the cold region of the host. -/

namespace Sys2Proof.Machine

/-- The frames of the tiers (R154). -/
def hotFrames : Nat := 4096
def warmFrames : Nat := 4194304

/-- The cold tier's frames (R162). -/
def coldFrames (s : State) : Nat := match s.aviary.cold with | some (_, size) => size / 4096 | none => 0

/-- The base of the hot tier (R302). -/
def hotBase : Nat := 0x000008000000

/-- The beat of the running score (R37). -/
def curBeat (s : State) : Nat := (nowNs s - s.score.epoch) / 64

/-- The `g` frames of a page that starts at frame `f`. -/
def runOf (g f : Nat) : List Nat := (List.range g).map (f + ·)

/-- A page descriptor as R159 lays it out: TIER, COUNT, POISON, PIN, FRAME and LASTUSE in 128 bits. -/
def pageWord (p : Page) : Nat :=
  (match p.tier with | .hot => 0 | .warm => 1 | .cold => 2 | .moving => 3) + p.count % 256 * 2 ^ 2
    + (if p.poison then 2 ^ 10 else 0) + (if p.pins = 0 then 0 else 2 ^ 11) + p.frame % 2 ^ 32 * 2 ^ 32
    + p.lastUse % 2 ^ 64 * 2 ^ 64

/-- A page whose bytes are in hot frames: hot, or being spilled from them, or being filled into them (R162). -/
def pageHolds (s : State) (x : Nat × Page) : Bool :=
  x.2.tier == .hot || (x.2.tier == .moving && (!s.aviary.spills.contains x.1 || x.2.source == .hot))

/-- The hot frames in use. -/
def hotUsed (s : State) : List Nat :=
  ((s.aviary.pages.filter (pageHolds s)).map fun x => runOf (kvGran s) x.2.frame).flatten

/-- The hot frames that are free (R164). -/
def hotFree (s : State) : Nat := hotFrames - (hotUsed s).length

/-- The backing frames in use in one tier: a page that nothing maps any more has lost its reservation (R86, R161). -/
def backUsed (s : State) (cold : Bool) : List Nat :=
  ((s.aviary.pages.filter fun x => x.2.backCold == cold && x.2.count != 0).map fun x => runOf (kvGran s) x.2.backFrame).flatten

/-- The lowest run of `g` frames outside `used`: it starts at 0 or right behind a used frame. -/
def freeRun (used : List Nat) (g : Nat) : Nat :=
  (((0 :: used.map (· + 1)).filter fun f => (runOf g f).all fun x => !used.contains x).min?).getD 0

/-- The lowest number that is no key of a table. -/
def freeKey {α : Type} (t : Tab α) : Nat :=
  let ks := t.map (·.1)
  (((0 :: ks.map (· + 1)).filter fun k => !ks.contains k).min?).getD 0

/-- The general-window range through which the device's own units reach the cold tier, and the leaves that Quinbuar sets up for a
host buffer (R302): from `win` on, one 2 MiB leaf for each 2 MiB of host memory that the buffer touches; their places are DESIGN CHOICE
(log 174). -/
def coldWindow : Nat := 0x803000000000
def hostLeaves (win base len : Nat) : List (Nat × Nat) :=
  if len = 0 then []
  else (List.range ((base + len + 0x1FFFFF) / 0x200000 - base / 0x200000)).map fun i =>
    ((win - 0x800000000000) / 0x200000 + i, 0x400000000000 + (base / 0x200000 + i) * 0x200000 + 6)

/-- Where a mapped host buffer begins in its window range. -/
def windowOf (win base : Nat) : Nat := win + base % 0x200000

/-- Change leaves of the level-1 table: each by one store, with an invalidation of the range (R316). -/
def putLeaves (win len : Nat) (leaves : List (Nat × Nat)) (s : State) : State :=
  tlbDrop win (len + 0x200000) (leaves.foldl (fun s x =>
    writePhys .control (cellsAt (s.mem.l1Base + 8 * x.1) (leBytes 8 x.2) false) s) s)

/-- Quinbuar maps a host buffer, or removes its mapping (R302). -/
def mapHost (win base len : Nat) (s : State) : State := putLeaves win len (hostLeaves win base len) s
def unmapHost (win base len : Nat) (s : State) : State :=
  putLeaves win len ((hostLeaves win base len).map fun x => (x.1, 0)) s

/-- Where a general-window address leads the device's own units (R302, R312, R313): the checks in their order, with the status of the
first that fails. -/
def ownTarget (s : State) (write : Bool) (a : Nat) : Except Nat Nat :=
  match translate s a with
  | none => .error 0x0601
  | some (e, big) =>
    let h := tteTarget e + a % (if big then 0x200000 else 4096)
    if write && !tteW e then .error 0x0602
    else if regionOf h == .host || (backed s h && regionOf h != .hot) then .ok h
    else .error 0x0603

/-- The host address behind a general-window address, through its leaf (R302, R313). -/
def hostOf (s : State) (write : Bool) (a : Nat) : Option Nat :=
  match ownTarget s write a with
  | .ok h => if regionOf h == .host then some (h - 0x400000000000) else none
  | .error _ => none

/-- A byte that the device's own unit reads through the general window, with its mark; zero where the translation fails (R313). -/
def ownByte (s : State) (a : Nat) : Byte × Bool :=
  match ownTarget s false a with
  | .ok h =>
    if regionOf h == .host then
      (memGet s.mem.host (h - 0x400000000000), (tabGet ((h - 0x400000000000) / 64) s.mem.hostBad).isSome)
    else (unitBytes s h 1).headD (0, false)
  | .error _ => (0, false)

/-- The address of a frame: in the hot tier, in the warm carve-out, or in the mapping of the cold region (R302). -/
def frameAddr (s : State) (t : Tier) (frame : Nat) : Nat :=
  match t with
  | .cold => windowOf coldWindow (match s.aviary.cold with | some (b, _) => b | none => 0) + frame * 4096
  | .warm => s.aviary.warmBase + frame * 4096
  | _ => hotBase + frame * 4096

/-- The class of page traffic: to and from the cold tier BE, else that of the score's ops (R273). -/
def tierClass (t : Tier) : ReqClass := match t with | .cold => .be | _ => .lc

/-- The bytes of a frame run with their marks (R305, R325, R332); what a failed translation does not reach reads as zeros (R313). -/
def frameData (s : State) (t : Tier) (frame : Nat) : List (Byte × Bool) :=
  let a := frameAddr s t frame
  let n := 4096 * kvGran s
  if t = .cold then (List.range n).map fun i => ownByte s (a + i) else unitBytes s a n

/-- The status of the first address of a range at which the device's own access fails in translation (R313). -/
def windowFault (s : State) (write : Bool) (a n : Nat) : Option Nat :=
  (List.range n).findSome? fun i => match ownTarget s write (a + i) with | .error st => some st | .ok _ => none

/-- The device's own access to a range of a window fails in translation: logged with the status of the check (R313). -/
def noteWindow (write : Bool) (a n : Nat) (s : State) : State :=
  let pages := windowPages ((List.range (n / 4096 + 1)).map fun i => min (a + 4096 * i) (a + n - 1))
  let s := pages.foldl (fun s p => tlbFill (tlbGroup 56) p s) s
  match windowFault s write a n with
  | some st => logErr st 1 0 s { arg0 := a }
  | none => s

/-- What reading a frame run leaves behind. -/
def noteFrame (t : Tier) (frame : Nat) (s : State) : State :=
  let a := frameAddr s t frame
  let n := 4096 * kvGran s
  if t = .cold then noteWindow false a n s else unitRead (tierClass t) a n s

/-- Write bytes with their marks through the mapping of a host buffer (R302). -/
def windowWrite (a : Nat) (bs : List (Byte × Bool)) (s : State) : State :=
  let s := noteWindow true a bs.length s
  let s := writePhys .be (bs.zipIdx.filterMap fun x => match ownTarget s true (a + x.2) with
    | .ok h => if regionOf h == .host then none else some { addr := h, val := x.1.1, mark := x.1.2 }
    | .error _ => none) s
  writeHost (bs.zipIdx.filterMap fun x => (hostOf s true (a + x.2)).map fun h => { addr := h, val := x.1.1, mark := x.1.2 }) s

/-- Write the bytes of a frame run with their marks. -/
def putFrame (t : Tier) (frame : Nat) (bs : List (Byte × Bool)) (s : State) : State :=
  let a := frameAddr s t frame
  if t = .cold then windowWrite a bs s
  else writePhys (tierClass t) (bs.zipIdx.map fun x => { addr := a + x.2, val := x.1.1, mark := x.1.2 }) s

/-- Update a page descriptor. -/
def updPage (d : Nat) (f : Page → Page) (s : State) : State :=
  updAviary (fun a => { a with pages := tabUpd d f a.pages }) s

/-- The tier of a page's reserved backing (R163). -/
def backTier (p : Page) : Tier := if p.backCold then .cold else .warm

/-- Where a page's bytes are now. -/
def pageAt (s : State) (d : Nat) (p : Page) : Tier × Nat :=
  match p.tier with
  | .hot => (.hot, p.frame)
  | .moving => if s.aviary.spills.contains d then (p.source, p.frame) else (backTier p, p.backFrame)
  | _ => (backTier p, p.backFrame)

/-- A new page for an owner of R163 with COUNT 1: in the hot tier while more than 64 hot frames are free, else in its
reservation (R164). -/
def newPage (owner : Nat) (s : State) : Nat × State :=
  let cold := match tabGet owner s.aviary.reserved with | some (c, _) => c | none => false
  let d := freeKey s.aviary.pages
  let back := freeRun (backUsed s cold) (kvGran s)
  let hot := decide (64 < hotFree s)
  let p : Page := { tier := if hot then .hot else if cold then .cold else .warm, count := 1, poison := false, pins := 0,
                    frame := if hot then freeRun (hotUsed s) (kvGran s) else back, lastUse := curBeat s,
                    backCold := cold, backFrame := back, source := .hot, prefetched := false, cells := 0, fillStatus := 0 }
  (d, updAviary (fun a => { a with pages := tabPut d p a.pages }) s)

/-- A page access (R159): LASTUSE is its beat, and a prefetched page has been used (R86). -/
def usePage (d : Nat) (s : State) : State := updPage d (fun p => { p with lastUse := curBeat s, prefetched := false }) s

/-- Release one mapping of a page: at COUNT 0 the page, its frame and its backing are free (R161); a page that a prefetch moved and
that nothing has used keeps its hot frame until it is spilled, which drops it (R86). -/
def releasePage (d : Nat) (s : State) : State :=
  match tabGet d s.aviary.pages with
  | none => s
  | some p =>
    if p.count ≤ 1 then
      if p.prefetched || p.tier == .moving then updPage d (fun p => { p with count := 0 }) s
      else updAviary (fun a => { a with pages := tabDel d a.pages, fills := setDel d a.fills, spills := setDel d a.spills }) s
    else updPage d (fun p => { p with count := p.count - 1 }) s

/-- The window range of a sequence's page slot is invalidated in the TLBs (R156, R316). -/
def dropSlot (key : Nat) (s : State) : State :=
  tlbDrop (0x804000000000 + key / 4096 * 0x1000000 + (key / 256 % 16 * 256 + key % 256) * kvGran s * 4096) (4096 * kvGran s) s

/-- Map a page slot to a descriptor: one store, and an invalidation of its range (R316). -/
def mapPage (key d : Nat) (s : State) : State :=
  dropSlot key (updAviary (fun a => { a with maps := tabPut key d a.maps }) s)

/-- Unmap a page slot and release its page. -/
def unmapPage (key : Nat) (s : State) : State :=
  match tabGet key s.aviary.maps with
  | none => s
  | some d => releasePage d (dropSlot key (updAviary (fun a => { a with maps := tabDel key a.maps }) s))

/-- The owner of R163 that sequence `q` draws on. -/
def seqOwner (s : State) (q : Nat) (x : Seq) : Nat :=
  match x.kind with
  | .track => x.stream
  | .context => 128 + x.stream
  | .gallery => 256 + x.stream
  | .prompt => 384 + (posOf (fun o : Option Prompt => o.bind (·.seq) == some q) s.aviary.prompts).getD 0

/-- The page slots of a sequence: prefix and own pages of every layer (R156, R158). -/
def seqKeys (s : State) (q : Nat) : List Nat :=
  (s.aviary.maps.filter fun x => x.1 / 4096 == q).map (·.1)

/-- End a sequence: every page is released (R161), and no TLB holds an entry of its range any more (R316). -/
def endSeq (q : Nat) (s : State) : State :=
  let s := (seqKeys s q).foldl (fun s k => unmapPage k s) s
  tlbDrop (0x804000000000 + q * 0x1000000) 0x1000000 (updAviary (fun a => { a with seqs := tabDel q a.seqs }) s)

/-- Frames free to reserve in a tier (R163). -/
def unreserved (s : State) (cold : Bool) : Nat :=
  (if cold then coldFrames s else warmFrames)
    - ((s.aviary.reserved.filter fun x => x.2.1 == cold).map fun x => x.2.2).sum

/-- Reserve `n` frames for an owner: the warm tier first, the cold tier where it may (R163); none when neither has room. -/
def reserve (owner n : Nat) (mayCold : Bool) (s : State) : Option State :=
  let put (cold : Bool) := updAviary (fun a => { a with reserved := tabPut owner (cold, n) a.reserved }) s
  if n ≤ unreserved s false then some (put false)
  else if mayCold && decide (n ≤ unreserved s true) then some (put true)
  else none

/-- Drop an owner's reservation. -/
def unreserve (owner : Nat) (s : State) : State :=
  updAviary (fun a => { a with reserved := tabDel owner a.reserved }) s

/-- Note that an op waits for a page: a demand fill is wanted (R162). -/
def wantPage (d : Nat) (s : State) : State := updAviary (fun a => { a with fills := setAdd d a.fills }) s

end Sys2Proof.Machine
end

