-- ==== Sys2Proof/Machine/Tiers.lean ====
section
/-! DEFINITION. The transfers of pages between the tiers (R162 to R166): demand fills and spills by movers that carry the bytes through
Jasper cells of the reserve floor (R165, R338, R341, R357); what is copied and written goes through the hot tier (R160 to R162). -/

namespace Sys2Proof.Machine

/-- The pool that serves spill and fill movers: the lowest one with a reserve floor of 1,024 cells or more (R337; DESIGN CHOICE, log 195). -/
def moverPool (s : State) : Option Nat :=
  posOf (fun p : Pool => decide (0 < p.size ∧ 1024 ≤ p.floor)) s.pools

/-- The cells that a transfer keeps outstanding: as many as the page needs, at most 32 (R337; log 195). -/
def transferCells (s : State) : Nat := min 32 (ceilDiv (4096 * kvGran s) 248)

/-- A transfer takes its cells from account 255 with the reserve flag (R338, R341); none where it must wait for them. Where no pool
serves movers it carries its bytes without cells. -/
def takeTransfer (s : State) : Option (Nat × State) :=
  match moverPool s with
  | none => some (0, s)
  | some q =>
    if poolFree s q < transferCells s then none
    else match allocOp q 255 (transferCells s) true 0 s with
      | (0, h, s) => some (h, s)
      | _ => none

/-- A transfer that finds too few free cells waits; 0x0638 is logged once for the wait (R341). -/
def starve (d : Nat) (s : State) : State :=
  if s.aviary.starved.contains d then s
  else logErr 0x0638 39 0 (updAviary (fun a => { a with starved := setAdd d a.starved }) s) { arg0 := (moverPool s).getD 0 }

/-- The first bytes of a page lie in the transfer's cells (R355, R357). -/
def loadTransfer (cls : ReqClass) (head : Nat) (bs : List (Byte × Bool)) (s : State) : State :=
  let cells := chainCells 32 head s
  let parts := chunks 248 cells.length bs
  (cells.zip parts).foldl (fun s x => fillCell cls x.1 (x.2.map (·.1)) (x.2.map (·.2)) s) s

/-- A page begins to move out of its tier with the cells of its transfer (R162, R164). -/
def beginTransfer (d : Nat) (f : Page → Page) (p : Page) (h : Nat) (u : State) : State :=
  let u := updAviary (fun a => { a with starved := setDel d a.starved }) u
  let (t, from_) := (p.tier, if p.tier = .hot then p.frame else p.backFrame)
  let data := frameData u t from_
  updPage d (fun p => { f p with tier := .moving, source := t, cells := h })
    (loadTransfer (tierClass t) h data (readingFor (.page d) (noteFrame t from_) u))

/-- A page begins to move (R162, R164), or waits for cells (R341). -/
def startTransfer (d : Nat) (f : Page → Page) (s : State) : State :=
  match tabGet d s.aviary.pages, takeTransfer s with
  | some p, some (h, u) => beginTransfer d f p h u
  | some _, none => starve d s
  | none, _ => s

/-- A page begins to move within a command that needs it in the hot tier; a wait for cells would take time only, and the transfer goes
without (DESIGN CHOICE, log 220). -/
def moveNow (d : Nat) (f : Page → Page) (s : State) : State :=
  match tabGet d s.aviary.pages with
  | some p => match takeTransfer s with
    | some (h, u) => beginTransfer d f p h u
    | none => beginTransfer d f p 0 s
  | none => s

/-- The bytes of a page at the end of its transfer, and the first of its cells that fails its check (R335, R358): what the cells hold, and
behind it what they carried meanwhile. -/
def transferData (s : State) (p : Page) (t : Tier) (frame : Nat) : List (Byte × Bool) × Option Nat :=
  if p.cells = 0 then (frameData s t frame, none)
  else
    let r := readChain 32 p.cells s
    (r.bytes.zip r.marks ++ (frameData s t frame).drop r.bytes.length, r.bad)

/-- The cells of a transfer are released (R338). -/
def dropTransfer (d : Nat) (p : Page) (s : State) : State :=
  updPage d (fun p => { p with cells := 0 }) (freeChain p.cells s)

/-- A page with its frame in the hot tier: the lowest free run (R164). -/
def toHot (s : State) (p : Page) : Page := { p with frame := freeRun (hotUsed s) (kvGran s), lastUse := curBeat s }

/-- A page moves toward the hot tier: it takes the lowest free run of hot frames (R164). -/
def startFill (d : Nat) (s : State) : State := startTransfer d (toHot s) s

/-- A cold transfer that fails marks its page (R166): no request may leave (R379), or PCIe ended it in an error. -/
def coldFails (s : State) (p : Page) (ok : Bool) : Bool := p.backCold && (!ok || !canAsk s)

/-- The status that marks a page: a cold transfer that failed (R166), or a cell that failed its check (R358). -/
def transferStatus (cold : Bool) (bad : Option Nat) : Nat := if cold then 0x0504 else if bad.isSome then 0x0640 else 0

/-- A page that its transfer has marked is logged (R166, R358); behind a failed cold transfer stands a host request that failed (R314,
R379). -/
def logTransfer (st page : Nat) (bad : Option Nat) (s : State) : State :=
  if st = 0 then s
  else
    let s := if st = 0x0504 then logErr 0x0604 2 0 s { arg0 := page, poison := true } else s
    logErr st 38 0 s { arg0 := bad.getD page, poison := true }

/-- A fill ends (R162, R166): the page's bytes are in the hot tier; a failed one marks it POISON. A page that nothing maps is gone. -/
def endFill (page : Nat) (p : Page) (ok : Bool) (s : State) : State :=
  let cold := coldFails s p ok
  let (bs, bad) := transferData s p (backTier p) p.backFrame
  let st := transferStatus cold bad
  let s := dropTransfer page p (updAviary (fun a => { a with fills := setDel page a.fills }) s)
  if p.count = 0 ∧ !p.prefetched then updAviary (fun a => { a with pages := tabDel page a.pages }) s
  else
    let (bs, s) := if st = 0 then (bs, s) else
      let (free, s) := freeBytes (4096 * kvGran s) s
      (free.map fun b => (b, true), s)
    logTransfer st page (if cold then none else bad)
      (updPage page (fun p => { p with tier := .hot, poison := p.poison || st != 0, fillStatus := if st = 0 then p.fillStatus else st })
        (putFrame .hot p.frame bs s))

/-- A cold transfer whose host-window requests cannot leave fails as it begins (R314, R379). -/
def failsNow (s : State) (page : Nat) : Bool :=
  match tabGet page s.aviary.pages with | some p => p.tier == .moving && coldFails s p true | none => false

/-- PAGE_FILL_COMPLETE (R162, R166): a page that is still being spilled has no fill yet. -/
def execPageFillComplete (page : Nat) (ok : Bool) (s : State) : Res :=
  match tabGet page s.aviary.pages with
  | none => done s
  | some p => doneIf (p.tier == .moving && !s.aviary.spills.contains page) (endFill page p ok s) s

/-- The page that a spill takes: the unpinned page of a tier with the smallest LASTUSE, ties to the lower frame (R164). -/
def spillChoice (s : State) (t : Tier) : Option (Nat × Page) :=
  (sortBy (fun a b : Nat × Page => decide (a.2.lastUse < b.2.lastUse)
      || (a.2.lastUse == b.2.lastUse && decide (a.2.frame < b.2.frame)))
    (s.aviary.pages.filter fun x => x.2.tier == t && x.2.pins == 0 && (t == .hot || x.2.backCold))).head?

/-- A spill begins: the page moves from its tier (R164). -/
def startSpill (d : Nat) (s : State) : State :=
  let t := startTransfer d id s
  match tabGet d t.aviary.pages with
  | some p => if p.tier = .moving then updAviary (fun a => { a with spills := setAdd d a.spills }) t else t
  | none => t

/-- A fill begins; from the cold tier it fails at once where no request may leave (R379). -/
def fillIn (d : Nat) (s : State) : State :=
  let t := startFill d s
  match tabGet d t.aviary.pages with | some p => if failsNow t d then endFill d p false t else t | none => t

/-- DEMAND_FILL (R162, R164): a fill that is wanted takes free hot frames and runs. -/
def execDemandFill (page : Nat) (s : State) : Res :=
  match tabGet page s.aviary.pages with
  | none => done s
  | some p =>
    doneIf (s.aviary.fills.contains page && (p.tier == .warm || p.tier == .cold) && decide (kvGran s ≤ hotFree s)) (fillIn page s) s

/-- A page that left the hot tier unused after a prefetch counts (R86). -/
def countUnused (p : Page) (s : State) : State :=
  updAviary (fun a => { a with unused := if p.prefetched then a.unused + 1 else a.unused }) s

/-- A spill ends (R164, R166): the bytes are in the page's reserved frame; a failed one marks the page POISON. A page that nothing maps
is dropped (R86). -/
def endSpill (page : Nat) (p : Page) (ok : Bool) (s : State) : State :=
  let cold := coldFails s p ok
  let (bs, bad) := transferData s p p.source p.frame
  let st := transferStatus cold bad
  let s := dropTransfer page p (countUnused p (updAviary (fun a => { a with spills := setDel page a.spills }) s))
  if p.count = 0 then updAviary (fun a => { a with pages := tabDel page a.pages }) s
  else
    let s := if st = 0 then putFrame (backTier p) p.backFrame bs s else s
    logTransfer st page (if cold then none else bad)
      (updPage page (fun p => { p with tier := backTier p, frame := p.backFrame, poison := p.poison || st != 0, prefetched := false,
                                       fillStatus := if st = 0 then p.fillStatus else st }) s)

/-- A spill begins; to the cold tier it fails at once where no request may leave (R379). -/
def spillOut (d : Nat) (s : State) : State :=
  let t := startSpill d s
  match tabGet d t.aviary.pages with
  | some p => if failsNow t d && t.aviary.spills.contains d then endSpill d p false t else t
  | none => t

/-- PAGE_SPILL (R164): while fewer than 128 hot frames are free; in the warm tier while fewer than 1,024 are free and pages
with cold reservations lie there. -/
def execPageSpill (s : State) : Res :=
  if hotFree s < 128 then
    match spillChoice s .hot with
    | some x => done (spillOut x.1 s)
    | none => done s
  else if warmFrames - (backUsed s false).length < 1024 then
    match spillChoice s .warm with
    | some x => done (spillOut x.1 s)
    | none => done s
  else done s

/-- PAGE_SPILL_COMPLETE (R164, R166). -/
def execPageSpillComplete (page : Nat) (ok : Bool) (s : State) : Res :=
  match tabGet page s.aviary.pages with
  | none => done s
  | some p => doneIf (p.tier == .moving && s.aviary.spills.contains page) (endSpill page p ok s) s

/-- A transfer of a page that runs comes to its end. -/
def endTransfer (d : Nat) (s : State) : State :=
  match tabGet d s.aviary.pages with
  | some p =>
    if p.tier != .moving then s else if s.aviary.spills.contains d then endSpill d p true s else endFill d p true s
  | none => s

/-- The hot page that makes room within a command: that of R164, or, where pins hold every one, which R165 keeps a score from, the one
with the smallest LASTUSE (DESIGN CHOICE, log 220). -/
def roomChoice (s : State) : Option Nat :=
  ((spillChoice s .hot).map (·.1)).or
    (((sortBy (fun a b : Nat × Page => decide (a.2.lastUse < b.2.lastUse)) (s.aviary.pages.filter fun x => x.2.tier == .hot)).head?).map
      (·.1))

/-- A spill that begins and ends within a command. -/
def spillNow (d : Nat) (s : State) : State :=
  endTransfer d (updAviary (fun a => { a with spills := setAdd d a.spills }) (moveNow d id s))

/-- Room for one more page in the hot tier: every transfer that runs ends, and where frames are still short a page is spilled. -/
def hotRoom (s : State) : State :=
  if kvGran s ≤ hotFree s then s
  else
    let s := ((s.aviary.pages.filter fun x => x.2.tier == .moving).map (·.1)).foldl (fun s d => endTransfer d s) s
    if kvGran s ≤ hotFree s then s
    else match roomChoice s with
      | some x => spillNow x s
      | none => s

/-- What the Aviary does so that it reads and writes a page in the hot tier only (R162): transfers in its way end, the page with the
smallest LASTUSE makes room where there is none, and the page is filled. It costs time only (DESIGN CHOICE, log 220). -/
def hotNow (d : Nat) (s : State) : State :=
  let s := endTransfer d s
  match tabGet d s.aviary.pages with
  | none => s
  | some p =>
    if p.tier = .hot then s
    else
      let s := hotRoom s
      endTransfer d (moveNow d (toHot s) s)

/-- Write a page's bytes in the hot tier (R162). -/
def putPage (d : Nat) (bs : List (Byte × Bool)) (s : State) : State :=
  let s := hotNow d s
  match tabGet d s.aviary.pages with
  | some p => putFrame .hot p.frame bs s
  | none => s

/-- Write bytes of a page in the hot tier, by their offsets in it (R162). -/
def patchPage (p : Page) (cs : List Cell) (s : State) : State :=
  writePhys .lc (cs.map fun c => { c with addr := hotBase + p.frame * 4096 + c.addr }) s

/-- Copy a page into a new one for an owner, bytes and poison marks alike, in the hot tier (R160 to R162). -/
def copyPage (owner d : Nat) (s : State) : Nat × State :=
  let s := hotNow d s
  match tabGet d s.aviary.pages with
  | none => newPage owner s
  | some p =>
    let bs := frameData s .hot p.frame
    let (e, s) := newPage owner (noteFrame .hot p.frame s)
    (e, updPage e (fun q => { q with poison := p.poison, fillStatus := p.fillStatus }) (putPage e bs s))

/-- A write to a page slot: a page that others share is copied first (R161). -/
def ownPage (seq key : Nat) (s : State) : State :=
  match tabGet key s.aviary.maps with
  | none => s
  | some d => match tabGet d s.aviary.pages with
    | none => s
    | some p =>
      if p.count ≤ 1 then s
      else
        let owner := match tabGet seq s.aviary.seqs with | some x => seqOwner s seq x | none => 0
        let (e, s) := copyPage owner d s
        mapPage key e (updPage d (fun p => { p with count := p.count - 1 }) s)

/-- Share a whole page with a new sequence, or copy it when COUNT reads 255 (R160). -/
def sharePage (owner d : Nat) (s : State) : Nat × State :=
  match tabGet d s.aviary.pages with
  | none => (d, s)
  | some p =>
    if p.count < 255 then (d, updPage d (fun p => { p with count := p.count + 1 }) s)
    else
      let (e, s) := copyPage owner d s
      (e, updAviary (fun a => { a with overflowCopies := a.overflowCopies + 1 }) s)

end Sys2Proof.Machine
end

