-- ==== Sys2Proof/Machine/Access.lean ====
section
/-! DEFINITION. What an op finds and leaves at a device address: targets of the map of R302 and of the translated windows (R311 to R315),
what it waits for (R161, R162, R314), bytes that not every unit sees (R18), deferred-faulty bytes (R85). -/

namespace Sys2Proof.Machine

/-- Where a device address leads: `bad` is the status that has marked a page, or 0 (R166). -/
inductive Target where
  | phys (a : Nat) (bad : Nat)
  | host (a : Nat)
  | token (seq off : Nat)
  | wait (page : Nat)
  | shared (seq key : Nat)
  | fault (status : Nat)
  deriving DecidableEq, Repr

/-- The target of a leaf (R313, check 5); a fenced Gatehouse takes no request (R369). -/
def leafTarget (s : State) (a : Nat) : Target :=
  if regionOf a == .host then if resetFenced s 2 then .fault 0x0011 else .host (a - 0x400000000000)
  else if backed s a && regionOf a != .hot then .phys a 0
  else .fault 0x0603

/-- The status that has marked a page (R166, R358), or 0. -/
def pageBad (p : Page) : Nat := if !p.poison then 0 else if p.fillStatus = 0 then 0x0504 else p.fillStatus

/-- The target of a page reference (R315): a page outside the hot tier is waited for, a shared one is copied before it is written. -/
def pageTarget (s : State) (write : Bool) (a e : Nat) : Target :=
  let x := a - 0x804000000000
  match tabGet (ttePage e) s.aviary.pages, granuleOf (kvGran s) (x % 0x1000000 / 4096) with
  | some p, some (l, slot, _) =>
    if p.tier != .hot then .wait (ttePage e)
    else if write && decide (1 < p.count) then .shared (x / 0x1000000) (mapKey (x / 0x1000000) l slot)
    else .phys (hotBase + (p.frame + tteGranule e) * 4096 + a % 4096) (pageBad p)
  | _, _ => .fault 0x0510

/-- An access to the windows (R311 to R313, R315): the checks in their order. -/
def resolveWindow (s : State) (write : Bool) (a : Nat) : Target :=
  match translate s a with
  | none => .fault (if regionOf a == .sequence then 0x0510 else 0x0601)
  | some (e, big) =>
    let x := a - 0x804000000000
    if write && !tteW e then .fault 0x0602
    else if tteType e = 3 && !big then pageTarget s write a e
    else if regionOf a == .sequence && decide (0xF00000 ≤ x % 0x1000000) then .token (x / 0x1000000) (x % 0x1000000)
    else leafTarget s (tteTarget e + a % (if big then 0x200000 else 4096))

/-- Where an address leads for an op whose transfer starts at `start` (R303): it may not leave the range it started in; a
request to a fenced island is answered TARGET_RESET (R369). -/
def resolve (s : State) (write : Bool) (start a : Nat) : Target :=
  if regionOf a != regionOf start then .fault 0x0603
  else match regionOf a with
    | .terrace => if resetFenced s 39 then .fault 0x0011 else .phys a 0
    | .orangery => if resetFenced s (addrSource s a).1 then .fault 0x0011 else .phys a 0
    | .pergola => if resetFenced s (addrSource s a).1 then .fault 0x0011 else .phys a 0
    | .general => if resetFenced s 39 then .fault 0x0011 else resolveWindow s write a
    | .sequence => if resetFenced s 38 || resetFenced s 39 then .fault 0x0011 else resolveWindow s write a
    | _ => .fault 0x0603

/-- What an op waits for before it starts: a page in the hot tier (R162), a host line (R314), its own copy of a shared page (R161). -/
inductive Wait where
  | page (d : Nat)
  | host (line : Nat)
  | own (seq key : Nat)
  deriving DecidableEq, Repr

/-- What a read of one byte finds: `seen` is the address as the requester gave it. -/
structure ByteRead where
  val : Byte
  seen : Nat
  addr : Nat
  poison : Bool
  deferred : Option Nat
  error : Option Nat
  wait : Option Wait
  deriving DecidableEq, Repr

/-- The status that a deferred-faulty byte names (R85). -/
def deferredAt (s : State) (a : Nat) : Option Nat :=
  (tabGet a s.mem.deferred).bind fun id => (s.mem.faults.find? fun f => f.id == id).map (·.status)

/-- A reader that is no score lane. -/
def noLane : Nat := 56

/-- The byte that the unit of lane `j` finds at a physical address (R18): of a byte that another unit has written and whose completion
has signalled no token that the lane has waited on, any value since the lane last saw it, which is open (log 169). -/
def mixedByte (j : Nat) (s : State) (p : Nat) : Byte :=
  match tabGet p s.mem.unsettled with
  | some u =>
    if u.lane = j ∨ u.seen.contains j then deviceByte s p
    else u.olds.getD (Config.staleRead s.mem.mixes p) (deviceByte s p)
  | none => deviceByte s p

/-- Where a sequence's tag blocks and token records lie in DRAM (R156). -/
def tokenAddr (q off : Nat) : Nat := tagBlocks + q * 0xA0000 + (off - 0xF00000)

/-- The outcomes of R369 reach an op as a job fault, where an error of the link only marks the data (R314, R370). -/
def lostReply (st : Nat) : Option Nat := if st = 0x0011 ∨ st = 0x0012 then some st else none

/-- A read of one byte that leads to a target; a byte of a page that a failed cold transfer has marked faults (R166), and
so does a word with an uncorrectable error (R305). A host line that has not arrived is waited for (R314). -/
def readTarget (j : Nat) (s : State) (a : Nat) : Target → ByteRead
  | .phys p m =>
    if backed s p then
      { val := mixedByte j s p, seen := a, addr := p, poison := m != 0 || poisonAt s p, deferred := deferredAt s p,
        error := if s.mem.ue.contains (p / 8) then some 0x0611 else if m ≠ 0 then some m else none, wait := none }
    else { val := 0, seen := a, addr := a, poison := false, deferred := none, error := some 0x0603, wait := none }
  | .host h =>
    { val := memGet s.mem.host h, seen := a, addr := a, poison := !canSend s || (tabGet (h / 64) s.mem.hostBad).isSome, deferred := none,
      error := lostReply (tabGetD (h / 64) 0 s.mem.hostBad), wait := if canSend s && !s.mem.hostIn.contains (h / 64) then some (.host (h / 64)) else none }
  | .token q off => { val := tokenByte s q off, seen := a, addr := tokenAddr q off, poison := false, deferred := none, error := none, wait := none }
  | .wait d => { val := 0, seen := a, addr := a, poison := false, deferred := none, error := none, wait := some (.page d) }
  | .shared _ _ => { val := 0, seen := a, addr := a, poison := false, deferred := none, error := none, wait := none }
  | .fault st => { val := 0, seen := a, addr := a, poison := false, deferred := none, error := some st, wait := none }

/-- The `n` bytes that the unit of lane `j` reads from `a` in a transfer that starts at `start`. -/
def readFrom (j : Nat) (s : State) (start a n : Nat) : List ByteRead :=
  (List.range n).map fun i => readTarget j s (a + i) (resolve s false start (a + i))

/-- The `n` bytes that the unit of lane `j` reads from `a`. -/
def readOp (j : Nat) (s : State) (a n : Nat) : List ByteRead := readFrom j s a a n

/-- The memory with every write in it: what a unit finds that changes part of a byte or of a word in place. -/
def current (s : State) : State := updMem (fun m => { m with unsettled := [] }) s

/-- Whether the unit of lane `k` reaches a physical address (R302): a local store has its own unit, the movers and, an Orangery's, the
Topiaries. -/
def reaches (k a : Nat) : Bool :=
  let mover := decide (25 ≤ k ∧ k ≤ 48)
  match regionOf a with
  | .orangery => mover || decide (49 ≤ k ∧ k ≤ 52) || laneIsland k == (addrSource State.reset a).1
  | .pergola => mover || laneIsland k == (addrSource State.reset a).1
  | _ => true

/-- Whether the unit of lane `k` may write a physical address: an Orangery's tiles leave through the drain stage of a Pergola, which
belongs to that Pergola (R94, R302; DEDUCED, log 170). -/
def reachesOut (k a : Nat) : Bool :=
  reaches k a || (decide (1 ≤ k ∧ k ≤ 16) && regionOf a == .pergola && (addrSource State.reset a).1 == 30 + (k - 1) / 2)

/-- A byte that lane `k`'s unit does not reach is refused as no address of its map (R302; DEDUCED, log 170). -/
def reachBy (k : Nat) (r : ByteRead) : ByteRead :=
  if r.error.isNone && r.wait.isNone && !reaches k r.addr then
    { r with val := 0, poison := false, deferred := none, error := some 0x0603 }
  else r

/-- The `n` bytes that an op of lane `k` reads from `a` in a transfer that starts at `start`. -/
def readBy (k : Nat) (s : State) (start a n : Nat) : List ByteRead := (readFrom k s start a n).map (reachBy k)

/-- The values of a read. -/
def readVals (r : List ByteRead) : List Byte := r.map (·.val)

/-- The first deferred status, at the lowest address; the first error; a page to wait for; any mark. -/
def readDeferred (r : List ByteRead) : Option Nat := r.findSome? (·.deferred)
def readError (r : List ByteRead) : Option Nat := r.findSome? (·.error)
def readWait (r : List ByteRead) : List Wait := r.filterMap (·.wait)
def readPoison (r : List ByteRead) : Bool := r.any (·.poison)

/-- What a read by lane `k`'s op leaves behind: a single-bit error corrected and logged 0x0610 (R305), a DRAM line read through its
slice in class LC (R273, R308), a host request that fails for want of a host logged 0x0604 (R314, R379). -/
def noteRead (k : Nat) (r : ByteRead) (s : State) : State :=
  let s := if s.mem.sbe.contains (r.addr / 8) && eccWord s r.addr then correctWord (r.addr / 8) s else s
  match dramMap s r.addr with
  | some (c, off) =>
    unitLine { chan := c, line := off / 64, write := false, enables := allBytes, poisoned := false, cls := .lc, lane := some k } s
  | none =>
    if r.poison && !isSram r.addr && !canSend s then logErr 0x0604 2 0 s { arg0 := r.addr, poison := true } else s

/-- The page whose bytes lie at an address of the sequence window (R156, R159). -/
def pageOf (s : State) (a : Nat) : Option Nat :=
  let x := a - 0x804000000000
  if regionOf a == .sequence && decide (x % 0x1000000 < 0xF00000) && kvGran s != 0 then
    tabGet (mapKey (x / 0x1000000) (x % 0x1000000 / 4096 / kvGran s / 256) (x % 0x1000000 / 4096 / kvGran s % 256)) s.aviary.maps
  else none

/-- The pages at addresses are accessed (R159). -/
def usePages (as : List Nat) (s : State) : State := ((as.filterMap (pageOf s)).eraseDups).foldl (fun s d => usePage d s) s

/-- A read that may have met an unsettled byte has used its free values (R18). -/
def countMix (s : State) : State :=
  if s.mem.unsettled.isEmpty then s else updMem (fun m => { m with mixes := m.mixes + 1 }) s

/-- The host lines that an op has waited for are used up (R314). -/
def dropHostIn (s : State) (r : List ByteRead) : List Nat :=
  let used := (r.filterMap fun x => match resolveWindow s false x.seen with | .host h => some (h / 64) | _ => none).eraseDups
  s.mem.hostIn.filter fun l => !used.contains l

/-- The status of the first source of the mark that a read byte carries (R361). -/
def readCause (s : State) (r : ByteRead) : Nat :=
  match resolveWindow s false r.seen with
  | .host h => tabGetD (h / 64) 0x0604 s.mem.hostBad
  | .phys _ m => if m ≠ 0 then m else causeAt s r.addr
  | _ => causeAt s r.addr

/-- The first byte of a read that is marked, or that an error keeps from it, names its source (R361). -/
def noteMark (s0 : State) (r : List ByteRead) (s : State) : State :=
  match r.find? fun x => x.poison || x.error.isSome with
  | some x => setCause (x.error.getD (readCause s0 x)) s
  | none => s

/-- Note one byte of every 8-byte word of SRAM and every 64-byte line elsewhere that a read by lane `k`'s op touches. -/
def noteReads (k : Nat) (r : List ByteRead) (s : State) : State :=
  let step (st : List Nat × State) (x : ByteRead) : List Nat × State :=
    let n := if isSram x.addr then 2 * (x.addr / 8) else 2 * (x.addr / 64) + 1
    if st.1.contains n then st else (n :: st.1, noteRead k x st.2)
  let t := (windowPages (r.map (·.seen))).foldl (fun s p => tlbFill (tlbGroup k) p s) (countMix (r.foldl step ([], s)).2)
  usePages (r.map (·.seen)) (noteMark s r (updMem (fun m => { m with hostIn := dropHostIn s r }) t))

/-- Where a write to a target goes: a fault, also of a page that a failed cold transfer has marked (R166), a page to wait for or to copy
first, else the cell. -/
def writeTarget (s : State) (start : Nat) (c : Cell) : Target :=
  match resolve s true start c.addr with
  | .phys p m => if m ≠ 0 then .fault m else if backed s p then .phys p 0 else .fault 0x0603
  | t => t

/-- The status of a write of lane `k`'s unit that faults: a byte that it does not reach faults as none of its map (R302). -/
def cellFault (k : Nat) (s : State) (start : Nat) (c : Cell) : Option Nat :=
  match writeTarget s start c with
  | .fault st => some st
  | .phys p _ => if reachesOut k p then none else some 0x0603
  | _ => none

/-- The status and the address of the first byte whose write faults. -/
def writeFault (k : Nat) (s : State) (start : Nat) (cs : List Cell) : Option (Nat × Nat) :=
  cs.findSome? fun c => (cellFault k s start c).map fun st => (st, c.addr)

/-- The status of the first byte whose write faults. -/
def writeError (k : Nat) (s : State) (start : Nat) (cs : List Cell) : Option Nat := (writeFault k s start cs).map (·.1)

/-- What a write waits for: pages to be filled (R162) and shared pages to be copied (R161, R315). -/
def writeWait (s : State) (start : Nat) (cs : List Cell) : List Wait :=
  cs.filterMap fun c => match writeTarget s start c with
    | .wait d => some (.page d)
    | .shared q k => some (.own q k)
    | _ => none

/-- An op begins to wait (R161, R162, R314): a demand fill is wanted, a host line is read once, a shared page is copied. -/
def awaitFor (w : Wait) (s : State) : State :=
  match w with
  | .page d => wantPage d s
  | .host l =>
    if s.mem.reads.any fun r => r.forOp && (readLines r.addr r.len).contains l then s else askHost (64 * l) 64 false true s
  | .own q k => ownPage q k s

/-- Byte `i` of a word replaced. -/
def putByte (w i : Nat) (b : Byte) : Nat := w - w / 256 ^ i % 256 * 256 ^ i + b.toNat * 256 ^ i

/-- A token whose tag block byte at `off` is replaced (R156). -/
def tokenPutTag (off : Nat) (b : Byte) (t : Token) : Token :=
  let n := (off - 0xF00000) / 128
  if t.slot = 16 * (n % 256) + (off - 0xF00000) % 128 / 8 then
    let tags := if t.tags.any fun y => y.1 == n / 256 then t.tags else t.tags ++ [(n / 256, 0, 0)]
    { t with tags := tags.map fun y =>
        if y.1 = n / 256 then
          (if off % 8 < 4 then (y.1, putByte y.2.1 (off % 4) b, y.2.2) else (y.1, y.2.1, putByte y.2.2 (off % 4) b))
        else y }
  else t

/-- A token whose record byte at `off` is replaced (R157). -/
def tokenPutRecord (off : Nat) (b : Byte) (t : Token) : Token :=
  if t.slot = (off - 0xF80000) / 32 then
    let bs := (tokenBytes t).set (off % 32) b
    { t with frame := field bs 0 4, stamp := field bs 4 8,
             box := [field bs 12 2, field bs 14 2, field bs 16 2, field bs 18 2], score := field bs 20 2,
             cls := field bs 22 2, det := field bs 24 2, flags := field bs 26 2 }
  else t

/-- The token record or tag that a write into a sequence's blocks changes (R156, R157): they lie in DRAM, which every unit sees at once
(R18). -/
def writeToken (q off : Nat) (b : Byte) (s : State) : State :=
  let f := if off < 0xF80000 then tokenPutTag off b else tokenPutRecord off b
  updAviary (fun a => { a with seqs := tabUpd q (fun x => { x with tokens := x.tokens.map f }) a.seqs }) s

/-- Write the cells of an op of a score lane, which no fault and no wait stops: in class LC (R273). -/
def writeOp (start : Nat) (cs : List Cell) (s : State) : State :=
  let s := usePages (cs.map (·.addr)) ((windowPages (cs.map (·.addr))).foldl (fun s p => tlbFill (tlbGroup noLane) p s) s)
  let phys := cs.filterMap fun c => match writeTarget s start c with
    | .phys p _ => some { c with addr := p }
    | _ => none
  let host := cs.filterMap fun c => match writeTarget s start c with | .host h => some { c with addr := h } | _ => none
  let toks := cs.filterMap fun c => match writeTarget s start c with | .token q off => some { c with addr := tokenAddr q off } | _ => none
  let s := cs.foldl (fun s c => match writeTarget s start c with | .token q off => writeToken q off c.val s | _ => s) s
  let s := ((toks.map fun c => c.addr / 64).eraseDups).foldl (fun s l => settleLine .lc toks l s) s
  writeHost host (writePhys .lc phys s)

/-- The SRAM bytes that a unit's work has written, the ring of the error log apart, which is no unit's data. -/
def writtenSram (ring : Nat) (m : Mem) : List Nat :=
  (m.noting.getD []).eraseDups.filter fun a => !decide (ring ≤ a ∧ a < ring + 32768)

/-- What the unit of lane `k` writes into an SRAM, the same value again included, no other unit is sure to see; DRAM shows a write at once
(R18). -/
def writing (k : Nat) (work : State → State) (s : State) : State :=
  let t := work (updMem (fun m => { m with noting := some [] }) s)
  let olds (a : Nat) : List Byte := match tabGet a s.mem.unsettled with | some u => u.olds | none => []
  updMem (fun m => { m with
    noting := s.mem.noting
    unsettled := (writtenSram s.err.base t.mem).foldl (fun u a =>
      tabPut a { olds := (memGet s.mem.bytes a :: olds a).eraseDups, lane := k, tokens := [], seen := [] } u) m.unsettled }) t

/-- The completion of lane `k`'s writes is signalled by a token (R18, R68): the token makes visible those of its writes too whose own
completion signalled none (DESIGN CHOICE, log 222). -/
def signalWrites (k tok : Nat) (s : State) : State :=
  updMem (fun m => { m with unsettled := m.unsettled.map fun x =>
    if x.2.lane = k then (x.1, { x.2 with tokens := setAdd tok x.2.tokens }) else x }) s

/-- An op of lane `j` has waited on a token: it sees what the token signalled (R18). -/
def seeWrites (j tok : Nat) (s : State) : State :=
  updMem (fun m => { m with unsettled := m.unsettled.map fun x =>
    if (x.2.tokens).contains tok then (x.1, { x.2 with seen := setAdd j x.2.seen }) else x }) s

/-- Mark physical bytes deferred-faulty for a new fault of a mover (R85); an older mark on such a byte is gone. -/
def markDeferred (addrs : List Nat) (mover status : Nat) (s : State) : State :=
  if addrs.isEmpty then s
  else
    let s := addrs.foldl (fun s a => clearDeferred a s) s
    let id := s.mem.nextFault
    updMem (fun m => { m with
      nextFault := id + 1, faults := m.faults ++ [{ id := id, mover := mover, status := status, used := false }],
      deferred := addrs.foldl (fun d a => tabPut a id d) m.deferred }) s

/-- An op has faulted on a deferred fault: it will not count as discarded (R85). -/
def useDeferred (a : Nat) (s : State) : State :=
  match tabGet a s.mem.deferred with
  | none => s
  | some id => updMem (fun m => { m with faults := m.faults.map fun f => if f.id = id then { f with used := true } else f }) s

end Sys2Proof.Machine
end

