-- ==== Sys2Proof/Machine/Numerics.lean ====
section
/-! DEFINITION. Narrow numerics (R126 to R149): re-quantisation, the row that a frame owns, exponent prediction and needs, the
measure buffer with its saturation counts and latches, Garnet digests. -/

namespace Sys2Proof.Machine

/-- rq of R130 on the value `a × 2^e`, and the A1 output of R131: the code and whether it saturated. -/
def rq (fmt : Nat) (zo : Nat) (eo : Int) (a e : Int) : Int × Bool :=
  if fmt = 4 then (if 0 ≤ a then 1 else 0, false)
  else
    let c := shiftHalfEven a (eo - e) + zo
    if c < fmtLo fmt then (fmtLo fmt, true)
    else if fmtHi fmt < c then (fmtHi fmt, true)
    else (c, false)

/-- The need of a row (R136): the smallest exponent at which no element saturates, else 127. -/
def rowNeed (fmt zo : Nat) (els : List (Int × Int)) : Int :=
  (((List.range 256).map fun (n : Nat) => (n : Int) - 128).find? fun eo =>
    els.all fun x => !(rq fmt zo eo x.1 x.2).2).getD 127

/-- The bit pattern of a code. -/
def codeBits (fmt : Nat) (c : Int) : Nat := unsigned (fmtBits fmt) c

/-- Who owns a row: slot index, the slot and the frame-relative row (R135, R257). -/
structure RowOwner where
  slot : Nat
  at_ : Slot
  row : Nat
  deriving DecidableEq, Repr

/-- Rows per slot of an op that writes `total` rows for a batch with `slots` slots (DESIGN CHOICE, log 13). -/
def rowsPerSlot (total slots : Nat) : Nat := max 1 (total / max 1 slots)

/-- The slot that row `m` of `total` belongs to. -/
def rowSlot (s : State) (b total m : Nat) : Nat := m / rowsPerSlot total (geom s b).slots

/-- The owner of row `m` of the `total` rows of an op; none outside a batch and in an unfilled slot (R135). -/
def rowOwner (s : State) (ctx : Option (Nat × Nat)) (total m : Nat) : Option RowOwner :=
  match ctx with
  | none => none
  | some (b, n) =>
    let k := rowSlot s b total m
    match (getBatch s b n).bind fun y => y.slots[k]? with
    | some x =>
      let r := rowsPerSlot total (geom s b).slots
      if x.filled then some { slot := k, at_ := x, row := x.rank * r + m % r } else none
    | none => none

/-- The frame-relative row number that digests and row slots use (R135). -/
def rowNumber (o : Option RowOwner) (m : Nat) : Nat := match o with | some x => x.row | none => m

/-- Whether the slot of row `m` is marked empty in the batch's slot table (R115, R257). -/
def rowEmpty (s : State) (ctx : Option (Nat × Nat)) (total m : Nat) : Bool :=
  ctx.isSome && (rowOwner s ctx total m).isNone

/-- Rows of samples shorter than the largest length that their register gave, and rows that GATHER flagged invalid, are masked by the
Pergola drain (R78, R168): those of an op whose descriptor names the register for its rows (DESIGN CHOICE, log 171). -/
def rowWithin (s : State) (lenM : Nat) (ctx : Option (Nat × Nat)) (total m : Nat) : Bool :=
  match ctx, rowOwner s ctx total m with
  | some (b, n), some o => match getBatch s b n with
    | some y =>
      let mine (x : Nat × Nat × Nat) : Bool := x.1 == o.at_.stream && x.2.1 == o.at_.frame
      let track := match s.pkg with | some p => p.trackLength == lenM | none => false
      ((y.lens.filter fun x => x.1 == lenM).all fun x => (x.2.filter mine).all fun e => decide (o.row < e.2.2))
        && !(track && y.invalid.any fun x => mine x && x.2.2 == o.row)
    | none => true
  | _, _ => true

/-- The latch of (layer, batch, slot) that an instance reads (R141). -/
def latched (s : State) (layer b n slot : Nat) : Bool := s.score.latches.contains (layer, b, n % 2, slot)

/-- A path op writes only the rows of samples whose latch is set (PATH 1) or clear (PATH 2) (R143). -/
def rowOpen (s : State) (l : LayerEntry) (ctx : Option (Nat × Nat)) (total m : Nat) : Bool :=
  let set := match ctx with
    | some (b, n) => latched s l.wof b n (rowSlot s b total m)
    | none => false
  if l.path = 1 then set else if l.path = 2 then !set else true

/-- The address of a history record (R137, R175). -/
def historyAt (l : LayerEntry) (key slot : Nat) : Nat := l.hbase + key * l.hstride + 32 * slot

/-- The read of a history record's ten entries (R137), whose words' checks are verified as any input's (R356). -/
def historyRead (s : State) (a : Nat) : List ByteRead := readOp noLane (current s) a 20

/-- The ten entries of a history record, newest first: exponent and tag (R137). -/
def historyEntries (s : State) (a : Nat) : List (Int × Nat) :=
  let bs := readVals (historyRead s a)
  (List.range 10).map fun i => (signed 8 (field bs (2 * i) 1), field bs (2 * i + 1) 1)

/-- The predicted exponent of a record for frame `n` at steering age `age` (R138). -/
def predict (l : LayerEntry) (h : List (Int × Nat)) (n age : Nat) : Int :=
  let sel := (h.filter fun x => x.1 != -128 && decide (age ≤ (n % 256 + 256 - x.2) % 256)).take l.w
  let sel := sel.map (·.1) ++ List.replicate (l.w - sel.length) l.einit
  clamp (-128) 127 ((sel.max?).getD l.einit + l.h)

/-- The track list of a stream: its TRACK sequences by ascending track id (R168). -/
def trackList (s : State) (stream : Nat) : List (Nat × Seq) :=
  sortBy (fun a b : Nat × Seq => decide (a.2.trackId < b.2.trackId))
    (s.aviary.seqs.filter fun x => x.2.kind == .track && x.2.stream == stream)

/-- Whose history a row has: the stream's, or under key SEQUENCE that of the track at the row's place in the stream's track
list (R137, R175; the place is a DESIGN CHOICE, log 14). -/
def historyKey (s : State) (l : LayerEntry) (stream row : Nat) : Option Nat :=
  if l.key = 0 then some stream
  else if l.key = 1 then ((trackList s stream)[row]?).map (·.1)
  else none

/-- The history record whose entries choose a row's exponent (R137, R138). -/
def ownerRecord (s : State) (l : LayerEntry) (x : RowOwner) : Option Nat :=
  (historyKey s l x.at_.stream x.row).map fun k => historyAt l k (x.row / 2 ^ l.g)

/-- The predicted exponent of a row (R138); a row that no frame owns takes EINIT (DEDUCED, log 14). -/
def rowExponent (s : State) (l : LayerEntry) (o : Option RowOwner) : Int :=
  match o with
  | some x => match stream? s x.at_.stream, ownerRecord s l x with
    | some y, some a => predict l (historyEntries s a) x.at_.frame y.age
    | _, _ => l.einit
  | none => l.einit

/-- What an op reads to choose the exponent of an output row (R138, R356). -/
def exponentRead (s : State) (l : LayerEntry) (o : Option RowOwner) : List ByteRead :=
  if l.ofmt = 4 || (l.path = 1 && l.ofmt == 5) then []
  else match o.bind (ownerRecord s l) with
    | some a => historyRead s a
    | none => []

/-- Row `m`'s own need in layer `layer`, from the measure buffer (R144). -/
def measuredNeed (s : State) (layer : Nat) (ctx : Option (Nat × Nat)) (m : Nat) : Option Int :=
  match ctx with
  | some (b, n) => (s.score.measures.find? fun x => x.layer == layer && x.batch == b && x.num == n && x.row == m).bind (·.need)
  | none => none

/-- The output exponent of a row (R132, R138, R144): a widen path at A8 follows the need of the layer it re-runs; where that row has no
need, it takes EINIT (DESIGN CHOICE, log 203). -/
def outExponent (s : State) (l : LayerEntry) (ctx : Option (Nat × Nat)) (o : Option RowOwner) (m : Nat) : Int :=
  if l.ofmt = 4 then l.einit
  else if l.path = 1 && l.ofmt == 5 then
    let wide := fmtBits (residentLayer s l.wof).ofmt == 4
    match measuredNeed s l.wof ctx m with
    | some need => max (-128) (need - (if wide then 3 else 5))
    | none => l.einit
  else rowExponent s l o

/-- ZFIX for A4u and A2u, else 0 (R132). -/
def outZero (l : LayerEntry) : Nat := if fmtUnsigned l.ofmt then l.zfix else 0

/-- Add what an op measured of one row to the measure buffer (R136, R141, R146): needs combine as the largest, counts add. -/
def addMeasure (x : Measure) (s : State) : State :=
  updScore (fun c =>
    match posOf (fun y => y.layer == x.layer && y.batch == x.batch && y.num == x.num && y.row == x.row) c.measures with
    | some i => { c with measures := upd c.measures i fun y => { y with
        satn := min 255 (y.satn + x.satn), tags := y.tags ++ x.tags.filter fun a => !y.tags.contains a,
        need := match y.need, x.need with | some a, some b => some (max a b) | some a, none => some a | none, n => n } }
    | none => { c with measures := c.measures ++ [x] }) s

/-- The bytes of one element in a digest (R148). -/
def digestBytes (fmt code : Nat) : List Byte := leBytes (if fmt = 7 then 4 else if fmt = 6 ∨ fmt = 13 then 2 else 1) code

/-- The CRC-64 of one digest unit: row, column origin, elements (R147, R148). -/
def digestUnit (row on : Nat) (els : List Byte) : BitVec 64 :=
  (leBytes 4 row ++ leBytes 4 on ++ els).foldl crc64Byte 0

/-- XOR a unit into the digest of (layer, stream, frame) (R148). -/
def addDigest (layer stream frame : Nat) (d : BitVec 64) (s : State) : State :=
  updScore (fun c =>
    match posOf (fun y : Nat × Nat × Nat × BitVec 64 => y.1 == layer && y.2.1 == stream && y.2.2.1 == frame) c.digests with
    | some i => { c with digests := upd c.digests i fun y => (y.1, y.2.1, y.2.2.1, y.2.2.2 ^^^ d) }
    | none => { c with digests := c.digests ++ [(layer, stream, frame, d)] }) s

/-- The digest of (layer, stream, frame); 0 when it has no unit (R148). -/
def digestOf (s : State) (layer stream frame : Nat) : BitVec 64 :=
  match s.score.digests.find? fun y => y.1 == layer && y.2.1 == stream && y.2.2.1 == frame with
  | some y => y.2.2.2
  | none => 0

/-- Note the digest unit of a row that a frame owns. -/
def ownerDigest (on_ : Bool) (layer : Nat) (o : Option RowOwner) (col : Nat) (els : List Byte) (s : State) : State :=
  match o with
  | some x => if on_ then addDigest layer x.at_.stream x.at_.frame (digestUnit x.row col els) s else s
  | none => s

/-- Write SATN and FLAG of a measured row into its tag at an address (R141); a mark or an uncorrectable error that the tag's word holds
goes on as a mark (R305, R356). -/
def settleTag (rl : Nat) (x : Measure) (a : Nat) (s : State) : State :=
  let r := readOp noLane (current s) a 4
  let t := leNat (readVals r)
  let t := t % 2 ^ 16 + (if rl < x.satn then 2 ^ 16 else 0) + (if bitAt t 17 then 2 ^ 17 else 0) + x.satn * 2 ^ 24
  writeOp a (cellsAt a (leBytes 4 t) (readPoison r || (readError r).isSome)) (noteReads noLane r s)

/-- Write SATN and FLAG of one measured row into each of its tags (R141). -/
def settleRow (rl : Nat) (x : Measure) (s : State) : State := x.tags.foldl (fun s a => settleTag rl x a s) s

/-- A sample's rows of a layer that are flagged (R141). -/
def flaggedRows (rl slot : Nat) (rows : List Measure) : List Measure :=
  rows.filter fun x => x.owned && x.slot == slot && decide (rl < x.satn)

/-- A latch of R141 that becomes set has its consequence for the sample's frame (R142, R145): a layer counts once for a frame, however
many of its samples latch it. -/
def latchFrame (layer : Nat) (l : LayerEntry) (f : Frame) : Frame :=
  if l.action = 2 then decide1 reasonWidened 0 f
  else if l.action = 1 && !f.wideLayers.contains layer then
    { f with widened := f.widened + 1, widenMax := f.widenMax + l.widemax, wideLayers := f.wideLayers ++ [layer] }
  else f

/-- The latch of one sample (R141): set when its flagged rows exceed LT. -/
def settleSample (b n layer : Nat) (l : LayerEntry) (rows : List Measure) (slot : Nat) (s : State) : State :=
  let hot := flaggedRows l.rl slot rows
  match rows.find? fun x => x.owned && x.slot == slot with
  | none => s
  | some x =>
    if l.lt < hot.length && !latched s layer b n slot then
      updFrameNum x.stream x.frame (latchFrame layer l)
        (updScore (fun c => { c with latches := c.latches ++ [(layer, b, n % 2, slot)] }) s)
    else s

/-- The last op of a layer for a batch has completed (R141, R142, R145): the tags are settled, each frame counts its flagged
rows, and the latches are set; the measures stay for R139 and R144. -/
def settleLayer (b n layer : Nat) (s : State) : State :=
  let l := residentLayer s layer
  let rows := s.score.measures.filter fun x => x.layer == layer && x.batch == b && x.num == n
  let s := rows.foldl (fun s x => settleRow l.rl x s) s
  let slots := ((rows.filter (·.owned)).map (·.slot)).eraseDups
  slots.foldl (fun s k => settleSample b n layer l rows k s) s

/-- The flagged rows of a frame over all layers of a batch (R145). -/
def frameFlagged (s : State) (b n stream frame : Nat) : Nat :=
  (s.score.measures.filter fun x => x.batch == b && x.num == n && x.owned && x.stream == stream && x.frame == frame
    && decide ((residentLayer s x.layer).rl < x.satn)).length

end Sys2Proof.Machine
end

