-- ==== Sys2Proof/Machine/Score.lean ====
section
/-! DEFINITION. The score (R60 to R91): tokens and gates, the start and the end of an op, batches at their bell, the sequencer
and its control lane, the gate watchdog. An op waits in its lane until the row of its opcode starts it; the ops of lanes 0, 54
and 55 occupy no unit and complete at their start, every other op completes in OP_COMPLETE. -/

namespace Sys2Proof.Machine

/-- The value of a gate token (R65). -/
def token (s : State) (t : Nat) : Nat := tabGetD t 0 s.score.tokens

/-- Set a gate token; a token at 0 is not listed. -/
def setToken (t v : Nat) (s : State) : State :=
  updScore (fun c => { c with tokens := if v = 0 then tabDel t c.tokens else tabPut t v c.tokens }) s

/-- The batches that a bell has closed and that are not torn down, with their bell times. -/
def flying (s : State) : List (Nat × Nat × Nat) :=
  (s.score.batches.zipIdx.map fun x => (x.1.closed.filter fun y => y.torn.isNone).map fun y =>
    (y.bellAt.getD 0, x.2, y.num)).flatten

/-- The newest batch in flight (R69; the choice among several is DEDUCED, log 15). -/
def newestBatch (s : State) : Option (Nat × Nat) :=
  ((sortBy (fun a b : Nat × Nat × Nat => decide (b.1 < a.1)) (flying s)).head?).map (·.2)

/-- The value that a token has after the actions of a cycle, in the order of R67: the increments, a TOKEN_SET, the tests. -/
def cycleValue (x : TokenCycle) : Nat := x.setTo.getD x.sum - x.used

/-- What the token block has done with a token in the present local cycle: what is commanded at one count is one cycle (R67; DEDUCED,
log 209). -/
def cycleOf (s : State) (t : Nat) : TokenCycle :=
  match (tabGet t s.score.cycles).filter fun x => x.count == s.band.count && cycleValue x == token s t with
  | some x => x
  | none => { count := s.band.count, sum := token s t, setTo := none, used := 0 }

/-- The token block has acted on a token in this cycle (R67). -/
def putCycle (t : Nat) (x : TokenCycle) (s : State) : State :=
  setToken t (cycleValue x) (updScore (fun c => { c with cycles := tabPut t x c.cycles }) s)

/-- Add to a token (R65, R69): beyond 65,535 the sum stays there, 0x0421 is logged and the batch in flight is torn down. An addition comes
before a TOKEN_SET and the tests of its cycle (R67). -/
def addToken (t v : Nat) (ctx : Option (Nat × Nat)) (s : State) : State :=
  let x := cycleOf s t
  let u := putCycle t { x with sum := min 65535 (x.sum + v) } s
  if x.sum + v ≤ 65535 then u else jobFault 0 (ctx.or (newestBatch s)) 0x0421 t none u

/-- TOKEN_SET's value takes the place of the sum of its cycle's increments, and what the cycle's tests have consumed stays consumed (R67). -/
def setTokenOp (t v : Nat) (s : State) : State := putCycle t { cycleOf s t with setTo := some v } s

/-- A test consumes from a token (R65, R67). -/
def consume (t v : Nat) (s : State) : State :=
  let x := cycleOf s t
  putCycle t { x with used := x.used + v } s

/-- The gate of an op is satisfied (R65). -/
def gateOk (w : BitVec 64) (s : State) : Bool := opGm w == 0 || decide (opNeed w + 1 ≤ token s (opWtok w))

/-- An op that starts in gate mode 0b01 consumes (R65); one that has waited on a token sees the writes that it signalled (R18). -/
def passGate (k : Nat) (w : BitVec 64) (s : State) : State :=
  let s := if opGm w = 0 then s else seeWrites k (opWtok w) s
  if opGm w = 1 then consume (opWtok w) (opNeed w + 1) s else s

/-- A completed op with SIG 1 adds 1 to token STOK (R63, R68), which makes its writes visible to who waits on it (R18). -/
def signal (k : Nat) (o : IssuedOp) (s : State) : State :=
  if opSig o.word then addToken (opStok o.word) 1 o.ctx (signalWrites k (opStok o.word) s) else s

/-- The oldest op of a lane whose unit is free (R66). -/
def headOp (s : State) (k : Nat) : Option IssuedOp :=
  (s.score.lanes[k]?).bind fun l => if l.running.isNone then l.due.head? else none

/-- A pin op with no gate: its cue goes to its pin as soon as the op is issued, so that the cue keeps its lead (R38, R68; log 81). -/
def handsAhead (w : BitVec 64) : Bool := opGm w == 0 && decide (0x38 ≤ opOpc w ∧ opOpc w ≤ 0x3B)

/-- An op's beat has come (R36, R66): a lane's cue brings an op at its beat, but lane 54's ops lie with their unit ahead of theirs, and its
island's replica shows when their beat has come. -/
def beatCome (s : State) (k : Nat) (o : IssuedOp) : Bool :=
  k != pinLane || handsAhead o.word || decide ((o.instant : Int) ≤ replicaNow (.lane pinLane) s)

/-- The op by which lane `k` would test token `t` in this cycle and pass (R67). -/
def tests (s : State) (t k : Nat) : Option IssuedOp :=
  (headOp s k).filter fun o => gateOk o.word s && beatCome s k o && opGm o.word != 0 && opWtok o.word == t

/-- Lane 0's oldest op would add to token `t` or set it in this cycle, which comes before every test of it (R67). -/
def setsFirst (s : State) (t : Nat) : Bool :=
  match headOp s 0 with
  | some o => gateOk o.word s && decide (opOpc o.word = 1 ∨ opOpc o.word = 2) && opStok o.word == t
      && !(opGm o.word != 0 && opWtok o.word == t)
  | none => false

/-- No other op comes before an op on its token in the order of R67: increments and TOKEN_SET first, then the tests by beat and by
lane. What is commanded at one count is one cycle of the token block (DEDUCED, log 165). -/
def inTurn (s : State) (k : Nat) (o : IssuedOp) : Bool :=
  opGm o.word == 0 || ((k == 0 || !setsFirst s (opWtok o.word)) && (List.range 56).all fun j => match tests s (opWtok o.word) j with
    | some x => decide (o.beat < x.beat ∨ (o.beat = x.beat ∧ k ≤ j))
    | none => true)

/-- The op of an opcode that a lane may start now (R66, R67). -/
def startable (s : State) (k opc : Nat) : Option IssuedOp :=
  (headOp s k).filter fun o => opOpc o.word == opc && gateOk o.word s && beatCome s k o && inTurn s k o

/-- An op starts after its beat, beyond the 4 ns of R38 (R66). -/
def lateStart (s : State) (o : IssuedOp) : Bool := decide (o.instant + 4 < nowNs s)

/-- An op leaves its lane's queue and passes its gate; a late start is counted for the lane, and it or a late cue for the op's batch
(R66, R40). -/
def beginOp (k : Nat) (o : IssuedOp) (s : State) : State :=
  let n := if lateStart s o then 1 else 0
  let late := lateStart s o || o.late
  let s := updLane k (fun l => { l with due := l.due.drop 1, lateStarts := l.lateStarts + n }) s
  passGate k o.word (if late then countLate o.ctx s else s)

/-- An op occupies its unit; its work is done, or goes on by claims. -/
def occupy (k : Nat) (o : IssuedOp) (pages : List Nat) (finished : Bool) (s : State) : State :=
  updLane k (fun l => { l with running := some { op := o, pages := pages, finished := finished } }) s

/-- Pin pages for an op, and release the pins (R169). -/
def pinPages (ps : List Nat) (s : State) : State :=
  ps.foldl (fun s d => updPage d (fun p => { p with pins := p.pins + 1 }) (usePage d s)) s
def unpinPages (ps : List Nat) (s : State) : State :=
  ps.foldl (fun s d => updPage d (fun p => { p with pins := p.pins - 1 }) s) s

/-- A claim-only Orangery that the start ledger has fenced: its ops finish at their start with no work (R82). -/
def idleLane (s : State) (k : Nat) : Bool :=
  decide (1 ≤ k ∧ k ≤ 16) && bitAt (imgClaimOnly s.score.image) (k - 1) &&
    (match s.islands[laneIsland k]? with | some x => x.bootFenced | none => false)

/-- A torn-down batch's CLAIM goes on claiming, so that its counter ends where R80 has it; its tiles are all skipped (R87, R143). -/
def skipsWhole (opc : Nat) (s : State) (o : IssuedOp) : Bool := opc != 0x11 && isTorn s o.ctx

/-- The island of a lane's unit, or that of the Pergola that drains an Orangery's tiles (R94, R114), takes no request. -/
def laneFenced (s : State) (k : Nat) : Bool :=
  resetFenced s (laneIsland k) || (decide (1 ≤ k ∧ k ≤ 16) && resetFenced s (30 + (k - 1) / 2))

/-- A unit in its safe state whose island is not fenced yet starts no op (R363). -/
def laneSafe (s : State) (k : Nat) : Bool :=
  unitSafe s (laneIsland k) (laneUnit k) && !resetFenced s (laneIsland k)

/-- Start the oldest op of lane `k` when it is of opcode `opc`, fits the row and may start (R66): an op of a torn-down batch and
of an idle lane runs as a skipped op (R82, R87), an op of a fenced unit likewise with 0x0011 (R370); an op that touches pages
outside the hot tier, shared pages or host memory waits for them (R161, R162, R314). -/
def startOp (k opc : Nat) (fits : IssuedOp → Bool) (waits : IssuedOp → List Wait) (work : IssuedOp → State → State)
    (s : State) : Res :=
  match (startable s k opc).filter (fun o => fits o && !laneSafe s k) with
  | none => done s
  | some o =>
    if idleLane s k || skipsWhole opc s o then done (occupy k o [] true (beginOp k o s))
    else if laneFenced s k then done (occupy k o [] true (jobFault k o.ctx 0x0011 0 none (beginOp k o s)))
    else match waits o with
      | [] => done (work o (beginOp k o s))
      | ws => done (ws.foldl (fun s w => awaitFor w s) s)

/-- The cues and ops of a lane that belong to a context. -/
def laneHolds (ctx : Nat × Nat) (l : Lane) : Bool :=
  let ofCue (c : Cue) : Bool := match c.action with | .slotOp _ _ x => x == some ctx | _ => false
  l.cues.any (fun c => ofCue c.cue) || l.held.any ofCue || l.due.any (fun o => o.ctx == some ctx)
    || (match l.running with | some r => r.op.ctx == some ctx | none => false)

/-- The layer that an op of a lane works on, where its descriptor names one (R75, R115). -/
def opLayer (s : State) (k : Nat) (w : BitVec 64) : Option Nat :=
  if opOpc w = 0x10 ∨ opOpc w = 0x11 then some (imgTile s.score.image (argDesc w)).layer
  else if opOpc w = 0x18 ∧ 17 ≤ k then some (imgVec s.score.image (argDesc w)).layer
  else none

/-- The offsets of the words that may follow a control op whose own word ends at `next` (R71). -/
def controlNext (img : List Byte) (w : BitVec 64) (next : Nat) : List Nat :=
  if opOpc w = 7 then []
  else if opOpc w = 6 then [imgTarget img (argTarget w)]
  else if opOpc w = 5 then [next, imgTarget img (argTarget w)]
  else [next]

/-- The offsets of the words that may follow the word at an offset (R62, R71). -/
def wordNext (img : List Byte) (off : Nat) : List Nat :=
  let (ops, len) := cueWord img off
  match ops.head? with
  | some (0, w) => controlNext img w (off + len)
  | _ => [off + len]

/-- Whether a word that can be read before any word that `stop` holds of is one that `hit` holds of. -/
def reachAny (img : List Byte) (stop hit : Nat → Bool) : (fuel : Nat) → (work seen : List Nat) → Bool
  | 0, _, _ => false
  | _, [], _ => false
  | n + 1, o :: work, seen =>
    if seen.contains o || decide ((imgCues img).len ≤ o) || stop o then reachAny img stop hit n work seen
    else if hit o then true
    else reachAny img stop hit n (wordNext img o ++ work) (o :: seen)

/-- The stream that an access names (R291): that of its sequence, or of the slot whose bytes or table entry lie there. -/
def addrStream (s : State) (ctx : Option (Nat × Nat)) (a : Nat) : Option Nat :=
  match regionOf a, ctx with
  | .sequence, _ => (tabGet ((a - 0x804000000000) / 0x1000000) s.aviary.seqs).bind fun x =>
      if x.kind == .prompt then none else some x.stream
  | _, some (b, n) =>
    let g := geom s b
    let at_ (base size : Nat) : Option Nat := if base ≤ a ∧ size ≠ 0 then some ((a - base) / size) else none
    let slot (k : Option Nat) : Option Nat := k.bind fun k => ((getBatch s b n).bind fun y => y.slots[k]?).bind fun x =>
      if x.filled then some x.stream else none
    (slot (at_ (geomArea g n) g.spitch)).or (slot (at_ (geomTable g n + 32) 32))
  | _, none => none

/-- The batch id that the package gives the ops of the word at an offset (DESIGN CHOICE, log 16). -/
def wordBatch (s : State) (off : Nat) : Option Nat :=
  s.pkg.bind fun p => (p.wordBatch.find? fun x => x.1 == off).map (·.2)

/-- The batch id of an op of the word at an offset: an AVIARY op's is that of its descriptor (R87, R167), another op's its word's. -/
def opBatch (s : State) (off : Nat) (op : Nat × BitVec 64) : Option Nat :=
  if op.1 = aviaryLane then some (field (imgAvd s.score.image (argDesc op.2)) 7 1) else wordBatch s off

/-- Whether words still to be read before batch id `b`'s next BELL hold an op of the batch that `p` holds of. -/
def moreOps (s : State) (b : Nat) (p : Nat → BitVec 64 → Bool) : Bool :=
  let img := s.score.image
  let start := match s.score.control with
    | some w => controlNext img w s.score.pc
    | none => if s.score.running then [s.score.pc] else []
  let stop (o : Nat) : Bool := (cueWord img o).1.any fun x => x.1 == 0 && opOpc x.2 == 4 && argHigh x.2 == b
  let hit (o : Nat) : Bool := (cueWord img o).1.any fun x => x.1 != 0 && opBatch s o x == some b && p x.1 x.2
  reachAny img stop hit ((imgCues img).len / 2 + 4) start []

/-- An op of the context with a property is queued or runs on some lane. -/
def holdsOp (s : State) (ctx : Nat × Nat) (p : Nat → BitVec 64 → Bool) : Bool :=
  s.score.lanes.zipIdx.any fun x =>
    let l := x.1
    let ofCue (c : Cue) : Bool := match c.action with | .slotOp w _ y => y == some ctx && p x.2 w | _ => false
    l.cues.any (fun c => ofCue c.cue) || l.held.any ofCue || l.due.any (fun o => o.ctx == some ctx && p x.2 o.word)
      || (match l.running with | some r => r.op.ctx == some ctx && p x.2 r.op.word | none => false)

/-- No further op of the batch with a property is to come: the batch is the newest closed of its id only while words of it
are still to be read. -/
def lastOf (s : State) (b n : Nat) (p : Nat → BitVec 64 → Bool) : Bool :=
  let newest := match s.score.batches[b]? with | some x => decide (x.issued ≤ n + 1) | none => false
  !holdsOp s (b, n) p && !(newest && moreOps s b p)

/-- Note a stage latency for each frame of a batch (R433). -/
def stampFrames (b n i : Nat) (s : State) : State :=
  match getBatch s b n with
  | some y => (batchFrames y).foldl (fun s x => updFrameNum x.1 x.2 (stamp i (nowNs s)) s) s
  | none => s

/-- A batch whose last op has completed ends: its late starts go to its frames (R40), which take their flagged rows (R145), and it
counts for its streams (R292). -/
def finishBatch (b n : Nat) (s : State) : State :=
  let s := match getBatch s b n with
    | some y => (batchFrames y).foldl (fun s x => updFrameNum x.1 x.2 (fun f => { f with
        late := f.late + y.lateStarts, flagged := frameFlagged s b n x.1 x.2 }) s) s
    | none => s
  let s := updScore (fun c => { c with
    measures := c.measures.filter fun x => !(x.batch == b && x.num == n && !x.owned) }) s
  endBatch b n (stampFrames b n 5 s)

/-- A pin cue of a batch's op has still to act (R40). -/
def pinsHold (s : State) (ctx : Nat × Nat) : Bool :=
  s.pins.any fun p => p.cues.any (fun c => c.cue.ctx == some ctx) || p.held.any fun c => c.ctx == some ctx

/-- End every belled batch of which no op and no pin cue is left; a training batch ends with its job. -/
def finishBatches (s : State) : State :=
  let belled := (s.score.batches.zipIdx.map fun x => (x.1.closed.map fun y => (x.2, y.num))).flatten
  belled.foldl (fun s x =>
    let written := match getBatch s x.1 x.2 with
      | some y => y.signalled || y.torn.isSome
      | none => false
    if written && lastOf s x.1 x.2 (fun _ _ => true) && !pinsHold s x then finishBatch x.1 x.2 s else s) s

/-- CUE_TAKE_EFFECT (R36, R38, R40, R43, R50): a cue takes effect when its island's replica reaches its instant; no cue takes effect
while islands 1 to 60 have no power (R57). With its last pin cue a batch's work is done (R40). -/
def execCueTakeEffect (t : CueTarget) (s : State) : Res :=
  inRange (targetOk t) s <|
    match t with
    | .ppsOut => doneIf (s.power.running && decide (s.band.ppsNext ≤ nowNs s)) (takePps s) s
    | .pin n => match (s.pins[n]?).bind nextPinCue with
      | some c => doneIf (s.power.running && decide ((c.cue.instant : Int) ≤ replicaNow t s)) (finishBatches (takePinCue n c s)) s
      | none => done s
    | .lane k => match (s.score.lanes[k]?).bind fun l => l.cues.head? with
      | some c => doneIf (s.power.running && decide ((c.cue.instant : Int) ≤ replicaNow t s)) (takeLaneCue k c s) s
      | none => done s

/-- An op is over: its unit is free, its pins end, it signals (R68, R169); the instant counts for R70. -/
def closeOp (k : Nat) (r : RunningOp) (s : State) : State :=
  let s := unpinPages r.pages (updLane k (fun l => { l with running := none }) s)
  finishBatches (signal k r.op (updScore (fun c => { c with lastDone := nowNs s }) s))

/-- An op of lanes 0, 54 and 55 starts and completes (R68); one of a torn-down batch runs as a skipped op
(R87), one that meets a fenced island 39 likewise with 0x0011 (R370). -/
def instantOp (k opc : Nat) (ok : IssuedOp → Bool) (work : IssuedOp → State → State) (s : State) : Res :=
  match (startable s k opc).filter (fun o => ok o && !laneSafe s k) with
  | none => done s
  | some o =>
    let t := beginOp k o s
    let t := if islandFenced s 39 then jobFault k o.ctx 0x0011 0 none t else if isTorn s o.ctx then t else work o t
    done (finishBatches (signal k o (updScore (fun c => { c with lastDone := nowNs s }) t)))

/-- NOP (R64): it waits on its gate, consumes or observes, and signals. -/
def execNop (lane : Nat) (s : State) : Res :=
  inRange (decide (lane < 56)) s <|
    if lane = 0 ∨ lane = 54 ∨ lane = 55 then instantOp lane 0 (fun _ => true) (fun _ s => s) s
    else startOp lane 0 (fun _ => true) (fun _ => []) (fun o s => occupy lane o [] true s) s

/-- A lane-0 op that acts on token STOK: it ignores SIG (R71). While island 39 is fenced it raises 0x0011 and leaves the tokens as a clean
run does (R87, R370). -/
def tokenOp (opc : Nat) (work : IssuedOp → State → State) (s : State) : Res :=
  match (startable s 0 opc).filter (fun _ => !laneSafe s 0) with
  | none => done s
  | some o =>
    let t := beginOp 0 o s
    let t := if islandFenced s 39 then jobFault 0 o.ctx 0x0011 0 none t else t
    done (updScore (fun c => { c with lastDone := nowNs s }) (work o t))

/-- TOKEN_SET (R64, R71). -/
def execTokenSet (s : State) : Res :=
  tokenOp 1 (fun o s => setTokenOp (opStok o.word) (argValue o.word) s) s

/-- TOKEN_ADD (R64, R69, R71). -/
def execTokenAdd (s : State) : Res := tokenOp 2 (fun o s => addToken (opStok o.word) (argValue o.word) none s) s

/-- A CLAIM op is active on a counter (R71). -/
def claimActive (s : State) (c : Nat) : Bool :=
  s.score.lanes.any fun l => match l.running with
    | some r => opOpc r.op.word == 0x11 && argCounter r.op.word == c && !r.finished
    | none => false

/-- CLAIM_OPEN (R71): it starts once no CLAIM op is active on its counter. -/
def execClaimOpen (s : State) : Res :=
  instantOp 0 3
    (fun o => !claimActive s (argHigh o.word))
    (fun o s => updClaim (argHigh o.word) (fun c => { c with value := 0, limit := argLimit o.word }) s) s

/-- A linked source has committed all its frames up to a time, or has closed (R177). -/
def sourceDone (s : State) (x : Stream) (upTo : Int) (l : Nat × Nat) : Bool :=
  if l.1 = s.trellis.chip then
    match stream? s l.2 with
    | none => true
    | some y => (match y.committed with | some (_, t) => decide (upTo ≤ t) | none => false)
  else x.commits.any fun c => c.1 == l.1 && c.2.1 == l.2 && (c.2.2.2 || decide (upTo ≤ c.2.2.1))

/-- XDELAY of a stream in ns, 1 s where the block leaves it 0 (R177, R420). -/
def xdelayNs (x : Stream) : Nat := (if x.cfg.xdelay = 0 then 1000 else x.cfg.xdelay) * 1000000

/-- The prompt slot that a frame with a timestamp uses (R180): that of the newest binding that takes effect by then. -/
def framePrompt (x : Stream) (stamp : Nat) : Option Nat :=
  ((x.bindings.filter fun b => decide (b.1 ≤ stamp)).getLast?).bind (·.2)

/-- A frame at its batch's bell: it has launched, and it is gallery-incomplete when a linked source is behind (R177, R286). -/
def launchFrame (n num : Nat) (s : State) : State :=
  match stream? s n with
  | none => s
  | some x =>
    updFrameNum n num (fun f =>
      if f.reason ≠ 0 then f else
      let behind := x.links.any fun l => !sourceDone s x ((f.stamp : Int) - xdelayNs x) l
      stamp 3 (nowNs s) { f with stage := .launched, galleryMissing := f.galleryMissing || behind, prompt := framePrompt x f.stamp }) s

/-- After the bell, once every granted slot is written, island 39 adds 1 to FILLTOK (R256). -/
def checkFill (b n : Nat) (s : State) : State :=
  match getBatch s b n with
  | none => s
  | some y =>
    if y.bellAt.isSome && !y.signalled && y.slots.all (·.written) then
      let t := (0 :: y.steered.map topiaryLane).foldl (fun s k => signalWrites k (geom s b).filltok s) s
      addToken (geom s b).filltok 1 (some (b, n)) (updBatch b n (fun y => { y with signalled := true }) t)
    else s

/-- A new batch (R255). -/
def freshBatch (n : Nat) : Batch :=
  { num := n, slots := [], bellAt := none, signalled := false, torn := none, blame := none, steered := [],
    lateStarts := 0, lens := [], invalid := [] }

/-- The slot-table header: instance number, fill count, bell beat (R257; the packing is DESIGN CHOICE, log 17). -/
def tableHeader (n fill beat : Nat) : List Byte := leBytes 4 n ++ leBytes 2 fill ++ leBytes 8 beat

/-- BELL on batch id `b` (R71, R255, R256): it closes the open batch, or an empty one of its own. -/
def ringBell (b : Nat) (o : IssuedOp) (s : State) : State :=
  match s.score.batches[b]? with
  | none => s
  | some x =>
    let y := x.cur.getD (freshBatch x.next)
    let s := updBatchId b (fun x => { x with
      cur := none, next := y.num + 1, closed := x.closed ++ [{ y with bellAt := some o.instant }],
      fill := y.slots.length, lastBell := some o.instant }) s
    let g := geom s b
    let s := writing 0 (writePhys .lc (cellsAt (geomTable g y.num) (tableHeader y.num y.slots.length o.beat) false)) s
    checkFill b y.num ((batchFrames y).foldl (fun s f => launchFrame f.1 f.2 s) s)

/-- BELL (R71). -/
def execBell (s : State) : Res :=
  instantOp 0 4 (fun _ => true) (fun o s => ringBell (argHigh o.word) o s) s

/-- The bell times of the BELLs of a batch id that are issued and have not acted yet (R71). -/
def bellsIssued (s : State) (b : Nat) : List Nat :=
  match s.score.lanes[0]? with
  | none => []
  | some l =>
    let isBell (w : BitVec 64) : Bool := opOpc w == 4 && argHigh w == b
    let ofCue (c : Cue) : Option Nat := match c.action with
      | .slotOp w _ _ => if isBell w then some c.instant else none
      | _ => none
    (l.due.filterMap fun o => if isBell o.word then some o.instant else none)
      ++ l.cues.filterMap (fun c => ofCue c.cue) ++ l.held.filterMap ofCue

/-- A batch id has not passed the bell time of its last BELL issued (R72). -/
def bellPending (s : State) (b : Nat) : Bool := (bellsIssued s b).any fun t => decide (nowNs s < t)

/-- The fill count that BRANCH_FILL compares (R71): as its batch's last BELL froze it, or, where that BELL's bell time has passed and its
gate still holds it, as it would freeze it now (DESIGN CHOICE, log 233). -/
def fillAtBell (s : State) (b : Nat) : Nat :=
  match s.score.batches[b]? with
  | none => 0
  | some x => if (bellsIssued s b).isEmpty then x.fill else match x.cur with | some y => y.slots.length | none => 0

/-- The sequencer stops reading (R71, R74): at HALT, or at a JUMP while a halt is requested; `resume` is where that JUMP
leads, and the time of the halt counts for the pause of R487. -/
def haltScore (resume : Nat) (s : State) : State :=
  updScore (fun c => { c with running := false, control := none, resumeAt := resume })
    (updPower (fun p => { p with update := { p.update with haltedAt := nowNs s } }) s)

/-- A control op waits to be evaluated. -/
def control? (s : State) (opc : Nat) : Option (BitVec 64) := s.score.control.filter fun w => opOpc w == opc

/-- The sequencer goes on at an offset. -/
def goTo (off : Nat) (s : State) : State := updScore (fun c => { c with pc := off, control := none }) s

/-- A score op's cue at its unit: at a beat, 256 ns of which the sequencer has ahead where it does not stall (R37, R39). -/
def opCue (s : State) (k beat : Nat) (w : BitVec 64) (ctx : Option (Nat × Nat)) : Cue :=
  { target := .lane k, source := .score, instant := s.score.epoch + 64 * beat, action := .slotOp w beat ctx, lateLimit := 0 }

/-- The BRANCH_FILL that waits for its evaluation and may have it: its batch has passed its bell time (R72). -/
def branchReady (s : State) : Option (BitVec 64) := (control? s 5).filter fun w => !bellPending s (argHigh w)

/-- BRANCH_FILL (R71, R72): it is evaluated when it is issued, and its issue stalls while its batch's bell time is still to come; at its
beat the op waits on its gate and signals. While one stalls, an earlier one may start. -/
def execBranchFill (s : State) : Res :=
  match branchReady s with
  | some w =>
    done (goTo (if fillAtBell s (argHigh w) < argThreshold w then imgTarget s.score.image (argTarget w) else s.score.pc)
      (issueCue (opCue s 0 (s.score.beat - 1) w none) s))
  | none => instantOp 0 5 (fun _ => true) (fun _ s => s) s

/-- JUMP (R71, R74). -/
def execJump (s : State) : Res :=
  match control? s 6 with
  | some w =>
    let t := imgTarget s.score.image (argTarget w)
    done (if s.score.haltReq then haltScore t s else goTo t s)
  | none => instantOp 0 6 (fun _ => true) (fun _ s => s) s

/-- HALT (R71): a score that ends by itself has no JUMP left to halt at. -/
def execHalt (s : State) : Res :=
  match control? s 7 with
  | some _ => done (updScore (fun c => { c with haltReq := false }) (haltScore s.score.pc s))
  | none => instantOp 0 7 (fun _ => true) (fun _ s => s) s

/-- SCORE_START (R90): at the epoch the sequencer starts, so that the word at ENTRY, or where a restart names, covers its
beat; it reads 256 ns ahead (R39). -/
def execScoreStart (s : State) : Res :=
  let c := s.score
  doneIf (c.armed && s.power.running && decide (c.epoch + 64 * c.beat ≤ nowNs s + 256))
    (updScore (fun c => { c with armed := false, running := true, stopped := false }) s) s

/-- Whether a lane still holds a score cue at the distributor (R41). -/
def heldAnywhere (s : State) : Bool :=
  s.score.lanes.any (fun l => !l.held.isEmpty) || s.pins.any (fun p => !p.held.isEmpty)

/-- Whether the sequencer may read the next word: 256 ns before its beat (R39), with no stall of R41 and R72. -/
def mayIssue (s : State) : Bool :=
  s.score.running && s.score.control.isNone && !s.power.breath && !unitFenced s 39 (laneUnit 0) && !heldAnywhere s &&
    decide (s.score.epoch + 64 * s.score.beat ≤ nowNs s + 256)

/-- The context of an op of a word (R87): the batch that the last issued BELL of its batch id closes. Control and STEER ops belong to
none. -/
def opContext (s : State) (off : Nat) (op : Nat × BitVec 64) : Option (Nat × Nat) :=
  if op.1 = 0 ∨ (49 ≤ op.1 ∧ op.1 ≤ 52) then none
  else match opBatch s off op with
    | some b => match s.score.batches[b]? with
      | some x => if x.issued = 0 then none else some (b, x.issued - 1)
      | none => none
    | none => none

/-- Issue one op of a word as a cue at its beat (R38, R61); an op of lane 54 is handed to the pins ahead of its beat, so that
its cue keeps its lead (R68). One of its other ops that is issued less than 160 ns ahead, or while its island is not time-ready, is late
(R36, R39). -/
def issueOp (off : Nat) (op : Nat × BitVec 64) (s : State) : State :=
  let beat := s.score.beat
  let at_ := s.score.epoch + 64 * beat
  let ctx := opContext s off op
  if op.1 = 54 then
    let late := (decide (at_ < nowNs s + 160) || !targetReady (.lane pinLane) s) && !decide (0x38 ≤ opOpc op.2 ∧ opOpc op.2 ≤ 0x3B)
    updLane 54 (fun l => { l with
      lateCues := l.lateCues + (if late then 1 else 0)
      due := l.due ++ [{ word := op.2, beat := beat, instant := at_, since := steadyNs s, ctx := ctx, late := late,
                         issued := some (nowNs s) }] }) s
  else issueCue (opCue s op.1 beat op.2 ctx) s

/-- The control op of a word, where it has one. -/
def wordControl (ops : List (Nat × BitVec 64)) : Option (BitVec 64) :=
  (ops.find? fun x => x.1 == 0 && decide (5 ≤ opOpc x.2 ∧ opOpc x.2 ≤ 7)).map (·.2)

/-- The BELL of a word counts as issued before the word's other ops take their contexts. -/
def countBell (ops : List (Nat × BitVec 64)) (s : State) : State :=
  match ops.find? fun x => x.1 == 0 && opOpc x.2 == 4 with
  | some (_, w) => updBatchId (argHigh w) (fun x => { x with issued := x.issued + 1 }) s
  | none => s

/-- The ops of a word that are issued as it is read: a BRANCH_FILL is issued with its evaluation (R72). -/
def issuedNow (ops : List (Nat × BitVec 64)) : List (Nat × BitVec 64) := ops.filter fun x => !(x.1 == 0 && opOpc x.2 == 5)

/-- Where the cue stream and its descriptors lie, in the real-time region (R296; the place is DESIGN CHOICE, log 8). -/
def scorePlace : Nat := 0x1C70000000

/-- The descriptor that an op's word names, as a range of the score image (R61, R76). -/
def opDescriptor (img : List Byte) (op : Nat × BitVec 64) : Option (Nat × Nat) :=
  let c := opOpc op.2
  let at_ (sec : Section) (n : Nat) : Option (Nat × Nat) := some (sec.off + n * argDesc op.2, n)
  if c = 0x10 ∨ c = 0x11 then at_ (imgTiles img) 64
  else if c = 0x18 then at_ (imgVecs img) 64
  else if 0x20 ≤ c ∧ c ≤ 0x22 then at_ (imgMoves img) 32
  else if c = 0x30 then at_ (imgAvds img) 32
  else none

/-- The sequencer fetches a word of the cue stream and the descriptors of its ops through their slices, in class LC (R273, R308). -/
def fetchWord (off : Nat) (s : State) : State :=
  let (ops, len) := cueWord s.score.image off
  (((off, len) :: ops.filterMap (opDescriptor s.score.image)).foldl
    (fun s r => unitRead .lc (scorePlace + r.1) r.2 s) s)

/-- SCORE_WORD_ISSUE (R39, R60, R62): the ops of the next word are issued; the word after it covers the next beat. -/
def issueWord (s : State) : State :=
  let off := s.score.pc
  let (ops, len) := cueWord s.score.image off
  let s := (issuedNow ops).foldl (fun s op => issueOp off op s) (countBell ops (fetchWord off s))
  updScore (fun c => { c with pc := off + len, beat := c.beat + 1, control := wordControl ops }) s

/-- SCORE_WORD_ISSUE. -/
def execScoreWordIssue (s : State) : Res := doneIf (mayIssue s) (issueWord s) s

/-- The score has stopped reading and no op is left on any lane. -/
def drained (s : State) : Bool :=
  !s.score.running && s.score.lanes.all fun l => l.cues.isEmpty && l.held.isEmpty && l.due.isEmpty && l.running.isNone

/-- STEER (R141, R255, R257): the first one after a BELL opens the next batch and clears its bank's latches and the FLAGS of its
slot table. -/
def openBatch (t b : Nat) (s : State) : State :=
  match s.score.batches[b]? with
  | none => s
  | some x => match x.cur with
    | some y => updBatch b y.num (fun y => { y with steered := setAdd t y.steered }) s
    | none =>
      let n := x.next
      let s := updBatchId b (fun x => { x with cur := some { freshBatch n with steered := [t] }, next := n + 1 }) s
      let s := updScore (fun c => { c with latches := c.latches.filter fun l => !(l.2.1 == b && l.2.2.1 == n % 2) }) s
      let g := geom s b
      let cells := (List.range g.slots).map fun i =>
        ({ addr := geomTable g n + 32 + 32 * i + 1, val := 0, mark := false } : Cell)
      writing (topiaryLane t) (writePhys .lc cells) s

/-- STEER (R64, R255). -/
def execSteer (topiary : Nat) (s : State) : Res :=
  inRange (decide (topiary < 4)) s <|
    startOp (topiaryLane topiary) 0x28 (fun _ => true) (fun _ => [])
      (fun o s => occupy (topiaryLane topiary) o [] true (openBatch topiary (argHigh o.word) s)) s

/-- The cue of a lane-54 op, with its pin's late limit and the batch whose work it is (R40, R64). -/
def pinCue (o : IssuedOp) (a : CueAction) (s : State) : Cue :=
  let n := argPin o.word
  let limit := match s.pins[n]? with | some p => p.par.lateLimit | none => 0
  { target := .pin n, source := .score, instant := o.instant, action := a, lateLimit := limit, ctx := o.ctx, opIssued := o.issued,
    counted := o.late || lateStart s o }

/-- An op of lane 54 hands its cue to the pin (R64, R68). It completes when the cue is armed there: at once, or, where the
distributor holds the cue behind a full queue, once HELD_CUE_RELEASE has let it in; till then it keeps the lane. -/
def pinOp (opc : Nat) (action : IssuedOp → CueAction) (s : State) : Res :=
  match (startable s pinLane opc).filter (fun _ => !laneSafe s pinLane) with
  | some o =>
    if !isTorn s o.ctx && !islandFenced s 39 && pinHolds (argPin o.word) s then
      done (occupy pinLane o [] false (issueCue (pinCue o (action o) s) (beginOp pinLane o s)))
    else instantOp pinLane opc (fun _ => true) (fun o t => issueCue (pinCue o (action o) t) t) s
  | none => done s

/-- PIN_LEVEL, PIN_PULSE, STROBE_START and STROBE_STOP (R64). -/
def execPinLevel (s : State) : Res := pinOp 0x38 (fun o => .level (argBit o.word)) s
def execPinPulse (s : State) : Res := pinOp 0x39 (fun o => .pulse (8 * argWidth o.word)) s
def execStrobeStart (s : State) : Res := pinOp 0x3A (fun _ => .strobeStart) s
def execStrobeStop (s : State) : Res := pinOp 0x3B (fun _ => .strobeStop) s

/-- REFLEX_ARM (R45, R64): it acts at its beat. -/
def execReflexArm (s : State) : Res :=
  instantOp pinLane 0x3C (fun _ => true)
    (fun o s => updReflex (argPin o.word) (fun x => { x with par := { x.par with armed := argBit o.word } }) s) s

/-- DIGEST (R64, R149): the digest of each frame of the batch goes into the trace ring. -/
def execDigest (s : State) : Res :=
  instantOp traceLane 0x3E (fun _ => true) (fun o s =>
    match o.ctx with
    | some (b, n) => match getBatch s b n with
      | some y =>
        let l := argValue o.word
        updScore (fun c => { c with
          trace := c.trace ++ (batchFrames y).map fun f => .digest l f.1 f.2 (digestOf s l f.1 f.2) }) s
      | none => s
    | none => s) s

/-- TRACE (R64). -/
def execTrace (s : State) : Res :=
  instantOp traceLane 0x3F (fun _ => true)
    (fun o s => updScore (fun c => { c with trace := c.trace ++ [.marker (opArg o.word) o.beat] }) s) s

/-- A kept record of an NMS output (R118, R119). -/
def nmsRecord (b : List Byte) : Detection :=
  { box := [field b 0 2, field b 2 2, field b 4 2, field b 6 2], score := field b 8 2, cls := field b 10 2 }

/-- The bytes of a candidate record (R118). -/
def candidateBytes (d : Detection) : List Byte :=
  (d.box.map (leBytes 2)).flatten ++ leBytes 2 d.score ++ leBytes 2 d.cls ++ leBytes 4 0

/-- What Quinbuar reads of image `v` of an NMS op's output. -/
def nmsReads (k : Nat) (s : State) (d : VecDesc) (v : Nat) : List ByteRead :=
  let a := d.out + v * d.opitch
  let head := readOp k s a 4
  head ++ readFrom k s a (a + 4) (16 * min 1024 (leNat (readVals head)))

/-- The kept records of image `v` of an NMS op's output, and whether a byte carries a mark, or lies in a word that cannot be
corrected (R305, R356). The op on lane `k` has handed them over, so that what it has written is seen. -/
def nmsOutput (k : Nat) (s : State) (d : VecDesc) (v : Nat) : List Detection × Bool :=
  let r := nmsReads k s d v
  ((chunks 16 (r.length / 16) (readVals (r.drop 4))).map nmsRecord, readPoison r || (readError r).isSome)

/-- A frame whose analytics read a marked element: the status is that of the mark's first source (R361). -/
def poisonFrame (n num : Nat) (mark : Bool) (s : State) : State :=
  if mark then updFrameNum n num (fun f => { f with poison := f.poison.or (some (if s.mem.cause = 0 then 0x0611 else s.mem.cause)) }) s
  else s

/-- What that read leaves behind: it passes the windows and the slices as Quinbuar's (R308, R316), errors of words are corrected or
logged (R305), an access that fails is logged (R313), and a mark names its source (R361). -/
def noteNms (k : Nat) (d : VecDesc) (v : Nat) (s : State) : State :=
  let r := nmsReads k s d v
  let t := (windowPages (r.map (·.seen))).foldl (fun s p => tlbFill (tlbGroup noLane) p s) s
  let words := ((r.filter fun x => backed s x.addr).map fun x => if isSram x.addr then x.addr / 8 * 8 else x.addr / 64 * 64).eraseDups
  let t := words.foldl (fun s a => unitRead .control a (if isSram a then 8 else 64) s) t
  let t := match r.find? fun x => x.error.isSome && x.error != some 0x0611 with
    | some x => logErr (x.error.getD 0) 1 0 t { arg0 := x.seen }
    | none => t
  noteMark s r t

/-- One coordinate from a slot into its frame, kept in 16 bits (R258, R431). -/
def mapCoord (x origin inner crop size : Nat) : Nat :=
  (clamp 0 65535 (16 * origin + divHalfEven (((x : Int) - 16 * inner) * crop) (max 1 size))).toNat

/-- A detection in frame coordinates (R258). -/
def mapDetection (k : Slot) (d : Detection) : Detection :=
  { d with box := [mapCoord (d.box.getD 0 0) k.cx k.ox k.cw k.iw, mapCoord (d.box.getD 1 0) k.cy k.oy k.ch k.ih,
                   mapCoord (d.box.getD 2 0) k.cx k.ox k.cw k.iw, mapCoord (d.box.getD 3 0) k.cy k.oy k.ch k.ih] }

/-- Set a length register (R78). -/
def setLen (i v : Nat) (s : State) : State := updScore (fun c => { c with lens := upd c.lens i (fun _ => v) }) s

/-- After the batch's NMS (R258): each frame's detections in crop-index order, its list for the frame-level NMS padded with
zero records to the longest (R78; padding and layout are DESIGN CHOICE, log 18), the length registers, and the token. -/
def mapBatch (k : Nat) (p : Package) (b n : Nat) (d : VecDesc) (s : State) : State :=
  match getBatch s b n with
  | none => s
  | some y =>
    let lists := (batchFrames y).map fun f =>
      let mine := sortBy (fun a b : Slot × Nat => decide (a.1.crop < b.1.crop))
        (y.slots.zipIdx.filter fun k => k.1.stream == f.1 && k.1.frame == f.2 && k.1.filled)
      let outs := mine.map fun x => (x.1, nmsOutput k s d x.2)
      (f, (outs.map fun o => o.2.1.map (mapDetection o.1)).flatten, outs.any fun o => o.2.2, mine.map (·.2))
    let most := (lists.map fun x => x.2.1.length).foldl max 0
    let s := lists.zipIdx.foldl (fun s x =>
      let recs := (x.1.2.1.map candidateBytes).flatten ++ List.replicate (16 * (most - x.1.2.1.length)) 0
      let s := x.1.2.2.2.foldl (fun s v => noteNms k d v s) s
      poisonFrame x.1.1.1 x.1.1.2 x.1.2.2.1
        (writing noLane (writePhys .control (cellsAt (p.detectionList + x.2 * p.detectionPitch) recs x.1.2.2.1)) s)) s
    let tracks := (lists.map fun x => (trackList s x.1.1).length).foldl max 0
    let lens : List (Nat × List (Nat × Nat × Nat)) :=
      [(p.detectionLength, lists.map fun x => (x.1.1, x.1.2, x.2.1.length)),
       (p.trackLength, lists.map fun x => (x.1.1, x.1.2, (trackList s x.1.1).length))]
    let s := updBatch b n (fun y => { y with lens := lens }) s
    addToken p.detectionToken 1 (some (b, n)) (signalWrites noLane p.detectionToken (setLen p.trackLength tracks (setLen p.detectionLength most s)))

/-- After the frame-level NMS (R258, R433): each frame's detections. -/
def takeDetections (k b n : Nat) (d : VecDesc) (s : State) : State :=
  match getBatch s b n with
  | none => s
  | some y =>
    let s := (batchFrames y).zipIdx.foldl (fun s x =>
      let (ds, mark) := nmsOutput k s d x.2
      updFrameNum x.1.1 x.1.2 (fun f => if f.reason ≠ 0 then f else { f with detections := ds, stage := .detected })
        (poisonFrame x.1.1 x.1.2 mark (noteNms k d x.2 s))) s
    stampFrames b n 4 s

/-- What Quinbuar does when an NMS op of a batch completes (R258); for a torn-down batch only its token is signalled, so that the tokens
end as in a clean run (R87). -/
def afterNms (k : Nat) (o : IssuedOp) (s : State) : State :=
  match s.pkg, o.ctx with
  | some p, some (b, n) =>
    let d := imgVec s.score.image (argDesc o.word)
    if opOpc o.word ≠ 0x18 || decide (k < 17) || d.func ≠ 5 then s
    else if isTorn s o.ctx then
      if argDesc o.word = p.batchNms then addToken p.detectionToken 1 (some (b, n)) s else s
    else if argDesc o.word = p.batchNms then mapBatch k p b n d s
    else if d.in0 = p.detectionList then takeDetections k b n d s
    else s
  | _, _ => s

/-- The last op of a layer for a batch settles the layer before it signals (R141). -/
def afterLayer (k : Nat) (o : IssuedOp) (s : State) : State :=
  match opLayer s k o.word, o.ctx with
  | some l, some (b, n) =>
    if isTorn s o.ctx then s
    else if lastOf s b n (fun k w => opLayer s k w == some l) then writing k (settleLayer b n l) s else s
  | _, _ => s

/-- A DRAM read of a lane's op waits at its controller (R308, R326). -/
def readsPending (s : State) (k : Nat) : Bool :=
  s.mem.chans.any fun c => c.queue.any fun r => !r.write && r.lane == some k

/-- OP_COMPLETE (R68): an op whose last effect is made, and whose reads have come, becomes visible, settles its layer, and signals. -/
def execOpComplete (lane : Nat) (s : State) : Res :=
  match s.score.lanes[lane]? with
  | none => done s
  | some l => match l.running with
    | some r =>
      if r.finished && !readsPending s lane then
        let t := updLane lane (fun l => { l with running := none }) s
        done (closeOp lane r (afterNms lane r.op (afterLayer lane r.op t)))
      else done s
    | none => done s

/-- Every batch, open or closed, is torn down (R70, R290): a batch that STEER has opened and no BELL has closed counts as in flight (DESIGN
CHOICE, log 166). -/
def tearAll (status : Nat) (s : State) : State :=
  let all := (s.score.batches.zipIdx.map fun x =>
    (x.1.closed.map fun y => (x.2, y.num)) ++ (match x.1.cur with | some y => [(x.2, y.num)] | none => [])).flatten
  all.foldl (fun s x => tearDown x.1 x.2 status none s) s

/-- GATE_WATCHDOG (R70): an op has waited on its gate longer than WATCHDOG; the sequencer halts and every batch in flight
faults. The wait counts from the op's release to its lane, also while the unit is still busy with the op before it (DESIGN CHOICE,
log 167). -/
def execGateWatchdog (lane : Nat) (s : State) : Res :=
  match s.score.lanes[lane]? with
  | none => done s
  | some _ => match headOp s lane with
    | some o =>
      if !gateOk o.word s && !s.score.watchdogHalt && decide (o.since + 1000 * imgWatchdog s.score.image < steadyNs s) then
        let s := logErr 0x0420 39 0 s { arg0 := lane, arg1 := opWtok o.word, torn := true }
        let s := tearAll 0x0420 s
        done (updScore (fun c => { c with
          running := false, control := none, watchdogHalt := true,
          lanes := c.lanes.map fun l => { l with cues := l.cues.filter fun q => q.cue.source != .score, held := [], due := [] } }) s)
      else done s
    | none => done s

/-- The initial token values of an image (R88, R90). -/
def initialTokens (img : List Byte) : Tab Nat :=
  ((List.range (imgTokInit img).len).map fun i => (i, field img ((imgTokInit img).off + 2 * i) 2)).filter fun x => x.2 != 0

/-- Claim counters at 0 (R70). -/
def zeroClaims (l : List Claim) : List Claim := l.map fun c => { c with value := 0 }

/-- A batch id after a watchdog halt: its batches are gone, the next keeps its number (R70). -/
def dropBatches (x : BatchId) : BatchId := { x with issued := x.next, cur := none, closed := [] }

/-- End every batch that the watchdog has torn down, for its streams (R292). -/
def closeTorn (s : State) : State :=
  let all := (s.score.batches.zipIdx.map fun x =>
    (x.1.closed.map fun y => (x.2, y.num)) ++ (match x.1.cur with | some y => [(x.2, y.num)] | none => [])).flatten
  let s := all.foldl (fun s x => endBatch x.1 x.2 s) s
  updScore (fun c => { c with batches := c.batches.map dropBatches }) s

/-- The beat at which the restart word runs and the epoch in force (R70): at least 1 ms after the last completion. -/
def restartPoint (s : State) : Nat × Nat :=
  let c := s.score
  let from_ := c.lastDone + 1000000
  match c.restartSpacing with
  | some sp =>
    let k := ceilDiv (from_ - (c.epoch + 64 * c.restartBeat)) (64 * max 1 sp)
    (c.restartBeat + k * sp, c.epoch)
  | none => (c.restartBeat, roundUp from_ 64 - 64 * c.restartBeat)

/-- SCORE_RESTART (R70): tokens and claim counters are reloaded, and the score starts at RESTART; a halt requested meanwhile
stands instead (DEDUCED, log 19). -/
def execScoreRestart (s : State) : Res :=
  let c := s.score
  if c.watchdogHalt && c.lanes.all (fun l => l.running.isNone) && !s.power.breath then
    let s := closeTorn s
    let target := imgTarget c.image (imgRestart c.image)
    let s := updScore (fun c => { c with
      tokens := initialTokens c.image, cycles := [], claims := zeroClaims c.claims, watchdogHalt := false, pc := target }) s
    if c.haltReq then done (haltScore target s)
    else
      let (beat, epoch) := restartPoint s
      let s := updScore (fun c => { c with beat := beat, epoch := epoch, armed := true }) s
      done (logErr 0x0420 39 0 s { arg0 := epoch + 64 * beat, arg1 := epoch })
  else done s

/-- What a walk of the cue stream meets: BELLs with their batch id and beat, and the beats of the RESTART word. -/
structure Walk where
  bells : List (Nat × Nat)
  restarts : List Nat
  deriving DecidableEq, Repr

/-- The control op of the word at an offset. -/
def controlAt (img : List Byte) (off : Nat) : Option (BitVec 64) := ((cueWord img off).1.find? fun x => x.1 == 0).map (·.2)

/-- The walk from an offset with every BRANCH_FILL taken or none (R274): one word for each beat, until HALT or `fuel` words. -/
def walkFrom (img : List Byte) (taken : Bool) : (fuel off beat : Nat) → Walk → Walk
  | 0, _, _, w => w
  | fuel + 1, off, beat, w =>
    let w := if off = imgTarget img (imgRestart img) then { w with restarts := w.restarts ++ [beat] } else w
    let next := off + (cueWord img off).2
    match controlAt img off with
    | none => walkFrom img taken fuel next (beat + 1) w
    | some op =>
      let opc := opOpc op
      if opc = 7 then w
      else if opc = 4 then walkFrom img taken fuel next (beat + 1) { w with bells := w.bells ++ [(argHigh op, beat)] }
      else if opc = 6 ∨ (opc = 5 ∧ taken) then walkFrom img taken fuel (imgTarget img (argTarget op)) (beat + 1) w
      else walkFrom img taken fuel next (beat + 1) w

/-- Where the walk that takes every BRANCH_FILL, or none, reads its first word (R71, R274): behind a control op that the sequencer has
read and not yet evaluated, that op leads there; behind a HALT there is none. -/
def walkStart (s : State) (taken : Bool) : Option Nat :=
  let c := s.score
  match c.control with
  | none => some c.pc
  | some w =>
    if opOpc w = 7 then none
    else if opOpc w = 6 ∨ (opOpc w = 5 ∧ taken) then some (imgTarget c.image (argTarget w))
    else some c.pc

/-- The bell times of an irregular batch id that are still to come (R275, R284): of BELLs issued and not yet at their beat, then of
those ahead of the sequencer, by the walk that meets one first (DESIGN CHOICE, log 181). -/
def bellsAhead (s : State) (b : Nat) : List Nat :=
  let c := s.score
  let walk (taken : Bool) : List Nat :=
    match walkStart s taken with
    | some pc => ((walkFrom c.image taken ((imgCues c.image).len / 8) pc c.beat { bells := [], restarts := [] }).bells.filter
        fun x => x.1 == b).map fun x => c.epoch + 64 * x.2
    | none => []
  let first (a b : List Nat) : List Nat := if a.isEmpty then b else if b.isEmpty then a else if a < b then a else b
  let ahead := if c.running || c.armed then first (walk false) (walk true) else []
  (bellsIssued s b ++ ahead).filter fun t => decide (nowNs s ≤ t)

end Sys2Proof.Machine
end

