-- ==== Sys2Proof/Machine/Tracking.lean ====
section
/-! DEFINITION. Aviary ops and their commit (R167 to R180): GATHER, ASSOC, UPDATE, APPEND and ALIST work on the frames of a
batch and leave their effects in per-frame journals; RECORD_FORM commits a journal with `commitEffect`. -/

namespace Sys2Proof.Machine

/-- An Aviary descriptor (R167). -/
structure AvDesc where
  func : Nat
  flags : Nat
  layer : Nat
  nlay : Nat
  lend : Nat
  lent : Nat
  batch : Nat
  src : Nat
  dst : Nat
  p0 : Nat
  p1 : Nat
  deriving DecidableEq, Repr

/-- The Aviary descriptor in 32 bytes (R167). -/
def parseAv (b : List Byte) : AvDesc :=
  { func := field b 0 1, flags := field b 1 1, layer := field b 2 2, nlay := field b 4 1, lend := field b 5 1,
    lent := field b 6 1, batch := field b 7 1, src := field b 8 8, dst := field b 16 8, p0 := field b 24 4,
    p1 := field b 28 4 }

/-- Descriptor `i` of the resident image. -/
def avDesc (s : State) (i : Nat) : AvDesc := parseAv (imgAvd s.score.image i)

/-- The batch that an Aviary op acts on: its own context, or else the last belled batch of its BATCH (DEDUCED, log 16). -/
def avBatch (s : State) (d : AvDesc) (o : IssuedOp) : Option Batch :=
  match o.ctx with
  | some (b, n) => if b = d.batch then getBatch s b n else lastBelled s d.batch
  | none => lastBelled s d.batch
where
  lastBelled (s : State) (b : Nat) : Option Batch := (s.score.batches[b]?).bind fun x => x.closed.getLast?

/-- One frame that an Aviary op acts on: its place among the batch's frames, its stream and its frame. -/
structure AvFrame where
  place : Nat
  n : Nat
  stream : Stream
  frame : Frame
  num : Nat
  deriving DecidableEq, Repr

/-- The frames of a batch that belong to streams with tracking enabled, in ascending stream order (R168, R420). -/
def avFrames (s : State) (y : Batch) : List AvFrame :=
  let fs := (batchFrames y).zipIdx.filterMap fun x =>
    (stream? s x.1.1).bind fun st =>
      if bitAt st.cfg.modes 3 then
        (frameByNum st x.1.2).map fun f =>
          ({ place := x.2, n := x.1.1, stream := st, frame := f, num := x.1.2 } : AvFrame)
      else none
  sortBy (fun a b : AvFrame => decide (a.n < b.n)) fs

/-- D or T of R170: the value of the length register, at most 1,024; where none is named, the frame's own count (DESIGN CHOICE,
log 207). -/
def cappedBy (s : State) (reg n : Nat) : Nat := min 1024 (if reg = 0xFF then n else s.score.lens.getD reg 0)

/-- The effects that the journal of a frame holds (R174). -/
def journalOf (s : State) (n num : Nat) : List AviaryEffect :=
  match s.aviary.journals.find? fun j => j.stream == n && j.frame == num with
  | some j => j.effects
  | none => []

/-- Add effects to a frame's journal (R174). -/
def addEffects (n num : Nat) (es : List AviaryEffect) (s : State) : State :=
  updAviary (fun a =>
    match posOf (fun j : FrameJournal => j.stream == n && j.frame == num) a.journals with
    | some i => { a with journals := upd a.journals i fun j => { j with effects := j.effects ++ es } }
    | none => { a with journals := a.journals ++ [{ stream := n, frame := num, effects := es }] }) s

/-- The offset of a frame's block in an array of one block of `size` bytes per frame of the batch (DESIGN CHOICE, log 21). -/
def frameBlock (a : AvFrame) (size : Nat) : Nat := a.place * size

/-- The page of a sequence's slot in a layer. -/
def slotPage (s : State) (q layer slot : Nat) : Option Nat := tabGet (mapKey q layer (slot / 16)) s.aviary.maps

/-- Prefix tokens and own tokens of a sequence, oldest first (R153, R158). -/
def prefixTokens (x : Seq) : List Token := x.tokens.filter fun t => decide (t.slot < 16 * x.ppages)
def ownTokens (x : Seq) : List Token := x.tokens.filter fun t => decide (16 * x.ppages ≤ t.slot)

/-- The newest `n` of a list. -/
def lastN {α : Type} (n : Nat) (l : List α) : List α := l.drop (l.length - n)

/-- The tokens that GATHER reads of a track: the prefix and the newest P0 own ones (R168). -/
def gatherTokens (p0 : Nat) (x : Seq) : List Token := prefixTokens x ++ lastN p0 (ownTokens x)

/-- The pages that GATHER touches for one stream (R168, R169). -/
def gatherPages (s : State) (d : AvDesc) (n : Nat) : List Nat :=
  (((trackList s n).map fun q => ((List.range d.nlay).map fun j =>
    (gatherTokens d.p0 q.2).filterMap fun t => slotPage s q.1 (d.layer + j) t.slot).flatten).flatten).eraseDups

/-- The pages of the sequence window that `n` bytes from an address touch (R169). -/
def rangePages (s : State) (a n : Nat) : List Nat :=
  if regionOf a = .sequence then ((List.range (ceilDiv n 4096 + 1)).filterMap fun i => pageOf s (a + min (n - 1) (4096 * i))).eraseDups
  else []

/-- The page slot that a track's next own token falls into, where the track has begun it (R158). -/
def appendSlot (tp : Nat) (x : Seq) : Option Nat :=
  let n := (ownTokens x).length
  if n % 16 = 0 then none else some (x.ppages + (x.head - x.ppages + n / 16) % max 1 tp)

/-- The pages of layers `l` to `l + n - 1` that a token appended to a track is written to (R158, R162). -/
def appendPages (s : State) (tp q l n : Nat) : List Nat :=
  match tabGet q s.aviary.seqs with
  | some x => match appendSlot tp x with
    | some k => (List.range n).filterMap fun j => tabGet (mapKey q (l + j) k) s.aviary.maps
    | none => []
  | none => []

/-- The trailing pages of a sequence that a fork copies: those with fewer than 16 tokens (R160). -/
def tailPages (s : State) (q : Option Nat) : List Nat :=
  match q.bind fun q => (tabGet q s.aviary.seqs).map fun x => (q, x) with
  | some (q, x) =>
    let part := ((x.tokens.map (·.slot / 16)).eraseDups).filter fun k =>
      decide ((x.tokens.filter fun t => t.slot / 16 == k).length < 16)
    ((List.range (kvLayers s)).map fun l => part.filterMap fun k => tabGet (mapKey q l k) s.aviary.maps).flatten
  | none => []

/-- The status of the first page among them that a failed transfer has marked (R166). -/
def markedPage (s : State) (ps : List Nat) : Option Nat :=
  ps.findSome? fun d => match tabGet d s.aviary.pages with | some p => if p.poison && pageBad p != 0 then some (pageBad p) else none | none => none

/-- The pages among them that are not in the hot tier (R162). -/
def coldPages (s : State) (ps : List Nat) : List Nat :=
  ps.filter fun d => match tabGet d s.aviary.pages with | some p => p.tier != .hot | none => false

/-- What the Aviary reads of token slot `t` of a page in the hot tier: key codes, then value codes (R155). -/
def tokenReads (s : State) (d t : Nat) : List ByteRead :=
  match tabGet d s.aviary.pages with
  | none => []
  | some p =>
    let half := kvWidth s / 2
    let at_ (off i : Nat) : Nat := hotBase + p.frame * 4096 + off + t % 16 * half + i
    (((List.range half).map (at_ 0)) ++ (List.range half).map (at_ (8 * kvWidth s))).map fun a =>
      readTarget aviaryLane s a (.phys a (pageBad p))

/-- Rows that GATHER writes per track: the longest prefix and the window (DESIGN CHOICE, log 21). -/
def gatherRows (s : State) (d : AvDesc) (n : Nat) : Nat :=
  ((trackList s n).map fun q => (prefixTokens q.2).length).foldl max 0 + d.p0

/-- The rows of GATHER for one frame that lie beyond a track's tokens (R168). -/
def gatherInvalid (s : State) (d : AvDesc) (a : AvFrame) : List Nat :=
  let w := gatherRows s d a.n
  ((trackList s a.n).zipIdx.map fun q => (List.range w).filterMap fun i =>
    if (gatherTokens d.p0 q.1.2).length ≤ i then some (q.2 * w + i) else none).flatten

/-- A gathered row: what it reads, its cells, its digest row and codes. -/
structure GatherRow where
  reads : List ByteRead
  cells : List Cell
  row : Nat
  codes : List Byte
  deriving DecidableEq, Repr

/-- The cells of one gathered row: key codes, then value codes, then its key and value tags behind all rows (R168; the layout
is DESIGN CHOICE, log 21). Rows beyond a track's tokens hold code 0. -/
def gatherRow (s : State) (d : AvDesc) (base tags : Nat) (q : Nat × Seq) (layer row : Nat) (t : Option Token) : GatherRow :=
  match t with
  | none =>
    let zeros : List Byte := List.replicate (kvWidth s) 0
    { reads := [], cells := cellsAt (base + row * d.p1) zeros false ++ cellsAt (tags + 8 * row) (leBytes 8 0) false, row := row,
      codes := zeros }
  | some t =>
    let r := match slotPage s q.1 layer t.slot with | some p => tokenReads s p t.slot | none => []
    let tg := (t.tags.find? fun y => y.1 == layer).getD (0, 0, 0)
    let put (x : ByteRead × Nat) : Cell := { addr := base + row * d.p1 + x.2, val := x.1.val, mark := x.1.poison }
    { reads := r, row := row, codes := readVals r,
      cells := r.zipIdx.map put ++ cellsAt (tags + 8 * row) (leBytes 4 tg.2.1 ++ leBytes 4 tg.2.2) (readPoison r) }

/-- The digest row of a gathered row (R169): the track's column times the window P0, plus the token's position in the window; a prefix
token, which has none there, counts by its place in the prefix (DESIGN CHOICE, log 234). -/
def gatherDigestRow (d : AvDesc) (x : Seq) (column i : Nat) : Nat :=
  let p := (prefixTokens x).length
  column * d.p0 + (if i < p then i else i - p)

/-- What GATHER writes for one frame (R168, R169), row by row. -/
def gatherFrame (s : State) (d : AvDesc) (a : AvFrame) : List GatherRow :=
  let tracks := trackList s a.n
  let w := gatherRows s d a.n
  let span := 1024 * w * (d.p1 + 8)
  let out := tracks.zipIdx.map fun q => (List.range d.nlay).map fun j => (List.range w).map fun i =>
    let base := d.dst + frameBlock a (d.nlay * span) + j * span
    let tags := base + tracks.length * w * d.p1
    { gatherRow s d base tags q.1 (d.layer + j) (q.2 * w + i) ((gatherTokens d.p0 q.1.2)[i]?) with
      row := gatherDigestRow d q.1.2 q.2 i }
  (out.map List.flatten).flatten

/-- The elements of a gathered row in a digest (R148). -/
def GatherRow.elements (x : GatherRow) : List Byte :=
  (x.codes.map fun b => [BitVec.ofNat 8 (b.toNat % 16), BitVec.ofNat 8 (b.toNat / 16)]).flatten

/-- The cells that GATHER writes for one frame. -/
def gatherCells (s : State) (d : AvDesc) (a : AvFrame) : List Cell := ((gatherFrame s d a).map (·.cells)).flatten

/-- The pages of the sequence window that cells touch (R169). -/
def cellPages (s : State) (cs : List Cell) : List Nat := (cs.filterMap fun c => pageOf s c.addr).eraseDups

/-- The job fault that an Aviary op raises: its status, and the stream to which it is attributed (R291). -/
abbrev AviaryFault := Nat × Option Nat

/-- Work on frames in turn until one raises a job fault, which ends the op at that frame. -/
def eachFrame (k : Nat) (o : IssuedOp) (work : AvFrame → State → State × Option AviaryFault) : List AvFrame → State → State
  | [], s => s
  | a :: l, s => match work a s with
    | (s, none) => eachFrame k o work l s
    | (s, some st) => jobFault k o.ctx st.1 a.num st.2 s

/-- What an Aviary op of a frame has read: its notes, and the job fault that a deferred-faulty, refused or uncorrectable byte raises
(R85, R114), attributed by the access (R291); an op that faults on a deferred fault has used it. -/
def aviaryRead (who : ByteRead → Option Nat) (all : List ByteRead) (s : State) : State × Option AviaryFault :=
  match all.find? fun r => r.deferred.isSome with
  | some r => (useDeferred r.addr (noteReads aviaryLane all s), r.deferred.map fun st => (st, who r))
  | none => (noteReads aviaryLane all s, (all.find? fun r => r.error.isSome).bind fun r => r.error.map fun st => (st, who r))

/-- The stream that an access of an Aviary op by an address names (R291). -/
def readStream (s : State) (ctx : Option (Nat × Nat)) (r : ByteRead) : Option Nat := addrStream s ctx r.seen

/-- The job fault of an Aviary op's write that faults (R291). -/
def aviaryWriteFault (s : State) (ctx : Option (Nat × Nat)) (start : Nat) (cs : List Cell) : Option AviaryFault :=
  (writeFault aviaryLane s start cs).map fun w => (w.1, addrStream s ctx w.2)

/-- GATHER of one frame (R166, R168, R291: its reads name sequences of the frame's stream): its rows beyond a track's tokens are flagged invalid for the batch. No field of the slot table is
named for that flag, and the batch keeps it (DESIGN CHOICE, log 208). -/
def gatherWork (d : AvDesc) (ctx : Option (Nat × Nat)) (y : Batch) (a : AvFrame) (s : State) : State × Option AviaryFault :=
  let rows := gatherFrame s d a
  let all := (rows.map (·.reads)).flatten
  match markedPage s (gatherPages s d a.n), aviaryRead (fun _ => some a.n) all s with
  | some st, _ => (s, some (st, some a.n))
  | none, (t, some st) => (t, some st)
  | none, (t, none) =>
    let cells := (rows.map (·.cells)).flatten
    match aviaryWriteFault t ctx d.dst cells with
    | some st => (t, some st)
    | none =>
      let invalid := (gatherInvalid s d a).map fun r => (a.n, a.num, r)
      let t := updBatch d.batch y.num (fun z => { z with invalid := z.invalid ++ invalid })
        (writeOp d.dst cells (poisonFrame a.n a.num (readPoison all) t))
      (if bitAt d.flags 0 then
        rows.foldl (fun t u => if u.elements.isEmpty then t else addDigest d.layer a.n a.num (digestUnit u.row 0 u.elements) t) t else t, none)

/-- The GATHER of a frame waits on the commit of the stream's most recent earlier frame that did not yield a skip record (R172). -/
def gatherReady (a : AvFrame) : Bool :=
  a.stream.frames.all fun f => match f.num with
    | some m => decide (a.num ≤ m) || f.reason != 0 || f.stage == .formed
    | none => true

/-- An AVIARY op of a function (R64, R168): it pins the pages it touches until it completes, and waits before it starts for those that
are not hot (R162) and for what its reads and writes wait for (R161, R314). -/
def aviaryOp (func : Nat) (ready : AvDesc → Batch → Bool) (pages : AvDesc → Batch → List Nat) (waits : AvDesc → Batch → List Wait)
    (work : AvDesc → IssuedOp → Batch → State → State) (s : State) : Res :=
  let k := aviaryLane
  let desc (o : IssuedOp) : AvDesc := avDesc s (argDesc o.word)
  let touched (o : IssuedOp) : List Nat := match avBatch s (desc o) o with | some y => pages (desc o) y | none => []
  startOp k 0x30
    (fun o => (desc o).func == func &&
      (isTorn s o.ctx || (match avBatch s (desc o) o with | some y => ready (desc o) y | none => true)))
    (fun o => (coldPages s (touched o)).map .page ++ (match avBatch s (desc o) o with | some y => waits (desc o) y | none => []))
    (fun o s => match avBatch s (desc o) o with
      | some y => occupy k o (touched o) true (writing k (fun s => pinPages (touched o) (work (desc o) o y s)) s)
      | none => occupy k o [] true s) s

/-- GATHER (R168). -/
def execGather (s : State) : Res :=
  aviaryOp 1 (fun _ y => (avFrames s y).all gatherReady)
    (fun d y => ((avFrames s y).map fun a => gatherPages s d a.n ++ cellPages s (gatherCells s d a)).flatten.eraseDups)
    (fun d y => ((avFrames s y).map fun a => writeWait s d.dst (gatherCells s d a)).flatten)
    (fun d o y s => eachFrame aviaryLane o (gatherWork d o.ctx y) (avFrames s y) s) s

/-- The greedy matching of R170 over the pairs in order of cost, then column, then row. -/
def greedy : List (Int × Nat × Nat) → (md mt : List (Nat × Nat)) → List (Nat × Nat)
  | [], md, _ => md
  | (_, t, d) :: l, md, mt =>
    if md.any (fun x => x.1 == d) || mt.any (fun x => x.1 == t) then greedy l md mt
    else greedy l (md ++ [(d, t)]) (mt ++ [(t, d)])

/-- The matches of a cost matrix, as pairs of detection and track (R170); a gate below 0 matches nothing. -/
def matchCosts (gate : Int) (costs : List (Int × Nat × Nat)) : List (Nat × Nat) :=
  if gate < 0 then []
  else greedy (sortBy (fun a b : Int × Nat × Nat => decide (a.1 < b.1) || (a.1 == b.1 && decide (a.2.1 < b.2.1))
    || (a.1 == b.1 && a.2.1 == b.2.1 && decide (a.2.2 < b.2.2))) (costs.filter fun c => decide (c.1 ≤ gate))) [] []

/-- The 4,096 bytes of md and mt (R170). -/
def matchBytes (m : List (Nat × Nat)) : List Byte :=
  let entry (o : Option Nat) : List Byte := leBytes 2 (o.getD 0xFFFF)
  ((List.range 1024).map fun d => entry ((m.find? fun x => x.1 == d).map (·.2))).flatten
    ++ ((List.range 1024).map fun t => entry ((m.find? fun x => x.2 == t).map (·.1))).flatten

/-- The costs that ASSOC reads of a frame: detection, track, bytes (R170). -/
def assocReads (s : State) (d : AvDesc) (a : AvFrame) : List (Nat × Nat × List ByteRead) :=
  let base := d.src + frameBlock a (1024 * d.p1)
  ((List.range (cappedBy s d.lend a.frame.detections.length)).map fun i =>
    (List.range (cappedBy s d.lent (trackList s a.n).length)).map fun t =>
      (i, t, readBy aviaryLane s d.src (base + i * d.p1 + 4 * t) 4)).flatten

/-- ASSOC of one frame (R170). -/
def assocWork (d : AvDesc) (ctx : Option (Nat × Nat)) (a : AvFrame) (s : State) : State × Option AviaryFault :=
  let reads := assocReads s d a
  let all := (reads.map fun x => x.2.2).flatten
  match aviaryRead (readStream s ctx) all s with
  | (t, some st) => (t, some st)
  | (t, none) =>
    let costs := reads.map fun x => (signed 32 (leNat (readVals x.2.2)), x.2.1, x.1)
    let cells := cellsAt (d.dst + frameBlock a 4096) (matchBytes (matchCosts (signed 32 d.p0) costs)) (readPoison all)
    let s := poisonFrame a.n a.num (readPoison all) t
    match aviaryWriteFault s ctx d.dst cells with
    | some st => (s, some st)
    | none => (writeOp d.dst cells s, none)

/-- ASSOC (R168, R170). -/
def execAssoc (s : State) : Res :=
  aviaryOp 2 (fun _ _ => true)
    (fun d y => ((avFrames s y).map fun a => rangePages s (d.src + frameBlock a (1024 * d.p1)) (1024 * d.p1)
      ++ rangePages s (d.dst + frameBlock a 4096) 4096).flatten.eraseDups)
    (fun d y => ((avFrames s y).map fun a => ((assocReads s d a).map fun x => readWait x.2.2).flatten
      ++ writeWait s d.dst (cellsAt (d.dst + frameBlock a 4096) (matchBytes []) false)).flatten)
    (fun d o y s => eachFrame aviaryLane o (assocWork d o.ctx) (avFrames s y) s) s

/-- The own GID of a track: track id, stream, chip, valid (R153). -/
def ownGid (s : State) (n trackId : Nat) : Nat := trackId + n * 2 ^ 32 + s.trellis.chip * 2 ^ 40 + 2 ^ 47

/-- The gallery entries that a frame sees, in their order (R177). -/
def galleryView (x : Stream) (stamp : Nat) : List GalleryEntry :=
  let key (e : GalleryEntry) : List Nat := [e.stamp, e.chip, e.stream, e.trackId]
  sortBy (fun a b : GalleryEntry => decide (key a < key b))
    (x.gallery.filter fun e => decide (e.stamp + xdelayNs x ≤ stamp))

/-- The id of the resident package, 0 for none. -/
def pkgid (s : State) : Nat := match s.pkg with | some p => p.pkgid | none => 0

/-- The tokens of the prompt that a frame uses (R180). -/
def frameTokens (s : State) (f : Frame) : List Nat :=
  match f.prompt.bind fun k => (s.aviary.prompts[k]?).bind id with | some p => p.tokens | none => []

/-- The GID of a born track (R177): the matched entry's, else its own. -/
def birthGid (s : State) (a : AvFrame) (det trackId : Nat) : Nat :=
  let view := galleryView a.stream a.frame.stamp
  let (_, codes) := Config.embedding (pkgid s) a.n a.num det (frameTokens s a.frame)
  match (Config.galleryMatch (pkgid s) codes (view.map (·.codes))).bind fun i => view[i]? with
  | some e => e.gid
  | none => ownGid s a.n trackId

/-- The sequence ids that journals have given to births not yet committed. -/
def pendingSeqs (s : State) : List Nat :=
  (s.aviary.journals.map fun j => j.effects.filterMap fun e => match e with | .birth _ q _ _ => some q | _ => none).flatten

/-- The sequences that a stream may need (R163, R181): where it tracks, its tracks, and those that a frame bears while the ones it ends
keep their ids until its commit; a CONTEXT and a GALLERY. -/
def seqDemand (b : OpenBlock) : Nat := (if bitAt b.modes 3 then 2 * b.maxTracks else 0) + 2

/-- The sequence ids that admission has given away: those of the open streams and of the prompt slots set (R163, R181). -/
def seqsTaken (s : State) : Nat :=
  ((s.streams.filterMap id).map fun x => seqDemand x.cfg).sum + (s.aviary.prompts.filterMap id).length

/-- The lowest free sequence id (R152). -/
def freeSeq (s : State) (taken : List Nat) : Option Nat :=
  (List.range 16384).find? fun q => (tabGet q s.aviary.seqs).isNone && !taken.contains q

/-- The track id after one (R173). -/
def nextTrackId (t : Nat) : Nat := if t = 0xFFFFFFFF then 1 else t + 1

/-- The births of a frame (R173): `room` more tracks may live; the rest are counted as refused. -/
def births (s : State) (a : AvFrame) : (dets : List Nat) → (room next : Nat) → (taken : List Nat) → List AviaryEffect × Nat
  | [], _, _, _ => ([], 0)
  | d :: ds, room, next, taken =>
    match room, freeSeq s taken with
    | r + 1, some q =>
      let (es, refused) := births s a ds r (nextTrackId next) (q :: taken)
      (.birth d q next (birthGid s a d next) :: es, refused)
    | _, _ =>
      let (es, refused) := births s a ds room next taken
      (es, refused + 1)

/-- The next track id of a stream, after births that wait in journals (R173). -/
def nextBirthId (s : State) (a : AvFrame) : Nat :=
  let made := (s.aviary.journals.filter fun j => j.stream == a.n && decide (j.frame < a.num)).map fun j =>
    (j.effects.filter fun e => match e with | .birth _ _ _ _ => true | _ => false).length
  (List.range made.sum).foldl (fun t _ => nextTrackId t) a.stream.nextTrack

/-- UPDATE of one frame (R173, R176): hits, then misses and ends, then births, and what each linked stream is sent. -/
def updateEffects (s : State) (d : AvDesc) (a : AvFrame) (md mt : Nat → Nat) : List AviaryEffect :=
  let tracks := (trackList s a.n).zipIdx
  let hits := (tracks.filter fun q => mt q.2 != 0xFFFF)
  let missed := tracks.filter fun q => mt q.2 == 0xFFFF
  let ends := missed.filter fun q => decide (a.stream.cfg.missMax < q.1.2.misses + 1)
  let lasting := missed.filter fun q => decide (q.1.2.misses + 1 ≤ a.stream.cfg.missMax)
  let dets := (List.range (min 1024 a.frame.detections.length)).filter fun i => md i == 0xFFFF &&
    decide (d.p0 ≤ (match a.frame.detections[i]? with | some x => x.score | none => 0))
  let live := tracks.length - ends.length
  let (bs, refused) := births s a dets (a.stream.cfg.maxTracks - live) (nextBirthId s a) (pendingSeqs s)
  let age (q : Seq) : Nat := a.num - q.first
  let regular := (hits ++ lasting).filter fun q =>
    decide (0 < a.stream.cfg.xperiod ∧ 0 < age q.1.2) && age q.1.2 % a.stream.cfg.xperiod == 0
  let publish (ended : Bool) (l : List ((Nat × Seq) × Nat)) : List AviaryEffect :=
    (l.map fun q => a.stream.links.map fun k => AviaryEffect.publish q.1.1 (k.1 * 256 + k.2) ended).flatten
  (hits.map fun q => .hit q.1.1 (mt q.2)) ++ (lasting.map fun q => .miss q.1.1) ++ publish true ends ++ publish false regular
    ++ (ends.map fun q => .ends q.1.1) ++ bs ++ (if refused = 0 then [] else [.refused refused])

/-- UPDATE of one frame: the match arrays are read at SRC (R168); a birth needs the pages that it copies (R166). -/
def updateWork (d : AvDesc) (ctx : Option (Nat × Nat)) (a : AvFrame) (s : State) : State × Option AviaryFault :=
  let r := readBy aviaryLane s d.src (d.src + frameBlock a 4096) 4096
  match aviaryRead (readStream s ctx) r s with
  | (t, some st) => (t, some st)
  | (t, none) =>
    let bs := readVals r
    let es := updateEffects s d a (fun i => field bs (2 * i) 2) (fun t => field bs (2048 + 2 * t) 2)
    let bears := es.any fun e => match e with | .birth _ _ _ _ => true | _ => false
    match (markedPage s (tailPages s a.stream.context)).filter fun _ => bears with
    | some st => (t, some (st, some a.n))
    | none => (addEffects a.n a.num es (poisonFrame a.n a.num (readPoison r) t), none)

/-- UPDATE (R168, R173): it touches the pages that a birth copies (R160, R162). -/
def execUpdate (s : State) : Res :=
  aviaryOp 3 (fun _ _ => true)
    (fun d y => ((avFrames s y).map fun a => tailPages s a.stream.context
      ++ rangePages s (d.src + frameBlock a 4096) 4096).flatten.eraseDups)
    (fun d y => ((avFrames s y).map fun a => readWait (readBy aviaryLane s d.src (d.src + frameBlock a 4096) 4096)).flatten)
    (fun d o y s => eachFrame aviaryLane o (updateWork d o.ctx) (avFrames s y) s) s

/-- The tracks that a frame's journal matches or bears, with their detections, and whether born (R168). -/
def appendTargets (es : List AviaryEffect) : List (Nat × Nat × Bool) :=
  es.filterMap fun e => match e with
    | .hit q det => some (q, det, false)
    | .birth det q _ _ => some (q, det, true)
    | _ => none

/-- What APPEND reads for a detection in its `j`-th layer: key codes then value codes, and the tags, which lie behind all rows of
the frame (R168; the layout is DESIGN CHOICE, log 21). -/
def appendRow (s : State) (d : AvDesc) (a : AvFrame) (det j : Nat) : List ByteRead × List ByteRead :=
  let base := d.src + frameBlock a (1024 * d.nlay * (d.p0 + 8))
  let row := det * d.nlay + j
  (readBy aviaryLane s d.src (base + row * d.p0) (kvWidth s),
   readBy aviaryLane s d.src (base + 1024 * d.nlay * d.p0 + 8 * row) 8)

/-- The token of a track for a frame (R157), with the prompt that the frame uses (R176, R180); the commit sets its slot. -/
def tokenOf (prompt : List Nat) (a : AvFrame) (det : Nat) (born : Bool) (tags : List (Nat × Nat × Nat)) : Token :=
  let x := a.frame.detections.getD det { box := [0, 0, 0, 0], score := 0, cls := 0 }
  { slot := 0, frame := a.num, stamp := a.frame.stamp, box := x.box, score := x.score, cls := x.cls, det := det,
    flags := if born then 1 else 0, tags := tags, prompt := prompt }

/-- The token effect of one target from what was read of it. -/
def tokenEffect (s : State) (d : AvDesc) (a : AvFrame) (t : Nat × Nat × Bool) (rows : List (List ByteRead × List ByteRead)) :
    AviaryEffect :=
  let half := kvWidth s / 2
  let kv := rows.zipIdx.map fun r =>
    let c := readVals r.1.1
    (d.layer + r.2, c.take half, c.drop half, readPoison r.1.1 || readPoison r.1.2)
  let tags := rows.zipIdx.map fun r =>
    let c := readVals r.1.2
    (d.layer + r.2, field c 0 4, field c 4 4)
  .token t.1 (tokenOf (frameTokens s a.frame) a t.2.1 t.2.2 tags) kv

/-- Add a token effect to a list: a second APPEND of the frame adds its layers to the track's one token. -/
def mergeToken : List AviaryEffect → AviaryEffect → List AviaryEffect
  | [], e => [e]
  | .token q t kv :: l, .token p u kw =>
    if p = q then .token q { t with tags := t.tags ++ u.tags } (kv ++ kw) :: l else .token q t kv :: mergeToken l (.token p u kw)
  | x :: l, e => x :: mergeToken l e

/-- Replace the effects of a frame's journal. -/
def setEffects (n num : Nat) (es : List AviaryEffect) (s : State) : State :=
  updAviary (fun a => { a with journals := a.journals.map fun j =>
    if j.stream = n ∧ j.frame = num then { j with effects := es } else j }) s

/-- The rows that APPEND reads of a frame, by target. -/
def appendReads (s : State) (d : AvDesc) (a : AvFrame) : List ((Nat × Nat × Bool) × List (List ByteRead × List ByteRead)) :=
  (appendTargets (journalOf s a.n a.num)).map fun t => (t, (List.range d.nlay).map fun j => appendRow s d a t.2.1 j)

/-- All bytes of such rows. -/
def rowReads (l : List ((Nat × Nat × Bool) × List (List ByteRead × List ByteRead))) : List ByteRead :=
  (l.map fun x => (x.2.map fun r => r.1 ++ r.2).flatten).flatten

/-- The pages that the tokens of a frame's matched tracks go to (R158). -/
def targetPages (s : State) (d : AvDesc) (a : AvFrame) : List Nat :=
  ((appendTargets (journalOf s a.n a.num)).map fun t => appendPages s a.stream.cfg.tp t.1 d.layer d.nlay).flatten

/-- APPEND of one frame (R166, R168, R174): one token for each matched or born track. -/
def appendWork (d : AvDesc) (ctx : Option (Nat × Nat)) (a : AvFrame) (s : State) : State × Option AviaryFault :=
  let es := journalOf s a.n a.num
  let read := appendReads s d a
  let all := rowReads read
  match markedPage s (targetPages s d a), aviaryRead (readStream s ctx) all s with
  | some st, _ => (s, some (st, some a.n))
  | none, (t, some st) => (t, some st)
  | none, (t, none) =>
    let new := (read.map fun x => tokenEffect s d a x.1 x.2).foldl mergeToken es
    (setEffects a.n a.num new (poisonFrame a.n a.num (readPoison all) t), none)

/-- APPEND (R168): it touches the pages that its tokens go to (R162, R169). -/
def execAppend (s : State) : Res :=
  aviaryOp 4 (fun _ _ => true)
    (fun d y => ((avFrames s y).map fun a =>
      targetPages s d a
        ++ rangePages s (d.src + frameBlock a (1024 * d.nlay * (d.p0 + 8))) (1024 * d.nlay * (d.p0 + 8))).flatten.eraseDups)
    (fun d y => ((avFrames s y).map fun a => readWait (rowReads (appendReads s d a))).flatten)
    (fun d o y s => eachFrame aviaryLane o (appendWork d o.ctx) (avFrames s y) s) s

/-- The commit of a new token drops a track's oldest own page (R158). -/
def windowDrops (tp : Nat) (x : Seq) : Bool :=
  let n := (ownTokens x).length
  n % 16 == 0 && decide (tp ≤ n / 16)

/-- A track as the commit of a new token leaves its tokens before that token (R158). -/
def beforeToken (tp : Nat) (x : Seq) : Seq :=
  if windowDrops tp x then { x with tokens := x.tokens.filter fun t => t.slot / 16 != x.head } else x

/-- The pages of a stream's CONTEXT that a track born in a frame will share (R160): its whole pages. -/
def prefixPages (s : State) (d : AvDesc) (q : Option Nat) : List Nat :=
  match q.bind fun q => (tabGet q s.aviary.seqs).map fun x => (q, x) with
  | some (q, x) =>
    let whole := ((x.tokens.map (·.slot / 16)).eraseDups).filter fun k =>
      decide (16 ≤ (x.tokens.filter fun t => t.slot / 16 == k).length)
    ((List.range d.nlay).map fun j => whole.filterMap fun k => tabGet (mapKey q (d.layer + j) k) s.aviary.maps).flatten
  | none => []

/-- The pages that GATHER will read for the frame after one (R168): those of the tracks that its journal does not end, as its own tokens
leave them, and those of the CONTEXT that the tracks it bears fork. The pages that its tokens and its births make do not exist yet: they
are hot when they are made and are not listed (DEDUCED, log 21). -/
def nextPages (s : State) (d : AvDesc) (a : AvFrame) : List Nat :=
  let es := journalOf s a.n a.num
  let tp := a.stream.cfg.tp
  let lives := (trackList s a.n).filter fun q => !es.any fun e => match e with | .ends p => p == q.1 | _ => false
  let born := es.any fun e => match e with | .birth _ _ _ _ => true | _ => false
  ((lives.map fun q =>
    let more := es.any fun e => match e with | .token p _ _ => p == q.1 | _ => false
    let ts := if more then gatherTokens (d.p0 - 1) (beforeToken tp q.2) else gatherTokens d.p0 q.2
    ((List.range d.nlay).map fun j => ts.filterMap fun t => slotPage s q.1 (d.layer + j) t.slot).flatten
      ++ (if more then appendPages s tp q.1 d.layer d.nlay else [])).flatten
    ++ (if born then prefixPages s d a.stream.context else [])).eraseDups

/-- The pages that ALIST lists for a batch. -/
def alistPages (s : State) (d : AvDesc) (y : Batch) : List Nat := ((avFrames s y).map fun a => nextPages s d a).flatten.eraseDups

/-- ALIST (R168): the list is kept under the address it is written at; the form of its bytes is the Aviary's own, so they are
free values, four for each page (log 21). -/
def alistWork (d : AvDesc) (o : IssuedOp) (y : Batch) (s : State) : State :=
  let pages := alistPages s d y
  let (bs, s) := freeBytes (4 * pages.length) s
  let cells := cellsAt d.dst bs false
  match writeFault aviaryLane s d.dst cells with
  | some (st, a) => jobFault aviaryLane o.ctx st a (addrStream s o.ctx a) s
  | none => updAviary (fun a => { a with alists := tabPut d.dst pages a.alists }) (writeOp d.dst cells s)

/-- ALIST (R168, R169): the pages that it touches are those it writes to. -/
def execAlist (s : State) : Res :=
  let cells (d : AvDesc) (y : Batch) : List Cell := cellsAt d.dst (List.replicate (4 * (alistPages s d y).length) 0) false
  aviaryOp 5 (fun _ _ => true) (fun d y => cellPages s (cells d y)) (fun d y => writeWait s d.dst (cells d y)) alistWork s

/-- Update a sequence. -/
def updSeq (q : Nat) (f : Seq → Seq) (s : State) : State := updAviary (fun a => { a with seqs := tabUpd q f a.seqs }) s

/-- The page slots per layer that a sequence's tokens use (R158). -/
def seqPages (x : Seq) : Nat := (x.tokens.map fun t => t.slot / 16 + 1).foldl max x.ppages

/-- Fork one page of a prefix (R160): a whole page is shared, a trailing one copied. -/
def forkPage (owner p q layer slot : Nat) (whole : Bool) (s : State) : State :=
  match tabGet (mapKey p layer slot) s.aviary.maps with
  | none => s
  | some d =>
    let (e, s) := if whole then sharePage owner d s else copyPage owner d s
    mapPage (mapKey q layer slot) e s

/-- Map every page of sequence `p` into sequence `q` as its prefix (R160). -/
def forkPages (owner p q : Nat) (s : State) : State :=
  match tabGet p s.aviary.seqs with
  | none => s
  | some x =>
    (List.range (kvLayers s)).foldl (fun s l => (List.range (seqPages x)).foldl (fun s k =>
      let whole := decide (16 ≤ (x.tokens.filter fun t => t.slot / 16 == k).length)
      forkPage owner p q l k whole s) s) s

/-- A new sequence that forks `parent` where there is one (R160). -/
def forkSeq (q : Nat) (parent : Option Nat) (x : Seq) (s : State) : State :=
  let from_ := parent.bind fun p => tabGet p s.aviary.seqs
  let pages := match from_ with | some y => seqPages y | none => 0
  let toks := match from_ with | some y => y.tokens | none => []
  let x := { x with parent := if from_.isSome then parent else none, ppages := pages, head := pages, tokens := toks,
                    ntok := toks.length }
  let s := updAviary (fun a => { a with seqs := tabPut q x a.seqs }) s
  match parent with
  | some p => forkPages (seqOwner s q x) p q s
  | none => s

/-- A sequence with nothing in it. -/
def emptySeq (kind : SeqKind) (stream : Nat) : Seq :=
  { kind := kind, stream := stream, parent := none, trackId := 0, ntok := 0, ppages := 0, head := 0, hits := 0, misses := 0,
    first := 0, last := 0, gid := 0, dropped := 0, tokens := [] }

/-- An empty history record (R137, R140): ten entries with exponent −128. -/
def emptyRecord : List Byte := (List.replicate 10 [BitVec.ofNat 8 0x80, 0]).flatten ++ List.replicate 12 0

/-- Row slots that a key's histories have: HSTRIDE over the 32 bytes of a record (R137). -/
def historySlots (l : LayerEntry) : Nat := l.hstride / 32

/-- Set the histories of a key empty in every named layer of a key kind (R134, R140, R175). -/
def clearHistories (kind key : Nat) (s : State) : State :=
  (residentNamed s).foldl (fun s i =>
    let l := residentLayer s i
    if l.key = kind then clearRecords l key s else s) s
where
  /-- The records of one key in one layer's table. -/
  clearRecords (l : LayerEntry) (key : Nat) (s : State) : State :=
    (List.range (historySlots l)).foldl (fun s h => writePhys .lc (cellsAt (historyAt l key h) emptyRecord false) s) s

/-- Drop the oldest own page of a track in every layer (R158). -/
def dropOldest (q tp : Nat) (x : Seq) (s : State) : State :=
  let s := (List.range (kvLayers s)).foldl (fun s l => unmapPage (mapKey q l x.head) s) s
  updSeq q (fun x => { x with
    tokens := x.tokens.filter fun t => t.slot / 16 != x.head
    head := x.ppages + (x.head - x.ppages + 1) % max 1 tp, ntok := x.ntok - 16,
    dropped := min (2 ^ 32 - 1) (x.dropped + 1) }) s

/-- Store key and value codes of a token slot in its page of one layer, in the hot tier (R155, R162); a page that the slot still lacks is
made. -/
def storeKv (q owner slot : Nat) (kv : Nat × List Byte × List Byte × Bool) (s : State) : State :=
  let key := mapKey q kv.1 (slot / 16)
  let s := match tabGet key s.aviary.maps with
    | some _ => ownPage q key s
    | none => let (d, s) := newPage owner s; mapPage key d s
  match tabGet key s.aviary.maps with
  | none => s
  | some d =>
    let s := hotNow d s
    match tabGet d s.aviary.pages with
    | none => s
    | some p =>
      let half := kvWidth s / 2
      let cells := cellsAt (slot % 16 * half) kv.2.1 kv.2.2.2 ++ cellsAt (8 * kvWidth s + slot % 16 * half) kv.2.2.1 kv.2.2.2
      usePage d (patchPage p cells s)

/-- Append a committed token (R155 to R158): at a full window the oldest own page goes first. FIRST stays the frame of the track's very
first own token, also once the window rule has released that (R153; DESIGN CHOICE, log 228). -/
def commitToken (q tp : Nat) (tok : Token) (kv : List (Nat × List Byte × List Byte × Bool)) (s : State) : State :=
  match tabGet q s.aviary.seqs with
  | none => s
  | some x =>
    let s := if windowDrops tp x then dropOldest q tp x s else s
    match tabGet q s.aviary.seqs with
    | none => s
    | some x =>
      let n := (ownTokens x).length
      let slot := 16 * (x.ppages + (x.head - x.ppages + n / 16) % max 1 tp) + n % 16
      let s := updSeq q (fun x => { x with
        tokens := x.tokens ++ [{ tok with slot := slot }], ntok := x.ntok + 1, last := tok.frame,
        first := if n = 0 ∧ x.dropped = 0 then tok.frame else x.first }) s
      kv.foldl (fun s k => storeKv q (seqOwner s q x) slot k s) s

/-- One effect of a frame's journal takes hold when its record is formed (R173, R174). What a publication sends is
`publishEffect`'s. -/
def commitEffect (n num : Nat) (x : Stream) (e : AviaryEffect) (s : State) : State :=
  match e with
  | .hit q _ => updSeq q (fun y => { y with hits := min 65535 (y.hits + 1), misses := 0, last := num }) s
  | .miss q => updSeq q (fun y => { y with misses := y.misses + 1 }) s
  | .ends q => endSeq q s
  | .birth _ q trackId gid =>
    let s := forkSeq q x.context { emptySeq .track n with trackId := trackId, gid := gid, first := num, last := num } s
    updStream n (fun y => { y with nextTrack := nextTrackId trackId }) (clearHistories 1 q s)
  | .refused k => updAviary (fun a => { a with birthsRefused := a.birthsRefused + k }) s
  | .token q tok kv => commitToken q x.cfg.tp tok kv s
  | .publish _ _ _ => s

/-- A frame's journal is gone (R174). -/
def dropJournal (n num : Nat) (s : State) : State :=
  updAviary (fun a => { a with journals := a.journals.filter fun j => !(j.stream == n && j.frame == num) }) s

/-- A prompt's or a context's own rows as pages of a sequence from page slot `first` on: `bytes` gives a page's content (R155,
R180). -/
def fillPages (q owner first count : Nat) (bytes : Nat → Nat → List Byte) (s : State) : State :=
  (List.range (kvLayers s)).foldl (fun s l => (List.range count).foldl (fun s k =>
    let (d, s) := newPage owner s
    putPage d ((padTo (4096 * kvGran s) (bytes l k)).map fun b => (b, false)) (mapPage (mapKey q l (first + k)) d s)) s) s

/-- A bare token at a slot, a prompt's or a context's, with the tags of its key and value rows in each layer (R156). -/
def bareToken (layers slot : Nat) (tags : Nat → Nat × Nat) : Token :=
  { slot := slot, frame := 0, stamp := 0, box := [0, 0, 0, 0], score := 0, cls := 0, det := 0, flags := 0,
    tags := (List.range layers).map fun l => (l, tags l) }

/-- A prompt's rows from the text encoder are committed as its sequence `id` (R180). -/
def encodePrompt (slot id : Nat) (p : Prompt) (s : State) : State :=
  let token (i : Nat) : Token := bareToken (kvLayers s) i fun l => Config.textTags (pkgid s) p.tokens l i
  let x := { emptySeq .prompt 0xFF with ntok := p.tokens.length, tokens := (List.range p.tokens.length).map token }
  let s := updAviary (fun a => { a with
    seqs := tabPut id x a.seqs
    prompts := upd a.prompts slot fun o => o.map fun y => { y with seq := some id, cmd := none } }) s
  fillPages id (384 + slot) 0 (ceilDiv p.tokens.length 16) (fun l k => Config.textEncoder (pkgid s) p.tokens l k) s

/-- PROMPT_ENCODED (R180): the sequence is committed, and PROMPT_SET completes. -/
def execPromptEncoded (slot : Nat) (s : State) : Res :=
  match s.aviary.prompts[slot]? with
  | none => done s
  | some none => done s
  | some (some p) =>
    match p.seq, p.cmd, freeSeq s (pendingSeqs s) with
    | none, some (q, cid), some id => done (finishCmd q cid 0 p.tokens.length false (encodePrompt slot id p s))
    | _, _, _ => done s

end Sys2Proof.Machine
end

