-- ==== Sys2Proof/Machine/Landing.lean ====
section
/-! DEFINITION. Where a frame begins (R183 to R185, R233, R234, R281 to R285): reservations of cells, the end of ingest with its
tests, pre-roll rings, references of clips, release from the ingest queue. -/

namespace Sys2Proof.Machine

/-- A frame as it ends ingest. -/
def freshFrame (id stamp tzero head size : Nat) (lost hostStamp : Bool) : Frame where
  id := id
  num := none
  stamp := stamp
  tzero := tzero
  outReady := 0
  hostStamp := hostStamp
  shift := 0
  head := head
  size := size
  set := none
  lost := lost
  rtpTs := none
  landed := false
  stage := .queued
  reason := 0
  status := 0
  facts := none
  sps := none
  firstMark := 0
  store := none
  concealed := false
  ccount := 0
  decodeOnly := false
  crops := []
  slotAt := none
  poison := none
  widened := 0
  widenMax := 0
  wideLayers := []
  prompt := none
  flagged := 0
  satAcc := 0
  late := 0
  galleryMissing := false
  detections := []
  events := []
  times := []
  taken := false
  aver := 0
  adapter := []
  samples := []

/-- A source whose frames are access units (R204, R420): RTSP, RTP flow, host access units. -/
def isCoded (x : Stream) : Bool := x.cfg.source == 0 || x.cfg.source == 1 || x.cfg.source == 3

/-- Cells of `n` bytes in a chain of its own. -/
def cellsOf (n : Nat) : Nat := max 1 (ceilDiv n 248)

/-- The class of a stream's landing (R273, R296, R321): real-time port `p` where its pool lies on channels 12 to 15. -/
def landClass (s : State) (x : Stream) (p : Nat) : ReqClass :=
  match s.pools[x.cfg.pool]? with
  | some q => if regionOf q.base = .dramRealTime then .realTime p else if x.cfg.cls = 0 then .lc else .be
  | none => .be

/-- The bytes of one line of a data type (R199). -/
def lineBytes (dt w : Nat) : Nat :=
  match dt with
  | 0x1E => 2 * w
  | 0x1F => 5 * w / 2
  | 0x24 => 3 * w
  | 0x2A => w
  | 0x2B => 5 * w / 4
  | 0x2C => 3 * w / 2
  | _ => 0

/-- Cells of one frame of a capture set: c a line (R201). -/
def captureCells (c : CaptureSet) : Nat := c.height * ceilDiv (lineBytes c.dataType c.width) 248

/-- Frames that a capture queue has room for (R185). -/
def captureDepth (period : Nat) : Nat := ceilDiv 500000000 (max 1 period) + 3

/-- The cells that a stream's ingest queue reserves (R185): 500 ms at the peak bit rate, or the frames of a capture queue; a host
stream of pictures has none of its own. -/
def ingestCells (b : OpenBlock) (c : Option CaptureSet) : Nat :=
  match c with
  | some c => captureDepth b.period * captureCells c
  | none => if b.source = 4 then 0 else ceilDiv (ceilDiv b.peakBits 16) 248

/-- The cells that pre-roll reserves (R233). -/
def prerollCells (b : OpenBlock) : Nat := ceilDiv (ceilDiv (b.peakBits * b.preroll) 8) 248

/-- Whether a frame has entered landing and its record is not emitted (R21). -/
def isHeld (f : Frame) : Bool := f.landed

/-- The frames of a stream that are held (R21, R183). -/
def heldFrames (x : Stream) : Nat := (x.frames.filter isHeld).length

/-- The frames that wait in the ingest queue (R183). -/
def queuedFrames (x : Stream) : List Frame := x.frames.filter fun f => f.stage == .queued

/-- An RTP timestamp lies before another one, modulo 2^32 (R192). -/
def earlierTs (a b : Option Nat) : Bool :=
  match a, b with
  | some a, some b => a != b && decide ((b + 2 ^ 32 - a % 2 ^ 32) % 2 ^ 32 < 2 ^ 31)
  | _, _ => false

/-- The frame that leaves the ingest queue next: the first to arrive, but in RTP timestamp order for access units of the jitter
buffer (R183, R192). -/
def nextQueued (x : Stream) : Option Frame :=
  match queuedFrames x with
  | [] => none
  | f :: l => some (l.foldl (fun a b => if earlierTs b.rtpTs a.rtpTs then b else a) f)

/-- The score runs, for the test of R284; a restart of R70, a requested halt and an update (R294, R487) do not count as a stop. -/
def scoreRuns (s : State) : Bool :=
  s.pkg.isSome && !s.score.stopped &&
    (s.score.running || s.score.watchdogHalt || s.score.armed || s.score.haltReq || s.power.update.switching.isSome)

/-- P in the units of the credit: c = credit / (4 P) (R281). -/
def creditMax (x : Stream) : Nat := 5 * x.cfg.period

/-- The credit of a stream when a frame with timestamp `t` ends ingest (R281), without the steps between the previous frame's timestamp
and its own (R495 ruling 20): those since that one but for the `shift` since its own. -/
def creditAt (x : Stream) (t : Nat) (shift : Int) : Int :=
  match x.prevStamp with
  | none => x.credit
  | some p => min (creditMax x : Int) (x.credit + 4 * ((t : Int) - p - (x.creditStep - shift)))

/-- The tests at the end of ingest in the order of R284: reason and status of the first that fails. `room` is that of the ingest
queue. -/
def ingestTest (s : State) (x : Stream) (credit : Int) (room : Bool) : Option (Nat × Nat) :=
  if credit < 4 * x.cfg.period then some (reasonRefused, 0x0322)
  else if !scoreRuns s then some (reasonRefused, 0x0327)
  else if x.quarantined then some (reasonRefused, 0x0329)
  else if !room then some (if isLc x then reasonLate else reasonShedBe, 0x0323)
  else none

/-- A frame that the port or the doorbell gives up as DAMAGED is the stream's previous frame for what follows: the credit grows to
its timestamp and nothing is taken from it (R205, R281; DEDUCED, log 177). -/
def passFrame (n t : Nat) (shift : Int) (s : State) : State :=
  updStream n (fun x => { x with credit := creditAt x t shift, prevStamp := some t, creditStep := shift }) s

/-- The next device frame number goes to a frame (R218). -/
def numberFrame (n id : Nat) (s : State) : State :=
  match stream? s n, getFrame s n id with
  | some x, some f =>
    if f.num.isSome then s
    else updStream n (fun y => { y with nextNum := x.nextNum + 1 }) (updFrame n id (fun f => { f with num := some x.nextNum }) s)
  | _, _ => s

/-- The cells of a frame are free (R285). -/
def freeFrame (n id : Nat) (s : State) : State :=
  match getFrame s n id with
  | some f => updFrame n id (fun f => { f with head := 0 }) (freeChain f.head s)
  | none => s

/-- Drop the access units of a pre-roll ring that landed more than PREROLL seconds before `t` (R233). -/
def trimRing (n t : Nat) (s : State) : State :=
  match stream? s n with
  | none => s
  | some x =>
    let old := x.ring.filter fun r => decide (r.tzero + x.cfg.preroll * 1000000000 < t)
    let s := old.foldl (fun s r => freeChain r.head s) s
    updStream n (fun x => { x with ring := x.ring.filter fun r => decide (t ≤ r.tzero + x.cfg.preroll * 1000000000) }) s

/-- An access unit joins its stream's pre-roll ring (R233). -/
def keepPreroll (n : Nat) (f : Frame) (irap : Bool) (s : State) : State :=
  match stream? s n with
  | none => s
  | some x =>
    if x.cfg.preroll = 0 || f.head = 0 then s
    else
      let (st, s) := retainOp f.head s
      let unit : RingUnit := { tzero := f.tzero, head := f.head, size := f.size, irap := irap, stamp := f.stamp, lost := f.lost }
      let s := if st = 0 then updStream n (fun x => { x with ring := x.ring ++ [unit] }) s else s
      trimRing n f.tzero s

/-- Pitch, height and bytes of a stream's frame stores (R215). -/
def storePitch (b : OpenBlock) : Nat := roundUp (b.maxW * (if b.depth = 10 then 2 else 1)) 64
def storeLines (b : OpenBlock) : Nat := roundUp b.maxH 64
def storeSize (b : OpenBlock) : Nat := storePitch b * storeLines b * 3 / 2

/-- The bytes of a source's cells (R201, R334): a captured frame has cells of its own for each line. -/
def sourceBytes (size : Nat) (set : Option CaptureSet) : Nat :=
  256 * match set with | some c => captureCells c | none => cellsOf size

/-- Bytes of the retention budget that a clip holds: the cells of its sources, and its frame stores (R234). -/
def clipBytes (c : Clip) : Nat := (c.sources.map fun x => sourceBytes x.size x.set).sum + c.stores * storeSize c.cfg

/-- Bytes that the clip retention budget holds, of its size in the ledger (R234). -/
def retainedBytes (s : State) : Nat := ((s.clips.filterMap id).map clipBytes).sum

/-- The 24 result bytes of a clip (R419). -/
def clipResult (c : Clip) : List Byte :=
  leBytes 8 (c.firstStamp.getD 0) ++ leBytes 8 (c.lastStamp.getD 0) ++ leBytes 8 c.coded

/-- A session ends (R241): its references are released and its command ends with its status, RESULT and 24 bytes. -/
def endClip (i status : Nat) (s : State) : State :=
  match s.clips.getD i none with
  | none => s
  | some c =>
    let s := c.sources.foldl (fun s x => freeChain x.head s) s
    let s : State := { s with
      clips := s.clips.set i none
      fountains := s.fountains.map fun (u : Fountain) => match u.busy with
        | some (.clip j, _, _) => if j = i then { u with busy := none, reads := [], writes := [] } else u
        | _ => u }
    match s.mbx.cmds.find? fun (k : HostCmd) => k.q == c.q && k.cid == c.cid && k.opc == 0x40 with
    | some _ => finishBuf c.q c.cid status (c.firstStamp.getD 0 % 2 ^ 32) (clipResult c) s
    | none => s

/-- A decode context as it begins: nothing decoded (R222, R226). -/
def freshDecoder (hevc : Bool) (mode : DecodeMode) : Decoder :=
  { hevc := hevc, mode := mode, joined := false, inDamage := false, inherit := false, raslDrop := false, pictures := [], nextDec := 0,
    sets := { vps := [], sps := [], pps := [] }, sps := none, last := none, lastPoc := 0 }

/-- A parameter set is stored (R221): 32 SPS and 256 PPS in H.264, 16 VPS, 16 SPS and 64 PPS in HEVC; one that fails to parse is not. -/
def storeSet (hevc : Bool) (p : ParamStore) : ParamSet → ParamStore
  | .vps id ok => if ok && hevc && decide (id < 16) then { p with vps := setAdd id p.vps } else p
  | .sps id vps ok v => if ok && decide (id < if hevc then 16 else 32) then { p with sps := tabPut id (vps, v) p.sps } else p
  | .pps id ok v => if ok && decide (id < if hevc then 64 else 256) then { p with pps := tabPut id v p.pps } else p

/-- Update a stream's decode context. -/
def updDecoder (n : Nat) (f : Decoder → Decoder) (s : State) : State := updStream n (fun x => { x with dec := f x.dec }) s

/-- A frame lands for one clip session of its stream (R234, R241). -/
def clipTake (k : Nat) (n : Nat) (f : Frame) (s : State) : State :=
  match s.clips.getD k none with
  | none => s
  | some c =>
    if c.stream ≠ n || c.lastLanded || c.endStatus.isSome then s
    else if c.t1 ≤ f.tzero then updClip k (fun c => { c with lastLanded := true }) s
    else if s.power.ledger.clipMiB * 2 ^ 20 < retainedBytes s + sourceBytes f.size f.set then
      updClip k (fun c => { c with endStatus := some 0x0223, lastLanded := true }) s
    else
      let (st, s) := if f.head = 0 then (0, s) else retainOp f.head s
      if st = 0 then updClip k (fun c => { c with sources := c.sources ++ [{ stamp := f.stamp, head := f.head, size := f.size, lost := f.lost, set := f.set }] }) s
      else updClip k (fun c => { c with endStatus := some 0x0223, lastLanded := true }) s

/-- A frame lands for every clip session of its stream (R234). -/
def clipsTake (n : Nat) (f : Frame) (s : State) : State := (List.range 32).foldl (fun s k => clipTake k n f s) s

/-- A frame ends ingest (R281 to R285): its credit, the tests, its place in the queue. A refused picture of a compressed stream
stays for its decode (R220); any other refused frame is over, with its number. -/
def endIngest (n : Nat) (f : Frame) (irap room : Bool) (s : State) : State :=
  match stream? s n with
  | none => s
  | some x =>
    let f := { f with id := x.nextId }
    let c := creditAt x f.stamp f.shift
    let test := ingestTest s x c room
    let c := if c < 4 * x.cfg.period then c else c - 4 * x.cfg.period
    let s := clipsTake n f s
    let s := updStream n (fun x => { x with nextId := x.nextId + 1, credit := c, prevStamp := some f.stamp, creditStep := f.shift,
                                            frames := x.frames ++ [f] }) s
    let s := if isCoded x then keepPreroll n f irap s else s
    match test with
    | none => if isCoded x then s else numberFrame n f.id s
    | some (r, st) =>
      if isCoded x then updFrame n f.id (fun f => { f with reason := r, status := st, decodeOnly := true }) s
      else numberFrame n f.id (freeFrame n f.id (skipFrame n f.id r st s))

/-- Decode is paused for a stream (R183): its Fountain is, or an update's switch has reached its step 3 (R487). -/
def decodePaused (s : State) (x : Stream) : Bool :=
  (match s.power.update.switching with | some (k, _, _, _) => decide (3 ≤ k) | none => false) ||
    (match x.fountain with
     | some k => (match s.fountains[k]? with | some f => f.paused | none => false)
     | none => false)

/-- FRAME_RELEASE (R183): the oldest queued frame enters landing while fewer than three are held. A frame with no decode of its
own is ready at once (R245, R421). -/
def execFrameRelease (stream : Nat) (s : State) : Res :=
  match s.streams[stream]? with
  | none => done s
  | some none => done s
  | some (some x) =>
    match nextQueued x with
    | none => done s
    | some f =>
      if decide (3 ≤ heldFrames x) || decodePaused s x then done s
      else
        let t := nowNs s
        let s := updFrame stream f.id (fun f => stamp 0 t { f with stage := .landing, landed := true }) s
        if isCoded x then done s
        else done (updFrame stream f.id (fun f => stamp 1 t { f with stage := .ready }) s)

end Sys2Proof.Machine
end

