-- ==== Sys2Proof/Machine/Links.lean ====
section
/-! DEFINITION. Trellis links (R443 to R460): flits and their numbers, replay, credits, messages and their routes. -/

namespace Sys2Proof.Machine

/-- The channels (R447). -/
def vcTime : Nat := 0
def vcControl : Nat := 1
def vcBulk : Nat := 2

/-- The island of a link (R16, R443). -/
def linkIsland (k : Nat) : Nat := 56 + k

/-- The code of a link state (R457). -/
def linkCode : LinkState → Nat
  | .down => 0
  | .training => 1
  | .up => 2
  | .retrain => 3
  | .fenced => 4

/-- Sequence numbers are modulo 4,096 (R449). -/
def seqMod (n : Nat) : Nat := n % 4096

/-- The payload bytes of a flit (R447). -/
def flitPayload : Nat := 240

/-- A flit's bytes before its CRC (R447). -/
structure FlitHead where
  seq : Nat
  rpl : Bool
  type : Nat
  ack : Nat
  nak : Bool
  credit : List Nat
  vc : Nat
  first : Bool
  last : Bool
  src : Nat
  deriving DecidableEq, Repr

def flag (b : Bool) (i : Nat) : Nat := if b then 2 ^ i else 0

/-- A flit of 256 bytes (R447). -/
def flitBytes (h : FlitHead) (payload : List Byte) : List Byte :=
  let body := leBytes 2 (h.seq + flag h.rpl 12 + h.type * 2 ^ 13) ++ leBytes 2 (h.ack + flag h.nak 12)
    ++ (h.credit.map (leBytes 1)).flatten ++ leBytes 1 (h.vc + flag h.first 2 + flag h.last 3)
    ++ leBytes 1 payload.length ++ leBytes 1 h.src ++ leBytes 2 0 ++ padTo flitPayload payload
  body ++ leBytes 4 (crc32c body).toNat

/-- A reserved value counts as the field's reset value, 0 (R12). -/
def orReset (most v : Nat) : Nat := if v ≤ most then v else 0

/-- The header of a flit (R447). -/
def flitHead (b : List Byte) : FlitHead where
  seq := bits (field b 0 2) 0 12
  rpl := bitAt (field b 0 2) 12
  type := orReset 1 (bits (field b 0 2) 13 3)
  ack := bits (field b 2 2) 0 12
  nak := bitAt (field b 2 2) 12
  credit := [field b 4 1, field b 5 1, field b 6 1]
  vc := orReset 2 (bits (field b 7 1) 0 2)
  first := bitAt (field b 7 1) 2
  last := bitAt (field b 7 1) 3
  src := bits (field b 9 1) 0 3

/-- The valid payload of a flit. -/
def flitData (b : List Byte) : List Byte := slice b 12 (min flitPayload (field b 8 1))

/-- The CRC of a flit holds (R447). -/
def flitOk (b : List Byte) : Bool := BitVec.ofNat 32 (field b 0xFC 4) == crc32c (b.take 0xFC)

/-- The link that joins this chip to another (R444). -/
def linkTo (s : State) (chip : Nat) : Option Nat := posOf (fun l : Link => l.peer == some chip) s.trellis.links

def linkUp (s : State) (k : Nat) : Bool :=
  match s.trellis.links[k]? with
  | some l => l.state == .up && !islandFenced s (linkIsland k)
  | none => false

/-- The link to a chip carries its messages: it is neither FENCED nor under partial reset (R458). -/
def linkServes (s : State) (k : Nat) : Bool :=
  match s.trellis.links[k]? with
  | some l => l.state != .fenced && !islandFenced s (linkIsland k)
  | none => false

/-- The members other than this chip. -/
def peers (s : State) : List Nat := s.trellis.members.filter (· != s.trellis.chip)

/-- The time master: the lowest-numbered member (R445). -/
def timeMaster (s : State) : Nat := s.trellis.members.foldl min s.trellis.chip

/-- A peer has reported its link to a chip UP (R457). -/
def peerReaches (s : State) (via dst : Nat) : Bool :=
  s.trellis.peerLinks.any fun p => p.1 == via && p.2.any fun l => l.1 == 2 && l.2 == dst

/-- The relay of a pair: the lowest-numbered member with UP links to both (R458). -/
def relayFor (s : State) (dst : Nat) : Option Nat :=
  (List.range 6).find? fun v => (peers s).contains v && v != dst && peerReaches s v dst &&
    (match linkTo s v with | some k => linkUp s k | none => false)

/-- The flits of a message (R456). -/
def messageFlits (vc : Nat) (bytes : List Byte) : List OutFlit :=
  let parts := chunks flitPayload bytes.length bytes
  parts.zipIdx.map fun p => { vc := vc, first := p.2 == 0, last := p.2 + 1 == parts.length, payload := p.1 }

/-- A message waits on a link, and is kept until the link has acknowledged it (R456, R458). -/
def enqueueMessage (k dst hop vc : Nat) (bytes : List Byte) (s : State) : State :=
  updLink k (fun l => { l with queue := l.queue ++ messageFlits vc bytes })
    (updTrellis (fun t => { t with
      sent := if vc = vcTime then t.sent
              else t.sent ++ [{ dst := dst, hop := hop, channel := vc, bytes := bytes, since := steadyNs s }] }) s)

/-- The flits of a relayed message go ahead of this chip's own bulk messages that no flit of has left yet, behind those relayed before
(R458). -/
def relayQueue (new q : List OutFlit) : List OutFlit :=
  let bulk := q.filter fun f => f.vc == vcBulk
  let started := bulk.takeWhile fun f => !f.first
  let rest := bulk.drop started.length
  (q.filter fun f => f.vc != vcBulk) ++ started ++ rest.filter (·.relay) ++ new.map (fun f => { f with relay := true })
    ++ rest.filter fun f => !f.relay

/-- The messages of a link in the order in which their flits leave, with a relayed one put in its place. -/
def relaySent (q : List OutFlit) (hop : Nat) (m : SentMsg) (sent : List SentMsg) : List SentMsg :=
  let mine := sent.filter fun x => x.hop == hop && x.channel == vcBulk
  let heads := q.filter fun f => f.vc == vcBulk && f.first
  let at_ := mine.length - heads.length + (heads.filter (·.relay)).length
  (sent.filter fun x => !(x.hop == hop && x.channel == vcBulk)) ++ mine.take at_ ++ [m] ++ mine.drop at_

/-- A message that this chip relays waits on the link to its destination, without waiting on the chip's own traffic (R458). -/
def enqueueRelayed (k dst : Nat) (bytes : List Byte) (s : State) : State :=
  let q := match s.trellis.links[k]? with | some l => l.queue | none => []
  let m : SentMsg := { dst := dst, hop := dst, channel := vcBulk, bytes := bytes, since := steadyNs s }
  updLink k (fun l => { l with queue := relayQueue (messageFlits vcBulk bytes) l.queue })
    (updTrellis (fun t => { t with sent := relaySent q dst m t.sent }) s)

/-- The message header (R456). -/
def messageHead (type dst mnum : Nat) : List Byte := leBytes 1 type ++ leBytes 1 dst ++ leBytes 2 0 ++ leBytes 4 mnum

/-- The next number of the series to a destination on a channel, from 0 (R456; DESIGN CHOICE, log 35). -/
def mnumFor (s : State) (dst vc : Nat) : Nat :=
  match s.trellis.mnumNext.find? fun m => m.1 == dst && m.2.1 == vc with
  | some m => m.2.2
  | none => 0

def bumpMnum (dst vc : Nat) (s : State) : State :=
  updTrellis (fun t => { t with
    mnumNext := (t.mnumNext.filter fun m => !(m.1 == dst && m.2.1 == vc)) ++ [(dst, vc, (mnumFor s dst vc + 1) % 2 ^ 32)] }) s

/-- A relay to a destination begins or ends: logged, 0x070A (R458). -/
def startRelay (dst : Nat) (s : State) : State :=
  if s.trellis.relaying.contains dst then s
  else logErr 0x070A 1 0 (updTrellis (fun t => { t with relaying := setAdd dst t.relaying }) s) { arg0 := dst, arg1 := 1 }

def endRelay (dst : Nat) (s : State) : State :=
  if s.trellis.relaying.contains dst then
    logErr 0x070A 1 0 (updTrellis (fun t => { t with
      relaying := setDel dst t.relaying, relayed := t.relayed.filter fun m => m.dst != dst }) s) { arg0 := dst }
  else s

/-- The RELAY message that carries another one (R457). -/
def relayMessage (s : State) (hop src dst vc : Nat) (bytes : List Byte) : List Byte :=
  messageHead 0x21 hop (mnumFor s hop vcBulk) ++ leBytes 1 src ++ leBytes 1 dst ++ leBytes 1 vc ++ leBytes 1 0
    ++ leBytes 4 bytes.length ++ bytes

/-- A control or bulk message without a link of its own goes by relay, or waits until a member can relay it (R458, R495 ruling
22). -/
def sendByRelay (dst vc : Nat) (bytes : List Byte) (s : State) : State :=
  let keep (hop : Nat) : SentMsg := { dst := dst, hop := hop, channel := vc, bytes := bytes, since := steadyNs s }
  match (relayFor s dst).bind fun v => (linkTo s v).map fun k => (v, k) with
  | some (v, k) =>
    let m := relayMessage s v s.trellis.chip dst vc bytes
    let s := enqueueMessage k dst v vcBulk m (bumpMnum v vcBulk (startRelay dst s))
    updTrellis (fun t => { t with relayed := t.relayed ++ [keep v] }) s
  | none => updTrellis (fun t => { t with refused := t.refused ++ [keep dst] }) s

/-- Send a message that already has its header (R456, R458). -/
def routeMessage (dst vc : Nat) (bytes : List Byte) (s : State) : State :=
  match linkTo s dst with
  | some k => if linkServes s k then enqueueMessage k dst dst vc bytes s else sendByRelay dst vc bytes s
  | none => s

/-- Send a message of a type (R456). -/
def sendMessage (dst vc type : Nat) (body : List Byte) (s : State) : State :=
  if (peers s).contains dst then
    routeMessage dst vc (messageHead type dst (mnumFor s dst vc) ++ body) (bumpMnum dst vc s)
  else s

/-- The members as the bits of PEER_STATE.MEMBERS (R457). -/
def memberBits (s : State) : Nat := (s.trellis.members.map fun m => 2 ^ m).sum

/-- The body of PEER_STATE (R457). -/
def peerStateBody (s : State) (updating : Bool) : List Byte :=
  leBytes 8 s.power.ledger.serial ++ leBytes 1 (memberBits s) ++ leBytes 1 (flag updating 0) ++ leBytes 2 0
    ++ (s.trellis.links.map fun l => leBytes 1 (linkCode l.state + 16 * l.peer.getD 0)).flatten ++ leBytes 7 0

/-- A message of a type leaves by the link to a chip, which need not be a member. -/
def sendDirect (k dst vc type : Nat) (body : List Byte) (s : State) : State :=
  enqueueMessage k dst dst vc (messageHead type dst (mnumFor s dst vc) ++ body) (bumpMnum dst vc s)

/-- PEER_STATE on every UP link (R457), and by relay to a member whose own link does not serve (R458). -/
def sendPeerState (updating : Bool) (s : State) : State :=
  let s := updTrellis (fun t => { t with peerStateAt := steadyNs s }) s
  let s := (List.range 5).foldl (fun s k => match (s.trellis.links[k]?).bind (·.peer) with
    | some p => if linkUp s k then sendDirect k p vcControl 0x12 (peerStateBody s updating) s else s
    | none => s) s
  (peers s).foldl (fun s p => match linkTo s p with
    | some k => if linkServes s k then s else sendMessage p vcControl 0x12 (peerStateBody s updating) s
    | none => s) s

/-- A Quinbuar update is in progress, for PEER_STATE (R457). -/
def updating (s : State) : Bool := s.power.update.switching.isSome

/-- Every message that a link has not acknowledged, and what still waits on it, is taken off it. -/
def unloadLink (k : Nat) (s : State) : List SentMsg × State :=
  match (s.trellis.links[k]?).bind (·.peer) with
  | some p =>
    (s.trellis.sent.filter fun m => m.hop == p,
      updTrellis (fun t => { t with sent := t.sent.filter fun m => m.hop != p }) (updLink k (fun l => { l with queue := [] }) s))
  | none => ([], s)

/-- The message inside a RELAY message, or the message itself, with its channel. -/
def innerMessage (m : SentMsg) : Nat × Nat × List Byte :=
  if m.dst ≠ m.hop && field m.bytes 0 1 == 0x21 then (m.dst, field m.bytes 10 1, m.bytes.drop 16)
  else (m.dst, m.channel, m.bytes)

/-- A relay message of another pair that this chip does not forward is refused (R458). -/
def refuseRelay (src dst : Nat) (m : List Byte) (s : State) : State :=
  sendMessage src vcControl 0x13 (leBytes 1 src ++ leBytes 1 dst ++ leBytes 1 (field m 0 1) ++ leBytes 1 0 ++ leBytes 4 (field m 4 4)) s

/-- A message that a failed link has not acknowledged: one that this chip relays is its source's to send by another relay, where this one
has no way on any more; any other is sent again, by relay where the link no longer serves (R458, R467). -/
def resendMessage (m : SentMsg) (s : State) : State :=
  let src := field m.bytes 8 1
  if m.channel = vcBulk ∧ field m.bytes 0 1 = 0x21 ∧ src ≠ s.trellis.chip then
    match linkTo s m.dst with
    | some k =>
      if linkServes s k then enqueueRelayed k m.dst m.bytes s
      else
        let inner := m.bytes.drop 16
        refuseRelay src (field m.bytes 9 1) inner (updTrellis (fun t => { t with relays := t.relays.erase (src, field m.bytes 9 1, inner) }) s)
    | none => s
  else
    let (dst, vc, bytes) := innerMessage m
    routeMessage dst vc bytes s

/-- The messages that a failed link has not acknowledged are sent again (R458, R467). -/
def resendMessages (k : Nat) (s : State) : State :=
  let (ms, s) := unloadLink k s
  ms.foldl (fun s m => resendMessage m s) s

/-- What a link holds of its series goes (R449, R454, R467). -/
def freshSeries (l : Link) : Link :=
  { l with nextSeq := 0, kept := [], replay := [], fruitless := 0, expect := 0, unreported := 0, nullDue := false, nak := false,
           nakAt := none, credits := [8, 32, 192], creditSeen := [0, 0, 0], freed := [0, 0, 0], sinceBulk := 0,
           partialMsg := [[], [], []], partialRpl := false, request := none, response := none }

/-- A change of a link's state: its peers learn it at once (R457). -/
def setLinkState (k : Nat) (f : Link → Link) (s : State) : State := sendPeerState (updating s) (updLink k f s)

/-- A link loses its signal (R446, R467): DOWN, its series ends, its messages wait for it or go by relay. -/
def linkDown (k : Nat) (s : State) : State :=
  resendMessages k (setLinkState k (fun l => { freshSeries l with state := .down, fromDown := true }) s)

/-- A link is FENCED until the next boot, 0x0703, or 0x0708 for a stored check (R446, R448). -/
def fenceLink (k status : Nat) (s : State) : State :=
  let s := logErr status (linkIsland k) 0 s { arg0 := k }
  resendMessages k (setLinkState k (fun l => { freshSeries l with state := .fenced }) s)

/-- LINK_SIGNAL_LOSS (R446). -/
def execLinkSignalLoss (link : Nat) (s : State) : Res :=
  match s.trellis.links[link]? with
  | none => done s
  | some l => doneIf (s.power.running && l.state != .fenced && l.state != .down) (linkDown link s) s

/-- A DOWN link begins to train (R446); a gated island wakes for it (R489). -/
def startTraining (k : Nat) (s : State) : State :=
  setLinkState k (fun l => { l with state := .training, fromDown := true }) (wakeIsland (linkIsland k) s)

/-- LINK_SIGNAL_RETURN (R446): a DOWN link trains. -/
def execLinkSignalReturn (link : Nat) (s : State) : Res :=
  match s.trellis.links[link]? with
  | none => done s
  | some l => doneIf (s.power.running && l.state == .down && !islandFenced s (linkIsland link)) (startTraining link s) s

/-- A link enters UP (R446, R449, R453): a new series after DOWN; after RETRAIN both ends keep theirs, and it replays. -/
def linkEnters (k width : Nat) (s : State) : State :=
  match s.trellis.links[k]? with
  | none => s
  | some l =>
    let s := setLinkState k (fun l =>
      let l := if l.fromDown then freshSeries l else { l with replay := l.kept, fruitless := 0 }
      { l with state := .up, fails := 0, width := width, lastRelease := steadyNs s }) s
    let s := if l.fromDown then resendMessages k s else s
    let s := match l.peer with | some p => endRelay p s | none => s
    if width < 4 then
      let t := updPower (fun p => { p with ledger := { p.ledger with linkWidths := p.ledger.linkWidths.set k width } }) s
      let t := if s.power.running && s.power.ledger.linkWidths.getD k 4 != width then saveLedger t else t
      logErr 0x0701 (linkIsland k) 0 t { arg0 := k, arg1 := width }
    else s

/-- The width at which a link trains: that of the ledger (R443, R446). -/
def ledgerWidth (s : State) (k : Nat) : Nat := s.power.ledger.linkWidths.getD k 4

/-- LINK_TRAINING_COMPLETE (R443, R446): a training that passes at the ledger's width takes the link UP; the third failure in a row fences
it. A gated island trains nothing before it is time-ready (R489). -/
def execLinkTrainingComplete (link : Nat) (passed : Bool) (width : Nat) (s : State) : Res :=
  match s.trellis.links[link]? with
  | none => done s
  | some l =>
    if !s.power.running || !(l.state == .training || l.state == .retrain) || asleep s (linkIsland link)
        || islandFenced s (linkIsland link) then done s
    else if passed && width == ledgerWidth s link then done (linkEnters link width s)
    else if l.fails + 1 < 3 then
      done (setLinkState link (fun l => { l with fails := l.fails + 1, state := .training, fromDown := l.state != .retrain && l.fromDown }) s)
    else done (fenceLink link 0x0703 (updLink link (fun l => { l with fails := l.fails + 1 }) s))

/-- A flit leaves with the present ACK and CREDIT (R447, R448, R451). -/
def emitFlit (k : Nat) (l : Link) (h : FlitHead) (payload : List Byte) (s : State) : State :=
  let h := { h with ack := seqMod (l.expect + 4095), nak := l.nak, credit := l.freed, src := s.trellis.chip }
  emit (.flit k (flitBytes h payload))
    (updLink k (fun l => { l with unreported := 0, nullDue := false, nak := false,
                                  nakAt := if l.nak then some (steadyNs s) else l.nakAt }) s)

def bareHead : FlitHead :=
  { seq := 0, rpl := false, type := 0, ack := 0, nak := false, credit := [0, 0, 0], vc := 0, first := false, last := false,
    src := 0 }

/-- The departure stamp of a time message, written as its flit leaves (R459): t1 of a TIME_REQ, t3 of a TIME_RESP. -/
def stampDeparture (now : Nat) (p : List Byte) : List Byte :=
  if field p 0 1 = 1 then putAt p 8 (leBytes 8 now) else if field p 0 1 = 2 then putAt p 24 (leBytes 8 now) else p

/-- A hardware stamp of a time flit, corrected for the link's path latency of boot step S5 (R459): a flit that leaves crosses the pins later
than the stamp says, one that arrives has crossed them earlier. -/
def linkLatency (s : State) (k : Nat) : Nat := s.power.ledger.trellisLatencies.getD k 0
def linkStampOut (s : State) (k stamp : Nat) : Nat := stamp + linkLatency s k
def linkStampIn (s : State) (k stamp : Nat) : Nat := stamp - linkLatency s k

/-- The slots in which bulk flits have waited since one was sent (R455). -/
def bulkWaits (l : Link) : Nat := if l.queue.any fun f => f.vc == vcBulk then l.sinceBulk + 1 else 0

/-- A new DATA flit of a channel: it takes a number and a credit, and is kept for replay (R449, R454). -/
def sendData (k : Nat) (l : Link) (f : OutFlit) (s : State) : State :=
  let p := if f.vc = vcTime then stampDeparture (linkStampOut s k (nowNs s)) f.payload else f.payload
  let h := { bareHead with seq := l.nextSeq, type := 1, vc := f.vc, first := f.first, last := f.last }
  let keep : KeptFlit := { seq := l.nextSeq, vc := f.vc, first := f.first, last := f.last, payload := p, check := (crc32c p).toNat }
  emitFlit k l h p (updLink k (fun l => { l with
    queue := l.queue.erase f
    nextSeq := seqMod (l.nextSeq + 1)
    kept := l.kept ++ [keep]
    lastRelease := if l.kept.isEmpty then steadyNs s else l.lastRelease
    credits := upd l.credits f.vc (· - 1)
    sinceBulk := if f.vc = vcBulk then 0 else bulkWaits l }) s)

/-- The next flit of a channel that may leave: 1,024 unacknowledged flits stop it, and so does a channel without credit (R449,
R454). -/
def sendable (l : Link) (vc : Nat) : Option OutFlit :=
  if 1024 ≤ l.kept.length || l.credits.getD vc 0 = 0 then none else l.queue.find? fun f => f.vc == vc

/-- A replay flit: its stored check is verified after the new CRC is made, and a failing one fences the link (R448). -/
def sendReplay (k : Nat) (l : Link) (f : KeptFlit) (s : State) : State :=
  if (crc32c f.payload).toNat ≠ f.check then fenceLink k 0x0708 s
  else
    let h := { bareHead with seq := f.seq, rpl := true, type := 1, vc := f.vc, first := f.first, last := f.last }
    emitFlit k l h f.payload (updLink k (fun l => { l with replay := l.replay.drop 1, sinceBulk := bulkWaits l }) s)

/-- What a flit slot sends (R455). After seven slots in which bulk flits waited and none was sent, the eighth is bulk's, behind a replay
only (DEDUCED, log 36). -/
def sendSlot (k : Nat) (l : Link) (s : State) : State :=
  match l.replay.head? with
  | some f => sendReplay k l f s
  | none =>
    match sendable l vcBulk with
    | some f => if 7 ≤ l.sinceBulk then sendData k l f s else others (some f)
    | none => others none
where
  /-- The slot by the order of R455. -/
  others (bulk : Option OutFlit) : State :=
    if l.nullDue then emitFlit k l bareHead [] (updLink k (fun l => { l with sinceBulk := bulkWaits l }) s)
    else match sendable l vcTime with
      | some f => sendData k l f s
      | none => match sendable l vcControl with
        | some f => sendData k l f s
        | none => match bulk with
          | some f => sendData k l f s
          | none => s

/-- FLIT_SLOT (R455). -/
def execFlitSlot (link : Nat) (s : State) : Res :=
  match s.trellis.links[link]? with
  | none => done s
  | some l => doneIf (s.power.running && linkUp s link) (sendSlot link l s) s

/-- ACK_TIMER (R451): 64 flits accepted, or 1 µs, without a DATA flit to carry the report. -/
def execAckTimer (link : Nat) (s : State) : Res :=
  match s.trellis.links[link]? with
  | none => done s
  | some l => doneIf (linkUp s link && decide (0 < l.unreported) &&
        decide (64 ≤ l.unreported ∨ l.unreportedFrom + 1000 ≤ steadyNs s))
      (updLink link (fun l => { l with nullDue := true }) s) s

/-- NAK_HOLDOFF_EXPIRY (R452). -/
def execNakHoldoffExpiry (link : Nat) (s : State) : Res :=
  match s.trellis.links[link]? with
  | none => done s
  | some l => match l.nakAt with
    | some t => doneIf (decide (t + 4000 ≤ steadyNs s)) (updLink link (fun l => { l with nakAt := none }) s) s
    | none => done s

/-- A replay of every outstanding flit (R452, R453): the seventeenth in a row that would find none released retrains the link. -/
def startReplay (k : Nat) (l : Link) (s : State) : State :=
  if 16 ≤ l.fruitless then
    logErr 0x0702 (linkIsland k) 0
      (setLinkState k (fun l => { l with state := .retrain, fromDown := false, replay := [] }) s) { arg0 := k }
  else updLink k (fun l => { l with replay := l.kept, fruitless := l.fruitless + 1, lastRelease := steadyNs s }) s

/-- REPLAY_TIMEOUT (R453). -/
def execReplayTimeout (link : Nat) (s : State) : Res :=
  match s.trellis.links[link]? with
  | none => done s
  | some l => doneIf (linkUp s link && !l.kept.isEmpty && decide (l.lastRelease + 8000 ≤ steadyNs s)) (startReplay link l s) s

/-- The messages that released flits complete: for each LAST flit of a channel the oldest message on it; a relayed message leaves
its buffer (R458). -/
def settleMessages (p : Nat) : List KeptFlit → State → State
  | [], s => s
  | f :: fs, s =>
    if !f.last then settleMessages p fs s
    else match s.trellis.sent.find? fun m => m.hop == p && m.channel == f.vc with
      | some m =>
        let src := field m.bytes 8 1
        let relay := if field m.bytes 0 1 = 0x21 && src != s.trellis.chip then
            s.trellis.relays.find? fun r => r.1 == src && r.2.1 == field m.bytes 9 1 else none
        settleMessages p fs (updTrellis (fun t => { t with
          sent := t.sent.erase m, relays := match relay with | some r => t.relays.erase r | none => t.relays }) s)
      | none => settleMessages p fs s

/-- An ACKSEQ (R450): accepted only inside the window, and then it releases the flits up to it. -/
def takeAck (k ack : Nat) (s : State) : State :=
  match s.trellis.links[k]? with
  | none => s
  | some l => match l.kept.head? with
    | none => s
    | some o =>
      let n := seqMod (ack + 4096 - o.seq)
      if n < l.kept.length then
        let freed := l.kept.take (n + 1)
        let s := updLink k (fun l => { l with
          kept := l.kept.drop (n + 1), replay := l.replay.filter fun f => !freed.contains f, fruitless := 0,
          lastRelease := steadyNs s }) s
        match l.peer with | some p => settleMessages p freed s | none => s
      else s

/-- Credits regained from the CREDIT counts (R454). -/
def takeCredits (credit : List Nat) (l : Link) : Link :=
  let gain (i : Nat) : Nat := (credit.getD i 0 + 256 - l.creditSeen.getD i 0) % 256
  { l with credits := l.credits.zipIdx.map fun c => c.1 + gain c.2, creditSeen := credit }

/-- A discard that asks for a NAK, once until the number expected comes or 4 µs pass (R452). -/
def askNak (k : Nat) (s : State) : State :=
  updLink k (fun l => if l.nakAt.isSome || l.nak then l else { l with nak := true, nullDue := true }) s

/-- A flit is discarded, counted and logged (R448, R452). -/
def discardFlit (k status : Nat) (s : State) : State :=
  askNak k (logErr status (linkIsland k) 0 (updLink k (fun l =>
    if status = 0x0707 then { l with fecErrors := l.fecErrors + 1 } else { l with crcErrors := l.crcErrors + 1 }) s) { arg0 := k })

/-- The flit in order (R450): its buffer is free again once its bytes have joined their message. -/
def acceptFlit (k : Nat) (h : FlitHead) (data : List Byte) (s : State) : State :=
  updLink k (fun l =>
    let n := l.unreported + 1
    let old := if h.first then [] else l.partialMsg.getD h.vc []
    { l with
      expect := seqMod (l.expect + 1)
      nakAt := none
      unreported := n
      unreportedFrom := if l.unreported = 0 then steadyNs s else l.unreportedFrom
      nullDue := l.nullDue || decide (64 ≤ n)
      freed := upd l.freed h.vc fun c => (c + 1) % 256
      partialMsg := l.partialMsg.set h.vc (old ++ data)
      partialRpl := if h.vc = vcTime then (h.rpl || (!h.first && l.partialRpl)) else l.partialRpl }) s

/-- The message that a flit has ended, taken out of its channel. -/
def takeMessage (k vc : Nat) (s : State) : List Byte × State :=
  match s.trellis.links[k]? with
  | some l => (l.partialMsg.getD vc [], updLink k (fun l => { l with partialMsg := l.partialMsg.set vc [] }) s)
  | none => ([], s)

/-- The length that a message's layout asks for (R457); none for a reserved TYPE. -/
def messageLength (b : List Byte) : Option Nat :=
  match field b 0 1 with
  | 0x01 => some 16
  | 0x02 => some 32
  | 0x10 => some 32
  | 0x11 => some (16 + 16 * field b 8 2)
  | 0x12 => some 32
  | 0x13 => some 16
  | 0x14 => some 24
  | 0x20 => some (48 + field b 0x28 2)
  | 0x21 => some (16 + field b 0x0C 4)
  | _ => none

/-- The channel of a message type (R456). -/
def messageChannel (type : Nat) : Nat := if type ≤ 2 then vcTime else if type < 0x20 then vcControl else vcBulk

/-- A message is accepted once (R456): a wrong one is discarded and counted under 0x0708 (R457). -/
def messageGood (b : List Byte) : Bool := decide (8 ≤ b.length) && messageLength b == some b.length

def badMessage (k : Nat) (s : State) : State :=
  logErr 0x0708 (linkIsland k) 0 (updTrellis (fun t => { t with badMessages := t.badMessages + 1 }) s) { arg0 := k }

/-- Whether a message has not been accepted before, and the state that knows it now (R456). -/
def admitMessage (src vc : Nat) (b : List Byte) (s : State) : Bool × State :=
  let key := (src, field b 1 1, vc, field b 4 4)
  if s.trellis.mnumSeen.contains key then (false, s)
  else (true, updTrellis (fun t => { t with mnumSeen := t.mnumSeen ++ [key] }) s)

/-- An offset sample of the exchange of R460 in 2^-16 ns. -/
def exchangeTheta (t1 t2 t3 t4 asym : Int) : Int := ((t1 - t2) + (t4 - t3) - asym) * 2 ^ 15

/-- TIME_REQ_PERIOD (R459): a chip that is not the time master asks it, or the relaying member when the link to it is FENCED
(R461), every 1 ms; during a partial reset of the link no sample is taken (R467). -/
def execTimeReqPeriod (s : State) : Res :=
  let m := timeMaster s
  if !s.power.running || m == s.trellis.chip || decide (steadyNs s < s.trellis.timeReqAt + 1000000) then done s
  else
    let s := updTrellis (fun t => { t with timeReqAt := steadyNs s }) s
    let target := match linkTo s m with
      | some k =>
        if linkServes s k then some m
        else if (match s.trellis.links[k]? with | some l => l.state == LinkState.fenced | none => false) then relayFor s m else none
      | none => none
    match target.bind fun p => (linkTo s p).map fun k => (p, k) with
    | some (p, k) =>
      let msg := messageHead 0x01 p (mnumFor s p vcTime) ++ leBytes 8 0
      done (enqueueMessage k p p vcTime msg (bumpMnum p vcTime s))
    | none => done s

/-- A sample whose request or response was replayed is discarded, 0x0706 (R459). -/
def dropSample (k : Nat) (s : State) : State :=
  logErr 0x0706 (linkIsland k) 0 (updLink k (fun l => { l with samplesDropped := l.samplesDropped + 1 }) s) { arg0 := k }

/-- The chip may serve time: it is the time master, or LOCKED to it (R461; a relaying member that is not LOCKED does not answer, DEDUCED,
log 239). -/
def givesTime (s : State) : Bool := timeMaster s == s.trellis.chip || (s.band.tstate == .locked && s.band.source == .trellis)

/-- TIME_REQ (R459): the request that has arrived is answered with its stamps; the answer's departure is stamped as it leaves. -/
def execTimeReq (link : Nat) (s : State) : Res :=
  match s.trellis.links[link]? with
  | none => done s
  | some l => match l.request, l.peer with
    | some (t1, t2, rpl), some p =>
      let s := updLink link (fun l => { l with request := none }) s
      if rpl then done (dropSample link s)
      else if !givesTime s then done s
      else
        let msg := messageHead 0x02 p (mnumFor s p vcTime) ++ leBytes 8 t1 ++ leBytes 8 t2 ++ leBytes 8 0
        done (enqueueMessage link p p vcTime msg (bumpMnum p vcTime s))
    | _, _ => done s

/-- TIME_RESP (R459, R460): the response gives the servo its offset; ASYM is that of the link. -/
def execTimeResp (link : Nat) (s : State) : Res :=
  match s.trellis.links[link]? with
  | none => done s
  | some l => match l.response with
    | some (t1, t2, t3, t4, rpl) =>
      let s := updLink link (fun l => { l with response := none }) s
      if rpl then done (dropSample link s)
      else if timeMaster s == s.trellis.chip then done s
      else done (takeSample .trellis (exchangeTheta t1 t2 t3 t4 (s.band.asym.getD link 0)) s)
    | none => done s

/-- The COMMIT entries for a chip (R456, R457): each stream linked to one of its streams, with its newest committed timestamp, or the mark
that it is closed. -/
def commitEntries (s : State) (chip : Nat) : List (Nat × Nat × Bool × Nat) :=
  (s.streams.zipIdx.map fun x => match x.1 with
    | some y => (y.links.filter fun l => l.1 == chip).map fun l =>
        (x.2, l.2, false, match y.committed with | some (_, t) => t | none => 0)
    | none => []).flatten ++ (s.trellis.closedLinks.filterMap fun c => if c.2.1 = chip then some (c.1, c.2.2.1, true, c.2.2.2) else none)

/-- The body of COMMIT (R457). -/
def commitBody (es : List (Nat × Nat × Bool × Nat)) : List Byte :=
  leBytes 2 es.length ++ leBytes 6 0 ++
    (es.map fun e => leBytes 1 e.1 ++ leBytes 1 e.2.1 ++ leBytes 1 (flag e.2.2.1 0) ++ leBytes 5 0 ++ leBytes 8 e.2.2.2).flatten

/-- COMMIT_PERIOD (R456): every 1 ms, to each chip that a stream of this one is linked to; none while no Quinbuar runs (R495 ruling 12). -/
def execCommitPeriod (s : State) : Res :=
  if !s.power.running || timeFrozen s || decide (steadyNs s < s.trellis.commitAt + 1000000) then done s
  else
    let s := updTrellis (fun t => { t with commitAt := steadyNs s }) s
    done ((peers s).foldl (fun s p =>
      let es := commitEntries s p
      if es.isEmpty then s else sendMessage p vcControl 0x11 (commitBody es) s) s)

/-- A stream closes: the chips of its linked streams learn it, and go on learning it until the stream opens again (R456, R464). -/
def sendClosed (n : Nat) (x : Stream) (s : State) : State :=
  let at_ := match x.committed with | some (_, t) => t | none => 0
  let s := updTrellis (fun t => { t with
    closedLinks := (t.closedLinks.filter fun c => c.1 != n) ++ (x.links.filter fun l => l.1 != t.chip).map fun l => (n, l.1, l.2, at_) }) s
  (peers s).foldl (fun s p =>
    let es := (x.links.filter fun l => l.1 == p).map fun l =>
      (n, l.2, true, match x.committed with | some (_, t) => t | none => 0)
    if es.isEmpty then s else sendMessage p vcControl 0x11 (commitBody es) s) s

/-- PEER_STATE_PERIOD (R457): every 10 ms; none while no Quinbuar runs (R495 ruling 12). -/
def execPeerStatePeriod (s : State) : Res :=
  doneIf (s.power.running && !timeFrozen s && decide (1 < s.trellis.members.length) && decide (s.trellis.peerStateAt + 10000000 ≤ steadyNs s))
    (sendPeerState (updating s) s) s

/-- The body of a GALLERY message behind its header (R457). -/
def galleryBody (e : GalleryEntry) (target : Nat) : List Byte :=
  leBytes 1 e.chip ++ leBytes 1 e.stream ++ leBytes 1 target ++ leBytes 1 (flag e.ended 0) ++ leBytes 4 e.trackId
    ++ leBytes 8 e.stamp ++ (e.box.map (leBytes 2)).flatten ++ leBytes 8 e.gid ++ leBytes 2 e.codes.length ++ leBytes 2 0
    ++ leBytes 4 e.tag ++ e.codes

/-- An entry joins the gallery of a stream that is linked to its source: a ring of 1,024, without its oldest first (R176). The
order is that of R177, so that arrival does not matter (R465). -/
def addGallery (n : Nat) (e : GalleryEntry) (s : State) : State :=
  updStream n (fun x =>
    if x.links.contains (e.chip, e.stream) then
      let key (e : GalleryEntry) : List Nat := [e.stamp, e.chip, e.stream, e.trackId]
      let g := insertBy (fun a b : GalleryEntry => decide (key a < key b)) e x.gallery
      { x with gallery := g.drop (g.length - 1024) }
    else x) s

/-- Publish an entry to a linked stream: on this chip at once, else as a GALLERY message (R176, R465). -/
def publish (chip target : Nat) (e : GalleryEntry) (s : State) : State :=
  if chip = s.trellis.chip then addGallery target e s else sendMessage chip vcBulk 0x20 (galleryBody e target) s

/-- What COMMIT says of a linked source (R177, R457): a stamp never goes back. -/
def noteCommit (src : Nat) (e : Nat × Nat × Bool × Nat) (s : State) : State :=
  updStream e.2.1 (fun x =>
    if x.links.contains (src, e.1) then
      let old := (x.commits.find? fun c => c.1 == src && c.2.1 == e.1).map fun c => c.2.2.1
      { x with commits := (x.commits.filter fun c => !(c.1 == src && c.2.1 == e.1)) ++
          [(src, e.1, max e.2.2.2 (old.getD 0), e.2.2.1)] }
    else x) s

/-- The streams of a lost peer count as closed (R464). -/
def closePeerStreams (chip : Nat) (s : State) : State :=
  { s with streams := s.streams.map fun o => o.map fun x =>
      { x with commits := (x.commits.filter fun c => c.1 != chip) ++
          (x.links.filter fun l => l.1 == chip).map fun l =>
            (chip, l.2, ((x.commits.find? fun c => c.1 == chip && c.2.1 == l.2).map fun c => c.2.2.1).getD 0, true) } }

/-- The limit without a PEER_STATE: 100 ms, 500 ms for 500 ms from an update mark (R464, R495 ruling 12). -/
def peerLimit (s : State) (mark : Option Nat) : Nat :=
  match mark with
  | some t => if steadyNs s < t + 500000000 then 500000000 else 100000000
  | none => 100000000

/-- A member has reported its link to a chip FENCED (R457). -/
def peerFenced (s : State) (via dst : Nat) : Bool :=
  s.trellis.peerLinks.any fun p => p.1 == via && p.2.any fun l => l.1 == 4 && l.2 == dst

/-- A member is lost: every link to it is FENCED, or it is silent (R464). -/
def peerLost (s : State) (chip : Nat) : Bool :=
  (peers s).contains chip &&
    ((match linkTo s chip with
      | some k => (match s.trellis.links[k]? with | some l => l.state == .fenced | none => true)
          && (peers s).all fun v => v == chip || peerFenced s v chip
      | none => true)
    || (match s.trellis.heard.find? fun h => h.1 == chip with
      | some h => decide (h.2.1 + peerLimit s h.2.2 ≤ steadyNs s)
      | none => false))

/-- The membership without a chip (R464). -/
def dropMember (chip : Nat) (s : State) : State :=
  let s := endRelay chip (logErr 0x0704 1 0 (closePeerStreams chip s) { arg0 := chip })
  sendPeerState (updating s) (updTrellis (fun t => { t with
    members := setDel chip t.members, chips := t.chips - 1, heard := t.heard.filter fun h => h.1 != chip,
    peerLinks := t.peerLinks.filter fun p => p.1 != chip }) s)

end Sys2Proof.Machine
end

