-- ==== Sys2Proof/Machine/Orangery.lean ====
section
/-! DEFINITION. The Orangeries (R75 to R82, R92 to R114): tiles of fixed and claimed indices, from the operands in memory to
the output rows, their tags, digests and measures. -/

namespace Sys2Proof.Machine

/-- The value of a length register; 0xFF names none (R76). -/
def lenReg (s : State) (i : Nat) : Nat := if i = 0xFF then 2 ^ 32 - 1 else s.score.lens.getD i 0

/-- Origin and extent of a tile (R76). -/
structure Extent where
  om : Nat
  on_ : Nat
  rows : Nat
  cols : Nat
  ek : Nat
  deriving DecidableEq, Repr

/-- The extent of tile `i`; none when it is skipped beyond length (R76). -/
def tileExtent (s : State) (d : TileDesc) (i : Nat) : Option Extent :=
  let gm := ceilDiv d.lm (max 1 d.tm)
  let (mi, ni) := if bitAt d.flags 0 then (i % max 1 gm, i / max 1 gm) else (i / max 1 d.gn, i % max 1 d.gn)
  let om := mi * d.tm
  let on := ni * d.tn
  let em := min d.lm (lenReg s d.lenM)
  let en := min d.ln (lenReg s d.lenN)
  if em ≤ om ∨ en ≤ on then none
  else some { om := om, on_ := on, rows := min d.tm (em - om), cols := min d.tn (en - on),
              ek := min d.lk (lenReg s d.lenK) }

/-- A distance kind: the column operand has the row operand's format (R98). -/
def isDistance (kind : Nat) : Bool := kind == 1 || kind == 2 || kind == 3

/-- MINPLUS or MAXPLUS (R104). -/
def isPlus (kind : Nat) : Bool := kind == 4 || kind == 5

/-- MAC, DIAG8 or DIAG32. -/
def isMac (kind : Nat) : Bool := kind == 0 || kind == 6 || kind == 7

/-- wa and wb of a pair (R98). -/
def rowWidth (pair : Nat) : Nat :=
  match pair with | 0 => 4 | 1 => 2 | 2 => 1 | 3 => 4 | 4 => 8 | 5 => 8 | _ => 16
def colWidth (kind pair : Nat) : Nat :=
  if isDistance kind then rowWidth pair
  else match pair with | 0 => 4 | 1 => 2 | 2 => 1 | 3 => 2 | 4 => 4 | 5 => 8 | _ => 16

/-- NA and NW (R98). -/
def rowNibbles (pair : Nat) : Nat := if pair = 4 ∨ pair = 5 then 2 else if pair = 6 then 4 else 1
def colNibbles (kind pair : Nat) : Nat := if isDistance kind then 1 else if pair = 5 then 2 else if pair = 6 then 4 else 1

/-- The formats that a pair admits for rows and for columns (R98). -/
def rowFormats (pair : Nat) : List Nat :=
  match pair with
  | 0 => [fmtA4u, fmtA4s] | 1 => [fmtA2u, fmtA2s] | 2 => [fmtA1] | 3 => [fmtA4u, fmtA4s] | 4 => [fmtA8] | 5 => [fmtA8]
  | _ => [fmtA16]
def colFormats (pair : Nat) : List Nat :=
  match pair with
  | 0 => [fmtW4] | 1 => [fmtW2, fmtTernary] | 2 => [fmtW1] | 3 => [fmtW2, fmtTernary] | 4 => [fmtW4] | 5 => [fmtW8]
  | _ => [fmtW16]

/-- An operand row or column as its feeder reads it: what the reads found, tag, codes. -/
structure Operand where
  tagRead : List ByteRead
  bodyRead : List ByteRead
  tag : Nat
  codes : List Nat
  deriving DecidableEq, Repr

/-- Element `k` of packed codes of width `w` (R95). -/
def codeAt (w : Nat) (bs : List Byte) (k : Nat) : Nat :=
  if w = 16 then field bs (2 * k) 2 else if w = 32 then field bs (4 * k) 4
  else bits (bs.getD (k * w / 8) 0).toNat (k * w % 8) w

/-- The pitch of an operand row of `lk` elements (R95). -/
def operandPitch (lk w : Nat) : Nat := 32 * ceilDiv (lk * w) 256

/-- Row `r` of an operand of `count` rows at `base`, as lane `k` reads it (R95, R96). -/
def readOperand (k : Nat) (s : State) (base count lk w ek r : Nat) : Operand :=
  let pitch := operandPitch lk w
  let body := readBy k s base (base + r * pitch) (ceilDiv (ek * w) 8)
  let tag := readBy k s base (base + count * pitch + 4 * r) 4
  { tagRead := tag, bodyRead := body, tag := leNat (readVals tag),
    codes := (List.range ek).map (codeAt w (readVals body)) }

/-- Everything an operand's reads found. -/
def Operand.reads (o : Operand) : List ByteRead := o.tagRead ++ o.bodyRead

/-- The values of an operand's elements under its tag's format (R101). -/
def Operand.vals (o : Operand) : List Int := o.codes.map (fmtValue (tagFmt o.tag))

/-- A tag is legal by itself (R129): no reserved format, no zero point where there is none. -/
def tagLegal (t : Nat) : Bool :=
  decide (tagFmt t ≤ 13) && (tagFmt t == 0 || (tagFmt t == 2 && decide (tagZp t ≤ 3)) || tagZp t == 0)

/-- Nibble `j` of `n` of a value (R101). -/
def nibble (n j : Nat) (v : Int) : Int := if n = 1 then v else if j + 1 = n then v / 16 ^ j else v / 16 ^ j % 16

/-- f(x, y) of R102. -/
def cellOp (kind : Nat) (x y : Int) : Int :=
  match kind with
  | 1 => |x - y|
  | 2 => (x - y) * (x - y)
  | 3 => if x = y then 0 else 1
  | _ => x * y

/-- One pass over one K chunk (R102). -/
def passSum (kind na nw : Nat) (p : Nat × Nat) (c : List Int × List Int) : Int :=
  (List.zipWith (fun x y => cellOp kind (nibble na p.1 x) (nibble nw p.2 y)) c.1 c.2).sum

/-- The passes in their order: activation nibble, then weight nibble, both falling (R102). -/
def passOrder (na nw : Nat) : List (Nat × Nat) :=
  ((List.range na).reverse.map fun j => (List.range nw).reverse.map fun i => (j, i)).flatten

/-- Saturating addition into the accumulator, with a note whether it saturated (R102, R105). -/
def accAdd (acc : Int × Bool) (v : Int) : Int × Bool :=
  let x := acc.1 + v
  (satS 32 x, acc.2 || satS 32 x != x)

/-- The accumulator of an element over all K chunks and passes (R102). -/
def accumulate (kind na nw tk : Nat) (xs ys : List Int) : Int × Bool :=
  let k := max 1 tk
  ((chunks k xs.length xs).zip (chunks k ys.length ys)).foldl (fun acc c =>
    (passOrder na nw).foldl (fun acc p => accAdd acc (passSum kind na nw p c * 2 ^ (4 * (p.1 + p.2)))) acc) (0, false)

/-- MINPLUS and MAXPLUS (R104): value and index, the lowest index on a tie. -/
def plusElement (isMin : Bool) (xs ys : List Int) : Int × Nat :=
  ((List.zipWith (· + ·) xs ys).zipIdx).foldl
    (fun best v => if (isMin && decide (v.1 < best.1)) || (!isMin && decide (best.1 < v.1)) then v else best)
    (if isMin then 2 ^ 31 - 1 else -(2 ^ 31), 0xFFFFFFFF)

/-- One finished element: accumulator, index, whether it saturated (R102 to R104). -/
structure Element where
  acc : Int
  index : Nat
  sat : Bool
  deriving DecidableEq, Repr

/-- The element of a row and a column after the zero-point correction (R103). -/
def element (d : TileDesc) (row col : Operand) : Element :=
  let kind := omKind d.opmode
  let pair := omPair d.opmode
  if isPlus kind then
    let (v, k) := plusElement (kind == 4) row.vals col.vals
    { acc := v, index := k, sat := false }
  else
    let acc := accumulate kind (rowNibbles pair) (colNibbles kind pair) d.tk row.vals col.vals
    let acc := if isMac kind && fmtUnsigned (tagFmt row.tag) then accAdd acc (-(tagZp row.tag * col.vals.sum)) else acc
    { acc := acc.1, index := 0, sat := acc.2 }

/-- A cell whose row and column lie in different diagonal blocks is masked (R113). -/
def diagMasked (kind i j : Nat) : Bool :=
  (kind == 6 && i / 8 != j / 8) || (kind == 7 && i / 32 != j / 32)

/-- What a tile's data raise: status, address, and the stream that the access names (R114, R291). -/
structure Trouble where
  status : Nat
  addr : Nat
  stream : Option Nat
  deriving DecidableEq, Repr

/-- The trouble at the lowest address. -/
def lowest (l : List Trouble) : Option Trouble := (sortBy (fun a b : Trouble => decide (a.addr < b.addr)) l).head?

/-- The deferred-faulty bytes, and the refused and uncorrectable ones, of reads; `st` is the stream that the op's row names (R85,
R114, R291). -/
def deferredIn (s : State) (ctx : Option (Nat × Nat)) (st : Option Nat) (r : List ByteRead) : List Trouble :=
  r.filterMap fun x => x.deferred.map fun c => { status := c, addr := x.addr, stream := st.or (addrStream s ctx x.seen) }
def errorsIn (s : State) (ctx : Option (Nat × Nat)) (st : Option Nat) (r : List ByteRead) : List Trouble :=
  r.filterMap fun x => x.error.map fun c => { status := c, addr := x.addr, stream := st.or (addrStream s ctx x.seen) }

/-- The row operands and column operands of a tile, each row with the stream that it belongs to. -/
structure TileData where
  rows : List (Operand × Option Nat)
  cols : List Operand
  deriving DecidableEq, Repr

/-- Read a tile's operands in full for lane `k` (R95, R143). -/
def tileData (k : Nat) (s : State) (d : TileDesc) (ctx : Option (Nat × Nat)) (e : Extent) : TileData :=
  let kind := omKind d.opmode
  let pair := omPair d.opmode
  { rows := (List.range e.rows).map fun i =>
      (readOperand k s d.abase d.lm d.lk (rowWidth pair) e.ek (e.om + i),
       (rowOwner s ctx d.lm (e.om + i)).map fun o => o.at_.stream),
    cols := (List.range e.cols).map fun j => readOperand k s d.bbase d.ln d.lk (colWidth kind pair) e.ek (e.on_ + j) }

/-- A row tag does not match (R100, R129). -/
def rowTagBad (kind pair first t : Nat) : Bool :=
  !tagLegal t || !(rowFormats pair).contains (tagFmt t) || (isDistance kind && tagFmt t != first)

/-- A column tag does not match (R100, R129, R131). -/
def colTagBad (kind pair out first : Nat) (eb : Int) (t : Nat) : Bool :=
  !tagLegal t || (if isDistance kind then tagFmt t != first else !(colFormats pair).contains (tagFmt t))
    || (isMac kind && out == 0 && tagExp t != eb)

/-- The first tag that does not match: rows in ascending m, then columns in ascending n (R114); each names its stream (R291). -/
def tagTrouble (s : State) (ctx : Option (Nat × Nat)) (d : TileDesc) (x : TileData) : Option Trouble :=
  let kind := omKind d.opmode
  let pair := omPair d.opmode
  let first := match x.rows.head? with | some r => tagFmt r.1.tag | none => 0
  let eb := match x.cols.head? with | some c => tagExp c.tag | none => 0
  let at_ (o : Operand) : Nat := (o.tagRead.head?.map (·.addr)).getD 0
  let bad : List Trouble :=
    (x.rows.filter fun r => rowTagBad kind pair first r.1.tag).map (fun r => { status := 0x0431, addr := at_ r.1, stream := r.2 })
      ++ (x.cols.filter fun c => colTagBad kind pair (omOut d.opmode) first eb c.tag).map
          (fun c => { status := 0x0431, addr := at_ c, stream := c.tagRead.head?.bind fun r => addrStream s ctx r.seen })
  bad.head?

/-- The position of a column's first poison code: k, then n (R114, R127). -/
def poisonAt_ (c : Operand × Nat) : Option (Nat × Nat × Operand) :=
  (posOf (fmtPoison (tagFmt c.1.tag)) c.1.codes).map fun k => (k, c.2, c.1)

/-- A column holds a poison code (R127): the one at the lowest position in ascending k and then ascending n (R114), with the address
of its byte. -/
def poisonTrouble (s : State) (ctx : Option (Nat × Nat)) (x : TileData) : Option Trouble :=
  let all := sortBy (fun a b : Nat × Nat × Operand => decide (a.1 < b.1)) (x.cols.zipIdx.filterMap poisonAt_)
  all.head?.map fun p =>
    let r := p.2.2.bodyRead[p.1 * fmtBits (tagFmt p.2.2.tag) / 8]?
    { status := 0x0430, addr := (r.map (·.addr)).getD 0, stream := r.bind fun r => addrStream s ctx r.seen }

/-- The first condition that the tile's operands meet, in the order of R114. The order names the local store's uncorrectable errors
only: translation and other refused accesses rank with them, and the bytes that could not be read count as 0, so that a tag among
them is judged as FMT 0 (DESIGN CHOICE, log 172). -/
def tileTrouble (s : State) (d : TileDesc) (ctx : Option (Nat × Nat)) (x : TileData) : Option Trouble :=
  let read (f : Option Nat → List ByteRead → List Trouble) : Option Trouble :=
    lowest ((x.rows.map fun r => f r.2 r.1.reads).flatten ++ (x.cols.map fun c => f none c.reads).flatten)
  ((read (deferredIn s ctx)).or (tagTrouble s ctx d x)).or ((poisonTrouble s ctx x).or (read (errorsIn s ctx)))

/-- One output row of a tile: its row, its elements by column, its code format, exponent and zero point, its codes with their
saturation, whether the row carries a mark, and whether its tag is written. -/
structure OutRow where
  m : Nat
  owner : Option RowOwner
  els : List (Nat × Element)
  fmt : Nat
  eo : Int
  zo : Nat
  codes : List (Nat × Int × Bool)
  need : Option Int
  history : List ByteRead
  mark : Bool
  tagged : Bool
  deriving DecidableEq, Repr

/-- The value of an element before re-quantisation: accumulator and exponent (R130). -/
def elementValue (kind : Nat) (row col : Operand) (x : Element) : Int × Int :=
  (x.acc, if isMac kind then tagExp row.tag + tagExp col.tag else 0)

/-- Form one output row (R102 to R106, R130 to R132). -/
def outRow (s : State) (d : TileDesc) (ctx : Option (Nat × Nat)) (e : Extent) (x : TileData) (i : Nat) (row : Operand) :
    OutRow :=
  let kind := omKind d.opmode
  let l := residentLayer s d.layer
  let m := e.om + i
  let owner := rowOwner s ctx d.lm m
  let cols := (x.cols.zipIdx.filter fun c => !diagMasked kind i c.2).map fun c => (e.on_ + c.2, c.1, element d row c.1)
  let acc32 := omOut d.opmode == 0
  let eb := match x.cols.head? with | some c => tagExp c.tag | none => 0
  let eo := if acc32 then (if isMac kind then clamp (-128) 127 (tagExp row.tag + eb) else 0) else outExponent s l ctx owner m
  let zo := if acc32 then 0 else outZero l
  let fmt := if acc32 then fmtAcc32 else l.ofmt
  let vals := cols.map fun c => elementValue kind row c.2.1 c.2.2
  let hist := if acc32 then [] else exponentRead s l owner
  { m := m, owner := owner, els := cols.map fun c => (c.1, c.2.2), fmt := fmt, eo := eo, zo := zo,
    codes := (cols.zip vals).map fun c =>
      if acc32 then (c.1.1, c.1.2.2.acc, c.1.2.2.sat) else (c.1.1, rq fmt zo eo c.2.1 c.2.2)
    need := if acc32 || fmt == 4 || (l.path == 1 && fmt == 5) then none else some (rowNeed fmt zo vals),
    history := hist, mark := readPoison row.reads || readPoison hist, tagged := true }

/-- Whether a tile writes its output row `i`: the path latches (R143) and the shorter samples' mask (R78) let it. -/
def tileRow (s : State) (d : TileDesc) (ctx : Option (Nat × Nat)) (e : Extent) (i : Nat) : Bool :=
  rowOpen s (residentLayer s d.layer) ctx d.lm (e.om + i) && rowWithin s d.lenM ctx d.lm (e.om + i)

/-- A tile none of whose rows the path latches leave open is skipped (R143). -/
def tileClosed (s : State) (d : TileDesc) (ctx : Option (Nat × Nat)) (e : Extent) : Bool :=
  !(List.range e.rows).any fun i => rowOpen s (residentLayer s d.layer) ctx d.lm (e.om + i)

/-- The output rows that a tile writes (R76, R78, R143). -/
def outRows (s : State) (d : TileDesc) (ctx : Option (Nat × Nat)) (e : Extent) (x : TileData) : List OutRow :=
  (x.rows.zipIdx.filter fun r => tileRow s d ctx e r.2).map fun r =>
    outRow s d ctx e x r.2 r.1.1

/-- A byte whose packed codes are replaced: `cs` gives bit position within the row string and code (R106). -/
def packByte (w i : Nat) (old : Byte) (cs : List (Nat × Nat)) : Byte :=
  BitVec.ofNat 8 (cs.foldl (fun v c =>
    if c.1 * w / 8 = i then v - bits v (c.1 * w % 8) w * 2 ^ (c.1 * w % 8) + c.2 % 2 ^ w * 2 ^ (c.1 * w % 8) else v) old.toNat)

/-- The cells of one output row's elements at row address `a` (R106, R131): narrow codes share bytes, and a code that is not written
keeps the bits that stand there now. `marked` says which columns carry a mark. -/
def rowCells (s : State) (start a fmt : Nat) (plus : Bool) (codes : List (Nat × Int × Bool)) (index : Nat → Nat)
    (marked : Nat → Bool) : List Cell :=
  let w := fmtBits fmt
  if plus then
    (codes.map fun c => cellsAt (a + 8 * c.1) (leBytes 4 (unsigned 32 c.2.1) ++ leBytes 4 (index c.1)) (marked c.1)).flatten
  else if 8 ≤ w then
    (codes.map fun c => cellsAt (a + c.1 * (w / 8)) (leBytes (w / 8) (unsigned w c.2.1)) (marked c.1)).flatten
  else
    let at_ := ((codes.map fun c => c.1 * w / 8).eraseDups)
    at_.map fun i =>
      let old := (readVals (readFrom noLane (current s) start (a + i) 1)).getD 0 0
      let mine := codes.filter fun c => c.1 * w / 8 == i
      { addr := a + i, val := packByte w i old (codes.map fun c => (c.1, codeBits fmt c.2.1)),
        mark := mine.any fun c => marked c.1 }

/-- The tag of an output row (R128, R131, R132, R144): WIDE says that a widen-path op wrote it. -/
def rowTag (l : LayerEntry) (r : OutRow) : Nat :=
  mkTag r.eo r.zo r.fmt false (l.path == 1) 0

/-- The cells of one output row of a tile: elements, then the row tag (R106, R114). -/
def outCells (s : State) (d : TileDesc) (e : Extent) (x : TileData) (r : OutRow) : List Cell :=
  let l := residentLayer s d.layer
  let plus := isPlus (omKind d.opmode)
  let marked (n : Nat) : Bool := r.mark || (match x.cols[n - e.on_]? with | some c => readPoison c.reads | none => false)
  let index (n : Nat) : Nat := match r.els.find? fun y => y.1 == n with | some y => y.2.index | none => 0
  rowCells s d.obase (d.obase + r.m * d.opitch) r.fmt plus r.codes index marked
    ++ (if r.tagged then cellsAt (d.obase + d.lm * d.opitch + 4 * r.m) (leBytes 4 (rowTag l r)) false else [])

/-- All cells that a tile writes (R106, R114). -/
def tileCells (s : State) (d : TileDesc) (e : Extent) (x : TileData) (rows : List OutRow) : List Cell :=
  (rows.map (outCells s d e x)).flatten

/-- The elements of a digest unit (R148). -/
def rowDigest (plus : Bool) (r : OutRow) : List Byte :=
  (r.codes.map fun c =>
    if plus then
      leBytes 4 (unsigned 32 c.2.1) ++ leBytes 4 (match r.els.find? fun y => y.1 == c.1 with | some y => y.2.index | none => 0)
    else digestBytes r.fmt (codeBits r.fmt c.2.1)).flatten

/-- Note a written row's digest, measure and saturated accumulators (R105, R136, R141, R146, R148). -/
def noteRow (d : TileDesc) (ctx : Option (Nat × Nat)) (e : Extent) (r : OutRow) (s : State) : State :=
  match ctx with
  | none => s
  | some (b, n) =>
    let x : Measure :=
      { layer := d.layer, batch := b, num := n, row := r.m, owned := r.owner.isSome,
        stream := (r.owner.map (·.at_.stream)).getD 0, frame := (r.owner.map (·.at_.frame)).getD 0,
        frameRow := rowNumber r.owner r.m, slot := rowSlot s b d.lm r.m, need := r.need,
        satn := min 255 (r.codes.filter fun c => c.2.2).length, tags := [d.obase + d.lm * d.opitch + 4 * r.m] }
    match r.owner with
    | some o =>
      let satAcc := (r.els.filter fun x => x.2.sat).length
      let s := ownerDigest (bitAt d.flags 1) d.layer r.owner e.on_ (rowDigest (isPlus (omKind d.opmode)) r) s
      addMeasure x (updFrameNum o.at_.stream o.at_.frame (fun f => { f with satAcc := f.satAcc + satAcc }) s)
    | none => addMeasure x s

/-- Whether a free value picks place `i` of what an op was writing when it faulted (R523). -/
def landed (s : State) (i : Nat) : Bool := Config.freeBits 1 (s.freeCount + i) == 1

/-- Write those of an op's cells that do not fault themselves. -/
def writeGood (k start : Nat) (cs : List Cell) (s : State) : State :=
  writeOp start (cs.filter fun c => (cellFault k s start c).isNone) s

/-- Of the bytes that a COPY was writing when it faulted, those that a free value picks are written, and none at an address that
itself faults (R523). -/
def writeSome (k start : Nat) (cs : List Cell) (s : State) : State :=
  writeGood k start ((cs.zipIdx.filter fun c => landed s c.2).map (·.1)) { s with freeCount := s.freeCount + cs.length }

/-- Of the elements and row tags that a tile was writing when it faulted, each holds its old value or the computed one, as a free
value picks (R523). -/
def someRows (s : State) (rows : List OutRow) : List OutRow :=
  let w := (rows.map fun r => r.codes.length + 1).foldl max 0
  rows.zipIdx.map fun r => { r.1 with
    codes := (r.1.codes.zipIdx.filter fun c => landed s (r.2 * w + c.2)).map (·.1), tagged := landed s (r.2 * w + r.1.codes.length) }

/-- A tile that faults leaves some of its elements and row tags written (R523). -/
def tileSome (k : Nat) (d : TileDesc) (e : Extent) (x : TileData) (rows : List OutRow) (s : State) : State :=
  let w := (rows.map fun r => r.codes.length + 1).foldl max 0
  writeGood k d.obase (tileCells s d e x (someRows s rows)) { s with freeCount := s.freeCount + rows.length * w }

/-- The operand regions of a tile, by the places that their bytes lead to: whole rows and columns with their tags (R95, R96, R107). -/
def operandRegion (s : State) (d : TileDesc) (e : Extent) : List Target :=
  let pair := omPair d.opmode
  let region (base count w from_ n : Nat) : List Target :=
    let pitch := operandPitch d.lk w
    let bytes (a m : Nat) : List Target := (List.range m).map fun i => resolve s false base (a + i)
    ((List.range n).map fun i => bytes (base + (from_ + i) * pitch) pitch ++ bytes (base + count * pitch + 4 * (from_ + i)) 4).flatten
  region d.abase d.lm (rowWidth pair) e.om e.rows ++ region d.bbase d.ln (colWidth (omKind d.opmode) pair) e.on_ e.cols

/-- Where a tile's output overlaps its own operand regions, the bytes written are open (R107). -/
def blurOverlap (d : TileDesc) (e : Extent) (cs : List Cell) (s : State) : List Cell × State :=
  let region := operandRegion s d e
  let both (c : Cell) : Bool := match writeTarget s d.obase c with
    | .phys p m => region.contains (.phys p m)
    | .host h => region.contains (.host h)
    | .token q o => region.contains (.token q o)
    | _ => false
  if cs.any both then
    (cs.zipIdx.map fun c => if both c.1 then { c.1 with val := Config.freeBits 8 (s.freeCount + c.2) } else c.1,
     { s with freeCount := s.freeCount + cs.length })
  else (cs, s)

/-- The write of a tile that faults, with its address and the stream that the access names: its row's, else the address's (R291). -/
def tileWriteTrouble (k : Nat) (s : State) (d : TileDesc) (ctx : Option (Nat × Nat)) (e : Extent) (x : TileData)
    (rows : List OutRow) : Option Trouble :=
  rows.findSome? fun r => (writeFault k s d.obase (outCells s d e x r)).map fun w =>
    { status := w.1, addr := w.2, stream := (r.owner.map (·.at_.stream)).or (addrStream s ctx w.2) }

/-- What the histories of a tile's output rows raise (R305, R356): after the operands' own conditions (DESIGN CHOICE, log 172). -/
def historyTrouble (s : State) (ctx : Option (Nat × Nat)) (rows : List OutRow) : Option Trouble :=
  lowest (rows.map fun r => let st := r.owner.map (·.at_.stream); deferredIn s ctx st r.history ++ errorsIn s ctx st r.history).flatten

/-- A skipped tile counts on its Orangery (R77, R79). -/
def skipTile (o : Nat) (s : State) : State := updOrangery o (fun x => { x with skipped := x.skipped + 1 }) s

/-- What a tile waits for (R161, R162, R314): nothing when it is skipped. -/
def tileWaits (k : Nat) (s : State) (d : TileDesc) (ctx : Option (Nat × Nat)) (i : Nat) : List Wait :=
  match tileExtent s d i with
  | none => []
  | some e =>
    if isTorn s ctx || tileClosed s d ctx e then []
    else
      let x := tileData k s d ctx e
      ((x.rows.map fun r => readWait r.1.reads).flatten ++ (x.cols.map fun c => readWait c.reads).flatten
        ++ writeWait s d.obase (tileCells s d e x (outRows s d ctx e x))).eraseDups

/-- The good physical columns of an Orangery, ascending: presented column n is the n-th of them (R108). -/
def goodColumns (bad : List Nat) : List Nat := (List.range 136).filter fun c => !bad.contains c

/-- The code of a presented width: 128 less 8 for each step of R108 (R431). -/
def widthCode (bad : List Nat) : Nat :=
  let b := 136 - (goodColumns bad).length
  if b ≤ 8 then 0 else ceilDiv (b - 8) 8

/-- The presented width of an Orangery (R108). Its step of 8 goes on where more than 72 columns are bad, which makes the Orangery
unusable and leaves the width of R113's check open (DESIGN CHOICE, log 201). -/
def presentedWidth (s : State) (o : Nat) : Nat :=
  match s.orangeries[o]? with
  | some x => 128 - 8 * widthCode x.badColumns
  | none => 0

/-- The sum that the last pass over the last K chunk leaves in a cell's pass register (R92, R102); of MINPLUS and MAXPLUS, which run no
pass, the sum of products that a MAC pass over the same codes would leave (DESIGN CHOICE, log 200). -/
def lastPass (kind na nw tk : Nat) (xs ys : List Int) : Int :=
  match ((chunks (max 1 tk) xs.length xs).zip (chunks (max 1 tk) ys.length ys)).getLast?, (passOrder na nw).getLast? with
  | some c, some p => passSum kind na nw p c
  | _, _ => 0

/-- What the cells of an Orangery hold after a tile (R92, R108, R109): column group g computes into bank g mod 2, presented column n
sits in the n-th good physical column, and the drains leave the accumulators as they were (DESIGN CHOICE, log 173). The elastic
links are empty again. -/
def loadCells (o : Nat) (d : TileDesc) (x : TileData) (s : State) : State :=
  let wp := max 1 (presentedWidth s o)
  let kind := omKind d.opmode
  let na := rowNibbles (omPair d.opmode)
  let nw := colNibbles kind (omPair d.opmode)
  let cells := (x.rows.zipIdx.map fun r => x.cols.zipIdx.map fun c => (r.2, c.2, r.1.1, c.1)).flatten
  updOrangery o (fun y =>
    let at_ (i j : Nat) : Nat := i * 136 + (goodColumns y.badColumns).getD (j % wp) 0
    { y with
      banks := cells.foldl (fun t c =>
        let acc := if isPlus kind then (plusElement (kind == 4) c.2.2.1.vals c.2.2.2.vals).1
          else (accumulate kind na nw d.tk c.2.2.1.vals c.2.2.2.vals).1
        tabPut (c.2.1 / wp % 2 * 128 * 136 + at_ c.1 c.2.1) (BitVec.ofInt 32 acc) t) y.banks
      pass := cells.foldl (fun t c =>
        tabPut (at_ c.1 c.2.1) (BitVec.ofInt 24 (lastPass kind na nw d.tk c.2.2.1.vals c.2.2.2.vals)) t) y.pass
      links := [] }) s

/-- Run tile `i` of a descriptor for an op of lane `k` (R76, R77, R87, R114, R143): a skip, a fault, or the written rows. -/
def runTile (k : Nat) (d : TileDesc) (ctx : Option (Nat × Nat)) (i : Nat) (s : State) : State :=
  match tileExtent s d i with
  | none => skipTile (k - 1) s
  | some e =>
    if isTorn s ctx || tileClosed s d ctx e then skipTile (k - 1) s
    else
      let x := tileData k s d ctx e
      let rows := outRows s d ctx e x
      let s := loadCells (k - 1) d x
        (noteReads k ((x.rows.map fun r => r.1.reads).flatten ++ (x.cols.map Operand.reads).flatten ++ (rows.map (·.history)).flatten) s)
      match ((tileTrouble s d ctx x).or (historyTrouble s ctx rows)).or (tileWriteTrouble k s d ctx e x rows) with
      | some t => jobFault k ctx t.status t.addr t.stream (useDeferred t.addr (tileSome k d e x rows s))
      | none =>
        let (cells, s) := blurOverlap d e (tileCells s d e x rows) s
        let s := writeOp d.obase cells s
        if bitAt d.flags 2 && rows.any fun r => r.els.any fun y => y.2.sat then jobFault k ctx 0x0432 d.layer none s
        else rows.foldl (fun s r => noteRow d ctx e r s) s

/-- TILE (R64, R76): the fixed tile of its descriptor. -/
def execTile (orangery : Nat) (s : State) : Res :=
  inRange (decide (orangery < 16)) s <|
    let k := orangeryLane orangery
    let desc (o : IssuedOp) : TileDesc := imgTile s.score.image (argDesc o.word)
    startOp k 0x10 (fun _ => true) (fun o => tileWaits k s (desc o) o.ctx (desc o).fixidx)
      (fun o s => occupy k o [] true (writing k (runTile k (desc o) o.ctx (desc o).fixidx) s)) s

/-- CLAIM (R64, R79): the claim loop starts. -/
def execClaim (orangery : Nat) (s : State) : Res :=
  inRange (decide (orangery < 16)) s <|
    let k := orangeryLane orangery
    startOp k 0x11 (fun _ => true) (fun _ => []) (fun o s => occupy k o [] false s) s

/-- The running op of a lane is finished: OP_COMPLETE ends it. -/
def finishRun (k : Nat) (s : State) : State :=
  updLane k (fun l => { l with running := l.running.map fun r => { r with finished := true } }) s

/-- One turn of the claim loop (R79, R80): fetch and increment; beyond the limit the op is finished. The tiles of a torn-down batch are
claimed and skipped (R87). -/
def claimTurn (k : Nat) (o : IssuedOp) (s : State) : State :=
  match s.score.claims[argCounter o.word]? with
  | none => finishRun k s
  | some c =>
    let d := imgTile s.score.image (argDesc o.word)
    let next := updClaim (argCounter o.word) (fun c => { c with value := (c.value + 1) % 2 ^ 32 }) s
    if c.limit ≤ c.value then finishRun k next
    else match tileWaits k s d o.ctx c.value with
      | [] => writing k (runTile k d o.ctx c.value) next
      | ws => ws.foldl (fun s w => awaitFor w s) s

/-- CLAIM_FETCH (R79). -/
def execClaimFetch (orangery : Nat) (s : State) : Res :=
  inRange (decide (orangery < 16)) s <|
    let k := orangeryLane orangery
    match (s.score.lanes[k]?).bind (·.running) with
    | some r => if opOpc r.op.word ≠ 0x11 || r.finished then done s else done (claimTurn k r.op s)
    | none => done s

end Sys2Proof.Machine
end

