-- ==== Sys2Proof/Machine/Codec.lean ====
section
/-! DEFINITION. The Fountains (R211 to R230, R234): which picture a Fountain takes, parameter sets, damage and concealment, frame
stores and picture cells, the output process. What H.264 and H.265 themselves define of an access unit comes with the command as
its facts (R221). -/

namespace Sys2Proof.Machine

/-- The base of frame store `i` of a stream, and of a clip (R216, R234). -/
def storeAt (x : Stream) (i : Nat) : Nat := x.storeBase + i * storeSize x.cfg
def clipStoreAt (c : Clip) (i : Nat) : Nat := c.storeBase + i * storeSize c.cfg

/-- The class of a Fountain's access to an address (R273, R321): its real-time port in the real-time region, else that of the stream. -/
def fountainClass (k : Nat) (b : OpenBlock) (a : Nat) : ReqClass :=
  if regionOf a = .dramRealTime then .realTime (5 + k) else if b.cls = 0 then .lc else .be

/-- The frame stores that a decode context's references and pictures that wait for output hold (R216). -/
def contextStores (d : Decoder) : List Nat := (d.pictures.filter fun p => !p.bare && (p.reference || p.waiting)).map (·.store)

/-- The frame stores in use: by the decode context, by frames with a picture cell (R216). -/
def storesUsed (x : Stream) : List Nat := contextStores x.dec ++ x.frames.filterMap (·.store)

/-- The lowest free one of `n` frame stores; that of the most recently decoded picture only where no other is free, since that
picture may stand in for a reference (R216, R227). -/
def pickStore (n : Nat) (used : List Nat) (last : Option Nat) : Option Nat :=
  let free := (List.range n).filter fun i => !used.contains i
  match free.find? fun i => last != some i with
  | some i => some i
  | none => free.head?

/-- The frame store that a stream's next picture takes (R216). -/
def freeStore (x : Stream) : Option Nat := pickStore x.stores (storesUsed x) x.dec.last

/-- The frame store that a clip's next picture takes (R234). -/
def freeClipStore (c : Clip) : Option Nat :=
  pickStore c.stores (contextStores c.dec ++ c.ready.map (·.store)) c.dec.last

/-- The next picture of a stream in decode order (R192, R214): the first to arrive, but in RTP timestamp order for access units of the
jitter buffer. -/
def nextPicture (x : Stream) : Option Frame :=
  match x.frames.filter fun f => f.stage == .landing with
  | [] => none
  | f :: l => some (l.foldl (fun a b => if earlierTs b.rtpTs a.rtpTs then b else a) f)

/-- The pictures of streams that a Fountain may take, each with its place in the order of R214. -/
def streamPictures (s : State) (k : Nat) : List (List Nat × DecodeTarget) :=
  s.streams.zipIdx.filterMap fun o => o.1.bind fun x =>
    if x.fountain = some k then (nextPicture x).map fun f => ([x.cfg.cls, f.tzero, o.2], .stream o.2 f.id) else none

/-- The clip decodes that a Fountain may take (R214, R234): behind every stream, by acceptance time. -/
def clipPictures (s : State) (k : Nat) : List (List Nat × DecodeTarget) :=
  s.clips.zipIdx.filterMap fun o => o.1.bind fun c =>
    if c.fountain = some k ∧ !c.sources.isEmpty then some ([2, c.accepted, c.stream, o.2], .clip o.2) else none

/-- What a Fountain takes: LC before BE, then landing stamp, then stream index; then clip decodes by acceptance time (R214). -/
def fountainChoice (s : State) (k : Nat) : Option DecodeTarget :=
  ((sortBy (fun a b : List Nat × DecodeTarget => decide (a.1 < b.1)) (streamPictures s k ++ clipPictures s k)).head?).map (·.2)

/-- A change of decode mode takes effect at the first access unit not yet started, and its command ends with that unit's landing
stamp (R222). -/
def applyMode (n : Nat) (f : Frame) (s : State) : State :=
  match (stream? s n).bind (·.modeChange) with
  | some (m, q, cid) =>
    finishCmd q cid 0 f.tzero false (updStream n (fun x => { x with dec := { x.dec with mode := m }, modeChange := none }) s)
  | none => s

/-- A picture that is over without output takes its number and frees its cells (R218). -/
def endPicture (n id : Nat) (s : State) : State :=
  numberFrame n id (freeFrame n id (updFrame n id (fun f => { f with stage := .skipped, store := none }) s))

/-- The parameter sets that a slice refers to, when all of them are stored (R221). -/
def sliceSps (d : Decoder) (s : SliceFacts) : Option (Sps × Pps) :=
  (tabGet s.pps d.sets.pps).bind fun p => (tabGet p.sps d.sets.sps).bind fun v =>
    if d.hevc && !d.sets.vps.contains v.1 then none else some (v.2, p)

/-- What stands in for the SPS of a concealed picture before any is active: the declaration (DESIGN CHOICE, log 210). -/
def declaredSps (b : OpenBlock) (hevc : Bool) : Sps where
  profile := if hevc then (if b.depth = 10 then .hevcMain10 else .hevcMain) else .high
  progressive := true
  chroma := 1
  depth := b.depth
  codedW := b.maxW
  codedH := b.maxH
  width := b.maxW
  height := b.maxH
  xoff := 0
  yoff := 0
  dpb := b.dpb
  reorder := 0
  latency := none
  block := if hevc then 64 else 16
  body := []

/-- The SPS of the picture in decode. -/
def pictureSps (b : OpenBlock) (d : Decoder) : Sps := d.sps.getD (declaredSps b d.hevc)

/-- Quinbuar's parse of an access unit before its decode (R221): the parameter sets that it carries are stored, and the SPS that its
first slice names is active. -/
def parsePicture (g : PictureFacts) (d : Decoder) : Decoder :=
  let d := { d with sets := g.sets.foldl (storeSet d.hevc) d.sets }
  match (g.slices.head?).bind (sliceSps d) with
  | some (v, _) => { d with sps := some v }
  | none => d

/-- A picture kept by its decode number. -/
def refPicture (d : Decoder) (k : Nat) : Option RefPicture := d.pictures.find? fun p => p.dec == k

/-- The decode numbers that a picture's reference lists name. -/
def namedRefs (g : PictureFacts) : List Nat := ((g.slices.map fun s => s.refs.filterMap id).flatten).eraseDups

/-- What decode decides of a picture (R223 to R228): whether it is damaged, or concealed; whether R223 holds of it in any mode; the
first status; CCOUNT; each error found, with its first CTU or macroblock (R229). -/
structure Judgement where
  damaged : Bool
  concealed : Bool
  hurt : Bool
  status : Nat
  ccount : Nat
  found : List (Nat × Nat)
  deriving DecidableEq, Repr

/-- No slice header of the access unit survives (R227). -/
def noHeader (g : PictureFacts) : Bool := g.slices.isEmpty

/-- The CTUs or macroblocks of a picture (R223). -/
def blockCount (v : Sps) : Nat := ceilDiv v.codedW (max 1 v.block) * ceilDiv v.codedH (max 1 v.block)

/-- The bin limit of a slice (R225), and the block in which its decode stops for it. -/
def binLimit (s : SliceFacts) : Nat := 11 * s.bytes + 512 * s.blocks
def binStop (s : SliceFacts) : Option Nat := if binLimit s < s.bins then some s.passAt else none

/-- Where the decode of a slice stops (R227): at its first block without its parameter sets, at a syntax error, at the bin limit. -/
def sliceStop (d : Decoder) (s : SliceFacts) : Option Nat :=
  if (sliceSps d s).isNone then some s.first
  else match s.errorAt, binStop s with
    | some a, some b => some (min a b)
    | some a, none => some a
    | none, b => b

/-- A run of blocks that is concealed: its first block, its length, and the decode number at the head of the slice's list 0 (R227). -/
structure Span where
  first : Nat
  len : Nat
  ref : Option Nat
  deriving DecidableEq, Repr

/-- The blocks that slices leave to concealment (R227): from where a slice stops to its end, and behind it every dependent segment up
to the next independent one. -/
def sliceSpans (d : Decoder) : (failed : Bool) → List SliceFacts → List Span
  | _, [] => []
  | failed, s :: l =>
    let stop := if failed && s.dependent then some s.first else sliceStop d s
    match stop with
    | some b => { first := b, len := s.first + s.blocks - b, ref := (s.refs.headD none) } :: sliceSpans d true l
    | none => sliceSpans d (failed && s.dependent) l

/-- The runs of blocks that no slice covers (R223, R227), from block `pos` of `total`. -/
def gapSpans : (pos total : Nat) → List SliceFacts → List Span
  | pos, total, [] => if pos < total then [{ first := pos, len := total - pos, ref := none }] else []
  | pos, total, s :: l =>
    (if pos < s.first then [{ first := pos, len := s.first - pos, ref := none }] else []) ++ gapSpans (max pos (s.first + s.blocks)) total l

/-- Every block that is concealed (R227). -/
def concealSpans (b : OpenBlock) (d : Decoder) (g : PictureFacts) : List Span :=
  sliceSpans d false g.slices ++ gapSpans 0 (blockCount (pictureSps b d)) g.slices

/-- A reference list entry is missing or damaged (R224): the frames inferred for a gap are missing. -/
def refBad (d : Decoder) (r : Option Nat) : Bool :=
  match r.bind (refPicture d) with
  | some p => p.damaged || p.spoiled || !p.reference
  | none => true

/-- A reference is concealed, or substituted (R227). -/
def refsConcealed (d : Decoder) (g : PictureFacts) : Bool :=
  g.slices.any fun s => s.refs.any fun r => match r.bind (refPicture d) with | some p => p.concealed | none => true

/-- The frame stores that the decode of a picture may read (R225, R227): those of its references, and outside CONTAIN that of the most
recently decoded picture where it stands in for one, or for the samples of concealed blocks. -/
def storesRead (b : OpenBlock) (d : Decoder) (g : PictureFacts) : List Nat :=
  let conceals := d.mode != .contain
  let refs := (namedRefs g).filterMap fun k =>
    (refPicture d k).bind fun p => if p.reference && !(conceals && refBad d (some k)) then some p.store else none
  let stands := conceals && (g.slices.any (fun s => s.refs.any (refBad d)) || !(concealSpans b d g).isEmpty)
  (refs ++ if stands then d.last.toList else []).eraseDups

/-- The profiles, formats and tools of the table of R211, and the sizes of R212. Baseline is refused by its FMO or ASO alone, which its
PPS and the order of its slices show. -/
def supportedSps (v : Sps) : Bool :=
  let h264 := v.profile == .baseline || v.profile == .constrainedBaseline || v.profile == .main || v.profile == .high
  let hevc := v.profile == .hevcMain || v.profile == .hevcMain10
  ((h264 && v.progressive && decide (v.chroma ≤ 1) && v.depth == 8)
    || (hevc && v.chroma == 1 && (v.depth == 8 || (v.depth ≤ 10 && 8 ≤ v.depth && v.profile == .hevcMain10))))
    && decide (16 ≤ v.width ∧ v.width ≤ 4096 ∧ 16 ≤ v.height ∧ v.height ≤ 2304 ∧ v.dpb ≤ 16)

/-- The slices of a picture come in another order than that of their first blocks: ASO (R211). -/
def outOfOrder : List SliceFacts → Bool
  | a :: b :: l => decide (b.first < a.first) || outOfOrder (b :: l)
  | _ => false

/-- The picture uses syntax outside the supported column (R211, R223). -/
def unsupportedSyntax (d : Decoder) (g : PictureFacts) : Bool :=
  (match d.sps with | some v => !supportedSps v | none => false) || (!d.hevc && outOfOrder g.slices)
    || g.slices.any fun s => s.unsupported || (match sliceSps d s with | some v => v.2.flexible && !d.hevc | none => false)

/-- The active SPS exceeds the stream's declaration (R215): its picture in width, height, depth or DPB, or its coded size the frame
store. -/
def exceedsDeclared (b : OpenBlock) (d : Decoder) : Bool :=
  match d.sps with
  | some v => decide (b.maxW < v.width ∨ b.maxH < v.height ∨ b.depth < v.depth ∨ b.dpb < v.dpb ∨ roundUp b.maxW 64 < v.codedW ∨
      storeLines b < v.codedH)
  | none => false

/-- What damages a picture in every mode (R223, R227); the first of several is DESIGN CHOICE, log 26. -/
def fatalMarks (b : OpenBlock) (d : Decoder) (g : PictureFacts) : List (Nat × Nat) :=
  (if exceedsDeclared b d then [(0x0202, 0)] else []) ++ (if unsupportedSyntax d g then [(0x0203, 0)] else [])
    ++ (if g.rasl && d.raslDrop then [(0x020B, 0)] else [])

/-- What damages or conceals a picture by its mode (R223, R226, R358), with the first block of each. -/
def damageMarks (b : OpenBlock) (d : Decoder) (lost : Bool) (g : PictureFacts) (badCell : Bool) : List (Nat × Nat) :=
  (if !d.joined && !g.irap then [(0x0205, 0)] else []) ++ (if lost then [(0x020A, 0)] else []) ++ (if badCell then [(0x0640, 0)] else [])
    ++ g.slices.filterMap (fun s => if (sliceSps d s).isNone then some (0x0206, s.first) else none)
    ++ g.slices.filterMap (fun s => s.errorAt.map fun b => (0x0208, b))
    ++ g.slices.filterMap (fun s => (binStop s).map fun b => (0x0211, b))
    ++ (if noHeader g then [(0x0208, 0)] else (gapSpans 0 (blockCount (pictureSps b d)) g.slices).map fun p => (0x0208, p.first))
    ++ g.slices.filterMap (fun s => if s.refs.any (refBad d) then some (0x0209, s.first) else none)

/-- The judgement on a picture (R222 to R229). -/
def judge (b : OpenBlock) (d : Decoder) (lost : Bool) (g : PictureFacts) (badCell : Bool) : Judgement :=
  let fatal := fatalMarks b d g
  let marks := damageMarks b d lost g badCell
  let hash := if d.mode = .test && d.hevc && g.hashMismatch then [(0x0212, 0)] else []
  let found := fatal ++ marks ++ hash
  let hurt := !(fatal ++ marks).isEmpty
  let first (l : List (Nat × Nat)) : Nat := (l.map (·.1)).headD 0
  if d.mode = .contain || !fatal.isEmpty then
    { damaged := hurt, concealed := false, hurt := hurt, status := first (fatal ++ marks), ccount := 0, found := found }
  else
    let all := marks ++ hash ++ (if d.inherit && refsConcealed d g then [(0x0209, 0)] else [])
    { damaged := false, concealed := !all.isEmpty, hurt := hurt, status := first all,
      ccount := if noHeader g then blockCount (pictureSps b d) else ((concealSpans b d g).map (·.len)).sum, found := found }

/-- The 248 data bytes of a picture cell (R216). -/
def pictureCell (n : Nat) (x : Stream) (f : Frame) (g : PictureFacts) (v : Sps) (damaged : Bool) (store : Nat) : List Byte :=
  let flags := (if damaged then 1 else 0) + (if f.concealed then 2 else 0) + (if f.lost then 4 else 0)
    + (if g.irap then 8 else 0) + (if 8 < v.depth then 16 else 0) + (if v.chroma = 0 then 32 else 0)
  let base := storeAt x store
  padTo 248 (leBytes 1 1 ++ leBytes 1 n ++ leBytes 2 flags ++ leBytes 4 (f.num.getD 0) ++ leBytes 8 f.stamp
    ++ leBytes 4 (unsigned 32 g.poc) ++ leBytes 2 f.firstMark ++ leBytes 2 f.ccount ++ leBytes 2 v.width ++ leBytes 2 v.height
    ++ leBytes 2 v.xoff ++ leBytes 2 v.yoff ++ leBytes 4 (storePitch x.cfg) ++ leBytes 4 store ++ leBytes 8 base
    ++ leBytes 8 (base + storePitch x.cfg * storeLines x.cfg) ++ leBytes 8 f.outReady)

/-- A picture leaves the output process (R216, R218, R219): it takes its number and OUTREADY; unless it is withheld its picture
cell is made and it is ready for analytics. -/
def outputPicture (n ready : Nat) (p : RefPicture) (s : State) : State :=
  let s := numberFrame n p.frameId (updFrame n p.frameId (fun f => { f with outReady := ready }) s)
  match stream? s n, getFrame s n p.frameId with
  | some x, some f =>
    if f.reason ≠ 0 then updFrame n f.id (fun f => { f with stage := .skipped, store := none }) s
    else match f.facts, f.sps with
      | some g, some v =>
        let (st, h, s) := buildChain (landClass s x 5) x.cfg.pool n (pictureCell n x f g v p.damaged p.store) [] s
        if st = 0 then updFrame n f.id (fun f => stamp 1 (nowNs s) { f with head := h, stage := .ready }) s
        else updFrame n f.id (fun f => { decide1 reasonFault st f with store := none }) s
      | _, _ => s
  | _, _ => s

/-- A picture that the standard removes without output (R218). -/
def removePicture (n : Nat) (p : RefPicture) (s : State) : State :=
  numberFrame n p.frameId (updFrame n p.frameId (fun f => { decide1 reasonDamaged 0x0207 f with store := none, stage := .skipped }) s)

/-- The separate log entries of TEST (R229): one for each detected error, with the stream, its POC, its status and first block. -/
def testLog (k n : Nat) (g : PictureFacts) (found : List (Nat × Nat)) (s : State) : State :=
  found.foldl (fun s e =>
    writeEntry { stamp := nowNs s, status := e.1, island := 5 + k, unit := 0, stream := n, arg0 := unsigned 32 g.poc,
                 arg1 := e.2, torn := false, poison := false } 1 s) s

/-- The decode event of a record (R227, R229, R434). -/
def decodeEvent (status : Nat) (g : PictureFacts) (ccount : Nat) : Event :=
  { kind := 0x0014, status := status, data := leBytes 4 (unsigned 32 g.poc) ++ leBytes 2 ccount }

/-- The decode events of a concealed picture's record: its first status, and a hash mismatch besides (R227, R229). -/
def decodeEvents (g : PictureFacts) (j : Judgement) : List Event :=
  if !j.concealed then []
  else decodeEvent j.status g j.ccount ::
    (if j.status != 0x0212 && j.found.any (fun e => e.1 == 0x0212) then [decodeEvent 0x0212 g j.ccount] else [])

/-- The random-access picture begins decoding with NoRaslOutputFlag 1 (R224). -/
def beginsDecoding (d : Decoder) (g : PictureFacts) : Bool := g.irap && ((g.cra && (!d.joined || d.inDamage)) || g.idrOrBla)

/-- The state of a decode context after a picture (R222, R224, R226, R227). -/
def afterPicture (g : PictureFacts) (j : Judgement) (d : Decoder) : Decoder :=
  let clean := g.irap && !j.hurt && !j.concealed
  { d with
    joined := d.joined || g.irap
    raslDrop := if g.irap then beginsDecoding d g else d.raslDrop
    inDamage := if g.irap then j.hurt else d.inDamage || j.hurt
    inherit := if clean then false else d.inherit || j.concealed
    mode := if d.mode = .startup && clean then .contain else d.mode
    nextDec := d.nextDec + 1 }

/-- Output order: POC, then decode order (R218, R227). -/
def outputBefore (a b : RefPicture) : Bool := decide (a.poc < b.poc) || (a.poc == b.poc && decide (a.dec < b.dec))

/-- The picture that is output next. -/
def nextOutput (ps : List RefPicture) : Option RefPicture := (sortBy outputBefore (ps.filter (·.waiting))).head?

/-- Pictures that are neither references nor wait for output leave the DPB (R216). -/
def dropIdle (ps : List RefPicture) : List RefPicture := ps.filter fun p => p.reference || p.waiting

/-- Bump pictures while a condition on the DPB holds, or a whole copy is next (R218, R227): what stays, and what is output. -/
def bumpWhile (full : List RefPicture → Bool) : (fuel : Nat) → List RefPicture → List RefPicture → List RefPicture × List RefPicture
  | 0, ps, out => (ps, out)
  | fuel + 1, ps, out => match nextOutput ps with
    | none => (ps, out)
    | some p =>
      if full ps || p.copy then
        bumpWhile full fuel (dropIdle (ps.map fun q => if q.dec = p.dec then { q with waiting := false } else q)) (out ++ [p])
      else (ps, out)

/-- More pictures wait than may precede one in output, or one has waited for as many as the latency limit allows (C.5.2 of H.265;
PRESUMED, log 180). -/
def outputDue (v : Option Sps) (ps : List RefPicture) : Bool :=
  let reorder := match v with | some v => v.reorder | none => 0
  let latency := v.bind (·.latency)
  decide (reorder < (ps.filter (·.waiting)).length) ||
    (match latency with | some l => ps.any fun p => p.waiting && decide (l ≤ p.latency) | none => false)

/-- The DPB, with the non-existing frames that it holds, has no place for another picture. -/
def dpbFull (v : Option Sps) (inferred : Nat) (ps : List RefPicture) : Bool :=
  match v with | some v => decide (max 1 v.dpb ≤ ps.length + inferred) | none => false

/-- Pictures are bumped before the current one: in H.264 only where it finds no empty frame buffer (C.4.5.3; PRESUMED, log 180). -/
def bumpBefore (d : Decoder) (inferred : Nat) (ps : List RefPicture) : Bool :=
  (d.hevc && outputDue d.sps ps) || dpbFull d.sps inferred ps

/-- The active SPS lets pictures precede one in decode order and follow it in output order (R219). -/
def allowsReorder (v : Option Sps) : Bool := match v with | some v => decide (v.reorder ≠ 0) | none => false

/-- Pictures are bumped behind the current one, in H.265 (C.5.2.3; PRESUMED, log 180), and where the SPS allows no reordering, so that
each is ready as its decode ends (R219). -/
def bumpAfter (d : Decoder) (ps : List RefPicture) : Bool := (d.hevc || !allowsReorder d.sps) && outputDue d.sps ps

/-- An H.264 picture that is no reference goes past a full DPB: before all that wait it is output at once, and one that is not output is
not kept (C.4.5.2; PRESUMED, log 180). -/
def passesDpb (d : Decoder) (inferred : Nat) (p : RefPicture) (ps : List RefPicture) : Bool :=
  !d.hevc && !p.reference && !p.copy && (!p.waiting || (dpbFull d.sps inferred ps && (ps.filter (·.waiting)).all (outputBefore p)))

/-- What a picture's entry into the DPB does (R218, R224, R227): the context after it, the pictures released in order, and those
removed without output. -/
structure OutputStep where
  dec : Decoder
  released : List RefPicture
  removed : List RefPicture

/-- Pictures before the current one (R218, R224): a picture that begins a sequence empties the DPB of references, and the pictures that
wait are output, or removed without output; else the reference marking applies and pictures are bumped. -/
def makeRoom (d : Decoder) (g : PictureFacts) (p : RefPicture) : List RefPicture × List RefPicture × List RefPicture :=
  let ps := d.pictures
  if beginsDecoding d g || g.restarts then
    let waiting := sortBy outputBefore (ps.filter (·.waiting))
    let hidden := ps.filter (·.hidden)
    if (g.cra && beginsDecoding d g) || g.noPriorOutput then ([], [], hidden ++ waiting) else ([], waiting, hidden)
  else
    let marked := ps.map fun p => { p with
      reference := p.reference && g.kept.contains p.dec, longTerm := p.longTerm || g.longTerm.contains p.dec }
    let (left, out) := bumpWhile (fun ps => !passesDpb d g.inferred p ps && bumpBefore d g.inferred ps) marked.length (dropIdle marked) []
    (left, out, ps.filter fun p => p.hidden && !(left.any fun q => q.dec == p.dec))

/-- The output and bumping process with the current picture (R218): it enters where `out` says, and pictures are bumped again. -/
def outputStep (d : Decoder) (g : PictureFacts) (j : Judgement) (out : Bool) (p : RefPicture) : OutputStep :=
  let (ps, released, removed) := makeRoom d g p
  let d' := afterPicture g j d
  if !out then { dec := { d' with pictures := ps }, released := released, removed := removed }
  else if passesDpb d g.inferred p ps then
    { dec := { d' with pictures := ps, last := some p.store, lastPoc := p.poc }
      released := if p.waiting then released ++ [p] else released, removed := if p.hidden then removed ++ [p] else removed }
  else
    let ps := if p.waiting then
        ps.map fun q => if q.waiting && outputBefore p q then { q with latency := q.latency + 1 } else q
      else ps
    let (left, more) := bumpWhile (bumpAfter d) (ps.length + 1) (dropIdle (ps ++ [p])) []
    { dec := { d' with pictures := left, last := some p.store, lastPoc := p.poc }
      released := released ++ more
      removed := removed ++ (if p.hidden && !p.reference then [p] else []) }

/-- An entry of a reference picture list beside its samples (R211, R227): what stands in for a missing or damaged one has the order
count of the most recently decoded picture and no motion (DESIGN CHOICE, log 211). -/
def pictureReference (d : Decoder) (g : PictureFacts) (r : Option Nat) : Config.Reference :=
  match r.bind (refPicture d) with
  | some p =>
    if refBad d r then { poc := d.lastPoc, motion := [], longTerm := false }
    else { poc := p.poc, motion := p.motion, longTerm := p.longTerm || (d.hevc && g.longTerm.contains p.dec) }
  | none => { poc := d.lastPoc, motion := [], longTerm := false }

/-- The parameter sets by which a picture is decoded: the active SPS and the PPS of each slice (R221). -/
def pictureSets (b : OpenBlock) (d : Decoder) (g : PictureFacts) : List (List Byte) :=
  (pictureSps b d).body :: g.slices.map fun s => ((sliceSps d s).map (·.2.body)).getD []

/-- The motion of a picture, for those that name it as their co-located one (R211). -/
def pictureMotion (b : OpenBlock) (d : Decoder) (g : PictureFacts) (au : List Byte) : List Byte :=
  Config.decodedMotion d.hevc (pictureSets b d g) au g.poc (g.slices.map fun s => s.refs.map (pictureReference d g))
    ((concealSpans b d g).map fun p => (p.first, p.len))

/-- The current picture as the DPB keeps it (R218, R227): without a slice header it is a whole copy, placed directly after the picture
before it, and no reference. `au` is its access unit, from which its motion comes. -/
def currentPicture (b : OpenBlock) (d : Decoder) (g : PictureFacts) (j : Judgement) (au : List Byte) (frameId stamp store : Nat) :
    RefPicture where
  dec := d.nextDec
  frameId := frameId
  stamp := stamp
  poc := if noHeader g then d.lastPoc else g.poc
  damaged := j.damaged
  concealed := j.concealed
  store := store
  reference := g.isReference && !noHeader g
  waiting := g.shown || noHeader g
  latency := 0
  hidden := !(g.shown || noHeader g)
  copy := noHeader g
  spoiled := false
  sps := pictureSps b d
  motion := if j.damaged || noHeader g then [] else pictureMotion b d g au

/-- The grey picture (R226): 128, or 512 in 16-bit words at 10 bits, and the middle of 9 bits (DESIGN CHOICE, log 211). -/
def greyStore (depth size : Nat) : List Byte :=
  (List.range size).map fun i => if 8 < depth then (if i % 2 = 1 then BitVec.ofNat 8 (2 ^ (depth - 9)) else 0) else 128

/-- The run of a list of lengths that holds place `x`: its start and its length. -/
def tileRun : List Nat → (start x : Nat) → Nat × Nat
  | [], start, _ => (start, 0)
  | n :: l, start, x => if x < start + n ∨ l.isEmpty then (start, n) else tileRun l (start + n) x

/-- The place in decoding order of the block at column `x`, row `y`: block by block through a tile, tile by tile (R211, R227). -/
def scanPos (cols rows : List Nat) (w h x y : Nat) : Nat :=
  let (cx, cw) := tileRun (if cols.isEmpty then [w] else cols) 0 x
  let (ry, rh) := tileRun (if rows.isEmpty then [h] else rows) 0 y
  ry * w + cx * rh + (y - ry) * cw + (x - cx)

/-- The tile columns and rows of a picture: those of the PPS of its first slice (R211). -/
def pictureTiles (d : Decoder) (g : PictureFacts) : List Nat × List Nat :=
  match (g.slices.head?).bind (sliceSps d) with
  | some (_, p) => (p.cols, p.rows)
  | none => ([], [])

/-- The block of the picture in which byte `i` of a frame store lies, counted in decoding order (R216, R227). -/
def blockOfByte (b : OpenBlock) (v : Sps) (tiles : List Nat × List Nat) (i : Nat) : Option Nat :=
  let p := storePitch b
  let k := if 8 < v.depth then 2 else 1
  let luma := p * storeLines b
  let (x, y) := if i < luma then (i % p / k, i / p) else ((i - luma) % p / (2 * k) * 2, (i - luma) / p * 2)
  let n := max 1 v.block
  if x < v.codedW ∧ y < v.codedH then
    some (scanPos tiles.1 tiles.2 (ceilDiv v.codedW n) (ceilDiv v.codedH n) (x / n) (y / n))
  else none

/-- The samples of a picture with its concealed blocks (R226, R227): a missing or damaged reference gives way to the most recently
decoded picture, or to grey where there is none or decode has not joined; a concealed block takes the co-located samples of the
slice's first reference, else of the most recently decoded picture, else grey. `read` gives the contents of a frame store. -/
def pictureSamples (b : OpenBlock) (d : Decoder) (g : PictureFacts) (au : List Byte) (read : Nat → List Byte) : List Byte :=
  let size := storeSize b
  let v := pictureSps b d
  let grey := greyStore v.depth size
  let last := match d.last with | some i => read i | none => grey
  let stand := if d.joined || g.irap then last else grey
  let refs := g.slices.map fun s => s.refs.map fun r => (pictureReference d g r, match r.bind (refPicture d) with
    | some p => if refBad d r then stand else read p.store
    | none => stand)
  let spans := concealSpans b d g
  let body := padTo size
    (Config.decodedPicture d.hevc (pictureSets b d g) au g.poc refs (spans.map fun p => (p.first, p.len)) size)
  body.zipIdx.map fun y => match blockOfByte b v (pictureTiles d g) y.2 with
    | none => y.1
    | some k => match spans.find? fun p => decide (p.first ≤ k ∧ k < p.first + p.len) with
      | none => y.1
      | some p => match p.ref.bind (refPicture d) with
        | some q => if q.reference then (read q.store).getD y.2 0 else last.getD y.2 0
        | none => last.getD y.2 0

/-- The contents of a decoded picture's frame store (R216, R223): those of a damaged one are unspecified. -/
def storeContents (b : OpenBlock) (d : Decoder) (g : PictureFacts) (j : Judgement) (au : List Byte) (read : Nat → List Byte) (s : State) :
    List Byte × State :=
  if j.damaged then (padTo (storeSize b) (Config.damagedSamples s.freeCount (storeSize b)), { s with freeCount := s.freeCount + 1 })
  else (pictureSamples b d g au read, s)

/-- An address range lies within a window (R225). -/
def inWindow (ws : List (Nat × Nat)) (a n : Nat) : Bool := ws.any fun w => decide (w.1 ≤ a ∧ a + n ≤ w.1 + w.2)

/-- A byte of a frame store that a fixed-function unit reads with its mark: none outside the windows that Quinbuar sets for it (R303). -/
def windowedByte (s : State) (ws : List (Nat × Nat)) (a : Nat) : Byte × Bool :=
  if inWindow ws a 1 then (unitBytes s a 1).headD (0, false) else (0, true)

/-- A Fountain decodes into a frame store (R216, R225): it reads no frame store outside its windows and writes only the current one. What
it decodes from marked bytes carries their mark (R359). -/
def decodeInto (k : Nat) (u : Fountain) (b : OpenBlock) (d : Decoder) (g : PictureFacts) (j : Judgement) (r : ChainRead) (base : Nat → Nat)
    (s : State) : State :=
  let size := storeSize b
  let used := (storesRead b d g).filter fun i => inWindow u.reads (base i) size
  let t := used.foldl (fun s i => unitRead (fountainClass k b (base i)) (base i) size s) s
  let read (i : Nat) : List Byte := if used.contains i then (unitBytes s (base i) size).map (·.1) else []
  let mark := r.poison || used.any fun i => (unitBytes s (base i) size).any (·.2)
  if inWindow u.writes (base u.store) size then
    let (bs, t) := storeContents b d g j r.bytes read t
    writePhys (fountainClass k b (base u.store)) (cellsAt (base u.store) bs mark) t
  else t

/-- The frame of a decoded picture (R223, R228). -/
def judgedFrame (x : Stream) (g : PictureFacts) (j : Judgement) (store : Option Nat) (f : Frame) : Frame :=
  let f := { f with facts := some g, sps := some (pictureSps x.cfg x.dec), firstMark := j.status, concealed := j.concealed, ccount := j.ccount,
                    store := store, stage := .reordering, events := f.events ++ decodeEvents g j }
  if f.reason ≠ 0 then f
  else if j.damaged then { f with reason := reasonDamaged, status := j.status }
  else if j.concealed && !x.analyseConcealed then { f with reason := reasonConcealed, status := j.status }
  else f

/-- A picture enters the output process unless it was lost before any slice header or came before the first random-access point
and is withheld (R218, R226, R227). -/
def entersOutput (d : Decoder) (g : PictureFacts) : Bool :=
  d.mode != .contain || !(noHeader g || (!d.joined && !g.irap))

/-- Log the cell of a chain that fails its check (R358). -/
def logBadCell (k n : Nat) (r : ChainRead) (s : State) : State :=
  match r.bad with
  | some c => logErr 0x0640 (5 + k) 0 s { stream := n, arg0 := c }
  | none => s

/-- Quinbuar reads an access unit's chain for its parse: a cell that fails its check is logged (R358), which marks the whole chain; the
facts are what the parse gives all the same, and the decode then meets the cell (R227). -/
def parseChain (n head : Nat) (s : State) : State :=
  match (readChain chainFuel head s).bad with
  | some c => logErr 0x0640 1 0 (noteChain .control head s) { stream := n, arg0 := c, poison := true }
  | none => noteChain .control head s

/-- A Fountain starts on a picture that takes frame store `w`: Quinbuar sets its address windows (R225), for frame stores of a size from
a base, and for the chain of its access unit. -/
def startFountain (k : Nat) (t : DecodeTarget) (g : PictureFacts) (b : OpenBlock) (d : Decoder) (base : Nat → Nat) (w head : Nat)
    (s : State) : State :=
  let size := storeSize b
  let cells := (chainCells chainFuel head s).map fun i => (cellAddr s i, 256)
  updFountain k (fun u => { u with
    busy := some (t, g, steadyNs s), store := w
    reads := cells ++ (storesRead b d g).map fun i => (base i, size)
    writes := [(base w, size)] }) s

/-- What Quinbuar's parse alone finds of an access unit that is not decoded (R220, R221): no error of its slice data. -/
def headersOnly (g : PictureFacts) : PictureFacts :=
  { g with slices := g.slices.map fun s => { s with errorAt := none, bins := 0 }, hashMismatch := false }

/-- A shed picture that is no reference (R218, R220): it is not decoded and holds no frame store, and it takes its number where the
output process releases it. -/
def shedPicture (n : Nat) (x : Stream) (f : Frame) (g : PictureFacts) (s : State) : State :=
  let g := headersOnly g
  let d := x.dec
  let j := judge x.cfg d f.lost g false
  let out := entersOutput d g
  let p := { currentPicture x.cfg d g j [] f.id f.stamp 0 with bare := true }
  let o := outputStep d g j out p
  let s := updFrame n f.id (fun f => { f with facts := some g, stage := .reordering, store := none }) (freeFrame n f.id s)
  let s := updDecoder n (fun _ => { o.dec with last := d.last }) s
  let s := o.removed.foldl (fun s p => removePicture n p s) s
  let s := if out then s else endPicture n f.id s
  o.released.foldl (fun s p => outputPicture n f.tzero p s) s

/-- A stream's decode context as Quinbuar's parse of the access unit leaves it (R221, R222). -/
def parseStream (n : Nat) (g : PictureFacts) (f : Frame) (s : State) : State := updDecoder n (parsePicture g) (applyMode n f s)

/-- PICTURE_DECODE_START for a frame of a stream (R214, R220, R222, R225): a shed picture that is no reference is not decoded. -/
def startPicture (k n id : Nat) (g : PictureFacts) (s : State) : State :=
  match (stream? s n).bind fun x => (frameOf x id).map fun f => (x, f) with
  | none => s
  | some (x, f) =>
    let t := parseStream n g f (parseChain n f.head s)
    match stream? t n with
    | none => s
    | some y =>
      if f.reason ≠ 0 && !g.isReference then shedPicture n y f g t
      else match freeStore x with
        | none => s
        | some w =>
          startFountain k (.stream n id) g y.cfg y.dec (storeAt y) w f.head
            (updFrame n id (fun f => { f with stage := .decoding, facts := some g }) t)

/-- PICTURE_DECODE_START for a clip's next source (R214, R234): its frame stores are its own. -/
def startClipPicture (k i : Nat) (g : PictureFacts) (s : State) : State :=
  match s.clips.getD i none with
  | none => s
  | some c => match c.sources.head?, freeClipStore c with
    | some x, some w =>
      let d := parsePicture g c.dec
      startFountain k (.clip i) g c.cfg d (clipStoreAt c) w x.head
        (updClip i (fun c => { c with dec := d }) (parseChain c.stream x.head s))
    | _, _ => s

/-- PICTURE_DECODE_START (R214): an idle Fountain takes the next picture. -/
def execPictureDecodeStart (fountain : Nat) (facts : PictureFacts) (s : State) : Res :=
  match s.fountains[fountain]? with
  | none => done s
  | some u =>
    if u.busy.isSome || u.paused || islandFenced s (5 + fountain) || asleep s (5 + fountain) || !s.power.running then done s
    else match fountainChoice s fountain with
    | none => done s
    | some (.stream n id) => done (startPicture fountain n id facts s)
    | some (.clip i) => done (startClipPicture fountain i facts s)

/-- PICTURE_DECODE_COMPLETE for a frame of a stream (R216 to R229). -/
def completePicture (k n id : Nat) (g : PictureFacts) (u : Fountain) (x : Stream) (f : Frame) (s : State) : State :=
  let r := readChain chainFuel f.head s
  let r := if outsideBad (5 + k) s then { r with marks := r.marks.map fun _ => true } else r
  let s := meetOutside (5 + k) (logBadCell k n r (readingFor (.frame n id) (noteChain (landClass s x (5 + k)) f.head) s))
  let j := judge x.cfg x.dec f.lost g r.bad.isSome
  let s := if x.dec.mode = .test then testLog k n g j.found s else s
  let out := entersOutput x.dec g
  let s := if out then readingFor (.frame n id) (decodeInto k u x.cfg x.dec g j r (storeAt x)) s else s
  let o := outputStep x.dec g j out (currentPicture x.cfg x.dec g j r.bytes id f.stamp u.store)
  let s := updFrame n id (judgedFrame x g j (if out then some u.store else none)) (freeFrame n id s)
  let s := updDecoder n (fun _ => o.dec) s
  let s := o.removed.foldl (fun s p => removePicture n p s) s
  let s := if out then s else endPicture n id s
  o.released.foldl (fun s p => outputPicture n f.tzero p s) s

/-- Pictures that a clip's decode puts out wait for the encoder; those that it removes without output are damaged for it (R235). -/
def clipOutput (i : Nat) (damaged : Bool) (ps : List RefPicture) (s : State) : State :=
  updClip i (fun c => { c with ready := c.ready ++ ps.map fun p =>
    { stamp := p.stamp, damaged := p.damaged || damaged, concealed := p.concealed, sps := p.sps, store := p.store } }) s

/-- PICTURE_DECODE_COMPLETE for a clip's source (R234, R235): in the decode mode of its acceptance, into its own frame stores and as BE (R273). A cell
that fails its check damages the picture in every mode (R358). -/
def completeClip (k i : Nat) (g : PictureFacts) (u : Fountain) (c : Clip) (x : ClipSource) (s : State) : State :=
  let r := readChain chainFuel x.head s
  let r := if outsideBad (5 + k) s then { r with marks := r.marks.map fun _ => true } else r
  let s := meetOutside (5 + k) (logBadCell k c.stream r (noteChain .be x.head s))
  let j := judge c.cfg c.dec x.lost g r.bad.isSome
  let j := if r.bad.isSome then { j with damaged := true, concealed := false } else j
  let out := entersOutput c.dec g
  let p := currentPicture c.cfg c.dec g j r.bytes c.dec.nextDec x.stamp u.store
  let s := if out then decodeInto k u { c.cfg with cls := 1 } c.dec g j r (clipStoreAt c) s else s
  let o := outputStep c.dec g j out p
  let s := updClip i (fun c => { c with dec := o.dec, sources := c.sources.drop 1 }) s
  let s := clipOutput i false o.released (clipOutput i true o.removed s)
  let s := if out then s else clipOutput i true [p] s
  freeChain x.head s

/-- PICTURE_DECODE_COMPLETE (R216, R234). -/
def execPictureDecodeComplete (fountain : Nat) (s : State) : Res :=
  match s.fountains[fountain]? with
  | none => done s
  | some u =>
    let t := updFountain fountain (fun u => { u with busy := none, reads := [], writes := [] }) s
    match u.busy with
    | none => done s
    | some (.stream n id, g, _) => match stream? s n, getFrame s n id with
      | some x, some f => done (completePicture fountain n id g u x f t)
      | _, _ => done t
    | some (.clip i, g, _) => match s.clips.getD i none with
      | some c => match c.sources.head? with
        | some x => done (completeClip fountain i g u c x t)
        | none => done t
      | none => done t

/-- A picture in decode is given up with a status: its frame is FAULT (R225, R230), or its clip ends with the status and the stream's
own decode goes on (R290). -/
def abortPicture (k status : Nat) (s : State) : State :=
  let t := updFountain k (fun u => { u with busy := none, reads := [], writes := [] }) s
  match (s.fountains[k]?).bind (·.busy) with
  | none => s
  | some (.stream n id, _, _) =>
    let t := updDecoder n (fun d => { d with nextDec := d.nextDec + 1, inDamage := true }) t
    endPicture n id (updFrame n id (fun f => if f.reason = 0 then { f with reason := reasonFault, status := status } else f) t)
  | some (.clip i, _, _) => endClip i status t

/-- The stream whose picture or clip a Fountain decodes, as its log entries name it. -/
def targetStream (s : State) : DecodeTarget → Nat
  | .stream n _ => n
  | .clip i => match s.clips.getD i none with | some c => c.stream | none => 0xFF

/-- FOUNTAIN_WATCHDOG (R225): a picture still in decode 50 ms after its start. -/
def execFountainWatchdog (fountain : Nat) (s : State) : Res :=
  match s.fountains[fountain]? with
  | none => done s
  | some u => match u.busy with
    | some (x, _, t) =>
      doneIf (decide (t + 50000000 ≤ steadyNs s))
        (logErr 0x0213 (5 + fountain) 0 (abortPicture fountain 0x0213 s) { stream := targetStream s x }) s
    | none => done s

/-- A decode context after its Fountain's reset (R226, R230): every reference is damaged for the pictures that name it, its own picture
is not (DEDUCED, log 180), and decode joins again. -/
def resetDecoder (d : Decoder) : Decoder :=
  { d with joined := false, pictures := d.pictures.map fun p => if p.reference then { p with spoiled := true } else p }

/-- A Fountain island is reset (R226, R230). -/
def resetFountain (k : Nat) (s : State) : State :=
  let s := abortPicture k 0x0214 s
  { s with
    streams := s.streams.map fun o => o.map fun x => if x.fountain = some k then { x with dec := resetDecoder x.dec } else x
    clips := s.clips.map fun o => o.map fun c => if c.fountain = some k then { c with dec := resetDecoder c.dec } else c }

end Sys2Proof.Machine
end

