-- ==== Sys2Proof/Machine/Ingest.lean ====
section
/-! DEFINITION. Ethernet ingest (R186 to R197): the slow path, RTP depacketisation, RTSP sessions, multicast and RTCP. -/

namespace Sys2Proof.Machine

/-- The packets that the slow path takes in one second on one port (R187). -/
def slowLimit : Nat := 100000

/-- A packet for the slow path: taken within the port's rate, else dropped and counted (R187). The second is a fixed window that the
first packet behind the one before begins (DESIGN CHOICE, log 229). -/
def slowTake (now : Nat) (e : EthPort) : EthPort × Bool :=
  let e := if e.slowFrom + 1000000000 ≤ now then { e with slowFrom := now, slowCount := 0 } else e
  if e.slowCount < slowLimit then ({ e with slowCount := e.slowCount + 1, slowTaken := e.slowTaken + 1 }, true)
  else ({ e with slowDropped := e.slowDropped + 1 }, false)

/-- How long an older querier counts, in ns: twice the default query interval and the query response time (PRESUMED, log 179). -/
def oldQuerierNs : Nat := 260000000000

/-- The version of the reports that a port sends for a group: IGMPv3, or what an older querier speaks; MLDv2 for IPv6 (R186). -/
def reportVersion (now : Nat) (e : EthPort) (group : List Byte) : Nat :=
  if group.length = 16 then 2
  else match e.oldQuerier with
    | some (v, t) => if now < t then v else 3
    | none => 3

/-- The filter of a group over the streams that use it: the sources of INCLUDE mode, or none for EXCLUDE mode with an empty list,
which a stream without a source filter asks for (R196). -/
def groupFilter (users : List (Nat × List (List Byte))) : Option (List (List Byte)) :=
  if users.any fun u => u.2.isEmpty then none else some ((users.map (·.2)).flatten.eraseDups)

/-- A report for a group with its users (R196); an older version carries no filter. -/
def groupReport (now port : Nat) (e : EthPort) (join : Bool) (g : List Byte × List (Nat × List (List Byte))) : GroupReport :=
  let v := reportVersion now e g.1
  { port := port, group := g.1, version := v, join := join,
    sources := if join && (v == 3 || g.1.length == 16) then groupFilter g.2 else none }

/-- An older querier of IGMP on a port is noted (R186). -/
def noteQuerier (now : Nat) (ipv6 : Bool) (version : Nat) (e : EthPort) : EthPort :=
  if ipv6 || decide (3 ≤ version) then e else { e with oldQuerier := some (version, now + oldQuerierNs) }

/-- A query is answered with a report for every group of its family (R186, R196). -/
def answerQuery (port : Nat) (ipv6 : Bool) (version : Nat) (s : State) : State :=
  match s.eth[port]? with
  | none => s
  | some e =>
    let e := noteQuerier (steadyNs s) ipv6 version e
    ((e.groups.filter fun g => (g.1.length == 16) == ipv6).map (groupReport (steadyNs s) port e true)).foldl
      (fun s r => emit (.membershipReport r) s) (updEth port (fun _ => e) s)

/-- The DHCPv4 client of a port that takes its address so (R186). -/
def dhcpAnswer (port : Nat) (m : DhcpMessage) (s : State) : State :=
  match (s.eth[port]?).bind (·.net) with
  | none => s
  | some n =>
    if !n.dhcp then s
    else match m with
      | .offer a => emit (.dhcpRequest port a) s
      | .ack a => updEth port (fun e => { e with lease := some a }) s
      | .nak => emit (.dhcpDiscover port) (updEth port (fun e => { e with lease := none }) s)

/-- A port that uses SLAAC forms an address from an advertised prefix, up to 4 addresses of IPv6 in all (R186). -/
def autoAddress (port : Nat) (netPrefix : List Byte) (s : State) : State :=
  let a := netPrefix ++ netBytes 8 (Config.interfaceId port).toNat
  updEth port (fun e => match e.net with
    | some n => if n.slaac && netPrefix.length == 8 && !(portIpv6 e n).contains a && decide ((portIpv6 e n).length < 4) then
        { e with autoAddrs := e.autoAddrs ++ [a] } else e
    | none => e) s

/-- The outcome of ARP or Neighbor Discovery for an address (R186, R208). -/
def noteNeighbour (port : Nat) (a : List Byte) (ok : Bool) (s : State) : State :=
  updEth port (fun e => { e with
    unresolved := if ok then e.unresolved.filter (· != a) else if e.unresolved.contains a then e.unresolved else e.unresolved ++ [a]
    asked := if ok then e.asked else e.asked.filter (· != a) }) s

/-- A datagram with one more fragment (R186). -/
def addFragment (id off : Nat) (more : Bool) (n : Nat) (l : List FragmentBuf) : List FragmentBuf :=
  let total := if more then none else some (off + n)
  if l.any fun b => b.id == id then
    l.map fun b => if b.id = id then { b with got := b.got ++ [(off, n)], total := b.total.or total } else b
  else l ++ [{ id := id, got := [(off, n)], total := total }]

/-- Every byte of the datagram is there. -/
def reassembled (l : List FragmentBuf) (id : Nat) : Bool :=
  l.any fun b => b.id == id && (match b.total with
    | some n => (List.range n).all fun i => b.got.any fun g => decide (g.1 ≤ i ∧ i < g.1 + g.2)
    | none => false)

/-- What the Lodge makes of a reassembled datagram (R186). -/
def takeWhole (port : Nat) (w : Reassembled) (s : State) : State :=
  match w with
  | .dhcp m => dhcpAnswer port m s
  | _ => s

/-- A fragment arrives (R186): with the last one of its datagram the whole is taken. -/
def takeFragment (port id off : Nat) (more : Bool) (n : Nat) (w : Reassembled) (s : State) : State :=
  match s.eth[port]? with
  | none => s
  | some e =>
    let l := addFragment id off more n e.parts
    if reassembled l id then takeWhole port w (updEth port (fun e => { e with parts := l.filter fun b => b.id != id }) s)
    else updEth port (fun e => { e with parts := l }) s

/-- What the Lodge does and sends on a slow-path packet (R186, R196); a UDP packet whose checksum fails has no effect. -/
def slowAnswer (port : Nat) (kind : SlowKind) (s : State) : State :=
  match kind with
  | .fragment id off more n w => takeFragment port id off more n w s
  | .neighbour a ok => noteNeighbour port a ok s
  | .arp => emit (.slowAnswer port kind) s
  | .neighborDiscovery none => emit (.slowAnswer port kind) s
  | .neighborDiscovery (some p) => autoAddress port p s
  | .icmpEcho => emit (.slowAnswer port kind) s
  | .dhcp m => dhcpAnswer port m s
  | .membershipQuery ipv6 version => answerQuery port ipv6 version s
  | _ => s

/-- A slow-path packet once the port has counted it: the Lodge answers one that was taken (R187). -/
def slowDeliver (port : Nat) (kind : SlowKind) (r : EthPort × Bool) (s : State) : State :=
  let s := updEth port (fun _ => r.1) s
  if r.2 then slowAnswer port kind s else s

/-- A packet reaches the slow path (R187). -/
def slowPath (port : Nat) (kind : SlowKind) (s : State) : State :=
  match s.eth[port]? with
  | none => s
  | some e => slowDeliver port kind (slowTake (steadyNs s) e) s

/-- SLOW_PATH_PACKET (R186, R187): PAUSE and unsupported frames are dropped and counted. -/
def execSlowPathPacket (port : Nat) (kind : SlowKind) (s : State) : Res :=
  match s.eth[port]? with
  | none => done s
  | some _ =>
    if !s.power.running || unitFenced s 3 port || asleep s 3 then done s
    else match kind with
    | .pauseFrame => done (updEth port (fun e => { e with pauseDropped := e.pauseDropped + 1 }) s)
    | .unsupported => done (updEth port (fun e => { e with unsupported := e.unsupported + 1 }) s)
    | k => done (slowPath port k s)

/-- A value matches an entry's field, where "any" is none (R188). -/
def fieldMatches {α : Type} [DecidableEq α] (entry : Option α) (v : α) : Bool :=
  match entry with
  | some e => e == v
  | none => true

/-- A packet matches a flow entry (R188). -/
def flowMatches (f : Flow) (p : RtpPacket) : Bool :=
  f.port == p.port && f.vlan == p.vlan && f.dst == p.dst && f.dport == p.dport && fieldMatches f.src p.src
    && fieldMatches f.ssrc p.ssrc

/-- Some packet matches both entries (R188). -/
def flowsOverlap (a b : Flow) : Bool :=
  let meet {α : Type} [DecidableEq α] (x y : Option α) : Bool := match x, y with | some u, some v => u == v | _, _ => true
  a.port == b.port && a.vlan == b.vlan && a.dst == b.dst && a.dport == b.dport && meet a.src b.src && meet a.ssrc b.ssrc

/-- An entry that another stream holds overlaps (R188). -/
def flowTaken (s : State) (n : Nat) (f : Flow) : Bool :=
  s.streams.zipIdx.any fun x => x.2 != n && (match x.1 with
    | some y => (match y.rtp.flow with | some g => flowsOverlap f g | none => false)
    | none => false)

/-- The NAL unit type of a payload (R189). -/
def nalType (hevc : Bool) (p : List Byte) : Nat :=
  let b := (p.headD 0).toNat
  if hevc then b / 2 % 64 else b % 32

/-- A payload that R186 excludes: interleaved-mode packets for H.264, PACI for HEVC. -/
def nalExcluded (hevc : Bool) (p : List Byte) : Bool :=
  let t := nalType hevc p
  p.isEmpty || (if hevc then decide (50 ≤ t) else t == 0 || (decide (25 ≤ t) && t != 28))

/-- The number of two bytes, most significant first: the sizes inside aggregation packets. -/
def beNat (bs : List Byte) : Nat := bs.foldl (fun v b => v * 256 + b.toNat) 0

/-- The payload of a packet (R189): what stands behind the CSRC entries and the header extension, without the padding, whose length
its last byte gives (RFC 3550); nothing where the packet is too short for what its header says. -/
def rtpPayload (p : RtpPacket) : List Byte :=
  let b := p.data.drop (4 * p.csrcs)
  let b := if p.extension then b.drop (4 + 4 * beNat (slice b 2 2)) else b
  if p.padding then b.take (b.length - (b.getLastD 0).toNat) else b

/-- The NAL units of an aggregation packet behind its header (R189). -/
def aggregated : (fuel : Nat) → List Byte → List (List Byte)
  | 0, _ => []
  | fuel + 1, bs =>
    let n := beNat (bs.take 2)
    if bs.length < 2 || n = 0 then [] else (bs.drop 2).take n :: aggregated fuel (bs.drop (2 + n))

/-- The NAL units of an access unit's payloads in order; `cur` is the fragmented unit in progress. Of a unit that lost a
fragment, what arrived before the gap stands (DESIGN CHOICE, log 22). -/
def unpack (hevc : Bool) : (cur : Option (List Byte)) → List (List Byte) → List (List Byte)
  | cur, [] => cur.toList
  | cur, p :: l =>
    let t := nalType hevc p
    if hevc && t == 48 then cur.toList ++ aggregated p.length (p.drop 2) ++ unpack hevc none l
    else if !hevc && t == 24 then cur.toList ++ aggregated p.length (p.drop 1) ++ unpack hevc none l
    else if (hevc && t == 49) || (!hevc && t == 28) then
      let k := if hevc then 3 else 2
      let fu := (p.getD (k - 1) 0).toNat
      let head : List Byte :=
        if hevc then [BitVec.ofNat 8 ((p.getD 0 0).toNat / 128 * 128 + (p.getD 0 0).toNat % 2 + fu % 64 * 2), p.getD 1 0]
        else [BitVec.ofNat 8 ((p.getD 0 0).toNat / 32 * 32 + fu % 32)]
      let body := p.drop k
      if bitAt fu 7 then
        if bitAt fu 6 then cur.toList ++ (head ++ body) :: unpack hevc none l
        else cur.toList ++ unpack hevc (some (head ++ body)) l
      else match cur with
        | some c => if bitAt fu 6 then (c ++ body) :: unpack hevc none l else unpack hevc (some (c ++ body)) l
        | none => unpack hevc none l
    else cur.toList ++ p :: unpack hevc none l

/-- The chain bytes of NAL units: a 4-byte length before each (R189). -/
def nalBytes (ns : List (List Byte)) : List Byte := (ns.map fun x => leBytes 4 x.length ++ x).flatten

/-- A random-access picture by its NAL units: IDR in H.264, types 16 to 23 in HEVC. -/
def unitIrap (hevc : Bool) (ns : List (List Byte)) : Bool :=
  ns.any fun x => let t := nalType hevc x; if hevc then decide (16 ≤ t ∧ t ≤ 23) else t == 5

/-- The extended number of a sequence number near the expected one (R191). -/
def extendSeq (expected : Option Nat) (seq : Nat) : Nat :=
  match expected with
  | none => 65536 + seq
  | some e => ((e : Int) + signed 16 (seq + 65536 - e % 65536)).toNat

/-- The access unit in progress: its first number, timestamp, last number where it is known, and whether its marker ended it
(R190). -/
structure UnitSpan where
  first : Nat
  ts : Nat
  last : Option Nat
  marked : Bool
  deriving DecidableEq, Repr

/-- The span of the oldest access unit that a depacketiser holds (R190): it starts behind the unit released before it, so that the unit
behind a wholly missing one is lost with it (DESIGN CHOICE, log 231). -/
def unitSpan (r : Rtp) : Option UnitSpan :=
  match r.pieces with
  | [] => none
  | (k, p) :: _ =>
    let first := match r.released with | some e => e + 1 | none => k
    match r.pieces.find? fun x => x.2.ts == p.ts && x.2.marker with
    | some m => some { first := first, ts := p.ts, last := some m.1, marked := true }
    | none => match r.pieces.find? fun x => x.2.ts != p.ts with
      | some o => some { first := first, ts := p.ts, last := some (o.1 - 1), marked := false }
      | none => some { first := first, ts := p.ts, last := none, marked := false }

/-- The packets of a span. -/
def spanPieces (r : Rtp) (u : UnitSpan) : List (Nat × Piece) :=
  r.pieces.filter fun x => match u.last with | some l => decide (x.1 ≤ l) | none => x.2.ts == u.ts

/-- Every sequence number of a span is present (R190). -/
def spanComplete (r : Rtp) (u : UnitSpan) : Bool :=
  match u.last with
  | some l => (spanPieces r u).length == l + 1 - u.first
  | none => false

/-- The codec of a stream's access units. -/
def streamHevc (x : Stream) : Bool := match x.rtp.flow with | some f => f.hevc | none => false

/-- Bytes that the stream's ingest queue holds, in cells (R185, R192). -/
def queueCells (x : Stream) : Nat :=
  ((queuedFrames x).map fun f => cellsOf f.size).sum + ceilDiv ((x.rtp.pieces.map fun p => p.2.payload.length + 4).sum) 248

/-- Release an access unit (R190): its cells, its marks and its stamp with the steps since; a chain that cannot be built leaves it lost (R192). A missing
marker counts where another RTP timestamp has ended the unit. -/
def releaseUnit (n : Nat) (u : UnitSpan) (at_ : Nat × Int) (lost : Bool) (s : State) : State :=
  match stream? s n with
  | none => s
  | some x =>
    let ps := spanPieces x.rtp u
    let nals := unpack (streamHevc x) none (ps.map fun p => p.2.payload)
    let bytes := nalBytes nals
    let last := (ps.getLast?.map (·.1)).getD u.first
    let port := match x.rtp.flow with | some f => f.port | none => 0
    let marks := if outsideBad 3 s then bytes.map fun _ => true else []
    let (st, h, s) := buildChain (landClass s x (1 + port)) x.cfg.pool n bytes marks (meetOutside 3 s)
    let s := if st = 0 then s else logErr 0x0110 3 0 s { stream := n, arg0 := st }
    let s := updStream n (fun x => { x with rtp := { x.rtp with
      pieces := x.rtp.pieces.filter fun p => decide (last < p.1)
      released := some (u.last.getD last)
      cut := none
      missingMarker := x.rtp.missingMarker + (if u.marked || u.last.isNone then 0 else 1) } }) s
    endIngest n { freshFrame 0 at_.1 at_.1 h bytes.length (lost || st != 0) false with rtpTs := some u.ts, shift := at_.2 }
      (unitIrap (streamHevc x) nals) true s

/-- An arrival with the steps since: the stamp, and their sum (R495 ruling 20). -/
def pieceArrival (p : Piece) : Nat × Int := (p.stamp, p.shift)

/-- The arrival of the packet that made a span complete (R190): the latest of its packets. -/
def completionStamp (r : Rtp) (u : UnitSpan) : Nat × Int :=
  ((spanPieces r u).map fun p => pieceArrival p.2).foldl (fun a b => if (a.1 : Int) + a.2 < b.1 + b.2 then b else a) (0, 0)

/-- Release every complete access unit at the head, each with the arrival of its own completing packet (R184, R190). -/
def releaseComplete (n : Nat) : (fuel : Nat) → State → State
  | 0, s => s
  | fuel + 1, s => match (stream? s n).bind fun x => (unitSpan x.rtp).map fun u => (x, u) with
    | some (x, u) =>
      if spanComplete x.rtp u then releaseComplete n fuel (releaseUnit n u (completionStamp x.rtp u) false s) else s
    | none => s

/-- The arrival of the last packet of a span (R190). -/
def spanArrival (r : Rtp) (u : UnitSpan) : Nat × Int := ((spanPieces r u).getLast?.map fun p => pieceArrival p.2).getD (0, 0)

/-- Release the oldest access unit as lost. -/
def releaseLost (n : Nat) (s : State) : State :=
  match (stream? s n).bind fun x => (unitSpan x.rtp).map fun u => (x, u) with
  | some (x, u) => releaseUnit n u (spanArrival x.rtp u) true s
  | none => s

/-- Release everything held as lost: a resynchronisation (R191). -/
def releaseAllLost (n : Nat) : (fuel : Nat) → State → State
  | 0, s => s
  | fuel + 1, s => match stream? s n with
    | some x => if x.rtp.pieces.isEmpty then s else releaseAllLost n fuel (releaseLost n s)
    | none => s

/-- Update a stream's depacketiser. -/
def updRtp (n : Nat) (f : Rtp → Rtp) (s : State) : State := updStream n (fun x => { x with rtp := f x.rtp }) s

/-- Release as lost the access units before the one with timestamp `ts`, whose packets R191 discards once that one is released
(DEDUCED, log 176). -/
def releaseBefore (n k ts : Nat) : (fuel : Nat) → State → State
  | 0, s => s
  | fuel + 1, s => match (stream? s n).bind fun x => (unitSpan x.rtp).map fun u => (x, u) with
    | some (x, u) =>
      if u.ts != ts && decide ((x.rtp.pieces.headD (k, ⟨0, false, [], 0, 0⟩)).1 < k) then releaseBefore n k ts fuel (releaseLost n s) else s
    | none => s

/-- The access unit of a packet that exceeds the reservation is released lost, with what it holds (R192). -/
def cutUnit (n k : Nat) (p : RtpPacket) (s : State) : State :=
  match stream? s n with
  | none => s
  | some x =>
    let own := x.rtp.pieces.filter fun y => y.2.ts == p.ts
    let last := match own.getLast? with | some y => max k y.1 | none => k
    let stamp := match own.getLast? with | some y => if k < y.1 then pieceArrival y.2 else (p.stamp, 0) | none => (p.stamp, 0)
    updRtp n (fun r => { r with cut := some p.ts, expected := some (max (last + 1) (r.expected.getD 0)) })
      (releaseUnit n { first := k, ts := p.ts, last := some last, marked := true } stamp true s)

/-- A packet exceeds the stream's reservation (R192): it is discarded, logged, and its access unit is lost. -/
def overflowPacket (n k : Nat) (p : RtpPacket) (s : State) : State :=
  match stream? s n with
  | none => s
  | some x => cutUnit n k p (releaseBefore n k p.ts x.rtp.pieces.length (logErr 0x0110 3 p.port s { stream := n }))

/-- A packet of a stream that R189 accepts, at its extended number (R190 to R192). -/
def placePacket (n : Nat) (p : RtpPacket) (s : State) : State :=
  match stream? s n with
  | none => s
  | some x =>
    let k := extendSeq x.rtp.expected p.seq
    let old := (match x.rtp.released with | some r => decide (k ≤ r) | none => false) || (tabGet k x.rtp.pieces).isSome
    if old then updRtp n (fun r => { r with late := r.late + 1 }) s
    else if x.rtp.cut = some p.ts then
      updRtp n (fun r => { r with late := r.late + 1, released := some (max k (r.released.getD 0)),
                                  expected := some (max (k + 1) (r.expected.getD 0)) }) s
    else if ingestCells x.cfg none < queueCells x + cellsOf ((rtpPayload p).length + 4) then overflowPacket n k p s
    else
      let piece : Piece := { ts := p.ts, marker := p.marker, payload := rtpPayload p, stamp := p.stamp }
      let s := updRtp n (fun r => { r with
        pieces := tabPut k piece r.pieces
        expected := some (max (k + 1) (r.expected.getD 0)) }) s
      releaseComplete n (x.rtp.pieces.length + 2) s

/-- A packet starts a resynchronisation (R191). -/
def resyncs (x : Stream) (p : RtpPacket) : Bool :=
  let far := match x.rtp.expected with
    | some e => decide (e + 1000 ≤ extendSeq (some e) p.seq)
    | none => false
  let other := match x.rtp.flow, x.rtp.ssrc with
    | some f, some r => f.ssrc.isNone && r != p.ssrc
    | _, _ => false
  far || other

/-- The first packet after a lost source reports its recovery, and decode rejoins at a random-access picture (R194, R226). -/
def noteArrival (n : Nat) (s : State) : State :=
  match stream? s n with
  | none => s
  | some x =>
    let s := updRtp n (fun r => { r with lastArrival := steadyNs s }) s
    if x.cfg.source = 1 && x.rtsp.phase == .lost then
      let s := updStream n (fun x => { x with rtsp := { x.rtsp with phase := .playing, attempts := 0 }, dec := { x.dec with joined := false } }) s
      streamState n 0 1 x.rtsp.attempts 0 s
    else s

/-- The depacketiser takes a packet of a stream (R189 to R192). -/
def takePacket (n : Nat) (p : RtpPacket) (s : State) : State :=
  match stream? s n with
  | none => s
  | some x =>
    match x.rtp.flow with
    | none => s
    | some f =>
      if p.version != 2 || p.payloadType != f.payloadType || p.fragmented || p.options || nalExcluded f.hevc (rtpPayload p)
          || !p.checksOk then
        updRtp n (fun r => { r with discarded := r.discarded + 1 }) s
      else
        let s := noteArrival n s
        let s := if resyncs x p then
            updRtp n (fun r => { r with expected := none, released := none, cut := none, pieces := [] })
              (releaseAllLost n (x.rtp.pieces.length + 1) s)
          else s
        placePacket n p (updRtp n (fun r => { r with ssrc := some p.ssrc }) s)

/-- The stream whose flow entry a packet matches (R188). -/
def packetStream (s : State) (p : RtpPacket) : Option Nat :=
  posOf (fun o : Option Stream => match o with
    | some x => (match x.rtp.flow with | some f => flowMatches f p | none => false)
    | none => false) s.streams

/-- RTP_PACKET (R188 to R192): a packet that matches no entry takes the slow path. -/
def execRtpPacket (p : RtpPacket) (s : State) : Res :=
  inRange (decide (p.port < 2)) s <|
    if !s.power.running || unitFenced s 3 p.port || asleep s 3 then done s
    else match packetStream s p with
    | some n => done (takePacket n p s)
    | none => done (slowPath p.port .unmatchedUdp s)

/-- INTERLEAVED_RTP_SEGMENT (R195): the packet that a TCP segment completes. -/
def execInterleavedRtpSegment (stream : Nat) (p : RtpPacket) (s : State) : Res :=
  match s.streams[stream]? with
  | none => done s
  | some none => done s
  | some (some x) =>
    doneIf (s.power.running && !unitFenced s 3 x.rtsp.port && !asleep s 3 && x.cfg.source == 0 && x.rtsp.transport == 2) (takePacket stream p s) s

/-- When the reorder window of the oldest access unit opened: the arrival of its last packet, or of the first packet of the next
one when its marker is missing (R190). -/
def windowFrom (r : Rtp) : Option Nat :=
  match unitSpan r with
  | some u => match u.last with
    | some l =>
      if u.marked then (tabGet l r.pieces).map fun p => shiftBy p.shift p.stamp
      else (r.pieces.find? fun p => decide (l < p.1)).map fun p => shiftBy p.2.shift p.2.stamp
    | none => none
  | none => none

/-- REORDER_WINDOW_EXPIRY (R190). -/
def execReorderWindowExpiry (stream : Nat) (s : State) : Res :=
  match s.streams[stream]? with
  | none => done s
  | some none => done s
  | some (some x) => match windowFrom x.rtp with
    | some t =>
      if t + 50000 * x.cfg.wr ≤ nowNs s then
        done (releaseComplete stream (x.rtp.pieces.length + 1) (releaseLost stream s))
      else done s
    | none => done s

/-- The requests of an RTSP client (R193). -/
def rtspOptions : Nat := 0
def rtspDescribe : Nat := 1
def rtspSetup : Nat := 2
def rtspPlay : Nat := 3
def rtspGetParameter : Nat := 4
def rtspTeardown : Nat := 5

/-- Update a stream's RTSP client. -/
def updRtsp (n : Nat) (f : Rtsp → Rtsp) (s : State) : State := updStream n (fun x => { x with rtsp := f x.rtsp }) s

/-- A request of a stream's client (R186, R193): SETUP names the media description's URL and asks for the transport that the host
named; the host's credentials answer the server's challenge. -/
def rtspRequestOf (x : Stream) (method : Nat) : RtspRequest :=
  let control := match x.rtsp.media with | some m => m.control | none => []
  { method := method
    url := if method = rtspSetup ∧ control ≠ [] then control else x.rtsp.url
    transport := if method = rtspSetup then some x.rtsp.transport else none
    auth := match x.rtsp.auth, x.sec with
      | some c, .rtsp _ _ _ user password => some (c, user, password)
      | _, _ => none
    version := x.rtsp.version }

/-- Send a request in a phase. -/
def rtspSend (n : Nat) (phase : RtspPhase) (method : Nat) (s : State) : State :=
  match stream? s n with
  | some x => emit (.rtspRequest n (rtspRequestOf x method)) (updRtsp n (fun r => { r with phase := phase, lastSent := steadyNs s }) s)
  | none => s

/-- The delay before a reconnection after `k` failed ones, in ns (R194). -/
def reconnectDelay (k : Nat) : Nat := ([1, 2, 4, 8, 16, 32].getD k 60) * 1000000000

/-- A waiting STREAM_OPEN is answered (R193). -/
def answerOpen (n status result : Nat) (s : State) : State :=
  match stream? s n with
  | some x => match x.rtsp.openCmd with
    | some (q, cid) => finishCmd q cid status result false (updRtsp n (fun r => { r with openCmd := none }) s)
    | none => s
  | none => s

/-- The RESULT of STREAM_OPEN (R419). -/
def openResult (x : Stream) : Nat :=
  (x.fountain.getD 15) + 16 * x.topiary + 256 * x.age + 65536 * (x.adapterSlot.getD 0xFFFF)

/-- What a group's users are without stream `n`. -/
def withoutUser (n : Nat) (users : List (Nat × List (List Byte))) : List (Nat × List (List Byte)) := users.filter fun u => u.1 != n

/-- The report with which stream `n` goes from a group: the group is left with its last user, which IGMPv1 does in silence, or its
filter changes (R186, R196). -/
def leaveReport (now port : Nat) (e : EthPort) (n : Nat) (g : List Byte × List (Nat × List (List Byte))) : Option GroupReport :=
  let rest := withoutUser n g.2
  if rest.length = g.2.length then none
  else if rest.isEmpty then (if reportVersion now e g.1 = 1 then none else some (groupReport now port e false g))
  else if groupFilter rest = groupFilter g.2 then none
  else some (groupReport now port e true (g.1, rest))

/-- A stream that closes leaves its multicast group unless another one uses it (R196). -/
def leaveGroups (n : Nat) (s : State) : State :=
  (List.range 2).foldl (fun s p => match s.eth[p]? with
    | none => s
    | some e =>
      (e.groups.filterMap (leaveReport (steadyNs s) p e n)).foldl (fun s r => emit (.membershipReport r) s)
        (updEth p (fun e => { e with
          groups := (e.groups.map fun g => (g.1, withoutUser n g.2)).filter fun g => !g.2.isEmpty }) s)) s

/-- The source is lost (R194): the session is torn down, the loss reported with what the server said, and a reconnection due unless
`final`. The stream stays open, and in its multicast group (R196). -/
def loseStream (n status code : Nat) (final : Bool) (s : State) : State :=
  match stream? s n with
  | none => s
  | some x =>
    let first := x.rtsp.phase == .playing
    let k := if first then 0 else x.rtsp.attempts
    let s := if x.cfg.source = 0 then emit (.rtspRequest n (rtspRequestOf x rtspTeardown)) s else s
    let s := updRtsp n (fun r => { r with phase := if final then .failed else .lost, attempts := k,
                                          retryAt := steadyNs s + reconnectDelay k }) s
    let s := if x.cfg.source = 0 then updRtp n (fun r => { r with flow := none }) s else s
    streamState n status 0 k code (answerOpen n 0 (openResult x) s)

/-- The steering age of a period: the smallest a with a × P ≥ 27.5 ms (R22); 9 stands for any age above 8. -/
def steeringAge (period : Nat) : Nat := if period = 0 then 9 else min 9 (ceilDiv 27500000 period)

/-- What a stream takes of its batch id's slots in one bell period (R278). -/
def slotShare (tb cmax period : Nat) : Nat := (cmax + 1) * ceilDiv (4 * tb + period) (4 * max 1 period)

/-- The bell period of a batch id in ns (R274). -/
def bellNs (s : State) (b : Nat) : Nat := match s.score.batches[b]? with | some x => 64 * x.period | none => 0

/-- The slot budget of an LC batch id holds for these streams (R278). -/
def slotBudget (s : State) (b : Nat) (l : List OpenBlock) : Bool :=
  let mine := l.filter fun x => x.cls == 0 && x.batch == b
  decide ((mine.map fun x => slotShare (bellNs s b) x.cmax x.period).sum ≤ (geom s b).slots)

/-- The tests of R277. -/
def admission (s : State) (b : OpenBlock) : Nat :=
  let open_ := (s.streams.filterMap id).map (·.cfg)
  if s.pkg.isNone then 0x0327
  else if (geom s b.batch).cls != b.cls then 0x0302
  else if (if b.cls = 0 then 2 else 8) < steeringAge b.period then 0x0321
  else if b.cls == 0 && !slotBudget s b.batch (b :: open_) then 0x0320
  else if 128 ≤ open_.length then 0x0328
  else 0

/-- A session that the ingest statuses refuse (R193, R209): the open that waits for it is refused and the stream with it, its
reservations dropped by `closeRefused`, which the caller gives. A stream that is open stays so (R194): the reconnection has failed,
and after a failed authentication no other follows (DEDUCED, log 178). -/
def failSession (n status : Nat) (closeRefused : Nat → State → State) (s : State) : State :=
  match stream? s n with
  | none => s
  | some x =>
    if x.rtsp.openCmd.isSome then closeRefused n (answerOpen n status 0 (updRtsp n (fun r => { r with phase := .failed }) s))
    else loseStream n 0 0 (status == 0x0103) s

/-- The media description that a session takes (R193): the first video one whose rtpmap names H264/90000 or H265/90000. -/
def chosenMedia (l : List MediaDesc) : Option MediaDesc := l.find? fun m => m.video && m.codec != .other

/-- The flow entry that a session negotiates (R188, R193): without a VLAN tag (DESIGN CHOICE, log 230). -/
def rtspFlow (x : Stream) (r : RtspResponse) : Flow :=
  let m := x.rtsp.media
  { port := x.rtsp.port, vlan := none, dst := r.dst, dport := r.dport, src := r.src, ssrc := r.ssrc,
    payloadType := match m with | some m => m.payloadType | none => 0
    hevc := match m with | some m => m.codec == .h265 | none => false }

/-- Sessions with interleaved transport (R193). -/
def interleavedSessions (s : State) : Nat :=
  ((s.streams.filterMap id).filter fun x => x.cfg.source == 0 && x.rtsp.transport == 2 &&
    (x.rtsp.phase == .setup || x.rtsp.phase == .play || x.rtsp.phase == .playing)).length

/-- A stream joins a multicast group with the sources of its filter (R186, R196): none beyond 128 groups of a port; two unsolicited
reports 1 s apart. -/
def joinGroup (n port : Nat) (addr : List Byte) (sources : List (List Byte)) (s : State) : Option State :=
  match s.eth[port]? with
  | none => none
  | some e =>
    let users := withoutUser n ((e.groups.find? fun g => g.1 == addr).elim [] (·.2)) ++ [(n, sources)]
    let join : State := emit (.membershipReport (groupReport (steadyNs s) port e true (addr, users)))
      (updRtsp n (fun r => { r with reportsLeft := 1, reportAt := steadyNs s + 1000000000 }) s)
    if e.groups.any fun g => g.1 == addr then
      some (updEth port (fun e => { e with groups := e.groups.map fun g => if g.1 = addr then (addr, users) else g }) join)
    else if e.groups.length < 128 then some (updEth port (fun e => { e with groups := e.groups ++ [(addr, users)] }) join)
    else none

/-- Decode of a session's stream joins at the next random-access picture, with the parameter sets that its description declares (R194,
R221). -/
def joinDecode (n : Nat) (s : State) : State :=
  match (stream? s n).bind (·.rtsp.media) with
  | some m => updDecoder n (fun d =>
      let hevc := m.codec == .h265
      { d with joined := false, hevc := hevc, sets := m.sprop.foldl (storeSet hevc) d.sets }) s
  | none => updDecoder n (fun d => { d with joined := false }) s

/-- PLAY is answered: the stream's flow entry is in place and the source is there (R193, R194). -/
def startPlaying (n : Nat) (s : State) : State :=
  match stream? s n with
  | none => s
  | some x =>
    let s := updRtsp n (fun r => { r with phase := .playing, redirects := 0 }) s
    let s := joinDecode n (updRtp n (fun r => { r with
      lastArrival := steadyNs s, ssrc := none, expected := none, released := none, cut := none, pieces := [] }) s)
    let s := if x.rtsp.openCmd.isSome then answerOpen n 0 (openResult x) s else streamState n 0 1 x.rtsp.attempts 0 s
    updRtsp n (fun r => { r with attempts := 0 }) s

/-- The answer to SETUP: the entry, the group, and PLAY (R188, R193, R196); a server that names no timeout has 60 s (PRESUMED, log
232). -/
def afterSetup (n : Nat) (x : Stream) (r : RtspResponse) (close : Nat → State → State) (s : State) : State :=
  let f := rtspFlow x r
  if x.rtsp.transport != 2 && flowTaken s n f then failSession n 0x0101 close s
  else
    let s := updRtp n (fun y => { y with flow := some f }) (updRtsp n (fun y => { y with
      timeout := if r.sessionTimeout = 0 then 60 else r.sessionTimeout }) s)
    if x.rtsp.transport = 1 then
      match joinGroup n x.rtsp.port r.dst (match x.rtsp.media with | some m => m.sources | none => []) s with
      | some s => rtspSend n .play rtspPlay s
      | none => failSession n 0x0106 close s
    else rtspSend n .play rtspPlay s

/-- The request that a phase waits for the answer of. -/
def phaseMethod : RtspPhase → Nat
  | .describe => rtspDescribe
  | .setup => rtspSetup
  | .play => rtspPlay
  | _ => rtspOptions

/-- The server asks for credentials (R186, R193): the request goes out again with them, for the first challenge that it makes; a
second refusal is a failed authentication, and so is a challenge of no supported kind. -/
def answerChallenge (n : Nat) (x : Stream) (r : RtspResponse) (close : Nat → State → State) (s : State) : State :=
  match r.challenges, x.rtsp.auth with
  | c :: _, none => rtspSend n x.rtsp.phase (phaseMethod x.rtsp.phase) (updRtsp n (fun y => { y with auth := some c }) s)
  | _, _ => failSession n 0x0103 close s

/-- The answer to DESCRIBE (R193): the media description that the session takes, or a refusal. -/
def afterDescribe (n : Nat) (x : Stream) (r : RtspResponse) (close : Nat → State → State) (s : State) : State :=
  match chosenMedia r.media with
  | none => failSession n 0x0104 close s
  | some m =>
    if m.interleaved || m.donDiff != 0 then failSession n 0x0104 close s
    else if x.rtsp.transport = 2 && decide (32 ≤ interleavedSessions s) then failSession n 0x0105 close s
    else rtspSend n .setup rtspSetup (updRtsp n (fun y => { y with media := some m }) s)

/-- The server does not know RTSP 2.0: the client goes on in 1.0 (R186; DESIGN CHOICE, log 236). -/
def oldServer (x : Stream) (r : RtspResponse) : Bool := r.code == 505 && x.rtsp.version == 2

/-- The source is lost while the open may still wait, or it plays for the first time: the tests of R277 come behind the session's own
checks. -/
def refusesOpen (s : State) (n : Nat) (x : Stream) : Bool := x.rtsp.openCmd.isSome && admission { s with streams := s.streams.set n none } x.cfg != 0

/-- An open whose session has passed its own checks and which R277 refuses: the session is torn down. -/
def refuseOpen (n : Nat) (x : Stream) (close : Nat → State → State) (s : State) : State :=
  emit (.rtspRequest n (rtspRequestOf x rtspTeardown)) (failSession n (admission { s with streams := s.streams.set n none } x.cfg) close s)

/-- A session advances on a response (R193): up to three redirects are followed, with OPTIONS at their target; a fourth one is a
server's error (DESIGN CHOICE, log 232). -/
def rtspAdvance (n : Nat) (x : Stream) (r : RtspResponse) (close : Nat → State → State) (s : State) : State :=
  if oldServer x r then rtspSend n x.rtsp.phase (phaseMethod x.rtsp.phase) (updRtsp n (fun y => { y with version := 1 }) s)
  else if r.unauthorised then answerChallenge n x r close s
  else if r.redirect.isSome && decide (x.rtsp.redirects < 3) then
    rtspSend n .options rtspOptions (updRtsp n (fun y => { y with
      redirects := y.redirects + 1, url := r.redirect.getD y.url, auth := none, media := none }) s)
  else if r.redirect.isSome || decide (400 ≤ r.code) then
    if refusesOpen s n x then refuseOpen n x close s else loseStream n 0x0102 r.code false s
  else match x.rtsp.phase with
    | .options => rtspSend n .describe rtspDescribe (updRtsp n (fun y => { y with getParameter := r.getParameter }) s)
    | .describe => afterDescribe n x r close s
    | .setup => afterSetup n x r close s
    | .play => if refusesOpen s n x then refuseOpen n x close s else startPlaying n s
    | _ => s

/-- The keep-alive of a session is due at half its timeout (R193). -/
def execRtspKeepalive (stream : Nat) (s : State) : Res :=
  match s.streams[stream]? with
  | none => done s
  | some none => done s
  | some (some x) =>
    doneIf (s.power.running && x.rtsp.phase == .playing && x.cfg.source == 0 &&
        decide (x.rtsp.lastSent + x.rtsp.timeout * 500000000 ≤ steadyNs s))
      (rtspSend stream .playing (if x.rtsp.getParameter then rtspGetParameter else rtspOptions) s) s

/-- The idle timeout of a stream in ns; 5 s where the block leaves it 0 (R194). -/
def idleNs (x : Stream) : Nat := (if x.cfg.idle = 0 then 5 else x.cfg.idle) * 1000000000

/-- The URL that the host opened a stream with (R193). -/
def hostUrl : SourceSection → List Byte
  | .rtsp _ _ url _ _ => url
  | _ => []

/-- RECONNECT (R194): another attempt once its delay has passed. -/
def execReconnect (stream : Nat) (s : State) : Res :=
  match s.streams[stream]? with
  | none => done s
  | some none => done s
  | some (some x) =>
    doneIf (s.power.running && x.cfg.source == 0 && x.rtsp.phase == .lost && decide (x.rtsp.retryAt ≤ steadyNs s))
      (rtspSend stream .options rtspOptions (updRtsp stream (fun r => { r with
        attempts := r.attempts + 1, redirects := 0, url := hostUrl x.sec, auth := none, media := none, version := 2 }) s)) s

/-- The reports for the groups that a stream uses (R196). -/
def streamReports (s : State) (n : Nat) : List GroupReport :=
  (s.eth.zipIdx.map fun e => (e.1.groups.filter fun g => g.2.any fun u => u.1 == n).map
    (groupReport (steadyNs s) e.2 e.1 true)).flatten

/-- MULTICAST_REPORT (R196). -/
def execMulticastReport (stream : Nat) (s : State) : Res :=
  match s.streams[stream]? with
  | none => done s
  | some none => done s
  | some (some x) =>
    doneIf (s.power.running && decide (0 < x.rtsp.reportsLeft ∧ x.rtsp.reportAt ≤ steadyNs s))
      ((streamReports s stream).foldl (fun s r => emit (.membershipReport r) s)
        (updRtsp stream (fun r => { r with reportsLeft := r.reportsLeft - 1, reportAt := steadyNs s + 1000000000 }) s)) s

/-- RTCP_REPORT (R196): the minimum interval of RFC 3550 is 5 s (PRESUMED, log 25). -/
def execRtcpReport (stream : Nat) (s : State) : Res :=
  match s.streams[stream]? with
  | none => done s
  | some none => done s
  | some (some x) =>
    doneIf (s.power.running && x.rtsp.phase == .playing && decide (x.cfg.source ≤ 1) &&
        decide (x.rtsp.rtcpAt + 5000000000 ≤ steadyNs s))
      (emit (.rtcpReport stream) (updRtsp stream (fun r => { r with rtcpAt := steadyNs s }) s)) s

end Sys2Proof.Machine
end

