-- ==== Sys2Proof/Machine/Mailbox.lean ====
section
/-! DEFINITION. The mailboxes (R405 to R423): fetching, checking and completing host commands, and notices. -/

namespace Sys2Proof.Machine

/-- BAR0 offsets of the DBL registers (R398). -/
def regSqb (q : Nat) : Nat := 0x100020 + 8 * q
def regCqb : Nat := 0x100040
def regSize : Nat := 0x100048
def regEn : Nat := 0x10004C
def regDblStat : Nat := 0x100050

/-- The 64-bit number of two registers, with bits [11:0] of the lower one clear: a ring base (R398). -/
def ringBase (s : State) (off : Nat) : Nat := (reg s off).toNat / 4096 * 4096 + (reg s (off + 4)).toNat * 2 ^ 32

/-- log2 of the entries of submission ring q, and of the completion ring (R398). -/
def sqSizeField (s : State) (q : Nat) : Nat := bits (reg s regSize).toNat (4 * q) 4
def cqSizeField (s : State) : Nat := bits (reg s regSize).toNat 16 4

def sqEntries (s : State) (q : Nat) : Nat := 2 ^ sqSizeField s q
def cqEntries (s : State) : Nat := 2 ^ cqSizeField s

/-- A size field in the range of R398. -/
def sizeOk (n : Nat) : Bool := decide (4 ≤ n ∧ n ≤ 12)

/-- Enable bits (R398). -/
def sqEnabled (s : State) (q : Nat) : Bool := (reg s regEn).getLsbD q
def cqEnabled (s : State) : Bool := (reg s regEn).getLsbD 4

/-- A request of Quinbuar for an island (R370): where a reset fences it, it meets TARGET_RESET, is tried again after the unfence, up to 3
times, and is then logged and given up. -/
def quinbuarAsks (request island : Nat) (go giveUp : State → State) (s : State) : State :=
  let old := s.mbx.retries.find? fun r => r.request == request
  let tries := match old with | some r => r.tries | none => 0
  let drop (s : State) : State := updMbx (fun m => { m with retries := m.retries.filter fun r => r.request != request }) s
  match s.fenced.filter fun j => j.island == island with
  | none => if islandFenced s island then s else go (drop s)
  | some j =>
    if (old.map (·.fence)) = some j.since then s
    else if tries < 3 then
      updMbx (fun m => { m with retries := { request := request, tries := tries + 1, fence := j.since } :: m.retries }) (drop s)
    else giveUp (logErr 0x0011 1 0 (drop s) { arg0 := island })

/-- Update a submission ring. -/
def updSq (q : Nat) (f : SubRing → SubRing) (s : State) : State := updMbx (fun m => { m with sq := upd m.sq q f }) s

/-- Quinbuar runs: its island has booted and no new image of it is starting (R476, R487). -/
def quinbuarRuns (s : State) : Bool := s.power.running && !timeFrozen s

/-- Entries of the completion ring that are free and not reserved (R408). -/
def cqFree (s : State) : Nat :=
  if s.mbx.cqRunning then cqEntries s - (s.mbx.cqTail + 65536 - s.mbx.cqHead) % 65536 - s.mbx.reserved else 0

/-- Commands in progress: fetched, their completion not yet written (R408). -/
def inProgress (s : State) : Nat := s.mbx.cmds.length + s.mbx.ended.length

/-- The time of the first doorbell whose count covers the command numbered `c` (R411). -/
def bellStamp (bells : List (Nat × Nat)) (c now : Nat) : Nat :=
  match bells.find? fun b => let d := (b.1 + 65536 - c) % 65536; decide (1 ≤ d ∧ d ≤ 4096) with
  | some b => b.2
  | none => now

/-- Some host line of [a, a + n) cannot be read: it fails or arrives poisoned, or no request may leave (R314, R360). -/
def hostFails (s : State) (a n : Nat) : Bool := !canSend s || (readLines a n).any fun l => (tabGet l s.mem.hostBad).isSome

/-- The bytes of a host buffer, each marked where its line cannot be read (R359). -/
def hostMarked (s : State) (a n : Nat) : List (Byte × Bool) :=
  (List.range n).map fun i => (memGet s.mem.host (a + i), hostFails s (a + i) 1)

/-- The status of the first line of a host buffer that cannot be read (R361). -/
def hostCause (s : State) (a n : Nat) : Nat :=
  if !canSend s then 0x0604 else ((readLines a n).findSome? fun l => tabGet l s.mem.hostBad).getD 0x0604

/-- The command that 64 bytes hold (R412). -/
def parseCommand (q sqHead stamp : Nat) (poisoned : Bool) (b : List Byte) : HostCmd where
  q := q
  cid := field b 0x02 2
  opc := field b 0x00 1
  flags := field b 0x01 1
  plen := field b 0x04 4
  pbuf := field b 0x08 8
  rbuf := field b 0x10 8
  rlen := field b 0x18 4
  reservedZero := field b 0x1C 4 == 0 && bits (field b 0x01 1) 1 7 == 0
  args := slice b 0x20 32
  poisoned := poisoned
  sqHead := sqHead
  stamp := stamp
  started := false
  done := none

/-- Fields of the inline arguments. -/
def arg (c : HostCmd) (off n : Nat) : Nat := field c.args off n

/-- The opcodes of R419. -/
def knownOpc (o : Nat) : Bool :=
  [0x00, 0x01, 0x02, 0x10, 0x20, 0x21, 0x22, 0x23, 0x24, 0x30, 0x31, 0x38, 0x39, 0x3A, 0x40, 0x41, 0x48, 0x50, 0x51, 0x52,
   0x53, 0x54, 0x58, 0x60, 0x69, 0x70, 0x71].contains o

/-- The selector of an opcode that stands for several commands: ITEM, action or sub-operation (R419, R486). -/
def subCode (c : HostCmd) : Nat :=
  match c.opc with
  | 0x22 => arg c 1 1
  | 0x53 => bits (arg c 1 1) 0 4
  | 0x60 => arg c 0 1
  | 0x70 => arg c 0 1
  | _ => 0

/-- The selector is one of those that the opcode's row lists. -/
def knownSub (c : HostCmd) : Bool :=
  match c.opc with
  | 0x22 => decide (1 ≤ subCode c ∧ subCode c ≤ 6)
  | 0x53 => decide (subCode c ≤ 3)
  | 0x60 => decide (1 ≤ subCode c ∧ subCode c ≤ 3)
  | 0x70 => decide (1 ≤ subCode c ∧ subCode c ≤ 5)
  | _ => true

/-- The bits of ARGS that a row of R419 or R486 uses; MEM_CONFIG's value has no layout there. -/
def argMask (opc sub : Nat) : Nat :=
  let bytes (off n : Nat) : Nat := (2 ^ (8 * n) - 1) * 2 ^ (8 * off)
  match opc with
  | 0x02 => bytes 0 4
  | 0x20 => bytes 0 1
  | 0x21 => bytes 0 1
  | 0x22 => bytes 0 2 + (if sub = 3 ∨ sub = 5 then 0 else bytes 8 8)
  | 0x23 => bytes 0 1
  | 0x24 => bytes 0 2 + bytes 8 8
  | 0x31 => bytes 0 2
  | 0x38 => bytes 0 1
  | 0x39 => bytes 0 2 + bytes 8 8
  | 0x3A => bytes 0 2
  | 0x41 => bytes 0 2
  | 0x48 => bytes 0 1 + bytes 8 16
  | 0x51 => bytes 0 16
  | 0x52 => 15 + 3 * 2 ^ 8
  | 0x53 => 15 + 15 * 2 ^ 8 + bytes 8 16
  | 0x54 => 15
  | 0x58 => bytes 0 1
  | 0x60 => bytes 0 32
  | 0x69 => bytes 0 1 + bytes 8 16
  | 0x70 => if sub = 1 then bytes 0 2 + bytes 8 8 else bytes 0 1
  | 0x71 => 63
  | _ => 0

/-- The bits of ARGS that no argument of the command takes are 0: a reserved field, so check 2 of R414 reads it (DEDUCED, log 34). -/
def argsClear (c : HostCmd) : Bool := leNat c.args &&& (2 ^ 256 - 1 - argMask c.opc (subCode c)) == 0

/-- Checks 1 to 3 of R414, with the status of the first that fails, else 0. -/
def firstChecks (s : State) (c : HostCmd) : Nat :=
  if c.poisoned then 0x0901
  else if !knownOpc c.opc then 0x0001
  else if !c.reservedZero || c.cid == 0xFFFF || !knownSub c || !argsClear c || (c.opc != 0x10 && decide (65536 < c.plen)) then 0x0002
  else if s.mbx.session.isNone && decide (3 ≤ c.opc) then 0x0008
  else 0

/-- A command that no row of the command set takes: its first failing check ends it as it is fetched (DESIGN CHOICE, log 34). -/
def unroutable (c : HostCmd) : Bool := c.poisoned || !knownOpc c.opc || !knownSub c

/-- A fetched command joins those in progress. -/
def admitCommand (c : HostCmd) (s : State) : State :=
  if unroutable c then updMbx (fun m => { m with ended := m.ended ++ [{ c with done := some (firstChecks s c, 0, false) }] }) s
  else updMbx (fun m => { m with cmds := m.cmds ++ [c] }) s

/-- Fetch one command from a ring (R405, R408): its completion entry is reserved. -/
def fetchFrom (q : Nat) (s : State) : State :=
  match s.mbx.sq[q]? with
  | none => s
  | some r =>
    if !r.running || !sqEnabled s q || r.head == r.tail || decide (256 ≤ inProgress s) || cqFree s == 0 then s
    else
      let a := ringBase s (regSqb q) + 64 * (r.head % sqEntries s q)
      let head := (r.head + 1) % 65536
      let c := parseCommand q head (bellStamp r.bells r.head (nowNs s)) (hostFails s a 64) (memRead s.mem.host a 64)
      let s := updSq q (fun r => { r with
        head := head, bells := r.bells.filter fun b => let d := (b.1 + 65536 - head) % 65536; decide (1 ≤ d ∧ d ≤ 4096) }) s
      let s := admitCommand c (updMbx (fun m => { m with reserved := m.reserved + 1 }) s)
      if c.poisoned then logErr 0x0901 2 0 s { arg0 := a, poison := true } else s

/-- COMMAND_FETCH (R408): one round, at most one command from each ring in ascending number. None in D3hot (R379), none while a
SWITCH runs (R487). -/
def execCommandFetch (s : State) : Res :=
  if !quinbuarRuns s || s.power.update.switching.isSome || !canSend s then done s
  else done ((List.range 4).foldl (fun s q => fetchFrom q s) (meetOutside 1 s))

/-- The 16 bytes of a completion entry (R410, R413) at count `n`. -/
def completionBytes (s : State) (n result cid status sqHead q : Nat) (isNotice rbuf : Bool) : List Byte :=
  let phase := n / cqEntries s % 2 == 0
  leBytes 8 result ++ leBytes 2 cid ++ leBytes 2 status ++ leBytes 2 sqHead ++ leBytes 1 q
    ++ leBytes 1 (flag phase 0 + flag isNotice 1 + flag rbuf 2)

/-- Write the next entry of the completion ring and set the cause CQ (R388, R410). -/
def writeCompletion (result cid status sqHead q : Nat) (isNotice rbuf : Bool) (s : State) : State :=
  let n := s.mbx.cqTail
  let s := hostWrite (ringBase s regCqb + 16 * (n % cqEntries s))
    (completionBytes s n result cid status sqHead q isNotice rbuf) s
  setCq (updMbx (fun m => { m with cqTail := (n + 1) % 65536 }) s)

/-- SQRUN clears once nothing of a disabled ring is in progress (R409). -/
def settleRing (q : Nat) (s : State) : State :=
  if !sqEnabled s q && (s.mbx.cmds ++ s.mbx.ended).all fun c => c.q != q then updSq q (fun r => { r with running := false }) s else s

/-- The fields of a SUBSCRIBE block that both kinds have (R424): KIND, ID, TYPES. -/
def subKind (b : List Byte) : Nat := field b 0 1
def subId (b : List Byte) : Nat := field b 1 1
def subTypes (b : List Byte) : Nat := field b 2 1

/-- The delivery ring that a block describes (R424), with the counts of one that it continues (R425). -/
def ringOf (b : List Byte) (old : Option RingSub) : RingSub :=
  let same := match old with
    | some o => o.base == field b 0x20 8 && o.size == field b 0x28 1
    | none => false
  let keep (f : RingSub → Nat) : Nat := match old with | some o => if same then f o else 0 | none => 0
  { types := subTypes b, vector := field b 3 1, streams := field b 8 16, pins := field b 0x18 2, base := field b 0x20 8,
    size := field b 0x28 1, statAddr := field b 0x30 8, tail := keep (·.tail), headCount := keep (·.headCount),
    dropped := keep (·.dropped), born := match old with | some o => o.born | none => 0 }

/-- The UDP destination that a block describes (R206, R424): its sequence starts at 0, what waits for its port stays (R208). -/
def udpOf (b : List Byte) (old : Option UdpSub) : UdpSub :=
  { types := subTypes b, streams := field b 8 16, pins := field b 0x18 2, port := field b 0x20 1, family := field b 0x21 1,
    vlan := field b 0x22 2, dscp := field b 0x24 1, hops := field b 0x25 1, payload := field b 0x26 2,
    dport := field b 0x28 2, sport := field b 0x2A 2, saddr := slice b 0x30 16, daddr := slice b 0x40 16, seq := 0,
    backlog := match old with | some o => o.backlog | none => []
    dropped := match old with | some o => o.dropped | none => 0
    born := match old with | some o => o.born | none => 0 }

/-- A subscription is set up, or replaced (R424, R425); the vector of its cause may be another one then (R389). -/
def putSub (b : List Byte) (s : State) : State :=
  let d := subId b
  withCauses (updMbx fun m =>
    let n := m.subCount + 1
    if subKind b = 0 then match m.rings.getD d none with
      | some o => { m with rings := m.rings.set d (some (ringOf b (some o))) }
      | none => { m with subCount := n, rings := m.rings.set d (some { ringOf b none with born := n }) }
    else match m.udp.getD d none with
      | some o => { m with udp := m.udp.set d (some (udpOf b (some o))) }
      | none => { m with subCount := n, udp := m.udp.set d (some { udpOf b none with born := n }) }) s

/-- A subscription ends (R425), and a message that waits for it alone with it (R389). -/
def dropSub (kind d : Nat) (s : State) : State :=
  withCauses (updMbx fun m => if kind = 0 then { m with rings := m.rings.set d none } else { m with udp := m.udp.set d none }) s

/-- What a SUBSCRIBE or an UNSUBSCRIBE does, once its completion is written (R425). -/
def applySub (c : HostCmd) (status : Nat) (s : State) : State :=
  if status ≠ 0 then s
  else if c.opc = 0x30 then putSub c.block s
  else if c.opc = 0x31 then dropSub (arg c 0 1) (arg c 1 1) s
  else s

/-- The completion of an ended command, behind its result buffer (R414), or its discard while CQEN is clear (R409); a ring that a bad doorbell
has stopped takes it too (R407). -/
def completeCmd (c : HostCmd) (s : State) : State :=
  let (st, r, b) := c.done.getD (0, 0, false)
  let s := updMbx (fun m => { m with reserved := m.reserved - 1 }) s
  let s := if b then hostWrite c.rbuf c.buffer s else s
  let s := if cqEnabled s && sizeOk (cqSizeField s) then writeCompletion r c.cid st c.sqHead c.q false b s
    else updMbx (fun m => { m with discarded := m.discarded + 1 }) s
  applySub c st (settleRing c.q s)

/-- COMMAND_COMPLETE (R408 to R410): the completion of the first command that has ended. It is held in D3hot (R496), and after resets of
island 2 that have kept it back four times it is given up (R370). -/
def execCommandComplete (s : State) : Res :=
  match s.mbx.ended with
  | [] => done s
  | c :: _ =>
    if !quinbuarRuns s || s.gate.d3hot then done s
    else
      let taken (s : State) : State := updMbx (fun m => { m with ended := m.ended.drop 1 }) s
      done (quinbuarAsks 0 2 (fun s => completeCmd c (taken s))
        (fun s => applySub c ((c.done.getD (0, 0, false)).1) (settleRing c.q (updMbx (fun m => { m with reserved := m.reserved - 1 }) (taken s)))) s)

/-- Write one notice. -/
def writeNotice (x : NoticeMsg) (s : State) : State :=
  if cqEnabled s then writeCompletion x.result 0xFFFF x.status x.stream 0 true false s
  else updMbx (fun m => { m with discarded := m.discarded + 1 }) s

/-- NOTICE (R423): only into an unreserved entry; after a drop the first is 0x0911 with its count. While CQEN is clear notices are
discarded and counted (R409); in D3hot they are held (R496). -/
def execNotice (s : State) : Res :=
  if !quinbuarRuns s || s.gate.d3hot || (cqEnabled s && cqFree s == 0) then done s
  else if 0 < s.mbx.noticesDropped then
    let x : NoticeMsg := { status := 0x0911, stream := 0xFFFF, result := s.mbx.noticesDropped }
    let taken (s : State) : State := updMbx (fun m => { m with noticesDropped := 0 }) s
    done (quinbuarAsks 1 2 (fun s => writeNotice x (taken s)) taken s)
  else match s.mbx.notices with
    | [] => done s
    | x :: _ =>
      let taken (s : State) : State := updMbx (fun m => { m with notices := m.notices.drop 1 }) s
      done (quinbuarAsks 1 2 (fun s => writeNotice x (taken s)) taken s)

/-- A command of the subscriptions. -/
def subCommand (c : HostCmd) : Bool := c.opc == 0x30 || c.opc == 0x31

/-- The stream that a command names in ARGS[7:0] (R415, R419); a clip's is in its block and orders nothing (DEDUCED, log 33). -/
def cmdStream (c : HostCmd) : Option Nat :=
  if [0x20, 0x21, 0x22, 0x23, 0x24, 0x39, 0x3A, 0x48].contains c.opc then some (arg c 0 1)
  else if c.opc = 0x69 ∧ arg c 0 1 ≠ 0xFF then some (arg c 0 1)
  else none

/-- The commands fetched before one. -/
def earlier (c : HostCmd) : List HostCmd → List HostCmd
  | [] => []
  | x :: l => if x.q = c.q ∧ x.cid = c.cid ∧ x.sqHead = c.sqHead then [] else x :: earlier c l

/-- Two capture-set changes of a stream: the later one replaces the pending commit, so it does not wait (R202, DEDUCED, log 52). -/
def recommit (c x : HostCmd) : Bool :=
  c.opc == 0x22 && subCode c == 3 && x.opc == 0x22 && subCode x == 3 && x.started

/-- A command may start (R412 FENCE, R415); a PROMPT_SET waits for the encoding in progress of its slot (DESIGN CHOICE, log 39), and a
command of the subscriptions for an earlier one's settings (R425; DEDUCED, log 240). -/
def mayStart (s : State) (c : HostCmd) : Bool :=
  let before := earlier c s.mbx.cmds
  let same (x : HostCmd) : Bool := (cmdStream x).isSome && cmdStream x == cmdStream c
  let fenceOk := !bitAt c.flags 0 || before.all fun x => x.q != c.q
  let slotOk := c.opc != 0x38 || before.all fun x => x.opc != 0x38 || arg x 0 1 != arg c 0 1
  let orderOk :=
    if c.opc = 0x23 then true
    else if c.opc = 0x24 then before.all fun x => !(same x && x.opc == 0x24)
    else
      (before.all fun x => !(same x) || x.opc == 0x23 || x.opc == 0x24 || recommit c x)
        && (c.opc != 0x21 || s.mbx.cmds.all fun x => !(same x && x.opc == 0x24))
  let subOk := !subCommand c || (before ++ s.mbx.ended).all fun x => !subCommand x
  fenceOk && slotOk && orderOk && subOk

/-- The general-window range in which Quinbuar maps the parameter block of a command (R302; its place is DESIGN CHOICE, log 174). -/
def paramWindow : Nat := 0x802000000000

/-- The parameter block of a command: Quinbuar reads it through the mapping that it sets up for that host buffer and takes down again
(R302, R303). -/
def paramBlock (s : State) (c : HostCmd) : List Byte :=
  let t := mapHost paramWindow c.pbuf c.plen s
  (List.range c.plen).map fun i => (ownByte t (windowOf paramWindow c.pbuf + i)).1

/-- The buffers of a FRAME_SUBMIT block (R419): address and length. -/
def submitBuffers (bs : List Byte) (n : Nat) : List (Nat × Nat) :=
  (List.range n).map fun i => (field bs (16 * i) 8, field bs (16 * i + 8) 4)

/-- What a row of the command set checks before its own chapter does (R414): the command is this row's, its indices, its result
size, its need of a parameter block. -/
structure CmdRow where
  opc : Nat
  sub : Nat
  indexOk : State → HostCmd → Bool
  resultSize : State → HostCmd → Nat
  block : Bool
  minPlen : Nat

/-- Checks 1 to 6 of R414, with the status of the first that fails, else 0. -/
def checkCommand (s : State) (r : CmdRow) (c : HostCmd) : Nat :=
  let first := firstChecks s c
  if first ≠ 0 then first
  else if r.block && decide (c.plen < r.minPlen) then 0x0002
  else if !r.indexOk s c then 0x0009
  else if c.rlen < r.resultSize s c then 0x0004
  else if r.block && hostFails s c.pbuf c.plen then 0x0003
  else 0

/-- Mark a command as started. -/
def startCmd (c : HostCmd) (s : State) : State :=
  updMbx (fun m => { m with cmds := m.cmds.map fun x =>
    if x.q = c.q ∧ x.cid = c.cid ∧ x.sqHead = c.sqHead then { x with started := true } else x }) s

/-- A row of the command set runs on the command that COMMAND_FETCH has taken with this ring and tag: the checks of R414 in their
order, then the row's own work, which ends the command or leaves it in progress. -/
def runCommand (q cid : Nat) (r : CmdRow) (work : HostCmd → State → State) (s : State) : Res :=
  inRange (decide (q < 4 ∧ cid < 65536)) s <|
    match s.mbx.cmds.find? fun c => c.q == q && c.cid == cid && !c.started with
    | none => done s
    | some c =>
      if c.opc != r.opc || subCode c != r.sub || !mayStart s c || !quinbuarRuns s then done s
      else
        let st := checkCommand s r c
        if st ≠ 0 then done (finishCmd q cid st 0 false s) else done (work c (startCmd c s))

/-- A row with no index and no block. -/
def bareRow (opc sub : Nat) : CmdRow :=
  { opc := opc, sub := sub, indexOk := fun _ _ => true, resultSize := fun _ _ => 0, block := false, minPlen := 0 }

/-- A row that names a stream (R15). -/
def streamRow (opc sub : Nat) : CmdRow := { bareRow opc sub with indexOk := fun _ c => decide (arg c 0 1 < 128) }

/-- End a command with a status and no result. -/
def endCmd (c : HostCmd) (status : Nat) (s : State) : State := finishCmd c.q c.cid status 0 false s

/-- End a command well with a RESULT. -/
def okCmd (c : HostCmd) (result : Nat) (s : State) : State := finishCmd c.q c.cid 0 result false s

/-- End a command well with a result buffer, written before the completion (R414). -/
def bufCmd (c : HostCmd) (result : Nat) (bs : List Byte) (s : State) : State := finishBuf c.q c.cid 0 result bs s

/-- Every command still waiting for a stream that has closed ends with 0x0006 (R415). -/
def dropWaiting (n : Nat) (s : State) : State :=
  (s.mbx.cmds.filter fun c => cmdStream c == some n && !c.started && c.opc != 0x23).foldl
    (fun s c => endCmd c 0x0006 s) s

/-- CMD_NOP (R419). -/
def execCmdNop (q cid : Nat) (s : State) : Res := runCommand q cid (bareRow 0x00 0) (fun c s => okCmd c 0 s) s

end Sys2Proof.Machine
end

