-- ==== Sys2Proof/Machine/Sensor.lean ====
section
/-! DEFINITION. Belvedere sensor ports (R198 to R203): capture sets and their commit, lines into cells, irregular frames. -/

namespace Sys2Proof.Machine

/-- The stream whose active capture set has a port and channel (R200). -/
def captureStream (s : State) (port channel : Nat) : Option Nat :=
  posOf (fun o : Option Stream => match o with
    | some x => (match x.capture with
      | some c => c.active.port == port && c.active.channel == channel
      | none => false)
    | none => false) s.streams

/-- Update a stream's capture side. -/
def updCapture (n : Nat) (f : Capture → Capture) (s : State) : State :=
  updStream n (fun x => { x with capture := x.capture.map f }) s

/-- Update the frame that a stream captures. -/
def updOpenFrame (n : Nat) (f : CaptureFrame → CaptureFrame) (s : State) : State :=
  updCapture n (fun c => { c with frame := c.frame.map f }) s

/-- An event that a frame's record carries (R203, R434). -/
def ingestEvent (status count : Nat) : Event := { kind := 0x0015, status := status, data := leBytes 4 count }

/-- The exposure reference (R201, R434). -/
def exposureEvent (stamp : Nat) : Event := { kind := 0x0017, status := 0, data := leBytes 8 stamp }

/-- A frame that the port gives up is DAMAGED with a status (R203): it takes its number and yields its skip record. -/
def damageFrame (n status : Nat) (c : CaptureFrame) (s : State) : State :=
  match stream? s n with
  | none => s
  | some x =>
    let f := freshFrame x.nextId c.stamp c.stamp 0 0 false false
    let f := { f with reason := reasonDamaged, status := status, stage := .skipped, events := [exposureEvent c.stamp] }
    numberFrame n x.nextId (updStream n (fun x => { x with nextId := x.nextId + 1, frames := x.frames ++ [f] }) (passFrame n c.stamp c.shift s))

/-- Irregularities of a frame: events of its record, or of the next one served when its record is formed already (R203). -/
def frameIrregular (n id : Nat) (es : List (Nat × Nat)) (s : State) : State :=
  match getFrame s n id with
  | some f =>
    if f.stage == .formed then updCapture n (fun c => { c with events := c.events ++ es }) s
    else updFrame n id (fun f => { f with events := f.events ++ es.map fun e => ingestEvent e.1 e.2 }) s
  | none => updCapture n (fun c => { c with events := c.events ++ es }) s

/-- The open frame of a stream ends here: short frames are DAMAGED, irregularities of complete ones become events (R203). -/
def closeFrame (n : Nat) (byEnd : Bool) (number : Nat) (s : State) : State :=
  match (stream? s n).bind (·.capture) with
  | none => s
  | some cap => match cap.frame with
    | none => s
    | some c =>
      let t := updCapture n (fun x => { x with
        frame := none, missingEnd := x.missingEnd + (if c.complete && !byEnd then 1 else 0) }) s
      if c.complete then
        frameIrregular n c.id ((if c.extra = 0 then [] else [(0x0113, c.extra)])
          ++ (if byEnd && number != c.number then [(0x0117, 1)] else [])) t
      else
        let status := if c.damaged = 0 then 0x0112 else c.damaged
        damageFrame n status c (freeChain c.head t)

/-- A pending commit is adopted by a Frame Start when it became pending in an earlier cycle of island 4 (R202). -/
def adoptSet (n : Nat) (s : State) : State :=
  match stream? s n with
  | none => s
  | some x => match x.capture with
    | some c => match c.pending with
      | some (t, cmds) =>
        if t < steadyNs s then
          cmds.foldl (fun s k => finishCmd k.1 k.2 0 x.nextNum false s)
            (updCapture n (fun c => { c with active := c.shadow, pending := none }) s)
        else s
      | none => s
    | none => s

/-- A packet that the port discards (R203): counted, with its status in the error log. -/
def discardPacket (port status : Nat) (s : State) : State :=
  logErr status 4 port (updSensor port (fun p => { p with discarded := p.discarded + 1 }) s) { arg0 := port }

/-- FRAME_START_PACKET (R201 to R203): the header is accepted on the stream's channel; a channel in no capture set discards it. -/
def execFrameStartPacket (port channel number stamp : Nat) (s : State) : Res :=
  inRange (decide (port < 4 ∧ channel < 4)) s <|
    if !s.power.running || unitFenced s 4 port || asleep s 4 then done s
    else match captureStream s port channel with
    | none => done (discardPacket port 0x0118 s)
    | some n =>
      let s := adoptSet n (closeFrame n false number s)
      done (updCapture n (fun c => { c with frame := some {
        number := number, stamp := stamp, lines := 0, head := 0, tailCell := 0, damaged := 0, truncated := 0, extra := 0,
        complete := false, id := 0 } }) s)

/-- The open frame is damaged: its cells are free, its further lines are discarded (R203). -/
def spoilFrame (n status : Nat) (c : CaptureFrame) (s : State) : State :=
  updOpenFrame n (fun c => { c with damaged := if c.damaged = 0 then status else c.damaged, head := 0, tailCell := 0 })
    (freeChain c.head s)

/-- The data of a cell whose NEXT is not final yet: CHECK waits (R340). -/
def putData (cls : ReqClass) (i : Nat) (data : List Byte) (mark : Bool) (s : State) : State :=
  if inPool s i then writePhys cls (cellsAt (cellAddr s i) (cellData data) mark) s else s

/-- The CHECK of the last cell of a line of `b` bytes, once its NEXT is final (R334, R340): complemented where the cell is short. -/
def sealCell (cls : ReqClass) (i b : Nat) (s : State) : State :=
  if i = 0 || !inPool s i then s
  else
    let c := crc32c (memRead s.mem.bytes (cellAddr s i) 248 ++ leBytes 3 (cellNext s i))
    writePhys cls (cellsAt (cellAddr s i + 0xFC) (leBytes 4 (if b % 248 = 0 then c else ~~~c).toNat) false) s

/-- The cells of one line behind a tail (R201): head and last cell, or none when the reservation is exhausted. The CHECK of the cell
before the line is written now, that of the line's last cell with the next line or, where `last`, at once (R340). -/
def storeLine (cls : ReqClass) (n pool tail : Nat) (last : Bool) (bytes : List Byte) (s : State) : Option (Nat × Nat × State) :=
  let parts := chunks 248 bytes.length bytes
  let (st, h, t) := allocOp pool n (min parts.length 32) false tail s
  if st ≠ 0 then none
  else
    let (st, t) := growChain pool n false parts.length (parts.length - min parts.length 32) (growChain.lastCell 32 h t) t
    if st ≠ 0 then none
    else
      let cells := chainCells parts.length h t
      let final := cells.getLastD h
      let mark := outsideBad 4 t
      let marks (l : List Byte) : List Bool := if mark then l.map fun _ => true else []
      let t := (cells.zip parts).foldl
        (fun s x => if x.1 = final then putData cls x.1 x.2 mark s else fillCell cls x.1 x.2 (marks x.2) s)
        (sealCell cls tail bytes.length (meetOutside 4 t))
      some (h, final, if last then sealCell cls final bytes.length t else t)

/-- Line H − 1 has passed its check: the frame is complete and enters the capture queue with its chain (R201, R285). -/
def completeFrame (n stamp : Nat) (c : CaptureFrame) (s : State) : State :=
  match stream? s n with
  | none => s
  | some x => match x.capture with
    | none => s
    | some cap =>
      let bytes := cap.active.height * lineBytes cap.active.dataType cap.active.width
      let es := exposureEvent c.stamp :: (if c.truncated = 0 then [] else [ingestEvent 0x0114 c.truncated])
      let f := { freshFrame 0 stamp stamp c.head bytes false false with set := some cap.active, events := es }
      let room := decide (heldFrames x < 3) || decide ((queuedFrames x).length < captureDepth x.cfg.period)
      endIngest n f false room (updOpenFrame n (fun c => { c with complete := true, id := x.nextId, head := 0, tailCell := 0 }) s)

/-- A good line of an open frame (R201, R203). -/
def takeLine (n : Nat) (x : Stream) (cap : Capture) (c : CaptureFrame) (payload : List Byte) (stamp : Nat) (s : State) : State :=
  let b := lineBytes cap.active.dataType cap.active.width
  let long := decide (b < payload.length)
  match storeLine (landClass s x 3) n x.cfg.pool c.tailCell (c.lines + 1 == cap.active.height) (payload.take b) s with
  | none => updOpenFrame n (fun c => { c with lines := c.lines + 1 }) (spoilFrame n 0x0107 c s)
  | some (h, last, s) =>
    let c := { c with lines := c.lines + 1, head := if c.head = 0 then h else c.head, tailCell := last,
                      truncated := c.truncated + (if long then 1 else 0) }
    let s := updOpenFrame n (fun _ => c) s
    if c.lines = cap.active.height then completeFrame n stamp c s else s

/-- A line packet of a stream (R203). -/
def lineOf (n port dataType : Nat) (payload : List Byte) (crcOk : Bool) (stamp : Nat) (s : State) : State :=
  match stream? s n with
  | none => s
  | some x => match x.capture with
    | none => s
    | some cap =>
      if cap.active.dataType ≠ dataType then discardPacket port 0x0118 s
      else match cap.frame with
        | none =>
          updSensor port (fun p => { p with discarded := p.discarded + 1 })
            (updCapture n (fun c => { c with events := c.events ++ [(0x0117, 1)] }) s)
        | some c =>
          if c.complete then
            updSensor port (fun p => { p with discarded := p.discarded + 1 })
              (updOpenFrame n (fun c => { c with extra := c.extra + 1 }) s)
          else if c.damaged ≠ 0 then updOpenFrame n (fun c => { c with lines := c.lines + 1 }) s
          else if payload.length < lineBytes dataType cap.active.width then
            updOpenFrame n (fun c => { c with lines := c.lines + 1 }) (spoilFrame n 0x0114 c s)
          else if !crcOk then updOpenFrame n (fun c => { c with lines := c.lines + 1 }) (spoilFrame n 0x0116 c s)
          else takeLine n x cap c payload stamp s

/-- LINE_PACKET (R201, R203). -/
def execLinePacket (port channel dataType : Nat) (payload : List Byte) (headerOk crcOk : Bool) (stamp : Nat) (s : State) : Res :=
  inRange (decide (port < 4 ∧ channel < 4)) s <|
    if !s.power.running || unitFenced s 4 port || asleep s 4 then done s
    else if !headerOk then
      done (logErr 0x0115 4 port (updSensor port (fun p => { p with eccErrors := p.eccErrors + 1 }) s) { arg0 := port })
    else match captureStream s port channel with
    | none => done (discardPacket port 0x0118 s)
    | some n => done (lineOf n port dataType payload crcOk stamp s)

/-- FRAME_END_PACKET (R203). -/
def execFrameEndPacket (port channel number : Nat) (s : State) : Res :=
  inRange (decide (port < 4 ∧ channel < 4)) s <|
    if !s.power.running || unitFenced s 4 port || asleep s 4 then done s
    else match captureStream s port channel with
    | none => done (discardPacket port 0x0118 s)
    | some n => done (closeFrame n true number s)

/-- The open frame of one stream of a port is damaged by the loss of its lane (R203). -/
def dropSync (port n : Nat) (s : State) : State :=
  match (stream? s n).bind (·.capture) with
  | none => s
  | some cap => match cap.frame with
    | some c =>
      if cap.active.port != port || c.complete then s
      else
        let s := updCapture n (fun x => { x with frame := none }) (freeChain c.head s)
        damageFrame n (if c.damaged = 0 then 0x0119 else c.damaged) c s
    | none => s

/-- DPHY_SYNC_LOSS (R203): the port resynchronises at the next Start of Transmission. -/
def execDphySyncLoss (port : Nat) (s : State) : Res :=
  inRange (decide (port < 4)) s <|
    doneIf (s.power.running && !unitFenced s 4 port && !asleep s 4) ((List.range 128).foldl (fun s n => dropSync port n s) s) s

end Sys2Proof.Machine
end

