-- ==== Sys2Proof/Machine/Topiary.lean ====
section
/-! DEFINITION. The Topiaries (R244 to R259): which frame one takes, crop lists, slots and their grant, colour, scaling and the
bytes of a slot. -/

namespace Sys2Proof.Machine

/-- The number of streams' batch id, FULLN, ages: frame `f` is ready for its Topiary when its picture is and frame n − a has
yielded its record (R245, R250). -/
def steeringReady (x : Stream) (f : Frame) : Bool :=
  f.stage == .ready && (match f.num with
    | some n => x.frames.all fun g => match g.num with
      | some m => decide (n < m + x.age) || g.stage == .formed
      | none => true
    | none => false)

/-- The ready frame of a stream that comes first. -/
def readyFrame (x : Stream) : Option Frame :=
  (sortBy (fun a b : Frame => decide (a.tzero < b.tzero)) (x.frames.filter fun f => steeringReady x f)).head?

/-- The frame that a Topiary takes: LC first, then landing stamp, then stream index (R245). -/
def topiaryChoice (s : State) (t : Nat) (lcOnly : Bool) : Option (Nat × Stream × Frame) :=
  let cands := s.streams.zipIdx.filterMap fun o => o.1.bind fun x =>
    if x.topiary = t && (isLc x || !lcOnly) then (readyFrame x).map fun f => (o.2, x, f) else none
  (sortBy (fun a b : Nat × Stream × Frame =>
    let ka := [a.2.1.cfg.cls, a.2.2.tzero, a.1]
    let kb := [b.2.1.cfg.cls, b.2.2.tzero, b.1]
    decide (ka < kb)) cands).head?

/-- BEMAXAGE in ns; 1 s where the block leaves it 0 (R284). -/
def beMaxAge (x : Stream) : Nat := (if x.cfg.beMaxAge = 0 then 1000 else x.cfg.beMaxAge) * 1000000

/-- The time test of a frame at time `t` (R284): the reason and status of its failure. -/
def timeTest (x : Stream) (f : Frame) (late : Bool) (t : Int) : Option (Nat × Nat) :=
  if isLc x then
    if (if late then decide (t ≤ deadline f) else decide (t < deadline f)) then none else some (reasonLate, 0x0324)
  else
    let from_ : Int := if late then frameRef f else f.tzero
    if t - from_ - f.shift ≤ (beMaxAge x : Int) then none else some (reasonShedBe, 0x0325)

/-- A box in 1/16 pixel: x0, y0, x1, y1. -/
abbrev Box := List Int

def boxAt (b : List Nat) (i : Nat) : Int := (b.getD i 0 : Nat)

/-- The box predicted for frame `n` from a track's newest tokens (R251). -/
def predictBox (n : Nat) (toks : List (Nat × List Nat)) : Option Box :=
  match toks with
  | [] => none
  | [(_, b)] => some ((List.range 4).map fun i => boxAt b i)
  | (f1, b1) :: (f2, b2) :: _ => some ((List.range 4).map fun i =>
      boxAt b2 i + divHalfEven ((boxAt b2 i - boxAt b1 i) * ((n : Int) - f2)) (max 1 (f2 - f1)))

/-- A crop's interval grown about its centre to at least 16 pixels and shifted inward (R251; the centre is rounded down,
DEDUCED, log 29). -/
def growSpan (lo hi size : Int) : Int × Int :=
  if 16 ≤ hi - lo then (lo, hi)
  else
    let c := (lo + hi) / 2
    let lo := c - 8
    let lo := if size < lo + 16 then size - 16 else lo
    let lo := if lo < 0 then 0 else lo
    (lo, min size (lo + 16))

/-- One direction of the crop of R251 in pixels: predicted edges in 1/16, growth, even edges, clipping; none when empty. -/
def cropSpan (a b : Int) (margin minPad size : Nat) : Option (Int × Int) :=
  let g := max (16 * (minPad : Int)) (divHalfEven ((b - a) * margin) 16)
  let lo := (a - g) / 32 * 2
  let hi := -(-(b + g) / 32) * 2
  let lo := clamp 0 size lo
  let hi := clamp 0 size hi
  if hi ≤ lo then none else some (growSpan lo hi size)

/-- The crop of a track (R251). -/
def trackCrop (x : Stream) (n w h : Nat) (toks : List (Nat × List Nat)) : Option (Int × Int × Int × Int) :=
  (predictBox n toks).bind fun b =>
    match cropSpan (b.getD 0 0) (b.getD 2 0) x.cfg.margin x.cfg.minPad w,
          cropSpan (b.getD 1 0) (b.getD 3 0) x.cfg.margin x.cfg.minPad h with
    | some (x0, x1), some (y0, y1) => some (x0, y0, x1, y1)
    | _, _ => none

/-- Area and union of rectangles. -/
def rectArea (r : Int × Int × Int × Int) : Int := (r.2.2.1 - r.1) * (r.2.2.2 - r.2.1)
def rectUnion (a b : Int × Int × Int × Int) : Int × Int × Int × Int :=
  (min a.1 b.1, min a.2.1 b.2.1, max a.2.2.1 b.2.2.1, max a.2.2.2 b.2.2.2)

/-- Add a rectangle to the ROI list: the first crop whose union with it grows little enough takes it (R252). -/
def addRoi (r : Int × Int × Int × Int) : List (Int × Int × Int × Int) → List (Int × Int × Int × Int)
  | [] => [r]
  | c :: l =>
    let u := rectUnion c r
    if rectArea u * 4 ≤ (rectArea c + rectArea r) * 5 then u :: l else c :: addRoi r l

/-- The tracks of the steering state for frame `n` (R22, R250): none for frames before the age. -/
def steering (x : Stream) (n : Nat) : List (Nat × List (Nat × List Nat)) :=
  if n < x.age then []
  else match x.steers.find? fun e => decide (e.1 + x.age ≤ n) with
    | some e => e.2
    | none => []

/-- Width and height of a frame's picture (R216, R200, R420). -/
def pictureSize (x : Stream) (f : Frame) : Nat × Nat :=
  match f.sps with
  | some v => (v.width, v.height)
  | none => match f.set with
    | some c => (c.width, c.height)
    | none => (x.cfg.maxW, x.cfg.maxH)

/-- The crop list of a frame, and the track count where the ROI list overflows (R252, R253). -/
def cropList (x : Stream) (f : Frame) : List Crop × Option Nat :=
  let n := f.num.getD 0
  let (w, h) := pictureSize x f
  let tracks := steering x n
  let rois := (tracks.filterMap fun t => trackCrop x n w h t.2).foldl (fun l r => addRoi r l) []
  let excess := decide (x.cfg.cmax < rois.length)
  let rois := if excess then [] else rois
  let full := excess || n % max 1 x.cfg.fullN == 0 || decide (n < x.age) || tracks.isEmpty
  let crop (r : Int × Int × Int × Int) : Crop :=
    { full := false, x := r.1.toNat, y := r.2.1.toNat, w := (r.2.2.1 - r.1).toNat, h := (r.2.2.2 - r.2.1).toNat }
  let whole : Crop := { full := true, x := 0, y := 0, w := w, h := h }
  ((if full then [whole] else []) ++ rois.map crop,
   if excess then some tracks.length else none)

/-- The event of an ADAPTER adoption (R434). -/
def adapterEvent (v : Nat) (d : BitVec 64) : Event := { kind := 0x0012, status := 0, data := leBytes 4 v ++ leBytes 8 d.toNat }

/-- A stream adopts a candidate (R269). -/
def adopt (c : Candidate) (x : Stream) : Stream :=
  { x with adapter := { version := x.adapter.version + 1, codes := c.codes, digest := c.digest } }

/-- The adoptions that take effect with a frame, in order (R269): in AUTO the gated candidates, in HOLD those whose T the frame has
reached, by T. -/
def dueAdoptions (x : Stream) (stamp : Nat) : List Candidate :=
  x.autoAdopt ++
    (sortBy (fun a b : Nat × Candidate => decide (a.1 < b.1)) (x.adoptFrom.filter fun a => decide (a.1 ≤ stamp))).map (·.2)

/-- A stream adopts candidates one after the other (R269): the stream, and the events of the adoptions. -/
def adoptAll (x : Stream) (cs : List Candidate) : Stream × List Event :=
  cs.foldl (fun y c => (adopt c y.1, y.2 ++ [adapterEvent (y.1.adapter.version + 1) c.digest])) (x, [])

/-- The adoptions of a frame take effect, and the frame takes the adapter (R269). -/
def adoptFor (n : Nat) (f : Frame) (s : State) : State :=
  match stream? s n with
  | none => s
  | some x =>
    let (y, es) := adoptAll x (dueAdoptions x f.stamp)
    let s := updStream n (fun x => { x with
      adapter := y.adapter, autoAdopt := [], adoptFrom := x.adoptFrom.filter fun a => decide (f.stamp < a.1) }) s
    updFrame n f.id (fun f => { f with
      taken := true, aver := y.adapter.version, adapter := y.adapter.codes, events := f.events ++ es }) s

/-- The frame takes no slot: it has no crop, and its record has no object (DEDUCED, log 29). -/
def bareFrame (n id : Nat) (s : State) : State :=
  freeFrame n id (updFrame n id (fun f => { f with stage := .detected, store := none }) s)

/-- A Topiary starts on a frame (R245, R250 to R253, R284). -/
def takeFrame (t n : Nat) (x : Stream) (f : Frame) (s : State) : State :=
  match timeTest x f false (nowNs s) with
  | some (r, st) => freeFrame n f.id (updFrame n f.id (fun f => { decide1 r st f with store := none }) s)
  | none =>
    let (crops, excess) := cropList x f
    let s := adoptFor n f s
    let more : List Event := match excess with
      | some k => [{ kind := 0x0016, status := 0x0303, data := leBytes 4 k }]
      | none => []
    let s := updFrame n f.id (fun f => { f with crops := crops, stage := .cropping, events := f.events ++ more }) s
    if crops.isEmpty then bareFrame n f.id s
    else updTopiary t (fun u => { u with
      cur := some { stream := n, frame := f.id, be := !isLc x, asked := true, granted := false } }) s

/-- TOPIARY_TAKE (R245): an LC frame goes before the BE frame in work, which is suspended and resumed when no LC frame is
ready. -/
def execTopiaryTake (topiary : Nat) (s : State) : Res :=
  match s.topiaries[topiary]? with
  | none => done s
  | some u =>
    if islandFenced s (9 + topiary) || asleep s (9 + topiary) || !s.power.running then done s
    else match u.cur with
    | some j =>
      if j.be && u.suspended.isNone then
        match topiaryChoice s topiary true with
        | some (n, x, f) =>
          done (takeFrame topiary n x f (updTopiary topiary (fun u => { u with cur := none, suspended := u.cur }) s))
        | none => done s
      else done s
    | none => match topiaryChoice s topiary u.suspended.isSome with
      | some (n, x, f) => done (takeFrame topiary n x f s)
      | none => done (updTopiary topiary (fun u => { u with cur := u.suspended, suspended := none }) s)

/-- The bell of a batch id that comes `later` bells after its next one (R275). -/
def nextBell (s : State) (b later : Nat) : Option Nat :=
  match s.score.batches[b]? with
  | none => none
  | some x =>
    if x.period = 0 then (bellsAhead s b)[later]?
    else
      let from_ := max (nowNs s) (match x.lastBell with | some t => t + 64 | none => 0)
      let first := s.score.epoch + 64 * x.firstBell
      some (first + (ceilDiv (from_ - first) (64 * x.period) + later) * (64 * x.period))

/-- The bell of the instance that a request of `k` slots would enter, and whether it can be granted now (R256). -/
def grantAt (s : State) (t b k : Nat) : Option Nat × Bool :=
  match (s.score.batches[b]?).bind (·.cur) with
  | some y =>
    if y.steered.contains t && decide (y.slots.length + k ≤ (geom s b).slots) then (nextBell s b 0, true)
    else if decide ((geom s b).slots < y.slots.length + k) then (nextBell s b 1, false)
    else (nextBell s b 0, false)
  | none => (nextBell s b 0, false)

/-- Inner width and height, and their origin in the slot (R248). -/
def innerRect (g : Geom) (cw ch : Nat) : Nat × Nat × Nat × Nat :=
  if g.fit = 1 then (g.dw, g.dh, 0, 0)
  else
    let (iw, ih) :=
      if ch * g.dw ≤ cw * g.dh then (g.dw, max 1 ((ch * g.dw + cw / 2) / max 1 cw))
      else (max 1 ((cw * g.dh + ch / 2) / max 1 ch), g.dh)
    (iw, ih, (g.dw - iw) / 2, (g.dh - ih) / 2)

/-- The slot of one crop as granted (R257). -/
def cropSlot (g : Geom) (n : Nat) (f : Frame) (i : Nat) (c : Crop) : Slot :=
  let (iw, ih, ox, oy) := innerRect g c.w c.h
  { stream := n, frame := f.num.getD 0, crop := i, rank := i, full := c.full, concealed := f.concealed, augmented := false,
    poison := false, cx := c.x, cy := c.y, cw := c.w, ch := c.h, ox := ox, oy := oy, iw := iw, ih := ih,
    aver := f.aver, epoch := 0, filled := true, written := false }

/-- A Topiary is done with its frame. -/
def freeTopiary (t : Nat) (s : State) : State := updTopiary t (fun u => { u with cur := none }) s

/-- The slots are granted (R256). -/
def grantSlots (t n : Nat) (f : Frame) (b : Nat) (s : State) : State :=
  match (s.score.batches[b]?).bind (·.cur) with
  | none => s
  | some y =>
    let g := geom s b
    let s := updBatch b y.num (fun y => { y with
      slots := y.slots ++ (f.crops.zipIdx.map fun c => cropSlot g n f c.2 c.1) }) s
    let s := updFrame n f.id (fun f => { f with slotAt := some (b, y.num, y.slots.length), stage := .waiting }) s
    updTopiary t (fun u => { u with cur := u.cur.map fun j => { j with granted := true } }) s

/-- SLOT_GRANT (R256, R284): granted while the instance is open and has room, or shed when the bell of the instance it would enter
is too late. -/
def execSlotGrant (topiary : Nat) (s : State) : Res :=
  match s.topiaries[topiary]? with
  | none => done s
  | some u => match u.cur with
    | none => done s
    | some j =>
      if j.granted then done s
      else match (stream? s j.stream).bind fun x => (frameOf x j.frame).map fun f => (x, f) with
      | none => done (freeTopiary topiary s)
      | some (x, f) =>
        let b := x.cfg.batch
        let (bell, open_) := grantAt s topiary b f.crops.length
        match bell.bind fun t => timeTest x f true t with
        | some (r, st) =>
          done (freeTopiary topiary (freeFrame j.stream f.id (updFrame j.stream f.id (fun f =>
            { decide1 r st f with crops := [], store := none }) s)))
        | none => if open_ then done (grantSlots topiary j.stream f b s) else done s

/-- A channel's value with its poison mark. -/
abbrev Sample : Type := Int × Bool

/-- A source picture as a Topiary and the clip encoder see it: size, whether its pixels are R, G, B, whether it is 4:2:0, and the
channels at a pixel, each with a poison mark (R246). -/
structure Source where
  w : Nat
  h : Nat
  rgb : Bool
  subsampled : Bool
  at_ : Nat → Nat → List Sample

/-- A sample of 9 or 10 bits of a frame store at 8 bits (R217; a 9-bit one in the same way, DESIGN CHOICE, log 211). -/
def roundStore (depth v : Nat) : Int := (min 255 ((v % 2 ^ depth + 2 ^ (depth - 9)) / 2 ^ (depth - 8)) : Nat)

/-- A 10-bit and a 12-bit sample at 8 bits (R246). -/
def round10 (v : Nat) : Int := (min 255 ((v + 2) / 4) : Nat)
def round12 (v : Nat) : Int := (min 255 ((v + 8) / 16) : Nat)

/-- The channel of a monochrome source's chroma (R246). -/
def grey : Sample := (128, false)

/-- The picture that a frame store holds (R216, R217); `byte` reads the store at an offset with its mark. -/
def storeSource (byte : Nat → Byte × Bool) (b : OpenBlock) (v : Sps) : Source :=
  let p := storePitch b
  let k := if 8 < v.depth then 2 else 1
  let sample (a : Nat) : Sample :=
    let lo := byte a
    if 8 < v.depth then
      let hi := byte (a + 1)
      (roundStore v.depth (lo.1.toNat + 256 * hi.1.toNat), lo.2 || hi.2)
    else (lo.1.toNat, lo.2)
  { w := v.width, h := v.height, rgb := false, subsampled := v.chroma == 1,
    at_ := fun px py =>
      let u := (px + v.xoff) / 2 * 2
      let row := p * storeLines b + (py + v.yoff) / 2 * p
      let y := sample ((py + v.yoff) * p + (px + v.xoff) * k)
      if v.chroma = 0 then [y, grey, grey] else [y, sample (row + u * k), sample (row + (u + 1) * k)] }

/-- Where a sample lies in a line (R199): the byte of its high bits; of a packed sample also the byte of its low bits, and its place
there. -/
structure Tap where
  high : Nat
  low : Option (Nat × Nat)
  deriving DecidableEq, Repr

/-- The samples of a pixel of a line of sensor data: Y, U and V, or R, G and B, or the one sample of a monochrome pixel (R199, R246;
the byte order of a data type is that of CSI-2, PRESUMED, log 27). -/
def lineTaps (dt px : Nat) : List Tap :=
  let p := px / 2
  match dt with
  | 0x1E => [⟨4 * p + 1 + 2 * (px % 2), none⟩, ⟨4 * p, none⟩, ⟨4 * p + 2, none⟩]
  | 0x1F => [⟨5 * p + 1 + 2 * (px % 2), some (5 * p + 4, 1 + 2 * (px % 2))⟩, ⟨5 * p, some (5 * p + 4, 0)⟩,
             ⟨5 * p + 2, some (5 * p + 4, 2)⟩]
  | 0x24 => [⟨3 * px + 2, none⟩, ⟨3 * px + 1, none⟩, ⟨3 * px, none⟩]
  | 0x2A => [⟨px, none⟩]
  | 0x2B => [⟨5 * (px / 4) + px % 4, some (5 * (px / 4) + 4, px % 4)⟩]
  | 0x2C => [⟨3 * p + px % 2, some (3 * p + 2, px % 2)⟩]
  | _ => []

/-- A sample at 8 bits (R246): RAW12 packs its low 4 bits, the other packed types their low 2. -/
def tapSample (dt : Nat) (byte : Nat → Byte × Bool) (t : Tap) : Sample :=
  let hi := byte t.high
  match t.low with
  | none => (hi.1.toNat, hi.2)
  | some (i, place) =>
    let lo := byte i
    (if dt = 0x2C then round12 (16 * hi.1.toNat + lo.1.toNat / 16 ^ place % 16) else round10 (4 * hi.1.toNat + lo.1.toNat / 4 ^ place % 4),
     hi.2 || lo.2)

/-- A byte of a chain with its mark. -/
def chainByte (r : ChainRead) (i : Nat) : Byte × Bool := (r.bytes.getD i 0, r.marks.getD i false)

/-- A monochrome pixel's channels are its sample and grey (R246). -/
def threeChannels : List Sample → List Sample
  | [y] => [y, grey, grey]
  | l => l

/-- A Belvedere frame chain (R201). -/
def captureSource (r : ChainRead) (c : CaptureSet) : Source :=
  let b := lineBytes c.dataType c.width
  { w := c.width, h := c.height, rgb := c.dataType == 0x24, subsampled := false,
    at_ := fun px py => threeChannels ((lineTaps c.dataType px).map (tapSample c.dataType fun i => chainByte r (py * b + i))) }

/-- The bytes of a host picture of a format: 0 NV12, 1 YUV422, 2 RGB888, 3 mono (R204; codes and byte order are DESIGN CHOICE,
log 27). -/
def hostBytes (format w h : Nat) : Nat :=
  match format with
  | 0 => w * h + roundUp w 2 * ceilDiv h 2
  | 1 => 2 * w * h
  | 2 => 3 * w * h
  | _ => w * h

/-- Where the samples of a pixel of a host picture lie (R204). -/
def hostTaps (format w h px py : Nat) : List Nat :=
  match format with
  | 0 =>
    let row := w * h + py / 2 * roundUp w 2
    [py * w + px, row + px / 2 * 2, row + px / 2 * 2 + 1]
  | 1 =>
    let a := py * 2 * w + 4 * (px / 2)
    [a + 1 + 2 * (px % 2), a, a + 2]
  | 2 => [3 * (py * w + px), 3 * (py * w + px) + 1, 3 * (py * w + px) + 2]
  | _ => [py * w + px]

/-- A host picture chain (R204). -/
def hostSource (r : ChainRead) (format w h : Nat) : Source :=
  { w := w, h := h, rgb := format == 2, subsampled := format == 0,
    at_ := fun px py => threeChannels ((hostTaps format w h px py).map fun i => ((chainByte r i).1.toNat, (chainByte r i).2)) }

/-- The picture that a chain of a stream without decode holds (R201, R204). -/
def chainSource (r : ChainRead) (b : OpenBlock) (sec : SourceSection) (set : Option CaptureSet) : Source :=
  match set with
  | some c => captureSource r c
  | none => match sec with
    | .hostFormat k => hostSource r k b.maxW b.maxH
    | _ => hostSource r 3 b.maxW b.maxH

/-- KY, KRV, KGU, KGV, KBU of a matrix (R246). -/
def matrixRow (m : Nat) : List Int :=
  match m with
  | 0 => [19077, 26149, -6419, -13320, 33050]
  | 1 => [19077, 29372, -3494, -8731, 34610]
  | 2 => [16384, 22970, -5638, -11700, 29032]
  | _ => [16384, 25802, -3069, -7670, 30402]

/-- The output channels of a source pixel (R246), each marked where a sample that it is written from is (R249). -/
def channels (g : Geom) (rgb : Bool) (p : List Sample) : List Sample :=
  let (a, ma) := p.getD 0 (0, false)
  let (b, mb) := p.getD 1 (0, false)
  let (c, mc) := p.getD 2 (0, false)
  let chans := g.chans % 4
  if rgb then
    if chans = 0 then [((4899 * a + 9617 * b + 1868 * c + 8192) / 2 ^ 14, ma || mb || mc)]
    else if chans = 1 then [(a, ma), (b, mb), (c, mc)] else [(c, mc), (b, mb), (a, ma)]
  else
    let limited := decide (g.matrix < 2)
    let k := matrixRow g.matrix
    let kk (i : Nat) : Int := k.getD i 0
    if chans = 0 then [(if limited then clamp 0 255 ((19077 * (a - 16) + 8192) / 2 ^ 14) else a, ma)]
    else
      let y := if limited then a - 16 else a
      let u := b - 128
      let v := c - 128
      let r : Sample := (clamp 0 255 ((kk 0 * y + kk 1 * v + 8192) / 2 ^ 14), ma || mc)
      let gg : Sample := (clamp 0 255 ((kk 0 * y + kk 2 * u + kk 3 * v + 8192) / 2 ^ 14), ma || mb || mc)
      let bb : Sample := (clamp 0 255 ((kk 0 * y + kk 4 * u + 8192) / 2 ^ 14), ma || mb)
      if chans = 1 then [r, gg, bb] else [bb, gg, r]

/-- The coefficient t of phase ph in a filter table (R247). -/
def coef (table : List Byte) (ph t : Nat) : Int := sfield table (16 * ph + 2 * t) 2

/-- Integer position and phase of output index `i` of `n` over `c` source pixels (R247). -/
def tapAt (i c n : Nat) : Int × Nat :=
  let pos : Int := ((2 * i + 1) * c * 65536 / (2 * max 1 n) : Nat) - 32768
  let k := pos / 65536
  let ph := ((pos % 65536).toNat + 1024) / 2048
  if ph = 32 then (k + 1, 0) else (k, ph)

/-- The nearest coordinate within the picture (R247). -/
def edgeClamp (v : Int) (size : Nat) : Nat := (clamp 0 ((size : Int) - 1) v).toNat

/-- One output pixel of a crop: its channels after both passes, each marked where a source byte that it is written from is (R247,
R249). -/
def scaledPixel (g : Geom) (table : List Byte) (src : Source) (k : Slot) (x y : Nat) : List Sample :=
  let (ix, px) := tapAt x k.cw k.iw
  let (iy, py) := tapAt y k.ch k.ih
  let n := if g.chans % 4 = 0 then 1 else 3
  let pix := (List.range 8).map fun (tv : Nat) => (List.range 8).map fun (th : Nat) =>
    channels g src.rgb (src.at_ (edgeClamp ((k.cx : Int) + ix - 3 + th) src.w) (edgeClamp ((k.cy : Int) + iy - 3 + tv) src.h))
  (List.range n).map fun c =>
    let chan (p : List Sample) : Sample := p.getD c (0, false)
    let rows := pix.map fun row =>
      clamp 0 2047 (((row.zipIdx.map fun e => coef table px e.2 * (chan e.1).1).sum + 32) / 64)
    (clamp 0 255 (((rows.zipIdx.map fun e => coef table py e.2 * e.1).sum + 2048) / 4096),
     pix.any fun row => row.any fun p => (chan p).2)

/-- The code of a pixel value (R249). -/
def pixelCode (g : Geom) (p : Int) : Nat :=
  if g.format = 0 then unsigned 8 (p - 128) else (min 15 ((p + 8) / 16)).toNat

/-- Format, bits and row pitch of a slot's image rows: the pitch of R95 (DEDUCED, log 29). -/
def slotFmt (g : Geom) : Nat := if g.format = 0 then 5 else 0
def slotChans (g : Geom) : Nat := if g.chans % 4 = 0 then 1 else 3
def slotRowPitch (g : Geom) : Nat := 32 * ceilDiv (g.dw * slotChans g * fmtBits (slotFmt g)) 256

/-- The tag of every row of a slot (R249). -/
def slotTag (g : Geom) : Nat := mkTag g.exp (if g.format = 0 then 0 else 8) (slotFmt g) false false 0

/-- Codes of 8 or 4 bits packed into bytes (R95). -/
def packCodes (w : Nat) (codes : List (Nat × Bool)) : List (Byte × Bool) :=
  if w = 8 then codes.map fun c => (BitVec.ofNat 8 c.1, c.2)
  else (chunks 2 codes.length codes).map fun p =>
    (BitVec.ofNat 8 ((p.getD 0 (0, false)).1 + 16 * (p.getD 1 (0, false)).1), p.any (·.2))

/-- The image of a slot, row by row: the codes of its pixels, padding outside the inner rectangle (R248, R249). `pixel` gives the
channels inside it. -/
def slotRows (g : Geom) (k : Slot) (pixel : Nat → Nat → List Sample) : List (List (Nat × Bool)) :=
  (List.range g.dh).map fun y => ((List.range g.dw).map fun x =>
    if k.ox ≤ x ∧ x < k.ox + k.iw ∧ k.oy ≤ y ∧ y < k.oy + k.ih then
      (pixel (x - k.ox) (y - k.oy)).map fun v => (pixelCode g v.1, v.2)
    else (List.replicate (slotChans g) (pixelCode g g.pad, false))).flatten

/-- The cells of a slot at its address: image rows, row tags, and of the weight block what WBLK has room for (R249, R265). -/
def slotCells (g : Geom) (base : Nat) (rows : List (List (Nat × Bool))) (weights : List Byte) : List Cell :=
  let pitch := slotRowPitch g
  let image := (rows.zipIdx.map fun r => (packCodes (fmtBits (slotFmt g)) r.1).zipIdx.map fun b =>
    ({ addr := base + r.2 * pitch + b.2, val := b.1.1, mark := b.1.2 } : Cell)).flatten
  let tags := ((List.range g.dh).map fun y => cellsAt (base + g.dh * pitch + 4 * y) (leBytes 4 (slotTag g)) false).flatten
  image ++ tags ++ cellsAt (base + g.woff) (weights.take (1024 * g.wblk)) false

/-- A slot-table entry (R257). -/
def slotEntry (k : Slot) : List Byte :=
  let flags := (if k.filled then 1 else 0) + (if k.full then 2 else 0) + (if k.concealed then 4 else 0)
    + (if k.augmented then 8 else 0) + (if k.poison then 16 else 0)
  leBytes 1 k.stream ++ leBytes 1 flags ++ leBytes 1 k.crop ++ leBytes 1 k.rank ++ leBytes 4 k.frame ++ leBytes 2 k.cx
    ++ leBytes 2 k.cy ++ leBytes 2 k.cw ++ leBytes 2 k.ch ++ leBytes 2 k.ox ++ leBytes 2 k.oy ++ leBytes 2 k.iw
    ++ leBytes 2 k.ih ++ leBytes 4 k.aver ++ leBytes 4 k.epoch

/-- The filter table of a geometry (R247). -/
def filterOf (s : State) (g : Geom) : List Byte := match s.pkg with | some p => p.filters.getD g.filter [] | none => []

/-- The code of D = B × A at column `n`, row `k` (R265): exact, re-quantised at the column's base exponent within ±7. `codes` are
A's 8 × K codes and then B's N × 8. -/
def adaptDelta (l : AdaptLayer) (codes : List Int) (n k : Nat) : Int :=
  let a (r : Nat) : Int := codes.getD (r * l.k + k) 0
  let b (r : Nat) : Int := codes.getD (8 * l.k + n * 8 + r) 0
  let sum := ((List.range 8).map fun r => b r * a r).sum
  clamp (-7) 7 (shiftHalfEven sum (l.colExp.getD n 0 - (l.expA + l.expB)))

/-- The parameters of a layer's A and B. -/
def adaptCount (l : AdaptLayer) : Nat := 8 * l.k + 8 * l.n

/-- A byte of the block with one layer's W′ = clamp(W + D, −7, 7) (R265). -/
def adaptByte (l : AdaptLayer) (codes : List Int) (i : Nat) (b : Byte) : Byte :=
  let pitch := 32 * ceilDiv (4 * l.k) 256
  let at_ := i - l.off
  if i < l.off ∨ l.n * pitch ≤ at_ ∨ l.k ≤ 2 * (at_ % pitch) then b
  else
    let n := at_ / pitch
    let k := 2 * (at_ % pitch)
    let code (v k : Nat) : Nat :=
      if k < l.k then unsigned 4 (clamp (-7) 7 (signed 4 v + adaptDelta l codes n k)) else v
    BitVec.ofNat 8 (code (b.toNat % 16) k + 16 * code (b.toNat / 16) (k + 1))

/-- The block with every layer's adapter applied; each layer takes its own codes in turn (R265). -/
def adaptBlock : List AdaptLayer → (codes : List Int) → List Byte → List Byte
  | [], _, bs => bs
  | l :: ls, codes, bs => adaptBlock ls (codes.drop (adaptCount l)) (bs.zipIdx.map fun b => adaptByte l codes b.2 b.1)

/-- The weight block of an adapter version (R265): the base weights, or W′ of the adapter's codes. -/
def weightBlock (s : State) (version : Nat) (codes : List Int) : List Byte :=
  match s.pkg with
  | none => []
  | some p =>
    let base := match p.weights.head? with | some w => w.2.take p.weightBlock | none => []
    if version = 0 then base else adaptBlock p.adaptLayers codes base

/-- Update one slot of an instance. -/
def updSlot (b n i : Nat) (f : Slot → Slot) (s : State) : State := updBatch b n (fun y => { y with slots := upd y.slots i f }) s

/-- A slot is not filled and counts as written (R259, R358). -/
def maskSlots (b n first count : Nat) (s : State) : State :=
  checkFill b n ((List.range count).foldl (fun s i => updSlot b n (first + i) (fun k =>
    if k.written then k else { k with filled := false, written := true }) s) s)

/-- A frame fails at its Topiary after its grant: its slots are masked and it yields a skip record (R358). -/
def failFrame (t n : Nat) (f : Frame) (reason status : Nat) (s : State) : State :=
  let s := match f.slotAt with
    | some (b, i, first) => maskSlots b i first f.crops.length s
    | none => s
  freeTopiary t (freeFrame n f.id (updFrame n f.id (fun f => { decide1 reason status f with store := none }) s))

/-- The windows that Quinbuar sets for the reader of a frame store of a stream (R303). -/
def frameWindows (x : Stream) (i : Nat) : List (Nat × Nat) := [(storeAt x i, storeSize x.cfg)]

/-- What a frame's chain holds for its Topiary: the source, or the reason of R358 and the cell that fails its check. -/
def frameSource (s : State) (x : Stream) (f : Frame) : Except (Nat × Nat) Source :=
  let r := readChain chainFuel f.head s
  match r.bad with
  | some c => .error (if f.facts.isSome then reasonFault else reasonDamaged, c)
  | none => match f.sps, f.store with
    | some v, some i => .ok (storeSource (fun a => windowedByte s (frameWindows x i) (storeAt x i + a)) x.cfg v)
    | _, _ => .ok (chainSource r x.cfg x.sec f.set)

/-- The class of a Topiary's access to an address (R273, R321): its real-time port in the real-time region, else that of the stream. -/
def topiaryClass (t : Nat) (x : Stream) (a : Nat) : ReqClass :=
  if regionOf a = .dramRealTime then .realTime (9 + t) else if isLc x then .lc else .be

/-- The address ranges that a Topiary reads for a crop of a frame store (R216, R247): of each line of luma and chroma that its taps take,
the bytes that they take. -/
def cropReads (x : Stream) (v : Sps) (base : Nat) (k : Slot) : List (Nat × Nat) :=
  let p := storePitch x.cfg
  let wide := if 8 < v.depth then 2 else 1
  let x0 := k.cx - 3 + v.xoff
  let x1 := min (k.cx + k.cw + 4) v.width + v.xoff
  let y0 := k.cy - 3 + v.yoff
  let y1 := min (k.cy + k.ch + 4) v.height + v.yoff
  let chroma := base + p * storeLines x.cfg
  ((List.range (y1 - y0)).map fun j => (base + (y0 + j) * p + x0 * wide, (x1 - x0) * wide)) ++
    (if v.chroma = 0 then [] else (List.range ((y1 + 1) / 2 - y0 / 2)).map fun j =>
      (chroma + (y0 / 2 + j) * p + x0 / 2 * 2 * wide, (x1 - x0 / 2 * 2 + 1) / 2 * 2 * wide))

/-- What reading a frame for a crop leaves behind (R305, R308, R356). -/
def noteSource (t n : Nat) (x : Stream) (f : Frame) (k : Slot) (s : State) : State :=
  readingFor (.frame n f.id) (fun s =>
    let s := noteChain (landClass s x (9 + t)) f.head s
    match f.sps, f.store with
    | some v, some i =>
      ((cropReads x v (storeAt x i) k).filter fun r => inWindow (frameWindows x i) r.1 r.2).foldl (fun s r => unitRead (topiaryClass t x r.1) r.1 r.2 s) s
    | _, _ => s) s

/-- The samples that the sample cache may take (R260). -/
def cacheWants (x : Stream) (f : Frame) : Bool :=
  x.adapterSlot.isSome && (f.num.getD 0) % max 1 x.cfg.cstride == 0 && !f.concealed

/-- One slot of a frame is written (R246 to R249, R257). -/
def writeSlot (t n : Nat) (x : Stream) (f : Frame) (b num i : Nat) (k : Slot) (src : Source) (s : State) : State :=
  let g := geom s b
  let rows := slotRows g k (scaledPixel g (filterOf s g) src k)
  let mark := rows.any fun r => r.any (·.2)
  let k := { k with poison := mark, written := true }
  let base := geomArea g num + i * g.spitch
  let cells := slotCells g base rows (weightBlock s f.aver f.adapter)
  let s := writing (topiaryLane t) (writePhys .lc (cells ++ cellsAt (geomTable g num + 32 + 32 * i) (slotEntry k) false)) s
  let s := updSlot b num i (fun _ => k) s
  let s := poisonFrame n k.frame mark s
  let s := updFrame n f.id (fun f => { f with
    samples := if cacheWants x f then f.samples ++ [(k, cells.map (·.val))] else f.samples }) s
  let more := match getBatch s b num with
    | some y => y.slots.any fun z => z.stream == n && z.frame == k.frame && !z.written
    | none => false
  let s := checkFill b num s
  if more then s
  else freeTopiary t (freeFrame n f.id (updFrame n f.id (fun f => stamp 2 (nowNs s) { f with store := none }) s))

/-- SLOT_WRITE_COMPLETE (R256): the next granted slot of the frame is written. -/
def execSlotWriteComplete (topiary : Nat) (s : State) : Res :=
  match s.topiaries[topiary]? with
  | none => done s
  | some u => match u.cur with
    | none => done s
    | some j => match (stream? s j.stream).bind fun x => (frameOf x j.frame).map fun f => (x, f) with
      | none => done (freeTopiary topiary s)
      | some (x, f) => match f.slotAt with
        | none => done s
        | some (b, num, first) =>
          match frameSource s x f with
          | .error (r, c) => done (failFrame topiary j.stream f r 0x0640 (logErr 0x0640 (9 + topiary) 0 s { stream := j.stream, arg0 := c }))
          | .ok src =>
            match (getBatch s b num).bind fun y =>
              (y.slots.zipIdx.find? fun k => decide (first ≤ k.2 ∧ k.2 < first + f.crops.length) && !k.1.written) with
            | some (k, i) => done (writeSlot topiary j.stream x f b num i k src (noteSource topiary j.stream x f k s))
            | none => done (freeTopiary topiary s)

/-- A Topiary island is reset (R259): each frame in progress on it is FAULT, its unfinished slots are masked. -/
def resetTopiary (t : Nat) (s : State) : State :=
  match s.topiaries[t]? with
  | none => s
  | some u =>
    let jobs := u.cur.toList ++ u.suspended.toList
    let s := jobs.foldl (fun s j => match getFrame s j.stream j.frame with
      | some f => failFrame t j.stream f reasonFault 0x0309 s
      | none => s) s
    updTopiary t (fun _ => { cur := none, suspended := none }) s

end Sys2Proof.Machine
end

