-- ==== Sys2Proof/Machine/Training.lean ====
section
/-! DEFINITION. The sample cache, Spinel generators and scene adaptation (R260 to R270). -/

namespace Sys2Proof.Machine

/-- One Spinel draw (R262). -/
def spinel (seed key : BitVec 64) (j : Nat) : BitVec 64 :=
  let x := seed + key * 0x9E3779B97F4A7C15#64 + BitVec.ofNat 64 (j + 1) * 0xD1B54A32D192ED03#64
  let x := (x ^^^ (x >>> 30)) * 0xBF58476D1CE4E5B9#64
  let x := (x ^^^ (x >>> 27)) * 0x94D049BB133111EB#64
  x ^^^ (x >>> 31)

/-- The key of a sample in an epoch (R262). -/
def spinelKey (stream epoch frame crop : Nat) : BitVec 64 :=
  BitVec.ofNat 64 (stream * 2 ^ 57 + epoch * 2 ^ 41 + frame % 2 ^ 32 * 2 ^ 8 + crop % 2 ^ 8)

/-- An integer drawn uniformly from [lo, hi] (R262). -/
def spinelRange (draw : BitVec 64) (lo hi : Int) : Int :=
  lo + ((draw >>> 32).toNat * (hi - lo + 1) / 2 ^ 32)

/-- The bytes that a cache entry takes of a quota. -/
def sampleBytes (l : List CachedSample) : Nat := (l.map fun x => x.bytes.length).sum

/-- A job, pending or running, references a sample (R261, R266). -/
def sampleUsed (s : State) (x : CachedSample) : Bool :=
  (s.trainPending ++ s.trainRunning.toList).any fun j =>
    j.stream == x.stream && j.samples.contains (x.frame, x.slot.crop)

/-- The samples of a stream in the cache. -/
def streamSamples (s : State) (n : Nat) : List CachedSample := s.samples.filter fun x => x.stream == n

/-- Evict the stream's oldest frames that no job references until `need` more bytes fit a quota (R261): whether they fit; what has
been evicted stays so. -/
def evictSamples (n quota need : Nat) : (fuel : Nat) → State → Bool × State
  | 0, s => (false, s)
  | fuel + 1, s =>
    let mine := streamSamples s n
    if sampleBytes mine + need ≤ quota then (true, s)
    else
      let frames := (mine.map (·.frame)).eraseDups
      let free := frames.filter fun f => !(mine.any fun x => x.frame == f && sampleUsed s x)
      match free.min? with
      | none => (false, s)
      | some f => evictSamples n quota need fuel { s with samples := s.samples.filter fun x => !(x.stream == n && x.frame == f) }

/-- A committed frame's slots enter the cache with their pseudo-labels (R260, R261). -/
def cacheFrame (n : Nat) (f : Frame) (labels : List (List Byte)) (s : State) : State :=
  match stream? s n with
  | none => s
  | some x =>
    if f.samples.isEmpty || f.concealed || f.poison.isSome then s
    else
      let new := f.samples.map fun p =>
        ({ stream := n, frame := f.num.getD 0, slot := p.1, bytes := p.2, labels := labels } : CachedSample)
      let (fits, s) := evictSamples n (x.cfg.cquota * 2 ^ 20) (sampleBytes new) ((streamSamples s n).length + 1) s
      if fits then { s with samples := s.samples ++ new }
      else updStream n (fun x => { x with cacheSkipped := x.cacheSkipped + 1 }) s

/-- A newer trigger has replaced a pending job of its stream (R266). The error log reports it, with the trigger frame, under a status
that the manual does not give (DESIGN CHOICE, log 182). -/
def reportSuperseded (n : Nat) (s : State) : State :=
  match s.trainPending.find? fun j => j.stream == n with
  | some j => logErr Config.supersededStatus 1 0 s { stream := n, arg0 := j.trigger }
  | none => s

/-- A committed frame that triggers a training job (R266): its snapshot is what the cache holds of frames up to it, its start the
adapter that the frame itself used. A newer trigger replaces a pending one. -/
def triggerJob (n num : Nat) (f : Frame) (s : State) : State :=
  match stream? s n with
  | none => s
  | some x =>
    if x.adapterSlot.isNone || x.quarantined || x.cfg.adaptN = 0 || num % x.cfg.adaptN != 0 then s
    else
      let old := (streamSamples s n).filter fun y => decide (y.frame ≤ num)
      let job : TrainJob := { stream := n, trigger := num, version := f.aver, start := f.adapter,
                              samples := old.map fun y => (y.frame, y.slot.crop), since := steadyNs s }
      let s := reportSuperseded n s
      { s with trainPending := (s.trainPending.filter fun j => j.stream != n) ++ [job] }

/-- TRAINING_JOB_START (R266): one job at a time, the oldest trigger first. -/
def execTrainingJobStart (s : State) : Res :=
  match s.trainRunning, (sortBy (fun a b : TrainJob => decide (a.since < b.since)) s.trainPending).head? with
  | none, some j =>
    doneIf (scoreRuns s && s.power.update.switching.isNone)
      { s with trainRunning := some j, trainPending := s.trainPending.erase j } s
  | _, _ => done s

/-- The batch id that trains, by its geometry (R254). -/
def trainingBatch (s : State) : Option Nat :=
  (List.range 64).find? fun b => (geom s b).kind == 1 && (geom s b).slots != 0

/-- A pixel value of a slot's code (R249; of the A4u code the value is its step, DESIGN CHOICE, log 30). -/
def codePixel (g : Geom) (code : Nat) : Int := if g.format = 0 then signed 8 code + 128 else 16 * (code : Int)

/-- The bytes of a slot's row as its Topiary wrote them (R95, R249). -/
def slotRowBytes (g : Geom) : Nat := ceilDiv (g.dw * slotChans g * fmtBits (slotFmt g)) 8

/-- The code of channel `c` at pixel (x, y) of a slot's bytes, in the geometry they were written in. -/
def slotCode (g : Geom) (bytes : List Byte) (x y c : Nat) : Nat :=
  let e := x * slotChans g + c
  let a := y * slotRowBytes g
  if g.format = 0 then (bytes.getD (a + e) 0).toNat
  else (bytes.getD (a + e / 2) 0).toNat / 16 ^ (e % 2) % 16

/-- The augmented pixel of a replayed sample that was written in the geometry `src` (R263): flip, jitter, photometric, for a slot of
`g`; an uncovered pixel is PAD. -/
def augmented (src g : Geom) (x : Stream) (k : CachedSample) (key : BitVec 64) (px py : Nat) : List Sample :=
  let seed := BitVec.ofNat 64 x.cfg.seed
  let d (j : Nat) : BitVec 64 := spinel seed key j
  let dx := spinelRange (d 1) (-x.cfg.jitter) x.cfg.jitter
  let dy := spinelRange (d 2) (-x.cfg.jitter) x.cfg.jitter
  let b := spinelRange (d 3) (-x.cfg.bmax) x.cfg.bmax
  let c := spinelRange (d 4) (-x.cfg.cmaxP) x.cfg.cmaxP
  let sx := (px : Int) - dx
  let sy := (py : Int) - dy
  let photo (p : Int) : Int := clamp 0 255 (128 + b + divHalfEven ((p - 128) * (256 + c)) 256)
  (List.range (slotChans g)).map fun ch =>
    if 0 ≤ sx ∧ sx < k.slot.iw ∧ 0 ≤ sy ∧ sy < k.slot.ih then
      let u := if (d 0).getLsbD 63 then k.slot.iw - 1 - sx.toNat else sx.toNat
      (photo (codePixel src (slotCode src k.bytes (k.slot.ox + u) (k.slot.oy + sy.toNat) ch)), false)
    else (photo g.pad, false)

/-- The cells of a training slot and its table entry, in the buffer of instance `num` (R255, R263); its weight block is that of the
adapter that the job starts from (R265, R272). -/
def trainingCells (s : State) (b num : Nat) (x : Stream) (j : TrainJob) (epoch : Nat) (k : CachedSample) (i : Nat) :
    List Cell × List Cell :=
  let g := geom s b
  let key := spinelKey k.stream epoch k.frame k.slot.crop
  let rows := slotRows g k.slot (augmented (geom s x.cfg.batch) g x k key)
  let entry := slotEntry { k.slot with augmented := true, epoch := epoch, filled := true }
  (slotCells g (geomArea g num + i * g.spitch) rows (weightBlock s j.version j.start), cellsAt (geomTable g num + 32 + 32 * i) entry false)

/-- The slot table of a training instance before its slots are written (R257): every entry's FLAGS are 0, the header names the instance,
its fill count and, in place of a bell, the current beat (DESIGN CHOICE, log 213). -/
def trainingTable (s : State) (g : Geom) (num fill : Nat) : List Cell :=
  cellsAt (geomTable g num) (tableHeader num fill (curBeat s)) false
    ++ ((List.range g.slots).map fun i => cellsAt (geomTable g num + 33 + 32 * i) [0] false).flatten

/-- One minibatch, an instance of the training batch id: its slots are written, and every parameter takes its update (R257, R267). -/
def trainStep (b : Nat) (x : Stream) (j : TrainJob) (epoch : Nat) (batch : List CachedSample) (st : State × Nat × List Int) :
    State × Nat × List Int :=
  let (s, num, theta) := st
  let slots := batch.zipIdx.map fun k => (k.1, trainingCells s b num x j epoch k.1 k.2)
  let data := slots.map fun k => (k.2.1.map (·.val), k.1.labels)
  let s := writing noLane (writePhys .be (trainingTable s (geom s b) num batch.length)) s
  (slots.foldl (fun s k => writing noLane (writePhys .be (k.2.1 ++ k.2.2)) s) s, num + 1, theta.zipIdx.map fun p =>
    satS 16 (p.1 - shiftHalfEven (Config.gradient (pkgid s) data theta p.2) x.cfg.lr))

/-- The order of the training set in an epoch (R267): ascending draw at j = 15, ties to the lower key. -/
def trainOrder (x : Stream) (epoch : Nat) (l : List CachedSample) : List CachedSample :=
  let key (k : CachedSample) : BitVec 64 := spinelKey k.stream epoch k.frame k.slot.crop
  let draw (k : CachedSample) : Nat := (spinel (BitVec.ofNat 64 x.cfg.seed) (key k) 15).toNat
  sortBy (fun a b => decide (draw a < draw b) || (draw a == draw b && decide ((key a).toNat < (key b).toNat))) l

/-- The epochs of a job from its starting codes (R267); the instances of its minibatches are numbered on. -/
def trainEpochs (b : Nat) (x : Stream) (j : TrainJob) (set : List CachedSample) :
    (n e : Nat) → State × Nat × List Int → State × Nat × List Int
  | 0, _, st => st
  | n + 1, e, st =>
    let order := trainOrder x e set
    let batches := chunks (max 1 (geom st.1 b).slots) order.length order
    trainEpochs b x j set n (e + 1) (batches.foldl (fun st l => trainStep b x j e l st) st)

/-- The digest of a candidate (R147, R268). -/
def adapterDigest (codes : List Int) : BitVec 64 := ((codes.map fun c => leBytes 2 (unsigned 16 c)).flatten).foldl crc64Byte 0

/-- The zero adapter of a package (R264). -/
def zeroAdapter (s : State) : List Int :=
  match s.pkg with
  | some p => List.replicate ((p.adaptLayers.map adaptCount).sum) 0
  | none => []

/-- A candidate that passed its gate (R269): adopted in AUTO, reported in HOLD. -/
def offerCandidate (n : Nat) (c : Candidate) (s : State) : State :=
  match stream? s n with
  | none => s
  | some x =>
    if x.hold then
      addNotice { status := 0x0311, stream := n, result := c.trigger % 2 ^ 32 + c.digest.toNat % 2 ^ 32 * 2 ^ 32 }
        (updStream n (fun x => { x with candidate := some c }) s)
    else updStream n (fun x => { x with autoAdopt := x.autoAdopt ++ [c] }) s

/-- The candidate passes its gate (R268). -/
def gatePasses (s : State) (x : Stream) (val : List CachedSample) (start theta : List Int) : Bool :=
  let loss (a : List Int) : Int := (val.map fun k => Config.validationLoss (pkgid s) a k.bytes k.labels).sum
  decide (max 1 x.cfg.vmin ≤ val.length) && decide (loss theta * 1024 ≤ loss start * (1024 - (x.cfg.gmargin : Int)))

/-- What a job makes of its snapshot (R255, R267, R268): the machine with its training slots written and the id's instances counted on,
and the candidate's codes. -/
def runTraining (b : Nat) (x : Stream) (j : TrainJob) (train : List CachedSample) (s : State) : State × List Int :=
  let first := match s.score.batches[b]? with | some y => y.next | none => 0
  let start := if j.start.isEmpty then zeroAdapter s else j.start
  let (s, next, theta) := trainEpochs b x j train (max 1 x.cfg.epochs) 1 (s, first, start)
  (updScore (fun c => { c with batches := upd c.batches b fun y => { y with next := next } }) s, theta)

/-- TRAINING_JOB_COMPLETE (R267 to R270): an update pauses the job. -/
def execTrainingJobComplete (s : State) : Res :=
  match s.trainRunning with
  | none => done s
  | some j =>
    if s.power.update.switching.isSome then done s
    else match stream? s j.stream, trainingBatch s with
    | some x, some b =>
      let set := s.samples.filter fun k => k.stream == j.stream && j.samples.contains (k.frame, k.slot.crop)
      let val := set.filter fun k => k.frame % 8 == 7
      let start := if j.start.isEmpty then zeroAdapter s else j.start
      let (s, theta) := runTraining b x j (set.filter fun k => k.frame % 8 != 7) s
      let c : Candidate := { trigger := j.trigger, codes := theta, digest := adapterDigest theta }
      let s := updStream j.stream (fun x => { x with newestDigest := c.digest, newestTrigger := c.trigger })
        { s with trainRunning := none }
      if gatePasses s x val start theta then done (offerCandidate j.stream c s)
      else done (addNotice { status := 0x0305, stream := j.stream, result := j.trigger } s)
    | _, _ => done { s with trainRunning := none }

end Sys2Proof.Machine
end

