-- ==== Sys2Proof/Machine/Service.lean ====
section
/-! DEFINITION. Streams as the host commands them (R163, R185, R213, R215, R244, R254, R264, R277, R278, R415, R419 to R422):
open with its admission, close, settings, statistics. -/

namespace Sys2Proof.Machine

/-- The fields of a STREAM_OPEN block (R420). -/
def openBlock (b : List Byte) : OpenBlock where
  source := field b 0x00 1
  cls := field b 0x01 1
  batch := field b 0x02 1
  pool := field b 0x03 1
  period := field b 0x04 4
  maxW := field b 0x08 2
  maxH := field b 0x0A 2
  depth := field b 0x0C 1
  dpb := field b 0x0D 1
  cmax := field b 0x0E 1
  fullN := field b 0x0F 1
  peakPix := field b 0x10 4
  peakBits := field b 0x14 4
  margin := field b 0x18 1
  minPad := field b 0x19 1
  missMax := field b 0x1A 1
  modes := field b 0x1B 1
  maxTracks := field b 0x1C 2
  tp := field b 0x1E 1
  preroll := field b 0x1F 1
  xperiod := field b 0x20 2
  xdelay := field b 0x22 2
  beMaxAge := field b 0x24 2
  wr := field b 0x26 1
  idle := field b 0x27 1
  seed := field b 0x28 8
  cquota := field b 0x30 4
  cstride := field b 0x34 1
  epochs := field b 0x35 1
  adaptN := field b 0x36 2
  jitter := field b 0x38 1
  bmax := field b 0x39 1
  cmaxP := field b 0x3A 1
  lr := field b 0x3B 1
  plMin := field b 0x3C 2
  plHits := field b 0x3E 2
  vmin := field b 0x40 2
  gmargin := field b 0x42 2

/-- MODES (R420). -/
def wantsTracking (b : OpenBlock) : Bool := bitAt b.modes 3
def wantsAdaptation (b : OpenBlock) : Bool := bitAt b.modes 4

/-- Sources whose pictures a Fountain decodes (R420). -/
def codedSource (k : Nat) : Bool := k == 0 || k == 1 || k == 3

/-- The ranges of the block's fields that hold for every stream (R190, R212, R215, R251 to R254, R284, R420). -/
def commonRanges (b : OpenBlock) : Bool :=
  decide (b.source ≤ 4 ∧ b.cls ≤ 1 ∧ b.batch < 64 ∧ b.pool < 8) && decide (16 ≤ b.maxW ∧ b.maxW ≤ 4096)
    && decide (16 ≤ b.maxH ∧ b.maxH ≤ 2304) && (b.depth == 8 || b.depth == 10) && decide (1 ≤ b.fullN ∧ b.wr ≤ 8)
    && decide (b.margin ≤ 64 ∧ b.idle ≤ 60 ∧ b.preroll ≤ 60)
    && (b.beMaxAge == 0 || decide (100 ≤ b.beMaxAge ∧ b.beMaxAge ≤ 10000))
    && (b.xdelay == 0 || decide (100 ≤ b.xdelay ∧ b.xdelay ≤ 10000)) && decide (b.modes < 64)

/-- The ranges of the fields for compressed streams, which hold whatever SOURCE is (R212, R215, R420). -/
def codedRanges (b : OpenBlock) : Bool :=
  decide (1 ≤ b.dpb ∧ b.dpb ≤ 16 ∧ b.peakPix ≤ 566231040 ∧ b.peakBits ≤ 300000000)

/-- The ranges of the fields for tracking, whether or not MODES asks for it (R158, R173, R176, R420). -/
def trackRanges (b : OpenBlock) : Bool :=
  decide (1 ≤ b.missMax ∧ 1 ≤ b.maxTracks ∧ b.maxTracks ≤ 1024 ∧ 1 ≤ b.tp ∧ 1 ≤ b.xperiod)

/-- The ranges of the fields for adaptation, whether or not MODES asks for it (R260, R263, R266 to R268, R420). -/
def adaptRanges (b : OpenBlock) : Bool :=
  decide (1 ≤ b.cstride ∧ 1 ≤ b.epochs ∧ b.epochs ≤ 16 ∧ 64 ≤ b.adaptN ∧ b.jitter ≤ 32 ∧ b.bmax ≤ 64 ∧
    b.cmaxP ≤ 128 ∧ b.lr ≤ 31 ∧ 1 ≤ b.vmin ∧ b.vmin ≤ 4096 ∧ b.gmargin ≤ 512)

/-- The width rule of a data type (R199). -/
def widthRule (dt w : Nat) : Bool :=
  match dt with
  | 0x1E => w % 2 == 0
  | 0x1F => w % 2 == 0
  | 0x24 => true
  | 0x2A => true
  | 0x2B => w % 4 == 0
  | 0x2C => w % 2 == 0
  | _ => false

/-- A capture set in range (R198 to R200). -/
def captureOk (c : CaptureSet) (lanes laneRate : Nat) : Bool :=
  decide (c.port < 4 ∧ c.channel < 4 ∧ 16 ≤ c.width ∧ c.width ≤ 4096 ∧ 16 ≤ c.height ∧ c.height ≤ 2304) &&
    widthRule c.dataType c.width && decide (1 ≤ lanes ∧ lanes ≤ 4 ∧ 80000000 ≤ laneRate ∧ laneRate ≤ 2500000000)

/-- The lane order names each of a port's lanes once, and each has its polarity (R198). -/
def laneOrderOk (lanes : Nat) (order : List Nat) (polarity : List Bool) : Bool :=
  order.length == lanes && (List.range lanes).all (order.contains ·) && polarity.length == lanes

/-- An address of an IP family. -/
def addressOk (a : List Byte) : Bool := a.length == 4 || a.length == 16

/-- The section agrees with SOURCE and its fields are in range (R188, R200, R204, R420; the host format codes 0 NV12, 1 YUV422,
2 RGB888, 3 mono, 4 H.264, 5 HEVC are DESIGN CHOICE, log 27). -/
def sectionOk (source : Nat) (sec : SourceSection) : Bool :=
  match sec with
  | .rtsp transport port url _ _ => source == 0 && decide (transport ≤ 2 ∧ port ≤ 1 ∧ url.length ≤ 1024)
  | .rtpFlow port vlan dst dport src ssrc pt _ =>
    source == 1 && decide (port ≤ 1 ∧ dport < 65536 ∧ pt < 128) && addressOk dst
      && (match vlan with | some v => decide (v < 4096) | none => true)
      && (match src with | some a => a.length == dst.length | none => true)
      && (match ssrc with | some v => decide (v < 2 ^ 32) | none => true)
  | .belvedere port channel dt w h lanes rate order polarity =>
    source == 2 && captureOk { port := port, channel := channel, dataType := dt, width := w, height := h } lanes rate
      && laneOrderOk lanes order polarity
  | .hostFormat k => (source == 3 && (k == 4 || k == 5)) || (source == 4 && decide (k ≤ 3))

/-- Every field of the block in the range of its rule (R420). -/
def openRanges (bs : List Byte) (b : OpenBlock) (sec : SourceSection) : Bool :=
  commonRanges b && codedRanges b && trackRanges b && adaptRanges b && field bs 0x44 4 == 0 && sectionOk b.source sec

/-- A pool that lies wholly in the real-time region (R185). -/
def poolRealTime (s : State) (q : Nat) : Bool :=
  match s.pools[q]? with
  | some p => decide (0 < p.size ∧ 0x1C00000000 ≤ p.base ∧ p.base + 256 * p.size ≤ 0x2000000000)
  | none => false

/-- Cells that a stream's account holds beside pre-roll (R185, R216, R338): its ingest queue and its picture cells; for host
pictures the three held and the one queued (R204). -/
def streamCells (b : OpenBlock) (c : Option CaptureSet) (sec : SourceSection) : Nat :=
  ingestCells b c + (if codedSource b.source then b.dpb + 4 else 0) +
    (match sec with
     | .hostFormat k => if b.source = 4 then 4 * cellsOf (hostBytes k b.maxW b.maxH) else 0
     | _ => 0)

/-- Cells that the quotas of accounts 0 to 254 leave in a pool (R338). -/
def quotaRoom (s : State) (q : Nat) : Nat :=
  match s.pools[q]? with
  | some p => p.size - 1 - p.floor - ((p.quota.filter fun x => decide (x.1 < 255)).map (·.2)).sum
  | none => 0

/-- The flow entry of a section (R188, R420). -/
def sectionFlow (sec : SourceSection) : Option Flow :=
  match sec with
  | .rtpFlow port vlan dst dport src ssrc pt hevc =>
    some { port := port, vlan := vlan, dst := dst, dport := dport, src := src, ssrc := ssrc, payloadType := pt, hevc := hevc }
  | _ => none

/-- The codec that a section names (R420); an RTSP session's comes with its description (R193). -/
def sectionHevc (sec : SourceSection) : Bool :=
  match sec with
  | .rtpFlow _ _ _ _ _ _ _ hevc => hevc
  | .hostFormat k => k == 5
  | _ => false

/-- The capture set of a section (R200, R420). -/
def sectionCapture (sec : SourceSection) : Option CaptureSet :=
  match sec with
  | .belvedere port channel dt w h _ _ _ _ => some { port := port, channel := channel, dataType := dt, width := w, height := h }
  | _ => none

/-- Lanes and lane rate of a section. -/
def sectionLanes (sec : SourceSection) : Nat × Nat :=
  match sec with
  | .belvedere _ _ _ _ _ lanes rate _ _ => (lanes, rate)
  | _ => (0, 0)

/-- The load of a capture set, in bits of a frame (R200). -/
def captureBits (c : CaptureSet) : Nat := (lineBytes c.dataType c.width + 6) * 8 * c.height

/-- The sum of fractions of bits over period, as a fraction. -/
def sumLoads (l : List (Nat × Nat)) : Nat × Nat := l.foldl (fun a x => (a.1 * x.2 + x.1 * a.2, a.2 * x.2)) (0, 1)

/-- The port of a capture set cannot carry it (R200): the sum over the port's streams exceeds 0.9 × lanes × lane rate. -/
def portOverloaded (s : State) (n : Nat) (c : CaptureSet) (period lanes rate : Nat) : Bool :=
  let others := s.streams.zipIdx.filterMap fun x => if x.2 = n then none else x.1.bind fun y => y.capture.bind fun d =>
    if d.active.port = c.port then some (captureBits d.active, max 1 y.cfg.period) else none
  let t := sumLoads ((captureBits c, max 1 period) :: others)
  decide (9 * lanes * rate * t.2 < t.1 * 1000000000 * 10)

/-- A sensor port that some stream captures from. -/
def portBusy (s : State) (p : Nat) : Bool :=
  (s.streams.filterMap id).any fun y => match y.capture with | some d => d.active.port == p | none => false

/-- Lanes and lane rate of the port of a capture set (R200): as the port runs, or as the section sets a port that no stream captures from
(DESIGN CHOICE, log 212). -/
def portLanes (s : State) (c : CaptureSet) (sec : SourceSection) : Nat × Nat :=
  match s.sensors[c.port]? with
  | some p => if portBusy s c.port then (p.lanes, p.laneRate) else sectionLanes sec
  | none => sectionLanes sec

/-- A section sets up a port that no stream captures from (R198). -/
def setPort (sec : SourceSection) (s : State) : State :=
  match sec with
  | .belvedere port _ _ _ _ lanes rate order polarity =>
    if portBusy s port then s
    else updSensor port (fun p => { p with lanes := lanes, laneRate := rate, laneOrder := order, polarity := polarity }) s
  | _ => s

/-- A channel of a port that another stream captures, or a fifth stream on a port (R198). -/
def channelTaken (s : State) (n : Nat) (c : CaptureSet) : Bool :=
  s.streams.zipIdx.any fun x => x.2 != n && (match x.1.bind (·.capture) with
    | some d => d.active.port == c.port && d.active.channel == c.channel
    | none => false)

/-- Multicast groups of a port have room for an address (R186). -/
def groupRoom (s : State) (port : Nat) (a : List Byte) : Bool :=
  match s.eth[port]? with
  | some e => (e.groups.any fun g => g.1 == a) || decide (e.groups.length < 128)
  | none => false

/-- The ingest checks of an open (R185, R186, R188, R200), with the status of the first that fails. -/
def ingestStatus (s : State) (n : Nat) (b : OpenBlock) (sec : SourceSection) : Nat :=
  let c := sectionCapture sec
  if !poolRealTime s b.pool then 0x0109
  else if quotaRoom s b.pool < streamCells b c sec then 0x0108
  else match sectionFlow sec, c with
    | some f, _ =>
      if isMulticast f.dst && !groupRoom s f.port f.dst then 0x0106 else if flowTaken s n f then 0x0101 else 0
    | none, some c =>
      let (lanes, rate) := portLanes s c sec
      if channelTaken s n c then 0x0002 else if portOverloaded s n c b.period lanes rate then 0x011A else 0
    | none, none => 0

/-- The lowest-numbered Fountain with capacity (R213). -/
def pickFountain (s : State) (b : OpenBlock) : Option Nat :=
  (List.range 4).find? fun k =>
    let mine := (s.streams.filterMap id).filter fun x => x.fountain == some k
    (match s.islands[5 + k]? with | some i => !i.bootFenced | none => false)
      && decide ((mine.map fun x => x.cfg.peakPix).sum + b.peakPix ≤ 2000000000)
      && decide ((mine.map fun x => x.cfg.peakBits).sum + b.peakBits ≤ 800000000)

/-- The lowest-numbered Topiary with capacity (R244). -/
def pickTopiary (s : State) (b : OpenBlock) : Option Nat :=
  (List.range 4).find? fun k =>
    let mine := (s.streams.filterMap id).filter fun x => x.topiary == k
    (match s.islands[9 + k]? with | some i => !i.bootFenced | none => false)
      && decide (3 * ((mine.map fun x => x.cfg.peakPix).sum + b.peakPix) ≤ 2 * 3000000000)

/-- Where frame stores lie (R215, R296; the bounds within each region are DESIGN CHOICE, log 8). -/
def storeSpan (s : State) (lc : Bool) : Nat × Nat :=
  let size (n : Nat) : Nat := (0x100000000 - 0x800000) * n
  if lc then (0x1C80000000, 0x1C00000000 + size (liveChans s true).length)
  else (0x1100000000, min 0x1400000000 (0x1000000000 + size (liveChans s false).length))

/-- The lowest place for `need` bytes beside what is used. -/
def firstFit (lo hi need : Nat) (used : List (Nat × Nat)) : Option Nat :=
  ((lo :: used.map fun u => u.1 + u.2).filter fun c => decide (lo ≤ c ∧ c + need ≤ hi) &&
    used.all fun u => decide (u.1 + u.2 ≤ c) || decide (c + need ≤ u.1)).min?

/-- The DRAM that frame stores of streams and of clips take (R215, R234). -/
def storesTaken (s : State) : List (Nat × Nat) :=
  ((s.streams.filterMap id).filterMap fun x => if x.stores = 0 then none else some (x.storeBase, x.stores * storeSize x.cfg))
    ++ (s.clips.filterMap id).filterMap fun c => if c.stores = 0 then none else some (c.storeBase, c.stores * storeSize c.cfg)

/-- The base for a stream's frame stores (R215). -/
def pickStores (s : State) (b : OpenBlock) : Option Nat :=
  let (lo, hi) := storeSpan s (b.cls == 0)
  firstFit lo hi ((b.dpb + 4) * storeSize b) (storesTaken s)

/-- The codec checks of an open (R213, R215, R233, R421). -/
def codecStatus (s : State) (b : OpenBlock) (sec : SourceSection) : Nat :=
  if codedSource b.source then
    if (pickFountain s b).isNone then 0x0204
    else if (pickStores s b).isNone then 0x0201
    else if quotaRoom s b.pool < streamCells b (sectionCapture sec) sec + prerollCells b then 0x0222
    else 0
  else if b.preroll ≠ 0 then 0x0221
  else 0

/-- MiB of the sample cache that no quota takes (R260, R261). -/
def cacheRoom (s : State) : Nat := s.power.ledger.cacheMiB - ((s.streams.filterMap id).map fun x => x.cfg.cquota).sum

/-- Adapter slots in use, and the lowest free one (R264). -/
def slotsTaken (s : State) : List Nat := (s.streams.filterMap id).filterMap (·.adapterSlot)
def freeAdapter (s : State) : Option Nat :=
  match s.pkg with
  | some p => (List.range p.adaptSlots).find? fun i => !(slotsTaken s).contains i
  | none => none

/-- The pipeline checks of an open (R244, R254, R261, R264); those that need a package are made when one is resident. -/
def pipelineStatus (s : State) (b : OpenBlock) : Nat :=
  let g := geom s b.batch
  if (pickTopiary s b).isNone then 0x0301
  else if s.pkg.isSome && (g.slots == 0 || g.kind != 0 || g.cls != b.cls || decide (g.slots ≤ b.cmax)) then 0x0302
  else if cacheRoom s < b.cquota then 0x0304
  else match s.pkg with
    | some p =>
      if !wantsAdaptation b then 0 else if !p.adapts then 0x0307 else if (freeAdapter s).isNone then 0x0306 else 0
    | none => 0

/-- Frames that a stream's tracks reserve (R163). -/
def trackFrames (s : State) (b : OpenBlock) (ppages : Nat) : Nat :=
  if wantsTracking b then (kvLayers s * kvGran s + 1) * (ppages + b.tp) * b.maxTracks else 0

/-- The Aviary's check of an open (R163). -/
def reserveOpen (s : State) (n : Nat) (b : OpenBlock) : Option State := reserve n (trackFrames s b 0) (b.cls == 1) s

/-- The checks of STREAM_OPEN in the order of R419: ingest, codec, pipeline, Aviary, scheduling; those of R277 come behind a session's own
checks where the stream has one. -/
def openStatus (s : State) (n : Nat) (bs : List Byte) (sec : SourceSection) : Nat :=
  let b := openBlock bs
  let firstOf (l : List Nat) : Nat := (l.find? (· != 0)).getD 0
  if (stream? s n).isSome then 0x0007
  else if !openRanges bs b sec then 0x0002
  else firstOf [ingestStatus s n b sec, codecStatus s b sec, pipelineStatus s b,
    if 16384 < seqsTaken s + seqDemand b then 0x0502 else 0, if (reserveOpen s n b).isNone then 0x0503 else 0, if b.source = 0 then 0 else admission s b]

/-- A depacketiser at open. -/
def freshRtp (f : Option Flow) (now : Nat) : Rtp :=
  { flow := f, ssrc := none, expected := none, released := none, cut := none, pieces := [], discarded := 0, late := 0, missingMarker := 0,
    lastArrival := now }

/-- An RTSP client at open; a flow without a session counts as playing (R194). -/
def freshRtsp (sec : SourceSection) (now : Nat) (cmd : Option (Nat × Nat)) : Rtsp :=
  let (phase, transport, port) := match sec with
    | .rtsp t p _ _ _ => (RtspPhase.idle, t, p)
    | .rtpFlow p _ _ _ _ _ _ _ => (RtspPhase.playing, 0, p)
    | _ => (RtspPhase.idle, 0, 0)
  { phase := phase, transport := transport, port := port, url := hostUrl sec, auth := none, media := none, redirects := 0, timeout := 60, getParameter := false, lastSent := now,
    attempts := 0, retryAt := 0, reportsLeft := 0, reportAt := 0, rtcpAt := now, openCmd := cmd }

/-- A capture side at open (R202). -/
def freshCapture (c : CaptureSet) : Capture :=
  { active := c, shadow := c, pending := none, frame := none, events := [], missingEnd := 0 }

/-- The decode mode of a code (R222). -/
def decodeMode (k : Nat) : DecodeMode :=
  match k with
  | 0 => .contain
  | 1 => .startup
  | 2 => .test
  | _ => .recovery

/-- An adapter at version 0 (R264). -/
def zeroVersion (s : State) : Adapter := { version := 0, codes := zeroAdapter s, digest := adapterDigest (zeroAdapter s) }

def noCounts : Counts :=
  { served := 0, delayed := 0, late := 0, shedBe := 0, refused := 0, damaged := 0, concealed := 0, fault := 0, widened := 0 }

/-- A stream as it opens (R218, R281, R420). -/
def freshStream (s : State) (b : OpenBlock) (sec : SourceSection) (cmd : Option (Nat × Nat)) : Stream where
  cfg := b
  sec := sec
  fountain := if codedSource b.source then pickFountain s b else none
  topiary := (pickTopiary s b).getD 0
  age := steeringAge b.period
  adapterSlot := if wantsAdaptation b then freeAdapter s else none
  adapter := zeroVersion s
  candidate := none
  adoptFrom := []
  autoAdopt := []
  hold := bitAt b.modes 5
  credit := 5 * b.period
  prevStamp := none
  creditStep := 0
  nextId := 0
  nextNum := 0
  frames := []
  rtp := freshRtp (sectionFlow sec) (steadyNs s)
  rtsp := freshRtsp sec (steadyNs s) cmd
  capture := (sectionCapture sec).map freshCapture
  dec := freshDecoder (sectionHevc sec) (decodeMode (bits b.modes 0 2))
  modeChange := none
  analyseConcealed := bitAt b.modes 2
  storeBase := if codedSource b.source then (pickStores s b).getD 0 else 0
  stores := if codedSource b.source then b.dpb + 4 else 0
  quarantined := false
  faultRun := 0
  counts := noCounts
  shedSince := 0
  refusedSince := 0
  overloadAt := none
  nextTrack := 1
  committed := none
  steers := []
  lastOutcome := none
  links := []
  gallery := []
  commits := []
  bindings := []
  pgen := 0
  context := none
  ring := []
  formed := []
  nextEmit := 0
  ringDrops := 0
  nextEvents := []
  cacheSkipped := 0
  newestDigest := 0
  newestTrigger := 0
  closing := false

/-- Set the entry of a stream. -/
def putStream (n : Nat) (o : Option Stream) (s : State) : State := { s with streams := s.streams.set n o }

/-- What an open reserves (R163, R185, R233, R338). -/
def reserveStream (n : Nat) (b : OpenBlock) (sec : SourceSection) (s : State) : State :=
  let cells := streamCells b (sectionCapture sec) sec + prerollCells b
  let s := updPool b.pool (fun p => { p with quota := tabPut n cells p.quota }) s
  (reserveOpen s n b).getD s

/-- The front-end islands that a new stream needs (R489). -/
def streamIslands (x : Stream) : List Nat :=
  (x.fountain.toList.map (5 + ·)) ++ [9 + x.topiary] ++ (if x.cfg.source ≤ 1 then [3] else if x.cfg.source = 2 then [4] else [])

/-- Wake what a stream needs. -/
def wakeFor (n : Nat) (s : State) : State :=
  match stream? s n with
  | some x => (streamIslands x).foldl (fun s i => wakeIsland i s) s
  | none => s

/-- A stream opens (R277, R420): its reservations, its record, its empty histories (R140); it wakes its units (R489). -/
def openStream (n : Nat) (b : OpenBlock) (sec : SourceSection) (cmd : Option (Nat × Nat)) (s : State) : State :=
  let s := wakeFor n <| putStream n (some (freshStream s b sec cmd)) (reserveStream n b sec (setPort sec s))
  let s := updTrellis (fun t => { t with closedLinks := t.closedLinks.filter fun c => c.1 != n }) s
  let s := clearHistories 0 n s
  match sec with
  | .rtsp _ _ _ _ _ => rtspSend n .options rtspOptions s
  | .rtpFlow port _ dst _ src _ _ _ => if isMulticast dst then (joinGroup n port dst src.toList s).getD s else s
  | .belvedere _ _ _ _ _ _ _ _ _ => s
  | .hostFormat _ => s

/-- STREAM_OPEN (R277, R420): an RTSP stream's command ends with its session's first PLAY, refusal or loss (DEDUCED, log 23). -/
def execStreamOpen (q cid : Nat) (sec : SourceSection) (s : State) : Res :=
  runCommand q cid { streamRow 0x20 0 with block := true, minPlen := 0x48 } (fun c s =>
    let n := arg c 0 1
    let bs := paramBlock s c
    let b := openBlock bs
    let st := openStatus s n bs sec
    if st ≠ 0 then endCmd c st s
    else if b.source = 0 then openStream n b sec (some (q, cid)) s
    else
      let s := openStream n b sec none s
      okCmd c (match stream? s n with | some x => openResult x | none => 0) s) s

/-- A prompt slot that no stream binds and no frame in work uses is free again (R180). -/
def releasePrompt (p : Nat) (s : State) : State :=
  match s.aviary.prompts.getD p none with
  | none => s
  | some x =>
    if (s.streams.filterMap id).any fun y => (y.bindings.any fun b => b.2 == some p)
        || y.frames.any fun f => f.prompt == some p && f.stage != .formed then s
    else
      let s := match x.seq with | some q => endSeq q s | none => s
      unreserve (384 + p) (updAviary (fun a => { a with prompts := a.prompts.set p none }) s)

/-- The bindings that no frame from timestamp `t` on can read are gone, and so are prompts that nothing binds (R180). -/
def pruneBindings (n t : Nat) (s : State) : State :=
  match stream? s n with
  | none => s
  | some x =>
    let past := x.bindings.filter fun b => decide (b.1 ≤ t)
    let old := past.take (past.length - 1)
    let s := updStream n (fun x => { x with bindings := x.bindings.drop old.length }) s
    (old.filterMap (·.2)).foldl (fun s p => releasePrompt p s) s

/-- Every sequence that a stream owns ends (R161, R294). -/
def endStreamSeqs (n : Nat) (s : State) : State :=
  ((s.aviary.seqs.filter fun x => x.2.stream == n && x.2.kind != .prompt).map (·.1)).foldl (fun s q => endSeq q s) s

/-- The commands of a stream end with it (R415). -/
def endStreamCmds (n : Nat) (s : State) : State :=
  (s.mbx.cmds.filter fun c => cmdStream c == some n && !(c.opc == 0x20 && c.started) && c.opc != 0x23).foldl
    (fun s c => endCmd c (if c.opc = 0x21 && c.started then 0 else 0x0006) s) s

/-- A stream is gone: chains, reservations, sequences, samples, jobs, units (R161, R163, R196, R233, R261, R270, R285). -/
def removeStream (n : Nat) (x : Stream) (s : State) : State :=
  let heads := (x.frames.map (·.head)) ++ (x.ring.map fun r => r.head)
    ++ (match x.capture.bind (·.frame) with | some f => [f.head] | none => [])
  let s := heads.foldl (fun s h => freeChain h s) s
  let s := sendClosed n x (leaveGroups n (endStreamSeqs n s))
  let s := unreserve n (unreserve (128 + n) (unreserve (256 + n) s))
  let s := updPool x.cfg.pool (fun p => { p with quota := tabDel n p.quota }) s
  let s := updAviary (fun a => { a with journals := a.journals.filter fun j => j.stream != n }) s
  let s := { s with
    samples := s.samples.filter fun k => k.stream != n
    trainPending := s.trainPending.filter fun j => j.stream != n
    trainRunning := s.trainRunning.filter fun j => j.stream != n
    clips := s.clips.map fun o => o.map fun c => if c.stream = n then { c with lastLanded := true } else c }
  let s := endStreamCmds n (putStream n none s)
  ((x.bindings.filterMap (·.2)).eraseDups).foldl (fun s p => releasePrompt p s) s

/-- A stream whose close has begun is gone once its frames have yielded their records (R415). -/
def finishClose (n : Nat) (s : State) : State :=
  match stream? s n with
  | some x => if x.closing && x.frames.isEmpty then removeStream n x s else s
  | none => s

/-- A refused session's stream is gone (R193). -/
def closeRefused (n : Nat) (s : State) : State :=
  match stream? s n with
  | some x => removeStream n x s
  | none => s

/-- A close begins (R415): ingest ends, and what has not completed ingest is dropped. -/
def beginClose (n : Nat) (s : State) : State :=
  match stream? s n with
  | none => s
  | some x =>
    let s := if x.cfg.source = 0 && x.rtsp.phase == .playing then emit (.rtspRequest n (rtspRequestOf x rtspTeardown)) s else s
    let s := match x.capture.bind (·.frame) with | some f => if f.complete then s else freeChain f.head s | none => s
    let s := updStream n (fun x => { x with
      closing := true, rtp := { x.rtp with flow := none, pieces := [] }, rtsp := { x.rtsp with phase := .failed },
      capture := none }) (leaveGroups n s)
    finishClose n s

/-- STREAM_CLOSE (R415): it ends once every frame that has landed has yielded its record. -/
def execStreamClose (q cid : Nat) (s : State) : Res :=
  runCommand q cid (streamRow 0x21 0) (fun c s =>
    let n := arg c 0 1
    if (stream? s n).isNone then endCmd c 0x0005 s else beginClose n s) s

/-- A command of a row on an open stream: 0x0005 without one (R419). -/
def streamCommand (q cid : Nat) (r : CmdRow) (work : HostCmd → Nat → Stream → State → State) (s : State) : Res :=
  runCommand q cid r (fun c s =>
    match stream? s (arg c 0 1) with
    | none => endCmd c 0x0005 s
    | some x => work c (arg c 0 1) x s) s

/-- SET_DECODE_MODE (R222, R419): at the first access unit not yet started; a stream without decode takes it at once. -/
def execSetDecodeMode (q cid : Nat) (s : State) : Res :=
  streamCommand q cid (streamRow 0x22 1) (fun c n x s =>
    let v := arg c 8 8
    if 3 < v then endCmd c 0x0002 s
    else if isCoded x then updStream n (fun x => { x with modeChange := some (decodeMode v, q, cid) }) s
    else okCmd c 0 (updDecoder n (fun d => { d with mode := decodeMode v }) s)) s

/-- SET_ANALYSE_CONCEALED (R228, R419). -/
def execSetAnalyseConcealed (q cid : Nat) (s : State) : Res :=
  streamCommand q cid (streamRow 0x22 2) (fun c n _ s =>
    let v := arg c 8 8
    if 1 < v then endCmd c 0x0002 s else okCmd c 0 (updStream n (fun x => { x with analyseConcealed := v == 1 }) s)) s

/-- SET_CAPTURE_SET (R200, R202, R419): into the shadow set; a second commit before the adoption replaces the first, and both
commands end at the adoption. -/
def execSetCaptureSet (q cid : Nat) (sec : SourceSection) (s : State) : Res :=
  streamCommand q cid { streamRow 0x22 3 with block := true, minPlen := 1 } (fun c n x s =>
    match x.capture, sectionCapture sec with
    | some old, some new =>
      let (lanes, rate) := sectionLanes sec
      if !captureOk new lanes rate || channelTaken s n new then endCmd c 0x0002 s
      else if portOverloaded s n new x.cfg.period (portLanes s new sec).1 (portLanes s new sec).2 then endCmd c 0x011A s
      else
        let s := setPort sec s
        let cmds := (match old.pending with | some (_, l) => l | none => []) ++ [(q, cid)]
        updCapture n (fun k => { k with shadow := new, pending := some (steadyNs s, cmds) }) s
    | _, _ => endCmd c 0x0002 s) s

/-- LIFT_QUARANTINE (R293, R419). -/
def execLiftQuarantine (q cid : Nat) (s : State) : Res :=
  streamCommand q cid (streamRow 0x22 4) (fun c n _ s =>
    okCmd c 0 (updStream n (fun x => { x with quarantined := false, faultRun := 0 }) s)) s

/-- The links of a STREAM_SET block (R419): 16 entries, 0xFFFF for none (DESIGN CHOICE, log 38). -/
def linkEntries (bs : List Byte) : List Nat := ((List.range 16).map fun i => field bs (2 * i) 2).filter (· != 0xFFFF)

/-- The GALLERY sequence of a stream with links (R152, R163): its reservation and its id, or the status that refuses it. -/
def galleryFor (n : Nat) (x : Stream) (s : State) : Except Nat State :=
  let has := s.aviary.seqs.any fun y => y.2.kind == .gallery && y.2.stream == n
  if has then .ok s
  else match freeSeq s (pendingSeqs s), reserve (256 + n) (64 * (kvLayers s * kvGran s + 1)) (!isLc x) s with
    | none, _ => .error 0x0502
    | _, none => .error 0x0503
    | some q, some s => .ok (updAviary (fun a => { a with seqs := tabPut q (emptySeq .gallery n) a.seqs }) s)

/-- The GALLERY sequence of a stream ends with its last link. -/
def dropGallery (n : Nat) (s : State) : State :=
  let qs := (s.aviary.seqs.filter fun y => y.2.kind == .gallery && y.2.stream == n).map (·.1)
  unreserve (256 + n) (qs.foldl (fun s q => endSeq q s) s)

/-- SET_LINKS (R176, R419). -/
def execSetLinks (q cid : Nat) (s : State) : Res :=
  streamCommand q cid { streamRow 0x22 5 with block := true, minPlen := 32 } (fun c n x s =>
    let es := (linkEntries (paramBlock s c)).map fun v => (v / 256, v % 256)
    if es.any fun e => decide (6 ≤ e.1 ∨ 128 ≤ e.2) then endCmd c 0x0002 s
    else
      let keep (s : State) : State := okCmd c 0 (updStream n (fun x => { x with
        links := es, gallery := x.gallery.filter fun g => es.contains (g.chip, g.stream),
        commits := x.commits.filter fun k => es.contains (k.1, k.2.1) }) s)
      if es.isEmpty then keep (dropGallery n s)
      else match galleryFor n x s with
        | .ok s => keep s
        | .error st => endCmd c st s) s

/-- SET_ADAPTATION_MODE (R269, R419): 0 AUTO, 1 HOLD. -/
def execSetAdaptationMode (q cid : Nat) (s : State) : Res :=
  streamCommand q cid (streamRow 0x22 6) (fun c n _ s =>
    let v := arg c 8 8
    if 1 < v then endCmd c 0x0002 s else okCmd c 0 (updStream n (fun x => { x with hold := v == 1 }) s)) s

/-- The 128 bytes of STREAM_STATS (R422). -/
def statsBytes (x : Stream) : List Byte :=
  let k := x.counts
  padTo 128 (([k.served, k.delayed, k.late, k.shedBe, k.refused, k.damaged, k.concealed, k.fault, k.widened].map (leBytes 8)).flatten
    ++ leBytes 4 x.adapter.version ++ leBytes 8 x.newestDigest.toNat ++ leBytes 4 x.newestTrigger ++ leBytes 8 x.ringDrops)

/-- STREAM_STATS (R422). -/
def execStreamStats (q cid : Nat) (s : State) : Res :=
  streamCommand q cid { streamRow 0x23 0 with resultSize := fun _ _ => 128 } (fun c _ x s => bufCmd c 0 (statsBytes x) s) s

/-- RTSP_RESPONSE (R193). -/
def execRtspResponse (stream : Nat) (r : RtspResponse) (s : State) : Res :=
  match s.streams[stream]? with
  | none => done s
  | some none => done s
  | some (some x) =>
    let waits := x.rtsp.phase == .options || x.rtsp.phase == .describe || x.rtsp.phase == .setup || x.rtsp.phase == .play
    doneIf (s.power.running && x.cfg.source == 0 && waits) (rtspAdvance stream x r closeRefused s) s

/-- SOURCE_LOST (R194): an open that still waits passes the tests of R277 first. -/
def execSourceLost (stream : Nat) (cause : LostCause) (s : State) : Res :=
  match s.streams[stream]? with
  | none => done s
  | some none => done s
  | some (some x) =>
    let due := match cause with
      | .idle => x.rtsp.phase == .playing && decide (x.rtp.lastArrival + idleNs x ≤ steadyNs s)
      | .bye => x.rtsp.phase == .playing
      | .keepAlive => x.cfg.source == 0
    doneIf (s.power.running && due && decide (x.cfg.source ≤ 1) && x.rtsp.phase != .lost && x.rtsp.phase != .failed)
      (if refusesOpen s stream x then refuseOpen stream x closeRefused s else loseStream stream 0 0 false s) s

/-- NAL units of an Annex B byte stream with their marks (R204): the zero bytes `z` are pending, `cur` is the unit in progress, last byte
first. -/
def annexB : (z : List (Byte × Bool)) → (cur : Option (List (Byte × Bool))) → List (Byte × Bool) → List (List (Byte × Bool))
  | _, cur, [] => (cur.map List.reverse).toList
  | z, cur, b :: l =>
    if b.1 = 0 then annexB (b :: z) cur l
    else if b.1 = 1 ∧ 2 ≤ z.length then (cur.map List.reverse).toList ++ annexB [] (some []) l
    else annexB [] (cur.map fun c => b :: (z ++ c)) l

/-- What a submission lands (R204, R359): the chain's bytes with their marks and whether it is a random-access picture; none when it
disagrees with the stream's declaration. -/
def submission (x : Stream) (data : List (Byte × Bool)) : Option (List (Byte × Bool) × Bool) :=
  match x.sec with
  | .hostFormat k =>
    if k = 4 ∨ k = 5 then
      let nals := (annexB [] none data).filter fun u => !u.isEmpty
      if nals.isEmpty then none
      else some ((nals.map fun u => ((leBytes 4 u.length).map fun b => (b, false)) ++ u).flatten, unitIrap (k == 5) (nals.map (·.map (·.1))))
    else if data.length = hostBytes k x.cfg.maxW x.cfg.maxH then some (data, false) else none
  | _ => none

/-- A host frame lands (R184, R205): its chain is built, or without cells it is lost or DAMAGED (R209). -/
def landSubmission (n : Nat) (x : Stream) (stamp given : Nat) (bytes : List (Byte × Bool)) (irap : Bool) (s : State) : State :=
  let t := if given = 0 then stamp else given
  let (st, h, s) := buildChain (landClass s x 4) x.cfg.pool n (bytes.map (·.1)) (bytes.map (·.2)) s
  if st = 0 then endIngest n (freshFrame 0 t stamp h bytes.length false (given != 0)) irap true s
  else if isCoded x then endIngest n (freshFrame 0 t stamp 0 bytes.length true (given != 0)) irap true s
  else
    let f := { freshFrame x.nextId t stamp 0 0 false (given != 0) with reason := reasonDamaged, status := 0x0107, stage := .skipped }
    numberFrame n x.nextId (updStream n (fun x => { x with nextId := x.nextId + 1, frames := x.frames ++ [f] }) (passFrame n t 0 s))

/-- The refusals of FRAME_SUBMIT (R204, R205, R361), 0 for none. -/
def submitStatus (s : State) (x : Stream) (bs : List Byte) (n given : Nat) (data : List (Byte × Bool)) : Nat :=
  let bufs := submitBuffers bs n
  let ecrc := s.mem.hostEcrc.any fun l => bufs.any fun b => decide (l * 64 < b.1 + b.2 ∧ b.1 < l * 64 + 64)
  if bs.length < 16 * n ∨ n = 0 ∨ 16 < n then 0x0002
  else if (List.range n).any fun i => field bs (16 * i + 12) 4 != 0 then 0x0002
  else if x.closing then 0x0005
  else if decide (3 ≤ heldFrames x) && decide (1 ≤ (queuedFrames x).length) then 0x0122
  else if given != 0 && (match x.prevStamp with | some p => decide (given ≤ p) | none => false) then 0x0120
  else if ecrc then 0x0641
  else if (submission x data).isNone then 0x0121
  else 0

/-- FRAME_SUBMIT (R204, R205, R411). -/
def execFrameSubmit (q cid : Nat) (s : State) : Res :=
  streamCommand q cid { streamRow 0x24 0 with block := true, minPlen := 16 } (fun c n x s =>
    let bs := paramBlock s c
    let k := arg c 1 1
    let bufs := submitBuffers bs k
    let data := (bufs.map fun b => hostMarked s b.1 b.2).flatten
    let st := submitStatus s x bs k (arg c 8 8) data
    if st ≠ 0 then endCmd c st s
    else match submission x data with
      | none => endCmd c 0x0121 s
      | some (bytes, irap) =>
        let s := match bufs.find? fun b => hostFails s b.1 b.2 with
          | some b => setCause (hostCause s b.1 b.2) s
          | none => s
        okCmd c 0 (landSubmission n x c.stamp (arg c 8 8) bytes irap s)) s

/-- ADAPT_ADOPT (R269): the candidate by its digest, for frames from T on; T is held against the command's receipt (R495 ruling 19). -/
def execAdaptAdopt (q cid : Nat) (s : State) : Res :=
  streamCommand q cid (streamRow 0x48 0) (fun c n x s =>
    let t := arg c 8 8
    match x.candidate with
    | some k =>
      if t < c.stamp ∨ k.digest.toNat ≠ arg c 16 8 then endCmd c 0x0308 s
      else okCmd c (x.adapter.version + x.adoptFrom.length + x.autoAdopt.length + 1)
        (updStream n (fun x => { x with candidate := none, adoptFrom := x.adoptFrom ++ [(t, k)] }) s)
    | none => endCmd c 0x0308 s) s

end Sys2Proof.Machine
end

