-- ==== Sys2Proof/Machine/Records.lean ====
section
/-! DEFINITION. Scene records (R139, R174, R282, R286, R430 to R440): a frame's commit, the forming of its record or skip
record, its emission, pin notices. -/

namespace Sys2Proof.Machine

/-- The entries of a history record with a need pushed as entry 0 (R137, R139). -/
def pushNeed (need : Int) (num : Nat) (old : List Byte) : List Byte :=
  leBytes 1 (unsigned 8 (clamp (-127) 127 need)) ++ leBytes 1 (num % 256) ++ old.take 18

/-- The rows of a frame that push: not those of a widen path at A8 (R139). -/
def pushingRows (s : State) (n num : Nat) : List Measure :=
  s.score.measures.filter fun m => m.owned && m.stream == n && m.frame == num && m.need.isSome &&
    !((residentLayer s m.layer).path == 1 && (residentLayer s m.layer).ofmt == 5)

/-- The history record that a measured row belongs to (R137, R175); none under key FIXED. -/
def rowRecord (s : State) (n : Nat) (m : Measure) : Option Nat :=
  let l := residentLayer s m.layer
  (historyKey s l n m.frameRow).map fun k => historyAt l k (m.frameRow / 2 ^ l.g)

/-- The needs of a frame's row slots, by history record, in order of first measure (R136): rows of several ops that share a record make
one push of the largest need (DESIGN CHOICE, log 202). -/
def slotNeeds (s : State) (n num : Nat) : List (Nat × Int) :=
  let rows := (pushingRows s n num).filterMap fun m => (rowRecord s n m).map fun a => (a, m.need.getD 127)
  ((rows.map (·.1)).eraseDups).map fun a =>
    (a, ((rows.filter fun r => r.1 == a).map (·.2)).foldl max (-128))

/-- The pushes of a frame (R139). -/
def pushHistories (n num : Nat) (s : State) : State :=
  (slotNeeds s n num).foldl (fun s x =>
    let old := unitBytes s x.1 18
    writePhys .control (cellsAt x.1 (pushNeed x.2 num (old.map (·.1))) (old.any (·.2))) (unitRead .control x.1 18 s)) s

/-- The gallery entry that a publication sends (R176): the track's newest token, its identity and that token's embedding, made with the
prompt that the token's frame used (R180). -/
def publishEntry (s : State) (n : Nat) (f : Frame) (q : Nat) (ended : Bool) : Option GalleryEntry :=
  match tabGet q s.aviary.seqs with
  | none => none
  | some y =>
    let t := (ownTokens y).getLast?
    let det := match t with | some t => t.det | none => 0
    let src := match t with | some t => t.frame | none => 0
    let (tag, codes) := Config.embedding (pkgid s) n src det (match t with | some t => t.prompt | none => [])
    some { chip := s.trellis.chip, stream := n, ended := ended, trackId := y.trackId, stamp := f.stamp,
           box := match t with | some t => t.box | none => [0, 0, 0, 0], gid := y.gid, tag := tag, codes := codes }

/-- A publication leaves when its frame commits (R176). -/
def publishEffect (n : Nat) (f : Frame) (q target : Nat) (ended : Bool) (s : State) : State :=
  match publishEntry s n f q ended with
  | some e => publish (target / 256) (target % 256) e s
  | none => s

/-- The effects of a journal take hold in order; what a living track publishes leaves after the tokens (R173, R174, R176). -/
def commitJournal (n num : Nat) (f : Frame) (x : Stream) (s : State) : State :=
  let es := journalOf s n num
  let s := es.foldl (fun s e => match e with
    | .publish q t true => publishEffect n f q t true s
    | e => commitEffect n num x e s) s
  es.foldl (fun s e => match e with
    | .publish q t false => publishEffect n f q t false s
    | _ => s) s

/-- The steering state that a committed frame leaves (R250, R251): per track the newest two own tokens. -/
def steerState (s : State) (n : Nat) : List (Nat × List (Nat × List Nat)) :=
  (trackList s n).map fun q => (q.2.trackId, (lastN 2 (ownTokens q.2)).map fun t => (t.frame, t.box))

/-- The track of a detection (R433): its sequence and whether it is born. -/
def objectTrack (es : List AviaryEffect) (det : Nat) : Option (Nat × Bool) :=
  es.findSome? fun e => match e with
    | .hit q d => if d = det then some (q, false) else none
    | .birth d q _ _ => if d = det then some (q, true) else none
    | _ => none

/-- An object entry (R433), from the sequence table after the commit. -/
def objectBytes (s : State) (n num : Nat) (f : Frame) (es : List AviaryEffect) (i : Nat) (d : Detection) : List Byte :=
  let t := objectTrack es i
  let y := t.bind fun t => tabGet t.1 s.aviary.seqs
  let get (f : Seq → Nat) : Nat := match y with | some y => f y | none => 0
  let oflags := flag (t == (t.map fun t => (t.1, true)) && t.isSome) 0 + flag (t == (t.map fun t => (t.1, false)) && t.isSome) 1
    + flag f.poison.isSome 2
  leBytes 4 (get (·.trackId)) ++ leBytes 8 (get (·.gid)) ++ (d.box.map (leBytes 2)).flatten ++ leBytes 2 d.score
    ++ leBytes 2 d.cls ++ leBytes 2 i ++ leBytes 2 oflags ++ leBytes 2 (get (·.hits))
    ++ leBytes 2 (min 65535 (get fun y => num - y.first)) ++ padTo 16 (Config.attributes (pkgid s) n num i (frameTokens s f))

/-- The TIMING entry as formed (R433); RECORD_EMIT fills it in. -/
def timingEntry : Event := { kind := 0x0001, status := 0, data := [] }

/-- The NUMERICS entry (R433). -/
def numericsEntry (s : State) (x : Stream) (f : Frame) : Event :=
  let v := if f.taken then f.aver else x.adapter.version
  { kind := 0x0002, status := 0, data := leBytes 4 v ++ leBytes 8 (pkgid s) ++ leBytes 2 f.widened ++ leBytes 4 f.flagged
      ++ leBytes 4 f.satAcc ++ leBytes 4 x.pgen }

/-- The HEALTH entry (R433). -/
def healthEntry (s : State) : Event :=
  let fencedAt (i : Nat) : Bool := islandFenced s i
  let owidth := packDigits 4 ((List.range 16).map fun k =>
    if fencedAt (laneIsland (orangeryLane k)) then 0xF
    else match s.orangeries[k]? with | some o => widthCode o.badColumns | none => 0xF)
  let dram := packDigits 2 (s.mem.chans.map fun c => if c.fenced then 2 else if c.conservative then 1 else 0)
  let units := packDigits 1 ((List.range 4).map fun k => flag (fencedAt (5 + k)) 0)
    + 2 ^ 4 * packDigits 1 ((List.range 4).map fun k => flag (fencedAt (9 + k)) 0)
    + 2 ^ 8 * packDigits 1 ((List.range 8).map fun k => flag (fencedAt (laneIsland (pergolaLane k))) 0)
    + 2 ^ 16 * packDigits 1 (s.trellis.links.zipIdx.map fun l =>
        flag (l.1.state == .fenced || fencedAt (linkIsland l.2)) 0)
  let banks := s.power.ledger.fencedBanks.foldl (fun v b => v + 2 ^ b) 0
  { kind := 0x0003, status := 0, data := leBytes 8 owidth ++ leBytes 4 dram ++ leBytes 4 units ++ leBytes 4 banks
      ++ leBytes 1 (unsigned 8 s.power.tj) }

/-- What the frame's capture side has to report, one entry for each status (R203). -/
def captureEvents (x : Stream) : List Event :=
  match x.capture with
  | none => []
  | some c => ((c.events.map (·.1)).eraseDups).map fun st =>
      ingestEvent st (((c.events.filter fun e => e.1 == st).map (·.2)).sum)

/-- The refused births of a journal (R173). -/
def refusedBirths (es : List AviaryEffect) : Nat :=
  (es.map fun e => match e with | .refused k => k | _ => 0).sum

/-- The events that the package's event head gives of a served frame (R434; free values, log 241). -/
def headEvents (s : State) (n : Nat) (f : Frame) : List Event :=
  (Config.eventHead (pkgid s) n (f.num.getD 0) (frameTokens s f)).map fun e =>
    { kind := 0x8000 + e.1 % 0x8000, status := 0, data := padTo 28 (e.2.take 28) }

/-- The events of a frame's record in the order of R434. -/
def recordEvents (s : State) (n : Nat) (x : Stream) (f : Frame) (served : Bool) (es : List AviaryEffect) : List Event :=
  let births := if served && refusedBirths es != 0 then
    [{ kind := 0x0013, status := 0x0501, data := leBytes 2 (refusedBirths es) ++ leBytes 2 x.cfg.maxTracks : Event }] else []
  sortBy (fun a b : Event => decide (a.kind < b.kind))
    (x.nextEvents ++ f.events ++ (if served then captureEvents x else []) ++ births ++ (if served then headEvents s n f else []))

/-- The pseudo-labels of a committed frame (R267): the entries of its objects with enough score whose track has enough hits. -/
def frameLabels (s : State) (n num : Nat) (x : Stream) (f : Frame) (es : List AviaryEffect) : List (List Byte) :=
  (f.detections.zipIdx.filter fun d =>
    decide (x.cfg.plMin ≤ d.1.score) && (match (objectTrack es d.2).bind fun t => tabGet t.1 s.aviary.seqs with
      | some y => decide (x.cfg.plHits ≤ y.hits)
      | none => false)).map fun d => objectBytes s n num f es d.2 d.1

/-- The header flags that are known when a record is formed (R431). -/
def formFlags (f : Frame) (served : Bool) : Nat :=
  flag (served && f.widened != 0) 1 + flag f.concealed 2 + flag (served && f.poison.isSome) 3
    + flag (served && f.galleryMissing) 4 + flag f.hostStamp 7

/-- The bytes of a frame's record or skip record (R430 to R434). -/
def formBytes (s : State) (n num : Nat) (x : Stream) (f : Frame) (es : List AviaryEffect) : List Byte :=
  let served := f.reason == 0
  let h : RecordHead :=
    { type := if served then 0 else 1, reason := f.reason, stream := n, frame := num, stamp := f.stamp,
      flags := formFlags f served,
      status := if served then f.poison.getD 0 else f.status,
      digest := if served then digestOf s (match s.pkg with | some p => p.recordLayer | none => 0) n num else 0 }
  let objects := if served then f.detections.zipIdx.map fun d => objectBytes s n num f es d.2 d.1 else []
  recordBytes s h objects [timingEntry, numericsEntry s x f, healthEntry s] (recordEvents s n x f served es)

/-- Count an outcome of R282 that is no record (R422). -/
def countSkip (reason : Nat) (k : Counts) : Counts :=
  if reason = reasonShedBe then { k with shedBe := k.shedBe + 1 }
  else if reason = reasonLate then { k with late := k.late + 1 }
  else if reason = reasonDamaged then { k with damaged := k.damaged + 1 }
  else if reason = reasonConcealed then { k with concealed := k.concealed + 1 }
  else if reason = reasonFault then { k with fault := k.fault + 1 }
  else if reason = reasonWidened then { k with widened := k.widened + 1 }
  else { k with refused := k.refused + 1 }

/-- The overload notice 0x0326, at most once a second for a stream (R288, R423). -/
def overloadNotice (n : Nat) (s : State) : State :=
  match stream? s n with
  | none => s
  | some x =>
    let due := match x.overloadAt with | some t => decide (t + 1000000000 ≤ steadyNs s) | none => true
    if due && (x.shedSince != 0 || x.refusedSince != 0) then
      addNotice { status := 0x0326, stream := n,
                  result := min (2 ^ 32 - 1) x.shedSince + 2 ^ 32 * min (2 ^ 32 - 1) x.refusedSince }
        (updStream n (fun x => { x with shedSince := 0, refusedSince := 0, overloadAt := some (steadyNs s) }) s)
    else s

/-- A skip record is formed: it is counted for its stream, and for the overload notice (R282, R288, R422). -/
def noteSkip (n reason : Nat) (s : State) : State :=
  let shed := reason == reasonLate || reason == reasonShedBe
  overloadNotice n (updStream n (fun x => { x with
    counts := countSkip reason x.counts
    shedSince := x.shedSince + (if shed then 1 else 0)
    refusedSince := x.refusedSince + (if reason = reasonRefused then 1 else 0) }) s)

/-- A frame commits (R139, R174, R250, R260, R266, R180): histories, then its journal, then the steering state that Topiaries
may use, its samples, its training trigger. -/
def commitFrame (n num : Nat) (x : Stream) (f : Frame) (s : State) : State :=
  let es := journalOf s n num
  let s := commitJournal n num f x (pushHistories n num s)
  let s := updStream n (fun y => { y with
    steers := ((num, steerState s n) :: y.steers).take 10, committed := some (num, f.stamp) }) s
  let s := if f.poison.isSome then s else cacheFrame n f (frameLabels s n num x f es) s
  pruneBindings n f.stamp (triggerJob n num f s)

/-- What a frame leaves when its record is formed: its measures, digests, journal and cells (R136, R148, R174). -/
def clearFrame (n num id : Nat) (s : State) : State :=
  let s := dropJournal n num (updScore (fun c => { c with
    measures := c.measures.filter fun m => !(m.owned && m.stream == n && m.frame == num),
    digests := c.digests.filter fun d => !(d.2.1 == n && d.2.2.1 == num) }) s)
  updFrame n id (fun f => { f with stage := .formed, store := none, samples := [] }) (freeFrame n id s)

/-- The batch that a frame took slots of is over (R255), so that its counts are final. -/
def batchOver (s : State) (f : Frame) : Bool :=
  match f.slotAt with
  | some (b, k, _) => (getBatch s b k).isNone
  | none => true

/-- A Topiary still works on a frame. -/
def inTopiary (s : State) (n id : Nat) : Bool :=
  s.topiaries.any fun t => (t.cur.toList ++ t.suspended.toList).any fun j => j.stream == n && j.frame == id

/-- A served frame's work is over: it has been detected, or its batch ran without a detection step (R258, R282). -/
def workOver (f : Frame) : Bool := f.stage == .detected || (f.stage == .launched && f.slotAt.isSome)

/-- A frame's record can be formed once its outcome is decided or its work is over; a served frame commits in frame order
(R139, R173). -/
def formable (s : State) (n : Nat) (x : Stream) (f : Frame) : Bool :=
  f.num.isSome && f.stage != .formed && batchOver s f && !inTopiary s n f.id &&
    (if f.reason != 0 then f.stage == .skipped
     else workOver f && x.frames.all fun g => match g.num, f.num with
       | some a, some b => decide (b ≤ a) || g.stage == .formed || g.reason != 0
       | _, _ => true)

/-- The frame whose record is formed next: the lowest number that can be. -/
def formNext (s : State) (n : Nat) (x : Stream) : Option Frame :=
  (sortBy (fun a b : Frame => decide (a.num.getD 0 < b.num.getD 0)) (x.frames.filter (formable s n x))).head?

/-- Form a frame's record (R282, R430, R440). -/
def formRecord (n num : Nat) (x : Stream) (f : Frame) (s : State) : State :=
  let es := journalOf s n num
  let t := if f.reason = 0 then commitFrame n num x f s else noteSkip n f.reason s
  let bs := formBytes t n num x f es
  let t := updStream n (fun y => { y with
    formed := insertBy (fun a b : FormedRecord => decide (a.frame < b.frame))
      { frame := num, bytes := bs, source := bs, takers := takersOf s (if f.reason = 0 then 0 else 1) (some n) 0 } y.formed
    nextEvents := []
    capture := if f.reason = 0 then y.capture.map fun c => { c with events := [] } else y.capture
    lastOutcome := some num }) t
  let t := clearFrame n num f.id t
  match f.prompt with | some p => releasePrompt p t | none => t

/-- A mark on a formed record's own bytes is logged as any other reader's (R305, R362). -/
def logRecordMark (n : Nat) (s : State) : State := logErr 0x0611 1 0 s { stream := n, poison := true }

/-- A frame whose record keeps a mark (R362). -/
def markedFrame (f : Frame) : Frame := { f with reason := reasonFault, status := 0x0611, stage := .skipped }

/-- A record is formed; where a mark of Quinbuar's own memory stands on its bytes it is formed once more from its sources, and where
the mark remains a skip record FAULT with 0x0611 takes its place (R362). What the two formings meet comes with the command (DESIGN
CHOICE, log 117). -/
def formClean (n num : Nat) (x : Stream) (f : Frame) (marked again : Bool) (s : State) : State :=
  if !marked then formRecord n num x f s
  else
    let s := logRecordMark n s
    if !again then formRecord n num x f s
    else formRecord n num x (markedFrame f) (updFrame n f.id markedFrame (logRecordMark n s))

/-- The pages outside the hot tier that a frame's commit writes or copies (R160, R162). -/
def commitWaits (s : State) (n num : Nat) (x : Stream) : List Nat :=
  coldPages s ((journalOf s n num).map fun e => match e with
    | .token q _ _ => appendPages s x.cfg.tp q 0 (kvLayers s)
    | .birth _ _ _ _ => tailPages s x.context
    | _ => []).flatten.eraseDups

/-- RECORD_FORM: a stream's next record, when the unacknowledged records with it stay within 262,144 bytes (R440); a
commit that touches a page in another tier waits for its demand fill (R162). -/
def execRecordForm (r : RecordForming) (s : State) : Res :=
  match s.streams[r.stream]? with
  | none => done s
  | some none => done s
  | some (some x) =>
    match formNext s r.stream x with
    | none => done s
    | some f =>
      let cold := if f.reason = 0 then commitWaits s r.stream (f.num.getD 0) x else []
      let t := if cold.isEmpty then formClean r.stream (f.num.getD 0) x f r.marked r.again s else cold.foldl (fun s p => wantPage p s) s
      doneIf (!islandFenced s 1 && s.power.running && !timeFrozen s && decide (unackedBytes t ≤ 262144)) t s

/-- A latency in µs as STAGES holds it (R433). -/
def stageLatency (prev cur : Nat) : Nat :=
  if cur = 0 then 0xFFFF else min 0xFFFE ((cur - prev) / 1000)

/-- The seven stage latencies of a frame (R433): each from the newest stage before it that was reached. -/
def stageLatencies : (prev : Nat) → List Nat → List Nat
  | _, [] => []
  | prev, t :: l => stageLatency prev t :: stageLatencies (if t = 0 then prev else t) l

/-- The bound after which an LC record is delayed (R286, R145). -/
def delayBound (f : Frame) : Int := (frameRef f : Int) + 40000000 + 1000 * f.widenMax + f.shift

/-- The lateness of a record emitted at `t` (R286): an LC frame that was served. -/
def lateness (x : Stream) (f : Frame) (t : Nat) : Nat :=
  if isLc x && f.reason == 0 then ((t : Int) - delayBound f).toNat else 0

/-- The TIMING data of a frame whose record is emitted at `t` (R433). -/
def timingData (x : Stream) (f : Frame) (t : Nat) : List Byte :=
  let times := stamp.padToNat 6 f.times ++ [t]
  let start := times.headD 0
  leBytes 4 (min (2 ^ 32 - 1) (t - f.tzero)) ++ leBytes 4 (if f.outReady = 0 then 0 else min (2 ^ 32 - 1) (f.outReady - f.stamp))
    ++ leBytes 4 (min (2 ^ 32 - 1) (lateness x f t))
    ++ ((stageLatencies (if start = 0 then f.tzero else min start f.tzero) times).map (leBytes 2)).flatten
    ++ leBytes 2 (min 65535 f.late)

/-- A record as emitted: its TIMING entry, its delayed flag and its trailer (R431, R433, R435). -/
def emittedBytes (x : Stream) (f : Frame) (t : Nat) (bs : List Byte) : List Byte :=
  let at_ := 32 + 48 * bits (field bs 0x14 2) 0 11 + 4
  let body := putAt (bs.take (bs.length - 4)) at_ (timingData x f t)
  sealRecord (putAt body 0x10 (leBytes 2 (field bs 0x10 2 + flag (decide (0 < lateness x f t)) 0)))

/-- A formed record's bytes as Quinbuar takes them up to send (R355, R357, R362): where their CRC-32C fails, the record is formed once more
from its sources, and where that fails too a skip record FAULT with 0x0611 takes its place. -/
def checkedRecord (s : State) (n : Nat) (x : Stream) (f : Frame) (r : FormedRecord) : List Byte × Bool :=
  if trailerOk r.bytes then (r.bytes, true)
  else if trailerOk r.source then (r.source, false)
  else (formBytes s n r.frame { x with nextEvents := [] } (markedFrame f) [], false)

/-- RECORD_EMIT: the records of a stream leave in ascending frame number (R437). Quinbuar waits for island 2 while a reset fences it; after
three retries the record is logged and dropped for its rings (R370, R428). -/
def execRecordEmit (stream : Nat) (s : State) : Res :=
  match s.streams[stream]? with
  | none => done s
  | some none => done s
  | some (some x) =>
    match x.formed.find? fun r => r.frame == x.nextEmit, frameByNum x x.nextEmit with
    | some r, some f =>
      let t := nowNs s
      let (bs, clean) := checkedRecord s stream x f r
      let f := if trailerOk r.bytes || trailerOk r.source then f else markedFrame f
      let late := decide (0 < lateness x f t)
      let base := if clean then s else logRecordMark stream s
      let sent (ts : List Taker) (s : State) : State :=
        let s' := updStream stream (fun y => { y with
          formed := y.formed.filter fun r => r.frame != x.nextEmit
          frames := y.frames.filter fun g => g.id != f.id
          nextEmit := y.nextEmit + 1
          counts := if f.reason ≠ 0 then y.counts
                    else if late then { y.counts with delayed := y.counts.delayed + 1 }
                    else { y.counts with served := y.counts.served + 1 } }) s
        let s' := emitRecord (if f.reason = 0 then 0 else 1) (some stream) x.nextEmit ts (emittedBytes x f t bs) s'
        finishClose stream (formHeld s')
      let rings := (r.takers.filter fun t => !t.udp).isEmpty
      doneIf (!islandFenced s 1 && s.power.running && !timeFrozen s)
        (if rings || s.gate.d3hot then sent r.takers base
         else quinbuarAsks (2 + stream) 2 (sent r.takers) (fun s => sent (r.takers.filter (·.udp)) (dropForRings r.takers stream s)) base) s
    | _, _ => done s

/-- The PIN_STAMP entries of a pin (R434). -/
def pinEntries (n : Nat) (p : Pin) : List Event :=
  p.stamps.map fun x => { kind := 0x0019, status := 0, data := leBytes 1 n ++ leBytes 1 (if x.1 then 1 else 2)
                            ++ leBytes 8 x.2 ++ leBytes 4 (min (2 ^ 32 - 1) p.overflow) }

/-- The notice of one pin that holds stamps (R44, R436). -/
def pinNotice (n : Nat) (s : State) : State :=
  match s.pins[n]? with
  | none => s
  | some p =>
    if p.stamps.isEmpty then s
    else noticeRecord none (2 ^ n) ((pinEntries n p).take 255) (updPin n (fun p => { p with stamps := [], firstHeld := none }) s)

/-- PIN_NOTICE: what waits of earlier notices is formed where it can be (R440), and the stamps that Quinbuar holds go out, one notice record for each pin (R436). -/
def execPinNotice (s : State) : Res :=
  doneIf (s.power.running && !islandFenced s 1 && !timeFrozen s) ((List.range 16).foldl (fun s n => pinNotice n s) (formHeld s)) s

end Sys2Proof.Machine
end

