-- ==== Sys2Proof/Machine/Clips.lean ====
section
/-! DEFINITION. The clip encoder (R231 to R241): sessions, crop and decimation, motion search, rate decisions, the coded stream and its
index. The sizes in bits of the rows that a picture's coding takes come with the command (R236 to R238 fix the tools, the standard the
bits). -/

namespace Sys2Proof.Machine

/-- The parameters of a CLIP_REQUEST block (R232). -/
structure ClipBlock where
  stream : Nat
  codec : Nat
  decim : Nat
  mode : Nat
  gop : Nat
  qinit : Nat
  qmin : Nat
  qmax : Nat
  q : Nat
  cx : Nat
  cy : Nat
  cw : Nat
  ch : Nat
  t0 : Nat
  t1 : Nat
  rate : Nat
  rmax : Nat
  rcap : Nat
  buffer : Nat
  idxAddr : Nat
  idxLen : Nat
  nbuf : Nat
  bufs : List (Nat × Nat)
  deriving DecidableEq, Repr

def clipBlock (b : List Byte) : ClipBlock where
  stream := field b 0x00 1
  codec := field b 0x01 1
  decim := field b 0x02 1
  mode := field b 0x03 1
  gop := field b 0x04 2
  qinit := field b 0x06 1
  qmin := field b 0x07 1
  qmax := field b 0x08 1
  q := field b 0x09 1
  cx := field b 0x0C 2
  cy := field b 0x0E 2
  cw := field b 0x10 2
  ch := field b 0x12 2
  t0 := field b 0x18 8
  t1 := field b 0x20 8
  rate := field b 0x28 4
  rmax := field b 0x2C 4
  rcap := field b 0x30 4
  buffer := field b 0x34 4
  idxAddr := field b 0x38 8
  idxLen := field b 0x40 4
  nbuf := field b 0x44 2
  bufs := (List.range (field b 0x44 2)).map fun i => (field b (0x50 + 16 * i) 8, field b (0x58 + 16 * i) 4)

/-- The target rate of a session: R, or RCAP in CQ (R232, R239). -/
def clipRate (k : ClipBlock) : Nat := if k.mode = 2 then k.rcap else k.rate

/-- The drain rate: R in CBR, RMAX in VBR, RCAP in CQ (R239). -/
def clipDrain (k : ClipBlock) : Nat := if k.mode = 1 then k.rmax else clipRate k

/-- B: the field, or R × 1 s where it is 0 (R232). -/
def clipBuffer (k : ClipBlock) : Nat := if k.buffer = 0 then clipRate k else k.buffer

def rateOk (v : Nat) : Bool := decide (64000 ≤ v ∧ v ≤ 200000000)

/-- The picture that a crop lies in (R231): that of the capture set or of the active SPS, else the declared one. -/
def clipPicture (x : Stream) : Nat × Nat :=
  match x.capture, x.dec.sps with
  | some c, _ => (c.active.width, c.active.height)
  | none, some v => (v.width, v.height)
  | none, none => (x.cfg.maxW, x.cfg.maxH)

/-- The fields' ranges (R231, R232, R239) for a stream of a declared picture size. -/
def clipRangesOk (x : Stream) (k : ClipBlock) (b : List Byte) : Bool :=
  let ow := k.cw / max 1 k.decim
  let oh := k.ch / max 1 k.decim
  decide (k.codec ≤ 1 ∧ k.mode ≤ 2 ∧ 1 ≤ k.gop ∧ k.gop ≤ 600) && (k.decim == 1 || k.decim == 2 || k.decim == 4)
    && decide (k.qmin ≤ k.qmax ∧ k.qmax ≤ 51 ∧ k.qmin ≤ k.qinit ∧ k.qinit ≤ k.qmax)
    && (k.mode != 2 || decide (k.qmin ≤ k.q ∧ k.q ≤ k.qmax))
    && decide (k.cx % 16 = 0 ∧ k.cy % 16 = 0 ∧ k.cw % 16 = 0 ∧ k.ch % 16 = 0)
    && decide (k.cx + k.cw ≤ (clipPicture x).1 ∧ k.cy + k.ch ≤ (clipPicture x).2)
    && decide (ow % 8 = 0 ∧ oh % 8 = 0 ∧ 64 ≤ ow ∧ 64 ≤ oh)
    && decide (k.t0 < k.t1 ∧ k.t1 - k.t0 ≤ 600000000000)
    && (if k.mode = 2 then rateOk k.rcap else rateOk k.rate)
    && (k.mode != 1 || decide (k.rate ≤ k.rmax ∧ k.rmax ≤ 200000000))
    && decide (clipRate k ≤ 4 * clipBuffer k ∧ clipBuffer k ≤ 4 * clipRate k)
    && decide (k.idxAddr % 8 = 0 ∧ 1 ≤ k.nbuf ∧ k.nbuf ≤ 64 ∧ 0x50 + 16 * k.nbuf ≤ b.length)
    && field b 0x0A 2 == 0 && field b 0x14 4 == 0 && allZero (slice b 0x46 10)
    && (List.range k.nbuf).all fun i => field b (0x5C + 16 * i) 4 == 0

/-- Output pixels of a session, and its pixel rate as a fraction over its stream's nominal period in ns, which it keeps once the stream
has closed (R231). -/
def clipPixels (cw ch d : Nat) : Nat := (cw / max 1 d) * (ch / max 1 d)
def sessionLoad (c : Clip) : Nat × Nat := (clipPixels c.cw c.ch c.decim, max 1 c.cfg.period)

/-- The encoder cannot take the session (R231). -/
def encoderFull (s : State) (x : Stream) (k : ClipBlock) : Bool :=
  let mine := (clipPixels k.cw k.ch k.decim, max 1 x.cfg.period)
  let t := sumLoads (mine :: (s.clips.filterMap id).map sessionLoad)
  decide (566200000 * mine.2 < mine.1 * 1000000000) || decide (2000000000 * t.2 < t.1 * 1000000000)

/-- The retained access units that a clip takes (R234): from the latest IRAP with a landing stamp of at most T0, or the oldest
one. -/
def clipRetained (x : Stream) (t0 : Nat) : List RingUnit :=
  let iraps := x.ring.filter fun r => r.irap
  let from_ := match (iraps.filter fun r => decide (r.tzero ≤ t0)).getLast? with
    | some r => some r.tzero
    | none => iraps.head?.map (·.tzero)
  match from_ with
  | some t => x.ring.filter fun r => decide (t ≤ r.tzero)
  | none => []

/-- A retained access unit as a clip's source. -/
def retainedSource (r : RingUnit) : ClipSource := { stamp := r.stamp, head := r.head, size := r.size, lost := r.lost, set := none }

/-- The frame stores of a clip's own decode (R234): as many as the stream's (R215; DESIGN CHOICE, log 183). -/
def clipStores (x : Stream) : Nat := if isCoded x then x.cfg.dpb + 4 else 0

/-- A session as it is accepted (R234, R239): its decode context takes the stream's decode mode and parameter sets. The fullness
starts at B / 2. No access unit is referenced behind one of stamp at least T1, a retained one included. -/
def freshClip (q cid now base : Nat) (x : Stream) (k : ClipBlock) (sources : List ClipSource) : Clip :=
  { q := q, cid := cid, stream := k.stream, hevc := k.codec == 0, decim := k.decim, rateMode := k.mode, gop := k.gop,
    qinit := k.qinit, qmin := if k.mode = 2 then k.q else k.qmin, qmax := k.qmax, cx := k.cx, cy := k.cy, cw := k.cw, ch := k.ch,
    t0 := k.t0, t1 := k.t1, rate := clipRate k, drain := clipDrain k, buffer := clipBuffer k, idxAddr := k.idxAddr,
    idxLen := k.idxLen, bufs := k.bufs, accepted := now, cfg := x.cfg, sec := x.sec, fountain := x.fountain, sources := sources,
    dec := { freshDecoder x.dec.hevc x.dec.mode with sets := x.dec.sets }, storeBase := base, stores := clipStores x, ready := [],
    reference := none, fnum := clipBuffer k * 500000000, den := 1000000000, qprev := k.qinit, coded := 0, written := 0,
    omitted := 0, firstStamp := none, lastStamp := none, endStatus := none, lastLanded := x.closing || sources.any fun y => decide (k.t1 ≤ y.stamp) }

/-- The bytes that the clip retention budget has to hold at acceptance (R234). -/
def clipNeed (x : Stream) (t0 : Nat) : Nat :=
  ((clipRetained x t0).map fun r => sourceBytes r.size none).sum + clipStores x * storeSize x.cfg

/-- The base for a clip's frame stores (R234), in the general region (R296; DESIGN CHOICE, log 183). -/
def pickClipStores (s : State) (x : Stream) : Option Nat :=
  let (lo, hi) := storeSpan s false
  firstFit lo hi (clipStores x * storeSize x.cfg) (storesTaken s)

/-- Why a clip is refused (R231, R232, R234), or 0; the budget is that of account 128 (R338; DEDUCED, log 218). -/
def clipStatus (s : State) (x : Stream) (k : ClipBlock) (b : List Byte) : Nat :=
  if !clipRangesOk x k b then 0x0221
  else if (posOf (fun o : Option Clip => o.isNone) s.clips).isNone then 0x0220
  else if encoderFull s x k then 0x0225
  else if s.power.ledger.clipMiB * 2 ^ 20 < retainedBytes s + clipNeed x k.t0 || (pickClipStores s x).isNone then 0x0224
  else 0

/-- Take references on the retained access units (R234). -/
def retainAll (l : List RingUnit) (s : State) : State := l.foldl (fun s r => (retainOp r.head s).2) s

/-- CLIP_REQUEST (R231 to R234): the command ends with its session. -/
def execClipRequest (q cid : Nat) (s : State) : Res :=
  runCommand q cid { bareRow 0x40 0 with block := true, minPlen := 0x50, resultSize := fun _ _ => 24 } (fun c s =>
    let b := paramBlock s c
    let k := clipBlock b
    match stream? s k.stream with
    | none => endCmd c 0x0221 s
    | some x =>
      let st := clipStatus s x k b
      if st ≠ 0 then endCmd c st s
      else match posOf (fun o : Option Clip => o.isNone) s.clips with
        | none => endCmd c 0x0220 s
        | some i =>
          let l := clipRetained x k.t0
          let base := (pickClipStores s x).getD 0
          let s := retainAll l s
          { s with clips := s.clips.set i (some (freshClip q cid (steadyNs s) base x k (l.map retainedSource))) }) s

/-- CLIP_CANCEL (R241, R419): the session of a CLIP_REQUEST of the same ring; 0x0009 where none has the CID. -/
def execClipCancel (q cid : Nat) (s : State) : Res :=
  runCommand q cid (bareRow 0x41 0) (fun c s =>
    let target := arg c 0 2
    match posOf (fun o : Option Clip => match o with | some k => k.q == q && k.cid == target | none => false) s.clips with
    | some i => okCmd c 0 (endClip i 0 s)
    | none => endCmd c 0x0009 s) s

/-- Width and height of a clip's pictures (R231). -/
def clipWidth (c : Clip) : Nat := c.cw / max 1 c.decim
def clipHeight (c : Clip) : Nat := c.ch / max 1 c.decim

/-- The rows of a clip picture that take a rate decision: 64 luma lines; H.264 counts four macroblock rows as one (R236, R239). -/
def ctuRows (c : Clip) : Nat := ceilDiv (clipHeight c) 64

/-! ### Crop and decimation -/

/-- A channel of the source for the encoder, in full resolution for luma (0) and on the chroma grid (1, 2). What the encoder makes of
a source that is not 4:2:0, and of a place outside its picture, no rule says: free (DESIGN CHOICE, log 184). -/
def encoderChannel (src : Source) (ch x y : Nat) : Nat :=
  let value (px py k : Nat) : Int := ((src.at_ px py).getD k (0, false)).1
  let all (px py : Nat) : List Int := (src.at_ px py).map (·.1)
  if ch = 0 then
    if src.w ≤ x ∨ src.h ≤ y then Config.beyondPicture x y 0
    else if src.rgb then Config.encoderSample true [all x y] 0
    else (value x y 0).toNat
  else if src.w ≤ 2 * x ∨ src.h ≤ 2 * y then Config.beyondPicture x y ch
  else if src.subsampled then (value (2 * x) (2 * y) ch).toNat
  else Config.encoderSample src.rgb [all (2 * x) (2 * y), all (2 * x + 1) (2 * y), all (2 * x) (2 * y + 1), all (2 * x + 1) (2 * y + 1)] ch

/-- A sample of a channel after crop and decimation by d (R237): (S + d² / 2) >> log2 d², which is a division by d². -/
def decimated (c : Clip) (src : Source) (ch x y : Nat) : Nat :=
  let d := max 1 c.decim
  let (cx, cy) := if ch = 0 then (c.cx, c.cy) else (c.cx / 2, c.cy / 2)
  let sum := ((List.range d).map fun j => ((List.range d).map fun i => encoderChannel src ch (cx + d * x + i) (cy + d * y + j)).sum).sum
  (sum + d * d / 2) / (d * d)

/-- The source of a clip picture as it is coded: luma, then interleaved Cb and Cr (R236, R237). -/
def encoderPicture (c : Clip) (src : Source) : List Byte :=
  let w := clipWidth c
  let h := clipHeight c
  let luma := (List.range h).map fun y => (List.range w).map fun x => BitVec.ofNat 8 (decimated c src 0 x y)
  let chroma := (List.range (h / 2)).map fun y => ((List.range (w / 2)).map fun x =>
    [BitVec.ofNat 8 (decimated c src 1 x y), BitVec.ofNat 8 (decimated c src 2 x y)]).flatten
  (luma ++ chroma).flatten

/-! ### Motion search -/

/-- Luma of a coded picture of a size, with replicated edges outside it (R238). -/
def lumaAt (pic : List Byte) (w h : Nat) (x y : Int) : Nat :=
  (pic.getD (edgeClamp y h * w + edgeClamp x w) 0).toNat

/-- A block that a vector is searched for: its place and size in luma samples, in the step at (x0, y0) (R238). -/
structure Block where
  x0 : Nat
  y0 : Nat
  x : Nat
  y : Nat
  size : Nat
  deriving DecidableEq, Repr

/-- Whole samples and quarters of a component in quarter samples. -/
def whole (v : Int) : Int := v / 4
def quarters (v : Int) : Nat := (v % 4).toNat

/-- Luma samples that a fraction of a component takes beside the block: the taps of the codec's quarter-sample filters (PRESUMED,
log 184). -/
def tapsBefore (hevc : Bool) (q : Nat) : Int := if q = 0 then 0 else if hevc then 3 else 2
def tapsAfter (hevc : Bool) (q : Nat) : Int := if q = 0 then 0 else if hevc then 4 else 3

/-- A vector in quarter samples keeps its block and its interpolation taps within the window of the step: x0 − 128 to x0 + 191 and
y0 − 64 to y0 + 127 (R238). -/
def inSearchWindow (hevc : Bool) (b : Block) (mv : Int × Int) : Bool :=
  let lo (p v : Int) : Int := p + whole v - tapsBefore hevc (quarters v)
  let hi (p v : Int) : Int := p + whole v + b.size - 1 + tapsAfter hevc (quarters v)
  decide ((b.x0 : Int) - 128 ≤ lo b.x mv.1 ∧ hi b.x mv.1 ≤ b.x0 + 191 ∧ (b.y0 : Int) - 64 ≤ lo b.y mv.2 ∧ hi b.y mv.2 ≤ b.y0 + 127)

/-- The predicted luma sample of a block at (i, j) under a vector: the sample itself, or the codec's interpolation (R238). -/
def predicted (hevc : Bool) (ref : Int → Int → Nat) (b : Block) (mv : Int × Int) (i j : Nat) : Nat :=
  let x : Int := b.x + i + whole mv.1
  let y : Int := b.y + j + whole mv.2
  if quarters mv.1 = 0 ∧ quarters mv.2 = 0 then ref x y
  else Config.interpolated hevc ((List.range 8).map fun r => (List.range 8).map fun k => ref (x - 3 + k) (y - 3 + r)) (quarters mv.1) (quarters mv.2)

/-- A vector that the search has found: x, y and size of its block, and its components. -/
abbrev FoundVector : Type := Nat × Nat × Nat × Int × Int

/-- The cost of a candidate: SAD + λ(QP) × motion vector difference bits (R238). -/
def vectorCost (hevc : Bool) (cur ref : Int → Int → Nat) (qp : Nat) (before : List FoundVector) (b : Block) (mv : Int × Int) : Nat :=
  ((List.range b.size).map fun (j : Nat) => ((List.range b.size).map fun (i : Nat) =>
    ((cur (b.x + i : Nat) (b.y + j : Nat) : Int) - predicted hevc ref b mv i j).natAbs).sum).sum
    + Config.lambdaTable qp * Config.vectorBits hevc before b.x b.y b.size mv.1 mv.2

/-- A candidate goes before another: lower cost, then smaller |mvx| + |mvy|, then smaller mvy, then smaller mvx (R238). -/
def betterVector (a b : Nat × Int × Int) : Bool :=
  let key (v : Nat × Int × Int) : List Int := [v.1, v.2.1.natAbs + v.2.2.natAbs, v.2.2, v.2.1]
  decide (key a < key b)

/-- The best of a list of candidates. -/
def bestVector (cost : Int × Int → Nat) : List (Int × Int) → Option (Int × Int)
  | [] => none
  | v :: l => some ((l.foldl (fun b w => let k := (cost w, w); if betterVector k b then k else b) (cost v, v)).2)

/-- Every integer vector of a block whose block lies wholly within the window (R238). -/
def integerVectors (hevc : Bool) (b : Block) : List (Int × Int) :=
  let range (lo hi : Int) : List Int := (List.range (hi - lo + 1).toNat).map fun i => 4 * (lo + i)
  (((range (-320) 320).map fun y => (range (-320) 320).map fun x => (x, y)).flatten).filter (inSearchWindow hevc b)

/-- The quarter-sample vectors around a best integer vector: less than a sample off in both components (DESIGN CHOICE, log 184). -/
def quarterVectors (hevc : Bool) (b : Block) (mv : Int × Int) : List (Int × Int) :=
  (((List.range 7).map fun j => (List.range 7).map fun i => (mv.1 - 3 + i, mv.2 - 3 + j)).flatten).filter (inSearchWindow hevc b)

/-- The motion vector of a block (R238). -/
def searchVector (hevc : Bool) (cur ref : Int → Int → Nat) (qp : Nat) (before : List FoundVector) (b : Block) : Int × Int :=
  let cost := vectorCost hevc cur ref qp before b
  match (bestVector cost (integerVectors hevc b)).bind fun v => bestVector cost (quarterVectors hevc b v) with
  | some v => v
  | none => (0, 0)

/-- The blocks of a step that lie within the picture: every square of 64, 32, 16 and 8 (R236; which of them a picture codes the
manual leaves open). -/
def stepBlocks (w h x0 y0 : Nat) : List Block :=
  (([64, 32, 16, 8].map fun n => ((List.range (64 / n)).map fun j => (List.range (64 / n)).map fun i =>
    ({ x0 := x0, y0 := y0, x := x0 + n * i, y := y0 + n * j, size := n } : Block)).flatten).flatten).filter
      fun b => decide (b.x + b.size ≤ w ∧ b.y + b.size ≤ h)

/-- The motion vectors of a P picture, step by step, at each row's QP (R238). -/
def searchPicture (c : Clip) (src ref : List Byte) (qps : List Int) : List FoundVector :=
  let w := clipWidth c
  let h := clipHeight c
  let steps := ((List.range (ctuRows c)).map fun r => (List.range (ceilDiv w 64)).map fun k => (r, k)).flatten
  steps.foldl (fun found s => (stepBlocks w h (64 * s.2) (64 * s.1)).foldl (fun found b =>
    let v := searchVector c.hevc (lumaAt src w h) (lumaAt ref w h) (qps.getD s.1 0).toNat found b
    found ++ [(b.x, b.y, b.size, v.1, v.2)]) found) []

/-! ### Rate decisions -/

/-- rhe(a / b) for b > 0, kept within ±lim. -/
def rateStep (a b : Int) (lim : Int) : Int := clamp (-lim) lim (divHalfEven a b.toNat)

/-- The row decisions of R239: `unit` and T are fractions over one denominator `den`, with T = `tn` / `den`. Answers the row QPs
and the bits used. -/
def codeRows (c : Clip) (tn den : Int) (rows : Nat) : List Nat → (r used : Nat) → (qp : Int) → List Int × Nat
  | [], _, used, _ => ([], used)
  | b :: l, r, used, qp =>
    let used' := used + b
    -- 6 (used - planned) / T with planned = T (r + 1) / rows
    let num := 6 * ((used' : Int) * den * rows - tn * (r + 1))
    let next := clamp c.qmin c.qmax (qp + rateStep num (tn * rows) 2)
    let (qs, total) := codeRows c tn den rows l (r + 1) used' next
    (qp :: qs, total)

/-- What one picture's rate decisions give: its QPs, its mean, its bytes with filler, and f afterwards (R239). -/
structure PictureRate where
  qps : List Int
  mean : Nat
  bits : Nat
  filler : Nat
  fnum : Int
  deriving DecidableEq, Repr

/-- The rate decisions of one picture (R239). f is a fraction over 10^9, which P in ns makes exact. -/
def rateOf (c : Clip) (period : Nat) (idr : Bool) (rowBits : List Nat) : PictureRate :=
  let den : Int := 1000000000 * (c.gop + 3)
  let unit : Int := (c.rate * period * c.gop : Nat)
  let tn := if idr then 4 * unit else unit
  let half : Int := c.buffer * 500000000
  let start := clamp c.qmin c.qmax (c.qprev + rateStep (8 * (c.fnum - half)) (c.buffer * 1000000000) 3)
  let qp0 : Int := if c.coded = 0 then c.qinit else start
  let (qps, used) := codeRows c (max 1 tn) den (max 1 (ctuRows c)) rowBits 0 0 qp0
  let f := c.fnum + 1000000000 * (used : Int) - (c.drain * period : Nat)
  let n := if c.rateMode = 0 ∧ f < 0 then ceilDiv (-f).toNat 8000000000 else 0
  let f := f + 8000000000 * n
  { qps := qps, mean := (divHalfEven qps.sum (max 1 qps.length)).toNat, bits := used, filler := n, fnum := max 0 f }

/-- The bytes that a session's destination buffers hold (R232). -/
def clipSpace (c : Clip) : Nat := (c.bufs.map (·.2)).sum

/-- The general-window range in which Quinbuar maps the host buffers of a session (R302; its place is DESIGN CHOICE, log 174). -/
def clipWindow (i : Nat) : Nat := 0x801000000000 + i * 0x100000000

/-- A session writes bytes of a host buffer through the mapping that Quinbuar sets up for them (R302; log 174). -/
def clipWrite (i a : Nat) (bs : List Byte) (s : State) : State :=
  unmapHost (clipWindow i) a bs.length
    (windowWrite (windowOf (clipWindow i) a) (bs.map fun b => (b, false)) (mapHost (clipWindow i) a bs.length s))

/-- Write bytes at an offset of the destination buffers, filling each before the next (R232). -/
def writeClip (i : Nat) : (bufs : List (Nat × Nat)) → (off : Nat) → List Byte → State → State
  | [], _, _, s => s
  | (a, n) :: l, off, bs, s =>
    if bs.isEmpty then s
    else if n ≤ off then writeClip i l (off - n) bs s
    else
      let s := clipWrite i (a + off) (bs.take (n - off)) s
      writeClip i l 0 (bs.drop (n - off)) s

/-- An index entry (R240). -/
def indexEntry (stamp off size : Nat) (idr concealed : Bool) (qp omitted : Nat) : List Byte :=
  leBytes 8 stamp ++ leBytes 8 off ++ leBytes 4 size ++ leBytes 1 (flag idr 0 + flag concealed 1) ++ leBytes 1 qp
    ++ leBytes 2 omitted

/-- Filler data of `n` bytes: a NAL unit of type 12 in H.264 and 38 in HEVC (R239). -/
def fillerNal (hevc : Bool) (n : Nat) : List Byte :=
  if n = 0 then []
  else
    let head : List Byte := if hevc then [0, 0, 0, 1, 0x4C, 0x01] else [0, 0, 0, 1, 0x0C]
    (head ++ List.replicate n 0xFF).take (n - 1) ++ [0x80]

/-! ### The coded stream -/

/-- A level of a codec's table: its number as the stream codes it, the size and the rate that it admits, in luma samples (HEVC) or
macroblocks (H.264), and its bit rate in kbit/s (tables A.8 and A.9 of H.265 for the Main tier, A-1 of H.264 for the High profile;
PRESUMED, log 185). -/
structure Level where
  idc : Nat
  size : Nat
  rate : Nat
  kbits : Nat
  deriving DecidableEq, Repr

def hevcLevels : List Level :=
  [⟨30, 36864, 552960, 128⟩, ⟨60, 122880, 3686400, 1500⟩, ⟨63, 245760, 7372800, 3000⟩, ⟨90, 552960, 16588800, 6000⟩,
   ⟨93, 983040, 33177600, 10000⟩, ⟨120, 2228224, 66846720, 12000⟩, ⟨123, 2228224, 133693440, 20000⟩,
   ⟨150, 8912896, 267386880, 25000⟩, ⟨153, 8912896, 534773760, 40000⟩, ⟨156, 8912896, 1069547520, 60000⟩,
   ⟨180, 35651584, 1069547520, 60000⟩, ⟨183, 35651584, 2139095040, 120000⟩, ⟨186, 35651584, 4278190080, 240000⟩]

def h264Levels : List Level :=
  [⟨10, 99, 1485, 80⟩, ⟨9, 99, 1485, 160⟩, ⟨11, 396, 3000, 240⟩, ⟨12, 396, 6000, 480⟩, ⟨13, 396, 11880, 960⟩, ⟨20, 396, 11880, 2500⟩,
   ⟨21, 792, 19800, 5000⟩, ⟨22, 1620, 20250, 5000⟩, ⟨30, 1620, 40500, 12500⟩, ⟨31, 3600, 108000, 17500⟩,
   ⟨32, 5120, 216000, 25000⟩, ⟨40, 8192, 245760, 25000⟩, ⟨41, 8192, 245760, 62500⟩, ⟨42, 8704, 522240, 62500⟩,
   ⟨50, 22080, 589824, 168750⟩, ⟨51, 36864, 983040, 300000⟩, ⟨52, 36864, 2073600, 300000⟩, ⟨60, 139264, 4177920, 300000⟩,
   ⟨61, 139264, 8355840, 600000⟩, ⟨62, 139264, 16711680, 1000000⟩]

/-- A clip's size and rates lie within a level; a side is at most the root of eight times the size. -/
def levelAdmits (c : Clip) (l : Level) : Bool :=
  let unit := if c.hevc then 1 else 16
  let w := ceilDiv (clipWidth c) unit
  let h := ceilDiv (clipHeight c) unit
  decide (w * h ≤ l.size ∧ w * w ≤ 8 * l.size ∧ h * h ≤ 8 * l.size ∧ w * h * 1000000000 ≤ l.rate * max 1 c.cfg.period
    ∧ c.drain ≤ 1000 * l.kbits)

/-- The lowest level that admits the clip's size and rates (R236). -/
def clipLevel (c : Clip) : Nat :=
  let table := if c.hevc then hevcLevels else h264Levels
  match table.find? (levelAdmits c) with
  | some l => l.idc
  | none => (table.getLast?.map (·.idc)).getD 0

/-- The access unit delimiter before each access unit (R236), for an intra picture or one that may hold P slices (PRESUMED, log
185). -/
def delimiter (hevc idr : Bool) : List Byte :=
  let kind : Byte := if idr then 0x10 else 0x30
  if hevc then [0, 0, 0, 1, 0x46, 0x01, kind] else [0, 0, 0, 1, 0x09, kind]

/-- A picture as coded (R236): the source, the reference, the vectors, and the rate decisions. -/
structure CodedPicture where
  bytes : List Byte
  samples : List Byte
  deriving DecidableEq, Repr

/-- Code one picture (R236 to R239): delimiter, parameter sets before an IDR picture, and its one slice, whose bytes are those of its
rows' bits (DESIGN CHOICE, log 113). -/
def codePicture (c : Clip) (idr : Bool) (r : PictureRate) (src : List Byte) : CodedPicture :=
  let ref := if idr then none else c.reference
  let vectors := match ref with | some p => searchPicture c src p r.qps | none => []
  let qps := r.qps.map Int.toNat
  let place := c.coded % max 1 c.gop
  let idrs := c.coded / max 1 c.gop
  let w := clipWidth c
  let h := clipHeight c
  let sets := if idr then Config.clipParameterSets c.hevc w h (clipLevel c) c.cfg.period else []
  { bytes := delimiter c.hevc idr ++ sets ++ padTo (ceilDiv r.bits 8) (Config.codedSlice src ref w h c.hevc place idrs vectors qps r.bits)
    samples := padTo (w * h * 3 / 2) (Config.codedSamples src ref w h c.hevc place idrs vectors qps r.bits) }

/-- Write one coded picture, its filler and its index entry; without room for them the clip ends with 0x0226 (R232, R240). -/
def putPicture (i : Nat) (c : Clip) (stamp : Nat) (concealed : Bool) (src : Source) (rowBits : List Nat) (s : State) : State :=
  let idr := c.coded % c.gop == 0
  let r := rateOf c c.cfg.period idr rowBits
  let au := codePicture c idr r (encoderPicture c src)
  let total := au.bytes.length + r.filler
  if clipSpace c < c.written + total ∨ c.idxLen < 24 * (c.coded + 1) then endClip i 0x0226 s
  else
    let s := writeClip i c.bufs c.written (au.bytes ++ fillerNal c.hevc r.filler) s
    let s := clipWrite i (c.idxAddr + 24 * c.coded) (indexEntry stamp c.written total idr concealed r.mean c.omitted) s
    updClip i (fun c => { c with
      coded := c.coded + 1, written := c.written + total, omitted := 0, qprev := r.mean, fnum := r.fnum, reference := some au.samples,
      firstStamp := c.firstStamp.or (some stamp), lastStamp := some stamp }) s

/-- A picture that is none of the clip's: it landed at T1 or later (R231, R241). -/
def behindClip (c : Clip) (stamp : Nat) : Bool := decide (c.t1 ≤ stamp)

/-- When the last source has been decoded, the pictures that wait leave the decode in output order (R235; DEDUCED, log 183). -/
def flushClip (c : Clip) : Clip :=
  if (c.sources.all fun x => behindClip c x.stamp) && (c.lastLanded || c.endStatus.isSome) then
    { c with
      ready := c.ready ++ (sortBy outputBefore (c.dec.pictures.filter (·.waiting))).map fun p =>
        { stamp := p.stamp, damaged := p.damaged, concealed := p.concealed, sps := p.sps, store := p.store }
      dec := { c.dec with pictures := [] } }
  else c

/-- The session ends when it has coded its last picture, or with the status that ended it early (R241). -/
def settleClip (i : Nat) (s : State) : State :=
  match s.clips.getD i none with
  | none => s
  | some c =>
    if (c.sources.all fun x => behindClip c x.stamp) && (c.ready.all fun p => behindClip c p.stamp) && (c.lastLanded || c.endStatus.isSome) then endClip i (c.endStatus.getD 0) s else s

/-- The next picture of a session: its timestamp, whether it is damaged, whether concealed, and its samples; from its decode where it
has one, else a source that passes directly (R234, R235). -/
structure NextPicture where
  stamp : Nat
  damaged : Bool
  concealed : Bool
  src : Source
  /-- The cell of its chain that fails its check (R358). -/
  bad : Option Nat := none

/-- The source of a session's next picture, if it has one. -/
def nextClipPicture (c : Clip) (s : State) : Option NextPicture :=
  if c.fountain.isSome then
    match c.ready.head? with
    | some p =>
      let src := storeSource (fun a => windowedByte s [(clipStoreAt c p.store, storeSize c.cfg)] (clipStoreAt c p.store + a)) c.cfg p.sps
      some { stamp := p.stamp, damaged := p.damaged, concealed := p.concealed, src := src }
    | none => none
  else match c.sources.head? with
    | some x =>
      let r := readChain chainFuel x.head s
      some { stamp := x.stamp, damaged := r.bad.isSome || x.lost, concealed := false, src := chainSource r c.cfg c.sec x.set, bad := r.bad }
    | none => none

/-- A session is done with its next picture: the source's chain is released (R234). One that has ended holds no more. -/
def dropPicture (i : Nat) (s : State) : State :=
  match s.clips.getD i none with
  | none => s
  | some c =>
    if c.fountain.isSome then updClip i (fun c => { c with ready := c.ready.drop 1 }) s
    else match c.sources.head? with
      | some x => freeChain x.head (updClip i (fun c => { c with sources := c.sources.drop 1 }) s)
      | none => s

/-- What reading the source of a session's next picture leaves behind: its lines pass their slices (R308). -/
def noteClipSource (c : Clip) (s : State) : State :=
  if c.fountain.isSome then
    match c.ready.head? with | some p => unitRead .be (clipStoreAt c p.store) (storeSize c.cfg) s | none => s
  else match c.sources.head? with | some x => noteChain .be x.head s | none => s

/-- The encoder logs a cell of a source that passes to it directly and fails its check (R358). -/
def logBadSource (c : Clip) (p : NextPicture) (s : State) : State :=
  match p.bad with
  | some k => logErr 0x0640 13 0 s { stream := c.stream, arg0 := k }
  | none => s

/-- A session codes, omits or passes over its next picture (R235): one outside [T0, T1) is none of the clip, a damaged one is omitted. -/
def encodeNext (i : Nat) (c : Clip) (p : NextPicture) (rowBits : List Nat) (s : State) : State :=
  if p.stamp < c.t0 ∨ c.t1 ≤ p.stamp then s
  else if p.damaged then updClip i (fun c => { c with omitted := c.omitted + 1 }) (logBadSource c p s)
  else putPicture i c p.stamp p.concealed p.src rowBits (noteClipSource c s)

/-- The next picture takes a rate decision for each of its rows (R239): without them the encoder has not coded it. -/
def rowsGiven (c : Clip) (p : NextPicture) (rowBits : List Nat) : Bool :=
  decide (p.stamp < c.t0 ∨ c.t1 ≤ p.stamp) || p.damaged || rowBits.length == ctuRows c

/-- CLIP_PICTURE_ENCODE (R234 to R241): the encoder takes the session's next picture in output order, and the command says which that
is: with another timestamp or other marks it does not happen. In D3hot it pauses with its references (R379). A session whose last picture is coded ends. -/
def execClipPictureEncode (session stamp : Nat) (damaged concealed : Bool) (rowBits : List Nat) (s : State) : Res :=
  match s.clips[session]? with
  | none => done s
  | some none => done s
  | some (some c) =>
    if !s.power.running || islandFenced s 13 || s.power.update.switching.isSome || s.gate.d3hot then done s
    else
      let t := updClip session flushClip s
      let c := flushClip c
      match nextClipPicture c t with
      | none => done (settleClip session t)
      | some p =>
        if p.stamp == stamp && p.damaged == damaged && p.concealed == concealed && rowsGiven c p rowBits then
          done (settleClip session (dropPicture session (encodeNext session c p rowBits t)))
        else done s

end Sys2Proof.Machine
end

