-- ==== Sys2Proof/Machine/Movers.lean ====
section
/-! DEFINITION. The movers (R83 to R86, R122 to R124, R523): copies, compression and expansion, run-ahead fetches with their
deferred marks, page fetches. -/

namespace Sys2Proof.Machine

/-- One destination byte of a mover op: address, value, mark, the deferred fault it carries, the status of a fault met on
the way with its place as the memory and as the op sees it, and whether a run-ahead op writes it. -/
structure MoveByte where
  dst : Nat
  val : Byte
  mark : Bool
  defer : Option Nat
  err : Option Nat
  src : Nat
  seen : Nat
  put : Bool
  deriving DecidableEq, Repr

/-- The id of the deferred fault of a read byte (R85). -/
def deferId (s : State) (r : ByteRead) : Option Nat := if r.deferred.isSome then tabGet r.addr s.mem.deferred else none

/-- A plain row (R83). -/
def plainRow (k : Nat) (s : State) (start src dst n : Nat) : List MoveByte :=
  (readFrom k s start src n).zipIdx.map fun x =>
    { dst := dst + x.2, val := x.1.val, mark := x.1.poison, defer := deferId s x.1, err := x.1.error, src := x.1.addr, seen := x.1.seen,
      put := x.1.error.isNone }

/-- Output bytes that all stand for one block of reads. -/
def blockOut (s : State) (dst : Nat) (reads : List ByteRead) (bs : List Byte) : List MoveByte :=
  let bad := reads.find? fun r => r.error.isSome
  let at_ := (bad.or (reads.find? fun r => r.deferred.isSome)).or reads.head?
  bs.zipIdx.map fun x =>
    { dst := dst + x.2, val := x.1, mark := readPoison reads, defer := reads.findSome? (deferId s),
      err := bad.bind (·.error), src := (at_.map (·.addr)).getD 0, seen := (at_.map (·.seen)).getD 0,
      put := bad.isNone }

/-- The 32 codes of a block of 16 bytes (R95, R122). -/
def blockCodes (bs : List Byte) : List Nat := (List.range 32).map (codeAt 4 bs)

/-- Bytes that hold codes of `w` bits, bit 0 of the string first (R95, R122). -/
def packBytes (w n : Nat) (codes : List Nat) : List Byte :=
  leBytes n (codes.zipIdx.foldl (fun v c => v + c.1 % 2 ^ w * 2 ^ (c.2 * w)) 0)

/-- The shift of the encoder (R123). -/
def blockShift (range l : Nat) : Nat := ((List.range 4).find? fun k => decide (range / 2 ^ k ≤ l)).getD 3

/-- Compress a block of 16 bytes: mode 1 is 9/16, mode 2 is 13/16 (R122, R123). -/
def compressBlock (mode : Nat) (bs : List Byte) : List Byte :=
  let v := blockCodes bs
  let mn := (v.min?).getD 0
  let mx := (v.max?).getD 0
  let w := if mode = 1 then 2 else 3
  let k := blockShift (mx - mn) (2 ^ w - 1)
  BitVec.ofNat 8 (mn + 16 * k + 64 * mode) :: packBytes w (4 * w) (v.map fun x => (x - mn) / 2 ^ k)

/-- Bytes of a compressed block by its mode; none for a reserved mode (R122). -/
def blockSize (mode : Nat) : Option Nat := if mode = 1 then some 9 else if mode = 2 then some 13 else none

/-- Expand a compressed block of 9 or 13 bytes into 16 (R122, R123). -/
def expandBlock (bs : List Byte) : List Byte :=
  let h := (bs.getD 0 0).toNat
  let w := if bits h 6 2 = 1 then 2 else 3
  let k := bits h 4 2
  let body := leNat (bs.drop 1)
  packBytes 4 16 ((List.range 32).map fun j => min 15 (bits h 0 4 + bits body (j * w) w * 2 ^ k + 2 ^ k / 2))

/-- A compressed row (R124). -/
def compressRow (k : Nat) (s : State) (start src dst rowb mode : Nat) : List MoveByte :=
  let n := if mode = 1 then 9 else 13
  ((List.range (rowb / 16)).map fun i =>
    let r := readFrom k s start (src + 16 * i) 16
    blockOut s (dst + n * i) r (compressBlock mode (readVals r))).flatten

/-- An expanded row from its block `i` on (R124): a block whose mode cannot be read or is reserved, and every later block of the
row, expand to zero bytes with the fault's status; a mark on the mode byte marks that block. A reserved mode in a deferred-faulty byte is
that fault's doing, and the bytes carry its mark (R85; DEDUCED, log 199). -/
def expandRow (k : Nat) (s : State) (start dst : Nat) : (n i src : Nat) → List MoveByte
  | 0, _, _ => []
  | n + 1, i, src =>
    let head := readFrom k s start src 1
    let mode := bits (leNat (readVals head)) 6 2
    let fault (st : Option Nat) : List MoveByte :=
      (List.range (16 * (n + 1))).map fun j =>
        { dst := dst + 16 * i + j, val := 0, mark := decide (j < 16) && readPoison head,
          defer := if st.isNone then head.findSome? (deferId s) else none, err := st,
          src := (head.head?.map (·.addr)).getD src, seen := src, put := true }
    match readError head, blockSize mode with
    | some st, _ => fault (some st)
    | none, none => fault (if (head.findSome? (deferId s)).isSome then none else some 0x0436)
    | none, some size =>
      let r := readFrom k s start src size
      blockOut s (dst + 16 * i) r (expandBlock (readVals r)) ++ expandRow k s start dst n (i + 1) (src + size)

/-- The bytes that expanding a row reads: as far as its blocks' modes lead (R85, R124). -/
def expandReads (k : Nat) (s : State) (start : Nat) : (n src : Nat) → List ByteRead
  | 0, _ => []
  | n + 1, src =>
    let head := readFrom k s start src 1
    match readError head, blockSize (bits (leNat (readVals head)) 6 2) with
    | none, some size => readFrom k s start src size ++ expandReads k s start n (src + size)
    | _, _ => head

/-- The destination bytes of a mover op, row by row (R83, R124). -/
def moveBytes (k : Nat) (s : State) (d : MoverDesc) : List MoveByte :=
  let mode := bits d.mode 0 2
  ((List.range d.rows).map fun i =>
    let src := d.src + i * d.spitch
    let dst := d.dst + i * d.dpitch
    if mode = 0 then plainRow k s d.src src dst d.rowb
    else if mode = 3 then expandRow k s d.src dst (d.rowb / 16) 0 src
    else compressRow k s d.src src dst d.rowb mode).flatten

/-- The source bytes that a mover op reads, for what it waits for and the errors that it leaves. -/
def moveReads (k : Nat) (s : State) (d : MoverDesc) : List ByteRead :=
  ((List.range d.rows).map fun i =>
    let src := d.src + i * d.spitch
    if bits d.mode 0 2 = 3 then expandReads k s d.src (d.rowb / 16) src else readFrom k s d.src src d.rowb).flatten

/-- The cells of moved bytes. -/
def moveCells (bs : List MoveByte) : List Cell := bs.map fun b => { addr := b.dst, val := b.val, mark := b.mark }

/-- The first byte that a COPY faults on (R85, R124): an error met, or a deferred-faulty byte. -/
def copyTrouble (s : State) (bs : List MoveByte) : Option (Nat × MoveByte) :=
  bs.findSome? fun b =>
    match b.err, b.defer with
    | some st, _ => some (st, b)
    | none, some id => (s.mem.faults.find? fun f => f.id == id).map fun f => (f.status, b)
    | none, none => none

/-- What a mover op waits for (R161, R162, R314). -/
def moveWaits (k : Nat) (s : State) (d : MoverDesc) : List Wait :=
  (readWait (moveReads k s d) ++ writeWait s d.dst (moveCells (moveBytes k s d))).eraseDups

/-- Run a COPY (R85, R523): on a fault some of the bytes read before it are written, and which is a free value. -/
def runCopy (k : Nat) (d : MoverDesc) (ctx : Option (Nat × Nat)) (s : State) : State :=
  let bs := moveBytes k s d
  let s := noteReads k (moveReads k s d) s
  match copyTrouble s bs with
  | some (st, b) =>
    let before := bs.takeWhile fun x => x != b
    jobFault k ctx st b.src (addrStream s ctx b.seen) (useDeferred b.src (writeSome k d.dst (moveCells before) s))
  | none =>
    match writeFault k s d.dst (moveCells bs) with
    | some (st, a) => jobFault k ctx st a (addrStream s ctx a) (writeSome k d.dst (moveCells bs) s)
    | none => writeOp d.dst (moveCells bs) s

/-- Put the mark of a live deferred fault on a byte in place of another one's (R85). -/
def carryMark (addr id : Nat) (s : State) : State :=
  let s := if tabGet addr s.mem.deferred = some id then s else clearDeferred addr s
  updMem (fun m => { m with deferred := if m.faults.any fun f => f.id == id then tabPut addr id m.deferred else m.deferred }) s

/-- The place, beyond every address, under which a run-ahead op keeps a fault live whose marks it carries (R85). -/
def holdPlace (id : Nat) : Nat := 2 ^ 64 + id

/-- Carry marks of deferred faults from what a run-ahead op reads onto bytes that it writes (R85): the faults stay live while the op's
writes overwrite the bytes that carried them. -/
def carrying (marks : List (Nat × Nat)) (write : State → State) (s : State) : State :=
  let ids := (marks.map (·.2)).eraseDups
  let t := write (ids.foldl (fun s i => carryMark (holdPlace i) i s) s)
  ids.foldl (fun s i => clearDeferred (holdPlace i) s) (marks.foldl (fun s m => carryMark m.1 m.2 s) t)

/-- Where a mover's byte lands: its physical place, or none in host memory, behind a fault or a wait. -/
def landsAt (s : State) (d : MoverDesc) (b : MoveByte) : Option Nat :=
  match writeTarget s d.dst { addr := b.dst, val := b.val, mark := b.mark } with
  | .phys p _ => some p
  | _ => none

/-- Run a FETCH_AHEAD (R84, R85): errors become marks of a new fault for each status, marks of the source are carried on. -/
def runAhead (mover : Nat) (d : MoverDesc) (s : State) : State :=
  let k := moverLane mover
  let bs := moveBytes k s d
  let ok := bs.filter fun b => match writeTarget s d.dst { addr := b.dst, val := b.val, mark := b.mark } with
    | .fault _ => false
    | _ => true
  let put := ok.filterMap fun b => (landsAt s d b).map fun p => (p, b)
  let marks := put.filterMap fun x => if x.2.err.isNone then x.2.defer.map fun id => (x.1, id) else none
  let s := noteReads k (moveReads k s d) s
  let s := carrying marks (writeOp d.dst (moveCells (ok.filter (·.put)))) s
  let kinds := (ok.filterMap (·.err)).eraseDups
  kinds.foldl (fun s st => markDeferred ((put.filter fun x => x.2.err == some st).map (·.1)) mover st s) s

/-- One page of an attention list (R84, R164): a page outside the hot tier starts its fill while more than 64 hot frames are free,
and is declined otherwise. -/
def prefetchPage (d : Nat) (s : State) : State :=
  match tabGet d s.aviary.pages with
  | none => s
  | some p =>
    if p.tier == .warm || p.tier == .cold then
      if 64 < hotFree s then fillIn d (updPage d (fun p => { p with prefetched := true }) (wantPage d s))
      else updAviary (fun a => { a with declined := a.declined + 1 }) s
    else s

/-- Row `i` of a PAGE_FETCH's destination: what it leaves there is not stated, so those bytes are free (DESIGN CHOICE, log 20). -/
def pageFetchRow (mover : Nat) (d : MoverDesc) (s : State) (i : Nat) : State :=
  let (bs, s) := freeBytes d.rowb s
  let cells := cellsAt (d.dst + i * d.dpitch) bs false
  if (writeError (moverLane mover) s d.dst cells).isSome then s else writeOp d.dst cells s

/-- The destination bytes of a mover op that its writes reach. -/
def moverDst (s : State) (d : MoverDesc) : List Nat :=
  ((List.range d.rows).map fun i => (List.range d.rowb).filterMap fun j =>
    match writeTarget s d.dst { addr := d.dst + i * d.dpitch + j, val := 0, mark := false } with
    | .phys p _ => some p
    | _ => none).flatten

/-- Run a PAGE_FETCH (R83, R84): the pages of the attention list at SRC. A list that cannot be read, or that holds deferred-faulty
bytes, names no page, and its fault marks the destination (R85). -/
def runPageFetch (mover : Nat) (d : MoverDesc) (s : State) : State :=
  let pages := tabGetD d.src [] s.aviary.alists
  let list := readBy (moverLane mover) s d.src d.src (4 * max 1 pages.length)
  let rows (s : State) : State := (List.range d.rows).foldl (pageFetchRow mover d) s
  let t := noteReads (moverLane mover) list s
  match readError list, list.findSome? (deferId s) with
  | some st, _ => markDeferred (moverDst s d) mover st (rows t)
  | none, some id => carrying ((moverDst s d).map fun a => (a, id)) rows t
  | none, none => rows (pages.foldl (fun s p => prefetchPage p s) t)

/-- A mover op (R64, R83). -/
def moverOp (mover opc : Nat) (waits : MoverDesc → List Wait) (work : MoverDesc → IssuedOp → State → State) (s : State) :
    Res :=
  inRange (decide (mover < 24)) s <|
    let k := moverLane mover
    let desc (o : IssuedOp) : MoverDesc := imgMove s.score.image (argDesc o.word)
    startOp k opc (fun _ => true) (fun o => waits (desc o)) (fun o s => occupy k o [] true (writing k (work (desc o) o) s)) s

/-- COPY (R83). -/
def execCopy (mover : Nat) (s : State) : Res :=
  moverOp mover 0x20 (moveWaits (moverLane mover) s) (fun d o s => runCopy (moverLane mover) d o.ctx s) s

/-- FETCH_AHEAD (R84). -/
def execFetchAhead (mover : Nat) (s : State) : Res :=
  moverOp mover 0x21 (moveWaits (moverLane mover) s) (fun d _ s => runAhead mover d s) s

/-- PAGE_FETCH (R84). -/
def execPageFetch (mover : Nat) (s : State) : Res := moverOp mover 0x22 (fun _ => []) (fun d _ s => runPageFetch mover d s) s

end Sys2Proof.Machine
end

