-- ==== Sys2Proof/Machine/Memsys.lean ====
section
/-! DEFINITION. The memory system's commands (R304 to R330, R392): cache accesses, the DRAM controllers with their refresh, polls, SRAM
scrubbing, TLB invalidation, the ends of the Gatehouse's reads of host memory. None of it changes a byte that a reader sees
(R332): it moves the marks and counts that R305, R309, R325 and R326 name. -/

namespace Sys2Proof.Machine

/-- The bytes of a line that an access takes: all of them, or the one at its address (DESIGN CHOICE, log 194). -/
def accessBytes (addr : Nat) (full : Bool) : BitVec 64 := if full then allBytes else 1#64 <<< (addr % 64)

/-- CACHE_ACCESS (R308): a DRAM address outside its region's size is refused (R302, R317). -/
def execCacheAccess (addr : Nat) (write full poisoned : Bool) (cls : ReqClass) (s : State) : Res :=
  if !s.power.running then done s
  else match dramMap s addr with
    | none => done (emit (.fenceOutcome 0x0603) s)
    | some (k, off) =>
      if islandFenced s 39 then done (emit (.fenceOutcome 0x0011) s)
      else if portMay addr write cls then
        done (unitLine { chan := k, line := off / 64, write := write, enables := accessBytes addr full, poisoned := poisoned, cls := cls, lane := none } s)
      else done (emit (.fenceOutcome 0x0603) s)

/-- A port in panic holds its panic on all of channels 12 to 15 (R321). -/
def anyPanic (s : State) : Bool := s.mem.panic.any id

/-- A refresh goes before every request that waits (R320, R322): on channels 0 to 11 an owed one, on 12 to 15 a forced one, or an
owed one while no port is in panic. -/
def refreshFirst (s : State) (k : Nat) (c : Channel) : Bool :=
  if k < 12 then decide (0 < c.owed) else c.forced || (decide (0 < c.owed) && !anyPanic s)

/-- The rank of a request (R320); within rank 4 real-time ports go before LC misses. -/
def requestRank (s : State) (k : Nat) (r : DramReq) : Nat :=
  if k < 12 then
    match r.cls with
    | .lc => 20
    | .control => 30
    | .be => if r.promoted then 20 else 40
    | .realTime _ => 20
  else match r.cls with
    | .realTime p => if s.mem.panic.getD p false then 20 else 40
    | .lc => 41
    | .control => 50
    | .be => 60

/-- The request that a controller serves next (R320): best rank, then oldest. -/
def nextRequest (s : State) (k : Nat) (c : Channel) : Option (DramReq × Nat) :=
  (sortBy (fun a b : DramReq × Nat => decide (requestRank s k a.1 < requestRank s k b.1)) c.queue.zipIdx).head?

/-- The bank of a line (R318). -/
def lineBank (line : Nat) : Nat := line / 32 % 16

/-- A port goes on with a row: another of its requests for it waits (R323). -/
def burstGoesOn (r : DramReq) (q : List DramReq) : Bool :=
  (match r.cls with | .realTime _ => true | _ => false) && q.any fun x => x.cls == r.cls && x.line / 32 == r.line / 32

/-- Banks held open by real-time bursts once a request is served (R323). -/
def heldAfter (r : DramReq) (q : List DramReq) (held : List Nat) : List Nat :=
  if burstGoesOn r q then setAdd (lineBank r.line) held else setDel (lineBank r.line) held

/-- The destination bytes of a run-ahead op that come from a line, or of a PAGE_FETCH all (R84, R85). -/
def lineTargets (s : State) (k opc line : Nat) (d : MoverDesc) : List Nat :=
  if opc = 0x21 then ((moveBytes k s d).filter fun b => b.src / 64 == line).map (·.dst) else moverDst s d

/-- The op for which a line is read faults on its uncorrectable link error, or, a run-ahead op, defers the fault (R85, R305, R326). -/
def linkFault (k a : Nat) (s : State) : State :=
  match (s.score.lanes[k]?).bind (·.running) with
  | none => s
  | some r =>
    let opc := opOpc r.op.word
    if opc = 0x21 ∨ opc = 0x22 then
      markDeferred (lineTargets s k opc (a / 64) (imgMove s.score.image (argDesc r.op.word))) (k - moverLane 0) 0x0612 s
    else jobFault k r.op.ctx 0x0612 a (addrStream s r.op.ctx a) s

/-- A read reaches the DRAM (R324 to R326): link errors, and the poison map as it was when the read was presented. -/
def serveRead (k : Nat) (r : DramReq) (linkError : Nat) (s : State) : State :=
  let a := lineAddr s k r.line
  let s := if r.poisoned then logErr 0x0614 (40 + k) 0 s { arg0 := a, poison := true } else s
  if linkError = 1 then updChan k (fun c => { c with corrected := c.corrected + 1 }) s
  else if linkError = 2 then
    let s := setLinePoison k r.line (logErr 0x0612 (40 + k) 0 s { arg0 := a, poison := true })
    let s := updMem (fun m => { m with causes := tabPut (a / 64) 0x0612 m.causes }) s
    match r.lane with | some j => linkFault j a s | none => markReader r.reader s
  else s
where
  /-- What a unit that is no lane has read carries the mark to its frame or page (R305, R326, R361). -/
  markReader (who : Reader) (s : State) : State :=
    match who with
    | .frame n id => updFrame n id (fun f => { f with poison := f.poison.or (some 0x0612) }) s
    | .page d => updPage d (fun p => { p with poison := true, fillStatus := 0x0612 }) s
    | .none => s
  /-- The line as it is cached carries the mark. -/
  setLinePoison (k line : Nat) (s : State) : State :=
    match tabGet (setKey k line) s.mem.cache with
    | some x =>
      let x := { x with ways := x.ways.map fun w => if w.valid && w.line == line then { w with poison := true } else w }
      updMem (fun m => { m with cache := tabPut (setKey k line) x m.cache }) s
    | none => s

/-- A write reaches the DRAM: a marked line sets its poison-map bit, a full one without a mark clears it (R325). -/
def serveWrite (k : Nat) (r : DramReq) (s : State) : State :=
  updChan k (fun c => { c with
    poisonMap := if r.poisoned then setAdd r.line c.poisonMap else if r.enables = allBytes then setDel r.line c.poisonMap
                 else c.poisonMap }) s

/-- DRAM_REQUEST (R320): the controller serves its next request. `linkError` is 0, 1 for a corrected and 2 for an uncorrectable
link error (R326). -/
def execDramRequest (channel linkError : Nat) (s : State) : Res :=
  inRange (decide (linkError ≤ 2)) s <| match s.mem.chans[channel]? with
  | none => done s
  | some c =>
    if !s.power.running || c.fenced || c.selfRefresh || islandFenced s (40 + channel) || refreshFirst s channel c then done s
    else match nextRequest s channel c with
      | none => done s
      | some (r, i) =>
        let q := c.queue.eraseIdx i
        let s := updChan channel (fun c => { c with queue := q, heldBanks := heldAfter r q c.heldBanks }) s
        done (updatePanic (if r.write then serveWrite channel r s else serveRead channel r linkError s))

/-- BE_REQUEST_PROMOTE (R320): BE requests that have waited 10 µs on channels 0 to 11 take LC rank. -/
def execBeRequestPromote (channel : Nat) (s : State) : Res :=
  match s.mem.chans[channel]? with
  | none => done s
  | some _ =>
    let raise (r : DramReq) : DramReq :=
      if r.cls = .be ∧ r.since + 10000 ≤ steadyNs s then { r with promoted := true } else r
    doneIf (decide (channel < 12)) (updChan channel (fun c => { c with queue := c.queue.map raise }) s) s

/-- REFRESH_INTERVAL (R322): one more refresh is owed, or at 8 one is forced. -/
def execRefreshInterval (channel : Nat) (s : State) : Res :=
  match s.mem.chans[channel]? with
  | none => done s
  | some c =>
    doneIf (s.power.running && !c.fenced && !c.selfRefresh)
      (updChan channel (fun c => if c.owed < 8 then { c with owed := c.owed + 1 } else { c with forced := true }) s) s

/-- A pair's banks are held open (R323). -/
def pairHeld (c : Channel) (p : Nat) : Bool := c.heldBanks.contains p || c.heldBanks.contains (p + 8)

/-- The pair that a refresh takes (R323). -/
def refreshPair (c : Channel) : Option Nat :=
  let left := (List.range 8).filter fun p => !c.round.contains p
  match left.find? fun p => !pairHeld c p with
  | some p => some p
  | none => left.head?

/-- REFRESH_ISSUE (R322, R323): a forced refresh that meets a held bank interrupts the burst and is counted under 0x0623. -/
def execRefreshIssue (channel : Nat) (s : State) : Res :=
  match s.mem.chans[channel]? with
  | none => done s
  | some c =>
    if !s.power.running || c.fenced || c.selfRefresh || !refreshFirst s channel c then done s
    else match refreshPair c with
      | none => done s
      | some p =>
        let forced := c.forced
        let round := setAdd p c.round
        done (updChan channel (fun c => { c with
          owed := if forced then c.owed else c.owed - 1, forced := false, round := if 8 ≤ round.length then [] else round
          interrupted := if forced && pairHeld c p then c.interrupted + 1 else c.interrupted }) s)

/-- DRAM_TEMP_POLL (R319): tREFIpb from each channel's temperature status. -/
def execDramTempPoll (hot : List Bool) (s : State) : Res :=
  doneIf (quinbuarRuns s) (updMem (fun m => { m with
    chans := m.chans.zipIdx.map fun x => { x.1 with trefi := match hot[x.2]? with
      | some h => if h then 244 else 488
      | none => x.1.trefi } }) s) s

/-- DRAM_ECS_POLL (R326): a die's count that has risen is logged with its increase, as an error of the die's channel: the dies come in
the order of their channels (DESIGN CHOICE, log 42). -/
def execDramEcsPoll (counts : List Nat) (s : State) : Res :=
  let poll (s : State) (x : Nat × Nat) : State :=
    let old := s.mem.ecsCounts.getD x.2 0
    if old < x.1 then logErr 0x0613 (40 + x.2 * 16 / counts.length) x.2 s { arg0 := x.1 - old } else s
  doneIf (quinbuarRuns s) (updMem (fun m => { m with ecsCounts := counts ++ m.ecsCounts.drop counts.length })
    (counts.zipIdx.foldl poll s)) s

/-- A channel's DQ delays follow its oscillator count (R330); by how much the manual does not say. -/
def trackDelays (count : Nat) (c : Channel) : Channel :=
  let moved (l : List Nat) : List Nat := l.map fun d => Config.trackedDelay d c.wckCount count
  { c with wckCount := count, delays := c.delays.map fun d => { d with readDq := moved d.readDq, writeDq := moved d.writeDq } }

/-- WCK_TRACK (R330): each channel's count is read and its delays adjusted, never while a port is in panic. -/
def execWckTrack (counts : List Nat) (s : State) : Res :=
  doneIf (quinbuarRuns s && !anyPanic s) (updMem (fun m => { m with
    chans := m.chans.zipIdx.map fun x => trackDelays ((counts[x.2]?).getD x.1.wckCount) x.1 }) s) s

/-- SCRUB (R305): the scrubber reads the SRAM word at an address and finds `flipped` bits in error: one is corrected, more are
logged and stay. -/
def execScrub (addr flipped : Nat) (s : State) : Res :=
  inRange (eccWord s addr) s <|
    let w := addr / 8
    let (i, u) := wordSource s addr
    if !s.power.running then done s
    else if 2 ≤ flipped ∨ s.mem.ue.contains w then
      done (logErr 0x0611 i u (updMem (fun m => { m with ue := setAdd w m.ue }) s) { arg0 := 8 * w })
    else if flipped = 1 ∨ s.mem.sbe.contains w then done (correctWord w s)
    else done s

/-- TLB_INVALIDATE (R316): no TLB holds an entry of the range any more. -/
def execTlbInvalidate (base size : Nat) (s : State) : Res := done (tlbDrop base size s)

/-- A read of a submission ring, or of port RT4 of a submitted frame's buffers, for which one eighth of the tags is held (R321, R392). -/
def readReserved (s : State) (a : Nat) : Bool :=
  ((List.range 4).any fun q => sqEnabled s q &&
    decide (ringBase s (regSqb q) ≤ a ∧ a < ringBase s (regSqb q) + 64 * sqEntries s q)) ||
  s.mbx.cmds.any fun c => c.opc == 0x24 &&
    (submitBuffers (paramBlock s c) (arg c 1 1)).any fun b => decide (b.1 ≤ a ∧ a < b.1 + b.2)

/-- HOST_READ_ISSUE (R392): a fenced island 2 answers TARGET_RESET (R369); where no request may leave, the read fails at once (R314,
R379). -/
def execHostReadIssue (addr len : Nat) (s : State) : Res :=
  if !s.power.running then done s
  else if islandFenced s 2 then done (emit (.fenceOutcome 0x0011) s)
  else if !canSend s then done (failReads (splitRead (maxRead s) false false (ceilDiv len (maxRead s)) addr len) s)
  else done (askHost addr len (readReserved s addr) false s)

/-- A read ends (R314): its data is marked when it fails or arrives poisoned, with the status of that (R361), and an op that waits for it
goes on; a failure logs 0x0604. -/
def endRead (tag : Nat) (failed poisoned : Bool) (s : State) : State :=
  match s.mem.reads.find? fun r => r.tag == some tag with
  | none => s
  | some r =>
    let lines := readLines r.addr r.len
    let st := if failed then 0x0604 else 0x0901
    let s := updMem (fun m => { m with
      reads := m.reads.erase r, hostEcrc := lines.foldl (fun l x => setDel x l) m.hostEcrc
      hostBad := lines.foldl (fun l x => if failed || poisoned then tabPut x st l else tabDel x l) m.hostBad
      hostIn := if r.forOp then lines.foldl (fun l x => setAdd x l) m.hostIn else m.hostIn }) s
    let s := if failed then logErr 0x0604 2 0 s { arg0 := r.addr, arg1 := r.len, poison := true } else s
    startReads s.mem.reads.length s

/-- HOST_READ_COMPLETION (R314, R396): data that arrives poisoned is logged with 0x0901. -/
def execHostReadCompletion (tag : Nat) (error poisoned : Bool) (s : State) : Res :=
  if s.mem.reads.any fun r => r.tag == some tag then
    let s := endRead tag error poisoned s
    if poisoned && !error then
      done (setAer 12 (orReg 0x08 2 (logErr 0x0901 2 0 s { arg0 := tag, poison := true })))
    else done s
  else done (setAdvisory 16 (logErr 0x0903 2 0 s { arg0 := tag }))

/-- COMPLETION_TIMEOUT (R314, R396). -/
def execCompletionTimeout (tag : Nat) (s : State) : Res :=
  doneIf (s.mem.reads.any fun r => r.tag == some tag) (setAer 14 (endRead tag true false s)) s

end Sys2Proof.Machine
end

