-- ==== Sys2Proof/Machine/Sessions.lean ====
section
/-! DEFINITION. The end of a host session (R394) and the resets of the endpoint that bring it (R393), PCI Express errors aside. -/

namespace Sys2Proof.Machine

/-- A host-supplied stream (R420). -/
def hostSupplied (x : Stream) : Bool := x.cfg.source == 3 || x.cfg.source == 4

/-- The indices of streams with a property. -/
def streamsWith (s : State) (p : Stream → Bool) : List Nat :=
  s.streams.zipIdx.filterMap fun x => match x.1 with | some y => if p y then some x.2 else none | none => none

/-- The cold tier is revoked, its mapping with it (R302): pages that lie there, or move from there, are marked POISON (R394, R166). -/
def revokeCold (s : State) : State :=
  let s := match s.aviary.cold with | some (b, n) => unmapHost coldWindow b n s | none => s
  updAviary (fun a => { a with
    cold := none
    pages := a.pages.map fun d => (d.1,
      if d.2.tier == .cold || (d.2.tier == .moving && d.2.backCold) then { d.2 with poison := true } else d.2) }) s

/-- The rings, the commands and completions in progress, the notices and the session are gone (R394). -/
def dropRings (m : Mailbox) : Mailbox :=
  { Mailbox.reset with discarded := m.discarded, udp := m.udp }

/-- What Quinbuar does at a host session end (R394, R349); it logs 0x0906. -/
def sessionEnd (s : State) : State :=
  let s := updMbx dropRings s
  let s := (streamsWith s hostSupplied).foldl (fun s n => beginClose n s) s
  let s := (List.range 32).foldl (fun s k => endClip k 0 s) s
  let s := breakLocks 2 (revokeCold s)
  let s := updGate (fun g => { g with sessionOver := true }) (updMem (fun m => { m with reads := m.reads.filter fun r => r.tag.isSome }) s)
  logErr 0x0906 2 0 s

/-- GHS_RESETS after a hot reset or FLR: FLR counts one more, ISL stays (R397). -/
def countFlr (v : BitVec 32) : BitVec 32 :=
  BitVec.ofNat 32 (v.toNat % 65536 + 65536 * ((v.toNat / 65536 + 1) % 65536))

/-- BAR0 after a reset of the endpoint: reset values, but for what PERST_N's scope (R393), the link (R397) and Quinbuar's
READY and boot steps (R398, R401) hold. -/
def endpointRegs (s : State) (resets : BitVec 32) : Tab (BitVec 32) :=
  let keep := [0x000004, 0x100050, 0x40000C, 0x400018]
  let t := keep.foldl (fun t o => if reg s o = 0 then tabDel o t else tabPut o (reg s o) t) Gate.resetRegs
  let stat := BitVec.ofNat 32 (bits (reg s 0x100050).toNat 8 1 * 256)
  let t := if stat = 0 then tabDel 0x100050 t else tabPut 0x100050 stat t
  if resets = 0 then tabDel 0x00000C t else tabPut 0x00000C resets t

/-- Configuration space after a hot reset or FLR: the sticky masks, severities and controls of AER stand (R393). -/
def stickyCfg (cfg : Tab (BitVec 32)) : Tab (BitVec 32) :=
  [0x108, 0x10C, 0x114, 0x118].foldl (fun t o => match tabGet o cfg with | some v => tabPut o v t | none => tabDel o t) Gate.resetCfg

/-- The endpoint after a hot reset or FLR (R393): configuration space except sticky bits, BAR0 and the MSI-X table take their
reset values; the function is in D0. -/
def resetEndpoint (resets : BitVec 32) (s : State) : State :=
  let regs := endpointRegs s resets
  let s := if s.gate.inta then emit .deassertInta s else s
  let s := updGate (fun g => { Gate.reset with
    regs := regs, cfg := stickyCfg g.cfg, linkUp := g.linkUp, configReady := g.configReady, linkErrors := g.linkErrors, aer := g.aer }) s
  updErr (fun e => { e with head := 0, tail := 0, stat := 0, droppedEntries := 0, droppedReports := 0 }) s

/-- A hot reset or an FLR takes effect: the endpoint is reset and the host session ends (R393, R394). -/
def endpointReset (s : State) : State := sessionEnd (resetEndpoint (countFlr (reg s 0x00000C)) s)

/-- A hot reset (1) or FLR (2): while island 2 is fenced it takes effect at the unfence (R495 ruling 13). -/
def requestEndpointReset (kind : Nat) (s : State) : State :=
  if (match s.fenced with | some j => j.island == 2 | none => false) then updGate (fun g => { g with heldReset := kind }) s
  else endpointReset s

/-- HOT_RESET (R393); during last breath it waits for the reset of R474, which includes it (R510). -/
def execHotReset (s : State) : Res := doneIf (s.gate.linkUp && !s.power.breath) (requestEndpointReset 1 s) s

/-- FLR (R393), as HOT_RESET during last breath. -/
def execFlr (s : State) : Res := doneIf (s.gate.linkUp && s.gate.configReady && !s.power.breath) (requestEndpointReset 2 s) s

end Sys2Proof.Machine
end

