-- ==== Sys2Proof/Machine/Errors.lean ====
section
/-! DEFINITION. Errors and partial resets (R363 to R373): reports and their coalescing, parity faults, the fence, the reset of
one island at a time and its unfence. -/

namespace Sys2Proof.Machine

/-- ERROR_REPORT (R365, R366). -/
def execErrorReport (status island unit stream arg0 arg1 : Nat) (torn poison : Bool) (s : State) : Res :=
  inRange (decide (island ≤ 60 ∧ unit < 256 ∧ status < 65536 ∧ stream < 256)) s <|
    doneIf s.power.running (report { stamp := nowNs s, status := status, island := island, unit := unit, stream := stream,
                                     arg0 := arg0, arg1 := arg1, torn := torn, poison := poison } s) s

/-- COALESCE_FLUSH (R366): at the end of an interval with a count, its entry is written and a new interval opens. -/
def execCoalesceFlush (island unit : Nat) (s : State) : Res :=
  inRange (decide (island ≤ 60)) s (done (dueFlush island unit s))

/-- The lanes of an island (R16, R61). -/
def islandLanes (island : Nat) : List Nat := (List.range 56).filter fun k => laneIsland k == island

/-- An op in progress on a lane of a reset island ends: a job fault with 0x0011 (R368, R370); it still signals (R87). -/
def faultLane (k : Nat) (s : State) : State :=
  match s.score.lanes[k]? with
  | none => s
  | some l =>
    let s := match l.running with
      | some r => updLane k (fun l => { l with running := some { r with finished := true } })
          (jobFault k r.op.ctx 0x0011 0 none s)
      | none => s
    updLane k (fun l => { l with cues := [], lateCues := l.lateCues + l.cues.length }) s

/-- A tile in progress whose draining Pergola is reset: a job fault of its batch with 0x0011 (R94, R114, R370). -/
def drainFault (k : Nat) (s : State) : State :=
  match (s.score.lanes[k]?).bind (·.running) with
  | some r => if opOpc r.op.word = 0x10 ∨ opOpc r.op.word = 0x11 then jobFault k r.op.ctx 0x0011 0 none s else s
  | none => s

/-- The lanes of the Orangeries that drain through the Pergola of an island (R94). -/
def drainedLanes (island : Nat) : List Nat :=
  if 30 ≤ island ∧ island ≤ 37 then [orangeryLane (2 * (island - 30)), orangeryLane (2 * (island - 30) + 1)] else []

/-- An address of a store of the island. -/
def storeOf (island : Nat) (s : State) (a : Nat) : Bool := isSram a && (addrSource s a).1 == island

/-- A mover's op in progress writes into a store of the island, or reads from one: a request of it may be in flight there. -/
def writesInto (island : Nat) (s : State) (r : RunningOp) : Bool :=
  (moverDst s (imgMove s.score.image (argDesc r.op.word))).any (storeOf island s)
def readsFrom (island k : Nat) (s : State) (r : RunningOp) : Bool :=
  (moveReads k s (imgMove s.score.image (argDesc r.op.word))).any fun x => storeOf island s x.addr
def crosses (island k : Nat) (s : State) (r : RunningOp) : Bool :=
  (opOpc r.op.word == 0x20 || opOpc r.op.word == 0x21) && (writesInto island s r || readsFrom island k s r)

/-- The request of a mover's op at the fence has one of the outcomes of R369, which is a free value: its reply is delivered, it is
lost, or it meets TARGET_RESET; the op then faults, or a run-ahead op defers the fault (R370). Of a write whose reply is lost every byte
has landed, else what the op has written is unspecified. -/
def crossFault (island k : Nat) (s : State) : State :=
  match (s.score.lanes[k]?).bind (·.running) with
  | none => s
  | some r =>
    if !crosses island k s r then s
    else
      let (v, s) := freeNat s
      if v % 3 = 0 then s
      else
        let st := if v % 3 = 1 then 0x0012 else 0x0011
        let d := imgMove s.score.image (argDesc r.op.word)
        let dst := moverDst s d
        let (free, t) := freeBytes dst.length s
        let s := if st = 0x0012 && writesInto island s r then s
          else writeOp d.dst ((dst.zip free).map fun x => { addr := x.1, val := x.2, mark := false }) t
        if opOpc r.op.word = 0x20 then jobFault k r.op.ctx st d.dst none s
        else markDeferred dst (k - moverLane 0) st s

/-- The movers' lanes (R61). -/
def moverLanes : List Nat := (List.range 24).map moverLane

/-- A memory whose bytes from `base` on are `bs`. -/
def storeBytes (base : Nat) (bs : List Byte) (m : Memory) : Memory :=
  m.filter (fun x => decide (x.1 < base))
    ++ (bs.zipIdx.filterMap fun x => if x.1 = 0 then none else some (base + x.2, x.1))
    ++ m.filter (fun x => decide (base + bs.length ≤ x.1))

/-- A local store whose content the reset leaves unspecified: free bytes, without marks or errors (R371, log 45). -/
def renewStore (base n : Nat) (s : State) : State :=
  let (bs, s) := freeBytes n s
  let s := (s.mem.deferred.filter fun d => decide (base ≤ d.1 ∧ d.1 < base + n)).foldl (fun s d => clearDeferred d.1 s) s
  let other (w : Nat) : Bool := decide (8 * w < base ∨ base + n ≤ 8 * w)
  updMem (fun m => { m with
    bytes := storeBytes base bs m.bytes, sramPoison := m.sramPoison.filter other, ue := m.ue.filter other
    sbe := m.sbe.filter other }) s

/-- A Trellis island's reset takes its link DOWN (R467); a FENCED link stays so until the next boot (R446). -/
def resetLink (k : Nat) (s : State) : State :=
  match s.trellis.links[k]? with
  | some l => if l.state = .fenced then s else linkDown k s
  | none => s

/-- The Gatehouse's reads in flight at the reset of island 2 end by R369: a read's reply is delivered, or lost, or it meets TARGET_RESET,
which is a free value (log 219). An op that waits for its data goes on with what has come, or faults (R370). -/
def endLostReads (s : State) : State :=
  let rs := s.mem.reads
  let s := updMem (fun m => { m with reads := [] }) s
  rs.foldl (fun s r =>
    let (v, s) := if r.tag.isSome then freeNat s else (2, s)
    let lines := readLines r.addr r.len
    updMem (fun m => { m with
      hostBad := if v % 3 = 0 then m.hostBad else lines.foldl (fun t l => tabPut l (if v % 3 = 1 then 0x0012 else 0x0011) t) m.hostBad
      hostIn := if r.forOp then lines.foldl (fun l x => setAdd x l) m.hostIn else m.hostIn }) s) s

/-- The Ethernet ports' reset: the fragments that wait for others, and the address resolutions under way, are gone (R368; what else of
the ports Quinbuar holds stands, DESIGN CHOICE, log 215). -/
def resetPorts (s : State) : State := { s with eth := s.eth.map fun e => { e with parts := [], unresolved := [] } }

/-- The Belvedere ports' reset: a frame in reception on any of them is damaged, as by the loss of its lanes (R203, R368; DESIGN CHOICE,
log 215). -/
def resetSensors (s : State) : State :=
  (List.range 4).foldl (fun s p => (List.range 128).foldl (fun s n => dropSync p n s) s) s

/-- The reserve ALLOCs that wait complete with TARGET_RESET (R352, R369). -/
def endWaits (s : State) : State :=
  let n := (s.pools.map fun p => p.waiting.length).sum
  (List.range n).foldl (fun s _ => emit (.cellResult 0x0011 0) s) { s with pools := s.pools.map fun p => { p with waiting := [] } }

/-- A self-test, or a channel's entry into self-refresh, failed: the island stays fenced until the next boot, and the ledger records it
(R368, log 46). -/
def fenceForGood (i : Nat) (s : State) : State :=
  let s := updIsland i (fun x => { x with bootFenced := true, safe := [] }) s
  let s := if 40 ≤ i ∧ i ≤ 55 then
      logErr 0x0622 i 0 (updChan (i - 40) (fun c => { c with fenced := true, selfRefresh := false }) s) else s
  let s := if 56 ≤ i ∧ i ≤ 60 then fenceLink (i - 56) 0x0703 s else s
  saveLedger (updPower (fun p => { p with ledger := { p.ledger with failedTests := setAdd i p.ledger.failedTests } }) s)

/-- The channel's DRAM enters self-refresh, or fails to, which is a free value (R368, step 2; log 219). -/
def selfRefresh (k : Nat) (s : State) : State :=
  let (v, s) := freeNat s
  if v % 2 = 1 then fenceForGood (40 + k) s else updChan k (fun c => { c with selfRefresh := true }) s

/-- The island's cores and stores after step 3 (R368, R371): what each unit's own chapter says of its reset. The clip encoder of island
13 holds nothing between two pictures. -/
def clearIsland (i : Nat) (s : State) : State :=
  if i = 2 then endLostReads s
  else if i = 3 then resetPorts s
  else if i = 4 then resetSensors s
  else if 5 ≤ i ∧ i ≤ 8 then resetFountain (i - 5) s
  else if 9 ≤ i ∧ i ≤ 12 then resetTopiary (i - 9) s
  else if 14 ≤ i ∧ i ≤ 29 then
    renewStore (0x4000000 + (i - 14) * 0x200000) 0x200000
      (updOrangery (i - 14) (fun x => { x with banks := [], pass := [], links := [] }) s)
  else if 30 ≤ i ∧ i ≤ 37 then renewStore (0x6000000 + (i - 30) * 0x80000) 0x80000 s
  else if i = 38 then tearAll 0x0011 s
  else if i = 39 then
    let s := breakAllLocks (tearAll 0x0011 s)
    let s := endWaits s
    logErr 0x0639 39 0 { tlbClear s with pools := s.pools.map fun p => { p with head := [], tail := [] } }
  else if 40 ≤ i ∧ i ≤ 55 then selfRefresh (i - 40) s
  else if 56 ≤ i ∧ i ≤ 60 then resetLink (i - 56) s
  else s

/-- A partial reset begins (R368, R370): fence, locks, batches, then the island's own state; it is not time-ready. -/
def beginReset (j : ResetJob) (s : State) : State :=
  let s := moverLanes.foldl (fun s k => crossFault j.island k s) s
  let s := breakLocks j.island { s with fenced := some j }
  let s := (islandLanes j.island).foldl (fun s k => faultLane k s) s
  let s := (drainedLanes j.island).foldl (fun s k => drainFault k s) s
  updIsland j.island (fun x => { x with ready := false, agree := 0, missed := 0 }) (clearIsland j.island s)

/-- Whether an island can be reset: 1 to 60 (R368). -/
def canReset (i : Nat) : Bool := decide (1 ≤ i ∧ i ≤ 60)

/-- A reset is asked for (R368, R372, R495 ruling 9): it begins at once, waits for the one in progress, or, while a SWITCH runs, is
carried over to the new Quinbuar. -/
def requestReset (island cause : Nat) (cmd : Option (Nat × Nat)) (s : State) : State :=
  let j : ResetJob := { island := island, cause := cause, since := steadyNs s, cmd := cmd }
  let known := (s.fenced.toList ++ s.resetQueue ++ s.power.update.waitingReset).any fun k => k.island == island && cmd.isNone
  if !canReset island || known then s
  else if s.power.update.switching.isSome then
    updPower (fun p => { p with update := { p.update with waitingReset := p.update.waitingReset ++ [j] } }) s
  else if s.fenced.isNone then beginReset j s
  else
    let before (a b : ResetJob) : Bool := decide (a.since < b.since) || (a.since == b.since && decide (a.island < b.island))
    { s with resetQueue := insertBy before j s.resetQueue }

/-- The island runs: island 0 as long as it has power, the Gatehouse in recovery mode as well (R485), and all in last breath out of
service until MAINGOOD falls (R470, R473). -/
def islandRuns (island : Nat) (s : State) : Bool :=
  s.power.running || (island == 0 && s.power.aonAlive) || (island == 2 && s.power.recovery) ||
    (s.power.breath && s.power.maingood && s.power.bootStep == 11)

/-- PARITY_FAULT (R363): the unit enters its safe state and Quinbuar, where it runs, resets its island; in island 0 the Warden reloads the
register in place, and a cue pin, which are its units 0 to 15 (DESIGN CHOICE, log 216), stays DISABLED. -/
def execParityFault (island unit register : Nat) (s : State) : Res :=
  inRange (decide (island ≤ 60 ∧ unit < 256)) s <|
    if !islandRuns island s then done s
    else
      let s := logErr 0x0013 island unit s { arg0 := register }
      if island = 0 then
        done (match s.pins[unit]? with | some p => finishBatches (setPinMode unit .disabled p.par s) | none => s)
      else
        let s := updIsland island (fun x => { x with safe := setAdd unit x.safe }) s
        done (if s.power.running then requestReset island 0x0013 none s else s)

/-- PARTIAL_RESET (R368). -/
def execPartialReset (island cause : Nat) (s : State) : Res :=
  inRange (canReset island) s (doneIf s.power.running (requestReset island cause none s) s)

/-- Build the free ring of a pool anew (R352): its cells with COUNT 0, and no other, are free, in rising order. Those never taken stand in
the ring's last entries as boot left them, those taken before them. -/
def rebuildRing (q : Nat) (s : State) : State :=
  match s.pools[q]? with
  | none => s
  | some p =>
    let cells := (List.range p.size).filter fun c => c != 0 && cellCount s (cellIndex q c) == 0
    let all := cells.zipIdx.map fun x => cellsAt (ringEntry p (p.size - 1 - cells.length + x.2)) (leBytes 4 x.1) false
    updPool q (fun p => { p with
      fresh := p.size, freed := cells, lent := [], head := [], tail := [], ringHead := p.size - 1 - cells.length, ringTail := 0 })
      (writePhys .control all.flatten s)

/-- What the unfence of an island restores (R352, R395, R467): a DRAM controller has left self-refresh and run training step 6 without an
error (R328, R368). -/
def restoreIsland (i : Nat) (s : State) : State :=
  if i = 39 then (List.range 8).foldl (fun s q => rebuildRing q s) s
  else if 40 ≤ i ∧ i ≤ 55 then updChan (i - 40) (fun c => { c with selfRefresh := false, helper := runHelper .prbs15 false dqLanes [] c.helper }) s
  else if i = 2 then
    let r := (reg s 0x00000C).toNat
    let s := setReg 0x00000C (BitVec.ofNat 32 (r / 65536 * 65536 + (r % 65536 + 1) % 65536)) s
    orReg 0x000008 1 s
  else if 56 ≤ i ∧ i ≤ 60 then
    match s.trellis.links[i - 56]? with
    | some l => if l.state = .down && l.peer.isSome then startTraining (i - 56) s else s
    | none => s
  else s

/-- PWR_ISLRST shows the end of the reset that it started (R401). -/
def settleIslrst (island result : Nat) (s : State) : State :=
  if s.gate.islrst = some island then
    updGate (fun g => { g with islrst := none })
      (setReg 0x400010 (BitVec.ofNat 32 (bits (reg s 0x400010).toNat 0 6 + result * 2 ^ 12)) s)
  else s

/-- A reset ends (R368, R372): its command completes with RESULT, and the next reset begins. After one of island 2 the device sends a
message, or raises INTA, for each enabled cause that is still set (R395). -/
def endReset (j : ResetJob) (result : Nat) (s : State) : State :=
  let s := settleIslrst j.island result { s with fenced := none }
  let s := if j.island = 2 && result == 1 then formHeld (resendCauses s) else s
  let s := match j.cmd with | some (q, cid) => finishCmd q cid 0 result false s | none => s
  let s := if j.island = 2 && s.gate.heldReset != 0 then
      endpointReset (updGate (fun g => { g with heldReset := 0 }) s) else s
  match s.resetQueue with
  | [] => s
  | k :: l => beginReset k { s with resetQueue := l }

/-- ISLAND_UNFENCE (R368): a time-ready island is unfenced at a beat boundary (R37) and 0x0014 is logged with the reset's cause. -/
def execIslandUnfence (selfTestPassed : Bool) (s : State) : Res :=
  match s.fenced with
  | none => done s
  | some j =>
    if !s.power.running then done s
    else if (match s.islands[j.island]? with | some x => x.bootFenced | none => false) then done (endReset j 2 s)
    else if !selfTestPassed then done (endReset j 2 (fenceForGood j.island s))
    else
      let ready := match s.islands[j.island]? with | some x => x.ready | none => false
      doneIf (ready && atBeat s.band) (endReset j 1 (logErr 0x0014 j.island 0
        (restoreIsland j.island (updIsland j.island (fun x => { x with safe := [] }) s)) { arg0 := j.cause })) s

end Sys2Proof.Machine
end

