-- ==== Sys2Proof/Machine/Commands.lean ====
section
/-! DEFINITION. Host commands that concern the device as a whole (R417 to R419, R424, R425, R439): identity and session,
subscriptions, time, pins, network, memory, the journal, partial resets. The other commands stand beside what they act on. -/

namespace Sys2Proof.Machine

/-- The FEATURES word (R418). -/
def features (s : State) : Nat :=
  flag (decide (1 < s.trellis.chips)) 0 + flag s.aviary.cold.isSome 1
    + flag (match s.pkg with | some p => p.adapts | none => false) 2 + flag s.censusOn 3

/-- The interface version that Quinbuar speaks: major 1, minor 0 (R417). -/
def ifVersion : Nat := 1

/-- The 256 bytes of IDENTIFY (R418). -/
def identity (s : State) : List Byte :=
  let word := (reg s 0).toNat
  padTo 256 (leBytes 4 ifVersion ++ leBytes 4 s.power.version ++ leBytes 2 0x0640 ++ leBytes 1 (bits word 0 8)
    ++ leBytes 1 (bits word 8 4) ++ leBytes 4 0 ++ leBytes 8 s.power.ledger.serial ++ leBytes 8 (pkgid s)
    ++ leBytes 1 s.trellis.chip ++ leBytes 1 s.trellis.chips ++ leBytes 2 (s.streams.filterMap id).length
    ++ leBytes 4 (features s) ++ leBytes 4 (s.journal.filter (·.recovered)).length ++ leBytes 4 s.power.ledger.jsizeMiB
    ++ padTo 28 (healthEntry s).data)

/-- IDENTIFY (R418). -/
def execIdentify (q cid : Nat) (s : State) : Res :=
  runCommand q cid { bareRow 0x01 0 with resultSize := fun _ _ => 256 } (fun c s => bufCmd c 0 (identity s) s) s

/-- The notices 0x0311 of the candidates that still wait in HOLD (R495 ruling 18). -/
def renotice (s : State) : State :=
  (List.range 128).foldl (fun s n => match (stream? s n).bind (·.candidate) with
    | some c => addNotice { status := 0x0311, stream := n,
                            result := c.trigger % 2 ^ 32 + c.digest.toNat % 2 ^ 32 * 2 ^ 32 } s
    | none => s) s

/-- HELLO (R417): major version 1 begins or replaces the session, at the lower minor version. -/
def execHello (q cid : Nat) (s : State) : Res :=
  runCommand q cid (bareRow 0x02 0) (fun c s =>
    if arg c 0 2 ≠ 1 then endCmd c 0x0914 s
    else
      let first := s.mbx.session.isNone
      let s := updMbx (fun m => { m with session := some (min (arg c 2 2) 0) }) s
      let s := if first then renotice s else s
      okCmd c (ifVersion + 2 ^ 32 * features s) s) s

/-- A ring's ranges and alignments (R424). -/
def ringOk (r : RingSub) : Bool :=
  decide (r.vector < 64 ∧ 10 ≤ r.size ∧ r.size ≤ 15) && r.base % 4096 == 0 && r.statAddr % 8 == 0

/-- A destination's ranges (R206). -/
def udpOk (u : UdpSub) : Bool :=
  decide (u.port < 2 ∧ 512 ≤ u.payload ∧ u.payload ≤ 8972 ∧ u.dscp < 64) && (u.family == 4 || u.family == 6)
    && (u.vlan == 0xFFFF || decide (u.vlan < 4096))

/-- The status of a SUBSCRIBE block (R424, R425), 0 when it is accepted. -/
def subStatus (s : State) (b : List Byte) : Nat :=
  let k := subKind b
  let d := subId b
  if 1 < k ∨ 63 < d ∨ (k = 1 ∧ b.length < 0x50) then 0x0913
  else if 16 ≤ subTypes b then 0x0002
  else if k = 0 then
    if (s.mbx.udp.getD d none).isSome || !ringOk (ringOf b (s.mbx.rings.getD d none)) then 0x0913 else 0
  else if (s.mbx.rings.getD d none).isSome || !udpOk (udpOf b (s.mbx.udp.getD d none)) then 0x0913 else 0

/-- SUBSCRIBE (R424, R425): its settings apply once its completion is written. -/
def execSubscribe (q cid : Nat) (s : State) : Res :=
  runCommand q cid { bareRow 0x30 0 with block := true, minPlen := 0x38 } (fun c s =>
    let b := paramBlock s c
    let st := subStatus s b
    if st ≠ 0 then endCmd c st s else okCmd c 0 (updCmd c.q c.cid (fun c => { c with block := b }) s)) s

/-- The row of UNSUBSCRIBE: a delivery ring's or a destination's index in the second byte of ARGS (R15, R414, R419). -/
def unsubRow : CmdRow := { bareRow 0x31 0 with indexOk := fun _ c => decide (arg c 1 1 < 64) }

/-- UNSUBSCRIBE (R425): kind in the first byte of ARGS, id in the second; delivery stops once its completion is written. -/
def execUnsubscribe (q cid : Nat) (s : State) : Res :=
  runCommand q cid unsubRow (fun c s =>
    let d := arg c 1 1
    let known := match arg c 0 1 with
      | 0 => (s.mbx.rings.getD d none).isSome
      | 1 => (s.mbx.udp.getD d none).isSome
      | _ => false
    endCmd c (if known then 0 else 0x0913) s) s

/-- The ranges of a TIME_CONFIG block (R47, R50, R197). -/
def timeParamsOk (p : TimeParams) : Bool :=
  !p.order.contains .none && p.order.eraseDups.length == p.order.length
    && decide (1000 ≤ p.ppsOutWidth ∧ p.ppsOutWidth ≤ 500000000 ∧ p.ptpDomain < 128 ∧ p.ptpTransport < 3 ∧ p.asym.length = 5)

/-- TIME_CONFIG (R47, R50, R52, R54, R197, R460). -/
def execTimeConfig (q cid : Nat) (p : TimeParams) (s : State) : Res :=
  runCommand q cid { bareRow 0x50 0 with block := true } (fun c s =>
    if !timeParamsOk p then endCmd c 0x0002 s
    else
      let s := if s.band.tstate == .holdover then foldEstimate s else s
      okCmd c 0 (updBand (fun b => { b with
        order := p.order, stepsInService := p.stepsInService, holdoverRate := p.holdoverRate, ppsOutWidth := p.ppsOutWidth,
        ptpDomain := p.ptpDomain, ptpTransport := p.ptpTransport, asym := p.asym }) s)) s

/-- The offset of local time against a set time, in 2^-16 ns: nanoseconds at ARGS 0x00, fraction at 0x08 (R11, R419). -/
def setOffset (s : State) (c : HostCmd) : Int :=
  ((s.band.count / 2 ^ 16 : Nat) : Int) - ((arg c 0 8 * 2 ^ 16 + arg c 8 2 : Nat) : Int)

/-- TIME_SET (R47, R49, R52): a sample of the source that the host is; RESULT[0] says that it is applied by slewing. -/
def execTimeSet (q cid : Nat) (s : State) : Res :=
  runCommand q cid (bareRow 0x51 0) (fun c s =>
    let slews := anyStream s && !s.band.stepsInService
    let s := takeSample .hostSet (setOffset s c) s
    okCmd c (flag (slews && s.band.source == .hostSet) 0) s) s

/-- The mode codes of PIN_CONFIG, in the order of R42. -/
def pinModeOf (k : Nat) : PinMode :=
  match k with
  | 0 => .disabled
  | 1 => .input
  | 2 => .output
  | _ => .strobe

/-- The ranges of a PIN_CONFIG block (R42, R513). -/
def pinParamsOk (m : PinMode) (p : PinParams) : Bool :=
  decide (p.filter ≤ 1020) && p.filter % 4 == 0 && (p.drive == 4 || p.drive == 8 || p.drive == 12)
    && (m != .strobe || decide (8 ≤ p.width ∧ p.width + 8 ≤ p.period ∧ p.count < 2 ^ 32))

/-- PIN_CONFIG (R40, R42, R43). -/
def execPinConfig (q cid : Nat) (p : PinParams) (s : State) : Res :=
  runCommand q cid { bareRow 0x52 0 with block := true } (fun c s =>
    let m := pinModeOf (bits (arg c 1 1) 0 2)
    if !pinParamsOk m p then endCmd c 0x0002 s else okCmd c 0 (finishBatches (setPinMode (bits (arg c 0 1) 0 4) m p s))) s

/-- A host cue for a pin (R38, R41, R43): refused with 0x0020 when its queue is full, dropped and counted with 0x0022 when the pin
drives nothing; RESULT is the instant at which it was armed, which the cue lead bounds and nothing else fixes (free value, log 4). -/
def hostCue (c : HostCmd) (a : CueAction) (s : State) : State :=
  let n := bits (arg c 0 1) 0 4
  let limit := match s.pins[n]? with | some p => p.par.lateLimit | none => 0
  let cue : Cue := { target := .pin n, source := .host, instant := arg c 8 8, action := a, lateLimit := limit }
  let drives := match s.pins[n]? with | some p => pinDrives p | none => false
  if !drives then endCmd c 0x0022 (issueCue cue s)
  else if cueRefused cue s then endCmd c 0x0020 s
  else
    let (k, t) := freeNat (issueCue cue s)
    okCmd c (nowNs s + k % (cueLead + 1)) t

/-- HOST_PIN_LEVEL (R43, R419): the level is bit 0 of the width argument (DESIGN CHOICE, log 54). -/
def execHostPinLevel (q cid : Nat) (s : State) : Res :=
  runCommand q cid (bareRow 0x53 0) (fun c s => hostCue c (.level (bitAt (arg c 16 8) 0)) s) s

/-- HOST_PIN_PULSE (R43, R419). -/
def execHostPinPulse (q cid : Nat) (s : State) : Res :=
  runCommand q cid (bareRow 0x53 1) (fun c s => hostCue c (.pulse (arg c 16 8)) s) s

/-- HOST_STROBE_START (R42, R43, R419). -/
def execHostStrobeStart (q cid : Nat) (s : State) : Res :=
  runCommand q cid (bareRow 0x53 2) (fun c s => hostCue c .strobeStart s) s

/-- HOST_STROBE_STOP (R42, R43, R419). -/
def execHostStrobeStop (q cid : Nat) (s : State) : Res :=
  runCommand q cid (bareRow 0x53 3) (fun c s => hostCue c .strobeStop s) s

/-- The fields of a reflex rule in range (R45): a pulse, a level change or a strobe start. -/
def reflexOk (p : ReflexParams) : Bool :=
  decide (p.source < 16 ∧ p.target < 16 ∧ p.delay < 2 ^ 32 ∧ p.holdOff < 2 ^ 32) &&
    (match p.action with
     | .level _ => true
     | .pulse _ => true
     | .strobeStart => true
     | _ => false)

/-- REFLEX_CONFIG (R45): a hold-off that runs is not ended by it. -/
def execReflexConfig (q cid : Nat) (p : ReflexParams) (s : State) : Res :=
  runCommand q cid { bareRow 0x54 0 with block := true } (fun c s =>
    if !reflexOk p then endCmd c 0x0002 s else okCmd c 0 (updReflex (bits (arg c 0 1) 0 4) (fun r => { r with par := p }) s)) s

/-- The settings of a port in range (R186): 10GBASE-R has no FEC; one IPv4 address, static or by DHCP, or none; up to four of IPv6. -/
def netOk (p : NetParams) : Bool :=
  (p.speed25 || !p.rsFec) && (p.ipv4.isEmpty || (p.ipv4.length == 4 && !p.dhcp)) && decide (p.ipv6.length ≤ 4 ∧ p.mtu ≤ 9216)
    && p.ipv6.all (fun a => a.length == 16) && (match p.vlan with | some v => decide (v < 4096) | none => true)

/-- NET_CONFIG (R186): a port that takes its address by DHCP asks for one; the port can send from then on (R208), and its island wakes (R489). -/
def execNetConfig (q cid : Nat) (p : NetParams) (s : State) : Res :=
  runCommand q cid { bareRow 0x58 0 with block := true, indexOk := fun _ c => decide (arg c 0 1 < 2) } (fun c s =>
    if !netOk p then endCmd c 0x0002 s
    else
      let s := updEth (arg c 0 1) (fun e => { e with net := some p, lease := none, autoAddrs := [] }) s
      let s := if p.dhcp then emit (.dhcpDiscover (arg c 0 1)) s else s
      okCmd c 0 (formHeld (flushAllUdp (wakeIsland 3 s)))) s

/-- The way masks of a SET_WAY_MASKS: LC, BE and Control, 16 bits each from ARGS 0x08 (DESIGN CHOICE, log 49). -/
def wayMasksOf (c : HostCmd) : List Nat := [arg c 8 2, arg c 10 2, arg c 12 2]

/-- Masks that are non-empty and do not overlap (R297). -/
def masksOk (l : List Nat) : Bool :=
  l.all (· != 0) && (List.range 16).all fun w => decide ((l.filter fun m => bitAt m w).length ≤ 1)

/-- SET_WAY_MASKS (R297): while no stream is open. -/
def execSetWayMasks (q cid : Nat) (s : State) : Res :=
  runCommand q cid (bareRow 0x60 1) (fun c s =>
    if anyStream s || !masksOk (wayMasksOf c) then endCmd c 0x0002 s
    else okCmd c 0 (updMem (fun m => { m with wayMasks := wayMasksOf c }) s)) s

/-- Frames of an owner lie in the cold tier. -/
def coldInUse (s : State) : Bool :=
  s.aviary.reserved.any (fun r => r.2.1) || s.aviary.pages.any fun d => d.2.backCold || d.2.tier == .cold

/-- The cold tier moves to another region of host memory, or is given up; Quinbuar maps it for the movers (R162, R302). -/
def moveCold (region : Option (Nat × Nat)) (s : State) : State :=
  let s := match s.aviary.cold with | some (b, n) => unmapHost coldWindow b n s | none => s
  let s := match region with | some (b, n) => mapHost coldWindow b n s | none => s
  updAviary (fun a => { a with cold := region }) s

/-- SET_COLD_TIER (R162): the region that the command names; one that holds reservations is not moved (DESIGN CHOICE, log 49). -/
def execSetColdTier (q cid : Nat) (base size : Nat) (s : State) : Res :=
  runCommand q cid (bareRow 0x60 2) (fun c s =>
    if coldInUse s || base % 4096 != 0 || decide (2 ^ 36 < size) then endCmd c 0x0002 s
    else okCmd c 0 (moveCold (if size = 0 then none else some (base, size)) s)) s

/-- SET_CENSUS (R345): enable and repair in bits 0 and 1 of ARGS 0x08 (DESIGN CHOICE, log 49). -/
def execSetCensus (q cid : Nat) (s : State) : Res :=
  runCommand q cid (bareRow 0x60 3) (fun c s =>
    let v := arg c 8 1
    okCmd c 0 { s with censusOn := bitAt v 0, censusRepair := bitAt v 1 }) s

/-- The records that a JOURNAL_READ can name (R439, R441): those of a stream, its notice records among them, or every recovered record. -/
def journalOf? (s : State) (n : Nat) : List JournalRec :=
  s.journal.filter fun r => if n = 0xFF then r.recovered else !r.recovered && r.stream == n

/-- A notice record, which has no frame number of its own (R431). -/
def isNotice (r : JournalRec) : Bool := field r.bytes 0 1 % 16 == 2

/-- The records from a frame number on (R439): of a stream those from the newest record of that frame on, of the recovered records, which
belong to several streams, each whose frame number is not lower (DESIGN CHOICE, log 50). -/
def journalFrom (n first : Nat) (l : List JournalRec) : List JournalRec :=
  if n = 0xFF then l.filter fun r => decide (first ≤ r.frame)
  else match posOf (fun r => r.frame == first && !isNotice r) l.reverse with
    | some i => l.drop (l.length - 1 - i)
    | none => []

/-- The first records of a list that fit `room` bytes, at most `count`. -/
def packRecords : (count room : Nat) → List JournalRec → List JournalRec
  | 0, _, _ => []
  | _, _, [] => []
  | k + 1, room, r :: l => if r.bytes.length ≤ room then r :: packRecords k (room - r.bytes.length) l else []

/-- JOURNAL_READ (R439, R441). -/
def execJournalRead (q cid : Nat) (s : State) : Res :=
  runCommand q cid { bareRow 0x69 0 with indexOk := fun _ c => decide (arg c 0 1 < 128 ∨ arg c 0 1 = 0xFF) } (fun c s =>
    let l := journalFrom (arg c 0 1) (arg c 8 8) (journalOf? s (arg c 0 1))
    if l.isEmpty then endCmd c 0x0915 s
    else
      let l := packRecords (min (arg c 16 8) l.length) c.rlen l
      bufCmd c l.length (l.map (·.bytes)).flatten s) s

/-- ISLAND_RESET (R368, R419): it completes when the reset has ended, with the result that PWR_ISLRST would show. -/
def execIslandReset (q cid : Nat) (s : State) : Res :=
  runCommand q cid { bareRow 0x71 0 with indexOk := fun _ c => decide (3 ≤ arg c 0 1 ∧ arg c 0 1 ≤ 60) } (fun c s =>
    requestReset (arg c 0 1) 0 (some (q, cid)) s) s

end Sys2Proof.Machine
end

