-- ==== Sys2Proof/Machine/ImageCheck.lean ====
section
/-! DEFINITION. The load checks of a score image (R89 with R97, R99, R113, R116, R121, R124, R167, R168, R303, R521) and the
walks of its cue stream (R70, R274, R275). -/

namespace Sys2Proof.Machine

/-- The sections of an image as offset and bytes (R88). -/
def imgSections (img : List Byte) : List (Nat × Nat) :=
  let sec (x : Section) (size : Nat) : Nat × Nat := (x.off, size * x.len)
  [sec (imgCues img) 1, sec (imgTiles img) 64, sec (imgVecs img) 64, sec (imgMoves img) 32, sec (imgAvds img) 32,
   sec (imgTargets img) 4, sec (imgTokInit img) 2]

/-- Spans that do not overlap; an empty one overlaps nothing. -/
def spansApart : List (Nat × Nat) → Bool
  | [] => true
  | a :: l => (l.all fun b => decide (a.1 + a.2 ≤ b.1) || decide (b.1 + b.2 ≤ a.1) || a.2 == 0 || b.2 == 0) && spansApart l

/-- Check 1 of R89; TOKINIT's count is fixed by R88. A section may overlap the header, which is no section (DESIGN CHOICE, log 188). -/
def layoutOk (img : List Byte) : Bool :=
  let secs := imgSections img
  imgMagic img == 0x06405C0E && imgVersion img == 1 && decide (imgLength img ≤ 268435456 ∧ imgLength img ≤ img.length)
    && decide (0x80 ≤ imgLength img) && (imgTokInit img).len == 4096
    && secs.all (fun x => decide (x.1 + x.2 ≤ imgLength img) && x.1 % 8 == 0) && spansApart secs

/-- Check 2 of R89. -/
def crcOk (img : List Byte) : Bool := BitVec.ofNat 32 (imgCrc img) == crc32c ((img.take (imgLength img)).drop 0x10)

/-- The control op of a word. -/
def laneZero (w : Word) : Option (BitVec 64) := (w.2.find? fun x => x.1 == 0).map (·.2)

/-- Check 4 of R89 on the words: every target starts one, and the last one is JUMP or HALT. -/
def streamOk (img : List Byte) (ws : List Word) : Bool :=
  ((List.range (imgTargets img).len).all fun i => ws.any fun w => w.1 == imgTarget img i) &&
    (match ws.getLast?.bind laneZero with
     | some op => opOpc op == 6 || opOpc op == 7
     | none => false)

/-- An opcode is valid for a lane (R64). -/
def laneTakes (k opc : Nat) : Bool :=
  if opc = 0 then true
  else if opc ≤ 7 then k == 0
  else if opc = 0x10 ∨ opc = 0x11 then decide (1 ≤ k ∧ k ≤ 16)
  else if opc = 0x18 then decide (17 ≤ k ∧ k ≤ 24)
  else if 0x20 ≤ opc ∧ opc ≤ 0x22 then decide (25 ≤ k ∧ k ≤ 48)
  else if opc = 0x28 then decide (49 ≤ k ∧ k ≤ 52)
  else if opc = 0x30 then k == 53
  else if 0x38 ≤ opc ∧ opc ≤ 0x3C then k == 54
  else if opc = 0x3E ∨ opc = 0x3F then k == 55
  else false

/-- The bits of ARG that an opcode uses; NOP and HALT ignore theirs (R64). -/
def opArgMask (opc : Nat) : Nat :=
  match opc with
  | 0x01 => 0xFFFF
  | 0x02 => 0xFFFF
  | 0x04 => 0x7E00000
  | 0x06 => 0x1FFF
  | 0x10 => 0xFFFFF
  | 0x11 => 0x3FFFFFF
  | 0x18 => 0xFFFFF
  | 0x20 => 0xFFFFF
  | 0x21 => 0xFFFFF
  | 0x22 => 0xFFFFF
  | 0x28 => 0x7E00000
  | 0x30 => 0xFFFFF
  | 0x38 => 0x7800001
  | 0x3A => 0x7800000
  | 0x3B => 0x7800000
  | 0x3C => 0x7800001
  | 0x3E => 0xFFFF
  | _ => 0x7FFFFFF

/-- Check 5 of R89 on one op. -/
def opFormOk (x : Nat × BitVec 64) : Bool :=
  laneTakes x.1 (opOpc x.2) && opGm x.2 != 3 && (opArg x.2 &&& (0x7FFFFFF - opArgMask (opOpc x.2))) == 0

/-- The combinations of KIND, PAIR and OUT that R99 lists. -/
def opmodeOk (m : Nat) : Bool :=
  let k := omKind m
  let p := omPair m
  let o := omOut m
  if k = 0 then decide (p ≤ 6)
  else if k = 6 ∨ k = 7 then p == 0 || p == 1 || p == 3
  else if k = 1 ∨ k = 2 then decide (p ≤ 1) && (o == 0 || o == 3)
  else if k = 3 then p == 2 && (o == 0 || o == 3)
  else p == 0 && o == 0

/-- The bytes of PARAMS that a function uses (R116). -/
def paramBytes (func : Nat) : Nat :=
  match func with
  | 1 => 1
  | 2 => 2
  | 3 => 14
  | 4 => 12
  | 5 => 6
  | 6 => 1
  | _ => 0

def tileFormOk (d : TileDesc) : Bool := decide (d.flags < 8) && d.rsv0 == 0 && d.rsv1 == 0 && opmodeOk d.opmode
def vecFormOk (d : VecDesc) : Bool :=
  decide (1 ≤ d.func ∧ d.func ≤ 7 ∧ d.flags < 4) && d.rsv == 0 && allZero (d.params.drop (paramBytes d.func))
def moveFormOk (d : MoverDesc) : Bool := decide (d.mode < 4)

def avFormOk (d : AvDesc) : Bool := decide (1 ≤ d.func ∧ d.func ≤ 5 ∧ d.flags < 2)

/-- Aviary descriptor `i` of an image. -/
def imgAv (img : List Byte) (i : Nat) : AvDesc := parseAv (imgAvd img i)

/-- The header's reserved fields are 0 (R88). -/
def headFormOk (img : List Byte) : Bool :=
  decide (imgLanes img < 2 ^ 56) && field img 0x2C 4 == 0 && allZero (slice img 0x68 24)

/-- Something holds of every descriptor of a section. -/
def everyOf {α : Type} (n : Nat) (at_ : Nat → α) (p : α → Bool) : Bool := (List.range n).all fun i => p (at_ i)

/-- Check 5 of R89. -/
def formsOk (img : List Byte) (ws : List Word) : Bool :=
  headFormOk img && (ws.all fun w => w.2.all opFormOk)
    && everyOf (imgTiles img).len (imgTile img) tileFormOk && everyOf (imgVecs img).len (imgVec img) vecFormOk
    && everyOf (imgMoves img).len (imgMove img) moveFormOk && everyOf (imgAvds img).len (imgAv img) avFormOk

/-- An address that a descriptor may name (R302, R303): Terrace, a local store, the general or the sequence window. -/
def descAddr (a : Nat) : Bool :=
  decide (a < 0x6000000) || decide (0x6000000 ≤ a ∧ a < 0x6400000) || decide (0x800000000000 ≤ a ∧ a < 0x808000000000)

/-- A length-register field (R75, R168). -/
def lenField (v : Nat) : Bool := decide (v < 32) || v == 0xFF

/-- Check 6 of R89 on a tile descriptor (R75). -/
def tileRangeOk (d : TileDesc) : Bool :=
  decide (1 ≤ d.tm ∧ d.tm ≤ 128 ∧ 1 ≤ d.tn ∧ d.tn ≤ 128 ∧ 1 ≤ d.tk ∧ d.tk ≤ 4096 ∧ 1 ≤ d.gn)
    && lenField d.lenM && lenField d.lenN && lenField d.lenK
    && descAddr d.abase && descAddr d.bbase && descAddr d.obase

/-- Check 6 of R89 on a mover descriptor (R83, R124). -/
def moveRangeOk (d : MoverDesc) : Bool :=
  decide (1 ≤ d.rowb ∧ 1 ≤ d.rows) && (d.mode == 0 || d.rowb % 16 == 0) && descAddr d.src && descAddr d.dst

/-- Check 6 of R89 on a Pergola descriptor (R521). -/
def vecRangeOk (d : VecDesc) : Bool :=
  let p (i : Nat) : Nat := param d i
  let within (lo hi v : Nat) : Bool := decide (lo ≤ v ∧ v ≤ hi)
  let own : Bool :=
    match d.func with
    | 1 => within 1 3 (p 0) && decide (1 ≤ d.len)
    | 2 => within 0 2 (p 0) && within 0 3 (p 1) && decide (1 ≤ d.len)
    | 3 => within 0 1 (p 0) && within 1 8 (p 1) && within 1 8 (p 2) && within 1 8 (p 3) && within 1 8 (p 4)
        && within 1 65535 (paramN d 5 2) && within 1 65535 (paramN d 7 2) && within 1 65535 (paramN d 9 2)
        && within 1 65536 (paramN d 11 3)
    | 4 => within 0 1 (p 0) && within 0 15 (p 1) && within 1 65535 (paramN d 2 2) && within 1 65535 (paramN d 4 2)
        && within 1 65535 (paramN d 6 2) && within 16 4096 (paramN d 8 2) && within 16 4096 (paramN d 10 2) && d.len == 6
    | 5 => within 0 1 (p 0) && within 1 1024 (paramN d 4 2) && within 1 8192 d.len
    | 6 => within 0 15 (p 0) && within 1 4096 d.len
    | _ => within 1 65536 d.len
  let in1 := d.func == 1 || d.func == 2 || (d.func == 4 && p 0 == 1)
  own && decide (1 ≤ d.count) && descAddr d.in0 && descAddr d.out && (!in1 || descAddr d.in1)

/-- Check 6 of R89 on an Aviary descriptor (R168), with the package's KV layers. -/
def avRangeOk (nl : Nat) (d : AvDesc) : Bool :=
  let f := d.func
  let kv := f == 1 || f == 4 || f == 5
  (!kv || decide (1 ≤ d.nlay ∧ d.layer + d.nlay ≤ nl)) && (!(f == 1 || f == 5) || decide (1 ≤ d.p0 ∧ d.p0 ≤ 1024))
    && decide (d.batch < 64) && lenField d.lend && lenField d.lent
    && (!(f == 2 || f == 3 || f == 4) || descAddr d.src) && (!(f == 1 || f == 2 || f == 5) || descAddr d.dst)

/-- Check 6 of R89 on one op: its indices, the width of a pulse (R64), the width of a DIAG tile's array (R113). -/
def opRangeOk (s : State) (img : List Byte) (x : Nat × BitVec 64) : Bool :=
  let w := x.2
  let opc := opOpc w
  if opc = 5 ∨ opc = 6 then decide (argTarget w < (imgTargets img).len)
  else if opc = 0x10 ∨ opc = 0x11 then
    let d := imgTile img (argDesc w)
    decide (argDesc w < (imgTiles img).len) && (decide (omKind d.opmode < 6) || decide (d.tn ≤ presentedWidth s (x.1 - 1)))
  else if opc = 0x18 then decide (argDesc w < (imgVecs img).len)
  else if 0x20 ≤ opc ∧ opc ≤ 0x22 then decide (argDesc w < (imgMoves img).len)
  else if opc = 0x30 then decide (argDesc w < (imgAvds img).len)
  else if opc = 0x39 then decide (1 ≤ argWidth w)
  else true

/-- Check 6 of R89. -/
def rangesOk (s : State) (nl : Nat) (img : List Byte) (ws : List Word) : Bool :=
  (ws.all fun w => w.2.all (opRangeOk s img)) && decide (imgEntry img < (imgTargets img).len ∧
      imgRestart img < (imgTargets img).len ∧ 64 ≤ imgWatchdog img)
    && everyOf (imgTiles img).len (imgTile img) tileRangeOk && everyOf (imgVecs img).len (imgVec img) vecRangeOk
    && everyOf (imgMoves img).len (imgMove img) moveRangeOk && everyOf (imgAvds img).len (imgAv img) (avRangeOk nl)

/-- The bytes that a mover writes in a row (R83, check 7). -/
def moveRow (d : MoverDesc) : Nat :=
  if d.mode = 1 then d.rowb * 9 / 16 else if d.mode = 2 then d.rowb * 13 / 16 else d.rowb

/-- A span lies in one local store or in one staging bank (R84, check 7). -/
def stagingSpan (staging a len : Nat) : Bool :=
  let last := a + len - 1
  if last < 0x4000000 then bitAt staging (a / 0x200000) && a / 0x200000 == last / 0x200000
  else if 0x4000000 ≤ a ∧ last < 0x6000000 then a / 0x200000 == last / 0x200000
  else decide (0x6000000 ≤ a ∧ last < 0x6400000) && a / 0x80000 == last / 0x80000

/-- Check 7 of R89. -/
def runAheadOk (img : List Byte) (ws : List Word) : Bool :=
  ws.all fun w => w.2.all fun x =>
    if opOpc x.2 = 0x21 ∨ opOpc x.2 = 0x22 then
      let d := imgMove img (argDesc x.2)
      stagingSpan (imgStaging img) d.dst ((d.rows - 1) * d.dpitch + moveRow d)
    else true

/-- A lane is used (check 8). -/
def laneUsed (img : List Byte) (ws : List Word) (k : Nat) : Bool :=
  bitAt (imgLanes img) k || ws.any fun w => w.2.any fun x => x.1 == k

/-- Check 8 of R89: a fenced Orangery that is not claim-only is no matter where no lane of the package uses it, though R82's last
sentence has no such exception (DESIGN CHOICE, log 187). -/
def unitsOk (s : State) (img : List Byte) (ws : List Word) : Bool :=
  (List.range 56).all fun k =>
    !laneUsed img ws k || !islandFenced s (laneIsland k) || (decide (1 ≤ k ∧ k ≤ 16) && bitAt (imgClaimOnly img) (k - 1))

/-- The checks of R89 in their order, with the status of the first that fails, else 0. -/
def imageStatus (s : State) (nl : Nat) (img : List Byte) : Nat :=
  if !layoutOk img then 0x0410
  else if !crcOk img then 0x0411
  else if imgChip img ≠ s.trellis.chip ∨ imgChips img ≠ s.trellis.chips then 0x0412
  else match imgWords img with
    | none => 0x0413
    | some ws =>
      if !streamOk img ws then 0x0413
      else if !formsOk img ws then 0x0414
      else if !rangesOk s nl img ws then 0x0415
      else if !runAheadOk img ws then 0x0416
      else if !unitsOk s img ws then 0x0417
      else 0

/-- The walk from ENTRY: three times as many words as the stream has, so that every loop is met whole and begun again. -/
def walkImage (img : List Byte) (taken : Bool) : Walk :=
  walkFrom img taken (3 * ((imgCues img).len / 8)) (imgTarget img (imgEntry img)) 0 { bells := [], restarts := [] }

/-- The spacings of a list of beats. -/
def spacings : List Nat → List Nat
  | a :: b :: l => (b - a) :: spacings (b :: l)
  | _ => []

/-- The one spacing of two lists of beats that agree; none when they differ, vary or have no spacing. -/
def oneSpacing (a b : List Nat) : Option Nat :=
  match ((spacings a) ++ (spacings b)).eraseDups, (spacings a).isEmpty || (spacings b).isEmpty with
  | [c], false => some c
  | _, _ => none

/-- The beats of a batch id's BELLs along a walk. -/
def bellsOf (w : Walk) (b : Nat) : List Nat := (w.bells.filter fun x => x.1 == b).map (·.2)

/-- First bell beat and Tb in beats of each batch id (R274, R275); Tb is 0 for an id without one spacing. -/
def bellTable (img : List Byte) : List (Nat × Nat) :=
  let t := walkImage img true
  let n := walkImage img false
  (List.range 64).map fun b =>
    (((bellsOf t b).head?.or (bellsOf n b).head?).getD 0, (oneSpacing (bellsOf t b) (bellsOf n b)).getD 0)

/-- The cue stream ends in JUMP. -/
def endsInJump (img : List Byte) : Bool :=
  match ((imgWords img).bind (·.getLast?)).bind laneZero with
  | some op => opOpc op == 6
  | none => false

/-- rb and C of R274: no spacing where the stream ends in HALT. -/
def restartOf (img : List Byte) : Nat × Option Nat :=
  let t := walkImage img true
  let n := walkImage img false
  ((t.restarts.head?.or n.restarts.head?).getD 0, if endsInJump img then oneSpacing t.restarts n.restarts else none)

end Sys2Proof.Machine
end

