-- ==== Sys2Proof/Machine/Prompts.lean ====
section
/-! DEFINITION. Prompts, the tokeniser and scene context (R163, R178 to R180, R419). -/

namespace Sys2Proof.Machine

/-- Well-formed UTF-8 (R179): `need` continuation bytes are due, the next within [lo, hi]. -/
def utf8From : (need lo hi : Nat) → List Byte → Bool
  | 0, _, _, [] => true
  | _ + 1, _, _, [] => false
  | n + 1, lo, hi, b :: l => decide (lo ≤ b.toNat ∧ b.toNat ≤ hi) && utf8From n 0x80 0xBF l
  | 0, _, _, b :: l =>
    let v := b.toNat
    if v < 0x80 then utf8From 0 0 0 l
    else if 0xC2 ≤ v ∧ v ≤ 0xDF then utf8From 1 0x80 0xBF l
    else if v = 0xE0 then utf8From 2 0xA0 0xBF l
    else if v = 0xED then utf8From 2 0x80 0x9F l
    else if 0xE1 ≤ v ∧ v ≤ 0xEF then utf8From 2 0x80 0xBF l
    else if v = 0xF0 then utf8From 3 0x90 0xBF l
    else if 0xF1 ≤ v ∧ v ≤ 0xF3 then utf8From 3 0x80 0xBF l
    else if v = 0xF4 then utf8From 3 0x80 0x8F l
    else false

def utf8Ok (bs : List Byte) : Bool := utf8From 0 0 0 bs

/-- Fields of a dictionary entry (R178). -/
def dictEntry (dict : List Byte) (i : Nat) : Nat := field dict (8 * i) 8
def dictByte (e : Nat) : Nat := bits e 0 8
def dictTok (e : Nat) : Bool := bitAt e 8
def dictLast (e : Nat) : Bool := bitAt e 9
def dictToken (e : Nat) : Nat := bits e 16 16
def dictChild (e : Nat) : Nat := bits e 32 24

/-- The entry of a sibling group whose BYTE is `b` (R179). -/
def groupFind (dict : List Byte) (b : Nat) : (fuel : Nat) → (i : Nat) → Option Nat
  | 0, _ => none
  | fuel + 1, i =>
    let e := dictEntry dict i
    if dictByte e = b then some e else if dictLast e then none else groupFind dict b fuel (i + 1)

/-- The longest match from a group on (R179): token and length of the best so far. -/
def longestMatch (dict : List Byte) : (group len : Nat) → (best : Option (Nat × Nat)) → List Byte → Option (Nat × Nat)
  | _, _, best, [] => best
  | g, n, best, b :: l =>
    match groupFind dict b.toNat 256 g with
    | none => best
    | some e =>
      let best := if dictTok e then some (dictToken e, n + 1) else best
      if dictChild e = 0 then best else longestMatch dict (dictChild e) (n + 1) best l

/-- The tokens of a text (R179). -/
def tokenise (dict : List Byte) : (fuel : Nat) → List Byte → List Nat
  | 0, _ => []
  | _, [] => []
  | fuel + 1, bs =>
    match longestMatch dict 1 0 none bs with
    | some (t, n) => t :: tokenise dict fuel (bs.drop (max 1 n))
    | none => tokenise dict fuel (bs.drop 1)

/-- The dictionary of the resident package, as the Aviary reads it in Terrace (R178). -/
def dictionary (s : State) : List Byte :=
  match s.pkg with
  | some p => (List.range p.dictionary.length).map fun i => memGet s.mem.bytes (p.dictionaryAt + i)
  | none => []

def promptTokens (s : State) (text : List Byte) : List Nat := tokenise (dictionary s) text.length text

/-- Why PROMPT_SET is refused (R163, R179, R180), or 0; no package runs no text encoder (DESIGN CHOICE, log 39). An empty text is refused as
one that does not fit (DESIGN CHOICE, log 204). The prompt that the slot holds gives its sequence id back. -/
def promptStatus (s : State) (p : Nat) (text : List Byte) : Nat :=
  let old := s.aviary.prompts.getD p none
  let more := if old.isSome then 0 else 1
  if 1024 < text.length then 0x0506
  else if !utf8Ok text then 0x0508
  else if s.pkg.isNone then 0x0327
  else if text.isEmpty || decide (64 < (promptTokens s text).length) then 0x0506
  else if 16384 < seqsTaken s + more || ((old.bind (·.seq)).isNone && (freeSeq s (pendingSeqs s)).isNone) then 0x0502
  else 0

/-- The PROMPT sequence of a slot ends; what forked its pages keeps them (R160). -/
def dropPrompt (p : Nat) (s : State) : State :=
  match s.aviary.prompts.getD p none with
  | some x =>
    let s := match x.seq with | some q => endSeq q s | none => s
    unreserve (384 + p) (updAviary (fun a => { a with prompts := a.prompts.set p none }) s)
  | none => s

/-- PROMPT_SET (R163, R179, R180): it ends when the sequence is committed. -/
def execPromptSet (q cid : Nat) (s : State) : Res :=
  let row : CmdRow := { bareRow 0x38 0 with indexOk := fun _ c => decide (arg c 0 1 < 64), block := true }
  runCommand q cid row (fun c s =>
    let p := arg c 0 1
    let text := paramBlock s c
    let st := promptStatus s p text
    let tokens := promptTokens s text
    if st ≠ 0 then endCmd c st s
    else match reserve (384 + p) (4 * (kvLayers s * kvGran s + 1)) true (dropPrompt p s) with
      | none => endCmd c 0x0503 s
      | some s =>
        let entry : Prompt := { text := text, tokens := tokens, seq := none, cmd := some (q, cid) }
        updAviary (fun a => { a with prompts := a.prompts.set p (some entry) }) s) s

/-- A binding of a prompt from timestamp `t` on (R180): it takes the place of the stream's bindings from then on (DESIGN CHOICE, log
205). -/
def bindPrompt (t : Nat) (p : Option Nat) (x : Stream) : Stream :=
  { x with bindings := (x.bindings.filter fun b => decide (b.1 < t)) ++ [(t, p)], pgen := x.pgen + 1 }

/-- A stream takes a binding; a prompt whose binding it drops is released once nothing can read it (R180). -/
def rebindPrompt (n t : Nat) (p : Option Nat) (x : Stream) (s : State) : State :=
  ((x.bindings.filter fun b => decide (t ≤ b.1)).filterMap (·.2)).foldl (fun s k => releasePrompt k s) (updStream n (bindPrompt t p) s)

/-- A stream index and a prompt slot or 0xFF (R414). -/
def boundIndex (_ : State) (c : HostCmd) : Bool := decide (arg c 0 1 < 128) && (decide (arg c 1 1 < 64) || arg c 1 1 == 0xFF)

/-- PROMPT_BIND (R180): T before the command's receipt is refused; so is a slot with no encoded prompt (DESIGN CHOICE, log 39). -/
def execPromptBind (q cid : Nat) (s : State) : Res :=
  let row : CmdRow := { streamRow 0x39 0 with indexOk := boundIndex }
  streamCommand q cid row (fun c n x s =>
    let p := arg c 1 1
    let t := arg c 8 8
    if t < c.stamp then endCmd c 0x050B s
    else if p ≠ 0xFF ∧ ((s.aviary.prompts.getD p none).bind (·.seq)).isNone then endCmd c 0x0009 s
    else okCmd c 0 (rebindPrompt n t (if p = 0xFF then none else some p) x s)) s

/-- The new CONTEXT of a stream (R152, R160): it forks the prompt, and its own rows follow in pages of their own. -/
def makeContext (n q : Nat) (prompt : Option Nat) (rows : List Byte) (s : State) : State :=
  let s := forkSeq q prompt (emptySeq .context n) s
  let k := Config.contextTokens (pkgid s) rows
  match tabGet q s.aviary.seqs with
  | none => s
  | some x =>
    let own := (List.range k).map fun i =>
      bareToken (kvLayers s) (16 * x.ppages + i) fun l => Config.contextTags (pkgid s) rows l i
    let s := updSeq q (fun x => { x with ntok := x.ntok + k, tokens := x.tokens ++ own }) s
    fillPages q (128 + n) x.ppages (ceilDiv k 16) (fun l p => Config.contextRows (pkgid s) rows l p) s

/-- Pages per layer of a CONTEXT (R160): the prompt's and its own. -/
def contextPages (s : State) (prompt : Option Nat) (rows : List Byte) : Nat :=
  (match prompt.bind fun p => tabGet p s.aviary.seqs with | some x => seqPages x | none => 0)
    + ceilDiv (Config.contextTokens (pkgid s) rows) 16

/-- The reservations that a CONTEXT of so many pages asks for (R163): its own, and its stream's tracks with the longer prefix;
a prefix beyond 64 pages or a range beyond 256 page slots does not fit (R154, R158), with the same status 0x0503 (DESIGN CHOICE, log 227).
At stream open PPAGES is 0, and the tracks' reservation is made again here (R163; DESIGN CHOICE, log 226). -/
def reserveContext (n pages : Nat) (x : Stream) (s : State) : Option State :=
  if 64 < pages ∨ 256 < pages + x.cfg.tp then none
  else (reserve (128 + n) (64 * (kvLayers s * kvGran s + 1)) (!isLc x) (unreserve (128 + n) s)).bind fun s =>
    reserve n (trackFrames s x.cfg pages) (!isLc x) (unreserve n s)

/-- CONTEXT_SET (R152, R160, R163): the tracks keep the context that they were born with (R161). -/
def execContextSet (q cid : Nat) (s : State) : Res :=
  let row : CmdRow := { streamRow 0x3A 0 with indexOk := boundIndex, block := true }
  streamCommand q cid row (fun c n x s =>
      let p := arg c 1 1
      let prompt := if p = 0xFF then none else (s.aviary.prompts.getD p none).bind (·.seq)
      let rows := paramBlock s c
      if p ≠ 0xFF ∧ prompt.isNone then endCmd c 0x0009 s
      else if s.pkg.isNone then endCmd c 0x0327 s
      else match freeSeq s (pendingSeqs s), reserveContext n (contextPages s prompt rows) x s with
        | none, _ => endCmd c 0x0502 s
        | _, none => endCmd c 0x0503 s
        | some id, some s =>
          let s := match x.context with | some old => endSeq old s | none => s
          okCmd c 0 (updStream n (fun x => { x with context := some id }) (makeContext n id prompt rows s))) s

end Sys2Proof.Machine
end

