-- ==== Sys2Proof/Machine/Package.lean ====
section
/-! DEFINITION. Milry packages: the load checks of the later chapters (R134, R155, R178, R247, R254, R265, R274, R298), the load
itself and the swap (R90, R294, R295, R463, R495 rulings 1 to 8). -/

namespace Sys2Proof.Machine

/-- The image of a package that this chip loads (R463): the one whose CHIP and CHIPS match, else the first, which R89 refuses. -/
def ownImage (s : State) (p : Package) : List Byte :=
  ((p.images.find? fun i => imgChip i == s.trellis.chip && imgChips i == s.trellis.chips).or p.images.head?).getD []

/-- The ranges of a named entry (R133). -/
def layerRangesOk (l : LayerEntry) : Bool :=
  decide (l.ofmt ≤ 5 ∧ 1 ≤ l.w ∧ l.w ≤ 8 ∧ l.key ≤ 2 ∧ l.g ≤ 12 ∧ l.action ≤ 2 ∧ l.path ≤ 2)
    && decide (l.zfix ≤ (if l.ofmt = fmtA4u then 15 else if l.ofmt = fmtA2u then 3 else 0))
    && (l.action == 1 || l.widemax == 0) && l.rsv == 0

/-- OFMT agrees with an OUT code (R131). -/
def outAgrees (ofmt out : Nat) : Bool :=
  if out = 0 then true
  else if ofmt = fmtA4u ∨ ofmt = fmtA4s then out == 1 || out == 2
  else if ofmt = fmtA2u then out == 1
  else if ofmt = fmtA2s ∨ ofmt = fmtA1 then out == 2
  else out == 3

/-- The OUT codes that name a layer: those of tiles, of LUT4 and of ELTWISE (R131, R134). -/
def outsOf (img : List Byte) (l : Nat) : List Nat :=
  (((List.range (imgTiles img).len).map (imgTile img)).filterMap fun d =>
      if d.layer = l then some (omOut d.opmode) else none)
    ++ (((List.range (imgVecs img).len).map (imgVec img)).filterMap fun d =>
      if d.layer ≠ l then none else if d.func = 1 then some (param d 0) else if d.func = 2 then some (param d 1) else none)

/-- The check of the layer numerics table (R134). -/
def layersOk (table img : List Byte) (ws : List Word) : Bool :=
  let named := namedLayers table img ws
  table.length % 32 == 0 && (named.all fun i =>
    let l := layerEntry table i
    decide (i < table.length / 32) && layerRangesOk l && (outsOf img i).all (outAgrees l.ofmt)
      && (l.action != 1 || decide (l.ofmt ≤ 3)) && (l.path == 0 || (layerEntry table l.wof).action == 1))
    && decide ((named.map fun i => (layerEntry table i).widemax).sum ≤ 20000)

/-- The check of the KV layers (R155): d_kv out of its range fails it as the number of granules does (DESIGN CHOICE, log 206). -/
def kvOk (p : Package) : Bool :=
  decide (32 ≤ p.kvWidth ∧ p.kvWidth ≤ 1024) && p.kvWidth % 32 == 0 && decide (p.kvLayers * ceilDiv p.kvWidth 256 ≤ 15)

/-- The reserved bits of a dictionary entry are 0 (R178). -/
def dictClear (e : Nat) : Bool := bits e 10 6 == 0 && bits e 56 8 == 0

/-- A sibling group in order inside the image with its LAST: the children that it names; none when it breaks a rule (R178). -/
def groupChildren (dict : List Byte) : (fuel : Nat) → (i : Nat) → (prev : Option Nat) → Option (List Nat)
  | 0, _, _ => none
  | fuel + 1, i, prev =>
    let e := dictEntry dict i
    let inOrder := match prev with | some b => decide (b < dictByte e) | none => true
    if dict.length < 8 * i + 8 ∨ !inOrder then none
    else
      let own := if dictChild e = 0 then [] else [dictChild e]
      if dictLast e then some own else (groupChildren dict fuel (i + 1) (some (dictByte e))).map fun l => own ++ l

/-- Every group that can be reached, with its children; none when one of them breaks a rule. -/
def reachGroups (dict : List Byte) : (fuel : Nat) → (work : List Nat) → (seen : List (Nat × List Nat)) →
    Option (List (Nat × List Nat))
  | 0, _, _ => none
  | _, [], seen => some seen
  | fuel + 1, g :: work, seen =>
    if seen.any fun x => x.1 == g then reachGroups dict fuel work seen
    else match groupChildren dict 256 g none with
      | some l => reachGroups dict fuel (l ++ work) ((g, l) :: seen)
      | none => none

/-- No group leads back to itself: groups whose children are all gone go, until none is left (R178). -/
def acyclic : (fuel : Nat) → List (Nat × List Nat) → Bool
  | 0, l => l.isEmpty
  | fuel + 1, l =>
    let live := l.map (·.1)
    let rest := l.filter fun x => x.2.any fun c => live.contains c
    if rest.length = l.length then l.isEmpty else acyclic fuel rest

/-- The check of the tokeniser dictionary (R178). -/
def dictOk (dict : List Byte) : Bool :=
  let n := dict.length / 8
  decide (dict.length ≤ 4194304)
    && ((List.range n).drop 1).all (fun i => dictClear (dictEntry dict i) && decide (dictChild (dictEntry dict i) < n))
    && decide ((((List.range n).drop 1).filter fun i => dictTok (dictEntry dict i)).length ≤ 65536)
    && ((List.range 256).all fun b => match groupFind dict b 256 1 with | some e => dictTok e | none => false)
    && (match reachGroups dict (2 * n + 2) [1] [] with
        | some gs => acyclic (gs.length + 1) gs
        | none => false)

/-- One filter table (R247): 32 phases of eight words. -/
def filterOk (t : List Byte) : Bool :=
  t.length == 512 && (List.range 32).all fun ph =>
    let c := (List.range 8).map fun i => sfield t (16 * ph + 2 * i) 2
    (c.all fun v => decide (-512 ≤ v ∧ v ≤ 511)) && c.sum == 512

/-- A batch id that the table of a package holds (R254). -/
def geomPresent (p : Package) (k : Nat) : Bool := decide (k < 64) && (geomOf p.geometry k).slots != 0

/-- The fields of a present entry (R254); its reserved bits are ignored (R12); its filter table exists (DESIGN CHOICE, log 55). -/
def geomOk (p : Package) (k : Nat) : Bool :=
  let g := geomOf p.geometry k
  g.batch == k && decide (g.kind ≤ 1 ∧ g.cls ≤ 1 ∧ g.chans % 4 ≤ 2 ∧ g.slots ≤ 256) && decide (16 ≤ g.dw ∧ g.dw ≤ 1024)
    && decide (16 ≤ g.dh ∧ g.dh ≤ 1024) && decide (g.format ≤ 1 ∧ g.fit ≤ 1 ∧ g.matrix ≤ 3 ∧ g.filter ≤ 7)
    && decide (g.filltok < 4096 ∧ g.wblk ≤ 64) && decide (g.filter < p.filters.length)

/-- The batch ids that an image names (R254). -/
def imageBatches (img : List Byte) (ws : List Word) : List Nat :=
  (opsWith ws 4 (· == 0)).map argHigh ++ (opsWith ws 5 (· == 0)).map argHigh
    ++ (opsWith ws 0x28 fun k => decide (49 ≤ k ∧ k ≤ 52)).map argHigh
    ++ (List.range (imgAvds img).len).map fun i => (imgAv img i).batch

/-- The checks that end in 0x0310: filter tables, batch geometry and adapter blocks (R247, R254, R265). -/
def geometryOk (p : Package) (img : List Byte) (ws : List Word) : Bool :=
  decide (p.filters.length ≤ 8) && p.filters.all filterOk && p.geometry.length % 64 == 0
    && decide (p.geometry.length ≤ 4096) && ((List.range 64).all fun k => !geomPresent p k || geomOk p k)
    && (imageBatches img ws).all (geomPresent p)
    && ((List.range 64).all fun k =>
          let g := geomOf p.geometry k
          !geomPresent p k || g.wblk == 0 || decide (p.weightBlock ≤ 1024 * g.wblk))

/-- The bell periods of LC batch ids and the spacing of RESTART (R274). -/
def periodsOk (p : Package) (img : List Byte) : Bool :=
  let t := walkImage img true
  let n := walkImage img false
  ((List.range 64).all fun k =>
    !(geomPresent p k && (geomOf p.geometry k).cls == 0) ||
      (match oneSpacing (bellsOf t k) (bellsOf n k) with
       | some c => decide (15625 ≤ c ∧ c ≤ 125000)
       | none => false))
  && (!endsInJump img || (let l := (spacings t.restarts ++ spacings n.restarts).eraseDups; decide (l.length ≤ 1)))

/-- A span of Terrace lies in banks of one class (R298). -/
def inBanks (map : List BankClass) (cls : BankClass) (a len : Nat) : Bool :=
  decide (a + len ≤ 0x4000000) &&
    (List.range 32).all fun b => decide (a + len ≤ b * 0x200000 ∨ (b + 1) * 0x200000 ≤ a) || map[b]? == some cls

/-- The bank map (R298). -/
def banksOk (p : Package) (img : List Byte) : Bool :=
  p.bankMap.length == 32 && ((List.range 64).all fun k =>
    let g := geomOf p.geometry k
    let cls := if g.kind = 0 ∧ g.cls = 0 then BankClass.lc else BankClass.be
    !geomPresent p k || ([g.area0, g.area1].all (fun a => inBanks p.bankMap cls a (g.slots * g.spitch))
      && [g.table0, g.table1].all fun a => inBanks p.bankMap cls a (32 + 32 * g.slots)))
  && (List.range 32).all fun b => !(bitAt (imgStaging img) b && p.bankMap[b]? == some BankClass.shared)

/-- Every load check, with the status of the first that fails, else 0 (R294; their order is that of their chapters, DEDUCED,
log 55). -/
def packageStatus (s : State) (p : Package) : Nat :=
  let img := ownImage s p
  let first := imageStatus s p.kvLayers img
  if first ≠ 0 then first
  else
    let ws := (imgWords img).getD []
    if !layersOk p.layers img ws then 0x0418
    else if !kvOk p then 0x0509
    else if !dictOk p.dictionary then 0x0507
    else if !geometryOk p img ws then 0x0310
    else if !periodsOk p img then 0x0419
    else if !banksOk p img then 0x041A
    else 0

/-- Streams bind a prompt slot (R180). -/
def promptBound (s : State) (p : Nat) : Bool :=
  (s.streams.filterMap id).any fun y => y.bindings.any fun b => b.2 == some p

/-- The bound prompts of this chip (R463). -/
def boundPrompts (s : State) : Nat := ((List.range 64).filter (promptBound s)).length

/-- Note an acknowledgement at chip 0 (R463). -/
def noteAck (src pkgid status prompts : Nat) (s : State) : State :=
  updTrellis (fun t => { t with
    acks := (t.acks.filter fun a => a.1 != src) ++ [(src, pkgid, status, prompts, steadyNs s)] }) s

/-- Tell chip 0 how the verification went (R463). -/
def acknowledge (p : Package) (status : Nat) (s : State) : State :=
  if s.trellis.chip = 0 then noteAck 0 p.pkgid status (boundPrompts s) s
  else sendMessage 0 vcControl 0x14 (leBytes 8 p.pkgid ++ leBytes 2 status ++ leBytes 2 (boundPrompts s) ++ leBytes 4 0) s

/-- The result buffer of a load (R275, R419). -/
def loadResult (s : State) : List Byte :=
  leBytes 8 s.score.epoch ++ (s.score.batches.map fun b => leBytes 8 b.firstBell ++ leBytes 4 b.period).flatten

/-- The load ends: its command, where a session still has it, completes (R414, R495 ruling 4). -/
def endLoad (j : LoadJob) (status : Nat) (s : State) : State :=
  let s := { s with load := none }
  match s.mbx.cmds.find? fun c => c.q == j.q && c.cid == j.cid && c.opc == 0x10 && c.started with
  | some c => if status = 0 then bufCmd c 0 (loadResult s) s else endCmd c status s
  | none => s

/-- A frame whose slots stand in an instance that no bell will close is REFUSED (DESIGN CHOICE, log 56); one that has been taken and has
no slots yet goes on with the adapter at version 0, which its slots in the new package have (R270). -/
def strandFrame (z : Adapter) (f : Frame) : Frame :=
  if f.reason = 0 ∧ f.stage = .waiting then { decide1 reasonRefused 0x0327 f with slotAt := none, store := none }
  else if f.stage = .cropping then { f with aver := z.version, adapter := z.codes }
  else f

/-- A stream at steps 4 and 5 of R294: no context, gallery or candidate; its adapter at version 0 and its slot in the new package;
quarantine and the count of R292 cleared (R495 ruling 8); its next record tells of the new package (R295). -/
def swapStream (s : State) (p : Package) (x : Stream) : Stream :=
  let event : Event := { kind := 0x0011, status := 0x0330, data := leBytes 8 p.pkgid }
  { x with
    adapter := zeroVersion s
    adapterSlot := x.adapterSlot.filter fun i => p.adapts && decide (i < p.adaptSlots)
    candidate := none
    adoptFrom := []
    autoAdopt := []
    quarantined := false
    faultRun := 0
    steers := []
    gallery := []
    context := none
    frames := x.frames.map (strandFrame (zeroVersion s))
    nextEvents := x.nextEvents ++ [event] }

/-- Every sequence, page and journal of the old package goes (R294 step 4); prompts are encoded anew. -/
def clearAviary (s : State) : State :=
  let s := (s.aviary.seqs.map (·.1)).foldl (fun s q => endSeq q s) s
  updAviary (fun a => { a with
    journals := [], alists := [], prompts := a.prompts.map fun o => o.map fun y => { y with seq := none } }) s

/-- The score as a load leaves it (R90): batch ids from the walks of R274, and the epoch. It stays marked stopped until it starts
(R294 step 3). -/
def loadScore (img : List Byte) (epoch : Nat) (c : Score) : Score :=
  let ids := (bellTable img).map fun b => { BatchId.reset with firstBell := b.1, period := b.2 }
  let (rb, spacing) := restartOf img
  { c with
    image := img
    running := false
    haltReq := false
    stopped := true
    armed := true
    watchdogHalt := false
    pc := imgTarget img (imgEntry img)
    beat := 0
    epoch := epoch
    resumeAt := 0
    control := none
    restartBeat := rb
    restartSpacing := spacing
    tokens := initialTokens img, cycles := []
    claims := c.claims.map fun _ => { value := 0, limit := 0 }
    lens := c.lens.map fun _ => 0
    batches := ids
    measures := []
    latches := []
    digests := [] }

/-- The score without a package (R495 ruling 3). -/
def emptyScore (c : Score) : Score :=
  { c with
    image := []
    running := false
    haltReq := false
    stopped := true
    armed := false
    watchdogHalt := false
    control := none
    batches := c.batches.map fun _ => BatchId.reset
    measures := []
    latches := []
    digests := [] }

/-- Tests 1 and 3 of R277 for a stream beside those rebound before it (R294 step 5; DEDUCED, log 57). -/
def rebindStatus (s : State) (kept : List OpenBlock) (b : OpenBlock) : Nat :=
  let g := geom s b.batch
  if g.slots = 0 ∨ g.cls ≠ b.cls then 0x0302
  else if b.cls = 0 ∧ !slotBudget s b.batch (b :: kept) then 0x0320
  else 0

/-- A stream that fails is closed with notice 0x0331 (R294 step 5). -/
def rebindStreams : List Nat → List OpenBlock → State → State
  | [], _, s => s
  | n :: l, kept, s =>
    match stream? s n with
    | none => rebindStreams l kept s
    | some x =>
      if x.closing then rebindStreams l kept s
      else
        let st := rebindStatus s kept x.cfg
        if st = 0 then rebindStreams l (x.cfg :: kept) s
        else rebindStreams l kept (addNotice { status := 0x0331, stream := n, result := st } (beginClose n s))

/-- The reservations of R163 with the new package's pages; one that no longer fits keeps its old size (DESIGN CHOICE, log 58). -/
def reserveAgain (owner n : Nat) (mayCold : Bool) (s : State) : State :=
  ((reserve owner n mayCold (unreserve owner s))).getD s

def reserveStreams (s : State) : State :=
  (List.range 128).foldl (fun s n => match stream? s n with
    | none => s
    | some x =>
      let s := unreserve (128 + n) (reserveAgain n (trackFrames s x.cfg 0) (!isLc x) s)
      let s := unreserve (256 + n) s
      if x.links.isEmpty then s else match galleryFor n x s with | .ok s => s | .error _ => s) s

/-- A bound prompt is tokenised and encoded again (R294 step 6); one that now has no token, more than 64 of them or no room keeps
no sequence (DESIGN CHOICE, log 58); one that nothing binds is released. A PROMPT_SET in progress goes on with the new tokens. -/
def renewPrompt (p : Nat) (s : State) : State :=
  match s.aviary.prompts.getD p none with
  | none => s
  | some y =>
    let toks := promptTokens s y.text
    let fits := !toks.isEmpty && decide (toks.length ≤ 64)
    let y' : Prompt := { y with tokens := toks, seq := none }
    let s := updAviary (fun a => { a with prompts := a.prompts.set p (some y') }) s
    let s := reserveAgain (384 + p) (4 * (kvLayers s * kvGran s + 1)) true s
    match y.cmd with
    | some (q, cid) => if fits then s else dropPrompt p (finishCmd q cid 0x0506 0 false s)
    | none =>
      if !promptBound s p then dropPrompt p s
      else match freeSeq s (pendingSeqs s) with
        | some id => if fits then encodePrompt p id y' s else s
        | none => s

/-- The tokeniser dictionary goes into Terrace (R178), before the prompts are tokenised again with it (R294 step 6). -/
def placeDictionary (p : Package) (s : State) : State := writePhys .control (cellsAt p.dictionaryAt p.dictionary false) s

/-- Weights go into Terrace (R294 step 7). -/
def placeWeights (ws : List (Nat × List Byte)) (s : State) : State :=
  ws.foldl (fun s w => writePhys .control (cellsAt w.1 w.2 false) s) s

/-- The cue stream, its branch targets and its descriptors of an image: offset and bytes (R88). -/
def scoreSections (img : List Byte) : List (Nat × Nat) :=
  [((imgCues img).off, (imgCues img).len), ((imgTiles img).off, 64 * (imgTiles img).len), ((imgVecs img).off, 64 * (imgVecs img).len),
   ((imgMoves img).off, 32 * (imgMoves img).len), ((imgAvds img).off, 32 * (imgAvds img).len),
   ((imgTargets img).off, 4 * (imgTargets img).len)]

/-- The cue stream and its descriptors go into DRAM (R296). -/
def placeScore (img : List Byte) (s : State) : State :=
  (scoreSections img).foldl (fun s x => writePhys .control (cellsAt (scorePlace + x.1) (slice img x.1 x.2) false) s) s

/-- Banks whose corrections ran beyond 1,000,000 in 60 s are fenced in the ledger (R367). -/
def fenceBanks (s : State) : State :=
  let bad := (List.range 32).filter fun b => decide (1000000 < s.power.ledger.bankCounts.getD b 0)
  if bad.isEmpty then s
  else saveLedger (updPower (fun p => { p with
    ledger := { p.ledger with fencedBanks := bad.foldl (fun l b => setAdd b l) p.ledger.fencedBanks } }) s)

/-- A Topiary's work on slots that the old package granted is over (log 56). -/
def strandTopiary (u : Topiary) : Topiary :=
  { cur := u.cur.filter fun j => !j.granted, suspended := u.suspended.filter fun j => !j.granted }

/-- Steps 3 to 7 of R294 without step 7's check: what a package brings. -/
def takePackage (j : LoadJob) (s : State) : State :=
  let s := clearAviary s
  let s := { s with
    pkg := some j.pkg
    samples := []
    trainPending := []
    trainRunning := none
    topiaries := s.topiaries.map strandTopiary
    journal := s.journal.filter fun r => !r.recovered }
  let t := s
  let s := { s with streams := s.streams.map fun o => o.map (swapStream t j.pkg) }
  let epoch := j.epoch.getD (roundUp (nowNs s + 1000000) 64)
  let s := updScore (loadScore j.image epoch) s
  let s := rebindStreams (List.range 128) [] s
  let s := (List.range 128).foldl (fun s n => if (stream? s n).isSome then clearHistories 0 n s else s) s
  let s := (List.range 64).foldl (fun s p => renewPrompt p s) (placeDictionary j.pkg (reserveStreams s))
  fenceBanks (placeWeights j.pkg.weights (placeScore j.image s))

/-- Steps 3 to 7 of R294. Check 8 of R89 is run again; when a unit fenced since is used, no package is resident (R495 ruling 3). -/
def installPackage (j : LoadJob) (s : State) : State :=
  let s := if s.pkg.isSome then addNotice { status := 0x0330, stream := 0xFFFF, result := j.pkg.pkgid } s else s
  let s := takePackage j (closeTorn s)
  if unitsOk s j.image ((imgWords j.image).getD []) then endLoad j 0 s
  else endLoad j 0x0417 (updScore emptyScore { s with pkg := none })

/-- A halt is requested of a score that runs or is about to (R74). -/
def requestHalt (s : State) : State :=
  updScore (fun c => { c with haltReq := c.running || c.armed || c.watchdogHalt }) s

/-- A load goes on after its verification, or its proposal (R294 step 2): it requests a halt, or begins at once with no resident
package. -/
def goOnLoad (j : LoadJob) (s : State) : State :=
  if s.pkg.isNone then installPackage j s
  else requestHalt { s with load := some { j with step := 2 } }

/-- The batches in flight have completed and the records of their frames are emitted (R294 step 2). -/
def flightOver (s : State) : Bool :=
  (s.score.batches.zipIdx.all fun x => (geom s x.2).kind == 1 || x.1.closed.isEmpty) &&
    (s.streams.filterMap id).all fun x => x.frames.all fun f =>
      !(f.reason == 0 && (f.stage == .launched || f.stage == .detected || f.stage == .formed))

/-- The score has halted for a swap or an update (R74). -/
def scoreHalted (s : State) : Bool := drained s && !s.score.armed && !s.score.watchdogHalt

/-- Another FW_UPDATE sub-operation is in progress (R486). -/
def updateRuns (s : State) : Bool :=
  s.power.update.switching.isSome || s.mbx.cmds.any fun c => c.opc == 0x70 && c.started

/-- A load that awaits a proposal ends (R463, R499); the resident package runs on. -/
def abandonLoad (status : Nat) (s : State) : State :=
  match s.load with
  | some j => if j.step = 1 then endLoad j status s else s
  | none => s

/-- The acknowledgements of one package that are not older than 10 s (R463). -/
def freshAcks (s : State) (pkgid : Nat) : List (Nat × Nat × Nat × Nat × Nat) :=
  s.trellis.acks.filter fun a => a.2.1 == pkgid && decide (steadyNs s < a.2.2.2.2 + 10000000000)

/-- Every member has acknowledged a successful verification: chip 0 sends the proposal and follows it itself (R463). -/
def tryPropose (pkgid : Nat) (s : State) : State :=
  let acks := freshAcks s pkgid
  match s.load with
  | some j =>
    if s.trellis.chip = 0 ∧ j.step = 1 ∧ j.pkg.pkgid = pkgid ∧
        (s.trellis.members.all fun m => acks.any fun a => a.1 == m && a.2.2.1 == 0) then
      let p := (acks.map fun a => a.2.2.2.1).foldl max 0
      let epoch := roundUp (nowNs s + 501000000 + 5000000 * p) 64
      let body := leBytes 8 pkgid ++ leBytes 8 epoch ++ leBytes 1 s.trellis.chips ++ leBytes 7 0
      let s := (peers s).foldl (fun s m => sendMessage m vcControl 0x10 body s) s
      goOnLoad { j with epoch := some epoch } (updTrellis (fun t => { t with acks := [] }) s)
    else s
  | none => s

/-- Chip 0 judges the acknowledgements of its load's package (R463): a failed one ends its own load with 0x0709. -/
def judgeAcks (pkgid : Nat) (s : State) : State :=
  let own : Bool := match s.load with | some j => j.step == 1 && j.pkg.pkgid == pkgid | none => false
  if s.trellis.chip == 0 && own && (freshAcks s pkgid).any (fun a => a.2.2.1 != 0) then
    abandonLoad 0x0709 (updTrellis (fun t => { t with acks := t.acks.filter fun a => a.2.1 != pkgid }) s)
  else tryPropose pkgid s

/-- What an acknowledgement does at chip 0 (R463). -/
def takeEpochAck (src pkgid status prompts : Nat) (s : State) : State :=
  if s.trellis.chip ≠ 0 ∨ !s.trellis.members.contains src then s
  else judgeAcks pkgid (noteAck src pkgid status prompts s)

/-- PACKAGE_LOAD (R294, R463, R495 rulings 1 and 2, R501). -/
def execPackageLoad (q cid : Nat) (pkg : Package) (s : State) : Res :=
  let row : CmdRow := { bareRow 0x10 0 with resultSize := fun _ _ => 776, block := true, minPlen := 0x80 }
  runCommand q cid row (fun c s =>
    if s.load.isSome then endCmd c 0x041B s
    else if updateRuns s then endCmd c 0x0805 s
    else
      let st := packageStatus s pkg
      let joined := decide (1 < s.trellis.chips)
      let s := if joined then acknowledge pkg st s else s
      if st ≠ 0 then endCmd c st s
      else
        let j : LoadJob := { q := q, cid := cid, pkg := pkg, image := ownImage s pkg, step := 1, since := steadyNs s, epoch := none }
        if joined then judgeAcks pkg.pkgid { s with load := some j } else goOnLoad j s) s

/-- What a proposal does at the other chips (R463). -/
def takeProposal (pkgid epoch chips : Nat) (s : State) : State :=
  match s.load with
  | some j =>
    if j.step = 1 ∧ j.pkg.pkgid = pkgid ∧ chips = s.trellis.chips then goOnLoad { j with epoch := some epoch } s else s
  | none => s

/-- EPOCH_ACK (R463). -/
def execEpochAck (src pkgid status prompts : Nat) (s : State) : Res :=
  inRange (decide (src < 6 ∧ pkgid < 2 ^ 64 ∧ status < 65536 ∧ prompts < 65536)) s <|
    doneIf (s.power.running && src != s.trellis.chip) (takeEpochAck src pkgid status prompts s) s

/-- EPOCH_PROPOSE (R463). -/
def execEpochPropose (pkgid epoch chips : Nat) (s : State) : Res :=
  inRange (decide (pkgid < 2 ^ 64 ∧ epoch < 2 ^ 64 ∧ chips < 256)) s <|
    doneIf (s.power.running && s.trellis.chip != 0) (takeProposal pkgid epoch chips s) s

/-- EPOCH_TIMEOUT (R463): a load has waited 10 s for its proposal. -/
def execEpochTimeout (s : State) : Res :=
  match s.load with
  | some j => doneIf (s.power.running && j.step == 1 && decide (j.since + 10000000000 ≤ steadyNs s)) (abandonLoad 0x0709 s) s
  | none => done s

end Sys2Proof.Machine
end

