-- ==== Sys2Proof/Machine/Power.lean ====
section
/-! DEFINITION. Power (R469 to R475, R489, R490, R510, R511, R516): the always-on domain, last breath, device resets, junction
temperature, TIMEREF, the VDD_CORE target, unit gating and the SMBus alert pin. -/

namespace Sys2Proof.Machine

/-- The condition of SMB_ALERT_N: bit 1 or bit 2 of SMBus command 0x02 (R515); with MAINGOOD low the pin is high impedance (R502). -/
def alertCond (s : State) : Bool := s.power.maingood && (s.power.pwrfail || decide (100 ≤ s.power.tj))

/-- SMB_ALERT_N follows its condition; once released by an answer it waits for its repeat (R515). -/
def settleAlert (s : State) : State :=
  updPower (fun p =>
    if alertCond s then { p with alert := p.alert || p.alertReleased.isNone } else { p with alert := false, alertReleased := none }) s

/-- Every cue pin enters DISABLED (R42, R473). -/
def disablePins (s : State) : State :=
  (List.range 16).foldl (fun s n => match s.pins[n]? with | some p => setPinMode n .disabled p.par s | none => s) s

/-- A stream's formed records with their trailers, as they would be emitted now (R440, R474). -/
def formedOf (n : Nat) (x : Stream) (t : Nat) : List JournalRec :=
  x.formed.map fun r =>
    { stream := n, frame := r.frame, recovered := true,
      bytes := match frameByNum x r.frame with | some f => emittedBytes x f t r.bytes | none => r.bytes }

/-- The journal tail: every unacknowledged record (R440, R473): those that wait in a backlog, then those formed, by stream and frame
(DESIGN CHOICE, log 66). -/
def journalTail (s : State) : List JournalRec :=
  (unsentRecords s).map (fun r => { stream := r.stream, frame := r.frame, bytes := r.bytes, recovered := true }) ++
  (s.streams.zipIdx.map fun x => match x.1 with | some y => formedOf x.2 y (nowNs s) | none => []).flatten

/-- The header of a stream in the track summaries (R475). -/
def summaryHead (s : State) (n : Nat) : List Byte :=
  match stream? s n with
  | none => leBytes 1 n ++ List.replicate 31 0
  | some x =>
    let (num, stamp) := x.committed.getD (0, 0)
    leBytes 1 n ++ leBytes 1 1 ++ leBytes 2 0 ++ leBytes 4 x.nextTrack ++ leBytes 4 num ++ leBytes 8 stamp ++ List.replicate 12 0

/-- The entry of a TRACK in the track summaries (R475). -/
def summaryEntry (y : Seq) : List Byte :=
  let t := y.tokens.getLast?
  leBytes 4 y.trackId ++ leBytes 1 y.stream ++ leBytes 3 0 ++ leBytes 8 y.gid
    ++ (match t with | some t => (padTo 8 (t.box.map (leBytes 2)).flatten) | none => List.replicate 8 0)
    ++ leBytes 8 (match t with | some t => t.stamp | none => 0)

/-- The track summaries (R475). -/
def trackSummaries (s : State) : List Byte :=
  ((List.range 128).map (summaryHead s)).flatten
    ++ (((s.aviary.seqs.map (·.2)).filter fun y => y.kind == .track).map summaryEntry).flatten

/-- What a section of last breath is on the store die: its contents with their CRC-64 (R473). -/
def sealSection {α : Type} (bytes : α → List Byte) (x : α) : Option (α × BitVec 64) := some (x, crc64 (bytes x))

/-- Last breath starts, in service and in every other state in which the main rails are good (R473): its steps 1 to 6 at once. It ends
every mode (R497), and the score issues no more. Where Quinbuar does not run, the sections that only it can write stay as they are (DESIGN
CHOICE, log 238). -/
def startBreath (s : State) : State :=
  if s.power.breath || !(s.power.running || s.power.maingood) then s
  else
    let s := disablePins s
    let old := s.power.store
    let records := if s.power.running then sealSection tailBytes (journalTail s) else old.records
    let sums := if s.power.running then sealSection id (trackSummaries s) else old.summaries
    let lost := s.band.timeLost
    let block := (s.band.count, timeStateCode s.band.tstate, s.power.ledger.lbSeq + 1)
    updPower (fun p =>
      let l := { p.ledger with lbSeq := p.ledger.lbSeq + 1, timeLost := lost }
      let q := writeCopy { p with ledger := l }
      { q with
        breath := true
        breathAt := s.band.aon
        running := false
        waitingBoot := none
        store := { time := sealSection timeBlock block, records := records, ledger := true, summaries := sums, marker := false,
                   begun := true } }) s

/-- The bounds of the sections of last breath, in µs from its start (R473). -/
def sectionBounds : List Nat := [51, 707, 871, 2200]

/-- Last breath is cut off when its supply is gone: the sections whose bound has passed are written, how many of the others are is a
free value, and the copy of the ledger that was not written whole is not valid (R473, R478). -/
def cutBreath (s : State) : State :=
  if !s.power.breath then s
  else
    let us := (s.band.aon - s.power.breathAt) / (1000 * 2 ^ 16)
    let sure := (sectionBounds.filter fun b => decide (b ≤ us)).length
    let (v, s) := freeNat s
    let n := sure + v % (5 - sure)
    updPower (fun p =>
      let whole (c : Option LedgerCopy) : Option LedgerCopy := if n < 3 then c.filter fun c => c.ledger.gen != p.ledger.gen else c
      { p with
        copyA := whole p.copyA, copyB := whole p.copyB
        store := { p.store with
          time := if 1 ≤ n then p.store.time else none, records := if 2 ≤ n then p.store.records else none
          ledger := decide (3 ≤ n), summaries := if 4 ≤ n then p.store.summaries else none } }) s

/-- The Gatehouse runs, so that a cause can be set: in service and in recovery mode (R388, R485). -/
def gateRuns (s : State) : Bool := s.power.running || s.power.recovery

/-- PWRFAIL (R473): PWRFAIL_N asserting raises the cause PWR (R388); low for 1 µs it starts last breath. -/
def execPwrfail (asserted : Bool) (lowNs : Nat) (s : State) : Res :=
  let rises := asserted && !s.power.pwrfail
  let t := settleAlert (updPower (fun p => { p with pwrfail := asserted }) s)
  let t := if rises && gateRuns s then setPwr t else t
  done (if asserted && decide (1000 ≤ lowNs) then startBreath t else t)

/-- What a reset of islands 1 to 60 leaves of the error log (R365, R393): the capture registers and the dropped counters of island 0. -/
def wardenSources (s : State) : List ErrorSource :=
  (s.err.sources.filter fun x => x.island == 0).map fun x =>
    { freshSource x.island x.unit with captured := x.captured, dropped := x.dropped }

/-- What a reset of islands 1 to 60 leaves (R393, R474): island 0 with its count, pins, counters and error sources, its ledger and SCOPE
stand; host memory is not the device's; memories read 0 (DESIGN CHOICE, log 67). -/
def deviceReset (s : State) : State :=
  let s := disablePins s
  let scope := reg s 0x400018
  { State.reset with
    pending := s.pending
    idleCycles := s.idleCycles
    freeCount := s.freeCount
    out := s.out
    band := s.band
    islands := s.islands.map fun x => { Island.reset with pathDelay := x.pathDelay }
    pins := s.pins
    reflexes := s.reflexes
    err := { ErrLog.reset with sources := wardenSources s }
    mem := { Mem.reset with host := s.mem.host, hostBad := s.mem.hostBad, hostEcrc := s.mem.hostEcrc }
    gate := { Gate.reset with regs := if scope = 0 then Gate.resetRegs else tabPut 0x400018 scope Gate.resetRegs }
    power := { s.power with
      running := false, waitingBoot := none, breath := false, bootStep := 0, recovery := false, version := 0, runSlot := 0,
      update := Power.reset.update } }

/-- A device reset that is asked for while the device runs flushes the journal tail and the ledger first (R393; for PERST_N with SCOPE
0 DEDUCED, log 69). -/
def flushedReset (s : State) : State :=
  if !s.power.running then deviceReset s
  else
    let tail := journalTail s
    let lost := s.band.timeLost
    deviceReset (updPower (fun p =>
      let q := writeCopy { p with ledger := { p.ledger with timeLost := lost } }
      { q with store := { q.store with records := sealSection tailBytes tail, ledger := true, marker := true } }) s)

/-- Islands 1 to 60 are held in reset while last breath runs in the Warden (R470, R473). -/
def holdIslands (s : State) : State :=
  let b := s.power.breath
  updPower (fun p => { p with breath := b }) (deviceReset s)

/-- MAINGOOD_FALL (R470, R473, R490): last breath starts, unless it runs already, and islands 1 to 60 go to reset; without PWRFAIL_N it
logs 0x080C. -/
def execMaingoodFall (s : State) : Res :=
  if !s.power.maingood then done s
  else
    let t := if s.power.breath then s else startBreath (if s.power.pwrfail then s else logErr 0x080C 0 0 s)
    done (holdIslands (settleAlert (updPower (fun p => { p with
      maingood := false, testEn := false, thermal := false, thermtrip := false }) t)))

/-- LAST_BREATH_END (R473, R474, R490, R510): the marker is written, LBDONE rises and the device resets. It boots next where
MAINGOOD is high, but after a thermal trip only once MAINGOOD has risen again. -/
def execLastBreathEnd (s : State) : Res :=
  doneIf s.power.breath
    (deviceReset (updPower (fun p => { p with store := { p.store with marker := true }, lbdone := true }) s)) s

/-- AON_SUPPLY_SWITCH (R472): below 2.90 V to VAON_BKUP; back once VAON_MAIN has stayed above 3.05 V for 10 ms. Each switch is logged, and
raises PWR where a Gatehouse runs to hold it. -/
def execAonSupplySwitch (mainMillivolts heldMs : Nat) (s : State) : Res :=
  let toBackup := !s.power.aonBkup && decide (mainMillivolts < 2900)
  let toMain := s.power.aonBkup && decide (3050 < mainMillivolts ∧ 10 ≤ heldMs)
  if !s.power.aonAlive || !(toBackup || toMain) then done s
  else
    let t := updPower (fun p => { p with aonBkup := toBackup }) s
    let t := logErr 0x080A 0 0 t { arg0 := if toBackup then 1 else 0 }
    done (if gateRuns s || (s.power.breath && s.power.maingood) then setPwr t else t)

/-- ALWAYS_ON_DOMAIN_LOSS (R472): island 0 loses its count and its state, and with it the device; the store die and the flash
stay, with what last breath has written of its sections. -/
def execAlwaysOnDomainLoss (s : State) : Res :=
  if !s.power.aonAlive then done s
  else
    let t := deviceReset (cutBreath s)
    done { t with
      band := Band.reset
      islands := t.islands.map fun _ => Island.reset
      pins := State.reset.pins
      reflexes := State.reset.reflexes
      err := ErrLog.reset
      gate := Gate.reset
      power := { t.power with
        aonAlive := false, aonBkup := false, countLost := true, lbdone := false, thermal := false, thermtrip := false,
        ledger := Ledger.default, hotAt := none } }

/-- ALWAYS_ON_POWER_UP (R510): island 0 powers up and drives LBDONE high. -/
def execAlwaysOnPowerUp (s : State) : Res :=
  doneIf (!s.power.aonAlive) (updPower (fun p => { p with aonAlive := true, lbdone := true }) s) s

/-- A junction reading (R401, R515). -/
def readJunction (island tj : Nat) (s : State) : State :=
  settleAlert (updPower (fun p => { p with tj := tj, tjIsland := island }) s)

/-- JUNCTION_HOT (R490): at 100 °C or above the cause PWR, and 0x0808 at most once a minute; a lower reading is taken and no more
(DESIGN CHOICE, log 70). -/
def execJunctionHot (island tj : Nat) (s : State) : Res :=
  inRange (decide (island ≤ 60 ∧ tj < 128)) s <|
    let t := readJunction island tj s
    if tj < 100 then done t
    else
      let due : Bool := gateRuns s && match s.power.hotAt with | some a => decide (a + 60000000000 ≤ steadyNs s) | none => true
      let t := if due then logErr 0x0808 island 0 (updPower (fun p => { p with hotAt := some (steadyNs s) }) t) { arg0 := tj } else t
      done (if gateRuns s then setPwr t else t)

/-- THERMAL_TRIP (R388, R490): at 115 °C the cause PWR is set where a Gatehouse runs, last breath starts and THERMTRIP_N goes low until
MAINGOOD falls; during last breath it has no further effect (R497). -/
def execThermalTrip (island tj : Nat) (s : State) : Res :=
  inRange (decide (island ≤ 60 ∧ tj < 128)) s <|
    if tj < 115 || s.power.breath || !(s.power.running || s.power.maingood) then done s
    else
      let t := logErr 0x0809 island 0 (readJunction island tj s) { arg0 := tj }
      let t := if gateRuns s then setPwr t else t
      done (startBreath (updPower (fun p => { p with thermal := true, thermtrip := true }) t))

/-- The core finds TIMEREF stopped: it ends service with 0x080D (R511). -/
def loseTimeref (s : State) : State :=
  let t := updPower (fun p => { p with timeref := false }) s
  if s.power.running then startBreath (logErr 0x080D 0 0 t) else t

/-- TIMEREF_LOSS (R511): stopped for more than 1 µs; EXTEST keeps the pin from the core (R517). -/
def execTimerefLoss (stoppedNs : Nat) (s : State) : Res :=
  if stoppedNs ≤ 1000 || !(if pinsTaken s then s.power.timerefPin else s.power.timeref) then done s
  else done (if pinsTaken s then updPower (fun p => { p with timerefPin := false }) s else loseTimeref s)

/-- AVS_ADJUST (R471, R516): every 100 ms by at most 5 mV within 0.70 to 0.80 V; without an acknowledgement VDD_CORE stays at 0.80 V. -/
def execAvsAdjust (target : Nat) (ack : Bool) (s : State) : Res :=
  let p := s.power
  let ok := p.running && !islandFenced s 1 && decide (p.avsAt + 100000000 ≤ steadyNs s) && target % 5 == 0 &&
    decide (700 ≤ target ∧ target ≤ 800) && decide (target ≤ p.vdd + 5 ∧ p.vdd ≤ target + 5)
  let ack := ack && !pinsTaken s
  let t := emitPin (.avsTarget target) (updPower (fun p => { p with vdd := if ack then target else 800, avsAt := steadyNs s }) s)
  doneIf ok (if ack then t else logErr 0x080E 0 0 t { arg0 := target }) s

/-- No work is assigned to an island that Quinbuar may gate (R489). -/
def unitIdle (s : State) (i : Nat) : Bool :=
  let open_ := s.streams.filterMap fun x => x
  if 5 ≤ i ∧ i ≤ 8 then open_.all (fun x => x.fountain != some (i - 5)) && (s.clips.filterMap id).all (fun c => c.fountain != some (i - 5))
  else if 9 ≤ i ∧ i ≤ 12 then open_.all fun x => x.topiary != i - 9
  else if i = 3 then (s.eth.all fun e => e.net.isNone) && open_.all fun x => decide (2 ≤ x.cfg.source)
  else if i = 4 then open_.all fun x => x.cfg.source != 2
  else if 56 ≤ i ∧ i ≤ 60 then
    match s.trellis.links[i - 56]? with | some l => l.peer.isNone && l.state == .down | none => false
  else false

/-- UNIT_GATE (R489): a gated island is not time-ready. -/
def execUnitGate (island : Nat) (s : State) : Res :=
  inRange (decide ((3 ≤ island ∧ island ≤ 12) ∨ (56 ≤ island ∧ island ≤ 60))) s <|
    doneIf (s.power.running && !islandFenced s island && unitIdle s island)
      (updIsland island (fun x => { x with gated := true, waking := false, ready := false, agree := 0, missed := 0 }) s) s

end Sys2Proof.Machine
end

