-- ==== Sys2Proof/Machine/Boot.lean ====
section
/-! DEFINITION. Boot (R329, R337, R444, R476 to R485, R510, R511): the steps S0 to S12, guided by the start ledger, with what the
tests and trainings of the steps find as the command's facts; PERST_N's release. -/

namespace Sys2Proof.Machine

/-- Where boot places the error log ring (R364), the level-1 table (R311) and the sequence table (R153) (DESIGN CHOICE, log 8). -/
def errRing : Nat := 0x3FF8000
def l1Table : Nat := 0x001040000000
def seqTableAt : Nat := 0x001041000000

/-- The ledger that S0 takes (R478): the valid copy with the higher generation, else the mirror, which EXTEST keeps from it (R517). -/
def pickLedger (p : Power) : Option Ledger :=
  match validLedger p.copyA, validLedger p.copyB with
  | some a, some b => some (if b.gen ≤ a.gen then a else b)
  | some a, none => some a
  | none, some b => some b
  | none, none => if p.tap == .extest then none else validLedger p.mirror

/-- Sizes that LEDGER_SIZES left take effect (R486). -/
def takeSizes (l : Ledger) : Ledger :=
  match l.nextSizes with
  | none => l
  | some z => { l with
      jsizeMiB := z.jsizeMiB, cacheMiB := z.cacheMiB, clipMiB := z.clipMiB, pools := z.pools, thresholds := z.thresholds,
      nextSizes := none }

/-- The units that the ledger fences, and links at a reduced width, start anew after LEDGER_CLEAR or COMMIT (R481, R486; the widths
are a DESIGN CHOICE, log 73). -/
def takeUnfence (l : Ledger) : Ledger :=
  if l.unfence then
    { l with
      unfence := false, fencedIslands := [], fencedBanks := [], linkWidths := l.linkWidths.map fun _ => 4,
      dram := l.dram.map fun d => if d = 2 then 0 else d }
  else l

/-- A step has a method of its own after a failure (R476). -/
def hasAlternate (i : Nat) : Bool := decide (1 ≤ i ∧ i ≤ 7) || i == 10

def stepOf (s : State) (i : Nat) : StepRecord :=
  s.power.ledger.steps.getD i { outcome := 0, method := 0, goodRuns := 0, status := 0, boot := 0 }

/-- The step runs by its alternate method (R480, R481): it failed or did not finish last time, or it passed by it fewer than 16 times in
a row. -/
def alternate (s : State) (i : Nat) : Bool :=
  let r := stepOf s i
  hasAlternate i && (r.outcome == 1 || r.outcome == 3 || (r.method == 1 && decide (r.goodRuns < 16)))

/-- Update the ledger shadow. -/
def updLedger (f : Ledger → Ledger) (s : State) : State := updPower (fun p => { p with ledger := f p.ledger }) s

/-- A step starts (R480): its record reads 1, in the shadow and on the store die. -/
def openStep (i : Nat) (s : State) : State :=
  updPower writeCopy (updLedger (fun l => { l with steps := upd l.steps i fun r => { r with outcome := 1, boot := l.boots } }) s)

/-- A step ends (R480, R481): its record in the shadow and on the store die, from S11 on in the mirror too (R478), 0x0802 for a pass
by the alternate method, and PWR_BOOTSTEP. -/
def closeStep (i : Nat) (alt ok : Bool) (status : Nat) (s : State) : State :=
  let old := stepOf s i
  let runs := if ok && alt then (if old.method = 1 then old.goodRuns else 0) + 1 else 0
  let r : StepRecord := { outcome := if ok then 2 else 3, method := if alt then 1 else 0, goodRuns := runs, status := status,
                          boot := s.power.ledger.boots }
  let s := updLedger (fun l => { l with steps := l.steps.set i r }) s
  let s := if 11 ≤ i then saveLedger s else updPower writeCopy s
  let s := updPower (fun p => { p with bootStep := i }) s
  if ok && alt then logErr 0x0802 0 0 s { arg0 := i } else s

/-- A boot step with its outcome as the facts have it; where a reset cuts it off, its record goes on reading 1 and no step follows
(R480). -/
def runStep (i : Nat) (f : BootFacts) (work : Bool → State → State) (s : State) : State :=
  if s.power.cut then s
  else
    let alt := alternate s i
    let t := openStep i s
    if f.cutAt = some i then updPower (fun p => { p with cut := true }) t
    else closeStep i alt (f.steps.getD i true) 0 (work alt t)

/-- An island is fenced for this boot (R481); a link's fence is logged with 0x0703 too (R446). -/
def applyFence (i : Nat) (s : State) : State :=
  let s := updIsland i (fun x => { x with bootFenced := true }) s
  let s := if 40 ≤ i ∧ i ≤ 55 then updChan (i - 40) (fun c => { c with fenced := true }) s else s
  if 56 ≤ i ∧ i ≤ 60 then
    logErr 0x0703 i 0 (updLink (i - 56) (fun l => { l with state := .fenced, fails := 3 }) s) { arg0 := i - 56 }
  else s

/-- A step fences a unit: logged, and kept in the ledger until LEDGER_CLEAR (R476, R481); a Pergola takes both Orangeries that drain
through it along (R94). -/
def fenceUnit (i : Nat) (s : State) : State :=
  if s.power.ledger.fencedIslands.contains i then s
  else logErr 0x080B i 0 (updLedger (fun l => { l with fencedIslands := setAdd i l.fencedIslands }) (applyFence i s))

def fenceUnits (is : List Nat) (s : State) : State :=
  is.foldl (fun s i =>
    let s := fenceUnit i s
    if 30 ≤ i ∧ i ≤ 37 then fenceUnit (14 + 2 * (i - 30) + 1) (fenceUnit (14 + 2 * (i - 30)) s) else s) s

/-- S0 (R58, R476, R478): the ledger, the count where island 0 was lost, SCOPE; LBDONE goes low (R510). A lost count restarts from the
store die's time block, and from 0 where the store die holds none (DESIGN CHOICE, log 168). -/
def bootS0 (s : State) : State :=
  let s := updErr (fun e => { e with base := errRing, placed := false }) s
  let s := match pickLedger s.power with
    | some l => updLedger (fun _ => l) s
    | none => logErr 0x0801 0 0 (updLedger (fun _ => Ledger.default) s)
  let saved := match s.power.store.time with
    | some ((count, _, _), _) => if sealedOk timeBlock s.power.store.time then count else 0
    | none => 0
  let s := if s.power.countLost then updBand (fun b => { b with count := saved, timeLost := true, tstate := .free }) s else s
  let lost := s.band.timeLost
  let s := updLedger (fun l => { takeUnfence (takeSizes l) with boots := l.boots + 1, timeLost := lost }) s
  let s := setReg 0x400018 (if s.power.ledger.perstScope then 1 else 0) s
  closeStep 0 false true 0 (updPower (fun p => { p with countLost := false, lbdone := false }) s)

/-- S1 (R471, R476, R516): the VDD_CORE target and the time PLL. -/
def bootS1 (f : BootFacts) (alt : Bool) (s : State) : State :=
  let target := min 800 (s.power.ledger.vddTarget + (if alt then 20 else 0))
  let ack := f.avsAck && !pinsTaken s
  let s := emitPin (.avsTarget target) (updPower (fun p => { p with vdd := if ack then target else 800 }) s)
  lockPll (if ack then s else logErr 0x080E 0 0 s { arg0 := target })

/-- The bytes of a slot that hold a valid image (R482, R483). -/
def imageValid (s : State) (b : List Byte) : Bool :=
  let len := field b 0x0C 4
  let key := field b 0x09 1
  let pub := slice b 0x40 97
  field b 0 4 == 0x0640F1A5 && decide (len ≤ 0x1000000 - 512) && decide (0x200 + len ≤ b.length)
    && Config.sha384 (slice b 0x200 len) == slice b 0x10 48
    && decide (key < 4) && Config.sha384 pub == Config.fusedKeyHash key && !s.power.revoked.contains key
    && Config.ecdsaVerify pub (b.take 0xC0) (slice b 0xC0 96)
    && decide (field b 0x08 1 < 64 ∧ s.power.rollback ≤ field b 0x08 1)

/-- Whether a slot holds a valid image (R483); the content of a slot that no STAGE has written is the board's, so the facts say what its
header and its body are worth (DESIGN CHOICE, log 71), and the fuses decide. A slot that EXTEST keeps from the Warden is not (R517). -/
def slotGood (s : State) (f : BootFacts) (i : Nat) : Bool :=
  !pinsTaken s && match s.power.slots.getD i none with
  | some x => imageValid s x.bytes
  | none =>
    let level := f.slotRollback.getD i 0
    let key := f.slotKey.getD i 0
    f.slotsValid.getD i false && decide (key < 4 ∧ level < 64 ∧ s.power.rollback ≤ level) && !s.power.revoked.contains key

/-- FWVERSION of a slot (R482); of the board's own content as the ledger has it (R479). -/
def slotVersion (s : State) (i : Nat) : Nat :=
  match s.power.slots.getD i none with
  | some x => field x.bytes 4 4
  | none => s.power.ledger.slotVersions.getD i 0

/-- The PCIe link trains (R376, R397): the negotiated speed, capped at 16.0 GT/s by S4's alternate method (R476), and width are free
values. -/
def trainPcie (alt : Bool) (s : State) : State :=
  let cap := if alt then 4 else 5
  let (v, s) := freeNat s
  let (w, s) := freeNat s
  updGate (fun g => { g with linkUp := true })
    (setReg 0x000004 (BitVec.ofNat 32 (1 + v % cap + 2 ^ (w % 4) * 16 + 2 ^ 16)) s)

/-- The Gatehouse answers configuration requests; its link trains once PERST_N is released (R393, R477). -/
def openGate (alt : Bool) (s : State) : State :=
  let s := updGate (fun g => { g with configReady := true }) s
  if s.power.perstReleased then trainPcie alt s else s

/-- The status of the last ring error (R398). -/
def setRingStatus (status : Nat) (s : State) : State :=
  setReg 0x100050 (BitVec.ofNat 32 ((reg s 0x100050).toNat % 65536 + status % 65536 * 65536)) s

/-- A boot that S2 has stopped skips its later steps (R480, R485; OUTCOME 4 for them is DEDUCED, log 135). -/
def skipSteps (s : State) : State :=
  updPower writeCopy (updLedger (fun l => { l with
    steps := l.steps.zipIdx.map fun r => if 3 ≤ r.2 then { r.1 with outcome := 4, boot := l.boots } else r.1 }) s)

/-- Recovery mode (R485): island 0 and the Gatehouse run. -/
def enterRecovery (s : State) : State :=
  openGate false (setRingStatus 0x0803 (updPower (fun p => { p with recovery := true, bootStep := 1 }) s))

/-- The slot that S2 starts: the active one, or the other when S2 failed last time, and the other one again where that is not valid
(R484). -/
def pickSlot (s : State) (f : BootFacts) (alt : Bool) : Option Nat :=
  let active := s.power.ledger.activeSlot % 2
  let first := if alt then 1 - active else active
  if slotGood s f first then some first else if slotGood s f (1 - first) then some (1 - first) else none

/-- Each slot that S2 finds invalid is logged, 0x0804 (R483). -/
def logSlots (f : BootFacts) (alt : Bool) (s : State) : State :=
  let active := s.power.ledger.activeSlot % 2
  let first := if alt then 1 - active else active
  if slotGood s f first then s
  else
    let s' := logErr 0x0804 0 0 s { arg0 := first }
    if slotGood s f (1 - first) then s' else logErr 0x0804 0 0 s' { arg0 := 1 - first }

/-- S3 (R368, R476): the units that the ledger fences stay so; a failing island is fenced, and by the alternate method one whose test
did not pass before is fenced untested. -/
def bootS3 (f : BootFacts) (alt : Bool) (s : State) : State :=
  let s := s.power.ledger.fencedIslands.foldl (fun s i => applyFence i s) s
  let untested := if alt then s.power.ledger.failedTests else []
  fenceUnits ((untested ++ f.failedIslands).filter canReset) (updLedger (fun l => { l with failedTests := [] }) s)

/-- What S5 has measured (R479). -/
def takeCalibration (f : BootFacts) (l : Ledger) : Ledger :=
  { l with pathDelays := f.pathDelays, ethLatencies := f.ethLatencies, trellisLatencies := f.trellisLatencies, pinDelays := f.pinDelays }

/-- S5 (R34, R476): the time paths and the cue-pin output delays are measured, or the ledger's values that passed stand. -/
def bootS5 (f : BootFacts) (alt : Bool) (s : State) : State :=
  let s := if alt || !f.steps.getD 5 true then s else updLedger (takeCalibration f) s
  { s with islands := s.islands.zipIdx.map fun x => { x.1 with pathDelay := s.power.ledger.pathDelays.getD x.2 0 } }

/-- S6 (R94, R108): bad columns, the Orangeries and the Pergolas that fail; by the alternate method the Orangery that was under test when
it failed is fenced (R476). -/
def bootS6 (f : BootFacts) (alt : Bool) (s : State) : State :=
  let stuck := if alt then s.power.ledger.underTest.toList else []
  let s := fenceUnits (stuck.map (14 + ·)) s
  let cols := (List.range 16).map fun o => f.badColumns.getD o []
  let s := updLedger (fun l => { l with
    badColumns := cols, oWidths := cols.map widthCode, underTest := if f.steps.getD 6 true then none else some (f.orangeryTested % 16) }) s
  let s := { s with orangeries := s.orangeries.zipIdx.map fun x => { x.1 with badColumns := cols.getD x.2 [] } }
  let bad := (List.range 16).filter fun o => decide (72 < 136 - (goodColumns (cols.getD o [])).length) || f.badRow.getD o false
  let perg := (List.range 8).filter fun p => f.failedPergola.getD p false
  fenceUnits (perg.map (30 + ·)) (fenceUnits (bad.map (14 + ·)) s)

/-- The package serial and the stepping that results of a training belong to (R329). -/
def takenWith (s : State) : Nat × Nat := (s.power.ledger.serial, bits (reg s 0).toNat 0 8)

/-- A channel is ready at one of its profiles with its delays (R329): 0 at 8533 MT/s, 1 conservative. -/
def channelReady (k profile : Nat) (d : Option DramDelays) (s : State) : State :=
  updChan k (fun c => { c with conservative := profile == 1, delays := d })
    (updLedger (fun l => { l with
      dram := l.dram.set k profile, dramTrained := tabPut k (takenWith s) l.dramTrained
      dramResults := match d with | some d => tabPut k d l.dramResults | none => l.dramResults }) s)

/-- Steps 1 to 6 at one rate (R328): the helpers' state, and the results where they pass. -/
def trainRate (k : Nat) (f : ChannelTraining) (s : State) : Option DramDelays × State :=
  (fullTraining f, updChan k (fun c => { c with helper := helperAfter f c.helper }) s)

/-- The training of a channel from its first step on (R329); by S7's alternate method one whose training did not finish starts at 6400
MT/s (R476). -/
def trainChannel (f : BootFacts) (alt : Bool) (k : Nat) (s : State) : State :=
  let slow (s : State) : State :=
    let (d, s) := trainRate k (f.train6400.getD k cleanTraining) s
    if d.isSome then logErr 0x0621 (40 + k) 0 (channelReady k 1 d s)
    else fenceUnits [40 + k] (logErr 0x0622 (40 + k) 0 (updLedger (fun l => { l with dram := l.dram.set k 2 }) s))
  if alt && (tabGet k s.power.ledger.dramTrained).isNone then slow s
  else
    let (d, s) := trainRate k (f.train8533.getD k cleanTraining) s
    if d.isSome then channelReady k 0 d s else slow s

/-- S7 (R329) for one channel: its lines leave the cache first (R310); results of the ledger that were taken with this package serial
and stepping, and pass the quick check, stand. -/
def bootChannel (f : BootFacts) (alt : Bool) (k : Nat) (s : State) : State :=
  let s := cleanChannel k s
  if islandFenced s (40 + k) then s
  else if tabGet k s.power.ledger.dramTrained = some (takenWith s) then
    let p := f.quickCheck.getD k []
    let s := updChan k (fun c => { c with helper := runHelper .prbs15 false dqLanes (burstsBelow quickBursts p) c.helper }) s
    if quickPasses p then
      channelReady k 0 (tabGet k s.power.ledger.dramResults) s
    else trainChannel f alt k (logErr 0x0620 (40 + k) 0 s)
  else trainChannel f alt k s

/-- A span lies wholly in one DRAM region that backs it (R302, R317). -/
def inDram (s : State) (a len : Nat) : Option Region :=
  let r := regionOf a
  if (r == .dramGeneral || r == .dramRealTime) && regionOf (a + len - 1) == r && (dramMap s (a + len - 1)).isSome then some r
  else none

/-- The checks of a pool's parameters (R337). -/
def poolOk (s : State) (p : Nat × Nat × Nat × Nat × Nat) : Bool :=
  let (base, n, f, ring, owner) := p
  let home := inDram s base (256 * n)
  base % 0x200000 == 0 && decide (1025 ≤ n ∧ n ≤ 2097152) && (f == 0 || decide (1024 ≤ f ∧ f ≤ n - 1)) && home.isSome
    && inDram s ring (4 * (n - 1)) == home && inDram s owner n == home

/-- A pool as boot leaves it; the movers' account may take all of it (R338). -/
def poolOf (p : Nat × Nat × Nat × Nat × Nat) : Pool :=
  let (base, n, f, ring, owner) := p
  { Pool.reset with base := base, size := n, floor := f, ringBase := ring, ownerBase := owner, quota := [(255, n - 1)] }

/-- S9 for one pool, whose head cache is then filled (R339): a configuration that fails a check is refused, 0x0633 (R337); one of no cells is not in use. -/
def bootPool (q : Nat) (s : State) : State :=
  match s.power.ledger.pools[q]? with
  | none => s
  | some p =>
    let total := (s.power.ledger.pools.map fun x => x.2.1 - 1).sum
    if p.2.1 = 0 then s
    else if poolOk s p && decide (total ≤ 16777208) then refill q (updPool q (fun _ => poolOf p) s) else logErr 0x0633 39 q s

/-- A channel's poison map is cleared: no cached line carries a mark into it afterwards (R310, R325). -/
def clearPoisonMap (k : Nat) (s : State) : State := updChan k (fun c => { c with poisonMap := [] }) (cleanChannel k s)

/-- S8 and S9 (R311, R325, R153, R321, R337, R400): the poison maps cleared, the tables, the pools, the port thresholds, the error ring. -/
def bootS8 (s : State) : State :=
  updMem (fun m => { m with l1Base := l1Table, thresholds := s.power.ledger.thresholds })
    ((List.range 16).foldl (fun s k => clearPoisonMap k s) s)
def bootS9 (s : State) : State :=
  (List.range 8).foldl (fun s q => bootPool q s)
    (updErr (fun e => { e with placed := true }) (updAviary (fun a => { a with seqTable := seqTableAt }) s))

/-- The next lower width (R443). -/
def lowerWidth (w : Nat) : Nat := max 1 (w / 2)

/-- One link of S10: with a peer it comes UP at the ledger's width where at least so many of its lanes train, else it is FENCED, which is
logged as a link's and as a unit's (R446, R476). -/
def bootLink (f : BootFacts) (k : Nat) (s : State) : State :=
  if islandFenced s (linkIsland k) || !(f.peers.any fun p => p.1 == k) then s
  else
    if ledgerWidth s k ≤ f.linkWidths.getD k 4 then linkEnters k (ledgerWidth s k) s
    else logErr 0x080B (linkIsland k) 0
      (logErr 0x0703 (linkIsland k) 0 (updLink k (fun l => { l with state := .fenced, fails := 3 }) s) { arg0 := k }) { arg0 := linkIsland k }

/-- The links whose peers have trained, with the serials at their far ends. -/
def trainedPeers (s : State) (f : BootFacts) : List (Nat × Nat) :=
  (f.peers.filter fun p => match s.trellis.links[p.1]? with | some l => l.state == .up | none => false).map fun p => (p.1, p.2.1)

/-- The membership (R444, R445): chips by serial; wiring that is no full mesh leaves the chip alone with 0x0705. -/
def formMembership (f : BootFacts) (s : State) : State :=
  let ps := trainedPeers s f
  let own := s.power.ledger.serial
  let serials := ps.map (·.2)
  let good := f.meshOk && decide (serials.eraseDups.length = serials.length) && !serials.contains own
  if !good then
    logErr 0x0705 1 0 (updTrellis (fun t => { t with links := t.links.map fun l => { l with peer := none } }) s)
  else
    let order := sortBy (fun a b => decide (a < b)) (own :: serials)
    let index (x : Nat) : Nat := (posOf (· == x) order).getD 0
    updTrellis (fun t => { t with
      chip := index own
      chips := order.length
      members := List.range order.length
      links := t.links.zipIdx.map fun l => { l.1 with peer := (ps.find? fun p => p.1 == l.2).map fun p => index p.2 } }) s

/-- S10 (R443 to R446, R476); by its alternate method at the next lower width. -/
def bootS10 (f : BootFacts) (alt : Bool) (s : State) : State :=
  let s := if alt then updLedger (fun l => { l with linkWidths := l.linkWidths.map lowerWidth }) s else s
  let s := (List.range 5).foldl (fun s k => bootLink f k s) s
  let s := formMembership f s
  let now := steadyNs s
  sendPeerState false (updTrellis (fun t => { t with heard := (t.members.filter (· != t.chip)).map fun m => (m, now, none) }) s)

/-- A record with FLAGS[5] and a new trailer (R441). -/
def recovered (r : JournalRec) : JournalRec :=
  let flags := field r.bytes 0x10 2
  let body := putAt (r.bytes.take (r.bytes.length - 4)) 0x10 (leBytes 2 (if bitAt flags 5 then flags else flags + 2 ^ 5))
  { r with bytes := sealRecord body, recovered := true }

/-- A saved record enters the journal (R355, R441): its new trailer is computed before the old one is verified; one whose old trailer fails
is discarded. -/
def recoverRecord (r : JournalRec) (s : State) : State := if trailerOk r.bytes then journalAdd (recovered r) s else s

/-- The sections of a last breath that are missing, or whose CRC fails, by the step that writes each, 7 for the marker (R473). -/
def missingSections (b : Breath) : List Nat :=
  (if sealedOk timeBlock b.time then [] else [3]) ++ (if sealedOk tailBytes b.records then [] else [4]) ++ (if b.ledger then [] else [5])
    ++ (if sealedOk id b.summaries then [] else [6]) ++ (if b.marker then [] else [7])

/-- S11 (R441, R473, R478): the saved records enter the journal, where their section stands; a last breath that lacks a section logs
0x0807 with the first missing one. -/
def bootS11 (s : State) : State :=
  let st := s.power.store
  let saved := if sealedOk tailBytes st.records then (match st.records with | some x => x.1 | none => []) else []
  let s := saved.foldl (fun s r => recoverRecord r s) s
  let s := match missingSections st with
    | n :: _ => if st.begun then logErr 0x0807 1 0 s { arg0 := n } else s
    | [] => s
  saveLedger (updPower (fun p => { p with store := { p.store with records := none, begun := false } }) s)

/-- S12: service (R476). The islands become time-ready as the first two beacons agree (R35); PPS_OUT's series starts at the next whole
second (R50). -/
def bootS12 (s : State) : State :=
  let s := orReg 0x100050 0x100 (disablePins s)
  let s := updBand (fun b => { b with ppsOut := false, ppsNext := secondAfter (nowNs s) }) s
  updPower (fun p => { p with running := true })
    { s with islands := s.islands.map fun x =>
        if x.bootFenced then x else { x with ready := false, agree := 0, missed := 0, gated := false, waking := false, skips := false } }

/-- S3 to S12 (R476). -/
def bootLodge (f : BootFacts) (s : State) : State :=
  let s := runStep 3 f (bootS3 f) s
  let s := runStep 4 f openGate s
  let s := runStep 5 f (bootS5 f) s
  let s := runStep 6 f (bootS6 f) s
  let s := runStep 7 f (fun alt s => (List.range 16).foldl (fun s k => bootChannel f alt k s) s) s
  let s := runStep 8 f (fun _ => bootS8) s
  let s := runStep 9 f (fun _ => bootS9) s
  let s := runStep 10 f (bootS10 f) s
  let s := runStep 11 f (fun _ => bootS11) s
  runStep 12 f (fun _ => bootS12) s

/-- S2 (R476, R484, R485): the only step that can stop boot. -/
def bootS2 (f : BootFacts) (s : State) : State :=
  if s.power.cut then s
  else
    let alt := alternate s 2
    let t := openStep 2 s
    if f.cutAt = some 2 then updPower (fun p => { p with cut := true }) t
    else
      let t := logSlots f alt t
      match pickSlot s f alt with
      | none => enterRecovery (skipSteps (updPower (fun p => { p with bootStep := 1 }) (closeStep 2 alt false 0x0803 t)))
      | some i =>
        if !f.quinbuarStarts then skipSteps (updPower (fun p => { p with bootStep := 1 }) (closeStep 2 alt false 0 t))
        else
          let v := slotVersion s i
          let t := updPower (fun p => { p with version := v, runSlot := i }) t
          bootLodge f (closeStep 2 alt true 0 t)

/-- A boot that was cut off ends in the reset that cut it (R480). -/
def endBoot (s : State) : State := if s.power.cut then deviceReset (updPower (fun p => { p with cut := false }) s) else s

/-- Boot from S1 (R511): it waits there while TIMEREF is absent. -/
def bootFrom1 (f : BootFacts) (s : State) : State :=
  if !s.power.timeref then updPower (fun p => { p with waitingBoot := some f }) s
  else endBoot (bootS2 f (runStep 1 f (bootS1 f) (updPower (fun p => { p with waitingBoot := none }) s)))

/-- Boot may start (R476, R490, R502): MAINGOOD rises or stands, and PERST_N is deasserted or SCOPE is 1; a part that a thermal trip
holds, or that is in recovery mode, waits for its reset. -/
def bootAllowed (s : State) : Bool :=
  let p := s.power
  !p.running && !p.breath && !p.recovery && !p.thermal && p.waitingBoot.isNone && p.aonAlive && !p.testEn &&
    (p.perstReleased || p.ledger.perstScope)

/-- MAINGOOD is high, or rises, which samples TEST_EN (R470, R502). -/
def raiseMaingood (f : BootFacts) (s : State) : State :=
  if s.power.maingood then s else settleAlert (updPower (fun p => { p with maingood := true, testEn := f.testEn }) s)

/-- BOOT (R476): MAINGOOD is high, and boot starts where nothing holds it. -/
def execBoot (facts : BootFacts) (s : State) : Res :=
  if !s.power.aonAlive || s.power.breath || s.power.running then done s
  else
    let t := raiseMaingood facts s
    done (if bootAllowed t then bootFrom1 facts (bootS0 (deviceReset t)) else t)

/-- The core finds TIMEREF again: a boot that waits at S1 goes on (R511). -/
def returnTimeref (s : State) : State :=
  let t := updPower (fun p => { p with timeref := true }) s
  match s.power.waitingBoot with
  | some f => bootFrom1 f t
  | none => t

/-- TIMEREF_RETURN (R511); EXTEST keeps the pin from the core (R517). -/
def execTimerefReturn (s : State) : Res :=
  if pinsTaken s then done (updPower (fun p => { p with timerefPin := true }) s)
  else if s.power.timeref then done s
  else done (returnTimeref s)

/-- PERST_N is released (R393): where the device runs the Gatehouse leaves its reset and trains its link; otherwise boot may begin. -/
def releasePerst (s : State) : State :=
  if s.power.perstReleased then s
  else
    let t := updPower (fun p => { p with perstReleased := true }) s
    if t.power.running || t.power.recovery then openGate ((stepOf t 4).method == 1) t else t

/-- PERST_N_DEASSERT (R393); EXTEST keeps the pin from the core (R517). -/
def execPerstNDeassert (s : State) : Res :=
  done (if pinsTaken s then updPower (fun p => { p with perstPin := true }) s else releasePerst s)

end Sys2Proof.Machine
end

