-- ==== Sys2Proof/Machine/Firmware.lean ====
section
/-! DEFINITION. FW_UPDATE (R486 to R488, R495 rulings 2 and 9 to 12): staging and verifying an image, the switch with its halt,
handover and resumption or reversion, the commit, the changes of the start ledger; SCORE_HALTED, which lets a swap or a switch go on. -/

namespace Sys2Proof.Machine

/-- PACKAGE_LOAD or another FW_UPDATE is in progress (R486). -/
def updateBusy (s : State) (c : HostCmd) : Bool :=
  s.load.isSome || s.power.update.switching.isSome ||
    s.mbx.cmds.any fun x => x.opc == 0x70 && x.started && !(x.q == c.q && x.cid == c.cid && x.sqHead == c.sqHead)

/-- The fields of an update in progress. -/
def updUpdate (f : Update → Update) (s : State) : State := updPower (fun p => { p with update := f p.update }) s

/-- A sub-operation ends well with the running FWVERSION (R486). -/
def okUpdate (c : HostCmd) (s : State) : State := okCmd c s.power.version s

/-- The slot that the ledger does not name active (R486). -/
def inactiveSlot (s : State) : Nat := 1 - s.power.ledger.activeSlot % 2

/-- A sub-operation of FW_UPDATE: refused with 0x0805 while another or a load is in progress (R486). -/
def runUpdate (q cid sub : Nat) (block : Bool) (minPlen : Nat) (work : HostCmd → State → State) (s : State) : Res :=
  runCommand q cid { bareRow 0x70 sub with block := block, minPlen := minPlen } (fun c s =>
    if updateBusy s c then endCmd c 0x0805 s else work c s) s

/-- Put a chunk into the inactive slot; a flash access during EXTEST is lost (R517). -/
def putChunk (off : Nat) (bs : List Byte) (s : State) : State :=
  if pinsTaken s then s else
  let i := inactiveSlot s
  let old := match s.power.slots.getD i none with | some x => x.bytes | none => []
  flashWrite (slotPlace i + off) bs.length <| updPower (fun p => { p with slots := p.slots.set i (some { bytes := padTo off old ++ bs }) }) s

/-- The final chunk has arrived: the slot is read back and verified (R483, R486). -/
def verifySlot (c : HostCmd) (s : State) : State :=
  let i := inactiveSlot s
  let bs := match s.power.slots.getD i none with | some x => x.bytes | none => []
  let s := updUpdate (fun u => { u with staged := 0 }) s
  if imageValid s bs then
    let s := updLedger (fun l => { l with slotVersions := l.slotVersions.set i (field bs 4 4) }) s
    okUpdate c (saveLedger (updUpdate (fun u => { u with verified := true }) s))
  else endCmd c 0x0804 (logErr 0x0804 1 0 s { arg0 := i })

/-- STAGE (R486): chunks in ascending offset without a gap; offset 0 begins anew, and what the slot held is staged no longer (DESIGN
CHOICE, log 72). -/
def execStage (q cid : Nat) (s : State) : Res :=
  runUpdate q cid 1 true 1 (fun c s =>
    let off := arg c 8 8
    if off ≠ 0 ∧ off ≠ s.power.update.staged then endCmd c 0x0805 s
    else if 0x1000000 < off + c.plen then endCmd c 0x0002 s
    else
      let s := putChunk off (paramBlock s c) s
      let s := updUpdate (fun u => { u with staged := off + c.plen, verified := false, trial := false }) s
      if arg c 1 1 = 1 then verifySlot c s else okUpdate c s) s

/-- A command whose reset the new Quinbuar will start (R495 ruling 9). -/
def resetCarried (s : State) (x : HostCmd) : Bool :=
  x.opc == 0x71 && s.power.update.waitingReset.any fun j => j.cmd == some (x.q, x.cid)

/-- The commands that SWITCH waits for: those in progress but for clips, which pause (R487), and for resets that are carried over. -/
def switchWaits (s : State) : Bool :=
  s.mbx.cmds.any fun x => x.opc != 0x40 && !(x.opc == 0x70 && subCode x == 2 && x.started) && !resetCarried s x

/-- The step of a switch in progress. -/
def setSwitchStep (n : Nat) (s : State) : State :=
  updUpdate (fun u => { u with switching := u.switching.map fun x => (n, x.2) }) s

/-- Step 1 of R487 is over: a halt is requested. -/
def switchHalt (s : State) : State := if switchWaits s then s else setSwitchStep 2 (requestHalt s)

/-- SWITCH (R487): of a staged image that has been verified; else it is out of sequence. -/
def execSwitch (q cid : Nat) (s : State) : Res :=
  runUpdate q cid 2 false 0 (fun c s =>
    if !s.power.update.verified then endCmd c 0x0805 s
    else switchHalt (updUpdate (fun u => { u with switching := some (1, c.q, c.cid, inactiveSlot s) }) s)) s

/-- Step 3 of R487: the Fountains pause at a picture boundary, and a reset in progress completes first (R495 ruling 9). -/
def switchReady (s : State) : Bool :=
  (s.fountains.all fun u => u.busy.isNone) && s.fenced.isNone && s.resetQueue.isEmpty

/-- Step 4 of R487: peers learn of the update (R495 ruling 12), island 1 is reset and its locks break (R349), the staged image
starts. -/
def switchStart (s : State) : State :=
  let s := breakLocks 1 (sendPeerState true s)
  setSwitchStep 4 (updUpdate (fun u => { u with startedAt := steadyNs s }) s)

/-- Steps 2 and 3 of R487: the score has halted, its batches and records are out, the Fountains stand. -/
def switchOn (s : State) : State :=
  if !scoreHalted s || !flightOver s then s
  else
    let s := setSwitchStep 3 { s with fountains := s.fountains.map fun u => { u with paused := true } }
    if switchReady s then switchStart s else s

/-- SCORE_HALTED (R74, R294, R487): what waits for the halt of the score, and for the drain after it, goes on as far as it can. -/
def execScoreHalted (s : State) : Res :=
  if !quinbuarRuns s || islandFenced s 1 then done s
  else match s.load with
    | some j => doneIf (j.step == 2 && scoreHalted s && flightOver s) (installPackage j s) s
    | none => match s.power.update.switching with
      | some (1, _, _, _) => done (switchHalt s)
      | some (2, _, _, _) => done (switchOn s)
      | some (3, _, _, _) => done (if switchReady s then switchStart s else s)
      | _ => done s

/-- The score goes on at the target of the JUMP that halted it, its epoch later by the pause in whole beats (R487). -/
def resumeScore (s : State) : State :=
  let pause := roundUp (nowNs s - s.power.update.haltedAt) 64
  if s.score.haltReq then
    updScore (fun c => { c with haltReq := false, running := true, pc := c.resumeAt, epoch := c.epoch + pause }) s
  else s

/-- The Fountains, the mailboxes and the score go on, and the resets that were carried over start (R487, R495 ruling 9), in the same
moment, so that the lowest island goes first (R372). Steps 4 and 5 count in no loss interval (R495 ruling 11). -/
def resumeService (s : State) : State :=
  let waiting := sortBy (fun a b : ResetJob => decide (a.island < b.island)) s.power.update.waitingReset
  let pause := steadyNs s - s.power.update.startedAt
  let s := updBand (fun b => { b with lastSample := b.lastSample + pause }) s
  let s := resumeScore { s with fountains := s.fountains.map fun u => { u with paused := false } }
  let s := updUpdate (fun u => { u with switching := none, waitingReset := [] }) s
  waiting.foldl (fun s j => requestReset j.island j.cause j.cmd s) s

/-- The switch's command, where a session still has it (R495 ruling 10). -/
def switchCmd (s : State) (q cid : Nat) : Option HostCmd :=
  s.mbx.cmds.find? fun c => c.q == q && c.cid == cid && c.opc == 0x70 && c.started

/-- The completion of a switch (R487): the new version, and the new epoch in RBUF where it has room for it (DESIGN CHOICE, log 51). -/
def endSwitch (q cid : Nat) (s : State) : State :=
  match switchCmd s q cid with
  | some c => if 8 ≤ c.rlen then bufCmd c s.power.version (leBytes 8 s.score.epoch) s else okUpdate c s
  | none => s

/-- UPDATE_RESUME (R487, R488): within 150 ms of its start the new Quinbuar takes over, as a trial. -/
def execUpdateResume (s : State) : Res :=
  match s.power.update.switching with
  | some (4, q, cid, slot) =>
    let v := slotVersion s slot
    let t := updPower (fun p => { p with
      version := v, runSlot := slot, update := { p.update with prevVersion := p.version, trial := true, verified := false } }) s
    doneIf (s.power.running && decide (steadyNs s < s.power.update.startedAt + 150000000)) (endSwitch q cid (resumeService t)) s
  | _ => done s

/-- UPDATE_REVERT (R488): island 1 is reset again, the previous image goes on, and the command completes with 0x0806. -/
def execUpdateRevert (s : State) : Res :=
  match s.power.update.switching with
  | some (4, q, cid, _) =>
    let t := resumeService (breakLocks 1 s)
    let t := match switchCmd t q cid with | some c => finishCmd c.q c.cid 0x0806 t.power.version false t | none => t
    doneIf (s.power.running && decide (s.power.update.startedAt + 150000000 ≤ steadyNs s)) t s
  | _ => done s

/-- COMMIT (R481, R486): the running trial slot becomes active and rollback fuses are blown up to its ROLLBACK; what the ledger fences
is unfenced by the next boot. -/
def execCommit (q cid : Nat) (s : State) : Res :=
  runUpdate q cid 3 false 0 (fun c s =>
    if !s.power.update.trial then endCmd c 0x0805 s
    else
      let slot := s.power.runSlot
      let level := match s.power.slots.getD slot none with | some x => field x.bytes 0x08 1 | none => 0
      let s := updPower (fun p => { p with rollback := max p.rollback level, update := { p.update with trial := false } }) s
      okUpdate c (saveLedger (updLedger (fun l => { l with activeSlot := slot, unfence := true }) s))) s

/-- LEDGER_CLEAR (R481, R486): every step returns to its normal method; the next boot unfences the units. -/
def execLedgerClear (q cid : Nat) (s : State) : Res :=
  runUpdate q cid 4 false 0 (fun c s =>
    let clear (r : StepRecord) : StepRecord := { r with outcome := if r.outcome = 2 then 2 else 0, method := 0, goodRuns := 0 }
    okUpdate c (saveLedger (updLedger (fun l => { l with steps := l.steps.map clear, unfence := true }) s))) s

/-- The size fields in a LEDGER_SIZES block: eight pools of 32 bytes, then JSIZE, sample cache and clip budget in MiB, and the
sixteen thresholds (R479; the layout is a DESIGN CHOICE, log 68). -/
def sizesOf (b : List Byte) : LedgerSizes where
  jsizeMiB := field b 0x100 4
  cacheMiB := field b 0x104 4
  clipMiB := field b 0x108 4
  pools := (List.range 8).map fun i =>
    (field b (32 * i) 8, field b (32 * i + 8) 4, field b (32 * i + 12) 4, field b (32 * i + 16) 8, field b (32 * i + 24) 8)
  thresholds := (List.range 16).map fun i => field b (0x110 + 4 * i) 4

/-- The ranges of the sizes (R260, R439). -/
def sizesOk (z : LedgerSizes) : Bool := decide (16 ≤ z.jsizeMiB ∧ z.jsizeMiB ≤ 1024 ∧ z.cacheMiB ≤ 4096)

/-- LEDGER_SIZES (R486): taken by the next boot. -/
def execLedgerSizes (q cid : Nat) (s : State) : Res :=
  runUpdate q cid 5 true 0x150 (fun c s =>
    let z := sizesOf (paramBlock s c)
    if !sizesOk z then endCmd c 0x0002 s
    else okUpdate c (saveLedger (updLedger (fun l => { l with nextSizes := some z }) s))) s

end Sys2Proof.Machine
end

