-- ==== Sys2Proof/Machine/Diag.lean ====
section
/-! DEFINITION. The island registers behind the diagnostics window whose content the manual gives (R153, R327, R337, R365, R403): the
registers of each error source, the sequence table, the Jasper allocators, the DRAM controllers' training helpers. The manual names them
by block and purpose; their places in the window are DESIGN CHOICE (log 217). Every other place reads as a free value (log 65). -/

namespace Sys2Proof.Machine

/-- Where the registers of error source (island, unit) lie in the island's page: 32 bytes for each unit. -/
def sourcePlace (off : Nat) : Option (Nat × Nat) :=
  if 0xF00000 ≤ off ∧ off < 0xF02000 then some ((off - 0xF00000) / 32, off % 32 / 4) else none

/-- The words of an error source (R365): STATUS of the first report with its valid bit 31, STAMP, ARG0, the coalesce counter, the
dropped counter. -/
def sourceWord (x : ErrorSource) (w : Nat) : Nat :=
  let get (f : Report → Nat) : Nat := match x.captured with | some r => f r | none => 0
  match w with
  | 0 => get fun r => r.status + 2 ^ 31
  | 1 => get fun r => r.stamp % 2 ^ 32
  | 2 => get fun r => r.stamp / 2 ^ 32
  | 3 => get fun r => r.arg0 % 2 ^ 32
  | 4 => get fun r => r.arg0 / 2 ^ 32
  | 5 => x.counter
  | 6 => x.dropped
  | _ => 0

/-- A write to an error source (R13, R365): the valid bit and the dropped counter are cleared by ones. -/
def writeSource (w : Nat) (v : BitVec 32) (x : ErrorSource) : ErrorSource :=
  if w = 0 ∧ v.getLsbD 31 then { x with captured := none }
  else if w = 6 then { x with dropped := (BitVec.ofNat 32 x.dropped &&& ~~~v).toNat }
  else x

/-- Where a pool's registers lie in the page of island 39: 4 KiB for each pool (R337). -/
def poolPlace (off : Nat) : Option (Nat × Nat) := if off < 0x8000 then some (off / 0x1000, off % 0x1000) else none

/-- The parameters of a pool as boot takes them (R337). -/
def poolParams (p : Pool) : Nat × Nat × Nat × Nat × Nat := (p.base, p.size, p.floor, p.ringBase, p.ownerBase)

/-- The words of a pool (R337): its parameters, FREE and the ring's head and tail, its event counters from 0x40 on by status from 0x0630,
quotas from 0x400 on, used counts from 0x800 on. -/
def poolWord (s : State) (q x : Nat) (p : Pool) : Nat :=
  if x = 0x00 then p.base % 2 ^ 32
  else if x = 0x04 then p.base / 2 ^ 32
  else if x = 0x08 then p.size
  else if x = 0x0C then p.floor
  else if x = 0x10 then p.ringBase % 2 ^ 32
  else if x = 0x14 then p.ringBase / 2 ^ 32
  else if x = 0x18 then p.ownerBase % 2 ^ 32
  else if x = 0x1C then p.ownerBase / 2 ^ 32
  else if x = 0x20 then poolFree s q
  else if x = 0x24 then p.ringHead
  else if x = 0x28 then p.ringTail
  else if 0x40 ≤ x ∧ x < 0x6C then tabGetD (0x0630 + (x - 0x40) / 4) 0 p.events
  else if 0x400 ≤ x ∧ x < 0x800 then poolQuota p ((x - 0x400) / 4)
  else if 0x800 ≤ x ∧ x < 0xC00 then poolUsed p ((x - 0x800) / 4)
  else 0

/-- The parameters after a write of one of their words. -/
def writeParam (x v : Nat) (t : Nat × Nat × Nat × Nat × Nat) : Nat × Nat × Nat × Nat × Nat :=
  let (base, n, f, ring, owner) := t
  let low (a : Nat) : Nat := a / 2 ^ 32 * 2 ^ 32 + v
  let high (a : Nat) : Nat := a % 2 ^ 32 + v * 2 ^ 32
  match x / 4 with
  | 0 => (low base, n, f, ring, owner)
  | 1 => (high base, n, f, ring, owner)
  | 2 => (base, v, f, ring, owner)
  | 3 => (base, n, v, ring, owner)
  | 4 => (base, n, f, low ring, owner)
  | 5 => (base, n, f, high ring, owner)
  | 6 => (base, n, f, ring, low owner)
  | _ => (base, n, f, ring, high owner)

/-- A write to a pool's registers (R13, R337): parameters and quotas keep what is written, and boot step S9 alone checks a configuration;
event counters are cleared by ones; the free count, the ring's head and tail and the used counts are read-only. -/
def writePool (q x : Nat) (v : BitVec 32) (p : Pool) (s : State) : State :=
  if x < 0x20 then
    let t := writeParam x v.toNat (poolParams p)
    updPool q (fun p => { p with base := t.1, size := t.2.1, floor := t.2.2.1, ringBase := t.2.2.2.1, ownerBase := t.2.2.2.2 }) s
  else if 0x40 ≤ x ∧ x < 0x6C then
    let st := 0x0630 + (x - 0x40) / 4
    updPool q (fun p => { p with
      events := tabPut st (BitVec.ofNat 32 (tabGetD st 0 p.events) &&& ~~~v).toNat p.events }) s
  else if 0x400 ≤ x ∧ x < 0x800 then updPool q (fun p => { p with quota := tabPut ((x - 0x400) / 4) v.toNat p.quota }) s
  else s

/-- The code of a training pattern. -/
def patternCode : TrainPattern → Nat
  | .prbs7 => 0
  | .prbs15 => 1
  | .prbs31 => 2
  | .walkingOne => 3
  | .walkingZero => 4
  | .set => 5

def patternOf (n : Nat) : TrainPattern :=
  match n with
  | 0 => .prbs7
  | 1 => .prbs15
  | 2 => .prbs31
  | 3 => .walkingOne
  | 4 => .walkingZero
  | _ => .set

/-- The words of a DRAM controller's training helpers (R327): the pattern with the CA bus in bit 8, the 64 bytes from 0x10 on, the
inverted lanes at 0x50, the first failing burst at 0x54 with its valid bit 31, the error counts by lane from 0x80 on. -/
def helperWord (h : TrainHelper) (off : Nat) : Option Nat :=
  if off = 0 then some (patternCode h.pattern + flag h.onCa 8)
  else if 0x10 ≤ off ∧ off < 0x50 then some (field h.bytes (off - 0x10) 4)
  else if off = 0x50 then some ((h.inverted.map (2 ^ ·)).sum)
  else if off = 0x54 then some (match h.firstFail with | some n => n + 2 ^ 31 | none => 0)
  else if 0x80 ≤ off ∧ off < 0xE4 then some (h.counts.getD ((off - 0x80) / 4) 0)
  else none

/-- A write to the training helpers: pattern, bytes, inverted lanes (R327). -/
def writeHelper (off : Nat) (v : BitVec 32) (h : TrainHelper) : TrainHelper :=
  if off = 0 then { h with pattern := patternOf (bits v.toNat 0 3), onCa := v.getLsbD 8 }
  else if 0x10 ≤ off ∧ off < 0x50 then { h with bytes := putAt (padTo 64 h.bytes) (off - 0x10) (leBytes 4 v.toNat) }
  else if off = 0x50 then { h with inverted := (List.range 32).filter fun i => v.getLsbD i }
  else h

/-- The words of a link island (R443): its training state, its lanes and the chip at its far end, its failed trainings, flits discarded for FEC
and for CRC, time samples discarded, and its credits. -/
def linkWord (l : Link) (off : Nat) : Option Nat :=
  match off with
  | 0x00 => some (linkCode l.state + l.width * 2 ^ 8 + (match l.peer with | some p => (p + 8) * 2 ^ 16 | none => 0))
  | 0x04 => some l.fails
  | 0x08 => some l.fecErrors
  | 0x0C => some l.crcErrors
  | 0x10 => some l.samplesDropped
  | 0x14 => some (l.credits.getD 0 0 + l.credits.getD 1 0 * 2 ^ 8 + l.credits.getD 2 0 * 2 ^ 16)
  | _ => none

/-- Where the store-die block lies in page 0: the track summaries that last breath has saved (R403, R475). -/
def summaryPlace : Nat := 0x100000

/-- A word of the store-die block; none of another place of page 0. -/
def summaryWord (s : State) (off : Nat) : Option Nat :=
  if summaryPlace ≤ off ∧ off < summaryPlace + 0x81000 then
    some (match s.power.store.summaries with
      | some x => if sealedOk id s.power.store.summaries then field x.1 (off - summaryPlace) 4 else 0
      | none => 0)
  else none

/-- The word of an island register whose content the manual gives; none for every other. -/
def islandWord (s : State) (page off : Nat) : Option Nat :=
  match sourcePlace off with
  | some (u, w) => some (sourceWord (getSource page u s) w)
  | none =>
    if page = 0 then summaryWord s off
    else if page = 38 ∧ off < 0x100000 then
      some (match tabGet (off / 64) s.aviary.seqs with | some y => field (seqEntry s y) (off % 64) 4 | none => 0)
    else if page = 39 then
      match poolPlace off with
      | some (q, x) => (s.pools[q]?).map (poolWord s q x)
      | none => if off = 0x8000 then some (flag s.censusOn 0 + flag s.censusRepair 1) else none
    else if 40 ≤ page ∧ page ≤ 55 then (s.mem.chans[page - 40]?).bind fun c => helperWord c.helper off
    else if 56 ≤ page ∧ page ≤ 60 then (s.trellis.links[page - 56]?).bind fun l => linkWord l off
    else none

/-- An island register with the access code RWK (R13, R337). -/
def islandGuarded (page off : Nat) : Bool :=
  page == 39 && (match poolPlace off with | some (_, x) => decide (x < 0x20 ∨ (0x400 ≤ x ∧ x < 0x800)) | none => false)

/-- A write to an island register; a register whose content the manual does not give keeps nothing (DESIGN CHOICE, log 65). -/
def writeIsland (page off : Nat) (v : BitVec 32) (s : State) : State :=
  match sourcePlace off with
  | some (u, w) =>
    if s.err.sources.any fun x => x.island == page && x.unit == u then putSource (writeSource w v (getSource page u s)) s else s
  | none =>
    if page = 39 then
      match poolPlace off with
      | some (q, x) => match s.pools[q]? with | some p => writePool q x v p s | none => s
      | none => if off = 0x8000 then { s with censusOn := v.getLsbD 0, censusRepair := v.getLsbD 1 } else s
    else if 40 ≤ page ∧ page ≤ 55 then updChan (page - 40) (fun c => { c with helper := writeHelper off v c.helper }) s
    else s

end Sys2Proof.Machine
end

