-- ==== Sys2Proof/Machine/Gatehouse.lean ====
section
/-! DEFINITION. The Gatehouse (R376 to R404, R407, R409): configuration space, BAR0 and its registers, the BAR2 aperture, keylocks,
doorbells and ring enables, time reads, the diagnostics window, the resets of the endpoint, PCI Express errors. -/

namespace Sys2Proof.Machine

/-- GHS_STAT.BADACC and GHS_STAT.KEYREJ (R397). -/
def setBadAcc (s : State) : State := orReg 0x000008 8 s
def setKeyRej (s : State) : State := orReg 0x000008 4 s

/-- Bits of a number as a 32-bit word. -/
def w32 (n : Nat) : BitVec 32 := BitVec.ofNat 32 n

/-- PWR or DIA is unlocked (R14, R384): up to and with 256 ns after its key. -/
def unlocked (s : State) (dia : Bool) : Bool :=
  match if dia then s.gate.diaKey else s.gate.pwrKey with
  | some t => decide (steadyNs s ≤ t + 256)
  | none => false

/-- Set when a block was unlocked. -/
def holdKey (dia : Bool) (t : Option Nat) (s : State) : State :=
  updGate (fun g => if dia then { g with diaKey := t } else { g with pwrKey := t }) s

/-- A write to the RWK bits `m` of a key-guarded register (R14, R384): it uses the unlock up; while locked it is rejected with 0x0904.
A write that reaches none of them is ignored (R12, R13, R385). -/
def guarded (dia : Bool) (off : Nat) (m mask : BitVec 32) (f : State → State) (s : State) : State :=
  if m &&& mask = 0 then s
  else if unlocked s dia then f (holdKey dia none s) else setKeyRej (logErr 0x0904 2 0 s { arg0 := off })

/-- The register word of GHS (R397). -/
def readGhs (s : State) (off : Nat) : BitVec 32 :=
  if off = 0x10 then
    w32 (flag (causeSet s .cq) 0 + flag ((reg s 0x20 ||| reg s 0x24) != 0) 1 + flag (causeSet s .err) 2 + flag (causeSet s .tim) 3
      + flag (causeSet s .pwr) 4)
  else if off = 0x30 then w32 (tagCount s + (s.mem.reads.filter fun r => r.tag.isSome).length * 2 ^ 16)
  else reg s off

/-- The register word of DBL (R398). -/
def readDbl (s : State) (off : Nat) : BitVec 32 :=
  if off < 0x100018 then 0
  else if off = regDblStat then
    reg s off ||| w32 ((s.mbx.sq.zipIdx.map fun r => flag r.1.running r.2).sum + flag s.mbx.cqRunning 4)
  else reg s off

/-- TIM_STATE.SOURCE (R399). -/
def sourceCode : TimeSource → Nat
  | .none => 0
  | .trellis => 1
  | .ptp0 => 2
  | .ptp1 => 3
  | .ppsIn => 4
  | .hostSet => 5

/-- The register word of TIM (R399), the latching of NS_LO apart. -/
def readTim (s : State) (off : Nat) : BitVec 32 :=
  if off = 0x200000 then w32 (nowNs s)
  else if off = 0x200004 then s.gate.latchHi
  else if off = 0x200008 then s.gate.latchFrac.setWidth 32
  else if off = 0x20000C then w32 (timeStateCode s.band.tstate + 4 * sourceCode s.band.source + flag s.band.timeLost 8)
  else if off = 0x200010 then
    match errEstimate s with | some n => w32 (min 0xFFFFFFFE n) | none => 0xFFFFFFFF
  else if off = 0x200014 then 0
  else reg s off

/-- The register word of ERR (R400). -/
def readErr (s : State) (off : Nat) : BitVec 32 :=
  if off = 0x300000 then (if s.err.placed then w32 s.err.base else 0)
  else if off = 0x300004 then w32 s.err.head
  else if off = 0x300008 then w32 s.err.tail
  else if off = 0x30000C then w32 (min (2 ^ 32 - 1) s.err.droppedEntries)
  else if off = 0x300010 then s.err.stat.setWidth 32
  else reg s off

/-- PWR_BOOTSTEP (R401, R481). -/
def bootWord (s : State) : BitVec 32 :=
  let l := s.power.ledger
  let fenced := !l.fencedIslands.isEmpty || !l.fencedBanks.isEmpty || l.dram.contains 2
  w32 (s.power.bootStep + flag (l.steps.any fun r => r.method == 1) 4 + flag fenced 5)

/-- The register word of PWR (R401); POWER is a free value. -/
def readPwr (s : State) (off : Nat) : BitVec 32 :=
  if off = 0x400000 then w32 (flag s.power.aonBkup 0 + flag s.power.pwrfail 1)
  else if off = 0x400004 then w32 (unsigned 8 s.power.tj + s.power.tjIsland * 2 ^ 8)
  else if off = 0x400008 then (Config.freeBits 16 s.freeCount).setWidth 32
  else if off = 0x40000C then bootWord s
  else if off = 0x4000FC then w32 (flag (unlocked s false) 0)
  else reg s off

/-- The register word of LCK (R402), the acquire area apart. -/
def readLck (s : State) (off : Nat) : BitVec 32 :=
  if off = 0x500004 then w32 (s.gate.lockRefused + s.gate.lockBroken * 2 ^ 16)
  else if 0x500100 ≤ off ∧ off < 0x500200 then
    match s.locks[(off - 0x500100) / 4]? with
    | some l => w32 (l.owner + flag l.held 16 + flag l.broken 17)
    | none => 0
  else reg s off

/-- The register word of DIA (R403). -/
def readDia (s : State) (off : Nat) : BitVec 32 := if off = 0x6000FC then w32 (flag (unlocked s true) 0) else reg s off

/-- The word that a register of a BAR0 block reads as (R380, R397 to R403): 0 where the block names none. -/
def readBlock (s : State) (off : Nat) : BitVec 32 :=
  match off / 0x100000 with
  | 0 => readGhs s off
  | 1 => readDbl s off
  | 2 => readTim s off
  | 3 => readErr s off
  | 4 => readPwr s off
  | 5 => readLck s off
  | 6 => readDia s off
  | _ => 0

/-- The register and the bit of an alias word (R385, R386). -/
def aliasOf (off : Nat) : Option (Nat × Nat) :=
  let x := off % 0x100000
  if off / 0x100000 = 5 ∨ 6 < off / 0x100000 ∨ x < 0x8000 ∨ 0xA000 ≤ x then none
  else some (off / 0x100000 * 0x100000 + (x - 0x8000) / 128 * 4, (x - 0x8000) % 128 / 4)

/-- A word of the MSI-X table (R376). -/
def readTable (s : State) (x : Nat) : BitVec 32 :=
  let e := s.gate.msix.getD (x / 16) (0, 0, true)
  match x % 16 / 4 with
  | 0 => e.1.setWidth 32
  | 1 => (e.1 >>> 32).setWidth 32
  | 2 => e.2.1
  | _ => w32 (flag e.2.2 0)

/-- The word that BAR0 reads as at a covered offset outside the diagnostics window, the reads that act apart (R380, R385). -/
def readBar0 (s : State) (off : Nat) : BitVec 32 :=
  match aliasOf off with
  | some (r, b) => w32 (flag ((readBlock s r).getLsbD b) 0)
  | none =>
    if 0x800000 ≤ off ∧ off < 0x800400 then readTable s (off - 0x800000)
    else if off = 0x801000 then s.gate.pba.setWidth 32
    else if off = 0x801004 then (s.gate.pba >>> 32).setWidth 32
    else readBlock s off

/-- Some block, table or window covers an offset (R380; the extents of the blocks are DEDUCED, log 62). -/
def covered (off : Nat) : Bool :=
  decide (off < 0x700000 ∨ (0x800000 ≤ off ∧ off < 0x800400) ∨ (0x801000 ≤ off ∧ off < 0x801008)
    ∨ (0x1000000 ≤ off ∧ off < 0x2000000))

/-- A status for RINGSTATUS that is logged too (R398, R407). -/
def ringError (status arg : Nat) (s : State) : State := setRingStatus status (logErr status 2 0 s { arg0 := arg })

/-- A read of BAR0 outside the diagnostics window, the reads that act apart: Unsupported Request where nothing covers the offset
(R380). -/
def answerRead (off : Nat) (s : State) : State :=
  if covered off then emit (.readData (leBytes 4 (readBar0 s off).toNat)) s
  else emit .unsupportedRequest (setBadAcc (badRequest off s))

/-- A submission ring starts (R398, R406): its counts are 0; not before READY, nor with a size out of range, 0x0908. -/
def startSq (q : Nat) (s : State) : State :=
  let ready := (reg s regDblStat).getLsbD 8
  if !ready then s
  else if !sizeOk (sqSizeField s q) then ringError 0x0908 q s
  else updSq q (fun _ => { head := 0, tail := 0, running := true, bells := [] }) s

/-- The completion ring starts (R398, R406). -/
def startCq (s : State) : State :=
  let ready := (reg s regDblStat).getLsbD 8
  if !ready then s
  else if !sizeOk (cqSizeField s) then ringError 0x0908 4 s
  else updMbx (fun m => { m with cqTail := 0, cqHead := 0, cqRunning := true }) s

/-- The enables change (R398, R406, R409): a bit that is set starts its ring, one that is cleared ends fetching or writing. After the end of
a host session the first bit that is set lets host requests start again (R394). -/
def enableRings (old new : BitVec 32) (s : State) : State :=
  let s := setReg regEn new s
  let s := if new &&& ~~~old != 0 then updGate (fun g => { g with sessionOver := false }) s else s
  let s := (List.range 4).foldl (fun s q =>
    if new.getLsbD q && !old.getLsbD q then startSq q s else if old.getLsbD q && !new.getLsbD q then settleRing q s else s) s
  if new.getLsbD 4 && !old.getLsbD 4 then startCq s
  else if old.getLsbD 4 && !new.getLsbD 4 then updMbx (fun m => { m with cqRunning := false }) s
  else s

/-- The bits of DBL SIZE that belong to enabled rings (R398). -/
def lockedSizes (s : State) : BitVec 32 :=
  w32 (((List.range 4).map fun q => if sqEnabled s q then 15 * 2 ^ (4 * q) else 0).sum + (if cqEnabled s then 15 * 2 ^ 16 else 0))

/-- The tail of the error log moves (R400): refused with 0x0909 unless HEAD − TAIL lies between 0 and 1,024. -/
def moveErrTail (tail : Nat) (s : State) : State :=
  if (s.err.head + 2 ^ 32 - tail % 2 ^ 32) % 2 ^ 32 ≤ 1024 then updErr (fun e => { e with tail := tail % 2 ^ 32 }) s
  else logErr 0x0909 2 0 s { arg0 := tail }

/-- A write to PWR_ISLRST that its lock lets through (R401): GO starts a reset, or is refused with RESULT 3. Without GO the write
stores ISLAND; GO reads 1 until the unfence. -/
def writeIslrst (mask v : BitVec 32) (s : State) : State :=
  let old := reg s 0x400010
  let m := mask &&& 0x3F
  let new := (old &&& ~~~m) ||| (v &&& m)
  let go := (v &&& mask).getLsbD 8
  let island := bits new.toNat 0 6
  if !go then setReg 0x400010 (new &&& 0x313F) s
  else if old.getLsbD 8 then setReg 0x400010 (old &&& ~~~0x3000 ||| 0x3000) s
  else if 3 ≤ island ∧ island ≤ 60 then
    requestReset island 0 none (updGate (fun g => { g with islrst := some island }) (setReg 0x400010 (w32 (island + 256)) s))
  else setReg 0x400010 (w32 (island + 3 * 2 ^ 12)) s

/-- PWR_DEVRST (R393, R401). -/
def writeDevrst (mask v : BitVec 32) (s : State) : State := if (mask &&& v).getLsbD 0 then flushedReset s else s

/-- PWR_PERSTSCOPE (R393, R401): in island 0, and in the ledger. -/
def writeScope (mask v : BitVec 32) (s : State) : State :=
  if !mask.getLsbD 0 then s
  else
    let on := v.getLsbD 0
    saveLedger (updLedger (fun l => { l with perstScope := on }) (setReg 0x400018 (if on then 1 else 0) s))

/-- Write the bits of `mask` that a register's access code lets a host write (R13, R397 to R403): `m` is its writable part. -/
def putBits (off : Nat) (m mask v : BitVec 32) (s : State) : State :=
  setReg off ((reg s off &&& ~~~(m &&& mask)) ||| (v &&& m &&& mask)) s

/-- A ring's base is written, or its write ignored with 0x0908 while the ring is enabled (R398); one that reaches only reserved bits is
ignored (R12, R385). -/
def putBase (enabled : Bool) (off : Nat) (m mask v : BitVec 32) (s : State) : State :=
  if m &&& mask = 0 then s else if enabled then ringConfig s else putBits off m mask v s
where
  /-- The write is logged and ignored. -/
  ringConfig (s : State) : State := logErr 0x0908 2 0 s { arg0 := off }

/-- A write to GHS (R397). -/
def writeGhs (off : Nat) (mask v : BitVec 32) (s : State) : State :=
  if off = 0x08 then clrReg off (v &&& mask &&& 0xF) s
  else if off = 0x10 then withCauses (clrReg off (v &&& mask &&& 0x11)) s
  else if off = 0x14 then withCauses (putBits off 0x1F mask v) s
  else if off = 0x18 then withCauses (putBits off 0x3F3F3F3F mask v) s
  else if off = 0x20 ∨ off = 0x24 then withCauses (clrReg off (v &&& mask)) s
  else if off = 0x28 then putBits off 0xFFF00000 mask v s
  else if off = 0x2C then putBits off 0xFFFF mask v s
  else s

/-- A write to DBL, the doorbells apart (R398). -/
def writeDbl (off : Nat) (mask v : BitVec 32) (s : State) : State :=
  if 0x100020 ≤ off ∧ off < 0x100040 then
    putBase (sqEnabled s ((off - 0x100020) / 8)) off (if off % 8 = 0 then 0xFFFFF000 else 0xFFFFFFFF) mask v s
  else if off = regCqb ∨ off = regCqb + 4 then
    putBase (cqEnabled s) off (if off = regCqb then 0xFFFFF000 else 0xFFFFFFFF) mask v s
  else if off = regSize then
    let locked := lockedSizes s
    let t := putBits off (0xFFFFF &&& ~~~locked) mask v s
    if locked &&& mask != 0 then logErr 0x0908 2 0 t { arg0 := off } else t
  else if off = regEn then
    let old := reg s off
    enableRings old ((old &&& ~~~(mask &&& 0x1F)) ||| (v &&& mask &&& 0x1F)) s
  else s

/-- A write to TIM, SNAP apart (R399). -/
def writeTim (off : Nat) (mask v : BitVec 32) (s : State) : State :=
  if off = 0x200024 then withCauses (clrReg off (v &&& mask &&& 3)) s
  else if off = 0x200028 then withCauses (putBits off 3 mask v) s
  else s

/-- A write to ERR (R400). -/
def writeErr (off : Nat) (mask v : BitVec 32) (s : State) : State :=
  if off = 0x300008 then moveErrTail (((w32 s.err.tail &&& ~~~mask) ||| (v &&& mask)).toNat) s
  else if off = 0x300010 then
    let m : BitVec 3 := (v &&& mask).setWidth 3
    withCauses (updErr fun e => { e with stat := e.stat &&& ~~~m }) s
  else if off = 0x300014 then withCauses (putBits off 7 mask v) s
  else s

/-- A write to PWR, its KEYLOCK apart (R401). -/
def writePwr (off : Nat) (mask v : BitVec 32) (s : State) : State :=
  if off = 0x400010 then guarded false off 0x13F mask (writeIslrst mask v) s
  else if off = 0x400014 then guarded false off 1 mask (writeDevrst mask v) s
  else if off = 0x400018 then guarded false off 1 mask (writeScope mask v) s
  else s

/-- A write to DIA, its KEYLOCK apart (R403). -/
def writeDia (off : Nat) (mask v : BitVec 32) (s : State) : State :=
  if off = 0x600000 then guarded true off 1 mask (putBits off 1 mask v) s
  else if off = 0x600004 then putBits off 0x3F mask v s
  else if off = 0x600008 then clrReg off (v &&& mask &&& 3) s
  else s

/-- The bits of `mask` of a register are written by their access codes; RO, WO and reserved bits ignore it (R12, R13, R385). -/
def writeBits (off : Nat) (mask v : BitVec 32) (s : State) : State :=
  match off / 0x100000 with
  | 0 => writeGhs off mask v s
  | 1 => writeDbl off mask v s
  | 2 => writeTim off mask v s
  | 3 => writeErr off mask v s
  | 4 => writePwr off mask v s
  | 6 => writeDia off mask v s
  | _ => s

/-- The stamp of an accepted write, to within 8 ns (R399, R411): a free value (log 64). -/
def acceptStamp (s : State) : Nat × State :=
  let (v, t) := freeNat s
  (nowNs s + v % 17 - 8, t)

/-- An SQT write (R407, R411); ignored where Quinbuar does not run, as in last breath (R473). Of a ring that does not run a count is taken,
but nothing is fetched (DEDUCED, log 63). -/
def ringSq (q tail : Nat) (s : State) : State :=
  match s.mbx.sq[q]? with
  | none => s
  | some r =>
    if !s.power.running then s
    else
      let d := (tail + 65536 - r.head) % 65536
      if d ≤ sqEntries s q ∧ (r.tail + 65536 - r.head) % 65536 ≤ d then
        let (stamp, s) := acceptStamp s
        updSq q (fun r => { r with tail := tail, bells := r.bells ++ [(tail, stamp)] }) s
      else updSq q (fun r => { r with running := false }) (ringError 0x0910 q s)

/-- A consumer's count may move to `new` (R407). -/
def headMoves (written old new : Nat) : Bool := decide ((written + 65536 - new) % 65536 ≤ (written + 65536 - old) % 65536)

/-- A CQH write (R407). -/
def ringCq (head : Nat) (s : State) : State :=
  if !s.power.running then s
  else if headMoves s.mbx.cqTail s.mbx.cqHead head then updMbx (fun m => { m with cqHead := head }) s
  else updMbx (fun m => { m with cqRunning := false }) (ringError 0x0910 4 s)

/-- A DRHEAD write (R407): the ring keeps running after a refused one; that of a ring with no subscription is refused. -/
def ringDr (d head : Nat) (s : State) : State :=
  match s.mbx.rings.getD d none with
  | none => if s.power.running then ringError 0x0910 d s else s
  | some r =>
    if headMoves r.tail r.headCount head then updRing d (fun r => { r with headCount := head }) s else ringError 0x0910 d s

/-- A write to SNAP captures the time (R399). -/
def snapTime (s : State) : State :=
  let (t, s) := acceptStamp s
  let s := setReg 0x20001C (w32 (t / 2 ^ 32)) (setReg 0x200018 (w32 t) s)
  setReg 0x200020 (reg s 0x200020 + 1) s

/-- A KEYLOCK write (R384). -/
def writeKey (dia : Bool) (v : BitVec 32) (s : State) : State :=
  holdKey dia (if v.toNat % 65536 = 0xA5C3 then some (steadyNs s) else none) s

/-- A write to LCK (R402): HOSTEN by the MW code, or a release for a context. -/
def writeLck (off : Nat) (v : BitVec 32) (s : State) : State :=
  if off = 0x500000 then if v.getLsbD 16 then setReg off (if v.getLsbD 0 then 1 else 0) s else s
  else if 0x580000 ≤ off ∧ off < 0x5C0000 then
    let k := (off - 0x580000) / 4
    giveLock (k % 64) (0x0800 + k / 64) s
  else s

/-- Vectors that are no longer masked send what the PBA holds (R389). -/
def writeTable (x : Nat) (v : BitVec 32) (s : State) : State :=
  let s := updGate (fun g => { g with msix := upd g.msix (x / 16) fun e =>
    match x % 16 / 4 with
    | 0 => (e.1 >>> 32 <<< 32 ||| v.setWidth 64, e.2)
    | 1 => ((e.1 &&& 0xFFFFFFFF) ||| (v.setWidth 64 <<< 32), e.2)
    | 2 => (e.1, v, e.2.2)
    | _ => (e.1, e.2.1, v.getLsbD 0) }) s
  releasePba s

/-- The page of the diagnostics window (R403): a reserved value counts as 0 (R12). -/
def diaPage (s : State) : Nat := let p := bits (reg s 0x600004).toNat 0 6; if p ≤ 60 then p else 0

/-- A window access is refused (R403). -/
def denyWindow (s : State) : State := orReg 0x600008 2 s

/-- A window access meets a fence (R370, R403). -/
def windowReset (s : State) : State :=
  setReg 0x600008 (w32 ((reg s 0x600008).toNat % 65536 + 0x0011 * 65536)) (orReg 0x600008 1 s)

/-- A write through the diagnostics window (R370, R403); an RWK field of a block that has no KEYLOCK takes it by
the window's own lock (R13, R14, R337; DESIGN CHOICE, log 221). -/
def diagWrite (off : Nat) (v : BitVec 32) (s : State) : State :=
  let x := off - 0x1000000
  if !(reg s 0x600000).getLsbD 0 || diaPage s == 0 then denyWindow s
  else if resetFenced s (diaPage s) then windowReset s
  else if islandGuarded (diaPage s) x then guarded true off (BitVec.allOnes 32) (BitVec.allOnes 32) (writeIsland (diaPage s) x v) s
  else writeIsland (diaPage s) x v s

/-- A read through the diagnostics window (R370, R403): what the manual gives the register, else a free value (log 65). -/
def diagRead (off : Nat) (s : State) : List Byte × State :=
  let x := off - 0x1000000
  if !(reg s 0x600000).getLsbD 0 then (leBytes 4 0, denyWindow s)
  else if resetFenced s (diaPage s) then (allOnes 4, windowReset s)
  else match islandWord s (diaPage s) x with
    | some w => (leBytes 4 w, s)
    | none => (leBytes 4 (Config.islandRegister (diaPage s) x s.freeCount).toNat, { s with freeCount := s.freeCount + 1 })

/-- One dword written to BAR0 (R380, R381, R385). -/
def writeBar0 (off : Nat) (v : BitVec 32) (s : State) : State :=
  if !covered off then setBadAcc (badRequest off s)
  else if 0x1000000 ≤ off then diagWrite off v s
  else if 0x801000 ≤ off then s
  else if 0x800000 ≤ off then writeTable (off - 0x800000) v s
  else match aliasOf off with
    | some (r, b) => writeBits r (1#32 <<< b) (v <<< b) s
    | none =>
      if off / 0x100000 = 5 then writeLck off v s
      else if off = 0x4000FC then writeKey false v s
      else if off = 0x6000FC then writeKey true v s
      else if off = 0x200014 then snapTime s
      else if 0x100000 ≤ off ∧ off < 0x100010 then ringSq ((off - 0x100000) / 4) (v.toNat % 65536) s
      else if off = 0x100010 then ringCq (v.toNat % 65536) s
      else if off = 0x100014 then ringDr (bits v.toNat 16 6) (v.toNat % 65536) s
      else writeBits off 0xFFFFFFFF v s

/-- REGISTER_WRITE (R380, R381, R385): partial byte enables are dropped with 0x0905. -/
def execRegisterWrite (offset : Nat) (value : BitVec 32) (byteEnables : BitVec 4) (s : State) : Res :=
  inRange (decide (offset < 0x2000000) && offset % 4 == 0) s <|
    done (hostWrites offset (fun s =>
      if byteEnables = 0xF then writeBar0 offset value s else setBadAcc (logErr 0x0905 2 0 s { arg0 := offset })) s)

/-- KEYLOCK_WRITE (R384). -/
def execKeylockWrite (dia : Bool) (value : BitVec 32) (s : State) : Res :=
  done (hostWrites (if dia then 0x6000FC else 0x4000FC) (writeKey dia value) s)

/-- KEYLOCK_EXPIRY (R14): after the cycle in which the 256 local cycles end, in which a guarded write still takes effect. -/
def execKeylockExpiry (dia : Bool) (s : State) : Res :=
  match if dia then s.gate.diaKey else s.gate.pwrKey with
  | some t => doneIf (decide (t + 256 < steadyNs s)) (holdKey dia none s) s
  | none => done s

/-- SQ_DOORBELL (R407). -/
def execSqDoorbell (q tail : Nat) (s : State) : Res :=
  inRange (decide (q < 4 ∧ tail < 65536)) s (done (hostWrites (0x100000 + 4 * q) (ringSq q tail) s))

/-- CQ_DOORBELL (R407). -/
def execCqDoorbell (head : Nat) (s : State) : Res := inRange (decide (head < 65536)) s (done (hostWrites 0x100010 (ringCq head) s))

/-- DR_DOORBELL (R407). -/
def execDrDoorbell (ring head : Nat) (s : State) : Res :=
  inRange (decide (ring < 64 ∧ head < 65536)) s (done (hostWrites 0x100014 (ringDr ring head) s))

/-- RING_ENABLE (R398, R406, R409). -/
def execRingEnable (value : BitVec 32) (s : State) : Res := done (hostWrites regEn (writeDbl regEn 0xFFFFFFFF value) s)

/-- TIM_NS_READ (R381, R399): the 4-byte read latches, the 8-byte read returns both words of one instant. -/
def execTimNsRead (eightBytes : Bool) (s : State) : Res :=
  done (hostReads 0x200000 (if eightBytes then 8 else 4) (fun s =>
    let ns := nowNs s
    if eightBytes then (leBytes 8 ns, s)
    else
      let frac := BitVec.ofNat 16 (s.band.count / 2 ^ 16)
      (leBytes 4 ns, updGate (fun g => { g with latchHi := w32 (ns / 2 ^ 32), latchFrac := frac }) s)) s)

/-- TIM_SNAP (R399). -/
def execTimSnap (s : State) : Res := done (hostWrites 0x200014 snapTime s)

/-- ERR_TAIL_WRITE (R400). -/
def execErrTailWrite (tail : Nat) (s : State) : Res :=
  inRange (decide (tail < 2 ^ 32)) s (done (hostWrites 0x300008 (moveErrTail tail) s))

/-- ISLAND_RESET_GO (R401). -/
def execIslandResetGo (value : BitVec 32) (s : State) : Res := done (hostWrites 0x400010 (writePwr 0x400010 0xFFFFFFFF value) s)

/-- DEVICE_RESET_GO (R393). -/
def execDeviceResetGo (value : BitVec 32) (s : State) : Res := done (hostWrites 0x400014 (writePwr 0x400014 0xFFFFFFFF value) s)

/-- DIAG_WINDOW_ACCESS (R403), at a BAR0 offset of the window. -/
def execDiagWindowAccess (write : Bool) (offset : Nat) (value : BitVec 32) (s : State) : Res :=
  inRange (decide (offset < 0x1000000) && offset % 4 == 0) s <|
    done (if write then hostWrites (0x1000000 + offset) (writeBar0 (0x1000000 + offset) value) s
          else hostReads (0x1000000 + offset) 4 (diagRead (0x1000000 + offset)) s)

/-- GHS_APBASE (R397). -/
def apBase (s : State) : Nat := (reg s 0x28).toNat / 2 ^ 20 * 2 ^ 20 + bits (reg s 0x2C).toNat 0 16 * 2 ^ 32

/-- What the aperture may cover (R382): not the sequence table, which the host reaches only through the diagnostics window (R153). -/
def apertureCovers (s : State) (a : Nat) : Bool :=
  let t := s.aviary.seqTable
  backed s a && !decide (t ≠ 0 ∧ t ≤ a ∧ a < t + 0x100000)

/-- The island of an on-chip store that the aperture reaches is fenced. -/
def storeFenced (s : State) (a : Nat) : Bool := isSram a && resetFenced s (addrSource s a).1

/-- Bytes that the aperture writes (R359, R382): addresses it may not reach are dropped with 0x0907; what lands in a fenced island's
store is unspecified (R369), so free values. -/
def apertureWrite (off : Nat) (bs : List Byte) (mark : Bool) (s : State) : State :=
  let cells := cellsAt (apBase s + off) bs mark
  let good := cells.filter fun c => apertureCovers s c.addr
  let (free, s) := freeBytes good.length s
  let cells' := good.zipIdx.map fun c => if storeFenced s c.1.addr then { c.1 with val := free.getD c.2 0 } else c.1
  let s := writePhys .control cells' s
  if good.length = cells.length then s else setBadAcc (logErr 0x0907 2 0 s { arg0 := apBase s + off })

/-- What a read of the aperture leaves behind: its words' errors, and its lines in the Control ways (R305, R309, R382). -/
def noteAperture (r : List ByteRead) (s : State) : State :=
  let lines := (r.map fun x => x.addr / 64).eraseDups
  lines.foldl (fun s l =>
    let here := (r.filter fun x => x.addr / 64 == l).map (·.addr)
    let a := (here.min?).getD 0
    unitRead .control a ((here.max?).getD 0 + 1 - a) s) (countMix s)

/-- Bytes that the aperture reads (R382): 0 at addresses that it may not reach, a free value in a fenced island's store. -/
def apertureRead (off n : Nat) (s : State) : List Byte × State :=
  let as := (List.range n).map fun i => apBase s + off + i
  let (free, t) := freeBytes n s
  let reads := (as.filter fun a => apertureCovers s a && !storeFenced s a).map fun a => readTarget noLane s a (.phys a 0)
  let t := noteAperture reads t
  let bs := as.zipIdx.map fun a =>
    if !apertureCovers s a.1 then 0 else if storeFenced s a.1 then free.getD a.2 0 else (readTarget noLane s a.1 (.phys a.1 0)).val
  if as.all (apertureCovers s) then (bs, t) else (bs, setBadAcc (logErr 0x0907 2 0 t { arg0 := apBase s + off }))

/-- APERTURE_ACCESS (R382): a write of bytes, or a read of as many. -/
def execApertureAccess (write : Bool) (offset : Nat) (bytes : List Byte) (s : State) : Res :=
  inRange (decide (offset + bytes.length ≤ 0x10000000)) s <|
    done (if write then hostWrites offset (apertureWrite offset bytes false) s
          else hostReads offset bytes.length (apertureRead offset bytes.length) s)

/-- After a change of what may be sent: messages, INTA, waiting reads (R379, R389 to R392). -/
def resumeSending (s : State) : State :=
  let s := if s.gate.msixOn then releasePba s else updateInta s
  startReads s.mem.reads.length s

/-- MSI-X Enable and Function Mask (R389 to R391). -/
def setMsix (on mask : Bool) (s : State) : State :=
  let was := s.gate.msixOn
  let s := if on && !was && s.gate.inta then emit .deassertInta (updGate (fun g => { g with inta := false }) s) else s
  let s := updGate (fun g => { g with msixOn := on, funcMask := mask }) s
  if on && !was then resendCauses s else if on then releasePba s else if was then updateInta (prunePba s) else s

/-- The reads that wait for a tag fail when no request may leave any more (R314, R379). -/
def failWaiting (s : State) : State :=
  failReads (s.mem.reads.filter fun r => r.tag.isNone) (updMem (fun m => { m with reads := m.reads.filter fun r => r.tag.isSome }) s)

/-- The power state (R379): a return to D0 keeps all state and sends what was held. -/
def setPower (d3 : Bool) (s : State) : State :=
  if s.gate.d3hot == d3 then s
  else
    let s := updGate (fun g => { g with d3hot := d3 }) s
    if d3 then failWaiting s else resumeSending s

/-- Store a configuration dword. -/
def setCfg (off : Nat) (v : BitVec 32) (s : State) : State :=
  updGate (fun g => { g with cfg := if v = 0 then tabDel off g.cfg else tabPut off v g.cfg }) s

/-- The bits of a configuration dword that a write stores (R377, R378; for the capabilities' registers as PCI Express has them,
PRESUMED, log 9). -/
def cfgMask (off : Nat) : BitVec 32 :=
  if off = 0x04 then 0x546
  else if off = 0x10 then 0xFE000000
  else if off = 0x14 ∨ off = 0x1C then 0xFFFFFFFF
  else if off = 0x18 then 0xF0000000
  else if off = 0x58 then 0x71EF
  else if off = 0x60 then 0xCB
  else if off = 0x78 then 0x1F
  else if off = 0x80 then 0xF
  else if off = 0x108 ∨ off = 0x10C then 0x001FF010
  else if off = 0x114 then 0x31C1
  else if off = 0x118 then 0x140
  else 0

/-- The AER status bits from `lo` (R396). -/
def aerWord (s : State) (lo : Nat) : BitVec 32 := w32 ((s.gate.aer.filter fun n => decide (lo ≤ n ∧ n < lo + 32)).map fun n => 2 ^ (n - lo)).sum

/-- The read-only part of a configuration dword (R377, R378). -/
def cfgFixed (s : State) (off : Nat) : BitVec 32 :=
  if off = 0x00 then 0x06401E9C
  else if off = 0x04 then 0x00100000 ||| w32 (flag (intLevel s) 19)
  else if off = 0x08 then 0x12000000 ||| (reg s 0 &&& 0xFF)
  else if off = 0x10 then 0x4
  else if off = 0x18 then 0xC
  else if off = 0x2C then w32 s.power.ledger.subsystem
  else if off = 0x34 then 0x40
  else if off = 0x3C then 0x100
  else if off = 0x40 then 0x00035001
  else if off = 0x44 then w32 (8 + (if s.gate.d3hot then 3 else 0))
  else if off = 0x50 then 0x0002A010
  else if off = 0x54 then 0x10008022
  else if off = 0x58 then w32 (flag (s.mem.reads.any fun r => r.tag.isSome) 21)
  else if off = 0x5C then 0x00018885
  else if off = 0x60 then w32 (bits (reg s 4).toNat 0 3 * 2 ^ 16 + bits (reg s 4).toNat 4 6 * 2 ^ 20)
  else if off = 0x74 then 0x6
  else if off = 0x7C then 0x3E
  else if off = 0xA0 then w32 (0x003F0011 + flag s.gate.funcMask 30 + flag s.gate.msixOn 31)
  else if off = 0xA4 then 0x00800000
  else if off = 0xA8 then 0x00801000
  else if off = 0x100 then 0x14820001
  else if off = 0x104 then aerWord s 0
  else if off = 0x110 then aerWord s 32
  else if off = 0x118 then 0xA0
  else if off = 0x148 then 0x00010003
  else if off = 0x14C then w32 s.power.ledger.serial
  else if off = 0x150 then w32 (s.power.ledger.serial / 2 ^ 32)
  else 0

/-- A configuration read (R377, R378). -/
def readCfg (s : State) (off : Nat) : BitVec 32 := cfgFixed s off ||| (cfgReg s off &&& cfgMask off)

/-- The bits that byte enables select. -/
def enableMask (be : BitVec 4) : BitVec 32 :=
  w32 (((List.range 4).map fun i => if be.getLsbD i then 0xFF * 256 ^ i else 0).sum)

/-- AER status bits that a write clears (R13, R396). -/
def clearAer (lo : Nat) (v : BitVec 32) (s : State) : State :=
  updGate (fun g => { g with aer := g.aer.filter fun n => !(decide (lo ≤ n ∧ n < lo + 32) && v.getLsbD (n - lo)) }) s

/-- A configuration write (R377 to R379, R391, R393, R396). -/
def writeCfg (off : Nat) (m v : BitVec 32) (s : State) : State :=
  let k := cfgMask off
  let t := if k = 0 then s else setCfg off ((cfgReg s off &&& ~~~(k &&& m)) ||| (v &&& k &&& m)) s
  if off = 0x04 then if canSend t then resumeSending t else failWaiting (resumeSending t)
  else if off = 0x44 then
    if !m.getLsbD 0 then t else if v &&& 3 = 3 then setPower true t else if v &&& 3 = 0 then setPower false t else t
  else if off = 0x58 then if (m &&& v).getLsbD 15 then (if s.power.breath then t else requestEndpointReset 2 t) else t
  else if off = 0xA0 then if m.getLsbD 31 then setMsix (v.getLsbD 31) (v.getLsbD 30) t else t
  else if off = 0x104 then clearAer 0 (v &&& m) t
  else if off = 0x110 then clearAer 32 (v &&& m) t
  else t

/-- CONFIG_REQUEST (R377, R378, R477): retry status from the start of boot until S4 is complete. -/
def execConfigRequest (write : Bool) (offset : Nat) (value : BitVec 32) (byteEnables : BitVec 4) (s : State) : Res :=
  inRange (decide (offset < 4096) && offset % 4 == 0) s <|
    if s.power.waitingBoot.isSome then done (emit .retry s)
    else if !s.gate.linkUp then done s
    else if !s.gate.configReady then done (emit .retry s)
    else if write then done (writeCfg offset (enableMask byteEnables) value s)
    else done (emit (.readData (leBytes 4 (readCfg s offset).toNat)) s)

/-- MSIX_ENABLE (R391). -/
def execMsixEnable (on functionMask : Bool) (s : State) : Res :=
  doneIf (s.gate.linkUp && s.gate.configReady) (setMsix on functionMask s) s

/-- VECTOR_UNMASK (R389). -/
def execVectorUnmask (vector : Nat) (s : State) : Res :=
  inRange (decide (vector < 64)) s (done (hostWrites (0x80000C + 16 * vector) (writeTable (16 * vector + 12) 0) s))

/-- POWER_STATE_CHANGE (R379). -/
def execPowerStateChange (d3hot : Bool) (s : State) : Res := doneIf (s.gate.linkUp && s.gate.configReady) (setPower d3hot s) s

/-- The Gatehouse after a fundamental reset (R393): its link is down and everything is at its reset value, but for what Quinbuar and
island 0 hold (R398, R401). -/
def resetGate (s : State) : State :=
  let regs := endpointRegs s 0
  let s := updGate (fun _ => { Gate.reset with regs := tabDel 0x000004 regs }) s
  updErr (fun e => { e with head := 0, tail := 0, stat := 0, droppedEntries := 0, droppedReports := 0 }) s

/-- PERST_N is asserted (R393, R510): SCOPE 1 ends the host session, SCOPE 0 resets the device; during last breath it takes effect with
the reset that follows, and it ends recovery mode (R485). -/
def assertPerst (s : State) : State :=
  if !s.power.perstReleased then s
  else
    let t := updPower (fun p => { p with perstReleased := false }) s
    if s.power.breath then t
    else if s.power.running && (reg s 0x400018).getLsbD 0 then sessionEnd (resetGate t)
    else flushedReset t

/-- FUNDAMENTAL_RESET (R393, R510); EXTEST keeps the pin from the core (R517). -/
def execFundamentalReset (s : State) : Res :=
  done (if pinsTaken s then updPower (fun p => { p with perstPin := false }) s else assertPerst s)

/-- The places of the link's and of the fatal errors in the AER status registers (R396, log 9). -/
def linkErrorBit : LinkError → Nat
  | .receiver => 32
  | .badTlp => 38
  | .badDllp => 39
  | .replayRollover => 40
  | .replayTimeout => 44

def fatalBit : FatalError → Nat
  | .dataLink => 4
  | .flowControl => 13
  | .receiverOverflow => 17
  | .malformed => 18

/-- Lines of host memory arrive marked, with the status of the mark (R361). -/
def markLines (a n st : Nat) (s : State) : State :=
  updMem (fun m => { m with hostBad := (readLines a n).foldl (fun l x => tabPut x st l) m.hostBad }) s

/-- What an error reports and does (R396). -/
def takePcieError (e : PcieError) (s : State) : State :=
  match e with
  | .linkRecovered k => setAer (linkErrorBit k) (updGate (fun g => { g with linkErrors := g.linkErrors + 1 }) s)
  | .poisonedBar0 => setAdvisory 12 (orReg 0x08 2 (logErr 0x0901 2 0 s { poison := true }))
  | .poisonedBar2 off bs =>
    hostWrites off (apertureWrite off bs true) (setAdvisory 12 (orReg 0x08 2 (logErr 0x0901 2 0 s { arg0 := off, poison := true })))
  | .poisonedCompletion a n =>
    setAer 12 (orReg 0x08 2 (logErr 0x0901 2 0 (markLines a n 0x0901 s) { arg0 := a, poison := true }))
  | .ecrcWrite => setAer 19 (logErr 0x0641 2 0 s)
  | .ecrcCompletion a n =>
    setAer 19 (logErr 0x0641 2 0 (updMem (fun m => { m with
      hostEcrc := (readLines a n).foldl (fun l x => setAdd x l) m.hostEcrc }) (markLines a n 0x0604 s)) { arg0 := a, poison := true })
  | .unsupported off => if covered off then emit .unsupportedRequest (badRequest off s) else answerRead off s
  | .unexpectedCompletion => setAdvisory 16 (logErr 0x0903 2 0 s)
  | .fatal k => setAer (fatalBit k) (logErr 0x0903 2 0 s)

/-- The bytes of an error's TLP lie in the aperture and in host memory (R382). -/
def pcieErrorOk : PcieError → Bool
  | .poisonedBar2 off bs => decide (off + bs.length ≤ 0x10000000)
  | .poisonedCompletion a n => decide (a + n ≤ 2 ^ 64 ∧ n ≤ 4096)
  | .ecrcCompletion a n => decide (a + n ≤ 2 ^ 64 ∧ n ≤ 4096)
  | _ => true

/-- PCIE_ERROR (R396). -/
def execPcieError (e : PcieError) (s : State) : Res := inRange (pcieErrorOk e) s (doneIf s.gate.linkUp (takePcieError e s) s)

end Sys2Proof.Machine
end

