-- ==== Sys2Proof/Machine/Pergola.lean ====
section
/-! DEFINITION. The Pergola vector units (R115 to R121, R521 to R523): what each function reads for a vector, what it writes,
and the loop over the vectors, which ends at the first one that faults. -/

namespace Sys2Proof.Machine

/-- What one vector reads and writes: its reads of its own row, a format that the function does not accept, its cells, the elements of
its digest unit, its need, its saturated elements, and its reads of tables that all rows share (R291). -/
structure VecOut where
  reads : List ByteRead
  badTag : Bool
  cells : List Cell
  digest : List Byte
  need : Option Int
  satn : Nat
  measured : Bool
  shared : List ByteRead
  deriving DecidableEq, Repr

/-- All that a vector reads. -/
def VecOut.all (x : VecOut) : List ByteRead := x.reads ++ x.shared

/-- The 4-byte tag of a vector behind `count` vectors at `base` (R521). -/
def vecTagRead (k : Nat) (s : State) (base count pitch v : Nat) : List ByteRead := readBy k s base (base + count * pitch + 4 * v) 4

/-- Packed elements as reads: the bytes that hold element `k` (R95). -/
def elementReads (w : Nat) (body : List ByteRead) (k : Nat) : List ByteRead :=
  (body.drop (k * w / 8)).take (max 1 (w / 8))

/-- Whether element `k` of packed reads carries a mark. -/
def elementMark (w : Nat) (body : List ByteRead) (k : Nat) : Bool := readPoison (elementReads w body k)

/-- The cells of a packed output vector with a mark per element. -/
def packVec (s : State) (start a fmt : Nat) (codes : List (Int × Bool)) : List Cell :=
  let marks := codes.map (·.2)
  rowCells s start a fmt false (codes.zipIdx.map fun c => (c.2, c.1.1, false)) (fun _ => 0) (fun n => marks.getD n false)

/-- The digest elements of coded outputs (R148). -/
def codeDigest (fmt : Nat) (codes : List Int) : List Byte := (codes.map fun c => digestBytes fmt (codeBits fmt c)).flatten

/-- The output format of a LUT4 parameter (R116, R521). -/
def lutFormat (p : Nat) : Nat := if p = 1 then fmtA4u else if p = 2 then fmtA4s else fmtA8

/-- LUT4 on vector `v` (R116, R522). -/
def lutVec (k : Nat) (s : State) (d : VecDesc) (l : LayerEntry) (v : Nat) : VecOut :=
  let body := readBy k s d.in0 (d.in0 + v * d.ipitch) (ceilDiv (d.len * 4) 8)
  let tag := vecTagRead k s d.in0 d.count d.ipitch v
  let inFmt := tagFmt (leNat (readVals tag))
  let codes := (List.range d.len).map (codeAt 4 (readVals body))
  let table := codes.map fun c => readBy k s d.in1 (d.in1 + c) 1
  let fmt := lutFormat (param d 0)
  let outs := (codes.zipIdx.zip table).map fun x =>
    (signed 8 (leNat (readVals x.2) % 2 ^ fmtBits fmt), elementMark 4 body x.1.2 || readPoison x.2)
  let zp := if fmt = fmtA4u then l.zfix else 0
  let t := mkTag l.einit zp fmt false (l.path == 1) 0
  { reads := body ++ tag, badTag := !(inFmt == fmtA4u || inFmt == fmtA4s),
    cells := packVec s d.out (d.out + v * d.opitch) fmt outs
      ++ cellsAt (d.out + d.count * d.opitch + 4 * v) (leBytes 4 t) false,
    digest := codeDigest fmt (outs.map (·.1)), need := none, satn := 0, measured := false, shared := table.flatten }

/-- The value of an activation code without its exponent (R126). -/
def actValue (tag code : Nat) : Int :=
  fmtValue (tagFmt tag) code - (if fmtUnsigned (tagFmt tag) then (tagZp tag : Int) else 0)

/-- The exact result of an ELTWISE operation: integer and exponent (R116). -/
def eltValue (op : Nat) (ea eb : Int) (a b : Int) : Int × Int :=
  if op = 2 then (a * b, ea + eb)
  else
    let e := min ea eb
    let x := a * 2 ^ (ea - e).toNat
    let y := b * 2 ^ (eb - e).toNat
    (if op = 1 then x - y else x + y, e)

/-- ELTWISE on vector `v` (R116, R522). -/
def eltVec (k : Nat) (s : State) (d : VecDesc) (l : LayerEntry) (ctx : Option (Nat × Nat)) (owner : Option RowOwner) (v : Nat) :
    VecOut :=
  let ta := vecTagRead k s d.in0 d.count d.ipitch v
  let tb := vecTagRead k s d.in1 d.count d.ipitch v
  let a := leNat (readVals ta)
  let b := leNat (readVals tb)
  let wa := fmtBits (tagFmt a)
  let wb := fmtBits (tagFmt b)
  let ra := readBy k s d.in0 (d.in0 + v * d.ipitch) (ceilDiv (d.len * wa) 8)
  let rb := readBy k s d.in1 (d.in1 + v * d.ipitch) (ceilDiv (d.len * wb) 8)
  let acc32 := param d 1 == 0
  let hist := if acc32 then [] else exponentRead s l owner
  let tagMark := readPoison ta || readPoison tb || readPoison hist
  let vals := (List.range d.len).map fun k =>
    eltValue (param d 0) (tagExp a) (tagExp b) (actValue a (codeAt wa (readVals ra) k)) (actValue b (codeAt wb (readVals rb) k))
  let e := if param d 0 = 2 then tagExp a + tagExp b else min (tagExp a) (tagExp b)
  let eo := if acc32 then clamp (-128) 127 e else outExponent s l ctx owner v
  let zo := if acc32 then 0 else outZero l
  let fmt := if acc32 then fmtAcc32 else l.ofmt
  let outs := vals.map fun x => if acc32 then (satS 32 x.1, satS 32 x.1 != x.1) else rq fmt zo eo x.1 x.2
  let marks := (List.range d.len).map fun k => tagMark || elementMark wa ra k || elementMark wb rb k
  { reads := ra ++ ta ++ rb ++ tb ++ hist, badTag := !(fmtIsAct (tagFmt a) && fmtIsAct (tagFmt b)),
    cells := packVec s d.out (d.out + v * d.opitch) fmt ((outs.map (·.1)).zip marks)
      ++ cellsAt (d.out + d.count * d.opitch + 4 * v) (leBytes 4 (mkTag eo zo fmt false (l.path == 1) 0))
          (acc32 && tagMark),
    digest := codeDigest fmt (outs.map (·.1)),
    need := if acc32 || fmt == 4 || (l.path == 1 && fmt == 5) then none else some (rowNeed fmt zo vals),
    satn := (outs.filter (·.2)).length, measured := true, shared := [] }

/-- The positions of a pooling window that lie inside the map (R117). -/
def poolWindow (w h ww wh x0 y0 : Nat) : List (Nat × Nat) :=
  ((List.range wh).map fun j => ((List.range ww).map fun i => (x0 + i, y0 + j)).filter fun p =>
    decide (p.1 < w ∧ p.2 < h)).flatten

/-- POOL on map `v` (R117, R522). -/
def poolVec (k : Nat) (s : State) (d : VecDesc) (l : LayerEntry) (v : Nat) : VecOut :=
  let w := paramN d 5 2
  let h := paramN d 7 2
  let c := paramN d 9 2
  let tag := vecTagRead k s d.in0 d.count d.ipitch v
  let t := leNat (readVals tag)
  let fmt := tagFmt t
  let bw := fmtBits fmt
  let body := readBy k s d.in0 (d.in0 + v * d.ipitch) (ceilDiv (w * h * c * bw) 8)
  let codeOf (p : Nat × Nat) (ch : Nat) : Int := fmtValue fmt (codeAt bw (readVals body) ((p.2 * w + p.1) * c + ch))
  let markOf (p : Nat × Nat) (ch : Nat) : Bool := elementMark bw body ((p.2 * w + p.1) * c + ch)
  let windows := ((List.range (ceilDiv h (max 1 (param d 4)))).map fun j =>
    (List.range (ceilDiv w (max 1 (param d 3)))).map fun i =>
      poolWindow w h (param d 1) (param d 2) (i * param d 3) (j * param d 4)).flatten
  let outs := (windows.map fun win => (List.range c).map fun ch =>
    let xs := win.map fun p => codeOf p ch
    let r := if param d 0 = 0 then (xs.max?).getD 0
             else clamp (fmtLo fmt) (fmtHi fmt) (divHalfEven (xs.sum * paramN d 11 3) 65536)
    (r, readPoison tag || win.any fun p => markOf p ch)).flatten
  { reads := body ++ tag, badTag := !(fmt == fmtA4u || fmt == fmtA4s || fmt == fmtA8),
    cells := packVec s d.out (d.out + v * d.opitch) fmt outs
      ++ cellsAt (d.out + d.count * d.opitch + 4 * v) (leBytes 4 (mkTag (tagExp t) (tagZp t) fmt false (l.path == 1) 0))
          (readPoison tag),
    digest := codeDigest fmt (outs.map (·.1)), need := none, satn := 0, measured := false, shared := [] }

/-- A vector whose output is plain bytes without tags, marked as a whole (R522). -/
def plainVec (d : VecDesc) (v : Nat) (reads shared : List ByteRead) (bs : List Byte) : VecOut :=
  { reads := reads, badTag := false, cells := cellsAt (d.out + v * d.opitch) bs (readPoison (reads ++ shared)), digest := bs, need := none,
    satn := 0, measured := false, shared := shared }

/-- One axis of the anchor form (R118): the two edges, each rounded once from the exact values. -/
def anchorEdges (f : Nat) (centre : Int) (dc ds : Int) (off : Int) (size tab : Nat) : Int × Int :=
  let fl := ds / 2 ^ f
  let up := fl.toNat
  let down := (-fl).toNat
  let den := 2 ^ f * 65536 * 2 ^ down
  let c := ((centre + off) * 2 ^ f + dc * size) * 65536 * 2 ^ down
  let half := (size : Int) * tab * 2 ^ up * 2 ^ f
  (divHalfEven (c - half) den, divHalfEven (c + half) den)

/-- The index into the exp2 table (R118). -/
def exp2Index (f : Nat) (ds : Int) : Nat := (256 * (ds % 2 ^ f) / 2 ^ f).toNat

/-- BOXDEC on candidate `v` (R118). -/
def boxVec (k : Nat) (s : State) (d : VecDesc) (v : Nat) : VecOut :=
  let r := readBy k s d.in0 (d.in0 + v * d.ipitch) 12
  let bs := readVals r
  let f := param d 1
  let gw := max 1 (paramN d 2 2)
  let gh := max 1 (paramN d 4 2)
  let st := paramN d 6 2
  let dv (i : Nat) : Int := sfield bs (2 * i) 2
  let cx : Int := 16 * st * (v % gw) + 8 * st
  let cy : Int := 16 * st * (v / gw % gh) + 8 * st
  let lim (n : Nat) (x : Int) : Nat := (clamp 0 (min 65535 (16 * n)) x).toNat
  let anchor := param d 0 == 1
  let ra := if anchor then readBy k s d.in1 (d.in1 + 8 * (v / (gw * gh))) 8 else []
  let rx := if anchor then readBy k s d.in1 (d.in1 + 4096 + 2 * exp2Index f (dv 2)) 2 else []
  let ry := if anchor then readBy k s d.in1 (d.in1 + 4096 + 2 * exp2Index f (dv 3)) 2 else []
  let ab := readVals ra
  let step (x : Int) : Int := divHalfEven (16 * st * x) (2 ^ f)
  let xs := if anchor then anchorEdges f cx (dv 0) (dv 2) (sfield ab 0 2) (field ab 4 2) (leNat (readVals rx))
            else (cx - step (dv 0), cx + step (dv 2))
  let ys := if anchor then anchorEdges f cy (dv 1) (dv 3) (sfield ab 2 2) (field ab 6 2) (leNat (readVals ry))
            else (cy - step (dv 1), cy + step (dv 3))
  let fw := paramN d 8 2
  let fh := paramN d 10 2
  plainVec d v r (ra ++ rx ++ ry)
    (leBytes 2 (lim fw xs.1) ++ leBytes 2 (lim fh ys.1) ++ leBytes 2 (lim fw xs.2) ++ leBytes 2 (lim fh ys.2)
      ++ slice bs 8 2 ++ slice bs 10 2 ++ leBytes 4 0)

/-- The area of a box, 0 when a difference is negative (R119). -/
def boxArea (b : List Nat) : Nat := (b.getD 2 0 - b.getD 0 0) * (b.getD 3 0 - b.getD 1 0)

/-- The overlap of two boxes. -/
def boxInter (a b : List Nat) : Nat :=
  (min (a.getD 2 0) (b.getD 2 0) - max (a.getD 0 0) (b.getD 0 0))
    * (min (a.getD 3 0) (b.getD 3 0) - max (a.getD 1 0) (b.getD 1 0))

/-- The IoU of two boxes exceeds U / 256 (R119). -/
def overlaps (u : Nat) (a b : List Nat) : Bool :=
  decide (u * (boxArea a + boxArea b - boxInter a b) < boxInter a b * 256)

/-- The greedy selection of R119, at most `left` more records. -/
def nmsKeep (perClass : Bool) (u : Nat) : (cands kept : List (Detection × List Byte)) → (left : Nat) → List (Detection × List Byte)
  | [], kept, _ => kept
  | _, kept, 0 => kept
  | c :: cs, kept, n + 1 =>
    if kept.any fun k => (!perClass || k.1.cls == c.1.cls) && overlaps u k.1.box c.1.box then nmsKeep perClass u cs kept (n + 1)
    else nmsKeep perClass u cs (kept ++ [c]) n

/-- NMS on image `v` (R119). -/
def nmsVec (k : Nat) (s : State) (d : VecDesc) (v : Nat) : VecOut :=
  let r := readBy k s d.in0 (d.in0 + v * d.ipitch) (16 * d.len)
  let recs := (chunks 16 d.len (readVals r)).map fun b => (nmsRecord b, b)
  let cands := sortBy (fun a b : Detection × List Byte => decide (b.1.score < a.1.score))
    (recs.filter fun c => decide (paramN d 2 2 ≤ c.1.score))
  let kept := nmsKeep (param d 0 == 1) (param d 1) cands [] (paramN d 4 2)
  plainVec d v r [] (leBytes 4 kept.length ++ (kept.map (·.2)).flatten)

/-- The largest n below 2^bits with (2n − 1)^256 × 2^f ≤ 131,070^256. -/
def rootFrom (f : Nat) : (bits n : Nat) → Nat
  | 0, n => n
  | b + 1, n =>
    let t := n + 2 ^ b
    rootFrom f b (if (2 * t - 1) ^ 256 * 2 ^ f ≤ 131070 ^ 256 then t else n)

/-- T[f] = round(65,535 × 2^(−f/256)) (R120). -/
def softTable (f : Nat) : Nat := rootFrom f 17 0

/-- e[i] of R120. -/
def softExp (f : Nat) (mx x : Int) : Nat :=
  let d := if f ≤ 8 then (mx - x) * 2 ^ (8 - f) else divHalfEven (mx - x) (2 ^ (f - 8))
  let t := (d * 369 / 256).toNat
  if 16 ≤ t / 256 then 0 else softTable (t % 256) / 2 ^ (t / 256)

/-- The signed 16-bit values of a vector. -/
def signed16 (bs : List Byte) (n : Nat) : List Int := (List.range n).map fun i => sfield bs (2 * i) 2

/-- SOFTMAX on vector `v` (R120). -/
def softVec (k : Nat) (s : State) (d : VecDesc) (v : Nat) : VecOut :=
  let r := readBy k s d.in0 (d.in0 + v * d.ipitch) (2 * d.len)
  let xs := signed16 (readVals r) d.len
  let mx := (xs.max?).getD 0
  let es := xs.map (softExp (param d 0) mx)
  let sum := max 1 es.sum
  plainVec d v r [] ((es.map fun e => leBytes 2 (divHalfEven (e * 65535) sum).toNat).flatten)

/-- The first position of the largest value (R121). -/
def argmaxOf (xs : List Int) : Nat :=
  (xs.zipIdx.foldl (fun best x => if best.1 < x.1 then x else best) (xs.headD 0, 0)).2

/-- ARGMAX on pixel `v` (R121). -/
def argmaxVec (k : Nat) (s : State) (d : VecDesc) (v : Nat) : VecOut :=
  let r := readBy k s d.in0 (d.in0 + v * d.ipitch) (2 * d.len)
  plainVec d v r [] (leBytes 2 (argmaxOf (signed16 (readVals r) d.len)))

/-- A vector is written unless its row is closed (R143) or its slot is empty under FLAGS[1] (R115). -/
def vecOpen (s : State) (d : VecDesc) (ctx : Option (Nat × Nat)) (v : Nat) : Bool :=
  rowOpen s (residentLayer s d.layer) ctx d.count v && !(bitAt d.flags 1 && rowEmpty s ctx d.count v)

/-- What vector `v` of a descriptor does on lane `k`, by function (R116). -/
def vecOut (k : Nat) (s : State) (d : VecDesc) (ctx : Option (Nat × Nat)) (v : Nat) : VecOut :=
  let l := residentLayer s d.layer
  match d.func with
  | 1 => lutVec k s d l v
  | 2 => eltVec k s d l ctx (rowOwner s ctx d.count v) v
  | 3 => poolVec k s d l v
  | 4 => boxVec k s d v
  | 5 => nmsVec k s d v
  | 6 => softVec k s d v
  | _ => argmaxVec k s d v

/-- The fault that a vector raises: deferred bytes, a tag, a refused or uncorrectable read, a refused write, with the stream that the
vector's row or the address names (R85, R291, R521); a shared table belongs to the context. The spec gives a tile's conditions an order (R114)
and those of a vector none: here deferred bytes come first, then a tag, then a read, then a write (DESIGN CHOICE, log 225). -/
def vecTrouble (k : Nat) (s : State) (d : VecDesc) (ctx : Option (Nat × Nat)) (who : Option Nat) (x : VecOut) :
    Option Trouble :=
  let tag : Option Trouble := if x.badTag then some { status := 0x0431, addr := d.in0, stream := who } else none
  let write : Option Trouble := (writeFault k s d.out x.cells).map fun w =>
    { status := w.1, addr := w.2, stream := who.or (addrStream s ctx w.2) }
  let found (f : Option Nat → List ByteRead → List Trouble) : Option Trouble := lowest (f who x.reads ++ f none x.shared)
  ((found (deferredIn s ctx)).or tag).or ((found (errorsIn s ctx)).or write)

/-- Note a written vector's digest and measure (R136, R141, R148). -/
def noteVec (d : VecDesc) (ctx : Option (Nat × Nat)) (owner : Option RowOwner) (v : Nat) (x : VecOut) (s : State) : State :=
  let s := ownerDigest (bitAt d.flags 0) d.layer owner 0 x.digest s
  match ctx with
  | some (b, n) =>
    if x.measured then
      addMeasure { layer := d.layer, batch := b, num := n, row := v, owned := owner.isSome,
                   stream := (owner.map (·.at_.stream)).getD 0, frame := (owner.map (·.at_.frame)).getD 0,
                   frameRow := rowNumber owner v, slot := rowSlot s b d.count v, need := x.need, satn := min 255 x.satn,
                   tags := [d.out + d.count * d.opitch + 4 * v] } s
    else s
  | none => s

/-- The vectors from `v` on, `n` of them: the op ends at the first that faults (R523). -/
def runVecs (k : Nat) (d : VecDesc) (ctx : Option (Nat × Nat)) : (n v : Nat) → State → State
  | 0, _, s => s
  | n + 1, v, s =>
    if !vecOpen s d ctx v then runVecs k d ctx n (v + 1) s
    else
      let x := vecOut k s d ctx v
      let owner := rowOwner s ctx d.count v
      let s := noteReads k x.all s
      match vecTrouble k s d ctx (owner.map fun o => o.at_.stream) x with
      | some t => jobFault k ctx t.status t.addr t.stream (useDeferred t.addr s)
      | none => runVecs k d ctx n (v + 1) (noteVec d ctx owner v x (writeOp d.out x.cells s))

/-- What a VECTOR op waits for (R161, R162, R314). -/
def vecWaits (k : Nat) (s : State) (d : VecDesc) (ctx : Option (Nat × Nat)) : List Wait :=
  (((List.range d.count).filter (vecOpen s d ctx)).map fun v =>
    let x := vecOut k s d ctx v
    readWait x.all ++ writeWait s d.out x.cells).flatten.eraseDups

/-- A VECTOR op whose descriptor has function `func` (R64, R115). -/
def vectorOp (pergola func : Nat) (s : State) : Res :=
  inRange (decide (pergola < 8)) s <|
    let k := pergolaLane pergola
    let desc (o : IssuedOp) : VecDesc := imgVec s.score.image (argDesc o.word)
    startOp k 0x18 (fun o => (desc o).func == func) (fun o => vecWaits k s (desc o) o.ctx)
      (fun o s => occupy k o [] true (writing k (runVecs k (desc o) o.ctx (desc o).count 0) s)) s

/-- LUT4, ELTWISE, POOL, BOXDEC, NMS, SOFTMAX and ARGMAX (R116). -/
def execLut4 (pergola : Nat) (s : State) : Res := vectorOp pergola 1 s
def execEltwise (pergola : Nat) (s : State) : Res := vectorOp pergola 2 s
def execPool (pergola : Nat) (s : State) : Res := vectorOp pergola 3 s
def execBoxdec (pergola : Nat) (s : State) : Res := vectorOp pergola 4 s
def execNms (pergola : Nat) (s : State) : Res := vectorOp pergola 5 s
def execSoftmax (pergola : Nat) (s : State) : Res := vectorOp pergola 6 s
def execArgmax (pergola : Nat) (s : State) : Res := vectorOp pergola 7 s

end Sys2Proof.Machine
end

