-- ==== Sys2Proof/Machine/Ports.lean ====
section
/-! DEFINITION. The board's other ports: the SMBus target (R515) and the test access port (R517). -/

namespace Sys2Proof.Machine

/-- The SMBus target answers: its pins and the Warden have power (R502, R515; MAINGOOD stands for VDD_IO, DEDUCED, log 74). -/
def smbServes (s : State) : Bool := s.power.maingood && s.power.aonAlive && !pinsTaken s

/-- A Read Byte command answers a byte (R515). -/
def smbAnswer (v : Nat) (s : State) : Res := doneIf (smbServes s) (emit (.smbByte (BitVec.ofNat 8 v)) s) s

/-- SMB_READ_TJ (R515): as PWR_TJ.TJ, signed. -/
def execSmbReadTj (s : State) : Res := smbAnswer (unsigned 8 s.power.tj) s

/-- SMB_READ_TJ_ISLAND (R515). -/
def execSmbReadTjIsland (s : State) : Res := smbAnswer s.power.tjIsland s

/-- The status byte of command 0x02 (R515). -/
def smbStatus (s : State) : Nat :=
  flag s.power.aonBkup 0 + flag s.power.pwrfail 1 + flag (decide (100 ≤ s.power.tj)) 2 + flag s.power.recovery 3
    + flag ((reg s regDblStat).getLsbD 8) 4 + flag s.power.breath 5

/-- SMB_READ_STATUS (R515). -/
def execSmbReadStatus (s : State) : Res := smbAnswer (smbStatus s) s

/-- SMB_READ_BOOTSTEP (R476, R515). -/
def execSmbReadBootstep (s : State) : Res := smbAnswer s.power.bootStep s

/-- The stepping of the part (R397, R515). -/
def stepping (s : State) : Nat := (reg s 0).toNat % 256

/-- SMB_READ_STEPPING (R515). -/
def execSmbReadStepping (s : State) : Res := smbAnswer (stepping s) s

/-- SMB_ALERT_RESPONSE (R515): the answer to the Alert Response Address releases SMB_ALERT_N; its time is island 0's own. -/
def execSmbAlertResponse (s : State) : Res :=
  doneIf (smbServes s && s.power.alert)
    (emit .smbAlertAnswer (updPower (fun p => { p with alert := false, alertReleased := some s.band.aon }) s)) s

/-- SMB_ALERT_REPEAT (R515): 1 s after the release the pin is asserted again while the condition is present. -/
def execSmbAlertRepeat (s : State) : Res :=
  match s.power.alertReleased with
  | some t => doneIf (alertCond s && decide (t + 1000000000 * 2 ^ 16 ≤ s.band.aon))
      (updPower (fun p => { p with alert := true, alertReleased := none }) s) s
  | none => done s

/-- SMB_UNLISTED_COMMAND (R515): refused with a NACK. -/
def execSmbUnlistedCommand (code : Nat) (s : State) : Res :=
  inRange (decide (5 ≤ code ∧ code < 256)) s (doneIf (smbServes s) (emit .smbNack s) s)

/-- The levels that the core drives on its cue pins and on PPS_OUT. -/
def driveAll (s : State) : State :=
  emit (.ppsOut s.band.ppsOut)
    (s.pins.zipIdx.foldl (fun s p => if pinDrives p.1 then emit (.pinLevel p.2 (pinLevel p.1)) s else s) s)

/-- The boundary cells drive the scanned outputs: cells 0 to 15 the cue pins, cell 16 PPS_OUT (DESIGN CHOICE, log 75). -/
def driveCells (s : State) : State :=
  s.power.cells.zipIdx.foldl (fun s c => if c.2 < 16 then emit (.pinLevel c.2 c.1) s else if c.2 = 16 then emit (.ppsOut c.1) s else s) s

/-- EXTEST takes the scanned pins from the core at once (R517). -/
def takePins (s : State) : State :=
  driveCells (updPower (fun p => { p with perstPin := p.perstReleased, timerefPin := p.timeref }) s)

/-- The pins are the core's again (R517): it drives its levels and finds what PERST_N and TIMEREF have become. -/
def returnPins (s : State) : State :=
  let (perst, ref) := (s.power.perstPin, s.power.timerefPin)
  let s := driveAll s
  let s := if ref && !s.power.timeref then returnTimeref s else if !ref && s.power.timeref then loseTimeref s else s
  if perst then releasePerst s else assertPerst s

/-- Select an instruction of the test access port (R517). -/
def selectTap (i : TapInstr) (s : State) : State :=
  let t := updPower (fun p => { p with tap := i }) s
  if !pinsTaken s && pinsTaken t then takePins t else if pinsTaken s && !pinsTaken t then returnPins t else t

/-- BYPASS (R517): one bit, which captures 0 as IEEE 1149.1 has it (PRESUMED, log 75). -/
def execBypass (s : State) : Res := done (emit (.tapShift [false]) (selectTap .bypass s))

/-- The IDCODE of the stepping (R517). -/
def idcodeWord (s : State) : BitVec 32 := if stepping s = 0 then 0x0064074F else 0x1064074F

/-- IDCODE (R517): shifted out from bit 0. -/
def execIdcode (s : State) : Res :=
  done (emit (.tapShift ((List.range 32).map fun i => (idcodeWord s).getLsbD i)) (selectTap .idcode s))

/-- What cell `i` samples: the level of a pin that the core drives (DESIGN CHOICE of the cells' order, log 75), else the board's, a free
value. -/
def sampleBit (s : State) (i : Nat) : Bool :=
  let board := (Config.freeBits 1 (s.freeCount + i)).getLsbD 0
  if i = 16 then s.band.ppsOut
  else match s.pins[i]? with
    | some p => if i < 16 && pinDrives p then pinLevel p else board
    | none => board

/-- SAMPLE_PRELOAD (R517): the cells sample the pins and take what is shifted in. -/
def execSamplePreload (cells : List Bool) (s : State) : Res :=
  let bits := (List.range cells.length).map (sampleBit s)
  done (emit (.tapShift bits)
    (selectTap .samplePreload (updPower (fun p => { p with cells := cells }) { s with freeCount := s.freeCount + cells.length })))

/-- EXTEST (R517): the scanned pins are taken from the core. -/
def execExtest (s : State) : Res := done (selectTap .extest s)

/-- TAP_RESET (R517): the port is reset to IDCODE, and the pins return to the core. -/
def execTapReset (s : State) : Res := done (selectTap .idcode s)

end Sys2Proof.Machine
end

