-- ==== Sys2Proof/Machine/Trellis.lean ====
section
/-! DEFINITION. The messages of the Trellis as they arrive (R450 to R458, R463 to R466, R495 rulings 7, 12 and 22, R499). -/

namespace Sys2Proof.Machine

/-- An entry that a linked source has published arrives (R176, R465). -/
def takeGallery (src srcStream stream : Nat) (ended : Bool) (trackId stamp : Nat) (box : List Nat) (gid tag : Nat)
    (codes : List Byte) (s : State) : State :=
  addGallery stream { chip := src, stream := srcStream, ended := ended, trackId := trackId, stamp := stamp, box := box,
                      gid := gid, tag := tag, codes := codes } s

/-- What PEER_STATE tells of a member (R457, R464): it is alive, an update mark of it, its links. -/
def takePeerState (src : Nat) (updating : Bool) (links : List (Nat × Nat)) (s : State) : State :=
  let old := (s.trellis.heard.find? fun h => h.1 == src).bind fun h => h.2.2
  updTrellis (fun t => { t with
    heard := (t.heard.filter fun h => h.1 != src) ++ [(src, steadyNs s, if updating then some (steadyNs s) else old)]
    peerLinks := (t.peerLinks.filter fun p => p.1 != src) ++ [(src, links)] }) s

/-- A message that a relay refused is due again after 1 ms (R458). -/
def takeRefusal (dst type mnum : Nat) (s : State) : State :=
  match s.trellis.relayed.find? fun m => m.dst == dst && field m.bytes 0 1 == type && field m.bytes 4 4 == mnum with
  | some m => updTrellis (fun t => { t with
      relayed := t.relayed.erase m, refused := t.refused ++ [{ m with since := steadyNs s }] }) s
  | none => s

/-- The relay messages of one pair that this chip holds (R458). -/
def relaysOf (s : State) (src dst : Nat) : Nat := (s.trellis.relays.filter fun r => r.1 == src && r.2.1 == dst).length

/-- A relay message for another chip (R458): forwarded, or refused when 64 of its pair are held or the way on does not serve
(DEDUCED, log 60). -/
def forwardRelay (src dst vc : Nat) (m : List Byte) (s : State) : State :=
  let k := linkTo s dst
  let serves := match k with | some k => linkServes s k | none => false
  if 64 ≤ relaysOf s src dst ∨ !serves then refuseRelay src dst m s
  else match k with
    | some k =>
      let s := updTrellis (fun t => { t with relays := t.relays ++ [(src, dst, m)] }) s
      enqueueRelayed k dst (relayMessage s dst src dst vc m) (bumpMnum dst vcBulk s)
    | none => s

/-- What a control or bulk message for this chip does (R456, R457). -/
def takeControl (src : Nat) (b : List Byte) (s : State) : State :=
  match field b 0 1 with
  | 0x10 => takeProposal (field b 0x08 8) (field b 0x10 8) (field b 0x18 1) s
  | 0x11 => (List.range (field b 0x08 2)).foldl (fun s i =>
      let at_ := 0x10 + 16 * i
      noteCommit src (field b at_ 1, field b (at_ + 1) 1, bitAt (field b (at_ + 2) 1) 0, field b (at_ + 8) 8) s) s
  | 0x12 => takePeerState src (bitAt (field b 0x11 1) 0)
      ((List.range 5).map fun i => (bits (field b (0x14 + i) 1) 0 3, bits (field b (0x14 + i) 1) 4 3)) s
  | 0x13 => takeRefusal (field b 0x09 1) (field b 0x0A 1) (field b 0x0C 4) s
  | 0x14 => takeEpochAck src (field b 0x08 8) (field b 0x10 2) (field b 0x12 2) s
  | 0x20 => takeGallery (field b 0x08 1) (field b 0x09 1) (field b 0x0A 1) (bitAt (field b 0x0B 1) 0) (field b 0x0C 4)
      (field b 0x10 8) ((List.range 4).map fun i => field b (0x18 + 2 * i) 2) (field b 0x20 8) (field b 0x2C 4)
      (slice b 0x30 (field b 0x28 2)) s
  | _ => s

/-- A message that a relay has brought by link `k`: it is accepted as if its own link had, and counted where its layout is wrong (R456 to
R458). -/
def takeRelayed (k src vc : Nat) (m : List Byte) (s : State) : State :=
  if !messageGood m then badMessage k s
  else if (peers s).contains src && field m 1 1 == s.trellis.chip then
    let (fresh, s) := admitMessage src vc m s
    if fresh then takeControl src m s else s
  else s

/-- A RELAY message (R457, R458). -/
def takeRelay (k src dst vc : Nat) (m : List Byte) (s : State) : State :=
  if dst = s.trellis.chip then takeRelayed k src vc m s else forwardRelay src dst vc m s

/-- A message has arrived on a link (R456, R457); time messages keep the stamp of their arrival (R459). -/
def takeArrived (k vc stamp : Nat) (rpl : Bool) (b : List Byte) (s : State) : State :=
  if !messageGood b then badMessage k s
  else match (s.trellis.links[k]?).bind (·.peer) with
    | none => s
    | some src =>
      if field b 1 1 ≠ s.trellis.chip then s
      else
        let (fresh, s) := admitMessage src vc b s
        if !fresh then s
        else match field b 0 1 with
          | 0x01 => updLink k (fun l => { l with request := some (field b 8 8, linkStampIn s k stamp, rpl) }) s
          | 0x02 => updLink k (fun l => { l with
              response := some (field b 8 8, field b 16 8, field b 24 8, linkStampIn s k stamp, rpl) }) s
          | 0x21 => takeRelay k (field b 0x08 1) (field b 0x09 1) (field b 0x0A 1) (b.drop 16) s
          | _ => takeControl src b s

/-- The report in a flit's header: acknowledged flits are released, a NAK replays, credits return (R450 to R454). -/
def takeReport (k : Nat) (h : FlitHead) (s : State) : State :=
  let s := takeAck k h.ack (updLink k (takeCredits h.credit) s)
  match s.trellis.links[k]? with
  | some l => if h.nak && !l.kept.isEmpty then startReplay k l s else s
  | none => s

/-- A DATA flit by its distance from the number expected (R450). -/
def takeData (k : Nat) (h : FlitHead) (data : List Byte) (stamp : Nat) (s : State) : State :=
  match s.trellis.links[k]? with
  | none => s
  | some l =>
    let d := seqMod (h.seq + 4096 - l.expect)
    if d = 0 then
      let s := acceptFlit k h data s
      if h.last then
        let rpl := match s.trellis.links[k]? with | some l => l.partialRpl | none => false
        let (b, s) := takeMessage k h.vc s
        takeArrived k h.vc stamp rpl b s
      else s
    else if d < 2048 then askNak k s
    else updLink k (fun l => { l with nullDue := true }) s

/-- A DATA flit's LEN is in its range (R447); a flit that breaks this has no effect (DESIGN CHOICE, log 59). A NULL flit carries no
payload, whatever its LEN. -/
def flitFormOk (b : List Byte) : Bool := (flitHead b).type == 0 || decide (1 ≤ field b 8 1 ∧ field b 8 1 ≤ 240)

/-- FLIT_RECEIVE (R448 to R454). -/
def execFlitReceive (link : Nat) (flit : List Byte) (fecOk : Bool) (stamp : Nat) (s : State) : Res :=
  inRange (decide (link < 5) && flit.length == 256) s <|
    if !s.power.running || !linkUp s link then done s
    else if !fecOk then done (discardFlit link 0x0707 s)
    else if !flitOk flit then done (discardFlit link 0x0708 s)
    else if !flitFormOk flit then done s
    else
      let h := flitHead flit
      let s := takeReport link h s
      done (if h.type = 1 && linkUp s link then takeData link h (flitData flit) stamp s else s)

/-- COMMIT_MESSAGE (R177, R457, R465). -/
def execCommitMessage (src : Nat) (entries : List (Nat × Nat × Bool × Nat)) (s : State) : Res :=
  inRange (decide (src < 6 ∧ entries.length ≤ 2048)) s <|
    doneIf (s.power.running && (peers s).contains src) (entries.foldl (fun s e => noteCommit src e s) s) s

/-- PEER_STATE (R457, R464). -/
def execPeerState (src _members : Nat) (updating : Bool) (links : List (Nat × Nat)) (s : State) : Res :=
  inRange (decide (src < 6 ∧ links.length = 5)) s <|
    doneIf (s.power.running && (peers s).contains src) (takePeerState src updating links s) s

/-- PEER_LOSS_TIMEOUT (R464): the membership is reduced; a load that awaits a proposal ends with 0x0412 (R499). -/
def execPeerLossTimeout (chip : Nat) (s : State) : Res :=
  inRange (decide (chip < 6)) s <|
    doneIf (s.power.running && peerLost s chip) (abandonLoad 0x0412 (dropMember chip s)) s

/-- GALLERY (R176, R465). -/
def execGallery (src srcStream stream : Nat) (ended : Bool) (trackId stamp : Nat) (box : List Nat) (gid : BitVec 64)
    (tag : BitVec 32) (embedding : List Byte) (s : State) : Res :=
  inRange (decide (src < 6 ∧ srcStream < 128 ∧ stream < 128 ∧ box.length = 4)) s <|
    doneIf (s.power.running && (peers s).contains src)
      (takeGallery src srcStream stream ended trackId stamp box gid.toNat tag.toNat embedding s) s

/-- RELAY (R458): a message carried for another pair, or brought to this chip. -/
def execRelay (src dst channel : Nat) (message : List Byte) (s : State) : Res :=
  inRange (decide (src < 6 ∧ dst < 6 ∧ src ≠ dst ∧ (channel = vcControl ∨ channel = vcBulk))) s <|
    doneIf (s.power.running && (peers s).contains src && decide (8 ≤ message.length))
      (takeRelay ((linkTo s src).getD 0) src dst channel message s) s

/-- RELAY_REFUSE (R458). -/
def execRelayRefuse (src dst type mnum : Nat) (s : State) : Res :=
  inRange (decide (src < 6 ∧ dst < 6)) s <|
    doneIf (s.power.running && src == s.trellis.chip) (takeRefusal dst type mnum s) s

/-- RELAY_RETRY (R458, R495 ruling 22): 1 ms after a refusal, or while no member could relay, the messages to a chip are routed
again. -/
def execRelayRetry (dst : Nat) (s : State) : Res :=
  inRange (decide (dst < 6)) s <|
    let due := s.trellis.refused.filter fun m => m.dst == dst && decide (m.since + 1000000 ≤ steadyNs s)
    let rest := s.trellis.refused.filter fun m => !(m.dst == dst && decide (m.since + 1000000 ≤ steadyNs s))
    doneIf s.power.running
      (due.foldl (fun s m => routeMessage m.dst m.channel m.bytes s) (updTrellis (fun t => { t with refused := rest }) s)) s

end Sys2Proof.Machine
end

