-- ==== Sys2Proof/Machine/Dispatch.lean ====
section
/-! DEFINITION. One arm per command: each arm is one call of the command's meaning. -/

namespace Sys2Proof.Machine

def exec (i : Instr) (s : State) : Host.Outcome State Fault Refusal :=
  match i with
  | .beacon drift => Sys2Proof.Machine.execBeacon drift s
  | .beaconMiss island => Sys2Proof.Machine.execBeaconMiss island s
  | .cueIssue c => Sys2Proof.Machine.execCueIssue c s
  | .heldCueRelease t => Sys2Proof.Machine.execHeldCueRelease t s
  | .cueTakeEffect t => Sys2Proof.Machine.execCueTakeEffect t s
  | .pulseEnd pin => Sys2Proof.Machine.execPulseEnd pin s
  | .strobePeriod pin => Sys2Proof.Machine.execStrobePeriod pin s
  | .pinEdge pin rising stamp => Sys2Proof.Machine.execPinEdge pin rising stamp s
  | .reflexHoldoffEnd rule => Sys2Proof.Machine.execReflexHoldoffEnd rule s
  | .ptpMessage port m => Sys2Proof.Machine.execPtpMessage port m s
  | .ppsInEdge stamp => Sys2Proof.Machine.execPpsInEdge stamp s
  | .disciplineLoss => Sys2Proof.Machine.execDisciplineLoss s
  | .stepApply => Sys2Proof.Machine.execStepApply s
  | .oscPeriodMeasured period => Sys2Proof.Machine.execOscPeriodMeasured period s
  | .oscChangeover => Sys2Proof.Machine.execOscChangeover s
  | .timePllLock => Sys2Proof.Machine.execTimePllLock s
  | .aonSupplySwitch mainMillivolts heldMs => Sys2Proof.Machine.execAonSupplySwitch mainMillivolts heldMs s
  | .scoreStart => Sys2Proof.Machine.execScoreStart s
  | .scoreWordIssue => Sys2Proof.Machine.execScoreWordIssue s
  | .nop lane => Sys2Proof.Machine.execNop lane s
  | .tokenSet => Sys2Proof.Machine.execTokenSet s
  | .tokenAdd => Sys2Proof.Machine.execTokenAdd s
  | .claimOpen => Sys2Proof.Machine.execClaimOpen s
  | .bell => Sys2Proof.Machine.execBell s
  | .branchFill => Sys2Proof.Machine.execBranchFill s
  | .jump => Sys2Proof.Machine.execJump s
  | .halt => Sys2Proof.Machine.execHalt s
  | .scoreHalted => Sys2Proof.Machine.execScoreHalted s
  | .tile orangery => Sys2Proof.Machine.execTile orangery s
  | .claim orangery => Sys2Proof.Machine.execClaim orangery s
  | .claimFetch orangery => Sys2Proof.Machine.execClaimFetch orangery s
  | .lut4 pergola => Sys2Proof.Machine.execLut4 pergola s
  | .eltwise pergola => Sys2Proof.Machine.execEltwise pergola s
  | .pool pergola => Sys2Proof.Machine.execPool pergola s
  | .boxdec pergola => Sys2Proof.Machine.execBoxdec pergola s
  | .nms pergola => Sys2Proof.Machine.execNms pergola s
  | .softmax pergola => Sys2Proof.Machine.execSoftmax pergola s
  | .argmax pergola => Sys2Proof.Machine.execArgmax pergola s
  | .copy mover => Sys2Proof.Machine.execCopy mover s
  | .fetchAhead mover => Sys2Proof.Machine.execFetchAhead mover s
  | .pageFetch mover => Sys2Proof.Machine.execPageFetch mover s
  | .steer topiary => Sys2Proof.Machine.execSteer topiary s
  | .gather => Sys2Proof.Machine.execGather s
  | .assoc => Sys2Proof.Machine.execAssoc s
  | .update => Sys2Proof.Machine.execUpdate s
  | .append => Sys2Proof.Machine.execAppend s
  | .alist => Sys2Proof.Machine.execAlist s
  | .pinLevel => Sys2Proof.Machine.execPinLevel s
  | .pinPulse => Sys2Proof.Machine.execPinPulse s
  | .strobeStart => Sys2Proof.Machine.execStrobeStart s
  | .strobeStop => Sys2Proof.Machine.execStrobeStop s
  | .reflexArm => Sys2Proof.Machine.execReflexArm s
  | .digest => Sys2Proof.Machine.execDigest s
  | .trace => Sys2Proof.Machine.execTrace s
  | .opComplete lane => Sys2Proof.Machine.execOpComplete lane s
  | .gateWatchdog lane => Sys2Proof.Machine.execGateWatchdog lane s
  | .scoreRestart => Sys2Proof.Machine.execScoreRestart s
  | .demandFill page => Sys2Proof.Machine.execDemandFill page s
  | .pageFillComplete page ok => Sys2Proof.Machine.execPageFillComplete page ok s
  | .pageSpill => Sys2Proof.Machine.execPageSpill s
  | .pageSpillComplete page ok => Sys2Proof.Machine.execPageSpillComplete page ok s
  | .promptEncoded slot => Sys2Proof.Machine.execPromptEncoded slot s
  | .slowPathPacket port kind => Sys2Proof.Machine.execSlowPathPacket port kind s
  | .rtpPacket p => Sys2Proof.Machine.execRtpPacket p s
  | .reorderWindowExpiry stream => Sys2Proof.Machine.execReorderWindowExpiry stream s
  | .frameRelease stream => Sys2Proof.Machine.execFrameRelease stream s
  | .rtspResponse stream r => Sys2Proof.Machine.execRtspResponse stream r s
  | .rtspKeepalive stream => Sys2Proof.Machine.execRtspKeepalive stream s
  | .sourceLost stream cause => Sys2Proof.Machine.execSourceLost stream cause s
  | .reconnect stream => Sys2Proof.Machine.execReconnect stream s
  | .multicastReport stream => Sys2Proof.Machine.execMulticastReport stream s
  | .rtcpReport stream => Sys2Proof.Machine.execRtcpReport stream s
  | .frameStartPacket port channel number stamp => Sys2Proof.Machine.execFrameStartPacket port channel number stamp s
  | .linePacket port channel dataType payload headerOk crcOk stamp => Sys2Proof.Machine.execLinePacket port channel dataType payload headerOk crcOk stamp s
  | .frameEndPacket port channel number => Sys2Proof.Machine.execFrameEndPacket port channel number s
  | .dphySyncLoss port => Sys2Proof.Machine.execDphySyncLoss port s
  | .pictureDecodeStart fountain facts => Sys2Proof.Machine.execPictureDecodeStart fountain facts s
  | .pictureDecodeComplete fountain => Sys2Proof.Machine.execPictureDecodeComplete fountain s
  | .fountainWatchdog fountain => Sys2Proof.Machine.execFountainWatchdog fountain s
  | .clipPictureEncode session stamp damaged concealed rowBits => Sys2Proof.Machine.execClipPictureEncode session stamp damaged concealed rowBits s
  | .topiaryTake topiary => Sys2Proof.Machine.execTopiaryTake topiary s
  | .slotGrant topiary => Sys2Proof.Machine.execSlotGrant topiary s
  | .slotWriteComplete topiary => Sys2Proof.Machine.execSlotWriteComplete topiary s
  | .trainingJobStart => Sys2Proof.Machine.execTrainingJobStart s
  | .trainingJobComplete => Sys2Proof.Machine.execTrainingJobComplete s
  | .recordForm r => Sys2Proof.Machine.execRecordForm r s
  | .recordEmit stream => Sys2Proof.Machine.execRecordEmit stream s
  | .pinNotice => Sys2Proof.Machine.execPinNotice s
  | .cacheAccess addr write full poisoned cls => Sys2Proof.Machine.execCacheAccess addr write full poisoned cls s
  | .dramRequest channel linkError => Sys2Proof.Machine.execDramRequest channel linkError s
  | .beRequestPromote channel => Sys2Proof.Machine.execBeRequestPromote channel s
  | .refreshInterval channel => Sys2Proof.Machine.execRefreshInterval channel s
  | .refreshIssue channel => Sys2Proof.Machine.execRefreshIssue channel s
  | .dramTempPoll hot => Sys2Proof.Machine.execDramTempPoll hot s
  | .dramEcsPoll counts => Sys2Proof.Machine.execDramEcsPoll counts s
  | .wckTrack counts => Sys2Proof.Machine.execWckTrack counts s
  | .scrub addr flipped => Sys2Proof.Machine.execScrub addr flipped s
  | .tlbInvalidate base size => Sys2Proof.Machine.execTlbInvalidate base size s
  | .hostReadIssue addr len => Sys2Proof.Machine.execHostReadIssue addr len s
  | .hostReadCompletion tag error poisoned => Sys2Proof.Machine.execHostReadCompletion tag error poisoned s
  | .completionTimeout tag => Sys2Proof.Machine.execCompletionTimeout tag s
  | .alloc pool account n reserve tail => Sys2Proof.Machine.execAlloc pool account n reserve tail s
  | .reserveAllocResume pool => Sys2Proof.Machine.execReserveAllocResume pool s
  | .retain index => Sys2Proof.Machine.execRetain index s
  | .release index => Sys2Proof.Machine.execRelease index s
  | .releaseChain head => Sys2Proof.Machine.execReleaseChain head s
  | .censusPass pool => Sys2Proof.Machine.execCensusPass pool s
  | .lockAcquire lock owner => Sys2Proof.Machine.execLockAcquire lock owner s
  | .lockRelease lock owner => Sys2Proof.Machine.execLockRelease lock owner s
  | .errorReport status island unit stream arg0 arg1 torn poison => Sys2Proof.Machine.execErrorReport status island unit stream arg0 arg1 torn poison s
  | .coalesceFlush island unit => Sys2Proof.Machine.execCoalesceFlush island unit s
  | .parityFault island unit register => Sys2Proof.Machine.execParityFault island unit register s
  | .partialReset island cause => Sys2Proof.Machine.execPartialReset island cause s
  | .islandUnfence selfTestPassed => Sys2Proof.Machine.execIslandUnfence selfTestPassed s
  | .configRequest write offset value byteEnables => Sys2Proof.Machine.execConfigRequest write offset value byteEnables s
  | .msixEnable on functionMask => Sys2Proof.Machine.execMsixEnable on functionMask s
  | .vectorUnmask vector => Sys2Proof.Machine.execVectorUnmask vector s
  | .powerStateChange d3hot => Sys2Proof.Machine.execPowerStateChange d3hot s
  | .registerWrite offset value byteEnables => Sys2Proof.Machine.execRegisterWrite offset value byteEnables s
  | .apertureAccess write offset bytes => Sys2Proof.Machine.execApertureAccess write offset bytes s
  | .keylockWrite dia value => Sys2Proof.Machine.execKeylockWrite dia value s
  | .keylockExpiry dia => Sys2Proof.Machine.execKeylockExpiry dia s
  | .sqDoorbell q tail => Sys2Proof.Machine.execSqDoorbell q tail s
  | .cqDoorbell head => Sys2Proof.Machine.execCqDoorbell head s
  | .drDoorbell ring head => Sys2Proof.Machine.execDrDoorbell ring head s
  | .ringEnable value => Sys2Proof.Machine.execRingEnable value s
  | .timNsRead eightBytes => Sys2Proof.Machine.execTimNsRead eightBytes s
  | .timSnap => Sys2Proof.Machine.execTimSnap s
  | .errTailWrite tail => Sys2Proof.Machine.execErrTailWrite tail s
  | .islandResetGo value => Sys2Proof.Machine.execIslandResetGo value s
  | .deviceResetGo value => Sys2Proof.Machine.execDeviceResetGo value s
  | .diagWindowAccess write offset value => Sys2Proof.Machine.execDiagWindowAccess write offset value s
  | .fundamentalReset => Sys2Proof.Machine.execFundamentalReset s
  | .hotReset => Sys2Proof.Machine.execHotReset s
  | .flr => Sys2Proof.Machine.execFlr s
  | .pcieError e => Sys2Proof.Machine.execPcieError e s
  | .commandFetch => Sys2Proof.Machine.execCommandFetch s
  | .commandComplete => Sys2Proof.Machine.execCommandComplete s
  | .notice => Sys2Proof.Machine.execNotice s
  | .cmdNop q cid => Sys2Proof.Machine.execCmdNop q cid s
  | .identify q cid => Sys2Proof.Machine.execIdentify q cid s
  | .hello q cid => Sys2Proof.Machine.execHello q cid s
  | .packageLoad q cid pkg => Sys2Proof.Machine.execPackageLoad q cid pkg s
  | .streamOpen q cid sec => Sys2Proof.Machine.execStreamOpen q cid sec s
  | .streamClose q cid => Sys2Proof.Machine.execStreamClose q cid s
  | .setDecodeMode q cid => Sys2Proof.Machine.execSetDecodeMode q cid s
  | .setAnalyseConcealed q cid => Sys2Proof.Machine.execSetAnalyseConcealed q cid s
  | .setCaptureSet q cid sec => Sys2Proof.Machine.execSetCaptureSet q cid sec s
  | .liftQuarantine q cid => Sys2Proof.Machine.execLiftQuarantine q cid s
  | .setLinks q cid => Sys2Proof.Machine.execSetLinks q cid s
  | .setAdaptationMode q cid => Sys2Proof.Machine.execSetAdaptationMode q cid s
  | .streamStats q cid => Sys2Proof.Machine.execStreamStats q cid s
  | .frameSubmit q cid => Sys2Proof.Machine.execFrameSubmit q cid s
  | .subscribe q cid => Sys2Proof.Machine.execSubscribe q cid s
  | .unsubscribe q cid => Sys2Proof.Machine.execUnsubscribe q cid s
  | .promptSet q cid => Sys2Proof.Machine.execPromptSet q cid s
  | .promptBind q cid => Sys2Proof.Machine.execPromptBind q cid s
  | .contextSet q cid => Sys2Proof.Machine.execContextSet q cid s
  | .clipRequest q cid => Sys2Proof.Machine.execClipRequest q cid s
  | .clipCancel q cid => Sys2Proof.Machine.execClipCancel q cid s
  | .adaptAdopt q cid => Sys2Proof.Machine.execAdaptAdopt q cid s
  | .timeConfig q cid p => Sys2Proof.Machine.execTimeConfig q cid p s
  | .timeSet q cid => Sys2Proof.Machine.execTimeSet q cid s
  | .pinConfig q cid p => Sys2Proof.Machine.execPinConfig q cid p s
  | .hostPinLevel q cid => Sys2Proof.Machine.execHostPinLevel q cid s
  | .hostPinPulse q cid => Sys2Proof.Machine.execHostPinPulse q cid s
  | .hostStrobeStart q cid => Sys2Proof.Machine.execHostStrobeStart q cid s
  | .hostStrobeStop q cid => Sys2Proof.Machine.execHostStrobeStop q cid s
  | .reflexConfig q cid p => Sys2Proof.Machine.execReflexConfig q cid p s
  | .netConfig q cid p => Sys2Proof.Machine.execNetConfig q cid p s
  | .setWayMasks q cid => Sys2Proof.Machine.execSetWayMasks q cid s
  | .setColdTier q cid base size => Sys2Proof.Machine.execSetColdTier q cid base size s
  | .setCensus q cid => Sys2Proof.Machine.execSetCensus q cid s
  | .journalRead q cid => Sys2Proof.Machine.execJournalRead q cid s
  | .stage q cid => Sys2Proof.Machine.execStage q cid s
  | .switch q cid => Sys2Proof.Machine.execSwitch q cid s
  | .updateResume => Sys2Proof.Machine.execUpdateResume s
  | .updateRevert => Sys2Proof.Machine.execUpdateRevert s
  | .commit q cid => Sys2Proof.Machine.execCommit q cid s
  | .ledgerClear q cid => Sys2Proof.Machine.execLedgerClear q cid s
  | .ledgerSizes q cid => Sys2Proof.Machine.execLedgerSizes q cid s
  | .islandReset q cid => Sys2Proof.Machine.execIslandReset q cid s
  | .linkTrainingComplete link passed width => Sys2Proof.Machine.execLinkTrainingComplete link passed width s
  | .linkSignalLoss link => Sys2Proof.Machine.execLinkSignalLoss link s
  | .flitReceive link flit fecOk stamp => Sys2Proof.Machine.execFlitReceive link flit fecOk stamp s
  | .flitSlot link => Sys2Proof.Machine.execFlitSlot link s
  | .ackTimer link => Sys2Proof.Machine.execAckTimer link s
  | .nakHoldoffExpiry link => Sys2Proof.Machine.execNakHoldoffExpiry link s
  | .replayTimeout link => Sys2Proof.Machine.execReplayTimeout link s
  | .timeReqPeriod => Sys2Proof.Machine.execTimeReqPeriod s
  | .timeReq link => Sys2Proof.Machine.execTimeReq link s
  | .timeResp link => Sys2Proof.Machine.execTimeResp link s
  | .epochAck src pkgid status prompts => Sys2Proof.Machine.execEpochAck src pkgid status prompts s
  | .epochPropose pkgid epoch chips => Sys2Proof.Machine.execEpochPropose pkgid epoch chips s
  | .epochTimeout => Sys2Proof.Machine.execEpochTimeout s
  | .commitPeriod => Sys2Proof.Machine.execCommitPeriod s
  | .commitMessage src entries => Sys2Proof.Machine.execCommitMessage src entries s
  | .peerStatePeriod => Sys2Proof.Machine.execPeerStatePeriod s
  | .peerState src members updating links => Sys2Proof.Machine.execPeerState src members updating links s
  | .peerLossTimeout chip => Sys2Proof.Machine.execPeerLossTimeout chip s
  | .gallery src srcStream stream ended trackId stamp box gid tag embedding => Sys2Proof.Machine.execGallery src srcStream stream ended trackId stamp box gid tag embedding s
  | .relay src dst channel message => Sys2Proof.Machine.execRelay src dst channel message s
  | .relayRefuse src dst type mnum => Sys2Proof.Machine.execRelayRefuse src dst type mnum s
  | .relayRetry dst => Sys2Proof.Machine.execRelayRetry dst s
  | .pwrfail asserted lowNs => Sys2Proof.Machine.execPwrfail asserted lowNs s
  | .maingoodFall => Sys2Proof.Machine.execMaingoodFall s
  | .lastBreathEnd => Sys2Proof.Machine.execLastBreathEnd s
  | .boot facts => Sys2Proof.Machine.execBoot facts s
  | .avsAdjust target ack => Sys2Proof.Machine.execAvsAdjust target ack s
  | .junctionHot island tj => Sys2Proof.Machine.execJunctionHot island tj s
  | .thermalTrip island tj => Sys2Proof.Machine.execThermalTrip island tj s
  | .timerefLoss stoppedNs => Sys2Proof.Machine.execTimerefLoss stoppedNs s
  | .unitGate island => Sys2Proof.Machine.execUnitGate island s
  | .smbReadTj => Sys2Proof.Machine.execSmbReadTj s
  | .smbReadTjIsland => Sys2Proof.Machine.execSmbReadTjIsland s
  | .smbReadStatus => Sys2Proof.Machine.execSmbReadStatus s
  | .smbReadBootstep => Sys2Proof.Machine.execSmbReadBootstep s
  | .smbReadStepping => Sys2Proof.Machine.execSmbReadStepping s
  | .smbAlertResponse => Sys2Proof.Machine.execSmbAlertResponse s
  | .smbAlertRepeat => Sys2Proof.Machine.execSmbAlertRepeat s
  | .bypass => Sys2Proof.Machine.execBypass s
  | .idcode => Sys2Proof.Machine.execIdcode s
  | .samplePreload cells => Sys2Proof.Machine.execSamplePreload cells s
  | .extest => Sys2Proof.Machine.execExtest s
  | .tapReset => Sys2Proof.Machine.execTapReset s
  | .timerefReturn => Sys2Proof.Machine.execTimerefReturn s
  | .linkSignalReturn link => Sys2Proof.Machine.execLinkSignalReturn link s
  | .alwaysOnDomainLoss => Sys2Proof.Machine.execAlwaysOnDomainLoss s
  | .alwaysOnPowerUp => Sys2Proof.Machine.execAlwaysOnPowerUp s
  | .interleavedRtpSegment stream p => Sys2Proof.Machine.execInterleavedRtpSegment stream p s
  | .smbUnlistedCommand code => Sys2Proof.Machine.execSmbUnlistedCommand code s
  | .perstNDeassert => Sys2Proof.Machine.execPerstNDeassert s

end Sys2Proof.Machine
end

