-- ==== Sys2Proof/Safety.lean ====
section
/-! DEFINITION. What counts as a safe state: the words in which claims are made. `Sound` is the invariant of the block: the
units that R15 counts, memories in their canonical form, and no queue, ring or rate beyond the bound that its rule gives. -/

namespace Sys2Proof.Machine

/-- The rate correction stays within ±200 ppm (R31, R48). -/
structure BandSound (b : Band) : Prop where
  low : -fullRate ≤ b.rate
  high : b.rate ≤ fullRate

/-- The cue and reflex queues of a pin hold at most 16 cues, its timestamp queue at most 64 stamps (R41, R44). -/
structure PinSound (x : Pin) : Prop where
  cues : x.cues.length ≤ 16
  reflex : x.reflex.length ≤ 16
  stamps : x.stamps.length ≤ 64

/-- The cue queue of a lane holds at most 16 cues (R41). -/
def LaneSound (x : Lane) : Prop := x.cues.length ≤ 16

/-- The 16 pins of R15. -/
structure PinsSound (l : List Pin) : Prop where
  count : l.length = 16
  each : ∀ x ∈ l, PinSound x

/-- The 56 lanes, 64 claim counters, 32 length registers and 64 batch ids of R15. -/
structure ScoreSound (c : Score) : Prop where
  lanes : c.lanes.length = 56
  each : ∀ x ∈ c.lanes, LaneSound x
  claims : c.claims.length = 64
  lens : c.lens.length = 32
  batches : c.batches.length = 64

/-- Device and host memory are in canonical form: addresses strictly rising and no byte 0; 16 DRAM channels. -/
structure MemSound (m : Mem) : Prop where
  bytes : memWf m.bytes = true
  host : memWf m.host = true
  chans : m.chans.length = 16

/-- The lock block is sound (R346 to R349): a held lock is not BROKEN, and a free lock has owner id 0. -/
def lockSound (x : Lock) : Bool := if x.held then !x.broken else x.owner == 0

/-- 256 locks, each sound. -/
structure LocksSound (l : List Lock) : Prop where
  count : l.length = 256
  each : ∀ x ∈ l, lockSound x = true

/-- The error log never holds more than its 1,024 entries (R364, R367, R400). -/
structure LogSound (e : ErrLog) : Prop where
  tail : e.tail < 2 ^ 32
  used : logUsed e ≤ 1024

/-- Four submission rings, 64 delivery rings and 64 UDP destinations; at most 256 commands in progress (R405) and 64 pending
notices (R423). -/
structure MbxSound (m : Mailbox) : Prop where
  sq : m.sq.length = 4
  rings : m.rings.length = 64
  udp : m.udp.length = 64
  inProgress : m.cmds.length + m.ended.length ≤ 256
  notices : m.notices.length ≤ 64

/-- A table lists its keys strictly rising, so that equal tables are equal lists. -/
def TabRising {α : Type} (t : Tab α) : Prop := t.Pairwise fun a b => a.1 < b.1

/-- 64 MSI-X vectors (R376); the stored registers and configuration dwords each listed once. -/
structure GateSound (g : Gate) : Prop where
  msix : g.msix.length = 64
  regs : TabRising g.regs
  cfg : TabRising g.cfg

/-- The invariant that every step keeps. -/
structure Sound (s : State) : Prop where
  band : BandSound s.band
  islands : s.islands.length = 61
  pins : PinsSound s.pins
  reflexes : s.reflexes.length = 16
  score : ScoreSound s.score
  orangeries : s.orangeries.length = 16
  mem : MemSound s.mem
  prompts : s.aviary.prompts.length = 64
  eth : s.eth.length = 2
  sensors : s.sensors.length = 4
  fountains : s.fountains.length = 4
  topiaries : s.topiaries.length = 4
  clips : s.clips.length = 32
  streams : s.streams.length = 128
  pools : s.pools.length = 8
  locks : LocksSound s.locks
  err : LogSound s.err
  gate : GateSound s.gate
  mbx : MbxSound s.mbx
  links : s.trellis.links.length = 5

/-- The parts of the state, in which frames are stated. -/
inductive Part where
  /-- The model's own cycles of an idle step. -/
  | idleCycles
  /-- The serial number of the next free value. -/
  | freeCount
  /-- What has left the package. -/
  | out
  /-- The Bandstand. -/
  | band
  /-- The islands. -/
  | islands
  /-- The cue pins. -/
  | pins
  /-- The reflex rules. -/
  | reflexes
  /-- The score, its lanes, tokens, claims and batches. -/
  | score
  /-- The Orangeries. -/
  | orangeries
  /-- Device memory: its bytes, the poison marks of its SRAM words and their ECC. -/
  | bytes
  /-- Host memory. -/
  | host
  /-- Deferred faults, cache, TLB, DRAM channels and host reads. -/
  | mem
  /-- Aviary sequences, pages and prompts. -/
  | aviary
  /-- The Ethernet ports. -/
  | eth
  /-- The sensor ports. -/
  | sensors
  /-- The Fountains. -/
  | fountains
  /-- The Topiaries. -/
  | topiaries
  /-- The clip sessions. -/
  | clips
  /-- The streams. -/
  | streams
  /-- The resident package. -/
  | pkg
  /-- The load in progress. -/
  | load
  /-- The decoded sample cache. -/
  | samples
  /-- Training jobs. -/
  | training
  /-- The Jasper pools. -/
  | pools
  /-- The census switches. -/
  | census
  /-- The hardware locks. -/
  | locks
  /-- The error log. -/
  | err
  /-- Partial resets. -/
  | fences
  /-- The stored BAR0 registers. -/
  | regs
  /-- The rest of the Gatehouse. -/
  | gate
  /-- The mailboxes. -/
  | mbx
  /-- The metadata journal. -/
  | journal
  /-- The Trellis links and relays. -/
  | trellis
  /-- Power, boot, ledger and flash. -/
  | power
  deriving DecidableEq, Repr

/-- Memory system `m` with the device memory of `k`: its bytes, marks and ECC. -/
abbrev withDevice (m k : Mem) : Mem := { m with bytes := k.bytes, sramPoison := k.sramPoison, ue := k.ue, sbe := k.sbe }

/-- A part of `t` holds what it holds in `s`. -/
def Part.unchanged (q : Part) (s t : State) : Prop :=
  match q with
  | .idleCycles => t.idleCycles = s.idleCycles
  | .freeCount => t.freeCount = s.freeCount
  | .out => t.out = s.out
  | .band => t.band = s.band
  | .islands => t.islands = s.islands
  | .pins => t.pins = s.pins
  | .reflexes => t.reflexes = s.reflexes
  | .score => t.score = s.score
  | .orangeries => t.orangeries = s.orangeries
  | .bytes => t.mem.bytes = s.mem.bytes ∧ t.mem.sramPoison = s.mem.sramPoison ∧ t.mem.ue = s.mem.ue ∧ t.mem.sbe = s.mem.sbe
  | .host => t.mem.host = s.mem.host
  | .mem => { withDevice t.mem s.mem with host := s.mem.host } = s.mem
  | .aviary => t.aviary = s.aviary
  | .eth => t.eth = s.eth
  | .sensors => t.sensors = s.sensors
  | .fountains => t.fountains = s.fountains
  | .topiaries => t.topiaries = s.topiaries
  | .clips => t.clips = s.clips
  | .streams => t.streams = s.streams
  | .pkg => t.pkg = s.pkg
  | .load => t.load = s.load
  | .samples => t.samples = s.samples
  | .training => t.trainPending = s.trainPending ∧ t.trainRunning = s.trainRunning
  | .pools => t.pools = s.pools
  | .census => t.censusOn = s.censusOn ∧ t.censusRepair = s.censusRepair
  | .locks => t.locks = s.locks
  | .err => t.err = s.err
  | .fences => t.fenced = s.fenced ∧ t.resetQueue = s.resetQueue
  | .regs => t.gate.regs = s.gate.regs
  | .gate => { t.gate with regs := s.gate.regs } = s.gate
  | .mbx => t.mbx = s.mbx
  | .journal => t.journal = s.journal
  | .trellis => t.trellis = s.trellis
  | .power => t.power = s.power

/-- The row of the command set that a host command runs: its submission ring, its tag and what R414 checks for it. -/
def hostRow : Instr → Option (Nat × Nat × CmdRow)
  | .cmdNop q cid => some (q, cid, bareRow 0x00 0)
  | .identify q cid => some (q, cid, { bareRow 0x01 0 with resultSize := fun _ _ => 256 })
  | .hello q cid => some (q, cid, bareRow 0x02 0)
  | .packageLoad q cid _ => some (q, cid, { bareRow 0x10 0 with resultSize := fun _ _ => 776, block := true, minPlen := 0x80 })
  | .streamOpen q cid _ => some (q, cid, { streamRow 0x20 0 with block := true, minPlen := 0x48 })
  | .streamClose q cid => some (q, cid, streamRow 0x21 0)
  | .setDecodeMode q cid => some (q, cid, streamRow 0x22 1)
  | .setAnalyseConcealed q cid => some (q, cid, streamRow 0x22 2)
  | .setCaptureSet q cid _ => some (q, cid, { streamRow 0x22 3 with block := true, minPlen := 1 })
  | .liftQuarantine q cid => some (q, cid, streamRow 0x22 4)
  | .setLinks q cid => some (q, cid, { streamRow 0x22 5 with block := true, minPlen := 32 })
  | .setAdaptationMode q cid => some (q, cid, streamRow 0x22 6)
  | .streamStats q cid => some (q, cid, { streamRow 0x23 0 with resultSize := fun _ _ => 128 })
  | .frameSubmit q cid => some (q, cid, { streamRow 0x24 0 with block := true, minPlen := 16 })
  | .subscribe q cid => some (q, cid, { bareRow 0x30 0 with block := true, minPlen := 0x38 })
  | .unsubscribe q cid => some (q, cid, unsubRow)
  | .promptSet q cid => some (q, cid, { bareRow 0x38 0 with indexOk := fun _ c => decide (arg c 0 1 < 64), block := true })
  | .promptBind q cid => some (q, cid, { streamRow 0x39 0 with indexOk := boundIndex })
  | .contextSet q cid => some (q, cid, { streamRow 0x3A 0 with indexOk := boundIndex, block := true })
  | .clipRequest q cid => some (q, cid, { bareRow 0x40 0 with block := true, minPlen := 0x50, resultSize := fun _ _ => 24 })
  | .clipCancel q cid => some (q, cid, bareRow 0x41 0)
  | .adaptAdopt q cid => some (q, cid, streamRow 0x48 0)
  | .timeConfig q cid _ => some (q, cid, bareRow 0x50 0)
  | .timeSet q cid => some (q, cid, bareRow 0x51 0)
  | .pinConfig q cid _ => some (q, cid, bareRow 0x52 0)
  | .hostPinLevel q cid => some (q, cid, bareRow 0x53 0)
  | .hostPinPulse q cid => some (q, cid, bareRow 0x53 1)
  | .hostStrobeStart q cid => some (q, cid, bareRow 0x53 2)
  | .hostStrobeStop q cid => some (q, cid, bareRow 0x53 3)
  | .reflexConfig q cid _ => some (q, cid, bareRow 0x54 0)
  | .netConfig q cid _ => some (q, cid, { bareRow 0x58 0 with indexOk := fun _ c => decide (arg c 0 1 < 2) })
  | .setWayMasks q cid => some (q, cid, bareRow 0x60 1)
  | .setColdTier q cid _ _ => some (q, cid, bareRow 0x60 2)
  | .setCensus q cid => some (q, cid, bareRow 0x60 3)
  | .journalRead q cid =>
      some (q, cid, { bareRow 0x69 0 with indexOk := fun _ c => decide (arg c 0 1 < 128 ∨ arg c 0 1 = 0xFF) })
  | .stage q cid => some (q, cid, { bareRow 0x70 1 with block := true, minPlen := 1 })
  | .switch q cid => some (q, cid, { bareRow 0x70 2 with block := false, minPlen := 0 })
  | .commit q cid => some (q, cid, { bareRow 0x70 3 with block := false, minPlen := 0 })
  | .ledgerClear q cid => some (q, cid, { bareRow 0x70 4 with block := false, minPlen := 0 })
  | .ledgerSizes q cid => some (q, cid, { bareRow 0x70 5 with block := true, minPlen := 0x150 })
  | .islandReset q cid =>
      some (q, cid, { bareRow 0x71 0 with indexOk := fun _ c => decide (3 ≤ arg c 0 1 ∧ arg c 0 1 ≤ 60) })
  | _ => none

/-- Host command `c` is the one in progress that ring `q`, tag `cid` and row `r` take, and it may start (R412, R415). -/
structure Taken (q cid : Nat) (r : CmdRow) (c : HostCmd) (s : State) : Prop where
  ring : q < 4
  tag : cid < 65536
  found : (s.mbx.cmds.find? fun c => c.q == q && c.cid == cid && !c.started) = some c
  opc : c.opc = r.opc
  sub : subCode c = r.sub
  may : mayStart s c = true
  runs : quinbuarRuns s = true

/-- Command `i` takes host command `c`, which passes checks 1 to 6 of R414. -/
structure Accepts (i : Instr) (c : HostCmd) (s : State) : Prop where
  taken : ∃ q cid r, hostRow i = some (q, cid, r) ∧ Taken q cid r c s ∧ checkCommand s r c = 0

/-- All parts but some. -/
def allBut (l : List Part) : List Part :=
  [.idleCycles, .freeCount, .out, .band, .islands, .pins, .reflexes, .score, .orangeries, .bytes, .host, .mem, .aviary, .eth,
    .sensors, .fountains, .topiaries, .clips, .streams, .pkg, .load, .samples, .training, .pools, .census, .locks, .err,
    .fences, .regs, .gate, .mbx, .journal, .trellis, .power].filter fun q => !l.contains q

/-- The parts that a command may change. Of every command of the table: what it does not list here, it leaves alone in every
state. A command that may log an error may write the log's ring in device memory, the error record and a vector; one that
may complete at the host may write host memory. -/
def touches (c : Instr) : List Part :=
  match c with
  | .smbReadTj | .smbReadTjIsland | .smbReadStatus | .smbReadBootstep | .smbReadStepping | .smbUnlistedCommand _ =>
      [.out]
  | .oscPeriodMeasured _ | .oscChangeover => [.band]
  | .beaconMiss _ | .unitGate _ => [.islands]
  | .reflexHoldoffEnd _ => [.reflexes]
  | .scoreStart => [.score]
  | .beRequestPromote _ | .dramTempPoll _ | .wckTrack _ | .tlbInvalidate _ _ => [.mem]
  | .frameRelease _ | .commitMessage _ _ | .gallery _ _ _ _ _ _ _ _ _ _ => [.streams]
  | .trainingJobStart => [.training]
  | .keylockExpiry _ => [.gate]
  | .cmdNop _ _ | .hello _ _ | .subscribe _ _ | .unsubscribe _ _ => [.mbx]
  | .ackTimer _ | .nakHoldoffExpiry _ | .timeReqPeriod | .peerState _ _ _ _ | .relayRefuse _ _ _ _ => [.trellis]
  | .smbAlertRepeat | .alwaysOnPowerUp => [.power]
  | .pulseEnd _ | .strobePeriod _ => [.out, .pins]
  | .slowPathPacket _ _ => [.out, .eth]
  | .rtspKeepalive _ | .reconnect _ | .multicastReport _ | .rtcpReport _ => [.out, .streams]
  | .msixEnable _ _ => [.out, .gate]
  | .smbAlertResponse => [.out, .power]
  | .timeConfig _ _ _ => [.band, .mbx]
  | .heldCueRelease _ => [.pins, .score]
  | .reflexConfig _ _ _ => [.reflexes, .mbx]
  | .setWayMasks _ _ => [.mem, .mbx]
  | .setDecodeMode _ _ | .setAnalyseConcealed _ _ | .liftQuarantine _ _ | .setAdaptationMode _ _ | .adaptAdopt _ _ =>
      [.streams, .mbx]
  | .setCensus _ _ => [.census, .mbx]
  | .commit _ _ | .ledgerClear _ _ | .ledgerSizes _ _ => [.out, .mbx, .power]
  | .switch _ _ => [.score, .mbx, .power]
  | .promptSet _ _ => [.mem, .aviary, .mbx]
  | .setCaptureSet _ _ _ => [.sensors, .streams, .mbx]
  | .perstNDeassert => [.freeCount, .regs, .gate, .power]
  | .disciplineLoss | .timePllLock => [.out, .band, .regs, .gate]
  | .errorReport _ _ _ _ _ _ _ _ | .coalesceFlush _ _ | .vectorUnmask _ | .keylockWrite _ _ | .timNsRead _ |
    .errTailWrite _ => [.out, .bytes, .err, .gate]
  | .setLinks _ _ | .promptBind _ _ => [.mem, .aviary, .streams, .mbx]
  | .ptpMessage _ _ | .ppsInEdge _ => [.out, .band, .regs, .gate, .power]
  | .dramEcsPoll _ | .hostReadIssue _ _ | .completionTimeout _ | .powerStateChange _ =>
      [.out, .bytes, .mem, .err, .gate]
  | .lockAcquire _ _ | .lockRelease _ _ => [.out, .bytes, .locks, .err, .gate]
  | .linkSignalLoss _ | .flitSlot _ | .replayTimeout _ | .timeReq _ | .commitPeriod | .peerStatePeriod |
    .relayRetry _ => [.out, .bytes, .err, .gate, .trellis]
  | .avsAdjust _ _ => [.out, .bytes, .err, .gate, .power]
  | .timSnap => [.freeCount, .out, .bytes, .err, .regs, .gate]
  | .beacon _ => [.out, .band, .islands, .bytes, .err, .gate]
  | .timeSet _ _ => [.out, .band, .regs, .gate, .mbx, .power]
  | .linkSignalReturn _ => [.out, .islands, .bytes, .err, .gate, .trellis]
  | .cueIssue _ => [.out, .pins, .score, .bytes, .err, .gate]
  | .pwrfail _ _ => [.out, .pins, .score, .regs, .gate, .power]
  | .identify _ _ | .streamStats _ _ | .journalRead _ _ => [.out, .bytes, .host, .err, .gate, .mbx]
  | .hostReadCompletion _ _ _ => [.out, .bytes, .mem, .err, .regs, .gate]
  | .cacheAccess _ _ _ _ _ | .scrub _ _ => [.out, .bytes, .mem, .err, .gate, .power]
  | .cqDoorbell _ | .drDoorbell _ _ | .ringEnable _ => [.out, .bytes, .err, .regs, .gate, .mbx]
  | .aonSupplySwitch _ _ | .junctionHot _ _ => [.out, .bytes, .err, .regs, .gate, .power]
  | .stage _ _ => [.out, .bytes, .err, .gate, .mbx, .power]
  | .linkTrainingComplete _ _ _ => [.out, .bytes, .err, .gate, .trellis, .power]
  | .sqDoorbell _ _ => [.freeCount, .out, .bytes, .err, .regs, .gate, .mbx]
  | .pinEdge _ _ _ => [.out, .pins, .reflexes, .score, .bytes, .err, .gate]
  | .timerefLoss _ => [.out, .pins, .score, .bytes, .err, .gate, .power]
  | .epochTimeout => [.out, .bytes, .host, .load, .err, .gate, .mbx]
  | .commandComplete | .notice => [.out, .bytes, .host, .err, .regs, .gate, .mbx]
  | .alloc _ _ _ _ _ | .reserveAllocResume _ | .retain _ | .release _ | .releaseChain _ | .censusPass _ =>
      [.out, .bytes, .mem, .pools, .err, .gate, .power]
  | .commandFetch => [.out, .bytes, .mem, .err, .gate, .mbx, .power]
  | .hostPinLevel _ _ | .hostPinPulse _ _ | .hostStrobeStart _ _ | .hostStrobeStop _ _ =>
      [.freeCount, .out, .pins, .score, .bytes, .err, .gate, .mbx]
  | .pcieError _ => [.freeCount, .out, .bytes, .mem, .err, .regs, .gate, .power]
  | .stepApply => [.out, .band, .pins, .score, .streams, .regs, .gate, .power]
  | .timeResp _ => [.out, .band, .bytes, .err, .regs, .gate, .trellis, .power]
  | .scoreWordIssue => [.out, .pins, .score, .bytes, .mem, .err, .gate, .power]
  | .thermalTrip _ _ => [.out, .pins, .score, .bytes, .err, .regs, .gate, .power]
  | .setColdTier _ _ _ _ => [.out, .bytes, .mem, .aviary, .err, .gate, .mbx, .power]
  | .dphySyncLoss _ => [.out, .bytes, .mem, .streams, .pools, .err, .gate, .power]
  | .refreshInterval _ | .refreshIssue _ => [.freeCount, .out, .islands, .bytes, .mem, .err, .gate, .trellis, .power]
  | .apertureAccess _ _ _ => [.freeCount, .out, .bytes, .mem, .aviary, .err, .regs, .gate, .power]
  | .gateWatchdog _ => [.out, .score, .bytes, .streams, .training, .locks, .err, .gate, .mbx]
  | .scoreRestart => [.out, .score, .bytes, .streams, .training, .err, .gate, .mbx, .power]
  | .pageSpill | .pageSpillComplete _ _ => [.out, .bytes, .host, .mem, .aviary, .pools, .err, .gate, .power]
  | .peerLossTimeout _ => [.out, .bytes, .host, .streams, .load, .err, .gate, .mbx, .trellis]
  | .frameEndPacket _ _ _ => [.out, .bytes, .mem, .sensors, .streams, .pools, .err, .gate, .power]
  | .topiaryTake _ => [.out, .bytes, .mem, .topiaries, .streams, .pools, .err, .gate, .power]
  | .reorderWindowExpiry _ => [.out, .bytes, .mem, .clips, .streams, .pools, .err, .gate, .power]
  | .clipRequest _ _ => [.out, .bytes, .mem, .clips, .pools, .err, .gate, .mbx, .power]
  | .demandFill _ | .pageFillComplete _ _ =>
      [.freeCount, .out, .bytes, .host, .mem, .aviary, .pools, .err, .gate, .power]
  | .slotGrant _ => [.out, .score, .bytes, .mem, .topiaries, .streams, .pools, .err, .gate, .power]
  | .tokenSet | .tokenAdd => [.out, .score, .bytes, .mem, .streams, .training, .locks, .err, .gate, .mbx]
  | .trainingJobComplete => [.out, .score, .bytes, .mem, .streams, .training, .err, .gate, .mbx, .power]
  | .linePacket _ _ _ _ _ _ _ => [.out, .bytes, .mem, .sensors, .clips, .streams, .pools, .err, .gate, .power]
  | .frameStartPacket _ _ _ _ => [.out, .bytes, .mem, .sensors, .streams, .pools, .err, .gate, .mbx, .power]
  | .frameSubmit _ _ => [.out, .bytes, .mem, .clips, .streams, .pools, .err, .gate, .mbx, .power]
  | .promptEncoded _ => [.freeCount, .out, .bytes, .host, .mem, .aviary, .pools, .err, .gate, .mbx, .power]
  | .pictureDecodeComplete _ =>
      [.freeCount, .out, .bytes, .mem, .fountains, .clips, .streams, .pools, .err, .gate, .power]
  | .netConfig _ _ _ => [.out, .islands, .bytes, .host, .eth, .streams, .err, .regs, .gate, .mbx, .journal]
  | .pinNotice => [.out, .pins, .bytes, .host, .eth, .streams, .err, .regs, .gate, .mbx, .journal]
  | .clipPictureEncode _ _ _ _ _ | .clipCancel _ _ =>
      [.out, .bytes, .host, .mem, .fountains, .clips, .pools, .err, .gate, .mbx, .power]
  | .pictureDecodeStart _ _ => [.out, .bytes, .mem, .fountains, .clips, .streams, .pools, .err, .gate, .mbx, .power]
  | .contextSet _ _ => [.freeCount, .out, .bytes, .host, .mem, .aviary, .streams, .pools, .err, .gate, .mbx, .power]
  | .fountainWatchdog _ =>
      [.out, .bytes, .host, .mem, .fountains, .clips, .streams, .pools, .err, .gate, .mbx, .power]
  | .pinConfig _ _ _ =>
      [.out, .pins, .score, .bytes, .host, .mem, .aviary, .streams, .training, .err, .gate, .mbx, .power]
  | .claimOpen | .bell | .jump | .halt | .digest | .trace | .opComplete _ =>
      [.out, .score, .bytes, .host, .mem, .aviary, .streams, .training, .locks, .err, .gate, .mbx, .power]
  | .slotWriteComplete _ =>
      [.out, .score, .bytes, .mem, .topiaries, .streams, .training, .pools, .locks, .err, .gate, .mbx, .power]
  | .cueTakeEffect _ =>
      [.out, .band, .pins, .score, .bytes, .host, .mem, .aviary, .streams, .training, .err, .gate, .mbx, .power]
  | .streamOpen _ _ _ =>
      [.out, .islands, .bytes, .mem, .aviary, .eth, .sensors, .streams, .pools, .err, .gate, .mbx, .trellis, .power]
  | .branchFill | .pinLevel | .pinPulse | .strobeStart | .strobeStop =>
      [.out, .pins, .score, .bytes, .host, .mem, .aviary, .streams, .training, .locks, .err, .gate, .mbx, .power]
  | .reflexArm =>
      [.out, .reflexes, .score, .bytes, .host, .mem, .aviary, .streams, .training, .locks, .err, .gate, .mbx,
      .power]
  | .rtpPacket _ | .interleavedRtpSegment _ _ =>
      [.out, .bytes, .host, .mem, .eth, .clips, .streams, .pools, .err, .regs, .gate, .mbx, .journal, .power]
  | .dramRequest _ _ =>
      [.freeCount, .out, .islands, .score, .bytes, .mem, .aviary, .streams, .training, .locks, .err, .gate, .mbx,
      .trellis, .power]
  | .nop _ | .claim _ | .lut4 _ | .eltwise _ | .pool _ | .boxdec _ | .nms _ | .softmax _ | .argmax _ | .copy _ |
    .fetchAhead _ | .pageFetch _ | .steer _ | .gather | .assoc | .update | .append | .alist =>
      [.freeCount, .out, .score, .bytes, .host, .mem, .aviary, .streams, .training, .pools, .locks, .err, .gate,
      .mbx, .power]
  | .streamClose _ _ =>
      [.out, .bytes, .mem, .aviary, .eth, .clips, .streams, .samples, .training, .pools, .err, .gate, .mbx,
      .trellis, .power]
  | .tile _ | .claimFetch _ =>
      [.freeCount, .out, .score, .orangeries, .bytes, .host, .mem, .aviary, .streams, .training, .pools, .locks,
      .err, .gate, .mbx, .power]
  | .recordForm _ =>
      [.freeCount, .out, .score, .bytes, .host, .mem, .aviary, .streams, .samples, .training, .pools, .err, .gate,
      .mbx, .trellis, .power]
  | .rtspResponse _ _ | .recordEmit _ =>
      [.out, .bytes, .host, .mem, .aviary, .eth, .clips, .streams, .samples, .training, .pools, .err, .regs, .gate,
      .mbx, .journal, .trellis, .power]
  | .sourceLost _ _ =>
      [.out, .band, .bytes, .host, .mem, .aviary, .eth, .clips, .streams, .samples, .training, .pools, .err, .regs,
      .gate, .mbx, .journal, .trellis, .power]
  | .configRequest _ _ _ _ | .hotReset | .flr =>
      [.out, .bytes, .host, .mem, .aviary, .eth, .fountains, .clips, .streams, .samples, .training, .pools, .locks,
      .err, .regs, .gate, .mbx, .trellis, .power]
  | .packageLoad _ _ _ | .flitReceive _ _ _ _ | .epochAck _ _ _ _ | .epochPropose _ _ _ | .relay _ _ _ _ =>
      [.freeCount, .out, .score, .bytes, .host, .mem, .aviary, .eth, .topiaries, .clips, .streams, .pkg, .load,
      .samples, .training, .pools, .err, .gate, .mbx, .journal, .trellis, .power]
  | .partialReset _ _ | .islandReset _ _ =>
      [.freeCount, .out, .islands, .score, .orangeries, .bytes, .host, .mem, .aviary, .eth, .fountains, .topiaries,
      .clips, .streams, .training, .pools, .locks, .err, .fences, .gate, .mbx, .trellis, .power]
  | .updateResume | .updateRevert =>
      [.freeCount, .out, .band, .islands, .score, .orangeries, .bytes, .host, .mem, .aviary, .eth, .fountains,
      .topiaries, .clips, .streams, .training, .pools, .locks, .err, .fences, .gate, .mbx, .trellis, .power]
  | .parityFault _ _ _ =>
      [.freeCount, .out, .islands, .pins, .score, .orangeries, .bytes, .host, .mem, .aviary, .eth, .fountains,
      .topiaries, .clips, .streams, .training, .pools, .locks, .err, .fences, .gate, .mbx, .trellis, .power]
  | .scoreHalted =>
      [.freeCount, .out, .score, .bytes, .host, .mem, .aviary, .eth, .fountains, .topiaries, .clips, .streams,
      .pkg, .load, .samples, .training, .pools, .locks, .err, .gate, .mbx, .journal, .trellis, .power]
  | .islandUnfence _ =>
      [.freeCount, .out, .islands, .score, .orangeries, .bytes, .host, .mem, .aviary, .eth, .fountains, .topiaries,
      .clips, .streams, .samples, .training, .pools, .locks, .err, .fences, .regs, .gate, .mbx, .journal, .trellis,
      .power]
  | .registerWrite _ _ _ | .islandResetGo _ | .deviceResetGo _ | .diagWindowAccess _ _ _ | .fundamentalReset |
    .maingoodFall | .lastBreathEnd | .boot _ | .bypass | .idcode | .samplePreload _ | .extest | .tapReset |
    .timerefReturn | .alwaysOnDomainLoss => allBut []

/-- The oldest op of a lane may start under an opcode and does its own work: its gate is satisfied, its lane and its unit serve, its
batch is not torn down (R66, R82, R87, R363, R370). -/
structure Starts (k opc : Nat) (o : IssuedOp) (s : State) : Prop where
  may : startable s k opc = some o
  serves : idleLane s k = false
  whole : isTorn s o.ctx = false
  island : laneFenced s k = false
  sound : laneSafe s k = false

/-- An op of the sequencer's lanes, of no torn-down batch, that does not signal ends while no closed batch waits for its last op; the
sequencer's island is not fenced and its unit not in its safe state (R87, R363, R370). -/
structure Silent (o : IssuedOp) (s : State) : Prop where
  sig : opSig o.word = false
  whole : isTorn s o.ctx = false
  batches : ∀ x ∈ s.score.batches, x.closed = []
  island : islandFenced s 39 = false
  sound : unitSafe s 39 24 = false

/-- The instant of the last completed op is now (R70). -/
def opDone (s : State) : State := { s with score := { s.score with lastDone := nowNs s } }

/-- The Gatehouse serves the host's BAR requests: its link is up, it is in D0 with Memory Space set, and island 2 is not fenced
(R377, R379, R395). -/
structure BarServes (s : State) : Prop where
  link : s.gate.linkUp = true
  d0 : s.gate.d3hot = false
  space : memSpace s = true
  island : islandFenced s 2 = false

/-- A command completes in a state: it answers a next state. -/
def completes (c : Instr) (s : State) : Prop := ∃ t, exec c s = .next t

end Sys2Proof.Machine
end

