-- ==== Sys2Proof/Laws/HostCommands.lean ====
section
/-! SUPPORT. What a row of the command set does with the host command that it takes: the checks of R414 first, then the row's
own work; and what ending a command changes. -/

namespace Sys2Proof.Machine

/-- A host command that R414 accepts does the row's work on the state in which it has started. -/
theorem runCommand_accepted {q cid : Nat} {r : CmdRow} {c : HostCmd} {work : HostCmd → State → State} {s : State}
    (h : Taken q cid r c s) (k : checkCommand s r c = 0) :
    runCommand q cid r work s = .next (work c (startCmd c s)) := by
  simp [runCommand, inRange, h.ring, h.tag, h.found, h.opc, h.sub, h.may, h.runs, k, done]

/-- A host command that fails a check of R414 ends with its status and does nothing else. -/
theorem runCommand_refused {q cid : Nat} {r : CmdRow} {c : HostCmd} {work : HostCmd → State → State} {s : State}
    (h : Taken q cid r c s) (k : checkCommand s r c ≠ 0) :
    runCommand q cid r work s = .next (finishCmd q cid (checkCommand s r c) 0 false s) := by
  simp [runCommand, inRange, h.ring, h.tag, h.found, h.opc, h.sub, h.may, h.runs, k, done]

/-- The same on an open stream. -/
theorem streamCommand_accepted {q cid : Nat} {r : CmdRow} {c : HostCmd} {work : HostCmd → Nat → Stream → State → State}
    {s : State} {x : Stream} (h : Taken q cid r c s) (k : checkCommand s r c = 0) (o : stream? s (arg c 0 1) = some x) :
    streamCommand q cid r work s = .next (work c (arg c 0 1) x (startCmd c s)) := by
  unfold streamCommand
  rw [runCommand_accepted h k]
  have e : stream? (startCmd c s) (arg c 0 1) = some x := o
  simp only [e]

/-- `Accepts` with the row of the command in place. -/
theorem Accepts.of {i : Instr} {c : HostCmd} {s : State} {q cid : Nat} {r : CmdRow} (h : Accepts i c s)
    (e : hostRow i = some (q, cid, r)) : Taken q cid r c s ∧ checkCommand s r c = 0 := by
  obtain ⟨q', cid', r', e', t, k⟩ := h.taken
  rw [e] at e'
  cases e'
  exact ⟨t, k⟩

/-- The cells of a run of bytes, put one by one, are the run written at its address. -/
theorem foldl_cells (a : Nat) (bs : List Byte) (mark : Bool) (m : Memory) :
    (cellsAt a bs mark).foldl (fun b c => memPut c.addr c.val b) m = memWrite a bs m := by
  suffices h : ∀ k, (bs.zipIdx k).foldl (fun m x => memPut (a + x.2) x.1 m) m = memWrite (a + k) bs m by
    unfold cellsAt
    rw [List.foldl_map]
    exact h 0
  induction bs generalizing m with
  | nil => intro k; rfl
  | cons b bs ih => intro k; exact ih _ (k + 1)

theorem cellsAt_unmarked (a : Nat) (bs : List Byte) : (cellsAt a bs false).any (·.mark) = false := by
  unfold cellsAt
  induction bs.zipIdx with
  | nil => rfl
  | cons x l ih => simpa using ih

/-- No TLP of unmarked cells carries EP. -/
theorem emitEp_unmarked {m : Nat} {cs : List Cell} (h : cs.any (·.mark) = false) (s : State) :
    (writeTlps m cs).foldl (fun s t => emitEp t s) s = s := by
  have k : ∀ l ∈ writeTlps m cs, l.any (·.mark) = false := by
    intro l hl
    obtain ⟨i, -, rfl⟩ := List.mem_map.mp hl
    rw [List.any_eq_false] at h ⊢
    exact fun x hx => h x (List.mem_of_mem_filter hx)
  generalize writeTlps m cs = ls at k ⊢
  induction ls with
  | nil => rfl
  | cons l ls ih =>
    rw [List.foldl_cons]
    have e : emitEp l s = s := by unfold emitEp; rw [k l (List.mem_cons_self ..)]; rfl
    rw [e]
    exact ih fun x hx => k x (List.mem_cons_of_mem _ hx)

/-- A write to host memory, where requests may leave, changes the bytes at its address and nothing else. -/
theorem hostWrite_eq {a : Nat} {bs : List Byte} {s : State} (h : canAsk s = true) :
    hostWrite a bs s = { s with mem := { s.mem with host := memWrite a bs s.mem.host } } := by
  unfold hostWrite writeHost
  cases bs with
  | nil => rfl
  | cons b bs =>
    rw [if_neg (by simp [cellsAt]), if_neg (by simp [h]), emitEp_unmarked (cellsAt_unmarked ..)]
    simp only [updMem, foldl_cells]

end Sys2Proof.Machine
end

