-- ==== Sys2Proof/Certificates/Slice0/Obligations.lean ====
section
/-! DEFINITION. The statements for the provers, from the rules of spec/: what each command does and leaves alone, and the invariant
that every step keeps. -/

set_option Elab.async false

open Sys2Proof Sys2Proof.Machine

/-- BEACON (R34, R35): what it does to each island, and what it leaves. The unit of the rate word is DESIGN CHOICE, log 157; an island that
a BEACON_MISS names misses the next beacon, log 196. -/
def Obligations.BeaconAlignsReplicas : Prop :=
  ∀ (drift : List Int) (s : State), beaconDue s = true →
    let word : BitVec 16 := BitVec.ofInt 16 (s.band.rate * 2 ^ 24 / (1000000000 * 2 ^ 32))
    let at_ := nowNs s / 1000 * 1000
    let gray : BitVec 64 := BitVec.ofNat 64 at_ ^^^ (BitVec.ofNat 64 at_ >>> 1)
    ∃ t, exec (.beacon drift) s = .next t
      ∧ t = { s with
          band := { s.band with lastBeacon := at_, beaconCount := gray, beaconRate := word }
          islands := t.islands, err := t.err
          mem := withDevice s.mem t.mem
          gate := { s.gate with pba := t.gate.pba, inta := t.gate.inta }, out := t.out }
      ∧ ∀ n x, n < 61 → s.islands[n]? = some x →
          let e := x.replicaErr - x.slew + drift.getD n 0
          t.islands[n]? = some (
            if x.gated then x
            else if x.skips then { x with skips := false }
            else if 16 < e.natAbs then
              { x with replicaErr := 0, slew := 0, rateWord := word, ready := false, agree := 0, missed := 0 }
            else if e.natAbs ≤ 4 then
              { x with replicaErr := e, slew := e, rateWord := word, agree := x.agree + 1, missed := 0,
                       ready := x.ready || decide (2 ≤ x.agree + 1)
                       waking := x.waking && !(x.ready || decide (2 ≤ x.agree + 1)) }
            else { x with replicaErr := e, slew := e, rateWord := word, agree := 0, missed := 0 })

/-- BEACON_MISS (R35), OSC_PERIOD_MEASURED, OSC_CHANGEOVER and TIME_PLL_LOCK (R56), DISCIPLINE_LOSS (R47, R48). -/
def Obligations.TimeEventsActOnTheBandstand : Prop :=
  (∀ (n : Nat) (s : State), n < 61 → s.power.running = true →
    exec (.beaconMiss n) s = .next { s with
      islands := upd s.islands n fun x => { x with
        replicaErr := x.replicaErr - x.slew, slew := 0, skips := true
        missed := x.missed + 1, agree := 0, ready := x.ready && decide (x.missed + 1 < 4) } })
  ∧ (∀ (period : Nat) (s : State), s.band.onPll = true → s.power.timeref = true → s.power.running = true →
      exec (.oscPeriodMeasured period) s = .next { s with band := { s.band with oscPeriod := period } })
  ∧ (∀ s : State, s.band.onPll = true → s.power.maingood = false ∨ s.power.timeref = false →
      exec .oscChangeover s = .next { s with
        band := { s.band with errBase := errEstimate s, errFrom := nowNs s, onPll := false } })
  ∧ (∀ s : State, s.band.onPll = false → s.power.maingood = true → s.power.timeref = true →
      let t : State := { s with band := { s.band with
        errBase := errEstimate s, errFrom := nowNs s, onPll := true, source := .none, lockRun := 0, badRun := 0 } }
      (s.band.tstate ≠ .free → exec .timePllLock s = .next (enterState .holdover t))
      ∧ (s.band.tstate = .free → exec .timePllLock s = .next t))
  ∧ (∀ s : State, (s.band.tstate = .free → errEstimate s = none)
      ∧ (∀ e, s.band.tstate ≠ .free → s.band.onPll = false → s.band.errBase = some e →
          errEstimate s = some (e + (nowNs s - s.band.errFrom) * 50000 / 1000000000)))
  ∧ (∀ (src : TimeSource) (n : Nat) (s : State), (src, n) = (.ppsIn, 1500000000) ∨ (src, n) = (.trellis, 4000000) →
      s.band.source = src → s.band.tstate = .acquire ∨ s.band.tstate = .locked → timeFrozen s = false →
      s.band.lastSample + n ≤ s.band.steady →
      exec .disciplineLoss s = .next (enterState .holdover { s with
        band := { s.band with
          errBase := errEstimate s, errFrom := nowNs s, source := .none, lockRun := 0, badRun := 0 } }))
  ∧ (∀ (x : TimeState) (s : State), (enterState x s).band = { s.band with tstate := x }
      ∧ (s.band.tstate = x → enterState x s = s)
      ∧ (s.band.tstate ≠ x → (reg (enterState x s) 0x200024).getLsbD 1 = true))

/-- PPS_IN_EDGE and the servo (R48 to R50): θ and integ in 2^-16 ns, the rate in 2^-32 ppb. The nearer second of a stamp half a
second from two is DESIGN CHOICE, log 159. -/
def Obligations.ServoDisciplinesTheRate : Prop :=
  ∀ (stamp : Nat) (s : State), s.power.running = true → pinsTaken s = false → s.band.secondsKnown = true →
    timeFrozen s = false → s.band.order.contains .ppsIn = true → s.band.source = .ppsIn →
    s.band.tstate = .acquire ∨ s.band.tstate = .locked →
    let off : Int := if stamp % 1000000000 ≤ 500000000 then (stamp % 1000000000 : Nat)
      else (stamp % 1000000000 : Nat) - 1000000000
    let theta := off * 65536
    let integ := s.band.integ + theta
    let run := if off.natAbs < 50 then s.band.lockRun + 1 else 0
    let bad := if 10000 < off.natAbs then s.band.badRun + 1 else 0
    ∃ t, exec (.ppsInEdge stamp) s = .next t
      ∧ t.band.lastTheta = theta ∧ t.band.lastSample = s.band.steady ∧ t.band.source = .ppsIn
      ∧ (s.band.tstate = .acquire → 1000 < off.natAbs →
          t = requestStep (-theta) { s with band := { s.band with
            lastTheta := theta, lastSample := s.band.steady, integ := 0, lockRun := 0 } })
      ∧ (s.band.tstate = .locked ∨ off.natAbs ≤ 1000 →
          t.band.integ = integ
          ∧ t.band.rate = clamp (-(200000 * 2 ^ 32)) (200000 * 2 ^ 32) (-((theta * 16 + integ) * 65536 / 64))
          ∧ (t.band.tstate = .locked ↔ (8 ≤ run ∨ s.band.tstate = .locked) ∧ bad < 4))

/-- STEP_APPLY (R51). That the replicas move with the count is DESIGN CHOICE, log 198; what keeps its instant beside host
cues, log 160; what is at a beat boundary, DEDUCED, log 161. -/
def Obligations.StepMovesScoreAndReflexCues : Prop :=
  ∀ (d : Int) (s : State), s.band.pendingStep = some d → timeFrozen s = false → atBeat s.band = true →
    let n := d / 65536
    let moved (c : QueuedCue) : QueuedCue := if c.cue.source = .host then c else
      { cue := { c.cue with instant := (c.cue.instant + n).toNat }, issued := (c.issued + n).toNat, ready := c.ready }
    (anyStream s = true → s.band.stepsInService = false →
      exec .stepApply s = .next { s with band := { s.band with pendingStep := none, slewLeft := d * 65536 } })
    ∧ (anyStream s = false ∨ s.band.stepsInService = true → ∃ t, exec .stepApply s = .next t
      ∧ t = { s with
          band := { s.band with
            count := (s.band.count + d * 65536).toNat % 2 ^ 96, pendingStep := none, slewLeft := 0
            lastBeacon := (s.band.lastBeacon + n).toNat, errFrom := (s.band.errFrom + n).toNat }
          pins := t.pins, streams := t.streams, gate := t.gate, out := t.out
          score := { s.score with epoch := (s.score.epoch + n).toNat, cycles := [], lanes := t.score.lanes, batches := t.score.batches }
          power := { s.power with update := { s.power.update with haltedAt := (s.power.update.haltedAt + n).toNat } } }
      ∧ (∀ (k : Nat) (x : Lane), s.score.lanes[k]? = some x → ∃ y, t.score.lanes[k]? = some y
          ∧ y.cues.length = x.cues.length ∧ ∀ c, c ∈ y.cues ↔ ∃ b ∈ x.cues, c = moved b)
      ∧ (∀ (k : Nat) (x : Pin), s.pins[k]? = some x → ∃ y, t.pins[k]? = some y
          ∧ y.cues.length = x.cues.length ∧ (∀ c, c ∈ y.cues ↔ ∃ b ∈ x.cues, c = moved b)
          ∧ y.reflex = x.reflex.map moved ∧ y.base = x.base ∧ y.pulseEnd = x.pulseEnd ∧ y.stamps = x.stamps
          ∧ y.lastEdge = x.lastEdge.map fun e => (e + n).toNat)
      ∧ (∀ (b : Nat) (x : BatchId), s.score.batches[b]? = some x → t.score.batches[b]? = some { x with
          lastBell := x.lastBell.map fun e => (e + n).toNat
          closed := x.closed.map fun y => { y with bellAt := y.bellAt.map fun e => (e + n).toNat } })
      ∧ (∀ (k : Nat) (x : Stream), stream? s k = some x → ∃ y, stream? t k = some y
          ∧ y.nextEvents = x.nextEvents ++ [{ kind := 0x0010, status := 0, data := leBytes 8 (unsigned 64 n) }])
      ∧ (reg t 0x200024).getLsbD 0 = true)

/-- PTP_MESSAGE (R197): `takeSample` hands an offset to the servo by R47 and R48. The port that runs and the moment of the request
are DEDUCED, the interval that a Sync carries and when an Announce counts PRESUMED, log 158. -/
def Obligations.PtpExchangesGiveOffsets : Prop :=
  ∀ (port : Nat) (h : PtpHeader) (s : State), port < 2 → s.power.running = true → unitFenced s 3 port = false → asleep s 3 = false →
    h.domain = s.band.ptpDomain → h.transport = s.band.ptpTransport → ∀ p, s.band.ptp[port]? = some p →
    let put (f : PtpPort → PtpPort) (t : State) : State := { t with band := { t.band with ptp := upd t.band.ptp port f } }
    let interval (n : Int) : State := if 0 ≤ n ∧ n ≤ 7 then { s with band := { s.band with syncLog := n.toNat } } else s
    let asks (t : State) : State := { put (fun p =>
        { p with haveSync := true, asked := some p.nextReq, t3 := none, nextReq := (p.nextReq + 1) % 65536 }) t with
      out := t.out ++ [.ptpDelayReq port p.nextReq] }
    let others := p.foreign.filter fun f => f.1 != h.sender && decide (steadyNs s ≤ f.2 + 8000000000)
    let noted := others ++ [(h.sender, steadyNs s)]
    (∀ d, (∀ f ∈ p.foreign, f.1 ≠ h.sender) → exec (.ptpMessage port ⟨h, .announce d⟩) s = .next (put (fun p => { p with foreign := noted }) s))
    ∧ (∀ d f, p.master = none → f ∈ p.foreign → f.1 = h.sender → steadyNs s ≤ f.2 + 8000000000 → slice d 14 2 ≠ [0x00, 0xFF] →
      exec (.ptpMessage port ⟨h, .announce d⟩) s = .next (put (fun p => { PtpPort.reset with
        master := some (d, h.sender), nextReq := p.nextReq, heard := steadyNs s, foreign := noted }) s))
    ∧ (∀ seq stamp, p.asked = some seq → exec (.ptpMessage port ⟨h, .delayReqSent seq stamp⟩) s = .next
        (put (fun p => { p with asked := none, t3 := some (seq, stamp + portLatency s port * 65536) }) s))
    ∧ (∀ d, p.master = some (d, h.sender) → ptpRuns s port = true →
      (∀ seq n origin corr stamp, exec (.ptpMessage port ⟨h, .sync seq false n origin corr stamp⟩) s = .next (asks (put (fun p =>
        { p with syncSeq := none, t1 := origin + corr, t2 := stamp - portLatency s port * 65536, haveSync := false }) (interval n))))
      ∧ (∀ seq n origin corr stamp, exec (.ptpMessage port ⟨h, .sync seq true n origin corr stamp⟩) s = .next (put (fun p =>
        { p with syncSeq := some seq, t1 := corr, t2 := stamp - portLatency s port * 65536, haveSync := false }) (interval n)))
      ∧ (∀ seq origin corr, p.syncSeq = some seq → exec (.ptpMessage port ⟨h, .followUp seq origin corr⟩) s = .next (asks (put (fun p =>
        { p with syncSeq := none, t1 := p.t1 + origin + corr }) s)))
      ∧ (∀ seq received corr t3, p.t3 = some (seq, t3) → p.haveSync = true →
        exec (.ptpMessage port ⟨h, .delayResp seq received corr⟩) s = .next
          (takeSample (if port = 0 then .ptp0 else .ptp1) (((p.t2 - p.t1) - (received - corr - t3)) / 2)
            (put (fun p => { p with t3 := none, haveSync := false }) s))))

/-- CUE_ISSUE and HELD_CUE_RELEASE (R38, R41, R43). -/
def Obligations.CuesWaitAtTheirTargets : Prop :=
  (∀ (now : Nat) (r : Bool) (c : Cue) (q : List QueuedCue), enqueue now r c q =
    q.takeWhile (fun b => decide (b.cue.instant ≤ c.instant)) ++ [{ cue := c, issued := now, ready := r }]
      ++ q.dropWhile (fun b => decide (b.cue.instant ≤ c.instant)))
  ∧ (∀ (k : Nat) (c : Cue) (s : State), k < 56 → c.target = .lane k → c.source = .score →
      exec (.cueIssue c) s = .next { s with score := { s.score with lanes := upd s.score.lanes k fun x =>
        if x.cues.length < 16 ∧ x.held = [] then { x with cues := enqueue (nowNs s) (targetReady (.lane k) s) c x.cues }
        else { x with held := x.held ++ [c] } } })
  ∧ (∀ (k : Nat) (x : Lane) (c : Cue) (s : State), k < 56 → c.target = .lane k → c.source = .host →
      s.score.lanes[k]? = some x → x.cues.length < 16 →
      exec (.cueIssue c) s = .next { s with score := { s.score with lanes := upd s.score.lanes k fun x =>
        { x with cues := enqueue (nowNs s) (targetReady (.lane k) s) c x.cues } } })
  ∧ (∀ (n : Nat) (x : Pin) (c : Cue) (s : State), n < 16 → c.target = .pin n → s.pins[n]? = some x →
      (x.mode = .disabled ∨ x.mode = .input →
        exec (.cueIssue c) s = .next { s with pins := upd s.pins n fun x => { x with misdirected := x.misdirected + 1 } })
      ∧ (x.mode = .output ∨ x.mode = .strobe → c.source = .host → x.cues.length < 16 →
        exec (.cueIssue c) s = .next { s with pins := upd s.pins n fun x => { x with cues := enqueue (nowNs s) (targetReady (.pin n) s) c x.cues } })
      ∧ (x.mode = .output ∨ x.mode = .strobe → c.source = .reflex → x.reflex.length < 16 →
        exec (.cueIssue c) s = .next { s with pins := upd s.pins n fun x => { x with reflex := enqueue (nowNs s) (targetReady (.pin n) s) c x.reflex } })
      ∧ (x.mode = .output ∨ x.mode = .strobe → c.source = .reflex → 16 ≤ x.reflex.length →
        exec (.cueIssue c) s = .next (logErr 0x0023 0 n
          { s with pins := upd s.pins n fun x => { x with missedCues := x.missedCues + 1 } } { arg0 := c.instant })))
  ∧ (∀ (n : Nat) (x : Pin) (c : Cue) (rest : List Cue) (s : State), n < 16 → s.pins[n]? = some x → x.held = c :: rest →
      x.cues.length < 16 →
      exec (.heldCueRelease (.pin n)) s = .next { s with
        pins := s.pins.set n { x with cues := enqueue (nowNs s) (targetReady (.pin n) s) c x.cues, held := rest }
        score := { s.score with lanes := upd s.score.lanes 54 fun l => { l with
          running := l.running.map fun r => { r with finished := true } } } })
  ∧ (∀ (k : Nat) (x : Lane) (c : Cue) (rest : List Cue) (s : State), k < 56 → s.score.lanes[k]? = some x →
      x.held = c :: rest → x.cues.length < 16 →
      exec (.heldCueRelease (.lane k)) s = .next { s with score := { s.score with lanes := s.score.lanes.set k { x with
        cues := enqueue (nowNs s) (targetReady (.lane k) s) c x.cues, held := rest } } })

/-- CUE_TAKE_EFFECT (R36, R38, R40, R43): a batch whose last pin cue has taken effect may end (`finishBatches`).
PULSE_END (R43), STROBE_PERIOD (R42). What a second strobe start does is DESIGN CHOICE, log 162; a late rise of PPS_OUT, log 163. -/
def Obligations.CuesTakeEffectInOrder : Prop :=
  (∀ (x : Pin) (c : QueuedCue), nextPinCue x = some c → c ∈ x.reflex ++ x.cues ∧ ∀ b ∈ x.reflex ++ x.cues,
    c.cue.instant < b.cue.instant ∨ (c.cue.instant = b.cue.instant ∧ sourceRank c.cue.source ≤ sourceRank b.cue.source))
  ∧ (∀ (n : Nat) (x : Pin) (c : QueuedCue) (s : State), n < 16 → s.pins[n]? = some x → nextPinCue x = some c →
      s.power.running = true → (c.cue.instant : Int) ≤ replicaNow (.pin n) s →
      let late := cueLate c (nowNs s)
      let start := if late then nowNs s else c.cue.instant
      let y := dropPinCue c x
      let z := if late then { y with lateCues := y.lateCues + 1 } else y
      ∃ t p, exec (.cueTakeEffect (.pin n)) s = .next (finishBatches t) ∧ t = { s with pins := s.pins.set n p, out := t.out, score := t.score }
        ∧ (late = false ∨ c.cue.ctx = none ∨ c.cue.counted = true → t.score = s.score)
        ∧ (∀ b i, late = true → c.cue.lateLimit = 0 → c.cue.counted = false → c.cue.ctx = some (b, i) →
            t.score = (updBatch b i (fun y => { y with lateStarts := y.lateStarts + 1 }) s).score)
        ∧ (late = true ∧ c.cue.lateLimit ≠ 0 ∧ c.cue.lateLimit < nowNs s - c.cue.instant →
            p = { y with missedCues := y.missedCues + 1 })
        ∧ (¬ (late = true ∧ c.cue.lateLimit ≠ 0 ∧ c.cue.lateLimit < nowNs s - c.cue.instant) →
            (∀ on, c.cue.action = .level on → p = { z with base := on })
            ∧ (∀ w, c.cue.action = .pulse w → p = { z with pulseEnd := some (max (z.pulseEnd.getD 0) (start + w)) })
            ∧ (c.cue.action = .strobeStop → p = { z with train := none })
            ∧ (c.cue.action = .strobeStart → 8 ≤ z.par.width → z.par.width + 8 ≤ z.par.period → z.par.count = 0 →
                p = { z with
                  pulseEnd := some (max (z.pulseEnd.getD 0) (start + z.par.width))
                  train := some (start + z.par.period, none) })))
  ∧ (∀ (k : Nat) (x : Lane) (c : QueuedCue) (rest : List QueuedCue) (w : BitVec 64) (b : Nat) (ctx : Option (Nat × Nat))
      (s : State), k < 56 → s.score.lanes[k]? = some x → x.cues = c :: rest → c.cue.action = .slotOp w b ctx →
      s.power.running = true → (c.cue.instant : Int) ≤ replicaNow (.lane k) s →
      let late := cueLate c (nowNs s)
      exec (.cueTakeEffect (.lane k)) s = .next (finishBatches { s with score := { s.score with lanes := s.score.lanes.set k { x with
        cues := rest
        lateCues := if late then x.lateCues + 1 else x.lateCues
        due := x.due ++ [{ word := w, beat := b, instant := c.cue.instant, since := s.band.steady, ctx := ctx, late := late }] } } }))
  ∧ (∀ (c : QueuedCue) (now : Nat), cueLate c now = true ↔ c.ready = false
      ∨ (c.cue.source ≠ .reflex ∧ (c.cue.instant < c.issued + 160 ∨ c.cue.instant + 4 < now)))
  ∧ (∀ (t : CueTarget) (x : Island) (s : State), s.islands[cueIsland t]? = some x → replicaNow t s = nowNs s + x.replicaErr)
  ∧ (∀ s : State, s.power.running = true → s.band.ppsNext ≤ nowNs s →
      let late := decide (s.band.ppsNext + 4 < nowNs s)
      let start := if late then nowNs s else s.band.ppsNext
      exec (.cueTakeEffect .ppsOut) s = .next { s with
        out := s.out ++ (if pinsTaken s then [] else [.ppsOut (!s.band.ppsOut)])
        band := { s.band with
          ppsOut := !s.band.ppsOut, ppsLate := if late then s.band.ppsLate + 1 else s.band.ppsLate
          ppsNext := if s.band.ppsOut then (start / 1000000000 + 1) * 1000000000 else start + s.band.ppsOutWidth } })
  ∧ (∀ (n e : Nat) (x : Pin) (s : State), n < 16 → s.pins[n]? = some x → x.pulseEnd = some e → e ≤ nowNs s →
      ∃ t, exec (.pulseEnd n) s = .next t
        ∧ t = { s with pins := s.pins.set n { x with pulseEnd := none }, out := t.out })
  ∧ (∀ (n e k : Nat) (x : Pin) (s : State), n < 16 → s.pins[n]? = some x → x.train = some (e, some k) → e ≤ nowNs s →
      ∃ t, exec (.strobePeriod n) s = .next t
        ∧ t = { s with out := t.out, pins := s.pins.set n { x with
            pulseEnd := some (max (x.pulseEnd.getD 0) (e + x.par.width))
            train := if k ≤ 1 then none else some (e + x.par.period, some (k - 1)) } })

/-- PIN_EDGE (R44, R45) and REFLEX_HOLDOFF_END (R45). That an edge without room for its stamp triggers is DESIGN CHOICE, log 164. -/
def Obligations.InputEdgesAreStamped : Prop :=
  (∀ (pin : Nat) (x : Pin) (rising : Bool) (stamp : Nat) (s : State),
    s.pins[pin]? = some x → x.mode = .input → s.power.running = true → pinsTaken s = false →
    (x.par.edge = .both ∨ (x.par.edge = .rising ∧ rising = true) ∨ (x.par.edge = .falling ∧ rising = false)) →
    (∀ e, x.lastEdge = some e → e + 8 ≤ stamp) → stamp + x.par.filter ≤ nowNs s + 4 → nowNs s ≤ stamp + x.par.filter + 28 →
    s.reflexes.length = 16 →
    let reacts (r : Reflex) : Prop := r.par.armed = true ∧ r.par.source = pin ∧ edgeMatches r.par.edge rising = true
    let y : Pin := if x.stamps.length < 64
      then { x with stamps := x.stamps ++ [(rising, stamp)], lastEdge := some stamp, firstHeld := x.firstHeld.or (some stamp) }
      else { x with overflow := x.overflow + 1, lastEdge := some stamp }
    let u := { s with pins := s.pins.set pin y }
    ((∀ r ∈ s.reflexes, ¬ reacts r) → exec (.pinEdge pin rising stamp) s = .next u)
    ∧ ∀ (k : Nat) (r : Reflex), s.reflexes[k]? = some r → reacts r →
        (∀ j q, j ≠ k → s.reflexes[j]? = some q → ¬ reacts q) →
        ((∀ h, r.holdUntil = some h → h ≤ stamp) → exec (.pinEdge pin rising stamp) s = .next (issueCue
          { target := .pin r.par.target, source := .reflex, instant := stamp + 192 + x.par.filter + r.par.delay
            action := r.par.action, lateLimit := 0 }
          { u with reflexes := s.reflexes.set k { r with holdUntil := some (stamp + r.par.holdOff) } }))
        ∧ (∀ h, r.holdUntil = some h → stamp < h → exec (.pinEdge pin rising stamp) s = .next
            { u with reflexes := s.reflexes.set k { r with suppressed := r.suppressed + 1 } }))
  ∧ (∀ (k h : Nat) (r : Reflex) (s : State), s.reflexes[k]? = some r → r.holdUntil = some h → h ≤ nowNs s →
      exec (.reflexHoldoffEnd k) s = .next { s with reflexes := s.reflexes.set k { r with holdUntil := none } })

/-- The checks of R414 and the end of a command (R410). -/
def Obligations.HostCommandsAreCheckedFirst : Prop :=
  (∀ (i : Instr) (q cid : Nat) (r : CmdRow) (c : HostCmd) (s : State), hostRow i = some (q, cid, r) → Taken q cid r c s →
    checkCommand s r c ≠ 0 → exec i s = .next (finishCmd q cid (checkCommand s r c) 0 false s))
  ∧ (∀ (s : State) (r : CmdRow) (c : HostCmd),
      let known := c.poisoned = false ∧ knownOpc c.opc = true
      let fields := known ∧ c.reservedZero = true ∧ c.cid ≠ 0xFFFF ∧ knownSub c = true ∧ argsClear c = true
        ∧ (c.opc = 0x10 ∨ c.plen ≤ 65536)
      let session := fields ∧ (s.mbx.session.isSome = true ∨ c.opc < 3) ∧ (r.block = true → r.minPlen ≤ c.plen)
      (c.poisoned = true → checkCommand s r c = 0x0901)
      ∧ (c.poisoned = false → knownOpc c.opc = false → checkCommand s r c = 0x0001)
      ∧ (known → c.reservedZero = false ∨ c.cid = 0xFFFF → checkCommand s r c = 0x0002)
      ∧ (fields → s.mbx.session = none → 3 ≤ c.opc → checkCommand s r c = 0x0008)
      ∧ (session → r.indexOk s c = false → checkCommand s r c = 0x0009)
      ∧ (session → r.indexOk s c = true → c.rlen < r.resultSize s c → checkCommand s r c = 0x0004)
      ∧ (session → r.indexOk s c = true → r.resultSize s c ≤ c.rlen → r.block = true → hostFails s c.pbuf c.plen = true →
          checkCommand s r c = 0x0003))
  ∧ (∀ (q cid status result : Nat) (rbuf : Bool) (c : HostCmd) (s : State),
      (s.mbx.cmds.find? fun c => c.q == q && c.cid == cid) = some c →
      finishCmd q cid status result rbuf s = { s with mbx := { s.mbx with
        cmds := s.mbx.cmds.erase c, ended := s.mbx.ended ++ [{ c with done := some (status, result, rbuf) }] } })
  ∧ (∀ (q cid status result : Nat) (bs : List Byte) (c : HostCmd) (s : State),
      (s.mbx.cmds.find? fun c => c.q == q && c.cid == cid) = some c →
      ∃ t, finishBuf q cid status result bs s = { s with mbx := t }
        ∧ t.ended = s.mbx.ended ++ [{ c with buffer := bs, done := some (status, result, true) }]
        ∧ t.cmds.length + 1 = s.mbx.cmds.length)
  ∧ (∀ (i : Instr) (q cid : Nat) (c : HostCmd) (s : State),
      i ∈ [Instr.cmdNop q cid, .identify q cid, .hello q cid, .subscribe q cid, .unsubscribe q cid] → Accepts i c s →
      ∃ t e, exec i s = .next t ∧ t.mbx.ended = s.mbx.ended ++ [e] ∧ e.q = q ∧ e.cid = cid ∧ e.done.isSome = true)

/-- COMMAND_FETCH (R405, R406, R408), COMMAND_COMPLETE and NOTICE (R410, R413, R414, R423); what a completed SUBSCRIBE or UNSUBSCRIBE
changes (R424, R425). -/
def Obligations.CommandsAreFetchedAndCompleted : Prop :=
  (∀ (q : Nat) (r : SubRing) (s : State), q < 4 → s.mbx.sq[q]? = some r → r.running = true → r.head ≠ r.tail →
      (∀ j x, j < 4 → j ≠ q → s.mbx.sq[j]? = some x → x.running = false ∨ x.head = x.tail) →
      sqEnabled s q = true → inProgress s < 256 → 0 < cqFree s →
      quinbuarRuns s = true → s.power.update.switching = none → canSend s = true → outsideWords 1 (s.mem.ue ++ s.mem.sbe) = [] →
      let a := ringBase s (0x100020 + 8 * q) + 64 * (r.head % sqEntries s q)
      let head := (r.head + 1) % 65536
      let c := parseCommand q head (bellStamp r.bells r.head (nowNs s)) (hostFails s a 64) (memRead s.mem.host a 64)
      let bells := r.bells.filter fun b => let d := (b.1 + 65536 - head) % 65536; decide (1 ≤ d ∧ d ≤ 4096)
      let sq := s.mbx.sq.set q { r with head := head, bells := bells }
      (hostFails s a 64 = false → knownOpc c.opc = true → knownSub c = true →
        exec .commandFetch s = .next { s with mbx := { s.mbx with
          sq := sq, reserved := s.mbx.reserved + 1, cmds := s.mbx.cmds ++ [c] } })
      ∧ (hostFails s a 64 = true →
        exec .commandFetch s = .next (logErr 0x0901 2 0 { s with mbx := { s.mbx with
          sq := sq, reserved := s.mbx.reserved + 1, ended := s.mbx.ended ++ [{ c with done := some (0x0901, 0, false) }] } }
          { arg0 := a, poison := true })))
  ∧ (∀ s : State, quinbuarRuns s = true → canAsk s = true → cqEnabled s = true → sizeOk (cqSizeField s) = true → s.mbx.cqRunning = true →
      s.fenced = none →
      let n := s.mbx.cqTail
      let a := ringBase s 0x100040 + 16 * (n % cqEntries s)
      let phase := if n / cqEntries s % 2 = 0 then 1 else 0
      let kept (r : Nat) : List Retry := s.mbx.retries.filter fun x => x.request != r
      let put (host : Memory) (bs : List Byte) (m : Mailbox) : State := setCq { s with
        mem := { s.mem with host := memWrite a bs host }, mbx := { m with cqTail := (n + 1) % 65536 } }
      (∀ c rest st result rbuf, s.mbx.ended = c :: rest → c.done = some (st, result, rbuf) →
        exec .commandComplete s = .next (applySub c st (settleRing c.q (put
          (if rbuf then memWrite c.rbuf c.buffer s.mem.host else s.mem.host)
          (leBytes 8 result ++ leBytes 2 c.cid ++ leBytes 2 st ++ leBytes 2 c.sqHead ++ leBytes 1 c.q
            ++ leBytes 1 (phase + if rbuf then 4 else 0))
          { s.mbx with ended := rest, reserved := s.mbx.reserved - 1, retries := kept 0 }))))
      ∧ (∀ x rest, s.mbx.notices = x :: rest → s.mbx.noticesDropped = 0 → 0 < cqFree s →
        exec .notice s = .next (put s.mem.host
          (leBytes 8 x.result ++ leBytes 2 0xFFFF ++ leBytes 2 x.status ++ leBytes 2 x.stream ++ leBytes 1 0
            ++ leBytes 1 (phase + 2))
          { s.mbx with notices := rest, retries := kept 1 }))
      ∧ (0 < s.mbx.noticesDropped → 0 < cqFree s →
        exec .notice s = .next (put s.mem.host
          (leBytes 8 s.mbx.noticesDropped ++ leBytes 2 0xFFFF ++ leBytes 2 0x0911 ++ leBytes 2 0xFFFF ++ leBytes 1 0
            ++ leBytes 1 (phase + 2))
          { s.mbx with noticesDropped := 0, retries := kept 1 })))
  ∧ (∀ (c : HostCmd) (st : Nat) (s : State), st ≠ 0 ∨ (c.opc ≠ 0x30 ∧ c.opc ≠ 0x31) → applySub c st s = s)
  ∧ (∀ (c : HostCmd) (s : State), c.opc = 0x31 → arg c 0 1 = 0 →
      (applySub c 0 s).mbx = { s.mbx with rings := s.mbx.rings.set (arg c 1 1) none })
  ∧ (∀ (c : HostCmd) (s : State), c.opc = 0x31 → arg c 0 1 = 1 →
      (applySub c 0 s).mbx = { s.mbx with udp := s.mbx.udp.set (arg c 1 1) none })
  ∧ (∀ (c : HostCmd) (s : State), c.opc = 0x30 → ∀ b, b = c.block → let d := field b 1 1
      (field b 0 1 = 0 → s.mbx.rings.getD d none = none → (applySub c 0 s).mbx = { s.mbx with
        subCount := s.mbx.subCount + 1
        rings := s.mbx.rings.set d (some {
          types := field b 2 1, vector := field b 3 1, streams := field b 8 16, pins := field b 0x18 2, base := field b 0x20 8
          size := field b 0x28 1, statAddr := field b 0x30 8, tail := 0, headCount := 0, dropped := 0, born := s.mbx.subCount + 1 }) })
      ∧ (∀ o, field b 0 1 = 0 → s.mbx.rings.getD d none = some o → o.base = field b 0x20 8 → o.size = field b 0x28 1 →
          (applySub c 0 s).mbx = { s.mbx with rings := s.mbx.rings.set d (some {
            types := field b 2 1, vector := field b 3 1, streams := field b 8 16, pins := field b 0x18 2, base := o.base
            size := o.size, statAddr := field b 0x30 8, tail := o.tail, headCount := o.headCount, dropped := o.dropped, born := o.born }) })
      ∧ (field b 0 1 = 1 → s.mbx.udp.getD d none = none → (applySub c 0 s).mbx = { s.mbx with
          subCount := s.mbx.subCount + 1
          udp := s.mbx.udp.set d (some { udpOf b none with born := s.mbx.subCount + 1 }) }))

/-- CMD_NOP, HELLO (R417), IDENTIFY (R418), SUBSCRIBE and UNSUBSCRIBE (R424, R425). -/
def Obligations.SessionCommandsAnswerTheHost : Prop :=
  ∀ (q cid : Nat) (c : HostCmd) (s : State),
    let t := startCmd c s
    (Accepts (.cmdNop q cid) c s → exec (.cmdNop q cid) s = .next (okCmd c 0 t))
    ∧ (Accepts (.hello q cid) c s → arg c 0 2 = 1 →
        let u : State := { t with mbx := { t.mbx with session := some 0 } }
        exec (.hello q cid) s = .next (okCmd c (1 + 2 ^ 32 * features s) (if s.mbx.session = none then renotice u else u)))
    ∧ (Accepts (.hello q cid) c s → arg c 0 2 ≠ 1 → exec (.hello q cid) s = .next (endCmd c 0x0914 t))
    ∧ (Accepts (.identify q cid) c s → exec (.identify q cid) s = .next (bufCmd c 0 (identity t) t)
        ∧ (identity t).length = 256 ∧ slice (identity t) 0 4 = leBytes 4 1 ∧ slice (identity t) 8 2 = leBytes 2 0x0640
        ∧ slice (identity t) 0x20 1 = leBytes 1 s.trellis.chip ∧ slice (identity t) 0x21 1 = leBytes 1 s.trellis.chips
        ∧ slice (identity t) 0x24 4 = leBytes 4 (features s))
    ∧ (Accepts (.subscribe q cid) c s →
        let b := paramBlock t c
        let taken := okCmd c 0 (updCmd c.q c.cid (fun c => { c with block := b }) t)
        (subStatus t b ≠ 0 → exec (.subscribe q cid) s = .next (endCmd c (subStatus t b) t))
        ∧ (subStatus t b = 0 → exec (.subscribe q cid) s = .next taken)
        ∧ (field b 0 1 = 1 → field b 1 1 < 64 → 0x50 ≤ c.plen → field b 2 1 < 16 → field b 0x20 1 < 2 → 512 ≤ field b 0x26 2 →
            field b 0x26 2 ≤ 8972 → field b 0x24 1 < 64 → field b 0x21 1 = 4 ∨ field b 0x21 1 = 6 →
            field b 0x22 2 = 0xFFFF ∨ field b 0x22 2 < 4096 → s.mbx.rings.getD (field b 1 1) none = none →
            exec (.subscribe q cid) s = .next taken)
        ∧ (field b 0 1 = 0 → field b 1 1 < 64 → field b 2 1 < 16 → field b 3 1 < 64 → 10 ≤ field b 0x28 1 → field b 0x28 1 ≤ 15 →
        field b 0x20 8 % 4096 = 0 → field b 0x30 8 % 8 = 0 →
        s.mbx.rings.getD (field b 1 1) none = none → s.mbx.udp.getD (field b 1 1) none = none →
        exec (.subscribe q cid) s = .next taken))
    ∧ (Accepts (.unsubscribe q cid) c s → arg c 0 1 = 0 →
        ((s.mbx.rings.getD (arg c 1 1) none).isSome = true → exec (.unsubscribe q cid) s = .next (okCmd c 0 t))
        ∧ (s.mbx.rings.getD (arg c 1 1) none = none → exec (.unsubscribe q cid) s = .next (endCmd c 0x0913 t)))
    ∧ (Accepts (.unsubscribe q cid) c s → arg c 0 1 = 1 →
        ((s.mbx.udp.getD (arg c 1 1) none).isSome = true → exec (.unsubscribe q cid) s = .next (okCmd c 0 t))
        ∧ (s.mbx.udp.getD (arg c 1 1) none = none → exec (.unsubscribe q cid) s = .next (endCmd c 0x0913 t)))
    ∧ (Accepts (.unsubscribe q cid) c s → 1 < arg c 0 1 → exec (.unsubscribe q cid) s = .next (endCmd c 0x0913 t))
    ∧ (∀ r : CmdRow, hostRow (.unsubscribe q cid) = some (q, cid, r) → (r.indexOk s c = true ↔ arg c 1 1 < 64))

/-- TIME_CONFIG, TIME_SET (R47, R49), PIN_CONFIG (R42, R43), REFLEX_CONFIG (R45). -/
def Obligations.TimeAndPinCommandsConfigure : Prop :=
  ∀ (q cid : Nat) (c : HostCmd) (s : State),
    let t := startCmd c s
    (∀ p : TimeParams, Accepts (.timeConfig q cid p) c s → p.order.Nodup → .none ∉ p.order → 1000 ≤ p.ppsOutWidth →
      p.ppsOutWidth ≤ 500000000 → p.ptpDomain < 128 → p.ptpTransport < 3 → p.asym.length = 5 → s.band.tstate ≠ .holdover →
      exec (.timeConfig q cid p) s = .next (okCmd c 0 { t with band := { s.band with
        order := p.order, stepsInService := p.stepsInService, holdoverRate := p.holdoverRate, ppsOutWidth := p.ppsOutWidth
        ptpDomain := p.ptpDomain, ptpTransport := p.ptpTransport, asym := p.asym } }))
    ∧ (Accepts (.timeSet q cid) c s → s.band.tstate = .free → s.band.order.contains .hostSet = true → timeFrozen s = false →
        anyStream s = false →
        let theta : Int := (s.band.count / 65536 : Nat) - (arg c 0 8 * 65536 + arg c 8 2 : Nat)
        ∃ u, exec (.timeSet q cid) s = .next (okCmd c 0 u) ∧ u.band = { s.band with
          tstate := .acquire, source := .hostSet, secondsKnown := true, timeLost := false, integ := 0, lockRun := 0, badRun := 0
          lastTheta := theta, lastSample := s.band.steady, pendingStep := some (-theta), slewLeft := 0 })
    ∧ (∀ (p : PinParams) (x : Pin), Accepts (.pinConfig q cid p) c s →
        let n := arg c 0 1 % 16
        let m := match arg c 1 1 % 4 with | 0 => PinMode.disabled | 1 => .input | 2 => .output | _ => .strobe
        s.pins[n]? = some x → p.filter ≤ 1020 → p.filter % 4 = 0 → p.drive = 4 ∨ p.drive = 8 ∨ p.drive = 12 →
        (m = .strobe → 8 ≤ p.width ∧ p.width + 8 ≤ p.period ∧ p.count < 2 ^ 32) →
        ∃ u, exec (.pinConfig q cid p) s = .next (okCmd c 0 (finishBatches u)) ∧ u = { t with
          out := u.out
          score := if x.mode ≠ m ∧ x.held ≠ [] then { s.score with lanes := upd s.score.lanes 54 fun l => { l with
            running := l.running.map fun r => { r with finished := true } } } else s.score
          pins := s.pins.set n (if x.mode = m then { x with par := p, base := p.base }
           else { x with
             mode := m, par := p, base := p.base, pulseEnd := none, train := none, cues := [], held := [], reflex := []
             misdirected := x.misdirected + x.cues.length + x.held.length + x.reflex.length }) })
    ∧ (∀ p : ReflexParams, Accepts (.reflexConfig q cid p) c s → p.source < 16 → p.target < 16 → p.delay < 2 ^ 32 →
        p.holdOff < 2 ^ 32 → (∃ on, p.action = .level on) ∨ (∃ w, p.action = .pulse w) ∨ p.action = .strobeStart →
        exec (.reflexConfig q cid p) s = .next (okCmd c 0 { t with
          reflexes := upd s.reflexes (arg c 0 1 % 16) fun r => { r with par := p } }))

/-- PIN_CUE: base level, pulse, strobe start, strobe stop (R41, R43, R419; the level bit is DESIGN CHOICE, log 54; the armed
instant is a free value, log 4). -/
def Obligations.PinCuesFromTheHostAreIssued : Prop :=
  ∀ (q cid n : Nat) (x : Pin) (c : HostCmd) (s : State), n = arg c 0 1 % 16 → s.pins[n]? = some x →
    ∀ (i : Instr) (a : CueAction),
      (i, a) = (.hostPinLevel q cid, .level (arg c 16 8 % 2 == 1)) ∨ (i, a) = (.hostPinPulse q cid, .pulse (arg c 16 8))
        ∨ (i, a) = (.hostStrobeStart q cid, .strobeStart) ∨ (i, a) = (.hostStrobeStop q cid, .strobeStop) →
      Accepts i c s →
      let t := startCmd c s
      let cue : Cue := { target := .pin n, source := .host, instant := arg c 8 8, action := a, lateLimit := x.par.lateLimit }
      (x.mode = .output ∨ x.mode = .strobe → x.cues.length < 16 → ∃ armed, nowNs s ≤ armed ∧ armed ≤ nowNs s + 160
        ∧ exec i s = .next (okCmd c armed { t with
            freeCount := s.freeCount + 1, pins := upd s.pins n fun x => { x with cues := enqueue (nowNs s) (targetReady (.pin n) s) cue x.cues } }))
      ∧ (x.mode = .output ∨ x.mode = .strobe → 16 ≤ x.cues.length → exec i s = .next (endCmd c 0x0020 t))
      ∧ (x.mode = .disabled ∨ x.mode = .input → exec i s = .next (endCmd c 0x0022 { t with
          pins := upd s.pins n fun x => { x with misdirected := x.misdirected + 1 } }))

/-- SET_WAY_MASKS (R297), SET_COLD_TIER (R162), SET_CENSUS (R345), NET_CONFIG (R186), JOURNAL_READ (R439). -/
def Obligations.DeviceCommandsSetMemoryAndNetwork : Prop :=
  ∀ (q cid : Nat) (c : HostCmd) (s : State),
    let t := startCmd c s
    (Accepts (.setWayMasks q cid) c s → anyStream s = false →
      let l := [arg c 8 2, arg c 10 2, arg c 12 2]
      (∀ m ∈ l, m ≠ 0) → (∀ w, w < 16 → (l.filter fun m => bitAt m w).length ≤ 1) →
      exec (.setWayMasks q cid) s = .next (okCmd c 0 { t with mem := { s.mem with wayMasks := l } }))
    ∧ (∀ base size, Accepts (.setColdTier q cid base size) c s → base % 4096 = 0 → size ≤ 2 ^ 36 → coldInUse s = false →
        let u := match s.aviary.cold with | some (b, n) => unmapHost coldWindow b n t | none => t
        (size = 0 → exec (.setColdTier q cid base size) s = .next (okCmd c 0 { u with aviary := { u.aviary with cold := none } }))
        ∧ (size ≠ 0 → let v := mapHost coldWindow base size u
            exec (.setColdTier q cid base size) s = .next (okCmd c 0 { v with aviary := { v.aviary with cold := some (base, size) } })))
    ∧ (Accepts (.setCensus q cid) c s → exec (.setCensus q cid) s = .next (okCmd c 0 { t with
        censusOn := arg c 8 1 % 2 == 1, censusRepair := arg c 8 1 / 2 % 2 == 1 }))
    ∧ (∀ p : NetParams, Accepts (.netConfig q cid p) c s → (p.speed25 = true ∨ p.rsFec = false) →
        (p.ipv4 = [] ∨ (p.ipv4.length = 4 ∧ p.dhcp = false)) → p.ipv6.length ≤ 4 → (∀ a ∈ p.ipv6, a.length = 16) → p.mtu ≤ 9216 →
        (∀ v, p.vlan = some v → v < 4096) →
        exec (.netConfig q cid p) s = .next (okCmd c 0 (formHeld (flushAllUdp (wakeIsland 3 { t with
          out := s.out ++ (if p.dhcp then [.dhcpDiscover (arg c 0 1)] else [])
          eth := upd s.eth (arg c 0 1) fun e => { e with net := some p, lease := none, autoAddrs := [] } })))))
    ∧ (Accepts (.journalRead q cid) c s →
        let l := journalFrom (arg c 0 1) (arg c 8 8) (journalOf? s (arg c 0 1))
        (l = [] → exec (.journalRead q cid) s = .next (endCmd c 0x0915 t))
        ∧ (l ≠ [] →
          let k := packRecords (min (arg c 16 8) l.length) c.rlen l
          exec (.journalRead q cid) s = .next (bufCmd c k.length (k.map (·.bytes)).flatten t)))

/-- SET_DECODE_MODE (R222), SET_ANALYSE_CONCEALED (R228), LIFT_QUARANTINE (R293), SET_ADAPTATION_MODE, ADAPT_ADOPT (R269),
STREAM_STATS (R422). -/
def Obligations.StreamSettingsChangeTheirStream : Prop :=
  ∀ (q cid n : Nat) (c : HostCmd) (s : State), n = arg c 0 1 →
    let t := startCmd c s
    let set (f : Stream → Stream) : State := { t with streams := upd s.streams n fun o => o.map f }
    (∀ i ∈ [Instr.setDecodeMode q cid, .setAnalyseConcealed q cid, .liftQuarantine q cid, .setAdaptationMode q cid,
        .streamStats q cid, .adaptAdopt q cid], Accepts i c s → stream? s n = none → exec i s = .next (endCmd c 0x0005 t))
    ∧ ∀ x : Stream, stream? s n = some x →
      (Accepts (.setAnalyseConcealed q cid) c s → arg c 8 8 ≤ 1 →
        exec (.setAnalyseConcealed q cid) s = .next (okCmd c 0 (set fun x => { x with analyseConcealed := arg c 8 8 == 1 })))
      ∧ (Accepts (.setAdaptationMode q cid) c s → arg c 8 8 ≤ 1 →
        exec (.setAdaptationMode q cid) s = .next (okCmd c 0 (set fun x => { x with hold := arg c 8 8 == 1 })))
      ∧ (Accepts (.setDecodeMode q cid) c s → arg c 8 8 ≤ 3 →
        (x.cfg.source = 0 ∨ x.cfg.source = 1 ∨ x.cfg.source = 3 → exec (.setDecodeMode q cid) s = .next
          (set fun x => { x with modeChange := some (decodeMode (arg c 8 8), q, cid) }))
        ∧ (x.cfg.source = 2 ∨ x.cfg.source = 4 → exec (.setDecodeMode q cid) s = .next
          (okCmd c 0 (set fun x => { x with dec := { x.dec with mode := decodeMode (arg c 8 8) } }))))
      ∧ (Accepts (.liftQuarantine q cid) c s → exec (.liftQuarantine q cid) s = .next
          (okCmd c 0 (set fun x => { x with quarantined := false, faultRun := 0 })))
      ∧ (∀ k : Candidate, Accepts (.adaptAdopt q cid) c s → x.candidate = some k → c.stamp ≤ arg c 8 8 →
          k.digest.toNat = arg c 16 8 → exec (.adaptAdopt q cid) s = .next
            (okCmd c (x.adapter.version + x.adoptFrom.length + x.autoAdopt.length + 1)
              (set fun x => { x with candidate := none, adoptFrom := x.adoptFrom ++ [(arg c 8 8, k)] })))
      ∧ (Accepts (.streamStats q cid) c s → ∃ bs : List Byte, bs.length = 128
          ∧ slice bs 0 8 = leBytes 8 x.counts.served ∧ exec (.streamStats q cid) s = .next (bufCmd c 0 bs t))

/-- STREAM_OPEN (R277, R419, R420; how the RTSP command ends is DEDUCED, log 23) and STREAM_CLOSE (R415). -/
def Obligations.StreamsOpenAndClose : Prop :=
  (∀ (q cid n : Nat) (sec : SourceSection) (c : HostCmd) (s : State), n = arg c 0 1 →
    Accepts (.streamOpen q cid sec) c s → s.streams.length = 128 →
    let t := startCmd c s
    let bs := paramBlock t c
    let b := openBlock bs
    let x (cmd : Option (Nat × Nat)) := freshStream t b sec cmd
    ((stream? s n).isSome = true → exec (.streamOpen q cid sec) s = .next (endCmd c 0x0007 t))
    ∧ (stream? s n = none → openRanges bs b sec = false → exec (.streamOpen q cid sec) s = .next (endCmd c 0x0002 t))
    ∧ (openStatus t n bs sec ≠ 0 → exec (.streamOpen q cid sec) s = .next (endCmd c (openStatus t n bs sec) t))
    ∧ (openStatus t n bs sec = 0 → b.source ≠ 0 → ∃ u, exec (.streamOpen q cid sec) s = .next (okCmd c (openResult (x none)) u)
        ∧ (stream? u n).map (·.frames) = some [] ∧ (stream? u n).map (·.credit) = some (5 * b.period)
        ∧ (stream? u n).map (·.cfg) = some b ∧ (stream? u n).map openResult = some (openResult (x none))
        ∧ ((∀ f, sectionFlow sec = some f → isMulticast f.dst = false) → stream? u n = some (x none))
        ∧ ∀ m, m ≠ n → stream? u m = stream? s m)
    ∧ (openStatus t n bs sec = 0 → b.source = 0 → ∃ u, exec (.streamOpen q cid sec) s = .next u
        ∧ (stream? u n).map (·.rtsp.phase) = some .options ∧ (stream? u n).map (·.rtsp.openCmd) = some (some (q, cid))
        ∧ u.mbx = t.mbx ∧ (∃ y : RtspRequest, y.method = 0 ∧ .rtspRequest n y ∈ u.out) ∧ ∀ m, m ≠ n → stream? u m = stream? s m))
  ∧ (∀ (q cid n : Nat) (c : HostCmd) (s : State), n = arg c 0 1 → Accepts (.streamClose q cid) c s →
      (stream? s n = none → exec (.streamClose q cid) s = .next (endCmd c 0x0005 (startCmd c s)))
      ∧ ∀ x, stream? s n = some x →
        (x.frames = [] → ∃ u, exec (.streamClose q cid) s = .next u ∧ stream? u n = none
          ∧ ∀ m, m ≠ n → stream? u m = stream? s m)
        ∧ (x.frames ≠ [] → ∃ u, exec (.streamClose q cid) s = .next u
          ∧ (stream? u n).map (·.closing) = some true ∧ (stream? u n).map (·.frames) = some x.frames
          ∧ (stream? u n).map (·.rtp.flow) = some none ∧ (stream? u n).map (·.capture) = some none
          ∧ ∀ m, m ≠ n → stream? u m = stream? s m))

/-- SET_LINKS (R176) and SET_CAPTURE_SET (R200, R202). The code of an unused link entry is DESIGN CHOICE, log 38. -/
def Obligations.StreamSetBlocksAreTaken : Prop :=
  ∀ (q cid n : Nat) (c : HostCmd) (x : Stream) (s : State), n = arg c 0 1 → stream? s n = some x →
    let t := startCmd c s
    let es := (linkEntries (paramBlock t c)).map fun v => (v / 256, v % 256)
    (Accepts (.setLinks q cid) c s →
      ((∃ e ∈ es, 6 ≤ e.1 ∨ 128 ≤ e.2) → exec (.setLinks q cid) s = .next (endCmd c 0x0002 t))
      ∧ (es = [] → ∃ u, exec (.setLinks q cid) s = .next (okCmd c 0 u)
          ∧ stream? u n = some { x with links := [], gallery := [], commits := [] })
      ∧ (es ≠ [] → (∀ e ∈ es, e.1 < 6 ∧ e.2 < 128) →
          ((∃ y ∈ s.aviary.seqs, y.2.kind = .gallery ∧ y.2.stream = n) → exec (.setLinks q cid) s = .next (okCmd c 0 { t with
            streams := upd s.streams n fun o => o.map fun x => { x with
              links := es, gallery := x.gallery.filter fun g => es.contains (g.chip, g.stream)
              commits := x.commits.filter fun k => es.contains (k.1, k.2.1) } }))
          ∧ ∀ st, galleryFor n x t = .error st → exec (.setLinks q cid) s = .next (endCmd c st t)))
    ∧ (∀ (sec : SourceSection) (old : Capture) (new : CaptureSet), Accepts (.setCaptureSet q cid sec) c s →
        x.capture = some old → sectionCapture sec = some new →
        let k := sectionLanes sec
        let r := portLanes s new sec
        (captureOk new k.1 k.2 = false ∨ channelTaken s n new = true →
          exec (.setCaptureSet q cid sec) s = .next (endCmd c 0x0002 t))
        ∧ (captureOk new k.1 k.2 = true → channelTaken s n new = false →
            portOverloaded s n new x.cfg.period r.1 r.2 = true → exec (.setCaptureSet q cid sec) s = .next (endCmd c 0x011A t))
        ∧ (captureOk new k.1 k.2 = true → channelTaken s n new = false →
            portOverloaded s n new x.cfg.period r.1 r.2 = false →
            exec (.setCaptureSet q cid sec) s = .next { setPort sec t with streams := upd s.streams n fun o => o.map fun x => { x with
              capture := some { old with
                shadow := new
                pending := some (steadyNs s, (match old.pending with | some (_, l) => l | none => []) ++ [(q, cid)]) } } }))
    ∧ (∀ sec : SourceSection, Accepts (.setCaptureSet q cid sec) c s → x.capture = none ∨ sectionCapture sec = none →
        exec (.setCaptureSet q cid sec) s = .next (endCmd c 0x0002 t))

/-- FRAME_SUBMIT (R204, R205). -/
def Obligations.HostFramesLand : Prop :=
  ∀ (q cid n : Nat) (c : HostCmd) (x : Stream) (s : State), n = arg c 0 1 → stream? s n = some x → Accepts (.frameSubmit q cid) c s →
    let t := startCmd c s
    let bs := paramBlock t c
    let given := arg c 8 8
    let data := ((submitBuffers bs (arg c 1 1)).map fun b => hostMarked s b.1 b.2).flatten
    let st := submitStatus t x bs (arg c 1 1) given data
    (st ≠ 0 → exec (.frameSubmit q cid) s = .next (endCmd c st t))
    ∧ (st = 0 → (∀ y ∈ x.frames, y.id < x.nextId) → ∃ f u, exec (.frameSubmit q cid) s = .next (okCmd c 0 u)
        ∧ (stream? u n).map (·.frames) = some (x.frames ++ [f]) ∧ (stream? u n).map (·.nextId) = some (x.nextId + 1)
        ∧ f.id = x.nextId ∧ f.stamp = (if given = 0 then c.stamp else given) ∧ u.mbx = t.mbx)

/-- PROMPT_SET (R179, R180), PROMPT_ENCODED (R180), PROMPT_BIND (R180; a slot without a sequence and later
bindings: DESIGN CHOICE, logs 39 and 205). -/
def Obligations.PromptsAreEncodedAndBound : Prop :=
  (∀ (q cid p : Nat) (c : HostCmd) (s : State), p = arg c 0 1 → Accepts (.promptSet q cid) c s → s.aviary.prompts.length = 64 →
    let t := startCmd c s
    let text := paramBlock t c
    let st := promptStatus t p text
    (st ≠ 0 → exec (.promptSet q cid) s = .next (endCmd c st t))
    ∧ (st = 0 → (reserve (384 + p) (4 * (kvLayers s * kvGran s + 1)) true (dropPrompt p t)).isNone = true →
        exec (.promptSet q cid) s = .next (endCmd c 0x0503 t))
    ∧ (st = 0 → (reserve (384 + p) (4 * (kvLayers s * kvGran s + 1)) true (dropPrompt p t)).isSome = true →
        ∃ u, exec (.promptSet q cid) s = .next u ∧ u.mbx = t.mbx ∧ u.aviary.prompts = s.aviary.prompts.set p (some
          { text := text, tokens := promptTokens s text, seq := none, cmd := some (q, cid) })))
  ∧ (∀ (slot q cid id : Nat) (x : Prompt) (s : State), s.aviary.prompts[slot]? = some (some x) → x.seq = none →
      x.cmd = some (q, cid) → freeSeq s (pendingSeqs s) = some id →
      ∃ u, exec (.promptEncoded slot) s = .next (finishCmd q cid 0 x.tokens.length false u) ∧ u.mbx = s.mbx
        ∧ u.aviary.prompts = s.aviary.prompts.set slot (some { x with seq := some id, cmd := none })
        ∧ (tabGet id u.aviary.seqs).map (fun y => (y.kind, y.ntok)) = some (.prompt, x.tokens.length))
  ∧ (∀ (q cid n : Nat) (c : HostCmd) (s : State), n = arg c 0 1 → Accepts (.promptBind q cid) c s → (stream? s n).isSome = true →
      let t := startCmd c s
      let p := arg c 1 1
      (arg c 8 8 < c.stamp → exec (.promptBind q cid) s = .next (endCmd c 0x050B t))
      ∧ (c.stamp ≤ arg c 8 8 → p ≠ 0xFF → (∀ x, s.aviary.prompts[p]? = some (some x) → x.seq = none) →
          exec (.promptBind q cid) s = .next (endCmd c 0x0009 t))
      ∧ (c.stamp ≤ arg c 8 8 → (p = 0xFF ∨ ∃ x sq, s.aviary.prompts[p]? = some (some x) ∧ x.seq = some sq) →
          ∀ x, stream? s n = some x → let later := (x.bindings.filter fun b => decide (arg c 8 8 ≤ b.1)).filterMap (·.2)
          exec (.promptBind q cid) s = .next (okCmd c 0 (later.foldl (fun u k => releasePrompt k u) { t with
            streams := upd s.streams n fun o => o.map fun x => { x with
              bindings := (x.bindings.filter fun b => decide (b.1 < arg c 8 8)) ++ [(arg c 8 8, if p = 0xFF then none else some p)]
              pgen := x.pgen + 1 } }))))

/-- CONTEXT_SET (R152, R160, R163; without an encoded prompt or a package: DESIGN CHOICE, log 39). -/
def Obligations.ContextsForkTheirPrompt : Prop :=
  ∀ (q cid n : Nat) (c : HostCmd) (x : Stream) (s : State), n = arg c 0 1 → Accepts (.contextSet q cid) c s → stream? s n = some x →
    let t := startCmd c s
    let p := arg c 1 1
    let prompt := if p = 0xFF then none else (s.aviary.prompts.getD p none).bind (·.seq)
    let pages := contextPages s prompt (paramBlock t c)
    (p ≠ 0xFF → prompt = none → exec (.contextSet q cid) s = .next (endCmd c 0x0009 t))
    ∧ (p = 0xFF ∨ prompt ≠ none → s.pkg = none → exec (.contextSet q cid) s = .next (endCmd c 0x0327 t))
    ∧ (p = 0xFF ∨ prompt ≠ none → s.pkg ≠ none →
        (freeSeq s (pendingSeqs s) = none → exec (.contextSet q cid) s = .next (endCmd c 0x0502 t))
        ∧ ∀ id, freeSeq s (pendingSeqs s) = some id →
          ((reserveContext n pages x t).isNone = true → exec (.contextSet q cid) s = .next (endCmd c 0x0503 t))
          ∧ ((reserveContext n pages x t).isSome = true →
              ∃ u, exec (.contextSet q cid) s = .next (okCmd c 0 u)
                ∧ stream? u n = some { x with context := some id } ∧ u.mbx = t.mbx
                ∧ (tabGet id u.aviary.seqs).map (fun y => (y.kind, y.stream)) = some (.context, n)))

/-- CLIP_REQUEST (R231 to R234) and CLIP_CANCEL (R241). The frame stores of a session are DEDUCED, log 183. -/
def Obligations.ClipsRunFromRequestToEnd : Prop :=
  (∀ (q cid : Nat) (c : HostCmd) (s : State), Accepts (.clipRequest q cid) c s →
    let t := startCmd c s
    let b := paramBlock t c
    let k := clipBlock b
    (stream? s k.stream = none → exec (.clipRequest q cid) s = .next (endCmd c 0x0221 t))
    ∧ ∀ x, stream? s k.stream = some x →
      (clipStatus t x k b ≠ 0 → exec (.clipRequest q cid) s = .next (endCmd c (clipStatus t x k b) t))
      ∧ ∀ i, clipStatus t x k b = 0 → s.clips[i]? = some none → (∀ j, j < i → s.clips[j]? ≠ some none) →
          ∃ u, exec (.clipRequest q cid) s = .next u ∧ u.mbx = t.mbx ∧ u.streams = s.streams
            ∧ u.clips = s.clips.set i (some (freshClip q cid (steadyNs s) ((pickClipStores t x).getD 0) x k ((clipRetained x k.t0).map retainedSource))))
  ∧ (∀ (q cid i : Nat) (c k : HostCmd) (x : Clip) (s : State), Accepts (.clipCancel q cid) c s →
      let t := startCmd c s
      let mine (o : Option Clip) : Prop := ∃ y, o = some y ∧ y.q = q ∧ y.cid = arg c 0 2
      ((∀ o ∈ s.clips, ¬ mine o) → exec (.clipCancel q cid) s = .next (endCmd c 0x0009 t))
      ∧ (s.clips[i]? = some (some x) → mine (some x) → (∀ j o, j < i → s.clips[j]? = some o → ¬ mine o) →
          (t.mbx.cmds.find? fun z => z.q == x.q && z.cid == x.cid && z.opc == 0x40) = some k →
          ∃ u, exec (.clipCancel q cid) s = .next (okCmd c 0 (finishBuf x.q x.cid 0 (x.firstStamp.getD 0 % 2 ^ 32) (clipResult x) u))
            ∧ u.clips = s.clips.set i none ∧ u.mbx = t.mbx ∧ u.mem.host = s.mem.host))

/-- CLIP_PICTURE_ENCODE (R234 to R237, R239 to R241). What a slice's bits are is DESIGN CHOICE, log 113. -/
def Obligations.ClipPicturesAreCoded : Prop :=
  (∀ (i : Nat) (rowBits : List Nat) (c : Clip) (p : NextPicture) (s : State),
    s.clips[i]? = some (some c) → s.power.running = true → islandFenced s 13 = false → s.power.update.switching = none →
    s.gate.d3hot = false → nextClipPicture c s = some p →
    ((∃ x ∈ c.sources, x.stamp < c.t1) ∨ (c.lastLanded = false ∧ c.endStatus = none)) →
    let left : Clip := if c.fountain.isSome then { c with ready := c.ready.drop 1 } else { c with sources := c.sources.drop 1 }
    ((∃ x ∈ left.sources, x.stamp < c.t1) ∨ (∃ x ∈ left.ready, x.stamp < c.t1) ∨ (c.lastLanded = false ∧ c.endStatus = none)) →
    let idr : Bool := c.coded % c.gop == 0
    let r := rateOf c c.cfg.period idr rowBits
    let au := codePicture c idr r (encoderPicture c p.src)
    let total := au.bytes.length + r.filler
    let inside := c.t0 ≤ p.stamp ∧ p.stamp < c.t1
    let room := c.written + total ≤ clipSpace c ∧ 24 * (c.coded + 1) ≤ c.idxLen
    let run := exec (.clipPictureEncode i p.stamp p.damaged p.concealed rowBits) s
    (¬ inside → ∃ u, run = .next u ∧ u.clips = s.clips.set i (some left) ∧ u.mbx = s.mbx ∧ u.mem.host = s.mem.host)
    ∧ (inside → p.damaged = true → ∃ u, run = .next u ∧ u.clips = s.clips.set i (some { left with omitted := c.omitted + 1 })
        ∧ u.mbx = s.mbx ∧ u.mem.host = s.mem.host)
    ∧ (inside → p.damaged = false → rowBits.length ≠ ctuRows c → run = .next s)
    ∧ (∀ stamp damaged concealed, ¬ (stamp = p.stamp ∧ damaged = p.damaged ∧ concealed = p.concealed) →
        exec (.clipPictureEncode i stamp damaged concealed rowBits) s = .next s)
    ∧ (inside → p.damaged = false → rowBits.length = ctuRows c → room →
        ∃ u, run = .next u ∧ u.mbx = s.mbx ∧ u.clips = s.clips.set i (some { left with
          coded := c.coded + 1, written := c.written + total, omitted := 0, qprev := r.mean, fnum := r.fnum
          reference := some au.samples, firstStamp := c.firstStamp.or (some p.stamp), lastStamp := some p.stamp }))
    ∧ (inside → p.damaged = false → rowBits.length = ctuRows c → ¬ room → ∃ u, run = .next u ∧ u.clips = s.clips.set i none))
  ∧ (∀ (c : Clip) (r : PictureRate) (src : List Byte) (idr : Bool), ∃ sets slice,
      (codePicture c idr r src).bytes = delimiter c.hevc idr ++ sets ++ slice ∧ slice.length = ceilDiv r.bits 8
      ∧ (idr = false → sets = []))
  ∧ (∀ (c : Clip) (src : Source) (x y : Nat), c.decim = 2 →
      let at_ (i j : Nat) := encoderChannel src 0 (c.cx + 2 * x + i) (c.cy + 2 * y + j)
      decimated c src 0 x y = (at_ 0 0 + at_ 1 0 + at_ 0 1 + at_ 1 1 + 2) / 4)

/-- NOP and the start of an op (R40, R65, R66). The cycle of the token block is DEDUCED, log 165. -/
def Obligations.OpsPassTheirGates : Prop :=
  (∀ (k : Nat) (o : IssuedOp) (s : State), startable s k 0 = some o →
    let n := if o.instant + 4 < nowNs s then 1 else 0
    let m := if o.instant + 4 < nowNs s ∨ o.late = true then 1 else 0
    let t := beginOp k o s
    (opGm o.word = 1 → token s (opWtok o.word) = opNeed o.word + 1 →
      t.score.tokens = tabDel (opWtok o.word) s.score.tokens)
    ∧ (opGm o.word = 1 → opNeed o.word + 1 < token s (opWtok o.word) →
      t.score.tokens = tabPut (opWtok o.word) (token s (opWtok o.word) - (opNeed o.word + 1)) s.score.tokens)
    ∧ (opGm o.word ≠ 1 → t.score.tokens = s.score.tokens)
    ∧ t.score.lanes = upd s.score.lanes k (fun l => { l with due := l.due.tail, lateStarts := l.lateStarts + n })
    ∧ (o.ctx = none → t.score.batches = s.score.batches)
    ∧ (∀ b i, o.ctx = some (b, i) → t = passGate k o.word (updBatch b i (fun y => { y with lateStarts := y.lateStarts + m })
        (updLane k (fun l => { l with due := l.due.tail, lateStarts := l.lateStarts + n }) s))))
  ∧ (∀ (k : Nat) (o : IssuedOp) (s : State), k < 54 → k ≠ 0 → Starts k 0 o s →
      exec (.nop k) s = .next (occupy k o [] true (beginOp k o s)))
  ∧ (∀ (k : Nat) (o : IssuedOp) (s : State), k = 0 ∨ k = 54 ∨ k = 55 → startable s k 0 = some o → Silent o s →
      exec (.nop k) s = .next (opDone (beginOp k o s)))
  ∧ (∀ (k opc : Nat) (o : IssuedOp) (s : State), startable s k opc = some o →
      (k = 54 → opGm o.word ≠ 0 ∨ opc < 0x38 ∨ 0x3B < opc → (o.instant : Int) ≤ replicaNow (.lane 54) s)
      ∧ (opGm o.word ≠ 0 → ∀ j x, j < 56 → headOp s j = some x → gateOk x.word s = true → beatCome s j x = true →
          opGm x.word ≠ 0 → opWtok x.word = opWtok o.word → o.beat < x.beat ∨ (o.beat = x.beat ∧ k ≤ j))
      ∧ (opGm o.word ≠ 0 → k ≠ 0 → ∀ x, headOp s 0 = some x → gateOk x.word s = true → opOpc x.word = 1 ∨ opOpc x.word = 2 →
          opStok x.word = opWtok o.word → opGm x.word ≠ 0 ∧ opWtok x.word = opWtok o.word))

/-- TOKEN_SET, TOKEN_ADD (R67), CLAIM_OPEN (R71), the pin ops, REFLEX_ARM, TRACE (R64, R68); an op that meets a fenced island 39 (R370).
Which commands are one local cycle: DEDUCED, log 209. -/
def Obligations.ControlLanesAct : Prop :=
  ∀ (o : IssuedOp) (s : State),
    let k := opStok o.word
    let t := beginOp 0 o s
    let x := cycleOf t k
    let put (y : TokenCycle) (v : Nat) : State := setToken k v { t with score := { t.score with cycles := tabPut k y t.score.cycles } }
    ((∀ y, tabGet k t.score.cycles = some y → y.count ≠ s.band.count) → x = { count := s.band.count, sum := token t k, setTo := none, used := 0 })
    ∧ (startable s 0 1 = some o → islandFenced s 39 = false → unitSafe s 39 24 = false →
        exec .tokenSet s = .next (opDone (put { x with setTo := some (argValue o.word) } (argValue o.word - x.used))))
    ∧ (startable s 0 2 = some o → islandFenced s 39 = false → unitSafe s 39 24 = false →
        let v := x.sum + argValue o.word
        (v ≤ 65535 → exec .tokenAdd s = .next (opDone (put { x with sum := v } (x.setTo.getD v - x.used))))
        ∧ (65535 < v → exec .tokenAdd s = .next (opDone (jobFault 0 (newestBatch t) 0x0421 k none
            (put { x with sum := 65535 } (x.setTo.getD 65535 - x.used))))))
    ∧ (startable s 0 3 = some o → claimActive s (argHigh o.word) = false → Silent o s →
        exec .claimOpen s = .next (opDone (updClaim (argHigh o.word) (fun _ => { value := 0, limit := argLimit o.word })
          (beginOp 0 o s))))
    ∧ (∀ (i : Instr) (opc : Nat) (a : CueAction),
        (i, opc, a) = (.pinLevel, 0x38, .level (argBit o.word)) ∨ (i, opc, a) = (.pinPulse, 0x39, .pulse (8 * argWidth o.word))
          ∨ (i, opc, a) = (.strobeStart, 0x3A, .strobeStart) ∨ (i, opc, a) = (.strobeStop, 0x3B, .strobeStop) →
        startable s 54 opc = some o → isTorn s o.ctx = false → islandFenced s 39 = false → unitSafe s 39 24 = false →
        ∀ x, s.pins[argPin o.word]? = some x →
        let t := issueCue { target := .pin (argPin o.word), source := .score, instant := o.instant, action := a
                            lateLimit := x.par.lateLimit, ctx := o.ctx, opIssued := o.issued
                            counted := o.late || decide (o.instant + 4 < nowNs s) } (beginOp 54 o s)
        (x.mode = .disabled ∨ x.mode = .input ∨ (x.cues.length < 16 ∧ x.held = []) → Silent o s → exec i s = .next (opDone t))
        ∧ (x.mode = .output ∨ x.mode = .strobe → 16 ≤ x.cues.length ∨ x.held ≠ [] →
            exec i s = .next (occupy 54 o [] false t)))
    ∧ (startable s 54 0x3C = some o → Silent o s → exec .reflexArm s = .next (opDone (updReflex (argPin o.word)
        (fun x => { x with par := { x.par with armed := argBit o.word } }) (beginOp 54 o s))))
    ∧ (∀ (i : Instr) (k opc : Nat), (i, k, opc) = (.pinLevel, 54, 0x38) ∨ (i, k, opc) = (.pinPulse, 54, 0x39)
          ∨ (i, k, opc) = (.strobeStart, 54, 0x3A) ∨ (i, k, opc) = (.strobeStop, 54, 0x3B) ∨ (i, k, opc) = (.reflexArm, 54, 0x3C)
          ∨ (i, k, opc) = (.digest, 55, 0x3E) ∨ (i, k, opc) = (.trace, 55, 0x3F) →
        startable s k opc = some o →
        (isTorn s o.ctx = true → islandFenced s 39 = false → unitSafe s 39 24 = false → exec i s = .next (finishBatches (signal k o (opDone (beginOp k o s)))))
        ∧ (islandFenced s 39 = true →
            exec i s = .next (finishBatches (signal k o (opDone (jobFault k o.ctx 0x0011 0 none (beginOp k o s)))))))
    ∧ (startable s 55 0x3F = some o → Silent o s → exec .trace s = .next (opDone (updScore (fun c => { c with
        trace := c.trace ++ [.marker (opArg o.word) o.beat] }) (beginOp 55 o s))))

/-- SCORE_START (R90), SCORE_WORD_ISSUE (R39, R60, R62), BRANCH_FILL, JUMP, HALT (R71, R72, R74). -/
def Obligations.TheSequencerReadsWords : Prop :=
  ∀ s : State,
    let c := s.score
    let target (w : BitVec 64) := imgTarget c.image (argTarget w)
    let halted (at_ : Nat) (req : Bool) : State := { s with
      score := { c with running := false, control := none, resumeAt := at_, haltReq := req }
      power := { s.power with update := { s.power.update with haltedAt := nowNs s } } }
    (c.armed = true → s.power.running = true → c.epoch + 64 * c.beat ≤ nowNs s + 256 →
      exec .scoreStart s = .next { s with score := { c with armed := false, running := true, stopped := false } })
    ∧ (mayIssue s = true → ∃ t, exec .scoreWordIssue s = .next t ∧ t.score.pc = c.pc + (cueWord c.image c.pc).2
        ∧ t.score.beat = c.beat + 1 ∧ t.score.control = wordControl (cueWord c.image c.pc).1 ∧ t.score.tokens = c.tokens
        ∧ t.score.claims = c.claims ∧ t.mem.host = s.mem.host ∧ t.streams = s.streams ∧ t.score.batches = (countBell (cueWord c.image c.pc).1 s).score.batches
        ∧ (∀ w, (cueWord c.image c.pc).1 = [(54, w)] →
            let late := decide ((c.epoch + 64 * c.beat < nowNs s + 160 ∨ targetReady (.lane 54) s = false) ∧ ¬ (0x38 ≤ opOpc w ∧ opOpc w ≤ 0x3B))
            t.score.lanes = upd c.lanes 54 fun l => { l with
              lateCues := l.lateCues + (if late then 1 else 0)
              due := l.due ++ [{ word := w, beat := c.beat, instant := c.epoch + 64 * c.beat, since := steadyNs s
                                 ctx := opContext s c.pc (54, w), late := late, issued := some (nowNs s) }] })
        ∧ (∀ k w, (cueWord c.image c.pc).1 = [(k, w)] → k ≠ 54 → (opOpc w ≠ 4 ∧ opOpc w ≠ 5) ∨ k ≠ 0 → t.score.lanes = (issueCue
            { target := .lane k, source := .score, instant := c.epoch + 64 * c.beat, lateLimit := 0
              action := .slotOp w c.beat (opContext s c.pc (k, w)) } s).score.lanes)
        ∧ (∀ w, (cueWord c.image c.pc).1 = [(0, w)] → opOpc w = 5 → t.score.lanes = c.lanes))
    ∧ (∀ w x, c.control = some w → opOpc w = 5 → c.batches[argHigh w]? = some x → bellPending s (argHigh w) = false →
        let u := issueCue { target := .lane 0, source := .score, instant := c.epoch + 64 * (c.beat - 1), lateLimit := 0
                            action := .slotOp w (c.beat - 1) none } s
        (bellsIssued s (argHigh w) = [] → exec .branchFill s = .next { u with score := { u.score with
          control := none, pc := if x.fill < argThreshold w then target w else c.pc } })
        ∧ (bellsIssued s (argHigh w) ≠ [] → ∃ p, exec .branchFill s = .next { u with score := { u.score with control := none, pc := p } }))
    ∧ (∀ w, c.control = some w → opOpc w = 6 → c.haltReq = false →
        exec .jump s = .next { s with score := { c with control := none, pc := target w } })
    ∧ (∀ w, c.control = some w → opOpc w = 6 → c.haltReq = true → exec .jump s = .next (halted (target w) true))
    ∧ (∀ w, c.control = some w → opOpc w = 7 → exec .halt s = .next (halted c.pc false))

/-- STEER (R255), BELL (R71, R255), DIGEST (R64, R149). -/
def Obligations.BatchesOpenAndClose : Prop :=
  (∀ (n b : Nat) (o : IssuedOp) (x : BatchId) (s : State), n < 4 → b = argHigh o.word → Starts (49 + n) 0x28 o s → o.ctx = none →
    s.score.batches[b]? = some x → ∃ t y, exec (.steer n) s = .next (occupy (49 + n) o [] true t) ∧ t.streams = s.streams
      ∧ (t.score.batches[b]?).bind (·.cur) = some y ∧ n ∈ y.steered ∧ (∀ z, x.cur = some z → y.num = z.num ∧ y.slots = z.slots)
      ∧ (x.cur = none → y = { freshBatch x.next with steered := [n] } ∧ (t.score.batches[b]?).map (·.next) = some (x.next + 1)))
  ∧ (∀ (b : Nat) (o : IssuedOp) (x : BatchId) (s : State), startable s 0 4 = some o → isTorn s o.ctx = false → islandFenced s 39 = false →
      unitSafe s 39 24 = false → b = argHigh o.word →
      s.score.batches[b]? = some x → ∃ t z, exec .bell s = .next t ∧ t.score.batches[b]? = some z ∧ z.cur = none
        ∧ z.lastBell = some o.instant ∧ (∀ y, x.cur = some y → z.next = y.num + 1 ∧ z.fill = y.slots.length)
        ∧ (x.cur = none → z.next = x.next + 1 ∧ z.fill = 0))
  ∧ (∀ (b n : Nat) (o : IssuedOp) (y : Batch) (s : State), startable s 55 0x3E = some o → opSig o.word = false → islandFenced s 39 = false →
      unitSafe s 39 24 = false →
      o.ctx = some (b, n) → getBatch s b n = some y → y.torn = none → ∃ t, exec .digest s = .next t ∧ t.score.trace = s.score.trace ++
        (batchFrames y).map fun f => .digest (argValue o.word) f.1 f.2 (digestOf s (argValue o.word) f.1 f.2))

/-- OP_COMPLETE (R68), GATE_WATCHDOG and SCORE_RESTART (R70; a halt requested meanwhile wins: DEDUCED, log 19). When a wait begins
and which instances are in flight: DESIGN CHOICE, logs 166 and 167. -/
def Obligations.OpsCompleteAndTheWatchdogHalts : Prop :=
  (∀ (k : Nat) (l : Lane) (r : RunningOp) (s : State), s.score.lanes[k]? = some l → l.running = some r →
    (r.finished = false ∨ readsPending s k = true → exec (.opComplete k) s = .next s)
    ∧ (r.finished = true → readsPending s k = false → ∃ t, exec (.opComplete k) s = .next t ∧ (t.score.lanes[k]?).map (·.running) = some none)
    ∧ (r.finished = true → readsPending s k = false → r.op.ctx = none → (∀ x ∈ s.score.batches, x.closed = []) →
        let u := opDone (unpinPages r.pages (updLane k (fun l => { l with running := none }) s))
        (opSig r.op.word = false → exec (.opComplete k) s = .next u)
        ∧ (opSig r.op.word = true → token s (opStok r.op.word) < 65535 →
            (∀ y, tabGet (opStok r.op.word) s.score.cycles = some y → y.count ≠ s.band.count) →
            let n := token s (opStok r.op.word) + 1
            let v := signalWrites k (opStok r.op.word) u
            exec (.opComplete k) s = .next (setToken (opStok r.op.word) n { v with score := { v.score with
              cycles := tabPut (opStok r.op.word) { count := s.band.count, sum := n, setTo := none, used := 0 } v.score.cycles } }))))
  ∧ (∀ (k : Nat) (o : IssuedOp) (s : State), headOp s k = some o → gateOk o.word s = false → s.score.watchdogHalt = false →
      o.since + 1000 * imgWatchdog s.score.image < steadyNs s →
      ∃ t, exec (.gateWatchdog k) s = .next t ∧ t.score.running = false ∧ t.score.control = none ∧ t.score.watchdogHalt = true
        ∧ t.score.lanes = s.score.lanes.map (fun l => { l with cues := l.cues.filter fun q => q.cue.source != .score, held := [], due := [] })
        ∧ ∀ (b : Nat) (x : BatchId) (y : Batch), s.score.batches[b]? = some x → x.cur = none → x.closed = [y] → y.torn = none →
          (t.score.batches[b]?).map (·.closed) = some [{ y with torn := some 0x0420, blame := none }])
  ∧ (∀ s : State, s.score.watchdogHalt = true → (∀ l ∈ s.score.lanes, l.running = none) → s.power.breath = false →
      let c := s.score
      let at_ := imgTarget c.image (imgRestart c.image)
      ∃ t, exec .scoreRestart s = .next t ∧ t.score.watchdogHalt = false ∧ t.score.tokens = initialTokens c.image
        ∧ t.score.claims = zeroClaims c.claims ∧ t.score.pc = at_ ∧ (∀ x ∈ t.score.batches, x.cur = none ∧ x.closed = [])
        ∧ (c.haltReq = true → t.score.running = false ∧ t.score.resumeAt = at_ ∧ t.score.armed = c.armed)
        ∧ (c.haltReq = false → t.score.armed = true ∧ (t.score.beat, t.score.epoch) = restartPoint s))

/-- LUT4, ELTWISE, POOL, BOXDEC, NMS, SOFTMAX, ARGMAX (R64, R115, R116, R521, R523). -/
def Obligations.VectorOpsRunTheirVectors : Prop :=
  ∀ (n f : Nat) (i : Instr) (o : IssuedOp) (s : State),
    (i, f) = (.lut4 n, 1) ∨ (i, f) = (.eltwise n, 2) ∨ (i, f) = (.pool n, 3) ∨ (i, f) = (.boxdec n, 4) ∨ (i, f) = (.nms n, 5)
      ∨ (i, f) = (.softmax n, 6) ∨ (i, f) = (.argmax n, 7) →
    n < 8 → Starts (17 + n) 0x18 o s →
    let d := imgVec s.score.image (argDesc o.word)
    let t := beginOp (17 + n) o s
    d.func = f →
    let k := 17 + n
    (vecWaits k s d o.ctx = [] → exec i s = .next (occupy k o [] true (writing k (runVecs k d o.ctx d.count 0) t)))
    ∧ (vecWaits k s d o.ctx = [] → d.count = 1 → exec i s = .next (occupy k o [] true (writing k (fun t =>
        let x := vecOut k t d o.ctx 0
        let u := noteReads k x.all t
        let owner := rowOwner t o.ctx 1 0
        if vecOpen t d o.ctx 0 then match vecTrouble k u d o.ctx (owner.map fun w => w.at_.stream) x with
          | some w => jobFault k o.ctx w.status w.addr w.stream (useDeferred w.addr u)
          | none => noteVec d o.ctx owner 0 x (writeOp d.out x.cells u)
        else t) t)))
    ∧ (∀ w ws, vecWaits k s d o.ctx = w :: ws → exec i s = .next ((w :: ws).foldl (fun s w => awaitFor w s) s))

/-- ARGMAX (R121), NMS (R119), the motion vector among candidates (R238), block compression (R122, R123). -/
def Obligations.SelectionsFollowTheirRules : Prop :=
  (∀ xs : List Int, xs ≠ [] → ∃ v, xs[argmaxOf xs]? = some v ∧ (∀ x ∈ xs, x ≤ v) ∧ ∀ j x, j < argmaxOf xs → xs[j]? = some x → x < v)
  ∧ (∀ (per : Bool) (u n : Nat) (cs : List (Detection × List Byte)),
      let kept := nmsKeep per u cs [] n
      kept.length ≤ n ∧ (∀ k ∈ kept, k ∈ cs)
      ∧ ∀ (i j : Nat) (a b : Detection × List Byte), i < j → kept[i]? = some a → kept[j]? = some b → (per = false ∨ a.1.cls = b.1.cls) → overlaps u a.1.box b.1.box = false)
  ∧ (∀ (cost : Int × Int → Nat) (l : List (Int × Int)), l ≠ [] → ∃ v ∈ l, bestVector cost l = some v ∧ ∀ w ∈ l,
      let size (v : Int × Int) := v.1.natAbs + v.2.natAbs
      cost v < cost w ∨ (cost v = cost w ∧ (size v < size w
        ∨ (size v = size w ∧ (v.2 < w.2 ∨ (v.2 = w.2 ∧ v.1 ≤ w.1))))))
  ∧ (∀ (mode : Nat) (bs : List Byte), mode = 1 ∨ mode = 2 → bs.length = 16 →
      (compressBlock mode bs).length = (if mode = 1 then 9 else 13)
      ∧ ((∀ x ∈ blockCodes bs, ∀ y ∈ blockCodes bs, x ≤ y + (if mode = 1 then 3 else 7)) → expandBlock (compressBlock mode bs) = bs))

/-- TILE (R76, R77), CLAIM and CLAIM_FETCH (R79, R80, R87), COPY (R83, R85), FETCH_AHEAD and PAGE_FETCH (R84). -/
def Obligations.TilesAndMoversRunTheirOps : Prop :=
  (∀ (n : Nat) (o : IssuedOp) (s : State), n < 16 →
    let k := 1 + n
    let d := imgTile s.score.image (argDesc o.word)
    (Starts k 0x10 o s → tileWaits k s d o.ctx d.fixidx = [] →
      exec (.tile n) s = .next (occupy k o [] true (writing k (runTile k d o.ctx d.fixidx) (beginOp k o s))))
    ∧ (∀ (i : Nat) (t : State), (∀ e, tileExtent t d i = some e → isTorn t o.ctx = true ∨ tileClosed t d o.ctx e = true) →
        runTile k d o.ctx i t = { t with orangeries := upd t.orangeries n fun x => { x with skipped := x.skipped + 1 } })
    ∧ (Starts k 0x11 o s → exec (.claim n) s = .next (occupy k o [] false (beginOp k o s))))
  ∧ (∀ (n : Nat) (l : Lane) (r : RunningOp) (c : Claim) (s : State), n < 16 → s.score.lanes[1 + n]? = some l → l.running = some r →
      opOpc r.op.word = 0x11 → r.finished = false → s.score.claims[argCounter r.op.word]? = some c →
      let d := imgTile s.score.image (argDesc r.op.word)
      let fin (u : State) : State := { u with score := { u.score with lanes := upd u.score.lanes (1 + n) fun l => { l with
        running := l.running.map fun r => { r with finished := true } } } }
      let next : State := { s with score := { s.score with claims := upd s.score.claims (argCounter r.op.word) fun c => { c with
        value := (c.value + 1) % 2 ^ 32 } } }
      (c.limit ≤ c.value → exec (.claimFetch n) s = .next (fin next))
      ∧ (c.value < c.limit → tileWaits (1 + n) s d r.op.ctx c.value = [] →
          exec (.claimFetch n) s = .next (writing (1 + n) (runTile (1 + n) d r.op.ctx c.value) next))
      ∧ (∀ w ws, c.value < c.limit → tileWaits (1 + n) s d r.op.ctx c.value = w :: ws →
          exec (.claimFetch n) s = .next ((w :: ws).foldl (fun s w => awaitFor w s) s))
      ∧ (c.value < c.limit → isTorn s r.op.ctx = true → tileWaits (1 + n) s d r.op.ctx c.value = []))
  ∧ (∀ (n : Nat) (o : IssuedOp) (s : State), n < 24 →
      let k := 25 + n
      let d := imgMove s.score.image (argDesc o.word)
      let t := beginOp k o s
      let run (i : Instr) (work : State → State) : Prop := exec i s = .next (occupy k o [] true (writing k work t))
      (Starts k 0x20 o s → moveWaits k s d = [] → run (.copy n) (runCopy k d o.ctx))
      ∧ (∀ u,
          let bs := moveBytes k u d
          let v := noteReads k (moveReads k u d) u
          copyTrouble v bs = none → writeFault k v d.dst (moveCells bs) = none → runCopy k d o.ctx u = writeOp d.dst (moveCells bs) v)
      ∧ (Starts k 0x21 o s → moveWaits k s d = [] → run (.fetchAhead n) (runAhead n d))
      ∧ (Starts k 0x22 o s → run (.pageFetch n) (runPageFetch n d)))

/-- GATHER, ASSOC, UPDATE, APPEND, ALIST (R168, R170). The batch of an op outside a context is DEDUCED, log 16; the layout of the
Aviary's arrays is DESIGN CHOICE, log 21. A GATHER waits on the stream's earlier frame (R172). -/
def Obligations.AviaryOpsWorkOnTheirBatch : Prop :=
  (∀ (o : IssuedOp) (s : State), Starts 53 0x30 o s →
    let d := avDesc s (argDesc o.word)
    let t := beginOp 53 o s
    (avBatch s d o = none → avBatch t d o = none →
      ∀ x ∈ [(1, Instr.gather), (2, .assoc), (3, .update), (4, .append), (5, .alist)], d.func = x.1 → exec x.2 s = .next (occupy 53 o [] true t))
    ∧ ∀ y z, avBatch s d o = some y → avBatch t d o = some z →
      let run (i : Instr) (ps : List Nat) (ws : List Wait) (work : State → State) : Prop :=
        let waits := (coldPages s ps).map .page ++ ws
        (waits = [] → exec i s = .next (occupy 53 o ps true (writing 53 (fun u => pinPages ps (work u)) t)))
        ∧ (waits ≠ [] → exec i s = .next (waits.foldl (fun s w => awaitFor w s) s))
      let of (f : AvFrame → List Nat) : List Nat := ((avFrames s y).map f).flatten.eraseDups
      let on (f : AvFrame → List Wait) : List Wait := ((avFrames s y).map f).flatten
      (d.func = 1 → (∀ a ∈ avFrames s y, gatherReady a = true) →
        run .gather (of fun a => gatherPages s d a.n ++ cellPages s (gatherCells s d a)) (on fun a => writeWait s d.dst (gatherCells s d a))
        (fun u => eachFrame 53 o (gatherWork d o.ctx z) (avFrames u z) u))
      ∧ (d.func = 2 → run .assoc (of fun a => rangePages s (d.src + frameBlock a (1024 * d.p1)) (1024 * d.p1)
          ++ rangePages s (d.dst + frameBlock a 4096) 4096)
          (on fun a => ((assocReads s d a).map fun x => readWait x.2.2).flatten
            ++ writeWait s d.dst (cellsAt (d.dst + frameBlock a 4096) (matchBytes []) false)) (fun u => eachFrame 53 o (assocWork d o.ctx) (avFrames u z) u))
      ∧ (d.func = 3 → run .update (of fun a => tailPages s a.stream.context ++ rangePages s (d.src + frameBlock a 4096) 4096)
          (on fun a => readWait (readBy 53 s d.src (d.src + frameBlock a 4096) 4096))
          (fun u => eachFrame 53 o (updateWork d o.ctx) (avFrames u z) u))
      ∧ (d.func = 4 → run .append (of fun a => targetPages s d a
            ++ rangePages s (d.src + frameBlock a (1024 * d.nlay * (d.p0 + 8))) (1024 * d.nlay * (d.p0 + 8)))
          (on fun a => readWait (rowReads (appendReads s d a)))
          (fun u => eachFrame 53 o (appendWork d o.ctx) (avFrames u z) u))
      ∧ (d.func = 5 → let cs := cellsAt d.dst (List.replicate (4 * (alistPages s d y).length) 0) false
          run .alist (cellPages s cs) (writeWait s d.dst cs) (alistWork d o z)))
  ∧ (∀ (gate : Int) (costs : List (Int × Nat × Nat)),
      let m := matchCosts gate costs
      (gate < 0 → m = []) ∧ (m.map (·.1)).Nodup ∧ (m.map (·.2)).Nodup
      ∧ (∀ p ∈ m, ∃ c ∈ costs, c.1 ≤ gate ∧ p = (c.2.2, c.2.1))
      ∧ (0 ≤ gate → ∀ c ∈ costs, c.1 ≤ gate → c.2.2 ∈ m.map (·.1) ∨ c.2.1 ∈ m.map (·.2)))

/-- LOCK_ACQUIRE (R346, R347, R402), LOCK_RELEASE (R346, R348, R402), the forced release (R349); the lock block of a fenced island 39 (R352,
R369), and the host's accesses, which are of BAR0 (R379, R395). -/
def Obligations.LocksAnswerAtOnce : Prop :=
  (∀ (n owner : Nat) (x : Lock) (s : State), s.locks[n]? = some x → owner < 65536 → resetFenced s 39 = false →
    let host := ownerIsland owner = 2
    let answer (r o : Nat) (t : State) : State := emit (.lockResult (BitVec.ofNat 32 (r + o * 2 ^ 16))) t
    let mine : State := { s with locks := s.locks.set n { held := true, owner := owner, broken := false } }
    let refused : State := { s with gate := { s.gate with lockRefused := sat16 s.gate.lockRefused } }
    (host → BarServes s) →
    (lockRange n owner = true → (host → hostLocks s = true) →
      (x.held = true → exec (.lockAcquire n owner) s = .next (answer 2 x.owner s))
      ∧ (x.held = false → x.broken = false → exec (.lockAcquire n owner) s = .next (answer 0 owner mine))
      ∧ (x.held = false → x.broken = true → ¬ host → exec (.lockAcquire n owner) s = .next (answer 1 owner mine))
      ∧ (x.held = false → x.broken = true → host → exec (.lockAcquire n owner) s = .next (answer 1 owner { mine with
          gate := { s.gate with lockBroken := sat16 s.gate.lockBroken } })))
    ∧ (lockRange n owner = true → host → hostLocks s = false → exec (.lockAcquire n owner) s = .next (answer 3 0 s))
    ∧ (lockRange n owner = false → exec (.lockAcquire n owner) s = .next (emit (.fenceOutcome 0x0637) (answer 3 0 s)))
    ∧ (lockRange n owner = true → x.held = true → x.owner = owner →
        exec (.lockRelease n owner) s = .next { s with locks := s.locks.set n { x with held := false, owner := 0 } })
    ∧ (lockRange n owner = false →
        exec (.lockRelease n owner) s = .next (emit (.fenceOutcome 0x0637) (if host then refused else s)))
    ∧ (lockRange n owner = true → x.held = false ∨ x.owner ≠ owner →
        exec (.lockRelease n owner) s = .next (emit (.fenceOutcome 0x0636) (if host then refused else s))))
  ∧ (∀ (n owner : Nat) (s : State), owner < 65536 → (ownerIsland owner = 2 → BarServes s) →
      (s.locks.length ≤ n → resetFenced s 39 = false →
        exec (.lockAcquire n owner) s = .next (emit (.fenceOutcome 0x0637) (emit (.lockResult 3) s))
        ∧ (ownerIsland owner ≠ 2 → exec (.lockRelease n owner) s = .next (emit (.fenceOutcome 0x0637) s))
        ∧ (ownerIsland owner = 2 → exec (.lockRelease n owner) s = .next (emit (.fenceOutcome 0x0637) { s with
            gate := { s.gate with lockRefused := sat16 s.gate.lockRefused } })))
      ∧ (resetFenced s 39 = true → ∀ i ∈ [Instr.lockAcquire n owner, .lockRelease n owner],
          exec i s = .next (emit (.fenceOutcome 0x0011) s)))
  ∧ (∀ (n owner : Nat) (s : State), owner < 65536 → ownerIsland owner = 2 →
      (s.gate.linkUp = false → ∀ i ∈ [Instr.lockAcquire n owner, .lockRelease n owner], exec i s = .next s)
      ∧ (s.gate.linkUp = true → s.gate.d3hot = false → memSpace s = true → islandFenced s 2 = true →
          exec (.lockAcquire n owner) s = .next (emit (.lockResult 0xFFFFFFFF) s) ∧ exec (.lockRelease n owner) s = .next s))
  ∧ (∀ (island n : Nat) (x : Lock) (s : State), s.locks[n]? = some x → x.held = true →
      (ownerIsland x.owner = island → (breakLocks island s).locks[n]? = some { held := false, owner := 0, broken := true })
      ∧ (ownerIsland x.owner ≠ island → (breakLocks island s).locks[n]? = some x))

/-- ERROR_REPORT and COALESCE_FLUSH (R365, R366; entries: R364, R367): each completes in every state, and what it leaves. -/
def Obligations.ReportsAreCoalesced : Prop :=
  (∀ (st is u str a b : Nat) (torn poison : Bool) (s : State), s.power.running = true → is ≤ 60 → u < 256 → st < 65536 → str < 256 →
    let i : Instr := .errorReport st is u str a b torn poison
    let r : Report :=
      { stamp := nowNs s, status := st, island := is, unit := u, stream := str, arg0 := a, arg1 := b, torn := torn, poison := poison }
    let x := getSource is u s
    (∃ t, exec i s = .next t ∧ (getSource is u t).captured = x.captured.or (some r) ∧ t.pending = s.pending ∧ t.streams = s.streams
      ∧ t.islands = s.islands ∧ t.score = s.score)
    ∧ (∀ c t0, x.interval = some (c, t0) → c = st → steadyNs s < t0 + 1000000 → exec i s = .next (putSource (if x.counter < 65535 then
          { x with
            captured := x.captured.or (some r), counter := x.counter + 1, first := x.first.or (some r)
            anyTorn := x.anyTorn || torn, anyPoison := x.anyPoison || poison }
        else { x with captured := x.captured.or (some r), dropped := min (2 ^ 32 - 1) (x.dropped + 1) }) s))
    ∧ (∀ c t0, x.interval = some (c, t0) → t0 + 1000000 ≤ steadyNs s → 0 < x.counter →
        ∃ t, exec (.coalesceFlush is u) s = .next t ∧ exec i s = exec i t)
    ∧ ((∀ c t0, x.interval = some (c, t0) → (c ≠ st ∧ steadyNs s < t0 + 1000000) ∨ (t0 + 1000000 ≤ steadyNs s ∧ x.counter = 0)) →
        let y := { x with captured := x.captured.or (some r), interval := some (st, steadyNs s), counter := 0, first := none
                          anyTorn := false, anyPoison := false }
        (x.counter = 0 → exec i s = .next (writeEntry r 1 (putSource y s)))
        ∧ (∀ f, 0 < x.counter → x.first = some f → exec i s = .next (writeEntry r 1 (writeEntry
            { f with torn := x.anyTorn, poison := x.anyPoison } x.counter (putSource y s))))
        ∧ (x.counter = 0 → s.err.droppedEntries = 0 → logUsed s.err < 1024 → s.err.head + 1 < 2 ^ 32 → ∃ t, exec i s = .next t
            ∧ t.err.head = s.err.head + 1 ∧ t.mem.bytes = memWrite (s.err.base + 32 * (s.err.head % 1024)) (entryBytes r 1 false) s.mem.bytes)))
  ∧ (∀ (is u : Nat) (s : State), is ≤ 60 →
      let x := getSource is u s
      (∃ t, exec (.coalesceFlush is u) s = .next t ∧ (getSource is u t).captured = x.captured ∧ t.pending = s.pending
        ∧ t.streams = s.streams ∧ t.islands = s.islands ∧ t.score = s.score)
      ∧ (x.interval = none → exec (.coalesceFlush is u) s = .next s)
      ∧ ∀ c t0, x.interval = some (c, t0) →
        let y := { x with interval := some (c, t0 + 1000000), counter := 0, first := none, anyTorn := false, anyPoison := false }
        (steadyNs s < t0 + 1000000 ∨ x.counter = 0 → exec (.coalesceFlush is u) s = .next s)
        ∧ (t0 + 1000000 ≤ steadyNs s → 0 < x.counter → exec (.coalesceFlush is u) s = .next (match x.first with
          | some f => writeEntry { f with torn := x.anyTorn, poison := x.anyPoison } x.counter (putSource y s)
          | none => putSource y s)))

/-- PARITY_FAULT (R363; island 0's units: DESIGN CHOICE, log 216), PARTIAL_RESET, ISLAND_RESET, ISLAND_UNFENCE (R368, R372; the ledger's
record: log 46). -/
def Obligations.IslandsAreResetOneAtATime : Prop :=
  (∀ (island cause : Nat) (s : State), 1 ≤ island → island ≤ 60 → s.power.running = true → s.power.update.switching = none →
    (∀ j ∈ s.fenced.toList ++ s.resetQueue ++ s.power.update.waitingReset, j.island ≠ island) →
    let j : ResetJob := { island := island, cause := cause, since := steadyNs s, cmd := none }
    (s.fenced = none → ∃ t, exec (.partialReset island cause) s = .next t ∧ t.fenced = some j ∧ t.resetQueue = s.resetQueue
      ∧ (t.islands[island]?).map (·.ready) = (s.islands[island]?).map (fun _ => false)
      ∧ ∀ (n : Nat) (x : Lock), s.locks[n]? = some x → x.held = true → ownerIsland x.owner = island →
          t.locks[n]? = some ({ held := false, owner := 0, broken := true } : Lock))
    ∧ (∀ k, s.fenced = some k → ∃ l₁ l₂, s.resetQueue = l₁ ++ l₂
        ∧ exec (.partialReset island cause) s = .next { s with resetQueue := l₁ ++ j :: l₂ }
        ∧ (∀ x ∈ l₁, ¬ (j.since < x.since ∨ (j.since = x.since ∧ j.island < x.island)))
        ∧ ∀ x, l₂.head? = some x → j.since < x.since ∨ (j.since = x.since ∧ j.island < x.island)))
  ∧ (∀ (q cid : Nat) (c : HostCmd) (s : State), Accepts (.islandReset q cid) c s → s.fenced = none → s.power.update.switching = none →
      ∃ t, exec (.islandReset q cid) s = .next t
        ∧ t.fenced = some { island := arg c 0 1, cause := 0, since := steadyNs s, cmd := some (q, cid) })
  ∧ (∀ (unit reg_ : Nat) (s : State), s.power.running = true → unit < 256 →
      (∀ island, 1 ≤ island → island ≤ 60 → s.power.update.switching = none → s.fenced = none →
        (∀ j ∈ s.resetQueue ++ s.power.update.waitingReset, j.island ≠ island) → ∃ t, exec (.parityFault island unit reg_) s = .next t
          ∧ t.fenced = some { island := island, cause := 0x0013, since := steadyNs s, cmd := none }
          ∧ (island < 40 → (t.islands[island]?).map (·.safe) = (s.islands[island]?).map (fun x => setAdd unit x.safe)))
      ∧ (∀ x, s.pins[unit]? = some x → ∃ t, exec (.parityFault 0 unit reg_) s = .next t
          ∧ (t.pins[unit]?).map (fun y => (y.mode, y.par)) = some (.disabled, x.par)))
  ∧ (∀ (unit reg_ : Nat) (s : State), s.power.running = false → s.power.recovery = true → unit < 256 →
      let t := logErr 0x0013 2 unit s { arg0 := reg_ }
      exec (.parityFault 2 unit reg_) s = .next { t with islands := upd t.islands 2 fun x => { x with safe := setAdd unit x.safe } })
  ∧ (∀ (j : ResetJob) (y : Island) (s : State), s.fenced = some j → s.power.running = true → s.resetQueue = [] → j.cmd = none →
      j.island ≠ 2 → s.islands[j.island]? = some y →
      (y.bootFenced = false → y.ready = true → atBeat s.band = true → ∃ t, exec (.islandUnfence true) s = .next t ∧ t.fenced = none
        ∧ (t.islands[j.island]?).map (fun z => (z.safe, z.bootFenced)) = some ([], false))
      ∧ (y.bootFenced = false → y.ready = false ∨ atBeat s.band = false → exec (.islandUnfence true) s = .next s)
      ∧ (y.bootFenced = true → ∀ ok, ∃ t, exec (.islandUnfence ok) s = .next t ∧ t.fenced = none
          ∧ (t.islands[j.island]?).map (·.bootFenced) = some true)
      ∧ (y.bootFenced = false → ∃ t, exec (.islandUnfence false) s = .next t ∧ t.fenced = none ∧ (t.islands[j.island]?).map (·.bootFenced) = some true
          ∧ j.island ∈ t.power.ledger.failedTests))

/-- DEMAND_FILL, PAGE_FILL_COMPLETE (R162, R166), PAGE_SPILL, PAGE_SPILL_COMPLETE (R164, R166), with their cells of the reserve floor
(R338, R341, R357); which pool and how many cells a transfer takes is DESIGN CHOICE, log 195. -/
def Obligations.PagesMoveBetweenTiers : Prop :=
  (∀ (n : Nat) (p : Page) (s : State), tabGet n s.aviary.pages = some p →
    (n ∈ s.aviary.fills → p.tier = .warm ∨ p.tier = .cold → kvGran s ≤ hotFree s →
      (∀ h u, takeTransfer s = some (h, u) →
        (p.backCold = false ∨ canAsk s = true → ∃ t, exec (.demandFill n) s = .next t ∧ t.aviary.fills = s.aviary.fills
          ∧ tabGet n t.aviary.pages = some { p with
              tier := .moving, source := p.tier, cells := h, frame := freeRun (hotUsed s) (kvGran s), lastUse := curBeat s })
        ∧ (p.backCold = true → canAsk s = false → p.count ≠ 0 → ∃ t, exec (.demandFill n) s = .next t
          ∧ (tabGet n t.aviary.pages).map (fun q => (q.tier, q.poison, q.fillStatus)) = some (.hot, true, 0x0504)))
      ∧ (takeTransfer s = none → exec (.demandFill n) s = .next (if s.aviary.starved.contains n then s
          else logErr 0x0638 39 0 { s with aviary := { s.aviary with starved := setAdd n s.aviary.starved } }
            { arg0 := (moverPool s).getD 0 })))
    ∧ (hotFree s < kvGran s → exec (.demandFill n) s = .next s)
    ∧ (p.tier = .moving → n ∉ s.aviary.spills → p.count ≠ 0 ∨ p.prefetched = true →
      let v : State := { s with aviary := { s.aviary with fills := setDel n s.aviary.fills } }
      let data := transferData s p (backTier p) p.backFrame
      (p.backCold = false ∨ canAsk s = true → data.2 = none → exec (.pageFillComplete n true) s = .next
        (updPage n (fun p => { p with tier := .hot }) (putFrame .hot p.frame data.1 (dropTransfer n p v))))
      ∧ (p.backCold = false → ∀ a, data.2 = some a → ∃ t, exec (.pageFillComplete n true) s = .next t
          ∧ tabGet n t.aviary.pages = some { p with tier := .hot, cells := 0, poison := true, fillStatus := 0x0640 })
      ∧ (p.backCold = true → ∃ t, exec (.pageFillComplete n false) s = .next t
          ∧ tabGet n t.aviary.pages = some { p with tier := .hot, cells := 0, poison := true, fillStatus := 0x0504 }
          ∧ (p.cells = 0 → (getSource 38 0 s).captured = none → ((getSource 38 0 t).captured).map (·.status) = some 0x0504)))
    ∧ (p.tier = .moving → n ∈ s.aviary.spills → (∀ ok, exec (.pageFillComplete n ok) s = .next s)
      ∧ let unused := if p.prefetched then s.aviary.unused + 1 else s.aviary.unused
        let v : State := { s with aviary := { s.aviary with spills := setDel n s.aviary.spills, unused := unused } }
        let data := transferData s p p.source p.frame
        let q : Page := { p with tier := backTier p, frame := p.backFrame, prefetched := false }
        (p.count = 0 → ∀ ok, exec (.pageSpillComplete n ok) s = .next (let u := dropTransfer n p v
          { u with aviary := { u.aviary with pages := tabDel n u.aviary.pages } }))
        ∧ (p.count ≠ 0 → p.backCold = false ∨ canAsk s = true → data.2 = none → exec (.pageSpillComplete n true) s = .next
          (updPage n (fun p => { p with tier := backTier p, frame := p.backFrame, prefetched := false })
            (putFrame (backTier p) p.backFrame data.1 (dropTransfer n p v))))
        ∧ (p.count ≠ 0 → p.backCold = true → ∃ t, exec (.pageSpillComplete n false) s = .next t ∧ t.mem.host = s.mem.host
            ∧ tabGet n t.aviary.pages = some { q with cells := 0, poison := true, fillStatus := 0x0504 } ∧ t.aviary.unused = unused)))
  ∧ (∀ s : State, (hotFree s < 128 → (∃ x ∈ s.aviary.pages, x.2.tier = .hot ∧ x.2.pins = 0) →
      ∃ x ∈ s.aviary.pages, x.2.tier = .hot ∧ x.2.pins = 0
        ∧ (∀ y ∈ s.aviary.pages, y.2.tier = .hot → y.2.pins = 0 →
            x.2.lastUse < y.2.lastUse ∨ (x.2.lastUse = y.2.lastUse ∧ x.2.frame ≤ y.2.frame))
        ∧ ∃ t, exec .pageSpill s = .next t ∧ (tabGet x.1 s.aviary.pages = some x.2 →
            (∀ h u, takeTransfer s = some (h, u) → x.2.backCold = false ∨ canAsk s = true → t.aviary.spills = setAdd x.1 s.aviary.spills
              ∧ tabGet x.1 t.aviary.pages = some { x.2 with tier := .moving, source := .hot, cells := h })
            ∧ (takeTransfer s = none → t.aviary.spills = s.aviary.spills ∧ t.aviary.pages = s.aviary.pages)))
    ∧ (128 ≤ hotFree s → 1024 ≤ warmFrames - (backUsed s false).length → exec .pageSpill s = .next s))

/-- SLOW_PATH_PACKET (R187), RTP_PACKET (R188 to R192), INTERLEAVED_RTP_SEGMENT (R195), REORDER_WINDOW_EXPIRY (R190), FRAME_RELEASE
(R183). The answers of the slow path are PRESUMED of their standards, log 179; what an overflow releases, DEDUCED, log 176. -/
def Obligations.PacketsReachTheirStream : Prop :=
  ∀ s : State, s.power.running = true → (∀ u, unitFenced s 3 u = false) → asleep s 3 = false →
    (∀ (port : Nat) (e : EthPort), s.eth[port]? = some e →
      let count (f : EthPort → EthPort) : State := { s with eth := s.eth.set port (f e) }
      let start := if e.slowFrom + 1000000000 ≤ steadyNs s then steadyNs s else e.slowFrom
      let seen := if e.slowFrom + 1000000000 ≤ steadyNs s then 0 else e.slowCount
      let taken := count fun e => { e with slowFrom := start, slowCount := seen + 1, slowTaken := e.slowTaken + 1 }
      exec (.slowPathPacket port .pauseFrame) s = .next (count fun e => { e with pauseDropped := e.pauseDropped + 1 })
      ∧ exec (.slowPathPacket port .unsupported) s = .next (count fun e => { e with unsupported := e.unsupported + 1 })
      ∧ (seen < 100000 →
          (∀ k ∈ [SlowKind.arp, .neighborDiscovery none, .icmpEcho],
            exec (.slowPathPacket port k) s = .next (emit (.slowAnswer port k) taken))
          ∧ (∀ k, (∃ n, k = SlowKind.rtcpBye n) ∨ k = .rtcpOther ∨ k = .unmatchedUdp → exec (.slowPathPacket port k) s = .next taken)
          ∧ (∀ netPrefix, exec (.slowPathPacket port (.neighborDiscovery (some netPrefix))) s = .next (autoAddress port netPrefix taken))
          ∧ (∀ ipv6 v, exec (.slowPathPacket port (.membershipQuery ipv6 v)) s = .next (answerQuery port ipv6 v taken))
          ∧ (∀ p a, e.net = some p → p.dhcp = true →
            exec (.slowPathPacket port (.dhcp (.offer a))) s = .next (emit (.dhcpRequest port a) taken)
            ∧ exec (.slowPathPacket port (.dhcp (.ack a))) s = .next (count fun e => { e with
                slowFrom := start, slowCount := seen + 1, slowTaken := e.slowTaken + 1, lease := some a })))
      ∧ (∀ k, k ∉ [SlowKind.pauseFrame, .unsupported] →
          (100000 ≤ seen → exec (.slowPathPacket port k) s = .next (count fun e => { e with
              slowFrom := start, slowCount := seen, slowDropped := e.slowDropped + 1 }))))
    ∧ (∀ p : RtpPacket, p.port < 2 →
      (packetStream s p = none → exec (.rtpPacket p) s = exec (.slowPathPacket p.port .unmatchedUdp) s)
      ∧ ∀ (n : Nat) (x : Stream) (f : Flow), packetStream s p = some n → stream? s n = some x → x.rtp.flow = some f →
        let ok : Bool := p.version == 2 && p.payloadType == f.payloadType && !p.fragmented && !p.options
          && !nalExcluded f.hevc (rtpPayload p) && p.checksOk
        let rtp (r : Rtp) : State := { s with streams := s.streams.set n (some { x with rtp := r }) }
        let k := 65536 + p.seq
        (ok = false → exec (.rtpPacket p) s = .next (rtp { x.rtp with discarded := x.rtp.discarded + 1 }))
        ∧ (x.cfg.source = 0 → x.rtsp.transport = 2 → n < 128 → s.streams[n]? = some (some x) →
            exec (.interleavedRtpSegment n p) s = exec (.rtpPacket p) s)
        ∧ (ok = true → x.rtp.pieces = [] → x.rtp.expected = none → x.rtp.released = none → x.rtsp.phase = .playing →
            (f.ssrc = none → x.rtp.ssrc = none ∨ x.rtp.ssrc = some p.ssrc) → x.rtp.cut ≠ some p.ts →
            queueCells x + cellsOf ((rtpPayload p).length + 4) ≤ ingestCells x.cfg none →
            (p.marker = false → exec (.rtpPacket p) s = .next (rtp { x.rtp with
              pieces := [(k, { ts := p.ts, marker := false, payload := rtpPayload p, stamp := p.stamp })]
              expected := some (k + 1), ssrc := some p.ssrc, lastArrival := steadyNs s }))
            ∧ (p.marker = true → (∀ y ∈ x.frames, y.id < x.nextId) → ∃ t g, exec (.rtpPacket p) s = .next t
                ∧ (stream? t n).map (fun y => (y.nextId, y.frames, y.rtp.pieces)) = some (x.nextId + 1, x.frames ++ [g], [])
                ∧ g.id = x.nextId ∧ g.stamp = p.stamp)))
    ∧ (∀ (n t0 : Nat) (x : Stream), s.streams[n]? = some (some x) → windowFrom x.rtp = some t0 → (∀ y ∈ x.frames, y.id < x.nextId) →
      (t0 + 50000 * x.cfg.wr ≤ nowNs s → ∃ t y g, exec (.reorderWindowExpiry n) s = .next t
        ∧ stream? t n = some y ∧ g ∈ y.frames ∧ g.id = x.nextId ∧ g.lost = true)
      ∧ (nowNs s < t0 + 50000 * x.cfg.wr → exec (.reorderWindowExpiry n) s = .next s))
    ∧ (∀ (n : Nat) (x : Stream) (f : Frame), s.streams[n]? = some (some x) → nextQueued x = some f →
      let moved (g : Frame → Frame) : State :=
        { s with streams := s.streams.set n (some { x with frames := x.frames.map fun y => if y.id = f.id then g y else y }) }
      (heldFrames x < 3 → decodePaused s x = false →
        (isCoded x = true → exec (.frameRelease n) s = .next (moved fun y => stamp 0 (nowNs s) { y with
          stage := .landing, landed := true }))
        ∧ (isCoded x = false → exec (.frameRelease n) s = .next (moved fun y =>
            stamp 1 (nowNs s) { stamp 0 (nowNs s) { y with stage := .landing, landed := true } with stage := .ready })))
      ∧ (3 ≤ heldFrames x ∨ decodePaused s x = true → exec (.frameRelease n) s = .next s))

/-- RTSP_RESPONSE, RTSP_KEEPALIVE (R193), SOURCE_LOST, RECONNECT (R194), MULTICAST_REPORT, RTCP_REPORT (R196; the interval of 5 s is
PRESUMED, log 25). What a failed authentication of an open stream does is DEDUCED, log 178. -/
def Obligations.SessionsFollowTheirSource : Prop :=
  ∀ (n : Nat) (x : Stream) (s : State), s.streams[n]? = some (some x) → s.power.running = true →
    let stays (y : Stream) (os : List Out) : State := { s with streams := s.streams.set n (some y), out := s.out ++ os }
    let good (r : RtspResponse) : Prop := r.unauthorised = false ∧ r.redirect = none ∧ r.code < 400
    let asks (y : Stream) (m : Nat) : List Out := [.rtspRequest n (rtspRequestOf y m)]
    (∀ r, x.cfg.source = 0 → good r → x.rtsp.phase = .options → exec (.rtspResponse n r) s = .next (stays { x with
      rtsp := { x.rtsp with getParameter := r.getParameter, phase := .describe, lastSent := steadyNs s } } (asks x 1)))
    ∧ (∀ r m, x.cfg.source = 0 → good r → x.rtsp.phase = .describe → chosenMedia r.media = some m → m.interleaved = false → m.donDiff = 0 →
        x.rtsp.transport ≠ 2 → exec (.rtspResponse n r) s = .next (stays { x with
          rtsp := { x.rtsp with media := some m, phase := .setup, lastSent := steadyNs s } }
          (asks { x with rtsp := { x.rtsp with media := some m } } 2)))
    ∧ (∀ r, x.cfg.source = 0 → good r → x.rtsp.phase = .setup → x.rtsp.transport = 0 → flowTaken s n (rtspFlow x r) = false →
        exec (.rtspResponse n r) s = .next (stays { x with
          rtp := { x.rtp with flow := some (rtspFlow x r) }
          rtsp := { x.rtsp with timeout := if r.sessionTimeout = 0 then 60 else r.sessionTimeout, phase := .play, lastSent := steadyNs s } }
          (asks x 3)))
    ∧ (∀ r, x.cfg.source = 0 → good r → x.rtsp.phase = .play → refusesOpen s n x = true → ∃ t, exec (.rtspResponse n r) s = .next t
        ∧ stream? t n = none)
    ∧ (∀ r, x.cfg.source = 0 → r.code = 505 → x.rtsp.version = 2 → x.rtsp.phase ∈ [RtspPhase.options, .describe, .setup, .play] →
        exec (.rtspResponse n r) s = .next (stays { x with rtsp := { x.rtsp with version := 1, lastSent := steadyNs s } }
          (asks { x with rtsp := { x.rtsp with version := 1 } } (phaseMethod x.rtsp.phase))))
    ∧ (∀ r, x.cfg.source = 0 → good r → x.rtsp.phase = .play → refusesOpen s n x = false → ∃ t, exec (.rtspResponse n r) s = .next t
        ∧ (stream? t n).map (fun y => (y.rtsp.phase, y.rtsp.openCmd, y.rtp.pieces.isEmpty, y.dec.joined)) = some (.playing, none, true, false))
    ∧ (∀ r, x.cfg.source = 0 → oldServer x r = false → r.unauthorised = true → x.rtsp.phase ∈ [RtspPhase.options, .describe, .setup, .play] →
        (∀ c l, r.challenges = c :: l → x.rtsp.auth = none → exec (.rtspResponse n r) s = .next (stays { x with
          rtsp := { x.rtsp with auth := some c, lastSent := steadyNs s } }
          (asks { x with rtsp := { x.rtsp with auth := some c } } (phaseMethod x.rtsp.phase))))
        ∧ (r.challenges = [] ∨ x.rtsp.auth.isSome = true → ∃ t, exec (.rtspResponse n r) s = .next t
          ∧ (x.rtsp.openCmd.isSome = true → stream? t n = none)
          ∧ (x.rtsp.openCmd = none → (stream? t n).map (·.rtsp.phase) = some .failed)))
    ∧ (∀ r u, x.cfg.source = 0 → oldServer x r = false → r.unauthorised = false → r.redirect = some u → x.rtsp.redirects < 3 →
        x.rtsp.phase ∈ [RtspPhase.options, .describe, .setup, .play] →
        let y : Stream := { x with rtsp := { x.rtsp with redirects := x.rtsp.redirects + 1, url := u, auth := none, media := none } }
        exec (.rtspResponse n r) s = .next (stays { y with rtsp := { y.rtsp with phase := .options, lastSent := steadyNs s } } (asks y 0)))
    ∧ (∀ i, refusesOpen s n x = false → (∃ r : RtspResponse, i = .rtspResponse n r ∧ oldServer x r = false ∧ r.unauthorised = false ∧ r.redirect = none ∧ 400 ≤ r.code ∧ x.cfg.source = 0
            ∧ x.rtsp.phase = .play ∧ x.rtsp.attempts = 0)
          ∨ (i = .sourceLost n .keepAlive ∧ x.cfg.source = 0 ∧ x.rtsp.phase = .playing)
          ∨ (i = .sourceLost n .bye ∧ x.cfg.source ≤ 1 ∧ x.rtsp.phase = .playing)
          ∨ (i = .sourceLost n .idle ∧ x.cfg.source ≤ 1 ∧ x.rtsp.phase = .playing ∧ x.rtp.lastArrival + idleNs x ≤ steadyNs s) →
        ∃ t, exec i s = .next t ∧ (stream? t n).map (fun y => (y.rtsp.phase, y.rtsp.retryAt, y.rtsp.attempts))
          = some (.lost, steadyNs s + 1000000000, 0))
    ∧ (x.cfg.source = 0 → x.rtsp.phase = .lost → x.rtsp.retryAt ≤ steadyNs s → exec (.reconnect n) s = .next (stays { x with
        rtsp := { x.rtsp with attempts := x.rtsp.attempts + 1, redirects := 0, url := hostUrl x.sec, auth := none, media := none, version := 2
                              phase := .options, lastSent := steadyNs s } }
        [.rtspRequest n { method := 0, url := hostUrl x.sec, transport := none, auth := none }]))
    ∧ (x.cfg.source = 0 → x.rtsp.phase = .playing → x.rtsp.lastSent + x.rtsp.timeout * 500000000 ≤ steadyNs s →
        exec (.rtspKeepalive n) s = .next (stays { x with rtsp := { x.rtsp with phase := .playing, lastSent := steadyNs s } }
          (asks x (if x.rtsp.getParameter then 4 else 0))))
    ∧ (0 < x.rtsp.reportsLeft → x.rtsp.reportAt ≤ steadyNs s → exec (.multicastReport n) s = .next (stays { x with
        rtsp := { x.rtsp with reportsLeft := x.rtsp.reportsLeft - 1, reportAt := steadyNs s + 1000000000 } } ((streamReports s n).map .membershipReport)))
    ∧ (x.cfg.source ≤ 1 → x.rtsp.phase = .playing → x.rtsp.rtcpAt + 5000000000 ≤ steadyNs s → exec (.rtcpReport n) s =
        .next (stays { x with rtsp := { x.rtsp with rtcpAt := steadyNs s } } [.rtcpReport n]))

/-- FRAME_START_PACKET, LINE_PACKET, FRAME_END_PACKET, DPHY_SYNC_LOSS (R201 to R203). -/
def Obligations.SensorFramesAreCaptured : Prop :=
  (∀ (port channel : Nat) (s : State), port < 4 → channel < 4 → s.power.running = true → unitFenced s 4 port = false →
    asleep s 4 = false → captureStream s port channel = none → ∀ number at_ dt payload ok,
    ∀ i ∈ [Instr.frameStartPacket port channel number at_, .frameEndPacket port channel number
        , .linePacket port channel dt payload true ok at_],
      exec i s = .next (logErr 0x0118 4 port { s with sensors := upd s.sensors port fun p => { p with discarded := p.discarded + 1 } }
        { arg0 := port }))
  ∧ ∀ (port channel n : Nat) (x : Stream) (cap : Capture) (s : State), port < 4 → channel < 4 → s.power.running = true →
    unitFenced s 4 port = false → asleep s 4 = false → captureStream s port channel = some n → stream? s n = some x → x.capture = some cap →
    let opened (number at_ : Nat) : CaptureFrame :=
      { number := number, stamp := at_, lines := 0, head := 0, tailCell := 0, damaged := 0, truncated := 0, extra := 0, complete := false
        id := 0 }
    let captures (c : Capture) : State := { s with streams := s.streams.set n (some { x with capture := some c }) }
    let discard (p : SensorPort) : SensorPort := { p with discarded := p.discarded + 1 }
    (∀ number at_, cap.frame = none →
      (cap.pending = none → exec (.frameStartPacket port channel number at_) s = .next (captures { cap with
        frame := some (opened number at_) }))
      ∧ (∀ t0 l, cap.pending = some (t0, l) → t0 < steadyNs s → ∃ t, exec (.frameStartPacket port channel number at_) s = .next t
          ∧ (stream? t n).map (·.capture) = some (some { cap with active := cap.shadow, pending := none, frame := some (opened number at_) })))
    ∧ (∀ dt payload ok at_, exec (.linePacket port channel dt payload false ok at_) s = .next (logErr 0x0115 4 port
        { s with sensors := upd s.sensors port fun p => { p with eccErrors := p.eccErrors + 1 } } { arg0 := port }))
    ∧ (∀ dt payload ok at_, cap.active.dataType ≠ dt → exec (.linePacket port channel dt payload true ok at_) s = .next (logErr 0x0118 4 port
        { s with sensors := upd s.sensors port discard } { arg0 := port }))
    ∧ (∀ (c : CaptureFrame) payload at_, cap.frame = some c → c.complete = false → c.damaged = 0 →
        let dt := cap.active.dataType
        let b := lineBytes dt cap.active.width
        let line := exec (.linePacket port channel dt payload true true at_) s
        (payload.length < b → ∃ t, line = .next t ∧ ((stream? t n).bind (·.capture)).map (·.frame)
          = some (some { c with damaged := 0x0114, head := 0, tailCell := 0, lines := c.lines + 1 }))
        ∧ (b ≤ payload.length → (storeLine (landClass s x 3) n x.cfg.pool c.tailCell (c.lines + 1 == cap.active.height) (payload.take b) s).isSome = true →
            (c.lines + 1 ≠ cap.active.height → ∃ t, line = .next t
              ∧ (((stream? t n).bind (·.capture)).bind (·.frame)).map (fun y => (y.lines, y.damaged, y.complete)) = some (c.lines + 1, 0, false))
            ∧ (c.lines + 1 = cap.active.height → (∀ y ∈ x.frames, y.id < x.nextId) → ∃ t f, line = .next t
              ∧ (stream? t n).map (fun y => (y.nextId, y.frames)) = some (x.nextId + 1, x.frames ++ [f]) ∧ f.id = x.nextId
              ∧ f.stamp = at_ ∧ f.set = some cap.active)))
    ∧ (∀ (c : CaptureFrame) (i : Instr) (st number : Nat), cap.frame = some c → c.complete = false → (∀ y ∈ x.frames, y.id < x.nextId) →
        (i, st) = (.frameEndPacket port channel number, 0x0112) ∨ ((i, st) = (.dphySyncLoss port, 0x0119) ∧ cap.active.port = port ∧ n < 128) →
        ∃ t f, exec i s = .next t ∧ (stream? t n).map (·.frames) = some (x.frames ++ [f])
          ∧ ((stream? t n).bind (·.capture)).map (·.frame) = some none
          ∧ (f.id, f.reason, f.status, f.stamp) = (x.nextId, reasonDamaged, if c.damaged = 0 then st else c.damaged, c.stamp))
    ∧ (∀ number, cap.frame = none → exec (.frameEndPacket port channel number) s = .next s)

/-- PICTURE_DECODE_START (R214, R220, R225), PICTURE_DECODE_COMPLETE (R216 to R229, R235), FOUNTAIN_WATCHDOG (R225, R290). The
output process is PRESUMED of H.265, log 180. -/
def Obligations.PicturesAreDecodedAndJudged : Prop :=
  ∀ (k : Nat) (u : Fountain) (s : State), s.fountains[k]? = some u →
    let idle : List Fountain := s.fountains.set k { u with busy := none, reads := [], writes := [] }
    (u.busy = none → u.paused = false → islandFenced s (5 + k) = false → asleep s (5 + k) = false → s.power.running = true →
      (∀ (g : PictureFacts) (n : Nat) (x : Stream) (f : Frame), fountainChoice s k = some (.stream n f.id) → stream? s n = some x →
        frameOf x f.id = some f →
        (f.reason ≠ 0 → g.isReference = false → ∀ y, stream? (parseStream n g f (parseChain n f.head s)) n = some y →
          let h := headersOnly g
          let out := entersOutput y.dec h
          let o := outputStep y.dec h (judge y.cfg y.dec f.lost h false) out
            { currentPicture y.cfg y.dec h (judge y.cfg y.dec f.lost h false) [] f.id f.stamp 0 with bare := true }
          ∃ t, exec (.pictureDecodeStart k g) s = .next t ∧ t.fountains = s.fountains
            ∧ (stream? t n).map (·.dec.nextDec) = some (x.dec.nextDec + 1)
            ∧ (o.released = [] → o.removed = [] →
                (getFrame t n f.id).map (fun z => (z.stage, z.store, z.num.isSome))
                  = some (if out then (.reordering, none, f.num.isSome) else (.skipped, none, true))))
        ∧ (f.reason = 0 ∨ g.isReference = true →
          (∀ w, freeStore x = some w → ∃ t reads, exec (.pictureDecodeStart k g) s = .next t
            ∧ t.fountains = s.fountains.set k { u with
                busy := some (.stream n f.id, g, steadyNs s), store := w, reads := reads, writes := [(storeAt x w, storeSize x.cfg)] }
            ∧ (getFrame t n f.id).map (fun y => (y.stage, y.facts)) = some (.decoding, some g))
          ∧ (freeStore x = none → exec (.pictureDecodeStart k g) s = .next s)))
      ∧ (∀ (g : PictureFacts) (i : Nat) (c : Clip), fountainChoice s k = some (.clip i) → s.clips[i]? = some (some c) → c.sources ≠ [] →
        ∀ w, freeClipStore c = some w → ∃ t reads, exec (.pictureDecodeStart k g) s = .next t
          ∧ t.fountains = s.fountains.set k { u with
              busy := some (.clip i, g, steadyNs s), store := w, reads := reads, writes := [(clipStoreAt c w, storeSize c.cfg)] }
          ∧ t.clips[i]? = some (some { c with dec := parsePicture g c.dec })))
    ∧ (∀ (g : PictureFacts) (n id t0 : Nat) (x : Stream) (f : Frame), u.busy = some (.stream n id, g, t0) → stream? s n = some x →
        getFrame s n id = some f →
        let j := judge x.cfg x.dec f.lost g (readChain chainFuel f.head s).bad.isSome
        let o := outputStep x.dec g j (entersOutput x.dec g) (currentPicture x.cfg x.dec g j (readChain chainFuel f.head s).bytes id f.stamp u.store)
        (∃ t, exec (.pictureDecodeComplete k) s = .next t ∧ t.fountains = idle
          ∧ (stream? t n).map (fun y => (y.dec.nextDec, y.dec.joined)) = some (x.dec.nextDec + 1, x.dec.joined || g.irap)
          ∧ (o.released = [] → o.removed = [] →
              (f.reason = 0 → (j.damaged = true →
                  (getFrame t n id).map (fun y => (y.reason, y.status)) = some (reasonDamaged, j.status))
                ∧ (j.damaged = false → j.concealed = true → x.analyseConcealed = false →
                  (getFrame t n id).map (fun y => (y.reason, y.status)) = some (reasonConcealed, j.status)))
              ∧ (getFrame t n id).map (·.stage) = some (if entersOutput x.dec g then .reordering else .skipped)))
        ∧ (t0 + 50000000 ≤ steadyNs s → ∃ t, exec (.fountainWatchdog k) s = .next t ∧ t.fountains = idle
            ∧ (getFrame t n id).map (fun y => (y.stage, y.reason, y.status))
              = some (if f.reason = 0 then (.skipped, reasonFault, 0x0213) else (.skipped, f.reason, f.status)))
        ∧ (steadyNs s < t0 + 50000000 → exec (.fountainWatchdog k) s = .next s))
    ∧ (∀ (g : PictureFacts) (i t0 : Nat) (c : Clip), u.busy = some (.clip i, g, t0) → s.clips[i]? = some (some c) →
        (c.sources ≠ [] → ∃ t d, exec (.pictureDecodeComplete k) s = .next t ∧ t.fountains = idle ∧ t.clips[i]? = some (some d)
          ∧ d.sources = c.sources.drop 1 ∧ d.dec.nextDec = c.dec.nextDec + 1)
        ∧ (t0 + 50000000 ≤ steadyNs s → ∃ t, exec (.fountainWatchdog k) s = .next t ∧ t.clips[i]? = some none))

/-- TOPIARY_TAKE (R245, R284), SLOT_GRANT (R256), SLOT_WRITE_COMPLETE (R256, R257, R358; no crop: DEDUCED, log 29). -/
def Obligations.CropsTakeSlotsOfABatch : Prop :=
  ∀ (k : Nat) (u : Topiary) (s : State), s.topiaries[k]? = some u →
    (islandFenced s (9 + k) = false → asleep s (9 + k) = false → s.power.running = true →
      let takes (lc : Bool) (n : Nat) (x : Stream) (f : Frame) (held : Option TopiaryJob) : Prop :=
        topiaryChoice s k lc = some (n, x, f) → stream? s n = some x → frameOf x f.id = some f → f.reason = 0 →
        (∀ r st, timeTest x f false (nowNs s) = some (r, st) → r ≠ 0 → ∃ t, exec (.topiaryTake k) s = .next t
          ∧ (getFrame t n f.id).map (fun y => (y.stage, y.reason, y.status)) = some (.skipped, r, st)
          ∧ t.topiaries = s.topiaries.set k { cur := none, suspended := held })
        ∧ (timeTest x f false (nowNs s) = none → (cropList x f).1 ≠ [] → ∃ t, exec (.topiaryTake k) s = .next t
          ∧ (getFrame t n f.id).map (fun y => (y.stage, y.crops)) = some (.cropping, (cropList x f).1)
          ∧ t.topiaries = s.topiaries.set k
              { cur := some { stream := n, frame := f.id, be := !isLc x, asked := true, granted := false }, suspended := held })
        ∧ (timeTest x f false (nowNs s) = none → (cropList x f).1 = [] → ∃ t, exec (.topiaryTake k) s = .next t
          ∧ (getFrame t n f.id).map (·.stage) = some .detected)
      (∀ n x f, u.cur = none → takes u.suspended.isSome n x f u.suspended)
      ∧ (∀ j n x f, u.cur = some j → j.be = true → u.suspended = none → takes true n x f (some j))
      ∧ (u.cur = none → topiaryChoice s k u.suspended.isSome = none → exec (.topiaryTake k) s = .next { s with
          topiaries := s.topiaries.set k { cur := u.suspended, suspended := none } }))
    ∧ (∀ (j : TopiaryJob) (x : Stream) (f : Frame) (y : Batch), u.cur = some j → stream? s j.stream = some x →
        frameOf x j.frame = some f → (s.score.batches[x.cfg.batch]?).bind (·.cur) = some y →
        let g := grantAt s k x.cfg.batch f.crops.length
        let test := g.1.bind fun t => timeTest x f true t
        (j.granted = false → test = none → g.2 = true → ∃ t, exec (.slotGrant k) s = .next t
          ∧ ((t.score.batches[x.cfg.batch]?).bind (·.cur)).map (·.slots) = some (y.slots ++ (f.crops.zipIdx.map fun c =>
              cropSlot (geom s x.cfg.batch) j.stream f c.2 c.1))
          ∧ (getFrame t j.stream j.frame).map (fun z => (z.stage, z.slotAt)) = some (.waiting, some (x.cfg.batch, y.num, y.slots.length))
          ∧ t.topiaries = s.topiaries.set k { u with cur := some { j with granted := true } })
        ∧ (j.granted = false → test = none → g.2 = false → exec (.slotGrant k) s = .next s)
        ∧ (∀ r st, j.granted = false → test = some (r, st) → f.reason = 0 → r ≠ 0 → ∃ t, exec (.slotGrant k) s = .next t
            ∧ (getFrame t j.stream j.frame).map (fun z => (z.stage, z.reason, z.status)) = some (.skipped, r, st)
            ∧ t.topiaries = s.topiaries.set k { u with cur := none }))
    ∧ (∀ (j : TopiaryJob) (x : Stream) (f : Frame) (b num first : Nat), u.cur = some j → stream? s j.stream = some x →
        frameOf x j.frame = some f → f.slotAt = some (b, num, first) →
        (∀ src y z i, frameSource s x f = .ok src → getBatch s b num = some y →
          (y.slots.zipIdx.find? fun c => decide (first ≤ c.2 ∧ c.2 < first + f.crops.length) && !c.1.written) = some (z, i) →
          ∃ t, exec (.slotWriteComplete k) s = .next t ∧ (((getBatch t b num).map (·.slots)).bind (·[i]?)).map (·.written) = some true)
        ∧ (∀ r bad, frameSource s x f = .error (r, bad) → f.reason = 0 → r ≠ 0 → token s (geom s b).filltok < 65535 →
          ∃ t, exec (.slotWriteComplete k) s = .next t
            ∧ (getFrame t j.stream j.frame).map (fun z => (z.reason, z.status)) = some (r, 0x0640)
            ∧ t.topiaries = s.topiaries.set k { u with cur := none }))

/-- TRAINING_JOB_START (R266) and TRAINING_JOB_COMPLETE (R267 to R269). -/
def Obligations.TrainingMakesCandidates : Prop :=
  ∀ s : State,
    (s.trainRunning = none → s.trainPending ≠ [] → scoreRuns s = true → s.power.update.switching = none →
      ∃ j ∈ s.trainPending, (∀ i ∈ s.trainPending, j.since ≤ i.since)
        ∧ exec .trainingJobStart s = .next { s with trainRunning := some j, trainPending := s.trainPending.erase j })
    ∧ (∀ (j : TrainJob) (x : Stream) (b : Nat), s.trainRunning = some j → stream? s j.stream = some x → trainingBatch s = some b →
        s.power.update.switching = none →
        let set := s.samples.filter fun k => k.stream == j.stream && j.samples.contains (k.frame, k.slot.crop)
        let start := if j.start.isEmpty then zeroAdapter s else j.start
        let r := runTraining b x j (set.filter fun k => k.frame % 8 != 7) s
        let c : Candidate := { trigger := j.trigger, codes := r.2, digest := adapterDigest r.2 }
        let pass := gatePasses r.1 x (set.filter fun k => k.frame % 8 == 7) start r.2
        ∃ t, exec .trainingJobComplete s = .next t ∧ t.trainRunning = none ∧ t.trainPending = s.trainPending
          ∧ (stream? t j.stream).map (fun y => (y.newestDigest, y.newestTrigger, y.adapter)) = some (c.digest, c.trigger, x.adapter)
          ∧ (stream? t j.stream).map (·.autoAdopt) = some (if pass && !x.hold then x.autoAdopt ++ [c] else x.autoAdopt)
          ∧ (stream? t j.stream).map (·.candidate) = some (if pass && x.hold then some c else x.candidate)
          ∧ (pass = false → s.mbx.session.isSome = true → s.mbx.notices.length < 64 →
              t.mbx.notices = s.mbx.notices ++ [{ status := 0x0305, stream := j.stream, result := j.trigger }]))

/-- RECORD_FORM (R282, R288, R422, R440), RECORD_EMIT (R286, R437, R439), PIN_NOTICE (R44, R436). The marks of R362 as operands are
DESIGN CHOICE, log 117. -/
def Obligations.RecordsLeaveInFrameOrder : Prop :=
  ∀ s : State, islandFenced s 1 = false → s.power.running = true → timeFrozen s = false →
    (∀ (n num : Nat) (x : Stream) (f : Frame), s.streams[n]? = some (some x) → formNext s n x = some f → f.num = some num →
      (∀ g ∈ x.frames, formable s n x g = true → f.num.getD 0 ≤ g.num.getD 0)
      ∧ ∀ marked again : Bool,
        ((f.reason = 0 → commitWaits s n num x = []) →
          let g := if marked && again then markedFrame f else f
          (unackedBytes (formClean n num x f marked again s) ≤ 262144 → ∃ t y, exec (.recordForm ⟨n, marked, again⟩) s = .next t
            ∧ stream? t n = some y ∧ (∃ r ∈ y.formed, r.frame = num) ∧ y.lastOutcome = some num ∧ y.nextEvents = []
            ∧ (getFrame t n f.id).map (·.stage) = some .formed
            ∧ (g.reason ≠ 0 → y.counts = countSkip g.reason x.counts)
            ∧ (g.reason = 0 → y.committed = some (num, f.stamp))
            ∧ (marked = true → again = true → (getFrame t n f.id).map (fun h => (h.reason, h.status)) = some (reasonFault, 0x0611)))
          ∧ (262144 < unackedBytes (formClean n num x f marked again s) → exec (.recordForm ⟨n, marked, again⟩) s = .next s))
        ∧ (f.reason = 0 → commitWaits s n num x ≠ [] → ∃ t, exec (.recordForm ⟨n, marked, again⟩) s = .next t ∧ stream? t n = some x))
    ∧ (∀ (n : Nat) (x : Stream), s.streams[n]? = some (some x) →
      (∀ (r : FormedRecord) (f : Frame), (x.formed.find? fun r => r.frame == x.nextEmit) = some r → frameByNum x x.nextEmit = some f →
        x.closing = false → s.mbx.heldNotices = [] → islandFenced s 2 = false →
        let g := if trailerOk r.bytes || trailerOk r.source then f else markedFrame f
        let kept := if trailerOk r.bytes then r.bytes else if trailerOk r.source then r.source
          else formBytes s n r.frame { x with nextEvents := [] } g []
        ∃ t y, exec (.recordEmit n) s = .next t ∧ stream? t n = some y ∧ y.nextEmit = x.nextEmit + 1
          ∧ y.frames = x.frames.filter (fun g => g.id != f.id) ∧ y.formed = x.formed.filter (fun r => r.frame != x.nextEmit)
          ∧ y.counts = (if g.reason ≠ 0 then x.counts else if 0 < lateness x g (nowNs s) then
              { x.counts with delayed := x.counts.delayed + 1 } else { x.counts with served := x.counts.served + 1 })
          ∧ t.journal.getLast? = some { stream := n, frame := x.nextEmit, recovered := false, bytes := emittedBytes x g (nowNs s) kept })
      ∧ ((x.formed.find? fun r => r.frame == x.nextEmit) = none → exec (.recordEmit n) s = .next s))
    ∧ (s.pins.length = 16 → ∃ t, exec .pinNotice s = .next t ∧ t.pins = s.pins.map (fun p =>
        if p.stamps = [] then p else { p with stamps := [], firstHeld := none }) ∧ t.mbx.cmds = s.mbx.cmds)

/-- CACHE_ACCESS (R302, R308, R309, R321, R369; a partial access takes the one byte at its address, the model's choice, log 194),
DRAM_REQUEST (R320, R324 to R326), BE_REQUEST_PROMOTE (R320), REFRESH_INTERVAL (R322),
REFRESH_ISSUE (R322, R323). -/
def Obligations.RequestsAreServedByRank : Prop :=
  (∀ (a : Nat) (write full mark : Bool) (cls : ReqClass) (s : State), s.power.running = true →
    let i : Instr := .cacheAccess a write full mark cls
    (dramMap s a = none → exec i s = .next (emit (.fenceOutcome 0x0603) s))
    ∧ (∀ k off, dramMap s a = some (k, off) →
      (islandFenced s 39 = true → exec i s = .next (emit (.fenceOutcome 0x0011) s))
      ∧ (islandFenced s 39 = false → portMay a write cls = false → exec i s = .next (emit (.fenceOutcome 0x0603) s))
      ∧ (islandFenced s 39 = false → portMay a write cls = true →
        let en : BitVec 64 := if full then BitVec.allOnes 64 else 1#64 <<< (a % 64)
        let acc : LineAccess :=
          { chan := k, line := off / 64, write := write, enables := en, poisoned := mark, cls := cls, lane := none }
        let r : DramReq := { line := off / 64, write := write, enables := en, overlay := 0, poisoned := mark, cls := cls, lane := none
                             since := steadyNs s, promoted := false, reader := if write then .none else s.mem.reader }
        let levels (t : State) : State := match cls with
          | .realTime _ => updatePanic t
          | _ => t
        let x := (tabGet (setKey k (off / 64)) s.mem.cache).getD emptySet
        let hit (j : Nat) (w : CacheWay) : Prop := x.ways[j]? = some w ∧ w.valid = true ∧ w.line = off / 64
        (∀ j w, hit j w → (∀ m v, hit m v → j ≤ m) → exec i s = .next (levels { s with
          mem := { s.mem with cache := tabPut (setKey k (off / 64)) (touchSet j (hitWay write en mark) x) s.mem.cache } }))
        ∧ ((∀ m v, ¬ hit m v) → classWays s cls = 0 →
            exec i s = .next (levels (if write then presentWrite k r s else presentRead k r s)))
        ∧ ((∀ m v, ¬ hit m v) → 0 < classWays s cls → exec i s = .next (levels (allocateLine acc s))))))
  ∧ (∀ (s : State) (p : Nat), classWays s (.realTime p) = 0)
  ∧ (∀ (k : Nat) (c : Channel) (s : State), s.mem.chans[k]? = some c → s.power.running = true → c.fenced = false →
      c.selfRefresh = false →
    (islandFenced s (40 + k) = false → refreshFirst s k c = false → c.queue ≠ [] → ∀ e, e ≤ 2 →
      ∃ i r t d, c.queue[i]? = some r ∧ exec (.dramRequest k e) s = .next t ∧ t.mem.chans[k]? = some d
        ∧ d.queue = c.queue.eraseIdx i ∧ d.heldBanks = heldAfter r (c.queue.eraseIdx i) c.heldBanks
        ∧ (∀ j x, c.queue[j]? = some x → requestRank s k r < requestRank s k x ∨ (requestRank s k r = requestRank s k x ∧ i ≤ j))
        ∧ (r.write = true → r.poisoned = true → r.line ∈ d.poisonMap)
        ∧ (r.write = true → r.poisoned = false → r.enables = BitVec.allOnes 64 → d.poisonMap = setDel r.line c.poisonMap)
        ∧ (r.write = true → r.poisoned = false → r.enables ≠ BitVec.allOnes 64 → d.poisonMap = c.poisonMap))
    ∧ (refreshFirst s k c = true → ∀ e, e ≤ 2 → exec (.dramRequest k e) s = .next s)
    ∧ (k < 12 → exec (.beRequestPromote k) s = .next (updChan k (fun d => { d with
        queue := c.queue.map fun r => if r.cls = .be ∧ r.since + 10000 ≤ steadyNs s then { r with promoted := true } else r }) s))
    ∧ (12 ≤ k → exec (.beRequestPromote k) s = .next s)
    ∧ exec (.refreshInterval k) s = .next (updChan k (fun _ =>
        if c.owed < 8 then { c with owed := c.owed + 1 } else { c with forced := true }) s)
    ∧ (refreshFirst s k c = true → ∀ p, p < 8 → p ∉ c.round →
        (∀ i, i < 8 → i ∉ c.round → (pairHeld c p = pairHeld c i → p ≤ i) ∧ (pairHeld c p = true → pairHeld c i = true)) →
        exec (.refreshIssue k) s = .next (updChan k (fun _ => { c with
          owed := if c.forced then c.owed else c.owed - 1, forced := false
          round := if 8 ≤ (setAdd p c.round).length then [] else setAdd p c.round
          interrupted := if c.forced && pairHeld c p then c.interrupted + 1 else c.interrupted }) s))
    ∧ (refreshFirst s k c = false → exec (.refreshIssue k) s = .next s))

/-- DRAM_TEMP_POLL (R319), DRAM_ECS_POLL (R326), WCK_TRACK (R330), SCRUB (R305), TLB_INVALIDATE (R316), HOST_READ_ISSUE (R392),
HOST_READ_COMPLETION and COMPLETION_TIMEOUT (R314, R396); first reports: R364. -/
def Obligations.MemoryIsWatchedAndHostReadsEnd : Prop :=
  (∀ s : State, quinbuarRuns s = true →
    (∀ hot : List Bool, exec (.dramTempPoll hot) s = .next { s with mem := { s.mem with chans := s.mem.chans.zipIdx.map fun x =>
      { x.1 with trefi := match hot[x.2]? with | some true => 244 | some false => 488 | none => x.1.trefi } } })
    ∧ (∀ counts : List Nat, ∃ t, exec (.dramEcsPoll counts) s = .next t
        ∧ t.mem.ecsCounts = counts ++ s.mem.ecsCounts.drop counts.length
        ∧ ∀ i n, counts[i]? = some n →
          let chan := 40 + i * 16 / counts.length
          let old := s.mem.ecsCounts.getD i 0
          (getSource chan i s).captured = none → ((getSource chan i t).captured).map (fun r => (r.status, r.arg0)) =
            if old < n then some (0x0613, n - old) else none)
    ∧ (∀ counts : List Nat,
        let tracked (x : Channel × Nat) : Channel := trackDelays ((counts[x.2]?).getD x.1.wckCount) x.1
        (true ∈ s.mem.panic → exec (.wckTrack counts) s = .next s)
        ∧ (true ∉ s.mem.panic →
            exec (.wckTrack counts) s = .next { s with mem := { s.mem with chans := s.mem.chans.zipIdx.map tracked } }))
    ∧ (∀ (n : Nat) (c : Channel), (trackDelays n c).wckCount = n ∧ (c.delays = none → trackDelays n c = { c with wckCount := n })))
  ∧ (∀ (a n : Nat) (s : State), eccWord s a = true → s.power.running = true → a / 8 ∉ s.mem.ue →
      let island := (wordSource s a).1
      let unit := (wordSource s a).2
      let inLog (w : Nat) : Prop := s.err.base / 8 ≤ w ∧ w < s.err.base / 8 + 4096
      ¬ inLog (a / 8) → (getSource island unit s).captured = none →
      (2 ≤ n → ∃ t, exec (.scrub a n) s = .next t ∧ a / 8 ∈ t.mem.ue ∧ (∀ w, ¬ inLog w → (w ∈ t.mem.sbe ↔ w ∈ s.mem.sbe))
        ∧ ((getSource island unit t).captured).map (fun r => (r.status, r.arg0)) = some (0x0611, 8 * (a / 8)))
      ∧ (n = 1 → ∃ t, exec (.scrub a n) s = .next t ∧ (∀ w, ¬ inLog w → (w ∈ t.mem.ue ↔ w ∈ s.mem.ue))
        ∧ (∀ w, ¬ inLog w → (w ∈ t.mem.sbe ↔ w ∈ setDel (a / 8) s.mem.sbe))
        ∧ ((getSource island unit t).captured).map (fun r => (r.status, r.arg0)) = some (0x0610, 8 * (a / 8)))
      ∧ (n = 0 → a / 8 ∉ s.mem.sbe → exec (.scrub a n) s = .next s))
  ∧ (∀ (base size : Nat) (s : State), ∃ t, exec (.tlbInvalidate base size) s = .next t
      ∧ t = { s with mem := { s.mem with tlb := t.mem.tlb, micro := t.mem.micro } }
      ∧ (∀ (k : Nat) (l : List TlbEntry), s.mem.micro[k]? = some l → ∃ m : List TlbEntry, t.mem.micro[k]? = some m ∧ ∀ e : TlbEntry, e ∈ m ↔
          e ∈ l ∧ ¬ (base < 4096 * e.page + 4096 ∧ 4096 * e.page < base + size))
      ∧ ∀ e : TlbEntry, (∃ x ∈ t.mem.tlb, e ∈ x.2) ↔
          (∃ x ∈ s.mem.tlb, e ∈ x.2) ∧ ¬ (base < 4096 * e.page + 4096 ∧ 4096 * e.page < base + size))
  ∧ (∀ (a n : Nat) (s : State), s.power.running = true →
      (islandFenced s 2 = true → exec (.hostReadIssue a n) s = .next (emit (.fenceOutcome 0x0011) s))
      ∧ (islandFenced s 2 = false → canSend s = false → 0 < n → ∃ t, exec (.hostReadIssue a n) s = .next t ∧ t.mem.reads = s.mem.reads
        ∧ (TabRising s.mem.hostBad → ∀ x ∈ readLines a n, tabGet x t.mem.hostBad = some 0x0604)
        ∧ ((getSource 2 0 s).captured = none → ((getSource 2 0 t).captured).map (·.status) = some 0x0604)))
  ∧ (∀ (a n : Nat) (s : State), s.power.running = true → canSend s = true → ∃ t new, exec (.hostReadIssue a n) s = .next t
      ∧ t.mem.reads.map (fun r => (r.addr, r.len)) = (s.mem.reads.map (fun r => (r.addr, r.len))) ++ new
      ∧ (∀ x ∈ new, x.2 ≤ maxRead s) ∧ (new.map (·.2)).sum = n
      ∧ (∀ x, new.head? = some x → x.1 = a) ∧ (∀ i x y, new[i]? = some x → new[i + 1]? = some y → y.1 = x.1 + x.2))
  ∧ (∀ (tag : Nat) (s : State), TabRising s.mem.hostBad →
      (∀ l₁ r l₂, s.mem.reads = l₁ ++ r :: l₂ → r.tag = some tag → (∀ x ∈ l₁ ++ l₂, x.tag ≠ some tag) →
        let gone (t : State) : Prop := t.mem.reads.map (fun x => (x.addr, x.len)) = (l₁ ++ l₂).map (fun x => (x.addr, x.len))
        let logged (t : State) (c : Nat) : Prop :=
          (getSource 2 0 s).captured = none → ((getSource 2 0 t).captured).map (·.status) = some c
        let marks (t : State) (c : Option Nat) : Prop := ∀ x ∈ readLines r.addr r.len, tabGet x t.mem.hostBad = c
        (∃ t, exec (.hostReadCompletion tag false false) s = .next t ∧ gone t ∧ marks t none)
        ∧ (∃ t, exec (.hostReadCompletion tag false true) s = .next t ∧ gone t ∧ logged t 0x0901 ∧ marks t (some 0x0901))
        ∧ (∀ p, ∃ t, exec (.hostReadCompletion tag true p) s = .next t ∧ gone t ∧ logged t 0x0604 ∧ marks t (some 0x0604))
        ∧ (∃ t, exec (.completionTimeout tag) s = .next t ∧ gone t ∧ logged t 0x0604 ∧ marks t (some 0x0604)))
      ∧ ((∀ r ∈ s.mem.reads, r.tag ≠ some tag) → exec (.completionTimeout tag) s = .next s
        ∧ ∀ e p, ∃ t, exec (.hostReadCompletion tag e p) s = .next t ∧ t.mem.reads = s.mem.reads ∧ t.mem.hostBad = s.mem.hostBad
          ∧ ((getSource 2 0 s).captured = none → ((getSource 2 0 t).captured).map (·.status) = some 0x0903)))

/-- ALLOC, RESERVE_ALLOC_RESUME (R338 to R341, R343), RETAIN, RELEASE (R340, R342), RELEASE_CHAIN (R340), CENSUS_PASS (R345); TARGET_RESET
of a fenced island 39 (R369). -/
def Obligations.CellsAreTakenKeptAndReleased : Prop :=
  (∀ (q account n tail : Nat) (reserve : Bool) (p : Pool) (s : State), s.pools[q]? = some p → allocOk s q account n = true →
    let i : Instr := .alloc q account n reserve tail
    let tailOk : Prop := tail = 0 ∨ (cellOk s tail = true ∧ cellPool tail = q ∧ cellCount s tail ≠ 0 ∧ cellNext s tail = 0)
    let u : State := noteTail tail s
    let answer (st : Nat) : Prop := exec i s = .next (emit (.cellResult st 0) { u with
      pools := s.pools.set q { p with events := tabPut st (tabGetD st 0 p.events + 1) p.events } })
    let fits : Prop := poolUsed p account + n ≤ poolQuota p account
    (islandFenced s 39 = true → exec i s = .next (emit (.cellResult 0x0011 0) s))
    ∧ (islandFenced s 39 = false →
      (reserve = true → account ≠ 255 → answer 0x0633)
      ∧ ((reserve = false ∨ account = 255) → ¬ tailOk → answer 0x063A)
      ∧ ((reserve = false ∨ account = 255) → tailOk → ¬ fits → answer 0x0630)
      ∧ (reserve = false → tailOk → fits → poolFree s q < p.floor + n → answer 0x0631)
      ∧ ((reserve = false ∧ p.floor + n ≤ poolFree s q) ∨ (reserve = true ∧ account = 255 ∧ n ≤ poolFree s q) → tailOk → fits →
          ∀ x d, (refill q u).pools[q]? = some x → nextFree x = some d →
          let c := cellIndex q d
          (∀ e l, p.head = e :: l → d = e) ∧ ∃ t y, exec i s = .next t ∧ t.out.getLast? = some (.cellResult 0 c) ∧ t.pools[q]? = some y ∧ y.lastHead = c
            ∧ tabGet account y.used = some (poolUsed p account + n) ∧ (∀ b, b ≠ account → tabGet b y.used = tabGet b p.used)
            ∧ (n = 1 → tail = 0 → cellPool c = q → memWf s.mem.bytes = true → s.mem.ue = [] → s.mem.sbe = [] →
                (p.ownerBase + cellOf c < cellAddr s c ∨ cellAddr s c + 256 ≤ p.ownerBase + cellOf c) →
                cellCount t c = 1 ∧ cellNext t c = 0 ∧ cellAccount t c = account))
      ∧ (reserve = true → account = 255 → tailOk → fits → poolFree s q < n → ∃ t, exec i s = .next t
          ∧ (t.pools[q]?).map (·.waiting) = some (p.waiting ++ [(account, n, tail)])
          ∧ ((getSource 39 0 u).captured = none → ((getSource 39 0 t).captured).map (·.status) = some 0x0638))))
  ∧ (∀ (q a n tail : Nat) (p : Pool) (s : State), s.pools[q]? = some p →
      (islandFenced s 39 = true → exec (.reserveAllocResume q) s = .next s)
      ∧ (∀ l₁ l₂, islandFenced s 39 = false → p.waiting = l₁ ++ (a, n, tail) :: l₂ → n ≤ poolFree s q →
        (∀ w ∈ l₁, poolFree s q < w.2.1) →
        ∃ t y, exec (.reserveAllocResume q) s = .next t ∧ t.pools[q]? = some y ∧ y.waiting = l₁ ++ l₂
          ∧ t.out.getLast? = some (.cellResult 0 y.lastHead) ∧ tabGet a y.used = some (poolUsed p a + n))
      ∧ ((∀ w ∈ p.waiting, poolFree s q < w.2.1) → exec (.reserveAllocResume q) s = .next s))
  ∧ (∀ (c n : Nat) (s : State), memWf s.mem.bytes = true → s.mem.ue = [] → s.mem.sbe = [] → n < 256 →
      cellCount (setCount c n s) c = n
      ∧ ∀ a, a ≠ cellAddr s c + 0xFB → memGet (setCount c n s).mem.bytes a = memGet s.mem.bytes a)
  ∧ (∀ (c : Nat) (s : State), cellOk s c = true → islandFenced s 39 = true →
      ∀ i ∈ [Instr.retain c, .release c, .releaseChain c], exec i s = .next (emit (.cellResult 0x0011 c) s))
  ∧ (∀ (c : Nat) (p : Pool) (s : State), cellOk s c = true → s.pools[cellPool c]? = some p → islandFenced s 39 = false →
      let u : State := noteCell c s
      let withPool (y : Pool) : State := { u with pools := s.pools.set (cellPool c) y }
      (cellCount s c = 255 → exec (.retain c) s = .next (emit (.cellResult 0x0632 c)
        (withPool { p with events := tabPut 0x0632 (tabGetD 0x0632 0 p.events + 1) p.events })))
      ∧ (0 < cellCount s c → cellCount s c < 255 →
          exec (.retain c) s = .next (emit (.cellResult 0 c) (setCount c (cellCount s c + 1) u)))
      ∧ (cellCount s c = 0 →
          exec (.retain c) s = .next (emit (.cellResult 0 c) (setCount c 1 (withPool { p with lent := setAdd (cellOf c) p.lent })))
          ∧ exec (.release c) s = .next u ∧ exec (.releaseChain c) s = .next u)
      ∧ (1 < cellCount s c → exec (.release c) s = .next (setCount c (cellCount s c - 1) u)
          ∧ exec (.releaseChain c) s = .next (setCount c (cellCount s c - 1) u))
      ∧ (∀ a, let v := setCount c 0 u; cellCount s c = 1 → cellAccount v c = a → ∃ t y, exec (.release c) s = .next t
          ∧ t.pools[cellPool c]? = some y ∧ y.freed = p.freed ++ [cellOf c]
          ∧ tabGet a y.used = some (poolUsed p a - 1) ∧ (∀ b, b ≠ a → tabGet b y.used = tabGet b p.used)
          ∧ (p.tail.length + 1 < 448 → t.mem = (unitRead .control (ownerAddr v c) 1 v).mem ∧ y.tail = p.tail ++ [cellOf c])
          ∧ (448 ≤ p.tail.length + 1 → y.tail = (p.tail ++ [cellOf c]).drop 128 ∧ y.ringTail = p.ringTail + 128))
      ∧ (cellCount s c = 1 → cellNext s c = 0 → exec (.releaseChain c) s = exec (.release c) s)
      ∧ (∀ t, cellCount s c = 1 → cellNext s c ≠ 0 → exec (.release c) s = .next t → cellCount t c = 0 →
          cellOk t (cellNext s c) = true → 1 < cellCount t (cellNext s c) →
          exec (.releaseChain c) s = exec (.release (cellNext s c)) t))
  ∧ (∀ (q : Nat) (p : Pool) (s : State), s.pools[q]? = some p →
      let due : Prop := s.censusOn = true ∧ 0 < p.size ∧ ∀ a, p.censusAt = some a → a + 10000000000 ≤ steadyNs s
      (¬ due → exec (.censusPass q) s = .next s)
      ∧ (due → (∃ t y, exec (.censusPass q) s = .next t ∧ t.pools[q]? = some y ∧ (s.censusRepair = false → y = { p with
            findings := censusFindings s q p, censusAt := some (steadyNs s) })
          ∧ ((∀ f ∈ censusFindings s q p, f ∉ p.findings) → t.err = s.err))
        ∧ ∀ f, censusFindings s q p = [f] → f ∈ p.findings → (getSource 39 0 s).captured = none →
            ∃ t, exec (.censusPass q) s = .next t ∧ ((getSource 39 0 t).captured).map (fun r => (r.status, r.arg0)) =
              some (if f.2.1 ≠ 0 ∧ f.2.2 = 0 then 0x0635 else 0x0634, cellIndex q f.1)))

/-- KEYLOCK_WRITE, KEYLOCK_EXPIRY, guarded writes (R384; the end of an unlock: R14). -/
def Obligations.GuardedWritesNeedTheKey : Prop :=
  (∀ (dia : Bool) (s : State), BarServes s →
    let keyOf (t : State) : Option Nat := if dia then t.gate.diaKey else t.gate.pwrKey
    let withKey (k : Option Nat) : State :=
      { s with gate := { s.gate with diaKey := if dia then k else s.gate.diaKey, pwrKey := if dia then s.gate.pwrKey else k } }
    let lockAt : Nat := if dia then 0x6000FC else 0x4000FC
    (∀ v : BitVec 32, exec (.keylockWrite dia v) s = .next (withKey (if v.toNat % 65536 = 0xA5C3 then some (steadyNs s) else none))
      ∧ exec (.registerWrite lockAt v 0xF) s = exec (.keylockWrite dia v) s)
    ∧ (unlocked s dia = true ↔ ∃ t, keyOf s = some t ∧ steadyNs s ≤ t + 256)
    ∧ readBar0 s lockAt = (if unlocked s dia then 1 else 0)
    ∧ (∀ (off : Nat) (v : BitVec 32), off ∈ (if dia then [0x600000] else [0x400010, 0x400014, 0x400018]) →
        (unlocked s dia = false →
          exec (.registerWrite off v 0xF) s = .next (orReg 0x000008 4 (logErr 0x0904 2 0 s { arg0 := off })))
        ∧ (unlocked s dia = true → off ≠ 0x400014 → ∃ t, exec (.registerWrite off v 0xF) s = .next t ∧ keyOf t = none)))
  ∧ (∀ (dia : Bool) (s : State),
      let key := if dia then s.gate.diaKey else s.gate.pwrKey
      (∀ t, key = some t → t + 256 < steadyNs s → ∃ u, exec (.keylockExpiry dia) s = .next u ∧ unlocked u dia = false
          ∧ u = { s with gate := { s.gate with diaKey := u.gate.diaKey, pwrKey := u.gate.pwrKey } } ∧ unlocked u (!dia) = unlocked s (!dia))
      ∧ ((∀ t, key = some t → steadyNs s ≤ t + 256) → exec (.keylockExpiry dia) s = .next s))

/-- REGISTER_WRITE (R380, R381, R385, R397), APERTURE_ACCESS (R382), TIM_NS_READ, TIM_SNAP (R381, R399), ERR_TAIL_WRITE (R400),
ISLAND_RESET_GO, DEVICE_RESET_GO (R393, R401), DIAG_WINDOW_ACCESS (R13, R14, R365, R370, R403). Where an island's registers lie in the
window is the model's choice (log 217); what the manual gives no content reads as a free value and keeps no write (log 65). -/
def Obligations.HostAccessesReachTheRegisters : Prop :=
  (∀ (i : Instr) (off : Nat) (s : State), s.gate.linkUp = true → s.gate.d3hot = true ∨ memSpace s = false →
    (∀ v b, i = .registerWrite off v b → off < 0x2000000 → off % 4 = 0 → exec i s = .next (badRequest off s))
    ∧ (∀ bs, i = .apertureAccess true off bs → off + bs.length ≤ 0x10000000 → exec i s = .next (badRequest off s))
    ∧ (i = .timSnap → exec i s = .next (badRequest 0x200014 s))
    ∧ (∀ e, i = .timNsRead e → exec i s = .next (emit .unsupportedRequest (badRequest 0x200000 s))))
  ∧ (∀ s : State, BarServes s →
    (∀ (off : Nat) (v : BitVec 32) (b : BitVec 4), off < 0x2000000 → off % 4 = 0 →
      (b ≠ 0xF → exec (.registerWrite off v b) s = .next (orReg 0x08 8 (logErr 0x0905 2 0 s { arg0 := off })))
      ∧ (covered off = false → exec (.registerWrite off v 0xF) s = .next (orReg 0x08 8 (badRequest off s))))
    ∧ (∀ (off : Nat) (m v : BitVec 32), (off, m) ∈ [(0x18, 0x3F3F3F3F), (0x28, 0xFFF00000), (0x2C, 0x0000FFFF)] →
        let t : State := setReg off ((reg s off &&& ~~~m) ||| (v &&& m)) s
        exec (.registerWrite off v 0xF) s = .next (if off = 0x18 then causeEdges s t else t)
        ∧ ∀ b, b < 32 → exec (.registerWrite (0x8000 + 32 * off + 4 * b) v 0xF) s
            = exec (.registerWrite off (if v.getLsbD 0 then reg s off ||| 1#32 <<< b else reg s off &&& ~~~(1#32 <<< b)) 0xF) s)
    ∧ (∀ v : BitVec 32, exec (.registerWrite 0x08 v 0xF) s = .next (clrReg 0x08 (v &&& 0xF) s))
    ∧ (∀ (off : Nat) (bs : List Byte), off + bs.length ≤ 0x10000000 →
        let a := apBase s + off
        let inTable (p : Nat) : Prop := s.aviary.seqTable ≠ 0 ∧ s.aviary.seqTable ≤ p ∧ p < s.aviary.seqTable + 0x100000
        ((∀ i, i < bs.length → backed s (a + i) = true ∧ ¬ inTable (a + i) ∧ storeFenced s (a + i) = false) →
          (∃ n, exec (.apertureAccess true off bs) s = .next (writePhys .control (cellsAt a bs false) { s with freeCount := n }))
          ∧ (∃ t, exec (.apertureAccess false off bs) s = .next t ∧ ((∀ i, i < bs.length → tabGet (a + i) s.mem.unsettled = none) →
              t.out.getLast? = some (.readData ((List.range bs.length).map fun i => deviceByte s (a + i))))))
        ∧ (bs ≠ [] → (∀ i, i < bs.length → backed s (a + i) = false ∨ inTable (a + i)) →
          (∃ t, exec (.apertureAccess false off bs) s = .next t ∧ t.out.getLast? = some (.readData (List.replicate bs.length 0)))
          ∧ (∃ t u, exec (.apertureAccess true off bs) s = .next t ∧ u.mem = s.mem
              ∧ t = orReg 0x08 8 (logErr 0x0907 2 0 u { arg0 := a }))))
    ∧ exec (.timNsRead true) s = .next (emit (.readData (leBytes 8 (nowNs s))) s)
    ∧ exec (.timNsRead false) s = .next (emit (.readData (leBytes 4 (nowNs s))) { s with gate := { s.gate with
        latchHi := BitVec.ofNat 32 (nowNs s / 2 ^ 32), latchFrac := BitVec.ofNat 16 (s.band.count / 2 ^ 16) } })
    ∧ (∃ c, nowNs s ≤ c + 8 ∧ c ≤ nowNs s + 8 ∧ exec .timSnap s = .next (setReg 0x200020 (reg s 0x200020 + 1)
        (setReg 0x20001C (BitVec.ofNat 32 (c / 2 ^ 32)) (setReg 0x200018 (BitVec.ofNat 32 c) { s with freeCount := s.freeCount + 1 }))))
    ∧ (∀ tail, tail < 2 ^ 32 →
        ((s.err.head + 2 ^ 32 - tail) % 2 ^ 32 ≤ 1024 → exec (.errTailWrite tail) s = .next { s with err := { s.err with tail := tail } })
        ∧ (1024 < (s.err.head + 2 ^ 32 - tail) % 2 ^ 32 → exec (.errTailWrite tail) s = .next (logErr 0x0909 2 0 s { arg0 := tail })))
    ∧ (unlocked s false = true → ∀ island : Nat, island < 64 →
        let u : State := { s with gate := { s.gate with pwrKey := none } }
        let go : Instr := .islandResetGo (BitVec.ofNat 32 (island + 256))
        ((reg s 0x400010).getLsbD 8 = false → 3 ≤ island → island ≤ 60 →
          exec go s = .next (requestReset island 0 none (updGate (fun g => { g with islrst := some island })
            (setReg 0x400010 (BitVec.ofNat 32 (island + 256)) u))))
        ∧ ((reg s 0x400010).getLsbD 8 = false → island < 3 ∨ 60 < island →
          exec go s = .next (setReg 0x400010 (BitVec.ofNat 32 (island + 3 * 2 ^ 12)) u))
        ∧ ((reg s 0x400010).getLsbD 8 = true → exec go s = .next (setReg 0x400010 (reg s 0x400010 &&& ~~~0x3000 ||| 0x3000) u))
        ∧ (∀ v : BitVec 32, v.getLsbD 8 = false → exec (.islandResetGo v) s = .next (setReg 0x400010
            (((reg s 0x400010 &&& ~~~0x3F#32) ||| (v &&& 0x3F#32)) &&& 0x313F#32) u))
        ∧ ∀ v : BitVec 32, exec (.deviceResetGo v) s = .next (if v.getLsbD 0 then flushedReset u else u))
    ∧ (∀ (off : Nat) (v : BitVec 32), off < 0x1000000 → off % 4 = 0 →
        ((reg s 0x600000).getLsbD 0 = false → exec (.diagWindowAccess true off v) s = .next (orReg 0x600008 2 s)
          ∧ exec (.diagWindowAccess false off v) s = .next (emit (.readData (leBytes 4 0)) (orReg 0x600008 2 s)))
        ∧ ((reg s 0x600000).getLsbD 0 = true →
          let page := diaPage s
          (page = 0 → exec (.diagWindowAccess true off v) s = .next (orReg 0x600008 2 s))
          ∧ (resetFenced s page = true →
            exec (.diagWindowAccess false off v) s = .next (emit (.readData (List.replicate 4 0xFF)) (windowReset s))
            ∧ (page ≠ 0 → exec (.diagWindowAccess true off v) s = .next (windowReset s)))
          ∧ (resetFenced s page = false →
            (∀ w, islandWord s page off = some w → exec (.diagWindowAccess false off v) s = .next (emit (.readData (leBytes 4 w)) s))
            ∧ (islandWord s page off = none → ∃ bs : List Byte, bs.length = 4 ∧
                exec (.diagWindowAccess false off v) s = .next (emit (.readData bs) { s with freeCount := s.freeCount + 1 }))
            ∧ (page ≠ 0 → islandGuarded page off = false →
                exec (.diagWindowAccess true off v) s = .next (writeIsland page off v s))
            ∧ (page ≠ 0 → islandGuarded page off = true → unlocked s true = true → exec (.diagWindowAccess true off v) s =
                .next (writeIsland page off v { s with gate := { s.gate with diaKey := none } }))
            ∧ (page ≠ 0 → islandGuarded page off = true → unlocked s true = false → exec (.diagWindowAccess true off v) s =
                .next (orReg 0x08 4 (logErr 0x0904 2 0 s { arg0 := 0x1000000 + off })))))))
  ∧ (∀ (island unit : Nat) (v : BitVec 32) (s : State), unit < 256 →
      let at_ := 0xF00000 + 32 * unit
      islandWord s island at_ = some (match (getSource island unit s).captured with
        | some r => r.status + 2 ^ 31
        | none => 0)
      ∧ islandWord s island (at_ + 24) = some (getSource island unit s).dropped
      ∧ (v.getLsbD 31 = true → (getSource island unit (writeIsland island at_ v s)).captured = none)
      ∧ ((getSource island unit s).dropped < 2 ^ 32 →
          (getSource island unit (writeIsland island (at_ + 24) 0xFFFFFFFF s)).dropped = 0))

/-- SQ_DOORBELL, CQ_DOORBELL, DR_DOORBELL (R407, R411), RING_ENABLE (R398, R406, R409). What a doorbell of a ring that does not run does
is DEDUCED, log 63. -/
def Obligations.DoorbellsMoveTheRings : Prop :=
  ∀ s : State, BarServes s →
    (∀ (q tail : Nat) (r : SubRing), s.mbx.sq[q]? = some r → q < 4 → tail < 65536 →
      let dist (a : Nat) : Nat := (a + 65536 - r.head) % 65536
      let ok : Prop := dist tail ≤ 2 ^ sqSizeField s q ∧ dist r.tail ≤ dist tail
      (s.power.running = true → ok → ∃ c, nowNs s ≤ c + 8 ∧ c ≤ nowNs s + 8 ∧ exec (.sqDoorbell q tail) s = .next { s with
          freeCount := s.freeCount + 1
          mbx := { s.mbx with sq := upd s.mbx.sq q fun _ => { r with tail := tail, bells := r.bells ++ [(tail, c)] } } })
      ∧ (s.power.running = true → ¬ ok → ∃ t, exec (.sqDoorbell q tail) s = .next t ∧ t.mbx.sq[q]? = some { r with running := false }
          ∧ (reg t regDblStat).toNat / 65536 = 0x0910
          ∧ ((getSource 2 0 s).captured = none → ((getSource 2 0 t).captured).map (·.status) = some 0x0910))
      ∧ (s.power.running = false → exec (.sqDoorbell q tail) s = .next s ∧ ∀ head, head < 65536 → exec (.cqDoorbell head) s = .next s))
    ∧ (∀ d head, s.mbx.rings[d]? = some none → d < 64 → head < 65536 → s.power.running = true → ∃ t,
        exec (.drDoorbell d head) s = .next t ∧ t.mbx.rings = s.mbx.rings ∧ (reg t regDblStat).toNat / 65536 = 0x0910)
    ∧ (∀ head, head < 65536 → s.power.running = true →
        let left (a : Nat) : Nat := (s.mbx.cqTail + 65536 - a) % 65536
        (left head ≤ left s.mbx.cqHead → exec (.cqDoorbell head) s = .next { s with mbx := { s.mbx with cqHead := head } })
        ∧ (left s.mbx.cqHead < left head → ∃ t, exec (.cqDoorbell head) s = .next t ∧ t.mbx.cqRunning = false
            ∧ t.mbx.cqHead = s.mbx.cqHead ∧ (reg t regDblStat).toNat / 65536 = 0x0910))
    ∧ (∀ (d head : Nat) (r : RingSub), s.mbx.rings[d]? = some (some r) → d < 64 → head < 65536 →
        let left (a : Nat) : Nat := (r.tail + 65536 - a) % 65536
        (left head ≤ left r.headCount → exec (.drDoorbell d head) s = .next (updRing d (fun x => { x with headCount := head }) s))
        ∧ (left r.headCount < left head → ∃ t, exec (.drDoorbell d head) s = .next t ∧ t.mbx.rings = s.mbx.rings
            ∧ (reg t regDblStat).toNat / 65536 = 0x0910))
    ∧ (∀ v : BitVec 32, TabRising s.gate.regs → ∃ t, exec (.ringEnable v) s = .next t ∧
        (∀ q r, q < 4 → s.mbx.sq[q]? = some r →
          (v.getLsbD q = true → sqEnabled s q = false → (reg s regDblStat).getLsbD 8 = true → sizeOk (sqSizeField s q) = true →
            t.mbx.sq[q]? = some { head := 0, tail := 0, running := true, bells := [] })
          ∧ (v.getLsbD q = true → sqEnabled s q = false → (reg s regDblStat).getLsbD 8 = false ∨ sizeOk (sqSizeField s q) = false →
            t.mbx.sq[q]? = some r)
          ∧ (v.getLsbD q = false → sqEnabled s q = true → (∀ c ∈ s.mbx.cmds ++ s.mbx.ended, c.q ≠ q) →
            t.mbx.sq[q]? = some { r with running := false })
          ∧ (v.getLsbD q = false → sqEnabled s q = true → (∃ c ∈ s.mbx.cmds ++ s.mbx.ended, c.q = q) → t.mbx.sq[q]? = some r)
          ∧ (v.getLsbD q = sqEnabled s q → t.mbx.sq[q]? = some r))
        ∧ (v.getLsbD 4 = true → cqEnabled s = false → (reg s regDblStat).getLsbD 8 = true → sizeOk (cqSizeField s) = true →
            t.mbx.cqRunning = true ∧ t.mbx.cqTail = 0 ∧ t.mbx.cqHead = 0)
        ∧ (v.getLsbD 4 = false → cqEnabled s = true → t.mbx.cqRunning = false)
        ∧ (v.getLsbD 4 = cqEnabled s → t.mbx.cqRunning = s.mbx.cqRunning)
        ∧ t.mbx.cmds = s.mbx.cmds ∧ t.mbx.ended = s.mbx.ended)

/-- CONFIG_REQUEST (R377, R378, R477; masks of capabilities: log 9), MSIX_ENABLE (R388, R390, R391), VECTOR_UNMASK (R389),
POWER_STATE_CHANGE (R379), PCIE_ERROR (R361, R382, R396). -/
def Obligations.ConfigurationAndInterruptsFollowTheHost : Prop :=
  (∀ (w : Bool) (off : Nat) (v : BitVec 32) (b : BitVec 4) (s : State), off < 4096 → off % 4 = 0 →
    (s.power.waitingBoot.isSome = true → exec (.configRequest w off v b) s = .next (emit .retry s))
    ∧ (s.power.waitingBoot = none → s.gate.linkUp = false → exec (.configRequest w off v b) s = .next s)
    ∧ (s.power.waitingBoot = none → s.gate.linkUp = true → s.gate.configReady = false → exec (.configRequest w off v b) s = .next (emit .retry s))
    ∧ (s.power.waitingBoot = none → s.gate.linkUp = true → s.gate.configReady = true →
      exec (.configRequest false off v b) s = .next (emit (.readData (leBytes 4 (readCfg s off).toNat)) s)
      ∧ readCfg s 0x00 = 0x06401E9C ∧ readCfg s 0x08 = 0x12000000 ||| (reg s 0 &&& 0xFF) ∧ readCfg s 0x34 = 0x40 ∧ readCfg s 0x3C = 0x100
      ∧ readCfg s 0xA4 = 0x00800000 ∧ readCfg s 0xA8 = 0x00801000
      ∧ (TabRising s.gate.cfg → ∀ m, (off, m) ∈ [(0x10, 0xFE000000), (0x14, 0xFFFFFFFF), (0x18, 0xF0000000), (0x1C, 0xFFFFFFFF)] →
          ∃ t, exec (.configRequest true off v 0xF) s = .next t ∧ t = { s with gate := { s.gate with cfg := t.gate.cfg } }
            ∧ readCfg t off = (readCfg s off &&& ~~~m) ||| (v &&& m)
            ∧ ∀ o, o ≠ off → tabGet o t.gate.cfg = tabGet o s.gate.cfg)
      ∧ (off ∈ [0x00, 0x08, 0x0C, 0x20, 0x24, 0x2C, 0x34, 0x3C] → exec (.configRequest true off v b) s = .next s)))
  ∧ (∀ (on mask : Bool) (s : State), s.gate.linkUp = true → s.gate.configReady = true → s.gate.msix.length = 64 →
      (on = true → s.gate.msixOn = false → ∃ t, exec (.msixEnable on mask) s = .next t ∧ t.gate.msixOn = true ∧ t.gate.funcMask = mask
          ∧ t.gate.inta = false ∧ (s.gate.inta = true → t.out[s.out.length]? = some .deassertInta)
          ∧ (mask = false → canSend s = true → ∀ c ∈ onCauses s, ∀ e : BitVec 64 × BitVec 32 × Bool,
              s.gate.msix[causeVector s c]? = some e → e.2.2 = false → .msix e.1 e.2.1 ∈ t.out))
      ∧ (on = false → s.gate.msixOn = true → s.gate.d3hot = false → islandFenced s 2 = false → ∃ t, exec (.msixEnable on mask) s = .next t
          ∧ t.gate.msixOn = false ∧ t.gate.inta = (intLevel s && !intDisable s)
          ∧ (s.gate.inta = false → t.gate.inta = true → t.out = s.out ++ [.assertInta])))
  ∧ (∀ (v : Nat) (e : BitVec 64 × BitVec 32 × Bool) (s : State), BarServes s → s.gate.msix[v]? = some e → v < 64 → s.gate.msixOn = true →
      ∃ t, exec (.vectorUnmask v) s = .next t ∧ t.gate.msix[v]? = some (e.1, e.2.1, false)
        ∧ (s.gate.pba.getLsbD v = true → (∃ c ∈ onCauses s, causeVector s c = v) → canSend s = true → s.gate.funcMask = false →
            .msix e.1 e.2.1 ∈ t.out ∧ t.gate.pba.getLsbD v = false)
        ∧ ((∀ c ∈ onCauses s, causeVector s c ≠ v) → t.gate.pba.getLsbD v = false))
  ∧ (∀ (d3 : Bool) (s : State), s.gate.linkUp = true → s.gate.configReady = true →
      (s.gate.d3hot = d3 → exec (.powerStateChange d3) s = .next s)
      ∧ (d3 = true → s.gate.d3hot = false → exec (.powerStateChange d3) s =
          .next (failReads (s.mem.reads.filter fun r => r.tag.isNone) { s with
            gate := { s.gate with d3hot := true }, mem := { s.mem with reads := s.mem.reads.filter fun r => r.tag.isSome } }))
      ∧ (d3 = false → s.gate.d3hot = true → exec (.powerStateChange d3) s =
          .next (resumeSending { s with gate := { s.gate with d3hot := false } })))
  ∧ (∀ s : State, s.gate.linkUp = true →
      let logged (e : PcieError) (st : Nat) (q : State → Prop) : Prop := ∃ t, exec (.pcieError e) s = .next t ∧ q t
        ∧ ((getSource 2 0 s).captured = none → ((getSource 2 0 t).captured).map (·.status) = some st)
      let same (t : State) : Prop := t.gate.regs = s.gate.regs ∧ t.mem.hostBad = s.mem.hostBad ∧ t.mem.host = s.mem.host
      (∀ k, ∃ t, exec (.pcieError (.linkRecovered k)) s = .next t ∧ t.err = s.err ∧ t.gate.linkErrors = s.gate.linkErrors + 1
        ∧ linkErrorBit k ∈ t.gate.aer)
      ∧ logged .poisonedBar0 0x0901 (fun t => (reg t 0x08).getLsbD 1 = true ∧ t.mem.hostBad = s.mem.hostBad)
      ∧ (∀ off bs, BarServes s → off + bs.length ≤ 0x10000000 → bs ≠ [] →
          (∀ i, i < bs.length → apertureCovers s (apBase s + off + i) = true ∧ storeFenced s (apBase s + off + i) = false
            ∧ (apBase s + off + i < s.err.base ∨ s.err.base + 0x8000 ≤ apBase s + off + i)) → s.err.base % 8 = 0 →
          memWf s.mem.bytes = true →
          logged (.poisonedBar2 off bs) 0x0901 fun t => ∀ i, i < bs.length → memGet t.mem.bytes (apBase s + off + i) = bs.getD i 0
            ∧ (isSram (apBase s + off + i) = true → (apBase s + off + i) / 8 ∈ t.mem.sramPoison))
      ∧ (∀ a n, a + n ≤ 2 ^ 64 → n ≤ 4096 →
          logged (.poisonedCompletion a n) 0x0901 (fun t => ∀ x ∈ readLines a n, tabGet x t.mem.hostBad = some 0x0901)
          ∧ logged (.ecrcCompletion a n) 0x0641
              (fun t => ∀ x ∈ readLines a n, tabGet x t.mem.hostBad = some 0x0604 ∧ x ∈ t.mem.hostEcrc))
      ∧ logged .ecrcWrite 0x0641 same
      ∧ (∀ off, logged (.unsupported off) 0x0903 fun t => t.out.getLast? = some .unsupportedRequest ∧ t.mem.hostBad = s.mem.hostBad
          ∧ t.mem.host = s.mem.host ∧ (covered off = true → t.gate.regs = s.gate.regs)
          ∧ (covered off = false → (reg t 0x08).getLsbD 3 = true))
      ∧ logged .unexpectedCompletion 0x0903 same ∧ ∀ k, logged (.fatal k) 0x0903 fun t => same t ∧ fatalBit k ∈ t.gate.aer)

/-- PACKAGE_LOAD, SCORE_HALTED with a load (R74, R89, R90, R178, R294, R295, R414, R419, R463, R486, R495 rulings 1 to 3). -/
def Obligations.PackagesAreLoadedAndSwapped : Prop :=
  (∀ (q cid : Nat) (pkg : Package) (c : HostCmd) (s : State), Accepts (.packageLoad q cid pkg) c s →
    let i : Instr := .packageLoad q cid pkg
    let t := startCmd c s
    let job (k : Nat) : LoadJob :=
      { q := q, cid := cid, pkg := pkg, image := ownImage s pkg, step := k, since := steadyNs s, epoch := none }
    (s.load.isSome = true → exec i s = .next (endCmd c 0x041B t))
    ∧ (s.load = none → updateRuns t = true → exec i s = .next (endCmd c 0x0805 t))
    ∧ (s.load = none → updateRuns t = false →
      (s.trellis.chips ≤ 1 →
        (packageStatus s pkg ≠ 0 → exec i s = .next (endCmd c (packageStatus s pkg) t))
        ∧ (packageStatus s pkg = 0 → s.pkg = none → exec i s = .next (installPackage (job 1) t))
        ∧ (packageStatus s pkg = 0 → s.pkg.isSome = true → exec i s = .next { t with
            load := some (job 2), score := { s.score with haltReq := s.score.running || s.score.armed || s.score.watchdogHalt } }))
      ∧ (1 < s.trellis.chips →
        (packageStatus s pkg ≠ 0 → exec i s = .next (endCmd c (packageStatus s pkg) (acknowledge pkg (packageStatus s pkg) t)))
        ∧ (packageStatus s pkg = 0 → exec i s = .next (judgeAcks pkg.pkgid { acknowledge pkg 0 t with load := some (job 1) })))))
  ∧ (∀ (j : LoadJob) (s : State), quinbuarRuns s = true → islandFenced s 1 = false → s.load = some j → j.step = 2 →
      (scoreHalted s = true → flightOver s = true → exec .scoreHalted s = .next (installPackage j s))
      ∧ (scoreHalted s = false ∨ flightOver s = false → exec .scoreHalted s = .next s))
  ∧ (∀ (j : LoadJob) (s : State),
      let u := takePackage j s
      u.pkg = some j.pkg ∧ u.samples = [] ∧ u.trainPending = [] ∧ u.trainRunning = none ∧ u.score.image = j.image
      ∧ u.score.armed = true ∧ u.score.running = false ∧ u.score.tokens = initialTokens j.image
      ∧ u.score.pc = imgTarget j.image (imgEntry j.image) ∧ u.score.epoch = j.epoch.getD (roundUp (nowNs s + 1000000) 64)
      ∧ ∀ (n : Nat) (y : Stream), u.streams[n]? = some (some y) → y.gallery = [] ∧ y.context = none ∧ y.candidate = none
          ∧ y.quarantined = false)
  ∧ (∀ (j : LoadJob) (s : State),
      let t := installPackage j s
      let u := takePackage j (closeTorn (if s.pkg.isSome then
        addNotice { status := 0x0330, stream := 0xFFFF, result := j.pkg.pkgid } s else s))
      t.load = none
      ∧ (unitsOk u j.image ((imgWords j.image).getD []) = true → t.pkg = some j.pkg ∧ t.score = u.score)
      ∧ (unitsOk u j.image ((imgWords j.image).getD []) = false → t.pkg = none ∧ t.score.image = [] ∧ t.score.armed = false))

/-- STAGE, SWITCH, COMMIT, LEDGER_CLEAR, LEDGER_SIZES (R414, R481, R483, R486), SCORE_HALTED (R74, R349, R487, R495), UPDATE_RESUME,
UPDATE_REVERT (R487, R488). Restaging from offset 0: log 72; the layout of LEDGER_SIZES: log 68. -/
def Obligations.FirmwareUpdatesInTurn : Prop :=
  (∀ (i : Instr) (q cid : Nat) (c : HostCmd) (s : State), Accepts i c s →
    i ∈ [.stage q cid, .switch q cid, .commit q cid, .ledgerClear q cid, .ledgerSizes q cid] →
    let t := startCmd c s
    let off := arg c 8 8
    (updateBusy t c = true → exec i s = .next (endCmd c 0x0805 t))
    ∧ (updateBusy t c = false →
      (i = .stage q cid →
        let u := updUpdate (fun u => { u with staged := off + c.plen, verified := false, trial := false }) (putChunk off (paramBlock t c) t)
        (off ≠ 0 → off ≠ s.power.update.staged → exec i s = .next (endCmd c 0x0805 t))
        ∧ (off = 0 ∨ off = s.power.update.staged → 0x1000000 < off + c.plen → exec i s = .next (endCmd c 0x0002 t))
        ∧ (off = 0 ∨ off = s.power.update.staged → off + c.plen ≤ 0x1000000 →
          (arg c 1 1 ≠ 1 → exec i s = .next (okCmd c s.power.version u))
          ∧ (arg c 1 1 = 1 → ∀ x, u.power.slots.getD (inactiveSlot s) none = some x →
            (imageValid s x.bytes = true → ∃ v, exec i s = .next (okCmd c s.power.version v) ∧ v.power.update.verified = true
                ∧ v.power.ledger.slotVersions = s.power.ledger.slotVersions.set (inactiveSlot s) (field x.bytes 4 4))
            ∧ (imageValid s x.bytes = false → ∃ v, exec i s = .next (endCmd c 0x0804 v) ∧ v.power.update.verified = false
                ∧ ((getSource 1 0 s).captured = none → ((getSource 1 0 v).captured).map (·.status) = some 0x0804)))))
      ∧ (i = .switch q cid →
        let u := updUpdate (fun u => { u with switching := some (1, c.q, c.cid, inactiveSlot s) }) t
        (s.power.update.verified = false → exec i s = .next (endCmd c 0x0805 t))
        ∧ (s.power.update.verified = true → (∃ x ∈ s.mbx.cmds, x.opc ≠ 0x40 ∧ x.opc ≠ 0x70 ∧ resetCarried s x = false) → exec i s = .next u)
        ∧ (s.power.update.verified = true → (∀ x ∈ s.mbx.cmds, x ≠ c → x.opc = 0x40) → ∃ v, exec i s = .next v
            ∧ v.power.update.switching = some (2, c.q, c.cid, inactiveSlot s)
            ∧ v.score = { s.score with haltReq := s.score.running || s.score.armed || s.score.watchdogHalt }))
      ∧ (i = .commit q cid → (s.power.update.trial = false → exec i s = .next (endCmd c 0x0805 t))
        ∧ (s.power.update.trial = true → ∃ v, exec i s = .next (okCmd c s.power.version v) ∧ v.power.update.trial = false
            ∧ v.power.ledger = { s.power.ledger with activeSlot := s.power.runSlot, unfence := true, gen := s.power.ledger.gen + 1 }
            ∧ v.power.rollback = max s.power.rollback (match s.power.slots.getD s.power.runSlot none with
                | some x => field x.bytes 0x08 1 | none => 0)))
      ∧ (i = .ledgerClear q cid → ∃ v, exec i s = .next (okCmd c s.power.version v) ∧ v.power.ledger.unfence = true
          ∧ (∀ r ∈ v.power.ledger.steps, r.method = 0) ∧ v.power.ledger.steps.length = s.power.ledger.steps.length)
      ∧ (i = .ledgerSizes q cid →
          (sizesOk (sizesOf (paramBlock t c)) = false → exec i s = .next (endCmd c 0x0002 t))
          ∧ (sizesOk (sizesOf (paramBlock t c)) = true → ∃ v, exec i s = .next (okCmd c s.power.version v)
              ∧ v.power.ledger.nextSizes = some (sizesOf (paramBlock t c)) ∧ v.pools = s.pools))))
  ∧ (∀ (q cid slot : Nat) (s : State), quinbuarRuns s = true → islandFenced s 1 = false → s.load = none →
      let paused : State := { s with fountains := s.fountains.map fun u => { u with paused := true } }
      (s.power.update.switching = some (1, q, cid, slot) → exec .scoreHalted s = .next (switchHalt s))
      ∧ (s.power.update.switching = some (2, q, cid, slot) → scoreHalted s = true → flightOver s = true → switchReady s = true →
          exec .scoreHalted s = .next (switchStart (setSwitchStep 3 paused)))
      ∧ (s.power.update.switching = some (2, q, cid, slot) → scoreHalted s = true → flightOver s = true → switchReady s = false →
          exec .scoreHalted s = .next (setSwitchStep 3 paused))
      ∧ (s.power.update.switching = some (2, q, cid, slot) → scoreHalted s = false ∨ flightOver s = false →
          exec .scoreHalted s = .next s)
      ∧ (s.power.update.switching = some (3, q, cid, slot) → switchReady s = true → exec .scoreHalted s = .next (switchStart s)))
  ∧ (∀ (q cid slot : Nat) (s : State), (switchStart s).power.update.startedAt = steadyNs s
      ∧ (s.power.update.switching = some (3, q, cid, slot) → (switchStart s).power.update.switching = some (4, q, cid, slot))
      ∧ ∀ (n : Nat) (x : Lock), s.locks[n]? = some x → x.held = true → ownerIsland x.owner = 1 →
          (switchStart s).locks[n]? = some ({ held := false, owner := 0, broken := true } : Lock))
  ∧ (∀ (q cid slot : Nat) (s : State), s.power.running = true → s.power.update.switching = some (4, q, cid, slot) →
      let u : State := { s with power := { s.power with
        version := slotVersion s slot, runSlot := slot
        update := { s.power.update with prevVersion := s.power.version, trial := true, verified := false } } }
      (steadyNs s < s.power.update.startedAt + 150000000 →
        exec .updateResume s = .next (endSwitch q cid (resumeService u)) ∧ exec .updateRevert s = .next s)
      ∧ (s.power.update.startedAt + 150000000 ≤ steadyNs s → exec .updateResume s = .next s
        ∧ ∀ c, switchCmd (resumeService (breakLocks 1 s)) q cid = some c → exec .updateRevert s =
            .next (finishCmd c.q c.cid 0x0806 (resumeService (breakLocks 1 s)).power.version false (resumeService (breakLocks 1 s)))))
  ∧ (∀ s : State, s.power.update.waitingReset = [] → s.score.haltReq = true → resumeService s = { s with
      band := { s.band with lastSample := s.band.lastSample + (steadyNs s - s.power.update.startedAt) }
      fountains := s.fountains.map fun u => { u with paused := false }
      score := { s.score with haltReq := false, running := true, pc := s.score.resumeAt
                              epoch := s.score.epoch + roundUp (nowNs s - s.power.update.haltedAt) 64 }
      power := { s.power with update := { s.power.update with switching := none } } })

/-- LINK_SIGNAL_LOSS, LINK_SIGNAL_RETURN, LINK_TRAINING_COMPLETE (R446, R449, R453), FLIT_RECEIVE (R447 to R454, R456), FLIT_SLOT (R448,
R449, R454, R455), ACK_TIMER (R451), NAK_HOLDOFF_EXPIRY (R452), REPLAY_TIMEOUT (R453). Bulk's eighth slot: DEDUCED, log 36. A DATA
flit whose LEN is out of its range has no effect: DESIGN CHOICE, log 59. -/
def Obligations.LinksCarryFlitsInOrder : Prop :=
  (∀ (k : Nat) (l : Link) (s : State), s.trellis.links[k]? = some l → s.power.running = true →
    let at_ (t : State) : Option Link := t.trellis.links[k]?
    let fresh (x : Link) : Prop := x.nextSeq = 0 ∧ x.expect = 0 ∧ x.kept = [] ∧ x.replay = [] ∧ x.credits = [8, 32, 192]
    (l.state = .fenced ∨ l.state = .down → exec (.linkSignalLoss k) s = .next s)
    ∧ (l.state ≠ .fenced → l.state ≠ .down →
        ∃ t x, exec (.linkSignalLoss k) s = .next t ∧ at_ t = some x ∧ x.state = .down ∧ x.fromDown = true ∧ fresh x)
    ∧ (l.state ≠ .down → exec (.linkSignalReturn k) s = .next s)
    ∧ (l.state = .down → islandFenced s (56 + k) = false →
        ∃ t x, exec (.linkSignalReturn k) s = .next t ∧ at_ t = some x ∧ x.state = .training ∧ x.fromDown = true)
    ∧ (∀ (passed : Bool) (w : Nat), l.state = .training ∨ l.state = .retrain →
        let i : Instr := .linkTrainingComplete k passed w
        let passes : Prop := passed = true ∧ w = ledgerWidth s k
        (asleep s (56 + k) = true ∨ islandFenced s (56 + k) = true → exec i s = .next s)
        ∧ (asleep s (56 + k) = false → islandFenced s (56 + k) = false →
        (passes → ∃ t x, exec i s = .next t ∧ at_ t = some x ∧ x.state = .up ∧ x.fails = 0 ∧ x.width = w
            ∧ (l.fromDown = true → fresh x)
            ∧ (l.fromDown = false → x.nextSeq = l.nextSeq ∧ x.expect = l.expect ∧ x.kept = l.kept ∧ x.replay = l.kept))
        ∧ (¬ passes → l.fails < 2 → ∃ t x, exec i s = .next t ∧ at_ t = some x ∧ x.state = .training ∧ x.fails = l.fails + 1
            ∧ x.kept = l.kept ∧ x.nextSeq = l.nextSeq)
        ∧ (¬ passes → 2 ≤ l.fails → ∃ t x, exec i s = .next t ∧ at_ t = some x ∧ x.state = .fenced
            ∧ ((getSource (56 + k) 0 s).captured = none → ((getSource (56 + k) 0 t).captured).map (·.status) = some 0x0703)))))
  ∧ (∀ (k stamp : Nat) (flit : List Byte) (l : Link) (s : State), s.trellis.links[k]? = some l → k < 5 → flit.length = 256 →
      s.power.running = true → linkUp s k = true →
    let at_ (t : State) : Option Link := t.trellis.links[k]?
    let h := flitHead flit
    let i : Instr := .flitReceive k flit true stamp
    let asks (x : Link) : Prop := x.nak = (l.nak || l.nakAt.isNone) ∧ x.nakAt = l.nakAt
    let n : Nat := (h.ack + 4096 - (l.kept.head?.map (·.seq)).getD 0) % 4096
    let left : List KeptFlit := if n < l.kept.length then l.kept.drop (n + 1) else l.kept
    let d := (h.seq + 4096 - l.expect) % 4096
    (∃ t x, exec (.flitReceive k flit false stamp) s = .next t ∧ at_ t = some x ∧ asks x ∧ x.fecErrors = l.fecErrors + 1
        ∧ x.expect = l.expect ∧ x.kept = l.kept)
    ∧ (flitOk flit = false → ∃ t x, exec i s = .next t ∧ at_ t = some x ∧ asks x ∧ x.crcErrors = l.crcErrors + 1
        ∧ x.expect = l.expect ∧ x.kept = l.kept)
    ∧ (flitOk flit = true → flitFormOk flit = false → exec i s = .next s)
    ∧ (flitOk flit = true → flitFormOk flit = true → h.type = 0 → h.nak = false ∨ left = [] ∨ n < l.kept.length ∨ l.fruitless < 16 →
        ∃ t x, exec i s = .next t ∧ at_ t = some x ∧ x.kept = left ∧ x.expect = l.expect ∧ x.creditSeen = h.credit
          ∧ (l.credits = [8, 32, 192] → l.creditSeen = [0, 0, 0] →
              x.credits = [8 + h.credit.getD 0 0 % 256, 32 + h.credit.getD 1 0 % 256, 192 + h.credit.getD 2 0 % 256])
          ∧ (h.nak = true → left ≠ [] → x.replay = left))
    ∧ (flitOk flit = true → flitFormOk flit = true → h.type = 1 → h.nak = false →
        let so : List Byte := (if h.first then [] else l.partialMsg.getD h.vc []) ++ flitData flit
        (d = 0 → h.last = false → l.partialMsg.length = 3 → ∃ t x, exec i s = .next t ∧ at_ t = some x ∧ x.kept = left
            ∧ x.expect = (l.expect + 1) % 4096 ∧ x.partialMsg[h.vc]? = some so ∧ x.nakAt = none ∧ x.unreported = l.unreported + 1)
        ∧ (d = 0 → h.last = true → l.partialMsg.length = 3 →
            ∃ t u x rpl, exec i s = .next t ∧ t = takeArrived k h.vc stamp rpl so u ∧ at_ u = some x ∧ x.kept = left
            ∧ x.expect = (l.expect + 1) % 4096 ∧ x.partialMsg[h.vc]? = some [] ∧ (h.vc = 0 → h.rpl = true → rpl = true))
        ∧ (0 < d → d < 2048 → ∃ t x, exec i s = .next t ∧ at_ t = some x ∧ asks x ∧ x.expect = l.expect ∧ x.kept = left
            ∧ x.partialMsg = l.partialMsg)
        ∧ (2048 ≤ d → ∃ t x, exec i s = .next t ∧ at_ t = some x ∧ x.nullDue = true ∧ x.nak = l.nak ∧ x.expect = l.expect ∧ x.kept = left
            ∧ x.partialMsg = l.partialMsg)))
  ∧ (∀ (k vc stamp src : Nat) (rpl : Bool) (b : List Byte) (l : Link) (s : State), s.trellis.links[k]? = some l → l.peer = some src →
      (messageGood b = false → ∃ t, takeArrived k vc stamp rpl b s = t ∧ t.trellis = { s.trellis with badMessages := s.trellis.badMessages + 1 })
      ∧ (messageGood b = true → s.trellis.mnumSeen.contains (src, field b 1 1, vc, field b 4 4) = true → takeArrived k vc stamp rpl b s = s)
      ∧ (messageGood b = true → field b 1 1 = s.trellis.chip → field b 0 1 = 1 →
          s.trellis.mnumSeen.contains (src, field b 1 1, vc, field b 4 4) = false →
          ((takeArrived k vc stamp rpl b s).trellis.links[k]?).map (·.request) = some (some (field b 8 8, linkStampIn s k stamp, rpl))))
  ∧ (∀ (k : Nat) (l : Link) (s : State), s.trellis.links[k]? = some l → s.power.running = true → linkUp s k = true →
    let at_ (t : State) : Option Link := t.trellis.links[k]?
    let wire (h : FlitHead) (p : List Byte) : Out :=
      .flit k (flitBytes { h with ack := (l.expect + 4095) % 4096, nak := l.nak, credit := l.freed, src := s.trellis.chip } p)
    let pick : Option OutFlit :=
      if 7 ≤ l.sinceBulk ∧ (sendable l 2).isSome then sendable l 2
      else (sendable l 0).or ((sendable l 1).or (sendable l 2))
    (∀ (f : KeptFlit) (r : List KeptFlit), l.replay = f :: r →
      ((crc32c f.payload).toNat = f.check → ∃ t x, exec (.flitSlot k) s = .next t ∧ at_ t = some x ∧ x.replay = r
        ∧ x.credits = l.credits ∧ x.unreported = 0
        ∧ t.out = s.out ++ [wire { bareHead with seq := f.seq, rpl := true, type := 1, vc := f.vc, first := f.first, last := f.last } f.payload])
      ∧ ((crc32c f.payload).toNat ≠ f.check → ∃ t x, exec (.flitSlot k) s = .next t ∧ at_ t = some x ∧ x.state = .fenced
        ∧ ((getSource (56 + k) 0 s).captured = none → ((getSource (56 + k) 0 t).captured).map (·.status) = some 0x0708)))
    ∧ (l.replay = [] → l.nullDue = true → l.sinceBulk < 7 ∨ sendable l 2 = none → ∃ t x, exec (.flitSlot k) s = .next t
        ∧ at_ t = some x ∧ x.nullDue = false ∧ x.nextSeq = l.nextSeq ∧ x.credits = l.credits ∧ t.out = s.out ++ [wire bareHead []])
    ∧ (∀ f, l.replay = [] → l.nullDue = false → pick = some f → ∃ t x p, exec (.flitSlot k) s = .next t ∧ at_ t = some x
        ∧ x.nextSeq = (l.nextSeq + 1) % 4096 ∧ x.kept.length = l.kept.length + 1 ∧ x.queue = l.queue.erase f
        ∧ x.credits = l.credits.modify f.vc (· - 1) ∧ (f.vc ≠ 0 → p = f.payload)
        ∧ t.out = s.out ++ [wire { bareHead with seq := l.nextSeq, type := 1, vc := f.vc, first := f.first, last := f.last } p])
    ∧ (l.replay = [] → l.nullDue = false → pick = none → exec (.flitSlot k) s = .next s)
    ∧ (∀ vc, 1024 ≤ l.kept.length ∨ l.credits.getD vc 0 = 0 → sendable l vc = none)
    ∧ (0 < l.unreported → 64 ≤ l.unreported ∨ l.unreportedFrom + 1000 ≤ steadyNs s →
        ∃ t, exec (.ackTimer k) s = .next t ∧ at_ t = some { l with nullDue := true })
    ∧ (l.unreported = 0 ∨ (l.unreported < 64 ∧ steadyNs s < l.unreportedFrom + 1000) → exec (.ackTimer k) s = .next s)
    ∧ (∀ a, l.nakAt = some a → (a + 4000 ≤ steadyNs s → ∃ t, exec (.nakHoldoffExpiry k) s = .next t ∧ at_ t = some { l with nakAt := none })
        ∧ (steadyNs s < a + 4000 → exec (.nakHoldoffExpiry k) s = .next s))
    ∧ (l.kept = [] ∨ steadyNs s < l.lastRelease + 8000 → exec (.replayTimeout k) s = .next s)
    ∧ (l.kept ≠ [] → l.lastRelease + 8000 ≤ steadyNs s → ∃ t x, exec (.replayTimeout k) s = .next t ∧ at_ t = some x ∧ x.kept = l.kept
        ∧ (l.fruitless < 16 → x.replay = l.kept ∧ x.fruitless = l.fruitless + 1 ∧ x.state = .up)
        ∧ (16 ≤ l.fruitless → x.state = .retrain)))

/-- TIME_REQ_PERIOD, TIME_REQ, TIME_RESP (R445, R459, R460), COMMIT_PERIOD, COMMIT_MESSAGE (R177, R457), PEER_STATE_PERIOD, PEER_STATE (R457),
PEER_LOSS_TIMEOUT (R464, R495 ruling 12), GALLERY (R176, R465), RELAY, RELAY_REFUSE, RELAY_RETRY (R458), EPOCH_ACK, EPOCH_PROPOSE,
EPOCH_TIMEOUT (R463). A way on that does not serve refuses as a full one: DEDUCED, log 60. -/
def Obligations.MembersKeepTimeAndGalleries : Prop :=
  (∀ (k : Nat) (l : Link) (s : State), s.trellis.links[k]? = some l → s.power.running = true →
    let at_ (t : State) : Option Link := t.trellis.links[k]?
    let m := timeMaster s
    (m = s.trellis.chip ∨ steadyNs s < s.trellis.timeReqAt + 1000000 → exec .timeReqPeriod s = .next s)
    ∧ (m ≠ s.trellis.chip → s.trellis.timeReqAt + 1000000 ≤ steadyNs s → linkTo s m = some k → linkServes s k = true →
        ∃ t x, exec .timeReqPeriod s = .next t ∧ t.trellis.timeReqAt = steadyNs s ∧ at_ t = some x
          ∧ x.queue = l.queue ++ messageFlits 0 (messageHead 1 m (mnumFor s m 0) ++ leBytes 8 0))
    ∧ (m ≠ s.trellis.chip → s.trellis.timeReqAt + 1000000 ≤ steadyNs s → linkTo s m = some k → linkServes s k = false → l.state ≠ .fenced →
        exec .timeReqPeriod s = .next { s with trellis := { s.trellis with timeReqAt := steadyNs s } })
    ∧ (∀ t1 t2 p, l.peer = some p →
        (l.request = some (t1, t2, false) → givesTime s = false → ∃ t x, exec (.timeReq k) s = .next t ∧ at_ t = some x
          ∧ x = { l with request := none })
        ∧ (l.request = some (t1, t2, false) → givesTime s = true → ∃ t x, exec (.timeReq k) s = .next t ∧ at_ t = some x ∧ x.request = none
          ∧ x.queue = l.queue ++ messageFlits 0 (messageHead 2 p (mnumFor s p 0) ++ leBytes 8 t1 ++ leBytes 8 t2 ++ leBytes 8 0))
        ∧ (l.request = some (t1, t2, true) → ∃ t x, exec (.timeReq k) s = .next t ∧ at_ t = some x ∧ x.request = none
          ∧ x.queue = l.queue ∧ x.samplesDropped = l.samplesDropped + 1))
    ∧ (l.request = none → exec (.timeReq k) s = .next s)
    ∧ (∀ t1 t2 t3 t4 : Nat, m ≠ s.trellis.chip → l.response = some (t1, t2, t3, t4, false) →
        ∃ u, at_ u = some { l with response := none } ∧ u.band = s.band ∧ exec (.timeResp k) s = .next (takeSample .trellis
          (((t1 - t2 : Int) + (t4 - t3) - s.band.asym.getD k 0) * 2 ^ 16 / 2) u))
    ∧ (∀ t1 t2 t3 t4 : Nat, l.response = some (t1, t2, t3, t4, true) → ∃ t x, exec (.timeResp k) s = .next t ∧ t.band = s.band
        ∧ at_ t = some x ∧ x.response = none ∧ x.samplesDropped = l.samplesDropped + 1))
  ∧ (∀ (k p : Nat) (l : Link) (s : State), s.trellis.links[k]? = some l → s.power.running = true → p ∈ peers s → (peers s).Nodup →
      (∀ q ∈ peers s, ∃ j y, linkTo s q = some j ∧ linkUp s j = true ∧ s.trellis.links[j]? = some y) → linkTo s p = some k →
    let at_ (t : State) : Option Link := t.trellis.links[k]?
    (timeFrozen s = true → exec .commitPeriod s = .next s ∧ exec .peerStatePeriod s = .next s)
    ∧ (timeFrozen s = false → s.trellis.commitAt + 1000000 ≤ steadyNs s → ∃ t x, exec .commitPeriod s = .next t ∧ t.trellis.commitAt = steadyNs s
        ∧ at_ t = some x ∧ x.queue = l.queue ++ (if commitEntries s p = [] then []
            else messageFlits 1 (messageHead 0x11 p (mnumFor s p 1) ++ commitBody (commitEntries s p))))
    ∧ (steadyNs s < s.trellis.commitAt + 1000000 → exec .commitPeriod s = .next s)
    ∧ (timeFrozen s = false → 1 < s.trellis.members.length → s.trellis.peerStateAt + 10000000 ≤ steadyNs s → ∃ t x, exec .peerStatePeriod s = .next t
        ∧ t.trellis.peerStateAt = steadyNs s ∧ at_ t = some x
        ∧ x.queue = l.queue ++ messageFlits 1 (messageHead 0x12 p (mnumFor s p 1) ++ peerStateBody s (updating s)))
    ∧ (steadyNs s < s.trellis.peerStateAt + 10000000 → exec .peerStatePeriod s = .next s))
  ∧ (∀ (src : Nat) (s : State), src < 6 → s.power.running = true → src ∈ peers s →
      (∀ (a b stamp : Nat) (closed : Bool) (y : Stream), s.streams[b]? = some (some y) → (src, a) ∈ y.links → ∃ t z,
        exec (.commitMessage src [(a, b, closed, stamp)]) s = .next t ∧ t.streams[b]? = some (some z)
        ∧ z.commits.find? (fun c => c.1 == src && c.2.1 == a) = some (src, a, max stamp
            (((y.commits.find? fun c => c.1 == src && c.2.1 == a).map fun c => c.2.2.1).getD 0), closed))
      ∧ (∀ (members : Nat) (mark : Bool) (links : List (Nat × Nat)), links.length = 5 → ∃ t, exec (.peerState src members mark links) s = .next t
          ∧ (src, links) ∈ t.trellis.peerLinks ∧ t.trellis.members = s.trellis.members
          ∧ (mark = true → (src, steadyNs s, some (steadyNs s)) ∈ t.trellis.heard)
          ∧ ((t.trellis.heard.find? fun h => h.1 == src).map fun h => h.2.1) = some (steadyNs s))
      ∧ (∀ (h0 : Nat), (s.trellis.heard.find? fun h => h.1 == src) = some (src, h0, none) → h0 + 100000000 ≤ steadyNs s →
          ∃ t, exec (.peerLossTimeout src) s = .next t ∧ src ∉ t.trellis.members ∧ t.trellis.chips = s.trellis.chips - 1
          ∧ (s.load = none → (getSource 1 0 s).captured = none → ((getSource 1 0 t).captured).map (·.status) = some 0x0704)
          ∧ (∀ (n a : Nat) (y : Stream), s.streams[n]? = some (some y) → (src, a) ∈ y.links → s.load = none →
              ∃ z c, t.streams[n]? = some (some z) ∧ c ∈ z.commits ∧ c.1 = src ∧ c.2.1 = a ∧ c.2.2.2 = true)
          ∧ (∀ j, s.load = some j → j.step = 1 → t.load = none))
      ∧ (∀ (h0 k : Nat) (l : Link), (s.trellis.heard.find? fun h => h.1 == src) = some (src, h0, none) → steadyNs s < h0 + 100000000 →
          linkTo s src = some k → s.trellis.links[k]? = some l → l.state ≠ .fenced → exec (.peerLossTimeout src) s = .next s)
      ∧ (∀ (a n id stamp : Nat) (ended : Bool) (box : List Nat) (gid : BitVec 64) (tag : BitVec 32) (codes : List Byte) (y : Stream),
          a < 128 → n < 128 → box.length = 4 → s.streams[n]? = some (some y) →
          let i : Instr := .gallery src a n ended id stamp box gid tag codes
          let e : GalleryEntry := { chip := src, stream := a, ended := ended, trackId := id, stamp := stamp, box := box, gid := gid.toNat
                                    tag := tag.toNat, codes := codes }
          ((src, a) ∈ y.links → y.gallery.length < 1024 → ∃ t z, exec i s = .next t ∧ t.streams[n]? = some (some z)
            ∧ z.gallery.length = y.gallery.length + 1 ∧ ∀ g, g ∈ z.gallery ↔ g = e ∨ g ∈ y.gallery)
          ∧ ((src, a) ∈ y.links → y.gallery.length = 1024 → ∃ t z, exec i s = .next t ∧ t.streams[n]? = some (some z) ∧ z.gallery.length = 1024)
          ∧ ((src, a) ∉ y.links → exec i s = .next s)))
  ∧ (∀ (src dst vc k : Nat) (m : List Byte) (l : Link) (s : State), src < 6 → dst < 6 → src ≠ dst → vc = 1 ∨ vc = 2 → 8 ≤ m.length →
      s.power.running = true → src ∈ peers s → dst ≠ s.trellis.chip → s.trellis.links[k]? = some l →
      let count : Nat := (s.trellis.relays.filter fun r => r.1 == src && r.2.1 == dst).length
      (count < 64 → linkTo s dst = some k → linkServes s k = true → ∃ t x, exec (.relay src dst vc m) s = .next t
        ∧ t.trellis.relays = s.trellis.relays ++ [(src, dst, m)] ∧ t.trellis.links[k]? = some x
        ∧ x.queue = relayQueue (messageFlits 2 (relayMessage s dst src dst vc m)) l.queue)
      ∧ (64 ≤ count → linkTo s src = some k → linkServes s k = true → ∃ t x, exec (.relay src dst vc m) s = .next t
        ∧ t.trellis.relays = s.trellis.relays ∧ t.trellis.links[k]? = some x
        ∧ x.queue = l.queue ++ messageFlits 1 (messageHead 0x13 src (mnumFor s src 1) ++ leBytes 1 src ++ leBytes 1 dst
            ++ leBytes 1 (field m 0 1) ++ leBytes 1 0 ++ leBytes 4 (field m 4 4))))
  ∧ (∀ (src vc : Nat) (m : List Byte) (s : State), src < 6 → src ≠ s.trellis.chip → s.trellis.chip < 6 → vc = 1 ∨ vc = 2 →
      s.power.running = true → src ∈ peers s → messageGood m = true → field m 1 1 = s.trellis.chip →
      let key := (src, field m 1 1, vc, field m 4 4)
      (s.trellis.mnumSeen.contains key = true → exec (.relay src s.trellis.chip vc m) s = .next s)
      ∧ (s.trellis.mnumSeen.contains key = false → exec (.relay src s.trellis.chip vc m) s = .next (takeControl src m
          { s with trellis := { s.trellis with mnumSeen := s.trellis.mnumSeen ++ [key] } })))
  ∧ (∀ (dst type num : Nat) (m : SentMsg) (s : State), dst < 6 → s.trellis.chip < 6 → s.power.running = true →
      ((s.trellis.relayed.find? fun x => x.dst == dst && field x.bytes 0 1 == type && field x.bytes 4 4 == num) = some m →
        exec (.relayRefuse s.trellis.chip dst type num) s = .next { s with trellis := { s.trellis with
          relayed := s.trellis.relayed.erase m, refused := s.trellis.refused ++ [{ m with since := steadyNs s }] } })
      ∧ (∀ k l, s.trellis.refused = [m] → m.dst = dst → m.since + 1000000 ≤ steadyNs s → linkTo s dst = some k → linkServes s k = true →
          s.trellis.links[k]? = some l → ∃ t x, exec (.relayRetry dst) s = .next t ∧ t.trellis.refused = []
          ∧ t.trellis.links[k]? = some x ∧ x.queue = l.queue ++ messageFlits m.channel m.bytes)
      ∧ ((∀ x ∈ s.trellis.refused, x.dst ≠ dst ∨ steadyNs s < x.since + 1000000) → exec (.relayRetry dst) s = .next s))
  ∧ (∀ (j : LoadJob) (s : State), s.power.running = true → s.load = some j → j.step = 1 → j.pkg.pkgid < 2 ^ 64 →
      (∀ src status prompts : Nat, src < 6 → src ≠ 0 → s.trellis.chip = 0 → src ∈ s.trellis.members → status < 65536 → prompts < 65536 →
        status ≠ 0 → ∃ t, exec (.epochAck src j.pkg.pkgid status prompts) s = .next t ∧ t.load = none ∧ t.pkg = s.pkg ∧ t.score = s.score)
      ∧ (∀ src prompts : Nat, src < 6 → src ≠ 0 → s.trellis.chip = 0 → s.trellis.members = [0, src] → prompts < 65536 → s.pkg.isSome = true →
        s.trellis.acks = [(0, j.pkg.pkgid, 0, prompts, steadyNs s)] →
        ∃ t e, exec (.epochAck src j.pkg.pkgid 0 prompts) s = .next t ∧ e % 64 = 0 ∧ nowNs s + 501000000 + 5000000 * prompts ≤ e
          ∧ e < nowNs s + 501000000 + 5000000 * prompts + 64 ∧ t.load = some { j with step := 2, epoch := some e })
      ∧ (∀ e chips : Nat, s.trellis.chip ≠ 0 → e < 2 ^ 64 → chips < 256 → s.pkg.isSome = true →
        (chips = s.trellis.chips → exec (.epochPropose j.pkg.pkgid e chips) s = .next { s with
          load := some { j with step := 2, epoch := some e }
          score := { s.score with haltReq := s.score.running || s.score.armed || s.score.watchdogHalt } })
        ∧ (chips ≠ s.trellis.chips → exec (.epochPropose j.pkg.pkgid e chips) s = .next s))
      ∧ (j.since + 10000000000 ≤ steadyNs s → exec .epochTimeout s = .next (endLoad j 0x0709 s))
      ∧ (steadyNs s < j.since + 10000000000 → exec .epochTimeout s = .next s))

/-- PWRFAIL, MAINGOOD_FALL (R470, R473), LAST_BREATH_END (R473, R474, R510), AON_SUPPLY_SWITCH, ALWAYS_ON_DOMAIN_LOSS (R472),
ALWAYS_ON_POWER_UP (R510), JUNCTION_HOT, THERMAL_TRIP (R490), TIMEREF_LOSS (R511), AVS_ADJUST (R471, R516), UNIT_GATE (R489). A lower
junction reading is taken: DESIGN CHOICE, log 70. -/
def Obligations.PowerFallsAndReturns : Prop :=
  let breathes (s t : State) : Prop :=
    t.power.breath = true ∧ t.power.running = false ∧ (∀ n p, n < 16 → t.pins[n]? = some p → p.mode = .disabled)
    ∧ (let block := (s.band.count, timeStateCode s.band.tstate, s.power.ledger.lbSeq + 1)
       t.power.store.time = some (block, crc64 (timeBlock block)))
    ∧ t.power.store.records = some (journalTail s, crc64 (tailBytes (journalTail s)))
    ∧ t.power.store.summaries = some (trackSummaries s, crc64 (trackSummaries s)) ∧ t.power.store.marker = false
    ∧ t.power.ledger.gen = s.power.ledger.gen + 1 ∧ t.power.ledger.timeLost = s.band.timeLost
    ∧ (t.power.copyA = some (copyOf t.power.ledger) ∨ t.power.copyB = some (copyOf t.power.ledger))
  let logs (island status : Nat) (s t : State) : Prop :=
    (getSource island 0 s).captured = none → ((getSource island 0 t).captured).map (·.status) = some status
  (∀ (low : Nat) (s : State), s.power.running = true → s.power.breath = false →
      (1000 ≤ low → ∃ t, exec (.pwrfail true low) s = .next t ∧ breathes s t ∧ t.power.pwrfail = true)
      ∧ (low < 1000 → s.power.pwrfail = false → ∃ u, exec (.pwrfail true low) s = .next (setPwr u) ∧ u.power.pwrfail = true
          ∧ u.power.running = true ∧ u.power.breath = false ∧ u.pins = s.pins)
      ∧ (∃ t, exec (.pwrfail false low) s = .next t ∧ t.power.pwrfail = false ∧ t.power.running = true ∧ t.power.store = s.power.store)
      ∧ (s.power.maingood = true → ∃ t, exec .maingoodFall s = .next t ∧ breathes s t ∧ t.power.maingood = false
          ∧ t.power.thermtrip = false ∧ t.gate.linkUp = false ∧ t.pkg = none ∧ t.streams = State.reset.streams ∧ (s.power.pwrfail = false → logs 0 0x080C s t))
      ∧ (∀ island tj : Nat, island ≤ 60 → tj < 128 →
        (115 ≤ tj → ∃ t, exec (.thermalTrip island tj) s = .next t ∧ breathes s t ∧ t.power.thermal = true ∧ t.power.thermtrip = true
          ∧ logs island 0x0809 s t)
        ∧ (tj < 115 → exec (.thermalTrip island tj) s = .next s)
        ∧ (100 ≤ tj → ∃ u, exec (.junctionHot island tj) s = .next (setPwr u) ∧ u.power.tj = tj ∧ u.power.tjIsland = island
          ∧ u.power.running = true ∧ u.score = s.score
          ∧ (s.power.hotAt = none → logs island 0x0808 s u)
          ∧ (∀ a, s.power.hotAt = some a → steadyNs s < a + 60000000000 → u.err = s.err))
        ∧ (tj < 100 → ∃ t, exec (.junctionHot island tj) s = .next t ∧ t.power.tj = tj ∧ t.err = s.err ∧ t.gate = s.gate))
      ∧ (∀ ns : Nat, s.power.timeref = true → s.power.tap ≠ .extest →
        (1000 < ns → ∃ t, exec (.timerefLoss ns) s = .next t ∧ breathes s t ∧ t.power.timeref = false ∧ logs 0 0x080D s t)
        ∧ (ns ≤ 1000 → exec (.timerefLoss ns) s = .next s))
      ∧ (∀ target : Nat, islandFenced s 1 = false → target % 5 = 0 → 700 ≤ target → target ≤ 800 →
        s.power.avsAt + 100000000 ≤ steadyNs s →
        (target ≤ s.power.vdd + 5 → s.power.vdd ≤ target + 5 → s.power.tap = .extest → ∀ ack, ∃ t,
          exec (.avsAdjust target ack) s = .next t ∧ t.out = s.out ∧ t.power.vdd = 800 ∧ logs 0 0x080E s t)
        ∧ (target ≤ s.power.vdd + 5 → s.power.vdd ≤ target + 5 → s.power.tap ≠ .extest →
          exec (.avsAdjust target true) s = .next { s with
            out := s.out ++ [.avsTarget target], power := { s.power with vdd := target, avsAt := steadyNs s } }
          ∧ ∃ t, exec (.avsAdjust target false) s = .next t ∧ t.power.vdd = 800 ∧ logs 0 0x080E s t)
        ∧ (s.power.vdd + 5 < target ∨ target + 5 < s.power.vdd → ∀ ack, exec (.avsAdjust target ack) s = .next s))
      ∧ (∀ (i : Nat) (x : Island), (3 ≤ i ∧ i ≤ 12) ∨ (56 ≤ i ∧ i ≤ 60) → islandFenced s i = false → s.islands[i]? = some x →
        (unitIdle s i = true → ∃ t y, exec (.unitGate i) s = .next t ∧ t.islands[i]? = some y ∧ y.gated = true ∧ y.ready = false
          ∧ t.score = s.score ∧ t.streams = s.streams)
        ∧ (unitIdle s i = false → exec (.unitGate i) s = .next s))
      ∧ (∀ (n f : Nat) (y : Stream), s.streams[n]? = some (some y) → y.fountain = some f → f < 4 → unitIdle s (5 + f) = false))
  ∧ (∀ (low : Nat) (s : State), s.power.running = false → s.power.recovery = true → s.power.pwrfail = false →
      (low < 1000 ∨ s.power.maingood = false → ∃ u, exec (.pwrfail true low) s = .next (setPwr u) ∧ u.power.pwrfail = true
        ∧ u.power.recovery = true ∧ u.pins = s.pins)
      ∧ (1000 ≤ low → s.power.maingood = true → s.power.breath = false → ∃ t, exec (.pwrfail true low) s = .next t
        ∧ t.power.breath = true ∧ t.power.store.records = s.power.store.records ∧ t.power.store.summaries = s.power.store.summaries
        ∧ t.power.store.marker = false ∧ (reg t 0x10).getLsbD 4 = true))
  ∧ (∀ s : State, s.power.maingood = false → exec .maingoodFall s = .next s)
  ∧ (∀ s : State,
      (s.power.breath = true → ∃ t, exec .lastBreathEnd s = .next t ∧ t.power.breath = false ∧ t.power.running = false
        ∧ t.power.lbdone = true ∧ t.power.store = { s.power.store with marker := true } ∧ t.power.thermal = s.power.thermal
        ∧ t.power.copyA = s.power.copyA ∧ t.power.copyB = s.power.copyB ∧ t.band = s.band
        ∧ t.pkg = none ∧ t.streams = State.reset.streams ∧ t.score = State.reset.score ∧ t.mem.host = s.mem.host ∧ t.mem.bytes = [])
      ∧ (s.power.breath = false → exec .lastBreathEnd s = .next s))
  ∧ (∀ (mv ms : Nat) (s : State), s.power.aonAlive = true → s.power.running = true →
      (s.power.aonBkup = false → mv < 2900 → ∃ u, exec (.aonSupplySwitch mv ms) s = .next (setPwr u) ∧ u.power.aonBkup = true
        ∧ u.power.running = true ∧ u.power.breath = s.power.breath ∧ u.band = s.band ∧ logs 0 0x080A s u)
      ∧ (s.power.aonBkup = true → 3050 < mv → 10 ≤ ms → ∃ u, exec (.aonSupplySwitch mv ms) s = .next (setPwr u) ∧ u.power.aonBkup = false
        ∧ u.band = s.band ∧ logs 0 0x080A s u)
      ∧ (s.power.aonBkup = false → 2900 ≤ mv → exec (.aonSupplySwitch mv ms) s = .next s)
      ∧ (s.power.aonBkup = true → mv ≤ 3050 ∨ ms < 10 → exec (.aonSupplySwitch mv ms) s = .next s))
  ∧ (∀ s : State,
      (s.power.aonAlive = true → ∃ t, exec .alwaysOnDomainLoss s = .next t ∧ t.power.aonAlive = false ∧ t.power.countLost = true
        ∧ t.power.running = false ∧ t.band = Band.reset ∧ t.power.mirror = s.power.mirror ∧ t.power.slots = s.power.slots
        ∧ (let spent := (s.band.aon - s.power.breathAt) / (1000 * 2 ^ 16)
           let gone (bound : Nat) : Prop := s.power.breath = true ∧ spent < bound
           (¬ gone 51 → t.power.store.time = s.power.store.time) ∧ (¬ gone 707 → t.power.store.records = s.power.store.records)
           ∧ (¬ gone 871 → t.power.copyA = s.power.copyA ∧ t.power.copyB = s.power.copyB)
           ∧ (¬ gone 2200 → t.power.store.summaries = s.power.store.summaries) ∧ t.power.store.marker = s.power.store.marker))
      ∧ (s.power.aonAlive = true → exec .alwaysOnPowerUp s = .next s)
      ∧ (s.power.aonAlive = false → exec .alwaysOnDomainLoss s = .next s
        ∧ exec .alwaysOnPowerUp s = .next { s with power := { s.power with aonAlive := true, lbdone := true } }))

/-- BOOT (R58, R471, R476, R478, R481, R483, R485, R510, R511), TIMEREF_RETURN (R511), PERST_N_DEASSERT, FUNDAMENTAL_RESET, HOT_RESET, FLR
(R393, R394, R485, R510, R495 ruling 13). What the tests of a boot find are its facts. The flush of PERST_N with SCOPE 0: DEDUCED, log
69; a slot that no STAGE has written: DESIGN CHOICE, log 71. -/
def Obligations.BootAndResetsLeaveTheirState : Prop :=
  (∀ (f : BootFacts) (s : State),
    let p := s.power
    let alive : Prop := p.running = false ∧ p.breath = false ∧ p.aonAlive = true
    let ready : Prop := alive ∧ p.recovery = false ∧ p.thermal = false ∧ p.waitingBoot = none
      ∧ (if p.maingood then p.testEn else f.testEn) = false ∧ (p.perstReleased = true ∨ p.ledger.perstScope = true)
    let whole : Prop := p.cut = false ∧ f.cutAt = none
    let starts : Prop := (slotGood s f 0 = true ∨ slotGood s f 1 = true) ∧ f.quinbuarStarts = true
    let serves (t : State) : Prop := t.power.running = true ∧ t.power.bootStep = 12 ∧ t.power.recovery = false
      ∧ (reg t 0x100050).getLsbD 8 = true ∧ t.power.store.records = none ∧ t.power.mirror = some (copyOf t.power.ledger)
      ∧ (∀ n x, n < 16 → t.pins[n]? = some x → x.mode = .disabled)
      ∧ (∀ i x, i ∈ f.failedIslands → 1 ≤ i → i ≤ 60 → t.islands[i]? = some x → x.bootFenced = true)
    (¬ alive → exec (.boot f) s = .next s)
    ∧ (alive → ¬ ready → exec (.boot f) s = .next (raiseMaingood f s))
    ∧ (ready → ∃ t, exec (.boot f) s = .next t ∧ t.power.lbdone = false ∧ t.power.maingood = true
      ∧ (let from_ (l : Ledger) : Prop := t.power.ledger.serial = l.serial ∧ t.power.ledger.boots = l.boots + 1
         (∀ a b, validLedger p.copyA = some a → validLedger p.copyB = some b → (b.gen ≤ a.gen → from_ a) ∧ (a.gen < b.gen → from_ b))
         ∧ (∀ a, validLedger p.copyA = some a → validLedger p.copyB = none → from_ a)
         ∧ (∀ b, validLedger p.copyA = none → validLedger p.copyB = some b → from_ b)
         ∧ (∀ m, validLedger p.copyA = none → validLedger p.copyB = none → p.tap ≠ .extest → validLedger p.mirror = some m → from_ m))
      ∧ (p.timeref = false → t.power.waitingBoot = some f ∧ t.power.running = false)
      ∧ (whole → p.timeref = true → slotGood s f 0 = false → slotGood s f 1 = false →
          t.power.recovery = true ∧ t.power.running = false ∧ t.power.bootStep = 1 ∧ t.gate.configReady = true)
      ∧ (∀ i, f.cutAt = some i → 1 ≤ i → i ≤ 12 → p.cut = false → p.timeref = true → starts → t.power.running = false
          ∧ ((∀ l, pickLedger p = some l → l.steps.length = 13) → (t.power.ledger.steps[i]?).map (·.outcome) = some 1))
      ∧ (whole → p.timeref = true → starts → serves t
        ∧ ((∀ l, pickLedger p = some l → l.steps.length = 13) → ∀ i, 3 ≤ i → i ≤ 12 →
            (t.power.ledger.steps[i]?).map (·.outcome) = some (if f.steps.getD i true then 2 else 3)))
      ∧ (whole → p.timeref = true → (slotGood s f 0 = true ∨ slotGood s f 1 = true) → f.quinbuarStarts = false →
          t.power.running = false ∧ t.power.recovery = false ∧ t.power.bootStep = 1))
    ∧ (p.tap = .extest → exec .timerefReturn s = .next { s with power := { p with timerefPin := true } })
    ∧ (p.tap ≠ .extest → p.timeref = true → exec .timerefReturn s = .next s)
    ∧ (p.tap ≠ .extest → p.timeref = false → p.waitingBoot = none → exec .timerefReturn s = .next { s with power := { p with timeref := true } })
    ∧ (whole → p.timeref = false → p.waitingBoot = some f → p.recovery = false → p.store.records = none → starts → ∃ t,
        exec .timerefReturn s = .next t ∧ t.power.waitingBoot = none ∧ t.power.timeref = true ∧ t.power.running = true
        ∧ t.power.bootStep = 12))
  ∧ (∀ s : State,
      let released : State := { s with power := { s.power with perstReleased := true } }
      let asserted : State := { s with power := { s.power with perstReleased := false } }
      (s.power.tap = .extest → exec .perstNDeassert s = .next { s with power := { s.power with perstPin := true } }
        ∧ exec .fundamentalReset s = .next { s with power := { s.power with perstPin := false } })
      ∧ (s.power.tap ≠ .extest →
      (s.power.perstReleased = true → exec .perstNDeassert s = .next s)
      ∧ (s.power.perstReleased = false → s.power.running = false → s.power.recovery = false → exec .perstNDeassert s = .next released)
      ∧ (s.power.perstReleased = false → s.power.running = true ∨ s.power.recovery = true → ∃ t, exec .perstNDeassert s = .next t
          ∧ t.power.perstReleased = true ∧ t.gate.configReady = true ∧ t.gate.linkUp = true ∧ t.mbx = s.mbx)
      ∧ (s.power.perstReleased = false → exec .fundamentalReset s = .next s)
      ∧ (s.power.perstReleased = true → s.power.breath = true → exec .fundamentalReset s = .next asserted)
      ∧ (s.power.perstReleased = true → s.power.breath = false → s.power.running = true → (reg s 0x400018).getLsbD 0 = true →
          ∃ t, exec .fundamentalReset s = .next t ∧ t.power.running = true ∧ t.mbx.session = none ∧ t.mbx.cmds = []
            ∧ t.gate.linkUp = false ∧ t.gate.cfg = Gate.resetCfg ∧ t.pkg = s.pkg ∧ t.score = s.score)
      ∧ (s.power.perstReleased = true → s.power.breath = false → s.power.running = true → (reg s 0x400018).getLsbD 0 = false →
          ∃ t, exec .fundamentalReset s = .next t ∧ t.power.running = false ∧ t.power.perstReleased = false ∧ t.band = s.band
            ∧ t.power.store.records = some (journalTail s, crc64 (tailBytes (journalTail s))) ∧ t.power.store.marker = true ∧ t.pkg = none
            ∧ t.streams = State.reset.streams ∧ t.mbx = Mailbox.reset))
      ∧ (∀ i : Instr, i = .hotReset ∨ i = .flr →
        (s.gate.linkUp = true → s.gate.configReady = true → s.power.breath = false → s.fenced = none → ∃ t, exec i s = .next t
          ∧ t.mbx.session = none ∧ t.mbx.cmds = [] ∧ t.gate.linkUp = true ∧ t.gate.d3hot = false ∧ memSpace t = false
          ∧ t.gate.msix = Gate.reset.msix ∧ t.score = s.score ∧ t.pkg = s.pkg ∧ t.power = { s.power with
              ledger := t.power.ledger, copyA := t.power.copyA, copyB := t.power.copyB, mirror := t.power.mirror })
        ∧ (∀ j : ResetJob, s.gate.linkUp = true → s.gate.configReady = true → s.power.breath = false → s.fenced = some j → j.island = 2 →
            exec i s = .next { s with gate := { s.gate with heldReset := if i = .hotReset then 1 else 2 } })
        ∧ (s.power.breath = true ∨ s.gate.linkUp = false → exec i s = .next s)))

/-- SMB_READ_TJ, SMB_READ_TJ_ISLAND, SMB_READ_STATUS, SMB_READ_BOOTSTEP, SMB_READ_STEPPING, SMB_UNLISTED_COMMAND, SMB_ALERT_RESPONSE,
SMB_ALERT_REPEAT (R515; MAINGOOD for VDD_IO: DEDUCED, log 74), BYPASS (its captured 0: PRESUMED, log 75), IDCODE, SAMPLE_PRELOAD, EXTEST,
TAP_RESET (R517). -/
def Obligations.SmbusAndTestPortAnswer : Prop :=
  (∀ s : State,
    let p := s.power
    let serves : Prop := p.maingood = true ∧ p.aonAlive = true ∧ p.tap ≠ .extest
    let answers (i : Instr) (v : BitVec 8) : Prop := exec i s = .next { s with out := s.out ++ [.smbByte v] }
    (serves → answers .smbReadTj (BitVec.ofInt 8 p.tj) ∧ answers .smbReadTjIsland (BitVec.ofNat 8 p.tjIsland)
      ∧ answers .smbReadBootstep (BitVec.ofNat 8 p.bootStep) ∧ answers .smbReadStepping ((reg s 0).extractLsb' 0 8)
      ∧ (∃ v : BitVec 8, answers .smbReadStatus v ∧ v.getLsbD 0 = p.aonBkup ∧ v.getLsbD 1 = p.pwrfail
          ∧ v.getLsbD 2 = decide (100 ≤ p.tj) ∧ v.getLsbD 3 = p.recovery ∧ v.getLsbD 4 = (reg s 0x100050).getLsbD 8
          ∧ v.getLsbD 5 = p.breath ∧ v.getLsbD 6 = false ∧ v.getLsbD 7 = false)
      ∧ (∀ c, 5 ≤ c → c < 256 → exec (.smbUnlistedCommand c) s = .next { s with out := s.out ++ [.smbNack] })
      ∧ (p.alert = true → exec .smbAlertResponse s = .next { s with
          out := s.out ++ [.smbAlertAnswer], power := { p with alert := false, alertReleased := some s.band.aon } })
      ∧ (p.alert = false → exec .smbAlertResponse s = .next s))
    ∧ (¬ serves → ∀ i ∈ [Instr.smbReadTj, .smbReadTjIsland, .smbReadStatus, .smbReadBootstep, .smbReadStepping, .smbAlertResponse
        , .smbUnlistedCommand 5], exec i s = .next s)
    ∧ (∀ a, p.alertReleased = some a → p.maingood = true → p.pwrfail = true ∨ 100 ≤ p.tj →
        (a + 1000000000 * 2 ^ 16 ≤ s.band.aon → exec .smbAlertRepeat s = .next { s with power := { p with alert := true, alertReleased := none } })
        ∧ (s.band.aon < a + 1000000000 * 2 ^ 16 → exec .smbAlertRepeat s = .next s))
    ∧ (p.alertReleased = none ∨ p.maingood = false ∨ (p.pwrfail = false ∧ p.tj < 100) → exec .smbAlertRepeat s = .next s))
  ∧ (∀ s : State,
    let select (i : TapInstr) (out : List Out) : State := { s with out := s.out ++ out, power := { s.power with tap := i } }
    let id : BitVec 32 := if (reg s 0).extractLsb' 0 8 = 0#8 then 0x0064074F else 0x1064074F
    (s.power.tap ≠ .extest →
      exec .bypass s = .next (select .bypass [.tapShift [false]])
      ∧ (∃ bits, exec .idcode s = .next (select .idcode [.tapShift bits]) ∧ bits.length = 32 ∧ ∀ i, i < 32 → bits[i]? = some (id.getLsbD i))
      ∧ (∀ cells : List Bool, ∃ t bits, exec (.samplePreload cells) s = .next t ∧ bits.length = cells.length
          ∧ t = { select .samplePreload [.tapShift bits] with
              freeCount := s.freeCount + cells.length, power := { s.power with tap := .samplePreload, cells := cells } }
          ∧ (∀ i x, i < 16 → i < cells.length → s.pins[i]? = some x → pinDrives x = true → bits[i]? = some (pinLevel x))
          ∧ (16 < cells.length → bits[16]? = some s.band.ppsOut))
      ∧ (let cells : List Out := s.power.cells.zipIdx.filterMap fun c =>
           if c.2 < 16 then some (.pinLevel c.2 c.1) else if c.2 = 16 then some (.ppsOut c.1) else none
         exec .extest s = .next { s with out := s.out ++ cells, power := { s.power with
           tap := .extest, perstPin := s.power.perstReleased, timerefPin := s.power.timeref } })
      ∧ exec .tapReset s = .next (select .idcode []))
    ∧ (s.power.tap = .extest →
      let levels : List Out := (s.pins.zipIdx.filter fun x => pinDrives x.1).map fun x => .pinLevel x.2 (pinLevel x.1)
      let u : State := select .idcode (levels ++ [.ppsOut s.band.ppsOut])
      exec .extest s = .next s
      ∧ (s.power.timerefPin = s.power.timeref →
          exec .tapReset s = .next (if s.power.perstPin then releasePerst u else assertPerst u))
      ∧ (s.power.timerefPin = s.power.timeref → s.power.perstPin = s.power.perstReleased →
          exec .bypass s = .next (select .bypass (levels ++ [.ppsOut s.band.ppsOut, .tapShift [false]])))))

/-- The queue of commands, first in, first out. What an idle step does is a DESIGN CHOICE (log 3) over the count of R31. -/
def Obligations.CommandsAreTakenInTurn : Prop :=
  (∀ (c : Instr) (rest : List Instr) (s : State), s.pending = c :: rest → step s = exec c { s with pending := rest })
  ∧ (∀ (c : Instr) (s : State), step { s with pending := c :: s.pending } = exec c s)
  ∧ (∀ s : State, s.pending = [] → ∃ t, step s = .next t ∧ t = { s with band := t.band } ∧ (s.band.onPll = true →
      steadyNs t = steadyNs s + 2 * s.idleCycles))

/-- The values after reset, and `Sound` (Safety.lean; unit counts R15): pins (R42), links (R446, R449, R454), GHS (R397), power (R470, R510). Locks (R346) and memory: DESIGN CHOICE,
logs 5 and 6. -/
def Obligations.ResetLeavesTheseValues : Prop :=
  let s := State.reset
  Sound s ∧ (∀ p ∈ s.pins, p.mode = .disabled) ∧ s.pins.length = 16
  ∧ (∀ l ∈ s.trellis.links, l.state = .down ∧ l.nextSeq = 0 ∧ l.expect = 0 ∧ l.credits = [8, 32, 192]) ∧ s.trellis.links.length = 5
  ∧ (readBar0 s 0).extractLsb' 16 16 = 0x0640 ∧ readBar0 s 0x10 = 0 ∧ readBar0 s 0x14 = 0x1F ∧ readBar0 s 0x18 = 0x03020100
  ∧ readBar0 s 0x28 = 0 ∧ readBar0 s 0x2C = 0 ∧ readBar0 s 4 = 0
  ∧ s.power.lbdone = true ∧ s.power.running = false
  ∧ (∀ x ∈ s.locks, x.held = false ∧ x.broken = false) ∧ s.locks.length = 256
  ∧ s.mem.bytes = [] ∧ s.pkg = none ∧ (∀ x ∈ s.streams, x = none) ∧ s.streams.length = 128 ∧ s.pending = []

/-- Every step keeps `Sound` (Safety.lean): rate (R31, R48), pins and queues (R41, R42, R44), memories (R305), locks (R346), error log (R364,
R366), rings and notices (R405, R423), unit counts (R15). The canonical form of the tables is the model's choice (log 5). -/
def Obligations.EveryStepKeepsTheInvariant : Prop := ∀ s t : State, Sound s → step s = .next t → Sound t

/-- The frame of every command: what `touches` does not name stands. The parts are the units of the spec: the Bandstand (R36), the score
(R60), memory (R300), locks (R346), errors (R363), the Gatehouse (R376), the mailbox (R405), the links (R443), power (R469). -/
def Obligations.CommandsTouchOnlyTheirParts : Prop :=
  ∀ (c : Instr) (s t : State), Sound s → exec c s = .next t → t.pending = s.pending ∧ ∀ q : Part, q ∉ touches c → q.unchanged s t
end

