-- ==== Sys2Proof/Laws/State.lean ====
section
/-! SUPPORT. What each update of one unit does to each field of State: the unit's field takes the new value and every other
field stands. Each is true by rfl, so that no later proof unfolds a record update. -/

namespace Sys2Proof.Machine

@[simp] theorem updPin_pending (n : Nat) (f : Pin → Pin) (s : State) : (updPin n f s).pending = s.pending := rfl
@[simp] theorem updPin_idleCycles (n : Nat) (f : Pin → Pin) (s : State) : (updPin n f s).idleCycles = s.idleCycles := rfl
@[simp] theorem updPin_freeCount (n : Nat) (f : Pin → Pin) (s : State) : (updPin n f s).freeCount = s.freeCount := rfl
@[simp] theorem updPin_out (n : Nat) (f : Pin → Pin) (s : State) : (updPin n f s).out = s.out := rfl
@[simp] theorem updPin_band (n : Nat) (f : Pin → Pin) (s : State) : (updPin n f s).band = s.band := rfl
@[simp] theorem updPin_islands (n : Nat) (f : Pin → Pin) (s : State) : (updPin n f s).islands = s.islands := rfl
@[simp] theorem updPin_pins (n : Nat) (f : Pin → Pin) (s : State) : (updPin n f s).pins = upd s.pins n f := rfl
@[simp] theorem updPin_reflexes (n : Nat) (f : Pin → Pin) (s : State) : (updPin n f s).reflexes = s.reflexes := rfl
@[simp] theorem updPin_score (n : Nat) (f : Pin → Pin) (s : State) : (updPin n f s).score = s.score := rfl
@[simp] theorem updPin_orangeries (n : Nat) (f : Pin → Pin) (s : State) : (updPin n f s).orangeries = s.orangeries := rfl
@[simp] theorem updPin_mem (n : Nat) (f : Pin → Pin) (s : State) : (updPin n f s).mem = s.mem := rfl
@[simp] theorem updPin_aviary (n : Nat) (f : Pin → Pin) (s : State) : (updPin n f s).aviary = s.aviary := rfl
@[simp] theorem updPin_eth (n : Nat) (f : Pin → Pin) (s : State) : (updPin n f s).eth = s.eth := rfl
@[simp] theorem updPin_sensors (n : Nat) (f : Pin → Pin) (s : State) : (updPin n f s).sensors = s.sensors := rfl
@[simp] theorem updPin_fountains (n : Nat) (f : Pin → Pin) (s : State) : (updPin n f s).fountains = s.fountains := rfl
@[simp] theorem updPin_topiaries (n : Nat) (f : Pin → Pin) (s : State) : (updPin n f s).topiaries = s.topiaries := rfl
@[simp] theorem updPin_clips (n : Nat) (f : Pin → Pin) (s : State) : (updPin n f s).clips = s.clips := rfl
@[simp] theorem updPin_streams (n : Nat) (f : Pin → Pin) (s : State) : (updPin n f s).streams = s.streams := rfl
@[simp] theorem updPin_pkg (n : Nat) (f : Pin → Pin) (s : State) : (updPin n f s).pkg = s.pkg := rfl
@[simp] theorem updPin_load (n : Nat) (f : Pin → Pin) (s : State) : (updPin n f s).load = s.load := rfl
@[simp] theorem updPin_samples (n : Nat) (f : Pin → Pin) (s : State) : (updPin n f s).samples = s.samples := rfl
@[simp] theorem updPin_trainPending (n : Nat) (f : Pin → Pin) (s : State) : (updPin n f s).trainPending = s.trainPending := rfl
@[simp] theorem updPin_trainRunning (n : Nat) (f : Pin → Pin) (s : State) : (updPin n f s).trainRunning = s.trainRunning := rfl
@[simp] theorem updPin_pools (n : Nat) (f : Pin → Pin) (s : State) : (updPin n f s).pools = s.pools := rfl
@[simp] theorem updPin_censusOn (n : Nat) (f : Pin → Pin) (s : State) : (updPin n f s).censusOn = s.censusOn := rfl
@[simp] theorem updPin_censusRepair (n : Nat) (f : Pin → Pin) (s : State) : (updPin n f s).censusRepair = s.censusRepair := rfl
@[simp] theorem updPin_locks (n : Nat) (f : Pin → Pin) (s : State) : (updPin n f s).locks = s.locks := rfl
@[simp] theorem updPin_err (n : Nat) (f : Pin → Pin) (s : State) : (updPin n f s).err = s.err := rfl
@[simp] theorem updPin_fenced (n : Nat) (f : Pin → Pin) (s : State) : (updPin n f s).fenced = s.fenced := rfl
@[simp] theorem updPin_resetQueue (n : Nat) (f : Pin → Pin) (s : State) : (updPin n f s).resetQueue = s.resetQueue := rfl
@[simp] theorem updPin_gate (n : Nat) (f : Pin → Pin) (s : State) : (updPin n f s).gate = s.gate := rfl
@[simp] theorem updPin_mbx (n : Nat) (f : Pin → Pin) (s : State) : (updPin n f s).mbx = s.mbx := rfl
@[simp] theorem updPin_journal (n : Nat) (f : Pin → Pin) (s : State) : (updPin n f s).journal = s.journal := rfl
@[simp] theorem updPin_trellis (n : Nat) (f : Pin → Pin) (s : State) : (updPin n f s).trellis = s.trellis := rfl
@[simp] theorem updPin_power (n : Nat) (f : Pin → Pin) (s : State) : (updPin n f s).power = s.power := rfl

@[simp] theorem updReflex_pending (n : Nat) (f : Reflex → Reflex) (s : State) : (updReflex n f s).pending = s.pending := rfl
@[simp] theorem updReflex_idleCycles (n : Nat) (f : Reflex → Reflex) (s : State) : (updReflex n f s).idleCycles = s.idleCycles := rfl
@[simp] theorem updReflex_freeCount (n : Nat) (f : Reflex → Reflex) (s : State) : (updReflex n f s).freeCount = s.freeCount := rfl
@[simp] theorem updReflex_out (n : Nat) (f : Reflex → Reflex) (s : State) : (updReflex n f s).out = s.out := rfl
@[simp] theorem updReflex_band (n : Nat) (f : Reflex → Reflex) (s : State) : (updReflex n f s).band = s.band := rfl
@[simp] theorem updReflex_islands (n : Nat) (f : Reflex → Reflex) (s : State) : (updReflex n f s).islands = s.islands := rfl
@[simp] theorem updReflex_pins (n : Nat) (f : Reflex → Reflex) (s : State) : (updReflex n f s).pins = s.pins := rfl
@[simp] theorem updReflex_reflexes (n : Nat) (f : Reflex → Reflex) (s : State) : (updReflex n f s).reflexes = upd s.reflexes n f := rfl
@[simp] theorem updReflex_score (n : Nat) (f : Reflex → Reflex) (s : State) : (updReflex n f s).score = s.score := rfl
@[simp] theorem updReflex_orangeries (n : Nat) (f : Reflex → Reflex) (s : State) : (updReflex n f s).orangeries = s.orangeries := rfl
@[simp] theorem updReflex_mem (n : Nat) (f : Reflex → Reflex) (s : State) : (updReflex n f s).mem = s.mem := rfl
@[simp] theorem updReflex_aviary (n : Nat) (f : Reflex → Reflex) (s : State) : (updReflex n f s).aviary = s.aviary := rfl
@[simp] theorem updReflex_eth (n : Nat) (f : Reflex → Reflex) (s : State) : (updReflex n f s).eth = s.eth := rfl
@[simp] theorem updReflex_sensors (n : Nat) (f : Reflex → Reflex) (s : State) : (updReflex n f s).sensors = s.sensors := rfl
@[simp] theorem updReflex_fountains (n : Nat) (f : Reflex → Reflex) (s : State) : (updReflex n f s).fountains = s.fountains := rfl
@[simp] theorem updReflex_topiaries (n : Nat) (f : Reflex → Reflex) (s : State) : (updReflex n f s).topiaries = s.topiaries := rfl
@[simp] theorem updReflex_clips (n : Nat) (f : Reflex → Reflex) (s : State) : (updReflex n f s).clips = s.clips := rfl
@[simp] theorem updReflex_streams (n : Nat) (f : Reflex → Reflex) (s : State) : (updReflex n f s).streams = s.streams := rfl
@[simp] theorem updReflex_pkg (n : Nat) (f : Reflex → Reflex) (s : State) : (updReflex n f s).pkg = s.pkg := rfl
@[simp] theorem updReflex_load (n : Nat) (f : Reflex → Reflex) (s : State) : (updReflex n f s).load = s.load := rfl
@[simp] theorem updReflex_samples (n : Nat) (f : Reflex → Reflex) (s : State) : (updReflex n f s).samples = s.samples := rfl
@[simp] theorem updReflex_trainPending (n : Nat) (f : Reflex → Reflex) (s : State) : (updReflex n f s).trainPending = s.trainPending := rfl
@[simp] theorem updReflex_trainRunning (n : Nat) (f : Reflex → Reflex) (s : State) : (updReflex n f s).trainRunning = s.trainRunning := rfl
@[simp] theorem updReflex_pools (n : Nat) (f : Reflex → Reflex) (s : State) : (updReflex n f s).pools = s.pools := rfl
@[simp] theorem updReflex_censusOn (n : Nat) (f : Reflex → Reflex) (s : State) : (updReflex n f s).censusOn = s.censusOn := rfl
@[simp] theorem updReflex_censusRepair (n : Nat) (f : Reflex → Reflex) (s : State) : (updReflex n f s).censusRepair = s.censusRepair := rfl
@[simp] theorem updReflex_locks (n : Nat) (f : Reflex → Reflex) (s : State) : (updReflex n f s).locks = s.locks := rfl
@[simp] theorem updReflex_err (n : Nat) (f : Reflex → Reflex) (s : State) : (updReflex n f s).err = s.err := rfl
@[simp] theorem updReflex_fenced (n : Nat) (f : Reflex → Reflex) (s : State) : (updReflex n f s).fenced = s.fenced := rfl
@[simp] theorem updReflex_resetQueue (n : Nat) (f : Reflex → Reflex) (s : State) : (updReflex n f s).resetQueue = s.resetQueue := rfl
@[simp] theorem updReflex_gate (n : Nat) (f : Reflex → Reflex) (s : State) : (updReflex n f s).gate = s.gate := rfl
@[simp] theorem updReflex_mbx (n : Nat) (f : Reflex → Reflex) (s : State) : (updReflex n f s).mbx = s.mbx := rfl
@[simp] theorem updReflex_journal (n : Nat) (f : Reflex → Reflex) (s : State) : (updReflex n f s).journal = s.journal := rfl
@[simp] theorem updReflex_trellis (n : Nat) (f : Reflex → Reflex) (s : State) : (updReflex n f s).trellis = s.trellis := rfl
@[simp] theorem updReflex_power (n : Nat) (f : Reflex → Reflex) (s : State) : (updReflex n f s).power = s.power := rfl

@[simp] theorem updIsland_pending (n : Nat) (f : Island → Island) (s : State) : (updIsland n f s).pending = s.pending := rfl
@[simp] theorem updIsland_idleCycles (n : Nat) (f : Island → Island) (s : State) : (updIsland n f s).idleCycles = s.idleCycles := rfl
@[simp] theorem updIsland_freeCount (n : Nat) (f : Island → Island) (s : State) : (updIsland n f s).freeCount = s.freeCount := rfl
@[simp] theorem updIsland_out (n : Nat) (f : Island → Island) (s : State) : (updIsland n f s).out = s.out := rfl
@[simp] theorem updIsland_band (n : Nat) (f : Island → Island) (s : State) : (updIsland n f s).band = s.band := rfl
@[simp] theorem updIsland_islands (n : Nat) (f : Island → Island) (s : State) : (updIsland n f s).islands = upd s.islands n f := rfl
@[simp] theorem updIsland_pins (n : Nat) (f : Island → Island) (s : State) : (updIsland n f s).pins = s.pins := rfl
@[simp] theorem updIsland_reflexes (n : Nat) (f : Island → Island) (s : State) : (updIsland n f s).reflexes = s.reflexes := rfl
@[simp] theorem updIsland_score (n : Nat) (f : Island → Island) (s : State) : (updIsland n f s).score = s.score := rfl
@[simp] theorem updIsland_orangeries (n : Nat) (f : Island → Island) (s : State) : (updIsland n f s).orangeries = s.orangeries := rfl
@[simp] theorem updIsland_mem (n : Nat) (f : Island → Island) (s : State) : (updIsland n f s).mem = s.mem := rfl
@[simp] theorem updIsland_aviary (n : Nat) (f : Island → Island) (s : State) : (updIsland n f s).aviary = s.aviary := rfl
@[simp] theorem updIsland_eth (n : Nat) (f : Island → Island) (s : State) : (updIsland n f s).eth = s.eth := rfl
@[simp] theorem updIsland_sensors (n : Nat) (f : Island → Island) (s : State) : (updIsland n f s).sensors = s.sensors := rfl
@[simp] theorem updIsland_fountains (n : Nat) (f : Island → Island) (s : State) : (updIsland n f s).fountains = s.fountains := rfl
@[simp] theorem updIsland_topiaries (n : Nat) (f : Island → Island) (s : State) : (updIsland n f s).topiaries = s.topiaries := rfl
@[simp] theorem updIsland_clips (n : Nat) (f : Island → Island) (s : State) : (updIsland n f s).clips = s.clips := rfl
@[simp] theorem updIsland_streams (n : Nat) (f : Island → Island) (s : State) : (updIsland n f s).streams = s.streams := rfl
@[simp] theorem updIsland_pkg (n : Nat) (f : Island → Island) (s : State) : (updIsland n f s).pkg = s.pkg := rfl
@[simp] theorem updIsland_load (n : Nat) (f : Island → Island) (s : State) : (updIsland n f s).load = s.load := rfl
@[simp] theorem updIsland_samples (n : Nat) (f : Island → Island) (s : State) : (updIsland n f s).samples = s.samples := rfl
@[simp] theorem updIsland_trainPending (n : Nat) (f : Island → Island) (s : State) : (updIsland n f s).trainPending = s.trainPending := rfl
@[simp] theorem updIsland_trainRunning (n : Nat) (f : Island → Island) (s : State) : (updIsland n f s).trainRunning = s.trainRunning := rfl
@[simp] theorem updIsland_pools (n : Nat) (f : Island → Island) (s : State) : (updIsland n f s).pools = s.pools := rfl
@[simp] theorem updIsland_censusOn (n : Nat) (f : Island → Island) (s : State) : (updIsland n f s).censusOn = s.censusOn := rfl
@[simp] theorem updIsland_censusRepair (n : Nat) (f : Island → Island) (s : State) : (updIsland n f s).censusRepair = s.censusRepair := rfl
@[simp] theorem updIsland_locks (n : Nat) (f : Island → Island) (s : State) : (updIsland n f s).locks = s.locks := rfl
@[simp] theorem updIsland_err (n : Nat) (f : Island → Island) (s : State) : (updIsland n f s).err = s.err := rfl
@[simp] theorem updIsland_fenced (n : Nat) (f : Island → Island) (s : State) : (updIsland n f s).fenced = s.fenced := rfl
@[simp] theorem updIsland_resetQueue (n : Nat) (f : Island → Island) (s : State) : (updIsland n f s).resetQueue = s.resetQueue := rfl
@[simp] theorem updIsland_gate (n : Nat) (f : Island → Island) (s : State) : (updIsland n f s).gate = s.gate := rfl
@[simp] theorem updIsland_mbx (n : Nat) (f : Island → Island) (s : State) : (updIsland n f s).mbx = s.mbx := rfl
@[simp] theorem updIsland_journal (n : Nat) (f : Island → Island) (s : State) : (updIsland n f s).journal = s.journal := rfl
@[simp] theorem updIsland_trellis (n : Nat) (f : Island → Island) (s : State) : (updIsland n f s).trellis = s.trellis := rfl
@[simp] theorem updIsland_power (n : Nat) (f : Island → Island) (s : State) : (updIsland n f s).power = s.power := rfl

@[simp] theorem updScore_pending (f : Score → Score) (s : State) : (updScore f s).pending = s.pending := rfl
@[simp] theorem updScore_idleCycles (f : Score → Score) (s : State) : (updScore f s).idleCycles = s.idleCycles := rfl
@[simp] theorem updScore_freeCount (f : Score → Score) (s : State) : (updScore f s).freeCount = s.freeCount := rfl
@[simp] theorem updScore_out (f : Score → Score) (s : State) : (updScore f s).out = s.out := rfl
@[simp] theorem updScore_band (f : Score → Score) (s : State) : (updScore f s).band = s.band := rfl
@[simp] theorem updScore_islands (f : Score → Score) (s : State) : (updScore f s).islands = s.islands := rfl
@[simp] theorem updScore_pins (f : Score → Score) (s : State) : (updScore f s).pins = s.pins := rfl
@[simp] theorem updScore_reflexes (f : Score → Score) (s : State) : (updScore f s).reflexes = s.reflexes := rfl
@[simp] theorem updScore_score (f : Score → Score) (s : State) : (updScore f s).score = f s.score := rfl
@[simp] theorem updScore_orangeries (f : Score → Score) (s : State) : (updScore f s).orangeries = s.orangeries := rfl
@[simp] theorem updScore_mem (f : Score → Score) (s : State) : (updScore f s).mem = s.mem := rfl
@[simp] theorem updScore_aviary (f : Score → Score) (s : State) : (updScore f s).aviary = s.aviary := rfl
@[simp] theorem updScore_eth (f : Score → Score) (s : State) : (updScore f s).eth = s.eth := rfl
@[simp] theorem updScore_sensors (f : Score → Score) (s : State) : (updScore f s).sensors = s.sensors := rfl
@[simp] theorem updScore_fountains (f : Score → Score) (s : State) : (updScore f s).fountains = s.fountains := rfl
@[simp] theorem updScore_topiaries (f : Score → Score) (s : State) : (updScore f s).topiaries = s.topiaries := rfl
@[simp] theorem updScore_clips (f : Score → Score) (s : State) : (updScore f s).clips = s.clips := rfl
@[simp] theorem updScore_streams (f : Score → Score) (s : State) : (updScore f s).streams = s.streams := rfl
@[simp] theorem updScore_pkg (f : Score → Score) (s : State) : (updScore f s).pkg = s.pkg := rfl
@[simp] theorem updScore_load (f : Score → Score) (s : State) : (updScore f s).load = s.load := rfl
@[simp] theorem updScore_samples (f : Score → Score) (s : State) : (updScore f s).samples = s.samples := rfl
@[simp] theorem updScore_trainPending (f : Score → Score) (s : State) : (updScore f s).trainPending = s.trainPending := rfl
@[simp] theorem updScore_trainRunning (f : Score → Score) (s : State) : (updScore f s).trainRunning = s.trainRunning := rfl
@[simp] theorem updScore_pools (f : Score → Score) (s : State) : (updScore f s).pools = s.pools := rfl
@[simp] theorem updScore_censusOn (f : Score → Score) (s : State) : (updScore f s).censusOn = s.censusOn := rfl
@[simp] theorem updScore_censusRepair (f : Score → Score) (s : State) : (updScore f s).censusRepair = s.censusRepair := rfl
@[simp] theorem updScore_locks (f : Score → Score) (s : State) : (updScore f s).locks = s.locks := rfl
@[simp] theorem updScore_err (f : Score → Score) (s : State) : (updScore f s).err = s.err := rfl
@[simp] theorem updScore_fenced (f : Score → Score) (s : State) : (updScore f s).fenced = s.fenced := rfl
@[simp] theorem updScore_resetQueue (f : Score → Score) (s : State) : (updScore f s).resetQueue = s.resetQueue := rfl
@[simp] theorem updScore_gate (f : Score → Score) (s : State) : (updScore f s).gate = s.gate := rfl
@[simp] theorem updScore_mbx (f : Score → Score) (s : State) : (updScore f s).mbx = s.mbx := rfl
@[simp] theorem updScore_journal (f : Score → Score) (s : State) : (updScore f s).journal = s.journal := rfl
@[simp] theorem updScore_trellis (f : Score → Score) (s : State) : (updScore f s).trellis = s.trellis := rfl
@[simp] theorem updScore_power (f : Score → Score) (s : State) : (updScore f s).power = s.power := rfl

@[simp] theorem updLane_pending (k : Nat) (f : Lane → Lane) (s : State) : (updLane k f s).pending = s.pending := rfl
@[simp] theorem updLane_idleCycles (k : Nat) (f : Lane → Lane) (s : State) : (updLane k f s).idleCycles = s.idleCycles := rfl
@[simp] theorem updLane_freeCount (k : Nat) (f : Lane → Lane) (s : State) : (updLane k f s).freeCount = s.freeCount := rfl
@[simp] theorem updLane_out (k : Nat) (f : Lane → Lane) (s : State) : (updLane k f s).out = s.out := rfl
@[simp] theorem updLane_band (k : Nat) (f : Lane → Lane) (s : State) : (updLane k f s).band = s.band := rfl
@[simp] theorem updLane_islands (k : Nat) (f : Lane → Lane) (s : State) : (updLane k f s).islands = s.islands := rfl
@[simp] theorem updLane_pins (k : Nat) (f : Lane → Lane) (s : State) : (updLane k f s).pins = s.pins := rfl
@[simp] theorem updLane_reflexes (k : Nat) (f : Lane → Lane) (s : State) : (updLane k f s).reflexes = s.reflexes := rfl
@[simp] theorem updLane_score (k : Nat) (f : Lane → Lane) (s : State) : (updLane k f s).score = { s.score with lanes := upd s.score.lanes k f } := rfl
@[simp] theorem updLane_orangeries (k : Nat) (f : Lane → Lane) (s : State) : (updLane k f s).orangeries = s.orangeries := rfl
@[simp] theorem updLane_mem (k : Nat) (f : Lane → Lane) (s : State) : (updLane k f s).mem = s.mem := rfl
@[simp] theorem updLane_aviary (k : Nat) (f : Lane → Lane) (s : State) : (updLane k f s).aviary = s.aviary := rfl
@[simp] theorem updLane_eth (k : Nat) (f : Lane → Lane) (s : State) : (updLane k f s).eth = s.eth := rfl
@[simp] theorem updLane_sensors (k : Nat) (f : Lane → Lane) (s : State) : (updLane k f s).sensors = s.sensors := rfl
@[simp] theorem updLane_fountains (k : Nat) (f : Lane → Lane) (s : State) : (updLane k f s).fountains = s.fountains := rfl
@[simp] theorem updLane_topiaries (k : Nat) (f : Lane → Lane) (s : State) : (updLane k f s).topiaries = s.topiaries := rfl
@[simp] theorem updLane_clips (k : Nat) (f : Lane → Lane) (s : State) : (updLane k f s).clips = s.clips := rfl
@[simp] theorem updLane_streams (k : Nat) (f : Lane → Lane) (s : State) : (updLane k f s).streams = s.streams := rfl
@[simp] theorem updLane_pkg (k : Nat) (f : Lane → Lane) (s : State) : (updLane k f s).pkg = s.pkg := rfl
@[simp] theorem updLane_load (k : Nat) (f : Lane → Lane) (s : State) : (updLane k f s).load = s.load := rfl
@[simp] theorem updLane_samples (k : Nat) (f : Lane → Lane) (s : State) : (updLane k f s).samples = s.samples := rfl
@[simp] theorem updLane_trainPending (k : Nat) (f : Lane → Lane) (s : State) : (updLane k f s).trainPending = s.trainPending := rfl
@[simp] theorem updLane_trainRunning (k : Nat) (f : Lane → Lane) (s : State) : (updLane k f s).trainRunning = s.trainRunning := rfl
@[simp] theorem updLane_pools (k : Nat) (f : Lane → Lane) (s : State) : (updLane k f s).pools = s.pools := rfl
@[simp] theorem updLane_censusOn (k : Nat) (f : Lane → Lane) (s : State) : (updLane k f s).censusOn = s.censusOn := rfl
@[simp] theorem updLane_censusRepair (k : Nat) (f : Lane → Lane) (s : State) : (updLane k f s).censusRepair = s.censusRepair := rfl
@[simp] theorem updLane_locks (k : Nat) (f : Lane → Lane) (s : State) : (updLane k f s).locks = s.locks := rfl
@[simp] theorem updLane_err (k : Nat) (f : Lane → Lane) (s : State) : (updLane k f s).err = s.err := rfl
@[simp] theorem updLane_fenced (k : Nat) (f : Lane → Lane) (s : State) : (updLane k f s).fenced = s.fenced := rfl
@[simp] theorem updLane_resetQueue (k : Nat) (f : Lane → Lane) (s : State) : (updLane k f s).resetQueue = s.resetQueue := rfl
@[simp] theorem updLane_gate (k : Nat) (f : Lane → Lane) (s : State) : (updLane k f s).gate = s.gate := rfl
@[simp] theorem updLane_mbx (k : Nat) (f : Lane → Lane) (s : State) : (updLane k f s).mbx = s.mbx := rfl
@[simp] theorem updLane_journal (k : Nat) (f : Lane → Lane) (s : State) : (updLane k f s).journal = s.journal := rfl
@[simp] theorem updLane_trellis (k : Nat) (f : Lane → Lane) (s : State) : (updLane k f s).trellis = s.trellis := rfl
@[simp] theorem updLane_power (k : Nat) (f : Lane → Lane) (s : State) : (updLane k f s).power = s.power := rfl

@[simp] theorem updClaim_pending (k : Nat) (f : Claim → Claim) (s : State) : (updClaim k f s).pending = s.pending := rfl
@[simp] theorem updClaim_idleCycles (k : Nat) (f : Claim → Claim) (s : State) : (updClaim k f s).idleCycles = s.idleCycles := rfl
@[simp] theorem updClaim_freeCount (k : Nat) (f : Claim → Claim) (s : State) : (updClaim k f s).freeCount = s.freeCount := rfl
@[simp] theorem updClaim_out (k : Nat) (f : Claim → Claim) (s : State) : (updClaim k f s).out = s.out := rfl
@[simp] theorem updClaim_band (k : Nat) (f : Claim → Claim) (s : State) : (updClaim k f s).band = s.band := rfl
@[simp] theorem updClaim_islands (k : Nat) (f : Claim → Claim) (s : State) : (updClaim k f s).islands = s.islands := rfl
@[simp] theorem updClaim_pins (k : Nat) (f : Claim → Claim) (s : State) : (updClaim k f s).pins = s.pins := rfl
@[simp] theorem updClaim_reflexes (k : Nat) (f : Claim → Claim) (s : State) : (updClaim k f s).reflexes = s.reflexes := rfl
@[simp] theorem updClaim_score (k : Nat) (f : Claim → Claim) (s : State) : (updClaim k f s).score = { s.score with claims := upd s.score.claims k f } := rfl
@[simp] theorem updClaim_orangeries (k : Nat) (f : Claim → Claim) (s : State) : (updClaim k f s).orangeries = s.orangeries := rfl
@[simp] theorem updClaim_mem (k : Nat) (f : Claim → Claim) (s : State) : (updClaim k f s).mem = s.mem := rfl
@[simp] theorem updClaim_aviary (k : Nat) (f : Claim → Claim) (s : State) : (updClaim k f s).aviary = s.aviary := rfl
@[simp] theorem updClaim_eth (k : Nat) (f : Claim → Claim) (s : State) : (updClaim k f s).eth = s.eth := rfl
@[simp] theorem updClaim_sensors (k : Nat) (f : Claim → Claim) (s : State) : (updClaim k f s).sensors = s.sensors := rfl
@[simp] theorem updClaim_fountains (k : Nat) (f : Claim → Claim) (s : State) : (updClaim k f s).fountains = s.fountains := rfl
@[simp] theorem updClaim_topiaries (k : Nat) (f : Claim → Claim) (s : State) : (updClaim k f s).topiaries = s.topiaries := rfl
@[simp] theorem updClaim_clips (k : Nat) (f : Claim → Claim) (s : State) : (updClaim k f s).clips = s.clips := rfl
@[simp] theorem updClaim_streams (k : Nat) (f : Claim → Claim) (s : State) : (updClaim k f s).streams = s.streams := rfl
@[simp] theorem updClaim_pkg (k : Nat) (f : Claim → Claim) (s : State) : (updClaim k f s).pkg = s.pkg := rfl
@[simp] theorem updClaim_load (k : Nat) (f : Claim → Claim) (s : State) : (updClaim k f s).load = s.load := rfl
@[simp] theorem updClaim_samples (k : Nat) (f : Claim → Claim) (s : State) : (updClaim k f s).samples = s.samples := rfl
@[simp] theorem updClaim_trainPending (k : Nat) (f : Claim → Claim) (s : State) : (updClaim k f s).trainPending = s.trainPending := rfl
@[simp] theorem updClaim_trainRunning (k : Nat) (f : Claim → Claim) (s : State) : (updClaim k f s).trainRunning = s.trainRunning := rfl
@[simp] theorem updClaim_pools (k : Nat) (f : Claim → Claim) (s : State) : (updClaim k f s).pools = s.pools := rfl
@[simp] theorem updClaim_censusOn (k : Nat) (f : Claim → Claim) (s : State) : (updClaim k f s).censusOn = s.censusOn := rfl
@[simp] theorem updClaim_censusRepair (k : Nat) (f : Claim → Claim) (s : State) : (updClaim k f s).censusRepair = s.censusRepair := rfl
@[simp] theorem updClaim_locks (k : Nat) (f : Claim → Claim) (s : State) : (updClaim k f s).locks = s.locks := rfl
@[simp] theorem updClaim_err (k : Nat) (f : Claim → Claim) (s : State) : (updClaim k f s).err = s.err := rfl
@[simp] theorem updClaim_fenced (k : Nat) (f : Claim → Claim) (s : State) : (updClaim k f s).fenced = s.fenced := rfl
@[simp] theorem updClaim_resetQueue (k : Nat) (f : Claim → Claim) (s : State) : (updClaim k f s).resetQueue = s.resetQueue := rfl
@[simp] theorem updClaim_gate (k : Nat) (f : Claim → Claim) (s : State) : (updClaim k f s).gate = s.gate := rfl
@[simp] theorem updClaim_mbx (k : Nat) (f : Claim → Claim) (s : State) : (updClaim k f s).mbx = s.mbx := rfl
@[simp] theorem updClaim_journal (k : Nat) (f : Claim → Claim) (s : State) : (updClaim k f s).journal = s.journal := rfl
@[simp] theorem updClaim_trellis (k : Nat) (f : Claim → Claim) (s : State) : (updClaim k f s).trellis = s.trellis := rfl
@[simp] theorem updClaim_power (k : Nat) (f : Claim → Claim) (s : State) : (updClaim k f s).power = s.power := rfl

@[simp] theorem updBatchId_pending (b : Nat) (f : BatchId → BatchId) (s : State) : (updBatchId b f s).pending = s.pending := rfl
@[simp] theorem updBatchId_idleCycles (b : Nat) (f : BatchId → BatchId) (s : State) : (updBatchId b f s).idleCycles = s.idleCycles := rfl
@[simp] theorem updBatchId_freeCount (b : Nat) (f : BatchId → BatchId) (s : State) : (updBatchId b f s).freeCount = s.freeCount := rfl
@[simp] theorem updBatchId_out (b : Nat) (f : BatchId → BatchId) (s : State) : (updBatchId b f s).out = s.out := rfl
@[simp] theorem updBatchId_band (b : Nat) (f : BatchId → BatchId) (s : State) : (updBatchId b f s).band = s.band := rfl
@[simp] theorem updBatchId_islands (b : Nat) (f : BatchId → BatchId) (s : State) : (updBatchId b f s).islands = s.islands := rfl
@[simp] theorem updBatchId_pins (b : Nat) (f : BatchId → BatchId) (s : State) : (updBatchId b f s).pins = s.pins := rfl
@[simp] theorem updBatchId_reflexes (b : Nat) (f : BatchId → BatchId) (s : State) : (updBatchId b f s).reflexes = s.reflexes := rfl
@[simp] theorem updBatchId_score (b : Nat) (f : BatchId → BatchId) (s : State) : (updBatchId b f s).score = { s.score with batches := upd s.score.batches b f } := rfl
@[simp] theorem updBatchId_orangeries (b : Nat) (f : BatchId → BatchId) (s : State) : (updBatchId b f s).orangeries = s.orangeries := rfl
@[simp] theorem updBatchId_mem (b : Nat) (f : BatchId → BatchId) (s : State) : (updBatchId b f s).mem = s.mem := rfl
@[simp] theorem updBatchId_aviary (b : Nat) (f : BatchId → BatchId) (s : State) : (updBatchId b f s).aviary = s.aviary := rfl
@[simp] theorem updBatchId_eth (b : Nat) (f : BatchId → BatchId) (s : State) : (updBatchId b f s).eth = s.eth := rfl
@[simp] theorem updBatchId_sensors (b : Nat) (f : BatchId → BatchId) (s : State) : (updBatchId b f s).sensors = s.sensors := rfl
@[simp] theorem updBatchId_fountains (b : Nat) (f : BatchId → BatchId) (s : State) : (updBatchId b f s).fountains = s.fountains := rfl
@[simp] theorem updBatchId_topiaries (b : Nat) (f : BatchId → BatchId) (s : State) : (updBatchId b f s).topiaries = s.topiaries := rfl
@[simp] theorem updBatchId_clips (b : Nat) (f : BatchId → BatchId) (s : State) : (updBatchId b f s).clips = s.clips := rfl
@[simp] theorem updBatchId_streams (b : Nat) (f : BatchId → BatchId) (s : State) : (updBatchId b f s).streams = s.streams := rfl
@[simp] theorem updBatchId_pkg (b : Nat) (f : BatchId → BatchId) (s : State) : (updBatchId b f s).pkg = s.pkg := rfl
@[simp] theorem updBatchId_load (b : Nat) (f : BatchId → BatchId) (s : State) : (updBatchId b f s).load = s.load := rfl
@[simp] theorem updBatchId_samples (b : Nat) (f : BatchId → BatchId) (s : State) : (updBatchId b f s).samples = s.samples := rfl
@[simp] theorem updBatchId_trainPending (b : Nat) (f : BatchId → BatchId) (s : State) : (updBatchId b f s).trainPending = s.trainPending := rfl
@[simp] theorem updBatchId_trainRunning (b : Nat) (f : BatchId → BatchId) (s : State) : (updBatchId b f s).trainRunning = s.trainRunning := rfl
@[simp] theorem updBatchId_pools (b : Nat) (f : BatchId → BatchId) (s : State) : (updBatchId b f s).pools = s.pools := rfl
@[simp] theorem updBatchId_censusOn (b : Nat) (f : BatchId → BatchId) (s : State) : (updBatchId b f s).censusOn = s.censusOn := rfl
@[simp] theorem updBatchId_censusRepair (b : Nat) (f : BatchId → BatchId) (s : State) : (updBatchId b f s).censusRepair = s.censusRepair := rfl
@[simp] theorem updBatchId_locks (b : Nat) (f : BatchId → BatchId) (s : State) : (updBatchId b f s).locks = s.locks := rfl
@[simp] theorem updBatchId_err (b : Nat) (f : BatchId → BatchId) (s : State) : (updBatchId b f s).err = s.err := rfl
@[simp] theorem updBatchId_fenced (b : Nat) (f : BatchId → BatchId) (s : State) : (updBatchId b f s).fenced = s.fenced := rfl
@[simp] theorem updBatchId_resetQueue (b : Nat) (f : BatchId → BatchId) (s : State) : (updBatchId b f s).resetQueue = s.resetQueue := rfl
@[simp] theorem updBatchId_gate (b : Nat) (f : BatchId → BatchId) (s : State) : (updBatchId b f s).gate = s.gate := rfl
@[simp] theorem updBatchId_mbx (b : Nat) (f : BatchId → BatchId) (s : State) : (updBatchId b f s).mbx = s.mbx := rfl
@[simp] theorem updBatchId_journal (b : Nat) (f : BatchId → BatchId) (s : State) : (updBatchId b f s).journal = s.journal := rfl
@[simp] theorem updBatchId_trellis (b : Nat) (f : BatchId → BatchId) (s : State) : (updBatchId b f s).trellis = s.trellis := rfl
@[simp] theorem updBatchId_power (b : Nat) (f : BatchId → BatchId) (s : State) : (updBatchId b f s).power = s.power := rfl

@[simp] theorem updOrangery_pending (k : Nat) (f : Orangery → Orangery) (s : State) : (updOrangery k f s).pending = s.pending := rfl
@[simp] theorem updOrangery_idleCycles (k : Nat) (f : Orangery → Orangery) (s : State) : (updOrangery k f s).idleCycles = s.idleCycles := rfl
@[simp] theorem updOrangery_freeCount (k : Nat) (f : Orangery → Orangery) (s : State) : (updOrangery k f s).freeCount = s.freeCount := rfl
@[simp] theorem updOrangery_out (k : Nat) (f : Orangery → Orangery) (s : State) : (updOrangery k f s).out = s.out := rfl
@[simp] theorem updOrangery_band (k : Nat) (f : Orangery → Orangery) (s : State) : (updOrangery k f s).band = s.band := rfl
@[simp] theorem updOrangery_islands (k : Nat) (f : Orangery → Orangery) (s : State) : (updOrangery k f s).islands = s.islands := rfl
@[simp] theorem updOrangery_pins (k : Nat) (f : Orangery → Orangery) (s : State) : (updOrangery k f s).pins = s.pins := rfl
@[simp] theorem updOrangery_reflexes (k : Nat) (f : Orangery → Orangery) (s : State) : (updOrangery k f s).reflexes = s.reflexes := rfl
@[simp] theorem updOrangery_score (k : Nat) (f : Orangery → Orangery) (s : State) : (updOrangery k f s).score = s.score := rfl
@[simp] theorem updOrangery_orangeries (k : Nat) (f : Orangery → Orangery) (s : State) : (updOrangery k f s).orangeries = upd s.orangeries k f := rfl
@[simp] theorem updOrangery_mem (k : Nat) (f : Orangery → Orangery) (s : State) : (updOrangery k f s).mem = s.mem := rfl
@[simp] theorem updOrangery_aviary (k : Nat) (f : Orangery → Orangery) (s : State) : (updOrangery k f s).aviary = s.aviary := rfl
@[simp] theorem updOrangery_eth (k : Nat) (f : Orangery → Orangery) (s : State) : (updOrangery k f s).eth = s.eth := rfl
@[simp] theorem updOrangery_sensors (k : Nat) (f : Orangery → Orangery) (s : State) : (updOrangery k f s).sensors = s.sensors := rfl
@[simp] theorem updOrangery_fountains (k : Nat) (f : Orangery → Orangery) (s : State) : (updOrangery k f s).fountains = s.fountains := rfl
@[simp] theorem updOrangery_topiaries (k : Nat) (f : Orangery → Orangery) (s : State) : (updOrangery k f s).topiaries = s.topiaries := rfl
@[simp] theorem updOrangery_clips (k : Nat) (f : Orangery → Orangery) (s : State) : (updOrangery k f s).clips = s.clips := rfl
@[simp] theorem updOrangery_streams (k : Nat) (f : Orangery → Orangery) (s : State) : (updOrangery k f s).streams = s.streams := rfl
@[simp] theorem updOrangery_pkg (k : Nat) (f : Orangery → Orangery) (s : State) : (updOrangery k f s).pkg = s.pkg := rfl
@[simp] theorem updOrangery_load (k : Nat) (f : Orangery → Orangery) (s : State) : (updOrangery k f s).load = s.load := rfl
@[simp] theorem updOrangery_samples (k : Nat) (f : Orangery → Orangery) (s : State) : (updOrangery k f s).samples = s.samples := rfl
@[simp] theorem updOrangery_trainPending (k : Nat) (f : Orangery → Orangery) (s : State) : (updOrangery k f s).trainPending = s.trainPending := rfl
@[simp] theorem updOrangery_trainRunning (k : Nat) (f : Orangery → Orangery) (s : State) : (updOrangery k f s).trainRunning = s.trainRunning := rfl
@[simp] theorem updOrangery_pools (k : Nat) (f : Orangery → Orangery) (s : State) : (updOrangery k f s).pools = s.pools := rfl
@[simp] theorem updOrangery_censusOn (k : Nat) (f : Orangery → Orangery) (s : State) : (updOrangery k f s).censusOn = s.censusOn := rfl
@[simp] theorem updOrangery_censusRepair (k : Nat) (f : Orangery → Orangery) (s : State) : (updOrangery k f s).censusRepair = s.censusRepair := rfl
@[simp] theorem updOrangery_locks (k : Nat) (f : Orangery → Orangery) (s : State) : (updOrangery k f s).locks = s.locks := rfl
@[simp] theorem updOrangery_err (k : Nat) (f : Orangery → Orangery) (s : State) : (updOrangery k f s).err = s.err := rfl
@[simp] theorem updOrangery_fenced (k : Nat) (f : Orangery → Orangery) (s : State) : (updOrangery k f s).fenced = s.fenced := rfl
@[simp] theorem updOrangery_resetQueue (k : Nat) (f : Orangery → Orangery) (s : State) : (updOrangery k f s).resetQueue = s.resetQueue := rfl
@[simp] theorem updOrangery_gate (k : Nat) (f : Orangery → Orangery) (s : State) : (updOrangery k f s).gate = s.gate := rfl
@[simp] theorem updOrangery_mbx (k : Nat) (f : Orangery → Orangery) (s : State) : (updOrangery k f s).mbx = s.mbx := rfl
@[simp] theorem updOrangery_journal (k : Nat) (f : Orangery → Orangery) (s : State) : (updOrangery k f s).journal = s.journal := rfl
@[simp] theorem updOrangery_trellis (k : Nat) (f : Orangery → Orangery) (s : State) : (updOrangery k f s).trellis = s.trellis := rfl
@[simp] theorem updOrangery_power (k : Nat) (f : Orangery → Orangery) (s : State) : (updOrangery k f s).power = s.power := rfl

@[simp] theorem updMem_pending (f : Mem → Mem) (s : State) : (updMem f s).pending = s.pending := rfl
@[simp] theorem updMem_idleCycles (f : Mem → Mem) (s : State) : (updMem f s).idleCycles = s.idleCycles := rfl
@[simp] theorem updMem_freeCount (f : Mem → Mem) (s : State) : (updMem f s).freeCount = s.freeCount := rfl
@[simp] theorem updMem_out (f : Mem → Mem) (s : State) : (updMem f s).out = s.out := rfl
@[simp] theorem updMem_band (f : Mem → Mem) (s : State) : (updMem f s).band = s.band := rfl
@[simp] theorem updMem_islands (f : Mem → Mem) (s : State) : (updMem f s).islands = s.islands := rfl
@[simp] theorem updMem_pins (f : Mem → Mem) (s : State) : (updMem f s).pins = s.pins := rfl
@[simp] theorem updMem_reflexes (f : Mem → Mem) (s : State) : (updMem f s).reflexes = s.reflexes := rfl
@[simp] theorem updMem_score (f : Mem → Mem) (s : State) : (updMem f s).score = s.score := rfl
@[simp] theorem updMem_orangeries (f : Mem → Mem) (s : State) : (updMem f s).orangeries = s.orangeries := rfl
@[simp] theorem updMem_mem (f : Mem → Mem) (s : State) : (updMem f s).mem = f s.mem := rfl
@[simp] theorem updMem_aviary (f : Mem → Mem) (s : State) : (updMem f s).aviary = s.aviary := rfl
@[simp] theorem updMem_eth (f : Mem → Mem) (s : State) : (updMem f s).eth = s.eth := rfl
@[simp] theorem updMem_sensors (f : Mem → Mem) (s : State) : (updMem f s).sensors = s.sensors := rfl
@[simp] theorem updMem_fountains (f : Mem → Mem) (s : State) : (updMem f s).fountains = s.fountains := rfl
@[simp] theorem updMem_topiaries (f : Mem → Mem) (s : State) : (updMem f s).topiaries = s.topiaries := rfl
@[simp] theorem updMem_clips (f : Mem → Mem) (s : State) : (updMem f s).clips = s.clips := rfl
@[simp] theorem updMem_streams (f : Mem → Mem) (s : State) : (updMem f s).streams = s.streams := rfl
@[simp] theorem updMem_pkg (f : Mem → Mem) (s : State) : (updMem f s).pkg = s.pkg := rfl
@[simp] theorem updMem_load (f : Mem → Mem) (s : State) : (updMem f s).load = s.load := rfl
@[simp] theorem updMem_samples (f : Mem → Mem) (s : State) : (updMem f s).samples = s.samples := rfl
@[simp] theorem updMem_trainPending (f : Mem → Mem) (s : State) : (updMem f s).trainPending = s.trainPending := rfl
@[simp] theorem updMem_trainRunning (f : Mem → Mem) (s : State) : (updMem f s).trainRunning = s.trainRunning := rfl
@[simp] theorem updMem_pools (f : Mem → Mem) (s : State) : (updMem f s).pools = s.pools := rfl
@[simp] theorem updMem_censusOn (f : Mem → Mem) (s : State) : (updMem f s).censusOn = s.censusOn := rfl
@[simp] theorem updMem_censusRepair (f : Mem → Mem) (s : State) : (updMem f s).censusRepair = s.censusRepair := rfl
@[simp] theorem updMem_locks (f : Mem → Mem) (s : State) : (updMem f s).locks = s.locks := rfl
@[simp] theorem updMem_err (f : Mem → Mem) (s : State) : (updMem f s).err = s.err := rfl
@[simp] theorem updMem_fenced (f : Mem → Mem) (s : State) : (updMem f s).fenced = s.fenced := rfl
@[simp] theorem updMem_resetQueue (f : Mem → Mem) (s : State) : (updMem f s).resetQueue = s.resetQueue := rfl
@[simp] theorem updMem_gate (f : Mem → Mem) (s : State) : (updMem f s).gate = s.gate := rfl
@[simp] theorem updMem_mbx (f : Mem → Mem) (s : State) : (updMem f s).mbx = s.mbx := rfl
@[simp] theorem updMem_journal (f : Mem → Mem) (s : State) : (updMem f s).journal = s.journal := rfl
@[simp] theorem updMem_trellis (f : Mem → Mem) (s : State) : (updMem f s).trellis = s.trellis := rfl
@[simp] theorem updMem_power (f : Mem → Mem) (s : State) : (updMem f s).power = s.power := rfl

@[simp] theorem updChan_pending (k : Nat) (f : Channel → Channel) (s : State) : (updChan k f s).pending = s.pending := rfl
@[simp] theorem updChan_idleCycles (k : Nat) (f : Channel → Channel) (s : State) : (updChan k f s).idleCycles = s.idleCycles := rfl
@[simp] theorem updChan_freeCount (k : Nat) (f : Channel → Channel) (s : State) : (updChan k f s).freeCount = s.freeCount := rfl
@[simp] theorem updChan_out (k : Nat) (f : Channel → Channel) (s : State) : (updChan k f s).out = s.out := rfl
@[simp] theorem updChan_band (k : Nat) (f : Channel → Channel) (s : State) : (updChan k f s).band = s.band := rfl
@[simp] theorem updChan_islands (k : Nat) (f : Channel → Channel) (s : State) : (updChan k f s).islands = s.islands := rfl
@[simp] theorem updChan_pins (k : Nat) (f : Channel → Channel) (s : State) : (updChan k f s).pins = s.pins := rfl
@[simp] theorem updChan_reflexes (k : Nat) (f : Channel → Channel) (s : State) : (updChan k f s).reflexes = s.reflexes := rfl
@[simp] theorem updChan_score (k : Nat) (f : Channel → Channel) (s : State) : (updChan k f s).score = s.score := rfl
@[simp] theorem updChan_orangeries (k : Nat) (f : Channel → Channel) (s : State) : (updChan k f s).orangeries = s.orangeries := rfl
@[simp] theorem updChan_mem (k : Nat) (f : Channel → Channel) (s : State) : (updChan k f s).mem = { s.mem with chans := upd s.mem.chans k f } := rfl
@[simp] theorem updChan_aviary (k : Nat) (f : Channel → Channel) (s : State) : (updChan k f s).aviary = s.aviary := rfl
@[simp] theorem updChan_eth (k : Nat) (f : Channel → Channel) (s : State) : (updChan k f s).eth = s.eth := rfl
@[simp] theorem updChan_sensors (k : Nat) (f : Channel → Channel) (s : State) : (updChan k f s).sensors = s.sensors := rfl
@[simp] theorem updChan_fountains (k : Nat) (f : Channel → Channel) (s : State) : (updChan k f s).fountains = s.fountains := rfl
@[simp] theorem updChan_topiaries (k : Nat) (f : Channel → Channel) (s : State) : (updChan k f s).topiaries = s.topiaries := rfl
@[simp] theorem updChan_clips (k : Nat) (f : Channel → Channel) (s : State) : (updChan k f s).clips = s.clips := rfl
@[simp] theorem updChan_streams (k : Nat) (f : Channel → Channel) (s : State) : (updChan k f s).streams = s.streams := rfl
@[simp] theorem updChan_pkg (k : Nat) (f : Channel → Channel) (s : State) : (updChan k f s).pkg = s.pkg := rfl
@[simp] theorem updChan_load (k : Nat) (f : Channel → Channel) (s : State) : (updChan k f s).load = s.load := rfl
@[simp] theorem updChan_samples (k : Nat) (f : Channel → Channel) (s : State) : (updChan k f s).samples = s.samples := rfl
@[simp] theorem updChan_trainPending (k : Nat) (f : Channel → Channel) (s : State) : (updChan k f s).trainPending = s.trainPending := rfl
@[simp] theorem updChan_trainRunning (k : Nat) (f : Channel → Channel) (s : State) : (updChan k f s).trainRunning = s.trainRunning := rfl
@[simp] theorem updChan_pools (k : Nat) (f : Channel → Channel) (s : State) : (updChan k f s).pools = s.pools := rfl
@[simp] theorem updChan_censusOn (k : Nat) (f : Channel → Channel) (s : State) : (updChan k f s).censusOn = s.censusOn := rfl
@[simp] theorem updChan_censusRepair (k : Nat) (f : Channel → Channel) (s : State) : (updChan k f s).censusRepair = s.censusRepair := rfl
@[simp] theorem updChan_locks (k : Nat) (f : Channel → Channel) (s : State) : (updChan k f s).locks = s.locks := rfl
@[simp] theorem updChan_err (k : Nat) (f : Channel → Channel) (s : State) : (updChan k f s).err = s.err := rfl
@[simp] theorem updChan_fenced (k : Nat) (f : Channel → Channel) (s : State) : (updChan k f s).fenced = s.fenced := rfl
@[simp] theorem updChan_resetQueue (k : Nat) (f : Channel → Channel) (s : State) : (updChan k f s).resetQueue = s.resetQueue := rfl
@[simp] theorem updChan_gate (k : Nat) (f : Channel → Channel) (s : State) : (updChan k f s).gate = s.gate := rfl
@[simp] theorem updChan_mbx (k : Nat) (f : Channel → Channel) (s : State) : (updChan k f s).mbx = s.mbx := rfl
@[simp] theorem updChan_journal (k : Nat) (f : Channel → Channel) (s : State) : (updChan k f s).journal = s.journal := rfl
@[simp] theorem updChan_trellis (k : Nat) (f : Channel → Channel) (s : State) : (updChan k f s).trellis = s.trellis := rfl
@[simp] theorem updChan_power (k : Nat) (f : Channel → Channel) (s : State) : (updChan k f s).power = s.power := rfl

@[simp] theorem updAviary_pending (f : Aviary → Aviary) (s : State) : (updAviary f s).pending = s.pending := rfl
@[simp] theorem updAviary_idleCycles (f : Aviary → Aviary) (s : State) : (updAviary f s).idleCycles = s.idleCycles := rfl
@[simp] theorem updAviary_freeCount (f : Aviary → Aviary) (s : State) : (updAviary f s).freeCount = s.freeCount := rfl
@[simp] theorem updAviary_out (f : Aviary → Aviary) (s : State) : (updAviary f s).out = s.out := rfl
@[simp] theorem updAviary_band (f : Aviary → Aviary) (s : State) : (updAviary f s).band = s.band := rfl
@[simp] theorem updAviary_islands (f : Aviary → Aviary) (s : State) : (updAviary f s).islands = s.islands := rfl
@[simp] theorem updAviary_pins (f : Aviary → Aviary) (s : State) : (updAviary f s).pins = s.pins := rfl
@[simp] theorem updAviary_reflexes (f : Aviary → Aviary) (s : State) : (updAviary f s).reflexes = s.reflexes := rfl
@[simp] theorem updAviary_score (f : Aviary → Aviary) (s : State) : (updAviary f s).score = s.score := rfl
@[simp] theorem updAviary_orangeries (f : Aviary → Aviary) (s : State) : (updAviary f s).orangeries = s.orangeries := rfl
@[simp] theorem updAviary_mem (f : Aviary → Aviary) (s : State) : (updAviary f s).mem = s.mem := rfl
@[simp] theorem updAviary_aviary (f : Aviary → Aviary) (s : State) : (updAviary f s).aviary = f s.aviary := rfl
@[simp] theorem updAviary_eth (f : Aviary → Aviary) (s : State) : (updAviary f s).eth = s.eth := rfl
@[simp] theorem updAviary_sensors (f : Aviary → Aviary) (s : State) : (updAviary f s).sensors = s.sensors := rfl
@[simp] theorem updAviary_fountains (f : Aviary → Aviary) (s : State) : (updAviary f s).fountains = s.fountains := rfl
@[simp] theorem updAviary_topiaries (f : Aviary → Aviary) (s : State) : (updAviary f s).topiaries = s.topiaries := rfl
@[simp] theorem updAviary_clips (f : Aviary → Aviary) (s : State) : (updAviary f s).clips = s.clips := rfl
@[simp] theorem updAviary_streams (f : Aviary → Aviary) (s : State) : (updAviary f s).streams = s.streams := rfl
@[simp] theorem updAviary_pkg (f : Aviary → Aviary) (s : State) : (updAviary f s).pkg = s.pkg := rfl
@[simp] theorem updAviary_load (f : Aviary → Aviary) (s : State) : (updAviary f s).load = s.load := rfl
@[simp] theorem updAviary_samples (f : Aviary → Aviary) (s : State) : (updAviary f s).samples = s.samples := rfl
@[simp] theorem updAviary_trainPending (f : Aviary → Aviary) (s : State) : (updAviary f s).trainPending = s.trainPending := rfl
@[simp] theorem updAviary_trainRunning (f : Aviary → Aviary) (s : State) : (updAviary f s).trainRunning = s.trainRunning := rfl
@[simp] theorem updAviary_pools (f : Aviary → Aviary) (s : State) : (updAviary f s).pools = s.pools := rfl
@[simp] theorem updAviary_censusOn (f : Aviary → Aviary) (s : State) : (updAviary f s).censusOn = s.censusOn := rfl
@[simp] theorem updAviary_censusRepair (f : Aviary → Aviary) (s : State) : (updAviary f s).censusRepair = s.censusRepair := rfl
@[simp] theorem updAviary_locks (f : Aviary → Aviary) (s : State) : (updAviary f s).locks = s.locks := rfl
@[simp] theorem updAviary_err (f : Aviary → Aviary) (s : State) : (updAviary f s).err = s.err := rfl
@[simp] theorem updAviary_fenced (f : Aviary → Aviary) (s : State) : (updAviary f s).fenced = s.fenced := rfl
@[simp] theorem updAviary_resetQueue (f : Aviary → Aviary) (s : State) : (updAviary f s).resetQueue = s.resetQueue := rfl
@[simp] theorem updAviary_gate (f : Aviary → Aviary) (s : State) : (updAviary f s).gate = s.gate := rfl
@[simp] theorem updAviary_mbx (f : Aviary → Aviary) (s : State) : (updAviary f s).mbx = s.mbx := rfl
@[simp] theorem updAviary_journal (f : Aviary → Aviary) (s : State) : (updAviary f s).journal = s.journal := rfl
@[simp] theorem updAviary_trellis (f : Aviary → Aviary) (s : State) : (updAviary f s).trellis = s.trellis := rfl
@[simp] theorem updAviary_power (f : Aviary → Aviary) (s : State) : (updAviary f s).power = s.power := rfl

@[simp] theorem updEth_pending (k : Nat) (f : EthPort → EthPort) (s : State) : (updEth k f s).pending = s.pending := rfl
@[simp] theorem updEth_idleCycles (k : Nat) (f : EthPort → EthPort) (s : State) : (updEth k f s).idleCycles = s.idleCycles := rfl
@[simp] theorem updEth_freeCount (k : Nat) (f : EthPort → EthPort) (s : State) : (updEth k f s).freeCount = s.freeCount := rfl
@[simp] theorem updEth_out (k : Nat) (f : EthPort → EthPort) (s : State) : (updEth k f s).out = s.out := rfl
@[simp] theorem updEth_band (k : Nat) (f : EthPort → EthPort) (s : State) : (updEth k f s).band = s.band := rfl
@[simp] theorem updEth_islands (k : Nat) (f : EthPort → EthPort) (s : State) : (updEth k f s).islands = s.islands := rfl
@[simp] theorem updEth_pins (k : Nat) (f : EthPort → EthPort) (s : State) : (updEth k f s).pins = s.pins := rfl
@[simp] theorem updEth_reflexes (k : Nat) (f : EthPort → EthPort) (s : State) : (updEth k f s).reflexes = s.reflexes := rfl
@[simp] theorem updEth_score (k : Nat) (f : EthPort → EthPort) (s : State) : (updEth k f s).score = s.score := rfl
@[simp] theorem updEth_orangeries (k : Nat) (f : EthPort → EthPort) (s : State) : (updEth k f s).orangeries = s.orangeries := rfl
@[simp] theorem updEth_mem (k : Nat) (f : EthPort → EthPort) (s : State) : (updEth k f s).mem = s.mem := rfl
@[simp] theorem updEth_aviary (k : Nat) (f : EthPort → EthPort) (s : State) : (updEth k f s).aviary = s.aviary := rfl
@[simp] theorem updEth_eth (k : Nat) (f : EthPort → EthPort) (s : State) : (updEth k f s).eth = upd s.eth k f := rfl
@[simp] theorem updEth_sensors (k : Nat) (f : EthPort → EthPort) (s : State) : (updEth k f s).sensors = s.sensors := rfl
@[simp] theorem updEth_fountains (k : Nat) (f : EthPort → EthPort) (s : State) : (updEth k f s).fountains = s.fountains := rfl
@[simp] theorem updEth_topiaries (k : Nat) (f : EthPort → EthPort) (s : State) : (updEth k f s).topiaries = s.topiaries := rfl
@[simp] theorem updEth_clips (k : Nat) (f : EthPort → EthPort) (s : State) : (updEth k f s).clips = s.clips := rfl
@[simp] theorem updEth_streams (k : Nat) (f : EthPort → EthPort) (s : State) : (updEth k f s).streams = s.streams := rfl
@[simp] theorem updEth_pkg (k : Nat) (f : EthPort → EthPort) (s : State) : (updEth k f s).pkg = s.pkg := rfl
@[simp] theorem updEth_load (k : Nat) (f : EthPort → EthPort) (s : State) : (updEth k f s).load = s.load := rfl
@[simp] theorem updEth_samples (k : Nat) (f : EthPort → EthPort) (s : State) : (updEth k f s).samples = s.samples := rfl
@[simp] theorem updEth_trainPending (k : Nat) (f : EthPort → EthPort) (s : State) : (updEth k f s).trainPending = s.trainPending := rfl
@[simp] theorem updEth_trainRunning (k : Nat) (f : EthPort → EthPort) (s : State) : (updEth k f s).trainRunning = s.trainRunning := rfl
@[simp] theorem updEth_pools (k : Nat) (f : EthPort → EthPort) (s : State) : (updEth k f s).pools = s.pools := rfl
@[simp] theorem updEth_censusOn (k : Nat) (f : EthPort → EthPort) (s : State) : (updEth k f s).censusOn = s.censusOn := rfl
@[simp] theorem updEth_censusRepair (k : Nat) (f : EthPort → EthPort) (s : State) : (updEth k f s).censusRepair = s.censusRepair := rfl
@[simp] theorem updEth_locks (k : Nat) (f : EthPort → EthPort) (s : State) : (updEth k f s).locks = s.locks := rfl
@[simp] theorem updEth_err (k : Nat) (f : EthPort → EthPort) (s : State) : (updEth k f s).err = s.err := rfl
@[simp] theorem updEth_fenced (k : Nat) (f : EthPort → EthPort) (s : State) : (updEth k f s).fenced = s.fenced := rfl
@[simp] theorem updEth_resetQueue (k : Nat) (f : EthPort → EthPort) (s : State) : (updEth k f s).resetQueue = s.resetQueue := rfl
@[simp] theorem updEth_gate (k : Nat) (f : EthPort → EthPort) (s : State) : (updEth k f s).gate = s.gate := rfl
@[simp] theorem updEth_mbx (k : Nat) (f : EthPort → EthPort) (s : State) : (updEth k f s).mbx = s.mbx := rfl
@[simp] theorem updEth_journal (k : Nat) (f : EthPort → EthPort) (s : State) : (updEth k f s).journal = s.journal := rfl
@[simp] theorem updEth_trellis (k : Nat) (f : EthPort → EthPort) (s : State) : (updEth k f s).trellis = s.trellis := rfl
@[simp] theorem updEth_power (k : Nat) (f : EthPort → EthPort) (s : State) : (updEth k f s).power = s.power := rfl

@[simp] theorem updSensor_pending (k : Nat) (f : SensorPort → SensorPort) (s : State) : (updSensor k f s).pending = s.pending := rfl
@[simp] theorem updSensor_idleCycles (k : Nat) (f : SensorPort → SensorPort) (s : State) : (updSensor k f s).idleCycles = s.idleCycles := rfl
@[simp] theorem updSensor_freeCount (k : Nat) (f : SensorPort → SensorPort) (s : State) : (updSensor k f s).freeCount = s.freeCount := rfl
@[simp] theorem updSensor_out (k : Nat) (f : SensorPort → SensorPort) (s : State) : (updSensor k f s).out = s.out := rfl
@[simp] theorem updSensor_band (k : Nat) (f : SensorPort → SensorPort) (s : State) : (updSensor k f s).band = s.band := rfl
@[simp] theorem updSensor_islands (k : Nat) (f : SensorPort → SensorPort) (s : State) : (updSensor k f s).islands = s.islands := rfl
@[simp] theorem updSensor_pins (k : Nat) (f : SensorPort → SensorPort) (s : State) : (updSensor k f s).pins = s.pins := rfl
@[simp] theorem updSensor_reflexes (k : Nat) (f : SensorPort → SensorPort) (s : State) : (updSensor k f s).reflexes = s.reflexes := rfl
@[simp] theorem updSensor_score (k : Nat) (f : SensorPort → SensorPort) (s : State) : (updSensor k f s).score = s.score := rfl
@[simp] theorem updSensor_orangeries (k : Nat) (f : SensorPort → SensorPort) (s : State) : (updSensor k f s).orangeries = s.orangeries := rfl
@[simp] theorem updSensor_mem (k : Nat) (f : SensorPort → SensorPort) (s : State) : (updSensor k f s).mem = s.mem := rfl
@[simp] theorem updSensor_aviary (k : Nat) (f : SensorPort → SensorPort) (s : State) : (updSensor k f s).aviary = s.aviary := rfl
@[simp] theorem updSensor_eth (k : Nat) (f : SensorPort → SensorPort) (s : State) : (updSensor k f s).eth = s.eth := rfl
@[simp] theorem updSensor_sensors (k : Nat) (f : SensorPort → SensorPort) (s : State) : (updSensor k f s).sensors = upd s.sensors k f := rfl
@[simp] theorem updSensor_fountains (k : Nat) (f : SensorPort → SensorPort) (s : State) : (updSensor k f s).fountains = s.fountains := rfl
@[simp] theorem updSensor_topiaries (k : Nat) (f : SensorPort → SensorPort) (s : State) : (updSensor k f s).topiaries = s.topiaries := rfl
@[simp] theorem updSensor_clips (k : Nat) (f : SensorPort → SensorPort) (s : State) : (updSensor k f s).clips = s.clips := rfl
@[simp] theorem updSensor_streams (k : Nat) (f : SensorPort → SensorPort) (s : State) : (updSensor k f s).streams = s.streams := rfl
@[simp] theorem updSensor_pkg (k : Nat) (f : SensorPort → SensorPort) (s : State) : (updSensor k f s).pkg = s.pkg := rfl
@[simp] theorem updSensor_load (k : Nat) (f : SensorPort → SensorPort) (s : State) : (updSensor k f s).load = s.load := rfl
@[simp] theorem updSensor_samples (k : Nat) (f : SensorPort → SensorPort) (s : State) : (updSensor k f s).samples = s.samples := rfl
@[simp] theorem updSensor_trainPending (k : Nat) (f : SensorPort → SensorPort) (s : State) : (updSensor k f s).trainPending = s.trainPending := rfl
@[simp] theorem updSensor_trainRunning (k : Nat) (f : SensorPort → SensorPort) (s : State) : (updSensor k f s).trainRunning = s.trainRunning := rfl
@[simp] theorem updSensor_pools (k : Nat) (f : SensorPort → SensorPort) (s : State) : (updSensor k f s).pools = s.pools := rfl
@[simp] theorem updSensor_censusOn (k : Nat) (f : SensorPort → SensorPort) (s : State) : (updSensor k f s).censusOn = s.censusOn := rfl
@[simp] theorem updSensor_censusRepair (k : Nat) (f : SensorPort → SensorPort) (s : State) : (updSensor k f s).censusRepair = s.censusRepair := rfl
@[simp] theorem updSensor_locks (k : Nat) (f : SensorPort → SensorPort) (s : State) : (updSensor k f s).locks = s.locks := rfl
@[simp] theorem updSensor_err (k : Nat) (f : SensorPort → SensorPort) (s : State) : (updSensor k f s).err = s.err := rfl
@[simp] theorem updSensor_fenced (k : Nat) (f : SensorPort → SensorPort) (s : State) : (updSensor k f s).fenced = s.fenced := rfl
@[simp] theorem updSensor_resetQueue (k : Nat) (f : SensorPort → SensorPort) (s : State) : (updSensor k f s).resetQueue = s.resetQueue := rfl
@[simp] theorem updSensor_gate (k : Nat) (f : SensorPort → SensorPort) (s : State) : (updSensor k f s).gate = s.gate := rfl
@[simp] theorem updSensor_mbx (k : Nat) (f : SensorPort → SensorPort) (s : State) : (updSensor k f s).mbx = s.mbx := rfl
@[simp] theorem updSensor_journal (k : Nat) (f : SensorPort → SensorPort) (s : State) : (updSensor k f s).journal = s.journal := rfl
@[simp] theorem updSensor_trellis (k : Nat) (f : SensorPort → SensorPort) (s : State) : (updSensor k f s).trellis = s.trellis := rfl
@[simp] theorem updSensor_power (k : Nat) (f : SensorPort → SensorPort) (s : State) : (updSensor k f s).power = s.power := rfl

@[simp] theorem updFountain_pending (k : Nat) (f : Fountain → Fountain) (s : State) : (updFountain k f s).pending = s.pending := rfl
@[simp] theorem updFountain_idleCycles (k : Nat) (f : Fountain → Fountain) (s : State) : (updFountain k f s).idleCycles = s.idleCycles := rfl
@[simp] theorem updFountain_freeCount (k : Nat) (f : Fountain → Fountain) (s : State) : (updFountain k f s).freeCount = s.freeCount := rfl
@[simp] theorem updFountain_out (k : Nat) (f : Fountain → Fountain) (s : State) : (updFountain k f s).out = s.out := rfl
@[simp] theorem updFountain_band (k : Nat) (f : Fountain → Fountain) (s : State) : (updFountain k f s).band = s.band := rfl
@[simp] theorem updFountain_islands (k : Nat) (f : Fountain → Fountain) (s : State) : (updFountain k f s).islands = s.islands := rfl
@[simp] theorem updFountain_pins (k : Nat) (f : Fountain → Fountain) (s : State) : (updFountain k f s).pins = s.pins := rfl
@[simp] theorem updFountain_reflexes (k : Nat) (f : Fountain → Fountain) (s : State) : (updFountain k f s).reflexes = s.reflexes := rfl
@[simp] theorem updFountain_score (k : Nat) (f : Fountain → Fountain) (s : State) : (updFountain k f s).score = s.score := rfl
@[simp] theorem updFountain_orangeries (k : Nat) (f : Fountain → Fountain) (s : State) : (updFountain k f s).orangeries = s.orangeries := rfl
@[simp] theorem updFountain_mem (k : Nat) (f : Fountain → Fountain) (s : State) : (updFountain k f s).mem = s.mem := rfl
@[simp] theorem updFountain_aviary (k : Nat) (f : Fountain → Fountain) (s : State) : (updFountain k f s).aviary = s.aviary := rfl
@[simp] theorem updFountain_eth (k : Nat) (f : Fountain → Fountain) (s : State) : (updFountain k f s).eth = s.eth := rfl
@[simp] theorem updFountain_sensors (k : Nat) (f : Fountain → Fountain) (s : State) : (updFountain k f s).sensors = s.sensors := rfl
@[simp] theorem updFountain_fountains (k : Nat) (f : Fountain → Fountain) (s : State) : (updFountain k f s).fountains = upd s.fountains k f := rfl
@[simp] theorem updFountain_topiaries (k : Nat) (f : Fountain → Fountain) (s : State) : (updFountain k f s).topiaries = s.topiaries := rfl
@[simp] theorem updFountain_clips (k : Nat) (f : Fountain → Fountain) (s : State) : (updFountain k f s).clips = s.clips := rfl
@[simp] theorem updFountain_streams (k : Nat) (f : Fountain → Fountain) (s : State) : (updFountain k f s).streams = s.streams := rfl
@[simp] theorem updFountain_pkg (k : Nat) (f : Fountain → Fountain) (s : State) : (updFountain k f s).pkg = s.pkg := rfl
@[simp] theorem updFountain_load (k : Nat) (f : Fountain → Fountain) (s : State) : (updFountain k f s).load = s.load := rfl
@[simp] theorem updFountain_samples (k : Nat) (f : Fountain → Fountain) (s : State) : (updFountain k f s).samples = s.samples := rfl
@[simp] theorem updFountain_trainPending (k : Nat) (f : Fountain → Fountain) (s : State) : (updFountain k f s).trainPending = s.trainPending := rfl
@[simp] theorem updFountain_trainRunning (k : Nat) (f : Fountain → Fountain) (s : State) : (updFountain k f s).trainRunning = s.trainRunning := rfl
@[simp] theorem updFountain_pools (k : Nat) (f : Fountain → Fountain) (s : State) : (updFountain k f s).pools = s.pools := rfl
@[simp] theorem updFountain_censusOn (k : Nat) (f : Fountain → Fountain) (s : State) : (updFountain k f s).censusOn = s.censusOn := rfl
@[simp] theorem updFountain_censusRepair (k : Nat) (f : Fountain → Fountain) (s : State) : (updFountain k f s).censusRepair = s.censusRepair := rfl
@[simp] theorem updFountain_locks (k : Nat) (f : Fountain → Fountain) (s : State) : (updFountain k f s).locks = s.locks := rfl
@[simp] theorem updFountain_err (k : Nat) (f : Fountain → Fountain) (s : State) : (updFountain k f s).err = s.err := rfl
@[simp] theorem updFountain_fenced (k : Nat) (f : Fountain → Fountain) (s : State) : (updFountain k f s).fenced = s.fenced := rfl
@[simp] theorem updFountain_resetQueue (k : Nat) (f : Fountain → Fountain) (s : State) : (updFountain k f s).resetQueue = s.resetQueue := rfl
@[simp] theorem updFountain_gate (k : Nat) (f : Fountain → Fountain) (s : State) : (updFountain k f s).gate = s.gate := rfl
@[simp] theorem updFountain_mbx (k : Nat) (f : Fountain → Fountain) (s : State) : (updFountain k f s).mbx = s.mbx := rfl
@[simp] theorem updFountain_journal (k : Nat) (f : Fountain → Fountain) (s : State) : (updFountain k f s).journal = s.journal := rfl
@[simp] theorem updFountain_trellis (k : Nat) (f : Fountain → Fountain) (s : State) : (updFountain k f s).trellis = s.trellis := rfl
@[simp] theorem updFountain_power (k : Nat) (f : Fountain → Fountain) (s : State) : (updFountain k f s).power = s.power := rfl

@[simp] theorem updTopiary_pending (k : Nat) (f : Topiary → Topiary) (s : State) : (updTopiary k f s).pending = s.pending := rfl
@[simp] theorem updTopiary_idleCycles (k : Nat) (f : Topiary → Topiary) (s : State) : (updTopiary k f s).idleCycles = s.idleCycles := rfl
@[simp] theorem updTopiary_freeCount (k : Nat) (f : Topiary → Topiary) (s : State) : (updTopiary k f s).freeCount = s.freeCount := rfl
@[simp] theorem updTopiary_out (k : Nat) (f : Topiary → Topiary) (s : State) : (updTopiary k f s).out = s.out := rfl
@[simp] theorem updTopiary_band (k : Nat) (f : Topiary → Topiary) (s : State) : (updTopiary k f s).band = s.band := rfl
@[simp] theorem updTopiary_islands (k : Nat) (f : Topiary → Topiary) (s : State) : (updTopiary k f s).islands = s.islands := rfl
@[simp] theorem updTopiary_pins (k : Nat) (f : Topiary → Topiary) (s : State) : (updTopiary k f s).pins = s.pins := rfl
@[simp] theorem updTopiary_reflexes (k : Nat) (f : Topiary → Topiary) (s : State) : (updTopiary k f s).reflexes = s.reflexes := rfl
@[simp] theorem updTopiary_score (k : Nat) (f : Topiary → Topiary) (s : State) : (updTopiary k f s).score = s.score := rfl
@[simp] theorem updTopiary_orangeries (k : Nat) (f : Topiary → Topiary) (s : State) : (updTopiary k f s).orangeries = s.orangeries := rfl
@[simp] theorem updTopiary_mem (k : Nat) (f : Topiary → Topiary) (s : State) : (updTopiary k f s).mem = s.mem := rfl
@[simp] theorem updTopiary_aviary (k : Nat) (f : Topiary → Topiary) (s : State) : (updTopiary k f s).aviary = s.aviary := rfl
@[simp] theorem updTopiary_eth (k : Nat) (f : Topiary → Topiary) (s : State) : (updTopiary k f s).eth = s.eth := rfl
@[simp] theorem updTopiary_sensors (k : Nat) (f : Topiary → Topiary) (s : State) : (updTopiary k f s).sensors = s.sensors := rfl
@[simp] theorem updTopiary_fountains (k : Nat) (f : Topiary → Topiary) (s : State) : (updTopiary k f s).fountains = s.fountains := rfl
@[simp] theorem updTopiary_topiaries (k : Nat) (f : Topiary → Topiary) (s : State) : (updTopiary k f s).topiaries = upd s.topiaries k f := rfl
@[simp] theorem updTopiary_clips (k : Nat) (f : Topiary → Topiary) (s : State) : (updTopiary k f s).clips = s.clips := rfl
@[simp] theorem updTopiary_streams (k : Nat) (f : Topiary → Topiary) (s : State) : (updTopiary k f s).streams = s.streams := rfl
@[simp] theorem updTopiary_pkg (k : Nat) (f : Topiary → Topiary) (s : State) : (updTopiary k f s).pkg = s.pkg := rfl
@[simp] theorem updTopiary_load (k : Nat) (f : Topiary → Topiary) (s : State) : (updTopiary k f s).load = s.load := rfl
@[simp] theorem updTopiary_samples (k : Nat) (f : Topiary → Topiary) (s : State) : (updTopiary k f s).samples = s.samples := rfl
@[simp] theorem updTopiary_trainPending (k : Nat) (f : Topiary → Topiary) (s : State) : (updTopiary k f s).trainPending = s.trainPending := rfl
@[simp] theorem updTopiary_trainRunning (k : Nat) (f : Topiary → Topiary) (s : State) : (updTopiary k f s).trainRunning = s.trainRunning := rfl
@[simp] theorem updTopiary_pools (k : Nat) (f : Topiary → Topiary) (s : State) : (updTopiary k f s).pools = s.pools := rfl
@[simp] theorem updTopiary_censusOn (k : Nat) (f : Topiary → Topiary) (s : State) : (updTopiary k f s).censusOn = s.censusOn := rfl
@[simp] theorem updTopiary_censusRepair (k : Nat) (f : Topiary → Topiary) (s : State) : (updTopiary k f s).censusRepair = s.censusRepair := rfl
@[simp] theorem updTopiary_locks (k : Nat) (f : Topiary → Topiary) (s : State) : (updTopiary k f s).locks = s.locks := rfl
@[simp] theorem updTopiary_err (k : Nat) (f : Topiary → Topiary) (s : State) : (updTopiary k f s).err = s.err := rfl
@[simp] theorem updTopiary_fenced (k : Nat) (f : Topiary → Topiary) (s : State) : (updTopiary k f s).fenced = s.fenced := rfl
@[simp] theorem updTopiary_resetQueue (k : Nat) (f : Topiary → Topiary) (s : State) : (updTopiary k f s).resetQueue = s.resetQueue := rfl
@[simp] theorem updTopiary_gate (k : Nat) (f : Topiary → Topiary) (s : State) : (updTopiary k f s).gate = s.gate := rfl
@[simp] theorem updTopiary_mbx (k : Nat) (f : Topiary → Topiary) (s : State) : (updTopiary k f s).mbx = s.mbx := rfl
@[simp] theorem updTopiary_journal (k : Nat) (f : Topiary → Topiary) (s : State) : (updTopiary k f s).journal = s.journal := rfl
@[simp] theorem updTopiary_trellis (k : Nat) (f : Topiary → Topiary) (s : State) : (updTopiary k f s).trellis = s.trellis := rfl
@[simp] theorem updTopiary_power (k : Nat) (f : Topiary → Topiary) (s : State) : (updTopiary k f s).power = s.power := rfl

@[simp] theorem updStream_pending (n : Nat) (f : Stream → Stream) (s : State) : (updStream n f s).pending = s.pending := rfl
@[simp] theorem updStream_idleCycles (n : Nat) (f : Stream → Stream) (s : State) : (updStream n f s).idleCycles = s.idleCycles := rfl
@[simp] theorem updStream_freeCount (n : Nat) (f : Stream → Stream) (s : State) : (updStream n f s).freeCount = s.freeCount := rfl
@[simp] theorem updStream_out (n : Nat) (f : Stream → Stream) (s : State) : (updStream n f s).out = s.out := rfl
@[simp] theorem updStream_band (n : Nat) (f : Stream → Stream) (s : State) : (updStream n f s).band = s.band := rfl
@[simp] theorem updStream_islands (n : Nat) (f : Stream → Stream) (s : State) : (updStream n f s).islands = s.islands := rfl
@[simp] theorem updStream_pins (n : Nat) (f : Stream → Stream) (s : State) : (updStream n f s).pins = s.pins := rfl
@[simp] theorem updStream_reflexes (n : Nat) (f : Stream → Stream) (s : State) : (updStream n f s).reflexes = s.reflexes := rfl
@[simp] theorem updStream_score (n : Nat) (f : Stream → Stream) (s : State) : (updStream n f s).score = s.score := rfl
@[simp] theorem updStream_orangeries (n : Nat) (f : Stream → Stream) (s : State) : (updStream n f s).orangeries = s.orangeries := rfl
@[simp] theorem updStream_mem (n : Nat) (f : Stream → Stream) (s : State) : (updStream n f s).mem = s.mem := rfl
@[simp] theorem updStream_aviary (n : Nat) (f : Stream → Stream) (s : State) : (updStream n f s).aviary = s.aviary := rfl
@[simp] theorem updStream_eth (n : Nat) (f : Stream → Stream) (s : State) : (updStream n f s).eth = s.eth := rfl
@[simp] theorem updStream_sensors (n : Nat) (f : Stream → Stream) (s : State) : (updStream n f s).sensors = s.sensors := rfl
@[simp] theorem updStream_fountains (n : Nat) (f : Stream → Stream) (s : State) : (updStream n f s).fountains = s.fountains := rfl
@[simp] theorem updStream_topiaries (n : Nat) (f : Stream → Stream) (s : State) : (updStream n f s).topiaries = s.topiaries := rfl
@[simp] theorem updStream_clips (n : Nat) (f : Stream → Stream) (s : State) : (updStream n f s).clips = s.clips := rfl
@[simp] theorem updStream_streams (n : Nat) (f : Stream → Stream) (s : State) : (updStream n f s).streams = upd s.streams n (fun o => o.map f) := rfl
@[simp] theorem updStream_pkg (n : Nat) (f : Stream → Stream) (s : State) : (updStream n f s).pkg = s.pkg := rfl
@[simp] theorem updStream_load (n : Nat) (f : Stream → Stream) (s : State) : (updStream n f s).load = s.load := rfl
@[simp] theorem updStream_samples (n : Nat) (f : Stream → Stream) (s : State) : (updStream n f s).samples = s.samples := rfl
@[simp] theorem updStream_trainPending (n : Nat) (f : Stream → Stream) (s : State) : (updStream n f s).trainPending = s.trainPending := rfl
@[simp] theorem updStream_trainRunning (n : Nat) (f : Stream → Stream) (s : State) : (updStream n f s).trainRunning = s.trainRunning := rfl
@[simp] theorem updStream_pools (n : Nat) (f : Stream → Stream) (s : State) : (updStream n f s).pools = s.pools := rfl
@[simp] theorem updStream_censusOn (n : Nat) (f : Stream → Stream) (s : State) : (updStream n f s).censusOn = s.censusOn := rfl
@[simp] theorem updStream_censusRepair (n : Nat) (f : Stream → Stream) (s : State) : (updStream n f s).censusRepair = s.censusRepair := rfl
@[simp] theorem updStream_locks (n : Nat) (f : Stream → Stream) (s : State) : (updStream n f s).locks = s.locks := rfl
@[simp] theorem updStream_err (n : Nat) (f : Stream → Stream) (s : State) : (updStream n f s).err = s.err := rfl
@[simp] theorem updStream_fenced (n : Nat) (f : Stream → Stream) (s : State) : (updStream n f s).fenced = s.fenced := rfl
@[simp] theorem updStream_resetQueue (n : Nat) (f : Stream → Stream) (s : State) : (updStream n f s).resetQueue = s.resetQueue := rfl
@[simp] theorem updStream_gate (n : Nat) (f : Stream → Stream) (s : State) : (updStream n f s).gate = s.gate := rfl
@[simp] theorem updStream_mbx (n : Nat) (f : Stream → Stream) (s : State) : (updStream n f s).mbx = s.mbx := rfl
@[simp] theorem updStream_journal (n : Nat) (f : Stream → Stream) (s : State) : (updStream n f s).journal = s.journal := rfl
@[simp] theorem updStream_trellis (n : Nat) (f : Stream → Stream) (s : State) : (updStream n f s).trellis = s.trellis := rfl
@[simp] theorem updStream_power (n : Nat) (f : Stream → Stream) (s : State) : (updStream n f s).power = s.power := rfl

@[simp] theorem updClip_pending (n : Nat) (f : Clip → Clip) (s : State) : (updClip n f s).pending = s.pending := rfl
@[simp] theorem updClip_idleCycles (n : Nat) (f : Clip → Clip) (s : State) : (updClip n f s).idleCycles = s.idleCycles := rfl
@[simp] theorem updClip_freeCount (n : Nat) (f : Clip → Clip) (s : State) : (updClip n f s).freeCount = s.freeCount := rfl
@[simp] theorem updClip_out (n : Nat) (f : Clip → Clip) (s : State) : (updClip n f s).out = s.out := rfl
@[simp] theorem updClip_band (n : Nat) (f : Clip → Clip) (s : State) : (updClip n f s).band = s.band := rfl
@[simp] theorem updClip_islands (n : Nat) (f : Clip → Clip) (s : State) : (updClip n f s).islands = s.islands := rfl
@[simp] theorem updClip_pins (n : Nat) (f : Clip → Clip) (s : State) : (updClip n f s).pins = s.pins := rfl
@[simp] theorem updClip_reflexes (n : Nat) (f : Clip → Clip) (s : State) : (updClip n f s).reflexes = s.reflexes := rfl
@[simp] theorem updClip_score (n : Nat) (f : Clip → Clip) (s : State) : (updClip n f s).score = s.score := rfl
@[simp] theorem updClip_orangeries (n : Nat) (f : Clip → Clip) (s : State) : (updClip n f s).orangeries = s.orangeries := rfl
@[simp] theorem updClip_mem (n : Nat) (f : Clip → Clip) (s : State) : (updClip n f s).mem = s.mem := rfl
@[simp] theorem updClip_aviary (n : Nat) (f : Clip → Clip) (s : State) : (updClip n f s).aviary = s.aviary := rfl
@[simp] theorem updClip_eth (n : Nat) (f : Clip → Clip) (s : State) : (updClip n f s).eth = s.eth := rfl
@[simp] theorem updClip_sensors (n : Nat) (f : Clip → Clip) (s : State) : (updClip n f s).sensors = s.sensors := rfl
@[simp] theorem updClip_fountains (n : Nat) (f : Clip → Clip) (s : State) : (updClip n f s).fountains = s.fountains := rfl
@[simp] theorem updClip_topiaries (n : Nat) (f : Clip → Clip) (s : State) : (updClip n f s).topiaries = s.topiaries := rfl
@[simp] theorem updClip_clips (n : Nat) (f : Clip → Clip) (s : State) : (updClip n f s).clips = upd s.clips n (fun o => o.map f) := rfl
@[simp] theorem updClip_streams (n : Nat) (f : Clip → Clip) (s : State) : (updClip n f s).streams = s.streams := rfl
@[simp] theorem updClip_pkg (n : Nat) (f : Clip → Clip) (s : State) : (updClip n f s).pkg = s.pkg := rfl
@[simp] theorem updClip_load (n : Nat) (f : Clip → Clip) (s : State) : (updClip n f s).load = s.load := rfl
@[simp] theorem updClip_samples (n : Nat) (f : Clip → Clip) (s : State) : (updClip n f s).samples = s.samples := rfl
@[simp] theorem updClip_trainPending (n : Nat) (f : Clip → Clip) (s : State) : (updClip n f s).trainPending = s.trainPending := rfl
@[simp] theorem updClip_trainRunning (n : Nat) (f : Clip → Clip) (s : State) : (updClip n f s).trainRunning = s.trainRunning := rfl
@[simp] theorem updClip_pools (n : Nat) (f : Clip → Clip) (s : State) : (updClip n f s).pools = s.pools := rfl
@[simp] theorem updClip_censusOn (n : Nat) (f : Clip → Clip) (s : State) : (updClip n f s).censusOn = s.censusOn := rfl
@[simp] theorem updClip_censusRepair (n : Nat) (f : Clip → Clip) (s : State) : (updClip n f s).censusRepair = s.censusRepair := rfl
@[simp] theorem updClip_locks (n : Nat) (f : Clip → Clip) (s : State) : (updClip n f s).locks = s.locks := rfl
@[simp] theorem updClip_err (n : Nat) (f : Clip → Clip) (s : State) : (updClip n f s).err = s.err := rfl
@[simp] theorem updClip_fenced (n : Nat) (f : Clip → Clip) (s : State) : (updClip n f s).fenced = s.fenced := rfl
@[simp] theorem updClip_resetQueue (n : Nat) (f : Clip → Clip) (s : State) : (updClip n f s).resetQueue = s.resetQueue := rfl
@[simp] theorem updClip_gate (n : Nat) (f : Clip → Clip) (s : State) : (updClip n f s).gate = s.gate := rfl
@[simp] theorem updClip_mbx (n : Nat) (f : Clip → Clip) (s : State) : (updClip n f s).mbx = s.mbx := rfl
@[simp] theorem updClip_journal (n : Nat) (f : Clip → Clip) (s : State) : (updClip n f s).journal = s.journal := rfl
@[simp] theorem updClip_trellis (n : Nat) (f : Clip → Clip) (s : State) : (updClip n f s).trellis = s.trellis := rfl
@[simp] theorem updClip_power (n : Nat) (f : Clip → Clip) (s : State) : (updClip n f s).power = s.power := rfl

@[simp] theorem updPool_pending (k : Nat) (f : Pool → Pool) (s : State) : (updPool k f s).pending = s.pending := rfl
@[simp] theorem updPool_idleCycles (k : Nat) (f : Pool → Pool) (s : State) : (updPool k f s).idleCycles = s.idleCycles := rfl
@[simp] theorem updPool_freeCount (k : Nat) (f : Pool → Pool) (s : State) : (updPool k f s).freeCount = s.freeCount := rfl
@[simp] theorem updPool_out (k : Nat) (f : Pool → Pool) (s : State) : (updPool k f s).out = s.out := rfl
@[simp] theorem updPool_band (k : Nat) (f : Pool → Pool) (s : State) : (updPool k f s).band = s.band := rfl
@[simp] theorem updPool_islands (k : Nat) (f : Pool → Pool) (s : State) : (updPool k f s).islands = s.islands := rfl
@[simp] theorem updPool_pins (k : Nat) (f : Pool → Pool) (s : State) : (updPool k f s).pins = s.pins := rfl
@[simp] theorem updPool_reflexes (k : Nat) (f : Pool → Pool) (s : State) : (updPool k f s).reflexes = s.reflexes := rfl
@[simp] theorem updPool_score (k : Nat) (f : Pool → Pool) (s : State) : (updPool k f s).score = s.score := rfl
@[simp] theorem updPool_orangeries (k : Nat) (f : Pool → Pool) (s : State) : (updPool k f s).orangeries = s.orangeries := rfl
@[simp] theorem updPool_mem (k : Nat) (f : Pool → Pool) (s : State) : (updPool k f s).mem = s.mem := rfl
@[simp] theorem updPool_aviary (k : Nat) (f : Pool → Pool) (s : State) : (updPool k f s).aviary = s.aviary := rfl
@[simp] theorem updPool_eth (k : Nat) (f : Pool → Pool) (s : State) : (updPool k f s).eth = s.eth := rfl
@[simp] theorem updPool_sensors (k : Nat) (f : Pool → Pool) (s : State) : (updPool k f s).sensors = s.sensors := rfl
@[simp] theorem updPool_fountains (k : Nat) (f : Pool → Pool) (s : State) : (updPool k f s).fountains = s.fountains := rfl
@[simp] theorem updPool_topiaries (k : Nat) (f : Pool → Pool) (s : State) : (updPool k f s).topiaries = s.topiaries := rfl
@[simp] theorem updPool_clips (k : Nat) (f : Pool → Pool) (s : State) : (updPool k f s).clips = s.clips := rfl
@[simp] theorem updPool_streams (k : Nat) (f : Pool → Pool) (s : State) : (updPool k f s).streams = s.streams := rfl
@[simp] theorem updPool_pkg (k : Nat) (f : Pool → Pool) (s : State) : (updPool k f s).pkg = s.pkg := rfl
@[simp] theorem updPool_load (k : Nat) (f : Pool → Pool) (s : State) : (updPool k f s).load = s.load := rfl
@[simp] theorem updPool_samples (k : Nat) (f : Pool → Pool) (s : State) : (updPool k f s).samples = s.samples := rfl
@[simp] theorem updPool_trainPending (k : Nat) (f : Pool → Pool) (s : State) : (updPool k f s).trainPending = s.trainPending := rfl
@[simp] theorem updPool_trainRunning (k : Nat) (f : Pool → Pool) (s : State) : (updPool k f s).trainRunning = s.trainRunning := rfl
@[simp] theorem updPool_pools (k : Nat) (f : Pool → Pool) (s : State) : (updPool k f s).pools = upd s.pools k f := rfl
@[simp] theorem updPool_censusOn (k : Nat) (f : Pool → Pool) (s : State) : (updPool k f s).censusOn = s.censusOn := rfl
@[simp] theorem updPool_censusRepair (k : Nat) (f : Pool → Pool) (s : State) : (updPool k f s).censusRepair = s.censusRepair := rfl
@[simp] theorem updPool_locks (k : Nat) (f : Pool → Pool) (s : State) : (updPool k f s).locks = s.locks := rfl
@[simp] theorem updPool_err (k : Nat) (f : Pool → Pool) (s : State) : (updPool k f s).err = s.err := rfl
@[simp] theorem updPool_fenced (k : Nat) (f : Pool → Pool) (s : State) : (updPool k f s).fenced = s.fenced := rfl
@[simp] theorem updPool_resetQueue (k : Nat) (f : Pool → Pool) (s : State) : (updPool k f s).resetQueue = s.resetQueue := rfl
@[simp] theorem updPool_gate (k : Nat) (f : Pool → Pool) (s : State) : (updPool k f s).gate = s.gate := rfl
@[simp] theorem updPool_mbx (k : Nat) (f : Pool → Pool) (s : State) : (updPool k f s).mbx = s.mbx := rfl
@[simp] theorem updPool_journal (k : Nat) (f : Pool → Pool) (s : State) : (updPool k f s).journal = s.journal := rfl
@[simp] theorem updPool_trellis (k : Nat) (f : Pool → Pool) (s : State) : (updPool k f s).trellis = s.trellis := rfl
@[simp] theorem updPool_power (k : Nat) (f : Pool → Pool) (s : State) : (updPool k f s).power = s.power := rfl

@[simp] theorem updLock_pending (k : Nat) (f : Lock → Lock) (s : State) : (updLock k f s).pending = s.pending := rfl
@[simp] theorem updLock_idleCycles (k : Nat) (f : Lock → Lock) (s : State) : (updLock k f s).idleCycles = s.idleCycles := rfl
@[simp] theorem updLock_freeCount (k : Nat) (f : Lock → Lock) (s : State) : (updLock k f s).freeCount = s.freeCount := rfl
@[simp] theorem updLock_out (k : Nat) (f : Lock → Lock) (s : State) : (updLock k f s).out = s.out := rfl
@[simp] theorem updLock_band (k : Nat) (f : Lock → Lock) (s : State) : (updLock k f s).band = s.band := rfl
@[simp] theorem updLock_islands (k : Nat) (f : Lock → Lock) (s : State) : (updLock k f s).islands = s.islands := rfl
@[simp] theorem updLock_pins (k : Nat) (f : Lock → Lock) (s : State) : (updLock k f s).pins = s.pins := rfl
@[simp] theorem updLock_reflexes (k : Nat) (f : Lock → Lock) (s : State) : (updLock k f s).reflexes = s.reflexes := rfl
@[simp] theorem updLock_score (k : Nat) (f : Lock → Lock) (s : State) : (updLock k f s).score = s.score := rfl
@[simp] theorem updLock_orangeries (k : Nat) (f : Lock → Lock) (s : State) : (updLock k f s).orangeries = s.orangeries := rfl
@[simp] theorem updLock_mem (k : Nat) (f : Lock → Lock) (s : State) : (updLock k f s).mem = s.mem := rfl
@[simp] theorem updLock_aviary (k : Nat) (f : Lock → Lock) (s : State) : (updLock k f s).aviary = s.aviary := rfl
@[simp] theorem updLock_eth (k : Nat) (f : Lock → Lock) (s : State) : (updLock k f s).eth = s.eth := rfl
@[simp] theorem updLock_sensors (k : Nat) (f : Lock → Lock) (s : State) : (updLock k f s).sensors = s.sensors := rfl
@[simp] theorem updLock_fountains (k : Nat) (f : Lock → Lock) (s : State) : (updLock k f s).fountains = s.fountains := rfl
@[simp] theorem updLock_topiaries (k : Nat) (f : Lock → Lock) (s : State) : (updLock k f s).topiaries = s.topiaries := rfl
@[simp] theorem updLock_clips (k : Nat) (f : Lock → Lock) (s : State) : (updLock k f s).clips = s.clips := rfl
@[simp] theorem updLock_streams (k : Nat) (f : Lock → Lock) (s : State) : (updLock k f s).streams = s.streams := rfl
@[simp] theorem updLock_pkg (k : Nat) (f : Lock → Lock) (s : State) : (updLock k f s).pkg = s.pkg := rfl
@[simp] theorem updLock_load (k : Nat) (f : Lock → Lock) (s : State) : (updLock k f s).load = s.load := rfl
@[simp] theorem updLock_samples (k : Nat) (f : Lock → Lock) (s : State) : (updLock k f s).samples = s.samples := rfl
@[simp] theorem updLock_trainPending (k : Nat) (f : Lock → Lock) (s : State) : (updLock k f s).trainPending = s.trainPending := rfl
@[simp] theorem updLock_trainRunning (k : Nat) (f : Lock → Lock) (s : State) : (updLock k f s).trainRunning = s.trainRunning := rfl
@[simp] theorem updLock_pools (k : Nat) (f : Lock → Lock) (s : State) : (updLock k f s).pools = s.pools := rfl
@[simp] theorem updLock_censusOn (k : Nat) (f : Lock → Lock) (s : State) : (updLock k f s).censusOn = s.censusOn := rfl
@[simp] theorem updLock_censusRepair (k : Nat) (f : Lock → Lock) (s : State) : (updLock k f s).censusRepair = s.censusRepair := rfl
@[simp] theorem updLock_locks (k : Nat) (f : Lock → Lock) (s : State) : (updLock k f s).locks = upd s.locks k f := rfl
@[simp] theorem updLock_err (k : Nat) (f : Lock → Lock) (s : State) : (updLock k f s).err = s.err := rfl
@[simp] theorem updLock_fenced (k : Nat) (f : Lock → Lock) (s : State) : (updLock k f s).fenced = s.fenced := rfl
@[simp] theorem updLock_resetQueue (k : Nat) (f : Lock → Lock) (s : State) : (updLock k f s).resetQueue = s.resetQueue := rfl
@[simp] theorem updLock_gate (k : Nat) (f : Lock → Lock) (s : State) : (updLock k f s).gate = s.gate := rfl
@[simp] theorem updLock_mbx (k : Nat) (f : Lock → Lock) (s : State) : (updLock k f s).mbx = s.mbx := rfl
@[simp] theorem updLock_journal (k : Nat) (f : Lock → Lock) (s : State) : (updLock k f s).journal = s.journal := rfl
@[simp] theorem updLock_trellis (k : Nat) (f : Lock → Lock) (s : State) : (updLock k f s).trellis = s.trellis := rfl
@[simp] theorem updLock_power (k : Nat) (f : Lock → Lock) (s : State) : (updLock k f s).power = s.power := rfl

@[simp] theorem updErr_pending (f : ErrLog → ErrLog) (s : State) : (updErr f s).pending = s.pending := rfl
@[simp] theorem updErr_idleCycles (f : ErrLog → ErrLog) (s : State) : (updErr f s).idleCycles = s.idleCycles := rfl
@[simp] theorem updErr_freeCount (f : ErrLog → ErrLog) (s : State) : (updErr f s).freeCount = s.freeCount := rfl
@[simp] theorem updErr_out (f : ErrLog → ErrLog) (s : State) : (updErr f s).out = s.out := rfl
@[simp] theorem updErr_band (f : ErrLog → ErrLog) (s : State) : (updErr f s).band = s.band := rfl
@[simp] theorem updErr_islands (f : ErrLog → ErrLog) (s : State) : (updErr f s).islands = s.islands := rfl
@[simp] theorem updErr_pins (f : ErrLog → ErrLog) (s : State) : (updErr f s).pins = s.pins := rfl
@[simp] theorem updErr_reflexes (f : ErrLog → ErrLog) (s : State) : (updErr f s).reflexes = s.reflexes := rfl
@[simp] theorem updErr_score (f : ErrLog → ErrLog) (s : State) : (updErr f s).score = s.score := rfl
@[simp] theorem updErr_orangeries (f : ErrLog → ErrLog) (s : State) : (updErr f s).orangeries = s.orangeries := rfl
@[simp] theorem updErr_mem (f : ErrLog → ErrLog) (s : State) : (updErr f s).mem = s.mem := rfl
@[simp] theorem updErr_aviary (f : ErrLog → ErrLog) (s : State) : (updErr f s).aviary = s.aviary := rfl
@[simp] theorem updErr_eth (f : ErrLog → ErrLog) (s : State) : (updErr f s).eth = s.eth := rfl
@[simp] theorem updErr_sensors (f : ErrLog → ErrLog) (s : State) : (updErr f s).sensors = s.sensors := rfl
@[simp] theorem updErr_fountains (f : ErrLog → ErrLog) (s : State) : (updErr f s).fountains = s.fountains := rfl
@[simp] theorem updErr_topiaries (f : ErrLog → ErrLog) (s : State) : (updErr f s).topiaries = s.topiaries := rfl
@[simp] theorem updErr_clips (f : ErrLog → ErrLog) (s : State) : (updErr f s).clips = s.clips := rfl
@[simp] theorem updErr_streams (f : ErrLog → ErrLog) (s : State) : (updErr f s).streams = s.streams := rfl
@[simp] theorem updErr_pkg (f : ErrLog → ErrLog) (s : State) : (updErr f s).pkg = s.pkg := rfl
@[simp] theorem updErr_load (f : ErrLog → ErrLog) (s : State) : (updErr f s).load = s.load := rfl
@[simp] theorem updErr_samples (f : ErrLog → ErrLog) (s : State) : (updErr f s).samples = s.samples := rfl
@[simp] theorem updErr_trainPending (f : ErrLog → ErrLog) (s : State) : (updErr f s).trainPending = s.trainPending := rfl
@[simp] theorem updErr_trainRunning (f : ErrLog → ErrLog) (s : State) : (updErr f s).trainRunning = s.trainRunning := rfl
@[simp] theorem updErr_pools (f : ErrLog → ErrLog) (s : State) : (updErr f s).pools = s.pools := rfl
@[simp] theorem updErr_censusOn (f : ErrLog → ErrLog) (s : State) : (updErr f s).censusOn = s.censusOn := rfl
@[simp] theorem updErr_censusRepair (f : ErrLog → ErrLog) (s : State) : (updErr f s).censusRepair = s.censusRepair := rfl
@[simp] theorem updErr_locks (f : ErrLog → ErrLog) (s : State) : (updErr f s).locks = s.locks := rfl
@[simp] theorem updErr_err (f : ErrLog → ErrLog) (s : State) : (updErr f s).err = f s.err := rfl
@[simp] theorem updErr_fenced (f : ErrLog → ErrLog) (s : State) : (updErr f s).fenced = s.fenced := rfl
@[simp] theorem updErr_resetQueue (f : ErrLog → ErrLog) (s : State) : (updErr f s).resetQueue = s.resetQueue := rfl
@[simp] theorem updErr_gate (f : ErrLog → ErrLog) (s : State) : (updErr f s).gate = s.gate := rfl
@[simp] theorem updErr_mbx (f : ErrLog → ErrLog) (s : State) : (updErr f s).mbx = s.mbx := rfl
@[simp] theorem updErr_journal (f : ErrLog → ErrLog) (s : State) : (updErr f s).journal = s.journal := rfl
@[simp] theorem updErr_trellis (f : ErrLog → ErrLog) (s : State) : (updErr f s).trellis = s.trellis := rfl
@[simp] theorem updErr_power (f : ErrLog → ErrLog) (s : State) : (updErr f s).power = s.power := rfl

@[simp] theorem updGate_pending (f : Gate → Gate) (s : State) : (updGate f s).pending = s.pending := rfl
@[simp] theorem updGate_idleCycles (f : Gate → Gate) (s : State) : (updGate f s).idleCycles = s.idleCycles := rfl
@[simp] theorem updGate_freeCount (f : Gate → Gate) (s : State) : (updGate f s).freeCount = s.freeCount := rfl
@[simp] theorem updGate_out (f : Gate → Gate) (s : State) : (updGate f s).out = s.out := rfl
@[simp] theorem updGate_band (f : Gate → Gate) (s : State) : (updGate f s).band = s.band := rfl
@[simp] theorem updGate_islands (f : Gate → Gate) (s : State) : (updGate f s).islands = s.islands := rfl
@[simp] theorem updGate_pins (f : Gate → Gate) (s : State) : (updGate f s).pins = s.pins := rfl
@[simp] theorem updGate_reflexes (f : Gate → Gate) (s : State) : (updGate f s).reflexes = s.reflexes := rfl
@[simp] theorem updGate_score (f : Gate → Gate) (s : State) : (updGate f s).score = s.score := rfl
@[simp] theorem updGate_orangeries (f : Gate → Gate) (s : State) : (updGate f s).orangeries = s.orangeries := rfl
@[simp] theorem updGate_mem (f : Gate → Gate) (s : State) : (updGate f s).mem = s.mem := rfl
@[simp] theorem updGate_aviary (f : Gate → Gate) (s : State) : (updGate f s).aviary = s.aviary := rfl
@[simp] theorem updGate_eth (f : Gate → Gate) (s : State) : (updGate f s).eth = s.eth := rfl
@[simp] theorem updGate_sensors (f : Gate → Gate) (s : State) : (updGate f s).sensors = s.sensors := rfl
@[simp] theorem updGate_fountains (f : Gate → Gate) (s : State) : (updGate f s).fountains = s.fountains := rfl
@[simp] theorem updGate_topiaries (f : Gate → Gate) (s : State) : (updGate f s).topiaries = s.topiaries := rfl
@[simp] theorem updGate_clips (f : Gate → Gate) (s : State) : (updGate f s).clips = s.clips := rfl
@[simp] theorem updGate_streams (f : Gate → Gate) (s : State) : (updGate f s).streams = s.streams := rfl
@[simp] theorem updGate_pkg (f : Gate → Gate) (s : State) : (updGate f s).pkg = s.pkg := rfl
@[simp] theorem updGate_load (f : Gate → Gate) (s : State) : (updGate f s).load = s.load := rfl
@[simp] theorem updGate_samples (f : Gate → Gate) (s : State) : (updGate f s).samples = s.samples := rfl
@[simp] theorem updGate_trainPending (f : Gate → Gate) (s : State) : (updGate f s).trainPending = s.trainPending := rfl
@[simp] theorem updGate_trainRunning (f : Gate → Gate) (s : State) : (updGate f s).trainRunning = s.trainRunning := rfl
@[simp] theorem updGate_pools (f : Gate → Gate) (s : State) : (updGate f s).pools = s.pools := rfl
@[simp] theorem updGate_censusOn (f : Gate → Gate) (s : State) : (updGate f s).censusOn = s.censusOn := rfl
@[simp] theorem updGate_censusRepair (f : Gate → Gate) (s : State) : (updGate f s).censusRepair = s.censusRepair := rfl
@[simp] theorem updGate_locks (f : Gate → Gate) (s : State) : (updGate f s).locks = s.locks := rfl
@[simp] theorem updGate_err (f : Gate → Gate) (s : State) : (updGate f s).err = s.err := rfl
@[simp] theorem updGate_fenced (f : Gate → Gate) (s : State) : (updGate f s).fenced = s.fenced := rfl
@[simp] theorem updGate_resetQueue (f : Gate → Gate) (s : State) : (updGate f s).resetQueue = s.resetQueue := rfl
@[simp] theorem updGate_gate (f : Gate → Gate) (s : State) : (updGate f s).gate = f s.gate := rfl
@[simp] theorem updGate_mbx (f : Gate → Gate) (s : State) : (updGate f s).mbx = s.mbx := rfl
@[simp] theorem updGate_journal (f : Gate → Gate) (s : State) : (updGate f s).journal = s.journal := rfl
@[simp] theorem updGate_trellis (f : Gate → Gate) (s : State) : (updGate f s).trellis = s.trellis := rfl
@[simp] theorem updGate_power (f : Gate → Gate) (s : State) : (updGate f s).power = s.power := rfl

@[simp] theorem updMbx_pending (f : Mailbox → Mailbox) (s : State) : (updMbx f s).pending = s.pending := rfl
@[simp] theorem updMbx_idleCycles (f : Mailbox → Mailbox) (s : State) : (updMbx f s).idleCycles = s.idleCycles := rfl
@[simp] theorem updMbx_freeCount (f : Mailbox → Mailbox) (s : State) : (updMbx f s).freeCount = s.freeCount := rfl
@[simp] theorem updMbx_out (f : Mailbox → Mailbox) (s : State) : (updMbx f s).out = s.out := rfl
@[simp] theorem updMbx_band (f : Mailbox → Mailbox) (s : State) : (updMbx f s).band = s.band := rfl
@[simp] theorem updMbx_islands (f : Mailbox → Mailbox) (s : State) : (updMbx f s).islands = s.islands := rfl
@[simp] theorem updMbx_pins (f : Mailbox → Mailbox) (s : State) : (updMbx f s).pins = s.pins := rfl
@[simp] theorem updMbx_reflexes (f : Mailbox → Mailbox) (s : State) : (updMbx f s).reflexes = s.reflexes := rfl
@[simp] theorem updMbx_score (f : Mailbox → Mailbox) (s : State) : (updMbx f s).score = s.score := rfl
@[simp] theorem updMbx_orangeries (f : Mailbox → Mailbox) (s : State) : (updMbx f s).orangeries = s.orangeries := rfl
@[simp] theorem updMbx_mem (f : Mailbox → Mailbox) (s : State) : (updMbx f s).mem = s.mem := rfl
@[simp] theorem updMbx_aviary (f : Mailbox → Mailbox) (s : State) : (updMbx f s).aviary = s.aviary := rfl
@[simp] theorem updMbx_eth (f : Mailbox → Mailbox) (s : State) : (updMbx f s).eth = s.eth := rfl
@[simp] theorem updMbx_sensors (f : Mailbox → Mailbox) (s : State) : (updMbx f s).sensors = s.sensors := rfl
@[simp] theorem updMbx_fountains (f : Mailbox → Mailbox) (s : State) : (updMbx f s).fountains = s.fountains := rfl
@[simp] theorem updMbx_topiaries (f : Mailbox → Mailbox) (s : State) : (updMbx f s).topiaries = s.topiaries := rfl
@[simp] theorem updMbx_clips (f : Mailbox → Mailbox) (s : State) : (updMbx f s).clips = s.clips := rfl
@[simp] theorem updMbx_streams (f : Mailbox → Mailbox) (s : State) : (updMbx f s).streams = s.streams := rfl
@[simp] theorem updMbx_pkg (f : Mailbox → Mailbox) (s : State) : (updMbx f s).pkg = s.pkg := rfl
@[simp] theorem updMbx_load (f : Mailbox → Mailbox) (s : State) : (updMbx f s).load = s.load := rfl
@[simp] theorem updMbx_samples (f : Mailbox → Mailbox) (s : State) : (updMbx f s).samples = s.samples := rfl
@[simp] theorem updMbx_trainPending (f : Mailbox → Mailbox) (s : State) : (updMbx f s).trainPending = s.trainPending := rfl
@[simp] theorem updMbx_trainRunning (f : Mailbox → Mailbox) (s : State) : (updMbx f s).trainRunning = s.trainRunning := rfl
@[simp] theorem updMbx_pools (f : Mailbox → Mailbox) (s : State) : (updMbx f s).pools = s.pools := rfl
@[simp] theorem updMbx_censusOn (f : Mailbox → Mailbox) (s : State) : (updMbx f s).censusOn = s.censusOn := rfl
@[simp] theorem updMbx_censusRepair (f : Mailbox → Mailbox) (s : State) : (updMbx f s).censusRepair = s.censusRepair := rfl
@[simp] theorem updMbx_locks (f : Mailbox → Mailbox) (s : State) : (updMbx f s).locks = s.locks := rfl
@[simp] theorem updMbx_err (f : Mailbox → Mailbox) (s : State) : (updMbx f s).err = s.err := rfl
@[simp] theorem updMbx_fenced (f : Mailbox → Mailbox) (s : State) : (updMbx f s).fenced = s.fenced := rfl
@[simp] theorem updMbx_resetQueue (f : Mailbox → Mailbox) (s : State) : (updMbx f s).resetQueue = s.resetQueue := rfl
@[simp] theorem updMbx_gate (f : Mailbox → Mailbox) (s : State) : (updMbx f s).gate = s.gate := rfl
@[simp] theorem updMbx_mbx (f : Mailbox → Mailbox) (s : State) : (updMbx f s).mbx = f s.mbx := rfl
@[simp] theorem updMbx_journal (f : Mailbox → Mailbox) (s : State) : (updMbx f s).journal = s.journal := rfl
@[simp] theorem updMbx_trellis (f : Mailbox → Mailbox) (s : State) : (updMbx f s).trellis = s.trellis := rfl
@[simp] theorem updMbx_power (f : Mailbox → Mailbox) (s : State) : (updMbx f s).power = s.power := rfl

@[simp] theorem updTrellis_pending (f : Trellis → Trellis) (s : State) : (updTrellis f s).pending = s.pending := rfl
@[simp] theorem updTrellis_idleCycles (f : Trellis → Trellis) (s : State) : (updTrellis f s).idleCycles = s.idleCycles := rfl
@[simp] theorem updTrellis_freeCount (f : Trellis → Trellis) (s : State) : (updTrellis f s).freeCount = s.freeCount := rfl
@[simp] theorem updTrellis_out (f : Trellis → Trellis) (s : State) : (updTrellis f s).out = s.out := rfl
@[simp] theorem updTrellis_band (f : Trellis → Trellis) (s : State) : (updTrellis f s).band = s.band := rfl
@[simp] theorem updTrellis_islands (f : Trellis → Trellis) (s : State) : (updTrellis f s).islands = s.islands := rfl
@[simp] theorem updTrellis_pins (f : Trellis → Trellis) (s : State) : (updTrellis f s).pins = s.pins := rfl
@[simp] theorem updTrellis_reflexes (f : Trellis → Trellis) (s : State) : (updTrellis f s).reflexes = s.reflexes := rfl
@[simp] theorem updTrellis_score (f : Trellis → Trellis) (s : State) : (updTrellis f s).score = s.score := rfl
@[simp] theorem updTrellis_orangeries (f : Trellis → Trellis) (s : State) : (updTrellis f s).orangeries = s.orangeries := rfl
@[simp] theorem updTrellis_mem (f : Trellis → Trellis) (s : State) : (updTrellis f s).mem = s.mem := rfl
@[simp] theorem updTrellis_aviary (f : Trellis → Trellis) (s : State) : (updTrellis f s).aviary = s.aviary := rfl
@[simp] theorem updTrellis_eth (f : Trellis → Trellis) (s : State) : (updTrellis f s).eth = s.eth := rfl
@[simp] theorem updTrellis_sensors (f : Trellis → Trellis) (s : State) : (updTrellis f s).sensors = s.sensors := rfl
@[simp] theorem updTrellis_fountains (f : Trellis → Trellis) (s : State) : (updTrellis f s).fountains = s.fountains := rfl
@[simp] theorem updTrellis_topiaries (f : Trellis → Trellis) (s : State) : (updTrellis f s).topiaries = s.topiaries := rfl
@[simp] theorem updTrellis_clips (f : Trellis → Trellis) (s : State) : (updTrellis f s).clips = s.clips := rfl
@[simp] theorem updTrellis_streams (f : Trellis → Trellis) (s : State) : (updTrellis f s).streams = s.streams := rfl
@[simp] theorem updTrellis_pkg (f : Trellis → Trellis) (s : State) : (updTrellis f s).pkg = s.pkg := rfl
@[simp] theorem updTrellis_load (f : Trellis → Trellis) (s : State) : (updTrellis f s).load = s.load := rfl
@[simp] theorem updTrellis_samples (f : Trellis → Trellis) (s : State) : (updTrellis f s).samples = s.samples := rfl
@[simp] theorem updTrellis_trainPending (f : Trellis → Trellis) (s : State) : (updTrellis f s).trainPending = s.trainPending := rfl
@[simp] theorem updTrellis_trainRunning (f : Trellis → Trellis) (s : State) : (updTrellis f s).trainRunning = s.trainRunning := rfl
@[simp] theorem updTrellis_pools (f : Trellis → Trellis) (s : State) : (updTrellis f s).pools = s.pools := rfl
@[simp] theorem updTrellis_censusOn (f : Trellis → Trellis) (s : State) : (updTrellis f s).censusOn = s.censusOn := rfl
@[simp] theorem updTrellis_censusRepair (f : Trellis → Trellis) (s : State) : (updTrellis f s).censusRepair = s.censusRepair := rfl
@[simp] theorem updTrellis_locks (f : Trellis → Trellis) (s : State) : (updTrellis f s).locks = s.locks := rfl
@[simp] theorem updTrellis_err (f : Trellis → Trellis) (s : State) : (updTrellis f s).err = s.err := rfl
@[simp] theorem updTrellis_fenced (f : Trellis → Trellis) (s : State) : (updTrellis f s).fenced = s.fenced := rfl
@[simp] theorem updTrellis_resetQueue (f : Trellis → Trellis) (s : State) : (updTrellis f s).resetQueue = s.resetQueue := rfl
@[simp] theorem updTrellis_gate (f : Trellis → Trellis) (s : State) : (updTrellis f s).gate = s.gate := rfl
@[simp] theorem updTrellis_mbx (f : Trellis → Trellis) (s : State) : (updTrellis f s).mbx = s.mbx := rfl
@[simp] theorem updTrellis_journal (f : Trellis → Trellis) (s : State) : (updTrellis f s).journal = s.journal := rfl
@[simp] theorem updTrellis_trellis (f : Trellis → Trellis) (s : State) : (updTrellis f s).trellis = f s.trellis := rfl
@[simp] theorem updTrellis_power (f : Trellis → Trellis) (s : State) : (updTrellis f s).power = s.power := rfl

@[simp] theorem updLink_pending (k : Nat) (f : Link → Link) (s : State) : (updLink k f s).pending = s.pending := rfl
@[simp] theorem updLink_idleCycles (k : Nat) (f : Link → Link) (s : State) : (updLink k f s).idleCycles = s.idleCycles := rfl
@[simp] theorem updLink_freeCount (k : Nat) (f : Link → Link) (s : State) : (updLink k f s).freeCount = s.freeCount := rfl
@[simp] theorem updLink_out (k : Nat) (f : Link → Link) (s : State) : (updLink k f s).out = s.out := rfl
@[simp] theorem updLink_band (k : Nat) (f : Link → Link) (s : State) : (updLink k f s).band = s.band := rfl
@[simp] theorem updLink_islands (k : Nat) (f : Link → Link) (s : State) : (updLink k f s).islands = s.islands := rfl
@[simp] theorem updLink_pins (k : Nat) (f : Link → Link) (s : State) : (updLink k f s).pins = s.pins := rfl
@[simp] theorem updLink_reflexes (k : Nat) (f : Link → Link) (s : State) : (updLink k f s).reflexes = s.reflexes := rfl
@[simp] theorem updLink_score (k : Nat) (f : Link → Link) (s : State) : (updLink k f s).score = s.score := rfl
@[simp] theorem updLink_orangeries (k : Nat) (f : Link → Link) (s : State) : (updLink k f s).orangeries = s.orangeries := rfl
@[simp] theorem updLink_mem (k : Nat) (f : Link → Link) (s : State) : (updLink k f s).mem = s.mem := rfl
@[simp] theorem updLink_aviary (k : Nat) (f : Link → Link) (s : State) : (updLink k f s).aviary = s.aviary := rfl
@[simp] theorem updLink_eth (k : Nat) (f : Link → Link) (s : State) : (updLink k f s).eth = s.eth := rfl
@[simp] theorem updLink_sensors (k : Nat) (f : Link → Link) (s : State) : (updLink k f s).sensors = s.sensors := rfl
@[simp] theorem updLink_fountains (k : Nat) (f : Link → Link) (s : State) : (updLink k f s).fountains = s.fountains := rfl
@[simp] theorem updLink_topiaries (k : Nat) (f : Link → Link) (s : State) : (updLink k f s).topiaries = s.topiaries := rfl
@[simp] theorem updLink_clips (k : Nat) (f : Link → Link) (s : State) : (updLink k f s).clips = s.clips := rfl
@[simp] theorem updLink_streams (k : Nat) (f : Link → Link) (s : State) : (updLink k f s).streams = s.streams := rfl
@[simp] theorem updLink_pkg (k : Nat) (f : Link → Link) (s : State) : (updLink k f s).pkg = s.pkg := rfl
@[simp] theorem updLink_load (k : Nat) (f : Link → Link) (s : State) : (updLink k f s).load = s.load := rfl
@[simp] theorem updLink_samples (k : Nat) (f : Link → Link) (s : State) : (updLink k f s).samples = s.samples := rfl
@[simp] theorem updLink_trainPending (k : Nat) (f : Link → Link) (s : State) : (updLink k f s).trainPending = s.trainPending := rfl
@[simp] theorem updLink_trainRunning (k : Nat) (f : Link → Link) (s : State) : (updLink k f s).trainRunning = s.trainRunning := rfl
@[simp] theorem updLink_pools (k : Nat) (f : Link → Link) (s : State) : (updLink k f s).pools = s.pools := rfl
@[simp] theorem updLink_censusOn (k : Nat) (f : Link → Link) (s : State) : (updLink k f s).censusOn = s.censusOn := rfl
@[simp] theorem updLink_censusRepair (k : Nat) (f : Link → Link) (s : State) : (updLink k f s).censusRepair = s.censusRepair := rfl
@[simp] theorem updLink_locks (k : Nat) (f : Link → Link) (s : State) : (updLink k f s).locks = s.locks := rfl
@[simp] theorem updLink_err (k : Nat) (f : Link → Link) (s : State) : (updLink k f s).err = s.err := rfl
@[simp] theorem updLink_fenced (k : Nat) (f : Link → Link) (s : State) : (updLink k f s).fenced = s.fenced := rfl
@[simp] theorem updLink_resetQueue (k : Nat) (f : Link → Link) (s : State) : (updLink k f s).resetQueue = s.resetQueue := rfl
@[simp] theorem updLink_gate (k : Nat) (f : Link → Link) (s : State) : (updLink k f s).gate = s.gate := rfl
@[simp] theorem updLink_mbx (k : Nat) (f : Link → Link) (s : State) : (updLink k f s).mbx = s.mbx := rfl
@[simp] theorem updLink_journal (k : Nat) (f : Link → Link) (s : State) : (updLink k f s).journal = s.journal := rfl
@[simp] theorem updLink_trellis (k : Nat) (f : Link → Link) (s : State) : (updLink k f s).trellis = { s.trellis with links := upd s.trellis.links k f } := rfl
@[simp] theorem updLink_power (k : Nat) (f : Link → Link) (s : State) : (updLink k f s).power = s.power := rfl

@[simp] theorem updPower_pending (f : Power → Power) (s : State) : (updPower f s).pending = s.pending := rfl
@[simp] theorem updPower_idleCycles (f : Power → Power) (s : State) : (updPower f s).idleCycles = s.idleCycles := rfl
@[simp] theorem updPower_freeCount (f : Power → Power) (s : State) : (updPower f s).freeCount = s.freeCount := rfl
@[simp] theorem updPower_out (f : Power → Power) (s : State) : (updPower f s).out = s.out := rfl
@[simp] theorem updPower_band (f : Power → Power) (s : State) : (updPower f s).band = s.band := rfl
@[simp] theorem updPower_islands (f : Power → Power) (s : State) : (updPower f s).islands = s.islands := rfl
@[simp] theorem updPower_pins (f : Power → Power) (s : State) : (updPower f s).pins = s.pins := rfl
@[simp] theorem updPower_reflexes (f : Power → Power) (s : State) : (updPower f s).reflexes = s.reflexes := rfl
@[simp] theorem updPower_score (f : Power → Power) (s : State) : (updPower f s).score = s.score := rfl
@[simp] theorem updPower_orangeries (f : Power → Power) (s : State) : (updPower f s).orangeries = s.orangeries := rfl
@[simp] theorem updPower_mem (f : Power → Power) (s : State) : (updPower f s).mem = s.mem := rfl
@[simp] theorem updPower_aviary (f : Power → Power) (s : State) : (updPower f s).aviary = s.aviary := rfl
@[simp] theorem updPower_eth (f : Power → Power) (s : State) : (updPower f s).eth = s.eth := rfl
@[simp] theorem updPower_sensors (f : Power → Power) (s : State) : (updPower f s).sensors = s.sensors := rfl
@[simp] theorem updPower_fountains (f : Power → Power) (s : State) : (updPower f s).fountains = s.fountains := rfl
@[simp] theorem updPower_topiaries (f : Power → Power) (s : State) : (updPower f s).topiaries = s.topiaries := rfl
@[simp] theorem updPower_clips (f : Power → Power) (s : State) : (updPower f s).clips = s.clips := rfl
@[simp] theorem updPower_streams (f : Power → Power) (s : State) : (updPower f s).streams = s.streams := rfl
@[simp] theorem updPower_pkg (f : Power → Power) (s : State) : (updPower f s).pkg = s.pkg := rfl
@[simp] theorem updPower_load (f : Power → Power) (s : State) : (updPower f s).load = s.load := rfl
@[simp] theorem updPower_samples (f : Power → Power) (s : State) : (updPower f s).samples = s.samples := rfl
@[simp] theorem updPower_trainPending (f : Power → Power) (s : State) : (updPower f s).trainPending = s.trainPending := rfl
@[simp] theorem updPower_trainRunning (f : Power → Power) (s : State) : (updPower f s).trainRunning = s.trainRunning := rfl
@[simp] theorem updPower_pools (f : Power → Power) (s : State) : (updPower f s).pools = s.pools := rfl
@[simp] theorem updPower_censusOn (f : Power → Power) (s : State) : (updPower f s).censusOn = s.censusOn := rfl
@[simp] theorem updPower_censusRepair (f : Power → Power) (s : State) : (updPower f s).censusRepair = s.censusRepair := rfl
@[simp] theorem updPower_locks (f : Power → Power) (s : State) : (updPower f s).locks = s.locks := rfl
@[simp] theorem updPower_err (f : Power → Power) (s : State) : (updPower f s).err = s.err := rfl
@[simp] theorem updPower_fenced (f : Power → Power) (s : State) : (updPower f s).fenced = s.fenced := rfl
@[simp] theorem updPower_resetQueue (f : Power → Power) (s : State) : (updPower f s).resetQueue = s.resetQueue := rfl
@[simp] theorem updPower_gate (f : Power → Power) (s : State) : (updPower f s).gate = s.gate := rfl
@[simp] theorem updPower_mbx (f : Power → Power) (s : State) : (updPower f s).mbx = s.mbx := rfl
@[simp] theorem updPower_journal (f : Power → Power) (s : State) : (updPower f s).journal = s.journal := rfl
@[simp] theorem updPower_trellis (f : Power → Power) (s : State) : (updPower f s).trellis = s.trellis := rfl
@[simp] theorem updPower_power (f : Power → Power) (s : State) : (updPower f s).power = f s.power := rfl

@[simp] theorem updBand_pending (f : Band → Band) (s : State) : (updBand f s).pending = s.pending := rfl
@[simp] theorem updBand_idleCycles (f : Band → Band) (s : State) : (updBand f s).idleCycles = s.idleCycles := rfl
@[simp] theorem updBand_freeCount (f : Band → Band) (s : State) : (updBand f s).freeCount = s.freeCount := rfl
@[simp] theorem updBand_out (f : Band → Band) (s : State) : (updBand f s).out = s.out := rfl
@[simp] theorem updBand_band (f : Band → Band) (s : State) : (updBand f s).band = f s.band := rfl
@[simp] theorem updBand_islands (f : Band → Band) (s : State) : (updBand f s).islands = s.islands := rfl
@[simp] theorem updBand_pins (f : Band → Band) (s : State) : (updBand f s).pins = s.pins := rfl
@[simp] theorem updBand_reflexes (f : Band → Band) (s : State) : (updBand f s).reflexes = s.reflexes := rfl
@[simp] theorem updBand_score (f : Band → Band) (s : State) : (updBand f s).score = s.score := rfl
@[simp] theorem updBand_orangeries (f : Band → Band) (s : State) : (updBand f s).orangeries = s.orangeries := rfl
@[simp] theorem updBand_mem (f : Band → Band) (s : State) : (updBand f s).mem = s.mem := rfl
@[simp] theorem updBand_aviary (f : Band → Band) (s : State) : (updBand f s).aviary = s.aviary := rfl
@[simp] theorem updBand_eth (f : Band → Band) (s : State) : (updBand f s).eth = s.eth := rfl
@[simp] theorem updBand_sensors (f : Band → Band) (s : State) : (updBand f s).sensors = s.sensors := rfl
@[simp] theorem updBand_fountains (f : Band → Band) (s : State) : (updBand f s).fountains = s.fountains := rfl
@[simp] theorem updBand_topiaries (f : Band → Band) (s : State) : (updBand f s).topiaries = s.topiaries := rfl
@[simp] theorem updBand_clips (f : Band → Band) (s : State) : (updBand f s).clips = s.clips := rfl
@[simp] theorem updBand_streams (f : Band → Band) (s : State) : (updBand f s).streams = s.streams := rfl
@[simp] theorem updBand_pkg (f : Band → Band) (s : State) : (updBand f s).pkg = s.pkg := rfl
@[simp] theorem updBand_load (f : Band → Band) (s : State) : (updBand f s).load = s.load := rfl
@[simp] theorem updBand_samples (f : Band → Band) (s : State) : (updBand f s).samples = s.samples := rfl
@[simp] theorem updBand_trainPending (f : Band → Band) (s : State) : (updBand f s).trainPending = s.trainPending := rfl
@[simp] theorem updBand_trainRunning (f : Band → Band) (s : State) : (updBand f s).trainRunning = s.trainRunning := rfl
@[simp] theorem updBand_pools (f : Band → Band) (s : State) : (updBand f s).pools = s.pools := rfl
@[simp] theorem updBand_censusOn (f : Band → Band) (s : State) : (updBand f s).censusOn = s.censusOn := rfl
@[simp] theorem updBand_censusRepair (f : Band → Band) (s : State) : (updBand f s).censusRepair = s.censusRepair := rfl
@[simp] theorem updBand_locks (f : Band → Band) (s : State) : (updBand f s).locks = s.locks := rfl
@[simp] theorem updBand_err (f : Band → Band) (s : State) : (updBand f s).err = s.err := rfl
@[simp] theorem updBand_fenced (f : Band → Band) (s : State) : (updBand f s).fenced = s.fenced := rfl
@[simp] theorem updBand_resetQueue (f : Band → Band) (s : State) : (updBand f s).resetQueue = s.resetQueue := rfl
@[simp] theorem updBand_gate (f : Band → Band) (s : State) : (updBand f s).gate = s.gate := rfl
@[simp] theorem updBand_mbx (f : Band → Band) (s : State) : (updBand f s).mbx = s.mbx := rfl
@[simp] theorem updBand_journal (f : Band → Band) (s : State) : (updBand f s).journal = s.journal := rfl
@[simp] theorem updBand_trellis (f : Band → Band) (s : State) : (updBand f s).trellis = s.trellis := rfl
@[simp] theorem updBand_power (f : Band → Band) (s : State) : (updBand f s).power = s.power := rfl

@[simp] theorem emit_pending (o : Out) (s : State) : (emit o s).pending = s.pending := rfl
@[simp] theorem emit_idleCycles (o : Out) (s : State) : (emit o s).idleCycles = s.idleCycles := rfl
@[simp] theorem emit_freeCount (o : Out) (s : State) : (emit o s).freeCount = s.freeCount := rfl
@[simp] theorem emit_out (o : Out) (s : State) : (emit o s).out = s.out ++ [o] := rfl
@[simp] theorem emit_band (o : Out) (s : State) : (emit o s).band = s.band := rfl
@[simp] theorem emit_islands (o : Out) (s : State) : (emit o s).islands = s.islands := rfl
@[simp] theorem emit_pins (o : Out) (s : State) : (emit o s).pins = s.pins := rfl
@[simp] theorem emit_reflexes (o : Out) (s : State) : (emit o s).reflexes = s.reflexes := rfl
@[simp] theorem emit_score (o : Out) (s : State) : (emit o s).score = s.score := rfl
@[simp] theorem emit_orangeries (o : Out) (s : State) : (emit o s).orangeries = s.orangeries := rfl
@[simp] theorem emit_mem (o : Out) (s : State) : (emit o s).mem = s.mem := rfl
@[simp] theorem emit_aviary (o : Out) (s : State) : (emit o s).aviary = s.aviary := rfl
@[simp] theorem emit_eth (o : Out) (s : State) : (emit o s).eth = s.eth := rfl
@[simp] theorem emit_sensors (o : Out) (s : State) : (emit o s).sensors = s.sensors := rfl
@[simp] theorem emit_fountains (o : Out) (s : State) : (emit o s).fountains = s.fountains := rfl
@[simp] theorem emit_topiaries (o : Out) (s : State) : (emit o s).topiaries = s.topiaries := rfl
@[simp] theorem emit_clips (o : Out) (s : State) : (emit o s).clips = s.clips := rfl
@[simp] theorem emit_streams (o : Out) (s : State) : (emit o s).streams = s.streams := rfl
@[simp] theorem emit_pkg (o : Out) (s : State) : (emit o s).pkg = s.pkg := rfl
@[simp] theorem emit_load (o : Out) (s : State) : (emit o s).load = s.load := rfl
@[simp] theorem emit_samples (o : Out) (s : State) : (emit o s).samples = s.samples := rfl
@[simp] theorem emit_trainPending (o : Out) (s : State) : (emit o s).trainPending = s.trainPending := rfl
@[simp] theorem emit_trainRunning (o : Out) (s : State) : (emit o s).trainRunning = s.trainRunning := rfl
@[simp] theorem emit_pools (o : Out) (s : State) : (emit o s).pools = s.pools := rfl
@[simp] theorem emit_censusOn (o : Out) (s : State) : (emit o s).censusOn = s.censusOn := rfl
@[simp] theorem emit_censusRepair (o : Out) (s : State) : (emit o s).censusRepair = s.censusRepair := rfl
@[simp] theorem emit_locks (o : Out) (s : State) : (emit o s).locks = s.locks := rfl
@[simp] theorem emit_err (o : Out) (s : State) : (emit o s).err = s.err := rfl
@[simp] theorem emit_fenced (o : Out) (s : State) : (emit o s).fenced = s.fenced := rfl
@[simp] theorem emit_resetQueue (o : Out) (s : State) : (emit o s).resetQueue = s.resetQueue := rfl
@[simp] theorem emit_gate (o : Out) (s : State) : (emit o s).gate = s.gate := rfl
@[simp] theorem emit_mbx (o : Out) (s : State) : (emit o s).mbx = s.mbx := rfl
@[simp] theorem emit_journal (o : Out) (s : State) : (emit o s).journal = s.journal := rfl
@[simp] theorem emit_trellis (o : Out) (s : State) : (emit o s).trellis = s.trellis := rfl
@[simp] theorem emit_power (o : Out) (s : State) : (emit o s).power = s.power := rfl

@[simp] theorem setReg_pending (off : Nat) (v : BitVec 32) (s : State) : (setReg off v s).pending = s.pending := rfl
@[simp] theorem setReg_idleCycles (off : Nat) (v : BitVec 32) (s : State) : (setReg off v s).idleCycles = s.idleCycles := rfl
@[simp] theorem setReg_freeCount (off : Nat) (v : BitVec 32) (s : State) : (setReg off v s).freeCount = s.freeCount := rfl
@[simp] theorem setReg_out (off : Nat) (v : BitVec 32) (s : State) : (setReg off v s).out = s.out := rfl
@[simp] theorem setReg_band (off : Nat) (v : BitVec 32) (s : State) : (setReg off v s).band = s.band := rfl
@[simp] theorem setReg_islands (off : Nat) (v : BitVec 32) (s : State) : (setReg off v s).islands = s.islands := rfl
@[simp] theorem setReg_pins (off : Nat) (v : BitVec 32) (s : State) : (setReg off v s).pins = s.pins := rfl
@[simp] theorem setReg_reflexes (off : Nat) (v : BitVec 32) (s : State) : (setReg off v s).reflexes = s.reflexes := rfl
@[simp] theorem setReg_score (off : Nat) (v : BitVec 32) (s : State) : (setReg off v s).score = s.score := rfl
@[simp] theorem setReg_orangeries (off : Nat) (v : BitVec 32) (s : State) : (setReg off v s).orangeries = s.orangeries := rfl
@[simp] theorem setReg_mem (off : Nat) (v : BitVec 32) (s : State) : (setReg off v s).mem = s.mem := rfl
@[simp] theorem setReg_aviary (off : Nat) (v : BitVec 32) (s : State) : (setReg off v s).aviary = s.aviary := rfl
@[simp] theorem setReg_eth (off : Nat) (v : BitVec 32) (s : State) : (setReg off v s).eth = s.eth := rfl
@[simp] theorem setReg_sensors (off : Nat) (v : BitVec 32) (s : State) : (setReg off v s).sensors = s.sensors := rfl
@[simp] theorem setReg_fountains (off : Nat) (v : BitVec 32) (s : State) : (setReg off v s).fountains = s.fountains := rfl
@[simp] theorem setReg_topiaries (off : Nat) (v : BitVec 32) (s : State) : (setReg off v s).topiaries = s.topiaries := rfl
@[simp] theorem setReg_clips (off : Nat) (v : BitVec 32) (s : State) : (setReg off v s).clips = s.clips := rfl
@[simp] theorem setReg_streams (off : Nat) (v : BitVec 32) (s : State) : (setReg off v s).streams = s.streams := rfl
@[simp] theorem setReg_pkg (off : Nat) (v : BitVec 32) (s : State) : (setReg off v s).pkg = s.pkg := rfl
@[simp] theorem setReg_load (off : Nat) (v : BitVec 32) (s : State) : (setReg off v s).load = s.load := rfl
@[simp] theorem setReg_samples (off : Nat) (v : BitVec 32) (s : State) : (setReg off v s).samples = s.samples := rfl
@[simp] theorem setReg_trainPending (off : Nat) (v : BitVec 32) (s : State) : (setReg off v s).trainPending = s.trainPending := rfl
@[simp] theorem setReg_trainRunning (off : Nat) (v : BitVec 32) (s : State) : (setReg off v s).trainRunning = s.trainRunning := rfl
@[simp] theorem setReg_pools (off : Nat) (v : BitVec 32) (s : State) : (setReg off v s).pools = s.pools := rfl
@[simp] theorem setReg_censusOn (off : Nat) (v : BitVec 32) (s : State) : (setReg off v s).censusOn = s.censusOn := rfl
@[simp] theorem setReg_censusRepair (off : Nat) (v : BitVec 32) (s : State) : (setReg off v s).censusRepair = s.censusRepair := rfl
@[simp] theorem setReg_locks (off : Nat) (v : BitVec 32) (s : State) : (setReg off v s).locks = s.locks := rfl
@[simp] theorem setReg_err (off : Nat) (v : BitVec 32) (s : State) : (setReg off v s).err = s.err := rfl
@[simp] theorem setReg_fenced (off : Nat) (v : BitVec 32) (s : State) : (setReg off v s).fenced = s.fenced := rfl
@[simp] theorem setReg_resetQueue (off : Nat) (v : BitVec 32) (s : State) : (setReg off v s).resetQueue = s.resetQueue := rfl
@[simp] theorem setReg_mbx (off : Nat) (v : BitVec 32) (s : State) : (setReg off v s).mbx = s.mbx := rfl
@[simp] theorem setReg_journal (off : Nat) (v : BitVec 32) (s : State) : (setReg off v s).journal = s.journal := rfl
@[simp] theorem setReg_trellis (off : Nat) (v : BitVec 32) (s : State) : (setReg off v s).trellis = s.trellis := rfl
@[simp] theorem setReg_power (off : Nat) (v : BitVec 32) (s : State) : (setReg off v s).power = s.power := rfl

end Sys2Proof.Machine
end

