-- ==== Sys2Proof/Laws/Frame.lean ====
section
/-! SUPPORT. What the shared operations leave alone, said once for each: a change of causes touches the PBA, the INTA state and
what leaves the package; a log entry adds to these the log and its ring in device memory. -/

namespace Sys2Proof.Machine

theorem setPba_frame (v : Nat) (on : Bool) (s : State) :
    setPba v on s = { s with gate := { s.gate with pba := (setPba v on s).gate.pba } } := rfl

theorem sendVector_frame (v : Nat) (s : State) :
    sendVector v s = { s with gate := { s.gate with pba := (sendVector v s).gate.pba }, out := (sendVector v s).out } := by
  unfold sendVector
  split <;> rfl

theorem sendVectors_frame (vs : List Nat) (s : State) :
    sendVectors vs s = { s with gate := { s.gate with pba := (sendVectors vs s).gate.pba }, out := (sendVectors vs s).out } := by
  induction vs generalizing s with
  | nil => rfl
  | cons v vs ih =>
    show sendVectors vs (sendVector v s) = { s with
      gate := { s.gate with pba := (sendVectors vs (sendVector v s)).gate.pba }, out := (sendVectors vs (sendVector v s)).out }
    rw [ih, sendVector_frame]

theorem updateInta_frame (s : State) :
    updateInta s = { s with gate := { s.gate with inta := (updateInta s).gate.inta }, out := (updateInta s).out } := by
  unfold updateInta
  extract_lets want
  split <;> rfl

/-- A change of causes touches the PBA, the INTA state and what leaves the package, no more (R389, R390). -/
theorem causeEdges_frame (s t : State) :
    causeEdges s t = { t with
      gate := { t.gate with pba := (causeEdges s t).gate.pba, inta := (causeEdges s t).gate.inta }
      out := (causeEdges s t).out } := by
  unfold causeEdges
  extract_lets rising
  split
  · rw [sendVectors_frame]
    rfl
  · rw [updateInta_frame]
    rfl

theorem withCauses_frame (f : State → State) (s : State) :
    withCauses f s = { f s with
      gate := { (f s).gate with pba := (withCauses f s).gate.pba, inta := (withCauses f s).gate.inta }
      out := (withCauses f s).out } := causeEdges_frame s (f s)

theorem setErrStat_frame (m : BitVec 3) (s : State) :
    setErrStat m s = { s with
      err := { s.err with stat := s.err.stat ||| m }
      gate := { s.gate with pba := (setErrStat m s).gate.pba, inta := (setErrStat m s).gate.inta }
      out := (setErrStat m s).out } := withCauses_frame ..

/-- What a log entry may touch: the log, its ring in device memory with the ECC of its words, the PBA, the INTA state and what leaves the package. -/
def LogFrame (s t : State) : Prop :=
  t = { s with
    err := t.err, mem := withDevice s.mem t.mem
    gate := { s.gate with pba := t.gate.pba, inta := t.gate.inta }, out := t.out }

theorem LogFrame.refl (s : State) : LogFrame s s := rfl

theorem LogFrame.trans {s t u : State} (h : LogFrame s t) (k : LogFrame t u) : LogFrame s u := by
  unfold LogFrame at *
  rw [k, h]

theorem pushEntry_frame (bs : List Byte) (s : State) : LogFrame s (pushEntry bs s) := by
  unfold LogFrame pushEntry
  rw [setErrStat_frame]

theorem putSource_frame (x : ErrorSource) (s : State) : LogFrame s (putSource x s) := rfl

theorem pushOverflow_frame (s : State) : LogFrame s (pushOverflow s) := by
  unfold pushOverflow
  split
  · exact .refl s
  · exact .trans (t := updErr (fun e => { e with droppedEntries := 0, droppedReports := 0 }) s) rfl (pushEntry_frame ..)

theorem writeEntry_frame (r : Report) (n : Nat) (s : State) : LogFrame s (writeEntry r n s) := by
  unfold writeEntry
  extract_lets -merge -underBinder +onlyGivenNames t
  refine .trans (pushOverflow_frame s) (?_ : LogFrame t _)
  split
  · extract_lets -merge -underBinder +onlyGivenNames x u
    refine .trans (putSource_frame _ t : LogFrame t u) ?_
    unfold LogFrame
    rw [setErrStat_frame]
    rfl
  · exact pushEntry_frame ..

theorem flushSource_frame (x : ErrorSource) (s : State) : LogFrame s (flushSource x s) := by
  unfold flushSource
  split
  · split
    · exact writeEntry_frame ..
    · exact .refl s
  · exact .refl s

/-- A flush that is due touches no more (R366). -/
theorem dueFlush_frame (i u : Nat) (s : State) : LogFrame s (dueFlush i u s) := by
  unfold dueFlush
  extract_lets x
  split
  · split
    · exact (putSource_frame ..).trans (flushSource_frame ..)
    · exact .refl s
  · exact .refl s

/-- A report touches what a log entry may touch (R365 to R367). -/
theorem report_frame (r : Report) (s : State) : LogFrame s (report r s) := by
  unfold report
  extract_lets -merge -underBinder +onlyGivenNames u x y t o v
  have hu : LogFrame s u := dueFlush_frame ..
  clear_value u
  split
  · exact hu.trans (putSource_frame ..)
  · exact hu.trans (((putSource_frame ..).trans (flushSource_frame x v)).trans (writeEntry_frame ..))

theorem logErr_frame (status island unit : Nat) (s : State) (a : LogArgs) : LogFrame s (logErr status island unit s a) :=
  report_frame ..

end Sys2Proof.Machine
end

