-- ==== Sys2Proof/Laws/Kept.lean ====
section
/-! SUPPORT. `Kept p s`: the invariant of Safety.lean holds of `s`, its queue is that of the world `p`, and from the world's start
only the parts that the world allows have changed. What composes: choices, folds, outcomes, and updates of one unit. The
Kept files beside this one say once for each operation that it keeps `Kept p` in every world that allows the parts which
the operation may touch. -/

set_option Elab.async false

namespace Sys2Proof.Machine

/-- The place of a part in a mask of parts. -/
def Part.bit : Part → Nat
  | .idleCycles => 0
  | .freeCount => 1
  | .out => 2
  | .band => 3
  | .islands => 4
  | .pins => 5
  | .reflexes => 6
  | .score => 7
  | .orangeries => 8
  | .bytes => 9
  | .host => 10
  | .mem => 11
  | .aviary => 12
  | .eth => 13
  | .sensors => 14
  | .fountains => 15
  | .topiaries => 16
  | .clips => 17
  | .streams => 18
  | .pkg => 19
  | .load => 20
  | .samples => 21
  | .training => 22
  | .pools => 23
  | .census => 24
  | .locks => 25
  | .err => 26
  | .fences => 27
  | .regs => 28
  | .gate => 29
  | .mbx => 30
  | .journal => 31
  | .trellis => 32
  | .power => 33

/-- What an operation is seen in: the queue that no meaning touches, the state that it began in, and the parts that may change. -/
structure World where
  queue : List Instr
  start : State
  mask : Nat

/-- The world allows the parts of a mask to change. -/
structure Allows (p : World) (k : Nat) : Prop where
  within : k ||| p.mask = p.mask

theorem Allows.sub {p : World} {k m : Nat} (h : Allows p m) (e : k ||| m = m) : Allows p k := by
  constructor
  rw [← h.within, ← Nat.or_assoc, e]

/-- From the world's start only allowed parts have changed. -/
def Framed (p : World) (s : State) : Prop := ∀ q : Part, p.mask.testBit q.bit = false → q.unchanged p.start s

/-- The invariant, the queue and the frame. -/
structure Kept (p : World) (s : State) : Prop extends Sound s where
  queue : s.pending = p.queue
  frame : Framed p s

theorem Part.unchanged_refl (q : Part) (s : State) : q.unchanged s s := by
  cases q <;> simp only [Part.unchanged, withDevice, and_self]

theorem Part.unchanged_trans {q : Part} {s t u : State} (h : q.unchanged s t) (k : q.unchanged t u) : q.unchanged s u := by
  cases q <;> simp only [Part.unchanged] at * <;>
    first
      | exact k.trans h
      | exact ⟨k.1.trans h.1, k.2.trans h.2⟩
      | exact ⟨k.1.trans h.1, k.2.1.trans h.2.1, k.2.2.1.trans h.2.2.1, k.2.2.2.trans h.2.2.2⟩
      | exact (congrArg (fun m => { withDevice m s.mem with host := s.mem.host }) k).trans h
      | (rw [← h, ← k])

/-- A change of the parts of a mask that the world allows keeps the frame. -/
theorem framedOf {p : World} {s t : State} {k : Nat} (h : Framed p s) (al : Allows p k)
    (e : ∀ q : Part, k.testBit q.bit = false → q.unchanged s t := by
      intro q e
      cases q <;> first | rfl | exact ⟨rfl, rfl⟩ | exact ⟨rfl, rfl, rfl, rfl⟩ | exact absurd e (by decide)) : Framed p t := fun q hq =>
  Part.unchanged_trans (h q hq) (e q (by
    have := congrArg (Nat.testBit · q.bit) al.within
    simp only [Nat.testBit_or, hq, Bool.or_false] at this
    exact this))
/-- Where the keys of a changed table come from. -/
theorem mem_tabPut {α : Type} {k : Nat} {v : α} {x : Nat × α} : ∀ {t : Tab α}, x ∈ tabPut k v t → x = (k, v) ∨ x ∈ t
  | [], h => .inl (List.mem_singleton.1 h)
  | (a, w) :: t, h => by
    unfold tabPut at h
    split at h
    · rcases List.mem_cons.1 h with h | h
      · exact .inl h
      · exact .inr (List.mem_cons_of_mem _ h)
    · split at h
      · exact List.mem_cons.1 h
      · rcases List.mem_cons.1 h with h | h
        · exact .inr (h ▸ List.mem_cons_self ..)
        · exact (mem_tabPut h).imp_right (List.mem_cons_of_mem _)

theorem tabPut_rising {α : Type} {k : Nat} {v : α} : ∀ {t : Tab α}, TabRising t → TabRising (tabPut k v t)
  | [], _ => List.pairwise_singleton ..
  | (a, w) :: t, h => by
    have h := List.pairwise_cons.1 h
    unfold tabPut
    split
    · rename_i e; subst e; exact List.pairwise_cons.2 h
    · split
      · rename_i _ l
        refine List.pairwise_cons.2 ⟨fun x hx => ?_, List.pairwise_cons.2 h⟩
        rcases List.mem_cons.1 hx with hx | hx
        · exact hx ▸ l
        · exact Nat.lt_trans l (h.1 x hx)
      · refine List.pairwise_cons.2 ⟨fun x hx => ?_, tabPut_rising h.2⟩
        rcases mem_tabPut hx with hx | hx
        · subst hx; show a < k; omega
        · exact h.1 x hx

theorem tabDel_rising {α : Type} {k : Nat} : ∀ {t : Tab α}, TabRising t → TabRising (tabDel k t)
  | [], h => h
  | (a, w) :: t, h => by
    have h' := List.pairwise_cons.1 h
    unfold tabDel
    split
    · exact h'.2
    · split
      · exact h
      · refine List.pairwise_cons.2 ⟨fun x hx => h'.1 x ?_, tabDel_rising h'.2⟩
        exact tabDel_mem hx
where
  tabDel_mem {t : Tab α} {x : Nat × α} (h : x ∈ tabDel k t) : x ∈ t := by
    induction t with
    | nil => exact h
    | cons y t ih =>
      unfold tabDel at h
      split at h
      · exact List.mem_cons_of_mem _ h
      · split at h
        · exact h
        · rcases List.mem_cons.1 h with h | h
          · exact h ▸ List.mem_cons_self ..
          · exact List.mem_cons_of_mem _ (ih h)

/-- A table changed entry by entry keeps its form. -/
theorem foldl_rising {α β : Type} {f : Tab α → β → Tab α} (hf : ∀ t b, TabRising t → TabRising (f t b)) :
    ∀ {l : List β} {t : Tab α}, TabRising t → TabRising (l.foldl f t)
  | [], _, h => h
  | b :: l, t, h => foldl_rising (l := l) (t := f t b) hf (hf t b h)

/-- The invariant holds right after reset. -/
theorem State.reset_sound : Sound State.reset where
  band := ⟨by decide, by decide⟩
  islands := List.length_replicate ..
  pins := ⟨List.length_replicate .., fun x hx => by rw [List.eq_of_mem_replicate hx]; exact ⟨by decide, by decide, by decide⟩⟩
  reflexes := List.length_replicate ..
  score := ⟨List.length_replicate .., fun x hx => by rw [List.eq_of_mem_replicate hx]; exact Nat.zero_le _,
    List.length_replicate .., List.length_replicate .., List.length_replicate ..⟩
  orangeries := List.length_replicate ..
  mem := ⟨rfl, rfl, List.length_replicate ..⟩
  prompts := List.length_replicate ..
  eth := List.length_replicate ..
  sensors := List.length_replicate ..
  fountains := List.length_replicate ..
  topiaries := List.length_replicate ..
  clips := List.length_replicate ..
  streams := List.length_replicate ..
  pools := List.length_replicate ..
  locks := ⟨List.length_replicate .., fun x hx => by rw [List.eq_of_mem_replicate hx]; rfl⟩
  err := ⟨by decide, by decide⟩
  gate := ⟨List.length_replicate .., by unfold TabRising; decide, by unfold TabRising; decide⟩
  mbx := ⟨List.length_replicate .., List.length_replicate .., List.length_replicate .., by decide, by decide⟩
  links := List.length_replicate ..

/-- A next state of the outcome is sound. -/
def KeptRes (p : World) (r : Res) : Prop := ∀ t, r = .next t → Kept p t

/-- The state that an operation answers, where it answers one, is sound. -/
def KeptOpt (p : World) (r : Option State) : Prop := ∀ t, r = some t → Kept p t

/-- The state beside a value is sound. -/
def KeptSnd {α : Type} (p : World) (r : α × State) : Prop := Kept p r.2
def KeptFst {α : Type} (p : World) (r : State × α) : Prop := Kept p r.1
def KeptThd {α β : Type} (p : World) (r : α × β × State) : Prop := Kept p r.2.2

theorem kept_ite {p : World} {c : Prop} [Decidable c] {a b : State} (ha : c → Kept p a) (hb : ¬c → Kept p b) :
    Kept p (if c then a else b) := by
  by_cases h : c
  · rw [if_pos h]; exact ha h
  · rw [if_neg h]; exact hb h

theorem keptRes_ite {p : World} {c : Prop} [Decidable c] {a b : Res} (ha : c → KeptRes p a) (hb : ¬c → KeptRes p b) :
    KeptRes p (if c then a else b) := by
  by_cases h : c
  · rw [if_pos h]; exact ha h
  · rw [if_neg h]; exact hb h

theorem keptOpt_ite {p : World} {c : Prop} [Decidable c] {a b : Option State} (ha : c → KeptOpt p a)
    (hb : ¬c → KeptOpt p b) : KeptOpt p (if c then a else b) := by
  by_cases h : c
  · rw [if_pos h]; exact ha h
  · rw [if_neg h]; exact hb h

theorem keptSnd_ite {α : Type} {p : World} {c : Prop} [Decidable c] {a b : α × State} (ha : c → KeptSnd p a)
    (hb : ¬c → KeptSnd p b) : KeptSnd p (if c then a else b) := by
  by_cases h : c
  · rw [if_pos h]; exact ha h
  · rw [if_neg h]; exact hb h

theorem keptThd_ite {α β : Type} {p : World} {c : Prop} [Decidable c] {a b : α × β × State} (ha : c → KeptThd p a)
    (hb : ¬c → KeptThd p b) : KeptThd p (if c then a else b) := by
  by_cases h : c
  · rw [if_pos h]; exact ha h
  · rw [if_neg h]; exact hb h

theorem keptThd_mk {α β : Type} {p : World} {a : α} {b : β} {s : State} (h : Kept p s) : KeptThd p (a, b, s) := h

theorem keptThd_eq {α β : Type} {p : World} {r : α × β × State} {a : α} {b : β} {t : State} (h : KeptThd p r)
    (e : r = (a, b, t)) : Kept p t := by subst e; exact h

theorem keptFst_ite {α : Type} {p : World} {c : Prop} [Decidable c] {a b : State × α} (ha : c → KeptFst p a)
    (hb : ¬c → KeptFst p b) : KeptFst p (if c then a else b) := by
  by_cases h : c
  · rw [if_pos h]; exact ha h
  · rw [if_neg h]; exact hb h

theorem keptRes_next {p : World} {s : State} (h : Kept p s) : KeptRes p (.next s) := by
  intro t e; cases e; exact h

theorem keptRes_done {p : World} {s : State} (h : Kept p s) : KeptRes p (done s) := keptRes_next h

theorem keptRes_doneIf {p : World} {c : Bool} {s t : State} (ht : Kept p t) (hs : Kept p s) :
    KeptRes p (doneIf c t s) := keptRes_next (kept_ite (fun _ => ht) (fun _ => hs))

theorem keptRes_inRange {p : World} {c : Bool} {s : State} {r : Res} (h : KeptRes p r) (hs : Kept p s) :
    KeptRes p (inRange c s r) := keptRes_ite (fun _ => h) (fun _ => keptRes_done hs)

theorem keptOpt_none {p : World} : KeptOpt p none := fun _ e => nomatch e

theorem keptOpt_some {p : World} {s : State} (h : Kept p s) : KeptOpt p (some s) := by
  intro t e; cases e; exact h

theorem keptOpt_eq {p : World} {r : Option State} {t : State} (h : KeptOpt p r) (e : r = some t) : Kept p t := h t e

theorem keptOpt_getD {p : World} {r : Option State} {s : State} (h : KeptOpt p r) (hs : Kept p s) :
    Kept p (r.getD s) := by
  cases r with
  | none => exact hs
  | some t => exact h t rfl

theorem keptSnd_mk {α : Type} {p : World} {a : α} {s : State} (h : Kept p s) : KeptSnd p (a, s) := h

theorem keptSnd_eq {α : Type} {p : World} {r : α × State} {a : α} {t : State} (h : KeptSnd p r) (e : r = (a, t)) :
    Kept p t := by subst e; exact h

theorem keptFst_mk {α : Type} {p : World} {a : α} {s : State} (h : Kept p s) : KeptFst p (s, a) := h

theorem keptFst_eq {α : Type} {p : World} {r : State × α} {a : α} {t : State} (h : KeptFst p r) (e : r = (t, a)) :
    Kept p t := by subst e; exact h

theorem kept_foldl {α : Type} {p : World} {f : State → α → State} {l : List α} {s : State} (h : Kept p s)
    (hf : ∀ x s, Kept p s → Kept p (f s x)) : Kept p (l.foldl f s) := by
  induction l generalizing s with
  | nil => exact h
  | cons a l ih => exact ih (hf a s h)

theorem kept_foldl_snd {α β : Type} {p : World} {f : β × State → α → β × State} {l : List α} {b : β × State}
    (h : Kept p b.2) (hf : ∀ b x, Kept p b.2 → Kept p (f b x).2) : Kept p (l.foldl f b).2 := by
  induction l generalizing b with
  | nil => exact h
  | cons a l ih => exact ih (hf b a h)

theorem kept_foldl_fst {α β : Type} {p : World} {f : State × β → α → State × β} {l : List α} {b : State × β}
    (h : Kept p b.1) (hf : ∀ b x, Kept p b.1 → Kept p (f b x).1) : Kept p (l.foldl f b).1 := by
  induction l generalizing b with
  | nil => exact h
  | cons a l ih => exact ih (hf b a h)

/-- What every element of a list satisfies, every element satisfies after an update that keeps it. -/
theorem forall_upd {α : Type} {P : α → Prop} {l : List α} {i : Nat} {f : α → α} (h : ∀ x ∈ l, P x)
    (hf : ∀ x, P x → P (f x)) : ∀ x ∈ upd l i f, P x := by
  induction l generalizing i with
  | nil => intro x hx; cases i <;> simp [upd] at hx
  | cons a l ih =>
    intro x hx
    cases i with
    | zero =>
      rcases List.mem_cons.mp hx with e | e
      · exact e ▸ hf a (h a (List.mem_cons_self ..))
      · exact h x (List.mem_cons_of_mem _ e)
    | succ i =>
      rcases List.mem_cons.mp hx with e | e
      · exact e ▸ h a (List.mem_cons_self ..)
      · exact ih (fun y hy => h y (List.mem_cons_of_mem _ hy)) x e

theorem forall_map {α : Type} {P : α → Prop} {f : α → α} {l : List α} (h : ∀ x ∈ l, P x) (hf : ∀ x, P x → P (f x)) :
    ∀ x ∈ l.map f, P x := by
  intro x hx
  obtain ⟨y, hy, rfl⟩ := List.mem_map.mp hx
  exact hf y (h y hy)

/-- The same where only the element at the place need be kept. -/
theorem forall_upd_at {α : Type} {P : α → Prop} {l : List α} {i : Nat} {f : α → α} (h : ∀ x ∈ l, P x)
    (hf : ∀ x, l[i]? = some x → P (f x)) : ∀ x ∈ upd l i f, P x := by
  induction l generalizing i with
  | nil => intro x hx; cases i <;> simp [upd] at hx
  | cons a l ih =>
    intro x hx
    cases i with
    | zero =>
      rcases List.mem_cons.mp hx with e | e
      · exact e ▸ hf a rfl
      · exact h x (List.mem_cons_of_mem _ e)
    | succ i =>
      rcases List.mem_cons.mp hx with e | e
      · exact e ▸ h a (List.mem_cons_self ..)
      · exact ih (fun y hy => h y (List.mem_cons_of_mem _ hy)) (fun y hy => hf y (by simpa using hy)) x e

@[simp] theorem length_upd {α : Type} (l : List α) (i : Nat) (f : α → α) : (upd l i f).length = l.length :=
  List.length_modify ..

theorem emit_kept {p : World} {o : Out} {s : State} (h : Kept p s)
    (al : Allows p 4 := by refine Allows.sub ‹Allows _ _› ?_; rfl) : Kept p (emit o s) := { h with frame := framedOf h.frame al }

theorem updPin_kept {p : World} {n : Nat} {f : Pin → Pin} {s : State} (h : Kept p s)
    (hf : ∀ x, PinSound x → PinSound (f x))
    (al : autoParam (Allows p 32) emit_kept._auto_1) : Kept p (updPin n f s) :=
  { h with frame := framedOf h.frame al, pins := ⟨(length_upd ..).trans h.pins.count, forall_upd h.pins.each hf⟩ }

theorem updPin_kept_at {p : World} {n : Nat} {f : Pin → Pin} {s : State} (h : Kept p s)
    (hf : ∀ x, s.pins[n]? = some x → PinSound (f x))
    (al : autoParam (Allows p 32) emit_kept._auto_1) : Kept p (updPin n f s) :=
  { h with frame := framedOf h.frame al, pins := ⟨(length_upd ..).trans h.pins.count, forall_upd_at h.pins.each hf⟩ }

theorem updReflex_kept {p : World} {n : Nat} {f : Reflex → Reflex} {s : State} (h : Kept p s)
    (al : autoParam (Allows p 64) emit_kept._auto_1) :
    Kept p (updReflex n f s) := { h with frame := framedOf h.frame al, reflexes := (length_upd ..).trans h.reflexes }

theorem updIsland_kept {p : World} {n : Nat} {f : Island → Island} {s : State} (h : Kept p s)
    (al : autoParam (Allows p 16) emit_kept._auto_1) :
    Kept p (updIsland n f s) := { h with frame := framedOf h.frame al, islands := (length_upd ..).trans h.islands }

theorem updScore_kept {p : World} {f : Score → Score} {s : State} (h : Kept p s)
    (hf : ∀ c, ScoreSound c → ScoreSound (f c))
    (al : autoParam (Allows p 128) emit_kept._auto_1) : Kept p (updScore f s) := { h with frame := framedOf h.frame al, score := hf _ h.score }

theorem updLane_kept {p : World} {k : Nat} {f : Lane → Lane} {s : State} (h : Kept p s)
    (hf : ∀ x, LaneSound x → LaneSound (f x))
    (al : autoParam (Allows p 128) emit_kept._auto_1) : Kept p (updLane k f s) :=
  updScore_kept h fun _ c => { c with lanes := (length_upd ..).trans c.lanes, each := forall_upd c.each hf }

theorem updLane_kept_at {p : World} {k : Nat} {f : Lane → Lane} {s : State} (h : Kept p s)
    (hf : ∀ x, s.score.lanes[k]? = some x → LaneSound (f x))
    (al : autoParam (Allows p 128) emit_kept._auto_1) : Kept p (updLane k f s) :=
  { h with frame := framedOf h.frame al, score := { h.score with lanes := (length_upd ..).trans h.score.lanes, each := forall_upd_at h.score.each hf } }

theorem updClaim_kept {p : World} {k : Nat} {f : Claim → Claim} {s : State} (h : Kept p s)
    (al : autoParam (Allows p 128) emit_kept._auto_1) : Kept p (updClaim k f s) :=
  updScore_kept h fun _ c => { c with claims := (length_upd ..).trans c.claims }

theorem updBatchId_kept {p : World} {k : Nat} {f : BatchId → BatchId} {s : State} (h : Kept p s)
    (al : autoParam (Allows p 128) emit_kept._auto_1) :
    Kept p (updBatchId k f s) := updScore_kept h fun _ c => { c with batches := (length_upd ..).trans c.batches }

theorem updOrangery_kept {p : World} {k : Nat} {f : Orangery → Orangery} {s : State} (h : Kept p s)
    (al : autoParam (Allows p 256) emit_kept._auto_1) :
    Kept p (updOrangery k f s) := { h with frame := framedOf h.frame al, orangeries := (length_upd ..).trans h.orangeries }

/-- An update of the memory system beside device and host memory. -/
theorem updMem_kept {p : World} {f : Mem → Mem} {s : State} (h : Kept p s) (hf : ∀ m, MemSound m → MemSound (f m))
    (e : ∀ m, withDevice (f m) m = f m ∧ (f m).host = m.host := by
      intro m
      (repeat' split) <;> exact ⟨rfl, rfl⟩)
    (al : autoParam (Allows p 2048) emit_kept._auto_1) : Kept p (updMem f s) :=
  { h with
    mem := hf _ h.mem
    frame := framedOf h.frame al fun q x => by
      have d := (e s.mem).1
      cases q <;> first
        | rfl
        | exact ⟨rfl, rfl⟩
        | exact (e _).2
        | exact ⟨(congrArg Mem.bytes d).symm, (congrArg Mem.sramPoison d).symm, (congrArg Mem.ue d).symm,
            (congrArg Mem.sbe d).symm⟩
        | exact absurd x (by decide) }

/-- An update of the memory system that leaves host memory alone. -/
theorem updDevice_kept {p : World} {f : Mem → Mem} {s : State} (h : Kept p s) (hf : ∀ m, MemSound m → MemSound (f m))
    (e : ∀ m, (f m).host = m.host := by intro m; (repeat' split) <;> rfl)
    (al : autoParam (Allows p 2560) emit_kept._auto_1) : Kept p (updMem f s) :=
  { h with
    mem := hf _ h.mem
    frame := framedOf h.frame al fun q x => by
      cases q <;> first | rfl | exact ⟨rfl, rfl⟩ | exact e _ | exact absurd x (by decide) }

/-- An update of all of the memory system. -/
theorem updMemAll_kept {p : World} {f : Mem → Mem} {s : State} (h : Kept p s) (hf : ∀ m, MemSound m → MemSound (f m))
    (al : autoParam (Allows p 3584) emit_kept._auto_1) : Kept p (updMem f s) :=
  { h with frame := framedOf h.frame al, mem := hf _ h.mem }

/-- An update of device memory alone. -/
theorem updBytes_kept {p : World} {f : Mem → Mem} {s : State} (h : Kept p s) (hf : ∀ m, MemSound m → MemSound (f m))
    (e : ∀ m, withDevice (f m) m = m := by intro m; rfl)
    (al : autoParam (Allows p 512) emit_kept._auto_1) : Kept p (updMem f s) :=
  { h with
    mem := hf _ h.mem
    frame := framedOf h.frame al fun q x => by
      have e := e s.mem
      have k : (f s.mem).host = s.mem.host := (congrArg Mem.host e : _)
      cases q <;> first
        | rfl
        | exact ⟨rfl, rfl⟩
        | exact k
        | exact absurd x (by decide)
        | (show { withDevice (f s.mem) s.mem with host := s.mem.host } = s.mem; rw [e]) }

/-- An update of host memory alone. -/
theorem updHost_kept {p : World} {f : Mem → Mem} {s : State} (h : Kept p s) (hf : ∀ m, MemSound m → MemSound (f m))
    (e : ∀ m, { f m with host := m.host } = m := by intro m; rfl)
    (al : autoParam (Allows p 1024) emit_kept._auto_1) : Kept p (updMem f s) :=
  { h with
    mem := hf _ h.mem
    frame := framedOf h.frame al fun q x => by
      have e := e s.mem
      cases q <;> first
        | rfl
        | exact ⟨rfl, rfl⟩
        | exact absurd x (by decide)
        | exact ⟨(congrArg Mem.bytes e : _), (congrArg Mem.sramPoison e : _), (congrArg Mem.ue e : _), (congrArg Mem.sbe e : _)⟩
        | (show withDevice { f s.mem with host := s.mem.host } s.mem = s.mem; rw [e]) }

theorem updChan_kept {p : World} {k : Nat} {f : Channel → Channel} {s : State} (h : Kept p s)
    (al : autoParam (Allows p 2048) emit_kept._auto_1) : Kept p (updChan k f s) :=
  updMem_kept h fun _ m => { m with chans := (length_upd ..).trans m.chans }

theorem updAviary_kept {p : World} {f : Aviary → Aviary} {s : State} (h : Kept p s)
    (hf : ∀ a, a.prompts.length = 64 → (f a).prompts.length = 64)
    (al : autoParam (Allows p 4096) emit_kept._auto_1) : Kept p (updAviary f s) :=
  { h with frame := framedOf h.frame al, prompts := hf _ h.prompts }

theorem updEth_kept {p : World} {k : Nat} {f : EthPort → EthPort} {s : State} (h : Kept p s)
    (al : autoParam (Allows p 8192) emit_kept._auto_1) : Kept p (updEth k f s) :=
  { h with frame := framedOf h.frame al, eth := (length_upd ..).trans h.eth }

theorem updSensor_kept {p : World} {k : Nat} {f : SensorPort → SensorPort} {s : State} (h : Kept p s)
    (al : autoParam (Allows p 16384) emit_kept._auto_1) :
    Kept p (updSensor k f s) := { h with frame := framedOf h.frame al, sensors := (length_upd ..).trans h.sensors }

theorem updFountain_kept {p : World} {k : Nat} {f : Fountain → Fountain} {s : State} (h : Kept p s)
    (al : autoParam (Allows p 32768) emit_kept._auto_1) :
    Kept p (updFountain k f s) := { h with frame := framedOf h.frame al, fountains := (length_upd ..).trans h.fountains }

theorem updTopiary_kept {p : World} {k : Nat} {f : Topiary → Topiary} {s : State} (h : Kept p s)
    (al : autoParam (Allows p 65536) emit_kept._auto_1) :
    Kept p (updTopiary k f s) := { h with frame := framedOf h.frame al, topiaries := (length_upd ..).trans h.topiaries }

theorem updPool_kept {p : World} {k : Nat} {f : Pool → Pool} {s : State} (h : Kept p s)
    (al : autoParam (Allows p 8388608) emit_kept._auto_1) : Kept p (updPool k f s) :=
  { h with frame := framedOf h.frame al, pools := (length_upd ..).trans h.pools }

theorem updLock_kept {p : World} {k : Nat} {f : Lock → Lock} {s : State} (h : Kept p s)
    (hf : ∀ x, lockSound x = true → lockSound (f x) = true)
    (al : autoParam (Allows p 33554432) emit_kept._auto_1) : Kept p (updLock k f s) :=
  { h with frame := framedOf h.frame al, locks := ⟨(length_upd ..).trans h.locks.count, forall_upd h.locks.each hf⟩ }

theorem updGate_kept {p : World} {f : Gate → Gate} {s : State} (h : Kept p s)
    (hf : ∀ g, GateSound g → GateSound (f g))
    (e : ∀ g, (f g).regs = g.regs := by intro g; (repeat' split) <;> rfl)
    (al : autoParam (Allows p 536870912) emit_kept._auto_1) : Kept p (updGate f s) :=
  { h with
    gate := hf _ h.gate
    frame := framedOf h.frame al fun q x => by
      cases q <;> first | rfl | exact ⟨rfl, rfl⟩ | exact ⟨rfl, rfl, rfl, rfl⟩ | exact e _ | exact absurd x (by decide) }

/-- An update of the Gatehouse and its registers. -/
theorem updGateAll_kept {p : World} {f : Gate → Gate} {s : State} (h : Kept p s)
    (hf : ∀ g, GateSound g → GateSound (f g))
    (al : autoParam (Allows p 805306368) emit_kept._auto_1) : Kept p (updGate f s) :=
  { h with frame := framedOf h.frame al, gate := hf _ h.gate }

theorem updMbx_kept {p : World} {f : Mailbox → Mailbox} {s : State} (h : Kept p s)
    (hf : ∀ m, MbxSound m → MbxSound (f m))
    (al : autoParam (Allows p 1073741824) emit_kept._auto_1) : Kept p (updMbx f s) := { h with frame := framedOf h.frame al, mbx := hf _ h.mbx }

theorem updTrellis_kept {p : World} {f : Trellis → Trellis} {s : State} (h : Kept p s)
    (hf : ∀ t, t.links.length = 5 → (f t).links.length = 5)
    (al : autoParam (Allows p 4294967296) emit_kept._auto_1) : Kept p (updTrellis f s) := { h with frame := framedOf h.frame al, links := hf _ h.links }

theorem updLink_kept {p : World} {k : Nat} {f : Link → Link} {s : State} (h : Kept p s)
    (al : autoParam (Allows p 4294967296) emit_kept._auto_1) : Kept p (updLink k f s) :=
  updTrellis_kept h fun _ t => (length_upd ..).trans t

theorem updPower_kept {p : World} {f : Power → Power} {s : State} (h : Kept p s)
    (al : autoParam (Allows p 8589934592) emit_kept._auto_1) : Kept p (updPower f s) := { h with frame := framedOf h.frame al }

theorem updBand_kept {p : World} {f : Band → Band} {s : State} (h : Kept p s) (hf : ∀ b, BandSound b → BandSound (f b))
    (al : autoParam (Allows p 8) emit_kept._auto_1) :
    Kept p (updBand f s) := { h with frame := framedOf h.frame al, band := hf _ h.band }

theorem updErr_kept {p : World} {f : ErrLog → ErrLog} {s : State} (h : Kept p s) (hf : ∀ e, LogSound e → LogSound (f e))
    (al : autoParam (Allows p 67108864) emit_kept._auto_1) :
    Kept p (updErr f s) := { h with frame := framedOf h.frame al, err := hf _ h.err }

theorem updStream_kept {p : World} {n : Nat} {f : Stream → Stream} {s : State} (h : Kept p s)
    (al : autoParam (Allows p 262144) emit_kept._auto_1) :
    Kept p (updStream n f s) := { h with frame := framedOf h.frame al, streams := (length_upd ..).trans h.streams }

theorem updClip_kept {p : World} {n : Nat} {f : Clip → Clip} {s : State} (h : Kept p s)
    (al : autoParam (Allows p 131072) emit_kept._auto_1) : Kept p (updClip n f s) :=
  { h with frame := framedOf h.frame al, clips := (length_upd ..).trans h.clips }

/-- The canonical form of a memory with a first entry. -/
theorem memWfFrom_cons {lo : Option Nat} {a : Nat} {b : Byte} {m : Memory} :
    memWfFrom lo ((a, b) :: m) = true ↔ (∀ l, lo = some l → l < a) ∧ b ≠ 0 ∧ memWfFrom (some a) m = true := by
  cases lo <;> simp only [memWfFrom, Bool.and_eq_true, bne_iff_ne, decide_eq_true_eq, and_assoc, true_and] <;>
    simp [ne_eq]

theorem memWfFrom_del {lo : Option Nat} {k : Nat} {m : Memory} (h : memWfFrom lo m = true) :
    memWfFrom lo (tabDel k m) = true := by
  induction m generalizing lo with
  | nil => exact h
  | cons c m ih =>
    obtain ⟨a, b⟩ := c
    obtain ⟨hlo, hb, hm⟩ := memWfFrom_cons.mp h
    unfold tabDel
    split
    · cases m with
      | nil => rfl
      | cons d m =>
        obtain ⟨h1, h2, h3⟩ := memWfFrom_cons.mp hm
        exact memWfFrom_cons.mpr ⟨fun l e => Nat.lt_trans (hlo l e) (h1 _ rfl), h2, h3⟩
    · split
      · exact h
      · exact memWfFrom_cons.mpr ⟨hlo, hb, ih hm⟩

theorem memWfFrom_put {lo : Option Nat} {k : Nat} {v : Byte} {m : Memory} (hv : v ≠ 0)
    (hk : ∀ l, lo = some l → l < k) (h : memWfFrom lo m = true) : memWfFrom lo (tabPut k v m) = true := by
  induction m generalizing lo with
  | nil => exact memWfFrom_cons.mpr ⟨hk, hv, rfl⟩
  | cons c m ih =>
    obtain ⟨a, b⟩ := c
    obtain ⟨ha, hb, hm⟩ := memWfFrom_cons.mp h
    unfold tabPut
    split
    · rename_i e
      subst e
      exact memWfFrom_cons.mpr ⟨hk, hv, hm⟩
    · split
      · rename_i e
        exact memWfFrom_cons.mpr ⟨hk, hv, memWfFrom_cons.mpr ⟨fun l q => by cases q; exact e, hb, hm⟩⟩
      · rename_i e1 e2
        exact memWfFrom_cons.mpr ⟨ha, hb, ih (fun l e => by cases e; omega) hm⟩

theorem memWf_put {a : Nat} {b : Byte} {m : Memory} (h : memWf m = true) : memWf (memPut a b m) = true := by
  unfold memPut
  split
  · exact memWfFrom_del h
  · exact memWfFrom_put ‹_› (fun _ e => nomatch e) h

theorem memWf_write {a : Nat} {bs : List Byte} {m : Memory} (h : memWf m = true) : memWf (memWrite a bs m) = true := by
  induction bs generalizing a m with
  | nil => exact h
  | cons b bs ih => exact ih (memWf_put h)

theorem memWf_foldl {α : Type} {f : α → Nat × Byte} {l : List α} {m : Memory} (h : memWf m = true) :
    memWf (l.foldl (fun m x => memPut (f x).1 (f x).2 m) m) = true := by
  induction l generalizing m with
  | nil => exact h
  | cons a l ih => exact ih (memWf_put h)

end Sys2Proof.Machine
end

