-- ==== Sys2Proof/Laws/KeptFlags.lean ====
section
/-! SUPPORT. Every operation of Machine/Flags.lean keeps the invariant of Safety.lean, leaves the
queue alone and changes no part outside those that the world `p` allows. -/

set_option Elab.async false

namespace Sys2Proof.Machine

theorem setReg_kept {p a0 a1 s} (h : Kept p s)
    (al : autoParam (Allows p 268435456) emit_kept._auto_1) : Kept p (setReg a0 a1 s) := by
  unfold setReg
  refine { h with gate := { h.gate with regs := ?_ }, frame := framedOf (h).frame al }
  show TabRising (if _ then _ else _)
  split
  · exact tabDel_rising h.gate.regs
  · exact tabPut_rising h.gate.regs

theorem orReg_kept {p a0 a1 s} (h : Kept p s)
    (al : autoParam (Allows p 268435456) emit_kept._auto_1) : Kept p (orReg a0 a1 s) := by
  unfold orReg
  exact (setReg_kept h)

theorem clrReg_kept {p a0 a1 s} (h : Kept p s)
    (al : autoParam (Allows p 268435456) emit_kept._auto_1) : Kept p (clrReg a0 a1 s) := by
  unfold clrReg
  exact (setReg_kept h)

theorem setPba_kept {p a0 a1 s} (h : Kept p s)
    (al : autoParam (Allows p 536870912) emit_kept._auto_1) : Kept p (setPba a0 a1 s) := by
  unfold setPba
  extract_lets -merge -underBinder +onlyGivenNames x0
  try clear_value x0
  exact { h with gate := { h.gate with }, frame := framedOf (h).frame al }

theorem sendVector_kept {p a0 s} (h : Kept p s)
    (al : autoParam (Allows p 536870916) emit_kept._auto_1) : Kept p (sendVector a0 s) := by
  unfold sendVector
  refine kept_ite (fun _ => ?_) (fun _ => ?_)
  · exact (setPba_kept h)
  · extract_lets -merge -underBinder +onlyGivenNames x0
    try clear_value x0
    exact (emit_kept (setPba_kept h))

theorem sendVectors_kept {p vs s} (h : Kept p s)
    (al : autoParam (Allows p 536870916) emit_kept._auto_1) : Kept p (sendVectors vs s) := by
  induction vs generalizing s with
  | nil => exact h
  | cons v vs ih => exact ih (sendVector_kept h)

theorem prunePba_kept {p s} (h : Kept p s)
    (al : autoParam (Allows p 536870912) emit_kept._auto_1) : Kept p (prunePba s) := by
  unfold prunePba
  extract_lets -merge -underBinder +onlyGivenNames x0
  try clear_value x0
  exact { h with gate := { h.gate with }, frame := framedOf (h).frame al }

theorem updateInta_kept {p s} (h : Kept p s)
    (al : autoParam (Allows p 536870916) emit_kept._auto_1) : Kept p (updateInta s) := by
  unfold updateInta
  extract_lets -merge -underBinder +onlyGivenNames x0
  try clear_value x0
  refine kept_ite (fun _ => ?_) (fun _ => ?_)
  · exact h
  · refine emit_kept ?_
    exact { h with gate := { h.gate with }, frame := framedOf (h).frame al }

theorem causeEdges_kept {p s s0} (h : Kept p s0)
    (al : autoParam (Allows p 536870916) emit_kept._auto_1) : Kept p (causeEdges s s0) := by
  unfold causeEdges
  try dsimp only
  repeat' first
    | with_reducible assumption
    | exact Allows.sub al rfl
    | with_reducible refine sendVectors_kept ?_ ?_
    | with_reducible refine prunePba_kept ?_ ?_
    | with_reducible refine updateInta_kept ?_ ?_
    | with_reducible refine kept_ite (fun _ => ?_) (fun _ => ?_)
    | split

theorem withCauses_kept {p a0 s} (h : Kept p s) (ga0 : ∀  s, Kept p s → Kept p (a0  s))
    (al : autoParam (Allows p 536870916) emit_kept._auto_1) : Kept p (withCauses a0 s) := by
  unfold withCauses
  try dsimp only
  repeat' first
    | with_reducible assumption
    | exact Allows.sub al rfl
    | with_reducible refine ga0 _ ?_
    | exact ga0
    | with_reducible refine causeEdges_kept ?_ ?_
    | split

theorem releasePba_kept {p s} (h : Kept p s)
    (al : autoParam (Allows p 536870916) emit_kept._auto_1) : Kept p (releasePba s) := by
  unfold releasePba
  try dsimp only
  repeat' first
    | with_reducible assumption
    | exact Allows.sub al rfl
    | with_reducible refine prunePba_kept ?_ ?_
    | with_reducible refine sendVectors_kept ?_ ?_
    | with_reducible refine kept_ite (fun _ => ?_) (fun _ => ?_)
    | split

theorem resendCauses_kept {p s} (h : Kept p s)
    (al : autoParam (Allows p 536870916) emit_kept._auto_1) : Kept p (resendCauses s) := by
  unfold resendCauses
  try dsimp only
  repeat' first
    | with_reducible assumption
    | exact Allows.sub al rfl
    | with_reducible refine sendVectors_kept ?_ ?_
    | with_reducible refine prunePba_kept ?_ ?_
    | with_reducible refine updateInta_kept ?_ ?_
    | with_reducible refine kept_ite (fun _ => ?_) (fun _ => ?_)
    | split

theorem setCq_kept {p s} (h : Kept p s)
    (al : autoParam (Allows p 805306372) emit_kept._auto_1) : Kept p (setCq s) := by
  unfold setCq
  exact (withCauses_kept h (fun _ k0 => (orReg_kept k0)))

theorem setPwr_kept {p s} (h : Kept p s)
    (al : autoParam (Allows p 805306372) emit_kept._auto_1) : Kept p (setPwr s) := by
  unfold setPwr
  exact (withCauses_kept h (fun _ k0 => (orReg_kept k0)))

theorem setDr_kept {p a0 s} (h : Kept p s)
    (al : autoParam (Allows p 805306372) emit_kept._auto_1) : Kept p (setDr a0 s) := by
  unfold setDr
  exact (withCauses_kept h (fun _ k0 => (orReg_kept k0)))

theorem setErrStat_kept {p a0 s} (h : Kept p s)
    (al : autoParam (Allows p 603979780) emit_kept._auto_1) : Kept p (setErrStat a0 s) := by
  unfold setErrStat
  refine withCauses_kept h (fun s2 k2 => ?_)
  · try beta_reduce
    exact { k2 with err := { k2.err with }, frame := framedOf (k2).frame al }

theorem setTimStat_kept {p a0 s} (h : Kept p s)
    (al : autoParam (Allows p 805306372) emit_kept._auto_1) : Kept p (setTimStat a0 s) := by
  unfold setTimStat
  exact (withCauses_kept h (fun _ k0 => (orReg_kept k0)))

end Sys2Proof.Machine
end

