-- ==== Sys2Proof/Laws/KeptOps.lean ====
section
/-! SUPPORT. Every operation of Machine/Ops.lean keeps the invariant of Safety.lean, leaves the
queue alone and changes no part outside those that the world `p` allows. -/

set_option Elab.async false

namespace Sys2Proof.Machine

theorem freeBits_kept {p a0 s} (h : Kept p s)
    (al : autoParam (Allows p 2) emit_kept._auto_1) : KeptSnd p (freeBits a0 s) := by
  unfold freeBits
  refine keptSnd_mk ?_
  exact { h with frame := framedOf (h).frame al }

theorem freeBytes_kept {p a0 s} (h : Kept p s)
    (al : autoParam (Allows p 2) emit_kept._auto_1) : KeptSnd p (freeBytes a0 s) := by
  unfold freeBytes
  refine keptSnd_mk ?_
  exact { h with frame := framedOf (h).frame al }

theorem freeNat_kept {p s} (h : Kept p s)
    (al : autoParam (Allows p 2) emit_kept._auto_1) : KeptSnd p (freeNat s) := by
  unfold freeNat
  refine keptSnd_mk ?_
  exact { h with frame := framedOf (h).frame al }

theorem putSource_kept {p x s} (h : Kept p s)
    (al : autoParam (Allows p 67108864) emit_kept._auto_1) : Kept p (putSource x s) :=
  updErr_kept h fun e he => by
    constructor <;> split <;> first | exact he.tail | exact he.used

/-- An entry is written only where the ring has room. -/
theorem pushEntry_kept {p bs s} (h : Kept p s) (room : logUsed s.err < 1024)
    (al : autoParam (Allows p 603980292) emit_kept._auto_1) : Kept p (pushEntry bs s) := by
  unfold pushEntry
  extract_lets -merge -underBinder +onlyGivenNames a other m e t
  refine setErrStat_kept (s := t) (p := p) { h with frame := framedOf h.frame al, mem := ⟨memWf_write h.mem.bytes, h.mem.host, h.mem.chans⟩, err := ⟨h.err.tail, ?_⟩ }
  have := h.err.tail
  change ((s.err.head + 1) % 2 ^ 32 + 2 ^ 32 - s.err.tail) % 2 ^ 32 ≤ 1024
  simp only [logUsed] at room
  omega

theorem pushOverflow_kept {p s} (h : Kept p s)
    (al : autoParam (Allows p 603980292) emit_kept._auto_1) : Kept p (pushOverflow s) := by
  unfold pushOverflow
  refine kept_ite (fun _ => h) (fun c => ?_)
  have hu := h.err.used
  simp only [Bool.or_eq_true, decide_eq_true_eq, beq_iff_eq, not_or] at c
  exact pushEntry_kept (updErr_kept h (fun _ h => { h with })) (by show logUsed s.err < 1024; omega)

theorem writeEntry_kept {p r n s} (h : Kept p s)
    (al : autoParam (Allows p 603980292) emit_kept._auto_1) : Kept p (writeEntry r n s) := by
  unfold writeEntry
  extract_lets +onlyGivenNames x0
  have h0 : Kept p x0 := (pushOverflow_kept h)
  clear_value x0
  refine kept_ite (fun _ => ?_) (fun c => ?_)
  · exact setErrStat_kept (updErr_kept (putSource_kept h0) (fun _ h => { h with }))
  · exact pushEntry_kept h0 (by have := h0.err.used; omega)

theorem flushSource_kept {p a0 s} (h : Kept p s)
    (al : autoParam (Allows p 603980292) emit_kept._auto_1) : Kept p (flushSource a0 s) := by
  unfold flushSource
  split
  · refine kept_ite (fun _ => ?_) (fun _ => ?_)
    · exact (writeEntry_kept h)
    · exact h
  · exact h

theorem dueFlush_kept {p a0 a1 s} (h : Kept p s)
    (al : autoParam (Allows p 603980292) emit_kept._auto_1) : Kept p (dueFlush a0 a1 s) := by
  unfold dueFlush
  try dsimp only
  repeat' first
    | with_reducible assumption
    | exact Allows.sub al rfl
    | with_reducible refine flushSource_kept ?_ ?_
    | with_reducible refine putSource_kept ?_ ?_
    | with_reducible refine kept_ite (fun _ => ?_) (fun _ => ?_)
    | split

theorem report_kept {p a0 s} (h : Kept p s)
    (al : autoParam (Allows p 603980292) emit_kept._auto_1) : Kept p (report a0 s) := by
  unfold report
  try dsimp only
  repeat' first
    | with_reducible assumption
    | exact Allows.sub al rfl
    | with_reducible refine dueFlush_kept ?_ ?_
    | with_reducible refine putSource_kept ?_ ?_
    | with_reducible refine writeEntry_kept ?_ ?_
    | with_reducible refine flushSource_kept ?_ ?_
    | with_reducible refine kept_ite (fun _ => ?_) (fun _ => ?_)
    | split

theorem logErr_kept {p a0 a1 a2 s a3} (h : Kept p s)
    (al : autoParam (Allows p 603980292) emit_kept._auto_1) : Kept p (logErr a0 a1 a2 s a3) := by
  unfold logErr
  exact (report_kept h)

theorem emitPin_kept {p a0 s} (h : Kept p s)
    (al : autoParam (Allows p 4) emit_kept._auto_1) : Kept p (emitPin a0 s) := by
  unfold emitPin
  try dsimp only
  repeat' first
    | with_reducible assumption
    | exact Allows.sub al rfl
    | with_reducible refine emit_kept ?_ ?_
    | with_reducible refine kept_ite (fun _ => ?_) (fun _ => ?_)
    | split

theorem flashWrite_kept {p a0 a1 s} (h : Kept p s)
    (al : autoParam (Allows p 4) emit_kept._auto_1) : Kept p (flashWrite a0 a1 s) := by
  unfold flashWrite
  try dsimp only
  repeat' first
    | with_reducible assumption
    | exact Allows.sub al rfl
    | with_reducible refine emitPin_kept ?_ ?_
    | split

theorem saveLedger_kept {p s} (h : Kept p s)
    (al : autoParam (Allows p 8589934596) emit_kept._auto_1) : Kept p (saveLedger s) := by
  unfold saveLedger
  try dsimp only
  repeat' first
    | with_reducible assumption
    | exact Allows.sub al rfl
    | with_reducible refine flashWrite_kept ?_ ?_
    | with_reducible refine updPower_kept ?_ ?_
    | with_reducible refine kept_ite (fun _ => ?_) (fun _ => ?_)
    | split

theorem wakeIsland_kept {p a0 s} (h : Kept p s)
    (al : autoParam (Allows p 16) emit_kept._auto_1) : Kept p (wakeIsland a0 s) := by
  unfold wakeIsland
  try dsimp only
  repeat' first
    | with_reducible assumption
    | exact Allows.sub al rfl
    | with_reducible refine updIsland_kept ?_ ?_
    | with_reducible refine kept_ite (fun _ => ?_) (fun _ => ?_)
    | split

theorem noteAer_kept {p a0 s} (h : Kept p s)
    (al : autoParam (Allows p 536870912) emit_kept._auto_1) : Kept p (noteAer a0 s) := by
  unfold noteAer
  try dsimp only
  repeat' first
    | with_reducible assumption
    | exact Allows.sub al rfl
    | exact fun _ h => h
    | exact fun _ h => { h with }
    | exact fun _ => rfl
    | exact fun _ => ⟨rfl, rfl⟩
    | with_reducible refine updGate_kept ?_ ?_ ?_ ?_
    | split

theorem sendError_kept {p a0 s} (h : Kept p s)
    (al : autoParam (Allows p 4) emit_kept._auto_1) : Kept p (sendError a0 s) := by
  unfold sendError
  try dsimp only
  repeat' first
    | with_reducible assumption
    | exact Allows.sub al rfl
    | with_reducible refine emit_kept ?_ ?_
    | with_reducible refine kept_ite (fun _ => ?_) (fun _ => ?_)
    | split

theorem setAer_kept {p a0 s} (h : Kept p s)
    (al : autoParam (Allows p 536870916) emit_kept._auto_1) : Kept p (setAer a0 s) := by
  unfold setAer
  try dsimp only
  repeat' first
    | with_reducible assumption
    | exact Allows.sub al rfl
    | with_reducible refine noteAer_kept ?_ ?_
    | with_reducible refine sendError_kept ?_ ?_
    | with_reducible refine kept_ite (fun _ => ?_) (fun _ => ?_)
    | split

theorem setAdvisory_kept {p a0 s} (h : Kept p s)
    (al : autoParam (Allows p 536870916) emit_kept._auto_1) : Kept p (setAdvisory a0 s) := by
  unfold setAdvisory
  try dsimp only
  repeat' first
    | with_reducible assumption
    | exact Allows.sub al rfl
    | with_reducible refine setAer_kept ?_ ?_
    | with_reducible refine noteAer_kept ?_ ?_
    | with_reducible refine kept_ite (fun _ => ?_) (fun _ => ?_)
    | split

theorem badRequest_kept {p a0 s} (h : Kept p s)
    (al : autoParam (Allows p 603980292) emit_kept._auto_1) : Kept p (badRequest a0 s) := by
  unfold badRequest
  try dsimp only
  repeat' first
    | with_reducible assumption
    | exact Allows.sub al rfl
    | with_reducible refine setAer_kept ?_ ?_
    | with_reducible refine logErr_kept ?_ ?_
    | split

theorem hostWrites_kept {p a0 a1 s} (h : Kept p s) (ga1 : ∀ s, Kept p s → Kept p (a1 s))
    (al : autoParam (Allows p 603980292) emit_kept._auto_1) : Kept p (hostWrites a0 a1 s) := by
  unfold hostWrites
  refine kept_ite (fun _ => ?_) (fun _ => ?_)
  · exact h
  · refine kept_ite (fun _ => ?_) (fun _ => ?_)
    · exact (badRequest_kept h)
    · refine kept_ite (fun _ => ?_) (fun _ => ?_)
      · exact h
      · exact (ga1 _ h)

theorem hostReads_kept {p a0 a1 a2 s} (h : Kept p s) (ga2 : ∀ s, Kept p s → KeptSnd p (a2 s))
    (al : autoParam (Allows p 603980292) emit_kept._auto_1) : Kept p (hostReads a0 a1 a2 s) := by
  unfold hostReads
  refine kept_ite (fun _ => ?_) (fun _ => ?_)
  · exact h
  · refine kept_ite (fun _ => ?_) (fun _ => ?_)
    · exact (emit_kept (badRequest_kept h))
    · refine kept_ite (fun _ => ?_) (fun _ => ?_)
      · exact (emit_kept h)
      · split
        · rename_i e0
          have h0 := keptSnd_eq (ga2 _ h) e0
          exact (emit_kept h0)

theorem updBatch_kept {p a0 a1 a2 s} (h : Kept p s)
    (al : autoParam (Allows p 128) emit_kept._auto_1) : Kept p (updBatch a0 a1 a2 s) := by
  unfold updBatch
  exact (updBatchId_kept h)

end Sys2Proof.Machine
end

