-- ==== Sys2Proof/Laws/KeptCache.lean ====
section
/-! SUPPORT. Every operation of Machine/Cache.lean keeps the invariant of Safety.lean, leaves the
queue alone and changes no part outside those that the world `p` allows. -/

set_option Elab.async false

namespace Sys2Proof.Machine

theorem setCause_kept {p a0 s} (h : Kept p s)
    (al : autoParam (Allows p 2048) emit_kept._auto_1) : Kept p (setCause a0 s) := by
  unfold setCause
  try dsimp only
  repeat' first
    | with_reducible assumption
    | exact Allows.sub al rfl
    | exact fun _ h => h
    | exact fun _ h => { h with }
    | exact fun _ => rfl
    | exact fun _ => ⟨rfl, rfl⟩
    | with_reducible refine updMem_kept ?_ ?_ (fun _ => ⟨rfl, rfl⟩) ?_
    | split

theorem noteCause_kept {p a0 s} (h : Kept p s)
    (al : autoParam (Allows p 2048) emit_kept._auto_1) : Kept p (noteCause a0 s) := by
  unfold noteCause
  try dsimp only
  repeat' first
    | with_reducible assumption
    | exact Allows.sub al rfl
    | exact fun _ h => h
    | exact fun _ h => { h with }
    | exact fun _ => rfl
    | exact fun _ => ⟨rfl, rfl⟩
    | with_reducible refine updMem_kept ?_ ?_ (fun _ => ⟨rfl, rfl⟩) ?_
    | with_reducible refine kept_foldl ?_ (fun _ _ _ => ?_)
    | with_reducible refine kept_ite (fun _ => ?_) (fun _ => ?_)
    | split

theorem presentWrite_kept {p a0 a1 s} (h : Kept p s)
    (al : autoParam (Allows p 2048) emit_kept._auto_1) : Kept p (presentWrite a0 a1 s) := by
  unfold presentWrite
  try dsimp only
  repeat' first
    | with_reducible assumption
    | exact Allows.sub al rfl
    | with_reducible refine updChan_kept ?_ ?_
    | with_reducible refine kept_ite (fun _ => ?_) (fun _ => ?_)
    | split

theorem presentRead_kept {p a0 a1 s} (h : Kept p s)
    (al : autoParam (Allows p 2048) emit_kept._auto_1) : Kept p (presentRead a0 a1 s) := by
  unfold presentRead
  try dsimp only
  repeat' first
    | with_reducible assumption
    | exact Allows.sub al rfl
    | with_reducible refine updChan_kept ?_ ?_
    | with_reducible refine kept_ite (fun _ => ?_) (fun _ => ?_)
    | split

theorem countCorrection_kept {p a0 s} (h : Kept p s)
    (al : autoParam (Allows p 9193916932) emit_kept._auto_1) : Kept p (countCorrection a0 s) := by
  unfold countCorrection
  try dsimp only
  repeat' first
    | with_reducible assumption
    | exact Allows.sub al rfl
    | exact fun _ h => h
    | exact fun _ h => { h with }
    | exact fun _ => rfl
    | exact fun _ => ⟨rfl, rfl⟩
    | with_reducible refine updMem_kept ?_ ?_ (fun _ => ⟨rfl, rfl⟩) ?_
    | with_reducible refine logErr_kept ?_ ?_
    | with_reducible refine saveLedger_kept ?_ ?_
    | with_reducible refine updPower_kept ?_ ?_
    | with_reducible refine kept_ite (fun _ => ?_) (fun _ => ?_)
    | split

theorem correctWord_kept {p a0 s} (h : Kept p s)
    (al : autoParam (Allows p 9193916932) emit_kept._auto_1) : Kept p (correctWord a0 s) := by
  unfold correctWord
  try dsimp only
  repeat' first
    | with_reducible assumption
    | exact Allows.sub al rfl
    | exact fun _ h => h
    | exact fun _ h => { h with }
    | exact fun _ => rfl
    | exact fun _ => ⟨rfl, rfl⟩
    | with_reducible refine updBytes_kept ?_ ?_ (fun _ => rfl) ?_
    | with_reducible refine countCorrection_kept ?_ ?_
    | with_reducible refine logErr_kept ?_ ?_
    | split

theorem noteWord_kept {p a0 s} (h : Kept p s)
    (al : autoParam (Allows p 9193916932) emit_kept._auto_1) : Kept p (noteWord a0 s) := by
  unfold noteWord
  try dsimp only
  repeat' first
    | with_reducible assumption
    | exact Allows.sub al rfl
    | with_reducible refine logErr_kept ?_ ?_
    | with_reducible refine correctWord_kept ?_ ?_
    | with_reducible refine kept_ite (fun _ => ?_) (fun _ => ?_)
    | split

theorem meetOutside_kept {p a0 s} (h : Kept p s)
    (al : autoParam (Allows p 9193916932) emit_kept._auto_1) : Kept p (meetOutside a0 s) := by
  unfold meetOutside
  try dsimp only
  repeat' first
    | with_reducible assumption
    | exact Allows.sub al rfl
    | exact fun _ h => h
    | exact fun _ h => { h with }
    | exact fun _ => rfl
    | exact fun _ => ⟨rfl, rfl⟩
    | with_reducible refine updDevice_kept ?_ ?_ (fun _ => rfl) ?_
    | with_reducible refine noteWord_kept ?_ ?_
    | with_reducible refine kept_foldl ?_ (fun _ _ _ => ?_)
    | with_reducible refine kept_foldl_snd ?_ (fun _ _ _ => ?_)
    | with_reducible refine kept_foldl_fst ?_ (fun _ _ _ => ?_)
    | with_reducible refine kept_ite (fun _ => ?_) (fun _ => ?_)
    | dsimp only
    | split

theorem evictLine_kept {p a0 a1 a2 s} (h : Kept p s)
    (al : autoParam (Allows p 9193916932) emit_kept._auto_1) : Kept p (evictLine a0 a1 a2 s) := by
  unfold evictLine
  try dsimp only
  repeat' first
    | with_reducible assumption
    | exact Allows.sub al rfl
    | exact fun _ h => h
    | exact fun _ h => { h with }
    | exact fun _ => rfl
    | exact fun _ => ⟨rfl, rfl⟩
    | with_reducible refine updBytes_kept ?_ ?_ (fun _ => rfl) ?_
    | with_reducible refine noteWord_kept ?_ ?_
    | with_reducible refine presentWrite_kept ?_ ?_
    | with_reducible refine kept_foldl ?_ (fun _ _ _ => ?_)
    | with_reducible refine kept_foldl_snd ?_ (fun _ _ _ => ?_)
    | with_reducible refine kept_foldl_fst ?_ (fun _ _ _ => ?_)
    | with_reducible refine kept_ite (fun _ => ?_) (fun _ => ?_)
    | dsimp only
    | split

theorem allocateLine_kept {p a0 s} (h : Kept p s)
    (al : autoParam (Allows p 9193916932) emit_kept._auto_1) : Kept p (allocateLine a0 s) := by
  unfold allocateLine
  try dsimp only
  repeat' first
    | with_reducible assumption
    | exact Allows.sub al rfl
    | exact fun _ h => h
    | exact fun _ h => { h with }
    | exact fun _ => rfl
    | exact fun _ => ⟨rfl, rfl⟩
    | with_reducible refine updMem_kept ?_ ?_ (fun _ => ⟨rfl, rfl⟩) ?_
    | with_reducible refine evictLine_kept ?_ ?_
    | with_reducible refine presentRead_kept ?_ ?_
    | with_reducible refine kept_ite (fun _ => ?_) (fun _ => ?_)
    | split

theorem accessLine_kept {p a0 s} (h : Kept p s)
    (al : autoParam (Allows p 9193916932) emit_kept._auto_1) : Kept p (accessLine a0 s) := by
  unfold accessLine
  try dsimp only
  repeat' first
    | with_reducible assumption
    | exact Allows.sub al rfl
    | exact fun _ h => h
    | exact fun _ h => { h with }
    | exact fun _ => rfl
    | exact fun _ => ⟨rfl, rfl⟩
    | with_reducible refine updMem_kept ?_ ?_ (fun _ => ⟨rfl, rfl⟩) ?_
    | with_reducible refine presentWrite_kept ?_ ?_
    | with_reducible refine presentRead_kept ?_ ?_
    | with_reducible refine allocateLine_kept ?_ ?_
    | with_reducible refine kept_ite (fun _ => ?_) (fun _ => ?_)
    | split

theorem cleanLines_kept {p a0 a1 a2 s} (h : Kept p s)
    (al : autoParam (Allows p 9193916932) emit_kept._auto_1) : Kept p (cleanLines a0 a1 a2 s) := by
  unfold cleanLines
  try dsimp only
  repeat' first
    | with_reducible assumption
    | exact Allows.sub al rfl
    | exact fun _ h => h
    | exact fun _ h => { h with }
    | exact fun _ => rfl
    | exact fun _ => ⟨rfl, rfl⟩
    | with_reducible refine updMem_kept ?_ ?_ (fun _ => ⟨rfl, rfl⟩) ?_
    | with_reducible refine evictLine_kept ?_ ?_
    | with_reducible refine kept_foldl ?_ (fun _ _ _ => ?_)
    | with_reducible refine kept_foldl_snd ?_ (fun _ _ _ => ?_)
    | with_reducible refine kept_foldl_fst ?_ (fun _ _ _ => ?_)
    | with_reducible refine kept_ite (fun _ => ?_) (fun _ => ?_)
    | dsimp only
    | split

theorem cleanChannel_kept {p a0 s} (h : Kept p s)
    (al : autoParam (Allows p 9193916932) emit_kept._auto_1) : Kept p (cleanChannel a0 s) := by
  unfold cleanChannel
  try dsimp only
  repeat' first
    | with_reducible assumption
    | exact Allows.sub al rfl
    | with_reducible refine cleanLines_kept ?_ ?_
    | split

theorem updatePanic_kept {p s} (h : Kept p s)
    (al : autoParam (Allows p 2048) emit_kept._auto_1) : Kept p (updatePanic s) := by
  unfold updatePanic
  try dsimp only
  repeat' first
    | with_reducible assumption
    | exact Allows.sub al rfl
    | exact fun _ h => h
    | exact fun _ h => { h with }
    | exact fun _ => rfl
    | exact fun _ => ⟨rfl, rfl⟩
    | with_reducible refine updMem_kept ?_ ?_ (fun _ => ⟨rfl, rfl⟩) ?_
    | with_reducible refine kept_ite (fun _ => ?_) (fun _ => ?_)
    | split

theorem unitLine_kept {p a0 s} (h : Kept p s)
    (al : autoParam (Allows p 9193916932) emit_kept._auto_1) : Kept p (unitLine a0 s) := by
  unfold unitLine
  try dsimp only
  repeat' first
    | with_reducible assumption
    | exact Allows.sub al rfl
    | with_reducible refine updatePanic_kept ?_ ?_
    | with_reducible refine accessLine_kept ?_ ?_
    | split

theorem clearDeferred_kept {p a0 s} (h : Kept p s)
    (al : autoParam (Allows p 2048) emit_kept._auto_1) : Kept p (clearDeferred a0 s) := by
  unfold clearDeferred
  try dsimp only
  repeat' first
    | with_reducible assumption
    | exact Allows.sub al rfl
    | exact fun _ h => h
    | exact fun _ h => { h with }
    | exact fun _ => rfl
    | exact fun _ => ⟨rfl, rfl⟩
    | with_reducible refine updMem_kept ?_ ?_ (fun _ => ⟨rfl, rfl⟩) ?_
    | with_reducible refine kept_ite (fun _ => ?_) (fun _ => ?_)
    | split

theorem freshWords_kept {p a0 a1 s} (h : Kept p s)
    (al : autoParam (Allows p 512) emit_kept._auto_1) : Kept p (freshWords a0 a1 s) := by
  unfold freshWords
  try dsimp only
  repeat' first
    | with_reducible assumption
    | exact Allows.sub al rfl
    | exact fun _ h => h
    | exact fun _ h => { h with }
    | exact fun _ => rfl
    | exact fun _ => ⟨rfl, rfl⟩
    | with_reducible refine updBytes_kept ?_ ?_ (fun _ => rfl) ?_
    | with_reducible refine kept_foldl ?_ (fun _ _ _ => ?_)
    | with_reducible refine kept_ite (fun _ => ?_) (fun _ => ?_)
    | split

theorem settleWord_kept {p a0 a1 s} (h : Kept p s)
    (al : autoParam (Allows p 9193916932) emit_kept._auto_1) : Kept p (settleWord a0 a1 s) := by
  unfold settleWord
  try dsimp only
  repeat' first
    | with_reducible assumption
    | exact Allows.sub al rfl
    | exact fun _ h => h
    | exact fun _ h => { h with }
    | exact fun _ => rfl
    | exact fun _ => ⟨rfl, rfl⟩
    | with_reducible refine updBytes_kept ?_ ?_ (fun _ => rfl) ?_
    | with_reducible refine updDevice_kept ?_ ?_ (fun _ => rfl) ?_
    | with_reducible refine freshWords_kept ?_ ?_
    | with_reducible refine logErr_kept ?_ ?_
    | with_reducible refine correctWord_kept ?_ ?_
    | with_reducible refine kept_ite (fun _ => ?_) (fun _ => ?_)
    | split

theorem settleLine_kept {p a0 a1 a2 s} (h : Kept p s)
    (al : autoParam (Allows p 9193916932) emit_kept._auto_1) : Kept p (settleLine a0 a1 a2 s) := by
  unfold settleLine
  try dsimp only
  repeat' first
    | with_reducible assumption
    | exact Allows.sub al rfl
    | exact fun _ h => h
    | exact fun _ h => { h with }
    | exact fun _ => rfl
    | exact fun _ => ⟨rfl, rfl⟩
    | with_reducible refine updBytes_kept ?_ ?_ (fun _ => rfl) ?_
    | with_reducible refine unitLine_kept ?_ ?_
    | with_reducible refine noteWord_kept ?_ ?_
    | with_reducible refine kept_foldl ?_ (fun _ _ _ => ?_)
    | split

theorem writePhys_kept {p a0 a1 s} (h : Kept p s)
    (al : autoParam (Allows p 9193916932) emit_kept._auto_1) : Kept p (writePhys a0 a1 s) := by
  unfold writePhys noteWritten
  try dsimp only
  repeat' first
    | with_reducible assumption
    | exact Allows.sub al rfl
    | exact fun _ h => h
    | exact fun _ h => { h with }
    | exact fun _ => rfl
    | exact fun _ => ⟨rfl, rfl⟩
    | exact fun _ h => { h with bytes := memWf_put h.bytes }
    | exact fun _ h => { h with bytes := memWf_foldl (f := fun c : Cell => (c.addr, c.val)) h.bytes }
    | exact fun _ h => { h with host := memWf_foldl (f := fun c : Cell => (c.addr, c.val)) h.host }
    | with_reducible refine updDevice_kept ?_ ?_ (fun _ => rfl) ?_
    | with_reducible refine noteCause_kept ?_ ?_
    | with_reducible refine clearDeferred_kept ?_ ?_
    | with_reducible refine settleLine_kept ?_ ?_
    | with_reducible refine settleWord_kept ?_ ?_
    | with_reducible refine kept_foldl ?_ (fun _ _ _ => ?_)
    | with_reducible refine kept_foldl_snd ?_ (fun _ _ _ => ?_)
    | with_reducible refine kept_foldl_fst ?_ (fun _ _ _ => ?_)
    | dsimp only
    | split

theorem unitRead_kept {p a0 a1 a2 s} (h : Kept p s)
    (al : autoParam (Allows p 9193916932) emit_kept._auto_1) : Kept p (unitRead a0 a1 a2 s) := by
  unfold unitRead
  try dsimp only
  repeat' first
    | with_reducible assumption
    | exact Allows.sub al rfl
    | with_reducible refine unitLine_kept ?_ ?_
    | with_reducible refine setCause_kept ?_ ?_
    | with_reducible refine noteWord_kept ?_ ?_
    | with_reducible refine kept_foldl ?_ (fun _ _ _ => ?_)
    | with_reducible refine kept_ite (fun _ => ?_) (fun _ => ?_)
    | split

theorem readingFor_kept {p a0 a1 s} (h : Kept p s) (ga1 : ∀  s, Kept p s → Kept p (a1  s))
    (al : autoParam (Allows p 2048) emit_kept._auto_1) : Kept p (readingFor a0 a1 s) := by
  unfold readingFor
  try dsimp only
  repeat' first
    | with_reducible assumption
    | exact Allows.sub al rfl
    | exact fun _ h => h
    | exact fun _ h => { h with }
    | exact fun _ => rfl
    | exact fun _ => ⟨rfl, rfl⟩
    | with_reducible refine ga1 _ ?_
    | exact ga1
    | with_reducible refine updMem_kept ?_ ?_ (fun _ => ⟨rfl, rfl⟩) ?_
    | split

theorem microFill_kept {p a0 a1 s} (h : Kept p s)
    (al : autoParam (Allows p 2048) emit_kept._auto_1) : Kept p (microFill a0 a1 s) := by
  unfold microFill
  try dsimp only
  repeat' first
    | with_reducible assumption
    | exact Allows.sub al rfl
    | exact fun _ h => h
    | exact fun _ h => { h with }
    | exact fun _ => rfl
    | exact fun _ => ⟨rfl, rfl⟩
    | with_reducible refine updMem_kept ?_ ?_ (fun _ => ⟨rfl, rfl⟩) ?_
    | with_reducible refine kept_ite (fun _ => ?_) (fun _ => ?_)
    | split

theorem tlbFill_kept {p a0 a1 s} (h : Kept p s)
    (al : autoParam (Allows p 9193916932) emit_kept._auto_1) : Kept p (tlbFill a0 a1 s) := by
  unfold tlbFill
  try dsimp only
  repeat' first
    | with_reducible assumption
    | exact Allows.sub al rfl
    | exact fun _ h => h
    | exact fun _ h => { h with }
    | exact fun _ => rfl
    | exact fun _ => ⟨rfl, rfl⟩
    | with_reducible refine updMem_kept ?_ ?_ (fun _ => ⟨rfl, rfl⟩) ?_
    | with_reducible refine microFill_kept ?_ ?_
    | with_reducible refine unitRead_kept ?_ ?_
    | with_reducible refine kept_foldl ?_ (fun _ _ _ => ?_)
    | with_reducible refine kept_foldl_snd ?_ (fun _ _ _ => ?_)
    | with_reducible refine kept_foldl_fst ?_ (fun _ _ _ => ?_)
    | with_reducible refine kept_ite (fun _ => ?_) (fun _ => ?_)
    | dsimp only
    | split

theorem tlbDrop_kept {p a0 a1 s} (h : Kept p s)
    (al : autoParam (Allows p 2048) emit_kept._auto_1) : Kept p (tlbDrop a0 a1 s) := by
  unfold tlbDrop
  try dsimp only
  repeat' first
    | with_reducible assumption
    | exact Allows.sub al rfl
    | exact fun _ h => h
    | exact fun _ h => { h with }
    | exact fun _ => rfl
    | exact fun _ => ⟨rfl, rfl⟩
    | with_reducible refine updMem_kept ?_ ?_ (fun _ => ⟨rfl, rfl⟩) ?_
    | with_reducible refine kept_ite (fun _ => ?_) (fun _ => ?_)
    | split

theorem tlbClear_kept {p s} (h : Kept p s)
    (al : autoParam (Allows p 2048) emit_kept._auto_1) : Kept p (tlbClear s) := by
  unfold tlbClear
  try dsimp only
  repeat' first
    | with_reducible assumption
    | exact Allows.sub al rfl
    | exact fun _ h => h
    | exact fun _ h => { h with }
    | exact fun _ => rfl
    | exact fun _ => ⟨rfl, rfl⟩
    | with_reducible refine updMem_kept ?_ ?_ (fun _ => ⟨rfl, rfl⟩) ?_
    | split

theorem emitEp_kept {p a0 s} (h : Kept p s)
    (al : autoParam (Allows p 4) emit_kept._auto_1) : Kept p (emitEp a0 s) := by
  unfold emitEp
  try dsimp only
  repeat' first
    | with_reducible assumption
    | exact Allows.sub al rfl
    | with_reducible refine emit_kept ?_ ?_
    | with_reducible refine kept_ite (fun _ => ?_) (fun _ => ?_)
    | split

theorem writeHost_kept {p a0 s} (h : Kept p s)
    (al : autoParam (Allows p 603981316) emit_kept._auto_1) : Kept p (writeHost a0 s) := by
  unfold writeHost
  try dsimp only
  repeat' first
    | with_reducible assumption
    | exact Allows.sub al rfl
    | exact fun _ h => h
    | exact fun _ h => { h with }
    | exact fun _ => rfl
    | exact fun _ => ⟨rfl, rfl⟩
    | exact fun _ h => { h with bytes := memWf_put h.bytes }
    | exact fun _ h => { h with bytes := memWf_foldl (f := fun c : Cell => (c.addr, c.val)) h.bytes }
    | exact fun _ h => { h with host := memWf_foldl (f := fun c : Cell => (c.addr, c.val)) h.host }
    | with_reducible refine updHost_kept ?_ ?_ (fun _ => rfl) ?_
    | with_reducible refine logErr_kept ?_ ?_
    | with_reducible refine emitEp_kept ?_ ?_
    | with_reducible refine kept_foldl ?_ (fun _ _ _ => ?_)
    | with_reducible refine kept_ite (fun _ => ?_) (fun _ => ?_)
    | split

theorem startReads_kept {p n s} (h : Kept p s)
    (al : autoParam (Allows p 2052) emit_kept._auto_1) : Kept p (startReads n s) := by
  induction n generalizing s with
  | zero => exact h
  | succ n ih =>
    unfold startReads
    refine kept_ite (fun _ => h) (fun _ => ?_)
    split
    · exact h
    · split
      · exact h
      · split
        · exact h
        · exact ih (emit_kept (updMem_kept h (fun _ h => { h with })))

theorem failReads_kept {p a0 s} (h : Kept p s)
    (al : autoParam (Allows p 603982340) emit_kept._auto_1) : Kept p (failReads a0 s) := by
  unfold failReads
  try dsimp only
  repeat' first
    | with_reducible assumption
    | exact Allows.sub al rfl
    | exact fun _ h => h
    | exact fun _ h => { h with }
    | exact fun _ => rfl
    | exact fun _ => ⟨rfl, rfl⟩
    | with_reducible refine updMem_kept ?_ ?_ (fun _ => ⟨rfl, rfl⟩) ?_
    | with_reducible refine logErr_kept ?_ ?_
    | with_reducible refine kept_foldl ?_ (fun _ _ _ => ?_)
    | with_reducible refine kept_ite (fun _ => ?_) (fun _ => ?_)
    | split

theorem askHost_kept {p a0 a1 a2 a3 s} (h : Kept p s)
    (al : autoParam (Allows p 2052) emit_kept._auto_1) : Kept p (askHost a0 a1 a2 a3 s) := by
  unfold askHost
  try dsimp only
  repeat' first
    | with_reducible assumption
    | exact Allows.sub al rfl
    | exact fun _ h => h
    | exact fun _ h => { h with }
    | exact fun _ => rfl
    | exact fun _ => ⟨rfl, rfl⟩
    | with_reducible refine updMem_kept ?_ ?_ (fun _ => ⟨rfl, rfl⟩) ?_
    | with_reducible refine startReads_kept ?_ ?_
    | split

end Sys2Proof.Machine
end

