-- ==== Sys2Proof/Laws/KeptJasper.lean ====
section
/-! SUPPORT. Every operation of Machine/Jasper.lean keeps the invariant of Safety.lean, leaves the
queue alone and changes no part outside those that the world `p` allows. -/

set_option Elab.async false

namespace Sys2Proof.Machine

theorem putCell_kept {p a0 a1 a2 s} (h : Kept p s)
    (al : autoParam (Allows p 9193916932) emit_kept._auto_1) : Kept p (putCell a0 a1 a2 s) := by
  unfold putCell
  try dsimp only
  repeat' first
    | with_reducible assumption
    | exact Allows.sub al rfl
    | with_reducible refine writePhys_kept ?_ ?_
    | split

theorem setNext_kept {p a0 a1 s} (h : Kept p s)
    (al : autoParam (Allows p 9193916932) emit_kept._auto_1) : Kept p (setNext a0 a1 s) := by
  unfold setNext
  exact (putCell_kept h)

theorem setCount_kept {p a0 a1 s} (h : Kept p s)
    (al : autoParam (Allows p 9193916932) emit_kept._auto_1) : Kept p (setCount a0 a1 s) := by
  unfold setCount
  exact (putCell_kept h)

theorem setAccount_kept {p a0 a1 s} (h : Kept p s)
    (al : autoParam (Allows p 9193916932) emit_kept._auto_1) : Kept p (setAccount a0 a1 s) := by
  unfold setAccount
  try dsimp only
  repeat' first
    | with_reducible assumption
    | exact Allows.sub al rfl
    | with_reducible refine writePhys_kept ?_ ?_
    | split

theorem countEvent_kept {p a0 a1 s} (h : Kept p s)
    (al : autoParam (Allows p 8388608) emit_kept._auto_1) : Kept p (countEvent a0 a1 s) := by
  unfold countEvent
  try dsimp only
  repeat' first
    | with_reducible assumption
    | exact Allows.sub al rfl
    | with_reducible refine updPool_kept ?_ ?_
    | with_reducible refine kept_ite (fun _ => ?_) (fun _ => ?_)
    | split

theorem takeCell_kept {p a0 s} (h : Kept p s)
    (al : autoParam (Allows p 8388608) emit_kept._auto_1) : KeptSnd p (takeCell a0 s) := by
  unfold takeCell
  try dsimp only
  repeat' first
    | with_reducible assumption
    | exact Allows.sub al rfl
    | with_reducible refine updPool_kept ?_ ?_
    | with_reducible refine keptSnd_ite (fun _ => ?_) (fun _ => ?_)
    | with_reducible refine keptSnd_mk ?_
    | with_reducible refine kept_ite (fun _ => ?_) (fun _ => ?_)
    | split

theorem takeCells_kept {p q a n r s} (h : Kept p s)
    (al : autoParam (Allows p 9202305540) emit_kept._auto_1) : KeptSnd p (takeCells q a n r s) := by
  induction n generalizing r s with
  | zero => exact h
  | succ n ih =>
    unfold takeCells
    have h0 := takeCell_kept (a0 := q) h
    generalize takeCell q s = x at h0
    exact ih (kept_ite (fun _ => setAccount_kept (setCount_kept (setNext_kept h0)))
      (fun _ => setNext_kept (setAccount_kept (setCount_kept (setNext_kept h0)))))

theorem refill_kept {p a0 s} (h : Kept p s)
    (al : autoParam (Allows p 9202305540) emit_kept._auto_1) : Kept p (refill a0 s) := by
  unfold refill
  try dsimp only
  repeat' first
    | with_reducible assumption
    | exact Allows.sub al rfl
    | with_reducible refine updPool_kept ?_ ?_
    | with_reducible refine unitRead_kept ?_ ?_
    | with_reducible refine kept_foldl ?_ (fun _ _ _ => ?_)
    | with_reducible refine kept_ite (fun _ => ?_) (fun _ => ?_)
    | split

theorem writeBack_kept {p a0 s} (h : Kept p s)
    (al : autoParam (Allows p 9202305540) emit_kept._auto_1) : Kept p (writeBack a0 s) := by
  unfold writeBack
  try dsimp only
  repeat' first
    | with_reducible assumption
    | exact Allows.sub al rfl
    | with_reducible refine updPool_kept ?_ ?_
    | with_reducible refine writePhys_kept ?_ ?_
    | with_reducible refine kept_ite (fun _ => ?_) (fun _ => ?_)
    | split

theorem allocCells_kept {p a0 a1 a2 a3 s} (h : Kept p s)
    (al : autoParam (Allows p 9202305540) emit_kept._auto_1) : KeptSnd p (allocCells a0 a1 a2 a3 s) := by
  unfold allocCells
  try dsimp only
  repeat' first
    | with_reducible assumption
    | exact Allows.sub al rfl
    | with_reducible refine takeCells_kept ?_ ?_
    | refine keptSnd_eq (takeCells_kept ?_ ?_) (by assumption)
    | refine (takeCells_kept ?_ ?_ : KeptSnd p _)
    | with_reducible refine refill_kept ?_ ?_
    | with_reducible refine updPool_kept ?_ ?_
    | with_reducible refine keptSnd_ite (fun _ => ?_) (fun _ => ?_)
    | with_reducible refine keptSnd_mk ?_
    | split

theorem noteCell_kept {p a0 s} (h : Kept p s)
    (al : autoParam (Allows p 9193916932) emit_kept._auto_1) : Kept p (noteCell a0 s) := by
  unfold noteCell
  try dsimp only
  repeat' first
    | with_reducible assumption
    | exact Allows.sub al rfl
    | with_reducible refine unitRead_kept ?_ ?_
    | split

theorem noteTail_kept {p a0 s} (h : Kept p s)
    (al : autoParam (Allows p 9193916932) emit_kept._auto_1) : Kept p (noteTail a0 s) := by
  unfold noteTail
  try dsimp only
  repeat' first
    | with_reducible assumption
    | exact Allows.sub al rfl
    | with_reducible refine noteCell_kept ?_ ?_
    | with_reducible refine kept_ite (fun _ => ?_) (fun _ => ?_)
    | split

theorem allocOp_kept {p a0 a1 a2 a3 a4 s} (h : Kept p s)
    (al : autoParam (Allows p 9202305540) emit_kept._auto_1) : KeptThd p (allocOp a0 a1 a2 a3 a4 s) := by
  unfold allocOp
  try dsimp only
  repeat' first
    | with_reducible assumption
    | exact Allows.sub al rfl
    | with_reducible refine noteTail_kept ?_ ?_
    | with_reducible refine countEvent_kept ?_ ?_
    | with_reducible refine allocCells_kept ?_ ?_
    | refine keptSnd_eq (allocCells_kept ?_ ?_) (by assumption)
    | refine (allocCells_kept ?_ ?_ : KeptSnd p _)
    | with_reducible refine keptThd_ite (fun _ => ?_) (fun _ => ?_)
    | with_reducible refine keptThd_mk ?_
    | with_reducible refine kept_ite (fun _ => ?_) (fun _ => ?_)
    | split

theorem retainOp_kept {p a0 s} (h : Kept p s)
    (al : autoParam (Allows p 9202305540) emit_kept._auto_1) : KeptSnd p (retainOp a0 s) := by
  unfold retainOp
  try dsimp only
  repeat' first
    | with_reducible assumption
    | exact Allows.sub al rfl
    | with_reducible refine noteCell_kept ?_ ?_
    | with_reducible refine countEvent_kept ?_ ?_
    | with_reducible refine updPool_kept ?_ ?_
    | with_reducible refine setCount_kept ?_ ?_
    | with_reducible refine keptSnd_ite (fun _ => ?_) (fun _ => ?_)
    | with_reducible refine keptSnd_mk ?_
    | with_reducible refine kept_ite (fun _ => ?_) (fun _ => ?_)
    | split

theorem releaseOp_kept {p a0 s} (h : Kept p s)
    (al : autoParam (Allows p 9202305540) emit_kept._auto_1) : Kept p (releaseOp a0 s) := by
  unfold releaseOp
  try dsimp only
  repeat' first
    | with_reducible assumption
    | exact Allows.sub al rfl
    | with_reducible refine noteCell_kept ?_ ?_
    | with_reducible refine setCount_kept ?_ ?_
    | with_reducible refine unitRead_kept ?_ ?_
    | with_reducible refine writeBack_kept ?_ ?_
    | with_reducible refine updPool_kept ?_ ?_
    | with_reducible refine kept_ite (fun _ => ?_) (fun _ => ?_)
    | split

theorem releaseChainOp_kept {p n a s} (h : Kept p s)
    (al : autoParam (Allows p 9202305540) emit_kept._auto_1) : Kept p (releaseChainOp n a s) := by
  induction n generalizing a s with
  | zero => exact h
  | succ n ih => unfold releaseChainOp; exact kept_ite (fun _ => ih (releaseOp_kept h)) (fun _ => releaseOp_kept h)

theorem freeChain_kept {p a0 s} (h : Kept p s)
    (al : autoParam (Allows p 9202305540) emit_kept._auto_1) : Kept p (freeChain a0 s) := by
  unfold freeChain
  refine kept_ite (fun _ => ?_) (fun _ => ?_)
  · exact h
  · exact (releaseChainOp_kept h)

theorem fillCell_kept {p a0 a1 a2 a3 s} (h : Kept p s)
    (al : autoParam (Allows p 9193916932) emit_kept._auto_1) : Kept p (fillCell a0 a1 a2 a3 s) := by
  unfold fillCell
  try dsimp only
  repeat' first
    | with_reducible assumption
    | exact Allows.sub al rfl
    | with_reducible refine writePhys_kept ?_ ?_
    | with_reducible refine kept_ite (fun _ => ?_) (fun _ => ?_)
    | split

theorem growChain_kept {p q a r f n b s} (h : Kept p s)
    (al : autoParam (Allows p 9202305540) emit_kept._auto_1) : KeptSnd p (growChain q a r f n b s) := by
  induction f generalizing n b s with
  | zero => exact h
  | succ f ih =>
    cases n with
    | zero => exact h
    | succ n =>
      rw [growChain.eq_3]
      · split
        rename_i e
        exact keptSnd_ite (fun _ => keptThd_eq (allocOp_kept h) e) (fun _ => ih (keptThd_eq (allocOp_kept h) e))
      · exact fun e => nomatch e

theorem buildChain_kept {p a0 a1 a2 a3 a4 s} (h : Kept p s)
    (al : autoParam (Allows p 9202305540) emit_kept._auto_1) : KeptThd p (buildChain a0 a1 a2 a3 a4 s) := by
  unfold buildChain
  try dsimp only
  repeat' first
    | with_reducible assumption
    | exact Allows.sub al rfl
    | with_reducible refine allocOp_kept ?_ ?_
    | refine keptThd_eq (allocOp_kept ?_ ?_) (by assumption)
    | refine (allocOp_kept ?_ ?_ : KeptThd p _)
    | with_reducible refine growChain_kept ?_ ?_
    | refine keptSnd_eq (growChain_kept ?_ ?_) (by assumption)
    | refine (growChain_kept ?_ ?_ : KeptSnd p _)
    | with_reducible refine fillCell_kept ?_ ?_
    | with_reducible refine keptThd_ite (fun _ => ?_) (fun _ => ?_)
    | with_reducible refine keptThd_mk ?_
    | with_reducible refine kept_foldl ?_ (fun _ _ _ => ?_)
    | with_reducible refine kept_ite (fun _ => ?_) (fun _ => ?_)
    | split

theorem noteChain_kept {p a0 a1 s} (h : Kept p s)
    (al : autoParam (Allows p 9193916932) emit_kept._auto_1) : Kept p (noteChain a0 a1 s) := by
  unfold noteChain
  try dsimp only
  repeat' first
    | with_reducible assumption
    | exact Allows.sub al rfl
    | with_reducible refine unitRead_kept ?_ ?_
    | with_reducible refine kept_foldl ?_ (fun _ _ _ => ?_)
    | split

theorem execAlloc_kept {p a0 a1 a2 a3 a4 s} (h : Kept p s)
    (al : autoParam (Allows p 9202305540) emit_kept._auto_1) : KeptRes p (execAlloc a0 a1 a2 a3 a4 s) := by
  unfold execAlloc
  try dsimp only
  repeat' first
    | with_reducible assumption
    | exact Allows.sub al rfl
    | with_reducible refine emit_kept ?_ ?_
    | with_reducible refine noteTail_kept ?_ ?_
    | with_reducible refine countEvent_kept ?_ ?_
    | with_reducible refine logErr_kept ?_ ?_
    | with_reducible refine updPool_kept ?_ ?_
    | with_reducible refine allocCells_kept ?_ ?_
    | refine keptSnd_eq (allocCells_kept ?_ ?_) (by assumption)
    | refine (allocCells_kept ?_ ?_ : KeptSnd p _)
    | with_reducible refine keptRes_inRange ?_ ?_
    | with_reducible refine keptRes_doneIf ?_ ?_
    | with_reducible refine keptRes_ite (fun _ => ?_) (fun _ => ?_)
    | with_reducible refine keptRes_done ?_
    | with_reducible refine keptRes_next ?_
    | with_reducible refine kept_ite (fun _ => ?_) (fun _ => ?_)
    | split

theorem execReserveAllocResume_kept {p a0 s} (h : Kept p s)
    (al : autoParam (Allows p 9202305540) emit_kept._auto_1) : KeptRes p (execReserveAllocResume a0 s) := by
  unfold execReserveAllocResume
  try dsimp only
  repeat' first
    | with_reducible assumption
    | exact Allows.sub al rfl
    | with_reducible refine updPool_kept ?_ ?_
    | with_reducible refine allocCells_kept ?_ ?_
    | refine keptSnd_eq (allocCells_kept ?_ ?_) (by assumption)
    | refine (allocCells_kept ?_ ?_ : KeptSnd p _)
    | with_reducible refine emit_kept ?_ ?_
    | with_reducible refine keptRes_inRange ?_ ?_
    | with_reducible refine keptRes_doneIf ?_ ?_
    | with_reducible refine keptRes_ite (fun _ => ?_) (fun _ => ?_)
    | with_reducible refine keptRes_done ?_
    | with_reducible refine keptRes_next ?_
    | split

theorem execRetain_kept {p a0 s} (h : Kept p s)
    (al : autoParam (Allows p 9202305540) emit_kept._auto_1) : KeptRes p (execRetain a0 s) := by
  unfold execRetain
  try dsimp only
  repeat' first
    | with_reducible assumption
    | exact Allows.sub al rfl
    | with_reducible refine emit_kept ?_ ?_
    | with_reducible refine retainOp_kept ?_ ?_
    | refine keptSnd_eq (retainOp_kept ?_ ?_) (by assumption)
    | refine (retainOp_kept ?_ ?_ : KeptSnd p _)
    | with_reducible refine keptRes_inRange ?_ ?_
    | with_reducible refine keptRes_doneIf ?_ ?_
    | with_reducible refine keptRes_ite (fun _ => ?_) (fun _ => ?_)
    | with_reducible refine keptRes_done ?_
    | with_reducible refine keptRes_next ?_
    | with_reducible refine kept_ite (fun _ => ?_) (fun _ => ?_)
    | split

theorem execRelease_kept {p a0 s} (h : Kept p s)
    (al : autoParam (Allows p 9202305540) emit_kept._auto_1) : KeptRes p (execRelease a0 s) := by
  unfold execRelease
  try dsimp only
  repeat' first
    | with_reducible assumption
    | exact Allows.sub al rfl
    | with_reducible refine emit_kept ?_ ?_
    | with_reducible refine releaseOp_kept ?_ ?_
    | with_reducible refine keptRes_inRange ?_ ?_
    | with_reducible refine keptRes_doneIf ?_ ?_
    | with_reducible refine keptRes_ite (fun _ => ?_) (fun _ => ?_)
    | with_reducible refine keptRes_done ?_
    | with_reducible refine keptRes_next ?_
    | with_reducible refine kept_ite (fun _ => ?_) (fun _ => ?_)
    | split

theorem execReleaseChain_kept {p a0 s} (h : Kept p s)
    (al : autoParam (Allows p 9202305540) emit_kept._auto_1) : KeptRes p (execReleaseChain a0 s) := by
  unfold execReleaseChain
  try dsimp only
  repeat' first
    | with_reducible assumption
    | exact Allows.sub al rfl
    | with_reducible refine emit_kept ?_ ?_
    | with_reducible refine freeChain_kept ?_ ?_
    | with_reducible refine keptRes_inRange ?_ ?_
    | with_reducible refine keptRes_doneIf ?_ ?_
    | with_reducible refine keptRes_ite (fun _ => ?_) (fun _ => ?_)
    | with_reducible refine keptRes_done ?_
    | with_reducible refine keptRes_next ?_
    | with_reducible refine kept_ite (fun _ => ?_) (fun _ => ?_)
    | split

theorem reportFinding_kept {p a0 a1 s} (h : Kept p s)
    (al : autoParam (Allows p 9202305540) emit_kept._auto_1) : Kept p (reportFinding a0 a1 s) := by
  unfold reportFinding
  extract_lets -merge -underBinder +onlyGivenNames x0
  try clear_value x0
  refine kept_ite (fun _ => ?_) (fun _ => ?_)
  · extract_lets -merge -underBinder +onlyGivenNames x1
    have h1 : Kept p x1 := (logErr_kept h)
    clear_value x1
    refine kept_ite (fun _ => ?_) (fun _ => ?_)
    · refine kept_foldl ?_ (fun x s h => ?_)
      · exact h1
      · exact (releaseOp_kept h)
    · exact h1
  · exact (logErr_kept h)

theorem execCensusPass_kept {p a0 s} (h : Kept p s)
    (al : autoParam (Allows p 9202305540) emit_kept._auto_1) : KeptRes p (execCensusPass a0 s) := by
  unfold execCensusPass
  try dsimp only
  repeat' first
    | with_reducible assumption
    | exact Allows.sub al rfl
    | with_reducible refine updPool_kept ?_ ?_
    | with_reducible refine reportFinding_kept ?_ ?_
    | with_reducible refine keptRes_inRange ?_ ?_
    | with_reducible refine keptRes_doneIf ?_ ?_
    | with_reducible refine keptRes_ite (fun _ => ?_) (fun _ => ?_)
    | with_reducible refine keptRes_done ?_
    | with_reducible refine keptRes_next ?_
    | with_reducible refine kept_foldl ?_ (fun _ _ _ => ?_)
    | with_reducible refine kept_ite (fun _ => ?_) (fun _ => ?_)
    | split

end Sys2Proof.Machine
end

