-- ==== Sys2Proof/Laws/KeptPages.lean ====
section
/-! SUPPORT. Every operation of Machine/Pages.lean keeps the invariant of Safety.lean, leaves the
queue alone and changes no part outside those that the world `p` allows. -/

set_option Elab.async false

namespace Sys2Proof.Machine

theorem putLeaves_kept {p a0 a1 a2 s} (h : Kept p s)
    (al : autoParam (Allows p 9193916932) emit_kept._auto_1) : Kept p (putLeaves a0 a1 a2 s) := by
  unfold putLeaves
  try dsimp only
  repeat' first
    | with_reducible assumption
    | exact Allows.sub al rfl
    | with_reducible refine tlbDrop_kept ?_ ?_
    | with_reducible refine writePhys_kept ?_ ?_
    | with_reducible refine kept_foldl ?_ (fun _ _ _ => ?_)
    | split

theorem mapHost_kept {p a0 a1 a2 s} (h : Kept p s)
    (al : autoParam (Allows p 9193916932) emit_kept._auto_1) : Kept p (mapHost a0 a1 a2 s) := by
  unfold mapHost
  try dsimp only
  repeat' first
    | with_reducible assumption
    | exact Allows.sub al rfl
    | with_reducible refine putLeaves_kept ?_ ?_
    | split

theorem unmapHost_kept {p a0 a1 a2 s} (h : Kept p s)
    (al : autoParam (Allows p 9193916932) emit_kept._auto_1) : Kept p (unmapHost a0 a1 a2 s) := by
  unfold unmapHost
  try dsimp only
  repeat' first
    | with_reducible assumption
    | exact Allows.sub al rfl
    | with_reducible refine putLeaves_kept ?_ ?_
    | split

theorem noteWindow_kept {p a0 a1 a2 s} (h : Kept p s)
    (al : autoParam (Allows p 9193916932) emit_kept._auto_1) : Kept p (noteWindow a0 a1 a2 s) := by
  unfold noteWindow
  try dsimp only
  repeat' first
    | with_reducible assumption
    | exact Allows.sub al rfl
    | with_reducible refine tlbFill_kept ?_ ?_
    | with_reducible refine logErr_kept ?_ ?_
    | with_reducible refine kept_foldl ?_ (fun _ _ _ => ?_)
    | with_reducible refine kept_ite (fun _ => ?_) (fun _ => ?_)
    | split

theorem noteFrame_kept {p a0 a1 s} (h : Kept p s)
    (al : autoParam (Allows p 9193916932) emit_kept._auto_1) : Kept p (noteFrame a0 a1 s) := by
  unfold noteFrame
  try dsimp only
  repeat' first
    | with_reducible assumption
    | exact Allows.sub al rfl
    | with_reducible refine noteWindow_kept ?_ ?_
    | with_reducible refine unitRead_kept ?_ ?_
    | with_reducible refine kept_ite (fun _ => ?_) (fun _ => ?_)
    | split

theorem windowWrite_kept {p a0 a1 s} (h : Kept p s)
    (al : autoParam (Allows p 9193917956) emit_kept._auto_1) : Kept p (windowWrite a0 a1 s) := by
  unfold windowWrite
  try dsimp only
  repeat' first
    | with_reducible assumption
    | exact Allows.sub al rfl
    | with_reducible refine noteWindow_kept ?_ ?_
    | with_reducible refine writePhys_kept ?_ ?_
    | with_reducible refine writeHost_kept ?_ ?_
    | with_reducible refine kept_ite (fun _ => ?_) (fun _ => ?_)
    | split

theorem putFrame_kept {p a0 a1 a2 s} (h : Kept p s)
    (al : autoParam (Allows p 9193917956) emit_kept._auto_1) : Kept p (putFrame a0 a1 a2 s) := by
  unfold putFrame
  try dsimp only
  repeat' first
    | with_reducible assumption
    | exact Allows.sub al rfl
    | with_reducible refine windowWrite_kept ?_ ?_
    | with_reducible refine writePhys_kept ?_ ?_
    | with_reducible refine kept_ite (fun _ => ?_) (fun _ => ?_)
    | split

theorem updPage_kept {p a0 a1 s} (h : Kept p s)
    (al : autoParam (Allows p 4096) emit_kept._auto_1) : Kept p (updPage a0 a1 s) := by
  unfold updPage
  exact (updAviary_kept h (fun _ h => h))

theorem newPage_kept {p a0 s} (h : Kept p s)
    (al : autoParam (Allows p 4096) emit_kept._auto_1) : KeptSnd p (newPage a0 s) := by
  unfold newPage
  extract_lets -merge -underBinder +onlyGivenNames x0
  try clear_value x0
  extract_lets -merge -underBinder +onlyGivenNames x1
  try clear_value x1
  extract_lets -merge -underBinder +onlyGivenNames x2
  try clear_value x2
  extract_lets -merge -underBinder +onlyGivenNames x3
  try clear_value x3
  extract_lets -merge -underBinder +onlyGivenNames x4
  try clear_value x4
  exact keptSnd_mk ((updAviary_kept h (fun _ h => h)))

theorem usePage_kept {p a0 s} (h : Kept p s)
    (al : autoParam (Allows p 4096) emit_kept._auto_1) : Kept p (usePage a0 s) := by
  unfold usePage
  try dsimp only
  repeat' first
    | with_reducible assumption
    | exact Allows.sub al rfl
    | with_reducible refine updPage_kept ?_ ?_
    | split

theorem releasePage_kept {p a0 s} (h : Kept p s)
    (al : autoParam (Allows p 4096) emit_kept._auto_1) : Kept p (releasePage a0 s) := by
  unfold releasePage
  try dsimp only
  repeat' first
    | with_reducible assumption
    | exact Allows.sub al rfl
    | exact fun _ h => h
    | exact fun _ h => { h with }
    | exact fun _ => rfl
    | exact fun _ => ⟨rfl, rfl⟩
    | with_reducible refine updPage_kept ?_ ?_
    | with_reducible refine updAviary_kept ?_ ?_ ?_
    | with_reducible refine kept_ite (fun _ => ?_) (fun _ => ?_)
    | split

theorem dropSlot_kept {p a0 s} (h : Kept p s)
    (al : autoParam (Allows p 2048) emit_kept._auto_1) : Kept p (dropSlot a0 s) := by
  unfold dropSlot
  try dsimp only
  repeat' first
    | with_reducible assumption
    | exact Allows.sub al rfl
    | with_reducible refine tlbDrop_kept ?_ ?_
    | split

theorem mapPage_kept {p a0 a1 s} (h : Kept p s)
    (al : autoParam (Allows p 6144) emit_kept._auto_1) : Kept p (mapPage a0 a1 s) := by
  unfold mapPage
  try dsimp only
  repeat' first
    | with_reducible assumption
    | exact Allows.sub al rfl
    | exact fun _ h => h
    | exact fun _ h => { h with }
    | exact fun _ => rfl
    | exact fun _ => ⟨rfl, rfl⟩
    | with_reducible refine dropSlot_kept ?_ ?_
    | with_reducible refine updAviary_kept ?_ ?_ ?_
    | split

theorem unmapPage_kept {p a0 s} (h : Kept p s)
    (al : autoParam (Allows p 6144) emit_kept._auto_1) : Kept p (unmapPage a0 s) := by
  unfold unmapPage
  try dsimp only
  repeat' first
    | with_reducible assumption
    | exact Allows.sub al rfl
    | exact fun _ h => h
    | exact fun _ h => { h with }
    | exact fun _ => rfl
    | exact fun _ => ⟨rfl, rfl⟩
    | with_reducible refine releasePage_kept ?_ ?_
    | with_reducible refine dropSlot_kept ?_ ?_
    | with_reducible refine updAviary_kept ?_ ?_ ?_
    | split

theorem endSeq_kept {p a0 s} (h : Kept p s)
    (al : autoParam (Allows p 6144) emit_kept._auto_1) : Kept p (endSeq a0 s) := by
  unfold endSeq
  try dsimp only
  repeat' first
    | with_reducible assumption
    | exact Allows.sub al rfl
    | exact fun _ h => h
    | exact fun _ h => { h with }
    | exact fun _ => rfl
    | exact fun _ => ⟨rfl, rfl⟩
    | with_reducible refine unmapPage_kept ?_ ?_
    | with_reducible refine tlbDrop_kept ?_ ?_
    | with_reducible refine updAviary_kept ?_ ?_ ?_
    | with_reducible refine kept_foldl ?_ (fun _ _ _ => ?_)
    | with_reducible refine kept_foldl_snd ?_ (fun _ _ _ => ?_)
    | with_reducible refine kept_foldl_fst ?_ (fun _ _ _ => ?_)
    | dsimp only
    | split

theorem reserve_kept {p a0 a1 a2 s} (h : Kept p s)
    (al : autoParam (Allows p 4096) emit_kept._auto_1) : KeptOpt p (reserve a0 a1 a2 s) := by
  unfold reserve
  extract_lets -merge -underBinder +onlyGivenNames x0
  have g0 : ∀ y0, Kept p (x0 y0) := by
    intro x
    unfold x0
    try beta_reduce
    exact (updAviary_kept h (fun _ h => h))
  clear_value x0
  refine keptOpt_ite (fun _ => ?_) (fun _ => ?_)
  · exact keptOpt_some (g0 _)
  · refine keptOpt_ite (fun _ => ?_) (fun _ => ?_)
    · exact keptOpt_some (g0 _)
    · exact keptOpt_none

theorem unreserve_kept {p a0 s} (h : Kept p s)
    (al : autoParam (Allows p 4096) emit_kept._auto_1) : Kept p (unreserve a0 s) := by
  unfold unreserve
  exact (updAviary_kept h (fun _ h => h))

theorem wantPage_kept {p a0 s} (h : Kept p s)
    (al : autoParam (Allows p 4096) emit_kept._auto_1) : Kept p (wantPage a0 s) := by
  unfold wantPage
  exact (updAviary_kept h (fun _ h => h))

end Sys2Proof.Machine
end

