-- ==== Sys2Proof/Laws/KeptTiers.lean ====
section
/-! SUPPORT. Every operation of Machine/Tiers.lean keeps the invariant of Safety.lean, leaves the
queue alone and changes no part outside those that the world `p` allows. -/

set_option Elab.async false

namespace Sys2Proof.Machine

theorem takeTransfer_some {p s n t} (h : Kept p s) (e : takeTransfer s = some (n, t))
    (al : autoParam (Allows p 9202305540) emit_kept._auto_1) : Kept p t := by
  unfold takeTransfer at e
  split at e
  · cases e; exact h
  · split at e
    · cases e
    · split at e
      · rename_i e1
        cases e
        exact keptThd_eq (allocOp_kept h) e1
      · cases e

theorem starve_kept {p a0 s} (h : Kept p s)
    (al : autoParam (Allows p 603984388) emit_kept._auto_1) : Kept p (starve a0 s) := by
  unfold starve
  try dsimp only
  repeat' first
    | with_reducible assumption
    | exact Allows.sub al rfl
    | exact fun _ h => h
    | exact fun _ h => { h with }
    | exact fun _ => rfl
    | exact fun _ => ⟨rfl, rfl⟩
    | with_reducible refine logErr_kept ?_ ?_
    | with_reducible refine updAviary_kept ?_ ?_ ?_
    | with_reducible refine kept_ite (fun _ => ?_) (fun _ => ?_)
    | split

theorem loadTransfer_kept {p a0 a1 a2 s} (h : Kept p s)
    (al : autoParam (Allows p 9193916932) emit_kept._auto_1) : Kept p (loadTransfer a0 a1 a2 s) := by
  unfold loadTransfer
  try dsimp only
  repeat' first
    | with_reducible assumption
    | exact Allows.sub al rfl
    | with_reducible refine fillCell_kept ?_ ?_
    | with_reducible refine kept_foldl ?_ (fun _ _ _ => ?_)
    | split

theorem beginTransfer_kept {p a0 a1 a2 a3 s} (h : Kept p s)
    (al : autoParam (Allows p 9193921028) emit_kept._auto_1) : Kept p (beginTransfer a0 a1 a2 a3 s) := by
  unfold beginTransfer
  try dsimp only
  repeat' first
    | with_reducible assumption
    | exact Allows.sub al rfl
    | exact fun _ h => h
    | exact fun _ h => { h with }
    | exact fun _ => rfl
    | exact fun _ => ⟨rfl, rfl⟩
    | with_reducible refine updAviary_kept ?_ ?_ ?_
    | with_reducible refine updPage_kept ?_ ?_
    | with_reducible refine loadTransfer_kept ?_ ?_
    | with_reducible refine readingFor_kept ?_ (fun _ _ => ?_) ?_
    | with_reducible refine noteFrame_kept ?_ ?_
    | with_reducible refine kept_ite (fun _ => ?_) (fun _ => ?_)
    | split

theorem startTransfer_kept {p a0 a1 s} (h : Kept p s)
    (al : autoParam (Allows p 9202309636) emit_kept._auto_1) : Kept p (startTransfer a0 a1 s) := by
  unfold startTransfer
  try dsimp only
  repeat' first
    | with_reducible assumption
    | exact Allows.sub al rfl
    | exact takeTransfer_some h (by assumption) (Allows.sub al rfl)
    | with_reducible refine beginTransfer_kept ?_ ?_
    | with_reducible refine starve_kept ?_ ?_
    | split

theorem moveNow_kept {p a0 a1 s} (h : Kept p s)
    (al : autoParam (Allows p 9202309636) emit_kept._auto_1) : Kept p (moveNow a0 a1 s) := by
  unfold moveNow
  try dsimp only
  repeat' first
    | with_reducible assumption
    | exact Allows.sub al rfl
    | exact takeTransfer_some h (by assumption) (Allows.sub al rfl)
    | with_reducible refine beginTransfer_kept ?_ ?_
    | split

theorem dropTransfer_kept {p a0 a1 s} (h : Kept p s)
    (al : autoParam (Allows p 9202309636) emit_kept._auto_1) : Kept p (dropTransfer a0 a1 s) := by
  unfold dropTransfer
  try dsimp only
  repeat' first
    | with_reducible assumption
    | exact Allows.sub al rfl
    | with_reducible refine updPage_kept ?_ ?_
    | with_reducible refine freeChain_kept ?_ ?_
    | split

theorem startFill_kept {p a0 s} (h : Kept p s)
    (al : autoParam (Allows p 9202309636) emit_kept._auto_1) : Kept p (startFill a0 s) := by
  unfold startFill
  try dsimp only
  repeat' first
    | with_reducible assumption
    | exact Allows.sub al rfl
    | with_reducible refine startTransfer_kept ?_ ?_
    | split

theorem logTransfer_kept {p a0 a1 a2 s} (h : Kept p s)
    (al : autoParam (Allows p 603980292) emit_kept._auto_1) : Kept p (logTransfer a0 a1 a2 s) := by
  unfold logTransfer
  try dsimp only
  repeat' first
    | with_reducible assumption
    | exact Allows.sub al rfl
    | with_reducible refine logErr_kept ?_ ?_
    | with_reducible refine kept_ite (fun _ => ?_) (fun _ => ?_)
    | split

theorem endFill_kept {p a0 a1 a2 s} (h : Kept p s)
    (al : autoParam (Allows p 9202310662) emit_kept._auto_1) : Kept p (endFill a0 a1 a2 s) := by
  unfold endFill
  try dsimp only
  repeat' first
    | with_reducible assumption
    | exact Allows.sub al rfl
    | exact fun _ h => h
    | exact fun _ h => { h with }
    | exact fun _ => rfl
    | exact fun _ => ⟨rfl, rfl⟩
    | with_reducible refine dropTransfer_kept ?_ ?_
    | with_reducible refine updAviary_kept ?_ ?_ ?_
    | with_reducible refine freeBytes_kept ?_ ?_
    | refine keptSnd_eq (freeBytes_kept ?_ ?_) (by assumption)
    | refine (freeBytes_kept ?_ ?_ : KeptSnd p _)
    | with_reducible refine logTransfer_kept ?_ ?_
    | with_reducible refine updPage_kept ?_ ?_
    | with_reducible refine putFrame_kept ?_ ?_
    | with_reducible refine kept_ite (fun _ => ?_) (fun _ => ?_)
    | split

theorem execPageFillComplete_kept {p a0 a1 s} (h : Kept p s)
    (al : autoParam (Allows p 9202310662) emit_kept._auto_1) : KeptRes p (execPageFillComplete a0 a1 s) := by
  unfold execPageFillComplete
  try dsimp only
  repeat' first
    | with_reducible assumption
    | exact Allows.sub al rfl
    | with_reducible refine endFill_kept ?_ ?_
    | with_reducible refine keptRes_inRange ?_ ?_
    | with_reducible refine keptRes_doneIf ?_ ?_
    | with_reducible refine keptRes_ite (fun _ => ?_) (fun _ => ?_)
    | with_reducible refine keptRes_done ?_
    | with_reducible refine keptRes_next ?_
    | split

theorem startSpill_kept {p a0 s} (h : Kept p s)
    (al : autoParam (Allows p 9202309636) emit_kept._auto_1) : Kept p (startSpill a0 s) := by
  unfold startSpill
  try dsimp only
  repeat' first
    | with_reducible assumption
    | exact Allows.sub al rfl
    | exact fun _ h => h
    | exact fun _ h => { h with }
    | exact fun _ => rfl
    | exact fun _ => ⟨rfl, rfl⟩
    | with_reducible refine startTransfer_kept ?_ ?_
    | with_reducible refine updAviary_kept ?_ ?_ ?_
    | with_reducible refine kept_ite (fun _ => ?_) (fun _ => ?_)
    | split

theorem fillIn_kept {p a0 s} (h : Kept p s)
    (al : autoParam (Allows p 9202310662) emit_kept._auto_1) : Kept p (fillIn a0 s) := by
  unfold fillIn
  try dsimp only
  repeat' first
    | with_reducible assumption
    | exact Allows.sub al rfl
    | with_reducible refine startFill_kept ?_ ?_
    | with_reducible refine endFill_kept ?_ ?_
    | with_reducible refine kept_ite (fun _ => ?_) (fun _ => ?_)
    | split

theorem execDemandFill_kept {p a0 s} (h : Kept p s)
    (al : autoParam (Allows p 9202310662) emit_kept._auto_1) : KeptRes p (execDemandFill a0 s) := by
  unfold execDemandFill
  try dsimp only
  repeat' first
    | with_reducible assumption
    | exact Allows.sub al rfl
    | with_reducible refine fillIn_kept ?_ ?_
    | with_reducible refine keptRes_inRange ?_ ?_
    | with_reducible refine keptRes_doneIf ?_ ?_
    | with_reducible refine keptRes_ite (fun _ => ?_) (fun _ => ?_)
    | with_reducible refine keptRes_done ?_
    | with_reducible refine keptRes_next ?_
    | split

theorem countUnused_kept {p a0 s} (h : Kept p s)
    (al : autoParam (Allows p 4096) emit_kept._auto_1) : Kept p (countUnused a0 s) := by
  unfold countUnused
  try dsimp only
  repeat' first
    | with_reducible assumption
    | exact Allows.sub al rfl
    | exact fun _ h => h
    | exact fun _ h => { h with }
    | exact fun _ => rfl
    | exact fun _ => ⟨rfl, rfl⟩
    | with_reducible refine updAviary_kept ?_ ?_ ?_
    | with_reducible refine kept_ite (fun _ => ?_) (fun _ => ?_)
    | split

theorem endSpill_kept {p a0 a1 a2 s} (h : Kept p s)
    (al : autoParam (Allows p 9202310660) emit_kept._auto_1) : Kept p (endSpill a0 a1 a2 s) := by
  unfold endSpill
  try dsimp only
  repeat' first
    | with_reducible assumption
    | exact Allows.sub al rfl
    | exact fun _ h => h
    | exact fun _ h => { h with }
    | exact fun _ => rfl
    | exact fun _ => ⟨rfl, rfl⟩
    | with_reducible refine dropTransfer_kept ?_ ?_
    | with_reducible refine countUnused_kept ?_ ?_
    | with_reducible refine updAviary_kept ?_ ?_ ?_
    | with_reducible refine putFrame_kept ?_ ?_
    | with_reducible refine logTransfer_kept ?_ ?_
    | with_reducible refine updPage_kept ?_ ?_
    | with_reducible refine kept_ite (fun _ => ?_) (fun _ => ?_)
    | split

theorem spillOut_kept {p a0 s} (h : Kept p s)
    (al : autoParam (Allows p 9202310660) emit_kept._auto_1) : Kept p (spillOut a0 s) := by
  unfold spillOut
  try dsimp only
  repeat' first
    | with_reducible assumption
    | exact Allows.sub al rfl
    | with_reducible refine startSpill_kept ?_ ?_
    | with_reducible refine endSpill_kept ?_ ?_
    | with_reducible refine kept_ite (fun _ => ?_) (fun _ => ?_)
    | split

theorem execPageSpill_kept {p s} (h : Kept p s)
    (al : autoParam (Allows p 9202310660) emit_kept._auto_1) : KeptRes p (execPageSpill s) := by
  unfold execPageSpill
  try dsimp only
  repeat' first
    | with_reducible assumption
    | exact Allows.sub al rfl
    | with_reducible refine spillOut_kept ?_ ?_
    | with_reducible refine keptRes_inRange ?_ ?_
    | with_reducible refine keptRes_doneIf ?_ ?_
    | with_reducible refine keptRes_ite (fun _ => ?_) (fun _ => ?_)
    | with_reducible refine keptRes_done ?_
    | with_reducible refine keptRes_next ?_
    | with_reducible refine kept_ite (fun _ => ?_) (fun _ => ?_)
    | split

theorem execPageSpillComplete_kept {p a0 a1 s} (h : Kept p s)
    (al : autoParam (Allows p 9202310660) emit_kept._auto_1) : KeptRes p (execPageSpillComplete a0 a1 s) := by
  unfold execPageSpillComplete
  try dsimp only
  repeat' first
    | with_reducible assumption
    | exact Allows.sub al rfl
    | with_reducible refine endSpill_kept ?_ ?_
    | with_reducible refine keptRes_inRange ?_ ?_
    | with_reducible refine keptRes_doneIf ?_ ?_
    | with_reducible refine keptRes_ite (fun _ => ?_) (fun _ => ?_)
    | with_reducible refine keptRes_done ?_
    | with_reducible refine keptRes_next ?_
    | split

theorem endTransfer_kept {p a0 s} (h : Kept p s)
    (al : autoParam (Allows p 9202310662) emit_kept._auto_1) : Kept p (endTransfer a0 s) := by
  unfold endTransfer
  try dsimp only
  repeat' first
    | with_reducible assumption
    | exact Allows.sub al rfl
    | with_reducible refine endSpill_kept ?_ ?_
    | with_reducible refine endFill_kept ?_ ?_
    | with_reducible refine kept_ite (fun _ => ?_) (fun _ => ?_)
    | split

theorem spillNow_kept {p a0 s} (h : Kept p s)
    (al : autoParam (Allows p 9202310662) emit_kept._auto_1) : Kept p (spillNow a0 s) := by
  unfold spillNow
  try dsimp only
  repeat' first
    | with_reducible assumption
    | exact Allows.sub al rfl
    | exact fun _ h => h
    | exact fun _ h => { h with }
    | exact fun _ => rfl
    | exact fun _ => ⟨rfl, rfl⟩
    | with_reducible refine endTransfer_kept ?_ ?_
    | with_reducible refine updAviary_kept ?_ ?_ ?_
    | with_reducible refine moveNow_kept ?_ ?_
    | split

theorem hotRoom_kept {p s} (h : Kept p s)
    (al : autoParam (Allows p 9202310662) emit_kept._auto_1) : Kept p (hotRoom s) := by
  unfold hotRoom
  try dsimp only
  repeat' first
    | with_reducible assumption
    | exact Allows.sub al rfl
    | with_reducible refine endTransfer_kept ?_ ?_
    | with_reducible refine spillNow_kept ?_ ?_
    | with_reducible refine kept_foldl ?_ (fun _ _ _ => ?_)
    | with_reducible refine kept_foldl_snd ?_ (fun _ _ _ => ?_)
    | with_reducible refine kept_foldl_fst ?_ (fun _ _ _ => ?_)
    | with_reducible refine kept_ite (fun _ => ?_) (fun _ => ?_)
    | dsimp only
    | split

theorem hotNow_kept {p a0 s} (h : Kept p s)
    (al : autoParam (Allows p 9202310662) emit_kept._auto_1) : Kept p (hotNow a0 s) := by
  unfold hotNow
  try dsimp only
  repeat' first
    | with_reducible assumption
    | exact Allows.sub al rfl
    | with_reducible refine endTransfer_kept ?_ ?_
    | with_reducible refine hotRoom_kept ?_ ?_
    | with_reducible refine moveNow_kept ?_ ?_
    | with_reducible refine kept_ite (fun _ => ?_) (fun _ => ?_)
    | split

theorem putPage_kept {p a0 a1 s} (h : Kept p s)
    (al : autoParam (Allows p 9202310662) emit_kept._auto_1) : Kept p (putPage a0 a1 s) := by
  unfold putPage
  try dsimp only
  repeat' first
    | with_reducible assumption
    | exact Allows.sub al rfl
    | with_reducible refine hotNow_kept ?_ ?_
    | with_reducible refine putFrame_kept ?_ ?_
    | split

theorem patchPage_kept {p a0 a1 s} (h : Kept p s)
    (al : autoParam (Allows p 9193916932) emit_kept._auto_1) : Kept p (patchPage a0 a1 s) := by
  unfold patchPage
  try dsimp only
  repeat' first
    | with_reducible assumption
    | exact Allows.sub al rfl
    | with_reducible refine writePhys_kept ?_ ?_
    | split

theorem copyPage_kept {p a0 a1 s} (h : Kept p s)
    (al : autoParam (Allows p 9202310662) emit_kept._auto_1) : KeptSnd p (copyPage a0 a1 s) := by
  unfold copyPage
  try dsimp only
  repeat' first
    | with_reducible assumption
    | exact Allows.sub al rfl
    | with_reducible refine hotNow_kept ?_ ?_
    | with_reducible refine newPage_kept ?_ ?_
    | refine keptSnd_eq (newPage_kept ?_ ?_) (by assumption)
    | refine (newPage_kept ?_ ?_ : KeptSnd p _)
    | with_reducible refine noteFrame_kept ?_ ?_
    | with_reducible refine updPage_kept ?_ ?_
    | with_reducible refine putPage_kept ?_ ?_
    | with_reducible refine keptSnd_ite (fun _ => ?_) (fun _ => ?_)
    | with_reducible refine keptSnd_mk ?_
    | split

theorem ownPage_kept {p a0 a1 s} (h : Kept p s)
    (al : autoParam (Allows p 9202310662) emit_kept._auto_1) : Kept p (ownPage a0 a1 s) := by
  unfold ownPage
  try dsimp only
  repeat' first
    | with_reducible assumption
    | exact Allows.sub al rfl
    | with_reducible refine copyPage_kept ?_ ?_
    | refine keptSnd_eq (copyPage_kept ?_ ?_) (by assumption)
    | refine (copyPage_kept ?_ ?_ : KeptSnd p _)
    | with_reducible refine mapPage_kept ?_ ?_
    | with_reducible refine updPage_kept ?_ ?_
    | with_reducible refine kept_ite (fun _ => ?_) (fun _ => ?_)
    | split

theorem sharePage_kept {p a0 a1 s} (h : Kept p s)
    (al : autoParam (Allows p 9202310662) emit_kept._auto_1) : KeptSnd p (sharePage a0 a1 s) := by
  unfold sharePage
  try dsimp only
  repeat' first
    | with_reducible assumption
    | exact Allows.sub al rfl
    | exact fun _ h => h
    | exact fun _ h => { h with }
    | exact fun _ => rfl
    | exact fun _ => ⟨rfl, rfl⟩
    | with_reducible refine updPage_kept ?_ ?_
    | with_reducible refine copyPage_kept ?_ ?_
    | refine keptSnd_eq (copyPage_kept ?_ ?_) (by assumption)
    | refine (copyPage_kept ?_ ?_ : KeptSnd p _)
    | with_reducible refine updAviary_kept ?_ ?_ ?_
    | with_reducible refine keptSnd_ite (fun _ => ?_) (fun _ => ?_)
    | with_reducible refine keptSnd_mk ?_
    | with_reducible refine kept_ite (fun _ => ?_) (fun _ => ?_)
    | split

end Sys2Proof.Machine
end

