-- ==== Sys2Proof/Laws/KeptAccess.lean ====
section
/-! SUPPORT. Every operation of Machine/Access.lean keeps the invariant of Safety.lean, leaves the
queue alone and changes no part outside those that the world `p` allows. -/

set_option Elab.async false

namespace Sys2Proof.Machine

theorem current_kept {p s} (h : Kept p s)
    (al : autoParam (Allows p 2048) emit_kept._auto_1) : Kept p (current s) := by
  unfold current
  try dsimp only
  repeat' first
    | with_reducible assumption
    | exact Allows.sub al rfl
    | exact fun _ h => h
    | exact fun _ h => { h with }
    | exact fun _ => rfl
    | exact fun _ => ⟨rfl, rfl⟩
    | with_reducible refine updMem_kept ?_ ?_ (fun _ => ⟨rfl, rfl⟩) ?_
    | split

theorem memWf_cells {cs : List Cell} {m : Memory} (h : memWf m = true) :
    memWf (cs.foldl (fun b c => memPut c.addr c.val b) m) = true :=
  memWf_foldl (f := fun c : Cell => (c.addr, c.val)) h

theorem noteRead_kept {p a0 a1 s} (h : Kept p s)
    (al : autoParam (Allows p 9193916932) emit_kept._auto_1) : Kept p (noteRead a0 a1 s) := by
  unfold noteRead
  try dsimp only
  repeat' first
    | with_reducible assumption
    | exact Allows.sub al rfl
    | with_reducible refine correctWord_kept ?_ ?_
    | with_reducible refine unitLine_kept ?_ ?_
    | with_reducible refine logErr_kept ?_ ?_
    | with_reducible refine kept_ite (fun _ => ?_) (fun _ => ?_)
    | split

theorem usePages_kept {p a0 s} (h : Kept p s)
    (al : autoParam (Allows p 4096) emit_kept._auto_1) : Kept p (usePages a0 s) := by
  unfold usePages
  try dsimp only
  repeat' first
    | with_reducible assumption
    | exact Allows.sub al rfl
    | with_reducible refine usePage_kept ?_ ?_
    | with_reducible refine kept_foldl ?_ (fun _ _ _ => ?_)
    | split

theorem countMix_kept {p s} (h : Kept p s)
    (al : autoParam (Allows p 2048) emit_kept._auto_1) : Kept p (countMix s) := by
  unfold countMix
  try dsimp only
  repeat' first
    | with_reducible assumption
    | exact Allows.sub al rfl
    | exact fun _ h => h
    | exact fun _ h => { h with }
    | exact fun _ => rfl
    | exact fun _ => ⟨rfl, rfl⟩
    | with_reducible refine updMem_kept ?_ ?_ ?_ ?_
    | with_reducible refine kept_ite (fun _ => ?_) (fun _ => ?_)
    | split

theorem noteMark_kept {p s a0 s1} (h : Kept p s1)
    (al : autoParam (Allows p 2048) emit_kept._auto_1) : Kept p (noteMark s a0 s1) := by
  unfold noteMark
  try dsimp only
  repeat' first
    | with_reducible assumption
    | exact Allows.sub al rfl
    | with_reducible refine setCause_kept ?_ ?_
    | split

theorem noteReads_kept {p a0 a1 s} (h : Kept p s)
    (al : autoParam (Allows p 9193921028) emit_kept._auto_1) : Kept p (noteReads a0 a1 s) := by
  unfold noteReads
  try dsimp only
  repeat' first
    | with_reducible assumption
    | exact Allows.sub al rfl
    | exact fun _ h => h
    | exact fun _ h => { h with }
    | exact fun _ => rfl
    | exact fun _ => ⟨rfl, rfl⟩
    | with_reducible refine updMem_kept ?_ ?_ (fun _ => ⟨rfl, rfl⟩) ?_
    | with_reducible refine noteRead_kept ?_ ?_
    | with_reducible refine tlbFill_kept ?_ ?_
    | with_reducible refine countMix_kept ?_ ?_
    | with_reducible refine usePages_kept ?_ ?_
    | with_reducible refine noteMark_kept ?_ ?_
    | with_reducible refine kept_foldl ?_ (fun _ _ _ => ?_)
    | with_reducible refine kept_foldl_snd ?_ (fun _ _ _ => ?_)
    | with_reducible refine kept_foldl_fst ?_ (fun _ _ _ => ?_)
    | with_reducible refine kept_ite (fun _ => ?_) (fun _ => ?_)
    | dsimp only
    | split

theorem awaitFor_kept {p a0 s} (h : Kept p s)
    (al : autoParam (Allows p 9202310662) emit_kept._auto_1) : Kept p (awaitFor a0 s) := by
  unfold awaitFor
  try dsimp only
  repeat' first
    | with_reducible assumption
    | exact Allows.sub al rfl
    | with_reducible refine wantPage_kept ?_ ?_
    | with_reducible refine askHost_kept ?_ ?_
    | with_reducible refine ownPage_kept ?_ ?_
    | with_reducible refine kept_ite (fun _ => ?_) (fun _ => ?_)
    | split

theorem writeToken_kept {p a0 a1 a2 s} (h : Kept p s)
    (al : autoParam (Allows p 4096) emit_kept._auto_1) : Kept p (writeToken a0 a1 a2 s) := by
  unfold writeToken
  extract_lets -merge -underBinder +onlyGivenNames x0
  try clear_value x0
  exact (updAviary_kept h (fun _ h => h))

theorem writeOp_kept {p a0 a1 s} (h : Kept p s)
    (al : autoParam (Allows p 9193922052) emit_kept._auto_1) : Kept p (writeOp a0 a1 s) := by
  unfold writeOp
  try dsimp only
  repeat' first
    | with_reducible assumption
    | exact Allows.sub al rfl
    | with_reducible refine usePages_kept ?_ ?_
    | with_reducible refine tlbFill_kept ?_ ?_
    | with_reducible refine writeToken_kept ?_ ?_
    | with_reducible refine settleLine_kept ?_ ?_
    | with_reducible refine writeHost_kept ?_ ?_
    | with_reducible refine writePhys_kept ?_ ?_
    | with_reducible refine kept_foldl ?_ (fun _ _ _ => ?_)
    | split

/-- What an op does while its SRAM writes are not yet visible to every unit: its own work keeps what it keeps. -/
theorem writing_kept {p a0 f s} (h : Kept p s) (g : ∀ s, Kept p s → Kept p (f s))
    (al : autoParam (Allows p 2048) emit_kept._auto_1) : Kept p (writing a0 f s) := by
  unfold writing
  dsimp only
  exact updMem_kept (g _ (updMem_kept h (fun _ h => { h with }))) (fun _ h => { h with })

theorem signalWrites_kept {p a0 a1 s} (h : Kept p s)
    (al : autoParam (Allows p 2048) emit_kept._auto_1) : Kept p (signalWrites a0 a1 s) := by
  unfold signalWrites
  try dsimp only
  repeat' first
    | with_reducible assumption
    | exact Allows.sub al rfl
    | exact fun _ h => h
    | exact fun _ h => { h with }
    | exact fun _ => rfl
    | exact fun _ => ⟨rfl, rfl⟩
    | with_reducible refine updMem_kept ?_ ?_ (fun _ => ⟨rfl, rfl⟩) ?_
    | with_reducible refine kept_ite (fun _ => ?_) (fun _ => ?_)
    | split

theorem seeWrites_kept {p a0 a1 s} (h : Kept p s)
    (al : autoParam (Allows p 2048) emit_kept._auto_1) : Kept p (seeWrites a0 a1 s) := by
  unfold seeWrites
  try dsimp only
  repeat' first
    | with_reducible assumption
    | exact Allows.sub al rfl
    | exact fun _ h => h
    | exact fun _ h => { h with }
    | exact fun _ => rfl
    | exact fun _ => ⟨rfl, rfl⟩
    | with_reducible refine updMem_kept ?_ ?_ (fun _ => ⟨rfl, rfl⟩) ?_
    | with_reducible refine kept_ite (fun _ => ?_) (fun _ => ?_)
    | split

theorem markDeferred_kept {p a0 a1 a2 s} (h : Kept p s)
    (al : autoParam (Allows p 2048) emit_kept._auto_1) : Kept p (markDeferred a0 a1 a2 s) := by
  unfold markDeferred
  try dsimp only
  repeat' first
    | with_reducible assumption
    | exact Allows.sub al rfl
    | exact fun _ h => h
    | exact fun _ h => { h with }
    | exact fun _ => rfl
    | exact fun _ => ⟨rfl, rfl⟩
    | with_reducible refine updMem_kept ?_ ?_ (fun _ => ⟨rfl, rfl⟩) ?_
    | with_reducible refine clearDeferred_kept ?_ ?_
    | with_reducible refine kept_foldl ?_ (fun _ _ _ => ?_)
    | with_reducible refine kept_ite (fun _ => ?_) (fun _ => ?_)
    | split

theorem useDeferred_kept {p a0 s} (h : Kept p s)
    (al : autoParam (Allows p 2048) emit_kept._auto_1) : Kept p (useDeferred a0 s) := by
  unfold useDeferred
  split
  · exact h
  · exact (updMem_kept h (fun _ h => { h with }))

end Sys2Proof.Machine
end

