-- ==== Sys2Proof/Laws/KeptBandstand.lean ====
section
/-! SUPPORT. Every operation of Machine/Bandstand.lean keeps the invariant of Safety.lean, leaves the
queue alone and changes no part outside those that the world `p` allows. -/

set_option Elab.async false

namespace Sys2Proof.Machine

theorem clamp_bounds {lo hi v : Int} (h : lo ≤ hi) : lo ≤ clamp lo hi v ∧ clamp lo hi v ≤ hi := by
  unfold clamp
  split
  · exact ⟨Int.le_refl _, h⟩
  · split
    · exact ⟨h, Int.le_refl _⟩
    · omega

theorem length_insertBy {α : Type} (lt : α → α → Bool) (a : α) (l : List α) : (insertBy lt a l).length = l.length + 1 := by
  induction l with
  | nil => rfl
  | cons b l ih => unfold insertBy; split <;> simp [ih]

theorem length_sortBy {α : Type} (lt : α → α → Bool) (l : List α) : (sortBy lt l).length = l.length := by
  unfold sortBy
  suffices h : ∀ acc : List α, (l.foldl (fun acc a => insertBy lt a acc) acc).length = acc.length + l.length by simpa using h []
  induction l with
  | nil => intro acc; rfl
  | cons b l ih => intro acc; simp only [List.foldl_cons, ih, length_insertBy, List.length_cons]; omega

theorem shiftPin_sound {d : Int} {x : Pin} (h : PinSound x) : PinSound (shiftPin d x) :=
  ⟨by simp only [shiftPin, length_sortBy, List.length_map]; exact h.cues, by simp only [shiftPin, List.length_map]; exact h.reflex,
    h.stamps⟩

theorem shiftLane_sound {d : Int} {x : Lane} (h : LaneSound x) : LaneSound (shiftLane d x) := by
  simp only [LaneSound, shiftLane, length_sortBy, List.length_map]; exact h

theorem idle_kept {p s} (h : Kept p s)
    (al : autoParam (Allows p 8) emit_kept._auto_1) : Kept p (idle s) :=
  updBand_kept h fun b hb => by
    constructor <;> unfold advance <;> split <;> first | exact hb.low | exact hb.high

theorem foldEstimate_kept {p s} (h : Kept p s)
    (al : autoParam (Allows p 8) emit_kept._auto_1) : Kept p (foldEstimate s) := by
  unfold foldEstimate
  exact (updBand_kept h (fun _ h => { h with }))

theorem enterState_kept {p a0 s} (h : Kept p s)
    (al : autoParam (Allows p 805306380) emit_kept._auto_1) : Kept p (enterState a0 s) := by
  unfold enterState
  refine kept_ite (fun _ => ?_) (fun _ => ?_)
  · exact h
  · exact (setTimStat_kept (updBand_kept h (fun _ h => { h with })))

theorem requestStep_kept {p a0 s} (h : Kept p s)
    (al : autoParam (Allows p 8) emit_kept._auto_1) : Kept p (requestStep a0 s) := by
  unfold requestStep
  try dsimp only
  repeat' first
    | with_reducible assumption
    | exact Allows.sub al rfl
    | exact fun _ h => h
    | exact fun _ h => { h with }
    | exact fun _ => rfl
    | exact fun _ => ⟨rfl, rfl⟩
    | with_reducible refine updBand_kept ?_ ?_ ?_
    | with_reducible refine kept_ite (fun _ => ?_) (fun _ => ?_)
    | split

theorem servo_kept {p a s} (h : Kept p s)
    (al : autoParam (Allows p 805306380) emit_kept._auto_1) : Kept p (servo a s) := by
  unfold servo
  extract_lets -merge -underBinder +onlyGivenNames x0 x1
  have h1 : Kept p x1 := updBand_kept h (fun _ h => { h with })
  clear_value x1
  refine kept_ite (fun _ => requestStep_kept (updBand_kept h1 (fun _ h => { h with }))) (fun _ => ?_)
  refine kept_ite (fun _ => requestStep_kept (updBand_kept h1 (fun _ h => { h with }))) (fun _ => ?_)
  extract_lets -merge -underBinder +onlyGivenNames x2 x3 x4 x5 x6 x7
  have h6 : Kept p x6 := updBand_kept h1 fun _ _ =>
    ⟨(clamp_bounds (by decide)).1, (clamp_bounds (by decide)).2⟩
  have h7 : Kept p x7 := kept_ite (fun _ => enterState_kept h6) (fun _ => h6)
  clear_value x7
  exact kept_ite (fun _ => enterState_kept (updBand_kept h7 (fun _ h => { h with }))) (fun _ => h7)

theorem acceptSource_kept {p a0 s} (h : Kept p s)
    (al : autoParam (Allows p 9395240972) emit_kept._auto_1) : Kept p (acceptSource a0 s) := by
  unfold acceptSource
  extract_lets -merge -underBinder +onlyGivenNames x0
  have h0 : Kept p x0 := (updPower_kept (updBand_kept h (fun _ h => { h with })))
  clear_value x0
  refine enterState_kept ?_
  refine kept_ite (fun _ => ?_) (fun _ => ?_)
  · exact (saveLedger_kept h0)
  · exact h0

theorem takeSample_kept {p a0 a1 s} (h : Kept p s)
    (al : autoParam (Allows p 9395240972) emit_kept._auto_1) : Kept p (takeSample a0 a1 s) := by
  unfold takeSample
  refine kept_ite (fun _ => ?_) (fun _ => ?_)
  · exact h
  · extract_lets -merge -underBinder +onlyGivenNames x0
    have h0 : Kept p x0 := by
      unfold x0
      split
      · exact (updBand_kept h (fun _ h => { h with }))
      · exact (updBand_kept h (fun _ h => { h with }))
      · exact (updBand_kept h (fun _ h => { h with }))
      · exact h
    clear_value x0
    extract_lets -merge -underBinder +onlyGivenNames x1
    try clear_value x1
    refine kept_ite (fun _ => ?_) (fun _ => ?_)
    · exact (servo_kept h0)
    · refine kept_ite (fun _ => ?_) (fun _ => ?_)
      · exact (servo_kept (acceptSource_kept h0))
      · exact h0

theorem beaconAt_kept {p d s n} (h : Kept p s)
    (al : autoParam (Allows p 603980308) emit_kept._auto_1) : Kept p (beaconAt d s n) := by
  induction n with
  | zero => exact h
  | succ n ih =>
    unfold beaconAt
    extract_lets -merge -underBinder +onlyGivenNames t
    have ht : Kept p t := ih
    clear_value t
    split
    · exact ht
    · refine kept_ite (fun _ => ht) (fun _ => kept_ite (fun _ => updIsland_kept ht) (fun _ => ?_))
      extract_lets -merge -underBinder +onlyGivenNames e u
      have hu : Kept p u := updIsland_kept ht
      exact kept_ite (fun _ => logErr_kept hu) (fun _ => hu)

theorem sendBeacon_kept {p s} (h : Kept p s)
    (al : autoParam (Allows p 8) emit_kept._auto_1) : Kept p (sendBeacon s) := by
  unfold sendBeacon
  try dsimp only
  repeat' first
    | with_reducible assumption
    | exact Allows.sub al rfl
    | exact fun _ h => h
    | exact fun _ h => { h with }
    | exact fun _ => rfl
    | exact fun _ => ⟨rfl, rfl⟩
    | with_reducible refine updBand_kept ?_ ?_ ?_
    | split

theorem execBeacon_kept {p a0 s} (h : Kept p s)
    (al : autoParam (Allows p 603980316) emit_kept._auto_1) : KeptRes p (execBeacon a0 s) := by
  unfold execBeacon
  try dsimp only
  repeat' first
    | with_reducible assumption
    | exact Allows.sub al rfl
    | with_reducible refine beaconAt_kept ?_ ?_
    | with_reducible refine sendBeacon_kept ?_ ?_
    | with_reducible refine keptRes_inRange ?_ ?_
    | with_reducible refine keptRes_doneIf ?_ ?_
    | with_reducible refine keptRes_ite (fun _ => ?_) (fun _ => ?_)
    | with_reducible refine keptRes_done ?_
    | with_reducible refine keptRes_next ?_
    | split

theorem execBeaconMiss_kept {p a0 s} (h : Kept p s)
    (al : autoParam (Allows p 16) emit_kept._auto_1) : KeptRes p (execBeaconMiss a0 s) := by
  unfold execBeaconMiss
  try dsimp only
  repeat' first
    | with_reducible assumption
    | exact Allows.sub al rfl
    | with_reducible refine updIsland_kept ?_ ?_
    | with_reducible refine keptRes_inRange ?_ ?_
    | with_reducible refine keptRes_doneIf ?_ ?_
    | with_reducible refine keptRes_ite (fun _ => ?_) (fun _ => ?_)
    | with_reducible refine keptRes_done ?_
    | with_reducible refine keptRes_next ?_
    | split

theorem updPtp_kept {p a0 a1 s} (h : Kept p s)
    (al : autoParam (Allows p 8) emit_kept._auto_1) : Kept p (updPtp a0 a1 s) := by
  unfold updPtp
  exact (updBand_kept h (fun _ h => { h with }))

theorem askDelay_kept {p a0 s} (h : Kept p s)
    (al : autoParam (Allows p 12) emit_kept._auto_1) : Kept p (askDelay a0 s) := by
  unfold askDelay
  try dsimp only
  repeat' first
    | with_reducible assumption
    | exact Allows.sub al rfl
    | with_reducible refine emit_kept ?_ ?_
    | with_reducible refine updPtp_kept ?_ ?_
    | split

theorem execPtpMessage_kept {p a0 a1 s} (h : Kept p s)
    (al : autoParam (Allows p 9395240972) emit_kept._auto_1) : KeptRes p (execPtpMessage a0 a1 s) := by
  unfold execPtpMessage
  try dsimp only
  repeat' first
    | with_reducible assumption
    | exact Allows.sub al rfl
    | exact fun _ h => h
    | exact fun _ h => { h with }
    | exact fun _ => rfl
    | exact fun _ => ⟨rfl, rfl⟩
    | with_reducible refine updPtp_kept ?_ ?_
    | with_reducible refine updBand_kept ?_ ?_ ?_
    | with_reducible refine askDelay_kept ?_ ?_
    | with_reducible refine takeSample_kept ?_ ?_
    | with_reducible refine keptRes_inRange ?_ ?_
    | with_reducible refine keptRes_doneIf ?_ ?_
    | with_reducible refine keptRes_ite (fun _ => ?_) (fun _ => ?_)
    | with_reducible refine keptRes_done ?_
    | with_reducible refine keptRes_next ?_
    | with_reducible refine kept_ite (fun _ => ?_) (fun _ => ?_)
    | split

theorem execPpsInEdge_kept {p a0 s} (h : Kept p s)
    (al : autoParam (Allows p 9395240972) emit_kept._auto_1) : KeptRes p (execPpsInEdge a0 s) := by
  unfold execPpsInEdge
  refine keptRes_doneIf ?_ ?_
  · exact (takeSample_kept h)
  · exact h

theorem forgetMaster_kept {p a0 s} (h : Kept p s)
    (al : autoParam (Allows p 8) emit_kept._auto_1) : Kept p (forgetMaster a0 s) := by
  unfold forgetMaster
  try dsimp only
  repeat' first
    | with_reducible assumption
    | exact Allows.sub al rfl
    | with_reducible refine updPtp_kept ?_ ?_
    | split

theorem loseSource_kept {p s} (h : Kept p s)
    (al : autoParam (Allows p 805306380) emit_kept._auto_1) : Kept p (loseSource s) := by
  unfold loseSource
  try dsimp only
  repeat' first
    | with_reducible assumption
    | exact Allows.sub al rfl
    | exact fun _ h => h
    | exact fun _ h => { h with }
    | exact fun _ => rfl
    | exact fun _ => ⟨rfl, rfl⟩
    | with_reducible refine enterState_kept ?_ ?_
    | with_reducible refine updBand_kept ?_ ?_ ?_
    | with_reducible refine forgetMaster_kept ?_ ?_
    | with_reducible refine foldEstimate_kept ?_ ?_
    | split

theorem execDisciplineLoss_kept {p s} (h : Kept p s)
    (al : autoParam (Allows p 805306380) emit_kept._auto_1) : KeptRes p (execDisciplineLoss s) := by
  unfold execDisciplineLoss
  refine keptRes_doneIf ?_ ?_
  · exact (loseSource_kept h)
  · exact h

theorem applyStep_kept {p d s} (h : Kept p s)
    (al : autoParam (Allows p 9395503276) emit_kept._auto_1) : Kept p (applyStep d s) := by
  unfold applyStep
  exact setTimStat_kept { h with
    frame := framedOf h.frame al
    band := ⟨h.band.low, h.band.high⟩
    pins := ⟨(List.length_map ..).trans h.pins.count, forall_map h.pins.each fun _ => shiftPin_sound⟩
    score := ⟨(List.length_map ..).trans h.score.lanes, forall_map h.score.each fun _ => shiftLane_sound, h.score.claims,
      h.score.lens, (List.length_map ..).trans h.score.batches⟩
    streams := (List.length_map ..).trans h.streams }

theorem execStepApply_kept {p s} (h : Kept p s)
    (al : autoParam (Allows p 9395503276) emit_kept._auto_1) : KeptRes p (execStepApply s) := by
  unfold execStepApply
  try dsimp only
  repeat' first
    | with_reducible assumption
    | exact Allows.sub al rfl
    | exact fun _ h => h
    | exact fun _ h => { h with }
    | exact fun _ => rfl
    | exact fun _ => ⟨rfl, rfl⟩
    | with_reducible refine requestStep_kept ?_ ?_
    | with_reducible refine updBand_kept ?_ ?_ ?_
    | with_reducible refine applyStep_kept ?_ ?_
    | with_reducible refine keptRes_inRange ?_ ?_
    | with_reducible refine keptRes_doneIf ?_ ?_
    | with_reducible refine keptRes_ite (fun _ => ?_) (fun _ => ?_)
    | with_reducible refine keptRes_done ?_
    | with_reducible refine keptRes_next ?_
    | with_reducible refine kept_ite (fun _ => ?_) (fun _ => ?_)
    | split

theorem execOscPeriodMeasured_kept {p a0 s} (h : Kept p s)
    (al : autoParam (Allows p 8) emit_kept._auto_1) : KeptRes p (execOscPeriodMeasured a0 s) := by
  unfold execOscPeriodMeasured
  refine keptRes_doneIf ?_ ?_
  · exact (updBand_kept h (fun _ h => { h with }))
  · exact h

theorem execOscChangeover_kept {p s} (h : Kept p s)
    (al : autoParam (Allows p 8) emit_kept._auto_1) : KeptRes p (execOscChangeover s) := by
  unfold execOscChangeover
  refine keptRes_doneIf ?_ ?_
  · exact (updBand_kept (foldEstimate_kept h) (fun _ h => { h with }))
  · exact h

theorem lockPll_kept {p s} (h : Kept p s)
    (al : autoParam (Allows p 805306380) emit_kept._auto_1) : Kept p (lockPll s) := by
  unfold lockPll
  try dsimp only
  repeat' first
    | with_reducible assumption
    | exact Allows.sub al rfl
    | exact fun _ h => h
    | exact fun _ h => { h with }
    | exact fun _ => rfl
    | exact fun _ => ⟨rfl, rfl⟩
    | with_reducible refine updBand_kept ?_ ?_ ?_
    | with_reducible refine foldEstimate_kept ?_ ?_
    | with_reducible refine enterState_kept ?_ ?_
    | with_reducible refine kept_ite (fun _ => ?_) (fun _ => ?_)
    | split

theorem execTimePllLock_kept {p s} (h : Kept p s)
    (al : autoParam (Allows p 805306380) emit_kept._auto_1) : KeptRes p (execTimePllLock s) := by
  unfold execTimePllLock
  refine keptRes_doneIf ?_ ?_
  · exact (lockPll_kept h)
  · exact h

end Sys2Proof.Machine
end

