-- ==== Sys2Proof/Laws/KeptCuePins.lean ====
section
/-! SUPPORT. Every operation of Machine/CuePins.lean keeps the invariant of Safety.lean, leaves the
queue alone and changes no part outside those that the world `p` allows. -/

set_option Elab.async false

namespace Sys2Proof.Machine

theorem length_enqueue (now : Nat) (r : Bool) (c : Cue) (q : List QueuedCue) : (enqueue now r c q).length = q.length + 1 :=
  length_insertBy ..

theorem pinAt {s : State} {p : World} {n : Nat} {x : Pin} (h : Kept p s) (e : s.pins[n]? = some x) : PinSound x :=
  h.pins.each x (List.mem_of_getElem? e)

theorem laneAt {s : State} {p : World} {n : Nat} {x : Lane} (h : Kept p s) (e : s.score.lanes[n]? = some x) : LaneSound x :=
  h.score.each x (List.mem_of_getElem? e)

/-- A pin cue is queued only where there is room. -/
theorem queueCue_sound {now : Nat} {r : Bool} {c : Cue} {x : Pin} (h : PinSound x) (room : x.cues.length < 16) :
    PinSound { x with cues := enqueue now r c x.cues } :=
  { h with cues := by rw [length_enqueue]; omega }

theorem queueReflex_sound {now : Nat} {r : Bool} {c : Cue} {x : Pin} (h : PinSound x) (room : x.reflex.length < 16) :
    PinSound { x with reflex := enqueue now r c x.reflex } :=
  { h with reflex := by rw [length_enqueue]; omega }

theorem dropPinCue_sound {c : QueuedCue} {x : Pin} (h : PinSound x) : PinSound (dropPinCue c x) := by
  have e (l : List QueuedCue) : (l.erase c).length ≤ l.length := (List.erase_sublist ..).length_le
  unfold dropPinCue
  split
  · exact { h with reflex := Nat.le_trans (e _) h.reflex }
  · exact { h with cues := Nat.le_trans (e _) h.cues }

theorem applyAction_sound {a : CueAction} {t : Nat} {x : Pin} (h : PinSound x) : PinSound (applyAction a t x) := by
  unfold applyAction
  split
  · exact { h with }
  · exact { h with }
  · unfold startTrain
    split
    · exact h
    · exact { h with }
  · exact { h with }
  · exact h

theorem countLate_kept {p a0 s} (h : Kept p s)
    (al : autoParam (Allows p 128) emit_kept._auto_1) : Kept p (countLate a0 s) := by
  unfold countLate
  try dsimp only
  repeat' first
    | with_reducible assumption
    | exact Allows.sub al rfl
    | with_reducible refine updBatch_kept ?_ ?_
    | split

theorem stampEdge_sound {r : Bool} {t : Nat} {x : Pin} (h : PinSound x) : PinSound (stampEdge r t x) := by
  unfold stampEdge
  split
  · rename_i c
    exact { h with stamps := by simp only [List.length_append, List.length_cons, List.length_nil]; exact c }
  · exact { h with }

theorem trainPulse_sound {x : Pin} (h : PinSound x) : PinSound (trainPulse x) := by
  unfold trainPulse
  split
  · exact { h with }
  · exact h

theorem drivePin_kept {p n f s} (h : Kept p s) (hf : ∀ x, PinSound x → PinSound (f x))
    (al : autoParam (Allows p 36) emit_kept._auto_1) : Kept p (drivePin n f s) := by
  unfold drivePin
  split
  · exact h
  · exact kept_ite (fun _ => emit_kept (updPin_kept h hf)) (fun _ => updPin_kept h hf)

theorem issueCue_kept {p c s} (h : Kept p s)
    (al : autoParam (Allows p 603980452) emit_kept._auto_1) : Kept p (issueCue c s) := by
  unfold issueCue
  extract_lets now ready
  split
  · exact h
  · rename_i k ht
    split
    · exact h
    · rename_i hs
      refine kept_ite (fun _ => h) (fun r => updLane_kept_at h fun x e => ?_)
      simp only [cueRefused, hs, ht, e] at r
      simp only [LaneSound, length_enqueue]
      simp [cueDepth] at r
      have := of_decide_eq_false r
      omega
    · refine updLane_kept h fun x hx => ?_
      split
      · rename_i r
        simp only [Bool.and_eq_true, decide_eq_true_eq] at r
        simp only [LaneSound, length_enqueue]
        exact r.1
      · exact hx
  · rename_i n ht
    split
    · exact h
    · rename_i x e
      have hx := pinAt h e
      refine kept_ite (fun _ => updPin_kept h (fun _ h => { h with })) (fun d => ?_)
      split
      · refine kept_ite (fun r => updPin_kept_at h fun y ey => ?_) (fun _ => logErr_kept (updPin_kept h (fun _ h => { h with })))
        rw [e] at ey
        cases ey
        exact queueReflex_sound hx r
      · rename_i hs
        refine kept_ite (fun _ => h) (fun r => updPin_kept_at h fun y ey => ?_)
        rw [e] at ey
        cases ey
        simp only [Bool.not_eq_true, Bool.not_eq_false'] at d
        simp [cueRefused, hs, ht, e, d, cueDepth] at r
        exact queueCue_sound hx (Nat.lt_of_not_le (of_decide_eq_false r))
      · refine updPin_kept h fun y hy => ?_
        split
        · rename_i r
          simp only [Bool.and_eq_true, decide_eq_true_eq] at r
          exact queueCue_sound hy r.1
        · exact { hy with }

theorem execCueIssue_kept {p a0 s} (h : Kept p s)
    (al : autoParam (Allows p 603980452) emit_kept._auto_1) : KeptRes p (execCueIssue a0 s) := by
  unfold execCueIssue
  exact keptRes_inRange (keptRes_next (issueCue_kept h)) h

theorem armPinOp_kept {p s} (h : Kept p s)
    (al : autoParam (Allows p 128) emit_kept._auto_1) : Kept p (armPinOp s) := by
  unfold armPinOp
  exact updLane_kept h fun _ hx => hx

theorem releaseHeld_sound {now : Nat} {r : Bool} {x : Pin} (hx : PinSound x) : PinSound (releaseHeld now r x) := by
  unfold releaseHeld
  split
  · split
    · rename_i r
      exact { hx with cues := by rw [length_enqueue]; exact r }
    · exact hx
  · exact hx

theorem execHeldCueRelease_kept {p t s} (h : Kept p s)
    (al : autoParam (Allows p 160) emit_kept._auto_1) : KeptRes p (execHeldCueRelease t s) := by
  unfold execHeldCueRelease
  refine keptRes_inRange ?_ h
  dsimp only
  split
  · exact keptRes_next h
  · refine keptRes_next (updLane_kept h fun x hx => ?_)
    split
    · split
      · rename_i r
        simp only [LaneSound, length_enqueue]
        exact r
      · exact hx
    · exact hx
  · exact keptRes_doneIf (armPinOp_kept (updPin_kept h fun _ hx => releaseHeld_sound hx)) h

theorem takePinCue_kept {p n c s} (h : Kept p s)
    (al : autoParam (Allows p 164) emit_kept._auto_1) : Kept p (takePinCue n c s) := by
  unfold takePinCue
  extract_lets -merge -underBinder +onlyGivenNames now late t
  have ht : Kept p t := updPin_kept h fun _ => dropPinCue_sound
  clear_value t
  refine kept_ite (fun _ => updPin_kept ht (fun _ h => { h with })) (fun _ => ?_)
  extract_lets -merge -underBinder +onlyGivenNames u
  have hu : Kept p u := kept_ite (fun _ => countLate_kept (updPin_kept ht (fun _ h => { h with }))) (fun _ => ht)
  exact drivePin_kept hu fun _ => applyAction_sound

theorem takeLaneCue_kept {p k c s} (h : Kept p s)
    (al : autoParam (Allows p 128) emit_kept._auto_1) : Kept p (takeLaneCue k c s) :=
  updLane_kept h fun x hx => Nat.le_trans ((List.erase_sublist ..).length_le) hx

theorem takePps_kept {p s} (h : Kept p s)
    (al : autoParam (Allows p 12) emit_kept._auto_1) : Kept p (takePps s) := by
  unfold takePps
  try dsimp only
  repeat' first
    | with_reducible assumption
    | exact Allows.sub al rfl
    | with_reducible refine updBand_kept ?_ (fun _ h => { h with }) ?_
    | with_reducible refine emit_kept ?_ ?_
    | with_reducible refine kept_ite (fun _ => ?_) (fun _ => ?_)
    | split

theorem execPulseEnd_kept {p a0 s} (h : Kept p s)
    (al : autoParam (Allows p 36) emit_kept._auto_1) : KeptRes p (execPulseEnd a0 s) := by
  unfold execPulseEnd
  refine keptRes_inRange ?_ h
  split
  · refine keptRes_doneIf ?_ ?_
    · exact (drivePin_kept h (fun _ h => { h with }))
    · exact h
  · exact keptRes_next h

theorem execStrobePeriod_kept {p a0 s} (h : Kept p s)
    (al : autoParam (Allows p 36) emit_kept._auto_1) : KeptRes p (execStrobePeriod a0 s) := by
  unfold execStrobePeriod
  refine keptRes_inRange ?_ h
  split
  · refine keptRes_doneIf ?_ ?_
    · exact (drivePin_kept h fun _ => trainPulse_sound)
    · exact h
  · exact keptRes_next h

theorem reflexSees_kept {p a0 a1 a2 a3 a4 s} (h : Kept p s)
    (al : autoParam (Allows p 603980516) emit_kept._auto_1) : Kept p (reflexSees a0 a1 a2 a3 a4 s) := by
  unfold reflexSees
  split
  · exact h
  · refine kept_ite (fun _ => ?_) (fun _ => ?_)
    · extract_lets -merge -underBinder +onlyGivenNames x0
      try clear_value x0
      refine kept_ite (fun _ => ?_) (fun _ => ?_)
      · exact (updReflex_kept h)
      · exact (issueCue_kept (updReflex_kept h))
    · exact h

theorem execPinEdge_kept {p a0 a1 a2 s} (h : Kept p s)
    (al : autoParam (Allows p 603980516) emit_kept._auto_1) : KeptRes p (execPinEdge a0 a1 a2 s) := by
  unfold execPinEdge
  try dsimp only
  repeat' first
    | with_reducible assumption
    | exact Allows.sub al rfl
    | with_reducible refine reflexSees_kept ?_ ?_
    | with_reducible refine updPin_kept ?_ (fun _ h => { h with }) ?_
    | with_reducible refine updPin_kept ?_ (fun _ h => stampEdge_sound h) ?_
    | with_reducible refine keptRes_inRange ?_ ?_
    | with_reducible refine keptRes_doneIf ?_ ?_
    | with_reducible refine keptRes_ite (fun _ => ?_) (fun _ => ?_)
    | with_reducible refine keptRes_done ?_
    | with_reducible refine keptRes_next ?_
    | with_reducible refine kept_foldl ?_ (fun _ _ _ => ?_)
    | split

theorem execReflexHoldoffEnd_kept {p a0 s} (h : Kept p s)
    (al : autoParam (Allows p 64) emit_kept._auto_1) : KeptRes p (execReflexHoldoffEnd a0 s) := by
  unfold execReflexHoldoffEnd
  try dsimp only
  repeat' first
    | with_reducible assumption
    | exact Allows.sub al rfl
    | with_reducible refine updReflex_kept ?_ ?_
    | with_reducible refine keptRes_inRange ?_ ?_
    | with_reducible refine keptRes_doneIf ?_ ?_
    | with_reducible refine keptRes_ite (fun _ => ?_) (fun _ => ?_)
    | with_reducible refine keptRes_done ?_
    | with_reducible refine keptRes_next ?_
    | split

theorem setPinMode_kept {p n m par s} (h : Kept p s)
    (al : autoParam (Allows p 164) emit_kept._auto_1) : Kept p (setPinMode n m par s) := by
  unfold setPinMode
  extract_lets -merge -underBinder +onlyGivenNames t
  have ht : Kept p t := drivePin_kept h fun x hx => by
    have e : PinSound (if x.mode = m then x else { dropCues x with pulseEnd := none, train := none }) := by
      split
      · exact hx
      · exact ⟨Nat.zero_le _, Nat.zero_le _, hx.stamps⟩
    exact { e with }
  exact kept_ite (fun _ => armPinOp_kept ht) (fun _ => ht)

end Sys2Proof.Machine
end

