-- ==== Sys2Proof/Laws/KeptLocks.lean ====
section
/-! SUPPORT. Every operation of Machine/Locks.lean keeps the invariant of Safety.lean, leaves the
queue alone and changes no part outside those that the world `p` allows. -/

set_option Elab.async false

namespace Sys2Proof.Machine

theorem acquireLock_kept {p a0 a1 a2 s} (h : Kept p s)
    (al : autoParam (Allows p 570425348) emit_kept._auto_1) : Kept p (acquireLock a0 a1 a2 s) := by
  unfold acquireLock
  refine kept_ite (fun _ => ?_) (fun _ => ?_)
  · exact (emit_kept h)
  · extract_lets -merge -underBinder +onlyGivenNames x0
    have h0 : Kept p x0 := (updLock_kept h (fun _ _ => rfl))
    clear_value x0
    extract_lets -merge -underBinder +onlyGivenNames x1
    have h1 : Kept p x1 := by
      refine kept_ite (fun _ => ?_) (fun _ => ?_)
      · exact (updGate_kept h0 (fun _ h => { h with }))
      · exact h0
    clear_value x1
    exact (emit_kept h1)

theorem refuseAcquire_kept {p a0 s} (h : Kept p s)
    (al : autoParam (Allows p 4) emit_kept._auto_1) : Kept p (refuseAcquire a0 s) := by
  unfold refuseAcquire
  try dsimp only
  repeat' first
    | with_reducible assumption
    | exact Allows.sub al rfl
    | with_reducible refine emit_kept ?_ ?_
    | with_reducible refine kept_ite (fun _ => ?_) (fun _ => ?_)
    | split

theorem takeLock_kept {p a0 a1 s} (h : Kept p s)
    (al : autoParam (Allows p 570425348) emit_kept._auto_1) : Kept p (takeLock a0 a1 s) := by
  unfold takeLock
  try dsimp only
  repeat' first
    | with_reducible assumption
    | exact Allows.sub al rfl
    | with_reducible refine emit_kept ?_ ?_
    | with_reducible refine acquireLock_kept ?_ ?_
    | with_reducible refine refuseAcquire_kept ?_ ?_
    | with_reducible refine kept_ite (fun _ => ?_) (fun _ => ?_)
    | split

theorem hostAcquire_kept {p a0 a1 s} (h : Kept p s)
    (al : autoParam (Allows p 637534724) emit_kept._auto_1) : Kept p (hostAcquire a0 a1 s) := by
  unfold hostAcquire
  try dsimp only
  repeat' first
    | with_reducible assumption
    | exact Allows.sub al rfl
    | with_reducible refine emit_kept ?_ ?_
    | with_reducible refine badRequest_kept ?_ ?_
    | with_reducible refine takeLock_kept ?_ ?_
    | with_reducible refine kept_ite (fun _ => ?_) (fun _ => ?_)
    | split

theorem execLockAcquire_kept {p a0 a1 s} (h : Kept p s)
    (al : autoParam (Allows p 637534724) emit_kept._auto_1) : KeptRes p (execLockAcquire a0 a1 s) := by
  unfold execLockAcquire
  try dsimp only
  repeat' first
    | with_reducible assumption
    | exact Allows.sub al rfl
    | with_reducible refine hostAcquire_kept ?_ ?_
    | with_reducible refine takeLock_kept ?_ ?_
    | with_reducible refine keptRes_inRange ?_ ?_
    | with_reducible refine keptRes_doneIf ?_ ?_
    | with_reducible refine keptRes_ite (fun _ => ?_) (fun _ => ?_)
    | with_reducible refine keptRes_done ?_
    | with_reducible refine keptRes_next ?_
    | with_reducible refine kept_ite (fun _ => ?_) (fun _ => ?_)
    | split

theorem refuseRelease_kept {p a0 a1 s} (h : Kept p s)
    (al : autoParam (Allows p 536870916) emit_kept._auto_1) : Kept p (refuseRelease a0 a1 s) := by
  unfold refuseRelease
  try dsimp only
  repeat' first
    | with_reducible assumption
    | exact Allows.sub al rfl
    | exact fun _ h => h
    | exact fun _ h => { h with }
    | exact fun _ => rfl
    | exact fun _ => ⟨rfl, rfl⟩
    | with_reducible refine emit_kept ?_ ?_
    | with_reducible refine updGate_kept ?_ ?_ ?_ ?_
    | with_reducible refine kept_ite (fun _ => ?_) (fun _ => ?_)
    | split

theorem giveLock_kept {p a0 a1 s} (h : Kept p s)
    (al : autoParam (Allows p 570425348) emit_kept._auto_1) : Kept p (giveLock a0 a1 s) := by
  unfold giveLock
  try dsimp only
  repeat' first
    | with_reducible assumption
    | exact Allows.sub al rfl
    | exact fun _ _ => rfl
    | exact fun _ h => h
    | exact fun _ h => { h with }
    | exact fun _ => rfl
    | exact fun _ => ⟨rfl, rfl⟩
    | with_reducible refine emit_kept ?_ ?_
    | with_reducible refine updLock_kept ?_ ?_ ?_
    | with_reducible refine refuseRelease_kept ?_ ?_
    | with_reducible refine kept_ite (fun _ => ?_) (fun _ => ?_)
    | split

theorem execLockRelease_kept {p a0 a1 s} (h : Kept p s)
    (al : autoParam (Allows p 637534724) emit_kept._auto_1) : KeptRes p (execLockRelease a0 a1 s) := by
  unfold execLockRelease
  try dsimp only
  repeat' first
    | with_reducible assumption
    | exact Allows.sub al rfl
    | with_reducible refine hostWrites_kept ?_ (fun _ _ => ?_) ?_
    | with_reducible refine giveLock_kept ?_ ?_
    | with_reducible refine keptRes_inRange ?_ ?_
    | with_reducible refine keptRes_doneIf ?_ ?_
    | with_reducible refine keptRes_ite (fun _ => ?_) (fun _ => ?_)
    | with_reducible refine keptRes_done ?_
    | with_reducible refine keptRes_next ?_
    | with_reducible refine kept_ite (fun _ => ?_) (fun _ => ?_)
    | split

theorem breakContext_kept {p a0 a1 s} (h : Kept p s)
    (al : autoParam (Allows p 33554432) emit_kept._auto_1) : Kept p (breakContext a0 a1 s) :=
  { h with frame := framedOf h.frame al, locks := ⟨(List.length_map ..).trans h.locks.count, forall_map h.locks.each fun x hx => by
      split
      · rfl
      · exact hx⟩ }

theorem breakLocks_kept {p i s} (h : Kept p s)
    (al : autoParam (Allows p 33554432) emit_kept._auto_1) : Kept p (breakLocks i s) :=
  { h with frame := framedOf h.frame al, locks := ⟨(List.length_map ..).trans h.locks.count, forall_map h.locks.each fun x hx => by
      split
      · rfl
      · exact hx⟩ }

theorem breakAllLocks_kept {p s} (h : Kept p s)
    (al : autoParam (Allows p 33554432) emit_kept._auto_1) : Kept p (breakAllLocks s) :=
  { h with frame := framedOf h.frame al, locks := ⟨(List.length_map ..).trans h.locks.count, forall_map h.locks.each fun x hx => by
      split
      · rfl
      · exact hx⟩ }

end Sys2Proof.Machine
end

