-- ==== Sys2Proof/Laws/KeptFrames.lean ====
section
/-! SUPPORT. Every operation of Machine/Frames.lean keeps the invariant of Safety.lean, leaves the
queue alone and changes no part outside those that the world `p` allows. -/

set_option Elab.async false

namespace Sys2Proof.Machine

theorem updFrame_kept {p a0 a1 a2 s} (h : Kept p s)
    (al : autoParam (Allows p 262144) emit_kept._auto_1) : Kept p (updFrame a0 a1 a2 s) := by
  unfold updFrame
  exact (updStream_kept h)

theorem updFrameNum_kept {p a0 a1 a2 s} (h : Kept p s)
    (al : autoParam (Allows p 262144) emit_kept._auto_1) : Kept p (updFrameNum a0 a1 a2 s) := by
  unfold updFrameNum
  exact (updStream_kept h)

theorem skipFrame_kept {p a0 a1 a2 a3 s} (h : Kept p s)
    (al : autoParam (Allows p 262144) emit_kept._auto_1) : Kept p (skipFrame a0 a1 a2 a3 s) := by
  unfold skipFrame
  exact (updFrame_kept h)

theorem addNotice_kept {p x s} (h : Kept p s)
    (al : autoParam (Allows p 1073741824) emit_kept._auto_1) : Kept p (addNotice x s) :=
  updMbx_kept h fun m hm => by
    split
    · exact hm
    · split
      · rename_i r
        exact { hm with notices := by rw [List.length_append]; exact r }
      · exact { hm with }

theorem failTraining_kept {p s} (h : Kept p s)
    (al : autoParam (Allows p 1077936128) emit_kept._auto_1) : Kept p (failTraining s) := by
  unfold failTraining
  split
  · exact h
  · refine addNotice_kept ?_
    exact { h with frame := framedOf (h).frame al }

theorem tearDown_kept {p a0 a1 a2 a3 s} (h : Kept p s)
    (al : autoParam (Allows p 1111752832) emit_kept._auto_1) : Kept p (tearDown a0 a1 a2 a3 s) := by
  unfold tearDown
  try dsimp only
  repeat' first
    | with_reducible assumption
    | exact Allows.sub al rfl
    | with_reducible refine updBatch_kept ?_ ?_
    | with_reducible refine breakContext_kept ?_ ?_
    | with_reducible refine failTraining_kept ?_ ?_
    | with_reducible refine updFrameNum_kept ?_ ?_
    | with_reducible refine kept_foldl ?_ (fun _ _ _ => ?_)
    | with_reducible refine kept_foldl_snd ?_ (fun _ _ _ => ?_)
    | with_reducible refine kept_foldl_fst ?_ (fun _ _ _ => ?_)
    | with_reducible refine kept_ite (fun _ => ?_) (fun _ => ?_)
    | dsimp only
    | split

theorem jobFault_kept {p a0 a1 a2 a3 a4 s} (h : Kept p s)
    (al : autoParam (Allows p 1715733124) emit_kept._auto_1) : Kept p (jobFault a0 a1 a2 a3 a4 s) := by
  unfold jobFault
  extract_lets -merge -underBinder +onlyGivenNames x0
  try clear_value x0
  extract_lets -merge -underBinder +onlyGivenNames x1
  have h1 : Kept p x1 := (logErr_kept h)
  clear_value x1
  split
  · exact (tearDown_kept h1)
  · exact h1

theorem finishCmd_kept {p q cid st r b s} (h : Kept p s)
    (al : autoParam (Allows p 1073741824) emit_kept._auto_1) : Kept p (finishCmd q cid st r b s) := by
  unfold finishCmd
  split
  · rename_i c e
    have hc := List.length_erase_of_mem (List.mem_of_find?_eq_some e)
    have hp := List.length_pos_of_mem (List.mem_of_find?_eq_some e)
    have hi := h.mbx.inProgress
    exact { h with frame := framedOf h.frame al, mbx := { h.mbx with
      inProgress := by
        change (s.mbx.cmds.erase c).length + (s.mbx.ended ++ [_]).length ≤ 256
        simp only [List.length_append, List.length_cons, List.length_nil, hc]; omega } }
  · exact h

theorem updCmd_kept {p q cid f s} (h : Kept p s)
    (al : autoParam (Allows p 1073741824) emit_kept._auto_1) : Kept p (updCmd q cid f s) :=
  updMbx_kept h fun _ h => { h with inProgress := by simpa using h.inProgress }

theorem finishBuf_kept {p a0 a1 a2 a3 a4 s} (h : Kept p s)
    (al : autoParam (Allows p 1073741824) emit_kept._auto_1) : Kept p (finishBuf a0 a1 a2 a3 a4 s) := by
  unfold finishBuf
  try dsimp only
  repeat' first
    | with_reducible assumption
    | exact Allows.sub al rfl
    | with_reducible refine finishCmd_kept ?_ ?_
    | with_reducible refine updCmd_kept ?_ ?_
    | split

theorem dropJobs_kept {p n s} (h : Kept p s)
    (al : autoParam (Allows p 4194304) emit_kept._auto_1) : Kept p (dropJobs n s) := by
  unfold dropJobs
  exact { h with frame := framedOf h.frame al }

theorem countFault_kept {p a0 a1 s} (h : Kept p s)
    (al : autoParam (Allows p 1078198272) emit_kept._auto_1) : Kept p (countFault a0 a1 s) := by
  unfold countFault
  try dsimp only
  repeat' first
    | with_reducible assumption
    | exact Allows.sub al rfl
    | with_reducible refine updStream_kept ?_ ?_
    | with_reducible refine addNotice_kept ?_ ?_
    | with_reducible refine kept_ite (fun _ => ?_) (fun _ => ?_)
    | split
    | with_reducible refine dropJobs_kept ?_ ?_

theorem endBatch_kept {p a0 a1 s} (h : Kept p s)
    (al : autoParam (Allows p 1078198400) emit_kept._auto_1) : Kept p (endBatch a0 a1 s) := by
  unfold endBatch
  split
  · exact h
  · extract_lets -merge -underBinder +onlyGivenNames x0
    have h0 : Kept p x0 := by
      refine kept_foldl ?_ (fun x s h => ?_)
      · exact h
      · refine kept_ite (fun _ => ?_) (fun _ => ?_)
        · exact h
        · exact (countFault_kept h)
    clear_value x0
    exact (updBatchId_kept h0)

end Sys2Proof.Machine
end

