-- ==== Sys2Proof/Laws/KeptDelivery.lean ====
section
/-! SUPPORT. Every operation of Machine/Delivery.lean keeps the invariant of Safety.lean, leaves the
queue alone and changes no part outside those that the world `p` allows. -/

set_option Elab.async false

namespace Sys2Proof.Machine

theorem hostWrite_kept {p a0 a1 s} (h : Kept p s)
    (al : autoParam (Allows p 603981316) emit_kept._auto_1) : Kept p (hostWrite a0 a1 s) := by
  unfold hostWrite
  exact (writeHost_kept h)

theorem updRing_kept {p a0 a1 s} (h : Kept p s)
    (al : autoParam (Allows p 1073741824) emit_kept._auto_1) : Kept p (updRing a0 a1 s) := by
  unfold updRing
  exact (updMbx_kept h (fun _ h => { h with rings := by simpa using h.rings }))

theorem dropForRing_kept {p a0 a1 a2 s} (h : Kept p s)
    (al : autoParam (Allows p 1677985284) emit_kept._auto_1) : Kept p (dropForRing a0 a1 a2 s) := by
  unfold dropForRing
  extract_lets -merge -underBinder +onlyGivenNames x0
  try clear_value x0
  extract_lets -merge -underBinder +onlyGivenNames x1
  have h1 : Kept p x1 := (updRing_kept h)
  clear_value x1
  extract_lets -merge -underBinder +onlyGivenNames x2
  have h2 : Kept p x2 := by
    unfold x2
    split
    · exact (updStream_kept h1)
    · exact h1
  clear_value x2
  extract_lets -merge -underBinder +onlyGivenNames x3
  have h3 : Kept p x3 := (logErr_kept h2)
  clear_value x3
  refine kept_ite (fun _ => ?_) (fun _ => ?_)
  · exact (hostWrite_kept h3)
  · exact h3

theorem deliverRing_kept {p a0 a1 a2 a3 s} (h : Kept p s)
    (al : autoParam (Allows p 1946420740) emit_kept._auto_1) : Kept p (deliverRing a0 a1 a2 a3 s) := by
  unfold deliverRing
  extract_lets -merge -underBinder +onlyGivenNames x0
  try clear_value x0
  extract_lets -merge -underBinder +onlyGivenNames x1
  try clear_value x1
  extract_lets -merge -underBinder +onlyGivenNames x2
  try clear_value x2
  extract_lets -merge -underBinder +onlyGivenNames x3
  try clear_value x3
  extract_lets -merge -underBinder +onlyGivenNames x4
  try clear_value x4
  refine kept_ite (fun _ => ?_) (fun _ => ?_)
  · exact (dropForRing_kept h)
  · refine kept_ite (fun _ => ?_) (fun _ => ?_)
    · extract_lets -merge -underBinder +onlyGivenNames x5
      try clear_value x5
      exact (setDr_kept (hostWrite_kept (updRing_kept (hostWrite_kept h))))
    · refine kept_ite (fun _ => ?_) (fun _ => ?_)
      · extract_lets -merge -underBinder +onlyGivenNames x6
        have h6 : Kept p x6 := (hostWrite_kept (hostWrite_kept h))
        clear_value x6
        extract_lets -merge -underBinder +onlyGivenNames x7
        try clear_value x7
        exact (setDr_kept (hostWrite_kept (updRing_kept h6)))
      · exact (dropForRing_kept h)

theorem dropForRings_kept {p a0 a1 s} (h : Kept p s)
    (al : autoParam (Allows p 1677985284) emit_kept._auto_1) : Kept p (dropForRings a0 a1 s) := by
  unfold dropForRings
  try dsimp only
  repeat' first
    | with_reducible assumption
    | exact Allows.sub al rfl
    | with_reducible refine dropForRing_kept ?_ ?_
    | with_reducible refine kept_foldl ?_ (fun _ _ _ => ?_)
    | with_reducible refine kept_foldl_snd ?_ (fun _ _ _ => ?_)
    | with_reducible refine kept_foldl_fst ?_ (fun _ _ _ => ?_)
    | with_reducible refine kept_ite (fun _ => ?_) (fun _ => ?_)
    | dsimp only
    | split

theorem updUdp_kept {p a0 a1 s} (h : Kept p s)
    (al : autoParam (Allows p 1073741824) emit_kept._auto_1) : Kept p (updUdp a0 a1 s) := by
  unfold updUdp
  exact (updMbx_kept h (fun _ h => { h with udp := by simpa using h.udp }))

theorem askNeighbour_kept {p a0 a1 s} (h : Kept p s)
    (al : autoParam (Allows p 8196) emit_kept._auto_1) : Kept p (askNeighbour a0 a1 s) := by
  unfold askNeighbour
  try dsimp only
  repeat' first
    | with_reducible assumption
    | exact Allows.sub al rfl
    | with_reducible refine emit_kept ?_ ?_
    | with_reducible refine updEth_kept ?_ ?_
    | with_reducible refine kept_ite (fun _ => ?_) (fun _ => ?_)
    | split

theorem flushUdp_kept {p a0 s} (h : Kept p s)
    (al : autoParam (Allows p 1073750020) emit_kept._auto_1) : Kept p (flushUdp a0 s) := by
  unfold flushUdp
  try dsimp only
  repeat' first
    | with_reducible assumption
    | exact Allows.sub al rfl
    | with_reducible refine askNeighbour_kept ?_ ?_
    | with_reducible refine emit_kept ?_ ?_
    | with_reducible refine updUdp_kept ?_ ?_
    | with_reducible refine kept_foldl ?_ (fun _ _ _ => ?_)
    | with_reducible refine kept_foldl_snd ?_ (fun _ _ _ => ?_)
    | with_reducible refine kept_foldl_fst ?_ (fun _ _ _ => ?_)
    | with_reducible refine kept_ite (fun _ => ?_) (fun _ => ?_)
    | dsimp only
    | split

theorem flushAllUdp_kept {p s} (h : Kept p s)
    (al : autoParam (Allows p 1073750020) emit_kept._auto_1) : Kept p (flushAllUdp s) := by
  unfold flushAllUdp
  refine kept_foldl ?_ (fun x s h => ?_)
  · exact h
  · exact (flushUdp_kept h)

theorem deliverUdp_kept {p a0 a1 a2 s} (h : Kept p s)
    (al : autoParam (Allows p 1677730308) emit_kept._auto_1) : Kept p (deliverUdp a0 a1 a2 s) := by
  unfold deliverUdp
  try dsimp only
  repeat' first
    | with_reducible assumption
    | exact Allows.sub al rfl
    | with_reducible refine askNeighbour_kept ?_ ?_
    | with_reducible refine logErr_kept ?_ ?_
    | with_reducible refine updUdp_kept ?_ ?_
    | with_reducible refine flushUdp_kept ?_ ?_
    | with_reducible refine kept_ite (fun _ => ?_) (fun _ => ?_)
    | split

theorem deliverOne_kept {p a0 a1 a2 a3 s} (h : Kept p s)
    (al : autoParam (Allows p 1946428932) emit_kept._auto_1) : Kept p (deliverOne a0 a1 a2 a3 s) := by
  unfold deliverOne
  try dsimp only
  repeat' first
    | with_reducible assumption
    | exact Allows.sub al rfl
    | with_reducible refine deliverUdp_kept ?_ ?_
    | with_reducible refine deliverRing_kept ?_ ?_
    | with_reducible refine kept_ite (fun _ => ?_) (fun _ => ?_)
    | split

theorem deliver_kept {p a0 a1 a2 a3 s} (h : Kept p s)
    (al : autoParam (Allows p 1946428932) emit_kept._auto_1) : Kept p (deliver a0 a1 a2 a3 s) := by
  unfold deliver
  try dsimp only
  repeat' first
    | with_reducible assumption
    | exact Allows.sub al rfl
    | with_reducible refine deliverOne_kept ?_ ?_
    | with_reducible refine kept_foldl ?_ (fun _ _ _ => ?_)
    | with_reducible refine kept_foldl_snd ?_ (fun _ _ _ => ?_)
    | with_reducible refine kept_foldl_fst ?_ (fun _ _ _ => ?_)
    | dsimp only
    | split

theorem journalAdd_kept {p a0 s} (h : Kept p s)
    (al : autoParam (Allows p 2147483648) emit_kept._auto_1) : Kept p (journalAdd a0 s) := by
  unfold journalAdd
  exact { h with frame := framedOf (h).frame al }

theorem emitRecord_kept {p a0 a1 a2 a3 a4 s} (h : Kept p s)
    (al : autoParam (Allows p 4093912580) emit_kept._auto_1) : Kept p (emitRecord a0 a1 a2 a3 a4 s) := by
  unfold emitRecord
  try dsimp only
  repeat' first
    | with_reducible assumption
    | exact Allows.sub al rfl
    | exact fun _ h => h
    | exact fun _ h => { h with }
    | exact fun _ => rfl
    | exact fun _ => ⟨rfl, rfl⟩
    | with_reducible refine deliver_kept ?_ ?_
    | with_reducible refine journalAdd_kept ?_ ?_
    | with_reducible refine updMbx_kept ?_ ?_ ?_
    | split

theorem noticeRecord_kept {p a0 a1 a2 s} (h : Kept p s)
    (al : autoParam (Allows p 4093912580) emit_kept._auto_1) : Kept p (noticeRecord a0 a1 a2 s) := by
  unfold noticeRecord
  try dsimp only
  repeat' first
    | with_reducible assumption
    | exact Allows.sub al rfl
    | exact fun _ h => h
    | exact fun _ h => { h with }
    | exact fun _ => rfl
    | exact fun _ => ⟨rfl, rfl⟩
    | with_reducible refine emitRecord_kept ?_ ?_
    | with_reducible refine updMbx_kept ?_ ?_ ?_
    | with_reducible refine kept_ite (fun _ => ?_) (fun _ => ?_)
    | split

theorem formHeld_kept {p s} (h : Kept p s)
    (al : autoParam (Allows p 4093912580) emit_kept._auto_1) : Kept p (formHeld s) := by
  unfold formHeld
  try dsimp only
  repeat' first
    | with_reducible assumption
    | exact Allows.sub al rfl
    | exact fun _ h => h
    | exact fun _ h => { h with }
    | exact fun _ => rfl
    | exact fun _ => ⟨rfl, rfl⟩
    | with_reducible refine noticeRecord_kept ?_ ?_
    | with_reducible refine updMbx_kept ?_ ?_ ?_
    | with_reducible refine kept_foldl ?_ (fun _ _ _ => ?_)
    | with_reducible refine kept_foldl_snd ?_ (fun _ _ _ => ?_)
    | with_reducible refine kept_foldl_fst ?_ (fun _ _ _ => ?_)
    | dsimp only
    | split

theorem streamState_kept {p a0 a1 a2 a3 a4 s} (h : Kept p s)
    (al : autoParam (Allows p 4093912580) emit_kept._auto_1) : Kept p (streamState a0 a1 a2 a3 a4 s) := by
  unfold streamState
  try dsimp only
  repeat' first
    | with_reducible assumption
    | exact Allows.sub al rfl
    | with_reducible refine noticeRecord_kept ?_ ?_
    | with_reducible refine kept_ite (fun _ => ?_) (fun _ => ?_)
    | split

end Sys2Proof.Machine
end

