-- ==== Sys2Proof/Laws/KeptNumerics.lean ====
section
/-! SUPPORT. Every operation of Machine/Numerics.lean keeps the invariant of Safety.lean, leaves the
queue alone and changes no part outside those that the world `p` allows. -/

set_option Elab.async false

namespace Sys2Proof.Machine

theorem addMeasure_kept {p a0 s} (h : Kept p s)
    (al : autoParam (Allows p 128) emit_kept._auto_1) : Kept p (addMeasure a0 s) := by
  unfold addMeasure
  exact (updScore_kept h (fun _ h => by (repeat' split) <;> first | exact h | exact { h with }))

theorem addDigest_kept {p a0 a1 a2 a3 s} (h : Kept p s)
    (al : autoParam (Allows p 128) emit_kept._auto_1) : Kept p (addDigest a0 a1 a2 a3 s) := by
  unfold addDigest
  exact (updScore_kept h (fun _ h => by (repeat' split) <;> first | exact h | exact { h with }))

theorem ownerDigest_kept {p a0 a1 a2 a3 a4 s} (h : Kept p s)
    (al : autoParam (Allows p 128) emit_kept._auto_1) : Kept p (ownerDigest a0 a1 a2 a3 a4 s) := by
  unfold ownerDigest
  split
  · refine kept_ite (fun _ => ?_) (fun _ => ?_)
    · exact (addDigest_kept h)
    · exact h
  · exact h

theorem settleTag_kept {p a0 a1 a2 s} (h : Kept p s)
    (al : autoParam (Allows p 9193922052) emit_kept._auto_1) : Kept p (settleTag a0 a1 a2 s) := by
  unfold settleTag
  try dsimp only
  repeat' first
    | with_reducible assumption
    | exact Allows.sub al rfl
    | with_reducible refine current_kept ?_ ?_
    | with_reducible refine writeOp_kept ?_ ?_
    | with_reducible refine noteReads_kept ?_ ?_
    | with_reducible refine kept_ite (fun _ => ?_) (fun _ => ?_)
    | split

theorem settleRow_kept {p a0 a1 s} (h : Kept p s)
    (al : autoParam (Allows p 9193922052) emit_kept._auto_1) : Kept p (settleRow a0 a1 s) := by
  unfold settleRow
  try dsimp only
  repeat' first
    | with_reducible assumption
    | exact Allows.sub al rfl
    | with_reducible refine settleTag_kept ?_ ?_
    | with_reducible refine kept_foldl ?_ (fun _ _ _ => ?_)
    | split

theorem settleSample_kept {p a0 a1 a2 a3 a4 a5 s} (h : Kept p s)
    (al : autoParam (Allows p 262272) emit_kept._auto_1) : Kept p (settleSample a0 a1 a2 a3 a4 a5 s) := by
  unfold settleSample
  extract_lets -merge -underBinder +onlyGivenNames x0
  try clear_value x0
  split
  · exact h
  · refine kept_ite (fun _ => ?_) (fun _ => ?_)
    · exact (updFrameNum_kept (updScore_kept h (fun _ h => { h with })))
    · exact h

theorem settleLayer_kept {p a0 a1 a2 s} (h : Kept p s)
    (al : autoParam (Allows p 9194184324) emit_kept._auto_1) : Kept p (settleLayer a0 a1 a2 s) := by
  unfold settleLayer
  extract_lets -merge -underBinder +onlyGivenNames x0
  try clear_value x0
  extract_lets -merge -underBinder +onlyGivenNames x1
  try clear_value x1
  extract_lets -merge -underBinder +onlyGivenNames x2
  have h2 : Kept p x2 := by
    refine kept_foldl ?_ (fun x s h => ?_)
    · exact h
    · exact (settleRow_kept h)
  clear_value x2
  extract_lets -merge -underBinder +onlyGivenNames x3
  try clear_value x3
  refine kept_foldl ?_ (fun x s h => ?_)
  · exact h2
  · exact (settleSample_kept h)

end Sys2Proof.Machine
end

