-- ==== Sys2Proof/Laws/KeptScore.lean ====
section
/-! SUPPORT. Every operation of Machine/Score.lean keeps the invariant of Safety.lean, leaves the
queue alone and changes no part outside those that the world `p` allows. -/

set_option Elab.async false

namespace Sys2Proof.Machine

theorem setToken_kept {p a0 a1 s} (h : Kept p s)
    (al : autoParam (Allows p 128) emit_kept._auto_1) : Kept p (setToken a0 a1 s) := by
  unfold setToken
  exact (updScore_kept h (fun _ h => { h with }))

theorem putCycle_kept {p a0 a1 s} (h : Kept p s)
    (al : autoParam (Allows p 128) emit_kept._auto_1) : Kept p (putCycle a0 a1 s) := by
  unfold putCycle
  try dsimp only
  repeat' first
    | with_reducible assumption
    | exact Allows.sub al rfl
    | exact fun _ h => h
    | exact fun _ h => { h with }
    | exact fun _ => rfl
    | exact fun _ => ⟨rfl, rfl⟩
    | with_reducible refine setToken_kept ?_ ?_
    | with_reducible refine updScore_kept ?_ ?_ ?_
    | split

theorem addToken_kept {p a0 a1 a2 s} (h : Kept p s)
    (al : autoParam (Allows p 1715733124) emit_kept._auto_1) : Kept p (addToken a0 a1 a2 s) := by
  unfold addToken
  try dsimp only
  repeat' first
    | with_reducible assumption
    | exact Allows.sub al rfl
    | with_reducible refine putCycle_kept ?_ ?_
    | with_reducible refine jobFault_kept ?_ ?_
    | with_reducible refine kept_ite (fun _ => ?_) (fun _ => ?_)
    | split

theorem setTokenOp_kept {p a0 a1 s} (h : Kept p s)
    (al : autoParam (Allows p 128) emit_kept._auto_1) : Kept p (setTokenOp a0 a1 s) := by
  unfold setTokenOp
  try dsimp only
  repeat' first
    | with_reducible assumption
    | exact Allows.sub al rfl
    | with_reducible refine putCycle_kept ?_ ?_
    | split

theorem consume_kept {p a0 a1 s} (h : Kept p s)
    (al : autoParam (Allows p 128) emit_kept._auto_1) : Kept p (consume a0 a1 s) := by
  unfold consume
  try dsimp only
  repeat' first
    | with_reducible assumption
    | exact Allows.sub al rfl
    | with_reducible refine putCycle_kept ?_ ?_
    | split

theorem passGate_kept {p a0 a1 s} (h : Kept p s)
    (al : autoParam (Allows p 2176) emit_kept._auto_1) : Kept p (passGate a0 a1 s) := by
  unfold passGate
  try dsimp only
  repeat' first
    | with_reducible assumption
    | exact Allows.sub al rfl
    | with_reducible refine seeWrites_kept ?_ ?_
    | with_reducible refine consume_kept ?_ ?_
    | with_reducible refine kept_ite (fun _ => ?_) (fun _ => ?_)
    | split

theorem signal_kept {p a0 a1 s} (h : Kept p s)
    (al : autoParam (Allows p 1715735172) emit_kept._auto_1) : Kept p (signal a0 a1 s) := by
  unfold signal
  try dsimp only
  repeat' first
    | with_reducible assumption
    | exact Allows.sub al rfl
    | with_reducible refine addToken_kept ?_ ?_
    | with_reducible refine signalWrites_kept ?_ ?_
    | with_reducible refine kept_ite (fun _ => ?_) (fun _ => ?_)
    | split

theorem beginOp_kept {p a0 a1 s} (h : Kept p s)
    (al : autoParam (Allows p 2176) emit_kept._auto_1) : Kept p (beginOp a0 a1 s) := by
  unfold beginOp
  try dsimp only
  repeat' first
    | with_reducible assumption
    | exact Allows.sub al rfl
    | exact fun _ h => h
    | exact fun _ h => { h with }
    | exact fun _ => rfl
    | exact fun _ => ⟨rfl, rfl⟩
    | with_reducible refine updLane_kept ?_ ?_ ?_
    | with_reducible refine passGate_kept ?_ ?_
    | with_reducible refine countLate_kept ?_ ?_
    | with_reducible refine kept_ite (fun _ => ?_) (fun _ => ?_)
    | split

theorem occupy_kept {p a0 a1 a2 a3 s} (h : Kept p s)
    (al : autoParam (Allows p 128) emit_kept._auto_1) : Kept p (occupy a0 a1 a2 a3 s) := by
  unfold occupy
  exact (updLane_kept h (fun _ h => h))

theorem pinPages_kept {p a0 s} (h : Kept p s)
    (al : autoParam (Allows p 4096) emit_kept._auto_1) : Kept p (pinPages a0 s) := by
  unfold pinPages
  try dsimp only
  repeat' first
    | with_reducible assumption
    | exact Allows.sub al rfl
    | with_reducible refine updPage_kept ?_ ?_
    | with_reducible refine usePage_kept ?_ ?_
    | with_reducible refine kept_foldl ?_ (fun _ _ _ => ?_)
    | split

theorem unpinPages_kept {p a0 s} (h : Kept p s)
    (al : autoParam (Allows p 4096) emit_kept._auto_1) : Kept p (unpinPages a0 s) := by
  unfold unpinPages
  refine kept_foldl ?_ (fun x s h => ?_)
  · exact h
  · exact (updPage_kept h)

theorem startOp_kept {p a0 a1 a2 a3 a4 s} (h : Kept p s) (ga4 : ∀ y0 s, Kept p s → Kept p (a4 y0 s))
    (al : autoParam (Allows p 10314063494) emit_kept._auto_1) : KeptRes p (startOp a0 a1 a2 a3 a4 s) := by
  unfold startOp
  try dsimp only
  repeat' first
    | with_reducible assumption
    | exact Allows.sub al rfl
    | with_reducible refine ga4 _ _ ?_
    | exact ga4
    | with_reducible refine occupy_kept ?_ ?_
    | with_reducible refine beginOp_kept ?_ ?_
    | with_reducible refine jobFault_kept ?_ ?_
    | with_reducible refine awaitFor_kept ?_ ?_
    | with_reducible refine keptRes_inRange ?_ ?_
    | with_reducible refine keptRes_doneIf ?_ ?_
    | with_reducible refine keptRes_ite (fun _ => ?_) (fun _ => ?_)
    | with_reducible refine keptRes_done ?_
    | with_reducible refine keptRes_next ?_
    | with_reducible refine kept_foldl ?_ (fun _ _ _ => ?_)
    | with_reducible refine kept_foldl_snd ?_ (fun _ _ _ => ?_)
    | with_reducible refine kept_foldl_fst ?_ (fun _ _ _ => ?_)
    | with_reducible refine kept_ite (fun _ => ?_) (fun _ => ?_)
    | dsimp only
    | split

theorem stampFrames_kept {p a0 a1 a2 s} (h : Kept p s)
    (al : autoParam (Allows p 262144) emit_kept._auto_1) : Kept p (stampFrames a0 a1 a2 s) := by
  unfold stampFrames
  split
  · refine kept_foldl ?_ (fun x s h => ?_)
    · exact h
    · exact (updFrameNum_kept h)
  · exact h

theorem finishBatch_kept {p a0 a1 s} (h : Kept p s)
    (al : autoParam (Allows p 1078198400) emit_kept._auto_1) : Kept p (finishBatch a0 a1 s) := by
  unfold finishBatch
  try dsimp only
  repeat' first
    | with_reducible assumption
    | exact Allows.sub al rfl
    | exact fun _ h => h
    | exact fun _ h => { h with }
    | exact fun _ => rfl
    | exact fun _ => ⟨rfl, rfl⟩
    | with_reducible refine updFrameNum_kept ?_ ?_
    | with_reducible refine updScore_kept ?_ ?_ ?_
    | with_reducible refine endBatch_kept ?_ ?_
    | with_reducible refine stampFrames_kept ?_ ?_
    | with_reducible refine kept_foldl ?_ (fun _ _ _ => ?_)
    | split

theorem finishBatches_kept {p s} (h : Kept p s)
    (al : autoParam (Allows p 10272120452) emit_kept._auto_1) : Kept p (finishBatches s) := by
  unfold finishBatches
  extract_lets -merge -underBinder +onlyGivenNames x0
  try clear_value x0
  refine kept_foldl ?_ (fun x s h => ?_)
  · exact h
  · extract_lets -merge -underBinder +onlyGivenNames x1
    try clear_value x1
    refine kept_ite (fun _ => ?_) (fun _ => ?_)
    · exact (finishBatch_kept h)
    · exact h

theorem execCueTakeEffect_kept {p a0 s} (h : Kept p s)
    (al : autoParam (Allows p 10272120492) emit_kept._auto_1) : KeptRes p (execCueTakeEffect a0 s) := by
  unfold execCueTakeEffect
  try dsimp only
  repeat' first
    | with_reducible assumption
    | exact Allows.sub al rfl
    | with_reducible refine takePps_kept ?_ ?_
    | with_reducible refine finishBatches_kept ?_ ?_
    | with_reducible refine takePinCue_kept ?_ ?_
    | with_reducible refine takeLaneCue_kept ?_ ?_
    | with_reducible refine keptRes_inRange ?_ ?_
    | with_reducible refine keptRes_doneIf ?_ ?_
    | with_reducible refine keptRes_ite (fun _ => ?_) (fun _ => ?_)
    | with_reducible refine keptRes_done ?_
    | with_reducible refine keptRes_next ?_
    | split

theorem closeOp_kept {p a0 a1 s} (h : Kept p s)
    (al : autoParam (Allows p 10305674884) emit_kept._auto_1) : Kept p (closeOp a0 a1 s) := by
  unfold closeOp
  extract_lets -merge -underBinder +onlyGivenNames x0
  have h0 : Kept p x0 := (unpinPages_kept (updLane_kept h (fun _ h => h)))
  clear_value x0
  exact (finishBatches_kept (signal_kept (updScore_kept h0 (fun _ h => { h with }))))

theorem instantOp_kept {p a0 a1 a2 a3 s} (h : Kept p s) (ga3 : ∀ y0 s, Kept p s → Kept p (a3 y0 s))
    (al : autoParam (Allows p 10305674884) emit_kept._auto_1) : KeptRes p (instantOp a0 a1 a2 a3 s) := by
  unfold instantOp
  try dsimp only
  repeat' first
    | with_reducible assumption
    | exact Allows.sub al rfl
    | exact fun _ h => h
    | exact fun _ h => { h with }
    | exact fun _ => rfl
    | exact fun _ => ⟨rfl, rfl⟩
    | with_reducible refine ga3 _ _ ?_
    | exact ga3
    | with_reducible refine beginOp_kept ?_ ?_
    | with_reducible refine jobFault_kept ?_ ?_
    | with_reducible refine finishBatches_kept ?_ ?_
    | with_reducible refine signal_kept ?_ ?_
    | with_reducible refine updScore_kept ?_ ?_ ?_
    | with_reducible refine keptRes_inRange ?_ ?_
    | with_reducible refine keptRes_doneIf ?_ ?_
    | with_reducible refine keptRes_ite (fun _ => ?_) (fun _ => ?_)
    | with_reducible refine keptRes_done ?_
    | with_reducible refine keptRes_next ?_
    | with_reducible refine kept_ite (fun _ => ?_) (fun _ => ?_)
    | split

theorem execNop_kept {p a0 s} (h : Kept p s)
    (al : autoParam (Allows p 10314063494) emit_kept._auto_1) : KeptRes p (execNop a0 s) := by
  unfold execNop
  try dsimp only
  repeat' first
    | with_reducible assumption
    | exact Allows.sub al rfl
    | with_reducible refine instantOp_kept ?_ (fun _ _ _ => ?_) ?_
    | with_reducible refine startOp_kept ?_ (fun _ _ _ => ?_) ?_
    | with_reducible refine occupy_kept ?_ ?_
    | with_reducible refine keptRes_inRange ?_ ?_
    | with_reducible refine keptRes_doneIf ?_ ?_
    | with_reducible refine keptRes_ite (fun _ => ?_) (fun _ => ?_)
    | with_reducible refine keptRes_done ?_
    | with_reducible refine keptRes_next ?_
    | with_reducible refine kept_ite (fun _ => ?_) (fun _ => ?_)
    | split

theorem tokenOp_kept {p a0 a1 s} (h : Kept p s) (ga1 : ∀ y0 s, Kept p s → Kept p (a1 y0 s))
    (al : autoParam (Allows p 1715735172) emit_kept._auto_1) : KeptRes p (tokenOp a0 a1 s) := by
  unfold tokenOp
  split
  · exact keptRes_next h
  · refine keptRes_next (updScore_kept (ga1 _ _ ?_) (fun _ h => { h with }))
    split
    · exact jobFault_kept (beginOp_kept h)
    · exact beginOp_kept h

theorem execTokenSet_kept {p s} (h : Kept p s)
    (al : autoParam (Allows p 1715735172) emit_kept._auto_1) : KeptRes p (execTokenSet s) := by
  unfold execTokenSet
  try dsimp only
  repeat' first
    | with_reducible assumption
    | exact Allows.sub al rfl
    | with_reducible refine tokenOp_kept ?_ (fun _ _ _ => ?_) ?_
    | with_reducible refine setTokenOp_kept ?_ ?_
    | with_reducible refine keptRes_inRange ?_ ?_
    | with_reducible refine keptRes_doneIf ?_ ?_
    | with_reducible refine keptRes_ite (fun _ => ?_) (fun _ => ?_)
    | with_reducible refine keptRes_done ?_
    | with_reducible refine keptRes_next ?_
    | split

theorem execTokenAdd_kept {p s} (h : Kept p s)
    (al : autoParam (Allows p 1715735172) emit_kept._auto_1) : KeptRes p (execTokenAdd s) := by
  unfold execTokenAdd
  refine tokenOp_kept h (fun _ _ k0 => (addToken_kept k0))

theorem execClaimOpen_kept {p s} (h : Kept p s)
    (al : autoParam (Allows p 10305674884) emit_kept._auto_1) : KeptRes p (execClaimOpen s) := by
  unfold execClaimOpen
  try dsimp only
  repeat' first
    | with_reducible assumption
    | exact Allows.sub al rfl
    | with_reducible refine instantOp_kept ?_ (fun _ _ _ => ?_) ?_
    | with_reducible refine updClaim_kept ?_ ?_
    | with_reducible refine keptRes_inRange ?_ ?_
    | with_reducible refine keptRes_doneIf ?_ ?_
    | with_reducible refine keptRes_ite (fun _ => ?_) (fun _ => ?_)
    | with_reducible refine keptRes_done ?_
    | with_reducible refine keptRes_next ?_
    | split

theorem launchFrame_kept {p a0 a1 s} (h : Kept p s)
    (al : autoParam (Allows p 262144) emit_kept._auto_1) : Kept p (launchFrame a0 a1 s) := by
  unfold launchFrame
  split
  · exact h
  · exact (updFrameNum_kept h)

theorem checkFill_kept {p a0 a1 s} (h : Kept p s)
    (al : autoParam (Allows p 1715735172) emit_kept._auto_1) : Kept p (checkFill a0 a1 s) := by
  unfold checkFill
  try dsimp only
  repeat' first
    | with_reducible assumption
    | exact Allows.sub al rfl
    | with_reducible refine signalWrites_kept ?_ ?_
    | with_reducible refine addToken_kept ?_ ?_
    | with_reducible refine updBatch_kept ?_ ?_
    | with_reducible refine kept_foldl ?_ (fun _ _ _ => ?_)
    | with_reducible refine kept_foldl_snd ?_ (fun _ _ _ => ?_)
    | with_reducible refine kept_foldl_fst ?_ (fun _ _ _ => ?_)
    | with_reducible refine kept_ite (fun _ => ?_) (fun _ => ?_)
    | dsimp only
    | split

theorem ringBell_kept {p a0 a1 s} (h : Kept p s)
    (al : autoParam (Allows p 10305669764) emit_kept._auto_1) : Kept p (ringBell a0 a1 s) := by
  unfold ringBell
  try dsimp only
  repeat' first
    | with_reducible assumption
    | exact Allows.sub al rfl
    | with_reducible refine updBatchId_kept ?_ ?_
    | with_reducible refine writing_kept ?_ (fun _ _ => ?_) ?_
    | with_reducible refine writePhys_kept ?_ ?_
    | with_reducible refine checkFill_kept ?_ ?_
    | with_reducible refine launchFrame_kept ?_ ?_
    | with_reducible refine kept_foldl ?_ (fun _ _ _ => ?_)
    | with_reducible refine kept_foldl_snd ?_ (fun _ _ _ => ?_)
    | with_reducible refine kept_foldl_fst ?_ (fun _ _ _ => ?_)
    | dsimp only
    | split

theorem execBell_kept {p s} (h : Kept p s)
    (al : autoParam (Allows p 10305674884) emit_kept._auto_1) : KeptRes p (execBell s) := by
  unfold execBell
  refine instantOp_kept h (fun _ _ k0 => (ringBell_kept k0))

theorem haltScore_kept {p a0 s} (h : Kept p s)
    (al : autoParam (Allows p 8589934720) emit_kept._auto_1) : Kept p (haltScore a0 s) := by
  unfold haltScore
  exact (updScore_kept (updPower_kept h) (fun _ h => { h with }))

theorem goTo_kept {p a0 s} (h : Kept p s)
    (al : autoParam (Allows p 128) emit_kept._auto_1) : Kept p (goTo a0 s) := by
  unfold goTo
  exact (updScore_kept h (fun _ h => { h with }))

theorem execBranchFill_kept {p s} (h : Kept p s)
    (al : autoParam (Allows p 10305674916) emit_kept._auto_1) : KeptRes p (execBranchFill s) := by
  unfold execBranchFill
  try dsimp only
  repeat' first
    | with_reducible assumption
    | exact Allows.sub al rfl
    | with_reducible refine goTo_kept ?_ ?_
    | with_reducible refine issueCue_kept ?_ ?_
    | with_reducible refine instantOp_kept ?_ (fun _ _ _ => ?_) ?_
    | with_reducible refine keptRes_inRange ?_ ?_
    | with_reducible refine keptRes_doneIf ?_ ?_
    | with_reducible refine keptRes_ite (fun _ => ?_) (fun _ => ?_)
    | with_reducible refine keptRes_done ?_
    | with_reducible refine keptRes_next ?_
    | with_reducible refine kept_ite (fun _ => ?_) (fun _ => ?_)
    | split

theorem execJump_kept {p s} (h : Kept p s)
    (al : autoParam (Allows p 10305674884) emit_kept._auto_1) : KeptRes p (execJump s) := by
  unfold execJump
  try dsimp only
  repeat' first
    | with_reducible assumption
    | exact Allows.sub al rfl
    | with_reducible refine haltScore_kept ?_ ?_
    | with_reducible refine goTo_kept ?_ ?_
    | with_reducible refine instantOp_kept ?_ (fun _ _ _ => ?_) ?_
    | with_reducible refine keptRes_inRange ?_ ?_
    | with_reducible refine keptRes_doneIf ?_ ?_
    | with_reducible refine keptRes_ite (fun _ => ?_) (fun _ => ?_)
    | with_reducible refine keptRes_done ?_
    | with_reducible refine keptRes_next ?_
    | with_reducible refine kept_ite (fun _ => ?_) (fun _ => ?_)
    | split

theorem execHalt_kept {p s} (h : Kept p s)
    (al : autoParam (Allows p 10305674884) emit_kept._auto_1) : KeptRes p (execHalt s) := by
  unfold execHalt
  try dsimp only
  repeat' first
    | with_reducible assumption
    | exact Allows.sub al rfl
    | exact fun _ h => h
    | exact fun _ h => { h with }
    | exact fun _ => rfl
    | exact fun _ => ⟨rfl, rfl⟩
    | with_reducible refine updScore_kept ?_ ?_ ?_
    | with_reducible refine haltScore_kept ?_ ?_
    | with_reducible refine instantOp_kept ?_ (fun _ _ _ => ?_) ?_
    | with_reducible refine keptRes_inRange ?_ ?_
    | with_reducible refine keptRes_doneIf ?_ ?_
    | with_reducible refine keptRes_ite (fun _ => ?_) (fun _ => ?_)
    | with_reducible refine keptRes_done ?_
    | with_reducible refine keptRes_next ?_
    | split

theorem execScoreStart_kept {p s} (h : Kept p s)
    (al : autoParam (Allows p 128) emit_kept._auto_1) : KeptRes p (execScoreStart s) := by
  unfold execScoreStart
  extract_lets -merge -underBinder +onlyGivenNames x0
  try clear_value x0
  refine keptRes_doneIf ?_ ?_
  · exact (updScore_kept h (fun _ h => { h with }))
  · exact h

theorem issueOp_kept {p a0 a1 s} (h : Kept p s)
    (al : autoParam (Allows p 603980452) emit_kept._auto_1) : Kept p (issueOp a0 a1 s) := by
  unfold issueOp
  extract_lets -merge -underBinder +onlyGivenNames x0
  try clear_value x0
  extract_lets -merge -underBinder +onlyGivenNames x1
  try clear_value x1
  extract_lets -merge -underBinder +onlyGivenNames x2
  try clear_value x2
  refine kept_ite (fun _ => ?_) (fun _ => ?_)
  · exact (updLane_kept h (fun _ h => h))
  · exact (issueCue_kept h)

theorem countBell_kept {p a0 s} (h : Kept p s)
    (al : autoParam (Allows p 128) emit_kept._auto_1) : Kept p (countBell a0 s) := by
  unfold countBell
  split
  · exact (updBatchId_kept h)
  · exact h

theorem fetchWord_kept {p a0 s} (h : Kept p s)
    (al : autoParam (Allows p 9193916932) emit_kept._auto_1) : Kept p (fetchWord a0 s) := by
  unfold fetchWord
  try dsimp only
  repeat' first
    | with_reducible assumption
    | exact Allows.sub al rfl
    | with_reducible refine unitRead_kept ?_ ?_
    | with_reducible refine kept_foldl ?_ (fun _ _ _ => ?_)
    | with_reducible refine kept_foldl_snd ?_ (fun _ _ _ => ?_)
    | with_reducible refine kept_foldl_fst ?_ (fun _ _ _ => ?_)
    | dsimp only
    | split

theorem issueWord_kept {p s} (h : Kept p s)
    (al : autoParam (Allows p 9193917092) emit_kept._auto_1) : Kept p (issueWord s) := by
  unfold issueWord
  try dsimp only
  repeat' first
    | with_reducible assumption
    | exact Allows.sub al rfl
    | exact fun _ h => h
    | exact fun _ h => { h with }
    | exact fun _ => rfl
    | exact fun _ => ⟨rfl, rfl⟩
    | with_reducible refine issueOp_kept ?_ ?_
    | with_reducible refine countBell_kept ?_ ?_
    | with_reducible refine fetchWord_kept ?_ ?_
    | with_reducible refine updScore_kept ?_ ?_ ?_
    | with_reducible refine kept_foldl ?_ (fun _ _ _ => ?_)
    | with_reducible refine kept_foldl_snd ?_ (fun _ _ _ => ?_)
    | with_reducible refine kept_foldl_fst ?_ (fun _ _ _ => ?_)
    | dsimp only
    | split

theorem execScoreWordIssue_kept {p s} (h : Kept p s)
    (al : autoParam (Allows p 9193917092) emit_kept._auto_1) : KeptRes p (execScoreWordIssue s) := by
  unfold execScoreWordIssue
  refine keptRes_doneIf ?_ ?_
  · exact (issueWord_kept h)
  · exact h

theorem openBatch_kept {p a0 a1 s} (h : Kept p s)
    (al : autoParam (Allows p 9193917060) emit_kept._auto_1) : Kept p (openBatch a0 a1 s) := by
  unfold openBatch
  try dsimp only
  repeat' first
    | with_reducible assumption
    | exact Allows.sub al rfl
    | exact fun _ h => h
    | exact fun _ h => { h with }
    | exact fun _ => rfl
    | exact fun _ => ⟨rfl, rfl⟩
    | with_reducible refine updBatch_kept ?_ ?_
    | with_reducible refine updBatchId_kept ?_ ?_
    | with_reducible refine updScore_kept ?_ ?_ ?_
    | with_reducible refine writing_kept ?_ (fun _ _ => ?_) ?_
    | with_reducible refine writePhys_kept ?_ ?_
    | split

theorem execSteer_kept {p a0 s} (h : Kept p s)
    (al : autoParam (Allows p 10314063494) emit_kept._auto_1) : KeptRes p (execSteer a0 s) := by
  unfold execSteer
  try dsimp only
  repeat' first
    | with_reducible assumption
    | exact Allows.sub al rfl
    | with_reducible refine startOp_kept ?_ (fun _ _ _ => ?_) ?_
    | with_reducible refine occupy_kept ?_ ?_
    | with_reducible refine openBatch_kept ?_ ?_
    | with_reducible refine keptRes_inRange ?_ ?_
    | with_reducible refine keptRes_doneIf ?_ ?_
    | with_reducible refine keptRes_ite (fun _ => ?_) (fun _ => ?_)
    | with_reducible refine keptRes_done ?_
    | with_reducible refine keptRes_next ?_
    | split

theorem pinOp_kept {p a0 a1 s} (h : Kept p s)
    (al : autoParam (Allows p 10305674916) emit_kept._auto_1) : KeptRes p (pinOp a0 a1 s) := by
  unfold pinOp
  try dsimp only
  repeat' first
    | with_reducible assumption
    | exact Allows.sub al rfl
    | with_reducible refine occupy_kept ?_ ?_
    | with_reducible refine issueCue_kept ?_ ?_
    | with_reducible refine beginOp_kept ?_ ?_
    | with_reducible refine instantOp_kept ?_ (fun _ _ _ => ?_) ?_
    | with_reducible refine keptRes_inRange ?_ ?_
    | with_reducible refine keptRes_doneIf ?_ ?_
    | with_reducible refine keptRes_ite (fun _ => ?_) (fun _ => ?_)
    | with_reducible refine keptRes_done ?_
    | with_reducible refine keptRes_next ?_
    | with_reducible refine kept_ite (fun _ => ?_) (fun _ => ?_)
    | split

theorem execPinLevel_kept {p s} (h : Kept p s)
    (al : autoParam (Allows p 10305674916) emit_kept._auto_1) : KeptRes p (execPinLevel s) := by
  unfold execPinLevel
  try dsimp only
  repeat' first
    | with_reducible assumption
    | exact Allows.sub al rfl
    | with_reducible refine pinOp_kept ?_ ?_
    | with_reducible refine keptRes_inRange ?_ ?_
    | with_reducible refine keptRes_doneIf ?_ ?_
    | with_reducible refine keptRes_ite (fun _ => ?_) (fun _ => ?_)
    | with_reducible refine keptRes_done ?_
    | with_reducible refine keptRes_next ?_
    | split

theorem execPinPulse_kept {p s} (h : Kept p s)
    (al : autoParam (Allows p 10305674916) emit_kept._auto_1) : KeptRes p (execPinPulse s) := by
  unfold execPinPulse
  try dsimp only
  repeat' first
    | with_reducible assumption
    | exact Allows.sub al rfl
    | with_reducible refine pinOp_kept ?_ ?_
    | with_reducible refine keptRes_inRange ?_ ?_
    | with_reducible refine keptRes_doneIf ?_ ?_
    | with_reducible refine keptRes_ite (fun _ => ?_) (fun _ => ?_)
    | with_reducible refine keptRes_done ?_
    | with_reducible refine keptRes_next ?_
    | split

theorem execStrobeStart_kept {p s} (h : Kept p s)
    (al : autoParam (Allows p 10305674916) emit_kept._auto_1) : KeptRes p (execStrobeStart s) := by
  unfold execStrobeStart
  try dsimp only
  repeat' first
    | with_reducible assumption
    | exact Allows.sub al rfl
    | with_reducible refine pinOp_kept ?_ ?_
    | with_reducible refine keptRes_inRange ?_ ?_
    | with_reducible refine keptRes_doneIf ?_ ?_
    | with_reducible refine keptRes_ite (fun _ => ?_) (fun _ => ?_)
    | with_reducible refine keptRes_done ?_
    | with_reducible refine keptRes_next ?_
    | split

theorem execStrobeStop_kept {p s} (h : Kept p s)
    (al : autoParam (Allows p 10305674916) emit_kept._auto_1) : KeptRes p (execStrobeStop s) := by
  unfold execStrobeStop
  try dsimp only
  repeat' first
    | with_reducible assumption
    | exact Allows.sub al rfl
    | with_reducible refine pinOp_kept ?_ ?_
    | with_reducible refine keptRes_inRange ?_ ?_
    | with_reducible refine keptRes_doneIf ?_ ?_
    | with_reducible refine keptRes_ite (fun _ => ?_) (fun _ => ?_)
    | with_reducible refine keptRes_done ?_
    | with_reducible refine keptRes_next ?_
    | split

theorem execReflexArm_kept {p s} (h : Kept p s)
    (al : autoParam (Allows p 10305674948) emit_kept._auto_1) : KeptRes p (execReflexArm s) := by
  unfold execReflexArm
  try dsimp only
  repeat' first
    | with_reducible assumption
    | exact Allows.sub al rfl
    | with_reducible refine instantOp_kept ?_ (fun _ _ _ => ?_) ?_
    | with_reducible refine updReflex_kept ?_ ?_
    | with_reducible refine keptRes_inRange ?_ ?_
    | with_reducible refine keptRes_doneIf ?_ ?_
    | with_reducible refine keptRes_ite (fun _ => ?_) (fun _ => ?_)
    | with_reducible refine keptRes_done ?_
    | with_reducible refine keptRes_next ?_
    | split

theorem execDigest_kept {p s} (h : Kept p s)
    (al : autoParam (Allows p 10305674884) emit_kept._auto_1) : KeptRes p (execDigest s) := by
  unfold execDigest
  try dsimp only
  repeat' first
    | with_reducible assumption
    | exact Allows.sub al rfl
    | exact fun _ h => h
    | exact fun _ h => { h with }
    | exact fun _ => rfl
    | exact fun _ => ⟨rfl, rfl⟩
    | with_reducible refine instantOp_kept ?_ (fun _ _ _ => ?_) ?_
    | with_reducible refine updScore_kept ?_ ?_ ?_
    | with_reducible refine keptRes_inRange ?_ ?_
    | with_reducible refine keptRes_doneIf ?_ ?_
    | with_reducible refine keptRes_ite (fun _ => ?_) (fun _ => ?_)
    | with_reducible refine keptRes_done ?_
    | with_reducible refine keptRes_next ?_
    | split

theorem execTrace_kept {p s} (h : Kept p s)
    (al : autoParam (Allows p 10305674884) emit_kept._auto_1) : KeptRes p (execTrace s) := by
  unfold execTrace
  try dsimp only
  repeat' first
    | with_reducible assumption
    | exact Allows.sub al rfl
    | exact fun _ h => h
    | exact fun _ h => { h with }
    | exact fun _ => rfl
    | exact fun _ => ⟨rfl, rfl⟩
    | with_reducible refine instantOp_kept ?_ (fun _ _ _ => ?_) ?_
    | with_reducible refine updScore_kept ?_ ?_ ?_
    | with_reducible refine keptRes_inRange ?_ ?_
    | with_reducible refine keptRes_doneIf ?_ ?_
    | with_reducible refine keptRes_ite (fun _ => ?_) (fun _ => ?_)
    | with_reducible refine keptRes_done ?_
    | with_reducible refine keptRes_next ?_
    | split

theorem poisonFrame_kept {p a0 a1 a2 s} (h : Kept p s)
    (al : autoParam (Allows p 262144) emit_kept._auto_1) : Kept p (poisonFrame a0 a1 a2 s) := by
  unfold poisonFrame
  try dsimp only
  repeat' first
    | with_reducible assumption
    | exact Allows.sub al rfl
    | with_reducible refine updFrameNum_kept ?_ ?_
    | with_reducible refine kept_ite (fun _ => ?_) (fun _ => ?_)
    | split

theorem noteNms_kept {p a0 a1 a2 s} (h : Kept p s)
    (al : autoParam (Allows p 9193916932) emit_kept._auto_1) : Kept p (noteNms a0 a1 a2 s) := by
  unfold noteNms
  try dsimp only
  repeat' first
    | with_reducible assumption
    | exact Allows.sub al rfl
    | with_reducible refine tlbFill_kept ?_ ?_
    | with_reducible refine unitRead_kept ?_ ?_
    | with_reducible refine logErr_kept ?_ ?_
    | with_reducible refine noteMark_kept ?_ ?_
    | with_reducible refine kept_foldl ?_ (fun _ _ _ => ?_)
    | with_reducible refine kept_foldl_snd ?_ (fun _ _ _ => ?_)
    | with_reducible refine kept_foldl_fst ?_ (fun _ _ _ => ?_)
    | with_reducible refine kept_ite (fun _ => ?_) (fun _ => ?_)
    | dsimp only
    | split

theorem setLen_kept {p a0 a1 s} (h : Kept p s)
    (al : autoParam (Allows p 128) emit_kept._auto_1) : Kept p (setLen a0 a1 s) := by
  unfold setLen
  exact (updScore_kept h (fun _ h => { h with lens := by simpa using h.lens }))

theorem mapBatch_kept {p a0 a1 a2 a3 a4 s} (h : Kept p s)
    (al : autoParam (Allows p 10305669764) emit_kept._auto_1) : Kept p (mapBatch a0 a1 a2 a3 a4 s) := by
  unfold mapBatch
  try dsimp only
  repeat' first
    | with_reducible assumption
    | exact Allows.sub al rfl
    | with_reducible refine noteNms_kept ?_ ?_
    | with_reducible refine poisonFrame_kept ?_ ?_
    | with_reducible refine writing_kept ?_ (fun _ _ => ?_) ?_
    | with_reducible refine writePhys_kept ?_ ?_
    | with_reducible refine updBatch_kept ?_ ?_
    | with_reducible refine addToken_kept ?_ ?_
    | with_reducible refine signalWrites_kept ?_ ?_
    | with_reducible refine setLen_kept ?_ ?_
    | with_reducible refine kept_foldl ?_ (fun _ _ _ => ?_)
    | with_reducible refine kept_foldl_snd ?_ (fun _ _ _ => ?_)
    | with_reducible refine kept_foldl_fst ?_ (fun _ _ _ => ?_)
    | dsimp only
    | split

theorem takeDetections_kept {p a0 a1 a2 a3 s} (h : Kept p s)
    (al : autoParam (Allows p 9194179076) emit_kept._auto_1) : Kept p (takeDetections a0 a1 a2 a3 s) := by
  unfold takeDetections
  try dsimp only
  repeat' first
    | with_reducible assumption
    | exact Allows.sub al rfl
    | with_reducible refine updFrameNum_kept ?_ ?_
    | with_reducible refine poisonFrame_kept ?_ ?_
    | with_reducible refine noteNms_kept ?_ ?_
    | with_reducible refine stampFrames_kept ?_ ?_
    | with_reducible refine kept_foldl ?_ (fun _ _ _ => ?_)
    | with_reducible refine kept_foldl_snd ?_ (fun _ _ _ => ?_)
    | with_reducible refine kept_foldl_fst ?_ (fun _ _ _ => ?_)
    | with_reducible refine kept_ite (fun _ => ?_) (fun _ => ?_)
    | dsimp only
    | split

theorem afterNms_kept {p a0 a1 s} (h : Kept p s)
    (al : autoParam (Allows p 10305669764) emit_kept._auto_1) : Kept p (afterNms a0 a1 s) := by
  unfold afterNms
  try dsimp only
  repeat' first
    | with_reducible assumption
    | exact Allows.sub al rfl
    | with_reducible refine addToken_kept ?_ ?_
    | with_reducible refine mapBatch_kept ?_ ?_
    | with_reducible refine takeDetections_kept ?_ ?_
    | with_reducible refine kept_ite (fun _ => ?_) (fun _ => ?_)
    | split

theorem afterLayer_kept {p a0 a1 s} (h : Kept p s)
    (al : autoParam (Allows p 9194184324) emit_kept._auto_1) : Kept p (afterLayer a0 a1 s) := by
  unfold afterLayer
  try dsimp only
  repeat' first
    | with_reducible assumption
    | exact Allows.sub al rfl
    | with_reducible refine writing_kept ?_ (fun _ _ => ?_) ?_
    | with_reducible refine settleLayer_kept ?_ ?_
    | with_reducible refine kept_ite (fun _ => ?_) (fun _ => ?_)
    | split

theorem execOpComplete_kept {p a0 s} (h : Kept p s)
    (al : autoParam (Allows p 10305674884) emit_kept._auto_1) : KeptRes p (execOpComplete a0 s) := by
  unfold execOpComplete
  try dsimp only
  repeat' first
    | with_reducible assumption
    | exact Allows.sub al rfl
    | exact fun _ h => h
    | exact fun _ h => { h with }
    | exact fun _ => rfl
    | exact fun _ => ⟨rfl, rfl⟩
    | with_reducible refine settleWrites_kept ?_ ?_
    | with_reducible refine updLane_kept ?_ ?_ ?_
    | with_reducible refine closeOp_kept ?_ ?_
    | with_reducible refine afterNms_kept ?_ ?_
    | with_reducible refine afterLayer_kept ?_ ?_
    | with_reducible refine keptRes_inRange ?_ ?_
    | with_reducible refine keptRes_doneIf ?_ ?_
    | with_reducible refine keptRes_ite (fun _ => ?_) (fun _ => ?_)
    | with_reducible refine keptRes_done ?_
    | with_reducible refine keptRes_next ?_
    | with_reducible refine kept_ite (fun _ => ?_) (fun _ => ?_)
    | split

theorem tearAll_kept {p a0 s} (h : Kept p s)
    (al : autoParam (Allows p 1111752832) emit_kept._auto_1) : Kept p (tearAll a0 s) := by
  unfold tearAll
  extract_lets -merge -underBinder +onlyGivenNames x0
  try clear_value x0
  refine kept_foldl ?_ (fun x s h => ?_)
  · exact h
  · exact (tearDown_kept h)

theorem execGateWatchdog_kept {p a0 s} (h : Kept p s)
    (al : autoParam (Allows p 1715733124) emit_kept._auto_1) : KeptRes p (execGateWatchdog a0 s) := by
  unfold execGateWatchdog
  split
  · exact keptRes_done h
  · split
    · refine keptRes_ite (fun _ => ?_) (fun _ => keptRes_done h)
      exact keptRes_done (updScore_kept (tearAll_kept (logErr_kept h)) fun c h => { h with
        lanes := by simpa using h.lanes
        each := forall_map h.each fun _ hx => Nat.le_trans (List.length_filter_le ..) hx })
    · exact keptRes_done h

theorem closeTorn_kept {p s} (h : Kept p s)
    (al : autoParam (Allows p 1078198400) emit_kept._auto_1) : Kept p (closeTorn s) := by
  unfold closeTorn
  extract_lets -merge -underBinder +onlyGivenNames x0
  try clear_value x0
  extract_lets -merge -underBinder +onlyGivenNames x1
  have h1 : Kept p x1 := by
    refine kept_foldl ?_ (fun x s h => ?_)
    · exact h
    · exact (endBatch_kept h)
  clear_value x1
  exact (updScore_kept h1 (fun _ h => { h with batches := by simpa using h.batches }))

theorem execScoreRestart_kept {p s} (h : Kept p s)
    (al : autoParam (Allows p 10272113284) emit_kept._auto_1) : KeptRes p (execScoreRestart s) := by
  unfold execScoreRestart
  extract_lets -merge -underBinder +onlyGivenNames x0
  try clear_value x0
  refine keptRes_ite (fun _ => ?_) (fun _ => ?_)
  · extract_lets -merge -underBinder +onlyGivenNames x1
    have h1 : Kept p x1 := (closeTorn_kept h)
    clear_value x1
    extract_lets -merge -underBinder +onlyGivenNames x2
    try clear_value x2
    extract_lets -merge -underBinder +onlyGivenNames x3
    have h3 : Kept p x3 := (updScore_kept h1 (fun _ h => { h with claims := by simpa [zeroClaims] using h.claims }))
    clear_value x3
    refine keptRes_ite (fun _ => ?_) (fun _ => ?_)
    · exact keptRes_next (haltScore_kept h3)
    · split
      · extract_lets -merge -underBinder +onlyGivenNames x4
        have h4 : Kept p x4 := (updScore_kept h3 (fun _ h => { h with }))
        clear_value x4
        exact keptRes_next (logErr_kept h4)
  · exact keptRes_next h

end Sys2Proof.Machine
end

