-- ==== Sys2Proof/Laws/KeptTracking.lean ====
section
/-! SUPPORT. Every operation of Machine/Tracking.lean keeps the invariant of Safety.lean, leaves the
queue alone and changes no part outside those that the world `p` allows. -/

set_option Elab.async false

namespace Sys2Proof.Machine

theorem clearRecords_kept {p l k s} (h : Kept p s)
    (al : autoParam (Allows p 9193916932) emit_kept._auto_1) : Kept p (clearHistories.clearRecords l k s) := by
  unfold clearHistories.clearRecords
  exact kept_foldl h fun _ _ k => writePhys_kept k

theorem addEffects_kept {p a0 a1 a2 s} (h : Kept p s)
    (al : autoParam (Allows p 4096) emit_kept._auto_1) : Kept p (addEffects a0 a1 a2 s) := by
  unfold addEffects
  exact (updAviary_kept h (fun _ h => by (repeat' split) <;> first | exact h | exact { h with }))

theorem eachFrame_kept {p k o f l s} (h : Kept p s) (g : ∀ a s, Kept p s → KeptFst p (f a s))
    (al : autoParam (Allows p 1715733124) emit_kept._auto_1) :
    Kept p (eachFrame k o f l s) := by
  induction l generalizing s with
  | nil => exact h
  | cons a l ih =>
    unfold eachFrame
    split
    · rename_i e; exact ih (keptFst_eq (g a s h) e)
    · rename_i e; exact jobFault_kept (keptFst_eq (g a s h) e)

theorem aviaryRead_kept {p a0 a1 s} (h : Kept p s)
    (al : autoParam (Allows p 9193921028) emit_kept._auto_1) : KeptFst p (aviaryRead a0 a1 s) := by
  unfold aviaryRead
  try dsimp only
  repeat' first
    | with_reducible assumption
    | exact Allows.sub al rfl
    | with_reducible refine useDeferred_kept ?_ ?_
    | with_reducible refine noteReads_kept ?_ ?_
    | with_reducible refine keptFst_ite (fun _ => ?_) (fun _ => ?_)
    | with_reducible refine keptFst_mk ?_
    | split

theorem gatherWork_kept {p a0 a1 a2 a3 s} (h : Kept p s)
    (al : autoParam (Allows p 9194184324) emit_kept._auto_1) : KeptFst p (gatherWork a0 a1 a2 a3 s) := by
  unfold gatherWork
  try dsimp only
  repeat' first
    | with_reducible assumption
    | exact Allows.sub al rfl
    | with_reducible refine aviaryRead_kept ?_ ?_
    | refine keptFst_eq (aviaryRead_kept ?_ ?_) (by assumption)
    | refine (aviaryRead_kept ?_ ?_ : KeptFst p _)
    | with_reducible refine updBatch_kept ?_ ?_
    | with_reducible refine writeOp_kept ?_ ?_
    | with_reducible refine poisonFrame_kept ?_ ?_
    | with_reducible refine addDigest_kept ?_ ?_
    | with_reducible refine keptFst_ite (fun _ => ?_) (fun _ => ?_)
    | with_reducible refine keptFst_mk ?_
    | with_reducible refine kept_foldl ?_ (fun _ _ _ => ?_)
    | with_reducible refine kept_foldl_snd ?_ (fun _ _ _ => ?_)
    | with_reducible refine kept_foldl_fst ?_ (fun _ _ _ => ?_)
    | with_reducible refine kept_ite (fun _ => ?_) (fun _ => ?_)
    | dsimp only
    | split

theorem aviaryOp_kept {p a0 a1 a2 a3 a4 s} (h : Kept p s) (ga4 : ∀ y0 y1 y2 s, Kept p s → Kept p (a4 y0 y1 y2 s))
    (al : autoParam (Allows p 10314063494) emit_kept._auto_1) : KeptRes p (aviaryOp a0 a1 a2 a3 a4 s) := by
  unfold aviaryOp
  try dsimp only
  repeat' first
    | with_reducible assumption
    | exact Allows.sub al rfl
    | with_reducible refine ga4 _ _ _ _ ?_
    | exact ga4
    | with_reducible refine startOp_kept ?_ (fun _ _ _ => ?_) ?_
    | with_reducible refine occupy_kept ?_ ?_
    | with_reducible refine writing_kept ?_ (fun _ _ => ?_) ?_
    | with_reducible refine pinPages_kept ?_ ?_
    | with_reducible refine keptRes_inRange ?_ ?_
    | with_reducible refine keptRes_doneIf ?_ ?_
    | with_reducible refine keptRes_ite (fun _ => ?_) (fun _ => ?_)
    | with_reducible refine keptRes_done ?_
    | with_reducible refine keptRes_next ?_
    | split

theorem execGather_kept {p s} (h : Kept p s)
    (al : autoParam (Allows p 10314063494) emit_kept._auto_1) : KeptRes p (execGather s) := by
  unfold execGather
  try dsimp only
  repeat' first
    | with_reducible assumption
    | exact Allows.sub al rfl
    | with_reducible refine aviaryOp_kept ?_ (fun _ _ _ _ _ => ?_) ?_
    | with_reducible refine eachFrame_kept ?_ (fun _ _ _ => ?_) ?_
    | with_reducible refine gatherWork_kept ?_ ?_
    | refine keptFst_eq (gatherWork_kept ?_ ?_) (by assumption)
    | refine (gatherWork_kept ?_ ?_ : KeptFst p _)
    | with_reducible refine keptRes_inRange ?_ ?_
    | with_reducible refine keptRes_doneIf ?_ ?_
    | with_reducible refine keptRes_ite (fun _ => ?_) (fun _ => ?_)
    | with_reducible refine keptRes_done ?_
    | with_reducible refine keptRes_next ?_
    | split

theorem assocWork_kept {p a0 a1 a2 s} (h : Kept p s)
    (al : autoParam (Allows p 9194184196) emit_kept._auto_1) : KeptFst p (assocWork a0 a1 a2 s) := by
  unfold assocWork
  dsimp only
  split
  · rename_i e; exact keptFst_mk (keptFst_eq (aviaryRead_kept h) e)
  · rename_i e
    have k := keptFst_eq (aviaryRead_kept h) e
    split
    · exact keptFst_mk (poisonFrame_kept k)
    · exact keptFst_mk (writeOp_kept (poisonFrame_kept k))

theorem execAssoc_kept {p s} (h : Kept p s)
    (al : autoParam (Allows p 10314063494) emit_kept._auto_1) : KeptRes p (execAssoc s) := by
  unfold execAssoc
  try dsimp only
  repeat' first
    | with_reducible assumption
    | exact Allows.sub al rfl
    | with_reducible refine aviaryOp_kept ?_ (fun _ _ _ _ _ => ?_) ?_
    | with_reducible refine eachFrame_kept ?_ (fun _ _ _ => ?_) ?_
    | with_reducible refine assocWork_kept ?_ ?_
    | refine keptFst_eq (assocWork_kept ?_ ?_) (by assumption)
    | refine (assocWork_kept ?_ ?_ : KeptFst p _)
    | with_reducible refine keptRes_inRange ?_ ?_
    | with_reducible refine keptRes_doneIf ?_ ?_
    | with_reducible refine keptRes_ite (fun _ => ?_) (fun _ => ?_)
    | with_reducible refine keptRes_done ?_
    | with_reducible refine keptRes_next ?_
    | split

theorem updateWork_kept {p a0 a1 a2 s} (h : Kept p s)
    (al : autoParam (Allows p 9194183172) emit_kept._auto_1) : KeptFst p (updateWork a0 a1 a2 s) := by
  unfold updateWork
  extract_lets r
  clear_value r
  split
  · rename_i e; exact keptFst_mk (keptFst_eq (aviaryRead_kept h) e)
  · rename_i e
    have k := keptFst_eq (aviaryRead_kept h) e
    split
    · exact keptFst_mk k
    · exact keptFst_mk (addEffects_kept (poisonFrame_kept k))

theorem execUpdate_kept {p s} (h : Kept p s)
    (al : autoParam (Allows p 10314063494) emit_kept._auto_1) : KeptRes p (execUpdate s) := by
  unfold execUpdate
  try dsimp only
  repeat' first
    | with_reducible assumption
    | exact Allows.sub al rfl
    | with_reducible refine aviaryOp_kept ?_ (fun _ _ _ _ _ => ?_) ?_
    | with_reducible refine eachFrame_kept ?_ (fun _ _ _ => ?_) ?_
    | with_reducible refine updateWork_kept ?_ ?_
    | refine keptFst_eq (updateWork_kept ?_ ?_) (by assumption)
    | refine (updateWork_kept ?_ ?_ : KeptFst p _)
    | with_reducible refine keptRes_inRange ?_ ?_
    | with_reducible refine keptRes_doneIf ?_ ?_
    | with_reducible refine keptRes_ite (fun _ => ?_) (fun _ => ?_)
    | with_reducible refine keptRes_done ?_
    | with_reducible refine keptRes_next ?_
    | split

theorem setEffects_kept {p a0 a1 a2 s} (h : Kept p s)
    (al : autoParam (Allows p 4096) emit_kept._auto_1) : Kept p (setEffects a0 a1 a2 s) := by
  unfold setEffects
  exact (updAviary_kept h (fun _ h => h))

theorem appendWork_kept {p a0 a1 a2 s} (h : Kept p s)
    (al : autoParam (Allows p 9194183172) emit_kept._auto_1) : KeptFst p (appendWork a0 a1 a2 s) := by
  unfold appendWork
  try dsimp only
  repeat' first
    | with_reducible assumption
    | exact Allows.sub al rfl
    | with_reducible refine aviaryRead_kept ?_ ?_
    | refine keptFst_eq (aviaryRead_kept ?_ ?_) (by assumption)
    | refine (aviaryRead_kept ?_ ?_ : KeptFst p _)
    | with_reducible refine setEffects_kept ?_ ?_
    | with_reducible refine poisonFrame_kept ?_ ?_
    | with_reducible refine keptFst_ite (fun _ => ?_) (fun _ => ?_)
    | with_reducible refine keptFst_mk ?_
    | with_reducible refine kept_foldl ?_ (fun _ _ _ => ?_)
    | with_reducible refine kept_foldl_snd ?_ (fun _ _ _ => ?_)
    | with_reducible refine kept_foldl_fst ?_ (fun _ _ _ => ?_)
    | dsimp only
    | split

theorem execAppend_kept {p s} (h : Kept p s)
    (al : autoParam (Allows p 10314063494) emit_kept._auto_1) : KeptRes p (execAppend s) := by
  unfold execAppend
  try dsimp only
  repeat' first
    | with_reducible assumption
    | exact Allows.sub al rfl
    | with_reducible refine aviaryOp_kept ?_ (fun _ _ _ _ _ => ?_) ?_
    | with_reducible refine eachFrame_kept ?_ (fun _ _ _ => ?_) ?_
    | with_reducible refine appendWork_kept ?_ ?_
    | refine keptFst_eq (appendWork_kept ?_ ?_) (by assumption)
    | refine (appendWork_kept ?_ ?_ : KeptFst p _)
    | with_reducible refine keptRes_inRange ?_ ?_
    | with_reducible refine keptRes_doneIf ?_ ?_
    | with_reducible refine keptRes_ite (fun _ => ?_) (fun _ => ?_)
    | with_reducible refine keptRes_done ?_
    | with_reducible refine keptRes_next ?_
    | split

theorem alistWork_kept {p a0 a1 a2 s} (h : Kept p s)
    (al : autoParam (Allows p 10305674886) emit_kept._auto_1) : Kept p (alistWork a0 a1 a2 s) := by
  unfold alistWork
  extract_lets -merge -underBinder +onlyGivenNames x0
  try clear_value x0
  split
  · rename_i e1
    have h1 := keptSnd_eq (freeBytes_kept h) e1
    extract_lets -merge -underBinder +onlyGivenNames x2
    try clear_value x2
    split
    · exact (jobFault_kept h1)
    · exact (updAviary_kept (writeOp_kept h1) (fun _ h => h))

theorem execAlist_kept {p s} (h : Kept p s)
    (al : autoParam (Allows p 10314063494) emit_kept._auto_1) : KeptRes p (execAlist s) := by
  unfold execAlist
  try dsimp only
  repeat' first
    | with_reducible assumption
    | exact Allows.sub al rfl
    | with_reducible refine aviaryOp_kept ?_ (fun _ _ _ _ _ => ?_) ?_
    | with_reducible refine alistWork_kept ?_ ?_
    | with_reducible refine keptRes_inRange ?_ ?_
    | with_reducible refine keptRes_doneIf ?_ ?_
    | with_reducible refine keptRes_ite (fun _ => ?_) (fun _ => ?_)
    | with_reducible refine keptRes_done ?_
    | with_reducible refine keptRes_next ?_
    | split

theorem updSeq_kept {p a0 a1 s} (h : Kept p s)
    (al : autoParam (Allows p 4096) emit_kept._auto_1) : Kept p (updSeq a0 a1 s) := by
  unfold updSeq
  exact (updAviary_kept h (fun _ h => h))

theorem forkPage_kept {p a0 a1 a2 a3 a4 a5 s} (h : Kept p s)
    (al : autoParam (Allows p 9202310662) emit_kept._auto_1) : Kept p (forkPage a0 a1 a2 a3 a4 a5 s) := by
  unfold forkPage
  split
  · exact h
  · split
    · rename_i e0
      have h0 := keptSnd_eq (p := p) (by
        refine keptSnd_ite (fun _ => ?_) (fun _ => ?_)
        · exact sharePage_kept h
        · exact copyPage_kept h
        ) e0
      exact (mapPage_kept h0)

theorem forkPages_kept {p a0 a1 a2 s} (h : Kept p s)
    (al : autoParam (Allows p 9202310662) emit_kept._auto_1) : Kept p (forkPages a0 a1 a2 s) := by
  unfold forkPages
  split
  · exact h
  · refine kept_foldl ?_ (fun x s h => ?_)
    · exact h
    · refine kept_foldl ?_ (fun x s h => ?_)
      · exact h
      · extract_lets -merge -underBinder +onlyGivenNames x0
        try clear_value x0
        exact (forkPage_kept h)

theorem forkSeq_kept {p a0 a1 a2 s} (h : Kept p s)
    (al : autoParam (Allows p 9202310662) emit_kept._auto_1) : Kept p (forkSeq a0 a1 a2 s) := by
  unfold forkSeq
  extract_lets -merge -underBinder +onlyGivenNames x0
  try clear_value x0
  extract_lets -merge -underBinder +onlyGivenNames x1
  try clear_value x1
  extract_lets -merge -underBinder +onlyGivenNames x2
  try clear_value x2
  extract_lets -merge -underBinder +onlyGivenNames x3
  try clear_value x3
  extract_lets -merge -underBinder +onlyGivenNames x4
  have h4 : Kept p x4 := (updAviary_kept h (fun _ h => h))
  clear_value x4
  split
  · exact (forkPages_kept h4)
  · exact h4

theorem clearHistories_kept {p a0 a1 s} (h : Kept p s)
    (al : autoParam (Allows p 9193916932) emit_kept._auto_1) : Kept p (clearHistories a0 a1 s) := by
  unfold clearHistories
  refine kept_foldl h fun x s h => ?_
  extract_lets l
  exact kept_ite (fun _ => clearRecords_kept h) (fun _ => h)

theorem dropOldest_kept {p a0 a1 a2 s} (h : Kept p s)
    (al : autoParam (Allows p 6144) emit_kept._auto_1) : Kept p (dropOldest a0 a1 a2 s) := by
  unfold dropOldest
  extract_lets -merge -underBinder +onlyGivenNames x0
  have h0 : Kept p x0 := by
    refine kept_foldl ?_ (fun x s h => ?_)
    · exact h
    · exact (unmapPage_kept h)
  clear_value x0
  exact (updSeq_kept h0)

theorem storeKv_kept {p a0 a1 a2 a3 s} (h : Kept p s)
    (al : autoParam (Allows p 9202310662) emit_kept._auto_1) : Kept p (storeKv a0 a1 a2 a3 s) := by
  unfold storeKv
  try dsimp only
  repeat' first
    | with_reducible assumption
    | exact Allows.sub al rfl
    | with_reducible refine ownPage_kept ?_ ?_
    | with_reducible refine newPage_kept ?_ ?_
    | refine keptSnd_eq (newPage_kept ?_ ?_) (by assumption)
    | refine (newPage_kept ?_ ?_ : KeptSnd p _)
    | with_reducible refine mapPage_kept ?_ ?_
    | with_reducible refine hotNow_kept ?_ ?_
    | with_reducible refine usePage_kept ?_ ?_
    | with_reducible refine patchPage_kept ?_ ?_
    | split

theorem commitToken_kept {p a0 a1 a2 a3 s} (h : Kept p s)
    (al : autoParam (Allows p 9202310662) emit_kept._auto_1) : Kept p (commitToken a0 a1 a2 a3 s) := by
  unfold commitToken
  try dsimp only
  repeat' first
    | with_reducible assumption
    | exact Allows.sub al rfl
    | with_reducible refine dropOldest_kept ?_ ?_
    | with_reducible refine updSeq_kept ?_ ?_
    | with_reducible refine storeKv_kept ?_ ?_
    | with_reducible refine kept_foldl ?_ (fun _ _ _ => ?_)
    | with_reducible refine kept_foldl_snd ?_ (fun _ _ _ => ?_)
    | with_reducible refine kept_foldl_fst ?_ (fun _ _ _ => ?_)
    | with_reducible refine kept_ite (fun _ => ?_) (fun _ => ?_)
    | dsimp only
    | split

theorem commitEffect_kept {p a0 a1 a2 a3 s} (h : Kept p s)
    (al : autoParam (Allows p 13497540102) emit_kept._auto_1) : Kept p (commitEffect a0 a1 a2 a3 s) := by
  unfold commitEffect
  split
  · exact (updSeq_kept h)
  · exact (updSeq_kept h)
  · exact (endSeq_kept h)
  · extract_lets -merge -underBinder +onlyGivenNames x0
    try clear_value x0
    extract_lets -merge -underBinder +onlyGivenNames x1
    have h1 : Kept p x1 := (forkSeq_kept h)
    clear_value x1
    exact (updStream_kept (clearHistories_kept h1))
  · exact (updAviary_kept h (fun _ h => h))
  · exact (commitToken_kept h)
  · exact h

theorem dropJournal_kept {p a0 a1 s} (h : Kept p s)
    (al : autoParam (Allows p 4096) emit_kept._auto_1) : Kept p (dropJournal a0 a1 s) := by
  unfold dropJournal
  exact (updAviary_kept h (fun _ h => h))

theorem fillPages_kept {p a0 a1 a2 a3 a4 s} (h : Kept p s)
    (al : autoParam (Allows p 9202310662) emit_kept._auto_1) : Kept p (fillPages a0 a1 a2 a3 a4 s) := by
  unfold fillPages
  try dsimp only
  repeat' first
    | with_reducible assumption
    | exact Allows.sub al rfl
    | with_reducible refine newPage_kept ?_ ?_
    | refine keptSnd_eq (newPage_kept ?_ ?_) (by assumption)
    | refine (newPage_kept ?_ ?_ : KeptSnd p _)
    | with_reducible refine putPage_kept ?_ ?_
    | with_reducible refine mapPage_kept ?_ ?_
    | with_reducible refine kept_foldl ?_ (fun _ _ _ => ?_)
    | with_reducible refine kept_foldl_snd ?_ (fun _ _ _ => ?_)
    | with_reducible refine kept_foldl_fst ?_ (fun _ _ _ => ?_)
    | dsimp only
    | split

theorem encodePrompt_kept {p a0 a1 a2 s} (h : Kept p s)
    (al : autoParam (Allows p 9202310662) emit_kept._auto_1) : Kept p (encodePrompt a0 a1 a2 s) := by
  unfold encodePrompt
  dsimp only
  exact fillPages_kept (updAviary_kept h (fun _ h => (length_upd ..).trans h))

theorem execPromptEncoded_kept {p a0 s} (h : Kept p s)
    (al : autoParam (Allows p 10276052486) emit_kept._auto_1) : KeptRes p (execPromptEncoded a0 s) := by
  unfold execPromptEncoded
  try dsimp only
  repeat' first
    | with_reducible assumption
    | exact Allows.sub al rfl
    | with_reducible refine finishCmd_kept ?_ ?_
    | with_reducible refine encodePrompt_kept ?_ ?_
    | with_reducible refine keptRes_inRange ?_ ?_
    | with_reducible refine keptRes_doneIf ?_ ?_
    | with_reducible refine keptRes_ite (fun _ => ?_) (fun _ => ?_)
    | with_reducible refine keptRes_done ?_
    | with_reducible refine keptRes_next ?_
    | split

end Sys2Proof.Machine
end

