-- ==== Sys2Proof/Laws/KeptLanding.lean ====
section
/-! SUPPORT. Every operation of Machine/Landing.lean keeps the invariant of Safety.lean, leaves the
queue alone and changes no part outside those that the world `p` allows. -/

set_option Elab.async false

namespace Sys2Proof.Machine

theorem passFrame_kept {p a0 a1 a2 s} (h : Kept p s)
    (al : autoParam (Allows p 262144) emit_kept._auto_1) : Kept p (passFrame a0 a1 a2 s) := by
  unfold passFrame
  try dsimp only
  repeat' first
    | with_reducible assumption
    | exact Allows.sub al rfl
    | with_reducible refine updStream_kept ?_ ?_
    | split

theorem numberFrame_kept {p a0 a1 s} (h : Kept p s)
    (al : autoParam (Allows p 262144) emit_kept._auto_1) : Kept p (numberFrame a0 a1 s) := by
  unfold numberFrame
  split
  · refine kept_ite (fun _ => ?_) (fun _ => ?_)
    · exact h
    · exact (updStream_kept (updFrame_kept h))
  · exact h

theorem freeFrame_kept {p a0 a1 s} (h : Kept p s)
    (al : autoParam (Allows p 9202567684) emit_kept._auto_1) : Kept p (freeFrame a0 a1 s) := by
  unfold freeFrame
  split
  · exact (updFrame_kept (freeChain_kept h))
  · exact h

theorem trimRing_kept {p a0 a1 s} (h : Kept p s)
    (al : autoParam (Allows p 9202567684) emit_kept._auto_1) : Kept p (trimRing a0 a1 s) := by
  unfold trimRing
  split
  · exact h
  · extract_lets -merge -underBinder +onlyGivenNames x0
    try clear_value x0
    extract_lets -merge -underBinder +onlyGivenNames x1
    have h1 : Kept p x1 := by
      refine kept_foldl ?_ (fun x s h => ?_)
      · exact h
      · exact (freeChain_kept h)
    clear_value x1
    exact (updStream_kept h1)

theorem keepPreroll_kept {p a0 a1 a2 s} (h : Kept p s)
    (al : autoParam (Allows p 9202567684) emit_kept._auto_1) : Kept p (keepPreroll a0 a1 a2 s) := by
  unfold keepPreroll
  try dsimp only
  repeat' first
    | with_reducible assumption
    | exact Allows.sub al rfl
    | with_reducible refine retainOp_kept ?_ ?_
    | refine (retainOp_kept ?_ ?_ : KeptSnd p _)
    | with_reducible refine updStream_kept ?_ ?_
    | with_reducible refine trimRing_kept ?_ ?_
    | with_reducible refine kept_ite (fun _ => ?_) (fun _ => ?_)
    | split

theorem endClip_kept {p a0 a1 s} (h : Kept p s)
    (al : autoParam (Allows p 10276211204) emit_kept._auto_1) : Kept p (endClip a0 a1 s) := by
  unfold endClip
  split
  · exact h
  · extract_lets -merge -underBinder +onlyGivenNames x0
    have h0 : Kept p x0 := kept_foldl h (fun x s h => freeChain_kept h)
    clear_value x0
    extract_lets -merge -underBinder +onlyGivenNames x1
    have h1 : Kept p x1 := { h0 with
      clips := (List.length_set ..).trans h0.clips, fountains := (List.length_map ..).trans h0.fountains
      frame := framedOf h0.frame al }
    clear_value x1
    split
    · exact finishBuf_kept h1
    · exact h1

theorem updDecoder_kept {p a0 a1 s} (h : Kept p s)
    (al : autoParam (Allows p 262144) emit_kept._auto_1) : Kept p (updDecoder a0 a1 s) := by
  unfold updDecoder
  try dsimp only
  repeat' first
    | with_reducible assumption
    | exact Allows.sub al rfl
    | with_reducible refine updStream_kept ?_ ?_
    | split

theorem clipTake_kept {p a0 a1 a2 s} (h : Kept p s)
    (al : autoParam (Allows p 9202436612) emit_kept._auto_1) : Kept p (clipTake a0 a1 a2 s) := by
  unfold clipTake
  split
  · exact h
  · refine kept_ite (fun _ => ?_) (fun _ => ?_)
    · exact h
    · refine kept_ite (fun _ => ?_) (fun _ => ?_)
      · exact (updClip_kept h)
      · refine kept_ite (fun _ => ?_) (fun _ => ?_)
        · exact (updClip_kept h)
        · split
          · rename_i e0
            have h0 := keptSnd_eq (p := p) (by
              refine keptSnd_ite (fun _ => ?_) (fun _ => ?_)
              · exact keptSnd_mk h
              · exact retainOp_kept h
              ) e0
            refine kept_ite (fun _ => ?_) (fun _ => ?_)
            · exact (updClip_kept h0)
            · exact (updClip_kept h0)

theorem clipsTake_kept {p a0 a1 s} (h : Kept p s)
    (al : autoParam (Allows p 9202436612) emit_kept._auto_1) : Kept p (clipsTake a0 a1 s) := by
  unfold clipsTake
  refine kept_foldl ?_ (fun x s h => ?_)
  · exact h
  · exact (clipTake_kept h)

theorem endIngest_kept {p a0 a1 a2 a3 s} (h : Kept p s)
    (al : autoParam (Allows p 9202698756) emit_kept._auto_1) : Kept p (endIngest a0 a1 a2 a3 s) := by
  unfold endIngest
  split
  · exact h
  · extract_lets -merge -underBinder +onlyGivenNames x0
    try clear_value x0
    extract_lets -merge -underBinder +onlyGivenNames x1
    try clear_value x1
    extract_lets -merge -underBinder +onlyGivenNames x2
    try clear_value x2
    extract_lets -merge -underBinder +onlyGivenNames x3
    try clear_value x3
    extract_lets -merge -underBinder +onlyGivenNames x4
    have h4 : Kept p x4 := (clipsTake_kept h)
    clear_value x4
    extract_lets -merge -underBinder +onlyGivenNames x5
    have h5 : Kept p x5 := (updStream_kept h4)
    clear_value x5
    extract_lets -merge -underBinder +onlyGivenNames x6
    have h6 : Kept p x6 := by
      refine kept_ite (fun _ => ?_) (fun _ => ?_)
      · exact (keepPreroll_kept h5)
      · exact h5
    clear_value x6
    split
    · refine kept_ite (fun _ => ?_) (fun _ => ?_)
      · exact h6
      · exact (numberFrame_kept h6)
    · refine kept_ite (fun _ => ?_) (fun _ => ?_)
      · exact (updFrame_kept h6)
      · exact (numberFrame_kept (freeFrame_kept (skipFrame_kept h6)))

theorem execFrameRelease_kept {p a0 s} (h : Kept p s)
    (al : autoParam (Allows p 262144) emit_kept._auto_1) : KeptRes p (execFrameRelease a0 s) := by
  unfold execFrameRelease
  try dsimp only
  repeat' first
    | with_reducible assumption
    | exact Allows.sub al rfl
    | with_reducible refine updFrame_kept ?_ ?_
    | with_reducible refine keptRes_inRange ?_ ?_
    | with_reducible refine keptRes_doneIf ?_ ?_
    | with_reducible refine keptRes_ite (fun _ => ?_) (fun _ => ?_)
    | with_reducible refine keptRes_done ?_
    | with_reducible refine keptRes_next ?_
    | with_reducible refine kept_ite (fun _ => ?_) (fun _ => ?_)
    | split

end Sys2Proof.Machine
end

