-- ==== Sys2Proof/Laws/KeptLinks.lean ====
section
/-! SUPPORT. Every operation of Machine/Links.lean keeps the invariant of Safety.lean, leaves the
queue alone and changes no part outside those that the world `p` allows. -/

set_option Elab.async false

namespace Sys2Proof.Machine

theorem enqueueMessage_kept {p a0 a1 a2 a3 a4 s} (h : Kept p s)
    (al : autoParam (Allows p 4294967296) emit_kept._auto_1) : Kept p (enqueueMessage a0 a1 a2 a3 a4 s) := by
  unfold enqueueMessage
  exact (updLink_kept (updTrellis_kept h (fun _ h => h)))

theorem enqueueRelayed_kept {p a0 a1 a2 s} (h : Kept p s)
    (al : autoParam (Allows p 4294967296) emit_kept._auto_1) : Kept p (enqueueRelayed a0 a1 a2 s) := by
  unfold enqueueRelayed
  try dsimp only
  repeat' first
    | with_reducible assumption
    | exact Allows.sub al rfl
    | exact fun _ h => h
    | exact fun _ h => { h with }
    | exact fun _ => rfl
    | exact fun _ => ⟨rfl, rfl⟩
    | with_reducible refine updLink_kept ?_ ?_
    | with_reducible refine updTrellis_kept ?_ ?_ ?_
    | split

theorem bumpMnum_kept {p a0 a1 s} (h : Kept p s)
    (al : autoParam (Allows p 4294967296) emit_kept._auto_1) : Kept p (bumpMnum a0 a1 s) := by
  unfold bumpMnum
  exact (updTrellis_kept h (fun _ h => h))

theorem startRelay_kept {p a0 s} (h : Kept p s)
    (al : autoParam (Allows p 4898947588) emit_kept._auto_1) : Kept p (startRelay a0 s) := by
  unfold startRelay
  refine kept_ite (fun _ => ?_) (fun _ => ?_)
  · exact h
  · exact (logErr_kept (updTrellis_kept h (fun _ h => h)))

theorem endRelay_kept {p a0 s} (h : Kept p s)
    (al : autoParam (Allows p 4898947588) emit_kept._auto_1) : Kept p (endRelay a0 s) := by
  unfold endRelay
  refine kept_ite (fun _ => ?_) (fun _ => ?_)
  · exact (logErr_kept (updTrellis_kept h (fun _ h => h)))
  · exact h

theorem sendByRelay_kept {p a0 a1 a2 s} (h : Kept p s)
    (al : autoParam (Allows p 4898947588) emit_kept._auto_1) : Kept p (sendByRelay a0 a1 a2 s) := by
  unfold sendByRelay
  extract_lets -merge -underBinder +onlyGivenNames x0
  try clear_value x0
  split
  · extract_lets -merge -underBinder +onlyGivenNames x1
    try clear_value x1
    extract_lets -merge -underBinder +onlyGivenNames x2
    have h2 : Kept p x2 := (enqueueMessage_kept (bumpMnum_kept (startRelay_kept h)))
    clear_value x2
    exact (updTrellis_kept h2 (fun _ h => h))
  · exact (updTrellis_kept h (fun _ h => h))

theorem routeMessage_kept {p a0 a1 a2 s} (h : Kept p s)
    (al : autoParam (Allows p 4898947588) emit_kept._auto_1) : Kept p (routeMessage a0 a1 a2 s) := by
  unfold routeMessage
  split
  · refine kept_ite (fun _ => ?_) (fun _ => ?_)
    · exact (enqueueMessage_kept h)
    · exact (sendByRelay_kept h)
  · exact h

theorem sendMessage_kept {p a0 a1 a2 a3 s} (h : Kept p s)
    (al : autoParam (Allows p 4898947588) emit_kept._auto_1) : Kept p (sendMessage a0 a1 a2 a3 s) := by
  unfold sendMessage
  refine kept_ite (fun _ => ?_) (fun _ => ?_)
  · exact (routeMessage_kept (bumpMnum_kept h))
  · exact h

theorem sendDirect_kept {p a0 a1 a2 a3 a4 s} (h : Kept p s)
    (al : autoParam (Allows p 4294967296) emit_kept._auto_1) : Kept p (sendDirect a0 a1 a2 a3 a4 s) := by
  unfold sendDirect
  try dsimp only
  repeat' first
    | with_reducible assumption
    | exact Allows.sub al rfl
    | with_reducible refine enqueueMessage_kept ?_ ?_
    | with_reducible refine bumpMnum_kept ?_ ?_
    | split

theorem sendPeerState_kept {p a0 s} (h : Kept p s)
    (al : autoParam (Allows p 4898947588) emit_kept._auto_1) : Kept p (sendPeerState a0 s) := by
  unfold sendPeerState
  try dsimp only
  repeat' first
    | with_reducible assumption
    | exact Allows.sub al rfl
    | exact fun _ h => h
    | exact fun _ h => { h with }
    | exact fun _ => rfl
    | exact fun _ => ⟨rfl, rfl⟩
    | with_reducible refine updTrellis_kept ?_ ?_ ?_
    | with_reducible refine sendDirect_kept ?_ ?_
    | with_reducible refine sendMessage_kept ?_ ?_
    | with_reducible refine kept_foldl ?_ (fun _ _ _ => ?_)
    | with_reducible refine kept_foldl_snd ?_ (fun _ _ _ => ?_)
    | with_reducible refine kept_foldl_fst ?_ (fun _ _ _ => ?_)
    | with_reducible refine kept_ite (fun _ => ?_) (fun _ => ?_)
    | dsimp only
    | split

theorem unloadLink_kept {p a0 s} (h : Kept p s)
    (al : autoParam (Allows p 4294967296) emit_kept._auto_1) : KeptSnd p (unloadLink a0 s) := by
  unfold unloadLink
  split
  · exact keptSnd_mk ((updTrellis_kept (updLink_kept h) (fun _ h => h)))
  · exact keptSnd_mk h

theorem refuseRelay_kept {p a0 a1 a2 s} (h : Kept p s)
    (al : autoParam (Allows p 4898947588) emit_kept._auto_1) : Kept p (refuseRelay a0 a1 a2 s) := by
  unfold refuseRelay
  try dsimp only
  repeat' first
    | with_reducible assumption
    | exact Allows.sub al rfl
    | with_reducible refine sendMessage_kept ?_ ?_
    | split

theorem resendMessage_kept {p a0 s} (h : Kept p s)
    (al : autoParam (Allows p 4898947588) emit_kept._auto_1) : Kept p (resendMessage a0 s) := by
  unfold resendMessage
  try dsimp only
  repeat' first
    | with_reducible assumption
    | exact Allows.sub al rfl
    | exact fun _ h => h
    | exact fun _ h => { h with }
    | exact fun _ => rfl
    | exact fun _ => ⟨rfl, rfl⟩
    | with_reducible refine enqueueRelayed_kept ?_ ?_
    | with_reducible refine refuseRelay_kept ?_ ?_
    | with_reducible refine updTrellis_kept ?_ ?_ ?_
    | with_reducible refine routeMessage_kept ?_ ?_
    | with_reducible refine kept_ite (fun _ => ?_) (fun _ => ?_)
    | split

theorem resendMessages_kept {p a0 s} (h : Kept p s)
    (al : autoParam (Allows p 4898947588) emit_kept._auto_1) : Kept p (resendMessages a0 s) := by
  unfold resendMessages
  try dsimp only
  repeat' first
    | with_reducible assumption
    | exact Allows.sub al rfl
    | with_reducible refine unloadLink_kept ?_ ?_
    | refine keptSnd_eq (unloadLink_kept ?_ ?_) (by assumption)
    | refine (unloadLink_kept ?_ ?_ : KeptSnd p _)
    | with_reducible refine resendMessage_kept ?_ ?_
    | with_reducible refine kept_foldl ?_ (fun _ _ _ => ?_)
    | with_reducible refine kept_foldl_snd ?_ (fun _ _ _ => ?_)
    | with_reducible refine kept_foldl_fst ?_ (fun _ _ _ => ?_)
    | dsimp only
    | split

theorem setLinkState_kept {p a0 a1 s} (h : Kept p s)
    (al : autoParam (Allows p 4898947588) emit_kept._auto_1) : Kept p (setLinkState a0 a1 s) := by
  unfold setLinkState
  exact (sendPeerState_kept (updLink_kept h))

theorem linkDown_kept {p a0 s} (h : Kept p s)
    (al : autoParam (Allows p 4898947588) emit_kept._auto_1) : Kept p (linkDown a0 s) := by
  unfold linkDown
  exact (resendMessages_kept (setLinkState_kept h))

theorem fenceLink_kept {p a0 a1 s} (h : Kept p s)
    (al : autoParam (Allows p 4898947588) emit_kept._auto_1) : Kept p (fenceLink a0 a1 s) := by
  unfold fenceLink
  extract_lets -merge -underBinder +onlyGivenNames x0
  have h0 : Kept p x0 := (logErr_kept h)
  clear_value x0
  exact (resendMessages_kept (setLinkState_kept h0))

theorem execLinkSignalLoss_kept {p a0 s} (h : Kept p s)
    (al : autoParam (Allows p 4898947588) emit_kept._auto_1) : KeptRes p (execLinkSignalLoss a0 s) := by
  unfold execLinkSignalLoss
  try dsimp only
  repeat' first
    | with_reducible assumption
    | exact Allows.sub al rfl
    | with_reducible refine linkDown_kept ?_ ?_
    | with_reducible refine keptRes_inRange ?_ ?_
    | with_reducible refine keptRes_doneIf ?_ ?_
    | with_reducible refine keptRes_ite (fun _ => ?_) (fun _ => ?_)
    | with_reducible refine keptRes_done ?_
    | with_reducible refine keptRes_next ?_
    | split

theorem startTraining_kept {p a0 s} (h : Kept p s)
    (al : autoParam (Allows p 4898947604) emit_kept._auto_1) : Kept p (startTraining a0 s) := by
  unfold startTraining
  try dsimp only
  repeat' first
    | with_reducible assumption
    | exact Allows.sub al rfl
    | with_reducible refine setLinkState_kept ?_ ?_
    | with_reducible refine wakeIsland_kept ?_ ?_
    | split

theorem execLinkSignalReturn_kept {p a0 s} (h : Kept p s)
    (al : autoParam (Allows p 4898947604) emit_kept._auto_1) : KeptRes p (execLinkSignalReturn a0 s) := by
  unfold execLinkSignalReturn
  try dsimp only
  repeat' first
    | with_reducible assumption
    | exact Allows.sub al rfl
    | with_reducible refine startTraining_kept ?_ ?_
    | with_reducible refine keptRes_inRange ?_ ?_
    | with_reducible refine keptRes_doneIf ?_ ?_
    | with_reducible refine keptRes_ite (fun _ => ?_) (fun _ => ?_)
    | with_reducible refine keptRes_done ?_
    | with_reducible refine keptRes_next ?_
    | split

theorem linkEnters_kept {p a0 a1 s} (h : Kept p s)
    (al : autoParam (Allows p 13488882180) emit_kept._auto_1) : Kept p (linkEnters a0 a1 s) := by
  unfold linkEnters
  split
  · exact h
  · extract_lets -merge -underBinder +onlyGivenNames x0
    have h0 : Kept p x0 := (setLinkState_kept h)
    clear_value x0
    extract_lets -merge -underBinder +onlyGivenNames x1
    have h1 : Kept p x1 := by
      refine kept_ite (fun _ => ?_) (fun _ => ?_)
      · exact (resendMessages_kept h0)
      · exact h0
    clear_value x1
    extract_lets -merge -underBinder +onlyGivenNames x2
    have h2 : Kept p x2 := by
      unfold x2
      split
      · exact (endRelay_kept h1)
      · exact h1
    clear_value x2
    refine kept_ite (fun _ => ?_) (fun _ => ?_)
    · extract_lets -merge -underBinder +onlyGivenNames x3
      have h3 : Kept p x3 := (updPower_kept h2)
      clear_value x3
      refine logErr_kept ?_
      refine kept_ite (fun _ => ?_) (fun _ => ?_)
      · exact (saveLedger_kept h3)
      · exact h3
    · exact h2

theorem execLinkTrainingComplete_kept {p a0 a1 a2 s} (h : Kept p s)
    (al : autoParam (Allows p 13488882180) emit_kept._auto_1) : KeptRes p (execLinkTrainingComplete a0 a1 a2 s) := by
  unfold execLinkTrainingComplete
  try dsimp only
  repeat' first
    | with_reducible assumption
    | exact Allows.sub al rfl
    | with_reducible refine linkEnters_kept ?_ ?_
    | with_reducible refine setLinkState_kept ?_ ?_
    | with_reducible refine fenceLink_kept ?_ ?_
    | with_reducible refine updLink_kept ?_ ?_
    | with_reducible refine keptRes_inRange ?_ ?_
    | with_reducible refine keptRes_doneIf ?_ ?_
    | with_reducible refine keptRes_ite (fun _ => ?_) (fun _ => ?_)
    | with_reducible refine keptRes_done ?_
    | with_reducible refine keptRes_next ?_
    | with_reducible refine kept_ite (fun _ => ?_) (fun _ => ?_)
    | split

theorem emitFlit_kept {p a0 a1 a2 a3 s} (h : Kept p s)
    (al : autoParam (Allows p 4294967300) emit_kept._auto_1) : Kept p (emitFlit a0 a1 a2 a3 s) := by
  unfold emitFlit
  extract_lets -merge -underBinder +onlyGivenNames x0
  try clear_value x0
  exact (emit_kept (updLink_kept h))

theorem sendData_kept {p a0 a1 a2 s} (h : Kept p s)
    (al : autoParam (Allows p 4294967300) emit_kept._auto_1) : Kept p (sendData a0 a1 a2 s) := by
  unfold sendData
  extract_lets -merge -underBinder +onlyGivenNames x0
  try clear_value x0
  extract_lets -merge -underBinder +onlyGivenNames x1
  try clear_value x1
  extract_lets -merge -underBinder +onlyGivenNames x2
  try clear_value x2
  extract_lets -merge -underBinder +onlyGivenNames x3
  try clear_value x3
  exact (emitFlit_kept (updLink_kept h))

theorem sendReplay_kept {p a0 a1 a2 s} (h : Kept p s)
    (al : autoParam (Allows p 4898947588) emit_kept._auto_1) : Kept p (sendReplay a0 a1 a2 s) := by
  unfold sendReplay
  refine kept_ite (fun _ => ?_) (fun _ => ?_)
  · exact (fenceLink_kept h)
  · extract_lets -merge -underBinder +onlyGivenNames x0
    try clear_value x0
    extract_lets -merge -underBinder +onlyGivenNames x1
    try clear_value x1
    exact (emitFlit_kept (updLink_kept h))

theorem sendSlot_others_kept {p a0 a1 s a2} (h : Kept p s)
    (al : autoParam (Allows p 4294967300) emit_kept._auto_1) : Kept p (sendSlot.others a0 a1 s a2) := by
  unfold sendSlot.others
  refine kept_ite (fun _ => ?_) (fun _ => ?_)
  · exact (emitFlit_kept (updLink_kept h))
  · split
    · exact (sendData_kept h)
    · split
      · exact (sendData_kept h)
      · split
        · exact (sendData_kept h)
        · exact h

theorem sendSlot_kept {p a0 a1 s} (h : Kept p s)
    (al : autoParam (Allows p 4898947588) emit_kept._auto_1) : Kept p (sendSlot a0 a1 s) := by
  unfold sendSlot
  split
  · exact (sendReplay_kept h)
  · split
    · refine kept_ite (fun _ => ?_) (fun _ => ?_)
      · exact (sendData_kept h)
      · exact (sendSlot_others_kept h)
    · exact (sendSlot_others_kept h)

theorem execFlitSlot_kept {p a0 s} (h : Kept p s)
    (al : autoParam (Allows p 4898947588) emit_kept._auto_1) : KeptRes p (execFlitSlot a0 s) := by
  unfold execFlitSlot
  try dsimp only
  repeat' first
    | with_reducible assumption
    | exact Allows.sub al rfl
    | with_reducible refine sendSlot_kept ?_ ?_
    | with_reducible refine keptRes_inRange ?_ ?_
    | with_reducible refine keptRes_doneIf ?_ ?_
    | with_reducible refine keptRes_ite (fun _ => ?_) (fun _ => ?_)
    | with_reducible refine keptRes_done ?_
    | with_reducible refine keptRes_next ?_
    | split

theorem execAckTimer_kept {p a0 s} (h : Kept p s)
    (al : autoParam (Allows p 4294967296) emit_kept._auto_1) : KeptRes p (execAckTimer a0 s) := by
  unfold execAckTimer
  try dsimp only
  repeat' first
    | with_reducible assumption
    | exact Allows.sub al rfl
    | with_reducible refine updLink_kept ?_ ?_
    | with_reducible refine keptRes_inRange ?_ ?_
    | with_reducible refine keptRes_doneIf ?_ ?_
    | with_reducible refine keptRes_ite (fun _ => ?_) (fun _ => ?_)
    | with_reducible refine keptRes_done ?_
    | with_reducible refine keptRes_next ?_
    | split

theorem execNakHoldoffExpiry_kept {p a0 s} (h : Kept p s)
    (al : autoParam (Allows p 4294967296) emit_kept._auto_1) : KeptRes p (execNakHoldoffExpiry a0 s) := by
  unfold execNakHoldoffExpiry
  try dsimp only
  repeat' first
    | with_reducible assumption
    | exact Allows.sub al rfl
    | with_reducible refine updLink_kept ?_ ?_
    | with_reducible refine keptRes_inRange ?_ ?_
    | with_reducible refine keptRes_doneIf ?_ ?_
    | with_reducible refine keptRes_ite (fun _ => ?_) (fun _ => ?_)
    | with_reducible refine keptRes_done ?_
    | with_reducible refine keptRes_next ?_
    | split

theorem startReplay_kept {p a0 a1 s} (h : Kept p s)
    (al : autoParam (Allows p 4898947588) emit_kept._auto_1) : Kept p (startReplay a0 a1 s) := by
  unfold startReplay
  refine kept_ite (fun _ => ?_) (fun _ => ?_)
  · exact (logErr_kept (setLinkState_kept h))
  · exact (updLink_kept h)

theorem execReplayTimeout_kept {p a0 s} (h : Kept p s)
    (al : autoParam (Allows p 4898947588) emit_kept._auto_1) : KeptRes p (execReplayTimeout a0 s) := by
  unfold execReplayTimeout
  try dsimp only
  repeat' first
    | with_reducible assumption
    | exact Allows.sub al rfl
    | with_reducible refine startReplay_kept ?_ ?_
    | with_reducible refine keptRes_inRange ?_ ?_
    | with_reducible refine keptRes_doneIf ?_ ?_
    | with_reducible refine keptRes_ite (fun _ => ?_) (fun _ => ?_)
    | with_reducible refine keptRes_done ?_
    | with_reducible refine keptRes_next ?_
    | split

theorem settleMessages_kept {p k l s} (h : Kept p s)
    (al : autoParam (Allows p 4294967296) emit_kept._auto_1) : Kept p (settleMessages k l s) := by
  induction l generalizing s with
  | nil => exact h
  | cons a l ih =>
    unfold settleMessages
    refine kept_ite (fun _ => ih h) (fun _ => ?_)
    split
    · exact ih (updTrellis_kept h (fun _ h => h))
    · exact ih h

theorem takeAck_kept {p a0 a1 s} (h : Kept p s)
    (al : autoParam (Allows p 4294967296) emit_kept._auto_1) : Kept p (takeAck a0 a1 s) := by
  unfold takeAck
  split
  · exact h
  · split
    · exact h
    · extract_lets -merge -underBinder +onlyGivenNames x0
      try clear_value x0
      refine kept_ite (fun _ => ?_) (fun _ => ?_)
      · extract_lets -merge -underBinder +onlyGivenNames x1
        try clear_value x1
        extract_lets -merge -underBinder +onlyGivenNames x2
        have h2 : Kept p x2 := (updLink_kept h)
        clear_value x2
        split
        · exact (settleMessages_kept h2)
        · exact h2
      · exact h

theorem askNak_kept {p a0 s} (h : Kept p s)
    (al : autoParam (Allows p 4294967296) emit_kept._auto_1) : Kept p (askNak a0 s) := by
  unfold askNak
  exact (updLink_kept h)

theorem discardFlit_kept {p a0 a1 s} (h : Kept p s)
    (al : autoParam (Allows p 4898947588) emit_kept._auto_1) : Kept p (discardFlit a0 a1 s) := by
  unfold discardFlit
  exact (askNak_kept (logErr_kept (updLink_kept h)))

theorem acceptFlit_kept {p a0 a1 a2 s} (h : Kept p s)
    (al : autoParam (Allows p 4294967296) emit_kept._auto_1) : Kept p (acceptFlit a0 a1 a2 s) := by
  unfold acceptFlit
  exact (updLink_kept h)

theorem takeMessage_kept {p a0 a1 s} (h : Kept p s)
    (al : autoParam (Allows p 4294967296) emit_kept._auto_1) : KeptSnd p (takeMessage a0 a1 s) := by
  unfold takeMessage
  split
  · exact keptSnd_mk (updLink_kept h)
  · exact keptSnd_mk h

theorem badMessage_kept {p a0 s} (h : Kept p s)
    (al : autoParam (Allows p 4898947588) emit_kept._auto_1) : Kept p (badMessage a0 s) := by
  unfold badMessage
  exact (logErr_kept (updTrellis_kept h (fun _ h => h)))

theorem admitMessage_kept {p a0 a1 a2 s} (h : Kept p s)
    (al : autoParam (Allows p 4294967296) emit_kept._auto_1) : KeptSnd p (admitMessage a0 a1 a2 s) := by
  unfold admitMessage
  extract_lets -merge -underBinder +onlyGivenNames x0
  try clear_value x0
  refine keptSnd_ite (fun _ => ?_) (fun _ => ?_)
  · exact keptSnd_mk h
  · exact keptSnd_mk ((updTrellis_kept h (fun _ h => h)))

theorem execTimeReqPeriod_kept {p s} (h : Kept p s)
    (al : autoParam (Allows p 4294967296) emit_kept._auto_1) : KeptRes p (execTimeReqPeriod s) := by
  unfold execTimeReqPeriod
  extract_lets -merge -underBinder +onlyGivenNames x0
  try clear_value x0
  refine keptRes_ite (fun _ => ?_) (fun _ => ?_)
  · exact keptRes_next h
  · extract_lets -merge -underBinder +onlyGivenNames x1
    have h1 : Kept p x1 := (updTrellis_kept h (fun _ h => h))
    clear_value x1
    extract_lets -merge -underBinder +onlyGivenNames x2
    try clear_value x2
    split
    · extract_lets -merge -underBinder +onlyGivenNames x3
      try clear_value x3
      exact keptRes_next ((enqueueMessage_kept (bumpMnum_kept h1)))
    · exact keptRes_next h1

theorem dropSample_kept {p a0 s} (h : Kept p s)
    (al : autoParam (Allows p 4898947588) emit_kept._auto_1) : Kept p (dropSample a0 s) := by
  unfold dropSample
  exact (logErr_kept (updLink_kept h))

theorem execTimeReq_kept {p a0 s} (h : Kept p s)
    (al : autoParam (Allows p 4898947588) emit_kept._auto_1) : KeptRes p (execTimeReq a0 s) := by
  unfold execTimeReq
  try dsimp only
  repeat' first
    | with_reducible assumption
    | exact Allows.sub al rfl
    | with_reducible refine updLink_kept ?_ ?_
    | with_reducible refine dropSample_kept ?_ ?_
    | with_reducible refine enqueueMessage_kept ?_ ?_
    | with_reducible refine bumpMnum_kept ?_ ?_
    | with_reducible refine keptRes_inRange ?_ ?_
    | with_reducible refine keptRes_doneIf ?_ ?_
    | with_reducible refine keptRes_ite (fun _ => ?_) (fun _ => ?_)
    | with_reducible refine keptRes_done ?_
    | with_reducible refine keptRes_next ?_
    | with_reducible refine kept_ite (fun _ => ?_) (fun _ => ?_)
    | split

theorem execTimeResp_kept {p a0 s} (h : Kept p s)
    (al : autoParam (Allows p 13757317644) emit_kept._auto_1) : KeptRes p (execTimeResp a0 s) := by
  unfold execTimeResp
  try dsimp only
  repeat' first
    | with_reducible assumption
    | exact Allows.sub al rfl
    | with_reducible refine updLink_kept ?_ ?_
    | with_reducible refine dropSample_kept ?_ ?_
    | with_reducible refine takeSample_kept ?_ ?_
    | with_reducible refine keptRes_inRange ?_ ?_
    | with_reducible refine keptRes_doneIf ?_ ?_
    | with_reducible refine keptRes_ite (fun _ => ?_) (fun _ => ?_)
    | with_reducible refine keptRes_done ?_
    | with_reducible refine keptRes_next ?_
    | with_reducible refine kept_ite (fun _ => ?_) (fun _ => ?_)
    | split

theorem execCommitPeriod_kept {p s} (h : Kept p s)
    (al : autoParam (Allows p 4898947588) emit_kept._auto_1) : KeptRes p (execCommitPeriod s) := by
  unfold execCommitPeriod
  refine keptRes_ite (fun _ => ?_) (fun _ => ?_)
  · exact keptRes_next h
  · extract_lets -merge -underBinder +onlyGivenNames x0
    have h0 : Kept p x0 := (updTrellis_kept h (fun _ h => h))
    clear_value x0
    refine keptRes_next ?_
    refine kept_foldl ?_ (fun x s h => ?_)
    · exact h0
    · extract_lets -merge -underBinder +onlyGivenNames x1
      try clear_value x1
      refine kept_ite (fun _ => ?_) (fun _ => ?_)
      · exact h
      · exact (sendMessage_kept h)

theorem sendClosed_kept {p a0 a1 s} (h : Kept p s)
    (al : autoParam (Allows p 4898947588) emit_kept._auto_1) : Kept p (sendClosed a0 a1 s) := by
  unfold sendClosed
  try dsimp only
  repeat' first
    | with_reducible assumption
    | exact Allows.sub al rfl
    | exact fun _ h => h
    | exact fun _ h => { h with }
    | exact fun _ => rfl
    | exact fun _ => ⟨rfl, rfl⟩
    | with_reducible refine updTrellis_kept ?_ ?_ ?_
    | with_reducible refine sendMessage_kept ?_ ?_
    | with_reducible refine kept_foldl ?_ (fun _ _ _ => ?_)
    | with_reducible refine kept_foldl_snd ?_ (fun _ _ _ => ?_)
    | with_reducible refine kept_foldl_fst ?_ (fun _ _ _ => ?_)
    | with_reducible refine kept_ite (fun _ => ?_) (fun _ => ?_)
    | dsimp only
    | split

theorem execPeerStatePeriod_kept {p s} (h : Kept p s)
    (al : autoParam (Allows p 4898947588) emit_kept._auto_1) : KeptRes p (execPeerStatePeriod s) := by
  unfold execPeerStatePeriod
  refine keptRes_doneIf ?_ ?_
  · exact (sendPeerState_kept h)
  · exact h

theorem addGallery_kept {p a0 a1 s} (h : Kept p s)
    (al : autoParam (Allows p 262144) emit_kept._auto_1) : Kept p (addGallery a0 a1 s) := by
  unfold addGallery
  exact (updStream_kept h)

theorem publish_kept {p a0 a1 a2 s} (h : Kept p s)
    (al : autoParam (Allows p 4899209732) emit_kept._auto_1) : Kept p (publish a0 a1 a2 s) := by
  unfold publish
  refine kept_ite (fun _ => ?_) (fun _ => ?_)
  · exact (addGallery_kept h)
  · exact (sendMessage_kept h)

theorem noteCommit_kept {p a0 a1 s} (h : Kept p s)
    (al : autoParam (Allows p 262144) emit_kept._auto_1) : Kept p (noteCommit a0 a1 s) := by
  unfold noteCommit
  exact (updStream_kept h)

theorem closePeerStreams_kept {p a0 s} (h : Kept p s)
    (al : autoParam (Allows p 262144) emit_kept._auto_1) : Kept p (closePeerStreams a0 s) := by
  unfold closePeerStreams
  exact { h with streams := (List.length_map ..).trans h.streams, frame := framedOf (h).frame al }

theorem dropMember_kept {p a0 s} (h : Kept p s)
    (al : autoParam (Allows p 4899209732) emit_kept._auto_1) : Kept p (dropMember a0 s) := by
  unfold dropMember
  try dsimp only
  repeat' first
    | with_reducible assumption
    | exact Allows.sub al rfl
    | exact fun _ h => h
    | exact fun _ h => { h with }
    | exact fun _ => rfl
    | exact fun _ => ⟨rfl, rfl⟩
    | with_reducible refine endRelay_kept ?_ ?_
    | with_reducible refine logErr_kept ?_ ?_
    | with_reducible refine closePeerStreams_kept ?_ ?_
    | with_reducible refine sendPeerState_kept ?_ ?_
    | with_reducible refine updTrellis_kept ?_ ?_ ?_
    | split

end Sys2Proof.Machine
end

