-- ==== Sys2Proof/Laws/KeptOrangery.lean ====
section
/-! SUPPORT. Every operation of Machine/Orangery.lean keeps the invariant of Safety.lean, leaves the
queue alone and changes no part outside those that the world `p` allows. -/

set_option Elab.async false

namespace Sys2Proof.Machine

theorem noteRow_kept {p a0 a1 a2 a3 s} (h : Kept p s)
    (al : autoParam (Allows p 262272) emit_kept._auto_1) : Kept p (noteRow a0 a1 a2 a3 s) := by
  unfold noteRow
  try dsimp only
  repeat' first
    | with_reducible assumption
    | exact Allows.sub al rfl
    | with_reducible refine ownerDigest_kept ?_ ?_
    | with_reducible refine addMeasure_kept ?_ ?_
    | with_reducible refine updFrameNum_kept ?_ ?_
    | split

theorem writeGood_kept {p a0 a1 a2 s} (h : Kept p s)
    (al : autoParam (Allows p 9193922052) emit_kept._auto_1) : Kept p (writeGood a0 a1 a2 s) := by
  unfold writeGood
  try dsimp only
  repeat' first
    | with_reducible assumption
    | exact Allows.sub al rfl
    | with_reducible refine writeOp_kept ?_ ?_
    | split

theorem writeSome_kept {p a0 a1 a2 s} (h : Kept p s)
    (al : autoParam (Allows p 9193922054) emit_kept._auto_1) : Kept p (writeSome a0 a1 a2 s) := by
  unfold writeSome
  try dsimp only
  repeat' first
    | with_reducible assumption
    | exact Allows.sub al rfl
    | with_reducible refine writeGood_kept ?_ ?_
    | split
    | exact { h with frame := framedOf h.frame al }

theorem tileSome_kept {p a0 a1 a2 a3 a4 s} (h : Kept p s)
    (al : autoParam (Allows p 9193922054) emit_kept._auto_1) : Kept p (tileSome a0 a1 a2 a3 a4 s) := by
  unfold tileSome
  try dsimp only
  repeat' first
    | with_reducible assumption
    | exact Allows.sub al rfl
    | with_reducible refine writeGood_kept ?_ ?_
    | with_reducible refine kept_foldl ?_ (fun _ _ _ => ?_)
    | split
    | exact { h with frame := framedOf h.frame al }

theorem blurOverlap_kept {p a0 a1 a2 s} (h : Kept p s)
    (al : autoParam (Allows p 2) emit_kept._auto_1) : KeptSnd p (blurOverlap a0 a1 a2 s) := by
  unfold blurOverlap
  try dsimp only
  repeat' first
    | with_reducible assumption
    | exact Allows.sub al rfl
    | with_reducible refine freeBits_kept ?_ ?_
    | refine keptSnd_eq (freeBits_kept ?_ ?_) (by assumption)
    | refine (freeBits_kept ?_ ?_ : KeptSnd p _)
    | with_reducible refine keptSnd_ite (fun _ => ?_) (fun _ => ?_)
    | with_reducible refine keptSnd_mk ?_
    | with_reducible refine kept_ite (fun _ => ?_) (fun _ => ?_)
    | split
    | exact { h with frame := framedOf h.frame al }

theorem skipTile_kept {p a0 s} (h : Kept p s)
    (al : autoParam (Allows p 256) emit_kept._auto_1) : Kept p (skipTile a0 s) := by
  unfold skipTile
  exact (updOrangery_kept h)

theorem loadCells_kept {p a0 a1 a2 s} (h : Kept p s)
    (al : autoParam (Allows p 256) emit_kept._auto_1) : Kept p (loadCells a0 a1 a2 s) := by
  unfold loadCells
  try dsimp only
  repeat' first
    | with_reducible assumption
    | exact Allows.sub al rfl
    | with_reducible refine updOrangery_kept ?_ ?_
    | with_reducible refine kept_foldl ?_ (fun _ _ _ => ?_)
    | with_reducible refine kept_ite (fun _ => ?_) (fun _ => ?_)
    | split

theorem runTile_kept {p a0 a1 a2 a3 s} (h : Kept p s)
    (al : autoParam (Allows p 10305675142) emit_kept._auto_1) : Kept p (runTile a0 a1 a2 a3 s) := by
  unfold runTile
  try dsimp only
  repeat' first
    | with_reducible assumption
    | exact Allows.sub al rfl
    | with_reducible refine skipTile_kept ?_ ?_
    | with_reducible refine loadCells_kept ?_ ?_
    | with_reducible refine noteReads_kept ?_ ?_
    | with_reducible refine jobFault_kept ?_ ?_
    | with_reducible refine useDeferred_kept ?_ ?_
    | with_reducible refine tileSome_kept ?_ ?_
    | with_reducible refine blurOverlap_kept ?_ ?_
    | refine keptSnd_eq (blurOverlap_kept ?_ ?_) (by assumption)
    | refine (blurOverlap_kept ?_ ?_ : KeptSnd p _)
    | with_reducible refine writeOp_kept ?_ ?_
    | with_reducible refine noteRow_kept ?_ ?_
    | with_reducible refine kept_foldl ?_ (fun _ _ _ => ?_)
    | with_reducible refine kept_ite (fun _ => ?_) (fun _ => ?_)
    | split

theorem execTile_kept {p a0 s} (h : Kept p s)
    (al : autoParam (Allows p 10314063750) emit_kept._auto_1) : KeptRes p (execTile a0 s) := by
  unfold execTile
  try dsimp only
  repeat' first
    | with_reducible assumption
    | exact Allows.sub al rfl
    | with_reducible refine startOp_kept ?_ (fun _ _ _ => ?_) ?_
    | with_reducible refine occupy_kept ?_ ?_
    | with_reducible refine writing_kept ?_ (fun _ _ => ?_) ?_
    | with_reducible refine runTile_kept ?_ ?_
    | with_reducible refine keptRes_inRange ?_ ?_
    | with_reducible refine keptRes_doneIf ?_ ?_
    | with_reducible refine keptRes_ite (fun _ => ?_) (fun _ => ?_)
    | with_reducible refine keptRes_done ?_
    | with_reducible refine keptRes_next ?_
    | split

theorem execClaim_kept {p a0 s} (h : Kept p s)
    (al : autoParam (Allows p 10314063494) emit_kept._auto_1) : KeptRes p (execClaim a0 s) := by
  unfold execClaim
  refine keptRes_inRange ?_ h
  extract_lets -merge -underBinder +onlyGivenNames x0
  try clear_value x0
  refine startOp_kept h (fun _ _ k1 => (occupy_kept k1))

theorem finishRun_kept {p a0 s} (h : Kept p s)
    (al : autoParam (Allows p 128) emit_kept._auto_1) : Kept p (finishRun a0 s) := by
  unfold finishRun
  exact (updLane_kept h (fun _ h => h))

theorem claimTurn_kept {p a0 a1 s} (h : Kept p s)
    (al : autoParam (Allows p 10314063750) emit_kept._auto_1) : Kept p (claimTurn a0 a1 s) := by
  unfold claimTurn
  try dsimp only
  repeat' first
    | with_reducible assumption
    | exact Allows.sub al rfl
    | with_reducible refine finishRun_kept ?_ ?_
    | with_reducible refine updClaim_kept ?_ ?_
    | with_reducible refine writing_kept ?_ (fun _ _ => ?_) ?_
    | with_reducible refine runTile_kept ?_ ?_
    | with_reducible refine awaitFor_kept ?_ ?_
    | with_reducible refine kept_foldl ?_ (fun _ _ _ => ?_)
    | with_reducible refine kept_foldl_snd ?_ (fun _ _ _ => ?_)
    | with_reducible refine kept_foldl_fst ?_ (fun _ _ _ => ?_)
    | with_reducible refine kept_ite (fun _ => ?_) (fun _ => ?_)
    | dsimp only
    | split

theorem execClaimFetch_kept {p a0 s} (h : Kept p s)
    (al : autoParam (Allows p 10314063750) emit_kept._auto_1) : KeptRes p (execClaimFetch a0 s) := by
  unfold execClaimFetch
  try dsimp only
  repeat' first
    | with_reducible assumption
    | exact Allows.sub al rfl
    | with_reducible refine claimTurn_kept ?_ ?_
    | with_reducible refine keptRes_inRange ?_ ?_
    | with_reducible refine keptRes_doneIf ?_ ?_
    | with_reducible refine keptRes_ite (fun _ => ?_) (fun _ => ?_)
    | with_reducible refine keptRes_done ?_
    | with_reducible refine keptRes_next ?_
    | with_reducible refine kept_ite (fun _ => ?_) (fun _ => ?_)
    | split

end Sys2Proof.Machine
end

