-- ==== Sys2Proof/Laws/KeptCodec.lean ====
section
/-! SUPPORT. Every operation of Machine/Codec.lean keeps the invariant of Safety.lean, leaves the
queue alone and changes no part outside those that the world `p` allows. -/

set_option Elab.async false

namespace Sys2Proof.Machine

theorem applyMode_kept {p a0 a1 s} (h : Kept p s)
    (al : autoParam (Allows p 1074003968) emit_kept._auto_1) : Kept p (applyMode a0 a1 s) := by
  unfold applyMode
  split
  · exact (finishCmd_kept (updStream_kept h))
  · exact h

theorem endPicture_kept {p a0 a1 s} (h : Kept p s)
    (al : autoParam (Allows p 9202567684) emit_kept._auto_1) : Kept p (endPicture a0 a1 s) := by
  unfold endPicture
  exact (numberFrame_kept (freeFrame_kept (updFrame_kept h)))

theorem outputPicture_kept {p a0 a1 a2 s} (h : Kept p s)
    (al : autoParam (Allows p 9202567684) emit_kept._auto_1) : Kept p (outputPicture a0 a1 a2 s) := by
  unfold outputPicture
  try dsimp only
  repeat' first
    | with_reducible assumption
    | exact Allows.sub al rfl
    | with_reducible refine numberFrame_kept ?_ ?_
    | with_reducible refine updFrame_kept ?_ ?_
    | with_reducible refine buildChain_kept ?_ ?_
    | refine keptThd_eq (buildChain_kept ?_ ?_) (by assumption)
    | refine (buildChain_kept ?_ ?_ : KeptThd p _)
    | with_reducible refine kept_ite (fun _ => ?_) (fun _ => ?_)
    | split

theorem removePicture_kept {p a0 a1 s} (h : Kept p s)
    (al : autoParam (Allows p 262144) emit_kept._auto_1) : Kept p (removePicture a0 a1 s) := by
  unfold removePicture
  try dsimp only
  repeat' first
    | with_reducible assumption
    | exact Allows.sub al rfl
    | with_reducible refine numberFrame_kept ?_ ?_
    | with_reducible refine updFrame_kept ?_ ?_
    | split

theorem testLog_kept {p a0 a1 a2 a3 s} (h : Kept p s)
    (al : autoParam (Allows p 603980292) emit_kept._auto_1) : Kept p (testLog a0 a1 a2 a3 s) := by
  unfold testLog
  try dsimp only
  repeat' first
    | with_reducible assumption
    | exact Allows.sub al rfl
    | with_reducible refine writeEntry_kept ?_ ?_
    | with_reducible refine kept_foldl ?_ (fun _ _ _ => ?_)
    | split

theorem storeContents_kept {p a0 a1 a2 a3 a4 a5 s} (h : Kept p s)
    (al : autoParam (Allows p 2) emit_kept._auto_1) : KeptSnd p (storeContents a0 a1 a2 a3 a4 a5 s) := by
  unfold storeContents
  split
  · exact keptSnd_mk { h with frame := framedOf h.frame al }
  · exact keptSnd_mk h

theorem decodeInto_kept {p a0 a1 a2 a3 a4 a5 a6 a7 s} (h : Kept p s)
    (al : autoParam (Allows p 9193916934) emit_kept._auto_1) : Kept p (decodeInto a0 a1 a2 a3 a4 a5 a6 a7 s) := by
  unfold decodeInto
  try dsimp only
  repeat' first
    | with_reducible assumption
    | exact Allows.sub al rfl
    | with_reducible refine unitRead_kept ?_ ?_
    | with_reducible refine storeContents_kept ?_ ?_
    | refine keptSnd_eq (storeContents_kept ?_ ?_) (by assumption)
    | refine (storeContents_kept ?_ ?_ : KeptSnd p _)
    | with_reducible refine writePhys_kept ?_ ?_
    | with_reducible refine kept_foldl ?_ (fun _ _ _ => ?_)
    | with_reducible refine kept_foldl_snd ?_ (fun _ _ _ => ?_)
    | with_reducible refine kept_foldl_fst ?_ (fun _ _ _ => ?_)
    | with_reducible refine kept_ite (fun _ => ?_) (fun _ => ?_)
    | dsimp only
    | split

theorem logBadCell_kept {p a0 a1 a2 s} (h : Kept p s)
    (al : autoParam (Allows p 603980292) emit_kept._auto_1) : Kept p (logBadCell a0 a1 a2 s) := by
  unfold logBadCell
  try dsimp only
  repeat' first
    | with_reducible assumption
    | exact Allows.sub al rfl
    | with_reducible refine logErr_kept ?_ ?_
    | split

theorem parseChain_kept {p a0 a1 s} (h : Kept p s)
    (al : autoParam (Allows p 9193916932) emit_kept._auto_1) : Kept p (parseChain a0 a1 s) := by
  unfold parseChain
  try dsimp only
  repeat' first
    | with_reducible assumption
    | exact Allows.sub al rfl
    | with_reducible refine logErr_kept ?_ ?_
    | with_reducible refine noteChain_kept ?_ ?_
    | split

theorem startFountain_kept {p a0 a1 a2 a3 a4 a5 a6 a7 s} (h : Kept p s)
    (al : autoParam (Allows p 32768) emit_kept._auto_1) : Kept p (startFountain a0 a1 a2 a3 a4 a5 a6 a7 s) := by
  unfold startFountain
  try dsimp only
  repeat' first
    | with_reducible assumption
    | exact Allows.sub al rfl
    | with_reducible refine updFountain_kept ?_ ?_
    | split

theorem shedPicture_kept {p a0 a1 a2 a3 s} (h : Kept p s)
    (al : autoParam (Allows p 9202567684) emit_kept._auto_1) : Kept p (shedPicture a0 a1 a2 a3 s) := by
  unfold shedPicture
  try dsimp only
  repeat' first
    | with_reducible assumption
    | exact Allows.sub al rfl
    | with_reducible refine updFrame_kept ?_ ?_
    | with_reducible refine freeFrame_kept ?_ ?_
    | with_reducible refine updDecoder_kept ?_ ?_
    | with_reducible refine removePicture_kept ?_ ?_
    | with_reducible refine endPicture_kept ?_ ?_
    | with_reducible refine outputPicture_kept ?_ ?_
    | with_reducible refine kept_foldl ?_ (fun _ _ _ => ?_)
    | with_reducible refine kept_foldl_snd ?_ (fun _ _ _ => ?_)
    | with_reducible refine kept_foldl_fst ?_ (fun _ _ _ => ?_)
    | with_reducible refine kept_ite (fun _ => ?_) (fun _ => ?_)
    | dsimp only
    | split

theorem parseStream_kept {p a0 a1 a2 s} (h : Kept p s)
    (al : autoParam (Allows p 1074003968) emit_kept._auto_1) : Kept p (parseStream a0 a1 a2 s) := by
  unfold parseStream
  try dsimp only
  repeat' first
    | with_reducible assumption
    | exact Allows.sub al rfl
    | with_reducible refine updDecoder_kept ?_ ?_
    | with_reducible refine applyMode_kept ?_ ?_
    | split

theorem startPicture_kept {p a0 a1 a2 a3 s} (h : Kept p s)
    (al : autoParam (Allows p 10276342276) emit_kept._auto_1) : Kept p (startPicture a0 a1 a2 a3 s) := by
  unfold startPicture
  try dsimp only
  repeat' first
    | with_reducible assumption
    | exact Allows.sub al rfl
    | with_reducible refine parseStream_kept ?_ ?_
    | with_reducible refine parseChain_kept ?_ ?_
    | with_reducible refine shedPicture_kept ?_ ?_
    | with_reducible refine startFountain_kept ?_ ?_
    | with_reducible refine updFrame_kept ?_ ?_
    | with_reducible refine kept_ite (fun _ => ?_) (fun _ => ?_)
    | split

theorem startClipPicture_kept {p a0 a1 a2 s} (h : Kept p s)
    (al : autoParam (Allows p 9194080772) emit_kept._auto_1) : Kept p (startClipPicture a0 a1 a2 s) := by
  unfold startClipPicture
  try dsimp only
  repeat' first
    | with_reducible assumption
    | exact Allows.sub al rfl
    | with_reducible refine startFountain_kept ?_ ?_
    | with_reducible refine updClip_kept ?_ ?_
    | with_reducible refine parseChain_kept ?_ ?_
    | split

theorem execPictureDecodeStart_kept {p a0 a1 s} (h : Kept p s)
    (al : autoParam (Allows p 10276473348) emit_kept._auto_1) : KeptRes p (execPictureDecodeStart a0 a1 s) := by
  unfold execPictureDecodeStart
  try dsimp only
  repeat' first
    | with_reducible assumption
    | exact Allows.sub al rfl
    | with_reducible refine startPicture_kept ?_ ?_
    | with_reducible refine startClipPicture_kept ?_ ?_
    | with_reducible refine keptRes_inRange ?_ ?_
    | with_reducible refine keptRes_doneIf ?_ ?_
    | with_reducible refine keptRes_ite (fun _ => ?_) (fun _ => ?_)
    | with_reducible refine keptRes_done ?_
    | with_reducible refine keptRes_next ?_
    | with_reducible refine kept_ite (fun _ => ?_) (fun _ => ?_)
    | split

theorem completePicture_kept {p a0 a1 a2 a3 a4 a5 a6 s} (h : Kept p s)
    (al : autoParam (Allows p 9202567686) emit_kept._auto_1) : Kept p (completePicture a0 a1 a2 a3 a4 a5 a6 s) := by
  unfold completePicture
  try dsimp only
  repeat' first
    | with_reducible assumption
    | exact Allows.sub al rfl
    | with_reducible refine meetOutside_kept ?_ ?_
    | with_reducible refine logBadCell_kept ?_ ?_
    | with_reducible refine readingFor_kept ?_ (fun _ _ => ?_) ?_
    | with_reducible refine noteChain_kept ?_ ?_
    | with_reducible refine testLog_kept ?_ ?_
    | with_reducible refine decodeInto_kept ?_ ?_
    | with_reducible refine updFrame_kept ?_ ?_
    | with_reducible refine freeFrame_kept ?_ ?_
    | with_reducible refine updDecoder_kept ?_ ?_
    | with_reducible refine removePicture_kept ?_ ?_
    | with_reducible refine endPicture_kept ?_ ?_
    | with_reducible refine outputPicture_kept ?_ ?_
    | with_reducible refine kept_foldl ?_ (fun _ _ _ => ?_)
    | with_reducible refine kept_foldl_snd ?_ (fun _ _ _ => ?_)
    | with_reducible refine kept_foldl_fst ?_ (fun _ _ _ => ?_)
    | with_reducible refine kept_ite (fun _ => ?_) (fun _ => ?_)
    | dsimp only
    | split

theorem clipOutput_kept {p a0 a1 a2 s} (h : Kept p s)
    (al : autoParam (Allows p 131072) emit_kept._auto_1) : Kept p (clipOutput a0 a1 a2 s) := by
  unfold clipOutput
  try dsimp only
  repeat' first
    | with_reducible assumption
    | exact Allows.sub al rfl
    | with_reducible refine updClip_kept ?_ ?_
    | split

theorem completeClip_kept {p a0 a1 a2 a3 a4 a5 s} (h : Kept p s)
    (al : autoParam (Allows p 9202436614) emit_kept._auto_1) : Kept p (completeClip a0 a1 a2 a3 a4 a5 s) := by
  unfold completeClip
  try dsimp only
  repeat' first
    | with_reducible assumption
    | exact Allows.sub al rfl
    | with_reducible refine meetOutside_kept ?_ ?_
    | with_reducible refine logBadCell_kept ?_ ?_
    | with_reducible refine noteChain_kept ?_ ?_
    | with_reducible refine decodeInto_kept ?_ ?_
    | with_reducible refine updClip_kept ?_ ?_
    | with_reducible refine clipOutput_kept ?_ ?_
    | with_reducible refine freeChain_kept ?_ ?_
    | with_reducible refine kept_ite (fun _ => ?_) (fun _ => ?_)
    | split

theorem execPictureDecodeComplete_kept {p a0 s} (h : Kept p s)
    (al : autoParam (Allows p 9202731526) emit_kept._auto_1) : KeptRes p (execPictureDecodeComplete a0 s) := by
  unfold execPictureDecodeComplete
  try dsimp only
  repeat' first
    | with_reducible assumption
    | exact Allows.sub al rfl
    | with_reducible refine updFountain_kept ?_ ?_
    | with_reducible refine completePicture_kept ?_ ?_
    | with_reducible refine completeClip_kept ?_ ?_
    | with_reducible refine keptRes_inRange ?_ ?_
    | with_reducible refine keptRes_doneIf ?_ ?_
    | with_reducible refine keptRes_ite (fun _ => ?_) (fun _ => ?_)
    | with_reducible refine keptRes_done ?_
    | with_reducible refine keptRes_next ?_
    | split

theorem abortPicture_kept {p a0 a1 s} (h : Kept p s)
    (al : autoParam (Allows p 10276474372) emit_kept._auto_1) : Kept p (abortPicture a0 a1 s) := by
  unfold abortPicture
  try dsimp only
  repeat' first
    | with_reducible assumption
    | exact Allows.sub al rfl
    | with_reducible refine updFountain_kept ?_ ?_
    | with_reducible refine updDecoder_kept ?_ ?_
    | with_reducible refine endPicture_kept ?_ ?_
    | with_reducible refine updFrame_kept ?_ ?_
    | with_reducible refine endClip_kept ?_ ?_
    | with_reducible refine kept_ite (fun _ => ?_) (fun _ => ?_)
    | split

theorem execFountainWatchdog_kept {p a0 s} (h : Kept p s)
    (al : autoParam (Allows p 10276474372) emit_kept._auto_1) : KeptRes p (execFountainWatchdog a0 s) := by
  unfold execFountainWatchdog
  try dsimp only
  repeat' first
    | with_reducible assumption
    | exact Allows.sub al rfl
    | with_reducible refine logErr_kept ?_ ?_
    | with_reducible refine abortPicture_kept ?_ ?_
    | with_reducible refine keptRes_inRange ?_ ?_
    | with_reducible refine keptRes_doneIf ?_ ?_
    | with_reducible refine keptRes_ite (fun _ => ?_) (fun _ => ?_)
    | with_reducible refine keptRes_done ?_
    | with_reducible refine keptRes_next ?_
    | split

theorem resetFountain_kept {p a0 s} (h : Kept p s)
    (al : autoParam (Allows p 10276474372) emit_kept._auto_1) : Kept p (resetFountain a0 s) := by
  unfold resetFountain
  extract_lets -merge -underBinder +onlyGivenNames x0
  have h0 : Kept p x0 := (abortPicture_kept h)
  clear_value x0
  exact { h0 with
    streams := (List.length_map ..).trans h0.streams, clips := (List.length_map ..).trans h0.clips
    frame := framedOf (h0).frame al }

end Sys2Proof.Machine
end

