-- ==== Sys2Proof/Laws/KeptIngest.lean ====
section
/-! SUPPORT. Every operation of Machine/Ingest.lean keeps the invariant of Safety.lean, leaves the
queue alone and changes no part outside those that the world `p` allows. -/

set_option Elab.async false

namespace Sys2Proof.Machine

theorem answerQuery_kept {p a0 a1 a2 s} (h : Kept p s)
    (al : autoParam (Allows p 8196) emit_kept._auto_1) : Kept p (answerQuery a0 a1 a2 s) := by
  unfold answerQuery
  try dsimp only
  repeat' first
    | with_reducible assumption
    | exact Allows.sub al rfl
    | with_reducible refine emit_kept ?_ ?_
    | with_reducible refine updEth_kept ?_ ?_
    | with_reducible refine kept_foldl ?_ (fun _ _ _ => ?_)
    | split

theorem dhcpAnswer_kept {p a0 a1 s} (h : Kept p s)
    (al : autoParam (Allows p 8196) emit_kept._auto_1) : Kept p (dhcpAnswer a0 a1 s) := by
  unfold dhcpAnswer
  try dsimp only
  repeat' first
    | with_reducible assumption
    | exact Allows.sub al rfl
    | with_reducible refine emit_kept ?_ ?_
    | with_reducible refine updEth_kept ?_ ?_
    | with_reducible refine kept_ite (fun _ => ?_) (fun _ => ?_)
    | split

theorem autoAddress_kept {p a0 a1 s} (h : Kept p s)
    (al : autoParam (Allows p 8192) emit_kept._auto_1) : Kept p (autoAddress a0 a1 s) := by
  unfold autoAddress
  try dsimp only
  repeat' first
    | with_reducible assumption
    | exact Allows.sub al rfl
    | with_reducible refine updEth_kept ?_ ?_
    | with_reducible refine kept_ite (fun _ => ?_) (fun _ => ?_)
    | split

theorem noteNeighbour_kept {p a0 a1 a2 s} (h : Kept p s)
    (al : autoParam (Allows p 8192) emit_kept._auto_1) : Kept p (noteNeighbour a0 a1 a2 s) := by
  unfold noteNeighbour
  try dsimp only
  repeat' first
    | with_reducible assumption
    | exact Allows.sub al rfl
    | with_reducible refine updEth_kept ?_ ?_
    | with_reducible refine kept_ite (fun _ => ?_) (fun _ => ?_)
    | split

theorem takeWhole_kept {p a0 a1 s} (h : Kept p s)
    (al : autoParam (Allows p 8196) emit_kept._auto_1) : Kept p (takeWhole a0 a1 s) := by
  unfold takeWhole
  try dsimp only
  repeat' first
    | with_reducible assumption
    | exact Allows.sub al rfl
    | with_reducible refine dhcpAnswer_kept ?_ ?_
    | split

theorem takeFragment_kept {p a0 a1 a2 a3 a4 a5 s} (h : Kept p s)
    (al : autoParam (Allows p 8196) emit_kept._auto_1) : Kept p (takeFragment a0 a1 a2 a3 a4 a5 s) := by
  unfold takeFragment
  try dsimp only
  repeat' first
    | with_reducible assumption
    | exact Allows.sub al rfl
    | with_reducible refine takeWhole_kept ?_ ?_
    | with_reducible refine updEth_kept ?_ ?_
    | with_reducible refine kept_ite (fun _ => ?_) (fun _ => ?_)
    | split

theorem slowAnswer_kept {p a0 a1 s} (h : Kept p s)
    (al : autoParam (Allows p 8196) emit_kept._auto_1) : Kept p (slowAnswer a0 a1 s) := by
  unfold slowAnswer
  try dsimp only
  repeat' first
    | with_reducible assumption
    | exact Allows.sub al rfl
    | with_reducible refine takeFragment_kept ?_ ?_
    | with_reducible refine noteNeighbour_kept ?_ ?_
    | with_reducible refine emit_kept ?_ ?_
    | with_reducible refine autoAddress_kept ?_ ?_
    | with_reducible refine dhcpAnswer_kept ?_ ?_
    | with_reducible refine answerQuery_kept ?_ ?_
    | split

theorem slowDeliver_kept {p a0 a1 a2 s} (h : Kept p s)
    (al : autoParam (Allows p 8196) emit_kept._auto_1) : Kept p (slowDeliver a0 a1 a2 s) := by
  unfold slowDeliver
  extract_lets -merge -underBinder +onlyGivenNames x0
  have h0 : Kept p x0 := (updEth_kept h)
  clear_value x0
  refine kept_ite (fun _ => ?_) (fun _ => ?_)
  · exact (slowAnswer_kept h0)
  · exact h0

theorem slowPath_kept {p a0 a1 s} (h : Kept p s)
    (al : autoParam (Allows p 8196) emit_kept._auto_1) : Kept p (slowPath a0 a1 s) := by
  unfold slowPath
  split
  · exact h
  · exact (slowDeliver_kept h)

theorem execSlowPathPacket_kept {p a0 a1 s} (h : Kept p s)
    (al : autoParam (Allows p 8196) emit_kept._auto_1) : KeptRes p (execSlowPathPacket a0 a1 s) := by
  unfold execSlowPathPacket
  try dsimp only
  repeat' first
    | with_reducible assumption
    | exact Allows.sub al rfl
    | with_reducible refine updEth_kept ?_ ?_
    | with_reducible refine slowPath_kept ?_ ?_
    | with_reducible refine keptRes_inRange ?_ ?_
    | with_reducible refine keptRes_doneIf ?_ ?_
    | with_reducible refine keptRes_ite (fun _ => ?_) (fun _ => ?_)
    | with_reducible refine keptRes_done ?_
    | with_reducible refine keptRes_next ?_
    | with_reducible refine kept_ite (fun _ => ?_) (fun _ => ?_)
    | split

theorem releaseUnit_kept {p a0 a1 a2 a3 s} (h : Kept p s)
    (al : autoParam (Allows p 9202698756) emit_kept._auto_1) : Kept p (releaseUnit a0 a1 a2 a3 s) := by
  unfold releaseUnit
  try dsimp only
  repeat' first
    | with_reducible assumption
    | exact Allows.sub al rfl
    | with_reducible refine buildChain_kept ?_ ?_
    | refine keptThd_eq (buildChain_kept ?_ ?_) (by assumption)
    | refine (buildChain_kept ?_ ?_ : KeptThd p _)
    | with_reducible refine meetOutside_kept ?_ ?_
    | with_reducible refine logErr_kept ?_ ?_
    | with_reducible refine updStream_kept ?_ ?_
    | with_reducible refine endIngest_kept ?_ ?_
    | with_reducible refine kept_ite (fun _ => ?_) (fun _ => ?_)
    | split

theorem releaseComplete_kept {p n f s} (h : Kept p s)
    (al : autoParam (Allows p 9202698756) emit_kept._auto_1) : Kept p (releaseComplete n f s) := by
  induction f generalizing s with
  | zero => exact h
  | succ f ih =>
    unfold releaseComplete
    split
    · exact kept_ite (fun _ => ih (releaseUnit_kept h)) (fun _ => h)
    · exact h

theorem releaseLost_kept {p a0 s} (h : Kept p s)
    (al : autoParam (Allows p 9202698756) emit_kept._auto_1) : Kept p (releaseLost a0 s) := by
  unfold releaseLost
  split
  · exact (releaseUnit_kept h)
  · exact h

theorem releaseAllLost_kept {p n f s} (h : Kept p s)
    (al : autoParam (Allows p 9202698756) emit_kept._auto_1) : Kept p (releaseAllLost n f s) := by
  induction f generalizing s with
  | zero => exact h
  | succ f ih =>
    unfold releaseAllLost
    split
    · exact kept_ite (fun _ => h) (fun _ => ih (releaseLost_kept h))
    · exact h

theorem updRtp_kept {p a0 a1 s} (h : Kept p s)
    (al : autoParam (Allows p 262144) emit_kept._auto_1) : Kept p (updRtp a0 a1 s) := by
  unfold updRtp
  exact (updStream_kept h)

theorem releaseBefore_kept {p n k t f s} (h : Kept p s)
    (al : autoParam (Allows p 9202698756) emit_kept._auto_1) : Kept p (releaseBefore n k t f s) := by
  induction f generalizing s with
  | zero => exact h
  | succ f ih =>
    unfold releaseBefore
    split
    · exact kept_ite (fun _ => ih (releaseLost_kept h)) (fun _ => h)
    · exact h

theorem cutUnit_kept {p a0 a1 a2 s} (h : Kept p s)
    (al : autoParam (Allows p 9202698756) emit_kept._auto_1) : Kept p (cutUnit a0 a1 a2 s) := by
  unfold cutUnit
  try dsimp only
  repeat' first
    | with_reducible assumption
    | exact Allows.sub al rfl
    | with_reducible refine updRtp_kept ?_ ?_
    | with_reducible refine releaseUnit_kept ?_ ?_
    | with_reducible refine kept_ite (fun _ => ?_) (fun _ => ?_)
    | split

theorem overflowPacket_kept {p a0 a1 a2 s} (h : Kept p s)
    (al : autoParam (Allows p 9202698756) emit_kept._auto_1) : Kept p (overflowPacket a0 a1 a2 s) := by
  unfold overflowPacket
  try dsimp only
  repeat' first
    | with_reducible assumption
    | exact Allows.sub al rfl
    | with_reducible refine cutUnit_kept ?_ ?_
    | with_reducible refine releaseBefore_kept ?_ ?_
    | with_reducible refine logErr_kept ?_ ?_
    | split

theorem placePacket_kept {p a0 a1 s} (h : Kept p s)
    (al : autoParam (Allows p 9202698756) emit_kept._auto_1) : Kept p (placePacket a0 a1 s) := by
  unfold placePacket
  try dsimp only
  repeat' first
    | with_reducible assumption
    | exact Allows.sub al rfl
    | with_reducible refine updRtp_kept ?_ ?_
    | with_reducible refine overflowPacket_kept ?_ ?_
    | with_reducible refine releaseComplete_kept ?_ ?_
    | with_reducible refine kept_ite (fun _ => ?_) (fun _ => ?_)
    | split

theorem noteArrival_kept {p a0 s} (h : Kept p s)
    (al : autoParam (Allows p 4093912580) emit_kept._auto_1) : Kept p (noteArrival a0 s) := by
  unfold noteArrival
  split
  · exact h
  · extract_lets -merge -underBinder +onlyGivenNames x0
    have h0 : Kept p x0 := (updRtp_kept h)
    clear_value x0
    refine kept_ite (fun _ => ?_) (fun _ => ?_)
    · extract_lets -merge -underBinder +onlyGivenNames x1
      have h1 : Kept p x1 := (updStream_kept h0)
      clear_value x1
      exact (streamState_kept h1)
    · exact h0

theorem takePacket_kept {p a0 a1 s} (h : Kept p s)
    (al : autoParam (Allows p 12692368900) emit_kept._auto_1) : Kept p (takePacket a0 a1 s) := by
  unfold takePacket
  split
  · exact h
  · split
    · exact h
    · refine kept_ite (fun _ => ?_) (fun _ => ?_)
      · exact (updRtp_kept h)
      · extract_lets -merge -underBinder +onlyGivenNames x0
        have h0 : Kept p x0 := (noteArrival_kept h)
        clear_value x0
        extract_lets -merge -underBinder +onlyGivenNames x1
        have h1 : Kept p x1 := by
          refine kept_ite (fun _ => ?_) (fun _ => ?_)
          · exact (updRtp_kept (releaseAllLost_kept h0))
          · exact h0
        clear_value x1
        exact (placePacket_kept (updRtp_kept h1))

theorem execRtpPacket_kept {p a0 s} (h : Kept p s)
    (al : autoParam (Allows p 12692368900) emit_kept._auto_1) : KeptRes p (execRtpPacket a0 s) := by
  unfold execRtpPacket
  refine keptRes_inRange ?_ h
  refine keptRes_ite (fun _ => ?_) (fun _ => ?_)
  · exact keptRes_next h
  · split
    · exact keptRes_next (takePacket_kept h)
    · exact keptRes_next (slowPath_kept h)

theorem execInterleavedRtpSegment_kept {p a0 a1 s} (h : Kept p s)
    (al : autoParam (Allows p 12692368900) emit_kept._auto_1) : KeptRes p (execInterleavedRtpSegment a0 a1 s) := by
  unfold execInterleavedRtpSegment
  try dsimp only
  repeat' first
    | with_reducible assumption
    | exact Allows.sub al rfl
    | with_reducible refine takePacket_kept ?_ ?_
    | with_reducible refine keptRes_inRange ?_ ?_
    | with_reducible refine keptRes_doneIf ?_ ?_
    | with_reducible refine keptRes_ite (fun _ => ?_) (fun _ => ?_)
    | with_reducible refine keptRes_done ?_
    | with_reducible refine keptRes_next ?_
    | split

theorem execReorderWindowExpiry_kept {p a0 s} (h : Kept p s)
    (al : autoParam (Allows p 9202698756) emit_kept._auto_1) : KeptRes p (execReorderWindowExpiry a0 s) := by
  unfold execReorderWindowExpiry
  try dsimp only
  repeat' first
    | with_reducible assumption
    | exact Allows.sub al rfl
    | with_reducible refine releaseComplete_kept ?_ ?_
    | with_reducible refine releaseLost_kept ?_ ?_
    | with_reducible refine keptRes_inRange ?_ ?_
    | with_reducible refine keptRes_doneIf ?_ ?_
    | with_reducible refine keptRes_ite (fun _ => ?_) (fun _ => ?_)
    | with_reducible refine keptRes_done ?_
    | with_reducible refine keptRes_next ?_
    | with_reducible refine kept_ite (fun _ => ?_) (fun _ => ?_)
    | split

theorem updRtsp_kept {p a0 a1 s} (h : Kept p s)
    (al : autoParam (Allows p 262144) emit_kept._auto_1) : Kept p (updRtsp a0 a1 s) := by
  unfold updRtsp
  exact (updStream_kept h)

theorem rtspSend_kept {p a0 a1 a2 s} (h : Kept p s)
    (al : autoParam (Allows p 262148) emit_kept._auto_1) : Kept p (rtspSend a0 a1 a2 s) := by
  unfold rtspSend
  try dsimp only
  repeat' first
    | with_reducible assumption
    | exact Allows.sub al rfl
    | with_reducible refine emit_kept ?_ ?_
    | with_reducible refine updRtsp_kept ?_ ?_
    | split

theorem answerOpen_kept {p a0 a1 a2 s} (h : Kept p s)
    (al : autoParam (Allows p 1074003968) emit_kept._auto_1) : Kept p (answerOpen a0 a1 a2 s) := by
  unfold answerOpen
  split
  · split
    · exact (finishCmd_kept (updRtsp_kept h))
    · exact h
  · exact h

theorem leaveGroups_kept {p a0 s} (h : Kept p s)
    (al : autoParam (Allows p 8196) emit_kept._auto_1) : Kept p (leaveGroups a0 s) := by
  unfold leaveGroups
  try dsimp only
  repeat' first
    | with_reducible assumption
    | exact Allows.sub al rfl
    | with_reducible refine emit_kept ?_ ?_
    | with_reducible refine updEth_kept ?_ ?_
    | with_reducible refine kept_foldl ?_ (fun _ _ _ => ?_)
    | split

theorem loseStream_kept {p a0 a1 a2 a3 s} (h : Kept p s)
    (al : autoParam (Allows p 4093912580) emit_kept._auto_1) : Kept p (loseStream a0 a1 a2 a3 s) := by
  unfold loseStream
  try dsimp only
  repeat' first
    | with_reducible assumption
    | exact Allows.sub al rfl
    | with_reducible refine emit_kept ?_ ?_
    | with_reducible refine updRtsp_kept ?_ ?_
    | with_reducible refine updRtp_kept ?_ ?_
    | with_reducible refine streamState_kept ?_ ?_
    | with_reducible refine answerOpen_kept ?_ ?_
    | with_reducible refine kept_ite (fun _ => ?_) (fun _ => ?_)
    | split

theorem failSession_kept {p a0 a1 a2 s} (h : Kept p s) (ga2 : ∀ y0 s, Kept p s → Kept p (a2 y0 s))
    (al : autoParam (Allows p 4093912580) emit_kept._auto_1) : Kept p (failSession a0 a1 a2 s) := by
  unfold failSession
  try dsimp only
  repeat' first
    | with_reducible assumption
    | exact Allows.sub al rfl
    | with_reducible refine ga2 _ _ ?_
    | exact ga2
    | with_reducible refine answerOpen_kept ?_ ?_
    | with_reducible refine updRtsp_kept ?_ ?_
    | with_reducible refine loseStream_kept ?_ ?_
    | with_reducible refine kept_ite (fun _ => ?_) (fun _ => ?_)
    | split

theorem joinGroup_kept {p a0 a1 a2 a3 s} (h : Kept p s)
    (al : autoParam (Allows p 270340) emit_kept._auto_1) : KeptOpt p (joinGroup a0 a1 a2 a3 s) := by
  unfold joinGroup
  try dsimp only
  repeat' first
    | with_reducible assumption
    | exact Allows.sub al rfl
    | with_reducible refine emit_kept ?_ ?_
    | with_reducible refine updRtsp_kept ?_ ?_
    | with_reducible refine updEth_kept ?_ ?_
    | with_reducible exact keptOpt_none
    | with_reducible refine keptOpt_ite (fun _ => ?_) (fun _ => ?_)
    | with_reducible refine keptOpt_some ?_
    | with_reducible refine kept_ite (fun _ => ?_) (fun _ => ?_)
    | split

theorem joinDecode_kept {p a0 s} (h : Kept p s)
    (al : autoParam (Allows p 262144) emit_kept._auto_1) : Kept p (joinDecode a0 s) := by
  unfold joinDecode
  try dsimp only
  repeat' first
    | with_reducible assumption
    | exact Allows.sub al rfl
    | with_reducible refine updDecoder_kept ?_ ?_
    | with_reducible refine kept_foldl ?_ (fun _ _ _ => ?_)
    | split

theorem startPlaying_kept {p a0 s} (h : Kept p s)
    (al : autoParam (Allows p 4093912580) emit_kept._auto_1) : Kept p (startPlaying a0 s) := by
  unfold startPlaying
  try dsimp only
  repeat' first
    | with_reducible assumption
    | exact Allows.sub al rfl
    | with_reducible refine updRtsp_kept ?_ ?_
    | with_reducible refine joinDecode_kept ?_ ?_
    | with_reducible refine updRtp_kept ?_ ?_
    | with_reducible refine answerOpen_kept ?_ ?_
    | with_reducible refine streamState_kept ?_ ?_
    | with_reducible refine kept_ite (fun _ => ?_) (fun _ => ?_)
    | split

theorem afterSetup_kept {p a0 a1 a2 a3 s} (h : Kept p s) (ga3 : ∀ y0 s, Kept p s → Kept p (a3 y0 s))
    (al : autoParam (Allows p 4093912580) emit_kept._auto_1) : Kept p (afterSetup a0 a1 a2 a3 s) := by
  unfold afterSetup
  try dsimp only
  repeat' first
    | with_reducible assumption
    | exact Allows.sub al rfl
    | with_reducible refine ga3 _ _ ?_
    | exact ga3
    | with_reducible refine failSession_kept ?_ (fun _ _ _ => ?_) ?_
    | with_reducible refine updRtp_kept ?_ ?_
    | with_reducible refine updRtsp_kept ?_ ?_
    | with_reducible refine joinGroup_kept ?_ ?_
    | refine keptOpt_eq (joinGroup_kept ?_ ?_) (by assumption)
    | with_reducible refine rtspSend_kept ?_ ?_
    | with_reducible refine kept_ite (fun _ => ?_) (fun _ => ?_)
    | split

theorem answerChallenge_kept {p a0 a1 a2 a3 s} (h : Kept p s) (ga3 : ∀ y0 s, Kept p s → Kept p (a3 y0 s))
    (al : autoParam (Allows p 4093912580) emit_kept._auto_1) : Kept p (answerChallenge a0 a1 a2 a3 s) := by
  unfold answerChallenge
  try dsimp only
  repeat' first
    | with_reducible assumption
    | exact Allows.sub al rfl
    | with_reducible refine ga3 _ _ ?_
    | exact ga3
    | with_reducible refine rtspSend_kept ?_ ?_
    | with_reducible refine updRtsp_kept ?_ ?_
    | with_reducible refine failSession_kept ?_ (fun _ _ _ => ?_) ?_
    | split

theorem afterDescribe_kept {p a0 a1 a2 a3 s} (h : Kept p s) (ga3 : ∀ y0 s, Kept p s → Kept p (a3 y0 s))
    (al : autoParam (Allows p 4093912580) emit_kept._auto_1) : Kept p (afterDescribe a0 a1 a2 a3 s) := by
  unfold afterDescribe
  try dsimp only
  repeat' first
    | with_reducible assumption
    | exact Allows.sub al rfl
    | with_reducible refine ga3 _ _ ?_
    | exact ga3
    | with_reducible refine failSession_kept ?_ (fun _ _ _ => ?_) ?_
    | with_reducible refine rtspSend_kept ?_ ?_
    | with_reducible refine updRtsp_kept ?_ ?_
    | with_reducible refine kept_ite (fun _ => ?_) (fun _ => ?_)
    | split

theorem refuseOpen_kept {p a0 a1 a2 s} (h : Kept p s) (ga2 : ∀ y0 s, Kept p s → Kept p (a2 y0 s))
    (al : autoParam (Allows p 4093912580) emit_kept._auto_1) : Kept p (refuseOpen a0 a1 a2 s) := by
  unfold refuseOpen
  try dsimp only
  repeat' first
    | with_reducible assumption
    | exact Allows.sub al rfl
    | with_reducible refine ga2 _ _ ?_
    | exact ga2
    | with_reducible refine emit_kept ?_ ?_
    | with_reducible refine failSession_kept ?_ (fun _ _ _ => ?_) ?_
    | split
    | exact { h with frame := framedOf h.frame al }

theorem rtspAdvance_kept {p a0 a1 a2 a3 s} (h : Kept p s) (ga3 : ∀ y0 s, Kept p s → Kept p (a3 y0 s))
    (al : autoParam (Allows p 4093912580) emit_kept._auto_1) : Kept p (rtspAdvance a0 a1 a2 a3 s) := by
  unfold rtspAdvance
  try dsimp only
  repeat' first
    | with_reducible assumption
    | exact Allows.sub al rfl
    | with_reducible refine ga3 _ _ ?_
    | exact ga3
    | with_reducible refine rtspSend_kept ?_ ?_
    | with_reducible refine updRtsp_kept ?_ ?_
    | with_reducible refine answerChallenge_kept ?_ (fun _ _ _ => ?_) ?_
    | with_reducible refine refuseOpen_kept ?_ (fun _ _ _ => ?_) ?_
    | with_reducible refine loseStream_kept ?_ ?_
    | with_reducible refine afterDescribe_kept ?_ (fun _ _ _ => ?_) ?_
    | with_reducible refine afterSetup_kept ?_ (fun _ _ _ => ?_) ?_
    | with_reducible refine startPlaying_kept ?_ ?_
    | with_reducible refine kept_ite (fun _ => ?_) (fun _ => ?_)
    | split

theorem execRtspKeepalive_kept {p a0 s} (h : Kept p s)
    (al : autoParam (Allows p 262148) emit_kept._auto_1) : KeptRes p (execRtspKeepalive a0 s) := by
  unfold execRtspKeepalive
  try dsimp only
  repeat' first
    | with_reducible assumption
    | exact Allows.sub al rfl
    | with_reducible refine rtspSend_kept ?_ ?_
    | with_reducible refine keptRes_inRange ?_ ?_
    | with_reducible refine keptRes_doneIf ?_ ?_
    | with_reducible refine keptRes_ite (fun _ => ?_) (fun _ => ?_)
    | with_reducible refine keptRes_done ?_
    | with_reducible refine keptRes_next ?_
    | with_reducible refine kept_ite (fun _ => ?_) (fun _ => ?_)
    | split

theorem execReconnect_kept {p a0 s} (h : Kept p s)
    (al : autoParam (Allows p 262148) emit_kept._auto_1) : KeptRes p (execReconnect a0 s) := by
  unfold execReconnect
  try dsimp only
  repeat' first
    | with_reducible assumption
    | exact Allows.sub al rfl
    | with_reducible refine rtspSend_kept ?_ ?_
    | with_reducible refine updRtsp_kept ?_ ?_
    | with_reducible refine keptRes_inRange ?_ ?_
    | with_reducible refine keptRes_doneIf ?_ ?_
    | with_reducible refine keptRes_ite (fun _ => ?_) (fun _ => ?_)
    | with_reducible refine keptRes_done ?_
    | with_reducible refine keptRes_next ?_
    | split

theorem execMulticastReport_kept {p a0 s} (h : Kept p s)
    (al : autoParam (Allows p 262148) emit_kept._auto_1) : KeptRes p (execMulticastReport a0 s) := by
  unfold execMulticastReport
  try dsimp only
  repeat' first
    | with_reducible assumption
    | exact Allows.sub al rfl
    | with_reducible refine emit_kept ?_ ?_
    | with_reducible refine updRtsp_kept ?_ ?_
    | with_reducible refine keptRes_inRange ?_ ?_
    | with_reducible refine keptRes_doneIf ?_ ?_
    | with_reducible refine keptRes_ite (fun _ => ?_) (fun _ => ?_)
    | with_reducible refine keptRes_done ?_
    | with_reducible refine keptRes_next ?_
    | with_reducible refine kept_foldl ?_ (fun _ _ _ => ?_)
    | split

theorem execRtcpReport_kept {p a0 s} (h : Kept p s)
    (al : autoParam (Allows p 262148) emit_kept._auto_1) : KeptRes p (execRtcpReport a0 s) := by
  unfold execRtcpReport
  try dsimp only
  repeat' first
    | with_reducible assumption
    | exact Allows.sub al rfl
    | with_reducible refine emit_kept ?_ ?_
    | with_reducible refine updRtsp_kept ?_ ?_
    | with_reducible refine keptRes_inRange ?_ ?_
    | with_reducible refine keptRes_doneIf ?_ ?_
    | with_reducible refine keptRes_ite (fun _ => ?_) (fun _ => ?_)
    | with_reducible refine keptRes_done ?_
    | with_reducible refine keptRes_next ?_
    | split

end Sys2Proof.Machine
end

