-- ==== Sys2Proof/Laws/KeptMailbox.lean ====
section
/-! SUPPORT. Every operation of Machine/Mailbox.lean keeps the invariant of Safety.lean, leaves the
queue alone and changes no part outside those that the world `p` allows. -/

set_option Elab.async false

namespace Sys2Proof.Machine

theorem quinbuarAsks_kept {p a0 a1 a2 a3 s} (h : Kept p s) (ga2 : ∀  s, Kept p s → Kept p (a2  s)) (ga3 : ∀  s, Kept p s → Kept p (a3  s))
    (al : autoParam (Allows p 1677722116) emit_kept._auto_1) : Kept p (quinbuarAsks a0 a1 a2 a3 s) := by
  unfold quinbuarAsks
  try dsimp only
  repeat' first
    | with_reducible assumption
    | exact Allows.sub al rfl
    | exact fun _ h => h
    | exact fun _ h => { h with }
    | exact fun _ => rfl
    | exact fun _ => ⟨rfl, rfl⟩
    | with_reducible refine ga2 _ ?_
    | exact ga2
    | with_reducible refine ga3 _ ?_
    | exact ga3
    | with_reducible refine updMbx_kept ?_ ?_ ?_
    | with_reducible refine logErr_kept ?_ ?_
    | with_reducible refine kept_ite (fun _ => ?_) (fun _ => ?_)
    | split

theorem updSq_kept {p a0 a1 s} (h : Kept p s)
    (al : autoParam (Allows p 1073741824) emit_kept._auto_1) : Kept p (updSq a0 a1 s) := by
  unfold updSq
  exact (updMbx_kept h (fun _ h => { h with sq := by simpa using h.sq }))

theorem admitCommand_kept {p c s} (h : Kept p s) (room : inProgress s < 256)
    (al : autoParam (Allows p 1073741824) emit_kept._auto_1) : Kept p (admitCommand c s) := by
  have e : s.mbx.cmds.length + s.mbx.ended.length < 256 := room
  unfold admitCommand
  refine kept_ite (fun _ => ?_) (fun _ => ?_)
  · refine { h with frame := framedOf h.frame al, mbx := { h.mbx with inProgress := ?_ } }
    change s.mbx.cmds.length + (s.mbx.ended ++ [_]).length ≤ 256
    simp only [List.length_append, List.length_cons, List.length_nil]
    omega
  · refine { h with frame := framedOf h.frame al, mbx := { h.mbx with inProgress := ?_ } }
    change (s.mbx.cmds ++ [_]).length + s.mbx.ended.length ≤ 256
    simp only [List.length_append, List.length_cons, List.length_nil]
    omega

theorem fetchFrom_kept {p q s} (h : Kept p s)
    (al : autoParam (Allows p 1677722116) emit_kept._auto_1) : Kept p (fetchFrom q s) := by
  unfold fetchFrom
  split
  · exact h
  · refine kept_ite (fun _ => h) (fun r => ?_)
    extract_lets -merge -underBinder +onlyGivenNames a head c x y
    have hr : inProgress s < 256 := by
      simp only [Bool.or_eq_true, decide_eq_true_eq, not_or] at r
      omega
    have hy : Kept p y := admitCommand_kept (updMbx_kept (updSq_kept h) (fun _ h => { h with })) hr
    exact kept_ite (fun _ => logErr_kept hy) (fun _ => hy)

theorem execCommandFetch_kept {p s} (h : Kept p s)
    (al : autoParam (Allows p 10267658756) emit_kept._auto_1) : KeptRes p (execCommandFetch s) := by
  unfold execCommandFetch
  try dsimp only
  repeat' first
    | with_reducible assumption
    | exact Allows.sub al rfl
    | with_reducible refine fetchFrom_kept ?_ ?_
    | with_reducible refine meetOutside_kept ?_ ?_
    | with_reducible refine keptRes_inRange ?_ ?_
    | with_reducible refine keptRes_doneIf ?_ ?_
    | with_reducible refine keptRes_ite (fun _ => ?_) (fun _ => ?_)
    | with_reducible refine keptRes_done ?_
    | with_reducible refine keptRes_next ?_
    | with_reducible refine kept_foldl ?_ (fun _ _ _ => ?_)
    | with_reducible refine kept_foldl_snd ?_ (fun _ _ _ => ?_)
    | with_reducible refine kept_foldl_fst ?_ (fun _ _ _ => ?_)
    | with_reducible refine kept_ite (fun _ => ?_) (fun _ => ?_)
    | dsimp only
    | split

theorem writeCompletion_kept {p a0 a1 a2 a3 a4 a5 a6 s} (h : Kept p s)
    (al : autoParam (Allows p 1946158596) emit_kept._auto_1) : Kept p (writeCompletion a0 a1 a2 a3 a4 a5 a6 s) := by
  unfold writeCompletion
  extract_lets -merge -underBinder +onlyGivenNames x0
  try clear_value x0
  extract_lets -merge -underBinder +onlyGivenNames x1
  have h1 : Kept p x1 := (hostWrite_kept h)
  clear_value x1
  exact (setCq_kept (updMbx_kept h1 (fun _ h => { h with })))

theorem settleRing_kept {p a0 s} (h : Kept p s)
    (al : autoParam (Allows p 1073741824) emit_kept._auto_1) : Kept p (settleRing a0 s) := by
  unfold settleRing
  refine kept_ite (fun _ => ?_) (fun _ => ?_)
  · exact (updSq_kept h)
  · exact h

theorem putSub_kept {p a0 s} (h : Kept p s)
    (al : autoParam (Allows p 1610612740) emit_kept._auto_1) : Kept p (putSub a0 s) := by
  unfold putSub
  refine withCauses_kept h (fun s h => updMbx_kept h fun m hm => ?_)
  dsimp only
  split <;> split
  · exact { hm with rings := by simpa using hm.rings }
  · exact { hm with rings := by simpa using hm.rings }
  · exact { hm with udp := by simpa using hm.udp }
  · exact { hm with udp := by simpa using hm.udp }

theorem dropSub_kept {p a0 a1 s} (h : Kept p s)
    (al : autoParam (Allows p 1610612740) emit_kept._auto_1) : Kept p (dropSub a0 a1 s) := by
  unfold dropSub
  refine withCauses_kept h (fun s h => updMbx_kept h fun m hm => ?_)
  by_cases k : a0 = 0
  · simpa only [k, if_pos] using { hm with rings := by simpa using hm.rings }
  · simpa only [k, if_false] using { hm with udp := by simpa using hm.udp }

theorem applySub_kept {p a0 a1 s} (h : Kept p s)
    (al : autoParam (Allows p 1610612740) emit_kept._auto_1) : Kept p (applySub a0 a1 s) := by
  unfold applySub
  try dsimp only
  repeat' first
    | with_reducible assumption
    | exact Allows.sub al rfl
    | with_reducible refine putSub_kept ?_ ?_
    | with_reducible refine dropSub_kept ?_ ?_
    | with_reducible refine kept_ite (fun _ => ?_) (fun _ => ?_)
    | split

theorem completeCmd_kept {p a0 s} (h : Kept p s)
    (al : autoParam (Allows p 1946158596) emit_kept._auto_1) : Kept p (completeCmd a0 s) := by
  unfold completeCmd
  try dsimp only
  repeat' first
    | with_reducible assumption
    | exact Allows.sub al rfl
    | exact fun _ h => h
    | exact fun _ h => { h with }
    | exact fun _ => rfl
    | exact fun _ => ⟨rfl, rfl⟩
    | with_reducible refine updMbx_kept ?_ ?_ ?_
    | with_reducible refine hostWrite_kept ?_ ?_
    | with_reducible refine writeCompletion_kept ?_ ?_
    | with_reducible refine applySub_kept ?_ ?_
    | with_reducible refine settleRing_kept ?_ ?_
    | with_reducible refine kept_ite (fun _ => ?_) (fun _ => ?_)
    | split

theorem execCommandComplete_kept {p s} (h : Kept p s)
    (al : autoParam (Allows p 1946158596) emit_kept._auto_1) : KeptRes p (execCommandComplete s) := by
  unfold execCommandComplete
  split
  · exact keptRes_next h
  · refine keptRes_ite (fun _ => keptRes_next h) (fun _ => keptRes_next ?_)
    have less : ∀ m, MbxSound m → MbxSound { m with ended := m.ended.drop 1 } := fun m hm => by
      refine { hm with inProgress := ?_ }
      have := hm.inProgress
      change m.cmds.length + (m.ended.drop 1).length ≤ 256
      rw [List.length_drop]
      omega
    exact quinbuarAsks_kept h (fun s h => completeCmd_kept (updMbx_kept h less))
      (fun s h => applySub_kept (settleRing_kept (updMbx_kept (updMbx_kept h less) (fun _ h => { h with }))))

theorem writeNotice_kept {p a0 s} (h : Kept p s)
    (al : autoParam (Allows p 1946158596) emit_kept._auto_1) : Kept p (writeNotice a0 s) := by
  unfold writeNotice
  refine kept_ite (fun _ => ?_) (fun _ => ?_)
  · exact (writeCompletion_kept h)
  · exact (updMbx_kept h (fun _ h => { h with }))

theorem execNotice_kept {p s} (h : Kept p s)
    (al : autoParam (Allows p 1946158596) emit_kept._auto_1) : KeptRes p (execNotice s) := by
  unfold execNotice
  refine keptRes_ite (fun _ => keptRes_next h) (fun _ => ?_)
  refine keptRes_ite (fun _ => keptRes_next ?_) (fun _ => ?_)
  · exact quinbuarAsks_kept h (fun s h => writeNotice_kept (updMbx_kept h (fun _ h => { h with })))
      (fun s h => updMbx_kept h (fun _ h => { h with }))
  · split
    · exact keptRes_next h
    · have less : ∀ m, MbxSound m → MbxSound { m with notices := m.notices.drop 1 } := fun m hm => by
        refine { hm with notices := ?_ }
        have := hm.notices
        change (m.notices.drop 1).length ≤ 64
        rw [List.length_drop]
        omega
      exact keptRes_next (quinbuarAsks_kept h (fun s h => writeNotice_kept (updMbx_kept h less))
        (fun s h => updMbx_kept h less))

theorem startCmd_kept {p c s} (h : Kept p s)
    (al : autoParam (Allows p 1073741824) emit_kept._auto_1) : Kept p (startCmd c s) :=
  updMbx_kept h fun _ h => { h with inProgress := by simpa using h.inProgress }

theorem runCommand_kept {p a0 a1 a2 a3 s} (h : Kept p s) (ga3 : ∀ y0 s, Kept p s → Kept p (a3 y0 s))
    (al : autoParam (Allows p 1073741824) emit_kept._auto_1) : KeptRes p (runCommand a0 a1 a2 a3 s) := by
  unfold runCommand
  refine keptRes_inRange ?_ h
  split
  · exact keptRes_next h
  · refine keptRes_ite (fun _ => ?_) (fun _ => ?_)
    · exact keptRes_next h
    · extract_lets -merge -underBinder +onlyGivenNames x0
      try clear_value x0
      refine keptRes_ite (fun _ => ?_) (fun _ => ?_)
      · exact keptRes_next (finishCmd_kept h)
      · exact keptRes_next ((ga3 _ _ (startCmd_kept h)))

theorem endCmd_kept {p a0 a1 s} (h : Kept p s)
    (al : autoParam (Allows p 1073741824) emit_kept._auto_1) : Kept p (endCmd a0 a1 s) := by
  unfold endCmd
  exact (finishCmd_kept h)

theorem okCmd_kept {p a0 a1 s} (h : Kept p s)
    (al : autoParam (Allows p 1073741824) emit_kept._auto_1) : Kept p (okCmd a0 a1 s) := by
  unfold okCmd
  exact (finishCmd_kept h)

theorem bufCmd_kept {p a0 a1 a2 s} (h : Kept p s)
    (al : autoParam (Allows p 1073741824) emit_kept._auto_1) : Kept p (bufCmd a0 a1 a2 s) := by
  unfold bufCmd
  try dsimp only
  repeat' first
    | with_reducible assumption
    | exact Allows.sub al rfl
    | with_reducible refine finishBuf_kept ?_ ?_
    | split

theorem dropWaiting_kept {p a0 s} (h : Kept p s)
    (al : autoParam (Allows p 1073741824) emit_kept._auto_1) : Kept p (dropWaiting a0 s) := by
  unfold dropWaiting
  refine kept_foldl ?_ (fun x s h => ?_)
  · exact h
  · exact (endCmd_kept h)

theorem execCmdNop_kept {p a0 a1 s} (h : Kept p s)
    (al : autoParam (Allows p 1073741824) emit_kept._auto_1) : KeptRes p (execCmdNop a0 a1 s) := by
  unfold execCmdNop
  refine runCommand_kept h (fun c x0 h0 => ?_)
  exact (okCmd_kept h0)

end Sys2Proof.Machine
end

