-- ==== Sys2Proof/Laws/KeptSensor.lean ====
section
/-! SUPPORT. Every operation of Machine/Sensor.lean keeps the invariant of Safety.lean, leaves the
queue alone and changes no part outside those that the world `p` allows. -/

set_option Elab.async false

namespace Sys2Proof.Machine

theorem updCapture_kept {p a0 a1 s} (h : Kept p s)
    (al : autoParam (Allows p 262144) emit_kept._auto_1) : Kept p (updCapture a0 a1 s) := by
  unfold updCapture
  exact (updStream_kept h)

theorem updOpenFrame_kept {p a0 a1 s} (h : Kept p s)
    (al : autoParam (Allows p 262144) emit_kept._auto_1) : Kept p (updOpenFrame a0 a1 s) := by
  unfold updOpenFrame
  exact (updCapture_kept h)

theorem damageFrame_kept {p a0 a1 a2 s} (h : Kept p s)
    (al : autoParam (Allows p 262144) emit_kept._auto_1) : Kept p (damageFrame a0 a1 a2 s) := by
  unfold damageFrame
  try dsimp only
  repeat' first
    | with_reducible assumption
    | exact Allows.sub al rfl
    | with_reducible refine numberFrame_kept ?_ ?_
    | with_reducible refine updStream_kept ?_ ?_
    | with_reducible refine passFrame_kept ?_ ?_
    | split

theorem frameIrregular_kept {p a0 a1 a2 s} (h : Kept p s)
    (al : autoParam (Allows p 262144) emit_kept._auto_1) : Kept p (frameIrregular a0 a1 a2 s) := by
  unfold frameIrregular
  try dsimp only
  repeat' first
    | with_reducible assumption
    | exact Allows.sub al rfl
    | with_reducible refine updCapture_kept ?_ ?_
    | with_reducible refine updFrame_kept ?_ ?_
    | with_reducible refine kept_ite (fun _ => ?_) (fun _ => ?_)
    | split

theorem closeFrame_kept {p a0 a1 a2 s} (h : Kept p s)
    (al : autoParam (Allows p 9202567684) emit_kept._auto_1) : Kept p (closeFrame a0 a1 a2 s) := by
  unfold closeFrame
  try dsimp only
  repeat' first
    | with_reducible assumption
    | exact Allows.sub al rfl
    | with_reducible refine updCapture_kept ?_ ?_
    | with_reducible refine frameIrregular_kept ?_ ?_
    | with_reducible refine damageFrame_kept ?_ ?_
    | with_reducible refine freeChain_kept ?_ ?_
    | with_reducible refine kept_ite (fun _ => ?_) (fun _ => ?_)
    | split

theorem adoptSet_kept {p a0 s} (h : Kept p s)
    (al : autoParam (Allows p 1074003968) emit_kept._auto_1) : Kept p (adoptSet a0 s) := by
  unfold adoptSet
  split
  · exact h
  · split
    · split
      · refine kept_ite (fun _ => ?_) (fun _ => ?_)
        · refine kept_foldl ?_ (fun x s h => ?_)
          · exact (updCapture_kept h)
          · exact (finishCmd_kept h)
        · exact h
      · exact h
    · exact h

theorem discardPacket_kept {p a0 a1 s} (h : Kept p s)
    (al : autoParam (Allows p 603996676) emit_kept._auto_1) : Kept p (discardPacket a0 a1 s) := by
  unfold discardPacket
  exact (logErr_kept (updSensor_kept h))

theorem execFrameStartPacket_kept {p a0 a1 a2 a3 s} (h : Kept p s)
    (al : autoParam (Allows p 10276325892) emit_kept._auto_1) : KeptRes p (execFrameStartPacket a0 a1 a2 a3 s) := by
  unfold execFrameStartPacket
  try dsimp only
  repeat' first
    | with_reducible assumption
    | exact Allows.sub al rfl
    | with_reducible refine discardPacket_kept ?_ ?_
    | with_reducible refine adoptSet_kept ?_ ?_
    | with_reducible refine closeFrame_kept ?_ ?_
    | with_reducible refine updCapture_kept ?_ ?_
    | with_reducible refine keptRes_inRange ?_ ?_
    | with_reducible refine keptRes_doneIf ?_ ?_
    | with_reducible refine keptRes_ite (fun _ => ?_) (fun _ => ?_)
    | with_reducible refine keptRes_done ?_
    | with_reducible refine keptRes_next ?_
    | with_reducible refine kept_ite (fun _ => ?_) (fun _ => ?_)
    | split

theorem spoilFrame_kept {p a0 a1 a2 s} (h : Kept p s)
    (al : autoParam (Allows p 9202567684) emit_kept._auto_1) : Kept p (spoilFrame a0 a1 a2 s) := by
  unfold spoilFrame
  exact (updOpenFrame_kept (freeChain_kept h))

theorem putData_kept {p a0 a1 a2 a3 s} (h : Kept p s)
    (al : autoParam (Allows p 9193916932) emit_kept._auto_1) : Kept p (putData a0 a1 a2 a3 s) := by
  unfold putData
  try dsimp only
  repeat' first
    | with_reducible assumption
    | exact Allows.sub al rfl
    | with_reducible refine writePhys_kept ?_ ?_
    | with_reducible refine kept_ite (fun _ => ?_) (fun _ => ?_)
    | split

theorem sealCell_kept {p a0 a1 a2 s} (h : Kept p s)
    (al : autoParam (Allows p 9193916932) emit_kept._auto_1) : Kept p (sealCell a0 a1 a2 s) := by
  unfold sealCell
  try dsimp only
  repeat' first
    | with_reducible assumption
    | exact Allows.sub al rfl
    | with_reducible refine writePhys_kept ?_ ?_
    | with_reducible refine kept_ite (fun _ => ?_) (fun _ => ?_)
    | split

/-- The cells of a line are allocated, chained and filled. -/
theorem storeLine_some {p cl n q tl la bs s a b t} (h : Kept p s) (e : storeLine cl n q tl la bs s = some (a, b, t))
    (al : autoParam (Allows p 9202305540) emit_kept._auto_1) : Kept p t := by
  unfold storeLine at e
  extract_lets parts at e
  have h1 := allocOp_kept (a0 := q) (a1 := n) (a2 := min parts.length 32) (a3 := false) (a4 := tl) h
  generalize allocOp q n (min parts.length 32) false tl s = r at h1 e
  obtain ⟨st, hd, u⟩ := r
  dsimp only at e
  split at e
  · cases e
  · have h2 := growChain_kept (q := q) (a := n) (r := false) (f := parts.length)
      (n := parts.length - min parts.length 32) (b := growChain.lastCell 32 hd u) (s := u) h1
    generalize growChain q n false parts.length (parts.length - min parts.length 32) (growChain.lastCell 32 hd u) u = r at h2 e
    obtain ⟨st2, v⟩ := r
    dsimp only at e
    split at e
    · cases e
    · have h3 : Kept p (((chainCells parts.length hd v).zip parts).foldl (fun s x =>
          if x.1 = (chainCells parts.length hd v).getLastD hd then putData cl x.1 x.2 (outsideBad 4 v) s
          else fillCell cl x.1 x.2 (if outsideBad 4 v then x.2.map fun _ => true else []) s)
          (sealCell cl tl bs.length (meetOutside 4 v))) :=
        kept_foldl (sealCell_kept (meetOutside_kept h2)) fun _ _ h => kept_ite (fun _ => putData_kept h) (fun _ => fillCell_kept h)
      cases e
      exact kept_ite (fun _ => sealCell_kept h3) (fun _ => h3)

theorem completeFrame_kept {p a0 a1 a2 s} (h : Kept p s)
    (al : autoParam (Allows p 9202698756) emit_kept._auto_1) : Kept p (completeFrame a0 a1 a2 s) := by
  unfold completeFrame
  split
  · exact h
  · split
    · exact h
    · extract_lets -merge -underBinder +onlyGivenNames x0
      try clear_value x0
      extract_lets -merge -underBinder +onlyGivenNames x1
      try clear_value x1
      extract_lets -merge -underBinder +onlyGivenNames x2
      try clear_value x2
      extract_lets -merge -underBinder +onlyGivenNames x3
      try clear_value x3
      extract_lets -merge -underBinder +onlyGivenNames x4
      try clear_value x4
      exact (endIngest_kept (updOpenFrame_kept h))

theorem takeLine_kept {p n x cap c b t s} (h : Kept p s)
    (al : autoParam (Allows p 9202698756) emit_kept._auto_1) : Kept p (takeLine n x cap c b t s) := by
  unfold takeLine
  extract_lets w long
  split
  · exact (updOpenFrame_kept (spoilFrame_kept h))
  · rename_i e
    have ht := storeLine_some h e
    exact kept_ite (fun _ => completeFrame_kept (updOpenFrame_kept ht)) (fun _ => updOpenFrame_kept ht)

theorem lineOf_kept {p a0 a1 a2 a3 a4 a5 s} (h : Kept p s)
    (al : autoParam (Allows p 9202715140) emit_kept._auto_1) : Kept p (lineOf a0 a1 a2 a3 a4 a5 s) := by
  unfold lineOf
  split
  · exact h
  · split
    · exact h
    · refine kept_ite (fun _ => ?_) (fun _ => ?_)
      · exact (discardPacket_kept h)
      · split
        · exact (updSensor_kept (updCapture_kept h))
        · refine kept_ite (fun _ => ?_) (fun _ => ?_)
          · exact (updSensor_kept (updOpenFrame_kept h))
          · refine kept_ite (fun _ => ?_) (fun _ => ?_)
            · exact (updOpenFrame_kept h)
            · refine kept_ite (fun _ => ?_) (fun _ => ?_)
              · exact (updOpenFrame_kept (spoilFrame_kept h))
              · refine kept_ite (fun _ => ?_) (fun _ => ?_)
                · exact (updOpenFrame_kept (spoilFrame_kept h))
                · exact (takeLine_kept h)

theorem execLinePacket_kept {p a0 a1 a2 a3 a4 a5 a6 s} (h : Kept p s)
    (al : autoParam (Allows p 9202715140) emit_kept._auto_1) : KeptRes p (execLinePacket a0 a1 a2 a3 a4 a5 a6 s) := by
  unfold execLinePacket
  refine keptRes_inRange ?_ h
  refine keptRes_ite (fun _ => ?_) (fun _ => ?_)
  · exact keptRes_next h
  · refine keptRes_ite (fun _ => ?_) (fun _ => ?_)
    · exact keptRes_next ((logErr_kept (updSensor_kept h)))
    · split
      · exact keptRes_next (discardPacket_kept h)
      · exact keptRes_next (lineOf_kept h)

theorem execFrameEndPacket_kept {p a0 a1 a2 s} (h : Kept p s)
    (al : autoParam (Allows p 9202584068) emit_kept._auto_1) : KeptRes p (execFrameEndPacket a0 a1 a2 s) := by
  unfold execFrameEndPacket
  try dsimp only
  repeat' first
    | with_reducible assumption
    | exact Allows.sub al rfl
    | with_reducible refine discardPacket_kept ?_ ?_
    | with_reducible refine closeFrame_kept ?_ ?_
    | with_reducible refine keptRes_inRange ?_ ?_
    | with_reducible refine keptRes_doneIf ?_ ?_
    | with_reducible refine keptRes_ite (fun _ => ?_) (fun _ => ?_)
    | with_reducible refine keptRes_done ?_
    | with_reducible refine keptRes_next ?_
    | with_reducible refine kept_ite (fun _ => ?_) (fun _ => ?_)
    | split

theorem dropSync_kept {p a0 a1 s} (h : Kept p s)
    (al : autoParam (Allows p 9202567684) emit_kept._auto_1) : Kept p (dropSync a0 a1 s) := by
  unfold dropSync
  split
  · exact h
  · split
    · refine kept_ite (fun _ => ?_) (fun _ => ?_)
      · exact h
      · extract_lets -merge -underBinder +onlyGivenNames x0
        have h0 : Kept p x0 := (updCapture_kept (freeChain_kept h))
        clear_value x0
        exact (damageFrame_kept h0)
    · exact h

theorem execDphySyncLoss_kept {p a0 s} (h : Kept p s)
    (al : autoParam (Allows p 9202567684) emit_kept._auto_1) : KeptRes p (execDphySyncLoss a0 s) := by
  unfold execDphySyncLoss
  refine keptRes_inRange ?_ h
  refine keptRes_doneIf ?_ ?_
  · refine kept_foldl ?_ (fun x s h => ?_)
    · exact h
    · exact (dropSync_kept h)
  · exact h

end Sys2Proof.Machine
end

