-- ==== Sys2Proof/Laws/KeptTopiary.lean ====
section
/-! SUPPORT. Every operation of Machine/Topiary.lean keeps the invariant of Safety.lean, leaves the
queue alone and changes no part outside those that the world `p` allows. -/

set_option Elab.async false

namespace Sys2Proof.Machine

theorem adoptFor_kept {p a0 a1 s} (h : Kept p s)
    (al : autoParam (Allows p 262144) emit_kept._auto_1) : Kept p (adoptFor a0 a1 s) := by
  unfold adoptFor
  try dsimp only
  repeat' first
    | with_reducible assumption
    | exact Allows.sub al rfl
    | with_reducible refine updStream_kept ?_ ?_
    | with_reducible refine updFrame_kept ?_ ?_
    | split

theorem bareFrame_kept {p a0 a1 s} (h : Kept p s)
    (al : autoParam (Allows p 9202567684) emit_kept._auto_1) : Kept p (bareFrame a0 a1 s) := by
  unfold bareFrame
  exact (freeFrame_kept (updFrame_kept h))

theorem takeFrame_kept {p a0 a1 a2 a3 s} (h : Kept p s)
    (al : autoParam (Allows p 9202633220) emit_kept._auto_1) : Kept p (takeFrame a0 a1 a2 a3 s) := by
  unfold takeFrame
  split
  · exact (freeFrame_kept (updFrame_kept h))
  · split
    · extract_lets -merge -underBinder +onlyGivenNames x0
      have h0 : Kept p x0 := (adoptFor_kept h)
      clear_value x0
      extract_lets -merge -underBinder +onlyGivenNames x1
      try clear_value x1
      extract_lets -merge -underBinder +onlyGivenNames x2
      have h2 : Kept p x2 := (updFrame_kept h0)
      clear_value x2
      refine kept_ite (fun _ => ?_) (fun _ => ?_)
      · exact (bareFrame_kept h2)
      · exact (updTopiary_kept h2)

theorem execTopiaryTake_kept {p a0 s} (h : Kept p s)
    (al : autoParam (Allows p 9202633220) emit_kept._auto_1) : KeptRes p (execTopiaryTake a0 s) := by
  unfold execTopiaryTake
  try dsimp only
  repeat' first
    | with_reducible assumption
    | exact Allows.sub al rfl
    | with_reducible refine takeFrame_kept ?_ ?_
    | with_reducible refine updTopiary_kept ?_ ?_
    | with_reducible refine keptRes_inRange ?_ ?_
    | with_reducible refine keptRes_doneIf ?_ ?_
    | with_reducible refine keptRes_ite (fun _ => ?_) (fun _ => ?_)
    | with_reducible refine keptRes_done ?_
    | with_reducible refine keptRes_next ?_
    | with_reducible refine kept_ite (fun _ => ?_) (fun _ => ?_)
    | split

theorem freeTopiary_kept {p a0 s} (h : Kept p s)
    (al : autoParam (Allows p 65536) emit_kept._auto_1) : Kept p (freeTopiary a0 s) := by
  unfold freeTopiary
  exact (updTopiary_kept h)

theorem grantSlots_kept {p a0 a1 a2 a3 s} (h : Kept p s)
    (al : autoParam (Allows p 327808) emit_kept._auto_1) : Kept p (grantSlots a0 a1 a2 a3 s) := by
  unfold grantSlots
  try dsimp only
  repeat' first
    | with_reducible assumption
    | exact Allows.sub al rfl
    | with_reducible refine updBatch_kept ?_ ?_
    | with_reducible refine updFrame_kept ?_ ?_
    | with_reducible refine updTopiary_kept ?_ ?_
    | split

theorem execSlotGrant_kept {p a0 s} (h : Kept p s)
    (al : autoParam (Allows p 9202633348) emit_kept._auto_1) : KeptRes p (execSlotGrant a0 s) := by
  unfold execSlotGrant
  try dsimp only
  repeat' first
    | with_reducible assumption
    | exact Allows.sub al rfl
    | with_reducible refine freeTopiary_kept ?_ ?_
    | with_reducible refine freeFrame_kept ?_ ?_
    | with_reducible refine updFrame_kept ?_ ?_
    | with_reducible refine grantSlots_kept ?_ ?_
    | with_reducible refine keptRes_inRange ?_ ?_
    | with_reducible refine keptRes_doneIf ?_ ?_
    | with_reducible refine keptRes_ite (fun _ => ?_) (fun _ => ?_)
    | with_reducible refine keptRes_done ?_
    | with_reducible refine keptRes_next ?_
    | with_reducible refine kept_ite (fun _ => ?_) (fun _ => ?_)
    | split

theorem updSlot_kept {p a0 a1 a2 a3 s} (h : Kept p s)
    (al : autoParam (Allows p 128) emit_kept._auto_1) : Kept p (updSlot a0 a1 a2 a3 s) := by
  unfold updSlot
  exact (updBatch_kept h)

theorem maskSlots_kept {p a0 a1 a2 a3 s} (h : Kept p s)
    (al : autoParam (Allows p 1715735172) emit_kept._auto_1) : Kept p (maskSlots a0 a1 a2 a3 s) := by
  unfold maskSlots
  refine checkFill_kept ?_
  refine kept_foldl ?_ (fun x s h => ?_)
  · exact h
  · exact (updSlot_kept h)

theorem failFrame_kept {p a0 a1 a2 a3 a4 s} (h : Kept p s)
    (al : autoParam (Allows p 10314123908) emit_kept._auto_1) : Kept p (failFrame a0 a1 a2 a3 a4 s) := by
  unfold failFrame
  extract_lets -merge -underBinder +onlyGivenNames x0
  have h0 : Kept p x0 := by
    unfold x0
    split
    · exact (maskSlots_kept h)
    · exact h
  clear_value x0
  exact (freeTopiary_kept (freeFrame_kept (updFrame_kept h0)))

theorem noteSource_kept {p a0 a1 a2 a3 a4 s} (h : Kept p s)
    (al : autoParam (Allows p 9193916932) emit_kept._auto_1) : Kept p (noteSource a0 a1 a2 a3 a4 s) := by
  unfold noteSource
  try dsimp only
  repeat' first
    | with_reducible assumption
    | exact Allows.sub al rfl
    | with_reducible refine readingFor_kept ?_ (fun _ _ => ?_) ?_
    | with_reducible refine noteChain_kept ?_ ?_
    | with_reducible refine unitRead_kept ?_ ?_
    | with_reducible refine kept_foldl ?_ (fun _ _ _ => ?_)
    | with_reducible refine kept_foldl_snd ?_ (fun _ _ _ => ?_)
    | with_reducible refine kept_foldl_fst ?_ (fun _ _ _ => ?_)
    | dsimp only
    | split

theorem writeSlot_kept {p a0 a1 a2 a3 a4 a5 a6 a7 a8 s} (h : Kept p s)
    (al : autoParam (Allows p 10314123908) emit_kept._auto_1) : Kept p (writeSlot a0 a1 a2 a3 a4 a5 a6 a7 a8 s) := by
  unfold writeSlot
  try dsimp only
  repeat' first
    | with_reducible assumption
    | exact Allows.sub al rfl
    | with_reducible refine writing_kept ?_ (fun _ _ => ?_) ?_
    | with_reducible refine writePhys_kept ?_ ?_
    | with_reducible refine updSlot_kept ?_ ?_
    | with_reducible refine poisonFrame_kept ?_ ?_
    | with_reducible refine updFrame_kept ?_ ?_
    | with_reducible refine checkFill_kept ?_ ?_
    | with_reducible refine freeTopiary_kept ?_ ?_
    | with_reducible refine freeFrame_kept ?_ ?_
    | with_reducible refine kept_ite (fun _ => ?_) (fun _ => ?_)
    | split

theorem execSlotWriteComplete_kept {p a0 s} (h : Kept p s)
    (al : autoParam (Allows p 10314123908) emit_kept._auto_1) : KeptRes p (execSlotWriteComplete a0 s) := by
  unfold execSlotWriteComplete
  try dsimp only
  repeat' first
    | with_reducible assumption
    | exact Allows.sub al rfl
    | with_reducible refine freeTopiary_kept ?_ ?_
    | with_reducible refine failFrame_kept ?_ ?_
    | with_reducible refine logErr_kept ?_ ?_
    | with_reducible refine writeSlot_kept ?_ ?_
    | with_reducible refine noteSource_kept ?_ ?_
    | with_reducible refine keptRes_inRange ?_ ?_
    | with_reducible refine keptRes_doneIf ?_ ?_
    | with_reducible refine keptRes_ite (fun _ => ?_) (fun _ => ?_)
    | with_reducible refine keptRes_done ?_
    | with_reducible refine keptRes_next ?_
    | split

theorem resetTopiary_kept {p a0 s} (h : Kept p s)
    (al : autoParam (Allows p 10314123908) emit_kept._auto_1) : Kept p (resetTopiary a0 s) := by
  unfold resetTopiary
  split
  · exact h
  · extract_lets -merge -underBinder +onlyGivenNames x0
    try clear_value x0
    extract_lets -merge -underBinder +onlyGivenNames x1
    have h1 : Kept p x1 := by
      refine kept_foldl ?_ (fun x s h => ?_)
      · exact h
      · split
        · exact (failFrame_kept h)
        · exact h
    clear_value x1
    exact (updTopiary_kept h1)

end Sys2Proof.Machine
end

