-- ==== Sys2Proof/Laws/KeptTraining.lean ====
section
/-! SUPPORT. Every operation of Machine/Training.lean keeps the invariant of Safety.lean, leaves the
queue alone and changes no part outside those that the world `p` allows. -/

set_option Elab.async false

namespace Sys2Proof.Machine

theorem evictSamples_kept {p n q k f s} (h : Kept p s)
    (al : autoParam (Allows p 2097152) emit_kept._auto_1) : KeptSnd p (evictSamples n q k f s) := by
  induction f generalizing s with
  | zero => exact keptSnd_mk h
  | succ f ih =>
    unfold evictSamples
    extract_lets mine
    refine keptSnd_ite (fun _ => keptSnd_mk h) (fun _ => ?_)
    extract_lets frames free
    split
    · exact keptSnd_mk h
    · exact ih { h with frame := framedOf h.frame al }

theorem cacheFrame_kept {p a0 a1 a2 s} (h : Kept p s)
    (al : autoParam (Allows p 2359296) emit_kept._auto_1) : Kept p (cacheFrame a0 a1 a2 s) := by
  unfold cacheFrame
  split
  · exact h
  · refine kept_ite (fun _ => h) (fun _ => ?_)
    dsimp only
    split
    · exact { evictSamples_kept h with frame := framedOf (evictSamples_kept h).frame al }
    · exact updStream_kept (evictSamples_kept h)

theorem reportSuperseded_kept {p a0 s} (h : Kept p s)
    (al : autoParam (Allows p 603980292) emit_kept._auto_1) : Kept p (reportSuperseded a0 s) := by
  unfold reportSuperseded
  try dsimp only
  repeat' first
    | with_reducible assumption
    | exact Allows.sub al rfl
    | with_reducible refine logErr_kept ?_ ?_
    | split

theorem triggerJob_kept {p a0 a1 a2 s} (h : Kept p s)
    (al : autoParam (Allows p 608174596) emit_kept._auto_1) : Kept p (triggerJob a0 a1 a2 s) := by
  unfold triggerJob
  try dsimp only
  repeat' first
    | with_reducible assumption
    | exact Allows.sub al rfl
    | with_reducible refine reportSuperseded_kept ?_ ?_
    | with_reducible refine kept_ite (fun _ => ?_) (fun _ => ?_)
    | exact { reportSuperseded_kept h with frame := framedOf (reportSuperseded_kept h).frame al }
    | split

theorem execTrainingJobStart_kept {p s} (h : Kept p s)
    (al : autoParam (Allows p 4194304) emit_kept._auto_1) : KeptRes p (execTrainingJobStart s) := by
  unfold execTrainingJobStart
  split
  · refine keptRes_doneIf ?_ ?_
    · exact { h with frame := framedOf (h).frame al }
    · exact h
  · exact keptRes_next h

theorem trainStep_kept {p b x j e l st} (h : Kept p st.1)
    (al : autoParam (Allows p 9193916932) emit_kept._auto_1) : Kept p (trainStep b x j e l st).1 := by
  obtain ⟨s, num, th⟩ := st
  exact kept_foldl (writing_kept h fun _ h => writePhys_kept h) fun _ _ h => writing_kept h fun _ h => writePhys_kept h

theorem trainEpochs_kept {p b x j set n e st} (h : Kept p st.1)
    (al : autoParam (Allows p 9193916932) emit_kept._auto_1) : Kept p (trainEpochs b x j set n e st).1 := by
  induction n generalizing e st with
  | zero => exact h
  | succ n ih =>
    unfold trainEpochs
    extract_lets order batches
    exact ih (kept_foldl_fst (f := fun st l => trainStep b x j e l st) h fun _ _ h => trainStep_kept h)

theorem offerCandidate_kept {p a0 a1 s} (h : Kept p s)
    (al : autoParam (Allows p 1074003968) emit_kept._auto_1) : Kept p (offerCandidate a0 a1 s) := by
  unfold offerCandidate
  split
  · exact h
  · refine kept_ite (fun _ => ?_) (fun _ => ?_)
    · exact (addNotice_kept (updStream_kept h))
    · exact (updStream_kept h)

theorem runTraining_kept {p a0 a1 a2 a3 s} (h : Kept p s)
    (al : autoParam (Allows p 9193917060) emit_kept._auto_1) : KeptFst p (runTraining a0 a1 a2 a3 s) := by
  unfold runTraining
  extract_lets first start
  have k := trainEpochs_kept (b := a0) (x := a1) (j := a2) (set := a3) (n := max 1 a1.cfg.epochs) (e := 1)
    (st := (s, first, start)) h
  exact keptFst_mk (updScore_kept k fun c h => { h with batches := (length_upd ..).trans h.batches })

theorem execTrainingJobComplete_kept {p s} (h : Kept p s)
    (al : autoParam (Allows p 10272115332) emit_kept._auto_1) : KeptRes p (execTrainingJobComplete s) := by
  unfold execTrainingJobComplete
  try dsimp only
  repeat' first
    | with_reducible assumption
    | exact Allows.sub al rfl
    | with_reducible refine updStream_kept ?_ ?_
    | with_reducible refine offerCandidate_kept ?_ ?_
    | with_reducible refine addNotice_kept ?_ ?_
    | with_reducible refine keptRes_inRange ?_ ?_
    | with_reducible refine keptRes_doneIf ?_ ?_
    | with_reducible refine keptRes_ite (fun _ => ?_) (fun _ => ?_)
    | with_reducible refine keptRes_done ?_
    | with_reducible refine keptRes_next ?_
    | with_reducible refine kept_ite (fun _ => ?_) (fun _ => ?_)
    | split
    | exact { (runTraining_kept h : Kept p _) with frame := framedOf (runTraining_kept h : Kept p _).frame al }
    | exact { h with frame := framedOf h.frame al }

end Sys2Proof.Machine
end

