-- ==== Sys2Proof/Laws/KeptService.lean ====
section
/-! SUPPORT. Every operation of Machine/Service.lean keeps the invariant of Safety.lean, leaves the
queue alone and changes no part outside those that the world `p` allows. -/

set_option Elab.async false

namespace Sys2Proof.Machine

theorem setPort_kept {p a0 s} (h : Kept p s)
    (al : autoParam (Allows p 16384) emit_kept._auto_1) : Kept p (setPort a0 s) := by
  unfold setPort
  try dsimp only
  repeat' first
    | with_reducible assumption
    | exact Allows.sub al rfl
    | with_reducible refine updSensor_kept ?_ ?_
    | with_reducible refine kept_ite (fun _ => ?_) (fun _ => ?_)
    | split

theorem reserveOpen_kept {p s a0 a1} (h : Kept p s)
    (al : autoParam (Allows p 4096) emit_kept._auto_1) : KeptOpt p (reserveOpen s a0 a1) := by
  unfold reserveOpen
  exact reserve_kept h

theorem putStream_kept {p a0 a1 s} (h : Kept p s)
    (al : autoParam (Allows p 262144) emit_kept._auto_1) : Kept p (putStream a0 a1 s) := by
  unfold putStream
  exact { h with streams := (List.length_set ..).trans h.streams, frame := framedOf (h).frame al }

theorem reserveStream_kept {p a0 a1 a2 s} (h : Kept p s)
    (al : autoParam (Allows p 8392704) emit_kept._auto_1) : Kept p (reserveStream a0 a1 a2 s) := by
  unfold reserveStream
  extract_lets -merge -underBinder +onlyGivenNames x0
  try clear_value x0
  extract_lets -merge -underBinder +onlyGivenNames x1
  have h1 : Kept p x1 := (updPool_kept h)
  clear_value x1
  refine keptOpt_getD ?_ ?_
  · exact reserveOpen_kept h1
  · exact h1

theorem wakeFor_kept {p a0 s} (h : Kept p s)
    (al : autoParam (Allows p 16) emit_kept._auto_1) : Kept p (wakeFor a0 s) := by
  unfold wakeFor
  split
  · refine kept_foldl ?_ (fun x s h => ?_)
    · exact h
    · exact (wakeIsland_kept h)
  · exact h

theorem openStream_kept {p a0 a1 a2 a3 s} (h : Kept p s)
    (al : autoParam (Allows p 13497563668) emit_kept._auto_1) : Kept p (openStream a0 a1 a2 a3 s) := by
  unfold openStream
  try dsimp only
  repeat' first
    | with_reducible assumption
    | exact Allows.sub al rfl
    | exact fun _ h => h
    | exact fun _ h => { h with }
    | exact fun _ => rfl
    | exact fun _ => ⟨rfl, rfl⟩
    | with_reducible refine wakeFor_kept ?_ ?_
    | with_reducible refine putStream_kept ?_ ?_
    | with_reducible refine reserveStream_kept ?_ ?_
    | with_reducible refine setPort_kept ?_ ?_
    | with_reducible refine updTrellis_kept ?_ ?_ ?_
    | with_reducible refine clearHistories_kept ?_ ?_
    | with_reducible refine rtspSend_kept ?_ ?_
    | with_reducible refine joinGroup_kept ?_ ?_
    | refine keptOpt_eq (joinGroup_kept ?_ ?_) (by assumption)
    | with_reducible refine keptOpt_getD ?_ ?_
    | with_reducible refine kept_ite (fun _ => ?_) (fun _ => ?_)
    | split

theorem execStreamOpen_kept {p a0 a1 a2 s} (h : Kept p s)
    (al : autoParam (Allows p 14571305492) emit_kept._auto_1) : KeptRes p (execStreamOpen a0 a1 a2 s) := by
  unfold execStreamOpen
  refine runCommand_kept h (fun c x0 h0 => ?_)
  extract_lets -merge -underBinder +onlyGivenNames x1
  try clear_value x1
  extract_lets -merge -underBinder +onlyGivenNames x2
  try clear_value x2
  extract_lets -merge -underBinder +onlyGivenNames x3
  try clear_value x3
  extract_lets -merge -underBinder +onlyGivenNames x4
  try clear_value x4
  refine kept_ite (fun _ => ?_) (fun _ => ?_)
  · exact (endCmd_kept h0)
  · refine kept_ite (fun _ => ?_) (fun _ => ?_)
    · exact (openStream_kept h0)
    · extract_lets -merge -underBinder +onlyGivenNames x5
      have h5 : Kept p x5 := (openStream_kept h0)
      clear_value x5
      exact (okCmd_kept h5)

theorem releasePrompt_kept {p a0 s} (h : Kept p s)
    (al : autoParam (Allows p 6144) emit_kept._auto_1) : Kept p (releasePrompt a0 s) := by
  unfold releasePrompt
  split
  · exact h
  · refine kept_ite (fun _ => ?_) (fun _ => ?_)
    · exact h
    · extract_lets -merge -underBinder +onlyGivenNames x0
      have h0 : Kept p x0 := by
        unfold x0
        split
        · exact (endSeq_kept h)
        · exact h
      clear_value x0
      exact (unreserve_kept (updAviary_kept h0 (fun _ h => by simpa using h)))

theorem pruneBindings_kept {p a0 a1 s} (h : Kept p s)
    (al : autoParam (Allows p 268288) emit_kept._auto_1) : Kept p (pruneBindings a0 a1 s) := by
  unfold pruneBindings
  split
  · exact h
  · extract_lets -merge -underBinder +onlyGivenNames x0
    try clear_value x0
    extract_lets -merge -underBinder +onlyGivenNames x1
    try clear_value x1
    extract_lets -merge -underBinder +onlyGivenNames x2
    have h2 : Kept p x2 := (updStream_kept h)
    clear_value x2
    refine kept_foldl ?_ (fun x s h => ?_)
    · exact h2
    · exact (releasePrompt_kept h)

theorem endStreamSeqs_kept {p a0 s} (h : Kept p s)
    (al : autoParam (Allows p 6144) emit_kept._auto_1) : Kept p (endStreamSeqs a0 s) := by
  unfold endStreamSeqs
  refine kept_foldl ?_ (fun x s h => ?_)
  · exact h
  · exact (endSeq_kept h)

theorem endStreamCmds_kept {p a0 s} (h : Kept p s)
    (al : autoParam (Allows p 1073741824) emit_kept._auto_1) : Kept p (endStreamCmds a0 s) := by
  unfold endStreamCmds
  refine kept_foldl ?_ (fun x s h => ?_)
  · exact h
  · exact (endCmd_kept h)

theorem removeStream_kept {p a0 a1 s} (h : Kept p s)
    (al : autoParam (Allows p 14577711620) emit_kept._auto_1) : Kept p (removeStream a0 a1 s) := by
  unfold removeStream
  extract_lets -merge -underBinder +onlyGivenNames x0
  try clear_value x0
  extract_lets -merge -underBinder +onlyGivenNames x1
  have h1 : Kept p x1 := by
    refine kept_foldl ?_ (fun x s h => ?_)
    · exact h
    · exact (freeChain_kept h)
  clear_value x1
  extract_lets -merge -underBinder +onlyGivenNames x2
  have h2 : Kept p x2 := (sendClosed_kept (leaveGroups_kept (endStreamSeqs_kept h1)))
  clear_value x2
  extract_lets -merge -underBinder +onlyGivenNames x3
  have h3 : Kept p x3 := (unreserve_kept (unreserve_kept (unreserve_kept h2)))
  clear_value x3
  extract_lets -merge -underBinder +onlyGivenNames x4
  have h4 : Kept p x4 := (updPool_kept h3)
  clear_value x4
  extract_lets -merge -underBinder +onlyGivenNames x5
  have h5 : Kept p x5 := (updAviary_kept h4 (fun _ h => h))
  clear_value x5
  extract_lets -merge -underBinder +onlyGivenNames x6
  have h6 : Kept p x6 := { h5 with clips := (List.length_map ..).trans h5.clips, frame := framedOf (h5).frame al }
  clear_value x6
  extract_lets -merge -underBinder +onlyGivenNames x7
  have h7 : Kept p x7 := (endStreamCmds_kept (putStream_kept h6))
  clear_value x7
  refine kept_foldl ?_ (fun x s h => ?_)
  · exact h7
  · exact (releasePrompt_kept h)

theorem finishClose_kept {p a0 s} (h : Kept p s)
    (al : autoParam (Allows p 14577711620) emit_kept._auto_1) : Kept p (finishClose a0 s) := by
  unfold finishClose
  split
  · refine kept_ite (fun _ => ?_) (fun _ => ?_)
    · exact (removeStream_kept h)
    · exact h
  · exact h

theorem closeRefused_kept {p a0 s} (h : Kept p s)
    (al : autoParam (Allows p 14577711620) emit_kept._auto_1) : Kept p (closeRefused a0 s) := by
  unfold closeRefused
  split
  · exact (removeStream_kept h)
  · exact h

theorem beginClose_kept {p a0 s} (h : Kept p s)
    (al : autoParam (Allows p 14577711620) emit_kept._auto_1) : Kept p (beginClose a0 s) := by
  unfold beginClose
  split
  · exact h
  · extract_lets -merge -underBinder +onlyGivenNames x0
    have h0 : Kept p x0 := by
      refine kept_ite (fun _ => ?_) (fun _ => ?_)
      · exact (emit_kept h)
      · exact h
    clear_value x0
    extract_lets -merge -underBinder +onlyGivenNames x1
    have h1 : Kept p x1 := by
      unfold x1
      split
      · refine kept_ite (fun _ => ?_) (fun _ => ?_)
        · exact h0
        · exact (freeChain_kept h0)
      · exact h0
    clear_value x1
    extract_lets -merge -underBinder +onlyGivenNames x2
    have h2 : Kept p x2 := (updStream_kept (leaveGroups_kept h1))
    clear_value x2
    exact (finishClose_kept h2)

theorem execStreamClose_kept {p a0 a1 s} (h : Kept p s)
    (al : autoParam (Allows p 14577711620) emit_kept._auto_1) : KeptRes p (execStreamClose a0 a1 s) := by
  unfold execStreamClose
  refine runCommand_kept h (fun c x0 h0 => ?_)
  extract_lets -merge -underBinder +onlyGivenNames x1
  try clear_value x1
  refine kept_ite (fun _ => ?_) (fun _ => ?_)
  · exact (endCmd_kept h0)
  · exact (beginClose_kept h0)

theorem streamCommand_kept {p a0 a1 a2 a3 s} (h : Kept p s) (ga3 : ∀ y0 y1 y2 s, Kept p s → Kept p (a3 y0 y1 y2 s))
    (al : autoParam (Allows p 1073741824) emit_kept._auto_1) : KeptRes p (streamCommand a0 a1 a2 a3 s) := by
  unfold streamCommand
  refine runCommand_kept h (fun c x0 h0 => ?_)
  split
  · exact (endCmd_kept h0)
  · exact (ga3 _ _ _ _ h0)

theorem execSetDecodeMode_kept {p a0 a1 s} (h : Kept p s)
    (al : autoParam (Allows p 1074003968) emit_kept._auto_1) : KeptRes p (execSetDecodeMode a0 a1 s) := by
  unfold execSetDecodeMode
  refine streamCommand_kept h (fun x1 x1 x1 s1 k1 => ?_)
  · try beta_reduce
    extract_lets -merge -underBinder +onlyGivenNames x2
    try clear_value x2
    refine kept_ite (fun _ => ?_) (fun _ => ?_)
    · exact (endCmd_kept k1)
    · refine kept_ite (fun _ => ?_) (fun _ => ?_)
      · exact (updStream_kept k1)
      · exact (okCmd_kept (updStream_kept k1))

theorem execSetAnalyseConcealed_kept {p a0 a1 s} (h : Kept p s)
    (al : autoParam (Allows p 1074003968) emit_kept._auto_1) : KeptRes p (execSetAnalyseConcealed a0 a1 s) := by
  unfold execSetAnalyseConcealed
  refine streamCommand_kept h (fun x1 x1 x1 s1 k1 => ?_)
  · try beta_reduce
    extract_lets -merge -underBinder +onlyGivenNames x2
    try clear_value x2
    refine kept_ite (fun _ => ?_) (fun _ => ?_)
    · exact (endCmd_kept k1)
    · exact (okCmd_kept (updStream_kept k1))

theorem execSetCaptureSet_kept {p a0 a1 a2 s} (h : Kept p s)
    (al : autoParam (Allows p 1074020352) emit_kept._auto_1) : KeptRes p (execSetCaptureSet a0 a1 a2 s) := by
  unfold execSetCaptureSet
  try dsimp only
  repeat' first
    | with_reducible assumption
    | exact Allows.sub al rfl
    | with_reducible refine streamCommand_kept ?_ (fun _ _ _ _ _ => ?_) ?_
    | with_reducible refine endCmd_kept ?_ ?_
    | with_reducible refine setPort_kept ?_ ?_
    | with_reducible refine updCapture_kept ?_ ?_
    | with_reducible refine keptRes_inRange ?_ ?_
    | with_reducible refine keptRes_doneIf ?_ ?_
    | with_reducible refine keptRes_ite (fun _ => ?_) (fun _ => ?_)
    | with_reducible refine keptRes_done ?_
    | with_reducible refine keptRes_next ?_
    | with_reducible refine kept_ite (fun _ => ?_) (fun _ => ?_)
    | split

theorem execLiftQuarantine_kept {p a0 a1 s} (h : Kept p s)
    (al : autoParam (Allows p 1074003968) emit_kept._auto_1) : KeptRes p (execLiftQuarantine a0 a1 s) := by
  unfold execLiftQuarantine
  refine streamCommand_kept h (fun _ _ _ _ k0 => (okCmd_kept (updStream_kept k0)))

/-- A stream that links has its GALLERY sequence. -/
theorem galleryFor_kept {p n x s t} (h : Kept p s) (e : galleryFor n x s = .ok t)
    (al : autoParam (Allows p 4096) emit_kept._auto_1) : Kept p t := by
  unfold galleryFor at e
  extract_lets has at e
  split at e
  · cases e; exact h
  · split at e
    · cases e
    · cases e
    · rename_i r
      cases e
      exact updAviary_kept (keptOpt_eq (reserve_kept h) r) (fun _ h => h)

theorem dropGallery_kept {p a0 s} (h : Kept p s)
    (al : autoParam (Allows p 6144) emit_kept._auto_1) : Kept p (dropGallery a0 s) := by
  unfold dropGallery
  extract_lets -merge -underBinder +onlyGivenNames x0
  try clear_value x0
  refine unreserve_kept ?_
  refine kept_foldl ?_ (fun x s h => ?_)
  · exact h
  · exact (endSeq_kept h)

theorem execSetLinks_kept {p q cid s} (h : Kept p s)
    (al : autoParam (Allows p 1074010112) emit_kept._auto_1) : KeptRes p (execSetLinks q cid s) := by
  unfold execSetLinks
  refine streamCommand_kept h (fun c n x s k => ?_)
  beta_reduce
  extract_lets -merge -underBinder +onlyGivenNames es
  refine kept_ite (fun _ => endCmd_kept k) (fun _ => ?_)
  extract_lets -merge -underBinder +onlyGivenNames keep
  have g : ∀ s, Kept p s → Kept p (keep s) := fun s k => okCmd_kept (updStream_kept k)
  clear_value keep
  refine kept_ite (fun _ => g _ (dropGallery_kept k)) (fun _ => ?_)
  split
  · rename_i e; exact g _ (galleryFor_kept k e)
  · exact endCmd_kept k

theorem execSetAdaptationMode_kept {p a0 a1 s} (h : Kept p s)
    (al : autoParam (Allows p 1074003968) emit_kept._auto_1) : KeptRes p (execSetAdaptationMode a0 a1 s) := by
  unfold execSetAdaptationMode
  refine streamCommand_kept h (fun x1 x1 x1 s1 k1 => ?_)
  · try beta_reduce
    extract_lets -merge -underBinder +onlyGivenNames x2
    try clear_value x2
    refine kept_ite (fun _ => ?_) (fun _ => ?_)
    · exact (endCmd_kept k1)
    · exact (okCmd_kept (updStream_kept k1))

theorem execStreamStats_kept {p a0 a1 s} (h : Kept p s)
    (al : autoParam (Allows p 1677723140) emit_kept._auto_1) : KeptRes p (execStreamStats a0 a1 s) := by
  unfold execStreamStats
  refine streamCommand_kept h (fun _ _ _ _ k0 => (bufCmd_kept k0))

theorem execRtspResponse_kept {p a0 a1 s} (h : Kept p s)
    (al : autoParam (Allows p 16993631748) emit_kept._auto_1) : KeptRes p (execRtspResponse a0 a1 s) := by
  unfold execRtspResponse
  try dsimp only
  repeat' first
    | with_reducible assumption
    | exact Allows.sub al rfl
    | with_reducible refine rtspAdvance_kept ?_ (fun _ _ _ => ?_) ?_
    | with_reducible refine closeRefused_kept ?_ ?_
    | with_reducible refine keptRes_inRange ?_ ?_
    | with_reducible refine keptRes_doneIf ?_ ?_
    | with_reducible refine keptRes_ite (fun _ => ?_) (fun _ => ?_)
    | with_reducible refine keptRes_done ?_
    | with_reducible refine keptRes_next ?_
    | split

theorem execSourceLost_kept {p a0 a1 s} (h : Kept p s)
    (al : autoParam (Allows p 16993631756) emit_kept._auto_1) : KeptRes p (execSourceLost a0 a1 s) := by
  unfold execSourceLost
  try dsimp only
  repeat' first
    | with_reducible assumption
    | exact Allows.sub al rfl
    | with_reducible refine idle_kept ?_ ?_
    | with_reducible refine refuseOpen_kept ?_ (fun _ _ _ => ?_) ?_
    | with_reducible refine closeRefused_kept ?_ ?_
    | with_reducible refine loseStream_kept ?_ ?_
    | with_reducible refine keptRes_inRange ?_ ?_
    | with_reducible refine keptRes_doneIf ?_ ?_
    | with_reducible refine keptRes_ite (fun _ => ?_) (fun _ => ?_)
    | with_reducible refine keptRes_done ?_
    | with_reducible refine keptRes_next ?_
    | with_reducible refine kept_ite (fun _ => ?_) (fun _ => ?_)
    | split

theorem landSubmission_kept {p a0 a1 a2 a3 a4 a5 s} (h : Kept p s)
    (al : autoParam (Allows p 9202698756) emit_kept._auto_1) : Kept p (landSubmission a0 a1 a2 a3 a4 a5 s) := by
  unfold landSubmission
  try dsimp only
  repeat' first
    | with_reducible assumption
    | exact Allows.sub al rfl
    | with_reducible refine buildChain_kept ?_ ?_
    | refine keptThd_eq (buildChain_kept ?_ ?_) (by assumption)
    | refine (buildChain_kept ?_ ?_ : KeptThd p _)
    | with_reducible refine endIngest_kept ?_ ?_
    | with_reducible refine numberFrame_kept ?_ ?_
    | with_reducible refine updStream_kept ?_ ?_
    | with_reducible refine passFrame_kept ?_ ?_
    | with_reducible refine kept_ite (fun _ => ?_) (fun _ => ?_)
    | split

theorem execFrameSubmit_kept {p a0 a1 s} (h : Kept p s)
    (al : autoParam (Allows p 10276440580) emit_kept._auto_1) : KeptRes p (execFrameSubmit a0 a1 s) := by
  unfold execFrameSubmit
  try dsimp only
  repeat' first
    | with_reducible assumption
    | exact Allows.sub al rfl
    | with_reducible refine streamCommand_kept ?_ (fun _ _ _ _ _ => ?_) ?_
    | with_reducible refine endCmd_kept ?_ ?_
    | with_reducible refine setCause_kept ?_ ?_
    | with_reducible refine okCmd_kept ?_ ?_
    | with_reducible refine landSubmission_kept ?_ ?_
    | with_reducible refine keptRes_inRange ?_ ?_
    | with_reducible refine keptRes_doneIf ?_ ?_
    | with_reducible refine keptRes_ite (fun _ => ?_) (fun _ => ?_)
    | with_reducible refine keptRes_done ?_
    | with_reducible refine keptRes_next ?_
    | with_reducible refine kept_ite (fun _ => ?_) (fun _ => ?_)
    | split

theorem execAdaptAdopt_kept {p a0 a1 s} (h : Kept p s)
    (al : autoParam (Allows p 1074003968) emit_kept._auto_1) : KeptRes p (execAdaptAdopt a0 a1 s) := by
  unfold execAdaptAdopt
  refine streamCommand_kept h (fun x1 x1 x1 s1 k1 => ?_)
  · try beta_reduce
    extract_lets -merge -underBinder +onlyGivenNames x2
    try clear_value x2
    split
    · refine kept_ite (fun _ => ?_) (fun _ => ?_)
      · exact (endCmd_kept k1)
      · exact (okCmd_kept (updStream_kept k1))
    · exact (endCmd_kept k1)

end Sys2Proof.Machine
end

