-- ==== Sys2Proof/Laws/KeptRecords.lean ====
section
/-! SUPPORT. Every operation of Machine/Records.lean keeps the invariant of Safety.lean, leaves the
queue alone and changes no part outside those that the world `p` allows. -/

set_option Elab.async false

namespace Sys2Proof.Machine

theorem pushHistories_kept {p a0 a1 s} (h : Kept p s)
    (al : autoParam (Allows p 9193916932) emit_kept._auto_1) : Kept p (pushHistories a0 a1 s) := by
  unfold pushHistories
  try dsimp only
  repeat' first
    | with_reducible assumption
    | exact Allows.sub al rfl
    | with_reducible refine writePhys_kept ?_ ?_
    | with_reducible refine unitRead_kept ?_ ?_
    | with_reducible refine kept_foldl ?_ (fun _ _ _ => ?_)
    | with_reducible refine kept_foldl_snd ?_ (fun _ _ _ => ?_)
    | with_reducible refine kept_foldl_fst ?_ (fun _ _ _ => ?_)
    | dsimp only
    | split

theorem publishEffect_kept {p a0 a1 a2 a3 a4 s} (h : Kept p s)
    (al : autoParam (Allows p 4899209732) emit_kept._auto_1) : Kept p (publishEffect a0 a1 a2 a3 a4 s) := by
  unfold publishEffect
  split
  · exact (publish_kept h)
  · exact h

theorem commitJournal_kept {p a0 a1 a2 a3 s} (h : Kept p s)
    (al : autoParam (Allows p 13497540102) emit_kept._auto_1) : Kept p (commitJournal a0 a1 a2 a3 s) := by
  unfold commitJournal
  extract_lets -merge -underBinder +onlyGivenNames x0
  try clear_value x0
  extract_lets -merge -underBinder +onlyGivenNames x1
  have h1 : Kept p x1 := by
    refine kept_foldl ?_ (fun x s h => ?_)
    · exact h
    · split
      · exact (publishEffect_kept h)
      · exact (commitEffect_kept h)
  clear_value x1
  refine kept_foldl ?_ (fun x s h => ?_)
  · exact h1
  · split
    · exact (publishEffect_kept h)
    · exact h

theorem overloadNotice_kept {p a0 s} (h : Kept p s)
    (al : autoParam (Allows p 1074003968) emit_kept._auto_1) : Kept p (overloadNotice a0 s) := by
  unfold overloadNotice
  split
  · exact h
  · extract_lets -merge -underBinder +onlyGivenNames x0
    try clear_value x0
    refine kept_ite (fun _ => ?_) (fun _ => ?_)
    · exact (addNotice_kept (updStream_kept h))
    · exact h

theorem noteSkip_kept {p a0 a1 s} (h : Kept p s)
    (al : autoParam (Allows p 1074003968) emit_kept._auto_1) : Kept p (noteSkip a0 a1 s) := by
  unfold noteSkip
  extract_lets -merge -underBinder +onlyGivenNames x0
  try clear_value x0
  exact (overloadNotice_kept (updStream_kept h))

theorem commitFrame_kept {p a0 a1 a2 a3 s} (h : Kept p s)
    (al : autoParam (Allows p 13503831558) emit_kept._auto_1) : Kept p (commitFrame a0 a1 a2 a3 s) := by
  unfold commitFrame
  extract_lets -merge -underBinder +onlyGivenNames x0
  try clear_value x0
  extract_lets -merge -underBinder +onlyGivenNames x1
  have h1 : Kept p x1 := (commitJournal_kept (pushHistories_kept h))
  clear_value x1
  extract_lets -merge -underBinder +onlyGivenNames x2
  have h2 : Kept p x2 := (updStream_kept h1)
  clear_value x2
  extract_lets -merge -underBinder +onlyGivenNames x3
  have h3 : Kept p x3 := by
    refine kept_ite (fun _ => ?_) (fun _ => ?_)
    · exact h2
    · exact (cacheFrame_kept h2)
  clear_value x3
  exact (pruneBindings_kept (triggerJob_kept h3))

theorem clearFrame_kept {p a0 a1 a2 s} (h : Kept p s)
    (al : autoParam (Allows p 9202571908) emit_kept._auto_1) : Kept p (clearFrame a0 a1 a2 s) := by
  unfold clearFrame
  extract_lets -merge -underBinder +onlyGivenNames x0
  have h0 : Kept p x0 := (dropJournal_kept (updScore_kept h (fun _ h => { h with })))
  clear_value x0
  exact (updFrame_kept (freeFrame_kept h0))

theorem formRecord_kept {p a0 a1 a2 a3 s} (h : Kept p s)
    (al : autoParam (Allows p 14577573510) emit_kept._auto_1) : Kept p (formRecord a0 a1 a2 a3 s) := by
  unfold formRecord
  try dsimp only
  repeat' first
    | with_reducible assumption
    | exact Allows.sub al rfl
    | with_reducible refine commitFrame_kept ?_ ?_
    | with_reducible refine noteSkip_kept ?_ ?_
    | with_reducible refine updStream_kept ?_ ?_
    | with_reducible refine clearFrame_kept ?_ ?_
    | with_reducible refine releasePrompt_kept ?_ ?_
    | with_reducible refine kept_ite (fun _ => ?_) (fun _ => ?_)
    | split

theorem logRecordMark_kept {p a0 s} (h : Kept p s)
    (al : autoParam (Allows p 603980292) emit_kept._auto_1) : Kept p (logRecordMark a0 s) := by
  unfold logRecordMark
  try dsimp only
  repeat' first
    | with_reducible assumption
    | exact Allows.sub al rfl
    | with_reducible refine logErr_kept ?_ ?_
    | split

theorem formClean_kept {p a0 a1 a2 a3 a4 a5 s} (h : Kept p s)
    (al : autoParam (Allows p 14577573510) emit_kept._auto_1) : Kept p (formClean a0 a1 a2 a3 a4 a5 s) := by
  unfold formClean
  try dsimp only
  repeat' first
    | with_reducible assumption
    | exact Allows.sub al rfl
    | with_reducible refine formRecord_kept ?_ ?_
    | with_reducible refine logRecordMark_kept ?_ ?_
    | with_reducible refine updFrame_kept ?_ ?_
    | with_reducible refine kept_ite (fun _ => ?_) (fun _ => ?_)
    | split

theorem execRecordForm_kept {p a0 s} (h : Kept p s)
    (al : autoParam (Allows p 14577573510) emit_kept._auto_1) : KeptRes p (execRecordForm a0 s) := by
  unfold execRecordForm
  try dsimp only
  repeat' first
    | with_reducible assumption
    | exact Allows.sub al rfl
    | with_reducible refine formClean_kept ?_ ?_
    | with_reducible refine wantPage_kept ?_ ?_
    | with_reducible refine keptRes_inRange ?_ ?_
    | with_reducible refine keptRes_doneIf ?_ ?_
    | with_reducible refine keptRes_ite (fun _ => ?_) (fun _ => ?_)
    | with_reducible refine keptRes_done ?_
    | with_reducible refine keptRes_next ?_
    | with_reducible refine kept_foldl ?_ (fun _ _ _ => ?_)
    | with_reducible refine kept_ite (fun _ => ?_) (fun _ => ?_)
    | split

theorem execRecordEmit_kept {p a0 s} (h : Kept p s)
    (al : autoParam (Allows p 16993631748) emit_kept._auto_1) : KeptRes p (execRecordEmit a0 s) := by
  unfold execRecordEmit
  try dsimp only
  repeat' first
    | with_reducible assumption
    | exact Allows.sub al rfl
    | with_reducible refine logRecordMark_kept ?_ ?_
    | with_reducible refine updStream_kept ?_ ?_
    | with_reducible refine emitRecord_kept ?_ ?_
    | with_reducible refine finishClose_kept ?_ ?_
    | with_reducible refine formHeld_kept ?_ ?_
    | with_reducible refine quinbuarAsks_kept ?_ (fun _ _ => ?_) (fun _ _ => ?_) ?_
    | with_reducible refine dropForRings_kept ?_ ?_
    | with_reducible refine keptRes_inRange ?_ ?_
    | with_reducible refine keptRes_doneIf ?_ ?_
    | with_reducible refine keptRes_ite (fun _ => ?_) (fun _ => ?_)
    | with_reducible refine keptRes_done ?_
    | with_reducible refine keptRes_next ?_
    | with_reducible refine kept_ite (fun _ => ?_) (fun _ => ?_)
    | split

theorem pinNotice_kept {p a0 s} (h : Kept p s)
    (al : autoParam (Allows p 4093912612) emit_kept._auto_1) : Kept p (pinNotice a0 s) := by
  unfold pinNotice
  split
  · exact h
  · refine kept_ite (fun _ => ?_) (fun _ => ?_)
    · exact h
    · exact (noticeRecord_kept (updPin_kept h (fun _ h => { h with stamps := Nat.zero_le _ })))

theorem execPinNotice_kept {p s} (h : Kept p s)
    (al : autoParam (Allows p 4093912612) emit_kept._auto_1) : KeptRes p (execPinNotice s) := by
  unfold execPinNotice
  try dsimp only
  repeat' first
    | with_reducible assumption
    | exact Allows.sub al rfl
    | with_reducible refine pinNotice_kept ?_ ?_
    | with_reducible refine formHeld_kept ?_ ?_
    | with_reducible refine keptRes_inRange ?_ ?_
    | with_reducible refine keptRes_doneIf ?_ ?_
    | with_reducible refine keptRes_ite (fun _ => ?_) (fun _ => ?_)
    | with_reducible refine keptRes_done ?_
    | with_reducible refine keptRes_next ?_
    | with_reducible refine kept_foldl ?_ (fun _ _ _ => ?_)
    | with_reducible refine kept_foldl_snd ?_ (fun _ _ _ => ?_)
    | with_reducible refine kept_foldl_fst ?_ (fun _ _ _ => ?_)
    | dsimp only
    | split

end Sys2Proof.Machine
end

