-- ==== Sys2Proof/Laws/KeptClips.lean ====
section
/-! SUPPORT. Every operation of Machine/Clips.lean keeps the invariant of Safety.lean, leaves the
queue alone and changes no part outside those that the world `p` allows. -/

set_option Elab.async false

namespace Sys2Proof.Machine

theorem retainAll_kept {p a0 s} (h : Kept p s)
    (al : autoParam (Allows p 9202305540) emit_kept._auto_1) : Kept p (retainAll a0 s) := by
  unfold retainAll
  refine kept_foldl ?_ (fun x s h => ?_)
  · exact h
  · exact (retainOp_kept h)

theorem execClipRequest_kept {p a0 a1 s} (h : Kept p s)
    (al : autoParam (Allows p 10276178436) emit_kept._auto_1) : KeptRes p (execClipRequest a0 a1 s) := by
  unfold execClipRequest
  refine runCommand_kept h (fun c x0 h0 => ?_)
  extract_lets -merge -underBinder +onlyGivenNames x1
  try clear_value x1
  extract_lets -merge -underBinder +onlyGivenNames x2
  try clear_value x2
  split
  · exact (endCmd_kept h0)
  · extract_lets -merge -underBinder +onlyGivenNames x3
    try clear_value x3
    refine kept_ite (fun _ => ?_) (fun _ => ?_)
    · exact (endCmd_kept h0)
    · split
      · exact (endCmd_kept h0)
      · extract_lets -merge -underBinder +onlyGivenNames x4
        extract_lets -merge -underBinder +onlyGivenNames xb
        clear_value x4 xb
        extract_lets -merge -underBinder +onlyGivenNames x5
        have h5 : Kept p x5 := (retainAll_kept h0)
        clear_value x5
        exact { h5 with clips := (List.length_set ..).trans h5.clips, frame := framedOf (h5).frame al }

theorem execClipCancel_kept {p a0 a1 s} (h : Kept p s)
    (al : autoParam (Allows p 10276212228) emit_kept._auto_1) : KeptRes p (execClipCancel a0 a1 s) := by
  unfold execClipCancel
  refine runCommand_kept h (fun c x0 h0 => ?_)
  extract_lets -merge -underBinder +onlyGivenNames x1
  try clear_value x1
  split
  · exact (okCmd_kept (endClip_kept h0))
  · exact (endCmd_kept h0)

theorem clipWrite_kept {p a0 a1 a2 s} (h : Kept p s)
    (al : autoParam (Allows p 9193917956) emit_kept._auto_1) : Kept p (clipWrite a0 a1 a2 s) := by
  unfold clipWrite
  try dsimp only
  repeat' first
    | with_reducible assumption
    | exact Allows.sub al rfl
    | with_reducible refine unmapHost_kept ?_ ?_
    | with_reducible refine windowWrite_kept ?_ ?_
    | with_reducible refine mapHost_kept ?_ ?_
    | split

theorem writeClip_kept {p i l o b s} (h : Kept p s)
    (al : autoParam (Allows p 9193917956) emit_kept._auto_1) : Kept p (writeClip i l o b s) := by
  induction l generalizing o b s with
  | nil => exact h
  | cons a l ih =>
    unfold writeClip
    exact kept_ite (fun _ => h) fun _ => kept_ite (fun _ => ih h) (fun _ => ih (clipWrite_kept h))

theorem putPicture_kept {p a0 a1 a2 a3 a4 a5 s} (h : Kept p s)
    (al : autoParam (Allows p 10276212228) emit_kept._auto_1) : Kept p (putPicture a0 a1 a2 a3 a4 a5 s) := by
  unfold putPicture
  try dsimp only
  repeat' first
    | with_reducible assumption
    | exact Allows.sub al rfl
    | with_reducible refine endClip_kept ?_ ?_
    | with_reducible refine writeClip_kept ?_ ?_
    | with_reducible refine clipWrite_kept ?_ ?_
    | with_reducible refine updClip_kept ?_ ?_
    | with_reducible refine kept_ite (fun _ => ?_) (fun _ => ?_)
    | split

theorem settleClip_kept {p a0 s} (h : Kept p s)
    (al : autoParam (Allows p 10276212228) emit_kept._auto_1) : Kept p (settleClip a0 s) := by
  unfold settleClip
  split
  · exact h
  · refine kept_ite (fun _ => ?_) (fun _ => ?_)
    · exact (endClip_kept h)
    · exact h

theorem dropPicture_kept {p a0 s} (h : Kept p s)
    (al : autoParam (Allows p 9202436612) emit_kept._auto_1) : Kept p (dropPicture a0 s) := by
  unfold dropPicture
  try dsimp only
  repeat' first
    | with_reducible assumption
    | exact Allows.sub al rfl
    | with_reducible refine updClip_kept ?_ ?_
    | with_reducible refine freeChain_kept ?_ ?_
    | with_reducible refine kept_ite (fun _ => ?_) (fun _ => ?_)
    | split

theorem noteClipSource_kept {p a0 s} (h : Kept p s)
    (al : autoParam (Allows p 9193916932) emit_kept._auto_1) : Kept p (noteClipSource a0 s) := by
  unfold noteClipSource
  try dsimp only
  repeat' first
    | with_reducible assumption
    | exact Allows.sub al rfl
    | with_reducible refine unitRead_kept ?_ ?_
    | with_reducible refine noteChain_kept ?_ ?_
    | with_reducible refine kept_ite (fun _ => ?_) (fun _ => ?_)
    | split

theorem logBadSource_kept {p a0 a1 s} (h : Kept p s)
    (al : autoParam (Allows p 603980292) emit_kept._auto_1) : Kept p (logBadSource a0 a1 s) := by
  unfold logBadSource
  try dsimp only
  repeat' first
    | with_reducible assumption
    | exact Allows.sub al rfl
    | with_reducible refine logErr_kept ?_ ?_
    | split

theorem encodeNext_kept {p a0 a1 a2 a3 s} (h : Kept p s)
    (al : autoParam (Allows p 10276212228) emit_kept._auto_1) : Kept p (encodeNext a0 a1 a2 a3 s) := by
  unfold encodeNext
  try dsimp only
  repeat' first
    | with_reducible assumption
    | exact Allows.sub al rfl
    | with_reducible refine updClip_kept ?_ ?_
    | with_reducible refine logBadSource_kept ?_ ?_
    | with_reducible refine putPicture_kept ?_ ?_
    | with_reducible refine noteClipSource_kept ?_ ?_
    | with_reducible refine kept_ite (fun _ => ?_) (fun _ => ?_)
    | split

theorem execClipPictureEncode_kept {p a0 a1 a2 a3 a4 s} (h : Kept p s)
    (al : autoParam (Allows p 10276212228) emit_kept._auto_1) : KeptRes p (execClipPictureEncode a0 a1 a2 a3 a4 s) := by
  unfold execClipPictureEncode
  try dsimp only
  repeat' first
    | with_reducible assumption
    | exact Allows.sub al rfl
    | with_reducible refine updClip_kept ?_ ?_
    | with_reducible refine settleClip_kept ?_ ?_
    | with_reducible refine dropPicture_kept ?_ ?_
    | with_reducible refine encodeNext_kept ?_ ?_
    | with_reducible refine keptRes_inRange ?_ ?_
    | with_reducible refine keptRes_doneIf ?_ ?_
    | with_reducible refine keptRes_ite (fun _ => ?_) (fun _ => ?_)
    | with_reducible refine keptRes_done ?_
    | with_reducible refine keptRes_next ?_
    | with_reducible refine kept_ite (fun _ => ?_) (fun _ => ?_)
    | split

end Sys2Proof.Machine
end

