-- ==== Sys2Proof/Laws/KeptMovers.lean ====
section
/-! SUPPORT. Every operation of Machine/Movers.lean keeps the invariant of Safety.lean, leaves the
queue alone and changes no part outside those that the world `p` allows. -/

set_option Elab.async false

namespace Sys2Proof.Machine

theorem runCopy_kept {p a0 a1 a2 s} (h : Kept p s)
    (al : autoParam (Allows p 10305674886) emit_kept._auto_1) : Kept p (runCopy a0 a1 a2 s) := by
  unfold runCopy
  try dsimp only
  repeat' first
    | with_reducible assumption
    | exact Allows.sub al rfl
    | with_reducible refine noteReads_kept ?_ ?_
    | with_reducible refine jobFault_kept ?_ ?_
    | with_reducible refine useDeferred_kept ?_ ?_
    | with_reducible refine writeSome_kept ?_ ?_
    | with_reducible refine writeOp_kept ?_ ?_
    | split

theorem carryMark_kept {p a0 a1 s} (h : Kept p s)
    (al : autoParam (Allows p 2048) emit_kept._auto_1) : Kept p (carryMark a0 a1 s) := by
  unfold carryMark
  try dsimp only
  repeat' first
    | with_reducible assumption
    | exact Allows.sub al rfl
    | exact fun _ h => h
    | exact fun _ h => { h with }
    | exact fun _ => rfl
    | exact fun _ => ⟨rfl, rfl⟩
    | with_reducible refine updMem_kept ?_ ?_ (fun _ => ⟨rfl, rfl⟩) ?_
    | with_reducible refine clearDeferred_kept ?_ ?_
    | with_reducible refine kept_ite (fun _ => ?_) (fun _ => ?_)
    | split

theorem carrying_kept {p a0 a1 s} (h : Kept p s) (ga1 : ∀  s, Kept p s → Kept p (a1  s))
    (al : autoParam (Allows p 2048) emit_kept._auto_1) : Kept p (carrying a0 a1 s) := by
  unfold carrying
  exact kept_foldl (kept_foldl (ga1 _ (kept_foldl h fun _ _ h => carryMark_kept h)) fun _ _ h => carryMark_kept h)
    fun _ _ h => clearDeferred_kept h

theorem runAhead_kept {p a0 a1 s} (h : Kept p s)
    (al : autoParam (Allows p 9193922052) emit_kept._auto_1) : Kept p (runAhead a0 a1 s) := by
  unfold runAhead
  exact kept_foldl (carrying_kept (noteReads_kept h) fun _ h => writeOp_kept h) fun _ _ h => markDeferred_kept h

theorem prefetchPage_kept {p a0 s} (h : Kept p s)
    (al : autoParam (Allows p 9202310662) emit_kept._auto_1) : Kept p (prefetchPage a0 s) := by
  unfold prefetchPage
  try dsimp only
  repeat' first
    | with_reducible assumption
    | exact Allows.sub al rfl
    | exact fun _ h => h
    | exact fun _ h => { h with }
    | exact fun _ => rfl
    | exact fun _ => ⟨rfl, rfl⟩
    | with_reducible refine fillIn_kept ?_ ?_
    | with_reducible refine updPage_kept ?_ ?_
    | with_reducible refine wantPage_kept ?_ ?_
    | with_reducible refine updAviary_kept ?_ ?_ ?_
    | with_reducible refine kept_ite (fun _ => ?_) (fun _ => ?_)
    | split

theorem pageFetchRow_kept {p a0 a1 s a2} (h : Kept p s)
    (al : autoParam (Allows p 9193922054) emit_kept._auto_1) : Kept p (pageFetchRow a0 a1 s a2) := by
  unfold pageFetchRow
  try dsimp only
  repeat' first
    | with_reducible assumption
    | exact Allows.sub al rfl
    | with_reducible refine freeBytes_kept ?_ ?_
    | refine keptSnd_eq (freeBytes_kept ?_ ?_) (by assumption)
    | refine (freeBytes_kept ?_ ?_ : KeptSnd p _)
    | with_reducible refine writeOp_kept ?_ ?_
    | with_reducible refine kept_ite (fun _ => ?_) (fun _ => ?_)
    | split

theorem runPageFetch_kept {p a0 a1 s} (h : Kept p s)
    (al : autoParam (Allows p 9202310662) emit_kept._auto_1) : Kept p (runPageFetch a0 a1 s) := by
  unfold runPageFetch
  extract_lets pages list rows t
  have hr : ∀ s, Kept p s → Kept p (rows s) := fun s h => kept_foldl h fun _ _ h => pageFetchRow_kept h
  have ht : Kept p t := noteReads_kept h
  clear_value rows t
  split
  · exact markDeferred_kept (hr _ ht)
  · exact carrying_kept ht hr
  · exact hr _ (kept_foldl ht fun _ _ h => prefetchPage_kept h)

theorem moverOp_kept {p a0 a1 a2 a3 s} (h : Kept p s) (ga3 : ∀ y0 y1 s, Kept p s → Kept p (a3 y0 y1 s))
    (al : autoParam (Allows p 10314063494) emit_kept._auto_1) : KeptRes p (moverOp a0 a1 a2 a3 s) := by
  unfold moverOp
  try dsimp only
  repeat' first
    | with_reducible assumption
    | exact Allows.sub al rfl
    | with_reducible refine ga3 _ _ _ ?_
    | exact ga3
    | with_reducible refine startOp_kept ?_ (fun _ _ _ => ?_) ?_
    | with_reducible refine occupy_kept ?_ ?_
    | with_reducible refine writing_kept ?_ (fun _ _ => ?_) ?_
    | with_reducible refine keptRes_inRange ?_ ?_
    | with_reducible refine keptRes_doneIf ?_ ?_
    | with_reducible refine keptRes_ite (fun _ => ?_) (fun _ => ?_)
    | with_reducible refine keptRes_done ?_
    | with_reducible refine keptRes_next ?_
    | split

theorem execCopy_kept {p a0 s} (h : Kept p s)
    (al : autoParam (Allows p 10314063494) emit_kept._auto_1) : KeptRes p (execCopy a0 s) := by
  unfold execCopy
  try dsimp only
  repeat' first
    | with_reducible assumption
    | exact Allows.sub al rfl
    | with_reducible refine moverOp_kept ?_ (fun _ _ _ _ => ?_) ?_
    | with_reducible refine runCopy_kept ?_ ?_
    | with_reducible refine keptRes_inRange ?_ ?_
    | with_reducible refine keptRes_doneIf ?_ ?_
    | with_reducible refine keptRes_ite (fun _ => ?_) (fun _ => ?_)
    | with_reducible refine keptRes_done ?_
    | with_reducible refine keptRes_next ?_
    | split

theorem execFetchAhead_kept {p a0 s} (h : Kept p s)
    (al : autoParam (Allows p 10314063494) emit_kept._auto_1) : KeptRes p (execFetchAhead a0 s) := by
  unfold execFetchAhead
  try dsimp only
  repeat' first
    | with_reducible assumption
    | exact Allows.sub al rfl
    | with_reducible refine moverOp_kept ?_ (fun _ _ _ _ => ?_) ?_
    | with_reducible refine runAhead_kept ?_ ?_
    | with_reducible refine keptRes_inRange ?_ ?_
    | with_reducible refine keptRes_doneIf ?_ ?_
    | with_reducible refine keptRes_ite (fun _ => ?_) (fun _ => ?_)
    | with_reducible refine keptRes_done ?_
    | with_reducible refine keptRes_next ?_
    | split

theorem execPageFetch_kept {p a0 s} (h : Kept p s)
    (al : autoParam (Allows p 10314063494) emit_kept._auto_1) : KeptRes p (execPageFetch a0 s) := by
  unfold execPageFetch
  try dsimp only
  repeat' first
    | with_reducible assumption
    | exact Allows.sub al rfl
    | with_reducible refine moverOp_kept ?_ (fun _ _ _ _ => ?_) ?_
    | with_reducible refine runPageFetch_kept ?_ ?_
    | with_reducible refine keptRes_inRange ?_ ?_
    | with_reducible refine keptRes_doneIf ?_ ?_
    | with_reducible refine keptRes_ite (fun _ => ?_) (fun _ => ?_)
    | with_reducible refine keptRes_done ?_
    | with_reducible refine keptRes_next ?_
    | split

end Sys2Proof.Machine
end

