-- ==== Sys2Proof/Laws/KeptMemsys.lean ====
section
/-! SUPPORT. Every operation of Machine/Memsys.lean keeps the invariant of Safety.lean, leaves the
queue alone and changes no part outside those that the world `p` allows. -/

set_option Elab.async false

namespace Sys2Proof.Machine

theorem execCacheAccess_kept {p a0 a1 a2 a3 a4 s} (h : Kept p s)
    (al : autoParam (Allows p 9193916932) emit_kept._auto_1) : KeptRes p (execCacheAccess a0 a1 a2 a3 a4 s) := by
  unfold execCacheAccess
  try dsimp only
  repeat' first
    | with_reducible assumption
    | exact Allows.sub al rfl
    | with_reducible refine emit_kept ?_ ?_
    | with_reducible refine unitLine_kept ?_ ?_
    | with_reducible refine keptRes_inRange ?_ ?_
    | with_reducible refine keptRes_doneIf ?_ ?_
    | with_reducible refine keptRes_ite (fun _ => ?_) (fun _ => ?_)
    | with_reducible refine keptRes_done ?_
    | with_reducible refine keptRes_next ?_
    | with_reducible refine kept_ite (fun _ => ?_) (fun _ => ?_)
    | split

theorem linkFault_kept {p a0 a1 s} (h : Kept p s)
    (al : autoParam (Allows p 1715739268) emit_kept._auto_1) : Kept p (linkFault a0 a1 s) := by
  unfold linkFault
  try dsimp only
  repeat' first
    | with_reducible assumption
    | exact Allows.sub al rfl
    | with_reducible refine markDeferred_kept ?_ ?_
    | with_reducible refine jobFault_kept ?_ ?_
    | with_reducible refine kept_ite (fun _ => ?_) (fun _ => ?_)
    | split

theorem setLinePoison_kept {p a0 a1 s} (h : Kept p s)
    (al : autoParam (Allows p 2048) emit_kept._auto_1) : Kept p (serveRead.setLinePoison a0 a1 s) := by
  unfold serveRead.setLinePoison
  split
  · exact updMem_kept h (fun _ h => { h with })
  · exact h

theorem markReader_kept {p a0 s} (h : Kept p s)
    (al : autoParam (Allows p 266240) emit_kept._auto_1) : Kept p (serveRead.markReader a0 s) := by
  unfold serveRead.markReader
  split
  · exact updFrame_kept h
  · exact updPage_kept h
  · exact h

theorem serveRead_kept {p a0 a1 a2 s} (h : Kept p s)
    (al : autoParam (Allows p 1715739268) emit_kept._auto_1) : Kept p (serveRead a0 a1 a2 s) := by
  unfold serveRead
  try dsimp only
  repeat' first
    | with_reducible assumption
    | exact Allows.sub al rfl
    | exact fun _ h => h
    | exact fun _ h => { h with }
    | exact fun _ => rfl
    | exact fun _ => ⟨rfl, rfl⟩
    | with_reducible refine updMem_kept ?_ ?_ (fun _ => ⟨rfl, rfl⟩) ?_
    | with_reducible refine logErr_kept ?_ ?_
    | with_reducible refine updChan_kept ?_ ?_
    | with_reducible refine setLinePoison_kept ?_ ?_
    | with_reducible refine linkFault_kept ?_ ?_
    | with_reducible refine markReader_kept ?_ ?_
    | with_reducible refine kept_ite (fun _ => ?_) (fun _ => ?_)
    | split

theorem serveWrite_kept {p a0 a1 s} (h : Kept p s)
    (al : autoParam (Allows p 2048) emit_kept._auto_1) : Kept p (serveWrite a0 a1 s) := by
  unfold serveWrite
  exact (updChan_kept h)

theorem execDramRequest_kept {p a0 a1 s} (h : Kept p s)
    (al : autoParam (Allows p 14600641174) emit_kept._auto_1) : KeptRes p (execDramRequest a0 a1 s) := by
  unfold execDramRequest
  try dsimp only
  repeat' first
    | with_reducible assumption
    | exact Allows.sub al rfl
    | with_reducible refine updChan_kept ?_ ?_
    | with_reducible refine updatePanic_kept ?_ ?_
    | with_reducible refine serveWrite_kept ?_ ?_
    | with_reducible refine serveRead_kept ?_ ?_
    | with_reducible refine keptRes_inRange ?_ ?_
    | with_reducible refine keptRes_doneIf ?_ ?_
    | with_reducible refine keptRes_ite (fun _ => ?_) (fun _ => ?_)
    | with_reducible refine keptRes_done ?_
    | with_reducible refine keptRes_next ?_
    | with_reducible refine kept_ite (fun _ => ?_) (fun _ => ?_)
    | split

theorem execBeRequestPromote_kept {p a0 s} (h : Kept p s)
    (al : autoParam (Allows p 2048) emit_kept._auto_1) : KeptRes p (execBeRequestPromote a0 s) := by
  unfold execBeRequestPromote
  try dsimp only
  repeat' first
    | with_reducible assumption
    | exact Allows.sub al rfl
    | with_reducible refine updChan_kept ?_ ?_
    | with_reducible refine keptRes_inRange ?_ ?_
    | with_reducible refine keptRes_doneIf ?_ ?_
    | with_reducible refine keptRes_ite (fun _ => ?_) (fun _ => ?_)
    | with_reducible refine keptRes_done ?_
    | with_reducible refine keptRes_next ?_
    | with_reducible refine kept_ite (fun _ => ?_) (fun _ => ?_)
    | split

theorem execRefreshInterval_kept {p a0 s} (h : Kept p s)
    (al : autoParam (Allows p 13488884246) emit_kept._auto_1) : KeptRes p (execRefreshInterval a0 s) := by
  unfold execRefreshInterval
  try dsimp only
  repeat' first
    | with_reducible assumption
    | exact Allows.sub al rfl
    | with_reducible refine updChan_kept ?_ ?_
    | with_reducible refine keptRes_inRange ?_ ?_
    | with_reducible refine keptRes_doneIf ?_ ?_
    | with_reducible refine keptRes_ite (fun _ => ?_) (fun _ => ?_)
    | with_reducible refine keptRes_done ?_
    | with_reducible refine keptRes_next ?_
    | with_reducible refine kept_ite (fun _ => ?_) (fun _ => ?_)
    | split

theorem execRefreshIssue_kept {p a0 s} (h : Kept p s)
    (al : autoParam (Allows p 13488884246) emit_kept._auto_1) : KeptRes p (execRefreshIssue a0 s) := by
  unfold execRefreshIssue
  try dsimp only
  repeat' first
    | with_reducible assumption
    | exact Allows.sub al rfl
    | with_reducible refine updChan_kept ?_ ?_
    | with_reducible refine keptRes_inRange ?_ ?_
    | with_reducible refine keptRes_doneIf ?_ ?_
    | with_reducible refine keptRes_ite (fun _ => ?_) (fun _ => ?_)
    | with_reducible refine keptRes_done ?_
    | with_reducible refine keptRes_next ?_
    | with_reducible refine kept_ite (fun _ => ?_) (fun _ => ?_)
    | split

theorem execDramTempPoll_kept {p a0 s} (h : Kept p s)
    (al : autoParam (Allows p 2048) emit_kept._auto_1) : KeptRes p (execDramTempPoll a0 s) := by
  unfold execDramTempPoll
  refine keptRes_doneIf ?_ ?_
  · exact (updMem_kept h (fun _ h => { h with chans := by simpa using h.chans }))
  · exact h

theorem execDramEcsPoll_kept {p a0 s} (h : Kept p s)
    (al : autoParam (Allows p 603982340) emit_kept._auto_1) : KeptRes p (execDramEcsPoll a0 s) := by
  unfold execDramEcsPoll
  try dsimp only
  repeat' first
    | with_reducible assumption
    | exact Allows.sub al rfl
    | exact fun _ h => h
    | exact fun _ h => { h with }
    | exact fun _ => rfl
    | exact fun _ => ⟨rfl, rfl⟩
    | with_reducible refine updMem_kept ?_ ?_ (fun _ => ⟨rfl, rfl⟩) ?_
    | with_reducible refine logErr_kept ?_ ?_
    | with_reducible refine keptRes_inRange ?_ ?_
    | with_reducible refine keptRes_doneIf ?_ ?_
    | with_reducible refine keptRes_ite (fun _ => ?_) (fun _ => ?_)
    | with_reducible refine keptRes_done ?_
    | with_reducible refine keptRes_next ?_
    | with_reducible refine kept_foldl ?_ (fun _ _ _ => ?_)
    | with_reducible refine kept_foldl_snd ?_ (fun _ _ _ => ?_)
    | with_reducible refine kept_foldl_fst ?_ (fun _ _ _ => ?_)
    | with_reducible refine kept_ite (fun _ => ?_) (fun _ => ?_)
    | dsimp only
    | split

theorem execWckTrack_kept {p a0 s} (h : Kept p s)
    (al : autoParam (Allows p 2048) emit_kept._auto_1) : KeptRes p (execWckTrack a0 s) := by
  unfold execWckTrack
  refine keptRes_doneIf ?_ ?_
  · exact (updMem_kept h (fun _ h => { h with chans := by simpa using h.chans }))
  · exact h

theorem execScrub_kept {p a0 a1 s} (h : Kept p s)
    (al : autoParam (Allows p 9193916932) emit_kept._auto_1) : KeptRes p (execScrub a0 a1 s) := by
  unfold execScrub
  try dsimp only
  repeat' first
    | with_reducible assumption
    | exact Allows.sub al rfl
    | exact fun _ h => h
    | exact fun _ h => { h with }
    | exact fun _ => rfl
    | exact fun _ => ⟨rfl, rfl⟩
    | with_reducible refine updBytes_kept ?_ ?_ (fun _ => rfl) ?_
    | with_reducible refine logErr_kept ?_ ?_
    | with_reducible refine correctWord_kept ?_ ?_
    | with_reducible refine keptRes_inRange ?_ ?_
    | with_reducible refine keptRes_doneIf ?_ ?_
    | with_reducible refine keptRes_ite (fun _ => ?_) (fun _ => ?_)
    | with_reducible refine keptRes_done ?_
    | with_reducible refine keptRes_next ?_
    | with_reducible refine kept_ite (fun _ => ?_) (fun _ => ?_)
    | split

theorem execTlbInvalidate_kept {p a0 a1 s} (h : Kept p s)
    (al : autoParam (Allows p 2048) emit_kept._auto_1) : KeptRes p (execTlbInvalidate a0 a1 s) := by
  unfold execTlbInvalidate
  exact keptRes_next ((updMem_kept h (fun _ h => { h with })))

theorem execHostReadIssue_kept {p a0 a1 s} (h : Kept p s)
    (al : autoParam (Allows p 603982340) emit_kept._auto_1) : KeptRes p (execHostReadIssue a0 a1 s) := by
  unfold execHostReadIssue
  try dsimp only
  repeat' first
    | with_reducible assumption
    | exact Allows.sub al rfl
    | with_reducible refine emit_kept ?_ ?_
    | with_reducible refine failReads_kept ?_ ?_
    | with_reducible refine askHost_kept ?_ ?_
    | with_reducible refine keptRes_inRange ?_ ?_
    | with_reducible refine keptRes_doneIf ?_ ?_
    | with_reducible refine keptRes_ite (fun _ => ?_) (fun _ => ?_)
    | with_reducible refine keptRes_done ?_
    | with_reducible refine keptRes_next ?_
    | with_reducible refine kept_ite (fun _ => ?_) (fun _ => ?_)
    | split

theorem endRead_kept {p a0 a1 a2 s} (h : Kept p s)
    (al : autoParam (Allows p 603982340) emit_kept._auto_1) : Kept p (endRead a0 a1 a2 s) := by
  unfold endRead
  split
  · exact h
  · extract_lets -merge -underBinder +onlyGivenNames x0
    try clear_value x0
    extract_lets -merge -underBinder +onlyGivenNames x1
    try clear_value x1
    extract_lets -merge -underBinder +onlyGivenNames x2
    have h2 : Kept p x2 := (updMem_kept h (fun _ h => { h with }))
    clear_value x2
    extract_lets -merge -underBinder +onlyGivenNames x3
    have h3 : Kept p x3 := by
      refine kept_ite (fun _ => ?_) (fun _ => ?_)
      · exact (logErr_kept h2)
      · exact h2
    clear_value x3
    exact (startReads_kept h3)

theorem execHostReadCompletion_kept {p a0 a1 a2 s} (h : Kept p s)
    (al : autoParam (Allows p 872417796) emit_kept._auto_1) : KeptRes p (execHostReadCompletion a0 a1 a2 s) := by
  unfold execHostReadCompletion
  refine keptRes_ite (fun _ => ?_) (fun _ => ?_)
  · extract_lets -merge -underBinder +onlyGivenNames x0
    have h0 : Kept p x0 := (endRead_kept h)
    clear_value x0
    refine keptRes_ite (fun _ => ?_) (fun _ => ?_)
    · exact keptRes_next ((setAer_kept (orReg_kept (logErr_kept h0))))
    · exact keptRes_next h0
  · exact keptRes_next ((setAdvisory_kept (logErr_kept h)))

theorem execCompletionTimeout_kept {p a0 s} (h : Kept p s)
    (al : autoParam (Allows p 603982340) emit_kept._auto_1) : KeptRes p (execCompletionTimeout a0 s) := by
  unfold execCompletionTimeout
  refine keptRes_doneIf ?_ ?_
  · exact (setAer_kept (endRead_kept h))
  · exact h

end Sys2Proof.Machine
end

