-- ==== Sys2Proof/Laws/KeptSessions.lean ====
section
/-! SUPPORT. Every operation of Machine/Sessions.lean keeps the invariant of Safety.lean, leaves the
queue alone and changes no part outside those that the world `p` allows. -/

set_option Elab.async false

namespace Sys2Proof.Machine

theorem endpointRegs_rising {s v} : TabRising (endpointRegs s v) := by
  unfold endpointRegs
  extract_lets -merge -underBinder +onlyGivenNames keep t stat u
  have ht : TabRising t := foldl_rising (fun t o h => by
    split
    · exact tabDel_rising h
    · exact tabPut_rising h) (by unfold TabRising; decide)
  have hu : TabRising u := by
    show TabRising (if _ then _ else _)
    split
    · exact tabDel_rising ht
    · exact tabPut_rising ht
  clear_value u
  split
  · exact tabDel_rising hu
  · exact tabPut_rising hu

theorem stickyCfg_rising {t} : TabRising (stickyCfg t) :=
  foldl_rising (fun t o h => by
    split
    · exact tabPut_rising h
    · exact tabDel_rising h) (by unfold TabRising; decide)

theorem dropRings_sound {m : Mailbox} (h : MbxSound m) : MbxSound (dropRings m) :=
  ⟨List.length_replicate .., List.length_replicate .., h.udp, Nat.zero_le _, Nat.zero_le _⟩

theorem revokeCold_kept {p s} (h : Kept p s)
    (al : autoParam (Allows p 9193921028) emit_kept._auto_1) : Kept p (revokeCold s) := by
  unfold revokeCold
  try dsimp only
  repeat' first
    | with_reducible assumption
    | exact Allows.sub al rfl
    | exact fun _ h => h
    | exact fun _ h => { h with }
    | exact fun _ => rfl
    | exact fun _ => ⟨rfl, rfl⟩
    | with_reducible refine unmapHost_kept ?_ ?_
    | with_reducible refine updAviary_kept ?_ ?_ ?_
    | with_reducible refine kept_ite (fun _ => ?_) (fun _ => ?_)
    | split

theorem sessionEnd_kept {p s} (h : Kept p s)
    (al : autoParam (Allows p 14611299844) emit_kept._auto_1) : Kept p (sessionEnd s) := by
  unfold sessionEnd
  try dsimp only
  repeat' first
    | with_reducible assumption
    | exact Allows.sub al rfl
    | exact fun _ h => h
    | exact fun _ h => { h with }
    | exact fun _ => rfl
    | exact fun _ => ⟨rfl, rfl⟩
    | exact fun _ h => dropRings_sound h
    | with_reducible refine updMem_kept ?_ ?_ (fun _ => ⟨rfl, rfl⟩) ?_
    | with_reducible refine updMbx_kept ?_ ?_ ?_
    | with_reducible refine beginClose_kept ?_ ?_
    | with_reducible refine endClip_kept ?_ ?_
    | with_reducible refine breakLocks_kept ?_ ?_
    | with_reducible refine revokeCold_kept ?_ ?_
    | with_reducible refine updGate_kept ?_ ?_ ?_ ?_
    | with_reducible refine logErr_kept ?_ ?_
    | with_reducible refine kept_foldl ?_ (fun _ _ _ => ?_)
    | with_reducible refine kept_foldl_snd ?_ (fun _ _ _ => ?_)
    | with_reducible refine kept_foldl_fst ?_ (fun _ _ _ => ?_)
    | dsimp only
    | split

theorem resetEndpoint_kept {p a0 s} (h : Kept p s)
    (al : autoParam (Allows p 872415236) emit_kept._auto_1) : Kept p (resetEndpoint a0 s) := by
  unfold resetEndpoint
  extract_lets -merge -underBinder +onlyGivenNames x0
  have r0 : TabRising x0 := endpointRegs_rising
  clear_value x0
  extract_lets -merge -underBinder +onlyGivenNames x1
  have h1 : Kept p x1 := by
    refine kept_ite (fun _ => ?_) (fun _ => ?_)
    · exact (emit_kept h)
    · exact h
  clear_value x1
  extract_lets -merge -underBinder +onlyGivenNames x2
  have h2 : Kept p x2 := (updGateAll_kept h1 fun _ _ => ⟨List.length_replicate .., r0, stickyCfg_rising⟩)
  clear_value x2
  exact (updErr_kept h2 (fun _ _ => ⟨by simp, by simp [logUsed]⟩))

theorem endpointReset_kept {p s} (h : Kept p s)
    (al : autoParam (Allows p 14879735300) emit_kept._auto_1) : Kept p (endpointReset s) := by
  unfold endpointReset
  exact (sessionEnd_kept (resetEndpoint_kept h))

theorem requestEndpointReset_kept {p a0 s} (h : Kept p s)
    (al : autoParam (Allows p 14879735300) emit_kept._auto_1) : Kept p (requestEndpointReset a0 s) := by
  unfold requestEndpointReset
  refine kept_ite (fun _ => ?_) (fun _ => ?_)
  · exact (updGate_kept h (fun _ h => { h with }))
  · exact (endpointReset_kept h)

theorem execHotReset_kept {p s} (h : Kept p s)
    (al : autoParam (Allows p 14879735300) emit_kept._auto_1) : KeptRes p (execHotReset s) := by
  unfold execHotReset
  refine keptRes_doneIf ?_ ?_
  · exact (requestEndpointReset_kept h)
  · exact h

theorem execFlr_kept {p s} (h : Kept p s)
    (al : autoParam (Allows p 14879735300) emit_kept._auto_1) : KeptRes p (execFlr s) := by
  unfold execFlr
  refine keptRes_doneIf ?_ ?_
  · exact (requestEndpointReset_kept h)
  · exact h

end Sys2Proof.Machine
end

