-- ==== Sys2Proof/Laws/KeptErrors.lean ====
section
/-! SUPPORT. Every operation of Machine/Errors.lean keeps the invariant of Safety.lean, leaves the
queue alone and changes no part outside those that the world `p` allows. -/

set_option Elab.async false

namespace Sys2Proof.Machine

/-- The canonical form, said of the list. -/
theorem memWfFrom_iff {m : Memory} : ∀ {lo : Option Nat}, memWfFrom lo m = true ↔
    (∀ l, lo = some l → ∀ x ∈ m, l < x.1) ∧ (m.Pairwise fun a b => a.1 < b.1) ∧ ∀ x ∈ m, x.2 ≠ 0 := by
  induction m with
  | nil => intro lo; simp [memWfFrom]
  | cons y m ih =>
    intro lo
    obtain ⟨a, b⟩ := y
    rw [memWfFrom_cons, ih, List.pairwise_cons]
    constructor
    · rintro ⟨h1, h2, h3, h4, h5⟩
      refine ⟨fun l e x hx => ?_, ⟨fun x hx => h3 a rfl x hx, h4⟩, fun x hx => ?_⟩
      · rcases List.mem_cons.1 hx with hx | hx
        · exact hx ▸ h1 l e
        · exact Nat.lt_trans (h1 l e) (h3 a rfl x hx)
      · rcases List.mem_cons.1 hx with hx | hx
        · exact hx ▸ h2
        · exact h5 x hx
    · rintro ⟨h1, ⟨h2, h3⟩, h4⟩
      exact ⟨fun l e => h1 l e _ (List.mem_cons_self ..), h4 _ (List.mem_cons_self ..),
        fun l e x hx => by cases e; exact h2 x hx, h3, fun x hx => h4 x (List.mem_cons_of_mem _ hx)⟩

theorem memWf_store {base : Nat} {bs : List Byte} {m : Memory} (h : memWf m = true) : memWf (storeBytes base bs m) = true := by
  have h := memWfFrom_iff.1 (show memWfFrom none m = true from h)
  show memWfFrom none _ = true
  refine memWfFrom_iff.2 ⟨(fun _ e => nomatch e), ?_, ?_⟩
  · unfold storeBytes
    have mid : ∀ x ∈ (bs.zipIdx.filterMap fun x => if x.1 = 0 then none else some (base + x.2, x.1)),
        base ≤ x.1 ∧ x.1 < base + bs.length := by
      intro x hx
      obtain ⟨y, hy, e⟩ := List.mem_filterMap.1 hx
      split at e
      · cases e
      · cases e
        have := List.snd_lt_add_of_mem_zipIdx hy
        exact ⟨Nat.le_add_right .., by simp at this ⊢; omega⟩
    refine List.pairwise_append.2 ⟨List.pairwise_append.2 ⟨h.2.1.sublist List.filter_sublist, ?_, ?_⟩,
      h.2.1.sublist List.filter_sublist, ?_⟩
    · refine List.Pairwise.filterMap _ ?_ (R := fun a b : Byte × Nat => a.2 < b.2) ?_
      · intro a b l x ex y ey
        split at ex
        · cases ex
        · split at ey
          · cases ey
          · cases ex; cases ey; exact Nat.add_lt_add_left l base
      · exact zipIdx_rising
    · intro a ha b hb
      have := (List.mem_filter.1 ha).2
      have := (mid b hb).1
      simp only [decide_eq_true_eq] at *
      omega
    · intro a ha b hb
      have hb := (List.mem_filter.1 hb).2
      simp only [decide_eq_true_eq] at hb
      rcases List.mem_append.1 ha with ha | ha
      · have := (List.mem_filter.1 ha).2
        simp only [decide_eq_true_eq] at this
        omega
      · have := (mid a ha).2
        omega
  · intro x hx
    unfold storeBytes at hx
    rcases List.mem_append.1 hx with hx | hx
    · rcases List.mem_append.1 hx with hx | hx
      · exact h.2.2 x (List.mem_filter.1 hx).1
      · obtain ⟨y, _, e⟩ := List.mem_filterMap.1 hx
        split at e
        · cases e
        · cases e; assumption
    · exact h.2.2 x (List.mem_filter.1 hx).1
where
  zipIdx_rising : ∀ {l : List Byte} {n : Nat}, (l.zipIdx n).Pairwise fun a b => a.2 < b.2
  | [], _ => List.Pairwise.nil
  | _ :: l, n => by
    rw [List.zipIdx_cons]
    refine List.pairwise_cons.2 ⟨fun x hx => ?_, zipIdx_rising⟩
    have := List.le_snd_of_mem_zipIdx hx
    exact Nat.lt_of_lt_of_le (Nat.lt_succ_self n) this

theorem execErrorReport_kept {p a0 a1 a2 a3 a4 a5 a6 a7 s} (h : Kept p s)
    (al : autoParam (Allows p 603980292) emit_kept._auto_1) : KeptRes p (execErrorReport a0 a1 a2 a3 a4 a5 a6 a7 s) := by
  unfold execErrorReport
  refine keptRes_inRange ?_ h
  refine keptRes_doneIf ?_ ?_
  · exact (report_kept h)
  · exact h

theorem execCoalesceFlush_kept {p a0 a1 s} (h : Kept p s)
    (al : autoParam (Allows p 603980292) emit_kept._auto_1) : KeptRes p (execCoalesceFlush a0 a1 s) := by
  unfold execCoalesceFlush
  try dsimp only
  repeat' first
    | with_reducible assumption
    | exact Allows.sub al rfl
    | with_reducible refine dueFlush_kept ?_ ?_
    | with_reducible refine keptRes_inRange ?_ ?_
    | with_reducible refine keptRes_doneIf ?_ ?_
    | with_reducible refine keptRes_ite (fun _ => ?_) (fun _ => ?_)
    | with_reducible refine keptRes_done ?_
    | with_reducible refine keptRes_next ?_
    | split

theorem faultLane_kept {p a0 s} (h : Kept p s)
    (al : autoParam (Allows p 1715733124) emit_kept._auto_1) : Kept p (faultLane a0 s) := by
  unfold faultLane
  split
  · exact h
  · extract_lets -merge -underBinder +onlyGivenNames x0
    have h0 : Kept p x0 := by
      unfold x0
      split
      · exact (updLane_kept (jobFault_kept h) (fun _ h => h))
      · exact h
    clear_value x0
    exact (updLane_kept h0 (fun _ _ => Nat.zero_le _))

theorem drainFault_kept {p a0 s} (h : Kept p s)
    (al : autoParam (Allows p 1715733124) emit_kept._auto_1) : Kept p (drainFault a0 s) := by
  unfold drainFault
  try dsimp only
  repeat' first
    | with_reducible assumption
    | exact Allows.sub al rfl
    | with_reducible refine jobFault_kept ?_ ?_
    | with_reducible refine kept_ite (fun _ => ?_) (fun _ => ?_)
    | split

theorem crossFault_kept {p a0 a1 s} (h : Kept p s)
    (al : autoParam (Allows p 10305674886) emit_kept._auto_1) : Kept p (crossFault a0 a1 s) := by
  unfold crossFault
  split
  · exact h
  · refine kept_ite (fun _ => h) (fun _ => ?_)
    split
    rename_i e1
    have h1 := keptSnd_eq (freeNat_kept h) e1
    refine kept_ite (fun _ => h1) (fun _ => ?_)
    extract_lets st d dst
    clear_value st d dst
    split
    rename_i e2
    have h2 := keptSnd_eq (freeBytes_kept h1) e2
    extract_lets u
    have hu : Kept p u := kept_ite (fun _ => h1) (fun _ => writeOp_kept h2)
    clear_value u
    exact kept_ite (fun _ => jobFault_kept hu) (fun _ => markDeferred_kept hu)

theorem renewStore_kept {p b n s} (h : Kept p s)
    (al : autoParam (Allows p 2562) emit_kept._auto_1) : Kept p (renewStore b n s) := by
  unfold renewStore
  split
  rename_i bs u e
  have h1 : Kept p u := keptSnd_eq (freeBytes_kept h) e
  extract_lets -merge -underBinder +onlyGivenNames t
  have h2 : Kept p t := kept_foldl h1 fun x s h => clearDeferred_kept h
  clear_value t
  exact { h2 with mem := { h2.mem with bytes := memWf_store h2.mem.bytes }, frame := framedOf h2.frame al }

theorem resetLink_kept {p a0 s} (h : Kept p s)
    (al : autoParam (Allows p 4898947588) emit_kept._auto_1) : Kept p (resetLink a0 s) := by
  unfold resetLink
  try dsimp only
  repeat' first
    | with_reducible assumption
    | exact Allows.sub al rfl
    | with_reducible refine linkDown_kept ?_ ?_
    | with_reducible refine kept_ite (fun _ => ?_) (fun _ => ?_)
    | split

theorem endLostReads_kept {p s} (h : Kept p s)
    (al : autoParam (Allows p 2050) emit_kept._auto_1) : Kept p (endLostReads s) := by
  unfold endLostReads
  try dsimp only
  repeat' first
    | with_reducible assumption
    | exact Allows.sub al rfl
    | exact fun _ h => h
    | exact fun _ h => { h with }
    | exact fun _ => rfl
    | exact fun _ => ⟨rfl, rfl⟩
    | with_reducible refine updMem_kept ?_ ?_ (fun _ => ⟨rfl, rfl⟩) ?_
    | with_reducible refine freeNat_kept ?_ ?_
    | refine keptSnd_eq (freeNat_kept ?_ ?_) (by assumption)
    | refine (freeNat_kept ?_ ?_ : KeptSnd p _)
    | with_reducible refine kept_foldl ?_ (fun _ _ _ => ?_)
    | with_reducible refine kept_foldl_snd ?_ (fun _ _ _ => ?_)
    | with_reducible refine kept_foldl_fst ?_ (fun _ _ _ => ?_)
    | with_reducible refine kept_ite (fun _ => ?_) (fun _ => ?_)
    | dsimp only
    | split

theorem resetPorts_kept {p s} (h : Kept p s)
    (al : autoParam (Allows p 8192) emit_kept._auto_1) : Kept p (resetPorts s) :=
  { h with eth := (List.length_map ..).trans h.eth, frame := framedOf h.frame al }

theorem resetSensors_kept {p s} (h : Kept p s)
    (al : autoParam (Allows p 9202567684) emit_kept._auto_1) : Kept p (resetSensors s) := by
  unfold resetSensors
  try dsimp only
  repeat' first
    | with_reducible assumption
    | exact Allows.sub al rfl
    | with_reducible refine dropSync_kept ?_ ?_
    | with_reducible refine kept_foldl ?_ (fun _ _ _ => ?_)
    | with_reducible refine kept_foldl_snd ?_ (fun _ _ _ => ?_)
    | with_reducible refine kept_foldl_fst ?_ (fun _ _ _ => ?_)
    | dsimp only
    | split

theorem endWaits_kept {p s} (h : Kept p s)
    (al : autoParam (Allows p 8388612) emit_kept._auto_1) : Kept p (endWaits s) := by
  unfold endWaits
  exact kept_foldl { h with pools := (List.length_map ..).trans h.pools, frame := framedOf h.frame al } fun _ _ h => emit_kept h

theorem fenceForGood_kept {p a0 s} (h : Kept p s)
    (al : autoParam (Allows p 13488884246) emit_kept._auto_1) : Kept p (fenceForGood a0 s) := by
  unfold fenceForGood
  extract_lets -merge -underBinder +onlyGivenNames x0
  have h0 : Kept p x0 := (updIsland_kept h)
  clear_value x0
  extract_lets -merge -underBinder +onlyGivenNames x1
  have h1 : Kept p x1 := by
    refine kept_ite (fun _ => ?_) (fun _ => ?_)
    · exact (logErr_kept (updChan_kept h0))
    · exact h0
  clear_value x1
  extract_lets -merge -underBinder +onlyGivenNames x2
  have h2 : Kept p x2 := by
    refine kept_ite (fun _ => ?_) (fun _ => ?_)
    · exact (fenceLink_kept h1)
    · exact h1
  clear_value x2
  exact (saveLedger_kept (updPower_kept h2))

theorem selfRefresh_kept {p a0 s} (h : Kept p s)
    (al : autoParam (Allows p 13488884246) emit_kept._auto_1) : Kept p (selfRefresh a0 s) := by
  unfold selfRefresh
  split
  rename_i e
  have k := keptSnd_eq (freeNat_kept h) e
  exact kept_ite (fun _ => fenceForGood_kept k) (fun _ => updChan_kept k)

theorem emptyCaches_kept {p s} (h : Kept p s)
    (al : autoParam (Allows p 8388608) emit_kept._auto_1) :
    Kept p { s with pools := s.pools.map fun p => { p with head := [], tail := [] } } :=
  { h with pools := (List.length_map ..).trans h.pools, frame := framedOf h.frame al }

theorem setFence_kept {p x s} (h : Kept p s)
    (al : autoParam (Allows p 134217728) emit_kept._auto_1) : Kept p { s with fenced := x } :=
  { h with frame := framedOf h.frame al }

theorem clearIsland_kept {p a0 s} (h : Kept p s)
    (al : autoParam (Allows p 14609264534) emit_kept._auto_1) : Kept p (clearIsland a0 s) := by
  unfold clearIsland
  refine kept_ite (fun _ => endLostReads_kept h) (fun _ => ?_)
  refine kept_ite (fun _ => resetPorts_kept h) (fun _ => ?_)
  refine kept_ite (fun _ => resetSensors_kept h) (fun _ => ?_)
  refine kept_ite (fun _ => resetFountain_kept h) (fun _ => ?_)
  refine kept_ite (fun _ => resetTopiary_kept h) (fun _ => ?_)
  refine kept_ite (fun _ => renewStore_kept (updOrangery_kept h)) (fun _ => ?_)
  refine kept_ite (fun _ => renewStore_kept h) (fun _ => ?_)
  refine kept_ite (fun _ => tearAll_kept h) (fun _ => ?_)
  refine kept_ite (fun _ => ?_) (fun _ => ?_)
  · exact logErr_kept (emptyCaches_kept (tlbClear_kept (endWaits_kept (breakAllLocks_kept (tearAll_kept h)))))
  · exact kept_ite (fun _ => selfRefresh_kept h) (fun _ => kept_ite (fun _ => resetLink_kept h) (fun _ => h))

theorem beginReset_kept {p a0 s} (h : Kept p s)
    (al : autoParam (Allows p 14743486358) emit_kept._auto_1) : Kept p (beginReset a0 s) := by
  unfold beginReset
  extract_lets t u v w
  have ht : Kept p t := kept_foldl h fun _ _ h => crossFault_kept h
  have hu : Kept p u := breakLocks_kept (setFence_kept ht)
  have hv : Kept p v := kept_foldl hu fun _ _ h => faultLane_kept h
  have hw : Kept p w := kept_foldl hv fun _ _ h => drainFault_kept h
  exact updIsland_kept (clearIsland_kept hw)

theorem requestReset_kept {p a0 a1 a2 s} (h : Kept p s)
    (al : autoParam (Allows p 14743486358) emit_kept._auto_1) : Kept p (requestReset a0 a1 a2 s) := by
  unfold requestReset
  extract_lets -merge -underBinder +onlyGivenNames x0
  try clear_value x0
  extract_lets -merge -underBinder +onlyGivenNames x1
  try clear_value x1
  refine kept_ite (fun _ => ?_) (fun _ => ?_)
  · exact h
  · refine kept_ite (fun _ => ?_) (fun _ => ?_)
    · exact (updPower_kept h)
    · refine kept_ite (fun _ => ?_) (fun _ => ?_)
      · exact (beginReset_kept h)
      · extract_lets -merge -underBinder +onlyGivenNames x2
        try clear_value x2
        exact { h with frame := framedOf (h).frame al }

theorem execParityFault_kept {p a0 a1 a2 s} (h : Kept p s)
    (al : autoParam (Allows p 14743486390) emit_kept._auto_1) : KeptRes p (execParityFault a0 a1 a2 s) := by
  unfold execParityFault
  try dsimp only
  repeat' first
    | with_reducible assumption
    | exact Allows.sub al rfl
    | with_reducible refine logErr_kept ?_ ?_
    | with_reducible refine finishBatches_kept ?_ ?_
    | with_reducible refine setPinMode_kept ?_ ?_
    | with_reducible refine updIsland_kept ?_ ?_
    | with_reducible refine requestReset_kept ?_ ?_
    | with_reducible refine keptRes_inRange ?_ ?_
    | with_reducible refine keptRes_doneIf ?_ ?_
    | with_reducible refine keptRes_ite (fun _ => ?_) (fun _ => ?_)
    | with_reducible refine keptRes_done ?_
    | with_reducible refine keptRes_next ?_
    | with_reducible refine kept_ite (fun _ => ?_) (fun _ => ?_)
    | split

theorem execPartialReset_kept {p a0 a1 s} (h : Kept p s)
    (al : autoParam (Allows p 14743486358) emit_kept._auto_1) : KeptRes p (execPartialReset a0 a1 s) := by
  unfold execPartialReset
  refine keptRes_inRange ?_ h
  refine keptRes_doneIf ?_ ?_
  · exact (requestReset_kept h)
  · exact h

theorem rebuildRing_kept {p a0 s} (h : Kept p s)
    (al : autoParam (Allows p 9202305540) emit_kept._auto_1) : Kept p (rebuildRing a0 s) := by
  unfold rebuildRing
  split
  · exact h
  · extract_lets cells all
    exact updPool_kept (writePhys_kept h)

theorem restoreIsland_kept {p a0 s} (h : Kept p s)
    (al : autoParam (Allows p 13765708310) emit_kept._auto_1) : Kept p (restoreIsland a0 s) := by
  unfold restoreIsland
  refine kept_ite (fun _ => kept_foldl h fun _ _ h => rebuildRing_kept h) (fun _ => ?_)
  refine kept_ite (fun _ => updChan_kept h) (fun _ => ?_)
  refine kept_ite (fun _ => orReg_kept (setReg_kept h)) (fun _ => kept_ite (fun _ => ?_) (fun _ => h))
  split
  · exact kept_ite (fun _ => startTraining_kept h) (fun _ => h)
  · exact h

theorem settleIslrst_kept {p a0 a1 s} (h : Kept p s)
    (al : autoParam (Allows p 805306368) emit_kept._auto_1) : Kept p (settleIslrst a0 a1 s) := by
  unfold settleIslrst
  try dsimp only
  repeat' first
    | with_reducible assumption
    | exact Allows.sub al rfl
    | exact fun _ h => h
    | exact fun _ h => { h with }
    | exact fun _ => rfl
    | exact fun _ => ⟨rfl, rfl⟩
    | with_reducible refine updGate_kept ?_ ?_ ?_ ?_
    | with_reducible refine setReg_kept ?_ ?_
    | with_reducible refine kept_ite (fun _ => ?_) (fun _ => ?_)
    | split

theorem endReset_kept {p a0 a1 s} (h : Kept p s)
    (al : autoParam (Allows p 17161502614) emit_kept._auto_1) : Kept p (endReset a0 a1 s) := by
  unfold endReset
  extract_lets t u v w
  have ht : Kept p t := settleIslrst_kept { h with frame := framedOf h.frame al }
  have hu : Kept p u := kept_ite (fun _ => formHeld_kept (resendCauses_kept ht)) (fun _ => ht)
  have hv : Kept p v := by
    unfold v
    split
    · exact finishCmd_kept hu
    · exact hu
  have hw : Kept p w :=
    kept_ite (fun _ => endpointReset_kept (updGate_kept hv (fun _ h => { h with }))) (fun _ => hv)
  clear_value w
  split
  · exact hw
  · exact beginReset_kept { hw with frame := framedOf hw.frame al }

theorem execIslandUnfence_kept {p a0 s} (h : Kept p s)
    (al : autoParam (Allows p 17161502614) emit_kept._auto_1) : KeptRes p (execIslandUnfence a0 s) := by
  unfold execIslandUnfence
  split
  · exact keptRes_next h
  · refine keptRes_ite (fun _ => ?_) (fun _ => ?_)
    · exact keptRes_next h
    · refine keptRes_ite (fun _ => keptRes_done (endReset_kept h)) (fun _ => ?_)
      refine keptRes_ite (fun _ => ?_) (fun _ => ?_)
      · exact keptRes_next ((endReset_kept (fenceForGood_kept h)))
      · extract_lets -merge -underBinder +onlyGivenNames x0
        try clear_value x0
        refine keptRes_doneIf ?_ ?_
        · exact (endReset_kept (logErr_kept (restoreIsland_kept (updIsland_kept h))))
        · exact h

end Sys2Proof.Machine
end

