-- ==== Sys2Proof/Laws/KeptCommands.lean ====
section
/-! SUPPORT. Every operation of Machine/Commands.lean keeps the invariant of Safety.lean, leaves the
queue alone and changes no part outside those that the world `p` allows. -/

set_option Elab.async false

namespace Sys2Proof.Machine

theorem execIdentify_kept {p a0 a1 s} (h : Kept p s)
    (al : autoParam (Allows p 1677723140) emit_kept._auto_1) : KeptRes p (execIdentify a0 a1 s) := by
  unfold execIdentify
  refine runCommand_kept h (fun c x0 h0 => ?_)
  exact (bufCmd_kept h0)

theorem renotice_kept {p s} (h : Kept p s)
    (al : autoParam (Allows p 1073741824) emit_kept._auto_1) : Kept p (renotice s) := by
  unfold renotice
  refine kept_foldl ?_ (fun x s h => ?_)
  · exact h
  · split
    · exact (addNotice_kept h)
    · exact h

theorem execHello_kept {p a0 a1 s} (h : Kept p s)
    (al : autoParam (Allows p 1073741824) emit_kept._auto_1) : KeptRes p (execHello a0 a1 s) := by
  unfold execHello
  refine runCommand_kept h (fun c x0 h0 => ?_)
  refine kept_ite (fun _ => ?_) (fun _ => ?_)
  · exact (endCmd_kept h0)
  · extract_lets -merge -underBinder +onlyGivenNames x1
    try clear_value x1
    extract_lets -merge -underBinder +onlyGivenNames x2
    have h2 : Kept p x2 := (updMbx_kept h0 (fun _ h => { h with }))
    clear_value x2
    extract_lets -merge -underBinder +onlyGivenNames x3
    have h3 : Kept p x3 := by
      refine kept_ite (fun _ => ?_) (fun _ => ?_)
      · exact (renotice_kept h2)
      · exact h2
    clear_value x3
    exact (okCmd_kept h3)

theorem execSubscribe_kept {p a0 a1 s} (h : Kept p s)
    (al : autoParam (Allows p 1073741824) emit_kept._auto_1) : KeptRes p (execSubscribe a0 a1 s) := by
  unfold execSubscribe
  try dsimp only
  repeat' first
    | with_reducible assumption
    | exact Allows.sub al rfl
    | with_reducible refine runCommand_kept ?_ (fun _ _ _ => ?_) ?_
    | with_reducible refine endCmd_kept ?_ ?_
    | with_reducible refine okCmd_kept ?_ ?_
    | with_reducible refine updCmd_kept ?_ ?_
    | with_reducible refine keptRes_inRange ?_ ?_
    | with_reducible refine keptRes_doneIf ?_ ?_
    | with_reducible refine keptRes_ite (fun _ => ?_) (fun _ => ?_)
    | with_reducible refine keptRes_done ?_
    | with_reducible refine keptRes_next ?_
    | with_reducible refine kept_ite (fun _ => ?_) (fun _ => ?_)
    | split

theorem execUnsubscribe_kept {p a0 a1 s} (h : Kept p s)
    (al : autoParam (Allows p 1073741824) emit_kept._auto_1) : KeptRes p (execUnsubscribe a0 a1 s) := by
  unfold execUnsubscribe
  try dsimp only
  repeat' first
    | with_reducible assumption
    | exact Allows.sub al rfl
    | with_reducible refine runCommand_kept ?_ (fun _ _ _ => ?_) ?_
    | with_reducible refine endCmd_kept ?_ ?_
    | with_reducible refine keptRes_inRange ?_ ?_
    | with_reducible refine keptRes_doneIf ?_ ?_
    | with_reducible refine keptRes_ite (fun _ => ?_) (fun _ => ?_)
    | with_reducible refine keptRes_done ?_
    | with_reducible refine keptRes_next ?_
    | with_reducible refine kept_ite (fun _ => ?_) (fun _ => ?_)
    | split

theorem execTimeConfig_kept {p a0 a1 a2 s} (h : Kept p s)
    (al : autoParam (Allows p 1073741832) emit_kept._auto_1) : KeptRes p (execTimeConfig a0 a1 a2 s) := by
  unfold execTimeConfig
  refine runCommand_kept h (fun c x0 h0 => ?_)
  refine kept_ite (fun _ => ?_) (fun _ => ?_)
  · exact (endCmd_kept h0)
  · extract_lets -merge -underBinder +onlyGivenNames x1
    have h1 : Kept p x1 := by
      refine kept_ite (fun _ => ?_) (fun _ => ?_)
      · exact (foldEstimate_kept h0)
      · exact h0
    clear_value x1
    exact (okCmd_kept (updBand_kept h1 (fun _ h => { h with })))

theorem execTimeSet_kept {p a0 a1 s} (h : Kept p s)
    (al : autoParam (Allows p 10468982796) emit_kept._auto_1) : KeptRes p (execTimeSet a0 a1 s) := by
  unfold execTimeSet
  refine runCommand_kept h (fun c x0 h0 => ?_)
  extract_lets -merge -underBinder +onlyGivenNames x1
  try clear_value x1
  extract_lets -merge -underBinder +onlyGivenNames x2
  have h2 : Kept p x2 := (takeSample_kept h0)
  clear_value x2
  exact (okCmd_kept h2)

theorem execPinConfig_kept {p a0 a1 a2 s} (h : Kept p s)
    (al : autoParam (Allows p 10272120484) emit_kept._auto_1) : KeptRes p (execPinConfig a0 a1 a2 s) := by
  unfold execPinConfig
  try dsimp only
  repeat' first
    | with_reducible assumption
    | exact Allows.sub al rfl
    | with_reducible refine runCommand_kept ?_ (fun _ _ _ => ?_) ?_
    | with_reducible refine endCmd_kept ?_ ?_
    | with_reducible refine okCmd_kept ?_ ?_
    | with_reducible refine finishBatches_kept ?_ ?_
    | with_reducible refine setPinMode_kept ?_ ?_
    | with_reducible refine keptRes_inRange ?_ ?_
    | with_reducible refine keptRes_doneIf ?_ ?_
    | with_reducible refine keptRes_ite (fun _ => ?_) (fun _ => ?_)
    | with_reducible refine keptRes_done ?_
    | with_reducible refine keptRes_next ?_
    | with_reducible refine kept_ite (fun _ => ?_) (fun _ => ?_)
    | split

theorem hostCue_kept {p a0 a1 s} (h : Kept p s)
    (al : autoParam (Allows p 1677722278) emit_kept._auto_1) : Kept p (hostCue a0 a1 s) := by
  unfold hostCue
  extract_lets -merge -underBinder +onlyGivenNames x0
  try clear_value x0
  extract_lets -merge -underBinder +onlyGivenNames x1
  try clear_value x1
  extract_lets -merge -underBinder +onlyGivenNames x2
  try clear_value x2
  extract_lets -merge -underBinder +onlyGivenNames x3
  try clear_value x3
  refine kept_ite (fun _ => ?_) (fun _ => ?_)
  · exact (endCmd_kept (issueCue_kept h))
  · refine kept_ite (fun _ => ?_) (fun _ => ?_)
    · exact (endCmd_kept h)
    · split
      · rename_i e4
        have h4 := keptSnd_eq (freeNat_kept (issueCue_kept h)) e4
        exact (okCmd_kept h4)

theorem execHostPinLevel_kept {p a0 a1 s} (h : Kept p s)
    (al : autoParam (Allows p 1677722278) emit_kept._auto_1) : KeptRes p (execHostPinLevel a0 a1 s) := by
  unfold execHostPinLevel
  refine runCommand_kept h (fun c x0 h0 => ?_)
  exact (hostCue_kept h0)

theorem execHostPinPulse_kept {p a0 a1 s} (h : Kept p s)
    (al : autoParam (Allows p 1677722278) emit_kept._auto_1) : KeptRes p (execHostPinPulse a0 a1 s) := by
  unfold execHostPinPulse
  refine runCommand_kept h (fun c x0 h0 => ?_)
  exact (hostCue_kept h0)

theorem execHostStrobeStart_kept {p a0 a1 s} (h : Kept p s)
    (al : autoParam (Allows p 1677722278) emit_kept._auto_1) : KeptRes p (execHostStrobeStart a0 a1 s) := by
  unfold execHostStrobeStart
  refine runCommand_kept h (fun c x0 h0 => ?_)
  exact (hostCue_kept h0)

theorem execHostStrobeStop_kept {p a0 a1 s} (h : Kept p s)
    (al : autoParam (Allows p 1677722278) emit_kept._auto_1) : KeptRes p (execHostStrobeStop a0 a1 s) := by
  unfold execHostStrobeStop
  refine runCommand_kept h (fun c x0 h0 => ?_)
  exact (hostCue_kept h0)

theorem execReflexConfig_kept {p a0 a1 a2 s} (h : Kept p s)
    (al : autoParam (Allows p 1073741888) emit_kept._auto_1) : KeptRes p (execReflexConfig a0 a1 a2 s) := by
  unfold execReflexConfig
  refine runCommand_kept h (fun c x0 h0 => ?_)
  refine kept_ite (fun _ => ?_) (fun _ => ?_)
  · exact (endCmd_kept h0)
  · exact (okCmd_kept (updReflex_kept h0))

theorem execNetConfig_kept {p a0 a1 a2 s} (h : Kept p s)
    (al : autoParam (Allows p 4093912596) emit_kept._auto_1) : KeptRes p (execNetConfig a0 a1 a2 s) := by
  unfold execNetConfig
  try dsimp only
  repeat' first
    | with_reducible assumption
    | exact Allows.sub al rfl
    | with_reducible refine runCommand_kept ?_ (fun _ _ _ => ?_) ?_
    | with_reducible refine endCmd_kept ?_ ?_
    | with_reducible refine updEth_kept ?_ ?_
    | with_reducible refine emit_kept ?_ ?_
    | with_reducible refine okCmd_kept ?_ ?_
    | with_reducible refine formHeld_kept ?_ ?_
    | with_reducible refine flushAllUdp_kept ?_ ?_
    | with_reducible refine wakeIsland_kept ?_ ?_
    | with_reducible refine keptRes_inRange ?_ ?_
    | with_reducible refine keptRes_doneIf ?_ ?_
    | with_reducible refine keptRes_ite (fun _ => ?_) (fun _ => ?_)
    | with_reducible refine keptRes_done ?_
    | with_reducible refine keptRes_next ?_
    | with_reducible refine kept_ite (fun _ => ?_) (fun _ => ?_)
    | split

theorem execSetWayMasks_kept {p a0 a1 s} (h : Kept p s)
    (al : autoParam (Allows p 1073743872) emit_kept._auto_1) : KeptRes p (execSetWayMasks a0 a1 s) := by
  unfold execSetWayMasks
  refine runCommand_kept h (fun c x0 h0 => ?_)
  refine kept_ite (fun _ => ?_) (fun _ => ?_)
  · exact (endCmd_kept h0)
  · exact (okCmd_kept (updMem_kept h0 (fun _ h => { h with })))

theorem moveCold_kept {p a0 s} (h : Kept p s)
    (al : autoParam (Allows p 9193921028) emit_kept._auto_1) : Kept p (moveCold a0 s) := by
  unfold moveCold
  try dsimp only
  repeat' first
    | with_reducible assumption
    | exact Allows.sub al rfl
    | exact fun _ h => h
    | exact fun _ h => { h with }
    | exact fun _ => rfl
    | exact fun _ => ⟨rfl, rfl⟩
    | with_reducible refine unmapHost_kept ?_ ?_
    | with_reducible refine mapHost_kept ?_ ?_
    | with_reducible refine updAviary_kept ?_ ?_ ?_
    | split

theorem execSetColdTier_kept {p a0 a1 a2 a3 s} (h : Kept p s)
    (al : autoParam (Allows p 10267662852) emit_kept._auto_1) : KeptRes p (execSetColdTier a0 a1 a2 a3 s) := by
  unfold execSetColdTier
  try dsimp only
  repeat' first
    | with_reducible assumption
    | exact Allows.sub al rfl
    | with_reducible refine runCommand_kept ?_ (fun _ _ _ => ?_) ?_
    | with_reducible refine endCmd_kept ?_ ?_
    | with_reducible refine okCmd_kept ?_ ?_
    | with_reducible refine moveCold_kept ?_ ?_
    | with_reducible refine keptRes_inRange ?_ ?_
    | with_reducible refine keptRes_doneIf ?_ ?_
    | with_reducible refine keptRes_ite (fun _ => ?_) (fun _ => ?_)
    | with_reducible refine keptRes_done ?_
    | with_reducible refine keptRes_next ?_
    | with_reducible refine kept_ite (fun _ => ?_) (fun _ => ?_)
    | split

theorem execSetCensus_kept {p a0 a1 s} (h : Kept p s)
    (al : autoParam (Allows p 1090519040) emit_kept._auto_1) : KeptRes p (execSetCensus a0 a1 s) := by
  unfold execSetCensus
  refine runCommand_kept h (fun c x0 h0 => ?_)
  extract_lets -merge -underBinder +onlyGivenNames x1
  try clear_value x1
  refine okCmd_kept ?_
  exact { h0 with frame := framedOf (h0).frame al }

theorem execJournalRead_kept {p a0 a1 s} (h : Kept p s)
    (al : autoParam (Allows p 1677723140) emit_kept._auto_1) : KeptRes p (execJournalRead a0 a1 s) := by
  unfold execJournalRead
  refine runCommand_kept h (fun c x0 h0 => ?_)
  extract_lets -merge -underBinder +onlyGivenNames x1
  try clear_value x1
  refine kept_ite (fun _ => ?_) (fun _ => ?_)
  · exact (endCmd_kept h0)
  · extract_lets -merge -underBinder +onlyGivenNames x2
    try clear_value x2
    exact (bufCmd_kept h0)

theorem execIslandReset_kept {p a0 a1 s} (h : Kept p s)
    (al : autoParam (Allows p 14743486358) emit_kept._auto_1) : KeptRes p (execIslandReset a0 a1 s) := by
  unfold execIslandReset
  refine runCommand_kept h (fun c x0 h0 => ?_)
  exact (requestReset_kept h0)

end Sys2Proof.Machine
end

