-- ==== Sys2Proof/Laws/KeptPrompts.lean ====
section
/-! SUPPORT. Every operation of Machine/Prompts.lean keeps the invariant of Safety.lean, leaves the
queue alone and changes no part outside those that the world `p` allows. -/

set_option Elab.async false

namespace Sys2Proof.Machine

theorem dropPrompt_kept {p a0 s} (h : Kept p s)
    (al : autoParam (Allows p 6144) emit_kept._auto_1) : Kept p (dropPrompt a0 s) := by
  unfold dropPrompt
  split
  · extract_lets -merge -underBinder +onlyGivenNames x0
    have h0 : Kept p x0 := by
      unfold x0
      split
      · exact (endSeq_kept h)
      · exact h
    clear_value x0
    exact (unreserve_kept (updAviary_kept h0 (fun _ h => by simpa using h)))
  · exact h

theorem execPromptSet_kept {p a0 a1 s} (h : Kept p s)
    (al : autoParam (Allows p 1073747968) emit_kept._auto_1) : KeptRes p (execPromptSet a0 a1 s) := by
  unfold execPromptSet
  extract_lets -merge -underBinder +onlyGivenNames x0
  try clear_value x0
  extract_lets -merge -underBinder +onlyGivenNames x1
  try clear_value x1
  refine runCommand_kept h (fun c x2 h2 => ?_)
  extract_lets -merge -underBinder +onlyGivenNames x3
  try clear_value x3
  extract_lets -merge -underBinder +onlyGivenNames x4
  try clear_value x4
  extract_lets -merge -underBinder +onlyGivenNames x5
  try clear_value x5
  refine kept_ite (fun _ => ?_) (fun _ => ?_)
  · exact (endCmd_kept h2)
  · split
    · exact (endCmd_kept h2)
    · rename_i e6
      have h6 := keptOpt_eq (reserve_kept (dropPrompt_kept h2)) e6
      extract_lets -merge -underBinder +onlyGivenNames x7
      try clear_value x7
      exact (updAviary_kept h6 (fun _ h => by simpa using h))

theorem rebindPrompt_kept {p a0 a1 a2 a3 s} (h : Kept p s)
    (al : autoParam (Allows p 268288) emit_kept._auto_1) : Kept p (rebindPrompt a0 a1 a2 a3 s) := by
  unfold rebindPrompt
  try dsimp only
  repeat' first
    | with_reducible assumption
    | exact Allows.sub al rfl
    | with_reducible refine releasePrompt_kept ?_ ?_
    | with_reducible refine updStream_kept ?_ ?_
    | with_reducible refine kept_foldl ?_ (fun _ _ _ => ?_)
    | with_reducible refine kept_foldl_snd ?_ (fun _ _ _ => ?_)
    | with_reducible refine kept_foldl_fst ?_ (fun _ _ _ => ?_)
    | dsimp only
    | split

theorem execPromptBind_kept {p a0 a1 s} (h : Kept p s)
    (al : autoParam (Allows p 1074010112) emit_kept._auto_1) : KeptRes p (execPromptBind a0 a1 s) := by
  unfold execPromptBind
  try dsimp only
  repeat' first
    | with_reducible assumption
    | exact Allows.sub al rfl
    | with_reducible refine streamCommand_kept ?_ (fun _ _ _ _ _ => ?_) ?_
    | with_reducible refine endCmd_kept ?_ ?_
    | with_reducible refine okCmd_kept ?_ ?_
    | with_reducible refine rebindPrompt_kept ?_ ?_
    | with_reducible refine keptRes_inRange ?_ ?_
    | with_reducible refine keptRes_doneIf ?_ ?_
    | with_reducible refine keptRes_ite (fun _ => ?_) (fun _ => ?_)
    | with_reducible refine keptRes_done ?_
    | with_reducible refine keptRes_next ?_
    | with_reducible refine kept_ite (fun _ => ?_) (fun _ => ?_)
    | split

theorem makeContext_kept {p a0 a1 a2 a3 s} (h : Kept p s)
    (al : autoParam (Allows p 9202310662) emit_kept._auto_1) : Kept p (makeContext a0 a1 a2 a3 s) := by
  unfold makeContext
  extract_lets -merge -underBinder +onlyGivenNames x0
  have h0 : Kept p x0 := (forkSeq_kept h)
  clear_value x0
  extract_lets -merge -underBinder +onlyGivenNames x1
  try clear_value x1
  split
  · exact h0
  · extract_lets -merge -underBinder +onlyGivenNames x2
    try clear_value x2
    extract_lets -merge -underBinder +onlyGivenNames x3
    have h3 : Kept p x3 := (updSeq_kept h0)
    clear_value x3
    exact (fillPages_kept h3)

theorem reserveContext_kept {p n k x s} (h : Kept p s)
    (al : autoParam (Allows p 4096) emit_kept._auto_1) : KeptOpt p (reserveContext n k x s) := by
  unfold reserveContext
  refine keptOpt_ite (fun _ => keptOpt_none) (fun _ t e => ?_)
  obtain ⟨u, hu, ht⟩ := Option.bind_eq_some_iff.mp e
  exact keptOpt_eq (reserve_kept (unreserve_kept (keptOpt_eq (reserve_kept (unreserve_kept h)) hu))) ht

theorem execContextSet_kept {p a0 a1 s} (h : Kept p s)
    (al : autoParam (Allows p 10276314630) emit_kept._auto_1) : KeptRes p (execContextSet a0 a1 s) := by
  unfold execContextSet
  extract_lets -merge -underBinder +onlyGivenNames x0
  try clear_value x0
  extract_lets -merge -underBinder +onlyGivenNames x1
  try clear_value x1
  refine streamCommand_kept h (fun x3 x3 x3 s3 k3 => ?_)
  · try beta_reduce
    extract_lets -merge -underBinder +onlyGivenNames x4
    try clear_value x4
    extract_lets -merge -underBinder +onlyGivenNames x5
    try clear_value x5
    extract_lets -merge -underBinder +onlyGivenNames x6
    try clear_value x6
    refine kept_ite (fun _ => ?_) (fun _ => ?_)
    · exact (endCmd_kept k3)
    · refine kept_ite (fun _ => ?_) (fun _ => ?_)
      · exact (endCmd_kept k3)
      · split
        · exact (endCmd_kept k3)
        · exact (endCmd_kept k3)
        · have h7 := keptOpt_eq (reserveContext_kept k3) (by assumption : reserveContext _ _ _ _ = _)
          extract_lets -merge -underBinder +onlyGivenNames x8
          have h8 : Kept p x8 := by
            unfold x8
            split
            · exact (endSeq_kept h7)
            · exact h7
          clear_value x8
          exact (okCmd_kept (updStream_kept (makeContext_kept h8)))

end Sys2Proof.Machine
end

