-- ==== Sys2Proof/Laws/KeptPackage.lean ====
section
/-! SUPPORT. Every operation of Machine/Package.lean keeps the invariant of Safety.lean, leaves the
queue alone and changes no part outside those that the world `p` allows. -/

set_option Elab.async false

namespace Sys2Proof.Machine

theorem length_bellTable (img : List Byte) : (bellTable img).length = 64 := by
  unfold bellTable
  extract_lets t n
  rw [List.length_map, List.length_range]

theorem loadScore_sound {img e c} (h : ScoreSound c) : ScoreSound (loadScore img e c) :=
  { lanes := h.lanes
    each := h.each
    claims := (List.length_map ..).trans h.claims
    lens := (List.length_map ..).trans h.lens
    batches := (List.length_map ..).trans (length_bellTable img) }

theorem emptyScore_sound {c} (h : ScoreSound c) : ScoreSound (emptyScore c) :=
  { h with batches := (List.length_map ..).trans h.batches }

theorem noteAck_kept {p a0 a1 a2 a3 s} (h : Kept p s)
    (al : autoParam (Allows p 4294967296) emit_kept._auto_1) : Kept p (noteAck a0 a1 a2 a3 s) := by
  unfold noteAck
  exact (updTrellis_kept h (fun _ h => h))

theorem acknowledge_kept {p a0 a1 s} (h : Kept p s)
    (al : autoParam (Allows p 4898947588) emit_kept._auto_1) : Kept p (acknowledge a0 a1 s) := by
  unfold acknowledge
  refine kept_ite (fun _ => ?_) (fun _ => ?_)
  · exact (noteAck_kept h)
  · exact (sendMessage_kept h)

theorem endLoad_kept {p a0 a1 s} (h : Kept p s)
    (al : autoParam (Allows p 1678771716) emit_kept._auto_1) : Kept p (endLoad a0 a1 s) := by
  unfold endLoad
  extract_lets -merge -underBinder +onlyGivenNames x0
  have h0 : Kept p x0 := { h with frame := framedOf (h).frame al }
  clear_value x0
  split
  · refine kept_ite (fun _ => ?_) (fun _ => ?_)
    · exact (bufCmd_kept h0)
    · exact (endCmd_kept h0)
  · exact h0

theorem clearAviary_kept {p s} (h : Kept p s)
    (al : autoParam (Allows p 6144) emit_kept._auto_1) : Kept p (clearAviary s) := by
  unfold clearAviary
  extract_lets -merge -underBinder +onlyGivenNames x0
  have h0 : Kept p x0 := by
    refine kept_foldl ?_ (fun x s h => ?_)
    · exact h
    · exact (endSeq_kept h)
  clear_value x0
  exact (updAviary_kept h0 (fun _ h => by simpa using h))

theorem rebindStreams_kept {p l k s} (h : Kept p s)
    (al : autoParam (Allows p 14577711620) emit_kept._auto_1) : Kept p (rebindStreams l k s) := by
  induction l generalizing k s with
  | nil => exact h
  | cons n l ih =>
    unfold rebindStreams
    split
    · exact ih h
    · exact kept_ite (fun _ => ih h) (fun _ => kept_ite (fun _ => ih h) (fun _ => ih (addNotice_kept (beginClose_kept h))))

theorem reserveAgain_kept {p a0 a1 a2 s} (h : Kept p s)
    (al : autoParam (Allows p 4096) emit_kept._auto_1) : Kept p (reserveAgain a0 a1 a2 s) := by
  unfold reserveAgain
  refine keptOpt_getD ?_ ?_
  · exact reserve_kept (unreserve_kept h)
  · exact h

theorem reserveStreams_kept {p s} (h : Kept p s)
    (al : autoParam (Allows p 4096) emit_kept._auto_1) : Kept p (reserveStreams s) := by
  unfold reserveStreams
  refine kept_foldl ?_ (fun x s h => ?_)
  · exact h
  · split
    · exact h
    · extract_lets -merge -underBinder +onlyGivenNames x0
      have h0 : Kept p x0 := (unreserve_kept (reserveAgain_kept h))
      clear_value x0
      extract_lets -merge -underBinder +onlyGivenNames x1
      have h1 : Kept p x1 := (unreserve_kept h0)
      clear_value x1
      refine kept_ite (fun _ => ?_) (fun _ => ?_)
      · exact h1
      · split
        · rename_i e; exact galleryFor_kept h1 e
        · exact h1

theorem renewPrompt_kept {p a0 s} (h : Kept p s)
    (al : autoParam (Allows p 10276052486) emit_kept._auto_1) : Kept p (renewPrompt a0 s) := by
  unfold renewPrompt
  split
  · exact h
  · extract_lets -merge -underBinder +onlyGivenNames x0
    try clear_value x0
    extract_lets -merge -underBinder +onlyGivenNames x1
    try clear_value x1
    extract_lets -merge -underBinder +onlyGivenNames x2
    try clear_value x2
    extract_lets -merge -underBinder +onlyGivenNames x3
    have h3 : Kept p x3 := (updAviary_kept h (fun _ h => by simpa using h))
    clear_value x3
    extract_lets -merge -underBinder +onlyGivenNames x4
    have h4 : Kept p x4 := (reserveAgain_kept h3)
    clear_value x4
    split
    · refine kept_ite (fun _ => ?_) (fun _ => ?_)
      · exact h4
      · exact (dropPrompt_kept (finishCmd_kept h4))
    · refine kept_ite (fun _ => ?_) (fun _ => ?_)
      · exact (dropPrompt_kept h4)
      · split
        · refine kept_ite (fun _ => ?_) (fun _ => ?_)
          · exact (encodePrompt_kept h4)
          · exact h4
        · exact h4

theorem placeDictionary_kept {p a0 s} (h : Kept p s)
    (al : autoParam (Allows p 9193916932) emit_kept._auto_1) : Kept p (placeDictionary a0 s) := by
  unfold placeDictionary
  try dsimp only
  repeat' first
    | with_reducible assumption
    | exact Allows.sub al rfl
    | with_reducible refine writePhys_kept ?_ ?_
    | split

theorem placeWeights_kept {p a0 s} (h : Kept p s)
    (al : autoParam (Allows p 9193916932) emit_kept._auto_1) : Kept p (placeWeights a0 s) := by
  unfold placeWeights
  refine kept_foldl ?_ (fun x s h => ?_)
  · exact h
  · exact (writePhys_kept h)

theorem placeScore_kept {p a0 s} (h : Kept p s)
    (al : autoParam (Allows p 9193916932) emit_kept._auto_1) : Kept p (placeScore a0 s) := by
  unfold placeScore
  try dsimp only
  repeat' first
    | with_reducible assumption
    | exact Allows.sub al rfl
    | with_reducible refine writePhys_kept ?_ ?_
    | with_reducible refine kept_foldl ?_ (fun _ _ _ => ?_)
    | split

theorem fenceBanks_kept {p s} (h : Kept p s)
    (al : autoParam (Allows p 8589934596) emit_kept._auto_1) : Kept p (fenceBanks s) := by
  unfold fenceBanks
  extract_lets -merge -underBinder +onlyGivenNames x0
  try clear_value x0
  refine kept_ite (fun _ => ?_) (fun _ => ?_)
  · exact h
  · exact (saveLedger_kept (updPower_kept h))

theorem takePackage_kept {p a0 s} (h : Kept p s)
    (al : autoParam (Allows p 16725786246) emit_kept._auto_1) : Kept p (takePackage a0 s) := by
  unfold takePackage
  extract_lets -merge -underBinder +onlyGivenNames x0
  have h0 : Kept p x0 := (clearAviary_kept h)
  clear_value x0
  extract_lets -merge -underBinder +onlyGivenNames x1
  have h1 : Kept p x1 := { h0 with topiaries := (List.length_map ..).trans h0.topiaries, frame := framedOf (h0).frame al }
  clear_value x1
  extract_lets -merge -underBinder +onlyGivenNames x2
  have h2 : Kept p x2 := h1
  clear_value x2
  extract_lets -merge -underBinder +onlyGivenNames x3
  have h3 : Kept p x3 := { h1 with streams := (List.length_map ..).trans h1.streams, frame := framedOf (h1).frame al }
  clear_value x3
  extract_lets -merge -underBinder +onlyGivenNames x4
  try clear_value x4
  extract_lets -merge -underBinder +onlyGivenNames x5
  have h5 : Kept p x5 := (updScore_kept h3 fun _ => loadScore_sound)
  clear_value x5
  extract_lets -merge -underBinder +onlyGivenNames x6
  have h6 : Kept p x6 := (rebindStreams_kept h5)
  clear_value x6
  extract_lets -merge -underBinder +onlyGivenNames x7
  have h7 : Kept p x7 := by
    refine kept_foldl ?_ (fun x s h => ?_)
    · exact h6
    · refine kept_ite (fun _ => ?_) (fun _ => ?_)
      · exact (clearHistories_kept h)
      · exact h
  clear_value x7
  refine fenceBanks_kept (placeWeights_kept (placeScore_kept (kept_foldl (placeDictionary_kept (reserveStreams_kept h7)) ?_)))
  exact fun _ _ h => renewPrompt_kept h

theorem installPackage_kept {p a0 s} (h : Kept p s)
    (al : autoParam (Allows p 16726834822) emit_kept._auto_1) : Kept p (installPackage a0 s) := by
  unfold installPackage
  extract_lets -merge -underBinder +onlyGivenNames x0
  have h0 : Kept p x0 := by
    refine kept_ite (fun _ => ?_) (fun _ => ?_)
    · exact (addNotice_kept h)
    · exact h
  clear_value x0
  extract_lets -merge -underBinder +onlyGivenNames x1
  have h1 : Kept p x1 := (takePackage_kept (closeTorn_kept h0))
  clear_value x1
  refine kept_ite (fun _ => ?_) (fun _ => ?_)
  · exact (endLoad_kept h1)
  · refine endLoad_kept ?_
    refine updScore_kept ?_ (fun _ => emptyScore_sound)
    exact { h1 with frame := framedOf (h1).frame al }

theorem requestHalt_kept {p s} (h : Kept p s)
    (al : autoParam (Allows p 128) emit_kept._auto_1) : Kept p (requestHalt s) := by
  unfold requestHalt
  exact (updScore_kept h (fun _ h => { h with }))

theorem goOnLoad_kept {p a0 s} (h : Kept p s)
    (al : autoParam (Allows p 16726834822) emit_kept._auto_1) : Kept p (goOnLoad a0 s) := by
  unfold goOnLoad
  refine kept_ite (fun _ => ?_) (fun _ => ?_)
  · exact (installPackage_kept h)
  · refine requestHalt_kept ?_
    exact { h with frame := framedOf (h).frame al }

theorem abandonLoad_kept {p a0 s} (h : Kept p s)
    (al : autoParam (Allows p 1678771716) emit_kept._auto_1) : Kept p (abandonLoad a0 s) := by
  unfold abandonLoad
  split
  · refine kept_ite (fun _ => ?_) (fun _ => ?_)
    · exact (endLoad_kept h)
    · exact h
  · exact h

theorem tryPropose_kept {p a0 s} (h : Kept p s)
    (al : autoParam (Allows p 16726834822) emit_kept._auto_1) : Kept p (tryPropose a0 s) := by
  unfold tryPropose
  extract_lets -merge -underBinder +onlyGivenNames x0
  try clear_value x0
  split
  · refine kept_ite (fun _ => ?_) (fun _ => ?_)
    · extract_lets -merge -underBinder +onlyGivenNames x1
      try clear_value x1
      extract_lets -merge -underBinder +onlyGivenNames x2
      try clear_value x2
      extract_lets -merge -underBinder +onlyGivenNames x3
      try clear_value x3
      extract_lets -merge -underBinder +onlyGivenNames x4
      have h4 : Kept p x4 := by
        refine kept_foldl ?_ (fun x s h => ?_)
        · exact h
        · exact (sendMessage_kept h)
      clear_value x4
      exact (goOnLoad_kept (updTrellis_kept h4 (fun _ h => h)))
    · exact h
  · exact h

theorem judgeAcks_kept {p a0 s} (h : Kept p s)
    (al : autoParam (Allows p 16726834822) emit_kept._auto_1) : Kept p (judgeAcks a0 s) := by
  unfold judgeAcks
  extract_lets -merge -underBinder +onlyGivenNames x0
  try clear_value x0
  refine kept_ite (fun _ => ?_) (fun _ => ?_)
  · exact (abandonLoad_kept (updTrellis_kept h (fun _ h => h)))
  · exact (tryPropose_kept h)

theorem takeEpochAck_kept {p a0 a1 a2 a3 s} (h : Kept p s)
    (al : autoParam (Allows p 16726834822) emit_kept._auto_1) : Kept p (takeEpochAck a0 a1 a2 a3 s) := by
  unfold takeEpochAck
  refine kept_ite (fun _ => ?_) (fun _ => ?_)
  · exact h
  · exact (judgeAcks_kept (noteAck_kept h))

theorem execPackageLoad_kept {p a0 a1 a2 s} (h : Kept p s)
    (al : autoParam (Allows p 16726834822) emit_kept._auto_1) : KeptRes p (execPackageLoad a0 a1 a2 s) := by
  unfold execPackageLoad
  extract_lets -merge -underBinder +onlyGivenNames x0
  try clear_value x0
  extract_lets -merge -underBinder +onlyGivenNames x1
  try clear_value x1
  refine runCommand_kept h (fun c x2 h2 => ?_)
  refine kept_ite (fun _ => ?_) (fun _ => ?_)
  · exact (endCmd_kept h2)
  · refine kept_ite (fun _ => ?_) (fun _ => ?_)
    · exact (endCmd_kept h2)
    · extract_lets -merge -underBinder +onlyGivenNames x3
      try clear_value x3
      extract_lets -merge -underBinder +onlyGivenNames x4
      try clear_value x4
      extract_lets -merge -underBinder +onlyGivenNames x5
      have h5 : Kept p x5 := by
        refine kept_ite (fun _ => ?_) (fun _ => ?_)
        · exact (acknowledge_kept h2)
        · exact h2
      clear_value x5
      refine kept_ite (fun _ => ?_) (fun _ => ?_)
      · exact (endCmd_kept h5)
      · extract_lets -merge -underBinder +onlyGivenNames x6
        try clear_value x6
        refine kept_ite (fun _ => ?_) (fun _ => ?_)
        · refine judgeAcks_kept ?_
          exact { h5 with frame := framedOf (h5).frame al }
        · exact (goOnLoad_kept h5)

theorem takeProposal_kept {p a0 a1 a2 s} (h : Kept p s)
    (al : autoParam (Allows p 16726834822) emit_kept._auto_1) : Kept p (takeProposal a0 a1 a2 s) := by
  unfold takeProposal
  split
  · refine kept_ite (fun _ => ?_) (fun _ => ?_)
    · exact (goOnLoad_kept h)
    · exact h
  · exact h

theorem execEpochAck_kept {p a0 a1 a2 a3 s} (h : Kept p s)
    (al : autoParam (Allows p 16726834822) emit_kept._auto_1) : KeptRes p (execEpochAck a0 a1 a2 a3 s) := by
  unfold execEpochAck
  refine keptRes_inRange ?_ h
  refine keptRes_doneIf ?_ ?_
  · exact (takeEpochAck_kept h)
  · exact h

theorem execEpochPropose_kept {p a0 a1 a2 s} (h : Kept p s)
    (al : autoParam (Allows p 16726834822) emit_kept._auto_1) : KeptRes p (execEpochPropose a0 a1 a2 s) := by
  unfold execEpochPropose
  refine keptRes_inRange ?_ h
  refine keptRes_doneIf ?_ ?_
  · exact (takeProposal_kept h)
  · exact h

theorem execEpochTimeout_kept {p s} (h : Kept p s)
    (al : autoParam (Allows p 1678771716) emit_kept._auto_1) : KeptRes p (execEpochTimeout s) := by
  unfold execEpochTimeout
  split
  · refine keptRes_doneIf ?_ ?_
    · exact (abandonLoad_kept h)
    · exact h
  · exact keptRes_next h

end Sys2Proof.Machine
end

