-- ==== Sys2Proof/Laws/KeptPower.lean ====
section
/-! SUPPORT. Every operation of Machine/Power.lean keeps the invariant of Safety.lean, leaves the
queue alone and changes no part outside those that the world `p` allows. -/

set_option Elab.async false

namespace Sys2Proof.Machine

theorem settleAlert_kept {p s} (h : Kept p s)
    (al : autoParam (Allows p 8589934592) emit_kept._auto_1) : Kept p (settleAlert s) := by
  unfold settleAlert
  exact (updPower_kept h)

theorem disablePins_kept {p s} (h : Kept p s)
    (al : autoParam (Allows p 164) emit_kept._auto_1) : Kept p (disablePins s) := by
  unfold disablePins
  refine kept_foldl ?_ (fun x s h => ?_)
  · exact h
  · split
    · exact (setPinMode_kept h)
    · exact h

theorem startBreath_kept {p s} (h : Kept p s)
    (al : autoParam (Allows p 8589934756) emit_kept._auto_1) : Kept p (startBreath s) := by
  unfold startBreath
  refine kept_ite (fun _ => ?_) (fun _ => ?_)
  · exact h
  · extract_lets -merge -underBinder +onlyGivenNames x0
    have h0 : Kept p x0 := (disablePins_kept h)
    clear_value x0
    extract_lets -merge -underBinder +onlyGivenNames x1
    try clear_value x1
    extract_lets -merge -underBinder +onlyGivenNames x2
    try clear_value x2
    extract_lets -merge -underBinder +onlyGivenNames x3
    try clear_value x3
    extract_lets -merge -underBinder +onlyGivenNames x4
    try clear_value x4
    extract_lets -merge -underBinder +onlyGivenNames x5
    try clear_value x5
    exact (updPower_kept h0)

theorem cutBreath_kept {p s} (h : Kept p s)
    (al : autoParam (Allows p 8589934594) emit_kept._auto_1) : Kept p (cutBreath s) := by
  unfold cutBreath
  try dsimp only
  repeat' first
    | with_reducible assumption
    | exact Allows.sub al rfl
    | with_reducible refine freeNat_kept ?_ ?_
    | refine keptSnd_eq (freeNat_kept ?_ ?_) (by assumption)
    | refine (freeNat_kept ?_ ?_ : KeptSnd p _)
    | with_reducible refine updPower_kept ?_ ?_
    | with_reducible refine kept_ite (fun _ => ?_) (fun _ => ?_)
    | split

theorem execPwrfail_kept {p a0 a1 s} (h : Kept p s)
    (al : autoParam (Allows p 9395241124) emit_kept._auto_1) : KeptRes p (execPwrfail a0 a1 s) := by
  unfold execPwrfail
  extract_lets -merge -underBinder +onlyGivenNames x0
  try clear_value x0
  extract_lets -merge -underBinder +onlyGivenNames x1
  have h1 : Kept p x1 := (settleAlert_kept (updPower_kept h))
  clear_value x1
  extract_lets -merge -underBinder +onlyGivenNames x2
  have h2 : Kept p x2 := by
    refine kept_ite (fun _ => ?_) (fun _ => ?_)
    · exact (setPwr_kept h1)
    · exact h1
  clear_value x2
  refine keptRes_next ?_
  refine kept_ite (fun _ => ?_) (fun _ => ?_)
  · exact (startBreath_kept h2)
  · exact h2

theorem deviceReset_kept {p s} (h : Kept p s)
    (al : autoParam (Allows p 17179869183) emit_kept._auto_1) : Kept p (deviceReset s) := by
  have r : Sound State.reset := State.reset_sound
  unfold deviceReset
  extract_lets -merge -underBinder +onlyGivenNames t scope
  have k : Kept p t := disablePins_kept h
  clear_value t scope
  exact { r with
    band := k.band
    islands := (List.length_map ..).trans k.islands
    pins := k.pins
    reflexes := k.reflexes
    gate := ⟨List.length_replicate .., by
      show TabRising (if _ then _ else _)
      split
      · exact r.gate.regs
      · exact tabPut_rising r.gate.regs, r.gate.cfg⟩
    err := { r.err with }
    mem := ⟨rfl, k.mem.host, List.length_replicate ..⟩
    queue := k.queue
    frame := framedOf k.frame al }

theorem flushedReset_kept {p s} (h : Kept p s)
    (al : autoParam (Allows p 17179869183) emit_kept._auto_1) : Kept p (flushedReset s) := by
  unfold flushedReset
  refine kept_ite (fun _ => ?_) (fun _ => ?_)
  · exact (deviceReset_kept h)
  · extract_lets -merge -underBinder +onlyGivenNames x0
    try clear_value x0
    extract_lets -merge -underBinder +onlyGivenNames x1
    try clear_value x1
    exact (deviceReset_kept (updPower_kept h))

theorem holdIslands_kept {p s} (h : Kept p s)
    (al : autoParam (Allows p 17179869183) emit_kept._auto_1) : Kept p (holdIslands s) := by
  unfold holdIslands
  try dsimp only
  repeat' first
    | with_reducible assumption
    | exact Allows.sub al rfl
    | with_reducible refine updPower_kept ?_ ?_
    | with_reducible refine deviceReset_kept ?_ ?_
    | split

theorem execMaingoodFall_kept {p s} (h : Kept p s)
    (al : autoParam (Allows p 17179869183) emit_kept._auto_1) : KeptRes p (execMaingoodFall s) := by
  unfold execMaingoodFall
  try dsimp only
  repeat' first
    | with_reducible assumption
    | exact Allows.sub al rfl
    | with_reducible refine startBreath_kept ?_ ?_
    | with_reducible refine logErr_kept ?_ ?_
    | with_reducible refine holdIslands_kept ?_ ?_
    | with_reducible refine settleAlert_kept ?_ ?_
    | with_reducible refine updPower_kept ?_ ?_
    | with_reducible refine keptRes_inRange ?_ ?_
    | with_reducible refine keptRes_doneIf ?_ ?_
    | with_reducible refine keptRes_ite (fun _ => ?_) (fun _ => ?_)
    | with_reducible refine keptRes_done ?_
    | with_reducible refine keptRes_next ?_
    | with_reducible refine kept_ite (fun _ => ?_) (fun _ => ?_)
    | split

theorem execLastBreathEnd_kept {p s} (h : Kept p s)
    (al : autoParam (Allows p 17179869183) emit_kept._auto_1) : KeptRes p (execLastBreathEnd s) := by
  unfold execLastBreathEnd
  refine keptRes_doneIf ?_ ?_
  · exact (deviceReset_kept (updPower_kept h))
  · exact h

theorem execAonSupplySwitch_kept {p a0 a1 s} (h : Kept p s)
    (al : autoParam (Allows p 9462350340) emit_kept._auto_1) : KeptRes p (execAonSupplySwitch a0 a1 s) := by
  unfold execAonSupplySwitch
  try dsimp only
  repeat' first
    | with_reducible assumption
    | exact Allows.sub al rfl
    | with_reducible refine updPower_kept ?_ ?_
    | with_reducible refine logErr_kept ?_ ?_
    | with_reducible refine setPwr_kept ?_ ?_
    | with_reducible refine keptRes_inRange ?_ ?_
    | with_reducible refine keptRes_doneIf ?_ ?_
    | with_reducible refine keptRes_ite (fun _ => ?_) (fun _ => ?_)
    | with_reducible refine keptRes_done ?_
    | with_reducible refine keptRes_next ?_
    | with_reducible refine kept_ite (fun _ => ?_) (fun _ => ?_)
    | split

theorem execAlwaysOnDomainLoss_kept {p s} (h : Kept p s)
    (al : autoParam (Allows p 17179869183) emit_kept._auto_1) : KeptRes p (execAlwaysOnDomainLoss s) := by
  unfold execAlwaysOnDomainLoss
  refine keptRes_ite (fun _ => ?_) (fun _ => ?_)
  · exact keptRes_next h
  · extract_lets -merge -underBinder +onlyGivenNames x0
    have h0 : Kept p x0 := (deviceReset_kept (cutBreath_kept h))
    clear_value x0
    refine keptRes_next ?_
    exact { h0 with frame := framedOf h0.frame al, band := State.reset_sound.band, islands := (List.length_map ..).trans h0.islands, pins := State.reset_sound.pins, reflexes := State.reset_sound.reflexes, gate := State.reset_sound.gate, err := State.reset_sound.err }

theorem execAlwaysOnPowerUp_kept {p s} (h : Kept p s)
    (al : autoParam (Allows p 8589934592) emit_kept._auto_1) : KeptRes p (execAlwaysOnPowerUp s) := by
  unfold execAlwaysOnPowerUp
  refine keptRes_doneIf ?_ ?_
  · exact (updPower_kept h)
  · exact h

theorem readJunction_kept {p a0 a1 s} (h : Kept p s)
    (al : autoParam (Allows p 8589934592) emit_kept._auto_1) : Kept p (readJunction a0 a1 s) := by
  unfold readJunction
  exact (settleAlert_kept (updPower_kept h))

theorem execJunctionHot_kept {p a0 a1 s} (h : Kept p s)
    (al : autoParam (Allows p 9462350340) emit_kept._auto_1) : KeptRes p (execJunctionHot a0 a1 s) := by
  unfold execJunctionHot
  try dsimp only
  repeat' first
    | with_reducible assumption
    | exact Allows.sub al rfl
    | with_reducible refine readJunction_kept ?_ ?_
    | with_reducible refine logErr_kept ?_ ?_
    | with_reducible refine updPower_kept ?_ ?_
    | with_reducible refine setPwr_kept ?_ ?_
    | with_reducible refine keptRes_inRange ?_ ?_
    | with_reducible refine keptRes_doneIf ?_ ?_
    | with_reducible refine keptRes_ite (fun _ => ?_) (fun _ => ?_)
    | with_reducible refine keptRes_done ?_
    | with_reducible refine keptRes_next ?_
    | with_reducible refine kept_ite (fun _ => ?_) (fun _ => ?_)
    | split

theorem execThermalTrip_kept {p a0 a1 s} (h : Kept p s)
    (al : autoParam (Allows p 9462350500) emit_kept._auto_1) : KeptRes p (execThermalTrip a0 a1 s) := by
  unfold execThermalTrip
  try dsimp only
  repeat' first
    | with_reducible assumption
    | exact Allows.sub al rfl
    | with_reducible refine setPwr_kept ?_ ?_
    | with_reducible refine logErr_kept ?_ ?_
    | with_reducible refine readJunction_kept ?_ ?_
    | with_reducible refine startBreath_kept ?_ ?_
    | with_reducible refine updPower_kept ?_ ?_
    | with_reducible refine keptRes_inRange ?_ ?_
    | with_reducible refine keptRes_doneIf ?_ ?_
    | with_reducible refine keptRes_ite (fun _ => ?_) (fun _ => ?_)
    | with_reducible refine keptRes_done ?_
    | with_reducible refine keptRes_next ?_
    | with_reducible refine kept_ite (fun _ => ?_) (fun _ => ?_)
    | split

theorem loseTimeref_kept {p s} (h : Kept p s)
    (al : autoParam (Allows p 9193915044) emit_kept._auto_1) : Kept p (loseTimeref s) := by
  unfold loseTimeref
  try dsimp only
  repeat' first
    | with_reducible assumption
    | exact Allows.sub al rfl
    | with_reducible refine updPower_kept ?_ ?_
    | with_reducible refine startBreath_kept ?_ ?_
    | with_reducible refine logErr_kept ?_ ?_
    | with_reducible refine kept_ite (fun _ => ?_) (fun _ => ?_)
    | split

theorem execTimerefLoss_kept {p a0 s} (h : Kept p s)
    (al : autoParam (Allows p 9193915044) emit_kept._auto_1) : KeptRes p (execTimerefLoss a0 s) := by
  unfold execTimerefLoss
  try dsimp only
  repeat' first
    | with_reducible assumption
    | exact Allows.sub al rfl
    | with_reducible refine updPower_kept ?_ ?_
    | with_reducible refine loseTimeref_kept ?_ ?_
    | with_reducible refine keptRes_inRange ?_ ?_
    | with_reducible refine keptRes_doneIf ?_ ?_
    | with_reducible refine keptRes_ite (fun _ => ?_) (fun _ => ?_)
    | with_reducible refine keptRes_done ?_
    | with_reducible refine keptRes_next ?_
    | with_reducible refine kept_ite (fun _ => ?_) (fun _ => ?_)
    | split

theorem execAvsAdjust_kept {p a0 a1 s} (h : Kept p s)
    (al : autoParam (Allows p 9193914884) emit_kept._auto_1) : KeptRes p (execAvsAdjust a0 a1 s) := by
  unfold execAvsAdjust
  try dsimp only
  repeat' first
    | with_reducible assumption
    | exact Allows.sub al rfl
    | with_reducible refine emitPin_kept ?_ ?_
    | with_reducible refine updPower_kept ?_ ?_
    | with_reducible refine logErr_kept ?_ ?_
    | with_reducible refine keptRes_inRange ?_ ?_
    | with_reducible refine keptRes_doneIf ?_ ?_
    | with_reducible refine keptRes_ite (fun _ => ?_) (fun _ => ?_)
    | with_reducible refine keptRes_done ?_
    | with_reducible refine keptRes_next ?_
    | with_reducible refine kept_ite (fun _ => ?_) (fun _ => ?_)
    | split

theorem execUnitGate_kept {p a0 s} (h : Kept p s)
    (al : autoParam (Allows p 16) emit_kept._auto_1) : KeptRes p (execUnitGate a0 s) := by
  unfold execUnitGate
  refine keptRes_inRange ?_ h
  refine keptRes_doneIf ?_ ?_
  · exact (updIsland_kept h)
  · exact h

end Sys2Proof.Machine
end

