-- ==== Sys2Proof/Laws/KeptBoot.lean ====
section
/-! SUPPORT. Every operation of Machine/Boot.lean keeps the invariant of Safety.lean, leaves the
queue alone and changes no part outside those that the world `p` allows. -/

set_option Elab.async false

namespace Sys2Proof.Machine

theorem updLedger_kept {p a0 s} (h : Kept p s)
    (al : autoParam (Allows p 8589934592) emit_kept._auto_1) : Kept p (updLedger a0 s) := by
  unfold updLedger
  exact (updPower_kept h)

theorem openStep_kept {p a0 s} (h : Kept p s)
    (al : autoParam (Allows p 8589934592) emit_kept._auto_1) : Kept p (openStep a0 s) := by
  unfold openStep
  try dsimp only
  repeat' first
    | with_reducible assumption
    | exact Allows.sub al rfl
    | with_reducible refine updPower_kept ?_ ?_
    | with_reducible refine updLedger_kept ?_ ?_
    | split

theorem closeStep_kept {p a0 a1 a2 a3 s} (h : Kept p s)
    (al : autoParam (Allows p 9193914884) emit_kept._auto_1) : Kept p (closeStep a0 a1 a2 a3 s) := by
  unfold closeStep
  extract_lets -merge -underBinder +onlyGivenNames x0
  try clear_value x0
  extract_lets -merge -underBinder +onlyGivenNames x1
  try clear_value x1
  extract_lets -merge -underBinder +onlyGivenNames x2
  try clear_value x2
  extract_lets -merge -underBinder +onlyGivenNames x3
  have h3 : Kept p x3 := (updLedger_kept h)
  clear_value x3
  extract_lets -merge -underBinder +onlyGivenNames x4
  have h4 : Kept p x4 := by
    refine kept_ite (fun _ => ?_) (fun _ => ?_)
    · exact (saveLedger_kept h3)
    · exact (updPower_kept h3)
  clear_value x4
  extract_lets -merge -underBinder +onlyGivenNames x5
  have h5 : Kept p x5 := (updPower_kept h4)
  clear_value x5
  refine kept_ite (fun _ => ?_) (fun _ => ?_)
  · exact (logErr_kept h5)
  · exact h5

theorem runStep_kept {p a0 a1 a2 s} (h : Kept p s) (ga2 : ∀ y0 s, Kept p s → Kept p (a2 y0 s))
    (al : autoParam (Allows p 9193914884) emit_kept._auto_1) : Kept p (runStep a0 a1 a2 s) := by
  unfold runStep
  try dsimp only
  repeat' first
    | with_reducible assumption
    | exact Allows.sub al rfl
    | with_reducible refine ga2 _ _ ?_
    | exact ga2
    | with_reducible refine openStep_kept ?_ ?_
    | with_reducible refine updPower_kept ?_ ?_
    | with_reducible refine closeStep_kept ?_ ?_
    | with_reducible refine kept_ite (fun _ => ?_) (fun _ => ?_)
    | split

theorem applyFence_kept {p a0 s} (h : Kept p s)
    (al : autoParam (Allows p 4898949652) emit_kept._auto_1) : Kept p (applyFence a0 s) := by
  unfold applyFence
  try dsimp only
  repeat' first
    | with_reducible assumption
    | exact Allows.sub al rfl
    | with_reducible refine updIsland_kept ?_ ?_
    | with_reducible refine updChan_kept ?_ ?_
    | with_reducible refine logErr_kept ?_ ?_
    | with_reducible refine updLink_kept ?_ ?_
    | with_reducible refine kept_ite (fun _ => ?_) (fun _ => ?_)
    | split

theorem fenceUnit_kept {p a0 s} (h : Kept p s)
    (al : autoParam (Allows p 13488884244) emit_kept._auto_1) : Kept p (fenceUnit a0 s) := by
  unfold fenceUnit
  refine kept_ite (fun _ => ?_) (fun _ => ?_)
  · exact h
  · exact (logErr_kept (updLedger_kept (applyFence_kept h)))

theorem fenceUnits_kept {p a0 s} (h : Kept p s)
    (al : autoParam (Allows p 13488884244) emit_kept._auto_1) : Kept p (fenceUnits a0 s) := by
  unfold fenceUnits
  refine kept_foldl ?_ (fun x s h => ?_)
  · exact h
  · extract_lets -merge -underBinder +onlyGivenNames x0
    have h0 : Kept p x0 := (fenceUnit_kept h)
    clear_value x0
    refine kept_ite (fun _ => ?_) (fun _ => ?_)
    · exact (fenceUnit_kept (fenceUnit_kept h0))
    · exact h0

theorem bootS0_kept {p s} (h : Kept p s)
    (al : autoParam (Allows p 9462350348) emit_kept._auto_1) : Kept p (bootS0 s) := by
  unfold bootS0
  extract_lets -merge -underBinder +onlyGivenNames x0
  have h0 : Kept p x0 := (updErr_kept h (fun _ h => { h with }))
  clear_value x0
  extract_lets -merge -underBinder +onlyGivenNames x1
  have h1 : Kept p x1 := by
    unfold x1
    split
    · exact (updLedger_kept h0)
    · exact (logErr_kept (updLedger_kept h0))
  clear_value x1
  extract_lets -merge -underBinder +onlyGivenNames x2
  try clear_value x2
  extract_lets -merge -underBinder +onlyGivenNames x3
  have h3 : Kept p x3 := by
    refine kept_ite (fun _ => ?_) (fun _ => ?_)
    · exact (updBand_kept h1 (fun _ h => { h with }))
    · exact h1
  clear_value x3
  extract_lets -merge -underBinder +onlyGivenNames x4
  try clear_value x4
  extract_lets -merge -underBinder +onlyGivenNames x5
  have h5 : Kept p x5 := (updLedger_kept h3)
  clear_value x5
  extract_lets -merge -underBinder +onlyGivenNames x6
  have h6 : Kept p x6 := (setReg_kept h5)
  clear_value x6
  exact (closeStep_kept (updPower_kept h6))

theorem bootS1_kept {p a0 a1 s} (h : Kept p s)
    (al : autoParam (Allows p 9462350348) emit_kept._auto_1) : Kept p (bootS1 a0 a1 s) := by
  unfold bootS1
  try dsimp only
  repeat' first
    | with_reducible assumption
    | exact Allows.sub al rfl
    | with_reducible refine emitPin_kept ?_ ?_
    | with_reducible refine updPower_kept ?_ ?_
    | with_reducible refine lockPll_kept ?_ ?_
    | with_reducible refine logErr_kept ?_ ?_
    | with_reducible refine kept_ite (fun _ => ?_) (fun _ => ?_)
    | split

theorem trainPcie_kept {p a0 s} (h : Kept p s)
    (al : autoParam (Allows p 805306370) emit_kept._auto_1) : Kept p (trainPcie a0 s) := by
  unfold trainPcie
  try dsimp only
  repeat' first
    | with_reducible assumption
    | exact Allows.sub al rfl
    | exact fun _ h => h
    | exact fun _ h => { h with }
    | exact fun _ => rfl
    | exact fun _ => ⟨rfl, rfl⟩
    | with_reducible refine freeNat_kept ?_ ?_
    | refine keptSnd_eq (freeNat_kept ?_ ?_) (by assumption)
    | refine (freeNat_kept ?_ ?_ : KeptSnd p _)
    | with_reducible refine updGate_kept ?_ ?_ ?_ ?_
    | with_reducible refine setReg_kept ?_ ?_
    | with_reducible refine kept_ite (fun _ => ?_) (fun _ => ?_)
    | split

theorem openGate_kept {p a0 s} (h : Kept p s)
    (al : autoParam (Allows p 805306370) emit_kept._auto_1) : Kept p (openGate a0 s) := by
  unfold openGate
  try dsimp only
  repeat' first
    | with_reducible assumption
    | exact Allows.sub al rfl
    | exact fun _ h => h
    | exact fun _ h => { h with }
    | exact fun _ => rfl
    | exact fun _ => ⟨rfl, rfl⟩
    | with_reducible refine updGate_kept ?_ ?_ ?_ ?_
    | with_reducible refine trainPcie_kept ?_ ?_
    | with_reducible refine kept_ite (fun _ => ?_) (fun _ => ?_)
    | split

theorem setRingStatus_kept {p a0 s} (h : Kept p s)
    (al : autoParam (Allows p 268435456) emit_kept._auto_1) : Kept p (setRingStatus a0 s) := by
  unfold setRingStatus
  exact (setReg_kept h)

theorem skipSteps_kept {p s} (h : Kept p s)
    (al : autoParam (Allows p 8589934592) emit_kept._auto_1) : Kept p (skipSteps s) := by
  unfold skipSteps
  try dsimp only
  repeat' first
    | with_reducible assumption
    | exact Allows.sub al rfl
    | with_reducible refine updPower_kept ?_ ?_
    | with_reducible refine updLedger_kept ?_ ?_
    | with_reducible refine kept_ite (fun _ => ?_) (fun _ => ?_)
    | split

theorem enterRecovery_kept {p s} (h : Kept p s)
    (al : autoParam (Allows p 9395240962) emit_kept._auto_1) : Kept p (enterRecovery s) := by
  unfold enterRecovery
  exact (openGate_kept (setRingStatus_kept (updPower_kept h)))

theorem logSlots_kept {p a0 a1 s} (h : Kept p s)
    (al : autoParam (Allows p 603980292) emit_kept._auto_1) : Kept p (logSlots a0 a1 s) := by
  unfold logSlots
  extract_lets -merge -underBinder +onlyGivenNames x0
  try clear_value x0
  extract_lets -merge -underBinder +onlyGivenNames x1
  try clear_value x1
  refine kept_ite (fun _ => ?_) (fun _ => ?_)
  · exact h
  · extract_lets -merge -underBinder +onlyGivenNames x2
    have h2 : Kept p x2 := (logErr_kept h)
    clear_value x2
    refine kept_ite (fun _ => ?_) (fun _ => ?_)
    · exact h2
    · exact (logErr_kept h2)

theorem bootS3_kept {p a0 a1 s} (h : Kept p s)
    (al : autoParam (Allows p 13488884244) emit_kept._auto_1) : Kept p (bootS3 a0 a1 s) := by
  unfold bootS3
  extract_lets -merge -underBinder +onlyGivenNames x0
  have h0 : Kept p x0 := by
    refine kept_foldl ?_ (fun x s h => ?_)
    · exact h
    · exact (applyFence_kept h)
  clear_value x0
  extract_lets -merge -underBinder +onlyGivenNames x1
  try clear_value x1
  exact (fenceUnits_kept (updLedger_kept h0))

theorem bootS5_kept {p a0 a1 s} (h : Kept p s)
    (al : autoParam (Allows p 8589934608) emit_kept._auto_1) : Kept p (bootS5 a0 a1 s) := by
  unfold bootS5
  extract_lets -merge -underBinder +onlyGivenNames x0
  have h0 : Kept p x0 := by
    refine kept_ite (fun _ => ?_) (fun _ => ?_)
    · exact h
    · exact (updLedger_kept h)
  clear_value x0
  exact { h0 with islands := (List.length_map ..).trans (List.length_zipIdx.trans h0.islands), frame := framedOf (h0).frame al }

theorem bootS6_kept {p a0 a1 s} (h : Kept p s)
    (al : autoParam (Allows p 13488884500) emit_kept._auto_1) : Kept p (bootS6 a0 a1 s) := by
  unfold bootS6
  extract_lets stuck t cols u v bad perg
  have hu : Kept p u := updLedger_kept (fenceUnits_kept h)
  have hv : Kept p v :=
    { hu with orangeries := (List.length_map ..).trans (List.length_zipIdx.trans hu.orangeries), frame := framedOf hu.frame al }
  exact fenceUnits_kept (fenceUnits_kept hv)

theorem channelReady_kept {p a0 a1 a2 s} (h : Kept p s)
    (al : autoParam (Allows p 8589936640) emit_kept._auto_1) : Kept p (channelReady a0 a1 a2 s) := by
  unfold channelReady
  try dsimp only
  repeat' first
    | with_reducible assumption
    | exact Allows.sub al rfl
    | with_reducible refine updChan_kept ?_ ?_
    | with_reducible refine updLedger_kept ?_ ?_
    | split

theorem trainRate_kept {p a0 a1 s} (h : Kept p s)
    (al : autoParam (Allows p 2048) emit_kept._auto_1) : KeptSnd p (trainRate a0 a1 s) := by
  unfold trainRate
  try dsimp only
  repeat' first
    | with_reducible assumption
    | exact Allows.sub al rfl
    | with_reducible refine updChan_kept ?_ ?_
    | with_reducible refine keptSnd_ite (fun _ => ?_) (fun _ => ?_)
    | with_reducible refine keptSnd_mk ?_
    | split

theorem trainChannel_kept {p a0 a1 a2 s} (h : Kept p s)
    (al : autoParam (Allows p 13488884244) emit_kept._auto_1) : Kept p (trainChannel a0 a1 a2 s) := by
  unfold trainChannel
  try dsimp only
  repeat' first
    | with_reducible assumption
    | exact Allows.sub al rfl
    | with_reducible refine trainRate_kept ?_ ?_
    | refine keptSnd_eq (trainRate_kept ?_ ?_) (by assumption)
    | refine (trainRate_kept ?_ ?_ : KeptSnd p _)
    | with_reducible refine logErr_kept ?_ ?_
    | with_reducible refine channelReady_kept ?_ ?_
    | with_reducible refine fenceUnits_kept ?_ ?_
    | with_reducible refine updLedger_kept ?_ ?_
    | with_reducible refine kept_ite (fun _ => ?_) (fun _ => ?_)
    | split

theorem bootChannel_kept {p a0 a1 a2 s} (h : Kept p s)
    (al : autoParam (Allows p 13488884244) emit_kept._auto_1) : Kept p (bootChannel a0 a1 a2 s) := by
  unfold bootChannel
  try dsimp only
  repeat' first
    | with_reducible assumption
    | exact Allows.sub al rfl
    | with_reducible refine cleanChannel_kept ?_ ?_
    | with_reducible refine updChan_kept ?_ ?_
    | with_reducible refine channelReady_kept ?_ ?_
    | with_reducible refine trainChannel_kept ?_ ?_
    | with_reducible refine logErr_kept ?_ ?_
    | with_reducible refine kept_ite (fun _ => ?_) (fun _ => ?_)
    | split

theorem bootPool_kept {p a0 s} (h : Kept p s)
    (al : autoParam (Allows p 9202305540) emit_kept._auto_1) : Kept p (bootPool a0 s) := by
  unfold bootPool
  try dsimp only
  repeat' first
    | with_reducible assumption
    | exact Allows.sub al rfl
    | with_reducible refine refill_kept ?_ ?_
    | with_reducible refine updPool_kept ?_ ?_
    | with_reducible refine logErr_kept ?_ ?_
    | with_reducible refine kept_ite (fun _ => ?_) (fun _ => ?_)
    | split

theorem clearPoisonMap_kept {p a0 s} (h : Kept p s)
    (al : autoParam (Allows p 9193916932) emit_kept._auto_1) : Kept p (clearPoisonMap a0 s) := by
  unfold clearPoisonMap
  try dsimp only
  repeat' first
    | with_reducible assumption
    | exact Allows.sub al rfl
    | with_reducible refine updChan_kept ?_ ?_
    | with_reducible refine cleanChannel_kept ?_ ?_
    | split

theorem bootS8_kept {p s} (h : Kept p s)
    (al : autoParam (Allows p 9193916932) emit_kept._auto_1) : Kept p (bootS8 s) := by
  unfold bootS8
  try dsimp only
  repeat' first
    | with_reducible assumption
    | exact Allows.sub al rfl
    | exact fun _ h => h
    | exact fun _ h => { h with }
    | exact fun _ => rfl
    | exact fun _ => ⟨rfl, rfl⟩
    | with_reducible refine updMem_kept ?_ ?_ (fun _ => ⟨rfl, rfl⟩) ?_
    | with_reducible refine clearPoisonMap_kept ?_ ?_
    | with_reducible refine kept_foldl ?_ (fun _ _ _ => ?_)
    | with_reducible refine kept_foldl_snd ?_ (fun _ _ _ => ?_)
    | with_reducible refine kept_foldl_fst ?_ (fun _ _ _ => ?_)
    | dsimp only
    | split

theorem bootS9_kept {p s} (h : Kept p s)
    (al : autoParam (Allows p 9202309636) emit_kept._auto_1) : Kept p (bootS9 s) := by
  unfold bootS9
  try dsimp only
  repeat' first
    | with_reducible assumption
    | exact Allows.sub al rfl
    | exact fun _ h => h
    | exact fun _ h => { h with }
    | exact fun _ => rfl
    | exact fun _ => ⟨rfl, rfl⟩
    | with_reducible refine bootPool_kept ?_ ?_
    | with_reducible refine updErr_kept ?_ ?_ ?_
    | with_reducible refine updAviary_kept ?_ ?_ ?_
    | with_reducible refine kept_foldl ?_ (fun _ _ _ => ?_)
    | with_reducible refine kept_foldl_snd ?_ (fun _ _ _ => ?_)
    | with_reducible refine kept_foldl_fst ?_ (fun _ _ _ => ?_)
    | dsimp only
    | split

theorem bootLink_kept {p a0 a1 s} (h : Kept p s)
    (al : autoParam (Allows p 13488882180) emit_kept._auto_1) : Kept p (bootLink a0 a1 s) := by
  unfold bootLink
  try dsimp only
  repeat' first
    | with_reducible assumption
    | exact Allows.sub al rfl
    | with_reducible refine linkEnters_kept ?_ ?_
    | with_reducible refine logErr_kept ?_ ?_
    | with_reducible refine updLink_kept ?_ ?_
    | with_reducible refine kept_ite (fun _ => ?_) (fun _ => ?_)
    | split

theorem formMembership_kept {p a0 s} (h : Kept p s)
    (al : autoParam (Allows p 4898947588) emit_kept._auto_1) : Kept p (formMembership a0 s) := by
  unfold formMembership
  extract_lets -merge -underBinder +onlyGivenNames x0
  try clear_value x0
  extract_lets -merge -underBinder +onlyGivenNames x1
  try clear_value x1
  extract_lets -merge -underBinder +onlyGivenNames x2
  try clear_value x2
  extract_lets -merge -underBinder +onlyGivenNames x3
  try clear_value x3
  refine kept_ite (fun _ => ?_) (fun _ => ?_)
  · exact (logErr_kept (updTrellis_kept h (fun _ h => by simpa using h)))
  · extract_lets -merge -underBinder +onlyGivenNames x4
    try clear_value x4
    extract_lets -merge -underBinder +onlyGivenNames x5
    try clear_value x5
    exact (updTrellis_kept h (fun _ h => by simpa using h))

theorem bootS10_kept {p a0 a1 s} (h : Kept p s)
    (al : autoParam (Allows p 13488882180) emit_kept._auto_1) : Kept p (bootS10 a0 a1 s) := by
  unfold bootS10
  extract_lets -merge -underBinder +onlyGivenNames x0
  have h0 : Kept p x0 := by
    refine kept_ite (fun _ => ?_) (fun _ => ?_)
    · exact (updLedger_kept h)
    · exact h
  clear_value x0
  extract_lets -merge -underBinder +onlyGivenNames x1
  have h1 : Kept p x1 := by
    refine kept_foldl ?_ (fun x s h => ?_)
    · exact h0
    · exact (bootLink_kept h)
  clear_value x1
  extract_lets -merge -underBinder +onlyGivenNames x2
  have h2 : Kept p x2 := (formMembership_kept h1)
  clear_value x2
  extract_lets -merge -underBinder +onlyGivenNames x3
  try clear_value x3
  exact (sendPeerState_kept (updTrellis_kept h2 (fun _ h => h)))

theorem recoverRecord_kept {p a0 s} (h : Kept p s)
    (al : autoParam (Allows p 2147483648) emit_kept._auto_1) : Kept p (recoverRecord a0 s) := by
  unfold recoverRecord
  try dsimp only
  repeat' first
    | with_reducible assumption
    | exact Allows.sub al rfl
    | with_reducible refine journalAdd_kept ?_ ?_
    | with_reducible refine kept_ite (fun _ => ?_) (fun _ => ?_)
    | split

theorem bootS11_kept {p s} (h : Kept p s)
    (al : autoParam (Allows p 11341398532) emit_kept._auto_1) : Kept p (bootS11 s) := by
  unfold bootS11
  try dsimp only
  repeat' first
    | with_reducible assumption
    | exact Allows.sub al rfl
    | with_reducible refine recoverRecord_kept ?_ ?_
    | with_reducible refine logErr_kept ?_ ?_
    | with_reducible refine saveLedger_kept ?_ ?_
    | with_reducible refine updPower_kept ?_ ?_
    | with_reducible refine kept_foldl ?_ (fun _ _ _ => ?_)
    | with_reducible refine kept_foldl_snd ?_ (fun _ _ _ => ?_)
    | with_reducible refine kept_foldl_fst ?_ (fun _ _ _ => ?_)
    | with_reducible refine kept_ite (fun _ => ?_) (fun _ => ?_)
    | dsimp only
    | split

theorem bootS12_kept {p s} (h : Kept p s)
    (al : autoParam (Allows p 8858370236) emit_kept._auto_1) : Kept p (bootS12 s) := by
  unfold bootS12
  extract_lets -merge -underBinder +onlyGivenNames x0
  have h0 : Kept p x0 := orReg_kept (disablePins_kept h)
  clear_value x0
  extract_lets -merge -underBinder +onlyGivenNames x1
  have h1 : Kept p x1 := updBand_kept h0 (fun _ h => { h with })
  clear_value x1
  refine updPower_kept ?_
  exact { h1 with islands := (List.length_map ..).trans h1.islands, frame := framedOf (h1).frame al }

theorem bootLodge_kept {p a0 s} (h : Kept p s)
    (al : autoParam (Allows p 15913196478) emit_kept._auto_1) : Kept p (bootLodge a0 s) := by
  unfold bootLodge
  extract_lets -merge -underBinder +onlyGivenNames x0
  have h0 : Kept p x0 := (runStep_kept h (fun _ _ k1 => (bootS3_kept k1)))
  clear_value x0
  extract_lets -merge -underBinder +onlyGivenNames x2
  have h2 : Kept p x2 := (runStep_kept h0 (fun _ _ k3 => (openGate_kept k3)))
  clear_value x2
  extract_lets -merge -underBinder +onlyGivenNames x4
  have h4 : Kept p x4 := (runStep_kept h2 (fun _ _ k5 => (bootS5_kept k5)))
  clear_value x4
  extract_lets -merge -underBinder +onlyGivenNames x6
  have h6 : Kept p x6 := (runStep_kept h4 (fun _ _ k7 => (bootS6_kept k7)))
  clear_value x6
  extract_lets -merge -underBinder +onlyGivenNames x8
  have h8 : Kept p x8 := by
    refine runStep_kept h6 (fun x11 s11 k11 => ?_)
    · try beta_reduce
      refine kept_foldl ?_ (fun x s h => ?_)
      · exact k11
      · exact (bootChannel_kept h)
  clear_value x8
  extract_lets -merge -underBinder +onlyGivenNames x12
  have h12 : Kept p x12 := (runStep_kept h8 (fun _ _ k13 => (bootS8_kept k13)))
  clear_value x12
  extract_lets -merge -underBinder +onlyGivenNames x14
  have h14 : Kept p x14 := (runStep_kept h12 (fun _ _ k15 => (bootS9_kept k15)))
  clear_value x14
  extract_lets -merge -underBinder +onlyGivenNames x16
  have h16 : Kept p x16 := (runStep_kept h14 (fun _ _ k17 => (bootS10_kept k17)))
  clear_value x16
  extract_lets -merge -underBinder +onlyGivenNames x18
  have h18 : Kept p x18 := (runStep_kept h16 (fun _ _ k19 => (bootS11_kept k19)))
  clear_value x18
  exact (runStep_kept h18 (fun _ _ k20 => (bootS12_kept k20)))

theorem bootS2_kept {p a0 s} (h : Kept p s)
    (al : autoParam (Allows p 15913196478) emit_kept._auto_1) : Kept p (bootS2 a0 s) := by
  unfold bootS2
  try dsimp only
  repeat' first
    | with_reducible assumption
    | exact Allows.sub al rfl
    | with_reducible refine openStep_kept ?_ ?_
    | with_reducible refine updPower_kept ?_ ?_
    | with_reducible refine logSlots_kept ?_ ?_
    | with_reducible refine enterRecovery_kept ?_ ?_
    | with_reducible refine skipSteps_kept ?_ ?_
    | with_reducible refine closeStep_kept ?_ ?_
    | with_reducible refine bootLodge_kept ?_ ?_
    | with_reducible refine kept_ite (fun _ => ?_) (fun _ => ?_)
    | split

theorem endBoot_kept {p s} (h : Kept p s)
    (al : autoParam (Allows p 17179869183) emit_kept._auto_1) : Kept p (endBoot s) := by
  unfold endBoot
  try dsimp only
  repeat' first
    | with_reducible assumption
    | exact Allows.sub al rfl
    | with_reducible refine deviceReset_kept ?_ ?_
    | with_reducible refine updPower_kept ?_ ?_
    | with_reducible refine kept_ite (fun _ => ?_) (fun _ => ?_)
    | split

theorem bootFrom1_kept {p a0 s} (h : Kept p s)
    (al : autoParam (Allows p 17179869183) emit_kept._auto_1) : Kept p (bootFrom1 a0 s) := by
  unfold bootFrom1
  try dsimp only
  repeat' first
    | with_reducible assumption
    | exact Allows.sub al rfl
    | with_reducible refine updPower_kept ?_ ?_
    | with_reducible refine endBoot_kept ?_ ?_
    | with_reducible refine bootS2_kept ?_ ?_
    | with_reducible refine runStep_kept ?_ (fun _ _ _ => ?_) ?_
    | with_reducible refine bootS1_kept ?_ ?_
    | with_reducible refine kept_ite (fun _ => ?_) (fun _ => ?_)
    | split

theorem raiseMaingood_kept {p a0 s} (h : Kept p s)
    (al : autoParam (Allows p 8589934592) emit_kept._auto_1) : Kept p (raiseMaingood a0 s) := by
  unfold raiseMaingood
  try dsimp only
  repeat' first
    | with_reducible assumption
    | exact Allows.sub al rfl
    | with_reducible refine settleAlert_kept ?_ ?_
    | with_reducible refine updPower_kept ?_ ?_
    | with_reducible refine kept_ite (fun _ => ?_) (fun _ => ?_)
    | split

theorem execBoot_kept {p a0 s} (h : Kept p s)
    (al : autoParam (Allows p 17179869183) emit_kept._auto_1) : KeptRes p (execBoot a0 s) := by
  unfold execBoot
  try dsimp only
  repeat' first
    | with_reducible assumption
    | exact Allows.sub al rfl
    | with_reducible refine raiseMaingood_kept ?_ ?_
    | with_reducible refine bootFrom1_kept ?_ ?_
    | with_reducible refine bootS0_kept ?_ ?_
    | with_reducible refine deviceReset_kept ?_ ?_
    | with_reducible refine keptRes_inRange ?_ ?_
    | with_reducible refine keptRes_doneIf ?_ ?_
    | with_reducible refine keptRes_ite (fun _ => ?_) (fun _ => ?_)
    | with_reducible refine keptRes_done ?_
    | with_reducible refine keptRes_next ?_
    | with_reducible refine kept_ite (fun _ => ?_) (fun _ => ?_)
    | split

theorem returnTimeref_kept {p s} (h : Kept p s)
    (al : autoParam (Allows p 17179869183) emit_kept._auto_1) : Kept p (returnTimeref s) := by
  unfold returnTimeref
  try dsimp only
  repeat' first
    | with_reducible assumption
    | exact Allows.sub al rfl
    | with_reducible refine updPower_kept ?_ ?_
    | with_reducible refine bootFrom1_kept ?_ ?_
    | split

theorem execTimerefReturn_kept {p s} (h : Kept p s)
    (al : autoParam (Allows p 17179869183) emit_kept._auto_1) : KeptRes p (execTimerefReturn s) := by
  unfold execTimerefReturn
  try dsimp only
  repeat' first
    | with_reducible assumption
    | exact Allows.sub al rfl
    | with_reducible refine updPower_kept ?_ ?_
    | with_reducible refine returnTimeref_kept ?_ ?_
    | with_reducible refine keptRes_inRange ?_ ?_
    | with_reducible refine keptRes_doneIf ?_ ?_
    | with_reducible refine keptRes_ite (fun _ => ?_) (fun _ => ?_)
    | with_reducible refine keptRes_done ?_
    | with_reducible refine keptRes_next ?_
    | with_reducible refine kept_ite (fun _ => ?_) (fun _ => ?_)
    | split

theorem releasePerst_kept {p s} (h : Kept p s)
    (al : autoParam (Allows p 9395240962) emit_kept._auto_1) : Kept p (releasePerst s) := by
  unfold releasePerst
  try dsimp only
  repeat' first
    | with_reducible assumption
    | exact Allows.sub al rfl
    | with_reducible refine updPower_kept ?_ ?_
    | with_reducible refine openGate_kept ?_ ?_
    | with_reducible refine kept_ite (fun _ => ?_) (fun _ => ?_)
    | split

theorem execPerstNDeassert_kept {p s} (h : Kept p s)
    (al : autoParam (Allows p 9395240962) emit_kept._auto_1) : KeptRes p (execPerstNDeassert s) := by
  unfold execPerstNDeassert
  try dsimp only
  repeat' first
    | with_reducible assumption
    | exact Allows.sub al rfl
    | with_reducible refine updPower_kept ?_ ?_
    | with_reducible refine releasePerst_kept ?_ ?_
    | with_reducible refine keptRes_inRange ?_ ?_
    | with_reducible refine keptRes_doneIf ?_ ?_
    | with_reducible refine keptRes_ite (fun _ => ?_) (fun _ => ?_)
    | with_reducible refine keptRes_done ?_
    | with_reducible refine keptRes_next ?_
    | with_reducible refine kept_ite (fun _ => ?_) (fun _ => ?_)
    | split

end Sys2Proof.Machine
end

