-- ==== Sys2Proof/Laws/KeptFirmware.lean ====
section
/-! SUPPORT. Every operation of Machine/Firmware.lean keeps the invariant of Safety.lean, leaves the
queue alone and changes no part outside those that the world `p` allows. -/

set_option Elab.async false

namespace Sys2Proof.Machine

theorem updUpdate_kept {p a0 s} (h : Kept p s)
    (al : autoParam (Allows p 8589934592) emit_kept._auto_1) : Kept p (updUpdate a0 s) := by
  unfold updUpdate
  exact (updPower_kept h)

theorem okUpdate_kept {p a0 s} (h : Kept p s)
    (al : autoParam (Allows p 1073741824) emit_kept._auto_1) : Kept p (okUpdate a0 s) := by
  unfold okUpdate
  exact (okCmd_kept h)

theorem runUpdate_kept {p a0 a1 a2 a3 a4 a5 s} (h : Kept p s) (ga5 : ∀ y0 s, Kept p s → Kept p (a5 y0 s))
    (al : autoParam (Allows p 1073741824) emit_kept._auto_1) : KeptRes p (runUpdate a0 a1 a2 a3 a4 a5 s) := by
  unfold runUpdate
  refine runCommand_kept h (fun c x0 h0 => ?_)
  refine kept_ite (fun _ => ?_) (fun _ => ?_)
  · exact (endCmd_kept h0)
  · exact (ga5 _ _ h0)

theorem putChunk_kept {p a0 a1 s} (h : Kept p s)
    (al : autoParam (Allows p 8589934596) emit_kept._auto_1) : Kept p (putChunk a0 a1 s) := by
  unfold putChunk
  try dsimp only
  repeat' first
    | with_reducible assumption
    | exact Allows.sub al rfl
    | with_reducible refine flashWrite_kept ?_ ?_
    | with_reducible refine updPower_kept ?_ ?_
    | with_reducible refine kept_ite (fun _ => ?_) (fun _ => ?_)
    | split

theorem verifySlot_kept {p a0 s} (h : Kept p s)
    (al : autoParam (Allows p 10267656708) emit_kept._auto_1) : Kept p (verifySlot a0 s) := by
  unfold verifySlot
  extract_lets -merge -underBinder +onlyGivenNames x0
  try clear_value x0
  extract_lets -merge -underBinder +onlyGivenNames x1
  try clear_value x1
  extract_lets -merge -underBinder +onlyGivenNames x2
  have h2 : Kept p x2 := (updUpdate_kept h)
  clear_value x2
  refine kept_ite (fun _ => ?_) (fun _ => ?_)
  · extract_lets -merge -underBinder +onlyGivenNames x3
    have h3 : Kept p x3 := (updLedger_kept h2)
    clear_value x3
    exact (okUpdate_kept (saveLedger_kept (updUpdate_kept h3)))
  · exact (endCmd_kept (logErr_kept h2))

theorem execStage_kept {p a0 a1 s} (h : Kept p s)
    (al : autoParam (Allows p 10267656708) emit_kept._auto_1) : KeptRes p (execStage a0 a1 s) := by
  unfold execStage
  refine runUpdate_kept h (fun x1 s1 k1 => ?_)
  · try beta_reduce
    extract_lets -merge -underBinder +onlyGivenNames x2
    try clear_value x2
    refine kept_ite (fun _ => ?_) (fun _ => ?_)
    · exact (endCmd_kept k1)
    · refine kept_ite (fun _ => ?_) (fun _ => ?_)
      · exact (endCmd_kept k1)
      · extract_lets -merge -underBinder +onlyGivenNames x3
        have h3 : Kept p x3 := (putChunk_kept k1)
        clear_value x3
        extract_lets -merge -underBinder +onlyGivenNames x4
        have h4 : Kept p x4 := (updUpdate_kept h3)
        clear_value x4
        refine kept_ite (fun _ => ?_) (fun _ => ?_)
        · exact (verifySlot_kept h4)
        · exact (okUpdate_kept h4)

theorem setSwitchStep_kept {p a0 s} (h : Kept p s)
    (al : autoParam (Allows p 8589934592) emit_kept._auto_1) : Kept p (setSwitchStep a0 s) := by
  unfold setSwitchStep
  exact (updUpdate_kept h)

theorem switchHalt_kept {p s} (h : Kept p s)
    (al : autoParam (Allows p 8589934720) emit_kept._auto_1) : Kept p (switchHalt s) := by
  unfold switchHalt
  refine kept_ite (fun _ => ?_) (fun _ => ?_)
  · exact h
  · exact (setSwitchStep_kept (requestHalt_kept h))

theorem execSwitch_kept {p a0 a1 s} (h : Kept p s)
    (al : autoParam (Allows p 9663676544) emit_kept._auto_1) : KeptRes p (execSwitch a0 a1 s) := by
  unfold execSwitch
  refine runUpdate_kept h (fun x1 s1 k1 => ?_)
  · try beta_reduce
    refine kept_ite (fun _ => ?_) (fun _ => ?_)
    · exact (endCmd_kept k1)
    · exact (switchHalt_kept (updUpdate_kept k1))

theorem switchStart_kept {p s} (h : Kept p s)
    (al : autoParam (Allows p 13522436612) emit_kept._auto_1) : Kept p (switchStart s) := by
  unfold switchStart
  extract_lets -merge -underBinder +onlyGivenNames x0
  have h0 : Kept p x0 := (breakLocks_kept (sendPeerState_kept h))
  clear_value x0
  exact (setSwitchStep_kept (updUpdate_kept h0))

theorem switchOn_kept {p s} (h : Kept p s)
    (al : autoParam (Allows p 13522469380) emit_kept._auto_1) : Kept p (switchOn s) := by
  unfold switchOn
  refine kept_ite (fun _ => ?_) (fun _ => ?_)
  · exact h
  · extract_lets -merge -underBinder +onlyGivenNames x0
    have h0 : Kept p x0 := by
      refine setSwitchStep_kept ?_
      exact { h with fountains := (List.length_map ..).trans h.fountains, frame := framedOf (h).frame al }
    clear_value x0
    refine kept_ite (fun _ => ?_) (fun _ => ?_)
    · exact (switchStart_kept h0)
    · exact h0

theorem execScoreHalted_kept {p s} (h : Kept p s)
    (al : autoParam (Allows p 16760422022) emit_kept._auto_1) : KeptRes p (execScoreHalted s) := by
  unfold execScoreHalted
  refine keptRes_ite (fun _ => ?_) (fun _ => ?_)
  · exact keptRes_next h
  · split
    · refine keptRes_doneIf ?_ ?_
      · exact (installPackage_kept h)
      · exact h
    · split
      · exact keptRes_next (switchHalt_kept h)
      · exact keptRes_next (switchOn_kept h)
      · refine keptRes_next ?_
        refine kept_ite (fun _ => ?_) (fun _ => ?_)
        · exact (switchStart_kept h)
        · exact h
      · exact keptRes_next h

theorem resumeScore_kept {p s} (h : Kept p s)
    (al : autoParam (Allows p 128) emit_kept._auto_1) : Kept p (resumeScore s) := by
  unfold resumeScore
  extract_lets -merge -underBinder +onlyGivenNames x0
  try clear_value x0
  refine kept_ite (fun _ => ?_) (fun _ => ?_)
  · exact (updScore_kept h (fun _ h => { h with }))
  · exact h

theorem resumeService_kept {p s} (h : Kept p s)
    (al : autoParam (Allows p 14743486366) emit_kept._auto_1) : Kept p (resumeService s) := by
  unfold resumeService
  extract_lets waiting pause t u v
  have ht : Kept p t := updBand_kept h fun _ h => { h with }
  have hu : Kept p u :=
    resumeScore_kept { ht with fountains := (List.length_map ..).trans ht.fountains, frame := framedOf ht.frame al }
  exact kept_foldl (updUpdate_kept hu) fun _ _ h => requestReset_kept h

theorem endSwitch_kept {p a0 a1 s} (h : Kept p s)
    (al : autoParam (Allows p 1677723140) emit_kept._auto_1) : Kept p (endSwitch a0 a1 s) := by
  unfold endSwitch
  split
  · refine kept_ite (fun _ => ?_) (fun _ => ?_)
    · exact (bufCmd_kept h)
    · exact (okUpdate_kept h)
  · exact h

theorem execUpdateResume_kept {p s} (h : Kept p s)
    (al : autoParam (Allows p 14743486366) emit_kept._auto_1) : KeptRes p (execUpdateResume s) := by
  unfold execUpdateResume
  split
  · extract_lets -merge -underBinder +onlyGivenNames x0
    try clear_value x0
    extract_lets -merge -underBinder +onlyGivenNames x1
    have h1 : Kept p x1 := (updPower_kept h)
    clear_value x1
    refine keptRes_doneIf ?_ ?_
    · exact (endSwitch_kept (resumeService_kept h1))
    · exact h
  · exact keptRes_next h

theorem execUpdateRevert_kept {p s} (h : Kept p s)
    (al : autoParam (Allows p 14743486366) emit_kept._auto_1) : KeptRes p (execUpdateRevert s) := by
  unfold execUpdateRevert
  split
  · extract_lets -merge -underBinder +onlyGivenNames x0
    have h0 : Kept p x0 := (resumeService_kept (breakLocks_kept h))
    clear_value x0
    extract_lets -merge -underBinder +onlyGivenNames x1
    have h1 : Kept p x1 := by
      unfold x1
      split
      · exact (finishCmd_kept h0)
      · exact h0
    clear_value x1
    refine keptRes_doneIf ?_ ?_
    · exact h1
    · exact h
  · exact keptRes_next h

theorem execCommit_kept {p a0 a1 s} (h : Kept p s)
    (al : autoParam (Allows p 9663676420) emit_kept._auto_1) : KeptRes p (execCommit a0 a1 s) := by
  unfold execCommit
  refine runUpdate_kept h (fun x1 s1 k1 => ?_)
  · try beta_reduce
    refine kept_ite (fun _ => ?_) (fun _ => ?_)
    · exact (endCmd_kept k1)
    · extract_lets -merge -underBinder +onlyGivenNames x2
      try clear_value x2
      extract_lets -merge -underBinder +onlyGivenNames x3
      try clear_value x3
      extract_lets -merge -underBinder +onlyGivenNames x4
      have h4 : Kept p x4 := (updPower_kept k1)
      clear_value x4
      exact (okUpdate_kept (saveLedger_kept (updLedger_kept h4)))

theorem execLedgerClear_kept {p a0 a1 s} (h : Kept p s)
    (al : autoParam (Allows p 9663676420) emit_kept._auto_1) : KeptRes p (execLedgerClear a0 a1 s) := by
  unfold execLedgerClear
  refine runUpdate_kept h (fun x1 s1 k1 => ?_)
  · try beta_reduce
    extract_lets -merge -underBinder +onlyGivenNames x2
    try clear_value x2
    exact (okUpdate_kept (saveLedger_kept (updLedger_kept k1)))

theorem execLedgerSizes_kept {p a0 a1 s} (h : Kept p s)
    (al : autoParam (Allows p 9663676420) emit_kept._auto_1) : KeptRes p (execLedgerSizes a0 a1 s) := by
  unfold execLedgerSizes
  refine runUpdate_kept h (fun x1 s1 k1 => ?_)
  · try beta_reduce
    extract_lets -merge -underBinder +onlyGivenNames x2
    try clear_value x2
    refine kept_ite (fun _ => ?_) (fun _ => ?_)
    · exact (endCmd_kept k1)
    · exact (okUpdate_kept (saveLedger_kept (updLedger_kept k1)))

end Sys2Proof.Machine
end

