-- ==== Sys2Proof/Laws/KeptDiag.lean ====
section
/-! SUPPORT. Every operation of Machine/Diag.lean keeps the invariant of Safety.lean, leaves the
queue alone and changes no part outside those that the world `p` allows. -/

set_option Elab.async false

namespace Sys2Proof.Machine

theorem writePool_kept {p a0 a1 a2 a3 s} (h : Kept p s)
    (al : autoParam (Allows p 612368900) emit_kept._auto_1) : Kept p (writePool a0 a1 a2 a3 s) := by
  unfold writePool
  try dsimp only
  repeat' first
    | with_reducible assumption
    | exact Allows.sub al rfl
    | with_reducible refine updPool_kept ?_ ?_
    | with_reducible refine logErr_kept ?_ ?_
    | with_reducible refine kept_ite (fun _ => ?_) (fun _ => ?_)
    | split

theorem writeIsland_kept {p a0 a1 a2 s} (h : Kept p s)
    (al : autoParam (Allows p 629148164) emit_kept._auto_1) : Kept p (writeIsland a0 a1 a2 s) := by
  unfold writeIsland
  try dsimp only
  repeat' first
    | with_reducible assumption
    | exact Allows.sub al rfl
    | with_reducible refine putSource_kept ?_ ?_
    | with_reducible refine writePool_kept ?_ ?_
    | with_reducible refine updChan_kept ?_ ?_
    | with_reducible refine kept_ite (fun _ => ?_) (fun _ => ?_)
    | split
    | exact { h with frame := framedOf h.frame al }

end Sys2Proof.Machine
end

