-- ==== Sys2Proof/Laws/KeptGatehouse.lean ====
section
/-! SUPPORT. Every operation of Machine/Gatehouse.lean keeps the invariant of Safety.lean, leaves the
queue alone and changes no part outside those that the world `p` allows. -/

set_option Elab.async false

namespace Sys2Proof.Machine

theorem setBadAcc_kept {p s} (h : Kept p s)
    (al : autoParam (Allows p 268435456) emit_kept._auto_1) : Kept p (setBadAcc s) := by
  unfold setBadAcc
  exact (orReg_kept h)

theorem setKeyRej_kept {p s} (h : Kept p s)
    (al : autoParam (Allows p 268435456) emit_kept._auto_1) : Kept p (setKeyRej s) := by
  unfold setKeyRej
  exact (orReg_kept h)

theorem holdKey_kept {p a0 a1 s} (h : Kept p s)
    (al : autoParam (Allows p 536870912) emit_kept._auto_1) : Kept p (holdKey a0 a1 s) := by
  unfold holdKey
  exact (updGate_kept h (fun _ h => by (repeat' split) <;> first | exact h | exact { h with }))

theorem guarded_kept {p a0 a1 a2 a3 a4 s} (h : Kept p s) (ga4 : ∀  s, Kept p s → Kept p (a4  s))
    (al : autoParam (Allows p 872415748) emit_kept._auto_1) : Kept p (guarded a0 a1 a2 a3 a4 s) := by
  unfold guarded
  try dsimp only
  repeat' first
    | with_reducible assumption
    | exact Allows.sub al rfl
    | with_reducible refine ga4 _ ?_
    | exact ga4
    | with_reducible refine holdKey_kept ?_ ?_
    | with_reducible refine setKeyRej_kept ?_ ?_
    | with_reducible refine logErr_kept ?_ ?_
    | with_reducible refine kept_ite (fun _ => ?_) (fun _ => ?_)
    | split

theorem ringError_kept {p a0 a1 s} (h : Kept p s)
    (al : autoParam (Allows p 872415748) emit_kept._auto_1) : Kept p (ringError a0 a1 s) := by
  unfold ringError
  exact (setRingStatus_kept (logErr_kept h))

theorem answerRead_kept {p a0 s} (h : Kept p s)
    (al : autoParam (Allows p 872415748) emit_kept._auto_1) : Kept p (answerRead a0 s) := by
  unfold answerRead
  try dsimp only
  repeat' first
    | with_reducible assumption
    | exact Allows.sub al rfl
    | with_reducible refine emit_kept ?_ ?_
    | with_reducible refine setBadAcc_kept ?_ ?_
    | with_reducible refine badRequest_kept ?_ ?_
    | with_reducible refine kept_ite (fun _ => ?_) (fun _ => ?_)
    | split

theorem startSq_kept {p a0 s} (h : Kept p s)
    (al : autoParam (Allows p 1946157572) emit_kept._auto_1) : Kept p (startSq a0 s) := by
  unfold startSq
  extract_lets -merge -underBinder +onlyGivenNames x0
  try clear_value x0
  refine kept_ite (fun _ => ?_) (fun _ => ?_)
  · exact h
  · refine kept_ite (fun _ => ?_) (fun _ => ?_)
    · exact (ringError_kept h)
    · exact (updSq_kept h)

theorem startCq_kept {p s} (h : Kept p s)
    (al : autoParam (Allows p 1946157572) emit_kept._auto_1) : Kept p (startCq s) := by
  unfold startCq
  extract_lets -merge -underBinder +onlyGivenNames x0
  try clear_value x0
  refine kept_ite (fun _ => ?_) (fun _ => ?_)
  · exact h
  · refine kept_ite (fun _ => ?_) (fun _ => ?_)
    · exact (ringError_kept h)
    · exact (updMbx_kept h (fun _ h => { h with }))

theorem enableRings_kept {p a0 a1 s} (h : Kept p s)
    (al : autoParam (Allows p 1946157572) emit_kept._auto_1) : Kept p (enableRings a0 a1 s) := by
  unfold enableRings
  try dsimp only
  repeat' first
    | with_reducible assumption
    | exact Allows.sub al rfl
    | exact fun _ h => h
    | exact fun _ h => { h with }
    | exact fun _ => rfl
    | exact fun _ => ⟨rfl, rfl⟩
    | with_reducible refine setReg_kept ?_ ?_
    | with_reducible refine updGate_kept ?_ ?_ ?_ ?_
    | with_reducible refine startSq_kept ?_ ?_
    | with_reducible refine settleRing_kept ?_ ?_
    | with_reducible refine startCq_kept ?_ ?_
    | with_reducible refine updMbx_kept ?_ ?_ ?_
    | with_reducible refine kept_foldl ?_ (fun _ _ _ => ?_)
    | with_reducible refine kept_foldl_snd ?_ (fun _ _ _ => ?_)
    | with_reducible refine kept_foldl_fst ?_ (fun _ _ _ => ?_)
    | with_reducible refine kept_ite (fun _ => ?_) (fun _ => ?_)
    | dsimp only
    | split

theorem moveErrTail_kept {p n s} (h : Kept p s)
    (al : autoParam (Allows p 603980292) emit_kept._auto_1) : Kept p (moveErrTail n s) := by
  unfold moveErrTail
  refine kept_ite (fun c => { h with frame := framedOf h.frame al, err := ⟨Nat.mod_lt _ (Nat.two_pow_pos _), c⟩ }) (fun _ => logErr_kept h)

theorem writeIslrst_kept {p a0 a1 s} (h : Kept p s)
    (al : autoParam (Allows p 15011921814) emit_kept._auto_1) : Kept p (writeIslrst a0 a1 s) := by
  unfold writeIslrst
  try dsimp only
  repeat' first
    | with_reducible assumption
    | exact Allows.sub al rfl
    | exact fun _ h => h
    | exact fun _ h => { h with }
    | exact fun _ => rfl
    | exact fun _ => ⟨rfl, rfl⟩
    | with_reducible refine setReg_kept ?_ ?_
    | with_reducible refine requestReset_kept ?_ ?_
    | with_reducible refine updGate_kept ?_ ?_ ?_ ?_
    | with_reducible refine kept_ite (fun _ => ?_) (fun _ => ?_)
    | split

theorem writeDevrst_kept {p a0 a1 s} (h : Kept p s)
    (al : autoParam (Allows p 17179869183) emit_kept._auto_1) : Kept p (writeDevrst a0 a1 s) := by
  unfold writeDevrst
  refine kept_ite (fun _ => ?_) (fun _ => ?_)
  · exact (flushedReset_kept h)
  · exact h

theorem writeScope_kept {p a0 a1 s} (h : Kept p s)
    (al : autoParam (Allows p 8858370052) emit_kept._auto_1) : Kept p (writeScope a0 a1 s) := by
  unfold writeScope
  refine kept_ite (fun _ => ?_) (fun _ => ?_)
  · exact h
  · extract_lets -merge -underBinder +onlyGivenNames x0
    try clear_value x0
    exact (saveLedger_kept (updLedger_kept (setReg_kept h)))

theorem putBits_kept {p a0 a1 a2 a3 s} (h : Kept p s)
    (al : autoParam (Allows p 268435456) emit_kept._auto_1) : Kept p (putBits a0 a1 a2 a3 s) := by
  unfold putBits
  exact (setReg_kept h)

theorem putBase_ringConfig_kept {p a0 s} (h : Kept p s)
    (al : autoParam (Allows p 603980292) emit_kept._auto_1) : Kept p (putBase.ringConfig a0 s) := by
  unfold putBase.ringConfig
  exact (logErr_kept h)

theorem putBase_kept {p a0 a1 a2 a3 a4 s} (h : Kept p s)
    (al : autoParam (Allows p 872415748) emit_kept._auto_1) : Kept p (putBase a0 a1 a2 a3 a4 s) := by
  unfold putBase
  refine kept_ite (fun _ => h) (fun _ => kept_ite (fun _ => ?_) (fun _ => ?_))
  · exact (putBase_ringConfig_kept h)
  · exact (putBits_kept h)

theorem writeGhs_kept {p a0 a1 a2 s} (h : Kept p s)
    (al : autoParam (Allows p 805306372) emit_kept._auto_1) : Kept p (writeGhs a0 a1 a2 s) := by
  unfold writeGhs
  try dsimp only
  repeat' first
    | with_reducible assumption
    | exact Allows.sub al rfl
    | with_reducible refine clrReg_kept ?_ ?_
    | with_reducible refine withCauses_kept ?_ (fun _ _ => ?_) ?_
    | with_reducible refine putBits_kept ?_ ?_
    | with_reducible refine kept_ite (fun _ => ?_) (fun _ => ?_)
    | split

theorem writeDbl_kept {p a0 a1 a2 s} (h : Kept p s)
    (al : autoParam (Allows p 1946157572) emit_kept._auto_1) : Kept p (writeDbl a0 a1 a2 s) := by
  unfold writeDbl
  refine kept_ite (fun _ => ?_) (fun _ => ?_)
  · exact (putBase_kept h)
  · refine kept_ite (fun _ => ?_) (fun _ => ?_)
    · exact (putBase_kept h)
    · refine kept_ite (fun _ => ?_) (fun _ => ?_)
      · extract_lets -merge -underBinder +onlyGivenNames x0
        try clear_value x0
        extract_lets -merge -underBinder +onlyGivenNames x1
        have h1 : Kept p x1 := (putBits_kept h)
        clear_value x1
        refine kept_ite (fun _ => ?_) (fun _ => ?_)
        · exact (logErr_kept h1)
        · exact h1
      · refine kept_ite (fun _ => ?_) (fun _ => ?_)
        · extract_lets -merge -underBinder +onlyGivenNames x2
          try clear_value x2
          exact (enableRings_kept h)
        · exact h

theorem writeTim_kept {p a0 a1 a2 s} (h : Kept p s)
    (al : autoParam (Allows p 805306372) emit_kept._auto_1) : Kept p (writeTim a0 a1 a2 s) := by
  unfold writeTim
  refine kept_ite (fun _ => ?_) (fun _ => ?_)
  · exact (withCauses_kept h (fun _ k0 => (clrReg_kept k0)))
  · refine kept_ite (fun _ => ?_) (fun _ => ?_)
    · exact (withCauses_kept h (fun _ k1 => (putBits_kept k1)))
    · exact h

theorem writeErr_kept {p a0 a1 a2 s} (h : Kept p s)
    (al : autoParam (Allows p 872415748) emit_kept._auto_1) : Kept p (writeErr a0 a1 a2 s) := by
  unfold writeErr
  refine kept_ite (fun _ => ?_) (fun _ => ?_)
  · exact (moveErrTail_kept h)
  · refine kept_ite (fun _ => ?_) (fun _ => ?_)
    · extract_lets -merge -underBinder +onlyGivenNames x0
      try clear_value x0
      exact (withCauses_kept h (fun _ k1 => (updErr_kept k1 (fun _ h => { h with }))))
    · refine kept_ite (fun _ => ?_) (fun _ => ?_)
      · exact (withCauses_kept h (fun _ k2 => (putBits_kept k2)))
      · exact h

theorem writePwr_kept {p a0 a1 a2 s} (h : Kept p s)
    (al : autoParam (Allows p 17179869183) emit_kept._auto_1) : Kept p (writePwr a0 a1 a2 s) := by
  unfold writePwr
  refine kept_ite (fun _ => ?_) (fun _ => ?_)
  · exact (guarded_kept h (fun _ k0 => (writeIslrst_kept k0)))
  · refine kept_ite (fun _ => ?_) (fun _ => ?_)
    · exact (guarded_kept h (fun _ k1 => (writeDevrst_kept k1)))
    · refine kept_ite (fun _ => ?_) (fun _ => ?_)
      · exact (guarded_kept h (fun _ k2 => (writeScope_kept k2)))
      · exact h

theorem writeDia_kept {p a0 a1 a2 s} (h : Kept p s)
    (al : autoParam (Allows p 872415748) emit_kept._auto_1) : Kept p (writeDia a0 a1 a2 s) := by
  unfold writeDia
  refine kept_ite (fun _ => ?_) (fun _ => ?_)
  · exact (guarded_kept h (fun _ k0 => (putBits_kept k0)))
  · refine kept_ite (fun _ => ?_) (fun _ => ?_)
    · exact (putBits_kept h)
    · refine kept_ite (fun _ => ?_) (fun _ => ?_)
      · exact (clrReg_kept h)
      · exact h

theorem writeBits_kept {p a0 a1 a2 s} (h : Kept p s)
    (al : autoParam (Allows p 17179869183) emit_kept._auto_1) : Kept p (writeBits a0 a1 a2 s) := by
  unfold writeBits
  split
  · exact (writeGhs_kept h)
  · exact (writeDbl_kept h)
  · exact (writeTim_kept h)
  · exact (writeErr_kept h)
  · exact (writePwr_kept h)
  · exact (writeDia_kept h)
  · exact h

theorem acceptStamp_kept {p s} (h : Kept p s)
    (al : autoParam (Allows p 2) emit_kept._auto_1) : KeptSnd p (acceptStamp s) := by
  unfold acceptStamp
  split
  · rename_i e0
    have h0 := keptSnd_eq (freeNat_kept h) e0
    exact keptSnd_mk h0

theorem ringSq_kept {p a0 a1 s} (h : Kept p s)
    (al : autoParam (Allows p 1946157574) emit_kept._auto_1) : Kept p (ringSq a0 a1 s) := by
  unfold ringSq
  split
  · exact h
  · refine kept_ite (fun _ => ?_) (fun _ => ?_)
    · exact h
    · extract_lets -merge -underBinder +onlyGivenNames x0
      try clear_value x0
      refine kept_ite (fun _ => ?_) (fun _ => ?_)
      · split
        · rename_i e1
          have h1 := keptSnd_eq (acceptStamp_kept h) e1
          exact (updSq_kept h1)
      · exact (updSq_kept (ringError_kept h))

theorem ringCq_kept {p a0 s} (h : Kept p s)
    (al : autoParam (Allows p 1946157572) emit_kept._auto_1) : Kept p (ringCq a0 s) := by
  unfold ringCq
  refine kept_ite (fun _ => ?_) (fun _ => ?_)
  · exact h
  · refine kept_ite (fun _ => ?_) (fun _ => ?_)
    · exact (updMbx_kept h (fun _ h => { h with }))
    · exact (updMbx_kept (ringError_kept h) (fun _ h => { h with }))

theorem ringDr_kept {p a0 a1 s} (h : Kept p s)
    (al : autoParam (Allows p 1946157572) emit_kept._auto_1) : Kept p (ringDr a0 a1 s) := by
  unfold ringDr
  try dsimp only
  repeat' first
    | with_reducible assumption
    | exact Allows.sub al rfl
    | with_reducible refine ringError_kept ?_ ?_
    | with_reducible refine updRing_kept ?_ ?_
    | with_reducible refine kept_ite (fun _ => ?_) (fun _ => ?_)
    | split

theorem snapTime_kept {p s} (h : Kept p s)
    (al : autoParam (Allows p 268435458) emit_kept._auto_1) : Kept p (snapTime s) := by
  unfold snapTime
  split
  · rename_i e0
    have h0 := keptSnd_eq (acceptStamp_kept h) e0
    extract_lets -merge -underBinder +onlyGivenNames x1
    have h1 : Kept p x1 := (setReg_kept (setReg_kept h0))
    clear_value x1
    exact (setReg_kept h1)

theorem writeKey_kept {p a0 a1 s} (h : Kept p s)
    (al : autoParam (Allows p 536870912) emit_kept._auto_1) : Kept p (writeKey a0 a1 s) := by
  unfold writeKey
  exact (holdKey_kept h)

theorem writeLck_kept {p a0 a1 s} (h : Kept p s)
    (al : autoParam (Allows p 838860804) emit_kept._auto_1) : Kept p (writeLck a0 a1 s) := by
  unfold writeLck
  try dsimp only
  repeat' first
    | with_reducible assumption
    | exact Allows.sub al rfl
    | with_reducible refine setReg_kept ?_ ?_
    | with_reducible refine giveLock_kept ?_ ?_
    | with_reducible refine kept_ite (fun _ => ?_) (fun _ => ?_)
    | split

theorem writeTable_kept {p a0 a1 s} (h : Kept p s)
    (al : autoParam (Allows p 536870916) emit_kept._auto_1) : Kept p (writeTable a0 a1 s) := by
  unfold writeTable
  extract_lets -merge -underBinder +onlyGivenNames x0
  have h0 : Kept p x0 := (updGate_kept h (fun _ h => { h with msix := by simpa using h.msix }))
  clear_value x0
  exact (releasePba_kept h0)

theorem denyWindow_kept {p s} (h : Kept p s)
    (al : autoParam (Allows p 268435456) emit_kept._auto_1) : Kept p (denyWindow s) := by
  unfold denyWindow
  exact (orReg_kept h)

theorem windowReset_kept {p s} (h : Kept p s)
    (al : autoParam (Allows p 268435456) emit_kept._auto_1) : Kept p (windowReset s) := by
  unfold windowReset
  exact (setReg_kept (orReg_kept h))

theorem diagWrite_kept {p a0 a1 s} (h : Kept p s)
    (al : autoParam (Allows p 897583620) emit_kept._auto_1) : Kept p (diagWrite a0 a1 s) := by
  unfold diagWrite
  try dsimp only
  repeat' first
    | with_reducible assumption
    | exact Allows.sub al rfl
    | with_reducible refine denyWindow_kept ?_ ?_
    | with_reducible refine windowReset_kept ?_ ?_
    | with_reducible refine guarded_kept ?_ (fun _ _ => ?_) ?_
    | with_reducible refine writeIsland_kept ?_ ?_
    | with_reducible refine kept_ite (fun _ => ?_) (fun _ => ?_)
    | split

theorem diagRead_kept {p a0 s} (h : Kept p s)
    (al : autoParam (Allows p 268435458) emit_kept._auto_1) : KeptSnd p (diagRead a0 s) := by
  unfold diagRead
  extract_lets x
  clear_value x
  refine keptSnd_ite (fun _ => keptSnd_mk (denyWindow_kept h)) (fun _ => ?_)
  refine keptSnd_ite (fun _ => keptSnd_mk (windowReset_kept h)) (fun _ => ?_)
  split
  · exact keptSnd_mk h
  · exact keptSnd_mk { h with frame := framedOf h.frame al }

theorem writeBar0_kept {p a0 a1 s} (h : Kept p s)
    (al : autoParam (Allows p 17179869183) emit_kept._auto_1) : Kept p (writeBar0 a0 a1 s) := by
  unfold writeBar0
  try dsimp only
  repeat' first
    | with_reducible assumption
    | exact Allows.sub al rfl
    | with_reducible refine setBadAcc_kept ?_ ?_
    | with_reducible refine badRequest_kept ?_ ?_
    | with_reducible refine diagWrite_kept ?_ ?_
    | with_reducible refine writeTable_kept ?_ ?_
    | with_reducible refine writeBits_kept ?_ ?_
    | with_reducible refine writeLck_kept ?_ ?_
    | with_reducible refine writeKey_kept ?_ ?_
    | with_reducible refine snapTime_kept ?_ ?_
    | with_reducible refine ringSq_kept ?_ ?_
    | with_reducible refine ringCq_kept ?_ ?_
    | with_reducible refine ringDr_kept ?_ ?_
    | with_reducible refine kept_ite (fun _ => ?_) (fun _ => ?_)
    | split

theorem execRegisterWrite_kept {p a0 a1 a2 s} (h : Kept p s)
    (al : autoParam (Allows p 17179869183) emit_kept._auto_1) : KeptRes p (execRegisterWrite a0 a1 a2 s) := by
  unfold execRegisterWrite
  refine keptRes_inRange ?_ h
  refine keptRes_next ?_
  refine hostWrites_kept h (fun s2 k2 => ?_)
  · try beta_reduce
    refine kept_ite (fun _ => ?_) (fun _ => ?_)
    · exact (writeBar0_kept k2)
    · exact (setBadAcc_kept (logErr_kept k2))

theorem execKeylockWrite_kept {p a0 a1 s} (h : Kept p s)
    (al : autoParam (Allows p 603980292) emit_kept._auto_1) : KeptRes p (execKeylockWrite a0 a1 s) := by
  unfold execKeylockWrite
  exact keptRes_next ((hostWrites_kept h (fun _ k0 => (writeKey_kept k0))))

theorem execKeylockExpiry_kept {p a0 s} (h : Kept p s)
    (al : autoParam (Allows p 536870912) emit_kept._auto_1) : KeptRes p (execKeylockExpiry a0 s) := by
  unfold execKeylockExpiry
  split
  · refine keptRes_doneIf ?_ ?_
    · exact (holdKey_kept h)
    · exact h
  · exact keptRes_next h

theorem execSqDoorbell_kept {p a0 a1 s} (h : Kept p s)
    (al : autoParam (Allows p 1946157574) emit_kept._auto_1) : KeptRes p (execSqDoorbell a0 a1 s) := by
  unfold execSqDoorbell
  exact keptRes_inRange (keptRes_next ((hostWrites_kept h (fun _ k0 => (ringSq_kept k0))))) h

theorem execCqDoorbell_kept {p a0 s} (h : Kept p s)
    (al : autoParam (Allows p 1946157572) emit_kept._auto_1) : KeptRes p (execCqDoorbell a0 s) := by
  unfold execCqDoorbell
  exact keptRes_inRange (keptRes_next ((hostWrites_kept h (fun _ k0 => (ringCq_kept k0))))) h

theorem execDrDoorbell_kept {p a0 a1 s} (h : Kept p s)
    (al : autoParam (Allows p 1946157572) emit_kept._auto_1) : KeptRes p (execDrDoorbell a0 a1 s) := by
  unfold execDrDoorbell
  exact keptRes_inRange (keptRes_next ((hostWrites_kept h (fun _ k0 => (ringDr_kept k0))))) h

theorem execRingEnable_kept {p a0 s} (h : Kept p s)
    (al : autoParam (Allows p 1946157572) emit_kept._auto_1) : KeptRes p (execRingEnable a0 s) := by
  unfold execRingEnable
  exact keptRes_next ((hostWrites_kept h (fun _ k0 => (writeDbl_kept k0))))

theorem execTimNsRead_kept {p a0 s} (h : Kept p s)
    (al : autoParam (Allows p 603980292) emit_kept._auto_1) : KeptRes p (execTimNsRead a0 s) := by
  unfold execTimNsRead
  refine keptRes_next ?_
  refine hostReads_kept h (fun s2 k2 => ?_)
  · try beta_reduce
    extract_lets -merge -underBinder +onlyGivenNames x3
    try clear_value x3
    refine keptSnd_ite (fun _ => ?_) (fun _ => ?_)
    · exact keptSnd_mk k2
    · extract_lets -merge -underBinder +onlyGivenNames x4
      try clear_value x4
      exact keptSnd_mk ((updGate_kept k2 (fun _ h => { h with })))

theorem execTimSnap_kept {p s} (h : Kept p s)
    (al : autoParam (Allows p 872415750) emit_kept._auto_1) : KeptRes p (execTimSnap s) := by
  unfold execTimSnap
  exact keptRes_next ((hostWrites_kept h (fun _ k0 => (snapTime_kept k0))))

theorem execErrTailWrite_kept {p a0 s} (h : Kept p s)
    (al : autoParam (Allows p 603980292) emit_kept._auto_1) : KeptRes p (execErrTailWrite a0 s) := by
  unfold execErrTailWrite
  exact keptRes_inRange (keptRes_next ((hostWrites_kept h (fun _ k0 => (moveErrTail_kept k0))))) h

theorem execIslandResetGo_kept {p a0 s} (h : Kept p s)
    (al : autoParam (Allows p 17179869183) emit_kept._auto_1) : KeptRes p (execIslandResetGo a0 s) := by
  unfold execIslandResetGo
  exact keptRes_next ((hostWrites_kept h (fun _ k0 => (writePwr_kept k0))))

theorem execDeviceResetGo_kept {p a0 s} (h : Kept p s)
    (al : autoParam (Allows p 17179869183) emit_kept._auto_1) : KeptRes p (execDeviceResetGo a0 s) := by
  unfold execDeviceResetGo
  exact keptRes_next ((hostWrites_kept h (fun _ k0 => (writePwr_kept k0))))

theorem execDiagWindowAccess_kept {p a0 a1 a2 s} (h : Kept p s)
    (al : autoParam (Allows p 17179869183) emit_kept._auto_1) : KeptRes p (execDiagWindowAccess a0 a1 a2 s) := by
  unfold execDiagWindowAccess
  try dsimp only
  repeat' first
    | with_reducible assumption
    | exact Allows.sub al rfl
    | with_reducible refine hostWrites_kept ?_ (fun _ _ => ?_) ?_
    | with_reducible refine writeBar0_kept ?_ ?_
    | with_reducible refine hostReads_kept ?_ (fun _ _ => ?_) ?_
    | with_reducible refine diagRead_kept ?_ ?_
    | refine keptSnd_eq (diagRead_kept ?_ ?_) (by assumption)
    | refine (diagRead_kept ?_ ?_ : KeptSnd p _)
    | with_reducible refine keptRes_inRange ?_ ?_
    | with_reducible refine keptRes_doneIf ?_ ?_
    | with_reducible refine keptRes_ite (fun _ => ?_) (fun _ => ?_)
    | with_reducible refine keptRes_done ?_
    | with_reducible refine keptRes_next ?_
    | with_reducible refine kept_ite (fun _ => ?_) (fun _ => ?_)
    | split

theorem apertureWrite_kept {p a0 a1 a2 s} (h : Kept p s)
    (al : autoParam (Allows p 9462352390) emit_kept._auto_1) : Kept p (apertureWrite a0 a1 a2 s) := by
  unfold apertureWrite
  extract_lets -merge -underBinder +onlyGivenNames x0
  try clear_value x0
  extract_lets -merge -underBinder +onlyGivenNames x1
  try clear_value x1
  split
  · rename_i e2
    have h2 := keptSnd_eq (freeBytes_kept h) e2
    extract_lets -merge -underBinder +onlyGivenNames x3
    try clear_value x3
    extract_lets -merge -underBinder +onlyGivenNames x4
    have h4 : Kept p x4 := (writePhys_kept h2)
    clear_value x4
    refine kept_ite (fun _ => ?_) (fun _ => ?_)
    · exact h4
    · exact (setBadAcc_kept (logErr_kept h4))

theorem noteAperture_kept {p a0 s} (h : Kept p s)
    (al : autoParam (Allows p 9193916932) emit_kept._auto_1) : Kept p (noteAperture a0 s) := by
  unfold noteAperture
  try dsimp only
  repeat' first
    | with_reducible assumption
    | exact Allows.sub al rfl
    | with_reducible refine unitRead_kept ?_ ?_
    | with_reducible refine countMix_kept ?_ ?_
    | with_reducible refine kept_foldl ?_ (fun _ _ _ => ?_)
    | with_reducible refine kept_foldl_snd ?_ (fun _ _ _ => ?_)
    | with_reducible refine kept_foldl_fst ?_ (fun _ _ _ => ?_)
    | dsimp only
    | split

theorem apertureRead_kept {p a0 a1 s} (h : Kept p s)
    (al : autoParam (Allows p 9462352390) emit_kept._auto_1) : KeptSnd p (apertureRead a0 a1 s) := by
  unfold apertureRead
  try dsimp only
  repeat' first
    | with_reducible assumption
    | exact Allows.sub al rfl
    | with_reducible refine freeBytes_kept ?_ ?_
    | refine keptSnd_eq (freeBytes_kept ?_ ?_) (by assumption)
    | refine (freeBytes_kept ?_ ?_ : KeptSnd p _)
    | with_reducible refine noteAperture_kept ?_ ?_
    | with_reducible refine setBadAcc_kept ?_ ?_
    | with_reducible refine logErr_kept ?_ ?_
    | with_reducible refine keptSnd_ite (fun _ => ?_) (fun _ => ?_)
    | with_reducible refine keptSnd_mk ?_
    | with_reducible refine kept_ite (fun _ => ?_) (fun _ => ?_)
    | split

theorem execApertureAccess_kept {p a0 a1 a2 s} (h : Kept p s)
    (al : autoParam (Allows p 9462356486) emit_kept._auto_1) : KeptRes p (execApertureAccess a0 a1 a2 s) := by
  unfold execApertureAccess
  refine keptRes_inRange ?_ h
  refine keptRes_next ?_
  refine kept_ite (fun _ => ?_) (fun _ => ?_)
  · exact (hostWrites_kept h (fun _ k0 => (apertureWrite_kept k0)))
  · exact (hostReads_kept h (fun _ k1 => (apertureRead_kept k1)))

theorem resumeSending_kept {p s} (h : Kept p s)
    (al : autoParam (Allows p 536872964) emit_kept._auto_1) : Kept p (resumeSending s) := by
  unfold resumeSending
  extract_lets -merge -underBinder +onlyGivenNames x0
  have h0 : Kept p x0 := by
    refine kept_ite (fun _ => ?_) (fun _ => ?_)
    · exact (releasePba_kept h)
    · exact (updateInta_kept h)
  clear_value x0
  exact (startReads_kept h0)

theorem setMsix_kept {p a0 a1 s} (h : Kept p s)
    (al : autoParam (Allows p 536870916) emit_kept._auto_1) : Kept p (setMsix a0 a1 s) := by
  unfold setMsix
  try dsimp only
  repeat' first
    | with_reducible assumption
    | exact Allows.sub al rfl
    | exact fun _ h => h
    | exact fun _ h => { h with }
    | exact fun _ => rfl
    | exact fun _ => ⟨rfl, rfl⟩
    | with_reducible refine emit_kept ?_ ?_
    | with_reducible refine updGate_kept ?_ ?_ ?_ ?_
    | with_reducible refine resendCauses_kept ?_ ?_
    | with_reducible refine releasePba_kept ?_ ?_
    | with_reducible refine updateInta_kept ?_ ?_
    | with_reducible refine prunePba_kept ?_ ?_
    | with_reducible refine kept_ite (fun _ => ?_) (fun _ => ?_)
    | split

theorem failWaiting_kept {p s} (h : Kept p s)
    (al : autoParam (Allows p 603982340) emit_kept._auto_1) : Kept p (failWaiting s) := by
  unfold failWaiting
  try dsimp only
  repeat' first
    | with_reducible assumption
    | exact Allows.sub al rfl
    | exact fun _ h => h
    | exact fun _ h => { h with }
    | exact fun _ => rfl
    | exact fun _ => ⟨rfl, rfl⟩
    | with_reducible refine updMem_kept ?_ ?_ (fun _ => ⟨rfl, rfl⟩) ?_
    | with_reducible refine failReads_kept ?_ ?_
    | split

theorem setPower_kept {p a0 s} (h : Kept p s)
    (al : autoParam (Allows p 603982340) emit_kept._auto_1) : Kept p (setPower a0 s) := by
  unfold setPower
  try dsimp only
  repeat' first
    | with_reducible assumption
    | exact Allows.sub al rfl
    | exact fun _ h => h
    | exact fun _ h => { h with }
    | exact fun _ => rfl
    | exact fun _ => ⟨rfl, rfl⟩
    | with_reducible refine updGate_kept ?_ ?_ ?_ ?_
    | with_reducible refine failWaiting_kept ?_ ?_
    | with_reducible refine resumeSending_kept ?_ ?_
    | with_reducible refine kept_ite (fun _ => ?_) (fun _ => ?_)
    | split

theorem setCfg_kept {p a0 a1 s} (h : Kept p s)
    (al : autoParam (Allows p 536870912) emit_kept._auto_1) : Kept p (setCfg a0 a1 s) := by
  unfold setCfg
  exact (updGate_kept h (fun _ h => { h with cfg := by split <;> [exact tabDel_rising h.cfg; exact tabPut_rising h.cfg] }))

theorem clearAer_kept {p a0 a1 s} (h : Kept p s)
    (al : autoParam (Allows p 536870912) emit_kept._auto_1) : Kept p (clearAer a0 a1 s) := by
  unfold clearAer
  exact (updGate_kept h (fun _ h => { h with }))

theorem writeCfg_kept {p a0 a1 a2 s} (h : Kept p s)
    (al : autoParam (Allows p 14879735300) emit_kept._auto_1) : Kept p (writeCfg a0 a1 a2 s) := by
  unfold writeCfg
  try dsimp only
  repeat' first
    | with_reducible assumption
    | exact Allows.sub al rfl
    | with_reducible refine setCfg_kept ?_ ?_
    | with_reducible refine resumeSending_kept ?_ ?_
    | with_reducible refine failWaiting_kept ?_ ?_
    | with_reducible refine setPower_kept ?_ ?_
    | with_reducible refine requestEndpointReset_kept ?_ ?_
    | with_reducible refine setMsix_kept ?_ ?_
    | with_reducible refine clearAer_kept ?_ ?_
    | with_reducible refine kept_ite (fun _ => ?_) (fun _ => ?_)
    | split

theorem execConfigRequest_kept {p a0 a1 a2 a3 s} (h : Kept p s)
    (al : autoParam (Allows p 14879735300) emit_kept._auto_1) : KeptRes p (execConfigRequest a0 a1 a2 a3 s) := by
  unfold execConfigRequest
  try dsimp only
  repeat' first
    | with_reducible assumption
    | exact Allows.sub al rfl
    | with_reducible refine emit_kept ?_ ?_
    | with_reducible refine writeCfg_kept ?_ ?_
    | with_reducible refine keptRes_inRange ?_ ?_
    | with_reducible refine keptRes_doneIf ?_ ?_
    | with_reducible refine keptRes_ite (fun _ => ?_) (fun _ => ?_)
    | with_reducible refine keptRes_done ?_
    | with_reducible refine keptRes_next ?_
    | with_reducible refine kept_ite (fun _ => ?_) (fun _ => ?_)
    | split

theorem execMsixEnable_kept {p a0 a1 s} (h : Kept p s)
    (al : autoParam (Allows p 536870916) emit_kept._auto_1) : KeptRes p (execMsixEnable a0 a1 s) := by
  unfold execMsixEnable
  refine keptRes_doneIf ?_ ?_
  · exact (setMsix_kept h)
  · exact h

theorem execVectorUnmask_kept {p a0 s} (h : Kept p s)
    (al : autoParam (Allows p 603980292) emit_kept._auto_1) : KeptRes p (execVectorUnmask a0 s) := by
  unfold execVectorUnmask
  exact keptRes_inRange (keptRes_next ((hostWrites_kept h (fun _ k0 => (writeTable_kept k0))))) h

theorem execPowerStateChange_kept {p a0 s} (h : Kept p s)
    (al : autoParam (Allows p 603982340) emit_kept._auto_1) : KeptRes p (execPowerStateChange a0 s) := by
  unfold execPowerStateChange
  refine keptRes_doneIf ?_ ?_
  · exact (setPower_kept h)
  · exact h

theorem resetGate_kept {p s} (h : Kept p s)
    (al : autoParam (Allows p 872415232) emit_kept._auto_1) : Kept p (resetGate s) := by
  unfold resetGate
  extract_lets -merge -underBinder +onlyGivenNames x0
  have r0 : TabRising x0 := endpointRegs_rising
  clear_value x0
  extract_lets -merge -underBinder +onlyGivenNames x1
  have h1 : Kept p x1 := (updGateAll_kept h fun _ _ => ⟨List.length_replicate .., tabDel_rising r0, State.reset_sound.gate.cfg⟩)
  clear_value x1
  exact (updErr_kept h1 (fun _ _ => ⟨by simp, by simp [logUsed]⟩))

theorem assertPerst_kept {p s} (h : Kept p s)
    (al : autoParam (Allows p 17179869183) emit_kept._auto_1) : Kept p (assertPerst s) := by
  unfold assertPerst
  try dsimp only
  repeat' first
    | with_reducible assumption
    | exact Allows.sub al rfl
    | with_reducible refine updPower_kept ?_ ?_
    | with_reducible refine sessionEnd_kept ?_ ?_
    | with_reducible refine resetGate_kept ?_ ?_
    | with_reducible refine flushedReset_kept ?_ ?_
    | with_reducible refine kept_ite (fun _ => ?_) (fun _ => ?_)
    | split

theorem execFundamentalReset_kept {p s} (h : Kept p s)
    (al : autoParam (Allows p 17179869183) emit_kept._auto_1) : KeptRes p (execFundamentalReset s) := by
  unfold execFundamentalReset
  try dsimp only
  repeat' first
    | with_reducible assumption
    | exact Allows.sub al rfl
    | with_reducible refine updPower_kept ?_ ?_
    | with_reducible refine assertPerst_kept ?_ ?_
    | with_reducible refine keptRes_inRange ?_ ?_
    | with_reducible refine keptRes_doneIf ?_ ?_
    | with_reducible refine keptRes_ite (fun _ => ?_) (fun _ => ?_)
    | with_reducible refine keptRes_done ?_
    | with_reducible refine keptRes_next ?_
    | with_reducible refine kept_ite (fun _ => ?_) (fun _ => ?_)
    | split

theorem markLines_kept {p a0 a1 a2 s} (h : Kept p s)
    (al : autoParam (Allows p 2048) emit_kept._auto_1) : Kept p (markLines a0 a1 a2 s) := by
  unfold markLines
  try dsimp only
  repeat' first
    | with_reducible assumption
    | exact Allows.sub al rfl
    | exact fun _ h => h
    | exact fun _ h => { h with }
    | exact fun _ => rfl
    | exact fun _ => ⟨rfl, rfl⟩
    | with_reducible refine updMem_kept ?_ ?_ (fun _ => ⟨rfl, rfl⟩) ?_
    | with_reducible refine kept_foldl ?_ (fun _ _ _ => ?_)
    | with_reducible refine kept_foldl_snd ?_ (fun _ _ _ => ?_)
    | with_reducible refine kept_foldl_fst ?_ (fun _ _ _ => ?_)
    | dsimp only
    | split

theorem takePcieError_kept {p a0 s} (h : Kept p s)
    (al : autoParam (Allows p 9462352390) emit_kept._auto_1) : Kept p (takePcieError a0 s) := by
  unfold takePcieError
  try dsimp only
  repeat' first
    | with_reducible assumption
    | exact Allows.sub al rfl
    | exact fun _ h => h
    | exact fun _ h => { h with }
    | exact fun _ => rfl
    | exact fun _ => ⟨rfl, rfl⟩
    | with_reducible refine updMem_kept ?_ ?_ (fun _ => ⟨rfl, rfl⟩) ?_
    | with_reducible refine setAer_kept ?_ ?_
    | with_reducible refine updGate_kept ?_ ?_ ?_ ?_
    | with_reducible refine setAdvisory_kept ?_ ?_
    | with_reducible refine orReg_kept ?_ ?_
    | with_reducible refine logErr_kept ?_ ?_
    | with_reducible refine hostWrites_kept ?_ (fun _ _ => ?_) ?_
    | with_reducible refine apertureWrite_kept ?_ ?_
    | with_reducible refine markLines_kept ?_ ?_
    | with_reducible refine emit_kept ?_ ?_
    | with_reducible refine badRequest_kept ?_ ?_
    | with_reducible refine answerRead_kept ?_ ?_
    | with_reducible refine kept_foldl ?_ (fun _ _ _ => ?_)
    | with_reducible refine kept_foldl_snd ?_ (fun _ _ _ => ?_)
    | with_reducible refine kept_foldl_fst ?_ (fun _ _ _ => ?_)
    | with_reducible refine kept_ite (fun _ => ?_) (fun _ => ?_)
    | dsimp only
    | split

theorem execPcieError_kept {p a0 s} (h : Kept p s)
    (al : autoParam (Allows p 9462352390) emit_kept._auto_1) : KeptRes p (execPcieError a0 s) := by
  unfold execPcieError
  refine keptRes_inRange ?_ h
  refine keptRes_doneIf ?_ ?_
  · exact (takePcieError_kept h)
  · exact h

end Sys2Proof.Machine
end

