-- ==== Sys2Proof/Laws/KeptPergola.lean ====
section
/-! SUPPORT. Every operation of Machine/Pergola.lean keeps the invariant of Safety.lean, leaves the
queue alone and changes no part outside those that the world `p` allows. -/

set_option Elab.async false

namespace Sys2Proof.Machine

theorem noteVec_kept {p a0 a1 a2 a3 a4 s} (h : Kept p s)
    (al : autoParam (Allows p 128) emit_kept._auto_1) : Kept p (noteVec a0 a1 a2 a3 a4 s) := by
  unfold noteVec
  extract_lets -merge -underBinder +onlyGivenNames x0
  have h0 : Kept p x0 := (ownerDigest_kept h)
  clear_value x0
  split
  · refine kept_ite (fun _ => ?_) (fun _ => ?_)
    · exact (addMeasure_kept h0)
    · exact h0
  · exact h0

theorem runVecs_kept {p k d c n v s} (h : Kept p s)
    (al : autoParam (Allows p 10305674884) emit_kept._auto_1) : Kept p (runVecs k d c n v s) := by
  induction n generalizing v s with
  | zero => exact h
  | succ n ih =>
    unfold runVecs
    refine kept_ite (fun _ => ih h) (fun _ => ?_)
    extract_lets -merge -underBinder +onlyGivenNames x owner t
    have ht : Kept p t := noteReads_kept h
    clear_value t
    split
    · exact jobFault_kept (useDeferred_kept ht)
    · exact ih (noteVec_kept (writeOp_kept ht))

theorem vectorOp_kept {p a0 a1 s} (h : Kept p s)
    (al : autoParam (Allows p 10314063494) emit_kept._auto_1) : KeptRes p (vectorOp a0 a1 s) := by
  unfold vectorOp
  try dsimp only
  repeat' first
    | with_reducible assumption
    | exact Allows.sub al rfl
    | with_reducible refine startOp_kept ?_ (fun _ _ _ => ?_) ?_
    | with_reducible refine occupy_kept ?_ ?_
    | with_reducible refine writing_kept ?_ (fun _ _ => ?_) ?_
    | with_reducible refine runVecs_kept ?_ ?_
    | with_reducible refine keptRes_inRange ?_ ?_
    | with_reducible refine keptRes_doneIf ?_ ?_
    | with_reducible refine keptRes_ite (fun _ => ?_) (fun _ => ?_)
    | with_reducible refine keptRes_done ?_
    | with_reducible refine keptRes_next ?_
    | split

theorem execLut4_kept {p a0 s} (h : Kept p s)
    (al : autoParam (Allows p 10314063494) emit_kept._auto_1) : KeptRes p (execLut4 a0 s) := by
  unfold execLut4
  exact vectorOp_kept h

theorem execEltwise_kept {p a0 s} (h : Kept p s)
    (al : autoParam (Allows p 10314063494) emit_kept._auto_1) : KeptRes p (execEltwise a0 s) := by
  unfold execEltwise
  exact vectorOp_kept h

theorem execPool_kept {p a0 s} (h : Kept p s)
    (al : autoParam (Allows p 10314063494) emit_kept._auto_1) : KeptRes p (execPool a0 s) := by
  unfold execPool
  exact vectorOp_kept h

theorem execBoxdec_kept {p a0 s} (h : Kept p s)
    (al : autoParam (Allows p 10314063494) emit_kept._auto_1) : KeptRes p (execBoxdec a0 s) := by
  unfold execBoxdec
  exact vectorOp_kept h

theorem execNms_kept {p a0 s} (h : Kept p s)
    (al : autoParam (Allows p 10314063494) emit_kept._auto_1) : KeptRes p (execNms a0 s) := by
  unfold execNms
  exact vectorOp_kept h

theorem execSoftmax_kept {p a0 s} (h : Kept p s)
    (al : autoParam (Allows p 10314063494) emit_kept._auto_1) : KeptRes p (execSoftmax a0 s) := by
  unfold execSoftmax
  exact vectorOp_kept h

theorem execArgmax_kept {p a0 s} (h : Kept p s)
    (al : autoParam (Allows p 10314063494) emit_kept._auto_1) : KeptRes p (execArgmax a0 s) := by
  unfold execArgmax
  exact vectorOp_kept h

end Sys2Proof.Machine
end

