-- ==== Sys2Proof/Laws/KeptPorts.lean ====
section
/-! SUPPORT. Every operation of Machine/Ports.lean keeps the invariant of Safety.lean, leaves the
queue alone and changes no part outside those that the world `p` allows. -/

set_option Elab.async false

namespace Sys2Proof.Machine

theorem smbAnswer_kept {p a0 s} (h : Kept p s)
    (al : autoParam (Allows p 4) emit_kept._auto_1) : KeptRes p (smbAnswer a0 s) := by
  unfold smbAnswer
  refine keptRes_doneIf ?_ ?_
  · exact (emit_kept h)
  · exact h

theorem execSmbReadTj_kept {p s} (h : Kept p s)
    (al : autoParam (Allows p 4) emit_kept._auto_1) : KeptRes p (execSmbReadTj s) := by
  unfold execSmbReadTj
  exact smbAnswer_kept h

theorem execSmbReadTjIsland_kept {p s} (h : Kept p s)
    (al : autoParam (Allows p 4) emit_kept._auto_1) : KeptRes p (execSmbReadTjIsland s) := by
  unfold execSmbReadTjIsland
  exact smbAnswer_kept h

theorem execSmbReadStatus_kept {p s} (h : Kept p s)
    (al : autoParam (Allows p 4) emit_kept._auto_1) : KeptRes p (execSmbReadStatus s) := by
  unfold execSmbReadStatus
  exact smbAnswer_kept h

theorem execSmbReadBootstep_kept {p s} (h : Kept p s)
    (al : autoParam (Allows p 4) emit_kept._auto_1) : KeptRes p (execSmbReadBootstep s) := by
  unfold execSmbReadBootstep
  exact smbAnswer_kept h

theorem execSmbReadStepping_kept {p s} (h : Kept p s)
    (al : autoParam (Allows p 4) emit_kept._auto_1) : KeptRes p (execSmbReadStepping s) := by
  unfold execSmbReadStepping
  exact smbAnswer_kept h

theorem execSmbAlertResponse_kept {p s} (h : Kept p s)
    (al : autoParam (Allows p 8589934596) emit_kept._auto_1) : KeptRes p (execSmbAlertResponse s) := by
  unfold execSmbAlertResponse
  refine keptRes_doneIf ?_ ?_
  · exact (emit_kept (updPower_kept h))
  · exact h

theorem execSmbAlertRepeat_kept {p s} (h : Kept p s)
    (al : autoParam (Allows p 8589934592) emit_kept._auto_1) : KeptRes p (execSmbAlertRepeat s) := by
  unfold execSmbAlertRepeat
  split
  · refine keptRes_doneIf ?_ ?_
    · exact (updPower_kept h)
    · exact h
  · exact keptRes_next h

theorem execSmbUnlistedCommand_kept {p a0 s} (h : Kept p s)
    (al : autoParam (Allows p 4) emit_kept._auto_1) : KeptRes p (execSmbUnlistedCommand a0 s) := by
  unfold execSmbUnlistedCommand
  refine keptRes_inRange ?_ h
  refine keptRes_doneIf ?_ ?_
  · exact (emit_kept h)
  · exact h

theorem driveAll_kept {p s} (h : Kept p s)
    (al : autoParam (Allows p 4) emit_kept._auto_1) : Kept p (driveAll s) := by
  unfold driveAll
  try dsimp only
  repeat' first
    | with_reducible assumption
    | exact Allows.sub al rfl
    | with_reducible refine emit_kept ?_ ?_
    | with_reducible refine kept_foldl ?_ (fun _ _ _ => ?_)
    | with_reducible refine kept_foldl_snd ?_ (fun _ _ _ => ?_)
    | with_reducible refine kept_foldl_fst ?_ (fun _ _ _ => ?_)
    | with_reducible refine kept_ite (fun _ => ?_) (fun _ => ?_)
    | dsimp only
    | split

theorem driveCells_kept {p s} (h : Kept p s)
    (al : autoParam (Allows p 4) emit_kept._auto_1) : Kept p (driveCells s) := by
  unfold driveCells
  try dsimp only
  repeat' first
    | with_reducible assumption
    | exact Allows.sub al rfl
    | with_reducible refine emit_kept ?_ ?_
    | with_reducible refine kept_foldl ?_ (fun _ _ _ => ?_)
    | with_reducible refine kept_foldl_snd ?_ (fun _ _ _ => ?_)
    | with_reducible refine kept_foldl_fst ?_ (fun _ _ _ => ?_)
    | with_reducible refine kept_ite (fun _ => ?_) (fun _ => ?_)
    | dsimp only
    | split

theorem takePins_kept {p s} (h : Kept p s)
    (al : autoParam (Allows p 8589934596) emit_kept._auto_1) : Kept p (takePins s) := by
  unfold takePins
  try dsimp only
  repeat' first
    | with_reducible assumption
    | exact Allows.sub al rfl
    | with_reducible refine driveCells_kept ?_ ?_
    | with_reducible refine updPower_kept ?_ ?_
    | split

theorem returnPins_kept {p s} (h : Kept p s)
    (al : autoParam (Allows p 17179869183) emit_kept._auto_1) : Kept p (returnPins s) := by
  unfold returnPins
  try dsimp only
  repeat' first
    | with_reducible assumption
    | exact Allows.sub al rfl
    | with_reducible refine driveAll_kept ?_ ?_
    | with_reducible refine returnTimeref_kept ?_ ?_
    | with_reducible refine loseTimeref_kept ?_ ?_
    | with_reducible refine releasePerst_kept ?_ ?_
    | with_reducible refine assertPerst_kept ?_ ?_
    | with_reducible refine kept_ite (fun _ => ?_) (fun _ => ?_)
    | split

theorem selectTap_kept {p a0 s} (h : Kept p s)
    (al : autoParam (Allows p 17179869183) emit_kept._auto_1) : Kept p (selectTap a0 s) := by
  unfold selectTap
  try dsimp only
  repeat' first
    | with_reducible assumption
    | exact Allows.sub al rfl
    | with_reducible refine updPower_kept ?_ ?_
    | with_reducible refine takePins_kept ?_ ?_
    | with_reducible refine returnPins_kept ?_ ?_
    | with_reducible refine kept_ite (fun _ => ?_) (fun _ => ?_)
    | split

theorem execBypass_kept {p s} (h : Kept p s)
    (al : autoParam (Allows p 17179869183) emit_kept._auto_1) : KeptRes p (execBypass s) := by
  unfold execBypass
  exact keptRes_next ((emit_kept (selectTap_kept h)))

theorem execIdcode_kept {p s} (h : Kept p s)
    (al : autoParam (Allows p 17179869183) emit_kept._auto_1) : KeptRes p (execIdcode s) := by
  unfold execIdcode
  exact keptRes_next ((emit_kept (selectTap_kept h)))

theorem execSamplePreload_kept {p a0 s} (h : Kept p s)
    (al : autoParam (Allows p 17179869183) emit_kept._auto_1) : KeptRes p (execSamplePreload a0 s) := by
  unfold execSamplePreload
  extract_lets -merge -underBinder +onlyGivenNames x0
  try clear_value x0
  refine keptRes_next ?_
  refine emit_kept ?_
  refine selectTap_kept ?_
  refine updPower_kept ?_
  exact { h with frame := framedOf (h).frame al }

theorem execExtest_kept {p s} (h : Kept p s)
    (al : autoParam (Allows p 17179869183) emit_kept._auto_1) : KeptRes p (execExtest s) := by
  unfold execExtest
  exact keptRes_next (selectTap_kept h)

theorem execTapReset_kept {p s} (h : Kept p s)
    (al : autoParam (Allows p 17179869183) emit_kept._auto_1) : KeptRes p (execTapReset s) := by
  unfold execTapReset
  exact keptRes_next (selectTap_kept h)

end Sys2Proof.Machine
end

