-- ==== Sys2Proof/Laws/KeptTrellis.lean ====
section
/-! SUPPORT. Every operation of Machine/Trellis.lean keeps the invariant of Safety.lean, leaves the
queue alone and changes no part outside those that the world `p` allows. -/

set_option Elab.async false

namespace Sys2Proof.Machine

theorem takeGallery_kept {p a0 a1 a2 a3 a4 a5 a6 a7 a8 a9 s} (h : Kept p s)
    (al : autoParam (Allows p 262144) emit_kept._auto_1) : Kept p (takeGallery a0 a1 a2 a3 a4 a5 a6 a7 a8 a9 s) := by
  unfold takeGallery
  exact (addGallery_kept h)

theorem takePeerState_kept {p a0 a1 a2 s} (h : Kept p s)
    (al : autoParam (Allows p 4294967296) emit_kept._auto_1) : Kept p (takePeerState a0 a1 a2 s) := by
  unfold takePeerState
  extract_lets -merge -underBinder +onlyGivenNames x0
  try clear_value x0
  exact (updTrellis_kept h (fun _ h => h))

theorem takeRefusal_kept {p a0 a1 a2 s} (h : Kept p s)
    (al : autoParam (Allows p 4294967296) emit_kept._auto_1) : Kept p (takeRefusal a0 a1 a2 s) := by
  unfold takeRefusal
  split
  · exact (updTrellis_kept h (fun _ h => h))
  · exact h

theorem forwardRelay_kept {p a0 a1 a2 a3 s} (h : Kept p s)
    (al : autoParam (Allows p 4898947588) emit_kept._auto_1) : Kept p (forwardRelay a0 a1 a2 a3 s) := by
  unfold forwardRelay
  try dsimp only
  repeat' first
    | with_reducible assumption
    | exact Allows.sub al rfl
    | exact fun _ h => h
    | exact fun _ h => { h with }
    | exact fun _ => rfl
    | exact fun _ => ⟨rfl, rfl⟩
    | with_reducible refine refuseRelay_kept ?_ ?_
    | with_reducible refine updTrellis_kept ?_ ?_ ?_
    | with_reducible refine enqueueRelayed_kept ?_ ?_
    | with_reducible refine bumpMnum_kept ?_ ?_
    | with_reducible refine kept_ite (fun _ => ?_) (fun _ => ?_)
    | split

theorem takeControl_kept {p a0 a1 s} (h : Kept p s)
    (al : autoParam (Allows p 16726834822) emit_kept._auto_1) : Kept p (takeControl a0 a1 s) := by
  unfold takeControl
  split
  · exact (takeProposal_kept h)
  · refine kept_foldl ?_ (fun x s h => ?_)
    · exact h
    · extract_lets -merge -underBinder +onlyGivenNames x0
      try clear_value x0
      exact (noteCommit_kept h)
  · exact (takePeerState_kept h)
  · exact (takeRefusal_kept h)
  · exact (takeEpochAck_kept h)
  · exact (takeGallery_kept h)
  · exact h

theorem takeRelayed_kept {p a0 a1 a2 a3 s} (h : Kept p s)
    (al : autoParam (Allows p 16726834822) emit_kept._auto_1) : Kept p (takeRelayed a0 a1 a2 a3 s) := by
  unfold takeRelayed
  try dsimp only
  repeat' first
    | with_reducible assumption
    | exact Allows.sub al rfl
    | with_reducible refine badMessage_kept ?_ ?_
    | with_reducible refine admitMessage_kept ?_ ?_
    | refine keptSnd_eq (admitMessage_kept ?_ ?_) (by assumption)
    | refine (admitMessage_kept ?_ ?_ : KeptSnd p _)
    | with_reducible refine takeControl_kept ?_ ?_
    | with_reducible refine kept_ite (fun _ => ?_) (fun _ => ?_)
    | split

theorem takeRelay_kept {p a0 a1 a2 a3 a4 s} (h : Kept p s)
    (al : autoParam (Allows p 16726834822) emit_kept._auto_1) : Kept p (takeRelay a0 a1 a2 a3 a4 s) := by
  unfold takeRelay
  try dsimp only
  repeat' first
    | with_reducible assumption
    | exact Allows.sub al rfl
    | with_reducible refine takeRelayed_kept ?_ ?_
    | with_reducible refine forwardRelay_kept ?_ ?_
    | with_reducible refine kept_ite (fun _ => ?_) (fun _ => ?_)
    | split

theorem takeArrived_kept {p a0 a1 a2 a3 a4 s} (h : Kept p s)
    (al : autoParam (Allows p 16726834822) emit_kept._auto_1) : Kept p (takeArrived a0 a1 a2 a3 a4 s) := by
  unfold takeArrived
  refine kept_ite (fun _ => ?_) (fun _ => ?_)
  · exact (badMessage_kept h)
  · split
    · exact h
    · refine kept_ite (fun _ => ?_) (fun _ => ?_)
      · exact h
      · split
        · rename_i e0
          have h0 := keptSnd_eq (admitMessage_kept h) e0
          refine kept_ite (fun _ => ?_) (fun _ => ?_)
          · exact h0
          · split
            · exact (updLink_kept h0)
            · exact (updLink_kept h0)
            · exact (takeRelay_kept h0)
            · exact (takeControl_kept h0)

theorem takeReport_kept {p a0 a1 s} (h : Kept p s)
    (al : autoParam (Allows p 4898947588) emit_kept._auto_1) : Kept p (takeReport a0 a1 s) := by
  unfold takeReport
  extract_lets -merge -underBinder +onlyGivenNames x0
  have h0 : Kept p x0 := (takeAck_kept (updLink_kept h))
  clear_value x0
  split
  · refine kept_ite (fun _ => ?_) (fun _ => ?_)
    · exact (startReplay_kept h0)
    · exact h0
  · exact h0

theorem takeData_kept {p a0 a1 a2 a3 s} (h : Kept p s)
    (al : autoParam (Allows p 16726834822) emit_kept._auto_1) : Kept p (takeData a0 a1 a2 a3 s) := by
  unfold takeData
  split
  · exact h
  · extract_lets -merge -underBinder +onlyGivenNames x0
    try clear_value x0
    refine kept_ite (fun _ => ?_) (fun _ => ?_)
    · extract_lets -merge -underBinder +onlyGivenNames x1
      have h1 : Kept p x1 := (acceptFlit_kept h)
      clear_value x1
      refine kept_ite (fun _ => ?_) (fun _ => ?_)
      · extract_lets -merge -underBinder +onlyGivenNames x2
        try clear_value x2
        split
        · rename_i e3
          have h3 := keptSnd_eq (takeMessage_kept h1) e3
          exact (takeArrived_kept h3)
      · exact h1
    · refine kept_ite (fun _ => ?_) (fun _ => ?_)
      · exact (askNak_kept h)
      · exact (updLink_kept h)

theorem execFlitReceive_kept {p a0 a1 a2 a3 s} (h : Kept p s)
    (al : autoParam (Allows p 16726834822) emit_kept._auto_1) : KeptRes p (execFlitReceive a0 a1 a2 a3 s) := by
  unfold execFlitReceive
  refine keptRes_inRange ?_ h
  refine keptRes_ite (fun _ => ?_) (fun _ => ?_)
  · exact keptRes_next h
  · refine keptRes_ite (fun _ => ?_) (fun _ => ?_)
    · exact keptRes_next (discardFlit_kept h)
    · refine keptRes_ite (fun _ => ?_) (fun _ => ?_)
      · exact keptRes_next (discardFlit_kept h)
      · refine keptRes_ite (fun _ => ?_) (fun _ => ?_)
        · exact keptRes_next h
        · extract_lets -merge -underBinder +onlyGivenNames x0
          try clear_value x0
          extract_lets -merge -underBinder +onlyGivenNames x1
          have h1 : Kept p x1 := (takeReport_kept h)
          clear_value x1
          refine keptRes_next ?_
          refine kept_ite (fun _ => ?_) (fun _ => ?_)
          · exact (takeData_kept h1)
          · exact h1

theorem execCommitMessage_kept {p a0 a1 s} (h : Kept p s)
    (al : autoParam (Allows p 262144) emit_kept._auto_1) : KeptRes p (execCommitMessage a0 a1 s) := by
  unfold execCommitMessage
  refine keptRes_inRange ?_ h
  refine keptRes_doneIf ?_ ?_
  · refine kept_foldl ?_ (fun x s h => ?_)
    · exact h
    · exact (noteCommit_kept h)
  · exact h

theorem execPeerState_kept {p a0 a1 a2 a3 s} (h : Kept p s)
    (al : autoParam (Allows p 4294967296) emit_kept._auto_1) : KeptRes p (execPeerState a0 a1 a2 a3 s) := by
  unfold execPeerState
  refine keptRes_inRange ?_ h
  refine keptRes_doneIf ?_ ?_
  · exact (takePeerState_kept h)
  · exact h

theorem execPeerLossTimeout_kept {p a0 s} (h : Kept p s)
    (al : autoParam (Allows p 5974001156) emit_kept._auto_1) : KeptRes p (execPeerLossTimeout a0 s) := by
  unfold execPeerLossTimeout
  refine keptRes_inRange ?_ h
  refine keptRes_doneIf ?_ ?_
  · exact (abandonLoad_kept (dropMember_kept h))
  · exact h

theorem execGallery_kept {p a0 a1 a2 a3 a4 a5 a6 a7 a8 a9 s} (h : Kept p s)
    (al : autoParam (Allows p 262144) emit_kept._auto_1) : KeptRes p (execGallery a0 a1 a2 a3 a4 a5 a6 a7 a8 a9 s) := by
  unfold execGallery
  refine keptRes_inRange ?_ h
  refine keptRes_doneIf ?_ ?_
  · exact (takeGallery_kept h)
  · exact h

theorem execRelay_kept {p a0 a1 a2 a3 s} (h : Kept p s)
    (al : autoParam (Allows p 16726834822) emit_kept._auto_1) : KeptRes p (execRelay a0 a1 a2 a3 s) := by
  unfold execRelay
  refine keptRes_inRange ?_ h
  refine keptRes_doneIf ?_ ?_
  · exact (takeRelay_kept h)
  · exact h

theorem execRelayRefuse_kept {p a0 a1 a2 a3 s} (h : Kept p s)
    (al : autoParam (Allows p 4294967296) emit_kept._auto_1) : KeptRes p (execRelayRefuse a0 a1 a2 a3 s) := by
  unfold execRelayRefuse
  refine keptRes_inRange ?_ h
  refine keptRes_doneIf ?_ ?_
  · exact (takeRefusal_kept h)
  · exact h

theorem execRelayRetry_kept {p a0 s} (h : Kept p s)
    (al : autoParam (Allows p 4898947588) emit_kept._auto_1) : KeptRes p (execRelayRetry a0 s) := by
  unfold execRelayRetry
  refine keptRes_inRange ?_ h
  extract_lets -merge -underBinder +onlyGivenNames x0
  try clear_value x0
  extract_lets -merge -underBinder +onlyGivenNames x1
  try clear_value x1
  refine keptRes_doneIf ?_ ?_
  · refine kept_foldl ?_ (fun x s h => ?_)
    · exact (updTrellis_kept h (fun _ h => h))
    · exact (routeMessage_kept h)
  · exact h

end Sys2Proof.Machine
end

