-- ==== Sys2Proof/WellFormed.lean ====
section
/-! DEFINITION. Well-formed commands: an operand that names one of a fixed number of objects of R15 lies in its range. A command that
is not well formed names nothing that it could act on, and leaves the state as it is (log 10). -/

namespace Sys2Proof

/-- The target of a cue exists (R15). -/
def targetIn : CueTarget → Bool
  | .lane k => decide (k < 56)
  | .pin n => decide (n < 16)
  | .ppsOut => true

/-- An address at which an SRAM word can stand (R302, R305): in the map's SRAMs, as a cached line of DRAM, or outside the map (log 193). -/
def sramAddr (a : Nat) : Bool :=
  decide (a < 0x6400000 ∨ (0x8000000 ≤ a ∧ a < 0x9000000) ∨ (0x1000000000 ≤ a ∧ a < 0x2000000000)
    ∨ (0x2000000000000 ≤ a ∧ a < 0xF000000000000))

/-- An island that Quinbuar may gate (R489). -/
def gateIsland (i : Nat) : Bool := decide ((3 ≤ i ∧ i ≤ 12) ∨ (56 ≤ i ∧ i ≤ 60))

/-- The bytes of an error's TLP lie in the aperture (R382) or in host memory, at most 4,096 of a read (R392). -/
def errorBytesIn : PcieError → Bool
  | .poisonedBar2 off bs => decide (off + bs.length ≤ 0x10000000)
  | .poisonedCompletion a n => decide (a + n ≤ 2 ^ 64 ∧ n ≤ 4096)
  | .ecrcCompletion a n => decide (a + n ≤ 2 ^ 64 ∧ n ≤ 4096)
  | _ => true

/-- The command's indices lie in the ranges of R15 and of its own rule. -/
def Instr.wellFormed : Instr → Bool
  | .beacon _ => true
  | .beaconMiss island => decide (island < 61)
  | .cueIssue c => targetIn c.target
  | .heldCueRelease t => targetIn t
  | .cueTakeEffect t => targetIn t
  | .pulseEnd pin => decide (pin < 16)
  | .strobePeriod pin => decide (pin < 16)
  | .pinEdge pin _ _ => decide (pin < 16)
  | .reflexHoldoffEnd rule => decide (rule < 16)
  | .ptpMessage port _ => decide (port < 2)
  | .ppsInEdge _ => true
  | .disciplineLoss => true
  | .stepApply => true
  | .oscPeriodMeasured _ => true
  | .oscChangeover => true
  | .timePllLock => true
  | .aonSupplySwitch _ _ => true
  | .scoreStart => true
  | .scoreWordIssue => true
  | .nop lane => decide (lane < 56)
  | .tokenSet => true
  | .tokenAdd => true
  | .claimOpen => true
  | .bell => true
  | .branchFill => true
  | .jump => true
  | .halt => true
  | .scoreHalted => true
  | .tile orangery => decide (orangery < 16)
  | .claim orangery => decide (orangery < 16)
  | .claimFetch orangery => decide (orangery < 16)
  | .lut4 pergola => decide (pergola < 8)
  | .eltwise pergola => decide (pergola < 8)
  | .pool pergola => decide (pergola < 8)
  | .boxdec pergola => decide (pergola < 8)
  | .nms pergola => decide (pergola < 8)
  | .softmax pergola => decide (pergola < 8)
  | .argmax pergola => decide (pergola < 8)
  | .copy mover => decide (mover < 24)
  | .fetchAhead mover => decide (mover < 24)
  | .pageFetch mover => decide (mover < 24)
  | .steer topiary => decide (topiary < 4)
  | .gather => true
  | .assoc => true
  | .update => true
  | .append => true
  | .alist => true
  | .pinLevel => true
  | .pinPulse => true
  | .strobeStart => true
  | .strobeStop => true
  | .reflexArm => true
  | .digest => true
  | .trace => true
  | .opComplete lane => decide (lane < 56)
  | .gateWatchdog lane => decide (lane < 56)
  | .scoreRestart => true
  | .demandFill _ => true
  | .pageFillComplete _ _ => true
  | .pageSpill => true
  | .pageSpillComplete _ _ => true
  | .promptEncoded slot => decide (slot < 64)
  | .slowPathPacket port _ => decide (port < 2)
  | .rtpPacket p => decide (p.port < 2)
  | .reorderWindowExpiry stream => decide (stream < 128)
  | .frameRelease stream => decide (stream < 128)
  | .rtspResponse stream _ => decide (stream < 128)
  | .rtspKeepalive stream => decide (stream < 128)
  | .sourceLost stream _ => decide (stream < 128)
  | .reconnect stream => decide (stream < 128)
  | .multicastReport stream => decide (stream < 128)
  | .rtcpReport stream => decide (stream < 128)
  | .frameStartPacket port channel _ _ => decide (port < 4) && decide (channel < 4)
  | .linePacket port channel _ _ _ _ _ => decide (port < 4) && decide (channel < 4)
  | .frameEndPacket port channel _ => decide (port < 4) && decide (channel < 4)
  | .dphySyncLoss port => decide (port < 4)
  | .pictureDecodeStart fountain _ => decide (fountain < 4)
  | .pictureDecodeComplete fountain => decide (fountain < 4)
  | .fountainWatchdog fountain => decide (fountain < 4)
  | .clipPictureEncode session _ _ _ _ => decide (session < 32)
  | .topiaryTake topiary => decide (topiary < 4)
  | .slotGrant topiary => decide (topiary < 4)
  | .slotWriteComplete topiary => decide (topiary < 4)
  | .trainingJobStart => true
  | .trainingJobComplete => true
  | .recordForm r => decide (r.stream < 128)
  | .recordEmit stream => decide (stream < 128)
  | .pinNotice => true
  | .cacheAccess _ _ _ _ _ => true
  | .dramRequest channel linkError => decide (channel < 16) && decide (linkError ≤ 2)
  | .beRequestPromote channel => decide (channel < 16)
  | .refreshInterval channel => decide (channel < 16)
  | .refreshIssue channel => decide (channel < 16)
  | .dramTempPoll _ => true
  | .dramEcsPoll _ => true
  | .wckTrack _ => true
  | .scrub addr _ => sramAddr addr
  | .tlbInvalidate _ _ => true
  | .hostReadIssue _ _ => true
  | .hostReadCompletion _ _ _ => true
  | .completionTimeout _ => true
  | .alloc pl account n _ _ => decide (pl < 8) && decide (account < 256) && decide (1 ≤ n) && decide (n ≤ 32)
  | .reserveAllocResume pl => decide (pl < 8)
  | .retain _ => true
  | .release _ => true
  | .releaseChain _ => true
  | .censusPass pl => decide (pl < 8)
  | .lockAcquire _ owner => decide (owner < 65536)
  | .lockRelease _ owner => decide (owner < 65536)
  | .errorReport status island unit stream _ _ _ _ => decide (status < 65536) && decide (island ≤ 60) && decide (unit < 256) && decide (stream < 256)
  | .coalesceFlush island _ => decide (island ≤ 60)
  | .parityFault island unit _ => decide (island ≤ 60) && decide (unit < 256)
  | .partialReset island _ => decide (1 ≤ island) && decide (island ≤ 60)
  | .islandUnfence _ => true
  | .configRequest _ offset _ _ => decide (offset < 4096) && decide (offset % 4 = 0)
  | .msixEnable _ _ => true
  | .vectorUnmask vector => decide (vector < 64)
  | .powerStateChange _ => true
  | .registerWrite offset _ _ => decide (offset < 0x2000000) && decide (offset % 4 = 0)
  | .apertureAccess _ offset bytes => decide (offset + bytes.length ≤ 0x10000000)
  | .keylockWrite _ _ => true
  | .keylockExpiry _ => true
  | .sqDoorbell q tail => decide (q < 4) && decide (tail < 65536)
  | .cqDoorbell head => decide (head < 65536)
  | .drDoorbell ring head => decide (ring < 64) && decide (head < 65536)
  | .ringEnable _ => true
  | .timNsRead _ => true
  | .timSnap => true
  | .errTailWrite tail => decide (tail < 2 ^ 32)
  | .islandResetGo _ => true
  | .deviceResetGo _ => true
  | .diagWindowAccess _ offset _ => decide (offset < 0x1000000) && decide (offset % 4 = 0)
  | .fundamentalReset => true
  | .hotReset => true
  | .flr => true
  | .pcieError e => errorBytesIn e
  | .commandFetch => true
  | .commandComplete => true
  | .notice => true
  | .cmdNop q cid => decide (q < 4) && decide (cid < 65536)
  | .identify q cid => decide (q < 4) && decide (cid < 65536)
  | .hello q cid => decide (q < 4) && decide (cid < 65536)
  | .packageLoad q cid p => decide (q < 4) && decide (cid < 65536) && decide (p.dictionaryAt + p.dictionary.length ≤ 0x4000000)
  | .streamOpen q cid _ => decide (q < 4) && decide (cid < 65536)
  | .streamClose q cid => decide (q < 4) && decide (cid < 65536)
  | .setDecodeMode q cid => decide (q < 4) && decide (cid < 65536)
  | .setAnalyseConcealed q cid => decide (q < 4) && decide (cid < 65536)
  | .setCaptureSet q cid _ => decide (q < 4) && decide (cid < 65536)
  | .liftQuarantine q cid => decide (q < 4) && decide (cid < 65536)
  | .setLinks q cid => decide (q < 4) && decide (cid < 65536)
  | .setAdaptationMode q cid => decide (q < 4) && decide (cid < 65536)
  | .streamStats q cid => decide (q < 4) && decide (cid < 65536)
  | .frameSubmit q cid => decide (q < 4) && decide (cid < 65536)
  | .subscribe q cid => decide (q < 4) && decide (cid < 65536)
  | .unsubscribe q cid => decide (q < 4) && decide (cid < 65536)
  | .promptSet q cid => decide (q < 4) && decide (cid < 65536)
  | .promptBind q cid => decide (q < 4) && decide (cid < 65536)
  | .contextSet q cid => decide (q < 4) && decide (cid < 65536)
  | .clipRequest q cid => decide (q < 4) && decide (cid < 65536)
  | .clipCancel q cid => decide (q < 4) && decide (cid < 65536)
  | .adaptAdopt q cid => decide (q < 4) && decide (cid < 65536)
  | .timeConfig q cid _ => decide (q < 4) && decide (cid < 65536)
  | .timeSet q cid => decide (q < 4) && decide (cid < 65536)
  | .pinConfig q cid _ => decide (q < 4) && decide (cid < 65536)
  | .hostPinLevel q cid => decide (q < 4) && decide (cid < 65536)
  | .hostPinPulse q cid => decide (q < 4) && decide (cid < 65536)
  | .hostStrobeStart q cid => decide (q < 4) && decide (cid < 65536)
  | .hostStrobeStop q cid => decide (q < 4) && decide (cid < 65536)
  | .reflexConfig q cid _ => decide (q < 4) && decide (cid < 65536)
  | .netConfig q cid _ => decide (q < 4) && decide (cid < 65536)
  | .setWayMasks q cid => decide (q < 4) && decide (cid < 65536)
  | .setColdTier q cid _ _ => decide (q < 4) && decide (cid < 65536)
  | .setCensus q cid => decide (q < 4) && decide (cid < 65536)
  | .journalRead q cid => decide (q < 4) && decide (cid < 65536)
  | .stage q cid => decide (q < 4) && decide (cid < 65536)
  | .switch q cid => decide (q < 4) && decide (cid < 65536)
  | .updateResume => true
  | .updateRevert => true
  | .commit q cid => decide (q < 4) && decide (cid < 65536)
  | .ledgerClear q cid => decide (q < 4) && decide (cid < 65536)
  | .ledgerSizes q cid => decide (q < 4) && decide (cid < 65536)
  | .islandReset q cid => decide (q < 4) && decide (cid < 65536)
  | .linkTrainingComplete link _ _ => decide (link < 5)
  | .linkSignalLoss link => decide (link < 5)
  | .flitReceive link flit _ _ => decide (link < 5) && decide (flit.length = 256)
  | .flitSlot link => decide (link < 5)
  | .ackTimer link => decide (link < 5)
  | .nakHoldoffExpiry link => decide (link < 5)
  | .replayTimeout link => decide (link < 5)
  | .timeReqPeriod => true
  | .timeReq link => decide (link < 5)
  | .timeResp link => decide (link < 5)
  | .epochAck src pkgid status prompts => decide (src < 6) && decide (pkgid < 2 ^ 64) && decide (status < 65536) && decide (prompts < 65536)
  | .epochPropose pkgid epoch chips => decide (pkgid < 2 ^ 64) && decide (epoch < 2 ^ 64) && decide (chips < 256)
  | .epochTimeout => true
  | .commitPeriod => true
  | .commitMessage src entries => decide (src < 6) && decide (entries.length ≤ 2048)
  | .peerStatePeriod => true
  | .peerState src _ _ links => decide (src < 6) && decide (links.length = 5)
  | .peerLossTimeout chip => decide (chip < 6)
  | .gallery src srcStream stream _ _ _ box _ _ _ => decide (src < 6) && decide (srcStream < 128) && decide (stream < 128) && decide (box.length = 4)
  | .relay src dst channel _ => decide (src < 6) && decide (dst < 6) && decide (src ≠ dst) && decide (1 ≤ channel) && decide (channel ≤ 2)
  | .relayRefuse src dst _ _ => decide (src < 6) && decide (dst < 6)
  | .relayRetry dst => decide (dst < 6)
  | .pwrfail _ _ => true
  | .maingoodFall => true
  | .lastBreathEnd => true
  | .boot _ => true
  | .avsAdjust _ _ => true
  | .junctionHot island tj => decide (island ≤ 60) && decide (tj < 128)
  | .thermalTrip island tj => decide (island ≤ 60) && decide (tj < 128)
  | .timerefLoss _ => true
  | .unitGate island => gateIsland island
  | .smbReadTj => true
  | .smbReadTjIsland => true
  | .smbReadStatus => true
  | .smbReadBootstep => true
  | .smbReadStepping => true
  | .smbAlertResponse => true
  | .smbAlertRepeat => true
  | .bypass => true
  | .idcode => true
  | .samplePreload _ => true
  | .extest => true
  | .tapReset => true
  | .timerefReturn => true
  | .linkSignalReturn link => decide (link < 5)
  | .alwaysOnDomainLoss => true
  | .alwaysOnPowerUp => true
  | .interleavedRtpSegment stream _ => decide (stream < 128)
  | .smbUnlistedCommand code => decide (5 ≤ code) && decide (code < 256)
  | .perstNDeassert => true

end Sys2Proof
end

