-- ==== Sys2Proof/Laws/PerInstr.lean ====
section
/-! SUPPORT. Family HostRing, said of every command as syntax: a well-formed command that runs a host command names one of the four
submission rings (R405) and a tag of 16 bits (R412). -/

set_option Elab.async false

/-- A well-formed command that runs a host command names a submission ring and a 16-bit tag (R405, R412). -/
def Sys2Proof.Laws.HostRing.Statement (i : Sys2Proof.Instr) : Prop :=
  i.wellFormed = true → ∀ q cid r, Sys2Proof.Machine.hostRow i = some (q, cid, r) → q < 4 ∧ cid < 65536

namespace Sys2Proof.Laws

open Sys2Proof Sys2Proof.Machine

theorem hostRing_none {i : Instr} (h : hostRow i = none) : HostRing.Statement i := by
  intro _ q cid r e
  rw [h] at e
  cases e

theorem hostRing_some {i : Instr} {q cid : Nat} {r : CmdRow} (h : hostRow i = some (q, cid, r))
    (w : i.wellFormed = (decide (q < 4) && decide (cid < 65536))) : HostRing.Statement i := by
  intro k q' cid' r' e
  rw [h] at e
  rw [w] at k
  simp only [Option.some.injEq, Prod.mk.injEq] at e
  obtain ⟨rfl, rfl, _⟩ := e
  simpa using k

end Sys2Proof.Laws

open Sys2Proof Sys2Proof.Machine

theorem Sys2Proof.Laws.HostRing.beacon (drift : List Int) :
    Sys2Proof.Laws.HostRing.Statement (.beacon drift) :=
  Sys2Proof.Laws.hostRing_none rfl

theorem Sys2Proof.Laws.HostRing.beaconMiss (island : Nat) :
    Sys2Proof.Laws.HostRing.Statement (.beaconMiss island) :=
  Sys2Proof.Laws.hostRing_none rfl

theorem Sys2Proof.Laws.HostRing.cueIssue (c : Cue) :
    Sys2Proof.Laws.HostRing.Statement (.cueIssue c) :=
  Sys2Proof.Laws.hostRing_none rfl

theorem Sys2Proof.Laws.HostRing.heldCueRelease (t : CueTarget) :
    Sys2Proof.Laws.HostRing.Statement (.heldCueRelease t) :=
  Sys2Proof.Laws.hostRing_none rfl

theorem Sys2Proof.Laws.HostRing.cueTakeEffect (t : CueTarget) :
    Sys2Proof.Laws.HostRing.Statement (.cueTakeEffect t) :=
  Sys2Proof.Laws.hostRing_none rfl

theorem Sys2Proof.Laws.HostRing.pulseEnd (pin : Nat) :
    Sys2Proof.Laws.HostRing.Statement (.pulseEnd pin) :=
  Sys2Proof.Laws.hostRing_none rfl

theorem Sys2Proof.Laws.HostRing.strobePeriod (pin : Nat) :
    Sys2Proof.Laws.HostRing.Statement (.strobePeriod pin) :=
  Sys2Proof.Laws.hostRing_none rfl

theorem Sys2Proof.Laws.HostRing.pinEdge (pin : Nat) (rising : Bool) (stamp : Nat) :
    Sys2Proof.Laws.HostRing.Statement (.pinEdge pin rising stamp) :=
  Sys2Proof.Laws.hostRing_none rfl

theorem Sys2Proof.Laws.HostRing.reflexHoldoffEnd (rule : Nat) :
    Sys2Proof.Laws.HostRing.Statement (.reflexHoldoffEnd rule) :=
  Sys2Proof.Laws.hostRing_none rfl

theorem Sys2Proof.Laws.HostRing.ptpMessage (port : Nat) (m : PtpPacket) :
    Sys2Proof.Laws.HostRing.Statement (.ptpMessage port m) :=
  Sys2Proof.Laws.hostRing_none rfl

theorem Sys2Proof.Laws.HostRing.ppsInEdge (stamp : Nat) :
    Sys2Proof.Laws.HostRing.Statement (.ppsInEdge stamp) :=
  Sys2Proof.Laws.hostRing_none rfl

theorem Sys2Proof.Laws.HostRing.disciplineLoss  :
    Sys2Proof.Laws.HostRing.Statement (.disciplineLoss) :=
  Sys2Proof.Laws.hostRing_none rfl

theorem Sys2Proof.Laws.HostRing.stepApply  :
    Sys2Proof.Laws.HostRing.Statement (.stepApply) :=
  Sys2Proof.Laws.hostRing_none rfl

theorem Sys2Proof.Laws.HostRing.oscPeriodMeasured (period : Nat) :
    Sys2Proof.Laws.HostRing.Statement (.oscPeriodMeasured period) :=
  Sys2Proof.Laws.hostRing_none rfl

theorem Sys2Proof.Laws.HostRing.oscChangeover  :
    Sys2Proof.Laws.HostRing.Statement (.oscChangeover) :=
  Sys2Proof.Laws.hostRing_none rfl

theorem Sys2Proof.Laws.HostRing.timePllLock  :
    Sys2Proof.Laws.HostRing.Statement (.timePllLock) :=
  Sys2Proof.Laws.hostRing_none rfl

theorem Sys2Proof.Laws.HostRing.aonSupplySwitch (mainMillivolts heldMs : Nat) :
    Sys2Proof.Laws.HostRing.Statement (.aonSupplySwitch mainMillivolts heldMs) :=
  Sys2Proof.Laws.hostRing_none rfl

theorem Sys2Proof.Laws.HostRing.scoreStart  :
    Sys2Proof.Laws.HostRing.Statement (.scoreStart) :=
  Sys2Proof.Laws.hostRing_none rfl

theorem Sys2Proof.Laws.HostRing.scoreWordIssue  :
    Sys2Proof.Laws.HostRing.Statement (.scoreWordIssue) :=
  Sys2Proof.Laws.hostRing_none rfl

theorem Sys2Proof.Laws.HostRing.nop (lane : Nat) :
    Sys2Proof.Laws.HostRing.Statement (.nop lane) :=
  Sys2Proof.Laws.hostRing_none rfl

theorem Sys2Proof.Laws.HostRing.tokenSet  :
    Sys2Proof.Laws.HostRing.Statement (.tokenSet) :=
  Sys2Proof.Laws.hostRing_none rfl

theorem Sys2Proof.Laws.HostRing.tokenAdd  :
    Sys2Proof.Laws.HostRing.Statement (.tokenAdd) :=
  Sys2Proof.Laws.hostRing_none rfl

theorem Sys2Proof.Laws.HostRing.claimOpen  :
    Sys2Proof.Laws.HostRing.Statement (.claimOpen) :=
  Sys2Proof.Laws.hostRing_none rfl

theorem Sys2Proof.Laws.HostRing.bell  :
    Sys2Proof.Laws.HostRing.Statement (.bell) :=
  Sys2Proof.Laws.hostRing_none rfl

theorem Sys2Proof.Laws.HostRing.branchFill  :
    Sys2Proof.Laws.HostRing.Statement (.branchFill) :=
  Sys2Proof.Laws.hostRing_none rfl

theorem Sys2Proof.Laws.HostRing.jump  :
    Sys2Proof.Laws.HostRing.Statement (.jump) :=
  Sys2Proof.Laws.hostRing_none rfl

theorem Sys2Proof.Laws.HostRing.halt  :
    Sys2Proof.Laws.HostRing.Statement (.halt) :=
  Sys2Proof.Laws.hostRing_none rfl

theorem Sys2Proof.Laws.HostRing.scoreHalted  :
    Sys2Proof.Laws.HostRing.Statement (.scoreHalted) :=
  Sys2Proof.Laws.hostRing_none rfl

theorem Sys2Proof.Laws.HostRing.tile (orangery : Nat) :
    Sys2Proof.Laws.HostRing.Statement (.tile orangery) :=
  Sys2Proof.Laws.hostRing_none rfl

theorem Sys2Proof.Laws.HostRing.claim (orangery : Nat) :
    Sys2Proof.Laws.HostRing.Statement (.claim orangery) :=
  Sys2Proof.Laws.hostRing_none rfl

theorem Sys2Proof.Laws.HostRing.claimFetch (orangery : Nat) :
    Sys2Proof.Laws.HostRing.Statement (.claimFetch orangery) :=
  Sys2Proof.Laws.hostRing_none rfl

theorem Sys2Proof.Laws.HostRing.lut4 (pergola : Nat) :
    Sys2Proof.Laws.HostRing.Statement (.lut4 pergola) :=
  Sys2Proof.Laws.hostRing_none rfl

theorem Sys2Proof.Laws.HostRing.eltwise (pergola : Nat) :
    Sys2Proof.Laws.HostRing.Statement (.eltwise pergola) :=
  Sys2Proof.Laws.hostRing_none rfl

theorem Sys2Proof.Laws.HostRing.pool (pergola : Nat) :
    Sys2Proof.Laws.HostRing.Statement (.pool pergola) :=
  Sys2Proof.Laws.hostRing_none rfl

theorem Sys2Proof.Laws.HostRing.boxdec (pergola : Nat) :
    Sys2Proof.Laws.HostRing.Statement (.boxdec pergola) :=
  Sys2Proof.Laws.hostRing_none rfl

theorem Sys2Proof.Laws.HostRing.nms (pergola : Nat) :
    Sys2Proof.Laws.HostRing.Statement (.nms pergola) :=
  Sys2Proof.Laws.hostRing_none rfl

theorem Sys2Proof.Laws.HostRing.softmax (pergola : Nat) :
    Sys2Proof.Laws.HostRing.Statement (.softmax pergola) :=
  Sys2Proof.Laws.hostRing_none rfl

theorem Sys2Proof.Laws.HostRing.argmax (pergola : Nat) :
    Sys2Proof.Laws.HostRing.Statement (.argmax pergola) :=
  Sys2Proof.Laws.hostRing_none rfl

theorem Sys2Proof.Laws.HostRing.copy (mover : Nat) :
    Sys2Proof.Laws.HostRing.Statement (.copy mover) :=
  Sys2Proof.Laws.hostRing_none rfl

theorem Sys2Proof.Laws.HostRing.fetchAhead (mover : Nat) :
    Sys2Proof.Laws.HostRing.Statement (.fetchAhead mover) :=
  Sys2Proof.Laws.hostRing_none rfl

theorem Sys2Proof.Laws.HostRing.pageFetch (mover : Nat) :
    Sys2Proof.Laws.HostRing.Statement (.pageFetch mover) :=
  Sys2Proof.Laws.hostRing_none rfl

theorem Sys2Proof.Laws.HostRing.steer (topiary : Nat) :
    Sys2Proof.Laws.HostRing.Statement (.steer topiary) :=
  Sys2Proof.Laws.hostRing_none rfl

theorem Sys2Proof.Laws.HostRing.gather  :
    Sys2Proof.Laws.HostRing.Statement (.gather) :=
  Sys2Proof.Laws.hostRing_none rfl

theorem Sys2Proof.Laws.HostRing.assoc  :
    Sys2Proof.Laws.HostRing.Statement (.assoc) :=
  Sys2Proof.Laws.hostRing_none rfl

theorem Sys2Proof.Laws.HostRing.update  :
    Sys2Proof.Laws.HostRing.Statement (.update) :=
  Sys2Proof.Laws.hostRing_none rfl

theorem Sys2Proof.Laws.HostRing.append  :
    Sys2Proof.Laws.HostRing.Statement (.append) :=
  Sys2Proof.Laws.hostRing_none rfl

theorem Sys2Proof.Laws.HostRing.alist  :
    Sys2Proof.Laws.HostRing.Statement (.alist) :=
  Sys2Proof.Laws.hostRing_none rfl

theorem Sys2Proof.Laws.HostRing.pinLevel  :
    Sys2Proof.Laws.HostRing.Statement (.pinLevel) :=
  Sys2Proof.Laws.hostRing_none rfl

theorem Sys2Proof.Laws.HostRing.pinPulse  :
    Sys2Proof.Laws.HostRing.Statement (.pinPulse) :=
  Sys2Proof.Laws.hostRing_none rfl

theorem Sys2Proof.Laws.HostRing.strobeStart  :
    Sys2Proof.Laws.HostRing.Statement (.strobeStart) :=
  Sys2Proof.Laws.hostRing_none rfl

theorem Sys2Proof.Laws.HostRing.strobeStop  :
    Sys2Proof.Laws.HostRing.Statement (.strobeStop) :=
  Sys2Proof.Laws.hostRing_none rfl

theorem Sys2Proof.Laws.HostRing.reflexArm  :
    Sys2Proof.Laws.HostRing.Statement (.reflexArm) :=
  Sys2Proof.Laws.hostRing_none rfl

theorem Sys2Proof.Laws.HostRing.digest  :
    Sys2Proof.Laws.HostRing.Statement (.digest) :=
  Sys2Proof.Laws.hostRing_none rfl

theorem Sys2Proof.Laws.HostRing.trace  :
    Sys2Proof.Laws.HostRing.Statement (.trace) :=
  Sys2Proof.Laws.hostRing_none rfl

theorem Sys2Proof.Laws.HostRing.opComplete (lane : Nat) :
    Sys2Proof.Laws.HostRing.Statement (.opComplete lane) :=
  Sys2Proof.Laws.hostRing_none rfl

theorem Sys2Proof.Laws.HostRing.gateWatchdog (lane : Nat) :
    Sys2Proof.Laws.HostRing.Statement (.gateWatchdog lane) :=
  Sys2Proof.Laws.hostRing_none rfl

theorem Sys2Proof.Laws.HostRing.scoreRestart  :
    Sys2Proof.Laws.HostRing.Statement (.scoreRestart) :=
  Sys2Proof.Laws.hostRing_none rfl

theorem Sys2Proof.Laws.HostRing.demandFill (page : Nat) :
    Sys2Proof.Laws.HostRing.Statement (.demandFill page) :=
  Sys2Proof.Laws.hostRing_none rfl

theorem Sys2Proof.Laws.HostRing.pageFillComplete (page : Nat) (ok : Bool) :
    Sys2Proof.Laws.HostRing.Statement (.pageFillComplete page ok) :=
  Sys2Proof.Laws.hostRing_none rfl

theorem Sys2Proof.Laws.HostRing.pageSpill  :
    Sys2Proof.Laws.HostRing.Statement (.pageSpill) :=
  Sys2Proof.Laws.hostRing_none rfl

theorem Sys2Proof.Laws.HostRing.pageSpillComplete (page : Nat) (ok : Bool) :
    Sys2Proof.Laws.HostRing.Statement (.pageSpillComplete page ok) :=
  Sys2Proof.Laws.hostRing_none rfl

theorem Sys2Proof.Laws.HostRing.promptEncoded (slot : Nat) :
    Sys2Proof.Laws.HostRing.Statement (.promptEncoded slot) :=
  Sys2Proof.Laws.hostRing_none rfl

theorem Sys2Proof.Laws.HostRing.slowPathPacket (port : Nat) (kind : SlowKind) :
    Sys2Proof.Laws.HostRing.Statement (.slowPathPacket port kind) :=
  Sys2Proof.Laws.hostRing_none rfl

theorem Sys2Proof.Laws.HostRing.rtpPacket (p : RtpPacket) :
    Sys2Proof.Laws.HostRing.Statement (.rtpPacket p) :=
  Sys2Proof.Laws.hostRing_none rfl

theorem Sys2Proof.Laws.HostRing.reorderWindowExpiry (stream : Nat) :
    Sys2Proof.Laws.HostRing.Statement (.reorderWindowExpiry stream) :=
  Sys2Proof.Laws.hostRing_none rfl

theorem Sys2Proof.Laws.HostRing.frameRelease (stream : Nat) :
    Sys2Proof.Laws.HostRing.Statement (.frameRelease stream) :=
  Sys2Proof.Laws.hostRing_none rfl

theorem Sys2Proof.Laws.HostRing.rtspResponse (stream : Nat) (r : RtspResponse) :
    Sys2Proof.Laws.HostRing.Statement (.rtspResponse stream r) :=
  Sys2Proof.Laws.hostRing_none rfl

theorem Sys2Proof.Laws.HostRing.rtspKeepalive (stream : Nat) :
    Sys2Proof.Laws.HostRing.Statement (.rtspKeepalive stream) :=
  Sys2Proof.Laws.hostRing_none rfl

theorem Sys2Proof.Laws.HostRing.sourceLost (stream : Nat) (cause : LostCause) :
    Sys2Proof.Laws.HostRing.Statement (.sourceLost stream cause) :=
  Sys2Proof.Laws.hostRing_none rfl

theorem Sys2Proof.Laws.HostRing.reconnect (stream : Nat) :
    Sys2Proof.Laws.HostRing.Statement (.reconnect stream) :=
  Sys2Proof.Laws.hostRing_none rfl

theorem Sys2Proof.Laws.HostRing.multicastReport (stream : Nat) :
    Sys2Proof.Laws.HostRing.Statement (.multicastReport stream) :=
  Sys2Proof.Laws.hostRing_none rfl

theorem Sys2Proof.Laws.HostRing.rtcpReport (stream : Nat) :
    Sys2Proof.Laws.HostRing.Statement (.rtcpReport stream) :=
  Sys2Proof.Laws.hostRing_none rfl

theorem Sys2Proof.Laws.HostRing.frameStartPacket (port channel number stamp : Nat) :
    Sys2Proof.Laws.HostRing.Statement (.frameStartPacket port channel number stamp) :=
  Sys2Proof.Laws.hostRing_none rfl

theorem Sys2Proof.Laws.HostRing.linePacket (port channel dataType : Nat) (payload : List Byte) (headerOk crcOk : Bool) (stamp : Nat) :
    Sys2Proof.Laws.HostRing.Statement (.linePacket port channel dataType payload headerOk crcOk stamp) :=
  Sys2Proof.Laws.hostRing_none rfl

theorem Sys2Proof.Laws.HostRing.frameEndPacket (port channel number : Nat) :
    Sys2Proof.Laws.HostRing.Statement (.frameEndPacket port channel number) :=
  Sys2Proof.Laws.hostRing_none rfl

theorem Sys2Proof.Laws.HostRing.dphySyncLoss (port : Nat) :
    Sys2Proof.Laws.HostRing.Statement (.dphySyncLoss port) :=
  Sys2Proof.Laws.hostRing_none rfl

theorem Sys2Proof.Laws.HostRing.pictureDecodeStart (fountain : Nat) (facts : PictureFacts) :
    Sys2Proof.Laws.HostRing.Statement (.pictureDecodeStart fountain facts) :=
  Sys2Proof.Laws.hostRing_none rfl

theorem Sys2Proof.Laws.HostRing.pictureDecodeComplete (fountain : Nat) :
    Sys2Proof.Laws.HostRing.Statement (.pictureDecodeComplete fountain) :=
  Sys2Proof.Laws.hostRing_none rfl

theorem Sys2Proof.Laws.HostRing.fountainWatchdog (fountain : Nat) :
    Sys2Proof.Laws.HostRing.Statement (.fountainWatchdog fountain) :=
  Sys2Proof.Laws.hostRing_none rfl

theorem Sys2Proof.Laws.HostRing.clipPictureEncode (session stamp : Nat) (damaged concealed : Bool) (rowBits : List Nat) :
    Sys2Proof.Laws.HostRing.Statement (.clipPictureEncode session stamp damaged concealed rowBits) :=
  Sys2Proof.Laws.hostRing_none rfl

theorem Sys2Proof.Laws.HostRing.topiaryTake (topiary : Nat) :
    Sys2Proof.Laws.HostRing.Statement (.topiaryTake topiary) :=
  Sys2Proof.Laws.hostRing_none rfl

theorem Sys2Proof.Laws.HostRing.slotGrant (topiary : Nat) :
    Sys2Proof.Laws.HostRing.Statement (.slotGrant topiary) :=
  Sys2Proof.Laws.hostRing_none rfl

theorem Sys2Proof.Laws.HostRing.slotWriteComplete (topiary : Nat) :
    Sys2Proof.Laws.HostRing.Statement (.slotWriteComplete topiary) :=
  Sys2Proof.Laws.hostRing_none rfl

theorem Sys2Proof.Laws.HostRing.trainingJobStart  :
    Sys2Proof.Laws.HostRing.Statement (.trainingJobStart) :=
  Sys2Proof.Laws.hostRing_none rfl

theorem Sys2Proof.Laws.HostRing.trainingJobComplete  :
    Sys2Proof.Laws.HostRing.Statement (.trainingJobComplete) :=
  Sys2Proof.Laws.hostRing_none rfl

theorem Sys2Proof.Laws.HostRing.recordForm (r : RecordForming) :
    Sys2Proof.Laws.HostRing.Statement (.recordForm r) :=
  Sys2Proof.Laws.hostRing_none rfl

theorem Sys2Proof.Laws.HostRing.recordEmit (stream : Nat) :
    Sys2Proof.Laws.HostRing.Statement (.recordEmit stream) :=
  Sys2Proof.Laws.hostRing_none rfl

theorem Sys2Proof.Laws.HostRing.pinNotice  :
    Sys2Proof.Laws.HostRing.Statement (.pinNotice) :=
  Sys2Proof.Laws.hostRing_none rfl

theorem Sys2Proof.Laws.HostRing.cacheAccess (addr : Nat) (write full poisoned : Bool) (cls : ReqClass) :
    Sys2Proof.Laws.HostRing.Statement (.cacheAccess addr write full poisoned cls) :=
  Sys2Proof.Laws.hostRing_none rfl

theorem Sys2Proof.Laws.HostRing.dramRequest (channel : Nat) (linkError : Nat) :
    Sys2Proof.Laws.HostRing.Statement (.dramRequest channel linkError) :=
  Sys2Proof.Laws.hostRing_none rfl

theorem Sys2Proof.Laws.HostRing.beRequestPromote (channel : Nat) :
    Sys2Proof.Laws.HostRing.Statement (.beRequestPromote channel) :=
  Sys2Proof.Laws.hostRing_none rfl

theorem Sys2Proof.Laws.HostRing.refreshInterval (channel : Nat) :
    Sys2Proof.Laws.HostRing.Statement (.refreshInterval channel) :=
  Sys2Proof.Laws.hostRing_none rfl

theorem Sys2Proof.Laws.HostRing.refreshIssue (channel : Nat) :
    Sys2Proof.Laws.HostRing.Statement (.refreshIssue channel) :=
  Sys2Proof.Laws.hostRing_none rfl

theorem Sys2Proof.Laws.HostRing.dramTempPoll (hot : List Bool) :
    Sys2Proof.Laws.HostRing.Statement (.dramTempPoll hot) :=
  Sys2Proof.Laws.hostRing_none rfl

theorem Sys2Proof.Laws.HostRing.dramEcsPoll (counts : List Nat) :
    Sys2Proof.Laws.HostRing.Statement (.dramEcsPoll counts) :=
  Sys2Proof.Laws.hostRing_none rfl

theorem Sys2Proof.Laws.HostRing.wckTrack (counts : List Nat) :
    Sys2Proof.Laws.HostRing.Statement (.wckTrack counts) :=
  Sys2Proof.Laws.hostRing_none rfl

theorem Sys2Proof.Laws.HostRing.scrub (addr : Nat) (flipped : Nat) :
    Sys2Proof.Laws.HostRing.Statement (.scrub addr flipped) :=
  Sys2Proof.Laws.hostRing_none rfl

theorem Sys2Proof.Laws.HostRing.tlbInvalidate (base size : Nat) :
    Sys2Proof.Laws.HostRing.Statement (.tlbInvalidate base size) :=
  Sys2Proof.Laws.hostRing_none rfl

theorem Sys2Proof.Laws.HostRing.hostReadIssue (addr len : Nat) :
    Sys2Proof.Laws.HostRing.Statement (.hostReadIssue addr len) :=
  Sys2Proof.Laws.hostRing_none rfl

theorem Sys2Proof.Laws.HostRing.hostReadCompletion (tag : Nat) (error : Bool) (poisoned : Bool) :
    Sys2Proof.Laws.HostRing.Statement (.hostReadCompletion tag error poisoned) :=
  Sys2Proof.Laws.hostRing_none rfl

theorem Sys2Proof.Laws.HostRing.completionTimeout (tag : Nat) :
    Sys2Proof.Laws.HostRing.Statement (.completionTimeout tag) :=
  Sys2Proof.Laws.hostRing_none rfl

theorem Sys2Proof.Laws.HostRing.alloc (pool account n : Nat) (reserve : Bool) (tail : Nat) :
    Sys2Proof.Laws.HostRing.Statement (.alloc pool account n reserve tail) :=
  Sys2Proof.Laws.hostRing_none rfl

theorem Sys2Proof.Laws.HostRing.reserveAllocResume (pool : Nat) :
    Sys2Proof.Laws.HostRing.Statement (.reserveAllocResume pool) :=
  Sys2Proof.Laws.hostRing_none rfl

theorem Sys2Proof.Laws.HostRing.retain (index : Nat) :
    Sys2Proof.Laws.HostRing.Statement (.retain index) :=
  Sys2Proof.Laws.hostRing_none rfl

theorem Sys2Proof.Laws.HostRing.release (index : Nat) :
    Sys2Proof.Laws.HostRing.Statement (.release index) :=
  Sys2Proof.Laws.hostRing_none rfl

theorem Sys2Proof.Laws.HostRing.releaseChain (head : Nat) :
    Sys2Proof.Laws.HostRing.Statement (.releaseChain head) :=
  Sys2Proof.Laws.hostRing_none rfl

theorem Sys2Proof.Laws.HostRing.censusPass (pool : Nat) :
    Sys2Proof.Laws.HostRing.Statement (.censusPass pool) :=
  Sys2Proof.Laws.hostRing_none rfl

theorem Sys2Proof.Laws.HostRing.lockAcquire (lock owner : Nat) :
    Sys2Proof.Laws.HostRing.Statement (.lockAcquire lock owner) :=
  Sys2Proof.Laws.hostRing_none rfl

theorem Sys2Proof.Laws.HostRing.lockRelease (lock owner : Nat) :
    Sys2Proof.Laws.HostRing.Statement (.lockRelease lock owner) :=
  Sys2Proof.Laws.hostRing_none rfl

theorem Sys2Proof.Laws.HostRing.errorReport (status island unit stream arg0 arg1 : Nat) (torn poison : Bool) :
    Sys2Proof.Laws.HostRing.Statement (.errorReport status island unit stream arg0 arg1 torn poison) :=
  Sys2Proof.Laws.hostRing_none rfl

theorem Sys2Proof.Laws.HostRing.coalesceFlush (island unit : Nat) :
    Sys2Proof.Laws.HostRing.Statement (.coalesceFlush island unit) :=
  Sys2Proof.Laws.hostRing_none rfl

theorem Sys2Proof.Laws.HostRing.parityFault (island unit register : Nat) :
    Sys2Proof.Laws.HostRing.Statement (.parityFault island unit register) :=
  Sys2Proof.Laws.hostRing_none rfl

theorem Sys2Proof.Laws.HostRing.partialReset (island cause : Nat) :
    Sys2Proof.Laws.HostRing.Statement (.partialReset island cause) :=
  Sys2Proof.Laws.hostRing_none rfl

theorem Sys2Proof.Laws.HostRing.islandUnfence (selfTestPassed : Bool) :
    Sys2Proof.Laws.HostRing.Statement (.islandUnfence selfTestPassed) :=
  Sys2Proof.Laws.hostRing_none rfl

theorem Sys2Proof.Laws.HostRing.configRequest (write : Bool) (offset : Nat) (value : BitVec 32) (byteEnables : BitVec 4) :
    Sys2Proof.Laws.HostRing.Statement (.configRequest write offset value byteEnables) :=
  Sys2Proof.Laws.hostRing_none rfl

theorem Sys2Proof.Laws.HostRing.msixEnable (on functionMask : Bool) :
    Sys2Proof.Laws.HostRing.Statement (.msixEnable on functionMask) :=
  Sys2Proof.Laws.hostRing_none rfl

theorem Sys2Proof.Laws.HostRing.vectorUnmask (vector : Nat) :
    Sys2Proof.Laws.HostRing.Statement (.vectorUnmask vector) :=
  Sys2Proof.Laws.hostRing_none rfl

theorem Sys2Proof.Laws.HostRing.powerStateChange (d3hot : Bool) :
    Sys2Proof.Laws.HostRing.Statement (.powerStateChange d3hot) :=
  Sys2Proof.Laws.hostRing_none rfl

theorem Sys2Proof.Laws.HostRing.registerWrite (offset : Nat) (value : BitVec 32) (byteEnables : BitVec 4) :
    Sys2Proof.Laws.HostRing.Statement (.registerWrite offset value byteEnables) :=
  Sys2Proof.Laws.hostRing_none rfl

theorem Sys2Proof.Laws.HostRing.apertureAccess (write : Bool) (offset : Nat) (bytes : List Byte) :
    Sys2Proof.Laws.HostRing.Statement (.apertureAccess write offset bytes) :=
  Sys2Proof.Laws.hostRing_none rfl

theorem Sys2Proof.Laws.HostRing.keylockWrite (dia : Bool) (value : BitVec 32) :
    Sys2Proof.Laws.HostRing.Statement (.keylockWrite dia value) :=
  Sys2Proof.Laws.hostRing_none rfl

theorem Sys2Proof.Laws.HostRing.keylockExpiry (dia : Bool) :
    Sys2Proof.Laws.HostRing.Statement (.keylockExpiry dia) :=
  Sys2Proof.Laws.hostRing_none rfl

theorem Sys2Proof.Laws.HostRing.sqDoorbell (q tail : Nat) :
    Sys2Proof.Laws.HostRing.Statement (.sqDoorbell q tail) :=
  Sys2Proof.Laws.hostRing_none rfl

theorem Sys2Proof.Laws.HostRing.cqDoorbell (head : Nat) :
    Sys2Proof.Laws.HostRing.Statement (.cqDoorbell head) :=
  Sys2Proof.Laws.hostRing_none rfl

theorem Sys2Proof.Laws.HostRing.drDoorbell (ring head : Nat) :
    Sys2Proof.Laws.HostRing.Statement (.drDoorbell ring head) :=
  Sys2Proof.Laws.hostRing_none rfl

theorem Sys2Proof.Laws.HostRing.ringEnable (value : BitVec 32) :
    Sys2Proof.Laws.HostRing.Statement (.ringEnable value) :=
  Sys2Proof.Laws.hostRing_none rfl

theorem Sys2Proof.Laws.HostRing.timNsRead (eightBytes : Bool) :
    Sys2Proof.Laws.HostRing.Statement (.timNsRead eightBytes) :=
  Sys2Proof.Laws.hostRing_none rfl

theorem Sys2Proof.Laws.HostRing.timSnap  :
    Sys2Proof.Laws.HostRing.Statement (.timSnap) :=
  Sys2Proof.Laws.hostRing_none rfl

theorem Sys2Proof.Laws.HostRing.errTailWrite (tail : Nat) :
    Sys2Proof.Laws.HostRing.Statement (.errTailWrite tail) :=
  Sys2Proof.Laws.hostRing_none rfl

theorem Sys2Proof.Laws.HostRing.islandResetGo (value : BitVec 32) :
    Sys2Proof.Laws.HostRing.Statement (.islandResetGo value) :=
  Sys2Proof.Laws.hostRing_none rfl

theorem Sys2Proof.Laws.HostRing.deviceResetGo (value : BitVec 32) :
    Sys2Proof.Laws.HostRing.Statement (.deviceResetGo value) :=
  Sys2Proof.Laws.hostRing_none rfl

theorem Sys2Proof.Laws.HostRing.diagWindowAccess (write : Bool) (offset : Nat) (value : BitVec 32) :
    Sys2Proof.Laws.HostRing.Statement (.diagWindowAccess write offset value) :=
  Sys2Proof.Laws.hostRing_none rfl

theorem Sys2Proof.Laws.HostRing.fundamentalReset  :
    Sys2Proof.Laws.HostRing.Statement (.fundamentalReset) :=
  Sys2Proof.Laws.hostRing_none rfl

theorem Sys2Proof.Laws.HostRing.hotReset  :
    Sys2Proof.Laws.HostRing.Statement (.hotReset) :=
  Sys2Proof.Laws.hostRing_none rfl

theorem Sys2Proof.Laws.HostRing.flr  :
    Sys2Proof.Laws.HostRing.Statement (.flr) :=
  Sys2Proof.Laws.hostRing_none rfl

theorem Sys2Proof.Laws.HostRing.pcieError (e : PcieError) :
    Sys2Proof.Laws.HostRing.Statement (.pcieError e) :=
  Sys2Proof.Laws.hostRing_none rfl

theorem Sys2Proof.Laws.HostRing.commandFetch  :
    Sys2Proof.Laws.HostRing.Statement (.commandFetch) :=
  Sys2Proof.Laws.hostRing_none rfl

theorem Sys2Proof.Laws.HostRing.commandComplete  :
    Sys2Proof.Laws.HostRing.Statement (.commandComplete) :=
  Sys2Proof.Laws.hostRing_none rfl

theorem Sys2Proof.Laws.HostRing.notice  :
    Sys2Proof.Laws.HostRing.Statement (.notice) :=
  Sys2Proof.Laws.hostRing_none rfl

theorem Sys2Proof.Laws.HostRing.cmdNop (q cid : Nat) :
    Sys2Proof.Laws.HostRing.Statement (.cmdNop q cid) :=
  Sys2Proof.Laws.hostRing_some rfl rfl

theorem Sys2Proof.Laws.HostRing.identify (q cid : Nat) :
    Sys2Proof.Laws.HostRing.Statement (.identify q cid) :=
  Sys2Proof.Laws.hostRing_some rfl rfl

theorem Sys2Proof.Laws.HostRing.hello (q cid : Nat) :
    Sys2Proof.Laws.HostRing.Statement (.hello q cid) :=
  Sys2Proof.Laws.hostRing_some rfl rfl

theorem Sys2Proof.Laws.HostRing.packageLoad (q cid : Nat) (pkg : Package) :
    Sys2Proof.Laws.HostRing.Statement (.packageLoad q cid pkg) := by
  intro k q' cid' r e
  cases e
  simp only [Sys2Proof.Instr.wellFormed, Bool.and_eq_true, decide_eq_true_eq] at k
  exact k.1

theorem Sys2Proof.Laws.HostRing.streamOpen (q cid : Nat) (sec : SourceSection) :
    Sys2Proof.Laws.HostRing.Statement (.streamOpen q cid sec) :=
  Sys2Proof.Laws.hostRing_some rfl rfl

theorem Sys2Proof.Laws.HostRing.streamClose (q cid : Nat) :
    Sys2Proof.Laws.HostRing.Statement (.streamClose q cid) :=
  Sys2Proof.Laws.hostRing_some rfl rfl

theorem Sys2Proof.Laws.HostRing.setDecodeMode (q cid : Nat) :
    Sys2Proof.Laws.HostRing.Statement (.setDecodeMode q cid) :=
  Sys2Proof.Laws.hostRing_some rfl rfl

theorem Sys2Proof.Laws.HostRing.setAnalyseConcealed (q cid : Nat) :
    Sys2Proof.Laws.HostRing.Statement (.setAnalyseConcealed q cid) :=
  Sys2Proof.Laws.hostRing_some rfl rfl

theorem Sys2Proof.Laws.HostRing.setCaptureSet (q cid : Nat) (sec : SourceSection) :
    Sys2Proof.Laws.HostRing.Statement (.setCaptureSet q cid sec) :=
  Sys2Proof.Laws.hostRing_some rfl rfl

theorem Sys2Proof.Laws.HostRing.liftQuarantine (q cid : Nat) :
    Sys2Proof.Laws.HostRing.Statement (.liftQuarantine q cid) :=
  Sys2Proof.Laws.hostRing_some rfl rfl

theorem Sys2Proof.Laws.HostRing.setLinks (q cid : Nat) :
    Sys2Proof.Laws.HostRing.Statement (.setLinks q cid) :=
  Sys2Proof.Laws.hostRing_some rfl rfl

theorem Sys2Proof.Laws.HostRing.setAdaptationMode (q cid : Nat) :
    Sys2Proof.Laws.HostRing.Statement (.setAdaptationMode q cid) :=
  Sys2Proof.Laws.hostRing_some rfl rfl

theorem Sys2Proof.Laws.HostRing.streamStats (q cid : Nat) :
    Sys2Proof.Laws.HostRing.Statement (.streamStats q cid) :=
  Sys2Proof.Laws.hostRing_some rfl rfl

theorem Sys2Proof.Laws.HostRing.frameSubmit (q cid : Nat) :
    Sys2Proof.Laws.HostRing.Statement (.frameSubmit q cid) :=
  Sys2Proof.Laws.hostRing_some rfl rfl

theorem Sys2Proof.Laws.HostRing.subscribe (q cid : Nat) :
    Sys2Proof.Laws.HostRing.Statement (.subscribe q cid) :=
  Sys2Proof.Laws.hostRing_some rfl rfl

theorem Sys2Proof.Laws.HostRing.unsubscribe (q cid : Nat) :
    Sys2Proof.Laws.HostRing.Statement (.unsubscribe q cid) :=
  Sys2Proof.Laws.hostRing_some rfl rfl

theorem Sys2Proof.Laws.HostRing.promptSet (q cid : Nat) :
    Sys2Proof.Laws.HostRing.Statement (.promptSet q cid) :=
  Sys2Proof.Laws.hostRing_some rfl rfl

theorem Sys2Proof.Laws.HostRing.promptBind (q cid : Nat) :
    Sys2Proof.Laws.HostRing.Statement (.promptBind q cid) :=
  Sys2Proof.Laws.hostRing_some rfl rfl

theorem Sys2Proof.Laws.HostRing.contextSet (q cid : Nat) :
    Sys2Proof.Laws.HostRing.Statement (.contextSet q cid) :=
  Sys2Proof.Laws.hostRing_some rfl rfl

theorem Sys2Proof.Laws.HostRing.clipRequest (q cid : Nat) :
    Sys2Proof.Laws.HostRing.Statement (.clipRequest q cid) :=
  Sys2Proof.Laws.hostRing_some rfl rfl

theorem Sys2Proof.Laws.HostRing.clipCancel (q cid : Nat) :
    Sys2Proof.Laws.HostRing.Statement (.clipCancel q cid) :=
  Sys2Proof.Laws.hostRing_some rfl rfl

theorem Sys2Proof.Laws.HostRing.adaptAdopt (q cid : Nat) :
    Sys2Proof.Laws.HostRing.Statement (.adaptAdopt q cid) :=
  Sys2Proof.Laws.hostRing_some rfl rfl

theorem Sys2Proof.Laws.HostRing.timeConfig (q cid : Nat) (p : TimeParams) :
    Sys2Proof.Laws.HostRing.Statement (.timeConfig q cid p) :=
  Sys2Proof.Laws.hostRing_some rfl rfl

theorem Sys2Proof.Laws.HostRing.timeSet (q cid : Nat) :
    Sys2Proof.Laws.HostRing.Statement (.timeSet q cid) :=
  Sys2Proof.Laws.hostRing_some rfl rfl

theorem Sys2Proof.Laws.HostRing.pinConfig (q cid : Nat) (p : PinParams) :
    Sys2Proof.Laws.HostRing.Statement (.pinConfig q cid p) :=
  Sys2Proof.Laws.hostRing_some rfl rfl

theorem Sys2Proof.Laws.HostRing.hostPinLevel (q cid : Nat) :
    Sys2Proof.Laws.HostRing.Statement (.hostPinLevel q cid) :=
  Sys2Proof.Laws.hostRing_some rfl rfl

theorem Sys2Proof.Laws.HostRing.hostPinPulse (q cid : Nat) :
    Sys2Proof.Laws.HostRing.Statement (.hostPinPulse q cid) :=
  Sys2Proof.Laws.hostRing_some rfl rfl

theorem Sys2Proof.Laws.HostRing.hostStrobeStart (q cid : Nat) :
    Sys2Proof.Laws.HostRing.Statement (.hostStrobeStart q cid) :=
  Sys2Proof.Laws.hostRing_some rfl rfl

theorem Sys2Proof.Laws.HostRing.hostStrobeStop (q cid : Nat) :
    Sys2Proof.Laws.HostRing.Statement (.hostStrobeStop q cid) :=
  Sys2Proof.Laws.hostRing_some rfl rfl

theorem Sys2Proof.Laws.HostRing.reflexConfig (q cid : Nat) (p : ReflexParams) :
    Sys2Proof.Laws.HostRing.Statement (.reflexConfig q cid p) :=
  Sys2Proof.Laws.hostRing_some rfl rfl

theorem Sys2Proof.Laws.HostRing.netConfig (q cid : Nat) (p : NetParams) :
    Sys2Proof.Laws.HostRing.Statement (.netConfig q cid p) :=
  Sys2Proof.Laws.hostRing_some rfl rfl

theorem Sys2Proof.Laws.HostRing.setWayMasks (q cid : Nat) :
    Sys2Proof.Laws.HostRing.Statement (.setWayMasks q cid) :=
  Sys2Proof.Laws.hostRing_some rfl rfl

theorem Sys2Proof.Laws.HostRing.setColdTier (q cid : Nat) (base size : Nat) :
    Sys2Proof.Laws.HostRing.Statement (.setColdTier q cid base size) :=
  Sys2Proof.Laws.hostRing_some rfl rfl

theorem Sys2Proof.Laws.HostRing.setCensus (q cid : Nat) :
    Sys2Proof.Laws.HostRing.Statement (.setCensus q cid) :=
  Sys2Proof.Laws.hostRing_some rfl rfl

theorem Sys2Proof.Laws.HostRing.journalRead (q cid : Nat) :
    Sys2Proof.Laws.HostRing.Statement (.journalRead q cid) :=
  Sys2Proof.Laws.hostRing_some rfl rfl

theorem Sys2Proof.Laws.HostRing.stage (q cid : Nat) :
    Sys2Proof.Laws.HostRing.Statement (.stage q cid) :=
  Sys2Proof.Laws.hostRing_some rfl rfl

theorem Sys2Proof.Laws.HostRing.switch (q cid : Nat) :
    Sys2Proof.Laws.HostRing.Statement (.switch q cid) :=
  Sys2Proof.Laws.hostRing_some rfl rfl

theorem Sys2Proof.Laws.HostRing.updateResume  :
    Sys2Proof.Laws.HostRing.Statement (.updateResume) :=
  Sys2Proof.Laws.hostRing_none rfl

theorem Sys2Proof.Laws.HostRing.updateRevert  :
    Sys2Proof.Laws.HostRing.Statement (.updateRevert) :=
  Sys2Proof.Laws.hostRing_none rfl

theorem Sys2Proof.Laws.HostRing.commit (q cid : Nat) :
    Sys2Proof.Laws.HostRing.Statement (.commit q cid) :=
  Sys2Proof.Laws.hostRing_some rfl rfl

theorem Sys2Proof.Laws.HostRing.ledgerClear (q cid : Nat) :
    Sys2Proof.Laws.HostRing.Statement (.ledgerClear q cid) :=
  Sys2Proof.Laws.hostRing_some rfl rfl

theorem Sys2Proof.Laws.HostRing.ledgerSizes (q cid : Nat) :
    Sys2Proof.Laws.HostRing.Statement (.ledgerSizes q cid) :=
  Sys2Proof.Laws.hostRing_some rfl rfl

theorem Sys2Proof.Laws.HostRing.islandReset (q cid : Nat) :
    Sys2Proof.Laws.HostRing.Statement (.islandReset q cid) :=
  Sys2Proof.Laws.hostRing_some rfl rfl

theorem Sys2Proof.Laws.HostRing.linkTrainingComplete (link : Nat) (passed : Bool) (width : Nat) :
    Sys2Proof.Laws.HostRing.Statement (.linkTrainingComplete link passed width) :=
  Sys2Proof.Laws.hostRing_none rfl

theorem Sys2Proof.Laws.HostRing.linkSignalLoss (link : Nat) :
    Sys2Proof.Laws.HostRing.Statement (.linkSignalLoss link) :=
  Sys2Proof.Laws.hostRing_none rfl

theorem Sys2Proof.Laws.HostRing.flitReceive (link : Nat) (flit : List Byte) (fecOk : Bool) (stamp : Nat) :
    Sys2Proof.Laws.HostRing.Statement (.flitReceive link flit fecOk stamp) :=
  Sys2Proof.Laws.hostRing_none rfl

theorem Sys2Proof.Laws.HostRing.flitSlot (link : Nat) :
    Sys2Proof.Laws.HostRing.Statement (.flitSlot link) :=
  Sys2Proof.Laws.hostRing_none rfl

theorem Sys2Proof.Laws.HostRing.ackTimer (link : Nat) :
    Sys2Proof.Laws.HostRing.Statement (.ackTimer link) :=
  Sys2Proof.Laws.hostRing_none rfl

theorem Sys2Proof.Laws.HostRing.nakHoldoffExpiry (link : Nat) :
    Sys2Proof.Laws.HostRing.Statement (.nakHoldoffExpiry link) :=
  Sys2Proof.Laws.hostRing_none rfl

theorem Sys2Proof.Laws.HostRing.replayTimeout (link : Nat) :
    Sys2Proof.Laws.HostRing.Statement (.replayTimeout link) :=
  Sys2Proof.Laws.hostRing_none rfl

theorem Sys2Proof.Laws.HostRing.timeReqPeriod  :
    Sys2Proof.Laws.HostRing.Statement (.timeReqPeriod) :=
  Sys2Proof.Laws.hostRing_none rfl

theorem Sys2Proof.Laws.HostRing.timeReq (link : Nat) :
    Sys2Proof.Laws.HostRing.Statement (.timeReq link) :=
  Sys2Proof.Laws.hostRing_none rfl

theorem Sys2Proof.Laws.HostRing.timeResp (link : Nat) :
    Sys2Proof.Laws.HostRing.Statement (.timeResp link) :=
  Sys2Proof.Laws.hostRing_none rfl

theorem Sys2Proof.Laws.HostRing.epochAck (src pkgid status prompts : Nat) :
    Sys2Proof.Laws.HostRing.Statement (.epochAck src pkgid status prompts) :=
  Sys2Proof.Laws.hostRing_none rfl

theorem Sys2Proof.Laws.HostRing.epochPropose (pkgid epoch chips : Nat) :
    Sys2Proof.Laws.HostRing.Statement (.epochPropose pkgid epoch chips) :=
  Sys2Proof.Laws.hostRing_none rfl

theorem Sys2Proof.Laws.HostRing.epochTimeout  :
    Sys2Proof.Laws.HostRing.Statement (.epochTimeout) :=
  Sys2Proof.Laws.hostRing_none rfl

theorem Sys2Proof.Laws.HostRing.commitPeriod  :
    Sys2Proof.Laws.HostRing.Statement (.commitPeriod) :=
  Sys2Proof.Laws.hostRing_none rfl

theorem Sys2Proof.Laws.HostRing.commitMessage (src : Nat) (entries : List (Nat × Nat × Bool × Nat)) :
    Sys2Proof.Laws.HostRing.Statement (.commitMessage src entries) :=
  Sys2Proof.Laws.hostRing_none rfl

theorem Sys2Proof.Laws.HostRing.peerStatePeriod  :
    Sys2Proof.Laws.HostRing.Statement (.peerStatePeriod) :=
  Sys2Proof.Laws.hostRing_none rfl

theorem Sys2Proof.Laws.HostRing.peerState (src : Nat) (members : Nat) (updating : Bool) (links : List (Nat × Nat)) :
    Sys2Proof.Laws.HostRing.Statement (.peerState src members updating links) :=
  Sys2Proof.Laws.hostRing_none rfl

theorem Sys2Proof.Laws.HostRing.peerLossTimeout (chip : Nat) :
    Sys2Proof.Laws.HostRing.Statement (.peerLossTimeout chip) :=
  Sys2Proof.Laws.hostRing_none rfl

theorem Sys2Proof.Laws.HostRing.gallery (src srcStream stream : Nat) (ended : Bool) (trackId stamp : Nat) (box : List Nat) (gid : BitVec 64) (tag : BitVec 32) (embedding : List Byte) :
    Sys2Proof.Laws.HostRing.Statement (.gallery src srcStream stream ended trackId stamp box gid tag embedding) :=
  Sys2Proof.Laws.hostRing_none rfl

theorem Sys2Proof.Laws.HostRing.relay (src dst channel : Nat) (message : List Byte) :
    Sys2Proof.Laws.HostRing.Statement (.relay src dst channel message) :=
  Sys2Proof.Laws.hostRing_none rfl

theorem Sys2Proof.Laws.HostRing.relayRefuse (src dst type mnum : Nat) :
    Sys2Proof.Laws.HostRing.Statement (.relayRefuse src dst type mnum) :=
  Sys2Proof.Laws.hostRing_none rfl

theorem Sys2Proof.Laws.HostRing.relayRetry (dst : Nat) :
    Sys2Proof.Laws.HostRing.Statement (.relayRetry dst) :=
  Sys2Proof.Laws.hostRing_none rfl

theorem Sys2Proof.Laws.HostRing.pwrfail (asserted : Bool) (lowNs : Nat) :
    Sys2Proof.Laws.HostRing.Statement (.pwrfail asserted lowNs) :=
  Sys2Proof.Laws.hostRing_none rfl

theorem Sys2Proof.Laws.HostRing.maingoodFall  :
    Sys2Proof.Laws.HostRing.Statement (.maingoodFall) :=
  Sys2Proof.Laws.hostRing_none rfl

theorem Sys2Proof.Laws.HostRing.lastBreathEnd  :
    Sys2Proof.Laws.HostRing.Statement (.lastBreathEnd) :=
  Sys2Proof.Laws.hostRing_none rfl

theorem Sys2Proof.Laws.HostRing.boot (facts : BootFacts) :
    Sys2Proof.Laws.HostRing.Statement (.boot facts) :=
  Sys2Proof.Laws.hostRing_none rfl

theorem Sys2Proof.Laws.HostRing.avsAdjust (target : Nat) (ack : Bool) :
    Sys2Proof.Laws.HostRing.Statement (.avsAdjust target ack) :=
  Sys2Proof.Laws.hostRing_none rfl

theorem Sys2Proof.Laws.HostRing.junctionHot (island tj : Nat) :
    Sys2Proof.Laws.HostRing.Statement (.junctionHot island tj) :=
  Sys2Proof.Laws.hostRing_none rfl

theorem Sys2Proof.Laws.HostRing.thermalTrip (island tj : Nat) :
    Sys2Proof.Laws.HostRing.Statement (.thermalTrip island tj) :=
  Sys2Proof.Laws.hostRing_none rfl

theorem Sys2Proof.Laws.HostRing.timerefLoss (stoppedNs : Nat) :
    Sys2Proof.Laws.HostRing.Statement (.timerefLoss stoppedNs) :=
  Sys2Proof.Laws.hostRing_none rfl

theorem Sys2Proof.Laws.HostRing.unitGate (island : Nat) :
    Sys2Proof.Laws.HostRing.Statement (.unitGate island) :=
  Sys2Proof.Laws.hostRing_none rfl

theorem Sys2Proof.Laws.HostRing.smbReadTj  :
    Sys2Proof.Laws.HostRing.Statement (.smbReadTj) :=
  Sys2Proof.Laws.hostRing_none rfl

theorem Sys2Proof.Laws.HostRing.smbReadTjIsland  :
    Sys2Proof.Laws.HostRing.Statement (.smbReadTjIsland) :=
  Sys2Proof.Laws.hostRing_none rfl

theorem Sys2Proof.Laws.HostRing.smbReadStatus  :
    Sys2Proof.Laws.HostRing.Statement (.smbReadStatus) :=
  Sys2Proof.Laws.hostRing_none rfl

theorem Sys2Proof.Laws.HostRing.smbReadBootstep  :
    Sys2Proof.Laws.HostRing.Statement (.smbReadBootstep) :=
  Sys2Proof.Laws.hostRing_none rfl

theorem Sys2Proof.Laws.HostRing.smbReadStepping  :
    Sys2Proof.Laws.HostRing.Statement (.smbReadStepping) :=
  Sys2Proof.Laws.hostRing_none rfl

theorem Sys2Proof.Laws.HostRing.smbAlertResponse  :
    Sys2Proof.Laws.HostRing.Statement (.smbAlertResponse) :=
  Sys2Proof.Laws.hostRing_none rfl

theorem Sys2Proof.Laws.HostRing.smbAlertRepeat  :
    Sys2Proof.Laws.HostRing.Statement (.smbAlertRepeat) :=
  Sys2Proof.Laws.hostRing_none rfl

theorem Sys2Proof.Laws.HostRing.bypass  :
    Sys2Proof.Laws.HostRing.Statement (.bypass) :=
  Sys2Proof.Laws.hostRing_none rfl

theorem Sys2Proof.Laws.HostRing.idcode  :
    Sys2Proof.Laws.HostRing.Statement (.idcode) :=
  Sys2Proof.Laws.hostRing_none rfl

theorem Sys2Proof.Laws.HostRing.samplePreload (cells : List Bool) :
    Sys2Proof.Laws.HostRing.Statement (.samplePreload cells) :=
  Sys2Proof.Laws.hostRing_none rfl

theorem Sys2Proof.Laws.HostRing.extest  :
    Sys2Proof.Laws.HostRing.Statement (.extest) :=
  Sys2Proof.Laws.hostRing_none rfl

theorem Sys2Proof.Laws.HostRing.tapReset  :
    Sys2Proof.Laws.HostRing.Statement (.tapReset) :=
  Sys2Proof.Laws.hostRing_none rfl

theorem Sys2Proof.Laws.HostRing.timerefReturn  :
    Sys2Proof.Laws.HostRing.Statement (.timerefReturn) :=
  Sys2Proof.Laws.hostRing_none rfl

theorem Sys2Proof.Laws.HostRing.linkSignalReturn (link : Nat) :
    Sys2Proof.Laws.HostRing.Statement (.linkSignalReturn link) :=
  Sys2Proof.Laws.hostRing_none rfl

theorem Sys2Proof.Laws.HostRing.alwaysOnDomainLoss  :
    Sys2Proof.Laws.HostRing.Statement (.alwaysOnDomainLoss) :=
  Sys2Proof.Laws.hostRing_none rfl

theorem Sys2Proof.Laws.HostRing.alwaysOnPowerUp  :
    Sys2Proof.Laws.HostRing.Statement (.alwaysOnPowerUp) :=
  Sys2Proof.Laws.hostRing_none rfl

theorem Sys2Proof.Laws.HostRing.interleavedRtpSegment (stream : Nat) (p : RtpPacket) :
    Sys2Proof.Laws.HostRing.Statement (.interleavedRtpSegment stream p) :=
  Sys2Proof.Laws.hostRing_none rfl

theorem Sys2Proof.Laws.HostRing.smbUnlistedCommand (code : Nat) :
    Sys2Proof.Laws.HostRing.Statement (.smbUnlistedCommand code) :=
  Sys2Proof.Laws.hostRing_none rfl

theorem Sys2Proof.Laws.HostRing.perstNDeassert  :
    Sys2Proof.Laws.HostRing.Statement (.perstNDeassert) :=
  Sys2Proof.Laws.hostRing_none rfl
end

