-- ==== Sys2Proof/Tests/Slice0.lean ====
section
/-! SUPPORT. Tests on small states and the witnesses of the statements: each shows that what a statement asks of a state and of its
operands is met, at the boundaries where its clauses meet. -/

set_option Elab.async false

open Sys2Proof Sys2Proof.Machine

namespace Sys2Proof.Wit

/-- A state in which the device runs. -/
def running : State := { State.reset with power := { Power.reset with running := true, maingood := true } }

/-- The same with Bus Master and Memory Space set, the link up and configured. -/
def onHost : State :=
  { running with gate := { running.gate with cfg := tabPut 4 6#32 running.gate.cfg, linkUp := true, configReady := true } }

/-- A host command of ring 0 and tag 7 with its inline arguments. -/
def cmdOf (opc : Nat) (args : List Byte) : HostCmd :=
  { q := 0, cid := 7, opc := opc, flags := 0, plen := 0x150, pbuf := 0x1000, rbuf := 0x8000, rlen := 1024, reservedZero := true
    args := padTo 32 args, poisoned := false, sqHead := 1, stamp := 0, started := false, done := none }

/-- A state in which one host command has been fetched within a session. -/
def hosting (c : HostCmd) (s : State) : State := { s with mbx := { s.mbx with cmds := [c], session := some 0 } }

/-- `Accepts` as a computation. -/
def acceptsB (i : Instr) (c : HostCmd) (s : State) : Bool :=
  match hostRow i with
  | some (q, cid, r) =>
    decide (q < 4) && decide (cid < 65536) && (s.mbx.cmds.find? fun c => c.q == q && c.cid == cid && !c.started) == some c
      && c.opc == r.opc && subCode c == r.sub && mayStart s c && quinbuarRuns s && checkCommand s r c == 0
  | none => false

theorem accepts_of {i : Instr} {c : HostCmd} {s : State} (h : acceptsB i c s = true) : Accepts i c s := by
  unfold acceptsB at h
  split at h
  · rename_i q cid r e
    simp only [Bool.and_eq_true, decide_eq_true_eq, beq_iff_eq] at h
    exact ⟨q, cid, r, e, ⟨h.1.1.1.1.1.1.1, h.1.1.1.1.1.1.2, h.1.1.1.1.1.2, h.1.1.1.1.2, h.1.1.1.2, h.1.1.2, h.1.2⟩, h.2⟩
  · cases h

/-- A STREAM_OPEN block of an RTP stream, and the stream that it opens. -/
def block0 : OpenBlock :=
  { openBlock (padTo 0x48 []) with
    source := 1, maxW := 640, maxH := 480, depth := 8, dpb := 2, cmax := 1, fullN := 1, period := 40000000, peakPix := 9216000
    peakBits := 4000000 }
def section0 : SourceSection := .rtpFlow 0 none [10, 0, 0, 2] 5004 none none 96 false
def stream0 : Stream := freshStream running block0 section0 none
def withStream (n : Nat) (x : Stream) (s : State) : State := { s with streams := s.streams.set n (some x) }

/-- Bytes with fields (offset, length, value) written over zeros. -/
def fill (size : Nat) (fields : List (Nat × Nat × Nat)) : List Byte :=
  fields.foldl (fun b f => b.take f.1 ++ leBytes f.2.1 f.2.2 ++ b.drop (f.1 + f.2.1)) (padTo size [])

/-- The geometry entry of batch id 0: streaming, BE, one channel, 8 slots of 16 × 16. -/
def geometry0 : List Byte :=
  fill 64 [(1, 1, 0), (2, 1, 1), (3, 1, 1), (4, 2, 8), (6, 2, 16), (8, 2, 16), (0x10, 8, 0x4000000), (0x18, 8, 0x4010000)
    , (0x20, 8, 0x4020000), (0x28, 8, 0x4021000), (0x30, 4, 4096)]

/-- A package around one image. -/
def pkgOf (img : List Byte) : Package :=
  { pkgid := 5, images := [img], layers := [], geometry := geometry0, filters := [], bankMap := [], dictionary := []
    weights := [], kvLayers := 1, kvWidth := 256, kvSigned := false, recordLayer := 0, adapts := false, adaptSlots := 0
    adaptLayers := [], weightBlock := 0, wordBatch := [], batchNms := 0, detectionList := 0, detectionPitch := 0
    detectionLength := 0, detectionToken := 0, trackLength := 0 }
def withPkg (s : State) : State := { s with pkg := some (pkgOf []) }
/-- The same with a pool of 1,000 cells in the real-time region. -/
def pool0 : Pool :=
  { Pool.reset with
    base := 0x1C00000000, size := 1000, ringBase := 0x1000000, ownerBase := 0x1100000, fresh := 1
    head := (List.range 128).map (· + 1), ringHead := 128 }
def withPool (s : State) : State := { s with pools := s.pools.set 0 pool0 }

/-- The CRC with its register evaluated at each byte. -/
def crcAt : List Byte → BitVec 32 → BitVec 32
  | [], c => c
  | b :: bs, c => if c.toNat = 2 ^ 40 then 0 else crcAt bs (crc32Byte c b)
theorem crcAt_eq : ∀ (bs : List Byte) (c : BitVec 32), crcAt bs c = bs.foldl crc32Byte c
  | [], _ => rfl
  | b :: bs, c => by
    have := c.isLt
    rw [crcAt, if_neg (by omega), crcAt_eq bs]
    rfl

/-- The CRC of a flit holds when its register does. -/
theorem flitOk_of {b : List Byte} (h : (BitVec.ofNat 32 (field b 0xFC 4) == ~~~ crcAt (b.take 0xFC) 0xFFFFFFFF#32) = true) :
    flitOk b = true := by
  rw [crcAt_eq] at h
  exact h

-- BeaconAlignsReplicas
theorem wit_beacon : beaconDue { running with band := { running.band with count := 1000 * 2 ^ 32 } } = true
    ∧ (running.islands[0]?).isSome = true := by decide

-- TimeEventsActOnTheBandstand
def onOsc : State := { running with band := { running.band with onPll := false } }
def lateTrellis : State :=
  { running with band := { running.band with source := .trellis, tstate := .locked, steady := 4000000 } }
theorem wit_timeEvents :
    running.power.running = true ∧ running.band.onPll = true ∧ running.power.timeref = true
      ∧ { running with power := { running.power with timeref := false } }.power.timeref = false
      ∧ onOsc.band.onPll = false ∧ onOsc.power.maingood = true ∧ onOsc.power.timeref = true
      ∧ timeFrozen lateTrellis = false ∧ lateTrellis.band.lastSample + 4000000 ≤ lateTrellis.band.steady
      ∧ lateTrellis.band.tstate = .locked ∧ onOsc.band.tstate = .free
      ∧ { onOsc.band with tstate := .locked, errBase := some 5 }.tstate ≠ .free := by decide

-- ServoDisciplinesTheRate
def ppsLocked : State := { running with band := { running.band with source := .ppsIn, tstate := .locked, secondsKnown := true } }
theorem wit_servo : ppsLocked.power.running = true ∧ pinsTaken ppsLocked = false ∧ ppsLocked.band.secondsKnown = true
    ∧ timeFrozen ppsLocked = false ∧ ppsLocked.band.order.contains .ppsIn = true ∧ ppsLocked.band.source = .ppsIn
    ∧ ppsLocked.band.tstate = .locked := by decide

-- StepMovesScoreAndReflexCues
def stepPending : State := { running with band := { running.band with pendingStep := some (-65536000) } }
theorem wit_step : stepPending.band.pendingStep = some (-65536000) ∧ timeFrozen stepPending = false ∧ atBeat stepPending.band = true
    ∧ anyStream stepPending = false ∧ anyStream (withStream 5 stream0 stepPending) = true
    ∧ (withStream 5 stream0 stepPending).band.stepsInService = false
    ∧ (stepPending.score.lanes[0]?).isSome = true ∧ (stepPending.pins[15]?).isSome = true := by decide

-- PtpExchangesGiveOffsets
def header0 : PtpHeader := { domain := 0, transport := 0, sender := [1] }
def syncedPtp : PtpPort :=
  { PtpPort.reset with master := some ([9], [1]), syncSeq := some 3, asked := some 8, t1 := 100, t2 := 140, haveSync := true
                       t3 := some (7, 200) }
def ptpReady : State := { running with band := { running.band with ptp := [syncedPtp, PtpPort.reset] } }
theorem wit_ptp : ptpReady.power.running = true ∧ unitFenced ptpReady 3 0 = false ∧ unitFenced ptpReady 3 1 = false
    ∧ asleep ptpReady 3 = false ∧ ptpReady.band.ptp[0]? = some syncedPtp
    ∧ syncedPtp.t3 = some (7, 200) ∧ syncedPtp.haveSync = true ∧ ptpReady.band.ptp[1]? = some PtpPort.reset
    ∧ header0.domain = ptpReady.band.ptpDomain ∧ header0.transport = ptpReady.band.ptpTransport ∧ PtpPort.reset.master = none
    ∧ syncedPtp.master = some ([9], header0.sender) ∧ ptpRuns ptpReady 0 = true := by decide

-- CuesWaitAtTheirTargets
def outPin : Pin := { Pin.reset with mode := .output }
def hostCue : Cue := { target := .pin 3, source := .host, instant := 5000, action := .level true, lateLimit := 0 }
def withPin (n : Nat) (x : Pin) : State := { running with pins := running.pins.set n x }
def fullPin : Pin := { outPin with reflex := List.replicate 16 { cue := { hostCue with source := .reflex }, issued := 0 } }
def heldLane : Lane := { Lane.reset with held := [{ hostCue with target := .lane 5, source := .score }] }
def withLane (k : Nat) (x : Lane) : State :=
  { running with score := { running.score with lanes := running.score.lanes.set k x } }
theorem wit_cuesWait : (running.score.lanes[5]?).isSome = true ∧ Lane.reset.cues.length < 16
    ∧ (running.pins[3]?) = some Pin.reset ∧ Pin.reset.mode = .disabled
    ∧ (withPin 3 outPin).pins[3]? = some outPin ∧ outPin.cues.length < 16 ∧ outPin.reflex.length < 16
    ∧ (withPin 3 fullPin).pins[3]? = some fullPin ∧ 16 ≤ fullPin.reflex.length
    ∧ (withPin 3 { outPin with held := [hostCue] }).pins[3]? = some { outPin with held := [hostCue] }
    ∧ (withLane 5 heldLane).score.lanes[5]? = some heldLane := by decide

-- CuesTakeEffectInOrder
def dueCue : QueuedCue := { cue := { hostCue with instant := 0, action := .pulse 2000 }, issued := 0 }
def duePin : Pin := { outPin with cues := [dueCue] }
def missPin : Pin := { outPin with cues := [{ dueCue with cue := { dueCue.cue with lateLimit := 4 } }] }
def nopCue : QueuedCue :=
  { cue := { hostCue with target := .lane 5, source := .score, instant := 0, action := .slotOp 0 0 none }, issued := 0 }
def pulsePin : Pin := { outPin with pulseEnd := some 0, train := some (0, some 2) }
def latePin : Pin := { outPin with cues := [{ dueCue with cue := { dueCue.cue with ctx := some (3, 6) }, ready := false }] }
theorem wit_ppsOut : running.power.running = true ∧ running.band.ppsNext ≤ nowNs running ∧ pinsTaken running = false
    ∧ cueLate { dueCue with ready := false } 0 = true ∧ cueLate dueCue 200 = true
    ∧ nextPinCue latePin = some { dueCue with cue := { dueCue.cue with ctx := some (3, 6) }, ready := false } := by decide
theorem wit_cuesAct : nextPinCue duePin = some dueCue ∧ (withPin 3 duePin).pins[3]? = some duePin
    ∧ (withPin 3 duePin).power.running = true ∧ (0 : Int) ≤ replicaNow (.pin 3) (withPin 3 duePin)
    ∧ (0 : Int) ≤ replicaNow (.lane 5) (withLane 5 Lane.reset) ∧ (running.islands[cueIsland (.pin 3)]?).isSome = true
    ∧ (withLane 5 { Lane.reset with cues := [nopCue] }).score.lanes[5]? = some { Lane.reset with cues := [nopCue] }
    ∧ (withLane 5 Lane.reset).power.running = true
    ∧ (withPin 3 pulsePin).pins[3]? = some pulsePin := by decide

-- InputEdgesAreStamped
def inPin : Pin := { Pin.reset with mode := .input }
def rule2 : Reflex :=
  { Reflex.reset with par := { Reflex.reset.par with armed := true, source := 3, edge := .rising, target := 4 } }
def withRule (r : Reflex) : State := { withPin 3 inPin with reflexes := running.reflexes.set 2 r }
theorem wit_edges : (withPin 3 inPin).pins[3]? = some inPin ∧ inPin.mode = .input ∧ inPin.par.edge = .rising
    ∧ inPin.lastEdge = none ∧ inPin.stamps.length < 64 ∧ (withPin 3 inPin).reflexes.length = 16
    ∧ (withPin 3 inPin).reflexes.all (fun r => !r.par.armed) = true
    ∧ (withRule rule2).reflexes[2]? = some rule2 ∧ edgeMatches rule2.par.edge true = true
    ∧ ((withRule rule2).reflexes.eraseIdx 2).all (fun r => !r.par.armed) = true
    ∧ rule2.holdUntil = none ∧ (withRule { rule2 with holdUntil := some 9 }).reflexes[2]? = some { rule2 with holdUntil := some 9 }
    ∧ (withRule { rule2 with holdUntil := some 0 }).reflexes[2]? = some { rule2 with holdUntil := some 0 }
    ∧ 4 + inPin.par.filter ≤ nowNs (withRule rule2) + 4 ∧ nowNs (withRule rule2) ≤ 0 + inPin.par.filter + 28 := by decide

-- HostCommandsAreCheckedFirst
def badTag : HostCmd := { cmdOf 0x00 [] with reservedZero := false }
theorem wit_checks : checkCommand (hosting badTag onHost) (bareRow 0x00 0) badTag = 0x0002
    ∧ (hosting badTag onHost).mbx.cmds.find? (fun c => c.q == 0 && c.cid == 7 && !c.started) = some badTag
    ∧ mayStart (hosting badTag onHost) badTag = true ∧ quinbuarRuns (hosting badTag onHost) = true
    ∧ checkCommand onHost (bareRow 0x00 0) { cmdOf 0x00 [] with poisoned := true } = 0x0901
    ∧ knownOpc 0x7F = false ∧ checkCommand onHost (bareRow 0x52 0) (cmdOf 0x52 []) = 0x0008
    ∧ checkCommand (hosting (cmdOf 0x23 [0x80]) onHost) (streamRow 0x23 0) (cmdOf 0x23 [0x80]) = 0x0009
    ∧ checkCommand onHost { bareRow 0x01 0 with resultSize := fun _ _ => 2048 } (cmdOf 0x01 []) = 0x0004
    ∧ checkCommand (hosting (cmdOf 0x30 []) running) { bareRow 0x30 0 with block := true, minPlen := 0x38 } (cmdOf 0x30 []) = 0x0003 := by
  decide
theorem wit_checksTaken : Taken 0 7 (bareRow 0x00 0) badTag (hosting badTag onHost) :=
  ⟨by decide, by decide, by decide, rfl, by decide, by decide, by decide⟩

-- CommandsAreFetchedAndCompleted
def ringsOn : State :=
  { onHost with
    gate := { onHost.gate with regs := tabPut regSize 0x44444#32 (tabPut regEn 0x1F#32 onHost.gate.regs) }
    mbx := { onHost.mbx with
      cqRunning := true, sq := onHost.mbx.sq.set 0 { head := 0, tail := 1, running := true, bells := [] } } }
def badRead : State := { ringsOn with mem := { ringsOn.mem with hostBad := [(0, 0x0604)] } }
def endedOne : State :=
  { ringsOn with mbx := { ringsOn.mbx with ended := [{ cmdOf 0 [] with done := some (0, 0, false) }], reserved := 1 } }
theorem wit_fetch : sqEnabled ringsOn 0 = true ∧ inProgress ringsOn < 256 ∧ 0 < cqFree ringsOn ∧ quinbuarRuns ringsOn = true
    ∧ ringsOn.power.update.switching = none ∧ canAsk ringsOn = true ∧ hostFails ringsOn 0 64 = false
    ∧ hostFails badRead 0 64 = true ∧ cqEnabled ringsOn = true ∧ ringsOn.mbx.cqRunning = true
    ∧ knownOpc (parseCommand 0 1 0 false (memRead ringsOn.mem.host 0 64)).opc = true
    ∧ knownSub (parseCommand 0 1 0 false (memRead ringsOn.mem.host 0 64)) = true
    ∧ (ringsOn.mbx.sq.drop 1).all (fun x => !x.running) = true ∧ endedOne.mbx.ended.length = 1 := by decide
theorem wit_notice : { ringsOn with mbx := { ringsOn.mbx with notices := [{ status := 0x0329, stream := 3, result := 0 }] } }.mbx.noticesDropped = 0
    ∧ 0 < cqFree { ringsOn with mbx := { ringsOn.mbx with noticesDropped := 2 } } := by decide

-- SessionCommandsAnswerTheHost
def subBlock : List Byte := [0, 5, 1, 3, 0, 0, 0, 0] ++ padTo 24 [1] ++ leBytes 8 0x4000 ++ [10, 0, 0, 0, 0, 0, 0, 0] ++ leBytes 8 0x5000
def subHost : State := { onHost with mem := { onHost.mem with host := memWrite 0x1000 subBlock [] } }
def ringFive : RingSub :=
  { types := 1, vector := 3, streams := 1, pins := 0, base := 0x4000, size := 10, statAddr := 0x5000, tail := 0, headCount := 0
    dropped := 0 }
def withRing : State := { onHost with mbx := { onHost.mbx with rings := onHost.mbx.rings.set 5 (some ringFive) } }
theorem wit_nop : Accepts (.cmdNop 0 7) (cmdOf 0 []) (hosting (cmdOf 0 []) onHost) := accepts_of (by decide)
def noSession : State := { onHost with mbx := { onHost.mbx with cmds := [cmdOf 2 [1]], session := none } }
theorem wit_helloFirst : Accepts (.hello 0 7) (cmdOf 2 [1]) noSession ∧ noSession.mbx.session = none := ⟨accepts_of (by decide), by decide⟩
theorem wit_hello : Accepts (.hello 0 7) (cmdOf 2 [1]) (hosting (cmdOf 2 [1]) onHost) ∧ arg (cmdOf 2 [1]) 0 2 = 1
    ∧ Accepts (.hello 0 7) (cmdOf 2 [2]) (hosting (cmdOf 2 [2]) onHost) ∧ arg (cmdOf 2 [2]) 0 2 ≠ 1 :=
  ⟨accepts_of (by decide), by decide, accepts_of (by decide), by decide⟩
theorem wit_identify : Accepts (.identify 0 7) (cmdOf 1 []) (hosting (cmdOf 1 []) onHost) ∧ canAsk onHost = true :=
  ⟨accepts_of (by decide), by decide⟩
theorem wit_subscribe : Accepts (.subscribe 0 7) (cmdOf 0x30 []) (hosting (cmdOf 0x30 []) subHost) := accepts_of (by decide)
theorem wit_subscribeBlock : subBlock.length = 0x38 ∧ field subBlock 0 1 = 0 ∧ field subBlock 1 1 = 5 ∧ field subBlock 2 1 = 1
    ∧ field subBlock 3 1 = 3 ∧ field subBlock 0x28 1 = 10 ∧ field subBlock 0x20 8 = 0x4000 ∧ field subBlock 0x30 8 = 0x5000
    ∧ memRead subHost.mem.host 0x1000 0x38 = subBlock ∧ subHost.mbx.udp.getD 5 none = none := by decide
def udpBlock : List Byte :=
  [1, 63, 1, 0, 0, 0, 0, 0] ++ padTo 24 [1] ++ [1, 4] ++ leBytes 2 0xFFFF ++ [46, 1] ++ leBytes 2 512 ++ leBytes 2 9 ++ leBytes 2 8
    ++ List.replicate 36 0
def udpHost : State := { onHost with mem := { onHost.mem with host := memWrite 0x1000 udpBlock [] } }
theorem wit_subscribeUdp : Accepts (.subscribe 0 7) { cmdOf 0x30 [] with plen := 0x50 } (hosting { cmdOf 0x30 [] with plen := 0x50 } udpHost)
    ∧ udpBlock.length = 0x50 ∧ field udpBlock 0 1 = 1 ∧ field udpBlock 1 1 = 63 ∧ field udpBlock 2 1 = 1 ∧ field udpBlock 0x20 1 = 1
    ∧ field udpBlock 0x26 2 = 512 ∧ field udpBlock 0x24 1 = 46 ∧ field udpBlock 0x21 1 = 4 ∧ field udpBlock 0x22 2 = 0xFFFF
    ∧ memRead udpHost.mem.host 0x1000 0x50 = udpBlock ∧ subStatus udpHost udpBlock = 0 ∧ subStatus subHost subBlock = 0
    ∧ subStatus subHost (0 :: 64 :: subBlock.drop 2) ≠ 0 := ⟨accepts_of (by decide), by decide⟩
theorem wit_unsubscribeUdp : Accepts (.unsubscribe 0 7) (cmdOf 0x31 [1, 63]) (hosting (cmdOf 0x31 [1, 63]) onHost)
    ∧ (match subStatus udpHost udpBlock with | 0 => ((putSub udpBlock udpHost).mbx.udp.getD 63 none).isSome | _ => false) = true
    ∧ onHost.mbx.udp.getD 63 none = none ∧ Accepts (.unsubscribe 0 7) (cmdOf 0x31 [2, 63]) (hosting (cmdOf 0x31 [2, 63]) onHost)
    ∧ arg (cmdOf 0x31 [2, 63]) 0 1 = 2 :=
  ⟨accepts_of (by decide), by decide, by decide, accepts_of (by decide), by decide⟩
theorem wit_unsubscribe : Accepts (.unsubscribe 0 7) (cmdOf 0x31 [0, 5]) (hosting (cmdOf 0x31 [0, 5]) withRing)
    ∧ (withRing.mbx.rings.getD 5 none).isSome = true ∧ onHost.mbx.rings.getD 5 none = none
    ∧ Accepts (.unsubscribe 0 7) (cmdOf 0x31 [0, 5]) (hosting (cmdOf 0x31 [0, 5]) onHost) :=
  ⟨accepts_of (by decide), by decide, by decide, accepts_of (by decide)⟩

-- TimeAndPinCommandsConfigure
def timeParams0 : TimeParams :=
  { order := [.ppsIn, .hostSet], stepsInService := false, holdoverRate := 500, ppsOutWidth := 10000000, ptpDomain := 0
    ptpTransport := 0, asym := [0, 0, 0, 0, 0] }
def cmdPin : HostCmd := cmdOf 0x52 [3, 2]
def reflexParams0 : ReflexParams :=
  { source := 1, edge := .rising, armed := true, target := 3, action := .pulse 500, delay := 0, holdOff := 1000 }
theorem wit_timeConfig : Accepts (.timeConfig 0 7 timeParams0) (cmdOf 0x50 []) (hosting (cmdOf 0x50 []) onHost)
    ∧ timeParams0.order.Nodup ∧ TimeSource.none ∉ timeParams0.order ∧ onHost.band.tstate ≠ .holdover :=
  ⟨accepts_of (by decide), by decide, by decide, by decide⟩
theorem wit_timeSet : Accepts (.timeSet 0 7) (cmdOf 0x51 [9]) (hosting (cmdOf 0x51 [9]) onHost) ∧ onHost.band.tstate = .free
    ∧ onHost.band.order.contains .hostSet = true ∧ timeFrozen onHost = false ∧ anyStream onHost = false :=
  ⟨accepts_of (by decide), by decide, by decide, by decide, by decide⟩
theorem wit_pinConfig : Accepts (.pinConfig 0 7 Pin.reset.par) cmdPin (hosting cmdPin onHost) ∧ arg cmdPin 0 1 % 16 = 3
    ∧ arg cmdPin 1 1 % 4 = 2 ∧ onHost.pins[3]? = some Pin.reset ∧ Pin.reset.par.drive = 4 :=
  ⟨accepts_of (by decide), by decide, by decide, by decide, by decide⟩
theorem wit_reflexConfig : Accepts (.reflexConfig 0 7 reflexParams0) (cmdOf 0x54 [2]) (hosting (cmdOf 0x54 [2]) onHost) :=
  accepts_of (by decide)

-- PinCuesFromTheHostAreIssued
def cuePin (a : Nat) : HostCmd := cmdOf 0x53 ([3, BitVec.ofNat 8 a] ++ padTo 6 [] ++ leBytes 8 5000 ++ leBytes 8 1)
def outPinHost (x : Pin) : State := { onHost with pins := onHost.pins.set 3 x }
def fullCues : Pin := { outPin with cues := List.replicate 16 { cue := hostCue, issued := 0 } }
theorem wit_pinCue : Accepts (.hostPinLevel 0 7) (cuePin 0) (hosting (cuePin 0) (outPinHost outPin))
    ∧ Accepts (.hostPinPulse 0 7) (cuePin 1) (hosting (cuePin 1) (outPinHost fullCues))
    ∧ Accepts (.hostStrobeStart 0 7) (cuePin 2) (hosting (cuePin 2) onHost)
    ∧ Accepts (.hostStrobeStop 0 7) (cuePin 3) (hosting (cuePin 3) onHost) :=
  ⟨accepts_of (by decide), accepts_of (by decide), accepts_of (by decide), accepts_of (by decide)⟩
theorem wit_pinCuePins : arg (cuePin 0) 0 1 % 16 = 3 ∧ (outPinHost outPin).pins[3]? = some outPin
    ∧ (outPinHost fullCues).pins[3]? = some fullCues ∧ 16 ≤ fullCues.cues.length ∧ outPin.cues.length < 16
    ∧ onHost.pins[3]? = some Pin.reset ∧ Pin.reset.mode = .disabled := by decide

-- DeviceCommandsSetMemoryAndNetwork
def wayCmd : HostCmd := cmdOf 0x60 ([1] ++ padTo 7 [] ++ leBytes 2 0x00FF ++ leBytes 2 0x0F00 ++ leBytes 2 0xF000)
def coldCmd : HostCmd := cmdOf 0x60 ([2] ++ padTo 7 [])
def censusCmd : HostCmd := cmdOf 0x60 ([3] ++ padTo 7 [] ++ [3])
def net0 : NetParams := { speed25 := true, rsFec := true, ipv4 := [10, 0, 0, 1], ipv6 := [], mtu := 1500, vlan := none }
def journalCmd : HostCmd := cmdOf 0x69 ([4] ++ padTo 7 [] ++ leBytes 8 9 ++ leBytes 8 1)
def withJournal : State :=
  { onHost with journal := [{ stream := 4, frame := 9, bytes := padTo 40 [0x10], recovered := false }] }
theorem wit_memNet : Accepts (.setWayMasks 0 7) wayCmd (hosting wayCmd onHost)
    ∧ Accepts (.setColdTier 0 7 0x10000 4096) coldCmd (hosting coldCmd onHost)
    ∧ Accepts (.setCensus 0 7) censusCmd (hosting censusCmd onHost)
    ∧ Accepts (.netConfig 0 7 net0) (cmdOf 0x58 [1]) (hosting (cmdOf 0x58 [1]) onHost)
    ∧ Accepts (.journalRead 0 7) journalCmd (hosting journalCmd onHost)
    ∧ Accepts (.journalRead 0 7) journalCmd (hosting journalCmd withJournal) :=
  ⟨accepts_of (by decide), accepts_of (by decide), accepts_of (by decide), accepts_of (by decide), accepts_of (by decide),
    accepts_of (by decide)⟩
theorem wit_memNetState : anyStream onHost = false ∧ coldInUse onHost = false ∧ canAsk withJournal = true
    ∧ [arg wayCmd 8 2, arg wayCmd 10 2, arg wayCmd 12 2] = [0x00FF, 0x0F00, 0xF000]
    ∧ journalFrom 4 9 (journalOf? withJournal 4) = withJournal.journal ∧ journalFrom 4 9 (journalOf? onHost 4) = []
    ∧ journalFrom 0xFF 9 withJournal.journal = withJournal.journal ∧ journalFrom 0xFF 10 withJournal.journal = [] := by decide

-- StreamSettingsChangeTheirStream
def setCmd (item v : Nat) : HostCmd := cmdOf 0x22 ([5, BitVec.ofNat 8 item] ++ padTo 6 [] ++ leBytes 8 v)
def fiveOn : State := withStream 5 stream0 onHost
def candidate0 : Candidate := { trigger := 1, codes := [], digest := 0x99 }
def adoptCmd : HostCmd := cmdOf 0x48 ([5] ++ padTo 7 [] ++ leBytes 8 100 ++ leBytes 8 0x99)
theorem wit_settings : Accepts (.setDecodeMode 0 7) (setCmd 1 2) (hosting (setCmd 1 2) fiveOn)
    ∧ Accepts (.setAnalyseConcealed 0 7) (setCmd 2 1) (hosting (setCmd 2 1) fiveOn)
    ∧ Accepts (.liftQuarantine 0 7) (setCmd 4 0) (hosting (setCmd 4 0) fiveOn)
    ∧ Accepts (.setAdaptationMode 0 7) (setCmd 6 1) (hosting (setCmd 6 1) fiveOn)
    ∧ Accepts (.streamStats 0 7) (cmdOf 0x23 [5]) (hosting (cmdOf 0x23 [5]) fiveOn)
    ∧ Accepts (.adaptAdopt 0 7) adoptCmd (hosting adoptCmd (withStream 5 { stream0 with candidate := some candidate0 } onHost))
    ∧ Accepts (.setAnalyseConcealed 0 7) (setCmd 2 1) (hosting (setCmd 2 1) onHost) :=
  ⟨accepts_of (by decide), accepts_of (by decide), accepts_of (by decide), accepts_of (by decide), accepts_of (by decide),
    accepts_of (by decide), accepts_of (by decide)⟩
theorem wit_settingsState : (stream? fiveOn 5).isSome = true ∧ (stream? fiveOn 5).map (·.cfg.source) = some 1
    ∧ stream? onHost 5 = none ∧ arg (setCmd 1 2) 0 1 = 5 ∧ arg (setCmd 1 2) 8 8 = 2 ∧ arg adoptCmd 8 8 = 100
    ∧ arg adoptCmd 16 8 = candidate0.digest.toNat ∧ nowNs fiveOn ≤ 100 ∧ canAsk fiveOn = true := by decide

-- StreamsOpenAndClose
/-- The fields whose ranges hold for every source and mode (R420). -/
def rangeFields : List (Nat × Nat × Nat) :=
  [(1, 1, 1), (4, 4, 40000000), (8, 2, 16), (10, 2, 16), (12, 1, 8), (13, 1, 1), (14, 1, 1), (15, 1, 1), (0x1A, 1, 1), (0x1C, 2, 1)
    , (0x1E, 1, 1), (0x20, 2, 1), (0x34, 1, 1), (0x35, 1, 1), (0x36, 2, 64), (0x40, 2, 1)]
/-- A STREAM_OPEN block of host pictures, of class BE on batch id 0. -/
def hostBlock : List Byte := fill 0x48 ((0, 1, 4) :: rangeFields)
def rtspBlock : List Byte := fill 0x48 ([(0, 1, 0), (0x10, 4, 100000), (0x14, 4, 100000)] ++ rangeFields)
def secHost : SourceSection := .hostFormat 3
def secRtsp : SourceSection := .rtsp 0 0 [] [] []
/-- Host memory that holds a parameter block at 0x1000. -/
def withBlock (bs : List Byte) (s : State) : State := { s with mem := { s.mem with host := memWrite 0x1000 bs s.mem.host } }
def openCmd0 : HostCmd := { cmdOf 0x20 [5] with plen := 0x48 }
def openState (bs : List Byte) : State := hosting openCmd0 (withBlock bs (withPool (withPkg onHost)))
theorem wit_streamOpen : Accepts (.streamOpen 0 7 secHost) openCmd0 (openState hostBlock)
    ∧ Accepts (.streamOpen 0 7 secRtsp) openCmd0 (openState rtspBlock) :=
  ⟨accepts_of (by decide +kernel), accepts_of (by decide +kernel)⟩
theorem wit_streamOpenStatus :
    openStatus (startCmd openCmd0 (openState hostBlock)) 5 (paramBlock (openState hostBlock) openCmd0) secHost = 0
    ∧ openStatus (startCmd openCmd0 (openState rtspBlock)) 5 (paramBlock (openState rtspBlock) openCmd0) secRtsp = 0
    ∧ (openBlock (paramBlock (openState hostBlock) openCmd0)).source = 4
    ∧ (openBlock (paramBlock (openState rtspBlock) openCmd0)).source = 0
    ∧ openStatus (startCmd openCmd0 (openState hostBlock)) 5 (paramBlock (openState hostBlock) openCmd0) secRtsp = 0x0002
    ∧ (stream? (withStream 5 stream0 (openState hostBlock)) 5).isSome = true ∧ (openState hostBlock).streams.length = 128 := by
  decide +kernel
theorem wit_streamOpenTaken : Accepts (.streamOpen 0 7 secHost) openCmd0 (withStream 5 stream0 (openState hostBlock)) :=
  accepts_of (by decide +kernel)
def frame0 : Frame := freshFrame 0 0 0 3 100 false false
theorem wit_streamClose : Accepts (.streamClose 0 7) (cmdOf 0x21 [5]) (hosting (cmdOf 0x21 [5]) onHost)
    ∧ Accepts (.streamClose 0 7) (cmdOf 0x21 [5]) (hosting (cmdOf 0x21 [5]) (withStream 5 stream0 onHost))
    ∧ Accepts (.streamClose 0 7) (cmdOf 0x21 [5])
        (hosting (cmdOf 0x21 [5]) (withStream 5 { stream0 with frames := [frame0] } onHost)) :=
  ⟨accepts_of (by decide), accepts_of (by decide), accepts_of (by decide)⟩

-- StreamSetBlocksAreTaken
def linksCmd : HostCmd := { cmdOf 0x22 [5, 5] with plen := 32 }
def linksBlock (v : Nat) : List Byte := leBytes 2 v ++ List.replicate 30 255#8
def linksState (v : Nat) : State := hosting linksCmd (withBlock (linksBlock v) (withStream 5 stream0 onHost))
def gallerySeq : State :=
  { linksState 0x0203 with aviary := { State.reset.aviary with seqs := tabPut 3 (emptySeq .gallery 5) State.reset.aviary.seqs } }
theorem wit_setLinks : Accepts (.setLinks 0 7) linksCmd (linksState 0xFFFF) ∧ Accepts (.setLinks 0 7) linksCmd (linksState 0x0600)
    ∧ Accepts (.setLinks 0 7) linksCmd gallerySeq ∧ Accepts (.setLinks 0 7) linksCmd (linksState 0x0203) :=
  ⟨accepts_of (by decide +kernel), accepts_of (by decide +kernel), accepts_of (by decide +kernel), accepts_of (by decide +kernel)⟩
theorem wit_setLinksEntries : linkEntries (paramBlock (linksState 0xFFFF) linksCmd) = []
    ∧ linkEntries (paramBlock (linksState 0x0600) linksCmd) = [0x600] ∧ linkEntries (paramBlock gallerySeq linksCmd) = [0x203]
    ∧ (gallerySeq.aviary.seqs.any fun y => y.2.kind == .gallery && y.2.stream == 5) = true := by decide +kernel
def captureSec (w : Nat) : SourceSection := .belvedere 1 2 0x2A w 480 4 1000000000 [0, 1, 2, 3] [false, false, true, false]
def captureSet0 : CaptureSet := { port := 1, channel := 2, dataType := 0x2A, width := 640, height := 480 }
def sensorStream : Stream := { stream0 with sec := captureSec 640, capture := some (freshCapture captureSet0) }
def captureCmd : HostCmd := { cmdOf 0x22 [5, 3] with plen := 16 }
def captureState : State := hosting captureCmd (withStream 5 sensorStream onHost)
theorem wit_setCaptureSet : Accepts (.setCaptureSet 0 7 (captureSec 320)) captureCmd captureState
    ∧ Accepts (.setCaptureSet 0 7 (captureSec 5000)) captureCmd captureState :=
  ⟨accepts_of (by decide +kernel), accepts_of (by decide +kernel)⟩
theorem wit_setCaptureChecks : captureOk { captureSet0 with width := 320 } 4 1000000000 = true
    ∧ captureOk { captureSet0 with width := 5000 } 4 1000000000 = false
    ∧ channelTaken captureState 5 { captureSet0 with width := 320 } = false
    ∧ portOverloaded captureState 5 { captureSet0 with width := 320 } 40000000 4 1000000000 = false
    ∧ portOverloaded captureState 5 { captureSet0 with width := 4096, height := 2304 } 400000 1 80000000 = true := by decide +kernel
theorem wit_setCaptureLanes : portLanes captureState { captureSet0 with width := 320 } (captureSec 320) = (4, 1000000000)
    ∨ portBusy captureState 1 = true := by decide +kernel

-- HostFramesLand
def submitCmd : HostCmd := { cmdOf 0x24 [5, 1] with plen := 16 }
def hostStream : Stream := freshStream running (openBlock hostBlock) secHost none
def submitBlock (len : Nat) : List Byte := leBytes 8 0x4000 ++ leBytes 4 len ++ leBytes 4 0
def submitState (len : Nat) : State :=
  hosting submitCmd (withBlock (submitBlock len) (withStream 5 hostStream
    { withPool (withPkg onHost) with pools := [{ pool0 with quota := [(5, 100)] }] }))
theorem wit_submit : Accepts (.frameSubmit 0 7) submitCmd (submitState 256)
    ∧ Accepts (.frameSubmit 0 7) submitCmd (submitState 255) := ⟨accepts_of (by decide +kernel), accepts_of (by decide +kernel)⟩
theorem wit_submitStatus : stream? (submitState 256) 5 = some hostStream ∧ (∀ y ∈ hostStream.frames, y.id < hostStream.nextId)
    ∧ submitStatus (submitState 256) hostStream (submitBlock 256) 1 0 (List.replicate 256 0) = 0
    ∧ submitStatus (submitState 255) hostStream (submitBlock 255) 1 0 (List.replicate 255 0) = 0x0121 := by decide +kernel

-- PromptsAreEncodedAndBound
/-- A dictionary whose one sibling group holds the byte 0x63 as token 3. -/
def dict0 : List Byte := leBytes 8 0 ++ leBytes 8 (0x63 + 0x100 + 0x200 + 3 * 65536)
def promptCmd : HostCmd := { cmdOf 0x38 [6] with plen := 2 }
def withDict (s : State) : State :=
  placeDictionary { pkgOf [] with dictionary := dict0, dictionaryAt := 0x1800000000 }
    { s with pkg := some { pkgOf [] with dictionary := dict0, dictionaryAt := 0x1800000000 } }
def promptState (text : List Byte) : State := hosting promptCmd (withBlock text (withDict onHost))
def encoding : Prompt := { text := [0x63], tokens := [3], seq := none, cmd := some (0, 7) }
def encodingState : State :=
  { hosting { promptCmd with started := true } (withDict onHost) with
    aviary := { State.reset.aviary with prompts := State.reset.aviary.prompts.set 6 (some encoding) } }
theorem wit_promptSet : Accepts (.promptSet 0 7) promptCmd (promptState [0x63, 0x63])
    ∧ Accepts (.promptSet 0 7) promptCmd (promptState [0x63, 0xFF]) :=
  ⟨accepts_of (by decide +kernel), accepts_of (by decide +kernel)⟩
theorem wit_promptStatus : promptStatus (promptState [0x63, 0x63]) 6 [0x63, 0x63] = 0 ∧ arg promptCmd 0 1 = 6
    ∧ promptTokens (promptState []) [0x63, 0x63] = [3, 3] ∧ promptStatus (promptState []) 6 [0x63, 0xFF] = 0x0508
    ∧ (reserve 390 8 true (dropPrompt 6 (promptState [0x63, 0x63]))).isSome = true
    ∧ (promptState []).aviary.prompts.length = 64 := by decide +kernel
theorem wit_promptEncoded : encodingState.aviary.prompts[6]? = some (some encoding) ∧ encoding.seq = none
    ∧ encoding.cmd = some (0, 7) ∧ freeSeq encodingState (pendingSeqs encodingState) = some 0 := by decide +kernel
def bindCmd (p : Nat) : HostCmd := cmdOf 0x39 ([5, BitVec.ofNat 8 p] ++ padTo 6 [] ++ leBytes 8 1000)
def bindState (p : Nat) (x : Option Nat) : State :=
  hosting (bindCmd p) (withStream 5 stream0 { onHost with
    aviary := { State.reset.aviary with prompts := State.reset.aviary.prompts.set 6 (some { encoding with seq := x }) } })
def lateState : State := { bindState 6 (some 0) with band := { running.band with count := 2000 * 2 ^ 32 } }
theorem wit_promptBind : Accepts (.promptBind 0 7) (bindCmd 6) (bindState 6 (some 0))
    ∧ Accepts (.promptBind 0 7) (bindCmd 6) (bindState 6 none) ∧ Accepts (.promptBind 0 7) (bindCmd 0xFF) (bindState 0xFF none)
    ∧ Accepts (.promptBind 0 7) (bindCmd 6) lateState :=
  ⟨accepts_of (by decide +kernel), accepts_of (by decide +kernel), accepts_of (by decide +kernel), accepts_of (by decide +kernel)⟩
theorem wit_promptBindTimes : arg (bindCmd 6) 8 8 = 1000 ∧ arg (bindCmd 6) 1 1 = 6 ∧ nowNs (bindState 6 none) = 0
    ∧ nowNs lateState = 2000 ∧ (stream? lateState 5).isSome = true := by decide +kernel

-- ContextsForkTheirPrompt
def contextCmd (p : Nat) : HostCmd := { cmdOf 0x3A [5, BitVec.ofNat 8 p] with plen := 0 }
def contextState (p : Nat) (s : State) : State := hosting (contextCmd p) (withStream 5 stream0 s)
theorem wit_contextSet : Accepts (.contextSet 0 7) (contextCmd 0xFF) (contextState 0xFF (withPkg onHost))
    ∧ Accepts (.contextSet 0 7) (contextCmd 0xFF) (contextState 0xFF onHost)
    ∧ Accepts (.contextSet 0 7) (contextCmd 6) (contextState 6 (withPkg onHost)) :=
  ⟨accepts_of (by decide +kernel), accepts_of (by decide +kernel), accepts_of (by decide +kernel)⟩
theorem wit_contextIds : freeSeq (contextState 0xFF (withPkg onHost)) [] = some 0
    ∧ pendingSeqs (contextState 0xFF (withPkg onHost)) = []
    ∧ (reserveContext 5 64 stream0 (contextState 0xFF (withPkg onHost))).isSome = true
    ∧ (reserveContext 5 65 stream0 (contextState 0xFF (withPkg onHost))).isNone = true := by decide +kernel

-- ClipsRunFromRequestToEnd
def clipCmd : HostCmd := { cmdOf 0x40 [] with plen := 0x60 }
/-- A clip of stream 5: HEVC, CBR, window 64 × 64, from 0 to 1 s, 100 kbit/s, one buffer. -/
def clipBytes0 (codec : Nat) : List Byte :=
  fill 0x60 [(0, 1, 5), (1, 1, codec), (2, 1, 1), (4, 2, 10), (6, 1, 30), (7, 1, 20), (8, 1, 40), (0x10, 2, 64), (0x12, 2, 64)
    , (0x20, 8, 1000000000), (0x28, 4, 100000), (0x38, 8, 0x9000), (0x40, 4, 2400), (0x44, 2, 1), (0x50, 8, 0xA000), (0x58, 4, 65536)]
def clipState (codec : Nat) : State := hosting clipCmd (withBlock (clipBytes0 codec) (withStream 5 stream0 onHost))
theorem wit_clipRequest : Accepts (.clipRequest 0 7) clipCmd (clipState 0) ∧ Accepts (.clipRequest 0 7) clipCmd (clipState 2) :=
  ⟨accepts_of (by decide +kernel), accepts_of (by decide +kernel)⟩
theorem wit_clipStatus : stream? (clipState 0) 5 = some stream0 ∧ (clipBlock (paramBlock (clipState 0) clipCmd)).stream = 5
    ∧ clipStatus (clipState 0) stream0 (clipBlock (clipBytes0 0)) (clipBytes0 0) = 0
    ∧ clipStatus (clipState 2) stream0 (clipBlock (clipBytes0 2)) (clipBytes0 2) = 0x0221
    ∧ (clipState 0).clips[0]? = some none := by decide +kernel
def clip0 : Clip := freshClip 0 9 0 0x1100000000 stream0 (clipBlock (clipBytes0 0)) []
def cancelCmd : HostCmd := cmdOf 0x41 [9]
def requested : HostCmd := { clipCmd with cid := 9, started := true, sqHead := 0 }
def cancelState : State :=
  { onHost with mbx := { onHost.mbx with cmds := [requested, cancelCmd], session := some 0 }, clips := onHost.clips.set 2 (some clip0) }
theorem wit_clipCancel : Accepts (.clipCancel 0 7) cancelCmd cancelState
    ∧ Accepts (.clipCancel 0 7) cancelCmd { cancelState with clips := onHost.clips } :=
  ⟨accepts_of (by decide +kernel), accepts_of (by decide +kernel)⟩
theorem wit_clipCancelled : cancelState.clips[2]? = some (some clip0) ∧ clip0.q = 0 ∧ clip0.cid = arg cancelCmd 0 2
    ∧ (cancelState.clips.take 2).all (·.isNone) = true ∧ onHost.clips.all (·.isNone) = true ∧ canAsk cancelState = true
    ∧ ((startCmd cancelCmd cancelState).mbx.cmds.find? fun z => z.q == 0 && z.cid == 9 && z.opc == 0x40) = some requested := by
  decide +kernel

-- ClipPicturesAreCoded
def clipSource (stamp : Nat) : ClipSource := { stamp := stamp, head := 0, size := 0, lost := false, set := none }
def codingClip : Clip :=
  { freshClip 0 9 0 0x1100000000 stream0 (clipBlock (clipBytes0 0)) [clipSource 40, clipSource 80] with t0 := 50, fountain := none }
def codingState (c : Clip) : State := { withStream 5 stream0 running with clips := running.clips.set 2 (some c) }
theorem wit_clipEncode : (codingState codingClip).clips[2]? = some (some codingClip)
    ∧ islandFenced (codingState codingClip) 13 = false ∧ (codingState codingClip).power.update.switching = none
    ∧ (nextClipPicture codingClip (codingState codingClip)).map (fun p => (p.stamp, p.damaged)) = some (40, false)
    ∧ (nextClipPicture { codingClip with sources := [clipSource 80] } (codingState codingClip)).map (·.stamp) = some 80
    ∧ codingClip.sources ≠ [] ∧ codingClip.sources.drop 1 ≠ [] ∧ ¬ codingClip.t0 ≤ 40 ∧ codingClip.t0 ≤ 80 ∧ 80 < codingClip.t1
    ∧ codingClip.lastLanded = false ∧ codingClip.endStatus = none ∧ ctuRows codingClip = 1 ∧ codingClip.fountain = none
    ∧ ({ codingClip with sources := [{ clipSource 80 with lost := true }] } : Clip).sources ≠ []
    ∧ 24 ≤ codingClip.idxLen ∧ ¬ 24 ≤ { codingClip with idxLen := 8 }.idxLen := by decide +kernel
/-- R239: what one row of 100 bits leaves has room in the clip's buffer. -/
theorem wit_clipRoom : ceilDiv (rateOf codingClip 40000000 true [100]).bits 8 + (rateOf codingClip 40000000 true [100]).filler
    ≤ clipSpace codingClip := by decide +kernel
/-- R237: (10 + 11 + 12 + 15 + 2) / 4 is 12. -/
theorem test_decimate : decimated { codingClip with decim := 2 }
    { w := 2, h := 2, rgb := false, subsampled := true, at_ := fun x y => [([10, 11, 12, 15].getD (x + 2 * y) 0, false), (128, false), (128, false)] }
    0 0 0 = 12 := by decide +kernel
/-- R238: the cheaper candidate, then the smaller sum of magnitudes, then the lower vertical component. -/
theorem test_bestVector : bestVector (fun v => if v = (9, 9) then 3 else 2) [(9, 9), (4, 0), (0, 1), (1, 0)] = some (1, 0) := by decide

-- OpsPassTheirGates
/-- A slot op of an opcode with an argument, on gate mode `gm` of token 5 with threshold 2, without a signal. -/
def opWord (opc arg_ gm : Nat) : BitVec 64 := BitVec.ofNat 64 (opc * 2 ^ 58 + gm * 2 ^ 56 + 5 * 2 ^ 43 + 9 * 2 ^ 31 + 2 ^ 27 + arg_)
def dueOp (w : BitVec 64) : IssuedOp := { word := w, beat := 3, instant := 192, since := 0, ctx := none }
def dueOn (k : Nat) (o : IssuedOp) (s : State) : State :=
  { s with score := { s.score with lanes := upd s.score.lanes k fun l => { l with due := [o] }, tokens := [(5, 2), (9, 7)] } }
def nop0 : IssuedOp := dueOp (opWord 0 0 1)
theorem wit_nopOp : startable (dueOn 0 nop0 running) 0 0 = some nop0 ∧ startable (dueOn 17 nop0 running) 17 0 = some nop0
    ∧ opGm nop0.word = 1 ∧ token (dueOn 0 nop0 running) (opWtok nop0.word) = opNeed nop0.word + 1
    ∧ startable (dueOn 0 (dueOp (opWord 0 0 0)) running) 0 0 = some (dueOp (opWord 0 0 0)) := by decide +kernel
theorem starts_of {k opc : Nat} {o : IssuedOp} {s : State} (h : startable s k opc = some o ∧ idleLane s k = false ∧
    isTorn s o.ctx = false ∧ laneFenced s k = false ∧ laneSafe s k = false) : Starts k opc o s :=
  ⟨h.1, h.2.1, h.2.2.1, h.2.2.2.1, h.2.2.2.2⟩
theorem wit_starts : Starts 17 0 nop0 (dueOn 17 nop0 running) := starts_of (by decide +kernel)
theorem wit_silent : Silent nop0 (dueOn 0 nop0 running) :=
  ⟨by decide +kernel, by decide +kernel, by decide +kernel, by decide +kernel, by decide +kernel⟩
/-- A NOP of lane 17 on token 5 waits behind one of lane 16 and the same beat. -/
theorem test_tokenOrder : startable (dueOn 17 nop0 (dueOn 16 nop0 running)) 17 0 = none
    ∧ startable (dueOn 17 nop0 (dueOn 16 nop0 running)) 16 0 = some nop0 := by decide +kernel

-- ControlLanesAct
/-- The op of an opcode and argument is due on a lane. -/
def dueState (k opc arg_ : Nat) : State := dueOn k (dueOp (opWord opc arg_ 1)) running
def lateOp (k opc arg_ : Nat) : State := { dueState k opc arg_ with band := { running.band with count := 200 * 2 ^ 32 } }
theorem wit_control : startable (dueState 0 1 77) 0 1 = some (dueOp (opWord 1 77 1))
    ∧ startable (dueState 0 2 77) 0 2 = some (dueOp (opWord 2 77 1)) ∧ token (dueState 0 2 77) 9 + 77 ≤ 65535
    ∧ startable (dueState 0 2 65535) 0 2 = some (dueOp (opWord 2 65535 1)) ∧ 65535 < token (dueState 0 2 77) 9 + 65535
    ∧ startable (dueState 0 3 77) 0 3 = some (dueOp (opWord 3 77 1)) ∧ claimActive (dueState 0 3 77) 0 = false
    ∧ startable (dueState 54 0x38 1) 54 0x38 = none ∧ startable (lateOp 54 0x38 1) 54 0x38 = some (dueOp (opWord 0x38 1 1))
    ∧ startable (lateOp 54 0x39 3) 54 0x39 = some (dueOp (opWord 0x39 3 1))
    ∧ startable (lateOp 54 0x3A 0) 54 0x3A = some (dueOp (opWord 0x3A 0 1))
    ∧ startable (lateOp 54 0x3B 0) 54 0x3B = some (dueOp (opWord 0x3B 0 1))
    ∧ startable (lateOp 54 0x3C 1) 54 0x3C = some (dueOp (opWord 0x3C 1 1))
    ∧ startable (dueOn 54 (dueOp (opWord 0x38 1 0)) running) 54 0x38 = some (dueOp (opWord 0x38 1 0))
    ∧ startable (dueState 55 0x3F 5) 55 0x3F = some (dueOp (opWord 0x3F 5 1))
    ∧ (dueState 54 0x38 1).pins[argPin (opWord 0x38 1 1)]? = some Pin.reset := by decide +kernel
theorem wit_controlSilent (o : IssuedOp) (h : opSig o.word = false) (c : o.ctx = none) (k opc a : Nat) : Silent o (dueState k opc a) :=
  ⟨h, by unfold isTorn; rw [c], by change ∀ x ∈ State.reset.score.batches, x.closed = []; decide +kernel,
    by change islandFenced running 39 = false; decide +kernel, by change unitSafe running 39 24 = false; decide +kernel⟩
/-- R67: token 9 was set at this count; R370: island 39 is fenced. -/
def setState : State :=
  let s := dueState 0 2 77
  { s with score := { s.score with cycles := [(9, { count := s.band.count, sum := 7, setTo := some 7, used := 0 })] } }
def fenced39 (s : State) : State := { s with fenced := some { island := 39, cause := 0, since := 0, cmd := none } }
theorem wit_controlFenced : tabGet 9 (dueState 0 2 77).score.cycles = none
    ∧ cycleOf (dueState 0 2 77) 9 = { count := running.band.count, sum := 7, setTo := none, used := 0 }
    ∧ cycleOf setState 9 = { count := running.band.count, sum := 7, setTo := some 7, used := 0 }
    ∧ unitSafe setState 39 24 = false ∧ unitSafe (lateOp 54 0x38 1) 39 24 = false ∧ unitSafe (dueState 55 0x3F 5) 39 24 = false
    ∧ startable setState 0 2 = some (dueOp (opWord 2 77 1)) ∧ islandFenced setState 39 = false
    ∧ islandFenced (fenced39 (lateOp 54 0x38 1)) 39 = true
    ∧ startable (fenced39 (lateOp 54 0x38 1)) 54 0x38 = some (dueOp (opWord 0x38 1 1))
    ∧ startable (fenced39 (dueState 55 0x3F 5)) 55 0x3F = some (dueOp (opWord 0x3F 5 1)) := by decide +kernel
/-- A pin whose queue is full, and an op of a torn-down batch. -/
def fullCuePin : Pin := { Pin.reset with mode := .output, cues := List.replicate 16 { cue := hostCue, issued := 0 } }
def tornOp (w : BitVec 64) : IssuedOp := { dueOp w with ctx := some (3, 6) }
def tornState (k : Nat) (w : BitVec 64) : State :=
  let s := dueOn k (tornOp w) running
  { s with score := { s.score with batches := upd s.score.batches 3 fun x => { x with closed := [{ freshBatch 6 with torn := some 0x420 }] } } }
theorem wit_pinHeld : isTorn (lateOp 54 0x38 1) (dueOp (opWord 0x38 1 1)).ctx = false ∧ 16 ≤ fullCuePin.cues.length
    ∧ fullCuePin.mode = .output ∧ pinHolds 1 { lateOp 54 0x38 1 with pins := upd running.pins 1 fun _ => fullCuePin } = true
    ∧ startable (tornState 55 (opWord 0x3F 5 0)) 55 0x3F = some (tornOp (opWord 0x3F 5 0))
    ∧ startable (tornState 54 (opWord 0x38 5 0)) 54 0x38 = some (tornOp (opWord 0x38 5 0))
    ∧ isTorn (tornState 55 (opWord 0x3F 5 0)) (some (3, 6)) = true := by decide +kernel

-- TheSequencerReadsWords
/-- An image of 0x80 bytes of header, one cue section of two words (a JUMP; a NOP on lane 17) at 0x80 and a branch target. -/
def jumpWord : BitVec 64 := BitVec.ofNat 64 (6 * 2 ^ 58)
def image0 : List Byte :=
  fill 0xB0 [(0x30, 4, 0x80), (0x34, 4, 0x20), (0x58, 4, 0xA0), (0x5C, 4, 1), (0x80, 8, 1), (0x88, 8, jumpWord.toNat), (0x90, 8, 2 ^ 17)
    , (0x98, 8, 0), (0xA0, 4, 0x10)]
def scoring (f : Score → Score) : State :=
  { running with score := f { running.score with image := image0, running := true } }
theorem wit_sequencer : mayIssue (scoring id) = true ∧ cueWord image0 0 = ([(0, jumpWord)], 16)
    ∧ cueWord image0 16 = ([(17, 0)], 16) ∧ mayIssue (scoring fun c => { c with pc := 16 }) = true
    ∧ wordControl (cueWord image0 0).1 = some jumpWord ∧ opOpc jumpWord = 6
    ∧ imgTarget image0 0 = 16 ∧ bellPending (scoring id) 0 = false ∧ opOpc (BitVec.ofNat 64 (5 * 2 ^ 58 + 8192)) = 5
    ∧ argThreshold (BitVec.ofNat 64 (5 * 2 ^ 58 + 8192)) = 1 ∧ opOpc (BitVec.ofNat 64 (7 * 2 ^ 58)) = 7
    ∧ (scoring id).score.batches[0]?.isSome = true := by decide +kernel
theorem wit_scoreStart : (scoring fun c => { c with armed := true, running := false }).score.armed = true
    ∧ (scoring fun c => { c with armed := true }).score.epoch + 64 * 0 ≤ nowNs (scoring id) + 256 := by decide +kernel

-- BatchesOpenAndClose
def steerOp : IssuedOp := dueOp (opWord 0x28 (3 * 2 ^ 21) 0)
def bellOp : IssuedOp := dueOp (opWord 4 (3 * 2 ^ 21) 0)
def digestOp : IssuedOp := { dueOp (opWord 0x3E 2 0) with ctx := some (3, 6) }
def batchSlot : Slot :=
  { stream := 5, frame := 1, crop := 0, rank := 0, full := true, concealed := false, augmented := false, poison := false, cx := 0
    cy := 0, cw := 16, ch := 16, ox := 0, oy := 0, iw := 16, ih := 16, aver := 0, epoch := 0, filled := true, written := true }
def batch6 : Batch := { freshBatch 6 with slots := [batchSlot], steered := [1] }
def inBatch (cur : Option Batch) (closed : List Batch) (s : State) : State :=
  { s with score := { s.score with batches := upd s.score.batches 3 fun x => { x with next := 7, cur := cur, closed := closed } } }
theorem wit_steer : Starts 50 0x28 steerOp (inBatch (some batch6) [] (dueOn 50 steerOp running))
    ∧ Starts 49 0x28 steerOp (inBatch none [] (dueOn 49 steerOp running)) :=
  ⟨starts_of (by decide +kernel),
    starts_of (by decide +kernel)⟩
theorem wit_bell : startable (inBatch (some batch6) [] (dueOn 0 bellOp running)) 0 4 = some bellOp ∧ argHigh bellOp.word = 3
    ∧ ((inBatch (some batch6) [] (dueOn 0 bellOp running)).score.batches[3]?).map (·.cur) = some (some batch6)
    ∧ startable (inBatch none [] (dueOn 0 bellOp running)) 0 4 = some bellOp ∧ argHigh steerOp.word = 3 ∧ steerOp.ctx = none
    ∧ batch6.torn = none ∧ isTorn (inBatch none [] (dueOn 0 bellOp running)) bellOp.ctx = false
    ∧ startable (inBatch none [batch6] (dueOn 55 digestOp running)) 55 0x3E = some digestOp ∧ opSig digestOp.word = false
    ∧ digestOp.ctx = some (3, 6) ∧ getBatch (inBatch none [batch6] (dueOn 55 digestOp running)) 3 6 = some batch6 := by decide +kernel
theorem wit_bellIsland : islandFenced (inBatch (some batch6) [] (dueOn 0 bellOp running)) 39 = false
    ∧ islandFenced (inBatch none [batch6] (dueOn 55 digestOp running)) 39 = false := by decide +kernel

-- OpsCompleteAndTheWatchdogHalts
def runningOn (k : Nat) (r : RunningOp) (s : State) : State :=
  { s with score := { s.score with lanes := upd s.score.lanes k fun l => { l with running := some r } } }
def endedOp (fin : Bool) (sig : Nat) : RunningOp :=
  { op := dueOp (BitVec.ofNat 64 (sig * 2 ^ 55 + 9 * 2 ^ 31)), pages := [], finished := fin }
theorem wit_opComplete : ((runningOn 3 (endedOp true 1) running).score.lanes[3]?).map (·.running) = some (some (endedOp true 1))
    ∧ (endedOp true 1).op.ctx = none ∧ opSig (endedOp true 1).op.word = true ∧ opSig (endedOp true 0).op.word = false
    ∧ token (runningOn 3 (endedOp true 1) running) 9 < 65535 ∧ running.score.batches.all (fun x => x.closed.isEmpty) = true := by
  decide +kernel
/-- R326: a read of the op's waits at its controller. -/
def readWaits : State :=
  updChan 2 (fun c => { c with queue := [{ line := 4, write := false, enables := 1, overlay := 0, poisoned := false, cls := .lc, lane := some 3
                                           since := 0, promoted := false }] }) (runningOn 3 (endedOp true 1) running)
theorem wit_opReads : readsPending readWaits 3 = true ∧ readsPending (runningOn 3 (endedOp true 1) running) 3 = false
    ∧ tabGet 9 (runningOn 3 (endedOp true 1) running).score.cycles = none := by decide +kernel
def stuckState : State :=
  { inBatch none [batch6] (dueOn 17 nop0 running) with band := { running.band with steady := 5 } }
def stuck : State := { stuckState with score := { stuckState.score with tokens := [] } }
theorem wit_watchdog : headOp stuck 17 = some nop0 ∧ gateOk nop0.word stuck = false
    ∧ stuck.score.watchdogHalt = false ∧ nop0.since + 1000 * imgWatchdog stuck.score.image < steadyNs stuck
    ∧ (stuck.score.batches[3]?).map (fun x => (x.cur, x.closed)) = some (none, [batch6]) ∧ batch6.torn = none := by decide +kernel
def haltedState (req : Bool) : State := scoring fun c => { c with watchdogHalt := true, haltReq := req }
theorem wit_restart : (haltedState true).score.watchdogHalt = true ∧ (∀ l ∈ (haltedState true).score.lanes, l.running = none)
    ∧ (haltedState false).power.breath = false ∧ (haltedState false).score.haltReq = false := by decide +kernel

-- VectorOpsRunTheirVectors
/-- One vector descriptor of a function at 0x80: one vector, its input in the resident store. -/
def vecImage (f count : Nat) : List Byte :=
  fill 0xC0 [(0x40, 4, 0x80), (0x44, 4, 0x40), (0x80, 1, f), (0x84, 4, count), (0x88, 4, 4), (0x90, 8, 0x6100000), (0x98, 8, 0x6101000)
    , (0xA0, 8, 0x6102000), (0xA8, 4, 64), (0xAC, 4, 64), (0xB0, 4, 0x01010101), (0xB5, 4, 0x10001), (0xB9, 4, 1)]
def vecOp : IssuedOp := dueOp (opWord 0x18 0 1)
def vecState (f count : Nat) : State :=
  let s := dueOn 19 vecOp (withPkg running)
  { s with score := { s.score with image := vecImage f count } }
theorem wit_vecStarts (f : Nat) (h : f < 8) : Starts 19 0x18 vecOp (vecState f 1) := by
  match f, h with
  | 0, _ | 1, _ | 2, _ | 3, _ | 4, _ | 5, _ | 6, _ | 7, _ =>
    exact starts_of (by decide +kernel)
theorem wit_vecWaits : (List.range 8).all (fun f => (vecWaits 19 (vecState f 1) (imgVec (vecImage f 1) 0) none).isEmpty
    && (imgVec (vecImage f 1) 0).func == f && (imgVec (vecImage f 1) 0).count == 1
    && vecOpen (vecState f 1) (imgVec (vecImage f 1) 0) none 0) = true
    ∧ vecOp.ctx = none ∧ argDesc vecOp.word = 0 ∧ rowOwner (vecState 7 1) none 1 0 = none
    ∧ vecTrouble 19 (vecState 7 1) (imgVec (vecImage 7 1) 0) none none (vecOut 19 (vecState 7 1) (imgVec (vecImage 7 1) 0) none 0) = none
    ∧ (imgVec (vecImage 7 0) 0).count ≠ 1 := by decide +kernel

-- SelectionsFollowTheirRules
def blockA : List Byte := (List.replicate 8 [0x35, 0x46]).flatten
theorem wit_blocks : blockA.length = 16 ∧ (∀ x ∈ blockCodes blockA, ∀ y ∈ blockCodes blockA, x ≤ y + 3)
    ∧ expandBlock (compressBlock 1 blockA) = blockA := by decide +kernel
theorem wit_argmax : argmaxOf [3, 7, 7, 2] = 1 ∧ nmsKeep true 128 [] [] 4 = [] := by decide +kernel

-- TilesAndMoversRunTheirOps
/-- A zero tile descriptor and a mover descriptor of one row of 16 bytes, at 0x80 and at 0xC0. -/
def unitImage : List Byte :=
  fill 0x100 [(0x38, 4, 0x80), (0x3C, 4, 0x40), (0x48, 4, 0xC0), (0x4C, 4, 0x20), (0xC0, 8, 0x4000000), (0xC8, 8, 0x4001000)
    , (0xD0, 4, 16), (0xD4, 4, 16), (0xD8, 3, 16), (0xDC, 4, 1)]
def unitOp (opc : Nat) : IssuedOp := dueOp (opWord opc 0 1)
def unitState (k opc : Nat) : State :=
  let s := dueOn k (unitOp opc) (withPkg running)
  { s with score := { s.score with image := unitImage } }
theorem wit_unitStarts : Starts 3 0x10 (unitOp 0x10) (unitState 3 0x10) ∧ Starts 3 0x11 (unitOp 0x11) (unitState 3 0x11)
    ∧ Starts 26 0x20 (unitOp 0x20) (unitState 26 0x20) ∧ Starts 26 0x21 (unitOp 0x21) (unitState 26 0x21)
    ∧ Starts 26 0x22 (unitOp 0x22) (unitState 26 0x22) :=
  ⟨starts_of (by decide +kernel),
    starts_of (by decide +kernel),
    starts_of (by decide +kernel),
    starts_of (by decide +kernel),
    starts_of (by decide +kernel)⟩
def claimState (v : Nat) : State :=
  let s := runningOn 3 { op := unitOp 0x11, pages := [], finished := false } (unitState 3 0x11)
  { s with score := { s.score with claims := s.score.claims.set 0 { value := v, limit := 2 } } }
theorem wit_units : tileWaits 3 (unitState 3 0x10) (imgTile unitImage 0) none 0 = []
    ∧ moveWaits 26 (unitState 26 0x20) (imgMove unitImage 0) = [] ∧ (claimState 2).score.claims[0]? = some { value := 2, limit := 2 }
    ∧ (claimState 1).score.claims[0]? = some { value := 1, limit := 2 } ∧ argCounter (unitOp 0x11).word = 0
    ∧ tileWaits 3 (claimState 1) (imgTile unitImage 0) none 1 = [] ∧ tileExtent (unitState 3 0x10) (imgTile unitImage 0) 0 = none
    ∧ copyTrouble (unitState 26 0x20) (moveBytes 26 (unitState 26 0x20) (imgMove unitImage 0)) = none
    ∧ writeFault 26 (unitState 26 0x20) 0x4001000 (moveCells (moveBytes 26 (unitState 26 0x20) (imgMove unitImage 0))) = none := by decide +kernel

-- AviaryOpsWorkOnTheirBatch
/-- An Aviary descriptor of a function on batch id 3 at 0x80. -/
def avImage (f : Nat) : List Byte :=
  fill 0xA0 [(0x50, 4, 0x80), (0x54, 4, 0x20), (0x80, 1, f), (0x84, 1, 1), (0x87, 1, 3), (0x88, 8, 0x4000000), (0x90, 8, 0x4008000)]
def avOp : IssuedOp := dueOp (opWord 0x30 0 1)
def avState (f : Nat) (closed : List Batch) : State :=
  let s := inBatch none closed (dueOn 53 avOp (withPkg running))
  { s with score := { s.score with image := avImage f } }
theorem wit_avStarts : Starts 53 0x30 avOp (avState 1 [batch6]) ∧ Starts 53 0x30 avOp (avState 5 [batch6])
    ∧ Starts 53 0x30 avOp (avState 2 []) :=
  ⟨starts_of (by decide +kernel),
    starts_of (by decide +kernel),
    starts_of (by decide +kernel)⟩
theorem wit_avBatch : avBatch (avState 1 [batch6]) (avDesc (avState 1 [batch6]) 0) avOp = some batch6
    ∧ avBatch (beginOp 53 avOp (avState 1 [batch6])) (avDesc (avState 1 [batch6]) 0) avOp = some batch6
    ∧ avBatch (avState 2 []) (avDesc (avState 2 []) 0) avOp = none ∧ argDesc avOp.word = 0
    ∧ ([1, 2, 3, 4, 5].map fun f => (avDesc (avState f []) 0).func) = [1, 2, 3, 4, 5]
    ∧ avFrames (avState 1 [batch6]) batch6 = []
    ∧ matchCosts 9 [(4, 0, 0), (3, 1, 0), (5, 1, 1), (9, 0, 1)] = [(0, 1), (1, 0)] := by decide +kernel

-- LocksAnswerAtOnce
def lockState (n : Nat) (x : Lock) (hosten : Bool) : State :=
  { running with
    locks := running.locks.set n x, gate := { running.gate with regs := tabPut 0x500000 (if hosten then 1 else 0) running.gate.regs } }
def heldLock (o : Nat) : Lock := { held := true, owner := o, broken := false }
def hostOwner : Nat := 2 * 1024 + 9
theorem wit_locks : (lockState 3 (heldLock hostOwner) true).locks[3]? = some (heldLock hostOwner) ∧ lockRange 3 hostOwner = true
    ∧ ownerIsland hostOwner = 2 ∧ hostLocks (lockState 3 (heldLock hostOwner) true) = true
    ∧ hostLocks (lockState 3 (heldLock hostOwner) false) = false ∧ lockRange 64 hostOwner = false ∧ lockRange 63 hostOwner = true
    ∧ lockRange 64 1024 = true ∧ lockRange 63 1024 = false ∧ ownerIsland 1024 = 1 ∧ (lockState 64 brokenLock true).locks[64]? = some brokenLock
    ∧ (heldLock 1024).owner ≠ hostOwner ∧ brokenLock.held = false ∧ brokenLock.broken = true ∧ hostOwner < 65536 := by decide +kernel
theorem wit_lockServes : BarServes { onHost with locks := onHost.locks.set 3 (heldLock hostOwner) } := ⟨by decide, by decide, by decide, by decide⟩
theorem wit_lockFence : resetFenced (lockState 3 (heldLock hostOwner) true) 39 = false ∧ resetFenced (fenced39 running) 39 = true
    ∧ running.gate.linkUp = false ∧ islandFenced { onHost with fenced := some { island := 2, cause := 0, since := 0, cmd := none } } 2 = true
    ∧ memSpace onHost = true ∧ onHost.gate.d3hot = false ∧ onHost.locks.length ≤ 256 := by decide +kernel

-- ReportsAreCoalesced
def report0 : Report :=
  { stamp := 0, status := 0x0103, island := 3, unit := 1, stream := 5, arg0 := 7, arg1 := 8, torn := false, poison := false }
def sourceOf (counter t0 : Nat) : ErrorSource :=
  { freshSource 3 1 with interval := some (0x0103, t0), counter := counter, first := if counter = 0 then none else some report0 }
def reporting (counter t0 : Nat) : State :=
  { running with err := { running.err with sources := [sourceOf counter t0] }, band := { running.band with steady := 1500000 } }
theorem wit_reports : (getSource 3 1 (reporting 2 1000000)).interval = some (0x0103, 1000000)
    ∧ steadyNs (reporting 2 1000000) < 1000000 + 1000000 ∧ 100 + 1000000 ≤ steadyNs (reporting 2 100)
    ∧ (getSource 3 1 (reporting 2 100)).first = some report0 ∧ 0 < (getSource 3 1 (reporting 2 100)).counter
    ∧ (getSource 3 1 running).interval = none ∧ (getSource 3 1 running).counter = 0 ∧ running.err.droppedEntries = 0
    ∧ logUsed running.err < 1024 ∧ running.err.head + 1 < 2 ^ 32 ∧ (reporting 2 100).power.running = true := by decide +kernel
theorem wit_reportTimes : 0 < (getSource 3 1 (reporting 2 100)).counter ∧ (getSource 3 1 (reporting 0 100)).counter = 0
    ∧ (getSource 3 1 (reporting 0 1000000)).interval = some (0x0103, 1000000) ∧ 0x0103 ≠ 0x0104
    ∧ 499999 + 1000000 ≤ steadyNs (reporting 2 0) ∧ 500000 + 1000000 ≤ steadyNs (reporting 2 0)
    ∧ steadyNs (reporting 2 0) < 500001 + 1000000 ∧ (getSource 3 1 (reporting 65535 1000000)).counter = 65535 := by decide +kernel

-- IslandsAreResetOneAtATime
def resetJob (i : Nat) : ResetJob := { island := i, cause := 3, since := 0, cmd := none }
def resetCmd : HostCmd := cmdOf 0x71 [14]
def resetting (j : Option ResetJob) (l : List ResetJob) : State := { running with fenced := j, resetQueue := l }
def brokenOwner : Nat := 14 * 1024 + 3
theorem wit_resets : running.power.update.switching = none ∧ running.fenced = none ∧ running.resetQueue = []
    ∧ running.power.update.waitingReset = [] ∧ (resetting (some (resetJob 7)) [resetJob 9]).fenced = some (resetJob 7)
    ∧ (resetJob 7).island ≠ 14 ∧ (resetJob 9).island ≠ 14 ∧ ownerIsland brokenOwner = 14
    ∧ (lockState 70 (heldLock brokenOwner) false).locks[70]? = some (heldLock brokenOwner) ∧ (resetJob 14).cmd = none
    ∧ (running.islands[14]?).map (·.ready) = some false ∧ running.pins[3]? = some Pin.reset := by decide +kernel
theorem wit_islandReset : Accepts (.islandReset 0 7) resetCmd (hosting resetCmd onHost) := accepts_of (by decide +kernel)
def readyState (b : Bool) : State :=
  { resetting (some (resetJob 14)) [] with islands := upd running.islands 14 fun x => { x with ready := b } }
theorem wit_unfence : ((readyState true).islands[14]?).map (·.ready) = some true ∧ (readyState true).power.running = true
    ∧ ((readyState false).islands[14]?).map (·.ready) = some false ∧ (readyState true).fenced = some (resetJob 14) := by decide +kernel
def recovering : State := { State.reset with power := { Power.reset with recovery := true, maingood := true } }
def bootFencedState : State :=
  { resetting (some (resetJob 14)) [] with islands := upd running.islands 14 fun x => { x with bootFenced := true } }
theorem wit_safe : recovering.power.running = false ∧ recovering.power.recovery = true ∧ recovering.power.pwrfail = false
    ∧ (bootFencedState.islands[14]?).map (·.bootFenced) = some true ∧ ((readyState true).islands[14]?).map (·.bootFenced) = some false := by
  decide +kernel

-- PagesMoveBetweenTiers
def page0 (t : Tier) (cold : Bool) (use : Nat) : Page :=
  { tier := t, count := 1, poison := false, pins := 0, frame := 7, lastUse := use, backCold := cold, backFrame := 3, source := .hot, prefetched := true
    cells := 0, fillStatus := 0x0504 }
def pageState (p : Page) (fills spills : List Nat) (s : State) : State :=
  { withPkg s with aviary := { s.aviary with pages := [(4, p), (9, page0 .hot false 50)], fills := fills, spills := spills } }
/-- One sequence of pages of 3,969 frames each leaves 127 hot frames free. -/
def wideState : State :=
  { pageState (page0 .hot false 60) [] [] running with pkg := some { pkgOf [] with kvWidth := 256 * 2000 } }
theorem wit_pages : tabGet 4 (pageState (page0 .warm false 2) [4] [] running).aviary.pages = some (page0 .warm false 2)
    ∧ kvGran (pageState (page0 .warm false 2) [4] [] running) ≤ hotFree (pageState (page0 .warm false 2) [4] [] running)
    ∧ 128 ≤ hotFree (pageState (page0 .warm false 2) [4] [] running)
    ∧ 1024 ≤ warmFrames - (backUsed (pageState (page0 .warm false 2) [4] [] running) false).length
    ∧ canSend (pageState (page0 .moving true 2) [4] [] onHost) = true ∧ (getSource 38 0 running).captured = none
    ∧ (page0 .moving true 2).backCold = true := by decide +kernel
theorem wit_spill : hotFree wideState < 128 ∧ (∃ x ∈ wideState.aviary.pages, x.2.tier = .hot ∧ x.2.pins = 0)
    ∧ hotFree wideState < kvGran wideState := by decide +kernel
/-- R338, R341: a pool whose floor is for movers, with cells and without; a transfer without one. -/
def movingState (fresh : Nat) (p : Page) (spills : List Nat) : State :=
  { pageState p [] spills onHost with pools := onHost.pools.set 0 { pool0 with size := 4096, floor := 1024, fresh := fresh } }
theorem wit_transfer : (takeTransfer (movingState 1 (page0 .warm false 2) [])).isSome = true
    ∧ takeTransfer (movingState 4090 (page0 .warm false 2) []) = none
    ∧ (takeTransfer (pageState (page0 .warm false 2) [4] [] running)).isSome = true ∧ canAsk (movingState 1 (page0 .warm false 2) []) = true
    ∧ (transferData (movingState 1 (page0 .moving true 2) []) (page0 .moving true 2) .cold 3).2 = none
    ∧ 4 ∈ (movingState 1 (page0 .moving false 2) [4]).aviary.spills ∧ 4 ∉ (movingState 1 (page0 .moving false 2) []).aviary.spills
    ∧ (page0 .moving false 2).count ≠ 0 ∧ { page0 .moving false 2 with count := 0 }.count = 0 := by decide +kernel
theorem readCell_crcAt (s : State) (i : Nat) (h : ∀ bs, bs = (unitBytes s (cellAddr s i) 256).map (·.1) →
    (BitVec.ofNat 32 (field bs 0xFC 4) ≠ ~~~ crcAt (bs.take 0xFB) 0xFFFFFFFF#32)
    ∧ ¬ (BitVec.ofNat 32 (field bs 0xFC 4) = ~~~ ~~~ crcAt (bs.take 0xFB) 0xFFFFFFFF#32 ∧ field bs 0xF7 1 ≤ 247)) :
    readCell s i = none := by
  have := h _ rfl
  rw [crcAt_eq] at this
  unfold readCell crc32c
  simp only [if_neg this.1, if_neg this.2]
theorem readChain_bad {i : Nat} {s : State} (h : readCell s i = none) (h0 : i ≠ 0) : ∀ n, 0 < n → (readChain n i s).bad = some i
  | 0, h => absurd h (by decide)
  | n + 1, _ => by unfold readChain; rw [if_neg h0, h]
/-- R358: a cell of zeros fails its check. -/
def badPage : Page := { page0 .moving false 2 with cells := 9 }
theorem wit_badCell : readCell (movingState 1 badPage []) badPage.cells = none :=
  readCell_crcAt _ _ fun bs e => by subst e; decide +kernel
theorem transfer_bad {s : State} {p : Page} {tier : Tier} {f c : Nat} (h0 : p.cells ≠ 0)
    (h : (readChain 32 p.cells s).bad = some c) : (transferData s p tier f).2 = some c := by
  unfold transferData
  rw [if_neg h0]
  exact h
theorem wit_transferBad : (transferData (movingState 1 badPage []) badPage .warm 3).2 = some badPage.cells :=
  transfer_bad (by decide) (readChain_bad wit_badCell (by decide) 32 (by decide))

/-- R162: the vector's input is a page of the sequence window that lies in the warm tier; R172: an ALIST waits for such a page. -/
def vecPageState : State :=
  let s := pageState (page0 .warm false 2) [] [] (vecState 0 1)
  { s with
    score := { s.score with image := fill 0xC0 [(0x40, 4, 0x80), (0x44, 4, 0x40), (0x84, 4, 1), (0x88, 4, 4), (0x90, 8, 0x804000000000)
      , (0x98, 8, 0x6101000), (0xA0, 8, 0x6102000), (0xA8, 4, 64), (0xAC, 4, 64), (0xB0, 4, 0x01010101), (0xB5, 4, 0x10001), (0xB9, 4, 1)] }
    mem := { s.mem with l1Base := 0x1000100000 }
    aviary := { s.aviary with seqs := [(0, emptySeq .context 5)], maps := [(mapKey 0 0 0, 4)] } }
theorem wit_vecPage : vecWaits 19 vecPageState (imgVec vecPageState.score.image 0) none = [.page 4] := by decide +kernel
theorem wit_coldPages : coldPages vecPageState [4, 9] = [4] := by decide +kernel

-- PacketsReachTheirStream
def flow0 : Flow :=
  { port := 0, vlan := none, dst := [10, 0, 0, 2], dport := 5004, src := none, ssrc := none, payloadType := 96, hevc := false }
def packet0 (marker : Bool) : RtpPacket :=
  { port := 0, vlan := none, dst := [10, 0, 0, 2], dport := 5004, src := [10, 0, 0, 1], ssrc := 77, version := 2, payloadType := 96
    seq := 9, ts := 3000, marker := marker, data := [0x65, 1, 2], fragmented := false, checksOk := true, stamp := 55 }
def rtpStream : Stream := { stream0 with rtp := { stream0.rtp with flow := some flow0 } }
def rtpState : State := withStream 5 rtpStream (withPool running)
def pieceOf (ts stamp : Nat) (marker : Bool) : Piece := { ts := ts, marker := marker, payload := [0x65], stamp := stamp }
def windowStream : Stream :=
  { rtpStream with rtp := { rtpStream.rtp with
      pieces := [(9, pieceOf 3000 0 false), (11, pieceOf 3000 0 true)], expected := some 12 } }
theorem wit_packets : packetStream rtpState (packet0 true) = some 5 ∧ stream? rtpState 5 = some rtpStream
    ∧ packetStream (withPool running) (packet0 true) = none ∧ rtpStream.rtp.pieces = [] ∧ rtpStream.rtp.expected = none
    ∧ rtpStream.rtp.released = none ∧ rtpStream.rtsp.phase = .playing ∧ rtpStream.rtp.ssrc = none ∧ islandFenced rtpState 3 = false
    ∧ nalExcluded false (rtpPayload (packet0 true)) = false ∧ rtpPayload (packet0 true) = [0x65, 1, 2] ∧ rtpStream.rtp.cut = none ∧ (running.eth[0]?).isSome = true
    ∧ queueCells rtpStream + cellsOf 7 ≤ ingestCells rtpStream.cfg none ∧ windowFrom windowStream.rtp = some 0
    ∧ (withStream 5 windowStream running).streams[5]? = some (some windowStream) ∧ windowStream.cfg.wr = 0
    ∧ nowNs (withStream 5 windowStream running) = 0 := by decide +kernel
theorem wit_packetIsland : ((List.range 4).all fun u => !unitFenced rtpState 3 u) = true ∧ asleep rtpState 3 = false
    ∧ resetFenced rtpState 3 = false ∧ (rtpState.islands[3]?).map (·.safe) = some [] := by decide +kernel
def queuedStream (k : Nat) : Stream := { stream0 with cfg := { stream0.cfg with source := k }, frames := [{ frame0 with id := 4 }] }
theorem wit_release : nextQueued (queuedStream 1) = some { frame0 with id := 4 } ∧ heldFrames (queuedStream 1) < 3
    ∧ decodePaused (withStream 5 (queuedStream 1) running) (queuedStream 1) = false ∧ isCoded (queuedStream 1) = true
    ∧ isCoded (queuedStream 4) = false ∧ (withStream 5 (queuedStream 4) running).streams[5]? = some (some (queuedStream 4))
    ∧ 3 ≤ heldFrames { stream0 with frames := List.replicate 3 { frame0 with landed := true } } := by decide +kernel

-- SessionsFollowTheirSource
def rtspStream (p : RtspPhase) (source : Nat) : Stream :=
  { stream0 with cfg := { stream0.cfg with source := source }, rtsp := { stream0.rtsp with phase := p, reportsLeft := 1, timeout := 8 } }
def rtspState (p : RtspPhase) (source : Nat) : State :=
  { withStream 5 (rtspStream p source) running with band := { running.band with steady := 6000000000 } }
def media0 : MediaDesc :=
  { video := true, codec := .h264, payloadType := 96, interleaved := false, donDiff := 0, sources := [], sprop := [], control := [] }
def okResponse : RtspResponse :=
  { code := 200, unauthorised := false, challenges := [], redirect := none, media := [{ media0 with video := false }, media0]
    getParameter := true, sessionTimeout := 30, dst := [10, 0, 0, 2], dport := 6000, src := none, ssrc := none }
theorem wit_rtspAnswers : chosenMedia okResponse.media = some media0 ∧ (rtspStream .options 0).rtsp.auth = none
    ∧ { okResponse with unauthorised := true, challenges := [.basic [1]] }.challenges = .basic [1] :: []
    ∧ { okResponse with unauthorised := true }.challenges = [] ∧ (rtspStream .options 0).rtsp.openCmd = none
    ∧ { (rtspStream .options 0).rtsp with openCmd := some (0, 7) }.openCmd.isSome = true
    ∧ { okResponse with redirect := some [0x72] }.redirect = some [0x72] ∧ (rtspStream .options 0).rtsp.redirects < 3 := by decide +kernel
/-- R187: the packet that the slow path still takes in a second, and the next one; R186: an offer is met by a request. -/
theorem wit_slowPath : ([EthPort.reset, { EthPort.reset with slowFrom := 0, slowCount := 99999 }].all fun e => decide (e.slowCount < 100000)) = true
    ∧ ¬ ({ EthPort.reset with slowCount := 100000 } : EthPort).slowCount < 100000 ∧ { net0 with ipv4 := [], dhcp := true }.dhcp = true
    ∧ netOk { net0 with ipv4 := [], dhcp := true } = true := by decide +kernel
theorem wit_rtsp : (rtspState .options 0).streams[5]? = some (some (rtspStream .options 0)) ∧ (rtspStream .options 0).rtsp.transport = 0
    ∧ (rtspStream .setup 0).cfg.source = 0 ∧ flowTaken (rtspState .setup 0) 5 (rtspFlow (rtspStream .setup 0) okResponse) = false
    ∧ (rtspStream .play 0).rtsp.attempts = 0 ∧ (rtspStream .playing 1).rtp.lastArrival + idleNs (rtspStream .playing 1) ≤ 6000000000
    ∧ (rtspStream .lost 0).rtsp.retryAt ≤ 6000000000 ∧ (rtspStream .playing 0).rtsp.lastSent + 8 * 500000000 ≤ 6000000000
    ∧ 0 < (rtspStream .playing 0).rtsp.reportsLeft ∧ (rtspStream .playing 0).rtsp.reportAt ≤ 6000000000
    ∧ (rtspStream .playing 1).rtsp.rtcpAt + 5000000000 ≤ steadyNs (rtspState .playing 1) := by decide +kernel

-- SensorFramesAreCaptured
def openFrame (lines : Nat) : CaptureFrame :=
  { number := 3, stamp := 44, lines := lines, head := 0, tailCell := 0, damaged := 0, truncated := 0, extra := 0, complete := false, id := 0 }
def smallSet : CaptureSet := { captureSet0 with width := 32, height := 2 }
def capStream (f : Option CaptureFrame) (p : Option (Nat × List (Nat × Nat))) : Stream :=
  { stream0 with cfg := { stream0.cfg with source := 2 }, capture := some { freshCapture smallSet with frame := f, pending := p } }
def capState (f : Option CaptureFrame) (p : Option (Nat × List (Nat × Nat))) : State :=
  let s := withStream 5 (capStream f p) running
  { s with pools := [{ pool0 with quota := [(5, 100)] }], band := { running.band with steady := 9 } }
theorem wit_sensorNone : captureStream (capState none none) 1 3 = none := by decide +kernel
theorem wit_sensor : captureStream (capState none none) 1 2 = some 5 ∧ stream? (capState none none) 5 = some (capStream none none)
    ∧ islandFenced (capState none none) 4 = false ∧ (3 : Nat) < steadyNs (capState none (some (3, []))) ∧ smallSet.dataType ≠ 0x2B
    ∧ captureStream (capState (some (openFrame 1)) none) 1 2 = some 5
    ∧ lineBytes smallSet.dataType smallSet.width ≤ (List.replicate 32 (1#8)).length ∧ (openFrame 1).lines + 1 = smallSet.height
    ∧ (storeLine .lc 5 0 0 false (List.replicate 32 1#8) (capState (some (openFrame 1)) none)).isSome = true
    ∧ (openFrame 0).lines + 1 ≠ smallSet.height ∧ smallSet.port = 1 := by decide +kernel
theorem wit_sensorIsland : unitFenced (capState none none) 4 1 = false ∧ asleep (capState none none) 4 = false
    ∧ landClass (capState (some (openFrame 1)) none) (capStream (some (openFrame 1)) none) 3 = .realTime 3
    ∧ (storeLine (.realTime 3) 5 0 0 true (List.replicate 32 1#8) (capState (some (openFrame 1)) none)).isSome = true := by decide +kernel

-- PicturesAreDecodedAndJudged
/-- A parameter set of one block of 16 × 16, with the PPS that names it. -/
def sps0 : Sps :=
  { profile := .main, progressive := true, chroma := 1, depth := 8, codedW := 16, codedH := 16, width := 16, height := 16, xoff := 0
    yoff := 0, dpb := 2, reorder := 0, latency := none, block := 16, body := [] }
def slice0 : SliceFacts :=
  { pps := 0, first := 0, blocks := 1, dependent := false, errorAt := none, bytes := 40, bins := 300, passAt := 0, refs := []
    unsupported := false }
def facts0 : PictureFacts :=
  { sets := [.sps 0 0 true sps0, .pps 0 true { sps := 0, flexible := false, cols := [], rows := [], body := [] }], slices := [slice0], irap := true, idrOrBla := true, cra := false, rasl := false
    isReference := true, poc := 0, shown := true, restarts := false, noPriorOutput := false, kept := [], hashMismatch := false }
def landingFrame (reason : Nat) : Frame := { freshFrame 4 30 30 0 0 false false with stage := .landing, reason := reason }
def codecStream (reason : Nat) : Stream := { stream0 with fountain := some 2, stores := 4, frames := [landingFrame reason] }
def codecState (reason : Nat) : State := withStream 5 (codecStream reason) running
def busyState (g : PictureFacts) (t : Nat) : State :=
  { codecState 0 with
    fountains := running.fountains.set 2 { busy := some (.stream 5 4, g, 0), paused := false, reads := [], writes := [], store := 1 }
    band := { running.band with steady := t } }
theorem wit_decode : (running.fountains[2]?).map (fun u => (u.busy, u.paused)) = some (none, false) ∧ islandFenced (codecState 0) 7 = false
    ∧ fountainChoice (codecState 0) 2 = some (.stream 5 4) ∧ fountainChoice (codecState 7) 2 = some (.stream 5 4)
    ∧ frameOf (codecStream 0) 4 = some (landingFrame 0) ∧ frameOf (codecStream 7) 4 = some (landingFrame 7)
    ∧ stream? (codecState 0) 5 = some (codecStream 0) ∧ (freeStore (codecStream 0)).isSome = true
    ∧ facts0.isReference = true := by decide +kernel
theorem wit_decodeAwake : asleep (codecState 0) 7 = false := by decide +kernel
/-- The decode context once the access unit of `facts0` has been parsed; without its slice the picture is not covered. -/
def parsed : Decoder := parsePicture facts0 (codecStream 0).dec
theorem wit_decodeRun : freeStore { codecStream 0 with stores := 0 } = none ∧ parsed.sps = some sps0
    ∧ getFrame (busyState facts0 0) 5 4 = some (landingFrame 0) ∧ (judge block0 parsed false facts0 false).damaged = false
    ∧ (judge block0 parsed false { facts0 with slices := [{ slice0 with errorAt := some 0 }] } false).damaged = true
    ∧ (judge block0 { parsed with mode := .recovery } false { facts0 with slices := [] } false).concealed = true
    ∧ entersOutput parsed facts0 = true ∧ 0 + 50000000 ≤ steadyNs (busyState facts0 50000000)
    ∧ steadyNs (busyState facts0 0) < 0 + 50000000 := by decide +kernel
def hiddenPicture : PictureFacts := { facts0 with shown := false }
theorem wit_output :
    let j := judge block0 parsed false hiddenPicture false
    let o := outputStep parsed hiddenPicture j true (currentPicture block0 parsed hiddenPicture j [] 4 30 0)
    o.released.length + o.removed.length = 0 ∧ o.dec.nextDec = 1 ∧ o.dec.joined = true := by decide +kernel
/-- R225: 11 bins for each byte and 512 for each block. -/
theorem test_binLimit : binLimit slice0 = 952 ∧ binStop slice0 = none ∧ binStop { slice0 with bins := 953, passAt := 7 } = some 7 := by decide
/-- A clip of a compressed stream waits for its Fountain. -/
def fountainClip : Clip :=
  { freshClip 0 9 0 0x1100000000 (codecStream 0) (clipBlock (clipBytes0 0)) [clipSource 40] with fountain := some 2, stores := 5 }
def clipDecode : State := { running with clips := running.clips.set 2 (some fountainClip) }
theorem wit_clipDecode : fountainChoice clipDecode 2 = some (.clip 2) ∧ (freeClipStore fountainClip).isSome = true
    ∧ fountainClip.sources ≠ [] ∧ clipDecode.clips[2]? = some (some fountainClip) := by decide +kernel

-- CropsTakeSlotsOfABatch
def prepFrame : Frame := { freshFrame 4 1000 1000 0 256 false false with num := some 9, stage := .ready }
def topStream (f : Frame) : Stream := { hostStream with cfg := { hostStream.cfg with source := 4 }, topiary := 1, frames := [f] }
def topState (f : Frame) (u : Topiary) (now : Nat) : State :=
  let s := withStream 5 (topStream f) (inBatch none [] (withPkg running))
  { s with
    topiaries := s.topiaries.set 1 u, band := { running.band with count := now * 2 ^ 32 }
    score := { s.score with batches := upd s.score.batches 0 fun x => { x with cur := some { freshBatch 6 with steered := [1] } } } }
def idleTopiary : Topiary := { cur := none, suspended := none }
def topJob (be granted : Bool) : TopiaryJob := { stream := 5, frame := 4, be := be, asked := true, granted := granted }
def crop0 : Crop := { full := true, x := 0, y := 0, w := 16, h := 16 }
def grantFrame : Frame := { prepFrame with crops := [crop0] }
def writeFrame : Frame := { grantFrame with slotAt := some (3, 6, 0) }
def writeState (f : Frame) : State :=
  let s := topState f { idleTopiary with cur := some (topJob true true) } 2000
  { s with score := { s.score with batches := upd s.score.batches 3 fun x => { x with
      closed := [{ batch6 with slots := [{ batchSlot with frame := 9, written := false }] }] } } }
theorem wit_topiary : (topState prepFrame idleTopiary 2000).topiaries[1]? = some idleTopiary
    ∧ (topiaryChoice (topState prepFrame idleTopiary 2000) 1 false).map (fun y => (y.1, y.2.2)) = some (5, prepFrame)
    ∧ timeTest (topStream prepFrame) prepFrame false 2000 = none ∧ (cropList (topStream prepFrame) prepFrame).1 ≠ []
    ∧ (timeTest (topStream prepFrame) prepFrame false 9000000000000).isSome = true
    ∧ frameOf (topStream prepFrame) 4 = some prepFrame ∧ islandFenced (topState prepFrame idleTopiary 2000) 10 = false
    ∧ topiaryChoice (topState grantFrame idleTopiary 2000) 1 true = none
    ∧ (grantAt (topState grantFrame { idleTopiary with cur := some (topJob true false) } 2000) 1 0 1) = (none, true) := by decide +kernel
theorem wit_slotWrite : (writeState writeFrame).topiaries[1]? = some { idleTopiary with cur := some (topJob true true) }
    ∧ (getBatch (writeState writeFrame) 3 6).map (fun y => (y.slots.zipIdx.find? fun c => decide (0 ≤ c.2 ∧ c.2 < 0 + 1) && !c.1.written).isSome)
        = some true
    ∧ (match frameSource (writeState writeFrame) (topStream writeFrame) writeFrame with | .ok _ => true | .error _ => false) = true := by
  decide +kernel
/-- R358: a chain whose first cell fails its check. -/
def badFrame : Frame := { writeFrame with head := 9 }
theorem wit_badChain : readCell (writeState badFrame) badFrame.head = none := readCell_crcAt _ _ fun bs e => by subst e; decide +kernel
theorem frameSource_bad {s : State} {x : Stream} {f : Frame} {c : Nat} (h : (readChain chainFuel f.head s).bad = some c) :
    frameSource s x f = .error (if f.facts.isSome then reasonFault else reasonDamaged, c) := by
  unfold frameSource
  simp only [h]
theorem wit_slotBad : frameSource (writeState badFrame) (topStream badFrame) badFrame
    = .error (if badFrame.facts.isSome then reasonFault else reasonDamaged, badFrame.head) :=
  frameSource_bad (readChain_bad wit_badChain (by decide) _ (by unfold chainFuel; omega))
theorem wit_slotToken : token (writeState writeFrame) (geom (writeState writeFrame) 3).filltok < 65535 ∧ badFrame.reason = 0
    ∧ asleep (writeState writeFrame) 10 = false := by decide +kernel

-- TrainingMakesCandidates
def trainJob (since : Nat) : TrainJob := { stream := 5, trigger := 9, version := 0, start := [], samples := [], since := since }
def trainState : State :=
  { withStream 5 stream0 (scoring id) with trainPending := [trainJob 7, trainJob 3], pkg := some { pkgOf image0 with geometry := fill 64 [(1, 1, 1), (4, 2, 8)] } }
theorem wit_training : trainState.trainRunning = none ∧ trainState.trainPending ≠ [] ∧ scoreRuns trainState = true
    ∧ trainState.power.update.switching = none ∧ trainingBatch trainState = some 0
    ∧ stream? { trainState with trainRunning := some (trainJob 3) } 5 = some stream0 := by decide +kernel

-- RecordsLeaveInFrameOrder
def overFrame (reason : Nat) (stage : FrameStage) : Frame :=
  { freshFrame 4 1000 1000 0 0 false false with num := some 9, stage := stage, reason := reason, status := 0x0322 }
def recStream (f : Frame) : Stream := { stream0 with frames := [f], nextEmit := 9, formed := [] }
def recState (f : Frame) : State := withStream 5 (recStream f) running
def emitStream : Stream := { recStream (overFrame 0 .formed) with formed := [{ frame := 9, bytes := List.replicate 64 0 }] }
theorem wit_recordForm : formNext (recState (overFrame 7 .skipped)) 5 (recStream (overFrame 7 .skipped)) = some (overFrame 7 .skipped)
    ∧ formNext (recState (overFrame 0 .detected)) 5 (recStream (overFrame 0 .detected)) = some (overFrame 0 .detected)
    ∧ islandFenced running 1 = false ∧ timeFrozen running = false ∧ running.pins.length = 16 := by decide +kernel
theorem wit_recordForms : commitWaits (recState (overFrame 0 .detected)) 5 9 (recStream (overFrame 0 .detected)) = []
    ∧ ((overFrame 7 .skipped).reason = 0 → False) := by decide +kernel
/-- A birth whose context's one token lies on a page in the warm tier. -/
def birthStream : Stream := { recStream (overFrame 0 .detected) with context := some 7 }
def birthState : State :=
  let s := pageState (page0 .warm false 2) [] [] (withStream 5 birthStream running)
  { s with aviary := { s.aviary with
      seqs := tabPut 7 { emptySeq .context 5 with tokens := [{ slot := 0, frame := 0, stamp := 0, box := [], score := 0, cls := 0, det := 0, flags := 0, tags := [] }] } s.aviary.seqs
      maps := tabPut (mapKey 7 0 0) 4 s.aviary.maps, journals := [{ stream := 5, frame := 9, effects := [.birth 0 8 1 0] }] } }
theorem wit_recordWaits : commitWaits birthState 5 9 birthStream = [4]
    ∧ formNext birthState 5 birthStream = some (overFrame 0 .detected) := by decide +kernel
theorem wit_recordBytes :
    unackedBytes (formRecord 5 9 (recStream (overFrame 7 .skipped)) (overFrame 7 .skipped) (recState (overFrame 7 .skipped))) ≤ 262144 := by
  decide +kernel
theorem wit_recordEmit : (emitStream.formed.find? fun r => r.frame == emitStream.nextEmit) = some { frame := 9, bytes := List.replicate 64 0 }
    ∧ frameByNum emitStream emitStream.nextEmit = some (overFrame 0 .formed) ∧ emitStream.closing = false
    ∧ ((recStream (overFrame 7 .skipped)).formed.find? fun r => r.frame == 9) = none
    ∧ (withStream 5 emitStream running).streams[5]? = some (some emitStream) := by decide +kernel

-- RequestsAreServedByRank
def cachedSet : CacheSet := { emptySet with ways := emptySet.ways.set 5 { valid := true, line := 4, dirty := false, poison := false } }
def cachedState : State := { running with mem := { running.mem with cache := tabPut (setKey 0 4) cachedSet running.mem.cache } }
theorem wit_cache : dramMap cachedState 0x1000000C00 = some (0, 256)
    ∧ dramMap cachedState 0 = none ∧ islandFenced cachedState 39 = false ∧ portMay 0x1000000C00 true .lc = true
    ∧ (tabGet (setKey 0 4) cachedState.mem.cache) = some cachedSet
    ∧ cachedSet.ways[5]? = some { valid := true, line := 4, dirty := false, poison := false } ∧ 0 < classWays cachedState .lc
    ∧ portMay 0x1C00000000 true (.realTime 3) = true
    ∧ portMay 0x1C00000000 false (.realTime 3) = false ∧ portMay 0x1000000C00 true (.realTime 3) = false ∧ dramMap cachedState 0x1C00000000 = some (12, 0) := by decide +kernel
theorem wit_cacheFence : islandFenced (fenced39 cachedState) 39 = true ∧ classWays cachedState (.realTime 3) = 0
    ∧ dramMap (fenced39 cachedState) 0x1C00000000 = some (12, 0) := by decide +kernel
def dramReq (line : Nat) (write full mark : Bool) (cls : ReqClass) : DramReq :=
  { line := line, write := write, enables := if full then BitVec.allOnes 64 else 1, overlay := 0, poisoned := mark, cls := cls
    lane := none, since := 0, promoted := false }
def chanState (k : Nat) (f : Channel → Channel) (steady : Nat) : State :=
  updChan k f { running with band := { running.band with steady := steady } }
def queued (l : List DramReq) (c : Channel) : Channel := { c with queue := l }
def refreshing (owed : Nat) (forced : Bool) (round held : List Nat) (c : Channel) : Channel :=
  { c with owed := owed, forced := forced, round := round, heldBanks := held }
theorem wit_channel : ∀ c ∈ (chanState 3 (queued [dramReq 9 true false true .be, dramReq 8 true true true .lc]) 10000).mem.chans,
    c.fenced = false ∧ c.selfRefresh = false ∧ refreshFirst running 3 c = false := by decide +kernel
theorem wit_refresh : ∀ c ∈ ((chanState 14 (refreshing 8 true [0, 2, 3, 4, 5, 6, 7] [9]) 0).mem.chans)[14]?,
    refreshFirst running 14 c = true ∧ pairHeld c 1 = true ∧ c.fenced = false ∧ 1 ∉ c.round := by decide +kernel

-- MemoryIsWatchedAndHostReadsEnd
def readsState (l : List HostRead) (s : State) : State := { s with mem := { s.mem with reads := l } }
def hostRead0 (tag : Option Nat) (a : Nat) : HostRead := { tag := tag, addr := a, len := 128, reserved := false, forOp := false }
theorem wit_polls : quinbuarRuns running = true ∧ running.mem.chans.length = 16 ∧ (getSource 43 0 running).captured = none
    ∧ true ∉ running.mem.panic ∧ true ∈ ({ running with mem := { running.mem with panic := running.mem.panic.set 3 true } } : State).mem.panic
    ∧ quinbuarRuns { running with mem := { running.mem with panic := running.mem.panic.set 3 true } } = true
    ∧ (getSource 54 15 running).captured = none ∧ 40 + 15 * 16 / 16 = 55 := by decide +kernel
/-- R305: a word of the map, one of an SRAM outside it, one of a cached line; none lies in the error log. -/
theorem wit_scrub : ([0x4000008, 0x3000000000018, 0x1000000C00].all fun a =>
      eccWord cachedState a && !cachedState.mem.ue.contains (a / 8)
      && !cachedState.mem.sbe.contains (a / 8) && !decide (cachedState.err.base / 8 ≤ a / 8 ∧ a / 8 < cachedState.err.base / 8 + 4096)
      && (getSource (wordSource cachedState a).1 (wordSource cachedState a).2 cachedState).captured.isNone) = true := by decide +kernel
theorem wit_reads : (readsState [hostRead0 none 64, hostRead0 (some 9) 4096] onHost).mem.reads
      = [hostRead0 none 64] ++ hostRead0 (some 9) 4096 :: [] ∧ (∀ x ∈ [hostRead0 none 64] ++ [], x.tag ≠ some 9)
    ∧ islandFenced onHost 2 = false ∧ onHost.power.running = true ∧ (getSource 2 0 onHost).captured = none
    ∧ (∀ x ∈ onHost.mem.reads, x.tag ≠ some 9) := by decide +kernel
theorem wit_readHost : canSend onHost = true ∧ canSend running = false ∧ islandFenced running 2 = false ∧ onHost.mem.hostBad = []
    ∧ islandFenced { onHost with fenced := some { island := 2, cause := 0, since := 0, cmd := none } } 2 = true := by decide +kernel

-- CellsAreTakenKeptAndReleased
def pool1 : Pool := { pool0 with quota := [(5, 40), (255, 999)], used := [(5, 4)], floor := 100 }
def poolState (p : Pool) : State := { running with pools := running.pools.set 0 p, censusOn := true }
def cellState (count next : Nat) : State :=
  setCount 7 count (setNext 7 next (setAccount 7 5 (setCount 9 2 (poolState { pool1 with fresh := 10 }))))
theorem wit_alloc : (poolState pool1).pools[0]? = some pool1 ∧ allocOk (poolState pool1) 0 5 32 = true ∧ islandFenced (poolState pool1) 39 = false
    ∧ allocOk (poolState pool1) 0 255 1 = true ∧ poolUsed pool1 5 + 32 ≤ poolQuota pool1 5 ∧ ¬ poolUsed pool1 5 + 32 ≤ poolQuota pool1 6
    ∧ pool1.floor + 32 ≤ poolFree (poolState pool1) 0 ∧ pool1.fresh < pool1.size
    ∧ poolFree (poolState { pool1 with fresh := 995 }) 0 < pool1.floor + 1
    ∧ poolFree (poolState { pool1 with fresh := 995 }) 0 < 6 ∧ 5 ≤ poolFree (poolState { pool1 with fresh := 995 }) 0
    ∧ allocOk (poolState pool1) 0 5 1 = true ∧ cellOk (poolState pool1) 9 = true ∧ cellCount (poolState pool1) 9 = 0 := by decide +kernel
theorem wit_allocFence : islandFenced (fenced39 (poolState pool1)) 39 = true ∧ allocOk (fenced39 (poolState pool1)) 0 5 1 = true
    ∧ cellPool (cellIndex 0 1) = 0 ∧ pool1.ownerBase + cellOf 1 < cellAddr (poolState pool1) 1 ∧ memWf (poolState pool1).mem.bytes = true
    ∧ (poolState pool1).mem.ue = [] ∧ (poolState pool1).mem.sbe = []
    ∧ { pool1 with waiting := [(5, 900, 0), (5, 6, 0)] }.waiting = [(5, 900, 0)] ++ (5, 6, 0) :: []
    ∧ poolFree (poolState pool1) 0 < 1000 ∧ pool1.tail.length + 1 < 448
    ∧ 448 ≤ { pool1 with tail := List.replicate 447 5 }.tail.length + 1 := by
  decide +kernel
/-- R339: the oldest cell of the head cache, of the ring where the head cache is empty, and of the tail cache where both are. -/
theorem wit_nextFree : ((refill 0 (noteTail 0 (poolState pool1))).pools[0]?).bind nextFree = some 1
    ∧ ((refill 0 (poolState { pool1 with head := [], ringHead := 0 })).pools[0]?).bind nextFree = some 1
    ∧ nextFree { pool1 with head := [], tail := [9, 4] } = some 9 := by decide +kernel
theorem wit_releaseLast : (match exec (.release 7) (cellState 1 0) with | .next t => cellCount t 7 == 0 | _ => false) = true
    ∧ cellAccount (setCount 7 0 (noteCell 7 (cellState 1 0))) 7 = 5 ∧ cellCount (noteCell 7 (cellState 0 0)) 7 = 0 := by
  decide +kernel
theorem wit_releaseChain : (match exec (.release 7) (cellState 1 9) with
    | .next t => decide (cellCount t 7 = 0 ∧ 1 < cellCount t 9) && cellOk t 9
    | _ => false) = true := by decide +kernel
theorem wit_cells : cellOk (cellState 1 9) 7 = true ∧ memWf (cellState 1 9).mem.bytes = true ∧ memWf (cellState 0 0).mem.bytes = true ∧ cellCount (cellState 1 9) 7 = 1 ∧ cellNext (cellState 1 9) 7 = 9
    ∧ cellCount (cellState 255 0) 7 = 255 ∧ 1 < cellCount (cellState 1 9) 9 ∧ cellAccount (setCount 7 0 (cellState 1 9)) 7 = 5
    ∧ cellPool 7 = 0 ∧ cellCount (cellState 0 0) 7 = 0 ∧ cellCount (cellState 1 0) 7 = 1 ∧ cellNext (cellState 1 0) 7 = 0 := by
  decide +kernel
def censusState (l : List (Nat × Nat × Nat)) : State := poolState { pool1 with fresh := 3, findings := l }
theorem wit_census : (censusState []).censusOn = true ∧ (censusState []).censusRepair = false ∧ (getSource 39 0 running).captured = none
    ∧ censusFindings (setCount 2 1 (censusState [(2, 1, 0)])) 0 { pool1 with fresh := 3, findings := [(2, 1, 0)] } = [(2, 1, 0)] := by
  decide +kernel

-- GuardedWritesNeedTheKey
theorem wit_bars : BarServes onHost := ⟨by decide, by decide, by decide, by decide⟩
def withKeys (p d : Option Nat) (steady : Nat) : State :=
  { onHost with gate := { onHost.gate with pwrKey := p, diaKey := d }, band := { onHost.band with steady := steady } }
theorem wit_keys : BarServes (withKeys (some 100) none 356) ∧ unlocked (withKeys (some 100) none 356) false = true
    ∧ unlocked (withKeys (some 100) none 357) false = false ∧ unlocked (withKeys (some 100) none 356) true = false
    ∧ unlocked (withKeys none (some 100) 356) true = true ∧ 100 + 256 < steadyNs (withKeys none (some 100) 357)
    ∧ steadyNs (withKeys none (some 100) 356) ≤ 100 + 256 :=
  ⟨⟨by decide, by decide, by decide, by decide⟩, by decide, by decide, by decide, by decide, by decide, by decide⟩

-- HostAccessesReachTheRegisters
def regState (off : Nat) (v : BitVec 32) (s : State) : State := setReg off v s
def diagState (page : Nat) (j : Option ResetJob) : State :=
  { regState 0x600000 1 (regState 0x600004 (BitVec.ofNat 32 page) onHost) with fenced := j }
theorem wit_bar : onHost.gate.linkUp = true ∧ memSpace running = false ∧ covered 0x700000 = false ∧ covered 0x2000000 = false
    ∧ covered 0x6FFFFC = true ∧ backed (regState 0x28 0x4000000 onHost) (apBase (regState 0x28 0x4000000 onHost) + 16) = true
    ∧ storeFenced (regState 0x28 0x4000000 onHost) (apBase (regState 0x28 0x4000000 onHost) + 16) = false
    ∧ backed (regState 0x2C 0xFFFF onHost) (apBase (regState 0x2C 0xFFFF onHost)) = false := by decide +kernel
theorem wit_tail : (onHost.err.head + 2 ^ 32 - 0) % 2 ^ 32 ≤ 1024 ∧ 1024 < (onHost.err.head + 2 ^ 32 - 1) % 2 ^ 32
    ∧ (onHost.err.head + 2 ^ 32 - (2 ^ 32 - 1024)) % 2 ^ 32 ≤ 1024 := by decide +kernel
theorem wit_islrst : (reg (withKeys (some 100) none 356) 0x400010).getLsbD 8 = false
    ∧ (reg (regState 0x400010 0x105 (withKeys (some 100) none 356)) 0x400010).getLsbD 8 = true := by decide +kernel
theorem wit_diag : (reg (diagState 5 none) 0x600000).getLsbD 0 = true ∧ diaPage (diagState 5 none) = 5 ∧ diaPage (diagState 61 none) = 0
    ∧ islandFenced (diagState 5 none) 5 = false
    ∧ islandFenced (diagState 5 (some { island := 5, cause := 0, since := 0, cmd := none })) 5 = true := by decide +kernel
theorem wit_diagPages : resetFenced (diagState 39 none) 39 = false ∧ islandGuarded 39 0 = true ∧ islandGuarded 39 0x40 = false
    ∧ islandWord (diagState 5 none) 5 0 = none ∧ islandWord (diagState 39 none) 39 0x8000 = some 0
    ∧ unlocked (withKeys none (some 100) 356) true = true ∧ islandGuarded 39 0x7FFC = false
    ∧ resetFenced (diagState 5 (some { island := 5, cause := 0, since := 0, cmd := none })) 5 = true := by decide +kernel
/-- R153, R382: the sequence table lies in DRAM behind the aperture. -/
def tableState : State :=
  { regState 0x2C 0x10 onHost with aviary := { onHost.aviary with seqTable := 0x1000000000 } }
theorem wit_table : apBase tableState = 0x1000000000 ∧ backed tableState 0x1000000000 = true ∧ apertureCovers tableState 0x1000000000 = false
    ∧ apertureCovers tableState 0x1000100000 = true ∧ tabGet 0x1000100000 tableState.mem.unsettled = none := by decide +kernel

-- DoorbellsMoveTheRings
def ringState (ready : Bool) (size en : BitVec 32) : State :=
  let s := regState regSize size (regState regEn en (regState regDblStat (if ready then 0x100 else 0) onHost))
  { s with mbx := { s.mbx with sq := upd s.mbx.sq 2 (fun r => { r with head := 65530, tail := 2, running := true }), cqRunning := true, cqTail := 9, cqHead := 5 } }
def dring : RingSub :=
  { types := 1, vector := 5, streams := 1, pins := 0, base := 0x9000, size := 4, statAddr := 0xA000, tail := 9, headCount := 5, dropped := 0 }
theorem wit_doorbells : BarServes (ringState true 0x44444 0x14) ∧ sqSizeField (ringState true 0x44444 0x14) 2 = 4
    ∧ (ringState true 0x44444 0x14).mbx.sq[2]? = some { head := 65530, tail := 2, running := true, bells := [] }
    ∧ (10 + 65536 - 65530) % 65536 ≤ 2 ^ 4 ∧ (2 + 65536 - 65530) % 65536 ≤ (10 + 65536 - 65530) % 65536
    ∧ ¬ (11 + 65536 - 65530) % 65536 ≤ 2 ^ 4 ∧ (ringState true 0x44444 0x14).power.breath = false
    ∧ (9 + 65536 - 9) % 65536 ≤ (9 + 65536 - 5) % 65536 ∧ (9 + 65536 - 5) % 65536 < (9 + 65536 - 10) % 65536 :=
  ⟨⟨by decide, by decide, by decide, by decide⟩, by decide +kernel, by decide +kernel, by decide, by decide, by decide, by decide, by decide, by decide⟩
theorem wit_enables : sqEnabled (ringState true 0x44444 0x14) 2 = true ∧ sqEnabled (ringState true 0x44444 0x14) 0 = false
    ∧ cqEnabled (ringState true 0x44444 0x14) = true ∧ cqEnabled (ringState true 0x44444 4) = false
    ∧ (reg (ringState true 0x44444 4) regDblStat).getLsbD 8 = true ∧ sizeOk (sqSizeField (ringState true 0x44444 4) 0) = true
    ∧ sizeOk (sqSizeField (ringState true 0x44443 4) 0) = false ∧ sizeOk (sqSizeField (ringState true 0x4444C 4) 0) = true
    ∧ sizeOk (sqSizeField (ringState true 0x4444D 4) 0) = false
    ∧ (reg (ringState false 0x44444 4) regDblStat).getLsbD 8 = false ∧ sizeOk (cqSizeField (ringState true 0x44444 4)) = true := by
  decide +kernel

-- ConfigurationAndInterruptsFollowTheHost
def msixState (on pba : Bool) (cq : BitVec 32) : State :=
  let s := regState 0x10 cq onHost
  { s with gate := { s.gate with msix := s.gate.msix.set 0 (0x1234, 7, false), msixOn := on, pba := if pba then 1 else 0, inta := !on } }
theorem wit_config : onHost.gate.linkUp = true ∧ onHost.gate.configReady = true ∧ running.gate.linkUp = false
    ∧ (msixState false false 1).gate.msix.length = 64 ∧ canSend (msixState false false 1) = true ∧ Cause.cq ∈ onCauses (msixState false false 1)
    ∧ causeVector (msixState false false 1) .cq = 0 ∧ (msixState true true 1).gate.pba.getLsbD 0 = true
    ∧ (msixState true true 1).gate.msix[0]? = some (0x1234, 7, false) ∧ (msixState true true 1).gate.funcMask = false := by decide +kernel
theorem wit_configTable : TabRising onHost.gate.cfg ∧ BarServes (msixState true true 1) :=
  ⟨by unfold TabRising; decide +kernel, by decide +kernel, by decide +kernel, by decide +kernel, by decide +kernel⟩
theorem wit_configFree : islandFenced onHost 2 = false ∧ onHost.err.base % 8 = 0
    ∧ apertureCovers (regState 0x28 0x4000000 onHost) (apBase (regState 0x28 0x4000000 onHost) + 16) = true ∧ covered 0x700000 = false := by
  decide +kernel
theorem wit_aperture : backed (regState 0x28 0x4000000 onHost) (apBase (regState 0x28 0x4000000 onHost) + 16 + 7) = true
    ∧ storeFenced (regState 0x28 0x4000000 onHost) (apBase (regState 0x28 0x4000000 onHost) + 16) = false
    ∧ onHost.err.base + 0x8000 ≤ 0x4000010 ∧ memWf onHost.mem.bytes = true ∧ (getSource 2 0 onHost).captured = none := by decide +kernel

-- PackagesAreLoadedAndSwapped
/-- An image of one HALT, its CRC-32C as R89 has it, and 4,096 tokens at 0. -/
def image1 : List Byte :=
  fill 0x98 [(0, 4, 0x06405C0E), (4, 2, 1), (6, 1, 0), (7, 1, 1), (8, 4, 8344), (0xC, 4, 3989875877), (0x10, 8, 5), (0x18, 8, 1)
    , (0x22, 2, 64), (0x30, 4, 0x80), (0x34, 4, 0x10), (0x58, 4, 0x90), (0x5C, 4, 1), (0x60, 4, 0x98), (0x64, 4, 4096), (0x80, 8, 1)
    , (0x88, 8, 7 * 2 ^ 58)] ++ padTo 8192 []
/-- A dictionary of the 256 single bytes. -/
def dictionary1 : List Byte :=
  padTo 8 [] ++ ((List.range 256).map fun b => leBytes 8 (b + 2 ^ 8 + (if b = 255 then 2 ^ 9 else 0) + b * 2 ^ 16)).flatten
def package1 : Package :=
  { pkgOf image1 with geometry := [], bankMap := List.replicate 32 .lc, dictionary := dictionary1 }
def halt1 : List Machine.Word := [(0, [(0, BitVec.ofNat 64 (7 * 2 ^ 58))])]
theorem wit_imageCrc : crcOk image1 = true := by
  have h : (BitVec.ofNat 32 (imgCrc image1) == ~~~ crcAt ((image1.take (imgLength image1)).drop 0x10) 0xFFFFFFFF#32) = true := by
    decide +kernel
  rw [crcAt_eq] at h
  exact h
theorem wit_imageWords : imgWords image1 = some halt1 := by decide +kernel
theorem wit_imageForm : layoutOk image1 = true ∧ imgChip image1 = 0 ∧ imgChips image1 = 1 ∧ streamOk image1 halt1 = true
    ∧ formsOk image1 halt1 = true ∧ rangesOk running 1 image1 halt1 = true ∧ runAheadOk image1 halt1 = true
    ∧ unitsOk running image1 halt1 = true := by decide +kernel
theorem wit_packageForm : layersOk package1.layers image1 halt1 = true ∧ kvOk package1 = true ∧ dictOk package1.dictionary = true
    ∧ geometryOk package1 image1 halt1 = true ∧ periodsOk package1 image1 = true ∧ banksOk package1 image1 = true := by decide +kernel
def loadCmd : HostCmd := cmdOf 0x10 []
def loading (p : Option Package) (j : Option LoadJob) : State := { hosting loadCmd onHost with pkg := p, load := j }
theorem wit_load : Accepts (.packageLoad 0 7 package1) loadCmd (loading none none) := accepts_of (by decide +kernel)
theorem wit_loadFree : updateRuns (startCmd loadCmd (loading none none)) = false ∧ (loading none none).trellis.chips ≤ 1
    ∧ scoreHalted running = true ∧ flightOver running = true
    ∧ quinbuarRuns running = true ∧ islandFenced running 1 = false := by decide +kernel
theorem wit_ownImage : ownImage (loading none none) package1 = image1 := by
  have c : (loading none none).trellis.chip = 0 ∧ (loading none none).trellis.chips = 1 := by decide
  have i : package1.images = [image1] := rfl
  simp [ownImage, i, c, wit_imageForm]
def job2 : LoadJob := { q := 0, cid := 7, pkg := pkgOf [], image := [], step := 2, since := 0, epoch := none }
theorem wit_loadStatus : packageStatus (loading none none) package1 = 0 := by
  have c : (loading none none).trellis.chip = 0 ∧ (loading none none).trellis.chips = 1 := by decide
  have r : rangesOk (loading none none) 1 image1 halt1 = true ∧ unitsOk (loading none none) image1 halt1 = true := by decide +kernel
  have i : imageStatus (loading none none) 1 image1 = 0 := by
    simp [imageStatus, wit_imageForm, wit_imageCrc, wit_imageWords, c, r]
  have k : package1.kvLayers = 1 := rfl
  simp [packageStatus, wit_ownImage, k, i, wit_imageWords, wit_packageForm]

-- FirmwareUpdatesInTurn
def fwCmd (sub last off : Nat) : HostCmd := cmdOf 0x70 ([BitVec.ofNat 8 sub, BitVec.ofNat 8 last] ++ padTo 6 [] ++ leBytes 8 off)
def fwState (c : HostCmd) (f : Update → Update) : State :=
  let s := hosting c onHost
  { s with power := { s.power with update := f s.power.update } }
theorem wit_firmware : Accepts (.stage 0 7) (fwCmd 1 1 0) (fwState (fwCmd 1 1 0) id)
    ∧ Accepts (.switch 0 7) (fwCmd 2 0 0) (fwState (fwCmd 2 0 0) fun u => { u with verified := true })
    ∧ Accepts (.commit 0 7) (fwCmd 3 0 0) (fwState (fwCmd 3 0 0) fun u => { u with trial := true })
    ∧ Accepts (.ledgerClear 0 7) (fwCmd 4 0 0) (fwState (fwCmd 4 0 0) id)
    ∧ Accepts (.ledgerSizes 0 7) (fwCmd 5 0 0) (fwState (fwCmd 5 0 0) id) :=
  ⟨accepts_of (by decide +kernel), accepts_of (by decide +kernel), accepts_of (by decide +kernel), accepts_of (by decide +kernel),
    accepts_of (by decide +kernel)⟩
def sizeBlock : List Byte := fill 0x150 [(0x100, 4, 64), (0x104, 4, 256)]
def sizeState : State :=
  let s := fwState (fwCmd 5 0 0) id
  { s with mem := { s.mem with host := memWrite 0x1000 sizeBlock s.mem.host } }
theorem wit_stage : updateBusy (fwState (fwCmd 1 1 0) id) (fwCmd 1 1 0) = false ∧ arg (fwCmd 1 1 0) 8 8 = 0
    ∧ arg (fwCmd 1 1 0) 8 8 + (fwCmd 1 1 0).plen ≤ 0x1000000 ∧ arg (fwCmd 1 0 64) 8 8 = 64
    ∧ (fwState (fwCmd 1 1 0) id).power.update.staged = 0
    ∧ (∀ x ∈ (fwState (fwCmd 2 0 0) id).mbx.cmds, x = fwCmd 2 0 0) ∧ (cmdOf 0x40 []).opc = 0x40
    ∧ (cmdOf 0x50 []).opc ≠ 0x40 ∧ (cmdOf 0x50 []).opc ≠ 0x70
    ∧ sizesOk (sizesOf (paramBlock (startCmd (fwCmd 5 0 0) sizeState) (fwCmd 5 0 0))) = true
    ∧ sizesOk (sizesOf (paramBlock (startCmd (fwCmd 5 0 0) (fwState (fwCmd 5 0 0) id)) (fwCmd 5 0 0))) = false := by decide +kernel
def switched (k : Nat) (at_ : Nat) : State :=
  let c : HostCmd := { fwCmd 2 0 0 with started := true }
  let s := fwState c fun u => { u with switching := some (k, 0, 7, 1), startedAt := 0 }
  { s with band := { s.band with steady := at_ }, score := { s.score with haltReq := true, resumeAt := 16 } }
theorem wit_switch : scoreHalted (switched 2 0) = true ∧ flightOver (switched 2 0) = true ∧ switchReady (switched 2 0) = true
    ∧ quinbuarRuns (switched 2 0) = true ∧ islandFenced (switched 2 0) 1 = false ∧ (switched 3 0).load = none
    ∧ steadyNs (switched 4 149999999) < 150000000 ∧ 150000000 ≤ steadyNs (switched 4 150000000)
    ∧ (switchCmd (resumeService (breakLocks 1 (switched 4 150000000))) 0 7).isSome = true
    ∧ (switched 4 0).power.update.waitingReset = [] := by decide +kernel

-- LinksCarryFlitsInOrder
def kept0 : KeptFlit := { seq := 0, vc := 1, first := true, last := true, payload := [1, 2], check := (crc32c [1, 2]).toNat }
def link0 : Link := { Link.reset with state := .up, peer := some 1, kept := [kept0], nextSeq := 1, partialMsg := [[], [], []] }
def withLink (k : Nat) (l : Link) (s : State) : State :=
  { s with trellis := { s.trellis with links := s.trellis.links.set k l, chips := 2, members := [0, 1] } }
def linked (l : Link) : State := withLink 0 l running
/-- A NULL flit that acknowledges flit 0. -/
def nullFlit : List Byte := padTo 252 [] ++ leBytes 4 1743147809
def dataHead : FlitHead := { bareHead with type := 1, vc := 1, first := true }
def dataFlit : List Byte :=
  fill 252 [(0, 2, 2 ^ 13), (7, 1, 5), (8, 1, 3), (12, 1, 5), (13, 1, 6), (14, 1, 7)] ++ leBytes 4 3812130773
theorem wit_linkUp : linkUp (linked link0) 0 = true ∧ (linked link0).trellis.links[0]? = some link0 ∧ (linked link0).power.running = true := by
  decide +kernel
theorem wit_nullFlit : nullFlit.length = 256 ∧ flitOk nullFlit = true ∧ flitFormOk nullFlit = true ∧ (flitHead nullFlit).type = 0
    ∧ (flitHead nullFlit).nak = false :=
  ⟨by decide +kernel, flitOk_of (by decide +kernel), by decide +kernel, by decide +kernel, by decide +kernel⟩
theorem wit_dataFlit : dataFlit.length = 256 ∧ flitOk dataFlit = true ∧ flitFormOk dataFlit = true ∧ (flitHead dataFlit).type = 1
    ∧ (flitHead dataFlit).seq = 0 ∧ (flitHead dataFlit).nak = false ∧ flitData dataFlit = [5, 6, 7] :=
  ⟨by decide +kernel, flitOk_of (by decide +kernel), by decide +kernel, by decide +kernel, by decide +kernel, by decide +kernel
    , by decide +kernel⟩
theorem wit_badFlit : flitOk (1 :: nullFlit.drop 1) = false ∧ (1 :: nullFlit.drop 1).length = 256 := by
  refine ⟨?_, by decide +kernel⟩
  have h : (BitVec.ofNat 32 (field (1 :: nullFlit.drop 1) 0xFC 4) == ~~~ crcAt ((1 :: nullFlit.drop 1).take 0xFC) 0xFFFFFFFF#32) = false := by
    decide +kernel
  rw [crcAt_eq] at h
  exact h
theorem wit_timeRequest : messageGood (messageHead 1 0 0 ++ leBytes 8 5) = true ∧ messageGood [1, 2] = false := by decide +kernel
def bulkFlit : OutFlit := { vc := 2, first := true, last := true, payload := [9] }
theorem wit_pick : sendable { link0 with queue := [bulkFlit] } 2 = some bulkFlit ∧ sendable link0 0 = none ∧ sendable link0 1 = none := by
  decide +kernel

-- MembersKeepTimeAndGalleries
def follower (l : Link) (s : State) : State := let t := withLink 0 l s; { t with trellis := { t.trellis with chip := 1 } }
def later (ns : Nat) (s : State) : State := { s with band := { s.band with steady := ns } }
theorem wit_follower : timeMaster (later 1000000 (follower { link0 with peer := some 0 } running)) ≠ 1
    ∧ linkTo (later 1000000 (follower { link0 with peer := some 0 } running)) 0 = some 0
    ∧ linkServes (later 1000000 (follower { link0 with peer := some 0 } running)) 0 = true
    ∧ peers (linked link0) = [1] ∧ linkTo (linked link0) 1 = some 0 := by decide +kernel
def galleried : Stream := { stream0 with links := [(1, 3)] }
theorem wit_linkedStream : (withStream 0 galleried (linked link0)).streams[0]? = some (some galleried) ∧ (1, 3) ∈ galleried.links
    ∧ galleried.gallery.length < 1024 := by decide +kernel
def relayer : State :=
  let s := linked link0
  { s with trellis := { s.trellis with links := s.trellis.links.set 1 { link0 with peer := some 2 }, chips := 3, members := [0, 1, 2] } }
theorem wit_relayer : 1 ∈ peers relayer ∧ linkTo relayer 2 = some 1 ∧ linkServes relayer 1 = true ∧ linkTo relayer 1 = some 0 := by
  decide +kernel
def sent0 : SentMsg := { dst := 1, hop := 1, channel := 1, bytes := messageHead 0x14 1 3 ++ leBytes 16 0, since := 0 }
def job1 : LoadJob := { q := 0, cid := 7, pkg := pkgOf [], image := [], step := 1, since := 0, epoch := none }
def joined (j : Option LoadJob) : State := { withPkg (linked link0) with load := j }
theorem wit_joined : (joined (some job1)).load = some job1 ∧ job1.step = 1 ∧ (joined (some job1)).trellis.members = [0, 1]
    ∧ (joined (some job1)).pkg.isSome = true := by decide +kernel

-- PowerFallsAndReturns
theorem wit_power : running.power.running = true ∧ running.power.breath = false ∧ running.power.maingood = true
    ∧ running.power.timeref = true ∧ running.power.aonAlive = true ∧ running.power.hotAt = none ∧ islandFenced running 1 = false
    ∧ running.power.vdd = 800 ∧ unitIdle running 5 = true ∧ islandFenced running 5 = false
    ∧ unitIdle (withStream 0 { stream0 with fountain := some 0 } running) 5 = false := by decide +kernel
def breathing : State := { running with power := { running.power with breath := true, running := false } }
theorem wit_breathing : breathing.power.breath = true ∧ State.reset.power.maingood = false ∧ State.reset.power.breath = false := by
  decide +kernel

-- BootAndResetsLeaveTheirState
def bootFacts0 : BootFacts :=
  { steps := [], failedIslands := [20], badColumns := [], badRow := [], failedPergola := [], quickCheck := [], train8533 := []
    train6400 := [], pathDelays := [], ethLatencies := [], trellisLatencies := [], pinDelays := [], quinbuarStarts := true, linkWidths := [], peers := [], meshOk := true, avsAck := true
    slotsValid := [true, false] }
def powered (t : Bool) : State :=
  { State.reset with power := { Power.reset with perstReleased := true, timeref := t } }
theorem wit_bootReady : (powered true).power.running = false ∧ (powered true).power.breath = false ∧ (powered true).power.recovery = false
    ∧ (powered true).power.thermal = false ∧ (powered true).power.waitingBoot = none ∧ (powered true).power.aonAlive = true
    ∧ (powered true).power.testEn = false ∧ slotGood (powered true) bootFacts0 0 = true ∧ pickLedger (powered true).power = none
    ∧ slotGood (powered true) { bootFacts0 with slotsValid := [false, false] } 0 = false
    ∧ slotGood (powered true) { bootFacts0 with slotsValid := [false, false] } 1 = false := by decide +kernel
def perstScope (v : BitVec 32) (s : State) : State :=
  { s with gate := { s.gate with regs := tabPut 0x400018 v s.gate.regs }, power := { s.power with perstReleased := true } }
theorem wit_scope : (reg (perstScope 1 onHost) 0x400018).getLsbD 0 = true ∧ (reg (perstScope 2 onHost) 0x400018).getLsbD 0 = false
    ∧ onHost.fenced = none ∧ onHost.gate.configReady = true := by decide +kernel

-- SmbusAndTestPortAnswer
def tapped (i : TapInstr) : State := { running with power := { running.power with tap := i } }
theorem wit_tap : (tapped .extest).power.tap = .extest ∧ running.power.tap ≠ .extest ∧ running.power.maingood = true
    ∧ running.power.aonAlive = true ∧ { running.power with alertReleased := some 0, pwrfail := true }.pwrfail = true := by decide +kernel
def driving : State :=
  { tapped .extest with pins := (tapped .extest).pins.set 3 { Pin.reset with mode := .output } }

-- CommandsAreTakenInTurn
theorem wit_queue : (State.reset.pending = []) ∧ ({ State.reset with pending := [.idcode, .extest] } : State).pending = [.idcode, .extest] :=
  ⟨by decide, by decide⟩

-- EveryStepKeepsTheInvariant
theorem wit_sound : (∃ t, step State.reset = .next t) ∧ (∃ t, exec .idcode State.reset = .next t) := ⟨⟨_, rfl⟩, ⟨_, rfl⟩⟩

-- CommandsTouchOnlyTheirParts
theorem wit_touches : Part.mem ∉ touches .smbReadTj ∧ Part.score ∉ touches (.lockAcquire 0 0) ∧ Part.power ∉ touches .timSnap := by
  decide +kernel

-- Clauses of several statements that meet at a state which the witnesses above do not build.
theorem wit_announce : (∀ f ∈ PtpPort.reset.foreign, f.1 ≠ header0.sender) ∧ PtpPort.reset.master = none
    ∧ ((header0.sender, 0) : List Byte × Nat) ∈ ({ PtpPort.reset with foreign := [(header0.sender, 0)] } : PtpPort).foreign
    ∧ steadyNs running ≤ 0 + 8000000000 ∧ slice ([] : List Byte) 14 2 ≠ [0x00, 0xFF] := by decide +kernel
theorem wit_countedCue : { dueCue.cue with lateLimit := 0, ctx := some (3, 6), counted := true }.counted = true
    ∧ { dueCue.cue with ctx := some (3, 6) }.counted = false ∧ dueCue.cue.lateLimit = 0 := by decide
theorem wit_finishBuf :
    (hosting (cmdOf 0x69 []) onHost).mbx.cmds.find? (fun c => c.q == 0 && c.cid == 7) = some (cmdOf 0x69 []) := by decide
theorem wit_completes : outsideWords 1 (ringsOn.mem.ue ++ ringsOn.mem.sbe) = [] ∧ sizeOk (cqSizeField ringsOn) = true
    ∧ ringsOn.fenced = none ∧ ({ cmdOf 0 [] with done := some (0, 0, false) }).done = some (0, 0, false) := by decide
def subCmd : HostCmd := { cmdOf 0x30 [] with plen := 0x38 }
def subState : State := hosting subCmd subHost
def takenBlock (op : Nat) (b : List Byte) : HostCmd := { cmdOf op [0, 5] with block := b }
theorem wit_applySub : (takenBlock 0x31 []).opc = 0x31 ∧ arg (takenBlock 0x31 []) 0 1 = 0 ∧ arg (cmdOf 0x31 [1, 63]) 0 1 = 1
    ∧ (takenBlock 0x30 subBlock).opc = 0x30 ∧ (takenBlock 0x30 subBlock).block = subBlock ∧ onHost.mbx.rings.getD 5 none = none
    ∧ withRing.mbx.rings.getD 5 none = some ringFive ∧ ringFive.base = field subBlock 0x20 8 ∧ ringFive.size = field subBlock 0x28 1
    ∧ field udpBlock 0 1 = 1 ∧ onHost.mbx.udp.getD 63 none = none ∧ (cmdOf 0x50 []).opc ≠ 0x30 ∧ (cmdOf 0x50 []).opc ≠ 0x31 := by
  decide +kernel
/-- A parameter block is the same before and after its command starts. -/
theorem wit_blocks_read : ∀ x ∈ [(openState hostBlock, openCmd0), (openState rtspBlock, openCmd0), (linksState 0x0600, linksCmd)
      , (submitState 256, submitCmd), (promptState [0x63, 0x63], promptCmd), (clipState 0, clipCmd), (clipState 2, clipCmd)
      , (subState, subCmd), (sizeState, fwCmd 5 0 0)],
    paramBlock (startCmd x.2 x.1) x.2 = paramBlock x.1 x.2 := by decide +kernel
theorem wit_subscribeTaken : subStatus (startCmd subCmd subState) (paramBlock (startCmd subCmd subState) subCmd) = 0
    ∧ paramBlock subState subCmd = subBlock := by decide +kernel
theorem wit_clipWindow : (codingState codingClip).gate.d3hot = false ∧ (∃ x ∈ codingClip.sources, x.stamp < codingClip.t1)
    ∧ (∃ x ∈ codingClip.sources.drop 1, x.stamp < codingClip.t1) := by decide +kernel
theorem wit_controlSafe : unitSafe (dueState 0 1 77) 39 24 = false ∧ unitSafe (dueState 0 2 65535) 39 24 = false
    ∧ unitSafe (tornState 55 (opWord 0x3F 5 0)) 39 24 = false ∧ unitSafe (tornState 54 (opWord 0x38 5 0)) 39 24 = false
    ∧ unitSafe (inBatch (some batch6) [] (dueOn 0 bellOp running)) 39 24 = false
    ∧ unitSafe (inBatch none [batch6] (dueOn 55 digestOp running)) 39 24 = false
    ∧ (cycleOf (dueState 0 2 65535) 9).sum + 65535 > 65535 ∧ (cycleOf (dueState 0 2 77) 9).sum + 77 ≤ 65535 := by decide +kernel
/-- A BELL of batch id 0 that has been issued for a time that has come. -/
def bellIssued : State := dueOn 0 (dueOp (opWord 4 0 0)) (scoring id)
theorem wit_bellIssued : bellsIssued (scoring id) 0 = [] ∧ bellsIssued { bellIssued with band := { running.band with count := 200 * 2 ^ 32 } } 0 ≠ []
    ∧ bellPending { bellIssued with band := { running.band with count := 200 * 2 ^ 32 } } 0 = false ∧ bellPending bellIssued 0 = true
    ∧ argHigh (opWord 4 0 0) = 0 := by decide +kernel
theorem wit_beat : atBeat (readyState true).band = true
    ∧ atBeat ({ (readyState true) with band := { running.band with count := 5 * 2 ^ 32 } } : State).band = false := by decide +kernel
theorem wit_coldFill : (page0 .cold true 2).tier = .cold ∧ (page0 .cold true 2).backCold = true ∧ (page0 .cold true 2).count ≠ 0
    ∧ canAsk (pageState (page0 .cold true 2) [4] [] running) = false ∧ (takeTransfer (pageState (page0 .cold true 2) [4] [] running)).isSome = true
    ∧ kvGran (pageState (page0 .cold true 2) [4] [] running) ≤ hotFree (pageState (page0 .cold true 2) [4] [] running)
    ∧ (page0 .warm false 2).backCold = false := by decide +kernel
def opensNow (x : Stream) : Stream := { x with rtsp := { x.rtsp with openCmd := some (0, 7) } }
theorem wit_sessionOpens : refusesOpen (rtspState .play 0) 5 (rtspStream .play 0) = false
    ∧ refusesOpen (rtspState .play 0) 5 (opensNow (rtspStream .play 0)) = true ∧ (rtspStream .play 0).rtsp.version = 2
    ∧ oldServer (rtspStream .play 0) { okResponse with code := 505 } = true ∧ oldServer (rtspStream .play 0) okResponse = false
    ∧ oldServer (rtspStream .options 0) { okResponse with unauthorised := true } = false := by decide +kernel

/-- A shed picture that enters output behind a waiting one, and one that does not, in a stream that has not joined. -/
def shedFacts : PictureFacts :=
  { facts0 with isReference := false, irap := false, idrOrBla := false, poc := 4, sets := [.sps 0 0 true { sps0 with reorder := 2, dpb := 3 }] }
def waitingPicture : RefPicture := currentPicture block0 parsed facts0 (judge block0 parsed false facts0 false) [] 3 20 1
def shedDec (joined : Bool) : Decoder := { parsed with joined := joined, pictures := if joined then [waitingPicture] else [] }
def shedState (joined : Bool) : State := withStream 5 { codecStream 7 with dec := shedDec joined } running
theorem wit_shedPicture : [true, false].all (fun b =>
    match stream? (parseStream 5 shedFacts (landingFrame 7) (parseChain 5 (landingFrame 7).head (shedState b))) 5 with
    | some y =>
      let h := headersOnly shedFacts
      let j := judge y.cfg y.dec false h false
      let out := entersOutput y.dec h
      let o := outputStep y.dec h j out { currentPicture y.cfg y.dec h j [] 4 30 0 with bare := true }
      o.released.isEmpty && o.removed.isEmpty && out == b
    | none => false) = true := by decide +kernel
/-- A record under its trailer, and one whose trailer fails. -/
theorem trailerBad_of {bs : List Byte} (h : (bs.take (bs.length - 4) ++ leBytes 4 (~~~ crcAt (bs.take (bs.length - 4)) 0xFFFFFFFF#32).toNat == bs) = false) :
    trailerOk bs = false := by
  rw [crcAt_eq] at h
  exact h
theorem wit_trailer (body : List Byte) : trailerOk (sealRecord body) = true := by
  have h : (leBytes 4 (crc32c body).toNat).length = 4 := rfl
  simp [trailerOk, sealRecord, h]
theorem wit_trailerBad : trailerOk [1, 2, 3, 4, 5] = false := trailerBad_of (by decide +kernel)
theorem wit_recordSends : (withStream 5 emitStream running).mbx.heldNotices = [] ∧ islandFenced (withStream 5 emitStream running) 2 = false := by
  decide +kernel
theorem wit_micro : (running.mem.micro[0]?).isSome = true := by decide +kernel
def stopped : State := { onHost with power := { onHost.power with running := false } }
theorem wit_doorbellStops : (ringState true 0x44444 0x14).power.running = true
    ∧ onHost.mbx.rings[5]? = some none ∧ onHost.power.running = true ∧ stopped.power.running = false := by decide +kernel
theorem wit_stoppedServes : BarServes stopped := ⟨by decide, by decide, by decide, by decide⟩
theorem wit_configWaits : ({ onHost with power := { onHost.power with waitingBoot := some bootFacts0 } } : State).power.waitingBoot.isSome = true
    ∧ onHost.power.waitingBoot = none ∧ (∃ c ∈ onCauses (msixState true true 1), causeVector (msixState true true 1) c = 0)
    ∧ (∀ c ∈ onCauses (msixState true true 0), causeVector (msixState true true 0) c ≠ 0) := by decide +kernel
theorem wit_switchWaits : resetCarried (hosting (cmdOf 0x71 [14]) onHost) (cmdOf 0x71 [14]) = false ∧ resetCarried onHost (cmdOf 0x50 []) = false
    ∧ (cmdOf 0x71 [14]).opc ≠ 0x40 := by decide +kernel
theorem wit_linkWidth : ledgerWidth (linked link0) 0 = 4 ∧ asleep (linked link0) 56 = false ∧ islandFenced (linked link0) 56 = false
    ∧ islandFenced ({ linked link0 with fenced := some (resetJob 56) } : State) 56 = true
    ∧ asleep ({ linked link0 with islands := upd running.islands 56 fun x => { x with gated := true } } : State) 56 = true := by decide +kernel
theorem wit_timeGiven : givesTime (linked link0) = true ∧ givesTime (follower { link0 with peer := some 0 } running) = false
    ∧ linkServes { later 1000000 (follower { link0 with peer := some 0 } running) with fenced := some (resetJob 56) } 0 = false
    ∧ ({ link0 with peer := some 0 } : Link).state ≠ .fenced ∧ timeFrozen (switched 4 0) = true ∧ timeFrozen (linked link0) = false := by
  decide +kernel
theorem wit_recoveryFalls : recovering.power.maingood = true ∧ recovering.power.breath = false
    ∧ ({ recovering with power := { recovering.power with maingood := false } } : State).power.maingood = false
    ∧ (let gone (b : Bool) (aon bound : Nat) : Prop := b = true ∧ (aon - 0) / (1000 * 2 ^ 16) < bound
       gone true (50 * 1000 * 2 ^ 16) 51 ∧ ¬ gone true (2200 * 1000 * 2 ^ 16) 2200 ∧ ¬ gone false 0 51) := by decide +kernel
def ledgerAt (gen : Nat) : Ledger := { Power.reset.ledger with gen := gen }
theorem wit_ledgerCopies : validLedger (some (copyOf (ledgerAt 3))) = some (ledgerAt 3) ∧ validLedger none = none
    ∧ validLedger (some { copyOf (ledgerAt 3) with magic := 0 }) = none := by
  have h : copyValid { copyOf (ledgerAt 3) with magic := 0 } = false := rfl
  exact ⟨by simp [validLedger, copyValid, copyOf], rfl, by simp only [validLedger, Option.filter, h]; rfl⟩
theorem wit_bootCut : ({ bootFacts0 with cutAt := some 5 } : BootFacts).cutAt = some 5 ∧ (powered true).power.cut = false ∧ bootFacts0.cutAt = none
    ∧ slotGood (powered true) { bootFacts0 with cutAt := some 5 } 0 = true ∧ (powered true).power.maingood = false
    ∧ Power.reset.perstReleased = false ∧ Power.reset.ledger.perstScope = false := by decide +kernel
theorem wit_aonAlert : running.power.maingood = true ∧ 0 + 1000000000 * 2 ^ 16 ≤ ({ running.band with aon := 1000000000 * 2 ^ 16 } : Band).aon
    ∧ running.band.aon < 0 + 1000000000 * 2 ^ 16 := by decide +kernel
theorem wit_scan : pinDrives outPin = true ∧ (tapped .extest).power.timerefPin = (tapped .extest).power.timeref
    ∧ (tapped .extest).power.perstPin = (tapped .extest).power.perstReleased := by decide +kernel

def illFormed0 : List Instr :=
  [.beaconMiss 61, .heldCueRelease (.lane 56), .heldCueRelease (.pin 16), .cueTakeEffect (.pin 16), .pulseEnd 16, .strobePeriod 16
    , .pinEdge 16 true 0, .reflexHoldoffEnd 16, .nop 56, .opComplete 56, .gateWatchdog 56, .tile 16, .claim 16, .claimFetch 16]
def illFormed1 : List Instr :=
  [.lut4 8, .eltwise 8, .pool 8, .boxdec 8, .nms 8, .softmax 8, .argmax 8, .copy 24, .fetchAhead 24, .pageFetch 24, .steer 4]
def illFormed2 : List Instr :=
  [.promptEncoded 64, .reorderWindowExpiry 128, .frameRelease 128, .rtspKeepalive 128, .reconnect 128, .multicastReport 128
    , .rtcpReport 128, .frameStartPacket 4 0 0 0, .frameStartPacket 0 4 0 0, .linePacket 4 0 0 [] true true 0
    , .linePacket 0 4 0 [] true true 0, .frameEndPacket 4 0 0, .frameEndPacket 0 4 0, .dphySyncLoss 4]
def illFormed3 : List Instr :=
  [.pictureDecodeComplete 4, .fountainWatchdog 4, .clipPictureEncode 32 0 false false [], .topiaryTake 4, .slotGrant 4
    , .slotWriteComplete 4, .recordForm ⟨128, false, false⟩, .recordEmit 128, .dramRequest 16 0, .dramRequest 0 3, .beRequestPromote 16
    , .refreshInterval 16, .refreshIssue 16, .scrub 0x6400000 0, .scrub 0x9000000 0]
def illFormed4 : List Instr :=
  [.alloc 8 0 1 false 0, .alloc 0 256 1 false 0, .alloc 0 0 0 false 0, .alloc 0 0 33 false 0, .reserveAllocResume 8, .censusPass 8
    , .lockAcquire 0 65536, .lockRelease 0 65536, .errorReport 65536 0 0 0 0 0 false false
    , .errorReport 0 61 0 0 0 0 false false, .errorReport 0 0 256 0 0 0 false false, .errorReport 0 0 0 256 0 0 false false]
def illFormed5 : List Instr :=
  [.coalesceFlush 61 0, .parityFault 61 0 0, .parityFault 0 256 0, .partialReset 0 0, .partialReset 61 0
    , .configRequest false 4096 0 0, .configRequest false 2 0 0, .vectorUnmask 64, .registerWrite 0x2000000 0 0, .registerWrite 2 0 0
    , .apertureAccess false 0x10000000 [0], .sqDoorbell 4 0, .sqDoorbell 0 65536, .cqDoorbell 65536, .drDoorbell 64 0
    , .drDoorbell 0 65536, .errTailWrite (2 ^ 32), .diagWindowAccess false 0x1000000 0, .diagWindowAccess false 2 0]
def illFormed6 : List Instr :=
  [.pcieError (.poisonedBar2 0x10000000 [0]), .pcieError (.poisonedCompletion (2 ^ 64) 1), .pcieError (.ecrcCompletion 0 4097)]
def illFormed7 : List Instr :=
  [.cmdNop 4 0, .cmdNop 0 65536, .identify 4 0, .identify 0 65536, .hello 4 0, .hello 0 65536, .streamClose 4 0, .streamClose 0 65536
    , .setDecodeMode 4 0, .setAnalyseConcealed 0 65536, .liftQuarantine 4 0, .setLinks 0 65536, .setAdaptationMode 4 0
    , .streamStats 0 65536, .frameSubmit 4 0, .subscribe 0 65536, .unsubscribe 4 0, .promptSet 0 65536, .promptBind 4 0]
def illFormed8 : List Instr :=
  [.contextSet 0 65536, .clipRequest 4 0, .clipCancel 0 65536, .adaptAdopt 4 0, .timeSet 0 65536, .hostPinLevel 4 0
    , .hostPinPulse 0 65536, .hostStrobeStart 4 0, .hostStrobeStop 0 65536, .setWayMasks 4 0, .setColdTier 0 65536 0 0, .setCensus 4 0
    , .journalRead 0 65536, .stage 4 0, .switch 0 65536, .commit 4 0, .ledgerClear 0 65536, .ledgerSizes 4 0, .islandReset 0 65536]
def illFormed9 : List Instr :=
  [.linkTrainingComplete 5 true 4, .linkSignalLoss 5, .linkSignalReturn 5, .flitReceive 5 (List.replicate 256 0) true 0
    , .flitReceive 0 [] true 0, .flitSlot 5, .ackTimer 5, .nakHoldoffExpiry 5, .replayTimeout 5, .timeReq 5, .timeResp 5
    , .epochAck 6 0 0 0, .epochAck 0 (2 ^ 64) 0 0, .epochAck 0 0 65536 0, .epochAck 0 0 0 65536]
def illFormed10 : List Instr :=
  [.epochPropose (2 ^ 64) 0 0, .epochPropose 0 (2 ^ 64) 0, .epochPropose 0 0 256, .commitMessage 6 []
    , .commitMessage 0 (List.replicate 2049 (0, 0, false, 0)), .peerState 6 0 false (List.replicate 5 (0, 0)), .peerState 0 0 false []
    , .peerLossTimeout 6, .relay 6 0 1 [], .relay 0 6 1 [], .relay 0 0 1 [], .relay 0 1 0 [], .relay 0 1 3 []
    , .relayRefuse 6 0 0 0, .relayRefuse 0 6 0 0, .relayRetry 6]
def illFormed11 : List Instr :=
  [.gallery 6 0 0 false 0 0 [0, 0, 0, 0] 0 0 [], .gallery 0 128 0 false 0 0 [0, 0, 0, 0] 0 0 []
    , .gallery 0 0 128 false 0 0 [0, 0, 0, 0] 0 0 [], .gallery 0 0 0 false 0 0 [] 0 0 [], .junctionHot 61 0, .junctionHot 0 128
    , .thermalTrip 61 0, .thermalTrip 0 128, .unitGate 2, .unitGate 13, .unitGate 61, .smbUnlistedCommand 4, .smbUnlistedCommand 256]

/-- Each of these names an object that the rules do not give the block: one for every range check of WellFormed.lean. -/
def illFormed : List Instr := ([illFormed0, illFormed1, illFormed2, illFormed3, illFormed4, illFormed5, illFormed6, illFormed7, illFormed8, illFormed9, illFormed10, illFormed11] : List (List Instr)).flatten

theorem test_wellFormed_refuses : illFormed.all (fun i => !i.wellFormed) = true := by decide +kernel

theorem test_wellFormed_refuses_cues (c : Cue) : Instr.wellFormed (.cueIssue { c with target := .lane 56 }) = false
    ∧ Instr.wellFormed (.cueIssue { c with target := .pin 16 }) = false := ⟨rfl, rfl⟩

theorem test_wellFormed_refuses_network (p : RtpPacket) (m : PtpMessage) (k : SlowKind) (r : RtspResponse) (l : LostCause) :
    Instr.wellFormed (.rtpPacket { p with port := 2 }) = false ∧ Instr.wellFormed (.ptpMessage 2 ⟨header0, m⟩) = false
    ∧ Instr.wellFormed (.slowPathPacket 2 k) = false ∧ Instr.wellFormed (.rtspResponse 128 r) = false
    ∧ Instr.wellFormed (.sourceLost 128 l) = false ∧ Instr.wellFormed (.interleavedRtpSegment 128 p) = false := ⟨rfl, rfl, rfl, rfl, rfl, rfl⟩

theorem test_wellFormed_refuses_facts (f : PictureFacts) (pkg : Package) (sec : SourceSection) (t : TimeParams) (p : PinParams)
    (r : ReflexParams) (n : NetParams) : Instr.wellFormed (.pictureDecodeStart 4 f) = false ∧ Instr.wellFormed (.packageLoad 4 0 pkg) = false
    ∧ Instr.wellFormed (.streamOpen 4 0 sec) = false ∧ Instr.wellFormed (.setCaptureSet 4 0 sec) = false
    ∧ Instr.wellFormed (.timeConfig 4 0 t) = false ∧ Instr.wellFormed (.pinConfig 4 0 p) = false
    ∧ Instr.wellFormed (.reflexConfig 4 0 r) = false ∧ Instr.wellFormed (.netConfig 4 0 n) = false := ⟨rfl, rfl, rfl, rfl, rfl, rfl, rfl, rfl⟩

/-- No row of the table gives bits. -/
theorem test_table_words_spell_nothing : decodeTableWord 32 0 = none := rfl

/-- The worked example behind R461: t1 to t4 and ASYM = 2 give 37 ns. -/
theorem test_trellis_worked_example : exchangeTheta 1000000000 999999988 1000002000 1000002064 2 = 37 * 2 ^ 16 := by decide

/-- R43: a pulse may not act on a DISABLED pin; R42: the pins are DISABLED after reset. -/
theorem test_pins_disabled : (State.reset.pins.all fun p => p.mode == .disabled) = true := by decide

/-- R347: acquire of a free lock, ACQUIRED with the owner id. -/
theorem test_lock_acquire : (match exec (.lockAcquire 64 1029) State.reset with
    | .next t => t.out == [.lockResult (BitVec.ofNat 32 (1029 * 65536))] && (t.locks.getD 64 { held := false, owner := 0, broken := false }).held
    | _ => false) = true := by decide +kernel

/-- R348: a release by any other id leaves the lock. -/
theorem test_lock_other_owner : (match exec (.lockRelease 64 (1030))
      { State.reset with locks := State.reset.locks.set 64 { held := true, owner := 1029, broken := false } } with
    | .next t => (t.locks.getD 64 { held := false, owner := 0, broken := false }).held
    | _ => false) = true := by decide +kernel

/-- R384: the key unlocks by its low half only. -/
theorem test_key : (match exec (.keylockWrite false 0xFFFFA5C3) onHost with | .next t => t.gate.pwrKey.isSome | _ => false) = true
    ∧ (match exec (.keylockWrite false 0xA5C3FFFF) onHost with | .next t => t.gate.pwrKey.isSome | _ => true) = false := by decide +kernel

/-- R517: the IDCODE of A1 is 0x1064074F; its bit 0 leaves first. -/
theorem test_idcode : (match exec .idcode State.reset with
    | .next t => t.out == [.tapShift ((List.range 32).map fun i => (0x1064074F : BitVec 32).getLsbD i)]
    | _ => false) = true := by decide +kernel

/-- R515: command 0x02 with PWRFAIL_N asserted and last breath running. -/
theorem test_smb_status : (match exec .smbReadStatus { running with power := { running.power with pwrfail := true, breath := true } } with
    | .next t => t.out == [.smbByte 0x22]
    | _ => false) = true := by decide +kernel

/-- R471: no step of more than 5 mV. -/
theorem test_avs_step : (match exec (.avsAdjust 790 true) { running with band := { running.band with steady := 100000000 } } with
    | .next t => t.power.vdd == 800
    | _ => false) = true := by decide +kernel

end Sys2Proof.Wit
end

section
/-! The frame of `exec` and the invariant: what a command touches, as the mask of a world, holds the law of its operation (Kept). -/

namespace Sys2Proof.Machine

/-- A part stands at its place in the list of all parts, so that no two parts share a bit. -/
theorem Part.allBut_nil_getElem_bit (q : Part) : (allBut [])[q.bit]? = some q := by
  cases q <;> rfl

theorem Part.bit_injective {q r : Part} (h : q.bit = r.bit) : q = r :=
  Option.some.inj (by rw [← q.allBut_nil_getElem_bit, ← r.allBut_nil_getElem_bit, h])

/-- The mask that allows the parts of a list. -/
def partMask (l : List Part) : Nat := l.foldr (fun q m => 2 ^ q.bit ||| m) 0

/-- The mask of a list has no bit of a part outside it. -/
theorem testBit_partMask {q : Part} : ∀ {l : List Part}, q ∉ l → (partMask l).testBit q.bit = false
  | [], _ => Nat.zero_testBit _
  | r :: l, h => by
    have hr : r.bit ≠ q.bit := fun e => h (Part.bit_injective e ▸ List.mem_cons_self ..)
    have ih : (partMask l).testBit q.bit = false := testBit_partMask fun k => h (List.mem_cons_of_mem _ k)
    simpa [partMask, Nat.testBit_or, Nat.testBit_two_pow_of_ne hr] using ih

/-- A world that allows what a command touches allows every operation whose mask lies within. -/
theorem Allows.touched {p : World} {c : Instr} {k : Nat} (h : Allows p (partMask (touches c)))
    (e : k ||| partMask (touches c) = partMask (touches c) := by simp only [touches]; decide) : Allows p k :=
  h.sub e

/-- Every command keeps `Kept` in a world that allows the parts which it touches: its operation's own law, held to `touches`. -/
theorem exec_kept {p : World} {s : State} (c : Instr) (h : Kept p s) (al : Allows p (partMask (touches c))) :
    KeptRes p (exec c s) :=
  match c with
  | .beacon _ => execBeacon_kept h al.touched
  | .beaconMiss _ => execBeaconMiss_kept h al.touched
  | .cueIssue _ => execCueIssue_kept h al.touched
  | .heldCueRelease _ => execHeldCueRelease_kept h al.touched
  | .cueTakeEffect _ => execCueTakeEffect_kept h al.touched
  | .pulseEnd _ => execPulseEnd_kept h al.touched
  | .strobePeriod _ => execStrobePeriod_kept h al.touched
  | .pinEdge _ _ _ => execPinEdge_kept h al.touched
  | .reflexHoldoffEnd _ => execReflexHoldoffEnd_kept h al.touched
  | .ptpMessage _ _ => execPtpMessage_kept h al.touched
  | .ppsInEdge _ => execPpsInEdge_kept h al.touched
  | .disciplineLoss => execDisciplineLoss_kept h al.touched
  | .stepApply => execStepApply_kept h al.touched
  | .oscPeriodMeasured _ => execOscPeriodMeasured_kept h al.touched
  | .oscChangeover => execOscChangeover_kept h al.touched
  | .timePllLock => execTimePllLock_kept h al.touched
  | .aonSupplySwitch _ _ => execAonSupplySwitch_kept h al.touched
  | .scoreStart => execScoreStart_kept h al.touched
  | .scoreWordIssue => execScoreWordIssue_kept h al.touched
  | .nop _ => execNop_kept h al.touched
  | .tokenSet => execTokenSet_kept h al.touched
  | .tokenAdd => execTokenAdd_kept h al.touched
  | .claimOpen => execClaimOpen_kept h al.touched
  | .bell => execBell_kept h al.touched
  | .branchFill => execBranchFill_kept h al.touched
  | .jump => execJump_kept h al.touched
  | .halt => execHalt_kept h al.touched
  | .scoreHalted => execScoreHalted_kept h al.touched
  | .tile _ => execTile_kept h al.touched
  | .claim _ => execClaim_kept h al.touched
  | .claimFetch _ => execClaimFetch_kept h al.touched
  | .lut4 _ => execLut4_kept h al.touched
  | .eltwise _ => execEltwise_kept h al.touched
  | .pool _ => execPool_kept h al.touched
  | .boxdec _ => execBoxdec_kept h al.touched
  | .nms _ => execNms_kept h al.touched
  | .softmax _ => execSoftmax_kept h al.touched
  | .argmax _ => execArgmax_kept h al.touched
  | .copy _ => execCopy_kept h al.touched
  | .fetchAhead _ => execFetchAhead_kept h al.touched
  | .pageFetch _ => execPageFetch_kept h al.touched
  | .steer _ => execSteer_kept h al.touched
  | .gather => execGather_kept h al.touched
  | .assoc => execAssoc_kept h al.touched
  | .update => execUpdate_kept h al.touched
  | .append => execAppend_kept h al.touched
  | .alist => execAlist_kept h al.touched
  | .pinLevel => execPinLevel_kept h al.touched
  | .pinPulse => execPinPulse_kept h al.touched
  | .strobeStart => execStrobeStart_kept h al.touched
  | .strobeStop => execStrobeStop_kept h al.touched
  | .reflexArm => execReflexArm_kept h al.touched
  | .digest => execDigest_kept h al.touched
  | .trace => execTrace_kept h al.touched
  | .opComplete _ => execOpComplete_kept h al.touched
  | .gateWatchdog _ => execGateWatchdog_kept h al.touched
  | .scoreRestart => execScoreRestart_kept h al.touched
  | .demandFill _ => execDemandFill_kept h al.touched
  | .pageFillComplete _ _ => execPageFillComplete_kept h al.touched
  | .pageSpill => execPageSpill_kept h al.touched
  | .pageSpillComplete _ _ => execPageSpillComplete_kept h al.touched
  | .promptEncoded _ => execPromptEncoded_kept h al.touched
  | .slowPathPacket _ _ => execSlowPathPacket_kept h al.touched
  | .rtpPacket _ => execRtpPacket_kept h al.touched
  | .reorderWindowExpiry _ => execReorderWindowExpiry_kept h al.touched
  | .frameRelease _ => execFrameRelease_kept h al.touched
  | .rtspResponse _ _ => execRtspResponse_kept h al.touched
  | .rtspKeepalive _ => execRtspKeepalive_kept h al.touched
  | .sourceLost _ _ => execSourceLost_kept h al.touched
  | .reconnect _ => execReconnect_kept h al.touched
  | .multicastReport _ => execMulticastReport_kept h al.touched
  | .rtcpReport _ => execRtcpReport_kept h al.touched
  | .frameStartPacket _ _ _ _ => execFrameStartPacket_kept h al.touched
  | .linePacket _ _ _ _ _ _ _ => execLinePacket_kept h al.touched
  | .frameEndPacket _ _ _ => execFrameEndPacket_kept h al.touched
  | .dphySyncLoss _ => execDphySyncLoss_kept h al.touched
  | .pictureDecodeStart _ _ => execPictureDecodeStart_kept h al.touched
  | .pictureDecodeComplete _ => execPictureDecodeComplete_kept h al.touched
  | .fountainWatchdog _ => execFountainWatchdog_kept h al.touched
  | .clipPictureEncode _ _ _ _ _ => execClipPictureEncode_kept h al.touched
  | .topiaryTake _ => execTopiaryTake_kept h al.touched
  | .slotGrant _ => execSlotGrant_kept h al.touched
  | .slotWriteComplete _ => execSlotWriteComplete_kept h al.touched
  | .trainingJobStart => execTrainingJobStart_kept h al.touched
  | .trainingJobComplete => execTrainingJobComplete_kept h al.touched
  | .recordForm _ => execRecordForm_kept h al.touched
  | .recordEmit _ => execRecordEmit_kept h al.touched
  | .pinNotice => execPinNotice_kept h al.touched
  | .cacheAccess _ _ _ _ _ => execCacheAccess_kept h al.touched
  | .dramRequest _ _ => execDramRequest_kept h al.touched
  | .beRequestPromote _ => execBeRequestPromote_kept h al.touched
  | .refreshInterval _ => execRefreshInterval_kept h al.touched
  | .refreshIssue _ => execRefreshIssue_kept h al.touched
  | .dramTempPoll _ => execDramTempPoll_kept h al.touched
  | .dramEcsPoll _ => execDramEcsPoll_kept h al.touched
  | .wckTrack _ => execWckTrack_kept h al.touched
  | .scrub _ _ => execScrub_kept h al.touched
  | .tlbInvalidate _ _ => execTlbInvalidate_kept h al.touched
  | .hostReadIssue _ _ => execHostReadIssue_kept h al.touched
  | .hostReadCompletion _ _ _ => execHostReadCompletion_kept h al.touched
  | .completionTimeout _ => execCompletionTimeout_kept h al.touched
  | .alloc _ _ _ _ _ => execAlloc_kept h al.touched
  | .reserveAllocResume _ => execReserveAllocResume_kept h al.touched
  | .retain _ => execRetain_kept h al.touched
  | .release _ => execRelease_kept h al.touched
  | .releaseChain _ => execReleaseChain_kept h al.touched
  | .censusPass _ => execCensusPass_kept h al.touched
  | .lockAcquire _ _ => execLockAcquire_kept h al.touched
  | .lockRelease _ _ => execLockRelease_kept h al.touched
  | .errorReport _ _ _ _ _ _ _ _ => execErrorReport_kept h al.touched
  | .coalesceFlush _ _ => execCoalesceFlush_kept h al.touched
  | .parityFault _ _ _ => execParityFault_kept h al.touched
  | .partialReset _ _ => execPartialReset_kept h al.touched
  | .islandUnfence _ => execIslandUnfence_kept h al.touched
  | .configRequest _ _ _ _ => execConfigRequest_kept h al.touched
  | .msixEnable _ _ => execMsixEnable_kept h al.touched
  | .vectorUnmask _ => execVectorUnmask_kept h al.touched
  | .powerStateChange _ => execPowerStateChange_kept h al.touched
  | .registerWrite _ _ _ => execRegisterWrite_kept h al.touched
  | .apertureAccess _ _ _ => execApertureAccess_kept h al.touched
  | .keylockWrite _ _ => execKeylockWrite_kept h al.touched
  | .keylockExpiry _ => execKeylockExpiry_kept h al.touched
  | .sqDoorbell _ _ => execSqDoorbell_kept h al.touched
  | .cqDoorbell _ => execCqDoorbell_kept h al.touched
  | .drDoorbell _ _ => execDrDoorbell_kept h al.touched
  | .ringEnable _ => execRingEnable_kept h al.touched
  | .timNsRead _ => execTimNsRead_kept h al.touched
  | .timSnap => execTimSnap_kept h al.touched
  | .errTailWrite _ => execErrTailWrite_kept h al.touched
  | .islandResetGo _ => execIslandResetGo_kept h al.touched
  | .deviceResetGo _ => execDeviceResetGo_kept h al.touched
  | .diagWindowAccess _ _ _ => execDiagWindowAccess_kept h al.touched
  | .fundamentalReset => execFundamentalReset_kept h al.touched
  | .hotReset => execHotReset_kept h al.touched
  | .flr => execFlr_kept h al.touched
  | .pcieError _ => execPcieError_kept h al.touched
  | .commandFetch => execCommandFetch_kept h al.touched
  | .commandComplete => execCommandComplete_kept h al.touched
  | .notice => execNotice_kept h al.touched
  | .cmdNop _ _ => execCmdNop_kept h al.touched
  | .identify _ _ => execIdentify_kept h al.touched
  | .hello _ _ => execHello_kept h al.touched
  | .packageLoad _ _ _ => execPackageLoad_kept h al.touched
  | .streamOpen _ _ _ => execStreamOpen_kept h al.touched
  | .streamClose _ _ => execStreamClose_kept h al.touched
  | .setDecodeMode _ _ => execSetDecodeMode_kept h al.touched
  | .setAnalyseConcealed _ _ => execSetAnalyseConcealed_kept h al.touched
  | .setCaptureSet _ _ _ => execSetCaptureSet_kept h al.touched
  | .liftQuarantine _ _ => execLiftQuarantine_kept h al.touched
  | .setLinks _ _ => execSetLinks_kept h al.touched
  | .setAdaptationMode _ _ => execSetAdaptationMode_kept h al.touched
  | .streamStats _ _ => execStreamStats_kept h al.touched
  | .frameSubmit _ _ => execFrameSubmit_kept h al.touched
  | .subscribe _ _ => execSubscribe_kept h al.touched
  | .unsubscribe _ _ => execUnsubscribe_kept h al.touched
  | .promptSet _ _ => execPromptSet_kept h al.touched
  | .promptBind _ _ => execPromptBind_kept h al.touched
  | .contextSet _ _ => execContextSet_kept h al.touched
  | .clipRequest _ _ => execClipRequest_kept h al.touched
  | .clipCancel _ _ => execClipCancel_kept h al.touched
  | .adaptAdopt _ _ => execAdaptAdopt_kept h al.touched
  | .timeConfig _ _ _ => execTimeConfig_kept h al.touched
  | .timeSet _ _ => execTimeSet_kept h al.touched
  | .pinConfig _ _ _ => execPinConfig_kept h al.touched
  | .hostPinLevel _ _ => execHostPinLevel_kept h al.touched
  | .hostPinPulse _ _ => execHostPinPulse_kept h al.touched
  | .hostStrobeStart _ _ => execHostStrobeStart_kept h al.touched
  | .hostStrobeStop _ _ => execHostStrobeStop_kept h al.touched
  | .reflexConfig _ _ _ => execReflexConfig_kept h al.touched
  | .netConfig _ _ _ => execNetConfig_kept h al.touched
  | .setWayMasks _ _ => execSetWayMasks_kept h al.touched
  | .setColdTier _ _ _ _ => execSetColdTier_kept h al.touched
  | .setCensus _ _ => execSetCensus_kept h al.touched
  | .journalRead _ _ => execJournalRead_kept h al.touched
  | .stage _ _ => execStage_kept h al.touched
  | .switch _ _ => execSwitch_kept h al.touched
  | .updateResume => execUpdateResume_kept h al.touched
  | .updateRevert => execUpdateRevert_kept h al.touched
  | .commit _ _ => execCommit_kept h al.touched
  | .ledgerClear _ _ => execLedgerClear_kept h al.touched
  | .ledgerSizes _ _ => execLedgerSizes_kept h al.touched
  | .islandReset _ _ => execIslandReset_kept h al.touched
  | .linkTrainingComplete _ _ _ => execLinkTrainingComplete_kept h al.touched
  | .linkSignalLoss _ => execLinkSignalLoss_kept h al.touched
  | .flitReceive _ _ _ _ => execFlitReceive_kept h al.touched
  | .flitSlot _ => execFlitSlot_kept h al.touched
  | .ackTimer _ => execAckTimer_kept h al.touched
  | .nakHoldoffExpiry _ => execNakHoldoffExpiry_kept h al.touched
  | .replayTimeout _ => execReplayTimeout_kept h al.touched
  | .timeReqPeriod => execTimeReqPeriod_kept h al.touched
  | .timeReq _ => execTimeReq_kept h al.touched
  | .timeResp _ => execTimeResp_kept h al.touched
  | .epochAck _ _ _ _ => execEpochAck_kept h al.touched
  | .epochPropose _ _ _ => execEpochPropose_kept h al.touched
  | .epochTimeout => execEpochTimeout_kept h al.touched
  | .commitPeriod => execCommitPeriod_kept h al.touched
  | .commitMessage _ _ => execCommitMessage_kept h al.touched
  | .peerStatePeriod => execPeerStatePeriod_kept h al.touched
  | .peerState _ members _ _ => execPeerState_kept (a1 := members) h al.touched
  | .peerLossTimeout _ => execPeerLossTimeout_kept h al.touched
  | .gallery _ _ _ _ _ _ _ _ _ _ => execGallery_kept h al.touched
  | .relay _ _ _ _ => execRelay_kept h al.touched
  | .relayRefuse _ _ _ _ => execRelayRefuse_kept h al.touched
  | .relayRetry _ => execRelayRetry_kept h al.touched
  | .pwrfail _ _ => execPwrfail_kept h al.touched
  | .maingoodFall => execMaingoodFall_kept h al.touched
  | .lastBreathEnd => execLastBreathEnd_kept h al.touched
  | .boot _ => execBoot_kept h al.touched
  | .avsAdjust _ _ => execAvsAdjust_kept h al.touched
  | .junctionHot _ _ => execJunctionHot_kept h al.touched
  | .thermalTrip _ _ => execThermalTrip_kept h al.touched
  | .timerefLoss _ => execTimerefLoss_kept h al.touched
  | .unitGate _ => execUnitGate_kept h al.touched
  | .smbReadTj => execSmbReadTj_kept h al.touched
  | .smbReadTjIsland => execSmbReadTjIsland_kept h al.touched
  | .smbReadStatus => execSmbReadStatus_kept h al.touched
  | .smbReadBootstep => execSmbReadBootstep_kept h al.touched
  | .smbReadStepping => execSmbReadStepping_kept h al.touched
  | .smbAlertResponse => execSmbAlertResponse_kept h al.touched
  | .smbAlertRepeat => execSmbAlertRepeat_kept h al.touched
  | .bypass => execBypass_kept h al.touched
  | .idcode => execIdcode_kept h al.touched
  | .samplePreload _ => execSamplePreload_kept h al.touched
  | .extest => execExtest_kept h al.touched
  | .tapReset => execTapReset_kept h al.touched
  | .timerefReturn => execTimerefReturn_kept h al.touched
  | .linkSignalReturn _ => execLinkSignalReturn_kept h al.touched
  | .alwaysOnDomainLoss => execAlwaysOnDomainLoss_kept h al.touched
  | .alwaysOnPowerUp => execAlwaysOnPowerUp_kept h al.touched
  | .interleavedRtpSegment _ _ => execInterleavedRtpSegment_kept h al.touched
  | .smbUnlistedCommand _ => execSmbUnlistedCommand_kept h al.touched
  | .perstNDeassert => execPerstNDeassert_kept h al.touched

/-- The world of a command: it begins in `s` and allows the parts that the command touches. -/
def commandWorld (c : Instr) (s : State) : World := { queue := s.pending, start := s, mask := partMask (touches c) }

theorem kept_commandWorld {c : Instr} {s : State} (h : Sound s) : Kept (commandWorld c s) s :=
  { h with queue := rfl, frame := fun q _ => q.unchanged_refl s }

/-- A command that answers a next state leaves it sound, with the queue as it was and only touched parts changed. -/
theorem exec_kept_commandWorld {c : Instr} {s t : State} (h : Sound s) (e : exec c s = .next t) : Kept (commandWorld c s) t :=
  exec_kept c (kept_commandWorld h) ⟨Nat.or_self _⟩ t e

theorem idle_sound {s : State} (h : Sound s) : Sound (idle s) :=
  (idle_kept (p := { queue := s.pending, start := s, mask := 8 }) { h with queue := rfl, frame := fun q _ => q.unchanged_refl s }
    ⟨Nat.or_self _⟩).toSound

/-- The invariant says nothing of the queue. -/
theorem Sound.withPending {s : State} (h : Sound s) (l : List Instr) : Sound { s with pending := l } := { h with }

end Sys2Proof.Machine

open Sys2Proof Sys2Proof.Machine

/-- Settles O58: the invariant by `State.reset_sound`; a table of equal units holds the one unit, and the rest is evaluated. -/
theorem resetLeavesTheseValues : Obligations.ResetLeavesTheseValues := by
  have links : ∀ l ∈ State.reset.trellis.links, l.state = .down ∧ l.nextSeq = 0 ∧ l.expect = 0 ∧ l.credits = [8, 32, 192] :=
    fun l hl => by rw [List.eq_of_mem_replicate hl]; exact ⟨rfl, rfl, rfl, rfl⟩
  have locks : ∀ x ∈ State.reset.locks, x.held = false ∧ x.broken = false :=
    fun x hx => by rw [List.eq_of_mem_replicate hx]; exact ⟨rfl, rfl⟩
  exact ⟨State.reset_sound, fun p hp => by rw [List.eq_of_mem_replicate hp]; rfl, List.length_replicate .., links,
    List.length_replicate .., by decide, by decide, by decide, by decide, by decide, by decide, by decide, rfl, rfl, locks,
    List.length_replicate .., rfl, rfl, fun x hx => List.eq_of_mem_replicate hx, List.length_replicate .., rfl⟩

/-- Settles O59: an idle step only lets time pass, and a command keeps the invariant by the law of its own operation. -/
theorem everyStepKeepsTheInvariant : Obligations.EveryStepKeepsTheInvariant := by
  unfold Obligations.EveryStepKeepsTheInvariant
  intro s t h e
  unfold step at e
  split at e
  · cases e
    exact idle_sound h
  · next c rest _ => exact (exec_kept_commandWorld (h.withPending rest) e).toSound

/-- Settles O60: what a command does not touch has no bit in the mask of its world, so the frame of that world holds it. -/
theorem commandsTouchOnlyTheirParts : Obligations.CommandsTouchOnlyTheirParts := by
  unfold Obligations.CommandsTouchOnlyTheirParts
  intro c s t h e
  have k := exec_kept_commandWorld h e
  exact ⟨k.queue, fun q hq => k.frame q (testBit_partMask hq)⟩
end

section
/-! Host accesses: what a request to a BAR becomes while the Gatehouse serves and while it does not, and what its register does with it. -/

namespace Sys2Proof.Machine

variable {s : State}

/-! ### BAR requests (R379, R395) -/

theorem hostWrites_refused {off : Nat} {f : State → State} (link : s.gate.linkUp = true)
    (h : s.gate.d3hot = true ∨ memSpace s = false) : hostWrites off f s = badRequest off s := by
  unfold hostWrites
  rw [if_neg (by simp [link]), if_pos (by simpa using h)]

theorem hostReads_refused {off n : Nat} {f : State → List Byte × State} (link : s.gate.linkUp = true)
    (h : s.gate.d3hot = true ∨ memSpace s = false) :
    hostReads off n f s = emit .unsupportedRequest (badRequest off s) := by
  unfold hostReads
  rw [if_neg (by simp [link]), if_pos (by simpa using h)]

theorem hostWrites_served {off : Nat} {f : State → State} (h : BarServes s) : hostWrites off f s = f s := by
  simp [hostWrites, h.link, h.d0, h.space, h.island]

theorem hostReads_served {off n : Nat} {f : State → List Byte × State} (h : BarServes s) :
    hostReads off n f s = emit (.readData (f s).1) (f s).2 := by
  simp [hostReads, h.link, h.d0, h.space, h.island]

/-! ### Dword writes to BAR0 (R380, R385, R397) -/

theorem exec_registerWrite {off : Nat} {v : BitVec 32} {b : BitVec 4} (lt : off < 0x2000000) (al : off % 4 = 0) :
    exec (.registerWrite off v b) s = .next (hostWrites off (fun s =>
      if b = 0xF then writeBar0 off v s else setBadAcc (logErr 0x0905 2 0 s { arg0 := off })) s) := by
  show execRegisterWrite off v b s = _
  simp [execRegisterWrite, inRange, lt, al, done]

/-- A dword write with every byte enabled is the write of BAR0. -/
theorem exec_registerWrite_full (h : BarServes s) {off : Nat} {v : BitVec 32} (lt : off < 0x2000000) (al : off % 4 = 0) :
    exec (.registerWrite off v 0xF) s = .next (writeBar0 off v s) := by
  rw [exec_registerWrite lt al, hostWrites_served h, if_pos rfl]

theorem exec_registerWrite_partial (h : BarServes s) {off : Nat} {v : BitVec 32} {b : BitVec 4} (lt : off < 0x2000000)
    (al : off % 4 = 0) (hb : b ≠ 0xF) :
    exec (.registerWrite off v b) s = .next (orReg 0x08 8 (logErr 0x0905 2 0 s { arg0 := off })) := by
  rw [exec_registerWrite lt al, hostWrites_served h, if_neg hb]
  rfl

theorem writeBar0_uncovered {off : Nat} {v : BitVec 32} (h : covered off = false) :
    writeBar0 off v s = orReg 0x08 8 (badRequest off s) := by
  simp [writeBar0, h, setBadAcc]

/-- An aliasing word names one bit of its register (R385, R386). -/
theorem aliasOf_word {off b : Nat} (lt : off < 0x100) (al : off % 4 = 0) (hb : b < 32) :
    aliasOf (0x8000 + 32 * off + 4 * b) = some (off, b) := by
  have hx : (0x8000 + 32 * off + 4 * b) / 0x100000 = 0 := by omega
  have hm : (0x8000 + 32 * off + 4 * b) % 0x100000 = 0x8000 + 32 * off + 4 * b := by omega
  unfold aliasOf
  simp only [hx, hm]
  rw [if_neg (by omega)]
  have hr : 0 * 0x100000 + (0x8000 + 32 * off + 4 * b - 0x8000) / 128 * 4 = off := by omega
  have hb' : (0x8000 + 32 * off + 4 * b - 0x8000) % 128 / 4 = b := by omega
  rw [hr, hb']

theorem writeBar0_alias {off b : Nat} {v : BitVec 32} (lt : off < 0x100) (al : off % 4 = 0) (hb : b < 32) :
    writeBar0 (0x8000 + 32 * off + 4 * b) v s = writeGhs off (1#32 <<< b) (v <<< b) s := by
  have c : covered (0x8000 + 32 * off + 4 * b) = true := by unfold covered; exact decide_eq_true (by omega)
  have d : off / 0x100000 = 0 := by omega
  unfold writeBar0
  rw [c, if_neg (by decide), if_neg (by omega), if_neg (by omega), if_neg (by omega), aliasOf_word lt al hb]
  simp only [writeBits, d]

/-- A register of GHS below its aliasing words is written whole. -/
theorem writeBar0_ghs {off : Nat} {v : BitVec 32} (lt : off < 0x8000) :
    writeBar0 off v s = writeGhs off 0xFFFFFFFF v s := by
  have c : covered off = true := by unfold covered; exact decide_eq_true (by omega)
  have d : off / 0x100000 = 0 := by omega
  have m : off % 0x100000 = off := by omega
  have a : aliasOf off = none := by simp only [aliasOf, d, m]; exact if_pos (by omega)
  unfold writeBar0
  rw [c, if_neg (by decide), if_neg (by omega), if_neg (by omega), if_neg (by omega), a]
  simp only [d]
  rw [if_neg (by omega), if_neg (by omega), if_neg (by omega), if_neg (by omega), if_neg (by omega), if_neg (by omega),
    if_neg (by omega)]
  simp only [writeBits, d]

/-- One bit of a masked write, as a write of the whole word with that bit changed. -/
theorem maskedBit_eq (r m v : BitVec 32) (b : Nat) (hb : b < 32) :
    (r &&& ~~~(m &&& 1#32 <<< b)) ||| (v <<< b &&& m &&& 1#32 <<< b)
      = (r &&& ~~~m) ||| ((if v.getLsbD 0 then r ||| 1#32 <<< b else r &&& ~~~(1#32 <<< b)) &&& m) := by
  ext i hi
  have e : (1#32 <<< b)[i] = decide (i = b) := by
    rw [BitVec.getElem_shiftLeft]
    rcases Nat.lt_trichotomy i b with h | h | h
    · simp [h, Nat.ne_of_lt h]
    · simp [h]
    · have k : i - b ≠ 0 := by omega
      simp [k, Nat.ne_of_gt h, Nat.not_lt_of_gt h]
  by_cases h : i = b
  · subst h
    cases k : v.getLsbD 0 <;> simp_all
  · split <;> simp [e, h] <;> cases r[i] <;> simp

/-- Bit `b` of a register is written as the whole register is, with that bit changed. -/
theorem putBits_bit {off b : Nat} (m v : BitVec 32) (hb : b < 32) :
    putBits off m (1#32 <<< b) (v <<< b) s
      = putBits off m 0xFFFFFFFF (if v.getLsbD 0 then reg s off ||| 1#32 <<< b else reg s off &&& ~~~(1#32 <<< b)) s := by
  have a : (0xFFFFFFFF : BitVec 32) = BitVec.allOnes 32 := rfl
  simp only [putBits, maskedBit_eq _ _ _ b hb, a, BitVec.and_allOnes]

theorem putBits_full {off : Nat} (m v : BitVec 32) :
    putBits off m 0xFFFFFFFF v s = setReg off ((reg s off &&& ~~~m) ||| (v &&& m)) s := by
  have a : (0xFFFFFFFF : BitVec 32) = BitVec.allOnes 32 := rfl
  simp only [putBits, a, BitVec.and_allOnes]

/-- The vectors and the aperture base store their writable bits, and a change of the vectors is a change of causes (R388, R397). -/
theorem writeGhs_stored {off : Nat} {m : BitVec 32} (h : (off, m) ∈ [(0x18, 0x3F3F3F3F#32), (0x28, 0xFFF00000#32), (0x2C, 0x0000FFFF#32)])
    (mask v : BitVec 32) :
    writeGhs off mask v s = if off = 0x18 then causeEdges s (putBits off m mask v s) else putBits off m mask v s := by
  simp only [List.mem_cons, Prod.mk.injEq, List.not_mem_nil, or_false] at h
  obtain ⟨rfl, rfl⟩ | ⟨rfl, rfl⟩ | ⟨rfl, rfl⟩ := h <;> rfl

/-- The registers of the list lie below the aliasing words at dword offsets. -/
theorem stored_offset {off : Nat} {m : BitVec 32} (h : (off, m) ∈ [(0x18, 0x3F3F3F3F#32), (0x28, 0xFFF00000#32), (0x2C, 0x0000FFFF#32)]) :
    off < 0x100 ∧ off % 4 = 0 := by
  simp only [List.mem_cons, Prod.mk.injEq, List.not_mem_nil, or_false] at h
  obtain ⟨rfl, -⟩ | ⟨rfl, -⟩ | ⟨rfl, -⟩ := h <;> decide

/-- GHS_STAT is cleared by ones (R397). -/
theorem writeGhs_stat (v : BitVec 32) : writeGhs 0x08 0xFFFFFFFF v s = clrReg 0x08 (v &&& 0xF) s := by
  have a : (0xFFFFFFFF : BitVec 32) = BitVec.allOnes 32 := rfl
  simp only [writeGhs, a, BitVec.and_allOnes, if_true]

/-! ### The aperture (R153, R382) -/

/-- An address of the sequence table, which the aperture does not reach (R153). -/
abbrev InSeqTable (s : State) (p : Nat) : Prop :=
  s.aviary.seqTable ≠ 0 ∧ s.aviary.seqTable ≤ p ∧ p < s.aviary.seqTable + 0x100000

theorem apertureCovers_iff {p : Nat} : apertureCovers s p = true ↔ backed s p = true ∧ ¬ InSeqTable s p := by
  unfold apertureCovers
  rw [Bool.and_eq_true, Bool.not_eq_true', decide_eq_false_iff_not]

theorem apertureCovers_eq_false {p : Nat} (h : backed s p = false ∨ InSeqTable s p) : apertureCovers s p = false := by
  rw [Bool.eq_false_iff, ne_eq, apertureCovers_iff]
  rintro ⟨b, t⟩
  exact h.elim (fun k => by simp [k] at b) t

theorem mem_cellsAt {a : Nat} {bs : List Byte} {mark : Bool} {c : Cell} (h : c ∈ cellsAt a bs mark) :
    ∃ i, i < bs.length ∧ c.addr = a + i := by
  obtain ⟨x, hx, rfl⟩ := List.mem_map.mp h
  obtain ⟨-, hi, -⟩ := List.mem_zipIdx hx
  exact ⟨x.2, by simpa using hi, rfl⟩

theorem length_cellsAt (a : Nat) (bs : List Byte) (mark : Bool) : (cellsAt a bs mark).length = bs.length := by
  simp [cellsAt]

theorem storeFenced_freeCount (n a : Nat) : storeFenced { s with freeCount := n } a = storeFenced s a := rfl

/-- Cells that the aperture writes where no store is fenced keep their values (R369, R382). -/
theorem unfenced_cells {free : List Byte} {cs : List Cell} (h : ∀ c ∈ cs, storeFenced s c.addr = false) :
    (cs.zipIdx.map fun c => if storeFenced s c.1.addr then { c.1 with val := free.getD c.2 0 } else c.1) = cs := by
  have k : ∀ c ∈ cs.zipIdx, (if storeFenced s c.1.addr then { c.1 with val := free.getD c.2 0 } else c.1) = c.1 := by
    intro c hc
    rw [h _ (List.fst_mem_of_mem_zipIdx hc)]
    rfl
  rw [List.map_congr_left k]
  exact List.zipIdx_map_fst ..

/-- Bytes that the aperture reaches land as a write of the class Control (R382). -/
theorem apertureWrite_covered {off : Nat} {bs : List Byte}
    (h : ∀ i, i < bs.length → apertureCovers s (apBase s + off + i) = true ∧ storeFenced s (apBase s + off + i) = false) :
    apertureWrite off bs false s
      = writePhys .control (cellsAt (apBase s + off) bs false) { s with freeCount := s.freeCount + bs.length } := by
  have all : (cellsAt (apBase s + off) bs false).filter (fun c => apertureCovers s c.addr) = cellsAt (apBase s + off) bs false := by
    refine List.filter_eq_self.mpr fun c hc => ?_
    obtain ⟨i, hi, e⟩ := mem_cellsAt hc
    rw [e]
    exact (h i hi).1
  have keep : ∀ c ∈ cellsAt (apBase s + off) bs false, storeFenced s c.addr = false := by
    intro c hc
    obtain ⟨i, hi, e⟩ := mem_cellsAt hc
    rw [e]
    exact (h i hi).2
  unfold apertureWrite
  extract_lets cells good
  have hg : good = cells := all
  clear_value good
  subst hg
  show (if cells.length = cells.length then _ else _) = _
  rw [if_pos rfl, ← length_cellsAt (apBase s + off) bs false]
  exact congrArg (writePhys .control · { s with freeCount := s.freeCount + cells.length }) (unfenced_cells keep)

/-- A write of no cells leaves memory as it is. -/
theorem writePhys_nil (cls : ReqClass) : writePhys cls [] s = s := by
  have n : noteWritten [] s.mem = s.mem := by simp [noteWritten]
  show { s with mem := noteWritten [] s.mem } = s
  rw [n]

/-- Bytes of which the aperture reaches none are dropped with 0x0907 (R382). -/
theorem apertureWrite_uncovered {off : Nat} {bs : List Byte} (hb : bs ≠ [])
    (h : ∀ i, i < bs.length → apertureCovers s (apBase s + off + i) = false) :
    apertureWrite off bs false s
      = orReg 0x08 8 (logErr 0x0907 2 0 s { arg0 := apBase s + off }) := by
  have none_ : (cellsAt (apBase s + off) bs false).filter (fun c => apertureCovers s c.addr) = [] :=
    List.filter_eq_nil_iff.mpr fun c hc => by
      obtain ⟨i, hi, e⟩ := mem_cellsAt hc
      rw [e, h i hi]
      decide
  have k : ([] : List Cell).length ≠ (cellsAt (apBase s + off) bs false).length := by
    rw [length_cellsAt]
    exact fun e => hb (List.length_eq_zero_iff.mp e.symm)
  unfold apertureWrite
  simp only [none_, freeBytes, List.zipIdx_nil, List.map_nil, writePhys_nil, if_neg k]
  rfl

/-- A byte with no write of another unit in flight reads as memory holds it (R18). -/
theorem mixedByte_settled {j p : Nat} (h : tabGet p s.mem.unsettled = none) : mixedByte j s p = deviceByte s p := by
  simp [mixedByte, h]

theorem readTarget_backed {j a p m : Nat} (h : backed s p = true) : (readTarget j s a (.phys p m)).val = mixedByte j s p := by
  simp [readTarget, h]

/-- What a read of the aperture finds at an address: 0 where it does not reach, else the byte of the unit (R382). -/
def apertureByte (s : State) (a : Nat) : Byte :=
  if apertureCovers s a then (readTarget noLane s a (.phys a 0)).val else 0

theorem apertureByte_uncovered {a : Nat} (h : apertureCovers s a = false) : apertureByte s a = 0 := by
  simp [apertureByte, h]

theorem apertureByte_settled {a : Nat} (h : apertureCovers s a = true) (k : tabGet a s.mem.unsettled = none) :
    apertureByte s a = deviceByte s a := by
  rw [apertureByte, if_pos h, readTarget_backed (apertureCovers_iff.mp h).1, mixedByte_settled k]

/-- The bytes of a read that meets no fenced store where the aperture reaches (R369, R382). -/
theorem apertureRead_fst {off n : Nat}
    (h : ∀ i, i < n → apertureCovers s (apBase s + off + i) = true → storeFenced s (apBase s + off + i) = false) :
    (apertureRead off n s).1 = (List.range n).map fun i => apertureByte s (apBase s + off + i) := by
  have e (free : List Byte) (as : List Nat) (ha : ∀ a ∈ as, apertureCovers s a = true → storeFenced s a = false) :
      (as.zipIdx.map fun a => if !apertureCovers s a.1 then 0 else if storeFenced s a.1 then free.getD a.2 0
        else (readTarget noLane s a.1 (.phys a.1 0)).val) = as.map (apertureByte s) := by
    have k : ∀ a ∈ as.zipIdx, (if !apertureCovers s a.1 then 0 else if storeFenced s a.1 then free.getD a.2 0
        else (readTarget noLane s a.1 (.phys a.1 0)).val) = (apertureByte s ∘ Prod.fst) a := by
      intro a m
      have f := ha _ (List.fst_mem_of_mem_zipIdx m)
      cases c : apertureCovers s a.1
      · simp [apertureByte, c]
      · simp [apertureByte, c, f c]
    rw [List.map_congr_left k, ← List.map_map, List.zipIdx_map_fst]
  have ha : ∀ a ∈ (List.range n).map fun i => apBase s + off + i, apertureCovers s a = true → storeFenced s a = false := by
    intro a m
    obtain ⟨i, hi, rfl⟩ := List.mem_map.mp m
    exact h i (List.mem_range.mp hi)
  simp only [apertureRead, freeBytes]
  split <;> exact (e _ _ ha).trans (List.map_map ..)

theorem exec_apertureAccess {w : Bool} {off : Nat} {bs : List Byte} (h : off + bs.length ≤ 0x10000000) :
    exec (.apertureAccess w off bs) s = .next (if w then hostWrites off (apertureWrite off bs false) s
      else hostReads off bs.length (apertureRead off bs.length) s) := by
  show execApertureAccess w off bs s = _
  simp [execApertureAccess, inRange, h, done]

theorem exec_apertureWrite (h : BarServes s) {off : Nat} {bs : List Byte} (le : off + bs.length ≤ 0x10000000) :
    exec (.apertureAccess true off bs) s = .next (apertureWrite off bs false s) := by
  rw [exec_apertureAccess le, if_pos rfl, hostWrites_served h]

theorem exec_apertureRead (h : BarServes s) {off : Nat} {bs : List Byte} (le : off + bs.length ≤ 0x10000000) :
    exec (.apertureAccess false off bs) s
      = .next (emit (.readData (apertureRead off bs.length s).1) (apertureRead off bs.length s).2) := by
  rw [exec_apertureAccess le, if_neg (by decide), hostReads_served h]

/-- What leaves last is the data of the read. -/
theorem getLast_emit (o : Out) : (emit o s).out.getLast? = some o := List.getLast?_concat ..

/-! ### Times, the tail of the error log, the resets (R393, R399 to R401) -/

/-- A change of an entry is not seen at a key above it. -/
theorem tabGet_tabPut_above {α : Type} {k j : Nat} {v : α} (h : k < j) : ∀ t : Tab α, tabGet j (tabPut k v t) = tabGet j t
  | [] => by simp [tabPut, tabGet, Nat.ne_of_gt h, Nat.not_lt_of_gt h]
  | (a, w) :: t => by
    have ih := tabGet_tabPut_above (v := v) h t
    unfold tabPut
    split
    · next e => subst e; simp [tabGet, Nat.ne_of_gt h, Nat.not_lt_of_gt h]
    · split
      · simp [tabGet, Nat.ne_of_gt h, Nat.not_lt_of_gt h]
      · simp only [tabGet, ih]

theorem tabGet_tabDel_above {α : Type} {k j : Nat} (h : k < j) : ∀ t : Tab α, tabGet j (tabDel k t) = tabGet j t
  | [] => rfl
  | (a, w) :: t => by
    have ih := tabGet_tabDel_above h t
    unfold tabDel
    split
    · next e => subst e; simp [tabGet, Nat.ne_of_gt h, Nat.not_lt_of_gt h]
    · split
      · rfl
      · simp only [tabGet, ih]

/-- A register that is stored is not seen at an offset above it. -/
theorem reg_setReg_above {k j : Nat} (h : k < j) (v : BitVec 32) (s : State) : reg (setReg k v s) j = reg s j := by
  unfold reg setReg tabGetD
  dsimp only
  split
  · rw [tabGet_tabDel_above h]
  · rw [tabGet_tabPut_above h]

/-- A stamp lies within 8 ns of the time of its write (R399). -/
theorem acceptStamp_near : nowNs s ≤ (acceptStamp s).1 + 8 ∧ (acceptStamp s).1 ≤ nowNs s + 8 := by
  show nowNs s ≤ nowNs s + Config.freeNat s.freeCount % 17 - 8 + 8 ∧ nowNs s + Config.freeNat s.freeCount % 17 - 8 ≤ nowNs s + 8
  have := Nat.mod_lt (Config.freeNat s.freeCount) (show 0 < 17 by decide)
  omega

/-- SNAP captures a time within 8 ns, and counts up (R399). -/
theorem snapTime_eq (s : State) : ∃ c, nowNs s ≤ c + 8 ∧ c ≤ nowNs s + 8 ∧ snapTime s = setReg 0x200020 (reg s 0x200020 + 1)
    (setReg 0x20001C (BitVec.ofNat 32 (c / 2 ^ 32)) (setReg 0x200018 (BitVec.ofNat 32 c) { s with freeCount := s.freeCount + 1 })) := by
  have near := acceptStamp_near (s := s)
  refine ⟨(acceptStamp s).1, near.1, near.2, ?_⟩
  show setReg 0x200020 (reg (setReg 0x20001C _ (setReg 0x200018 _ { s with freeCount := s.freeCount + 1 })) 0x200020 + 1) _ = _
  rw [reg_setReg_above (by decide), reg_setReg_above (by decide)]
  rfl

theorem moveErrTail_eq {tail : Nat} (h : tail < 2 ^ 32) :
    moveErrTail tail s = if (s.err.head + 2 ^ 32 - tail) % 2 ^ 32 ≤ 1024 then { s with err := { s.err with tail := tail } }
      else logErr 0x0909 2 0 s { arg0 := tail } := by
  simp only [moveErrTail, Nat.mod_eq_of_lt h]
  rfl

/-- A guarded write that reaches a bit of its register: it uses the unlock up, or is rejected (R384). -/
theorem guarded_eq {dia : Bool} {off : Nat} {m mask : BitVec 32} {f : State → State} (h : m &&& mask ≠ 0) :
    guarded dia off m mask f s = if unlocked s dia then f (holdKey dia none s)
      else orReg 0x08 4 (logErr 0x0904 2 0 s { arg0 := off }) := by
  unfold guarded
  rw [if_neg h]
  rfl

/-- The low six bits of a word that took them from `v`. -/
theorem bits_maskedLow (r v : BitVec 32) : bits ((r &&& ~~~0x3F#32) ||| (v &&& 0x3F#32)).toNat 0 6 = v.toNat % 64 := by
  have e : ((r &&& ~~~0x3F#32) ||| (v &&& 0x3F#32)).setWidth 6 = v.setWidth 6 := by
    ext i hi
    have m : (0x3F#32).getLsbD i = true := by interval_cases i <;> rfl
    simp only [BitVec.getElem_setWidth, BitVec.getLsbD_or, BitVec.getLsbD_and, BitVec.getLsbD_not, m]
    simp
  have n := congrArg BitVec.toNat e
  rw [BitVec.toNat_setWidth, BitVec.toNat_setWidth] at n
  rwa [bits, pow_zero, Nat.div_one]

/-- A write of PWR_ISLRST with every bit enabled (R401). -/
theorem writeIslrst_full (v : BitVec 32) :
    writeIslrst 0xFFFFFFFF v s =
      if v.getLsbD 8 = false then
        setReg 0x400010 (((reg s 0x400010 &&& ~~~0x3F#32) ||| (v &&& 0x3F#32)) &&& 0x313F#32) s
      else if (reg s 0x400010).getLsbD 8 then setReg 0x400010 (reg s 0x400010 &&& ~~~0x3000 ||| 0x3000) s
      else if 3 ≤ v.toNat % 64 ∧ v.toNat % 64 ≤ 60 then
        requestReset (v.toNat % 64) 0 none (updGate (fun g => { g with islrst := some (v.toNat % 64) })
          (setReg 0x400010 (BitVec.ofNat 32 (v.toNat % 64 + 256)) s))
      else setReg 0x400010 (BitVec.ofNat 32 (v.toNat % 64 + 3 * 2 ^ 12)) s := by
  have a : (0xFFFFFFFF : BitVec 32) = BitVec.allOnes 32 := rfl
  have m : (0x3F : BitVec 32) = 0x3F#32 := rfl
  simp only [writeIslrst, a, BitVec.and_allOnes, BitVec.allOnes_and, m, bits_maskedLow, w32, Bool.not_eq_true']
  rfl

theorem reg_holdKey (dia : Bool) (t : Option Nat) (s : State) (off : Nat) : reg (holdKey dia t s) off = reg s off := by
  cases dia <;> rfl

/-- The unlock of PWR, used up (R384). -/
theorem exec_islandResetGo (h : BarServes s) (key : unlocked s false = true) (v : BitVec 32) :
    exec (.islandResetGo v) s = .next (writeIslrst 0xFFFFFFFF v (holdKey false none s)) := by
  refine congrArg Host.Outcome.next ((hostWrites_served h).trans ?_)
  show guarded false 0x400010 0x13F 0xFFFFFFFF _ s = _
  rw [guarded_eq (by decide), if_pos key]

theorem exec_deviceResetGo (h : BarServes s) (key : unlocked s false = true) (v : BitVec 32) :
    exec (.deviceResetGo v) s
      = .next (if v.getLsbD 0 then flushedReset (holdKey false none s) else holdKey false none s) := by
  have a : (0xFFFFFFFF : BitVec 32) = BitVec.allOnes 32 := rfl
  refine congrArg Host.Outcome.next ((hostWrites_served h).trans ?_)
  show guarded false 0x400014 1 0xFFFFFFFF _ s = _
  rw [guarded_eq (by decide), if_pos key, writeDevrst, a, BitVec.allOnes_and]

/-! ### The diagnostics window (R370, R403) -/

theorem exec_diagWindowAccess {w : Bool} {off : Nat} {v : BitVec 32} (lt : off < 0x1000000) (al : off % 4 = 0) :
    exec (.diagWindowAccess w off v) s = .next (if w then hostWrites (0x1000000 + off) (writeBar0 (0x1000000 + off) v) s
      else hostReads (0x1000000 + off) 4 (diagRead (0x1000000 + off)) s) := by
  show execDiagWindowAccess w off v s = _
  simp [execDiagWindowAccess, inRange, lt, al, done]

theorem exec_diagWrite (h : BarServes s) {off : Nat} {v : BitVec 32} (lt : off < 0x1000000) (al : off % 4 = 0) :
    exec (.diagWindowAccess true off v) s = .next (diagWrite (0x1000000 + off) v s) := by
  have c : covered (0x1000000 + off) = true := by unfold covered; exact decide_eq_true (by omega)
  rw [exec_diagWindowAccess lt al, if_pos rfl, hostWrites_served h, writeBar0, c, if_neg (by decide), if_pos (by omega)]

theorem exec_diagRead (h : BarServes s) {off : Nat} {v : BitVec 32} (lt : off < 0x1000000) (al : off % 4 = 0) :
    exec (.diagWindowAccess false off v) s
      = .next (emit (.readData (diagRead (0x1000000 + off) s).1) (diagRead (0x1000000 + off) s).2) := by
  rw [exec_diagWindowAccess lt al, if_neg (by decide), hostReads_served h]

/-- A write through the window: refused while it is disabled and on page 0, met by a fence, or led to the island's register, whose guard
is the window's own key (R337, R370, R403). -/
theorem diagWrite_eq (off : Nat) (v : BitVec 32) :
    diagWrite (0x1000000 + off) v s =
      if (reg s 0x600000).getLsbD 0 = false ∨ diaPage s = 0 then orReg 0x600008 2 s
      else if resetFenced s (diaPage s) then windowReset s
      else if islandGuarded (diaPage s) off then
        if unlocked s true then writeIsland (diaPage s) off v (holdKey true none s)
        else orReg 0x08 4 (logErr 0x0904 2 0 s { arg0 := 0x1000000 + off })
      else writeIsland (diaPage s) off v s := by
  have k : BitVec.allOnes 32 &&& BitVec.allOnes 32 ≠ 0 := by decide
  simp only [diagWrite, Nat.add_sub_cancel_left, guarded_eq k, denyWindow, Bool.or_eq_true, Bool.not_eq_true', beq_iff_eq]

/-- A read through the window (R370, R403): refused while it is disabled, met by a fence, or led to the island's register. -/
theorem diagRead_disabled (off : Nat) (h : (reg s 0x600000).getLsbD 0 = false) :
    diagRead (0x1000000 + off) s = (leBytes 4 0, orReg 0x600008 2 s) := by
  simp only [diagRead, h, Bool.not_false, if_true, denyWindow]

theorem diagRead_fenced (off : Nat) (h : (reg s 0x600000).getLsbD 0 = true) (k : resetFenced s (diaPage s) = true) :
    diagRead (0x1000000 + off) s = (List.replicate 4 0xFF, windowReset s) := by
  simp only [diagRead, h, k, Bool.not_true, Bool.false_eq_true, if_false, if_true, allOnes]

theorem diagRead_word {off w : Nat} (h : (reg s 0x600000).getLsbD 0 = true) (k : resetFenced s (diaPage s) = false)
    (e : islandWord s (diaPage s) off = some w) : diagRead (0x1000000 + off) s = (leBytes 4 w, s) := by
  simp only [diagRead, h, k, Bool.not_true, Bool.false_eq_true, if_false, Nat.add_sub_cancel_left, e]

theorem diagRead_free {off : Nat} (h : (reg s 0x600000).getLsbD 0 = true) (k : resetFenced s (diaPage s) = false)
    (e : islandWord s (diaPage s) off = none) : diagRead (0x1000000 + off) s
      = (leBytes 4 (Config.islandRegister (diaPage s) off s.freeCount).toNat, { s with freeCount := s.freeCount + 1 }) := by
  simp only [diagRead, h, k, Bool.not_true, Bool.false_eq_true, if_false, Nat.add_sub_cancel_left, e]

/-! ### The registers of an error source (R365) -/

theorem sourcePlace_word {unit w : Nat} (hu : unit < 256) (hw : w < 8) :
    sourcePlace (0xF00000 + 32 * unit + 4 * w) = some (unit, w) := by
  unfold sourcePlace
  rw [if_pos (by omega)]
  congr 2 <;> omega

theorem getSource_of_none {i u : Nat} (h : sourceAt i u s.err.sources = none) : getSource i u s = freshSource i u := by
  simp [getSource, h]

/-- The registers of a source bear its island and unit. -/
theorem getSource_key (i u : Nat) (s : State) : (getSource i u s).island = i ∧ (getSource i u s).unit = u := by
  unfold getSource
  split
  · next n h =>
    obtain ⟨hn, hp, -⟩ := List.findIdx?_eq_some_iff_getElem.mp h
    rw [List.getD_eq_getElem _ _ hn]
    simpa using hp
  · exact ⟨rfl, rfl⟩

/-- The registers that are stored are read back. -/
theorem getSource_putSource (x : ErrorSource) (s : State) : getSource x.island x.unit (putSource x s) = x := by
  unfold getSource putSource
  simp only [updErr]
  cases h : sourceAt x.island x.unit s.err.sources with
  | none =>
    have n : sourceAt x.island x.unit (s.err.sources ++ [x]) = some s.err.sources.length := by
      unfold sourceAt posOf at h ⊢
      rw [List.findIdx?_append, h]
      simp
    simp [n]
  | some i =>
    obtain ⟨hi, -, first⟩ := List.findIdx?_eq_some_iff_getElem.mp h
    have n : sourceAt x.island x.unit (s.err.sources.set i x) = some i := by
      refine List.findIdx?_eq_some_iff_getElem.mpr ⟨by simpa using hi, by simp, fun j hj => ?_⟩
      rw [List.getElem_set_ne (Nat.ne_of_gt hj)]
      exact first j hj
    simp [n, hi]

/-- A write to a source's registers (R365): kept of a source that has reported, and of no effect on another. -/
theorem getSource_writeIsland {unit w : Nat} (hu : unit < 256) (hw : w < 8) (island : Nat) (v : BitVec 32) (s : State) :
    getSource island unit (writeIsland island (0xF00000 + 32 * unit + 4 * w) v s) = writeSource w v (getSource island unit s)
      ∨ getSource island unit (writeIsland island (0xF00000 + 32 * unit + 4 * w) v s) = freshSource island unit := by
  have key (x : ErrorSource) : (writeSource w v x).island = x.island ∧ (writeSource w v x).unit = x.unit := by
    unfold writeSource
    split
    · exact ⟨rfl, rfl⟩
    · split <;> exact ⟨rfl, rfl⟩
  obtain ⟨hi, hn⟩ := getSource_key island unit s
  obtain ⟨ki, kn⟩ := key (getSource island unit s)
  rw [hi] at ki
  rw [hn] at kn
  simp only [writeIsland, sourcePlace_word hu hw]
  split
  · have e := getSource_putSource (writeSource w v (getSource island unit s)) s
    rw [ki, kn] at e
    exact .inl e
  · next h =>
    refine .inr (getSource_of_none ?_)
    rw [sourceAt, posOf, List.findIdx?_eq_none_iff]
    simpa using h

theorem islandWord_source {unit w : Nat} (hu : unit < 256) (hw : w < 8) (island : Nat) (s : State) :
    islandWord s island (0xF00000 + 32 * unit + 4 * w) = some (sourceWord (getSource island unit s) w) := by
  simp only [islandWord, sourcePlace_word hu hw]

end Sys2Proof.Machine

open Sys2Proof Sys2Proof.Machine

/-- Settles O47: each access is the write or the read of its register while the Gatehouse serves, and Unsupported Request while it does
not; what the register then does is its own lemma. -/
theorem hostAccessesReachTheRegisters : Obligations.HostAccessesReachTheRegisters := by
  unfold Obligations.HostAccessesReachTheRegisters
  refine ⟨fun i off s link h => ⟨?_, ?_, ?_, ?_⟩, fun s h => ⟨?_, ?_, ?_, ?_, ?_, ?_, ?_, ?_, ?_, ?_⟩, fun island unit v s hu => ?_⟩
  · rintro v b rfl lt al
    rw [exec_registerWrite lt al, hostWrites_refused link h]
  · rintro bs rfl le
    rw [exec_apertureAccess le, if_pos rfl, hostWrites_refused link h]
  · rintro rfl
    exact congrArg Host.Outcome.next (hostWrites_refused link h)
  · rintro e rfl
    exact congrArg Host.Outcome.next (hostReads_refused link h)
  · intro off v b lt al
    refine ⟨exec_registerWrite_partial h lt al, fun c => ?_⟩
    rw [exec_registerWrite_full h lt al, writeBar0_uncovered c]
  · intro off m v hm
    obtain ⟨lt, al⟩ := stored_offset hm
    have full (w : BitVec 32) : exec (.registerWrite off w 0xF) s = .next (if off = 0x18
        then causeEdges s (putBits off m 0xFFFFFFFF w s) else putBits off m 0xFFFFFFFF w s) := by
      rw [exec_registerWrite_full h (by omega) al, writeBar0_ghs (by omega), writeGhs_stored hm]
    refine ⟨?_, fun b hb => ?_⟩
    · rw [full, putBits_full]
    · rw [full, exec_registerWrite_full h (by omega) (by omega), writeBar0_alias lt al hb, writeGhs_stored hm, putBits_bit _ _ hb]
  · intro v
    rw [exec_registerWrite_full h (by decide) (by decide), writeBar0_ghs (by decide), writeGhs_stat]
  · intro off bs le
    refine ⟨fun good => ?_, fun hb bad => ?_⟩
    · have covers : ∀ i, i < bs.length → apertureCovers s (apBase s + off + i) = true :=
        fun i hi => apertureCovers_iff.mpr ⟨(good i hi).1, (good i hi).2.1⟩
      refine ⟨⟨s.freeCount + bs.length, ?_⟩, _, exec_apertureRead h le, fun settled => ?_⟩
      · rw [exec_apertureWrite h le, apertureWrite_covered fun i hi => ⟨covers i hi, (good i hi).2.2⟩]
      · rw [getLast_emit, apertureRead_fst fun i hi _ => (good i hi).2.2]
        congr 2
        refine List.map_congr_left fun i hi => ?_
        have lt := List.mem_range.mp hi
        exact apertureByte_settled (covers i lt) (settled i lt)
    · have covers : ∀ i, i < bs.length → apertureCovers s (apBase s + off + i) = false :=
        fun i hi => apertureCovers_eq_false (bad i hi)
      refine ⟨⟨_, exec_apertureRead h le, ?_⟩, _, _, (exec_apertureWrite h le).trans ?_, rfl, rfl⟩
      · rw [getLast_emit, apertureRead_fst fun i hi c => absurd c (by simp [covers i hi])]
        congr 2
        refine List.eq_replicate_iff.mpr ⟨by simp, fun b hb => ?_⟩
        obtain ⟨i, hi, rfl⟩ := List.mem_map.mp hb
        exact apertureByte_uncovered (covers i (List.mem_range.mp hi))
      · rw [apertureWrite_uncovered hb covers]
  · exact congrArg Host.Outcome.next (hostReads_served h)
  · exact congrArg Host.Outcome.next (hostReads_served h)
  · obtain ⟨c, lo, hi, e⟩ := snapTime_eq s
    exact ⟨c, lo, hi, congrArg Host.Outcome.next ((hostWrites_served h).trans e)⟩
  · intro tail lt
    have e : exec (.errTailWrite tail) s = .next (moveErrTail tail s) := by
      show execErrTailWrite tail s = _
      simp only [execErrTailWrite, inRange, lt, decide_true, if_true, hostWrites_served h, done]
    rw [e, moveErrTail_eq lt]
    exact ⟨fun le => by rw [if_pos le], fun gt => by rw [if_neg (Nat.not_le_of_gt gt)]⟩
  · intro key island lt
    have num : (BitVec.ofNat 32 (island + 256)).toNat % 64 = island := by
      rw [BitVec.toNat_ofNat]
      omega
    have go : (BitVec.ofNat 32 (island + 256)).getLsbD 8 = true := by
      simp only [BitVec.getLsbD_ofNat, Nat.testBit_eq_decide_div_mod_eq, Bool.and_eq_true, decide_eq_true_eq]
      omega
    refine ⟨fun idle lo hi => ?_, fun idle out => ?_, fun busy => ?_, fun v stop => ?_, fun v => ?_⟩
    · rw [exec_islandResetGo h key, writeIslrst_full, reg_holdKey, if_neg (by simp [go]), if_neg (ne_true_of_eq_false idle), num, if_pos ⟨lo, hi⟩]
      rfl
    · rw [exec_islandResetGo h key, writeIslrst_full, reg_holdKey, if_neg (by simp [go]), if_neg (ne_true_of_eq_false idle), num, if_neg (by omega)]
      rfl
    · rw [exec_islandResetGo h key, writeIslrst_full, reg_holdKey, if_neg (by simp [go]), if_pos busy]
      rfl
    · rw [exec_islandResetGo h key, writeIslrst_full, reg_holdKey, if_pos stop]
      rfl
    · exact exec_deviceResetGo h key v
  · intro off v lt al
    simp only [exec_diagWrite h lt al, exec_diagRead h lt al, diagWrite_eq]
    refine ⟨fun disabled => ⟨by rw [if_pos (.inl disabled)], by rw [diagRead_disabled off disabled]⟩, fun on => ⟨fun p0 => ?_,
      fun fenced => ⟨by rw [diagRead_fenced off on fenced], fun p => ?_⟩,
      fun free => ⟨fun w e => by rw [diagRead_word on free e], fun e => ⟨_, rfl, by rw [diagRead_free on free e]⟩, fun p plain => ?_,
        fun p guard key => ?_, fun p guard locked => ?_⟩⟩⟩
    · rw [if_pos (.inr p0)]
    all_goals rw [if_neg (not_or.mpr ⟨ne_false_of_eq_true on, p⟩)]
    · rw [if_pos fenced]
    all_goals rw [if_neg (ne_true_of_eq_false free)]
    · rw [if_neg (ne_true_of_eq_false plain)]
    all_goals rw [if_pos guard]
    · rw [if_pos key]
      rfl
    · rw [if_neg (ne_true_of_eq_false locked)]
  · have w0 : 0xF00000 + 32 * unit = 0xF00000 + 32 * unit + 4 * 0 := rfl
    have w6 : 0xF00000 + 32 * unit + 24 = 0xF00000 + 32 * unit + 4 * 6 := rfl
    refine ⟨islandWord_source hu (w := 0) (by decide) island s, islandWord_source hu (w := 6) (by decide) island s,
      fun one => ?_, fun lt => ?_⟩
    · obtain e | e := getSource_writeIsland hu (w := 0) (by decide) island v s <;> rw [← w0] at e <;> rw [e]
      · simp [writeSource, one]
      · rfl
    · obtain e | e := getSource_writeIsland hu (w := 6) (by decide) island 0xFFFFFFFF s <;> rw [← w6] at e <;> rw [e]
      · simp [writeSource]
      · rfl
end

section
/-! What a partial reset leaves alone (R349, R368): the operations that end an island's work change neither the job of the fence nor the
queue of resets, no pin and, of the locks, only such as they break. -/

namespace Sys2Proof.Machine

/-- From `p` to `s` the fence, the queue of resets, the pins and the view `v` of the islands stand, and each lock stands or is broken. -/
structure Calm {α : Type} (v : Island → α) (p s : State) : Prop where
  fenced : s.fenced = p.fenced
  queue : s.resetQueue = p.resetQueue
  islands : s.islands.map v = p.islands.map v
  pins : s.pins = p.pins
  locks : ∀ (n : Nat) (x : Lock), p.locks[n]? = some x → s.locks[n]? = some x ∨ s.locks[n]? = some brokenLock

section
variable {α : Type} {v : Island → α} {p s t : State}

theorem Calm.refl (v : Island → α) (s : State) : Calm v s s := ⟨rfl, rfl, rfl, rfl, fun _ _ h => .inl h⟩

/-- A change of other parts of the state. -/
theorem Calm.still (h : Calm v p s)
    (e : (t.fenced, t.resetQueue, t.islands, t.pins, t.locks) = (s.fenced, s.resetQueue, s.islands, s.pins, s.locks)) : Calm v p t := by
  simp only [Prod.mk.injEq] at e
  obtain ⟨hf, hq, hi, hp, hl⟩ := e
  exact ⟨hf.trans h.fenced, hq.trans h.queue, hi ▸ h.islands, hp.trans h.pins, hl ▸ h.locks⟩

theorem Calm.log (h : Calm v p s) (k : LogFrame s t) : Calm v p t := by
  rw [k]
  exact h.still (by rfl)

/-- Locks that hold a predicate are broken. -/
theorem Calm.break (h : Calm v p s) (q : Lock → Bool) :
    Calm v p { s with locks := s.locks.map fun x => if q x then brokenLock else x } where
  fenced := h.fenced
  queue := h.queue
  islands := h.islands
  pins := h.pins
  locks n x hx := by
    have e (y : Lock) : (if q y then brokenLock else y) = y ∨ (if q y then brokenLock else y) = brokenLock := by
      cases q y
      · exact .inl rfl
      · exact .inr rfl
    show (s.locks.map _)[n]? = _ ∨ (s.locks.map _)[n]? = _
    rw [List.getElem?_map]
    obtain k | k := h.locks n x hx <;> rw [k]
    · exact (e x).imp (congrArg some) (congrArg some)
    · exact .inr (congrArg some ((e brokenLock).elim id id))

theorem calm_ite {c : Prop} [Decidable c] {a b : State} (ha : Calm v p a) (hb : Calm v p b) : Calm v p (if c then a else b) := by
  split
  · exact ha
  · exact hb

theorem calm_foldl {β : Type} {f : State → β → State} {l : List β} (h : Calm v p s)
    (hf : ∀ s x, Calm v p s → Calm v p (f s x)) : Calm v p (l.foldl f s) := by
  induction l generalizing s with
  | nil => exact h
  | cons x l ih => exact ih (hf s x h)

theorem logErr_calm {st i u : Nat} {a : LogArgs} (h : Calm v p s) : Calm v p (logErr st i u s a) := h.log (logErr_frame ..)

/-! ### Memory (R305 to R315) -/

theorem emitPin_calm {o : Out} (h : Calm v p s) : Calm v p (emitPin o s) := calm_ite h (h.still (by rfl))

theorem saveLedger_calm (h : Calm v p s) : Calm v p (saveLedger s) := emitPin_calm (h.still (by rfl))

theorem noteCause_calm {as : List Nat} (h : Calm v p s) : Calm v p (noteCause as s) := calm_ite h (h.still (by rfl))

theorem presentWrite_calm {c : Nat} {r : DramReq} (h : Calm v p s) : Calm v p (presentWrite c r s) := by
  unfold presentWrite
  split
  · exact h
  · exact calm_ite (h.still (by rfl)) (h.still (by rfl))

theorem presentRead_calm {c : Nat} {r : DramReq} (h : Calm v p s) : Calm v p (presentRead c r s) := by
  unfold presentRead
  split
  · exact h
  · exact calm_ite h (h.still (by rfl))

theorem countCorrection_calm {a : Nat} (h : Calm v p s) : Calm v p (countCorrection a s) := by
  unfold countCorrection
  refine calm_ite h ?_
  extract_lets b
  split
  exact calm_ite (logErr_calm (saveLedger_calm (h.still (by rfl)))) (h.still (by rfl))

theorem correctWord_calm {w : Nat} (h : Calm v p s) : Calm v p (correctWord w s) := countCorrection_calm (logErr_calm (h.still (by rfl)))

theorem noteWord_calm {w : Nat} (h : Calm v p s) : Calm v p (noteWord w s) :=
  calm_ite (logErr_calm h) (calm_ite (correctWord_calm h) h)

theorem evictLine_calm {c : Nat} {k : ReqClass} {w : CacheWay} (h : Calm v p s) : Calm v p (evictLine c k w s) := by
  have met (l : List Nat) : Calm v p (l.foldl (fun s x => noteWord x s) s) := calm_foldl h fun _ _ h => noteWord_calm h
  unfold evictLine
  refine calm_ite h ?_
  extract_lets ws bad m t
  have hm : Calm v p m := calm_ite (met _) h
  exact calm_ite (presentWrite_calm (hm.still (by rfl))) (hm.still (by rfl))

theorem allocateLine_calm {a : LineAccess} (h : Calm v p s) : Calm v p (allocateLine a s) := by
  unfold allocateLine
  extract_lets -merge -underBinder +onlyGivenNames x i full mark u w
  have hu : Calm v p u := by
    unfold u
    split
    · exact evictLine_calm h
    · exact h
  have hw : Calm v p w := calm_ite hu (presentRead_calm hu)
  exact hw.still (by rfl)

theorem accessLine_calm {a : LineAccess} (h : Calm v p s) : Calm v p (accessLine a s) := by
  unfold accessLine
  extract_lets x
  split
  · exact h.still (by rfl)
  · exact calm_ite (calm_ite (presentWrite_calm h) (presentRead_calm h)) (allocateLine_calm h)

theorem unitLine_calm {a : LineAccess} (h : Calm v p s) : Calm v p (unitLine a s) := by
  unfold unitLine
  split
  · exact (accessLine_calm h).still (by rfl)
  · exact accessLine_calm h

theorem clearDeferred_calm {a : Nat} (h : Calm v p s) : Calm v p (clearDeferred a s) := by
  unfold clearDeferred
  split
  · exact h
  · exact calm_ite (h.still (by rfl)) (h.still (by rfl))

theorem settleWord_calm {cs : List Cell} {w : Nat} (h : Calm v p s) : Calm v p (settleWord cs w s) := by
  unfold settleWord
  extract_lets here full marked
  split
  exact calm_ite (h.still (by rfl)) (calm_ite (logErr_calm (h.still (by rfl))) (calm_ite (correctWord_calm (calm_ite (h.still (by rfl)) h)) (calm_ite (h.still (by rfl)) h)))

theorem settleLine_calm {k : ReqClass} {cs : List Cell} {l : Nat} (h : Calm v p s) : Calm v p (settleLine k cs l s) := by
  unfold settleLine
  split
  · exact h
  · exact unitLine_calm ((calm_foldl h fun _ _ h => noteWord_calm h).still (by rfl))

theorem writePhys_calm {k : ReqClass} {cs : List Cell} (h : Calm v p s) : Calm v p (writePhys k cs s) :=
  calm_foldl (calm_foldl (noteCause_calm (calm_foldl (h.still (by rfl)) fun _ _ h => clearDeferred_calm h)) fun _ _ h => settleWord_calm h)
    fun _ _ h => settleLine_calm h

theorem unitRead_calm {k : ReqClass} {a n : Nat} (h : Calm v p s) : Calm v p (unitRead k a n s) := by
  unfold unitRead
  refine calm_ite h ?_
  extract_lets -merge -underBinder +onlyGivenNames words lines u w
  have hu : Calm v p u := calm_foldl h fun s l h => by
    split
    · exact unitLine_calm h
    · exact h
  have hw : Calm v p w := by
    unfold w
    split
    · exact hu.still (by rfl)
    · exact hu
  exact calm_foldl hw fun _ _ h => noteWord_calm h

theorem microFill_calm {g : Nat} {e : TlbEntry} (h : Calm v p s) : Calm v p (microFill g e s) := calm_ite h (h.still (by rfl))

theorem tlbFill_calm {g n : Nat} (h : Calm v p s) : Calm v p (tlbFill g n s) := by
  unfold tlbFill
  refine calm_ite h ?_
  split
  · exact microFill_calm h
  · extract_lets t
    have ht : Calm v p t := calm_foldl h fun _ _ h => unitRead_calm h
    split
    · exact ht
    · exact microFill_calm (ht.still (by rfl))

theorem writeHost_calm {cs : List Cell} (h : Calm v p s) : Calm v p (writeHost cs s) :=
  calm_ite h (calm_ite (logErr_calm h) (calm_foldl (h.still (by rfl)) fun _ _ h => calm_ite (h.still (by rfl)) h))

theorem usePages_calm {as : List Nat} (h : Calm v p s) : Calm v p (usePages as s) := calm_foldl h fun _ _ h => h.still (by rfl)

theorem writeOp_calm {a : Nat} {cs : List Cell} (h : Calm v p s) : Calm v p (writeOp a cs s) := by
  unfold writeOp
  extract_lets -merge -underBinder +onlyGivenNames u phys host toks w x
  have hu : Calm v p u := usePages_calm (calm_foldl h fun _ _ h => tlbFill_calm h)
  have hw : Calm v p w := calm_foldl hu fun s c h => by
    split
    · exact h.still (by rfl)
    · exact h
  have hx : Calm v p x := calm_foldl hw fun _ _ h => settleLine_calm h
  exact writeHost_calm (writePhys_calm hx)

theorem markDeferred_calm {as : List Nat} {m st : Nat} (h : Calm v p s) : Calm v p (markDeferred as m st s) :=
  calm_ite h ((calm_foldl h fun _ _ h => clearDeferred_calm h).still (by rfl))

/-! ### Cells (R338 to R342) -/

theorem setCount_calm {i n : Nat} (h : Calm v p s) : Calm v p (setCount i n s) := writePhys_calm h

theorem writeBack_calm {q : Nat} (h : Calm v p s) : Calm v p (writeBack q s) := by
  unfold writeBack
  split
  · exact h
  · exact calm_ite ((writePhys_calm h).still (by rfl)) h

theorem releaseOp_calm {i : Nat} (h : Calm v p s) : Calm v p (releaseOp i s) := by
  have hn : Calm v p (noteCell i s) := unitRead_calm h
  exact calm_ite hn (calm_ite (writeBack_calm ((unitRead_calm (setCount_calm hn)).still (by rfl))) (setCount_calm hn))

theorem releaseChainOp_calm {n i : Nat} (h : Calm v p s) : Calm v p (releaseChainOp n i s) := by
  induction n generalizing i s with
  | zero => exact h
  | succ n ih => exact calm_ite (ih (releaseOp_calm h)) (releaseOp_calm h)

theorem freeChain_calm {i : Nat} (h : Calm v p s) : Calm v p (freeChain i s) := calm_ite h (releaseChainOp_calm h)

theorem rebuildRing_calm {q : Nat} (h : Calm v p s) : Calm v p (rebuildRing q s) := by
  unfold rebuildRing
  split
  · exact h
  · exact (writePhys_calm h).still (by rfl)

/-! ### Batches and their frames (R87, R255 to R257, R289, R292) -/

theorem failTraining_calm (h : Calm v p s) : Calm v p (failTraining s) := by
  unfold failTraining
  split
  · exact h
  · exact h.still (by rfl)

theorem tearDown_calm {b n st : Nat} {blame : Option Nat} (h : Calm v p s) : Calm v p (tearDown b n st blame s) := by
  unfold tearDown
  split
  · exact h
  · refine calm_ite h ?_
    extract_lets -merge -underBinder +onlyGivenNames t u w
    have hu : Calm v p u := Calm.break (s := t) (h.still (by rfl)) _
    have hw : Calm v p w := calm_ite (failTraining_calm hu) hu
    exact calm_foldl hw fun _ _ h => h.still (by rfl)

theorem jobFault_calm {k st a : Nat} {c : Option (Nat × Nat)} {blame : Option Nat} (h : Calm v p s) :
    Calm v p (jobFault k c st a blame s) := by
  unfold jobFault
  extract_lets -merge -underBinder +onlyGivenNames b t
  have ht : Calm v p t := logErr_calm h
  split
  · exact tearDown_calm ht
  · exact ht

theorem tearAll_calm {st : Nat} (h : Calm v p s) : Calm v p (tearAll st s) := calm_foldl h fun _ _ h => tearDown_calm h

theorem addToken_calm {k n : Nat} {c : Option (Nat × Nat)} (h : Calm v p s) : Calm v p (addToken k n c s) :=
  calm_ite (h.still (by rfl)) (jobFault_calm (h.still (by rfl)))

theorem countFault_calm {n : Nat} {b : Bool} (h : Calm v p s) : Calm v p (countFault n b s) := by
  unfold countFault
  split
  · exact h
  · refine calm_ite (h.still (by rfl)) (calm_ite (h.still (by rfl)) ?_)
    extract_lets t u
    have ht : Calm v p t := h.still (by rfl)
    have hu : Calm v p u := calm_ite ht (ht.still (by rfl))
    exact hu.still (by rfl)

theorem endBatch_calm {b n : Nat} (h : Calm v p s) : Calm v p (endBatch b n s) := by
  unfold endBatch
  split
  · exact h
  · exact (calm_foldl h fun _ _ h => calm_ite h (countFault_calm h)).still (by rfl)

theorem stampFrames_calm {b n i : Nat} (h : Calm v p s) : Calm v p (stampFrames b n i s) := by
  unfold stampFrames
  split
  · exact calm_foldl h fun _ _ h => h.still (by rfl)
  · exact h

theorem finishBatch_calm {b n : Nat} (h : Calm v p s) : Calm v p (finishBatch b n s) := by
  unfold finishBatch
  extract_lets -merge -underBinder +onlyGivenNames t
  have ht : Calm v p t := by
    unfold t
    split
    · exact calm_foldl h fun _ _ h => h.still (by rfl)
    · exact h
  exact endBatch_calm (stampFrames_calm (ht.still (by rfl)))

theorem finishBatches_calm (h : Calm v p s) : Calm v p (finishBatches s) :=
  calm_foldl h fun _ _ h => calm_ite (finishBatch_calm h) h

theorem checkFill_calm {b n : Nat} (h : Calm v p s) : Calm v p (checkFill b n s) := by
  unfold checkFill
  split
  · exact h
  · refine calm_ite ?_ h
    extract_lets t
    have ht : Calm v p t := calm_foldl h fun _ _ h => h.still (by rfl)
    exact addToken_calm (ht.still (by rfl))

theorem finishCmd_calm {q c st r : Nat} {b : Bool} (h : Calm v p s) : Calm v p (finishCmd q c st r b s) := by
  unfold finishCmd
  split
  · exact h.still (by rfl)
  · exact h

/-! ### The units of the front end (R203, R214, R241, R255) -/

theorem numberFrame_calm {n i : Nat} (h : Calm v p s) : Calm v p (numberFrame n i s) := by
  unfold numberFrame
  split
  · exact calm_ite h (h.still (by rfl))
  · exact h

theorem freeFrame_calm {n i : Nat} (h : Calm v p s) : Calm v p (freeFrame n i s) := by
  unfold freeFrame
  split
  · exact (freeChain_calm h).still (by rfl)
  · exact h

theorem endClip_calm {i st : Nat} (h : Calm v p s) : Calm v p (endClip i st s) := by
  unfold endClip
  split
  · exact h
  · extract_lets -merge -underBinder +onlyGivenNames t u
    have ht : Calm v p t := calm_foldl h fun _ _ h => freeChain_calm h
    have hu : Calm v p u := ht.still (by rfl)
    split
    · exact finishCmd_calm (hu.still (by rfl))
    · exact hu

theorem endPicture_calm {n i : Nat} (h : Calm v p s) : Calm v p (endPicture n i s) := numberFrame_calm (freeFrame_calm (h.still (by rfl)))

theorem abortPicture_calm {k st : Nat} (h : Calm v p s) : Calm v p (abortPicture k st s) := by
  unfold abortPicture
  extract_lets t
  have ht : Calm v p t := h.still (by rfl)
  split
  · exact h
  · exact endPicture_calm (ht.still (by rfl))
  · exact endClip_calm ht

theorem resetFountain_calm {k : Nat} (h : Calm v p s) : Calm v p (resetFountain k s) := (abortPicture_calm h).still (by rfl)

theorem damageFrame_calm {n st : Nat} {c : CaptureFrame} (h : Calm v p s) : Calm v p (damageFrame n st c s) := by
  unfold damageFrame
  split
  · exact h
  · exact numberFrame_calm (h.still (by rfl))

theorem dropSync_calm {k n : Nat} (h : Calm v p s) : Calm v p (dropSync k n s) := by
  unfold dropSync
  split
  · exact h
  · split
    · exact calm_ite h (damageFrame_calm ((freeChain_calm h).still (by rfl)))
    · exact h

theorem resetSensors_calm (h : Calm v p s) : Calm v p (resetSensors s) :=
  calm_foldl h fun _ _ h => calm_foldl h fun _ _ h => dropSync_calm h

theorem maskSlots_calm {b n i k : Nat} (h : Calm v p s) : Calm v p (maskSlots b n i k s) :=
  checkFill_calm (calm_foldl h fun _ _ h => (h.still (by rfl)))

theorem freeTopiary_calm {k : Nat} (h : Calm v p s) : Calm v p (freeTopiary k s) := h.still (by rfl)

theorem failFrame_calm {k n r st : Nat} {f : Frame} (h : Calm v p s) : Calm v p (failFrame k n f r st s) := by
  unfold failFrame
  extract_lets -merge -underBinder +onlyGivenNames t
  have ht : Calm v p t := by
    unfold t
    split
    · exact maskSlots_calm h
    · exact h
  exact freeTopiary_calm (freeFrame_calm (ht.still (by rfl)))

theorem resetTopiary_calm {k : Nat} (h : Calm v p s) : Calm v p (resetTopiary k s) := by
  unfold resetTopiary
  split
  · exact h
  · refine (calm_foldl h fun s j h => ?_).still (by rfl)
    split
    · exact failFrame_calm h
    · exact h

/-! ### Links (R446, R460, R467) -/

theorem updTrellis_calm {f : Trellis → Trellis} (h : Calm v p s) : Calm v p (updTrellis f s) := h.still (by rfl)

theorem enqueueMessage_calm {k d q c : Nat} {bs : List Byte} (h : Calm v p s) : Calm v p (enqueueMessage k d q c bs s) := h.still (by rfl)

theorem startRelay_calm {d : Nat} (h : Calm v p s) : Calm v p (startRelay d s) := calm_ite h (logErr_calm (h.still (by rfl)))

theorem sendByRelay_calm {d c : Nat} {bs : List Byte} (h : Calm v p s) : Calm v p (sendByRelay d c bs s) := by
  unfold sendByRelay
  extract_lets keep
  split
  · exact updTrellis_calm (enqueueMessage_calm (updTrellis_calm (startRelay_calm h)))
  · exact h.still (by rfl)

theorem routeMessage_calm {d c : Nat} {bs : List Byte} (h : Calm v p s) : Calm v p (routeMessage d c bs s) := by
  unfold routeMessage
  split
  · exact calm_ite (h.still (by rfl)) (sendByRelay_calm h)
  · exact h

theorem sendMessage_calm {d c k : Nat} {bs : List Byte} (h : Calm v p s) : Calm v p (sendMessage d c k bs s) :=
  calm_ite (routeMessage_calm (h.still (by rfl))) h

theorem sendPeerState_calm {b : Bool} (h : Calm v p s) : Calm v p (sendPeerState b s) := by
  unfold sendPeerState
  extract_lets -merge -underBinder +onlyGivenNames t u
  have hu : Calm v p u := calm_foldl (h.still (by rfl)) fun s k h => by
    split
    · exact calm_ite (h.still (by rfl)) h
    · exact h
  refine calm_foldl hu fun s k h => ?_
  split
  · exact calm_ite h (sendMessage_calm h)
  · exact h

theorem resendMessage_calm {m : SentMsg} (h : Calm v p s) : Calm v p (resendMessage m s) := by
  unfold resendMessage
  extract_lets src
  split
  · split
    · exact calm_ite (h.still (by rfl)) (sendMessage_calm (h.still (by rfl)))
    · exact h
  · split
    exact routeMessage_calm h

theorem unloadLink_calm {k : Nat} (h : Calm v p s) : Calm v p (unloadLink k s).2 := by
  unfold unloadLink
  split
  · exact h.still (by rfl)
  · exact h

theorem resendMessages_calm {k : Nat} (h : Calm v p s) : Calm v p (resendMessages k s) :=
  calm_foldl (unloadLink_calm h) fun _ _ h => resendMessage_calm h

theorem setLinkState_calm {k : Nat} {f : Link → Link} (h : Calm v p s) : Calm v p (setLinkState k f s) := sendPeerState_calm (h.still (by rfl))

theorem linkDown_calm {k : Nat} (h : Calm v p s) : Calm v p (linkDown k s) := resendMessages_calm (setLinkState_calm h)

theorem fenceLink_calm {k st : Nat} (h : Calm v p s) : Calm v p (fenceLink k st s) :=
  resendMessages_calm (setLinkState_calm (logErr_calm h))

/-! ### The reset of one island (R368 to R371) -/

theorem crossFault_calm {i k : Nat} (h : Calm v p s) : Calm v p (crossFault i k s) := by
  unfold crossFault
  split
  · exact h
  · refine calm_ite h (calm_ite (h.still (by rfl)) ?_)
    extract_lets st d dst
    have wrote (cs : List Cell) (t : State) (ht : Calm v p t) (c : Bool) : Calm v p (if c then freeNat s |>.2 else writeOp d.dst cs t) :=
      calm_ite (h.still (by rfl)) (writeOp_calm ht)
    exact calm_ite (jobFault_calm (wrote _ _ (h.still (by rfl)) _)) (markDeferred_calm (wrote _ _ (h.still (by rfl)) _))

theorem faultLane_calm {k : Nat} (h : Calm v p s) : Calm v p (faultLane k s) := by
  unfold faultLane
  split
  · exact h
  · extract_lets -merge -underBinder +onlyGivenNames t
    have ht : Calm v p t := by
      unfold t
      split
      · exact (jobFault_calm h).still (by rfl)
      · exact h
    exact ht.still (by rfl)

theorem drainFault_calm {k : Nat} (h : Calm v p s) : Calm v p (drainFault k s) := by
  unfold drainFault
  split
  · exact calm_ite (jobFault_calm h) h
  · exact h

theorem renewStore_calm {b n : Nat} (h : Calm v p s) : Calm v p (renewStore b n s) := by
  have ht : Calm v p (freeBytes n s).2 := h.still (by rfl)
  exact (calm_foldl ht fun _ _ h => clearDeferred_calm h).still (by rfl)

theorem resetLink_calm {k : Nat} (h : Calm v p s) : Calm v p (resetLink k s) := by
  unfold resetLink
  split
  · exact calm_ite h (linkDown_calm h)
  · exact h

theorem endLostReads_calm (h : Calm v p s) : Calm v p (endLostReads s) :=
  calm_foldl (h.still (by rfl)) fun s r h => by
    split
    rename_i e
    split at e <;> cases e <;> exact h.still (by rfl)

theorem endWaits_calm (h : Calm v p s) : Calm v p (endWaits s) := calm_foldl (h.still (by rfl)) fun _ _ h => h.still (by rfl)

/-- What ends an island's work (R371): only the self-refresh of a channel may go on to fence its island for good. -/
theorem clearIsland_calm {i : Nat} (h : Calm v p s)
    (hs : ∀ t, 40 ≤ i → Calm v p t → Calm v p (selfRefresh (i - 40) t)) : Calm v p (clearIsland i s) := by
  have tables (t : State) (ht : Calm v p t) : Calm v p { tlbClear t with pools := t.pools.map fun p => { p with head := [], tail := [] } } :=
    (ht.still (by rfl))
  unfold clearIsland
  refine calm_ite (endLostReads_calm h) (calm_ite (h.still (by rfl)) (calm_ite (resetSensors_calm h) (calm_ite (resetFountain_calm h)
    (calm_ite (resetTopiary_calm h) (calm_ite (renewStore_calm (h.still (by rfl))) (calm_ite (renewStore_calm h) (calm_ite (tearAll_calm h)
      (calm_ite ?_ ?_))))))))
  · exact logErr_calm (tables _ (endWaits_calm ((tearAll_calm h).break _)))
  · split
    · next k => exact hs s k.1 h
    · exact calm_ite (resetLink_calm h) h

end

/-! ### What stands of an island -/

/-- What an island's service rests on: the units in their safe state, and whether it stays fenced until the next boot. -/
def Island.service (x : Island) : List Nat × Bool := (x.safe, x.bootFenced)

/-- That an island is there. -/
def Island.present (_ : Island) : Unit := ()

section
variable {α : Type} {v : Island → α} {p s t : State}

theorem Calm.trans {u : State} (h : Calm v s t) (k : Calm v t u) : Calm v s u where
  fenced := k.fenced.trans h.fenced
  queue := k.queue.trans h.queue
  islands := k.islands.trans h.islands
  pins := k.pins.trans h.pins
  locks n x hx := (h.locks n x hx).elim (k.locks n x) fun b => .inr ((k.locks n _ b).elim id id)

/-- The view of one island stands. -/
theorem Calm.island (h : Calm v p s) (n : Nat) : (s.islands[n]?).map v = (p.islands[n]?).map v := by
  rw [← List.getElem?_map, ← List.getElem?_map, h.islands]

theorem updIsland_at (n : Nat) (f : Island → Island) (s : State) : (updIsland n f s).islands[n]? = (s.islands[n]?).map f :=
  List.getElem?_modify_eq ..

theorem updIsland_calm {n : Nat} {f : Island → Island} (hf : ∀ x, v (f x) = v x) (h : Calm v p s) : Calm v p (updIsland n f s) where
  fenced := h.fenced
  queue := h.queue
  islands := by
    rw [← h.islands]
    refine List.ext_getElem? fun i => ?_
    rw [List.getElem?_map, List.getElem?_map, updIsland_islands, upd, List.getElem?_modify]
    cases s.islands[i]? with
    | none => rfl
    | some x =>
      refine congrArg some ?_
      show v (if n = i then f x else x) = v x
      split
      · exact hf x
      · rfl
  pins := h.pins
  locks := h.locks

theorem startTraining_calm {k : Nat} (h : Calm Island.service p s) : Calm Island.service p (startTraining k s) :=
  setLinkState_calm (updIsland_calm (fun x => by split <;> rfl) h)

theorem restoreIsland_calm {i : Nat} (h : Calm Island.service p s) : Calm Island.service p (restoreIsland i s) := by
  unfold restoreIsland
  refine calm_ite (calm_foldl h fun _ _ h => rebuildRing_calm h) (calm_ite (h.still (by rfl)) (calm_ite (h.still (by rfl)) (calm_ite ?_ h)))
  split
  · exact calm_ite (startTraining_calm h) h
  · exact h

/-- Beside its mark, fencing an island for good leaves every island as it is. -/
theorem fenceForGood_calm_marked (v : Island → α) (i : Nat) (s : State) :
    Calm v (updIsland i (fun x => { x with bootFenced := true, safe := [] }) s) (fenceForGood i s) := by
  unfold fenceForGood
  extract_lets -merge -underBinder +onlyGivenNames t u w
  have ht : Calm v t t := .refl v t
  have hu : Calm v t u := calm_ite (logErr_calm (ht.still (by rfl))) ht
  have hw : Calm v t w := calm_ite (fenceLink_calm hu) hu
  exact saveLedger_calm (hw.still (by rfl))

theorem fenceForGood_calm {i : Nat} (h : Calm Island.present p s) : Calm Island.present p (fenceForGood i s) := by
  refine Calm.trans ?_ (fenceForGood_calm_marked Island.present i s)
  exact updIsland_calm (fun _ => rfl) h

theorem selfRefresh_calm {k : Nat} (h : Calm Island.present p s) : Calm Island.present p (selfRefresh k s) :=
  calm_ite (fenceForGood_calm (h.still (by rfl))) (h.still (by rfl))

/-- The island whose self-test failed is marked, and the ledger records it (R368). -/
theorem fenceForGood_bootFenced {i : Nat} {y : Island} (h : s.islands[i]? = some y) :
    ((fenceForGood i s).islands[i]?).map (·.bootFenced) = some true := by
  rw [(fenceForGood_calm_marked (·.bootFenced) i s).island i, updIsland_at, h]
  rfl

theorem mem_setAdd_self (k : Nat) (l : List Nat) : k ∈ setAdd k l := by
  induction l with
  | nil => exact List.mem_singleton_self k
  | cons a l ih =>
    unfold setAdd
    split
    · next e => exact e ▸ List.mem_cons_self ..
    · split
      · exact List.mem_cons_self ..
      · exact List.mem_cons_of_mem _ ih

theorem writeCopy_failedTests (p : Power) : (writeCopy p).ledger.failedTests = p.ledger.failedTests := by
  unfold writeCopy
  extract_lets l older
  split <;> rfl

theorem flashWrite_power (a n : Nat) (s : State) : (flashWrite a n s).power = s.power := by
  unfold flashWrite emitPin
  split <;> rfl

theorem saveLedger_failedTests (s : State) : (saveLedger s).power.ledger.failedTests = s.power.ledger.failedTests := by
  rw [saveLedger, flashWrite_power]
  exact writeCopy_failedTests s.power

theorem fenceForGood_failedTests (i : Nat) (s : State) : i ∈ (fenceForGood i s).power.ledger.failedTests := by
  unfold fenceForGood
  extract_lets -merge -underBinder +onlyGivenNames t u w
  rw [saveLedger_failedTests]
  exact mem_setAdd_self ..

/-! ### The beginning of a reset (R349, R368) -/

/-- A reset begins with what the fence ends, then breaks the island's locks, then ends its work. -/
theorem beginReset_steps (v : Island → α) (j : ResetJob) (s : State)
    (hs : ∀ p t, 40 ≤ j.island → Calm v p t → Calm v p (selfRefresh (j.island - 40) t)) :
    ∃ u w, Calm v s u ∧ Calm v (breakLocks j.island { u with fenced := some j }) w
      ∧ beginReset j s = updIsland j.island (fun x => { x with ready := false, agree := 0, missed := 0 }) w := by
  have crossed : Calm v s (moverLanes.foldl (fun s k => crossFault j.island k s) s) :=
    calm_foldl (.refl v s) fun _ _ h => crossFault_calm h
  have ended (t : State) : Calm v t (clearIsland j.island
      ((drainedLanes j.island).foldl (fun s k => drainFault k s) ((islandLanes j.island).foldl (fun s k => faultLane k s) t))) :=
    clearIsland_calm (calm_foldl (calm_foldl (.refl v t) fun _ _ h => faultLane_calm h) fun _ _ h => drainFault_calm h) (hs t)
  exact ⟨_, _, crossed, ended _, rfl⟩

theorem beginReset_begun (j : ResetJob) (s : State) :
    (beginReset j s).fenced = some j ∧ (beginReset j s).resetQueue = s.resetQueue
      ∧ ((beginReset j s).islands[j.island]?).map (·.ready) = (s.islands[j.island]?).map fun _ => false := by
  obtain ⟨u, w, hu, hw, e⟩ := beginReset_steps Island.present j s fun _ _ _ => selfRefresh_calm
  refine ⟨by rw [e]; exact hw.fenced, by rw [e]; exact hw.queue.trans hu.queue, ?_⟩
  have k : (w.islands[j.island]?).map Island.present = (s.islands[j.island]?).map Island.present :=
    (hw.island j.island).trans (hu.island j.island)
  rw [e, updIsland_at, Option.map_map]
  simpa [Option.map_map, Function.comp_def] using congrArg (Option.map fun _ => false) k

/-- The locks of a reset island are freed with BROKEN set (R349). -/
theorem beginReset_locks {j : ResetJob} {s : State} {n : Nat} {x : Lock} (h : s.locks[n]? = some x) (held : x.held = true)
    (own : ownerIsland x.owner = j.island) : (beginReset j s).locks[n]? = some brokenLock := by
  obtain ⟨u, w, hu, hw, e⟩ := beginReset_steps Island.present j s fun _ _ _ => selfRefresh_calm
  have broken : (breakLocks j.island { u with fenced := some j }).locks[n]? = some brokenLock := by
    show (u.locks.map _)[n]? = _
    rw [List.getElem?_map]
    obtain k | k := hu.locks n x h <;> rw [k]
    · simp [held, own]
    · rfl
  rw [e]
  exact (hw.locks n _ broken).elim id id

/-- The reset of an island below the DRAM controllers leaves the safe states of its units to the unfence (R363). -/
theorem beginReset_safe {j : ResetJob} (lt : j.island < 40) (s : State) :
    ((beginReset j s).islands[j.island]?).map (·.safe) = (s.islands[j.island]?).map (·.safe) := by
  obtain ⟨u, w, hu, hw, e⟩ := beginReset_steps (·.safe) j s fun _ _ ge => absurd lt (Nat.not_lt_of_ge ge)
  rw [e, updIsland_at, Option.map_map]
  exact (hw.island j.island).trans (hu.island j.island)

end

/-! ### Requests (R363, R368, R372) -/

section
variable {s t : State}

theorem LogFrame.power (h : LogFrame s t) : t.power = s.power := by rw [h]
theorem LogFrame.band (h : LogFrame s t) : t.band = s.band := by rw [h]
theorem LogFrame.islands (h : LogFrame s t) : t.islands = s.islands := by rw [h]
theorem LogFrame.pins (h : LogFrame s t) : t.pins = s.pins := by rw [h]
theorem LogFrame.fenced (h : LogFrame s t) : t.fenced = s.fenced := by rw [h]
theorem LogFrame.resetQueue (h : LogFrame s t) : t.resetQueue = s.resetQueue := by rw [h]

/-- An inserted element stands behind those that it does not come before, and before the first that it comes before. -/
theorem insertBy_split {α : Type} (lt : α → α → Bool) (a : α) : ∀ l : List α, ∃ l₁ l₂, l = l₁ ++ l₂ ∧ insertBy lt a l = l₁ ++ a :: l₂
    ∧ (∀ x ∈ l₁, lt a x = false) ∧ ∀ x, l₂.head? = some x → lt a x = true
  | [] => ⟨[], [], rfl, rfl, by simp⟩
  | b :: l => by
    unfold insertBy
    split
    · next h => exact ⟨[], b :: l, rfl, rfl, by simpa using h⟩
    · next h =>
      obtain ⟨l₁, l₂, e, k, before, after⟩ := insertBy_split lt a l
      refine ⟨b :: l₁, l₂, congrArg (b :: ·) e, congrArg (b :: ·) k, fun x hx => ?_, after⟩
      obtain rfl | hx := List.mem_cons.mp hx
      · exact Bool.eq_false_iff.mpr h
      · exact before x hx

/-- No reset of the island is under way or waits, and none by name of a command. -/
theorem reset_unknown {island : Nat} {l : List ResetJob} (cmd : Option (Nat × Nat)) (h : ∀ j ∈ l, j.island ≠ island) :
    (l.any fun k => k.island == island && cmd.isNone) = false :=
  List.any_eq_false.mpr fun j hj => by simp [h j hj]

/-- A reset begins at once when none is fenced (R368). -/
theorem requestReset_begins {island cause : Nat} {cmd : Option (Nat × Nat)} (lo : 1 ≤ island) (hi : island ≤ 60)
    (known : ((s.fenced.toList ++ s.resetQueue ++ s.power.update.waitingReset).any fun k => k.island == island && cmd.isNone) = false)
    (sw : s.power.update.switching = none) (free : s.fenced = none) :
    requestReset island cause cmd s = beginReset { island := island, cause := cause, since := steadyNs s, cmd := cmd } s := by
  have can : canReset island = true := decide_eq_true ⟨lo, hi⟩
  simp only [requestReset, can, known, sw]
  simp [free]

/-- The order in which resets wait: of time, then of island (R372). -/
def resetBefore (a b : ResetJob) : Bool := decide (a.since < b.since) || (a.since == b.since && decide (a.island < b.island))

theorem resetBefore_iff (a b : ResetJob) :
    resetBefore a b = true ↔ a.since < b.since ∨ (a.since = b.since ∧ a.island < b.island) := by
  simp [resetBefore]

/-- A reset waits while another is under way, in order of time and island (R372). -/
theorem requestReset_waits {island cause : Nat} {k : ResetJob} (lo : 1 ≤ island) (hi : island ≤ 60)
    (known : ∀ j ∈ s.fenced.toList ++ s.resetQueue ++ s.power.update.waitingReset, j.island ≠ island)
    (sw : s.power.update.switching = none) (busy : s.fenced = some k) :
    requestReset island cause none s = { s with
      resetQueue := insertBy resetBefore { island := island, cause := cause, since := steadyNs s, cmd := none } s.resetQueue } := by
  have can : canReset island = true := decide_eq_true ⟨lo, hi⟩
  simp only [requestReset, can, reset_unknown none known, sw]
  simp only [busy, Option.isSome_none, Option.isNone_some, Bool.not_true, Bool.or_self, Bool.false_eq_true, if_false]
  rfl

theorem exec_partialReset {island cause : Nat} (lo : 1 ≤ island) (hi : island ≤ 60) (run : s.power.running = true) :
    exec (.partialReset island cause) s = .next (requestReset island cause none s) := by
  have can : canReset island = true := decide_eq_true ⟨lo, hi⟩
  show execPartialReset island cause s = _
  simp only [execPartialReset, inRange, doneIf, can, run, if_true]

/-- PARITY_FAULT of a running island but 0 (R363): its unit is in its safe state, and Quinbuar, where it runs, asks for its reset. -/
theorem exec_parityFault {island unit r : Nat} (lo : 1 ≤ island) (hi : island ≤ 60) (hu : unit < 256) (run : islandRuns island s = true) :
    exec (.parityFault island unit r) s = .next
      (let u := updIsland island (fun x => { x with safe := setAdd unit x.safe }) (logErr 0x0013 island unit s { arg0 := r })
       if u.power.running then requestReset island 0x0013 none u else u) := by
  show execParityFault island unit r s = _
  simp only [execParityFault, inRange, hi, hu, run, and_self, decide_true, if_true, Bool.not_true, Bool.false_eq_true, if_false, done]
  rw [if_neg (by omega)]

/-- In island 0 a cue pin is disabled (R363). -/
theorem exec_parityFault_pin {unit r : Nat} {x : Pin} (hu : unit < 256) (run : islandRuns 0 s = true) (h : s.pins[unit]? = some x) :
    exec (.parityFault 0 unit r) s
      = .next (finishBatches (setPinMode unit .disabled x.par (logErr 0x0013 0 unit s { arg0 := r }))) := by
  have k : (logErr 0x0013 0 unit s { arg0 := r }).pins[unit]? = some x := by rw [(logErr_frame ..).pins, h]
  show execParityFault 0 unit r s = _
  simp only [execParityFault, inRange, hu, run, k, and_self, decide_true, if_true, Bool.not_true, Bool.false_eq_true, if_false, done,
    Nat.zero_le]

/-- A pin's new mode and parameters (R42). -/
theorem setPinMode_pin {n : Nat} {x : Pin} (h : s.pins[n]? = some x) (m : PinMode) (par : PinParams) :
    ((setPinMode n m par s).pins[n]?).map (fun y => (y.mode, y.par)) = some (m, par) := by
  have drive (f : Pin → Pin) : (drivePin n f s).pins = upd s.pins n f := by
    unfold drivePin
    rw [h]
    dsimp only
    split <;> rfl
  have arm (t : State) (c : Bool) : (if c then armPinOp t else t).pins = t.pins := by
    cases c <;> rfl
  rw [setPinMode, arm, drive, upd, List.getElem?_modify_eq, h]
  rfl

/-! ### The unfence (R368) -/

/-- The end of the job of a fence that no command asked for, with no reset waiting: none is fenced, and the islands stand. -/
theorem endReset_ends {j : ResetJob} {result : Nat} (empty : s.resetQueue = []) (cmd : j.cmd = none) (ne : j.island ≠ 2) :
    (endReset j result s).fenced = none ∧ (endReset j result s).islands = s.islands ∧ (endReset j result s).power = s.power := by
  have settled : (settleIslrst j.island result { s with fenced := none }).fenced = none
      ∧ (settleIslrst j.island result { s with fenced := none }).islands = s.islands
      ∧ (settleIslrst j.island result { s with fenced := none }).power = s.power
      ∧ (settleIslrst j.island result { s with fenced := none }).resetQueue = [] := by
    unfold settleIslrst
    split <;> exact ⟨rfl, rfl, rfl, empty⟩
  unfold endReset
  generalize settleIslrst j.island result { s with fenced := none } = t at settled ⊢
  obtain ⟨fenced, islands, power, queue⟩ := settled
  simp only [ne, cmd, queue, decide_false, Bool.false_and, Bool.false_eq_true, if_false]
  exact ⟨fenced, islands, power⟩

variable {j : ResetJob} {y : Island}

/-- ISLAND_UNFENCE of an island that stays fenced until the next boot. -/
theorem exec_islandUnfence_bootFenced {ok : Bool} (hj : s.fenced = some j) (run : s.power.running = true)
    (hy : s.islands[j.island]? = some y) (mark : y.bootFenced = true) :
    exec (.islandUnfence ok) s = .next (endReset j 2 s) := by
  show execIslandUnfence ok s = _
  simp [execIslandUnfence, hj, run, hy, mark, done]

theorem exec_islandUnfence_failed (hj : s.fenced = some j) (run : s.power.running = true)
    (hy : s.islands[j.island]? = some y) (mark : y.bootFenced = false) :
    exec (.islandUnfence false) s = .next (endReset j 2 (fenceForGood j.island s)) := by
  show execIslandUnfence false s = _
  simp [execIslandUnfence, hj, run, hy, mark, done]

theorem exec_islandUnfence_passed (hj : s.fenced = some j) (run : s.power.running = true)
    (hy : s.islands[j.island]? = some y) (mark : y.bootFenced = false) :
    exec (.islandUnfence true) s = doneIf (y.ready && atBeat s.band) (endReset j 1 (logErr 0x0014 j.island 0
      (restoreIsland j.island (updIsland j.island (fun x => { x with safe := [] }) s)) { arg0 := j.cause })) s := by
  show execIslandUnfence true s = _
  simp [execIslandUnfence, hj, run, hy, mark]

end

/-! ### The clauses of `IslandsAreResetOneAtATime` -/

section
variable {s : State}

theorem partialReset_fencesAtOnce {island cause : Nat} (lo : 1 ≤ island) (hi : island ≤ 60) (run : s.power.running = true)
    (sw : s.power.update.switching = none)
    (known : ∀ j ∈ s.fenced.toList ++ s.resetQueue ++ s.power.update.waitingReset, j.island ≠ island) (free : s.fenced = none) :
    ∃ t, exec (.partialReset island cause) s = .next t
      ∧ t.fenced = some { island := island, cause := cause, since := steadyNs s, cmd := none } ∧ t.resetQueue = s.resetQueue
      ∧ (t.islands[island]?).map (·.ready) = (s.islands[island]?).map (fun _ => false)
      ∧ ∀ (n : Nat) (x : Lock), s.locks[n]? = some x → x.held = true → ownerIsland x.owner = island →
          t.locks[n]? = some ({ held := false, owner := 0, broken := true } : Lock) := by
  obtain ⟨fenced, queue, ready⟩ := beginReset_begun { island := island, cause := cause, since := steadyNs s, cmd := none } s
  refine ⟨_, ?_, fenced, queue, ready, fun n x h held own => beginReset_locks h held own⟩
  rw [exec_partialReset lo hi run, requestReset_begins lo hi (reset_unknown none known) sw free]

theorem partialReset_waits {island cause : Nat} {k : ResetJob} (lo : 1 ≤ island) (hi : island ≤ 60) (run : s.power.running = true)
    (sw : s.power.update.switching = none)
    (known : ∀ j ∈ s.fenced.toList ++ s.resetQueue ++ s.power.update.waitingReset, j.island ≠ island) (busy : s.fenced = some k) :
    let j : ResetJob := { island := island, cause := cause, since := steadyNs s, cmd := none }
    ∃ l₁ l₂, s.resetQueue = l₁ ++ l₂
      ∧ exec (.partialReset island cause) s = .next { s with resetQueue := l₁ ++ j :: l₂ }
      ∧ (∀ x ∈ l₁, ¬ (j.since < x.since ∨ (j.since = x.since ∧ j.island < x.island)))
      ∧ ∀ x, l₂.head? = some x → j.since < x.since ∨ (j.since = x.since ∧ j.island < x.island) := by
  intro j
  obtain ⟨l₁, l₂, e, inserted, before, after⟩ := insertBy_split resetBefore j s.resetQueue
  refine ⟨l₁, l₂, e, ?_, fun x hx k => ?_, fun x hx => (resetBefore_iff j x).mp (after x hx)⟩
  · rw [exec_partialReset lo hi run, requestReset_waits lo hi known sw busy, inserted]
  · exact absurd ((resetBefore_iff j x).mpr k) (by simp [before x hx])

/-- A command that passes the checks names an index of its row (R414 check 4). -/
theorem checkCommand_indexOk {r : CmdRow} {c : HostCmd} (k : checkCommand s r c = 0) : r.indexOk s c = true := by
  by_contra bad
  simp only [checkCommand, Bool.eq_false_iff.mpr bad, Bool.not_false, if_true] at k
  split at k
  · contradiction
  · split at k <;> contradiction

theorem islandReset_fences {q cid : Nat} {c : HostCmd} (h : Accepts (.islandReset q cid) c s) (free : s.fenced = none)
    (sw : s.power.update.switching = none) :
    ∃ t, exec (.islandReset q cid) s = .next t
      ∧ t.fenced = some { island := arg c 0 1, cause := 0, since := steadyNs s, cmd := some (q, cid) } := by
  obtain ⟨taken, ok⟩ := h.of rfl
  obtain ⟨lo, hi⟩ : 3 ≤ arg c 0 1 ∧ arg c 0 1 ≤ 60 := of_decide_eq_true (checkCommand_indexOk ok)
  have begun := requestReset_begins (s := startCmd c s) (island := arg c 0 1) (cause := 0) (cmd := some (q, cid)) (by omega) hi
    (by simp) sw free
  refine ⟨_, runCommand_accepted taken ok, ?_⟩
  rw [begun]
  exact (beginReset_begun _ _).1

/-- PARITY_FAULT of an island but 0 begins its reset, with the unit in its safe state (R363). -/
theorem parityFault_fences {island unit r : Nat} (run : s.power.running = true) (hu : unit < 256) (lo : 1 ≤ island) (hi : island ≤ 60)
    (sw : s.power.update.switching = none) (free : s.fenced = none)
    (known : ∀ j ∈ s.resetQueue ++ s.power.update.waitingReset, j.island ≠ island) :
    ∃ t, exec (.parityFault island unit r) s = .next t
      ∧ t.fenced = some { island := island, cause := 0x0013, since := steadyNs s, cmd := none }
      ∧ (island < 40 → (t.islands[island]?).map (·.safe) = (s.islands[island]?).map (fun x => setAdd unit x.safe)) := by
  have runs : islandRuns island s = true := by simp [islandRuns, run]
  have logged := logErr_frame 0x0013 island unit s { arg0 := r }
  have e := exec_parityFault (r := r) lo hi hu runs
  generalize logErr 0x0013 island unit s { arg0 := r } = l at logged e
  let u := updIsland island (fun x => { x with safe := setAdd unit x.safe }) l
  have power : u.power = s.power := logged.power
  have fenced : u.fenced = none := logged.fenced.trans free
  have clock : steadyNs u = steadyNs s := congrArg Band.steady logged.band
  have unknown : ((u.fenced.toList ++ u.resetQueue ++ u.power.update.waitingReset).any
      fun k => k.island == island && (none : Option (Nat × Nat)).isNone) = false := by
    refine reset_unknown none ?_
    rw [fenced, power, show u.resetQueue = s.resetQueue from logged.resetQueue]
    simpa using known
  have begun := requestReset_begins (cause := 0x0013) lo hi unknown (by rw [power, sw]) fenced
  refine ⟨beginReset { island := island, cause := 0x0013, since := steadyNs s, cmd := none } u, e.trans ?_, (beginReset_begun _ _).1,
    fun lt => ?_⟩
  · show Host.Outcome.next (if u.power.running then requestReset island 0x0013 none u else u) = _
    rw [power, run, if_pos rfl, begun, clock]
  · rw [beginReset_safe lt, updIsland_at, Option.map_map, logged.islands]
    rfl

/-- PARITY_FAULT of a unit of island 0 (R363). -/
theorem parityFault_disablesPin {unit r : Nat} {x : Pin} (run : s.power.running = true) (hu : unit < 256) (h : s.pins[unit]? = some x) :
    ∃ t, exec (.parityFault 0 unit r) s = .next t
      ∧ (t.pins[unit]?).map (fun y => (y.mode, y.par)) = some (.disabled, x.par) := by
  have runs : islandRuns 0 s = true := by simp [islandRuns, run]
  have logged := (logErr_frame 0x0013 0 unit s { arg0 := r }).pins
  refine ⟨_, exec_parityFault_pin hu runs h, ?_⟩
  rw [(finishBatches_calm (.refl Island.present _)).pins]
  exact setPinMode_pin (by rw [logged, h]) _ _

/-- In recovery mode a register of the Gatehouse asks for no reset (R485). -/
theorem parityFault_recovery {unit r : Nat} (run : s.power.running = false) (rec : s.power.recovery = true) (hu : unit < 256) :
    let t := logErr 0x0013 2 unit s { arg0 := r }
    exec (.parityFault 2 unit r) s = .next { t with islands := upd t.islands 2 fun x => { x with safe := setAdd unit x.safe } } := by
  intro t
  have runs : islandRuns 2 s = true := by simp [islandRuns, rec]
  have halted : t.power.running = false := by rw [(logErr_frame ..).power, run]
  rw [exec_parityFault (by decide) (by decide) hu runs]
  show Host.Outcome.next (if t.power.running then _ else _) = _
  rw [halted, if_neg Bool.false_ne_true]
  rfl

end

section
variable {s : State} {j : ResetJob} {y : Island} (hj : s.fenced = some j) (run : s.power.running = true) (empty : s.resetQueue = [])
  (cmd : j.cmd = none) (ne : j.island ≠ 2) (hy : s.islands[j.island]? = some y)
include hj run empty cmd ne hy

theorem islandUnfence_ready (mark : y.bootFenced = false) (ready : y.ready = true) (beat : atBeat s.band = true) :
    ∃ t, exec (.islandUnfence true) s = .next t ∧ t.fenced = none
      ∧ (t.islands[j.island]?).map (fun z => (z.safe, z.bootFenced)) = some ([], false) := by
  let u := updIsland j.island (fun x => { x with safe := [] }) s
  have calm : Calm Island.service u (logErr 0x0014 j.island 0 (restoreIsland j.island u) { arg0 := j.cause }) :=
    logErr_calm (restoreIsland_calm (.refl _ u))
  obtain ⟨fenced, islands, _⟩ := endReset_ends (result := 1) (calm.queue.trans empty) cmd ne
  refine ⟨_, (exec_islandUnfence_passed hj run hy mark).trans (by rw [ready, beat]; rfl), fenced, ?_⟩
  rw [islands]
  refine (calm.island j.island).trans ?_
  rw [updIsland_at, hy]
  exact congrArg (fun b => some ([], b)) mark

omit empty cmd ne in
theorem islandUnfence_notReady (mark : y.bootFenced = false) (h : y.ready = false ∨ atBeat s.band = false) :
    exec (.islandUnfence true) s = .next s := by
  have no : (y.ready && atBeat s.band) = false := Bool.and_eq_false_iff.mpr h
  rw [exec_islandUnfence_passed hj run hy mark, no]
  rfl

theorem islandUnfence_marked (mark : y.bootFenced = true) (ok : Bool) :
    ∃ t, exec (.islandUnfence ok) s = .next t ∧ t.fenced = none ∧ (t.islands[j.island]?).map (·.bootFenced) = some true := by
  obtain ⟨fenced, islands, _⟩ := endReset_ends (result := 2) empty cmd ne
  exact ⟨_, exec_islandUnfence_bootFenced hj run hy mark, fenced, by rw [islands, hy, Option.map_some, mark]⟩

theorem islandUnfence_failed (mark : y.bootFenced = false) :
    ∃ t, exec (.islandUnfence false) s = .next t ∧ t.fenced = none ∧ (t.islands[j.island]?).map (·.bootFenced) = some true
      ∧ j.island ∈ t.power.ledger.failedTests := by
  have queue : (fenceForGood j.island s).resetQueue = [] := (fenceForGood_calm (.refl _ s)).queue.trans empty
  obtain ⟨fenced, islands, power⟩ := endReset_ends (result := 2) queue cmd ne
  exact ⟨_, exec_islandUnfence_failed hj run hy mark, fenced, by rw [islands, fenceForGood_bootFenced hy],
    by rw [power]; exact fenceForGood_failedTests ..⟩

end

/-- Settles O34: a request that begins at once leaves `beginReset`'s state, one that waits is inserted in the queue, and an unfence ends
the job on a state whose islands only the unfence itself has changed. -/
theorem islandsAreResetOneAtATime : Obligations.IslandsAreResetOneAtATime := by
  unfold Obligations.IslandsAreResetOneAtATime
  refine ⟨fun island cause s lo hi run sw known => ⟨?_, ?_⟩, fun q cid c s h free sw => islandReset_fences h free sw,
    fun unit r s run hu => ⟨fun island lo hi sw free known => ?_, fun x h => parityFault_disablesPin run hu h⟩,
    fun unit r s run rec hu => parityFault_recovery run rec hu,
    fun j y s hj run empty cmd ne hy => ⟨?_, ?_, ?_, ?_⟩⟩
  · exact partialReset_fencesAtOnce lo hi run sw known
  · exact fun k busy => partialReset_waits lo hi run sw known busy
  · exact parityFault_fences run hu lo hi sw free known
  · exact islandUnfence_ready hj run empty cmd ne hy
  · exact islandUnfence_notReady hj run hy
  · exact islandUnfence_marked hj run empty cmd ne hy
  · exact islandUnfence_failed hj run empty cmd ne hy

end Sys2Proof.Machine

end

section
/-! Units that start an op which may start and does its own work (R66): `startOp` in the terms of `Starts`, the vector ops of a Pergola,
tiles and claims of an Orangery, the ops of a mover. -/

namespace Sys2Proof.Machine

/-! ### The start of an op (R66) -/

section
variable {k opc : Nat} {fits : IssuedOp → Bool} {waits : IssuedOp → List Wait} {work : IssuedOp → State → State} {o : IssuedOp}
  {s : State}

theorem Starts.skipsNothing (h : Starts k opc o s) : (idleLane s k || skipsWhole opc s o) = false := by
  rw [h.serves, skipsWhole, h.whole, Bool.and_false, Bool.or_false]

theorem Starts.taken (h : Starts k opc o s) (fit : fits o = true) :
    (startable s k opc).filter (fun o => fits o && !laneSafe s k) = some o := by
  rw [h.may, h.sound]
  simp [fit]

/-- With everything at hand the op leaves its queue and does its work. -/
theorem startOp_runs (h : Starts k opc o s) (fit : fits o = true) (now : waits o = []) :
    startOp k opc fits waits work s = .next (work o (beginOp k o s)) := by
  simp only [startOp, h.taken fit, h.skipsNothing, h.island, now, Bool.false_eq_true, if_false]
  rfl

/-- An op that waits stays in its queue and asks for what it waits for (R161, R162, R314). -/
theorem startOp_waits {w : Wait} {ws : List Wait} (h : Starts k opc o s) (fit : fits o = true) (later : waits o = w :: ws) :
    startOp k opc fits waits work s = .next ((w :: ws).foldl (fun s w => awaitFor w s) s) := by
  simp only [startOp, h.taken fit, h.skipsNothing, h.island, later, Bool.false_eq_true, if_false]
  rfl

end

/-! ### VECTOR ops (R115, R116) -/

section
variable {n func : Nat} {o : IssuedOp} {s : State}

theorem vectorOp_runs (lt : n < 8) (h : Starts (pergolaLane n) 0x18 o s) (fn : (imgVec s.score.image (argDesc o.word)).func = func)
    (now : vecWaits (pergolaLane n) s (imgVec s.score.image (argDesc o.word)) o.ctx = []) :
    let d := imgVec s.score.image (argDesc o.word)
    vectorOp n func s = .next (occupy (pergolaLane n) o [] true
      (writing (pergolaLane n) (runVecs (pergolaLane n) d o.ctx d.count 0) (beginOp (pergolaLane n) o s))) := by
  simp only [vectorOp, inRange, lt, decide_true, if_true]
  exact startOp_runs h (beq_iff_eq.mpr fn) now

theorem vectorOp_waits {w : Wait} {ws : List Wait} (lt : n < 8) (h : Starts (pergolaLane n) 0x18 o s)
    (fn : (imgVec s.score.image (argDesc o.word)).func = func)
    (later : vecWaits (pergolaLane n) s (imgVec s.score.image (argDesc o.word)) o.ctx = w :: ws) :
    vectorOp n func s = .next ((w :: ws).foldl (fun s w => awaitFor w s) s) := by
  simp only [vectorOp, inRange, lt, decide_true, if_true]
  exact startOp_waits h (beq_iff_eq.mpr fn) later

/-- Each of the seven VECTOR commands is the vector op of its function (R64, R116). -/
theorem exec_vectorOp {i : Instr} (row : (i, func) = (.lut4 n, 1) ∨ (i, func) = (.eltwise n, 2) ∨ (i, func) = (.pool n, 3)
    ∨ (i, func) = (.boxdec n, 4) ∨ (i, func) = (.nms n, 5) ∨ (i, func) = (.softmax n, 6) ∨ (i, func) = (.argmax n, 7)) :
    exec i s = vectorOp n func s := by
  simp only [Prod.mk.injEq] at row
  obtain ⟨rfl, rfl⟩ | ⟨rfl, rfl⟩ | ⟨rfl, rfl⟩ | ⟨rfl, rfl⟩ | ⟨rfl, rfl⟩ | ⟨rfl, rfl⟩ | ⟨rfl, rfl⟩ := row <;> rfl

end

/-- A run of one vector is that vector's step (R116, R523). -/
theorem runVecs_single {d : VecDesc} (one : d.count = 1) (k : Nat) (ctx : Option (Nat × Nat)) (t : State) :
    runVecs k d ctx d.count 0 t =
      let x := vecOut k t d ctx 0
      let u := noteReads k x.all t
      let owner := rowOwner t ctx 1 0
      if vecOpen t d ctx 0 then match vecTrouble k u d ctx (owner.map fun w => w.at_.stream) x with
        | some w => jobFault k ctx w.status w.addr w.stream (useDeferred w.addr u)
        | none => noteVec d ctx owner 0 x (writeOp d.out x.cells u)
      else t := by
  rw [one]
  unfold runVecs
  rw [one]
  cases vecOpen t d ctx 0 <;> rfl

/-- Settles O28: a VECTOR op starts as every unit's op does, and a run of one vector is that vector's step. -/
theorem vectorOpsRunTheirVectors : Obligations.VectorOpsRunTheirVectors := by
  unfold Obligations.VectorOpsRunTheirVectors
  intro n f i o s row lt
  rw [exec_vectorOp row, Nat.add_comm 17 n]
  intro h d t fn k
  refine ⟨fun now => vectorOp_runs lt h fn now, fun now one => ?_, fun w ws later => vectorOp_waits lt h fn later⟩
  rw [vectorOp_runs lt h fn now]
  exact congrArg (fun work => Host.Outcome.next (occupy k o [] true (writing k work t)))
    (funext (runVecs_single one k o.ctx))

/-! ### Tiles and claims (R76 to R80, R87, R143) -/

section
variable {n : Nat} {o : IssuedOp} {s : State}

theorem exec_tile_runs (lt : n < 16) (h : Starts (orangeryLane n) 0x10 o s)
    (now : let d := imgTile s.score.image (argDesc o.word)
      tileWaits (orangeryLane n) s d o.ctx d.fixidx = []) :
    let d := imgTile s.score.image (argDesc o.word)
    exec (.tile n) s = .next (occupy (orangeryLane n) o [] true
      (writing (orangeryLane n) (runTile (orangeryLane n) d o.ctx d.fixidx) (beginOp (orangeryLane n) o s))) := by
  show execTile n s = _
  simp only [execTile, inRange, lt, decide_true, if_true]
  exact startOp_runs h rfl now

theorem exec_claim_runs (lt : n < 16) (h : Starts (orangeryLane n) 0x11 o s) :
    exec (.claim n) s = .next (occupy (orangeryLane n) o [] false (beginOp (orangeryLane n) o s)) := by
  show execClaim n s = _
  simp only [execClaim, inRange, lt, decide_true, if_true]
  exact startOp_runs h rfl rfl

/-- A tile beyond its extent, of a batch torn down or closed by its path latch is a skip (R76, R87, R143). -/
theorem runTile_skips {k i : Nat} {d : TileDesc} {ctx : Option (Nat × Nat)} {t : State}
    (h : ∀ e, tileExtent t d i = some e → isTorn t ctx = true ∨ tileClosed t d ctx e = true) :
    runTile k d ctx i t = skipTile (k - 1) t := by
  unfold runTile
  split
  · rfl
  · next e extent =>
    exact if_pos ((Bool.or_eq_true ..).mpr (h e extent))

theorem tileWaits_torn {k i : Nat} {d : TileDesc} {ctx : Option (Nat × Nat)} (torn : isTorn s ctx = true) :
    tileWaits k s d ctx i = [] := by
  unfold tileWaits
  split
  · rfl
  · exact if_pos ((Bool.or_eq_true ..).mpr (.inl torn))

end

section
variable {n : Nat} {l : Lane} {r : RunningOp} {c : Claim} {s : State} (lt : n < 16) (hl : s.score.lanes[orangeryLane n]? = some l)
  (hr : l.running = some r) (opc : opOpc r.op.word = 0x11) (goes : r.finished = false)
include lt hl hr opc goes

/-- The claim loop of a lane takes its next turn. -/
theorem exec_claimFetch : exec (.claimFetch n) s = .next (claimTurn (orangeryLane n) r.op s) := by
  show execClaimFetch n s = _
  simp [execClaimFetch, inRange, lt, hl, hr, opc, goes, done]

variable (hc : s.score.claims[argCounter r.op.word]? = some c)
include hc

theorem claimFetch_atLimit (past : c.limit ≤ c.value) :
    exec (.claimFetch n) s = .next (finishRun (orangeryLane n)
      (updClaim (argCounter r.op.word) (fun c => { c with value := (c.value + 1) % 2 ^ 32 }) s)) := by
  rw [exec_claimFetch lt hl hr opc goes, claimTurn, hc]
  simp only [past, if_true]

theorem claimFetch_runs (below : c.value < c.limit)
    (now : tileWaits (orangeryLane n) s (imgTile s.score.image (argDesc r.op.word)) r.op.ctx c.value = []) :
    exec (.claimFetch n) s = .next (writing (orangeryLane n)
      (runTile (orangeryLane n) (imgTile s.score.image (argDesc r.op.word)) r.op.ctx c.value)
      (updClaim (argCounter r.op.word) (fun c => { c with value := (c.value + 1) % 2 ^ 32 }) s)) := by
  rw [exec_claimFetch lt hl hr opc goes, claimTurn, hc]
  simp only [Nat.not_le.mpr below, if_false, now]

theorem claimFetch_waits {w : Wait} {ws : List Wait} (below : c.value < c.limit)
    (later : tileWaits (orangeryLane n) s (imgTile s.score.image (argDesc r.op.word)) r.op.ctx c.value = w :: ws) :
    exec (.claimFetch n) s = .next ((w :: ws).foldl (fun s w => awaitFor w s) s) := by
  rw [exec_claimFetch lt hl hr opc goes, claimTurn, hc]
  simp only [Nat.not_le.mpr below, if_false, later]

end

/-! ### Mover ops (R83 to R85) -/

section
variable {n opc : Nat} {o : IssuedOp} {s : State} {waits : MoverDesc → List Wait} {work : MoverDesc → IssuedOp → State → State}

theorem moverOp_runs (lt : n < 24) (h : Starts (moverLane n) opc o s) (now : waits (imgMove s.score.image (argDesc o.word)) = []) :
    moverOp n opc waits work s = .next (occupy (moverLane n) o [] true
      (writing (moverLane n) (work (imgMove s.score.image (argDesc o.word)) o) (beginOp (moverLane n) o s))) := by
  simp only [moverOp, inRange, lt, decide_true, if_true]
  exact startOp_runs h rfl now

theorem exec_copy_runs (lt : n < 24) (h : Starts (moverLane n) 0x20 o s)
    (now : moveWaits (moverLane n) s (imgMove s.score.image (argDesc o.word)) = []) :
    exec (.copy n) s = .next (occupy (moverLane n) o [] true (writing (moverLane n)
      (runCopy (moverLane n) (imgMove s.score.image (argDesc o.word)) o.ctx) (beginOp (moverLane n) o s))) :=
  moverOp_runs (waits := moveWaits (moverLane n) s) (work := fun d o s => runCopy (moverLane n) d o.ctx s) lt h now

theorem exec_fetchAhead_runs (lt : n < 24) (h : Starts (moverLane n) 0x21 o s)
    (now : moveWaits (moverLane n) s (imgMove s.score.image (argDesc o.word)) = []) :
    exec (.fetchAhead n) s = .next (occupy (moverLane n) o [] true (writing (moverLane n)
      (runAhead n (imgMove s.score.image (argDesc o.word))) (beginOp (moverLane n) o s))) :=
  moverOp_runs (waits := moveWaits (moverLane n) s) (work := fun d _ s => runAhead n d s) lt h now

theorem exec_pageFetch_runs (lt : n < 24) (h : Starts (moverLane n) 0x22 o s) :
    exec (.pageFetch n) s = .next (occupy (moverLane n) o [] true (writing (moverLane n)
      (runPageFetch n (imgMove s.score.image (argDesc o.word))) (beginOp (moverLane n) o s))) :=
  moverOp_runs (waits := fun _ => []) (work := fun d _ s => runPageFetch n d s) lt h rfl

theorem runCopy_clean {k : Nat} {d : MoverDesc} {ctx : Option (Nat × Nat)}
    (clean : copyTrouble (noteReads k (moveReads k s d) s) (moveBytes k s d) = none)
    (lands : writeFault k (noteReads k (moveReads k s d) s) d.dst (moveCells (moveBytes k s d)) = none) :
    runCopy k d ctx s = writeOp d.dst (moveCells (moveBytes k s d)) (noteReads k (moveReads k s d) s) := by
  simp only [runCopy, clean, lands]

end

/-- Settles O30: tiles, claims and mover ops start as every unit's op does; a turn of the claim loop takes the counter's value, and a copy
without a fault is one write. -/
theorem tilesAndMoversRunTheirOps : Obligations.TilesAndMoversRunTheirOps := by
  unfold Obligations.TilesAndMoversRunTheirOps
  refine ⟨fun n o s lt => ?_, fun n l r c s lt => ?_, fun n o s lt => ?_⟩
  · rw [Nat.add_comm 1 n]
    intro k d
    exact ⟨exec_tile_runs lt, fun i t => runTile_skips, exec_claim_runs lt⟩
  · rw [Nat.add_comm 1 n]
    intro hl hr opc goes hc
    exact ⟨claimFetch_atLimit lt hl hr opc goes hc, claimFetch_runs lt hl hr opc goes hc,
      fun w ws => claimFetch_waits lt hl hr opc goes hc, fun _ torn => tileWaits_torn torn⟩
  · rw [Nat.add_comm 25 n]
    intro k d t run
    exact ⟨exec_copy_runs lt, fun u => runCopy_clean, exec_fetchAhead_runs lt, exec_pageFetch_runs lt⟩

end Sys2Proof.Machine
end

section
/-! What memory and the log leave alone: no read or write of a unit changes the score (R18, R305 to R316, R364 to R367), and what the end of
an op does to batches, frames and tokens leaves the lanes alone (R68, R87, R258). -/

namespace Sys2Proof.Machine

section
variable {s : State}

theorem foldl_score {α : Type} {f : State → α → State} (hf : ∀ s x, (f s x).score = s.score) (l : List α) (s : State) :
    (l.foldl f s).score = s.score := by
  induction l generalizing s with
  | nil => rfl
  | cons x l ih => exact (ih _).trans (hf s x)

theorem ite_score {c : Prop} [Decidable c] {a b : State} (ha : a.score = s.score) (hb : b.score = s.score) :
    (if c then a else b).score = s.score := by
  split
  · exact ha
  · exact hb

@[simp] theorem logErr_score (st i u : Nat) (s : State) (a : LogArgs) : (logErr st i u s a).score = s.score := by rw [logErr_frame]

/-! ### Memory (R305 to R315) -/

@[simp] theorem emitPin_score (o : Out) (s : State) : (emitPin o s).score = s.score := ite_score rfl rfl

@[simp] theorem saveLedger_score (s : State) : (saveLedger s).score = s.score := emitPin_score ..

@[simp] theorem noteCause_score (as : List Nat) (s : State) : (noteCause as s).score = s.score := ite_score rfl rfl

@[simp] theorem presentWrite_score (c : Nat) (r : DramReq) (s : State) : (presentWrite c r s).score = s.score := by
  unfold presentWrite
  split
  · rfl
  · exact ite_score rfl rfl

@[simp] theorem presentRead_score (c : Nat) (r : DramReq) (s : State) : (presentRead c r s).score = s.score := by
  unfold presentRead
  split
  · rfl
  · exact ite_score rfl rfl

@[simp] theorem countCorrection_score (a : Nat) (s : State) : (countCorrection a s).score = s.score := by
  unfold countCorrection
  refine ite_score rfl ?_
  extract_lets b
  split
  exact ite_score (by simp) rfl

@[simp] theorem correctWord_score (w : Nat) (s : State) : (correctWord w s).score = s.score := by simp [correctWord]

@[simp] theorem noteWord_score (w : Nat) (s : State) : (noteWord w s).score = s.score :=
  ite_score (logErr_score ..) (ite_score (correctWord_score ..) rfl)

@[simp] theorem noteWords_score (ws : List Nat) (s : State) : (ws.foldl (fun s w => noteWord w s) s).score = s.score :=
  foldl_score (fun s w => noteWord_score w s) ws s

@[simp] theorem evictLine_score (c : Nat) (k : ReqClass) (w : CacheWay) (s : State) : (evictLine c k w s).score = s.score := by
  unfold evictLine
  refine ite_score rfl ?_
  extract_lets ws bad met t
  have ht : t.score = s.score := ite_score (noteWords_score ..) rfl
  exact ite_score ((presentWrite_score ..).trans ht) ht

@[simp] theorem allocateLine_score (a : LineAccess) (s : State) : (allocateLine a s).score = s.score := by
  unfold allocateLine
  extract_lets -merge -underBinder +onlyGivenNames x i full mark u w
  have hu : u.score = s.score := by
    unfold u
    split
    · exact evictLine_score ..
    · rfl
  exact (ite_score hu ((presentRead_score ..).trans hu) : w.score = s.score)

@[simp] theorem accessLine_score (a : LineAccess) (s : State) : (accessLine a s).score = s.score := by
  unfold accessLine
  extract_lets x
  split
  · rfl
  · exact ite_score (ite_score (presentWrite_score ..) (presentRead_score ..)) (allocateLine_score ..)

@[simp] theorem unitLine_score (a : LineAccess) (s : State) : (unitLine a s).score = s.score := by
  unfold unitLine
  split <;> exact accessLine_score ..

@[simp] theorem clearDeferred_score (a : Nat) (s : State) : (clearDeferred a s).score = s.score := by
  unfold clearDeferred
  split
  · rfl
  · exact ite_score rfl rfl

@[simp] theorem settleWord_score (cs : List Cell) (w : Nat) (s : State) : (settleWord cs w s).score = s.score := by
  unfold settleWord
  extract_lets here full marked
  split
  have marks {f : State → State} (hf : (f s).score = s.score) : (if marked then f s else s).score = s.score := ite_score hf rfl
  exact ite_score rfl (ite_score (logErr_score ..) (ite_score ((correctWord_score ..).trans (marks rfl)) (marks rfl)))

@[simp] theorem settleLine_score (k : ReqClass) (cs : List Cell) (l : Nat) (s : State) : (settleLine k cs l s).score = s.score := by
  unfold settleLine
  split
  · rfl
  · simp

@[simp] theorem writePhys_score (k : ReqClass) (cs : List Cell) (s : State) : (writePhys k cs s).score = s.score := by
  unfold writePhys
  extract_lets t u words lines
  have hu : u.score = s.score := (noteCause_score ..).trans (foldl_score (fun s c => clearDeferred_score c.addr s) cs t)
  exact (foldl_score (fun s l => settleLine_score k cs l s) lines _).trans
    ((foldl_score (fun s w => settleWord_score cs w s) words u).trans hu)

@[simp] theorem unitRead_score (k : ReqClass) (a n : Nat) (s : State) : (unitRead k a n s).score = s.score := by
  unfold unitRead
  refine ite_score rfl ?_
  extract_lets -merge -underBinder +onlyGivenNames words lines u w
  have hu : u.score = s.score := foldl_score (fun s l => by split <;> simp) lines s
  have hw : w.score = s.score := by
    unfold w
    split <;> exact hu
  exact (noteWords_score ..).trans hw

@[simp] theorem microFill_score (g : Nat) (e : TlbEntry) (s : State) : (microFill g e s).score = s.score := ite_score rfl rfl

@[simp] theorem tlbFill_score (g n : Nat) (s : State) : (tlbFill g n s).score = s.score := by
  unfold tlbFill
  refine ite_score rfl ?_
  split
  · exact microFill_score ..
  · extract_lets t
    have ht : t.score = s.score := foldl_score (fun s a => unitRead_score .control a 8 s) _ s
    split
    · exact ht
    · exact (microFill_score ..).trans ht

@[simp] theorem tlbFills_score (g : Nat) (ps : List Nat) (s : State) : (ps.foldl (fun s p => tlbFill g p s) s).score = s.score :=
  foldl_score (fun s p => tlbFill_score g p s) ps s

@[simp] theorem writeHost_score (cs : List Cell) (s : State) : (writeHost cs s).score = s.score :=
  ite_score rfl (ite_score (logErr_score ..) (foldl_score (fun _ _ => by exact ite_score rfl rfl) _ _))

@[simp] theorem usePages_score (as : List Nat) (s : State) : (usePages as s).score = s.score := foldl_score (fun _ _ => by rfl) _ s

@[simp] theorem writeOp_score (a : Nat) (cs : List Cell) (s : State) : (writeOp a cs s).score = s.score := by
  unfold writeOp
  extract_lets -merge -underBinder +onlyGivenNames u phys host toks w x
  have hu : u.score = s.score := by simp [u]
  have hw : w.score = u.score := foldl_score (fun s c => by split <;> rfl) cs u
  have hx : x.score = w.score := foldl_score (fun s l => settleLine_score .lc toks l s) _ w
  simp [hx, hw, hu]

/-! ### What a read leaves behind (R18, R305, R361) -/

@[simp] theorem noteRead_score (k : Nat) (r : ByteRead) (s : State) : (noteRead k r s).score = s.score := by
  unfold noteRead
  extract_lets t
  have ht : t.score = s.score := ite_score (correctWord_score ..) rfl
  split
  · exact (unitLine_score ..).trans ht
  · exact ite_score ((logErr_score ..).trans ht) ht

@[simp] theorem noteMark_score (p : State) (r : List ByteRead) (s : State) : (noteMark p r s).score = s.score := by
  unfold noteMark
  split <;> rfl

@[simp] theorem countMix_score (s : State) : (countMix s).score = s.score := ite_score rfl rfl

/-- A fold that carries a list beside the state. -/
theorem foldl_snd_score {α β : Type} {f : β × State → α → β × State} (hf : ∀ b x, (f b x).2.score = b.2.score) (l : List α)
    (b : β × State) :
    (l.foldl f b).2.score = b.2.score := by
  induction l generalizing b with
  | nil => rfl
  | cons x l ih => exact (ih _).trans (hf b x)

@[simp] theorem noteReads_score (k : Nat) (r : List ByteRead) (s : State) : (noteReads k r s).score = s.score := by
  unfold noteReads
  extract_lets step t
  have ht : t.score = s.score := by
    refine (tlbFills_score ..).trans ((countMix_score _).trans (foldl_snd_score (fun b x => ?_) r ([], s)))
    show (step b x).2.score = b.2.score
    unfold step
    extract_lets n
    split
    · rfl
    · exact noteRead_score ..
  simp [ht]

@[simp] theorem noteNms_score (k : Nat) (d : VecDesc) (v : Nat) (s : State) : (noteNms k d v s).score = s.score := by
  unfold noteNms
  extract_lets -merge -underBinder +onlyGivenNames r t words u w
  have hu : u.score = s.score := (foldl_score (fun s a => unitRead_score ..) words t).trans (tlbFills_score ..)
  have hw : w.score = u.score := by
    unfold w
    split
    · exact logErr_score ..
    · rfl
  exact (noteMark_score ..).trans (hw.trans hu)

@[simp] theorem unpinPages_score (ps : List Nat) (s : State) : (unpinPages ps s).score = s.score := foldl_score (fun _ _ => by rfl) ps s

/-! ### Frames, batches and jobs beside the lanes (R87, R255 to R257, R289, R292) -/

@[simp] theorem updFrameNum_score (n i : Nat) (f : Frame → Frame) (s : State) : (updFrameNum n i f s).score = s.score := rfl

@[simp] theorem failTraining_score (s : State) : (failTraining s).score = s.score := by
  unfold failTraining
  split <;> rfl

@[simp] theorem poisonFrame_score (n i : Nat) (m : Bool) (s : State) : (poisonFrame n i m s).score = s.score := ite_score rfl rfl

@[simp] theorem stampFrames_score (b n i : Nat) (s : State) : (stampFrames b n i s).score = s.score := by
  unfold stampFrames
  split
  · exact foldl_score (fun _ _ => by rfl) _ s
  · rfl

@[simp] theorem countFault_score (n : Nat) (f : Bool) (s : State) : (countFault n f s).score = s.score := by
  unfold countFault
  split
  · rfl
  · refine ite_score rfl (ite_score rfl ?_)
    extract_lets t u
    exact (ite_score rfl rfl : u.score = t.score)

end

/-! ### What changes of the score, the batches apart -/

/-- From `s` to `t` nothing of the score has changed but its batches. -/
def OnlyBatches (s t : State) : Prop := t.score = { s.score with batches := t.score.batches }

section
variable {s t u : State}

theorem OnlyBatches.of_score (h : t.score = s.score) : OnlyBatches s t := by
  unfold OnlyBatches
  rw [h]

theorem OnlyBatches.trans (h : OnlyBatches s t) (k : OnlyBatches t u) : OnlyBatches s u := by
  unfold OnlyBatches at *
  rw [k, h]

theorem OnlyBatches.lanes (h : OnlyBatches s t) : t.score.lanes = s.score.lanes := by rw [h]

theorem foldl_onlyBatches {α : Type} {f : State → α → State} (hf : ∀ s x, OnlyBatches s (f s x)) (l : List α) (s : State) :
    OnlyBatches s (l.foldl f s) := by
  induction l generalizing s with
  | nil => exact .of_score rfl
  | cons x l ih => exact (hf s x).trans (ih _)

end

/-- Tearing a batch down changes of the score its marks alone (R87). -/
theorem tearDown_score {b n st : Nat} {blame : Option Nat} {s : State} {y : Batch} (h : getBatch s b n = some y) (whole : y.torn = none) :
    (tearDown b n st blame s).score = (updBatch b n (fun y => { y with torn := some st, blame := blame }) s).score := by
  unfold tearDown
  rw [h]
  simp only [whole, Option.isSome_none, Bool.false_eq_true, if_false]
  refine (foldl_score (fun _ _ => by rfl) _ _).trans ?_
  exact ite_score (failTraining_score _) rfl

theorem tearDown_none {b n st : Nat} {blame : Option Nat} {s : State} (h : getBatch s b n = none) : tearDown b n st blame s = s := by
  simp [tearDown, h]

theorem tearDown_torn {b n st : Nat} {blame : Option Nat} {s : State} {y : Batch} (h : getBatch s b n = some y)
    (torn : y.torn.isSome = true) :
    tearDown b n st blame s = s := by
  simp [tearDown, h, torn]

theorem tearDown_onlyBatches (b n st : Nat) (blame : Option Nat) (s : State) : OnlyBatches s (tearDown b n st blame s) := by
  cases h : getBatch s b n with
  | none => exact .of_score (congrArg _ (tearDown_none h))
  | some y => cases torn : y.torn with
    | none =>
      unfold OnlyBatches
      rw [tearDown_score h torn]
      rfl
    | some st' => exact .of_score (congrArg _ (tearDown_torn h (by simp [torn])))

theorem jobFault_onlyBatches (k : Nat) (c : Option (Nat × Nat)) (st a : Nat) (blame : Option Nat) (s : State) :
    OnlyBatches s (jobFault k c st a blame s) := by
  unfold jobFault
  extract_lets b t
  have ht : OnlyBatches s t := .of_score (logErr_score ..)
  split
  · exact ht.trans (tearDown_onlyBatches ..)
  · exact ht

theorem tearAll_onlyBatches (st : Nat) (s : State) : OnlyBatches s (tearAll st s) :=
  foldl_onlyBatches (fun _ _ => tearDown_onlyBatches ..) _ s

theorem endBatch_onlyBatches (b n : Nat) (s : State) : OnlyBatches s (endBatch b n s) := by
  unfold endBatch
  split
  · exact .of_score rfl
  · extract_lets t
    have ht : OnlyBatches s t := .of_score (foldl_score (fun s n => ite_score rfl (countFault_score ..)) _ s)
    exact ht.trans rfl

theorem closeTorn_onlyBatches (s : State) : OnlyBatches s (closeTorn s) :=
  (foldl_onlyBatches (fun _ _ => endBatch_onlyBatches ..) _ s).trans (by rfl)

/-! ### The end of an op leaves the lanes alone (R18, R68, R141, R258) -/

theorem foldl_lanes {α : Type} {f : State → α → State} (hf : ∀ s x, (f s x).score.lanes = s.score.lanes) (l : List α) (s : State) :
    (l.foldl f s).score.lanes = s.score.lanes := by
  induction l generalizing s with
  | nil => rfl
  | cons x l ih => exact (ih _).trans (hf s x)

theorem writing_lanes {work : State → State} (hw : ∀ s, (work s).score.lanes = s.score.lanes) (k : Nat) (s : State) :
    (writing k work s).score.lanes = s.score.lanes := hw _

@[simp] theorem addToken_lanes (t v : Nat) (c : Option (Nat × Nat)) (s : State) : (addToken t v c s).score.lanes = s.score.lanes := by
  unfold addToken
  extract_lets x u
  split
  · rfl
  · exact (jobFault_onlyBatches ..).lanes

@[simp] theorem signal_lanes (k : Nat) (o : IssuedOp) (s : State) : (signal k o s).score.lanes = s.score.lanes := by
  unfold signal
  split
  · exact addToken_lanes ..
  · rfl

@[simp] theorem finishBatch_lanes (b n : Nat) (s : State) : (finishBatch b n s).score.lanes = s.score.lanes := by
  unfold finishBatch
  extract_lets -merge -underBinder +onlyGivenNames t u
  have ht : t.score.lanes = s.score.lanes := by
    unfold t
    split
    · exact foldl_lanes (fun _ _ => by rfl) _ s
    · rfl
  rw [(endBatch_onlyBatches ..).lanes, stampFrames_score]
  exact ht

@[simp] theorem finishBatches_lanes (s : State) : (finishBatches s).score.lanes = s.score.lanes :=
  foldl_lanes (fun s x => by
    extract_lets written
    split
    · exact finishBatch_lanes ..
    · rfl) _ s

theorem settleTag_lanes (rl : Nat) (x : Measure) (a : Nat) (s : State) : (settleTag rl x a s).score.lanes = s.score.lanes := by
  simp [settleTag]

theorem settleSample_lanes (b n i : Nat) (l : LayerEntry) (rows : List Measure) (k : Nat) (s : State) :
    (settleSample b n i l rows k s).score.lanes = s.score.lanes := by
  unfold settleSample
  extract_lets hot
  split
  · rfl
  · split <;> rfl

@[simp] theorem settleLayer_lanes (b n l : Nat) (s : State) : (settleLayer b n l s).score.lanes = s.score.lanes := by
  unfold settleLayer
  extract_lets e rows t slots
  exact (foldl_lanes (fun s k => settleSample_lanes b n l e rows k s) slots t).trans
    (foldl_lanes (fun s x => foldl_lanes (fun s a => settleTag_lanes e.rl x a s) x.tags s) rows s)

@[simp] theorem afterLayer_lanes (k : Nat) (o : IssuedOp) (s : State) : (afterLayer k o s).score.lanes = s.score.lanes := by
  unfold afterLayer
  split
  · split
    · rfl
    · split
      · exact writing_lanes (settleLayer_lanes _ _ _) k s
      · rfl
  · rfl

theorem mapBatch_lanes (k : Nat) (p : Package) (b n : Nat) (d : VecDesc) (s : State) :
    (mapBatch k p b n d s).score.lanes = s.score.lanes := by
  unfold mapBatch
  split
  · rfl
  · extract_lets lists most t tracks lens u
    have ht : t.score.lanes = s.score.lanes := by
      refine foldl_lanes (fun s x => ?_) _ s
      dsimp only
      rw [poisonFrame_score, writing_lanes (fun s => congrArg Score.lanes (writePhys_score ..))]
      exact foldl_lanes (fun s v => congrArg Score.lanes (noteNms_score ..)) _ s
    clear_value t
    exact (addToken_lanes ..).trans ht

theorem takeDetections_lanes (k b n : Nat) (d : VecDesc) (s : State) : (takeDetections k b n d s).score.lanes = s.score.lanes := by
  unfold takeDetections
  split
  · rfl
  · extract_lets t
    rw [stampFrames_score]
    exact foldl_lanes (fun s x => by simp) _ s

@[simp] theorem afterNms_lanes (k : Nat) (o : IssuedOp) (s : State) : (afterNms k o s).score.lanes = s.score.lanes := by
  unfold afterNms
  split
  · extract_lets d
    split
    · rfl
    · split
      · split
        · exact addToken_lanes ..
        · rfl
      · split
        · exact mapBatch_lanes ..
        · split
          · exact takeDetections_lanes ..
          · rfl
  · rfl

end Sys2Proof.Machine
end

section
/-! The end of an op, the gate watchdog and the restart after it (R67 to R70): what OP_COMPLETE leaves of its lane and makes of its token,
how the watchdog tears the batches down, and from where the score goes on. -/

namespace Sys2Proof.Machine

section
variable {s : State}

/-! ### OP_COMPLETE (R68) -/

theorem afterLayer_outside {k : Nat} {o : IssuedOp} (h : o.ctx = none) (s : State) : afterLayer k o s = s := by
  simp [afterLayer, h]

theorem afterNms_outside {k : Nat} {o : IssuedOp} (h : o.ctx = none) (s : State) : afterNms k o s = s := by
  simp [afterNms, h]

/-- With no closed batch there is none to end. -/
theorem finishBatches_noneClosed (h : ∀ x ∈ s.score.batches, x.closed = []) : finishBatches s = s := by
  unfold finishBatches
  extract_lets belled
  have empty : belled = [] := by
    refine List.flatten_eq_nil_iff.mpr fun l hl => ?_
    obtain ⟨x, hx, rfl⟩ := List.mem_map.mp hl
    rw [h x.1 (List.fst_mem_of_mem_zipIdx hx), List.map_nil]
  rw [empty, List.foldl_nil]

theorem signal_silent {k : Nat} {o : IssuedOp} (h : opSig o.word = false) (s : State) : signal k o s = s := by
  simp [signal, h]

theorem closeOp_lanes (k : Nat) (r : RunningOp) (s : State) :
    (closeOp k r s).score.lanes = upd s.score.lanes k fun l => { l with running := none } := by
  simp [closeOp]

/-- A lane that is freed twice is freed. -/
theorem freeLane_freeLane (k : Nat) (s : State) :
    updLane k (fun l => { l with running := none }) (updLane k (fun l => { l with running := none }) s)
      = updLane k (fun l => { l with running := none }) s := by
  unfold updLane updScore upd
  simp only [List.modify_modify_eq]
  rfl

/-- An op ends outside every batch: its page pins go and the instant is noted, then it signals (R68, R169). -/
theorem closeOp_freed (k : Nat) (r : RunningOp) (s : State) :
    closeOp k r (updLane k (fun l => { l with running := none }) s)
      = finishBatches (signal k r.op (opDone (unpinPages r.pages (updLane k (fun l => { l with running := none }) s)))) := by
  unfold closeOp
  rw [freeLane_freeLane]
  rfl

end

section
variable {k : Nat} {l : Lane} {r : RunningOp} {s : State} (hl : s.score.lanes[k]? = some l) (hr : l.running = some r)
include hl hr

theorem exec_opComplete_waits (h : r.finished = false ∨ readsPending s k = true) : exec (.opComplete k) s = .next s := by
  have no : (r.finished && !readsPending s k) = false := by
    obtain h | h := h <;> simp [h]
  show execOpComplete k s = _
  simp only [execOpComplete, hl, hr, no, Bool.false_eq_true, if_false]
  rfl

variable (fin : r.finished = true) (reads : readsPending s k = false)
include fin reads

theorem exec_opComplete : exec (.opComplete k) s
    = .next (closeOp k r (afterNms k r.op (afterLayer k r.op (updLane k (fun l => { l with running := none }) s)))) := by
  show execOpComplete k s = _
  simp only [execOpComplete, hl, hr, fin, reads, Bool.not_false, Bool.and_self, if_true]
  rfl

theorem opComplete_freesLane : ∃ t, exec (.opComplete k) s = .next t ∧ (t.score.lanes[k]?).map (·.running) = some none := by
  refine ⟨_, exec_opComplete hl hr fin reads, ?_⟩
  simp [closeOp_lanes, upd, hl]

theorem exec_opComplete_outside (ctx : r.op.ctx = none) : exec (.opComplete k) s
    = .next (finishBatches (signal k r.op (opDone (unpinPages r.pages (updLane k (fun l => { l with running := none }) s))))) := by
  rw [exec_opComplete hl hr fin reads, afterLayer_outside ctx, afterNms_outside ctx, closeOp_freed]

end

/-! ### A token's increment (R65, R67) -/

section
variable {s : State} {t : Nat}

/-- The token block has not acted on the token in this cycle. -/
theorem cycleOf_fresh (h : ∀ y, tabGet t s.score.cycles = some y → y.count ≠ s.band.count) :
    cycleOf s t = { count := s.band.count, sum := token s t, setTo := none, used := 0 } := by
  unfold cycleOf
  split
  · next x e =>
    obtain ⟨found, now⟩ := Option.filter_eq_some_iff.mp e
    exact absurd (beq_iff_eq.mp (Bool.and_eq_true_iff.mp now).1) (h x found)
  · rfl

theorem addToken_fresh {v : Nat} {c : Option (Nat × Nat)} (h : ∀ y, tabGet t s.score.cycles = some y → y.count ≠ s.band.count)
    (le : token s t + v ≤ 65535) :
    addToken t v c s = setToken t (token s t + v) (updScore (fun c => { c with
      cycles := tabPut t { count := s.band.count, sum := token s t + v, setTo := none, used := 0 } c.cycles }) s) := by
  simp only [addToken, cycleOf_fresh h, le, if_true, min_eq_right le]
  rfl

end

@[simp] theorem unpinPages_band (ps : List Nat) (s : State) : (unpinPages ps s).band = s.band := by
  unfold unpinPages
  induction ps generalizing s with
  | nil => rfl
  | cons d ps ih => exact ih _

/-! ### GATE_WATCHDOG (R70) -/

/-- The instances of a batch id, closed or open. -/
def instances (b : Nat) (x : BatchId) : List (Nat × Nat) :=
  (x.closed.map fun y => (b, y.num)) ++ (match x.cur with | some y => [(b, y.num)] | none => [])

theorem mem_instances {b i n : Nat} {x : BatchId} :
    (b, n) ∈ instances i x ↔ i = b ∧ (n ∈ x.closed.map (·.num) ∨ n ∈ x.cur.map (·.num)) := by
  rw [instances, List.mem_append, and_or_left]
  refine or_congr ?_ ?_
  · simp only [List.mem_map, Prod.mk.injEq]
    tauto
  · cases x.cur with
    | none => simp
    | some y => simp [eq_comm]

/-- The instances that stand, of every batch id. -/
def standing (s : State) : List (Nat × Nat) := (s.score.batches.zipIdx.map fun x => instances x.2 x.1).flatten

theorem mem_standing {s : State} {b n : Nat} : (b, n) ∈ standing s ↔ ∃ x, s.score.batches[b]? = some x
    ∧ (n ∈ x.closed.map (·.num) ∨ n ∈ x.cur.map (·.num)) := by
  rw [standing, List.mem_flatten]
  constructor
  · rintro ⟨_, hl, h⟩
    obtain ⟨⟨x, i⟩, hx, rfl⟩ := List.mem_map.mp hl
    obtain ⟨rfl, named⟩ := mem_instances.mp h
    exact ⟨x, List.mk_mem_zipIdx_iff_getElem?.mp hx, named⟩
  · rintro ⟨x, hx, named⟩
    exact ⟨_, List.mem_map.mpr ⟨(x, b), List.mk_mem_zipIdx_iff_getElem?.mpr hx, rfl⟩, mem_instances.mpr ⟨rfl, named⟩⟩

theorem tearAll_eq (st : Nat) (s : State) : tearAll st s = (standing s).foldl (fun s x => tearDown x.1 x.2 st none s) s := rfl

/-- A teardown of one batch id leaves the others. -/
theorem tearDown_otherBatch {a b : Nat} (ne : a ≠ b) (n st : Nat) (blame : Option Nat) (s : State) :
    (tearDown a n st blame s).score.batches[b]? = s.score.batches[b]? := by
  cases h : getBatch s a n with
  | none => rw [tearDown_none h]
  | some y => cases torn : y.torn with
    | none =>
      rw [tearDown_score h torn]
      exact List.getElem?_modify_ne (h := ne) ..
    | some w => rw [tearDown_torn h (by simp [torn])]

/-- A batch id with one batch, a closed one. -/
structure Lone (x : BatchId) (y : Batch) : Prop where
  cur : x.cur = none
  closed : x.closed = [y]

section
variable {b st : Nat} {x : BatchId} {y : Batch} {s : State}

theorem getBatch_of_lone (h : Lone x y) (hx : s.score.batches[b]? = some x) : getBatch s b y.num = some y := by
  simp [getBatch, hx, h.cur, h.closed]

theorem mem_standing_of_lone (h : Lone x y) (hx : s.score.batches[b]? = some x) {n : Nat} : (b, n) ∈ standing s ↔ n = y.num := by
  simp [mem_standing, hx, h.cur, h.closed, eq_comm]

/-- The batch id after the teardown of its lone batch. -/
def tornAs (st : Nat) (x : BatchId) (y : Batch) : BatchId := { x with closed := [{ y with torn := some st, blame := none }] }

theorem lone_tornAs (h : Lone x y) (st : Nat) : Lone (tornAs st x y) { y with torn := some st, blame := none } := ⟨h.cur, rfl⟩

theorem tearDown_of_lone (h : Lone x y) (whole : y.torn = none) (hx : s.score.batches[b]? = some x) :
    (tearDown b y.num st none s).score.batches[b]? = some (tornAs st x y) := by
  rw [tearDown_score (getBatch_of_lone h hx) whole]
  simp [updBatch, upd, hx, h.cur, h.closed, tornAs]

/-- A fold of teardowns that names a lone batch tears it down, once. -/
theorem foldl_tearDown_of_lone (h : Lone x y) (whole : y.torn = none) (l : List (Nat × Nat)) (own : ∀ n, (b, n) ∈ l → n = y.num)
    (s : State) :
    (s.score.batches[b]? = some (tornAs st x y) →
      (l.foldl (fun s x => tearDown x.1 x.2 st none s) s).score.batches[b]? = some (tornAs st x y))
    ∧ (s.score.batches[b]? = some x → (b, y.num) ∈ l →
      (l.foldl (fun s x => tearDown x.1 x.2 st none s) s).score.batches[b]? = some (tornAs st x y)) := by
  induction l generalizing s with
  | nil => exact ⟨id, fun _ no => absurd no List.not_mem_nil⟩
  | cons e l ih =>
    obtain ⟨a, n⟩ := e
    obtain ⟨stays, falls⟩ := ih (fun n hn => own n (List.mem_cons_of_mem _ hn)) (tearDown a n st none s)
    by_cases here : a = b
    · subst here
      obtain rfl := own n List.mem_cons_self
      refine ⟨fun torn => stays ?_, fun hx _ => stays (tearDown_of_lone h whole hx)⟩
      rw [tearDown_torn (getBatch_of_lone (lone_tornAs h st) torn) rfl]
      exact torn
    · have other := tearDown_otherBatch here n st none s
      refine ⟨fun torn => stays (other.trans torn), fun hx hn => falls (other.trans hx) ?_⟩
      exact (List.mem_cons.mp hn).resolve_left fun e => here (congrArg Prod.fst e).symm

theorem tearAll_of_lone (h : Lone x y) (whole : y.torn = none) (hx : s.score.batches[b]? = some x) :
    (tearAll st s).score.batches[b]? = some (tornAs st x y) :=
  (foldl_tearDown_of_lone h whole (standing s) (fun _ => (mem_standing_of_lone h hx).mp) s).2 hx ((mem_standing_of_lone h hx).mpr rfl)

end

section
variable {k : Nat} {o : IssuedOp} {s : State}

/-- The watchdog's halt: the sequencer stops and the lanes drop the score's ops (R70). -/
def watchdogStop (s : State) : State :=
  updScore (fun c => { c with
    running := false, control := none, watchdogHalt := true
    lanes := c.lanes.map fun l => { l with cues := l.cues.filter fun q => q.cue.source != .score, held := [], due := [] } }) s

theorem exec_gateWatchdog (head : headOp s k = some o) (stuck : gateOk o.word s = false) (armed : s.score.watchdogHalt = false)
    (long : o.since + 1000 * imgWatchdog s.score.image < steadyNs s) :
    exec (.gateWatchdog k) s = .next (watchdogStop (tearAll 0x0420
      (logErr 0x0420 39 0 s { arg0 := k, arg1 := opWtok o.word, torn := true }))) := by
  show execGateWatchdog k s = _
  unfold execGateWatchdog
  split
  · next none => simp [headOp, none] at head
  · simp only [head, stuck, armed, long, Bool.not_false, decide_true, Bool.and_self, if_true]
    rfl

end

/-! ### SCORE_RESTART (R70) -/

section
variable {s : State}

theorem closeTorn_batches (s : State) : ∀ x ∈ (closeTorn s).score.batches, x.cur = none ∧ x.closed = [] := by
  intro x hx
  obtain ⟨y, -, rfl⟩ := List.mem_map.mp (show x ∈ List.map dropBatches _ from hx)
  exact ⟨rfl, rfl⟩

/-- The score as SCORE_RESTART reloads it. -/
def reloadScore (s : State) : State :=
  updScore (fun c => { c with
    tokens := initialTokens c.image, cycles := [], claims := zeroClaims c.claims, watchdogHalt := false
    pc := imgTarget s.score.image (imgRestart s.score.image) }) (closeTorn s)

theorem reloadScore_score (s : State) : (reloadScore s).score = { s.score with
    tokens := initialTokens s.score.image, cycles := [], claims := zeroClaims s.score.claims, watchdogHalt := false
    pc := imgTarget s.score.image (imgRestart s.score.image), batches := (closeTorn s).score.batches } := by
  have same := closeTorn_onlyBatches s
  unfold reloadScore
  generalize closeTorn s = t at same ⊢
  rw [updScore_score, same]

theorem restartPoint_reloadScore (s : State) : restartPoint (reloadScore s) = restartPoint s := by
  unfold restartPoint
  rw [reloadScore_score]

variable (halt : s.score.watchdogHalt = true) (idle : ∀ l ∈ s.score.lanes, l.running = none) (power : s.power.breath = false)
include halt idle power

theorem exec_scoreRestart : exec .scoreRestart s = .next (
    if s.score.haltReq then haltScore (imgTarget s.score.image (imgRestart s.score.image)) (reloadScore s)
    else
      let p := restartPoint s
      logErr 0x0420 39 0 (updScore (fun c => { c with beat := p.1, epoch := p.2, armed := true }) (reloadScore s))
        { arg0 := p.2 + 64 * p.1, arg1 := p.2 }) := by
  have free : s.score.lanes.all (fun l => l.running.isNone) = true := List.all_eq_true.mpr fun l hl => by rw [idle l hl]; rfl
  show execScoreRestart s = _
  simp only [execScoreRestart, halt, free, power, Bool.not_false, Bool.and_self, if_true]
  rw [← restartPoint_reloadScore s]
  unfold reloadScore
  generalize updScore _ (closeTorn s) = t
  cases s.score.haltReq <;> simp only [done, Bool.false_eq_true, if_false, if_true]

end

/-! ### The clauses of `OpsCompleteAndTheWatchdogHalts` -/

section
variable {k : Nat} {l : Lane} {r : RunningOp} {s : State} (hl : s.score.lanes[k]? = some l) (hr : l.running = some r)
  (fin : r.finished = true) (reads : readsPending s k = false) (ctx : r.op.ctx = none)
  (noneClosed : ∀ x ∈ s.score.batches, x.closed = [])
include hl hr fin reads ctx noneClosed

theorem opComplete_silent (sig : opSig r.op.word = false) :
    exec (.opComplete k) s = .next (opDone (unpinPages r.pages (updLane k (fun l => { l with running := none }) s))) := by
  rw [exec_opComplete_outside hl hr fin reads ctx, signal_silent sig, finishBatches_noneClosed]
  simpa [opDone] using noneClosed

theorem opComplete_signals (sig : opSig r.op.word = true) (lt : token s (opStok r.op.word) < 65535)
    (fresh : ∀ y, tabGet (opStok r.op.word) s.score.cycles = some y → y.count ≠ s.band.count) :
    let n := token s (opStok r.op.word) + 1
    let v := signalWrites k (opStok r.op.word) (opDone (unpinPages r.pages (updLane k (fun l => { l with running := none }) s)))
    exec (.opComplete k) s = .next (setToken (opStok r.op.word) n { v with score := { v.score with
      cycles := tabPut (opStok r.op.word) { count := s.band.count, sum := n, setTo := none, used := 0 } v.score.cycles } }) := by
  intro n v
  have score : v.score = { s.score with
      lanes := upd s.score.lanes k fun l => { l with running := none }, lastDone := v.score.lastDone } := by
    simp [v, signalWrites, opDone]
  have band : v.band = s.band := by simp [v, signalWrites, opDone]
  have value : token v (opStok r.op.word) = token s (opStok r.op.word) := by rw [token, score, token]
  have added := addToken_fresh (v := 1) (c := r.op.ctx) (by rwa [score, band]) (by rw [value]; exact lt)
  rw [value, band] at added
  rw [exec_opComplete_outside hl hr fin reads ctx, signal, if_pos sig]
  show Host.Outcome.next (finishBatches (addToken _ 1 r.op.ctx v)) = _
  rw [added, finishBatches_noneClosed]
  · rfl
  · rw [setToken, updScore_score, updScore_score, score]
    exact noneClosed

end

section
variable {s : State}

theorem gateWatchdog_halts {k : Nat} {o : IssuedOp} (head : headOp s k = some o) (stuck : gateOk o.word s = false)
    (armed : s.score.watchdogHalt = false) (long : o.since + 1000 * imgWatchdog s.score.image < steadyNs s) :
    ∃ t, exec (.gateWatchdog k) s = .next t ∧ t.score.running = false ∧ t.score.control = none ∧ t.score.watchdogHalt = true
      ∧ t.score.lanes = s.score.lanes.map (fun l => { l with
        cues := l.cues.filter fun q => q.cue.source != .score, held := [], due := [] })
      ∧ ∀ (b : Nat) (x : BatchId) (y : Batch), s.score.batches[b]? = some x → x.cur = none → x.closed = [y] → y.torn = none →
        (t.score.batches[b]?).map (·.closed) = some [{ y with torn := some 0x0420, blame := none }] := by
  refine ⟨_, exec_gateWatchdog head stuck armed long, rfl, rfl, rfl, ?_, fun b x y hx cur closed whole => ?_⟩
  · rw [watchdogStop, updScore_score, (tearAll_onlyBatches ..).lanes, logErr_score]
  · have lone : Lone x y := ⟨cur, closed⟩
    rw [watchdogStop, updScore_score, tearAll_of_lone lone whole (by rwa [logErr_score])]
    rfl

theorem scoreRestart_restarts (halt : s.score.watchdogHalt = true) (idle : ∀ l ∈ s.score.lanes, l.running = none)
    (power : s.power.breath = false) :
    let c := s.score
    let at_ := imgTarget c.image (imgRestart c.image)
    ∃ t, exec .scoreRestart s = .next t ∧ t.score.watchdogHalt = false ∧ t.score.tokens = initialTokens c.image
      ∧ t.score.claims = zeroClaims c.claims ∧ t.score.pc = at_ ∧ (∀ x ∈ t.score.batches, x.cur = none ∧ x.closed = [])
      ∧ (c.haltReq = true → t.score.running = false ∧ t.score.resumeAt = at_ ∧ t.score.armed = c.armed)
      ∧ (c.haltReq = false → t.score.armed = true ∧ (t.score.beat, t.score.epoch) = restartPoint s) := by
  intro c at_
  have run := exec_scoreRestart halt idle power
  cases req : s.score.haltReq with
  | true =>
    rw [req, if_pos rfl] at run
    refine ⟨_, run, ?_⟩
    simp only [haltScore, updScore_score, updPower_score, reloadScore_score]
    exact ⟨trivial, rfl, rfl, rfl, closeTorn_batches s, fun _ => ⟨trivial, rfl, rfl⟩, nofun⟩
  | false =>
    rw [req, if_neg Bool.false_ne_true] at run
    refine ⟨_, run, ?_⟩
    simp only [logErr_score, updScore_score, reloadScore_score]
    exact ⟨trivial, rfl, rfl, rfl, closeTorn_batches s, nofun, fun _ => ⟨trivial, trivial⟩⟩

end

/-- Settles O27: what follows an op's end leaves its lane alone, the watchdog's teardowns meet each lone batch once, and the restart
reloads the score but for its lanes. -/
theorem opsCompleteAndTheWatchdogHalts : Obligations.OpsCompleteAndTheWatchdogHalts := by
  unfold Obligations.OpsCompleteAndTheWatchdogHalts
  refine ⟨fun k l r s hl hr => ⟨exec_opComplete_waits hl hr, opComplete_freesLane hl hr, fun fin reads ctx none => ⟨?_, ?_⟩⟩,
    fun k o s => gateWatchdog_halts, fun s => scoreRestart_restarts⟩
  · exact opComplete_silent hl hr fin reads ctx none
  · exact opComplete_signals hl hr fin reads ctx none

end Sys2Proof.Machine
end

section
/-! What the shared words of the Bandstand and of the cue pins do, said once: a change of one element of a list, an event that happens, bits
of TIM_STAT. -/

namespace Sys2Proof.Machine

/-! ### One element of a list (R15) -/

section
variable {α : Type} {l : List α} {i : Nat} {x : α} {f g : α → α}

theorem getElem?_upd_self (h : l[i]? = some x) : (upd l i f)[i]? = some (f x) := by
  rw [upd, List.getElem?_modify_eq, h]
  rfl

theorem getElem?_upd_other {j : Nat} (ne : i ≠ j) : (upd l i f)[j]? = l[j]? := List.getElem?_modify_ne (h := ne) ..

/-- A change of an element that stands is that element put in its place. -/
theorem upd_eq_set (h : l[i]? = some x) : upd l i f = l.set i (f x) := by
  refine List.ext_getElem? fun j => ?_
  obtain ⟨lt, -⟩ := List.getElem?_eq_some_iff.mp h
  by_cases e : i = j
  · subst e
    rw [getElem?_upd_self h, List.getElem?_set_self lt]
  · rw [getElem?_upd_other e, List.getElem?_set_ne e]

/-- Two changes that agree on the element are one. -/
theorem upd_congr (h : l[i]? = some x) (e : f x = g x) : upd l i f = upd l i g := by
  rw [upd_eq_set h, upd_eq_set h, e]

/-- A change that leaves the element as it is. -/
theorem upd_fixed (h : l[i]? = some x) (e : f x = x) : upd l i f = l := by
  rw [upd_congr (g := id) h e, upd, List.modify_id]

/-- A change that changes no element. -/
theorem upd_same (h : ∀ x, f x = x) : upd l i f = l := by
  have e : f = id := funext h
  rw [upd, e, List.modify_id]

end

/-! ### Events (log 10) and indices (R15) -/

theorem doneIf_pos {b : Bool} (h : b = true) (t s : State) : doneIf b t s = .next t := by rw [doneIf, h, if_pos rfl]

theorem inRange_pos {b : Bool} (h : b = true) (s : State) (r : Res) : inRange b s r = r := by rw [inRange, h, if_pos rfl]

/-! ### TIM_STAT (R399) -/

theorem tabGet_tabPut_self {α : Type} (k : Nat) (v : α) : ∀ t : Tab α, tabGet k (tabPut k v t) = some v
  | [] => by simp [tabPut, tabGet]
  | (a, w) :: t => by
    unfold tabPut
    split
    · simp [tabGet]
    · split
      · simp [tabGet]
      · rename_i ne le
        rw [tabGet, if_neg ne, if_neg le, tabGet_tabPut_self k v t]

/-- A bit that is set in a stored register reads 1. -/
theorem reg_orReg_bit {off b : Nat} {m : BitVec 32} (h : m.getLsbD b = true) (s : State) : (reg (orReg off m s) off).getLsbD b = true := by
  have set : (reg s off ||| m).getLsbD b = true := by rw [BitVec.getLsbD_or, h, Bool.or_true]
  have ne : reg s off ||| m ≠ 0 := fun e => by simp [e] at set
  rw [orReg, setReg, if_neg ne, reg, tabGetD, tabGet_tabPut_self]
  exact set

theorem setTimStat_frame (m : BitVec 32) (s : State) :
    setTimStat m s = { orReg 0x200024 m s with
      gate := { (orReg 0x200024 m s).gate with pba := (setTimStat m s).gate.pba, inta := (setTimStat m s).gate.inta }
      out := (setTimStat m s).out } := withCauses_frame ..

/-- TIM_STAT holds what is set in it. -/
theorem reg_setTimStat (m : BitVec 32) (s : State) : reg (setTimStat m s) 0x200024 = reg (orReg 0x200024 m s) 0x200024 := by
  rw [setTimStat_frame]
  rfl

@[simp] theorem setTimStat_band (m : BitVec 32) (s : State) : (setTimStat m s).band = s.band := by
  rw [setTimStat_frame]
  rfl

end Sys2Proof.Machine
end

section
/-! The Bandstand (R31 to R58): the idle step, the beacon and the replicas, losses and changes of the clock, the servo, the PTP exchange, steps. -/

namespace Sys2Proof.Machine

/-! ### Steps of the block -/

/-- Settles O57: a step takes the front of the queue, and an idle step advances the Bandstand alone. -/
theorem commandsAreTakenInTurn : Obligations.CommandsAreTakenInTurn := by
  unfold Obligations.CommandsAreTakenInTurn
  refine ⟨fun c rest s h => ?_, fun c s => rfl, fun s h => ⟨idle s, ?_, rfl, fun pll => ?_⟩⟩
  · rw [step, h]
  · rw [step, h]
  · show (advance s.idleCycles s.band).steady = s.band.steady + 2 * s.idleCycles
    rw [advance, if_pos pll]

/-! ### States of R48 and the error estimate (R54, R57) -/

section
variable {s : State}

theorem enterState_band (x : TimeState) (s : State) : (enterState x s).band = { s.band with tstate := x } := by
  unfold enterState
  split
  · next same => rw [← same]
  · exact setTimStat_band ..

theorem enterState_same {x : TimeState} (h : s.band.tstate = x) : enterState x s = s := if_pos h

theorem enterState_notes {x : TimeState} (h : s.band.tstate ≠ x) : (reg (enterState x s) 0x200024).getLsbD 1 = true := by
  rw [enterState, if_neg h, reg_setTimStat]
  exact reg_orReg_bit (by decide) _

theorem errEstimate_onOscillator {e : Nat} (free : s.band.tstate ≠ .free) (osc : s.band.onPll = false) (base : s.band.errBase = some e) :
    errEstimate s = some (e + (nowNs s - s.band.errFrom) * 50000 / 1000000000) := by
  simp [errEstimate, grownEstimate, free, osc, base]

theorem exec_disciplineLoss {src : TimeSource} {n : Nat} (src_eq : s.band.source = src) (loss : lossInterval s.band src = some n)
    (port : sourcePort src = none) (serving : s.band.tstate = .acquire ∨ s.band.tstate = .locked) (thaw : timeFrozen s = false)
    (late : s.band.lastSample + n ≤ s.band.steady) :
    exec .disciplineLoss s = .next (enterState .holdover { s with
      band := { s.band with
        errBase := errEstimate s, errFrom := nowNs s, source := .none, lockRun := 0, badRun := 0 } }) := by
  subst src_eq
  have isLate : sourceLate s = true := by
    rcases serving with h | h <;> simp [sourceLate, h, thaw, loss, late]
  show doneIf (sourceLate s) (loseSource s) s = _
  rw [doneIf_pos isLate, loseSource, forgetMaster, port]
  rfl

theorem exec_timePllLock (main : s.power.maingood = true) (ref : s.power.timeref = true) :
    exec .timePllLock s = .next (lockPll s) := doneIf_pos (by rw [main, ref]; rfl) _ _

end

/-- Settles O2: each event's condition holds by its hypotheses, and its meaning is the stated state. -/
theorem timeEventsActOnTheBandstand : Obligations.TimeEventsActOnTheBandstand := by
  unfold Obligations.TimeEventsActOnTheBandstand
  refine ⟨fun n s lt run => ?_, fun period s pll ref run => ?_, fun s pll lost => ?_, fun s osc main ref => ⟨fun free => ?_, fun free => ?_⟩,
    fun s => ⟨fun free => ?_, fun e => errEstimate_onOscillator⟩, fun src n s row src_eq serving thaw late => ?_,
    fun x s => ⟨enterState_band x s, enterState_same, enterState_notes⟩⟩
  · exact (inRange_pos (decide_eq_true lt) _ _).trans (doneIf_pos run _ _)
  · exact doneIf_pos (by rw [pll, ref, run]; rfl) _ _
  · exact doneIf_pos (by rcases lost with h | h <;> simp [pll, h]) _ _
  · rw [exec_timePllLock main ref, lockPll, osc]
    exact congrArg Host.Outcome.next (if_neg free)
  · rw [exec_timePllLock main ref, lockPll, osc]
    exact congrArg Host.Outcome.next (if_pos free)
  · exact if_pos free
  · rcases row with h | h
    · obtain ⟨rfl, rfl⟩ := Prod.mk.inj h
      exact exec_disciplineLoss src_eq rfl rfl serving thaw late
    · obtain ⟨rfl, rfl⟩ := Prod.mk.inj h
      exact exec_disciplineLoss src_eq rfl rfl serving thaw late

end Sys2Proof.Machine
end

section
/-! Beacons (R34, R35): a Gray code gives its count back, and a beacon goes from island to island. -/

namespace Sys2Proof.Machine

/-! ### The count of a beacon (R34) -/

/-- A round of decoding doubles the distance at which the code differs from its count. -/
theorem grayFold_shifted (n : BitVec 64) (k : Nat) : grayFold (n ^^^ n >>> k) k = n ^^^ n >>> (k + k) := by
  rw [grayFold, BitVec.ushiftRight_xor_distrib, BitVec.shiftRight_add, BitVec.xor_assoc, ← BitVec.xor_assoc (n >>> k), BitVec.xor_self,
    BitVec.zero_xor]

theorem ofGray_grayOf (n : BitVec 64) : ofGray (grayOf n) = n := by
  simp only [ofGray, grayOf, List.foldl_cons, List.foldl_nil, grayFold_shifted, Nat.reduceAdd]
  rw [BitVec.ushiftRight_eq_zero (Nat.le_refl 64), BitVec.xor_zero]

/-! ### The islands (R34, R35) -/

section
variable {s : State} {drift : List Int}

/-- What a beacon may touch: the islands and what a log entry touches. -/
def BeaconFrame (s t : State) : Prop :=
  t = { s with
    islands := t.islands, err := t.err, mem := withDevice s.mem t.mem
    gate := { s.gate with pba := t.gate.pba, inta := t.gate.inta }, out := t.out }

theorem BeaconFrame.log {s t u : State} (h : BeaconFrame s t) (k : LogFrame t u) : BeaconFrame s u := by
  unfold BeaconFrame LogFrame at *
  rw [k, h]

theorem BeaconFrame.island {s t : State} (h : BeaconFrame s t) (n : Nat) (f : Island → Island) : BeaconFrame s (updIsland n f t) := by
  unfold BeaconFrame at *
  rw [h]
  rfl

theorem beaconAt_frame (drift : List Int) (s : State) (n : Nat) : BeaconFrame s (beaconAt drift s n) := by
  induction n with
  | zero => rfl
  | succ n ih =>
    unfold beaconAt
    extract_lets t
    split
    · exact ih
    · split
      · exact ih
      · split
        · exact ih.island ..
        · extract_lets e u
          split
          · exact (ih.island ..).log (logErr_frame ..)
          · exact ih.island ..

theorem logErr_islands (st i u : Nat) (s : State) (a : LogArgs) : (logErr st i u s a).islands = s.islands := by rw [logErr_frame]

/-- What island `n` makes of the beacon that the Bandstand has sent (R34, R35). -/
def heard (drift : List Int) (s : State) (n : Nat) (x : Island) : Island :=
  if x.gated then x
  else if x.skips then { x with skips := false }
  else takeBeacon s.band.beaconRate (beaconDiff s.band s.band.lastBeacon (drift.getD n 0) x) x

theorem beaconAt_band (n : Nat) : (beaconAt drift s n).band = s.band := by rw [beaconAt_frame]

/-- One island more hears the beacon. -/
theorem beaconAt_succ_islands (n : Nat) :
    (beaconAt drift s (n + 1)).islands = upd (beaconAt drift s n).islands n (heard drift s n) := by
  rw [beaconAt]
  have band := beaconAt_band (s := s) (drift := drift) n
  generalize beaconAt drift s n = t at band ⊢
  dsimp only
  split
  · next out => exact (List.modify_eq_self (List.getElem?_eq_none_iff.mp out)).symm
  · next x hx =>
    rw [band]
    split
    · next gated =>
      have still : heard drift s n x = x := if_pos gated
      exact (upd_fixed hx still).symm
    · next runs =>
      have own : heard drift s n x = if x.skips then { x with skips := false } else takeBeacon _ _ x := if_neg runs
      split
      · next skips => exact upd_congr hx (own.trans (if_pos skips)).symm
      · next takes =>
        have heard_eq := own.trans (if_neg takes)
        split
        · rw [logErr_islands]
          exact upd_congr hx heard_eq.symm
        · exact upd_congr hx heard_eq.symm

theorem beaconAt_island {m n : Nat} {x : Island} (h : s.islands[m]? = some x) :
    (beaconAt drift s n).islands[m]? = some (if m < n then heard drift s m x else x) := by
  induction n with
  | zero => exact h
  | succ n ih =>
    rw [beaconAt_succ_islands]
    by_cases e : n = m
    · subst e
      rw [if_neg (Nat.lt_irrefl n)] at ih
      rw [getElem?_upd_self ih, if_pos (Nat.lt_succ_self n)]
    · rw [getElem?_upd_other e, ih]
      have : m < n ↔ m < n + 1 := by omega
      simp only [this]

/-- The difference that a beacon finds: its count is the instant at which it was sent, so that only slew and drift are left (R34). -/
theorem beaconDiff_sendBeacon (d : Int) (x : Island) :
    beaconDiff (sendBeacon s).band (sendBeacon s).band.lastBeacon d x = x.replicaErr - x.slew + d := by
  have small : beaconInstant s < 2 ^ 64 := by
    have : nowNs s < 2 ^ 64 := Nat.mod_lt _ (by decide)
    have : beaconInstant s ≤ nowNs s := Nat.div_mul_le_self ..
    omega
  have sent : beaconTime (sendBeacon s).band = beaconInstant s := by
    show (((ofGray (grayOf (BitVec.ofNat 64 (beaconInstant s)))).toNat : Nat) : Int) = _
    rw [ofGray_grayOf, BitVec.toNat_ofNat, Nat.mod_eq_of_lt small]
  rw [beaconDiff, sent, replicaAt]
  show (beaconInstant s : Int) + _ + _ - _ = _
  omega

end

/-- Settles O1: a beacon leaves what `BeaconFrame` leaves, and each island is what it makes of the difference that it finds. -/
theorem beaconAlignsReplicas : Obligations.BeaconAlignsReplicas := by
  unfold Obligations.BeaconAlignsReplicas
  intro drift s due word at_ gray
  refine ⟨beaconAt drift (sendBeacon s) 61, doneIf_pos due _ _, beaconAt_frame drift (sendBeacon s) 61, fun n x lt hx => ?_⟩
  rw [beaconAt_island (s := sendBeacon s) hx, if_pos lt, heard, beaconDiff_sendBeacon]
  rfl

end Sys2Proof.Machine
end

section
/-! The servo (R48 to R50) on an edge of PPS_IN, and the PTP exchange (R197) that ends in an offset for it. -/

namespace Sys2Proof.Machine

/-! ### PPS_IN_EDGE (R48 to R50) -/

section
variable {s : State} {stamp : Nat}

/-- A sample of the current source goes to the servo (R47). -/
theorem takeSample_current {theta : Int} (thaw : timeFrozen s = false) (listed : s.band.order.contains .ppsIn = true)
    (src : s.band.source = .ppsIn) (serving : s.band.tstate = .acquire ∨ s.band.tstate = .locked) :
    takeSample .ppsIn theta s = servo theta s := by
  have busy : (s.band.tstate == .free || s.band.tstate == .holdover) = false := by rcases serving with h | h <;> rw [h] <;> rfl
  simp only [takeSample, thaw, listed, busy, src]
  rfl

/-- The Bandstand as the servo has it after a sample that asks for no step, before the state changes (R48, R49). -/
def steered (src : TimeSource) (theta : Int) (b : Band) : Band :=
  { b with
    lastTheta := theta, lastSample := b.steady, integ := b.integ + theta
    rate := clamp (-fullRate) fullRate (-((theta * (kiInv src / kpInv src : Nat) + (b.integ + theta))
      * (samplesPerSecond b src : Nat) * 2 ^ 16 / (kiInv src : Nat)))
    lockRun := if theta.natAbs < lockBound src then b.lockRun + 1 else 0
    badRun := if 10000 * 2 ^ 16 < theta.natAbs then b.badRun + 1 else 0 }

/-- The state of R48 after a sample: it locks on a run of good samples, and leaves LOCKED on the fourth bad one. -/
def settled (src : TimeSource) (s : State) : State :=
  let t := if lockCount src ≤ s.band.lockRun then enterState .locked s else s
  if t.band.tstate == .locked && 4 ≤ s.band.badRun then
    enterState .acquire (updBand (fun b => { b with badRun := 0, lockRun := 0 }) t)
  else t

/-- A step that is asked for waits, or is slewed out; nothing else of the Bandstand changes. -/
theorem requestStep_band (d : Int) (s : State) : (requestStep d s).band = { s.band with
    slewLeft := (requestStep d s).band.slewLeft, pendingStep := (requestStep d s).band.pendingStep } := by
  unfold requestStep
  split <;> rfl

theorem servo_far {theta : Int} (src : s.band.source = .ppsIn) (acquire : s.band.tstate = .acquire)
    (far : stepThreshold .ppsIn < theta.natAbs) :
    servo theta s = requestStep (-theta) (updBand (fun b => { b with
      lastTheta := theta, lastSample := b.steady, integ := 0, lockRun := 0 }) s) := by
  have step : (s.band.tstate == .acquire && decide (stepThreshold .ppsIn < theta.natAbs)) = true := by
    rw [acquire, decide_eq_true far]
    rfl
  rw [servo, src, if_neg (by decide)]
  exact if_pos step

theorem servo_near {theta : Int} (src : s.band.source = .ppsIn)
    (near : s.band.tstate = .locked ∨ theta.natAbs ≤ stepThreshold .ppsIn) : servo theta s = settled .ppsIn (updBand (steered .ppsIn theta) s) := by
  have noStep : ¬ (s.band.tstate == .acquire && decide (stepThreshold .ppsIn < theta.natAbs)) = true := by
    rcases near with h | h
    · rw [h]
      exact Bool.false_ne_true
    · rw [decide_eq_false (Nat.not_lt_of_le h), Bool.and_false]
      exact Bool.false_ne_true
  rw [servo, src, if_neg (by decide)]
  exact if_neg noStep

theorem settled_keeps (src : TimeSource) (s : State) :
    ((settled src s).band.lastTheta, (settled src s).band.lastSample, (settled src s).band.source, (settled src s).band.integ, (settled src s).band.rate)
      = (s.band.lastTheta, s.band.lastSample, s.band.source, s.band.integ, s.band.rate) := by
  unfold settled
  extract_lets t
  have same : t.band = { s.band with tstate := t.band.tstate } := by
    unfold t
    split
    · rw [enterState_band]
    · rfl
  split
  · rw [enterState_band, updBand_band, same]
  · rw [same]

theorem settled_locked (src : TimeSource) (s : State) :
    (settled src s).band.tstate = .locked ↔ (lockCount src ≤ s.band.lockRun ∨ s.band.tstate = .locked) ∧ s.band.badRun < 4 := by
  unfold settled
  extract_lets t
  have locked : t.band.tstate = .locked ↔ lockCount src ≤ s.band.lockRun ∨ s.band.tstate = .locked := by
    unfold t
    split
    · next run => simp [enterState_band, run]
    · next run => simp [run]
  rw [← locked]
  split
  · next lost =>
    obtain ⟨-, bad⟩ := Bool.and_eq_true_iff.mp lost
    have := of_decide_eq_true bad
    rw [enterState_band]
    exact ⟨nofun, fun h => absurd h.2 (by omega)⟩
  · next stays =>
    refine ⟨fun h => ⟨h, ?_⟩, And.left⟩
    by_contra bad
    exact stays (by simp [h, Nat.le_of_not_lt bad])

end

/-- Settles O3: the sample goes to the servo, which asks for a step or steers and settles. -/
theorem servoDisciplinesTheRate : Obligations.ServoDisciplinesTheRate := by
  unfold Obligations.ServoDisciplinesTheRate
  intro stamp s running pins seconds thaw listed src serving off theta integ run bad
  have scaled : theta.natAbs = off.natAbs * 65536 := Int.natAbs_mul ..
  have threshold : stepThreshold .ppsIn = 1000 * 65536 := rfl
  have edge : exec (.ppsInEdge stamp) s = .next (servo theta s) := by
    show execPpsInEdge stamp s = _
    rw [execPpsInEdge, doneIf_pos (by rw [running, pins, seconds]; rfl), takeSample_current thaw listed src serving]
    rfl
  refine ⟨_, edge, ?_⟩
  by_cases far : s.band.tstate = .acquire ∧ 1000 < off.natAbs
  · obtain ⟨acquire, far⟩ := far
    rw [servo_far src acquire (by omega)]
    refine ⟨by rw [requestStep_band]; rfl, by rw [requestStep_band]; rfl, by rw [requestStep_band]; exact src, fun _ _ => rfl, fun near => ?_⟩
    rw [acquire] at near
    exact absurd (near.resolve_left nofun) (by omega)
  · have near : s.band.tstate = .locked ∨ off.natAbs ≤ 1000 := by
      rcases serving with h | h
      · exact .inr (Nat.le_of_not_lt fun n => far ⟨h, n⟩)
      · exact .inl h
    rw [servo_near src (near.imp_right fun h => by omega)]
    have keeps := settled_keeps .ppsIn (updBand (steered .ppsIn theta) s)
    simp only [Prod.mk.injEq] at keeps
    obtain ⟨hTheta, hSample, hSource, hInteg, hRate⟩ := keeps
    refine ⟨hTheta, hSample, hSource.trans src, fun h n => absurd ⟨h, n⟩ far, fun _ => ⟨hInteg, hRate.trans ?_, ?_⟩⟩
    · simp only [updBand_band, steered, kiInv, kpInv, samplesPerSecond]
      norm_num [fullRate]
      rfl
    · have good : theta.natAbs < lockBound .ppsIn ↔ off.natAbs < 50 := by
        rw [scaled, lockBound]
        omega
      have wrong : 10000 * 2 ^ 16 < theta.natAbs ↔ 10000 < off.natAbs := by
        rw [scaled]
        omega
      rw [settled_locked, updBand_band]
      simp only [steered, lockCount, good, wrong]
      rfl

/-! ### PTP_MESSAGE (R197) -/

section
variable {port : Nat} {h : PtpHeader} {p : PtpPort} {s : State}

theorem updPtp_congr {f g : PtpPort → PtpPort} (hp : s.band.ptp[port]? = some p) (e : f p = g p) : updPtp port f s = updPtp port g s := by
  rw [updPtp, updPtp, updBand, updBand, upd_congr hp e]

theorem ptpPort_of (hp : s.band.ptp[port]? = some p) : ptpPort s port = p := by
  rw [ptpPort, List.getD_eq_getElem?_getD, hp]
  rfl

/-- A sender's first Announce is only noted. -/
theorem takeAnnounce_first {now : Nat} {sender : List Byte} (d : List Byte) (first : ∀ f ∈ p.foreign, f.1 ≠ sender) :
    takeAnnounce now d sender p = { p with foreign :=
      (p.foreign.filter fun f => f.1 != sender && decide (now ≤ f.2 + 8000000000)) ++ [(sender, now)] } := by
  have unheard : announceCounts now d sender p = false := by
    rw [announceCounts, Bool.and_eq_false_iff]
    exact .inl (List.any_eq_false.mpr fun f hf => by simp [first f hf])
  rw [takeAnnounce, unheard]
  rfl

/-- The next Announce of a sender, with no master named, names it. -/
theorem takeAnnounce_names {now : Nat} {sender d : List Byte} {f : List Byte × Nat} (free : p.master = none) (hf : f ∈ p.foreign)
    (own : f.1 = sender) (soon : now ≤ f.2 + 8000000000) (near : slice d 14 2 ≠ [0x00, 0xFF]) :
    takeAnnounce now d sender p = { PtpPort.reset with
      master := some (d, sender), nextReq := p.nextReq, heard := now
      foreign := (p.foreign.filter fun f => f.1 != sender && decide (now ≤ f.2 + 8000000000)) ++ [(sender, now)] } := by
  have counts : announceCounts now d sender p = true := by
    rw [announceCounts, Bool.and_eq_true_iff]
    exact ⟨List.any_eq_true.mpr ⟨f, hf, by simp [own, announceNs, soon]⟩, bne_iff_ne.mpr near⟩
  rw [takeAnnounce, counts, free]
  rfl

/-- A message that reaches a port in service is taken. -/
theorem ptp_taken (lt : port < 2) (run : s.power.running = true) (serves : unitFenced s 3 port = false) (awake : asleep s 3 = false)
    (r : Res) : inRange (decide (port < 2)) s (if !s.power.running || unitFenced s 3 port || asleep s 3 then done s else r) = r := by
  rw [inRange_pos (decide_eq_true lt), run, serves, awake]
  rfl

theorem ptpHeard_of (domain : h.domain = s.band.ptpDomain) (transport : h.transport = s.band.ptpTransport) : ptpHeard h s = true := by
  rw [ptpHeard, domain, transport, beq_self_eq_true, beq_self_eq_true]
  rfl

theorem ptpMine_of {d : List Byte} (hp : s.band.ptp[port]? = some p) (heard : ptpHeard h s = true) (runs : ptpRuns s port = true)
    (master : p.master = some (d, h.sender)) : ptpMine port h s = true := by
  rw [ptpMine, heard, runs, ptpPort_of hp, master]
  simp

/-- The delay request that a complete Sync brings. -/
theorem askDelay_eq {f : PtpPort → PtpPort} (hp : s.band.ptp[port]? = some p) (req : (f p).nextReq = p.nextReq) :
    askDelay port (updPtp port f s) = emit (.ptpDelayReq port p.nextReq) (updPtp port (fun p =>
      { p with haveSync := true, asked := some p.nextReq, t3 := none, nextReq := (p.nextReq + 1) % 65536 }) (updPtp port f s)) := by
  have hq : (updPtp port f s).band.ptp[port]? = some (f p) := getElem?_upd_self hp
  rw [askDelay, ptpPort_of hq, req]
  refine congrArg _ (updPtp_congr hq ?_)
  rw [req]

end

/-- Settles O5: a message that a port in service takes is its case of PTP_MESSAGE, and a change of a port's clock is that of the clock
which stands there. -/
theorem ptpExchangesGiveOffsets : Obligations.PtpExchangesGiveOffsets := by
  unfold Obligations.PtpExchangesGiveOffsets
  intro port h s lt run serves awake domain transport p hp put interval asks others noted
  have taken := ptp_taken lt run serves awake
  have heard := ptpHeard_of domain transport
  refine ⟨fun d first => ?_, fun d f free hf own soon near => ?_, fun seq stamp asked => ?_, fun d master runs =>
    ⟨fun seq n origin corr stamp => ?_, fun seq n origin corr stamp => ?_, fun seq origin corr syncSeq => ?_,
      fun seq received corr t3 ht3 sync => ?_⟩⟩
  · exact ((taken _).trans (doneIf_pos heard _ _)).trans (congrArg _ (updPtp_congr hp (takeAnnounce_first d first)))
  · exact ((taken _).trans (doneIf_pos heard _ _)).trans (congrArg _ (updPtp_congr hp (takeAnnounce_names free hf own soon near)))
  · exact (taken _).trans (doneIf_pos (by rw [ptpPort_of hp, asked, beq_self_eq_true]) _ _)
  all_goals have mine := ptpMine_of hp heard runs master
  · have hq : (interval n).band.ptp[port]? = some p := by
      unfold interval
      split <;> exact hp
    exact ((taken _).trans (doneIf_pos mine _ _)).trans (congrArg _ (askDelay_eq hq rfl))
  · exact (taken _).trans (doneIf_pos mine _ _)
  · exact ((taken _).trans (doneIf_pos (by rw [mine, ptpPort_of hp, syncSeq]; simp) _ _)).trans (congrArg _ (askDelay_eq hp rfl))
  · show execPtpMessage port ⟨h, .delayResp seq received corr⟩ s = _
    rw [execPtpMessage]
    refine (taken _).trans ?_
    dsimp only
    rw [ptpPort_of hp, ht3]
    exact doneIf_pos (by rw [mine, sync, beq_self_eq_true]; rfl) _ _

end Sys2Proof.Machine
end

section
/-! Steps (R51): what STEP_APPLY moves, and the order of sorted queues, which it and the cue pins keep (R41, R43). -/

namespace Sys2Proof.Machine

/-! ### A stable sort keeps its elements and brings the least to the front -/

section
variable {α : Type} {lt : α → α → Bool}

theorem insertBy_perm (lt : α → α → Bool) (a : α) (l : List α) : (insertBy lt a l).Perm (a :: l) := by
  induction l with
  | nil => rfl
  | cons b l ih =>
    unfold insertBy
    split
    · rfl
    · exact (ih.cons b).trans (.swap ..)

theorem sortBy_perm (lt : α → α → Bool) (l : List α) : (sortBy lt l).Perm l := by
  suffices h : ∀ acc, (l.foldl (fun acc a => insertBy lt a acc) acc).Perm (l ++ acc) by simpa [sortBy] using h []
  induction l with
  | nil => exact fun acc => .refl _
  | cons a l ih => exact fun acc => (ih _).trans (((insertBy_perm lt a acc).append_left l).trans List.perm_middle)

/-- Behind each element stands none that comes before it. -/
def Ordered (lt : α → α → Bool) (l : List α) : Prop := l.Pairwise fun a b => lt b a = false

theorem Ordered.insertBy (trans : ∀ a b c, lt a b = true → lt b c = true → lt a c = true) {l : List α} (h : Ordered lt l) (a : α)
    (asymm : ∀ a b, lt a b = true → lt b a = false) : Ordered lt (insertBy lt a l) := by
  induction l with
  | nil => exact List.pairwise_singleton ..
  | cons b l ih =>
    obtain ⟨first, rest⟩ := List.pairwise_cons.mp h
    unfold Machine.insertBy
    split
    · next before =>
      refine List.pairwise_cons.mpr ⟨fun c hc => ?_, h⟩
      rcases List.mem_cons.mp hc with rfl | hc
      · exact asymm _ _ before
      · by_contra ca
        have cb := trans c a b (by simpa using ca) before
        rw [first c hc] at cb
        exact Bool.false_ne_true cb
    · next behind =>
      refine List.pairwise_cons.mpr ⟨fun c hc => ?_, ih rest⟩
      rcases List.mem_cons.mp ((insertBy_perm lt a l).mem_iff.mp hc) with rfl | hc
      · exact Bool.eq_false_iff.mpr behind
      · exact first c hc

theorem sortBy_ordered (trans : ∀ a b c, lt a b = true → lt b c = true → lt a c = true)
    (asymm : ∀ a b, lt a b = true → lt b a = false) (l : List α) : Ordered lt (sortBy lt l) := by
  suffices h : ∀ acc, Ordered lt acc → Ordered lt (l.foldl (fun acc a => insertBy lt a acc) acc) from h [] List.Pairwise.nil
  induction l with
  | nil => exact fun acc h => h
  | cons a l ih => exact fun acc h => ih _ (h.insertBy trans a asymm)

/-- None comes before the first of a sorted list. -/
theorem sortBy_head (trans : ∀ a b c, lt a b = true → lt b c = true → lt a c = true) (asymm : ∀ a b, lt a b = true → lt b a = false)
    {l : List α} {a : α} (h : (sortBy lt l).head? = some a) : a ∈ l ∧ ∀ b ∈ l, lt b a = false := by
  have perm := sortBy_perm lt l
  have ordered := sortBy_ordered trans asymm l
  have hm := List.mem_of_mem_head? h
  refine ⟨perm.mem_iff.mp hm, fun b hb => ?_⟩
  obtain ⟨t, ht⟩ : ∃ t, sortBy lt l = a :: t := List.head?_eq_some_iff.mp h
  rw [ht] at perm ordered
  rcases List.mem_cons.mp (perm.mem_iff.mpr hb) with rfl | hb
  · exact Bool.eq_false_iff.mpr fun e => Bool.false_ne_true ((asymm _ _ e).symm.trans e)
  · exact (List.pairwise_cons.mp ordered).1 b hb

end

/-! ### STEP_APPLY (R51, R52) -/

section
variable {s : State} {d : Int}

/-- What `applyStep` leaves: pins, streams, lanes and batches are moved, TIM_STAT.STEP is set, and of the rest the instants move. -/
theorem applyStep_frame (d : Int) (s : State) :
    applyStep d s = { s with
      band := { s.band with
        count := (s.band.count + d * 65536).toNat % 2 ^ 96, pendingStep := none, slewLeft := 0
        lastBeacon := (s.band.lastBeacon + d / 65536).toNat, errFrom := (s.band.errFrom + d / 65536).toNat }
      pins := (applyStep d s).pins, streams := (applyStep d s).streams, gate := (applyStep d s).gate, out := (applyStep d s).out
      score := { s.score with
        epoch := (s.score.epoch + d / 65536).toNat, lanes := (applyStep d s).score.lanes, cycles := []
        batches := (applyStep d s).score.batches }
      power := { s.power with update := { s.power.update with haltedAt := (s.power.update.haltedAt + d / 65536).toNat } } } := by
  unfold applyStep
  rw [setTimStat_frame]
  rfl

theorem applyStep_pins (d : Int) (s : State) : (applyStep d s).pins = s.pins.map (shiftPin (d / 65536)) := by
  unfold applyStep
  rw [setTimStat_frame]
  rfl

theorem applyStep_streams (d : Int) (s : State) : (applyStep d s).streams = s.streams.map fun o => o.map (shiftStream (d / 65536)) := by
  unfold applyStep
  rw [setTimStat_frame]
  rfl

theorem applyStep_score (d : Int) (s : State) : (applyStep d s).score = { s.score with
    epoch := shiftBy (d / 65536) s.score.epoch, lanes := s.score.lanes.map (shiftLane (d / 65536)), cycles := []
    batches := s.score.batches.map (shiftBatches (d / 65536)) } := by
  unfold applyStep
  rw [setTimStat_frame]
  rfl

theorem reg_applyStep (d : Int) (s : State) : (reg (applyStep d s) 0x200024).getLsbD 0 = true := by
  unfold applyStep
  rw [reg_setTimStat]
  exact reg_orReg_bit (by decide) _

theorem map_shiftBy (n : Int) (o : Option Nat) : o.map (shiftBy n) = o.map fun e => (e + n).toNat := by
  cases o <;> rfl

/-- An open stream stands at its index. -/
theorem stream?_eq_some {s : State} {n : Nat} {x : Stream} : stream? s n = some x ↔ s.streams[n]? = some (some x) := by
  rw [stream?, List.getD_eq_getElem?_getD]
  cases s.streams[n]? <;> simp

/-- A queue moved by a step holds as many cues, the moved ones. -/
theorem shiftedQueue {n : Int} {q : List QueuedCue} {lt : QueuedCue → QueuedCue → Bool} :
    (sortBy lt (q.map (shiftQueued n))).length = q.length
      ∧ ∀ c, c ∈ sortBy lt (q.map (shiftQueued n)) ↔ ∃ b ∈ q, c = shiftQueued n b := by
  refine ⟨(length_sortBy ..).trans (List.length_map ..), fun c => ?_⟩
  rw [(sortBy_perm ..).mem_iff, List.mem_map]
  simp only [eq_comm]

end

/-- Settles O4: a step is slewed out, or moves each part by its own shift. -/
theorem stepMovesScoreAndReflexCues : Obligations.StepMovesScoreAndReflexCues := by
  unfold Obligations.StepMovesScoreAndReflexCues
  intro d s pending thaw beat n moved
  have moved_eq : moved = shiftQueued n := by
    funext c
    simp only [moved, shiftQueued, shiftCue, beq_iff_eq]
    split <;> rfl
  have act : exec .stepApply s = .next (if stepsBarred s then requestStep d (updBand (fun b => { b with pendingStep := none }) s)
      else applyStep d s) := by
    show execStepApply s = _
    rw [execStepApply, pending]
    exact doneIf_pos (by rw [thaw, beat]; rfl) _ _
  refine ⟨fun some off => ?_, fun free => ?_⟩
  · have barred : stepsBarred s = true := by rw [stepsBarred, some, off]; rfl
    rw [act, if_pos barred]
    exact congrArg _ (if_pos barred)
  · have clear : ¬ stepsBarred s = true := by rcases free with h | h <;> simp [stepsBarred, h]
    rw [if_neg clear] at act
    refine ⟨_, act, applyStep_frame d s, fun k x hx => ?_, fun k x hx => ?_, fun b x hx => ?_, fun k x hx => ?_, reg_applyStep d s⟩
    · refine ⟨shiftLane n x, ?_, ?_⟩
      · rw [applyStep_score, List.getElem?_map, hx]
        rfl
      · rw [moved_eq]
        exact shiftedQueue
    · obtain ⟨count, cues⟩ := shiftedQueue (n := n) (q := x.cues) (lt := fun a b => decide (a.cue.instant < b.cue.instant))
      refine ⟨shiftPin n x, ?_, count, ?_, ?_, rfl, rfl, rfl, map_shiftBy ..⟩
      · rw [applyStep_pins, List.getElem?_map, hx]
        rfl
      · rw [moved_eq]
        exact cues
      · rw [moved_eq]
        rfl
    · rw [applyStep_score, List.getElem?_map, hx]
      simp only [Option.map_some, shiftBatches, map_shiftBy]
      rfl
    · refine ⟨shiftStream n x, ?_, rfl⟩
      rw [stream?_eq_some] at hx ⊢
      rw [applyStep_streams, List.getElem?_map, hx]
      rfl

end Sys2Proof.Machine
end

section
/-! Cues (R36 to R46): how one comes to its target's queue, which cue of a pin acts next and what it does, and what an edge brings. -/

namespace Sys2Proof.Machine

/-! ### The queue of a target (R41) -/

theorem insertBy_eq {α : Type} (lt : α → α → Bool) (a : α) (l : List α) :
    insertBy lt a l = l.takeWhile (fun b => !lt a b) ++ [a] ++ l.dropWhile (fun b => !lt a b) := by
  induction l with
  | nil => rfl
  | cons b l ih =>
    unfold insertBy
    split
    · next before => simp [before]
    · next behind => simp [behind, ih]

theorem enqueue_eq (now : Nat) (r : Bool) (c : Cue) (q : List QueuedCue) : enqueue now r c q =
    q.takeWhile (fun b => decide (b.cue.instant ≤ c.instant)) ++ [{ cue := c, issued := now, ready := r }]
      ++ q.dropWhile (fun b => decide (b.cue.instant ≤ c.instant)) := by
  have turn (b : QueuedCue) : (!decide (c.instant < b.cue.instant)) = decide (b.cue.instant ≤ c.instant) := by
    rw [← decide_not, decide_eq_decide, Nat.not_lt]
  rw [enqueue, insertBy_eq]
  simp only [turn]

/-! ### CUE_ISSUE (R38, R41, R43) -/

section
variable {k n : Nat} {c : Cue} {s : State}

theorem exec_cueIssue (ok : targetOk c.target = true) : exec (.cueIssue c) s = .next (issueCue c s) := inRange_pos ok ..

theorem issueCue_laneScore (ht : c.target = .lane k) (hs : c.source = .score) : issueCue c s = updLane k (fun l =>
    if l.cues.length < 16 ∧ l.held = [] then { l with cues := enqueue (nowNs s) (targetReady (.lane k) s) c l.cues }
    else { l with held := l.held ++ [c] }) s := by
  have room (l : Lane) : (decide (l.cues.length < cueDepth) && l.held.isEmpty) = true ↔ l.cues.length < 16 ∧ l.held = [] := by
    rw [Bool.and_eq_true_iff, decide_eq_true_iff, List.isEmpty_iff, cueDepth]
  simp only [issueCue, ht, hs, room]

theorem issueCue_laneHost {x : Lane} (ht : c.target = .lane k) (hs : c.source = .host) (hx : s.score.lanes[k]? = some x)
    (room : x.cues.length < 16) :
    issueCue c s = updLane k (fun l => { l with cues := enqueue (nowNs s) (targetReady (.lane k) s) c l.cues }) s := by
  have taken : cueRefused c s = false := by
    simp only [cueRefused, ht, hs, hx, cueDepth, Nat.not_le_of_lt room, decide_false, Bool.and_false]
  simp only [issueCue, ht, hs, taken, Bool.false_eq_true, if_false]

theorem pinDrives_iff {x : Pin} : pinDrives x = true ↔ x.mode = .output ∨ x.mode = .strobe := by
  rw [pinDrives, Bool.or_eq_true_iff, beq_iff_eq, beq_iff_eq]

section
variable {x : Pin} (ht : c.target = .pin n) (hx : s.pins[n]? = some x)
include ht hx

theorem issueCue_misdirected (off : pinDrives x = false) :
    issueCue c s = updPin n (fun p => { p with misdirected := p.misdirected + 1 }) s := by
  simp only [issueCue, ht, hx, off, Bool.not_false, if_true]

theorem issueCue_pinHost (drives : pinDrives x = true) (hs : c.source = .host) (room : x.cues.length < 16) :
    issueCue c s = updPin n (fun p => { p with cues := enqueue (nowNs s) (targetReady (.pin n) s) c p.cues }) s := by
  have taken : cueRefused c s = false := by
    simp only [cueRefused, ht, hs, hx, cueDepth, Nat.not_le_of_lt room, decide_false, Bool.and_false]
  simp only [issueCue, ht, hx, drives, hs, taken, Bool.not_true, Bool.false_eq_true, if_false]

theorem issueCue_reflex (drives : pinDrives x = true) (hs : c.source = .reflex) (room : x.reflex.length < 16) :
    issueCue c s = updPin n (fun p => { p with reflex := enqueue (nowNs s) (targetReady (.pin n) s) c p.reflex }) s := by
  simp only [issueCue, ht, hx, drives, hs, cueDepth, room, Bool.not_true, Bool.false_eq_true, if_false, if_true]

theorem issueCue_reflexFull (drives : pinDrives x = true) (hs : c.source = .reflex) (full : 16 ≤ x.reflex.length) :
    issueCue c s = logErr 0x0023 0 n (updPin n (fun p => { p with missedCues := p.missedCues + 1 }) s) { arg0 := c.instant } := by
  simp only [issueCue, ht, hx, drives, hs, cueDepth, Nat.not_lt_of_le full, Bool.not_true, Bool.false_eq_true, if_false]

end

/-! ### HELD_CUE_RELEASE (R41, R68) -/

theorem exec_heldCueRelease_pin {x : Pin} {rest : List Cue} (lt : n < 16) (hx : s.pins[n]? = some x) (held : x.held = c :: rest)
    (room : x.cues.length < 16) : exec (.heldCueRelease (.pin n)) s = .next (armPinOp { s with
      pins := s.pins.set n { x with cues := enqueue (nowNs s) (targetReady (.pin n) s) c x.cues, held := rest } }) := by
  have may : mayRelease n s = true := by
    rw [mayRelease, hx]
    simp [held, cueDepth, room]
  have released : releaseHeld (nowNs s) (targetReady (.pin n) s) x
      = { x with cues := enqueue (nowNs s) (targetReady (.pin n) s) c x.cues, held := rest } := by
    simp only [releaseHeld, held, cueDepth, room, if_true]
  refine (inRange_pos (decide_eq_true lt) _ _).trans ((doneIf_pos may _ _).trans ?_)
  rw [updPin, upd_eq_set hx, released]

theorem exec_heldCueRelease_lane {x : Lane} {rest : List Cue} (lt : k < 56) (hx : s.score.lanes[k]? = some x) (held : x.held = c :: rest)
    (room : x.cues.length < 16) : exec (.heldCueRelease (.lane k)) s = .next { s with score := { s.score with
      lanes := s.score.lanes.set k { x with cues := enqueue (nowNs s) (targetReady (.lane k) s) c x.cues, held := rest } } } := by
  refine (inRange_pos (decide_eq_true lt) _ _).trans (congrArg Host.Outcome.next ?_)
  rw [updLane, updScore, upd_eq_set hx]
  simp only [held, cueDepth, room, if_true]

end

/-- Settles O6: each cue is `issueCue`'s case of its target and source, and a released cue is put in its queue. -/
theorem cuesWaitAtTheirTargets : Obligations.CuesWaitAtTheirTargets := by
  unfold Obligations.CuesWaitAtTheirTargets
  refine ⟨enqueue_eq, fun k c s lt ht hs => ?_, fun k x c s lt ht hs hx room => ?_, fun n x c s lt ht hx => ?_,
    fun n x c rest s lt hx held room => ?_, fun k x c rest s lt hx held room => ?_⟩
  · rw [exec_cueIssue (by rw [ht]; exact decide_eq_true lt), issueCue_laneScore ht hs]
    rfl
  · rw [exec_cueIssue (by rw [ht]; exact decide_eq_true lt), issueCue_laneHost ht hs hx room]
    rfl
  · rw [exec_cueIssue (by rw [ht]; exact decide_eq_true lt), ← pinDrives_iff]
    refine ⟨fun off => ?_, fun drives hs room => ?_, fun drives hs room => ?_, fun drives hs full => ?_⟩
    · rw [issueCue_misdirected ht hx (by rcases off with h | h <;> rw [pinDrives, h] <;> rfl)]
      rfl
    · rw [issueCue_pinHost ht hx drives hs room]
      rfl
    · rw [issueCue_reflex ht hx drives hs room]
      rfl
    · rw [issueCue_reflexFull ht hx drives hs full]
      rfl
  · exact exec_heldCueRelease_pin lt hx held room
  · exact exec_heldCueRelease_lane lt hx held room

/-! ### PIN_EDGE (R44, R45) -/

/-- What a cue may touch: pins, the score's lanes and what a log entry touches. -/
theorem issueCue_frame (c : Cue) (s : State) : issueCue c s = { s with
    pins := (issueCue c s).pins, score := { s.score with lanes := (issueCue c s).score.lanes }
    err := (issueCue c s).err, mem := withDevice s.mem (issueCue c s).mem
    gate := { s.gate with pba := (issueCue c s).gate.pba, inta := (issueCue c s).gate.inta }, out := (issueCue c s).out } := by
  unfold issueCue
  extract_lets now ready
  split
  · rfl
  · split
    · rfl
    · split <;> rfl
    · rfl
  · split
    · rfl
    · split
      · rfl
      · split
        · split
          · rfl
          · rw [logErr_frame]
            rfl
        · split <;> rfl
        · rfl

theorem issueCue_reflexes (c : Cue) (s : State) : (issueCue c s).reflexes = s.reflexes := by rw [issueCue_frame]

/-- An armed rule answers an edge of its source pin. -/
def Reacts (pin : Nat) (rising : Bool) (r : Reflex) : Prop :=
  r.par.armed = true ∧ r.par.source = pin ∧ edgeMatches r.par.edge rising = true

section
variable {pin : Nat} {rising : Bool} {stamp filter k : Nat} {x : Reflex} {s t : State}

theorem reacts_iff : (x.par.armed && x.par.source == pin && edgeMatches x.par.edge rising) = true ↔ Reacts pin rising x := by
  simp [Reacts, and_assoc]

theorem reflexSees_still (h : ∀ x, s.reflexes[k]? = some x → ¬ Reacts pin rising x) : reflexSees pin rising stamp filter k s = s := by
  unfold reflexSees
  split
  · rfl
  · next x hx => exact if_neg fun r => h x hx (reacts_iff.mp r)

/-- A rule that reacts outside its hold-off issues its cue. -/
theorem reflexSees_cue (hx : s.reflexes[k]? = some x) (reacts : Reacts pin rising x) (free : ∀ h, x.holdUntil = some h → h ≤ stamp) :
    reflexSees pin rising stamp filter k s = issueCue
      { target := .pin x.par.target, source := .reflex, instant := stamp + 192 + filter + x.par.delay, action := x.par.action, lateLimit := 0 }
      { s with reflexes := s.reflexes.set k { x with holdUntil := some (stamp + x.par.holdOff) } } := by
  unfold reflexSees
  rw [hx]
  refine (if_pos (reacts_iff.mpr reacts)).trans ((if_neg ?_).trans ?_)
  · split
    · next h e => exact fun d => Nat.not_le_of_lt (of_decide_eq_true d) (free h e)
    · exact Bool.false_ne_true
  · rw [updReflex, upd_eq_set hx]

/-- A rule in hold-off counts the edge as suppressed. -/
theorem reflexSees_held {h : Nat} (hx : s.reflexes[k]? = some x) (reacts : Reacts pin rising x) (hold : x.holdUntil = some h)
    (within : stamp < h) : reflexSees pin rising stamp filter k s
      = { s with reflexes := s.reflexes.set k { x with suppressed := x.suppressed + 1 } } := by
  unfold reflexSees
  rw [hx]
  refine (if_pos (reacts_iff.mpr reacts)).trans ((if_pos ?_).trans ?_)
  · rw [hold]
    exact decide_eq_true within
  · rw [updReflex, upd_eq_set hx]

theorem foldl_reflexSees_still {l : List Nat} (h : ∀ j ∈ l, ∀ x, s.reflexes[j]? = some x → ¬ Reacts pin rising x) :
    l.foldl (fun s r => reflexSees pin rising stamp filter r s) s = s := by
  induction l with
  | nil => rfl
  | cons j l ih =>
    rw [List.foldl_cons, reflexSees_still (h j List.mem_cons_self)]
    exact ih fun j hj => h j (List.mem_cons_of_mem _ hj)

/-- Where one rule reacts, the rules before and behind it leave the edge alone. -/
theorem foldl_reflexSees_one (lt : k < 16) (step : reflexSees pin rising stamp filter k s = t)
    (others : ∀ j q, j ≠ k → s.reflexes[j]? = some q → ¬ Reacts pin rising q) (same : ∀ j, j ≠ k → t.reflexes[j]? = s.reflexes[j]?) :
    (List.range 16).foldl (fun s r => reflexSees pin rising stamp filter r s) s = t := by
  obtain ⟨before, behind, split⟩ := List.append_of_mem (List.mem_range.mpr lt)
  have once := split ▸ List.nodup_range (n := 16)
  have notBefore : k ∉ before := fun h => (List.disjoint_of_nodup_append once) h List.mem_cons_self
  have notBehind : k ∉ behind := (List.nodup_cons.mp once.of_append_right).1
  have first : before.foldl (fun s r => reflexSees pin rising stamp filter r s) s = s :=
    foldl_reflexSees_still fun j hj q => others j q fun e => notBefore (e ▸ hj)
  have last : behind.foldl (fun s r => reflexSees pin rising stamp filter r s) t = t :=
    foldl_reflexSees_still fun j hj q hq =>
      have ne : j ≠ k := fun e => notBehind (e ▸ hj)
      others j q ne (same j ne ▸ hq)
  rw [split, List.foldl_append, List.foldl_cons, first, step, last]

/-- An edge that counts is stamped, and the rules see it. -/
theorem exec_pinEdge {x : Pin} (hx : s.pins[pin]? = some x) (input : x.mode = .input) (run : s.power.running = true)
    (pins : pinsTaken s = false) (edge : edgeMatches x.par.edge rising = true) (apart : ∀ e, x.lastEdge = some e → e + 8 ≤ stamp)
    (seen : stamp + x.par.filter ≤ nowNs s + 4 ∧ nowNs s ≤ stamp + x.par.filter + 28) :
    exec (.pinEdge pin rising stamp) s = .next ((List.range 16).foldl (fun s r => reflexSees pin rising stamp x.par.filter r s)
      { s with pins := s.pins.set pin (stampEdge rising stamp x) }) := by
  show execPinEdge pin rising stamp s = _
  unfold execPinEdge
  rw [hx, updPin, upd_eq_set hx]
  refine doneIf_pos ?_ _ _
  rw [run, pins, input, edge, stampHolds, decide_eq_true seen]
  split
  · next e h =>
    rw [decide_eq_true (apart e h)]
    rfl
  · rfl

end

/-- Settles O8: the rules that do not react leave the stamped edge alone, and a hold-off that has run out ends. -/
theorem inputEdgesAreStamped : Obligations.InputEdgesAreStamped := by
  unfold Obligations.InputEdgesAreStamped
  refine ⟨?_, fun k h r s hr hold past => ?_⟩
  · intro pin x rising stamp s hx input run pins edge apart above below rules reacts y u
    have matched : edgeMatches x.par.edge rising = true := by
      rcases edge with h | ⟨h, h'⟩ | ⟨h, h'⟩
      · rw [h]
        rfl
      · rw [h, h']
        rfl
      · rw [h, h']
        rfl
    have act : exec (.pinEdge pin rising stamp) s
        = .next ((List.range 16).foldl (fun s r => reflexSees pin rising stamp x.par.filter r s) u) :=
      exec_pinEdge hx input run pins matched apart ⟨above, below⟩
    refine ⟨fun none => ?_, fun k r hr does others => ⟨fun free => ?_, fun h hold within => ?_⟩⟩
    · rw [act, foldl_reflexSees_still]
      exact fun j _ q hq => none q (List.mem_of_getElem? hq)
    all_goals
      obtain ⟨lt, -⟩ := List.getElem?_eq_some_iff.mp hr
      rw [act]
      refine congrArg _ (foldl_reflexSees_one (rules ▸ lt) ?_ others ?_)
    · exact reflexSees_cue hr does free
    · rw [issueCue_reflexes]
      exact fun j ne => List.getElem?_set_ne ne.symm
    · exact reflexSees_held hr does hold within
    · exact fun j ne => List.getElem?_set_ne ne.symm
  · show execReflexHoldoffEnd k s = _
    rw [execReflexHoldoffEnd, hr]
    dsimp only
    rw [hold]
    dsimp only
    rw [doneIf_pos (decide_eq_true past), updReflex, upd_eq_set hr]

end Sys2Proof.Machine
end

section
/-! A unit's cue and the batches (R38, R40): CUE_TAKE_EFFECT on a lane makes the op due and ends no batch. -/

namespace Sys2Proof.Machine

/-- A score cue for lane 1 whose instant has come, of an op of no batch. -/
def readyCue : QueuedCue :=
  { cue := { target := .lane 1, source := .score, instant := 0, action := .slotOp 0 0 none, lateLimit := 0 }, issued := 0 }

/-- Lane 1 with that cue at the head of its queue. -/
def readyLane : Lane := { cues := [readyCue], held := [], due := [], running := none, lateStarts := 0, lateCues := 0 }

/-- A running device with that lane, and with a belled batch that has signalled, of which nothing is left. -/
def overdueBatch : State :=
  { State.reset with
    power := { State.reset.power with running := true }
    score := { State.reset.score with
      lanes := State.reset.score.lanes.set 1 readyLane
      batches := upd State.reset.score.batches 0 fun x => { x with issued := 2, closed := [{ freshBatch 0 with signalled := true }] } } }

/-- How many closed batches of batch id 0 an outcome leaves. -/
def closedBatches : Res → Option Nat
  | .next t => (t.score.batches[0]?).map (·.closed.length)
  | _ => none

/-- Refutes O7: the clause of a lane's cue lets it end the batches that may end, as a pin's cue does; in `overdueBatch` the cue of lane 1
leaves the batch that the clause ends. -/
theorem not_cuesTakeEffectInOrder : ¬ Obligations.CuesTakeEffectInOrder := by
  unfold Obligations.CuesTakeEffectInOrder
  rintro ⟨-, -, lane, -⟩
  have claim := lane 1 readyLane readyCue [] 0 0 none overdueBatch (by decide) (by rfl) rfl rfl rfl (by decide +kernel)
  have stays : closedBatches (exec (.cueTakeEffect (.lane 1)) overdueBatch) = some 1 := by decide +kernel
  rw [claim] at stays
  exact absurd stays (by decide +kernel)

end Sys2Proof.Machine
end

section
/-! PIN_CUE from the host (R41, R43, R419). -/

namespace Sys2Proof.Machine

section
variable {n : Nat} {x : Pin} {c : HostCmd} {a : CueAction} {s : State}

/-- The cue that a PIN_CUE command issues. -/
def hostPinCue (n : Nat) (x : Pin) (c : HostCmd) (a : CueAction) : Cue :=
  { target := .pin n, source := .host, instant := arg c 8 8, action := a, lateLimit := x.par.lateLimit }

variable (hn : n = arg c 0 1 % 16) (hx : s.pins[n]? = some x)
include hn hx

/-- What the command does turns on whether its pin drives and whether its queue has room. -/
theorem hostCue_eq : hostCue c a s =
    if !pinDrives x then endCmd c 0x0022 (issueCue (hostPinCue n x c a) s)
    else if decide (16 ≤ x.cues.length) then endCmd c 0x0020 s
    else okCmd c (nowNs s + (freeNat (issueCue (hostPinCue n x c a) s)).1 % 161) (freeNat (issueCue (hostPinCue n x c a) s)).2 := by
  have place : bits (arg c 0 1) 0 4 = n := by
    rw [hn, bits, Nat.pow_zero, Nat.div_one]
    rfl
  have refused (d : pinDrives x = true) : cueRefused (hostPinCue n x c a) s = decide (16 ≤ x.cues.length) := by
    simp only [cueRefused, hostPinCue, hx, d, cueDepth]
    rfl
  unfold hostCue
  rw [place]
  dsimp only
  rw [hx]
  dsimp only
  by_cases d : pinDrives x = true
  · exact (if_neg (by rw [d]; exact Bool.false_ne_true)).trans (by rw [d, ← refused d]; rfl)
  · rw [Bool.not_eq_true] at d
    exact (if_pos (by rw [d]; rfl)).trans (by rw [d]; rfl)

theorem hostCue_misdirected (off : x.mode = .disabled ∨ x.mode = .input) :
    hostCue c a s = endCmd c 0x0022 { s with pins := upd s.pins n fun x => { x with misdirected := x.misdirected + 1 } } := by
  have rest : pinDrives x = false := by rcases off with h | h <;> rw [pinDrives, h] <;> rfl
  rw [hostCue_eq hn hx, rest, issueCue_misdirected (c := hostPinCue n x c a) rfl hx rest]
  rfl

theorem hostCue_full (drives : x.mode = .output ∨ x.mode = .strobe) (full : 16 ≤ x.cues.length) :
    hostCue c a s = endCmd c 0x0020 s := by
  rw [hostCue_eq hn hx, pinDrives_iff.mpr drives, decide_eq_true full]
  rfl

theorem hostCue_armed (drives : x.mode = .output ∨ x.mode = .strobe) (room : x.cues.length < 16) :
    ∃ armed, nowNs s ≤ armed ∧ armed ≤ nowNs s + 160 ∧ hostCue c a s = okCmd c armed { s with
      freeCount := s.freeCount + 1
      pins := upd s.pins n fun p => { p with cues := enqueue (nowNs s) (targetReady (.pin n) s) (hostPinCue n x c a) p.cues } } := by
  have d := pinDrives_iff.mpr drives
  rw [hostCue_eq hn hx, d, decide_eq_false (Nat.not_le_of_lt room), issueCue_pinHost (c := hostPinCue n x c a) rfl hx d rfl room]
  refine ⟨_, Nat.le_add_right .., ?_, rfl⟩
  have := Nat.mod_lt (freeNat (updPin n (fun p =>
    { p with cues := enqueue (nowNs s) (targetReady (.pin n) s) (hostPinCue n x c a) p.cues }) s)).1 (show 0 < 161 by decide)
  omega

end

/-- Settles O13: each of the four commands is one run of `hostCue` on the started command. -/
theorem pinCuesFromTheHostAreIssued : Obligations.PinCuesFromTheHostAreIssued := by
  unfold Obligations.PinCuesFromTheHostAreIssued
  intro q cid n x c s hn hx i a row accepted t cue
  have work : exec i s = .next (hostCue c a t) := by
    rcases row with h | h | h | h <;> obtain ⟨rfl, rfl⟩ := Prod.mk.inj h
    all_goals
      obtain ⟨taken, ok⟩ := accepted.of rfl
      refine (runCommand_accepted taken ok).trans ?_
    · rw [bitAt, Nat.pow_zero, Nat.div_one]
    all_goals rfl
  have hx' : t.pins[n]? = some x := hx
  refine ⟨fun drives room => ?_, fun drives full => ?_, fun off => ?_⟩
  · obtain ⟨armed, from_, to_, e⟩ := hostCue_armed hn hx' drives room (a := a)
    exact ⟨armed, from_, to_, work.trans (congrArg _ e)⟩
  · rw [work, hostCue_full hn hx' drives full]
  · exact work.trans (congrArg _ (hostCue_misdirected hn hx' off))

end Sys2Proof.Machine
end

section
/-! Ops at their gates (R63 to R69): how an op leaves its queue, what its test takes from a token, which op may start, and what the ops of
lanes 0, 54 and 55 do at their start. -/

namespace Sys2Proof.Machine

/-! ### An op leaves its queue and passes its gate (R65, R66) -/

section
variable {k : Nat} {o : IssuedOp} {s : State}

/-- The token block's account of a cycle is the token's value (R67). -/
theorem cycleValue_cycleOf (s : State) (t : Nat) : cycleValue (cycleOf s t) = token s t := by
  unfold cycleOf
  split
  · next x e =>
    obtain ⟨-, now⟩ := Option.filter_eq_some_iff.mp e
    exact beq_iff_eq.mp (Bool.and_eq_true_iff.mp now).2
  · rfl

/-- A test takes what it consumes from the token. -/
theorem consume_tokens (t v : Nat) (s : State) : (consume t v s).score.tokens =
    if token s t - v = 0 then tabDel t s.score.tokens else tabPut t (token s t - v) s.score.tokens := by
  have taken : cycleValue { cycleOf s t with used := (cycleOf s t).used + v } = token s t - v := by
    rw [← cycleValue_cycleOf, cycleValue, cycleValue, Nat.sub_sub]
  show (setToken t (cycleValue { cycleOf s t with used := (cycleOf s t).used + v }) _).score.tokens = _
  rw [taken]
  rfl

theorem passGate_score (k : Nat) (w : BitVec 64) (s : State) :
    (passGate k w s).score = if opGm w = 1 then (consume (opWtok w) (opNeed w + 1) s).score else s.score := by
  unfold passGate
  by_cases observes : opGm w = 0
  · rw [if_pos observes, if_neg (by rw [observes]; decide), if_neg (by rw [observes]; decide)]
  · rw [if_neg observes]
    split <;> rfl

/-- The state in which an op tests its gate: it has left its lane's queue, and a late start is counted (R40, R66). -/
def leaveQueue (k : Nat) (o : IssuedOp) (s : State) : State :=
  let t := updLane k (fun l => { l with due := l.due.tail, lateStarts := l.lateStarts + if o.instant + 4 < nowNs s then 1 else 0 }) s
  if o.instant + 4 < nowNs s ∨ o.late = true then countLate o.ctx t else t

theorem beginOp_eq (k : Nat) (o : IssuedOp) (s : State) : beginOp k o s = passGate k o.word (leaveQueue k o s) := by
  simp only [beginOp, leaveQueue, lateStart, Bool.or_eq_true, decide_eq_true_iff, List.drop_one]

theorem countLate_frame (c : Option (Nat × Nat)) (s : State) :
    countLate c s = { s with score := { s.score with batches := (countLate c s).score.batches } } := by
  cases c <;> rfl

theorem leaveQueue_frame (k : Nat) (o : IssuedOp) (s : State) : leaveQueue k o s = { s with score := { s.score with
    lanes := upd s.score.lanes k fun l =>
      { l with due := l.due.tail, lateStarts := l.lateStarts + if o.instant + 4 < nowNs s then 1 else 0 }
    batches := (leaveQueue k o s).score.batches } } := by
  unfold leaveQueue
  extract_lets t
  split
  · rw [countLate_frame]
    rfl
  · rfl

theorem leaveQueue_outside (ctx : o.ctx = none) : (leaveQueue k o s).score.batches = s.score.batches := by
  unfold leaveQueue
  extract_lets t
  rw [ctx]
  split <;> rfl

theorem leaveQueue_batch {b i : Nat} (ctx : o.ctx = some (b, i)) : leaveQueue k o s =
    updBatch b i (fun y => { y with lateStarts := y.lateStarts + if o.instant + 4 < nowNs s ∨ o.late = true then 1 else 0 })
      (updLane k (fun l => { l with due := l.due.tail, lateStarts := l.lateStarts + if o.instant + 4 < nowNs s then 1 else 0 }) s) := by
  unfold leaveQueue
  extract_lets t
  rw [ctx]
  split
  · rfl
  · have same (x : BatchId) : { x with
        cur := x.cur.map fun y => if y.num = i then { y with lateStarts := y.lateStarts + 0 } else y
        closed := x.closed.map fun y => if y.num = i then { y with lateStarts := y.lateStarts + 0 } else y } = x := by
      simp
    rw [updBatch, updBatchId, updScore, upd_same same]

theorem token_leaveQueue (t : Nat) : token (leaveQueue k o s) t = token s t := by
  rw [leaveQueue_frame]
  rfl

end

/-! ### What may start (R36, R66, R67) -/

section
variable {k opc : Nat} {o : IssuedOp} {s : State}

/-- What lets an op start: it is at the head of its lane, of the opcode, past its gate, at its beat and in its turn. -/
theorem startable_iff : startable s k opc = some o ↔ headOp s k = some o ∧ opOpc o.word = opc ∧ gateOk o.word s = true
    ∧ beatCome s k o = true ∧ inTurn s k o = true := by
  simp only [startable, Option.filter_eq_some_iff, Bool.and_eq_true_iff, beq_iff_eq, and_assoc]

/-- An op of lane 54 that goes ahead of its beat is a pin op without a gate (R68). -/
theorem beat_of_startable (h : startable s 54 opc = some o) (waits : opGm o.word ≠ 0 ∨ opc < 0x38 ∨ 0x3B < opc) :
    (o.instant : Int) ≤ replicaNow (.lane 54) s := by
  obtain ⟨-, rfl, -, come, -⟩ := startable_iff.mp h
  have stays : handsAhead o.word = false := by
    rw [handsAhead, Bool.and_eq_false_iff, beq_eq_false_iff_ne, decide_eq_false_iff_not]
    exact waits.imp_right fun _ => by omega
  rw [beatCome, stays] at come
  exact of_decide_eq_true come

theorem inTurn_of_startable (h : startable s k opc = some o) (tests : opGm o.word ≠ 0) :
    (k = 0 ∨ setsFirst s (opWtok o.word) = false) ∧ ∀ j < 56, ∀ x, Machine.tests s (opWtok o.word) j = some x →
      o.beat < x.beat ∨ (o.beat = x.beat ∧ k ≤ j) := by
  obtain ⟨-, -, -, -, turn⟩ := startable_iff.mp h
  rw [inTurn, Bool.or_eq_true_iff, beq_iff_eq, Bool.and_eq_true_iff, Bool.or_eq_true_iff, beq_iff_eq, Bool.not_eq_true',
    List.all_eq_true] at turn
  obtain ⟨sets, all⟩ := turn.resolve_left tests
  refine ⟨sets, fun j lt x hx => ?_⟩
  have := all j (List.mem_range.mpr lt)
  rw [hx] at this
  exact of_decide_eq_true this

/-- Of the ops that test one token the first by beat and lane goes first. -/
theorem first_of_startable (h : startable s k opc = some o) (tests : opGm o.word ≠ 0) {j : Nat} {x : IssuedOp} (lt : j < 56)
    (head : headOp s j = some x) (gate : gateOk x.word s = true) (come : beatCome s j x = true) (gm : opGm x.word ≠ 0)
    (same : opWtok x.word = opWtok o.word) : o.beat < x.beat ∨ (o.beat = x.beat ∧ k ≤ j) := by
  refine (inTurn_of_startable h tests).2 j lt x ?_
  rw [Machine.tests, Option.filter_eq_some_iff]
  exact ⟨head, by simp [gate, come, gm, same]⟩

/-- An op of lane 0 that acts on the token goes before its tests, unless it tests it too. -/
theorem setter_of_startable (h : startable s k opc = some o) (tests : opGm o.word ≠ 0) (ne : k ≠ 0) {x : IssuedOp}
    (head : headOp s 0 = some x) (gate : gateOk x.word s = true) (acts : opOpc x.word = 1 ∨ opOpc x.word = 2)
    (tok : opStok x.word = opWtok o.word) : opGm x.word ≠ 0 ∧ opWtok x.word = opWtok o.word := by
  have clear := (inTurn_of_startable h tests).1.resolve_left ne
  rw [setsFirst, head] at clear
  simpa [gate, acts, tok] using clear

end

/-! ### Ops that complete at their start (R66, R68) -/

section
variable {k opc : Nat} {o : IssuedOp} {ok : IssuedOp → Bool} {work : IssuedOp → State → State} {s : State}

/-- The lanes whose ops occupy no unit: they belong to the sequencer (R61). -/
def Instant (k : Nat) : Prop := k = 0 ∨ k = 54 ∨ k = 55

theorem laneSafe_sequencer (lane : Instant k) (sound : unitSafe s 39 24 = false) : laneSafe s k = false := by
  have own : laneIsland k = 39 ∧ laneUnit k = 24 := by rcases lane with rfl | rfl | rfl <;> decide
  rw [laneSafe, own.1, own.2, sound, Bool.false_and]

theorem taken_sequencer (lane : Instant k) (sound : unitSafe s 39 24 = false) (may : startable s k opc = some o) (fit : ok o = true) :
    (startable s k opc).filter (fun o => ok o && !laneSafe s k) = some o := by
  rw [may, laneSafe_sequencer lane sound]
  simp [fit]

/-- What starting an op leaves beside the score and the pending writes. -/
theorem beginOp_frame (k : Nat) (o : IssuedOp) (s : State) :
    beginOp k o s = { s with score := (beginOp k o s).score, mem := (beginOp k o s).mem } := by
  rw [beginOp_eq, passGate]
  have := leaveQueue_frame k o s
  generalize leaveQueue k o s = t at this ⊢
  rw [this]
  by_cases observes : opGm o.word = 0
  · rw [if_pos observes, if_neg (by rw [observes]; decide)]
  · rw [if_neg observes]
    split <;> rfl

theorem beginOp_band (k : Nat) (o : IssuedOp) (s : State) : (beginOp k o s).band = s.band := by rw [beginOp_frame]

theorem beginOp_batches (k : Nat) (o : IssuedOp) (s : State) : (beginOp k o s).score.batches = (leaveQueue k o s).score.batches := by
  rw [beginOp_eq, passGate_score]
  split <;> rfl

theorem beginOp_noneClosed (h : ∀ x ∈ s.score.batches, x.closed = []) : ∀ x ∈ (beginOp k o s).score.batches, x.closed = [] := by
  rw [beginOp_batches]
  match ctx : o.ctx with
  | none =>
    rw [leaveQueue_outside ctx]
    exact h
  | some (b, i) =>
    rw [leaveQueue_batch ctx]
    exact forall_upd h fun x none => List.map_eq_nil_iff.mpr none

/-- An op of the sequencer's lanes that does not signal, with no batch to end. -/
theorem instantOp_silent (lane : Instant k) (may : startable s k opc = some o) (fit : ok o = true) (silent : Silent o s)
    (band : ∀ t, (work o t).band = t.band) (batches : ∀ t, (work o t).score.batches = t.score.batches) :
    instantOp k opc ok work s = .next (opDone (work o (beginOp k o s))) := by
  have done : updScore (fun c => { c with lastDone := nowNs s }) (work o (beginOp k o s)) = opDone (work o (beginOp k o s)) := by
    have : nowNs (work o (beginOp k o s)) = nowNs s := by rw [nowNs, band, beginOp_band, ← nowNs]
    rw [opDone, this]
    rfl
  unfold instantOp
  rw [taken_sequencer lane silent.sound may fit]
  dsimp only
  rw [silent.island, silent.whole, if_neg Bool.false_ne_true, if_neg Bool.false_ne_true, done, signal_silent silent.sig,
    finishBatches_noneClosed]
  · rfl
  · show ∀ x ∈ (work o (beginOp k o s)).score.batches, x.closed = []
    rw [batches]
    exact beginOp_noneClosed silent.batches

end

/-- Settles O23: the op leaves its queue before its gate takes from the token, and what lets it start is its place, gate, beat and turn. -/
theorem opsPassTheirGates : Obligations.OpsPassTheirGates := by
  unfold Obligations.OpsPassTheirGates
  refine ⟨?_, fun k o s lt ne starts => ?_, fun k o s lane may silent => ?_, fun k opc o s may => ⟨?_, ?_, ?_⟩⟩
  · intro k o s may n m t
    have tokens : t.score.tokens = if opGm o.word = 1 then (consume (opWtok o.word) (opNeed o.word + 1) (leaveQueue k o s)).score.tokens
        else (leaveQueue k o s).score.tokens := by
      show (beginOp k o s).score.tokens = _
      rw [beginOp_eq, passGate_score]
      split <;> rfl
    have left : (leaveQueue k o s).score.tokens = s.score.tokens := by rw [leaveQueue_frame]
    refine ⟨fun gm eq => ?_, fun gm gt => ?_, fun gm => ?_, ?_, fun ctx => ?_, fun b i ctx => ?_⟩
    · rw [tokens, if_pos gm, consume_tokens, token_leaveQueue, eq, Nat.sub_self, if_pos rfl, left]
    · rw [tokens, if_pos gm, consume_tokens, token_leaveQueue, if_neg (by omega), left]
    · rw [tokens, if_neg gm, left]
    · show (beginOp k o s).score.lanes = _
      rw [beginOp_eq, passGate_score, leaveQueue_frame]
      split <;> rfl
    · exact (beginOp_batches k o s).trans (leaveQueue_outside ctx)
    · exact (beginOp_eq k o s).trans (congrArg _ (leaveQueue_batch ctx))
  · refine (inRange_pos (decide_eq_true (by omega)) _ _).trans ((if_neg ?_).trans (startOp_runs starts rfl rfl))
    omega
  · refine (inRange_pos (decide_eq_true ?_) _ _).trans ((if_pos lane).trans (instantOp_silent lane may rfl silent ?_ ?_))
    · omega
    · exact fun _ => rfl
    · exact fun _ => rfl
  · rintro rfl
    exact beat_of_startable may
  · exact fun tests j x lt head gate come => first_of_startable may tests lt head gate come
  · exact fun tests ne x head gate acts => setter_of_startable may tests ne head gate acts

end Sys2Proof.Machine
end

section
/-! The ops of lanes 0, 54 and 55 (R41, R64 to R71, R87, R370). -/

namespace Sys2Proof.Machine

/-! ### What leaves the Bandstand alone -/

theorem foldl_band {α : Type} {f : State → α → State} (hf : ∀ s x, (f s x).band = s.band) (l : List α) (s : State) :
    (l.foldl f s).band = s.band := by
  induction l generalizing s with
  | nil => rfl
  | cons x l ih => exact (ih _).trans (hf s x)

theorem logErr_band (st i u : Nat) (s : State) (a : LogArgs) : (logErr st i u s a).band = s.band := by rw [logErr_frame]

theorem tearDown_band (b n st : Nat) (blame : Option Nat) (s : State) : (tearDown b n st blame s).band = s.band := by
  unfold tearDown
  split
  · rfl
  · split
    · rfl
    · extract_lets t u v
      rw [foldl_band (fun _ _ => by rfl)]
      show State.band (if _ then _ else _) = _
      split
      · unfold failTraining
        split <;> rfl
      · rfl

theorem jobFault_band (k : Nat) (c : Option (Nat × Nat)) (st a : Nat) (blame : Option Nat) (s : State) :
    (jobFault k c st a blame s).band = s.band := by
  unfold jobFault
  extract_lets b t
  split
  · rw [tearDown_band, logErr_band]
  · exact logErr_band ..

theorem addToken_band (t v : Nat) (c : Option (Nat × Nat)) (s : State) : (addToken t v c s).band = s.band := by
  unfold addToken
  extract_lets x u
  split
  · rfl
  · exact jobFault_band ..

theorem issueCue_band (c : Cue) (s : State) : (issueCue c s).band = s.band := by rw [issueCue_frame]

theorem issueCue_batches (c : Cue) (s : State) : (issueCue c s).score.batches = s.score.batches := by rw [issueCue_frame]

/-! ### TOKEN_SET and TOKEN_ADD (R64, R67, R69) -/

section
variable {o : IssuedOp} {opc : Nat} {work : IssuedOp → State → State} {s : State}

theorem tokenOp_runs (may : startable s 0 opc = some o) (island : islandFenced s 39 = false) (sound : unitSafe s 39 24 = false)
    (band : (work o (beginOp 0 o s)).band = (beginOp 0 o s).band) : tokenOp opc work s = .next (opDone (work o (beginOp 0 o s))) := by
  have now : nowNs (work o (beginOp 0 o s)) = nowNs s := by rw [nowNs, band, beginOp_band, ← nowNs]
  have taken : (startable s 0 opc).filter (fun _ => !laneSafe s 0) = some o := by
    rw [may, laneSafe_sequencer (.inl rfl) sound]
    rfl
  unfold tokenOp
  rw [taken]
  dsimp only
  rw [island, if_neg Bool.false_ne_true, opDone, now]
  rfl

/-- The token block's account of token `t` in this cycle is put with its value. -/
def accounted (t : Nat) (y : TokenCycle) (v : Nat) (s : State) : State :=
  setToken t v { s with score := { s.score with cycles := tabPut t y s.score.cycles } }

theorem addToken_within {t v : Nat} {c : Option (Nat × Nat)} (le : (cycleOf s t).sum + v ≤ 65535) :
    addToken t v c s = accounted t { cycleOf s t with sum := (cycleOf s t).sum + v }
      ((cycleOf s t).setTo.getD ((cycleOf s t).sum + v) - (cycleOf s t).used) s := by
  rw [addToken, if_pos le, min_eq_right le]
  rfl

theorem addToken_beyond {t v : Nat} (lt : 65535 < (cycleOf s t).sum + v) :
    addToken t v none s = jobFault 0 (newestBatch s) 0x0421 t none (accounted t { cycleOf s t with sum := 65535 }
      ((cycleOf s t).setTo.getD 65535 - (cycleOf s t).used) s) := by
  rw [addToken, if_neg (Nat.not_le_of_lt lt), min_eq_left (Nat.le_of_lt lt)]
  rfl

end

/-! ### Ops of a torn-down batch and of a fenced island (R87, R370) -/

section
variable {k opc : Nat} {o : IssuedOp} {work : IssuedOp → State → State} {s : State}

theorem laneSafe_fenced (lane : Instant k) (island : islandFenced s 39 = true) : laneSafe s k = false := by
  have own : laneIsland k = 39 := by rcases lane with rfl | rfl | rfl <;> decide
  have fenced : resetFenced s 39 = true := by simpa [islandFenced, manyUnits] using island
  rw [laneSafe, own, fenced, Bool.not_true, Bool.and_false]

theorem opDone_of_band {t : State} (band : t.band = s.band) : updScore (fun c => { c with lastDone := nowNs s }) t = opDone t := by
  have now : nowNs t = nowNs s := by rw [nowNs, band, ← nowNs]
  rw [opDone, now]
  rfl

theorem instantOp_torn (lane : Instant k) (may : startable s k opc = some o) (torn : isTorn s o.ctx = true)
    (island : islandFenced s 39 = false) (sound : unitSafe s 39 24 = false) :
    instantOp k opc (fun _ => true) work s = .next (finishBatches (signal k o (opDone (beginOp k o s)))) := by
  unfold instantOp
  rw [taken_sequencer lane sound may rfl]
  dsimp only
  rw [island, torn, if_neg Bool.false_ne_true, if_pos rfl, opDone_of_band (beginOp_band ..)]
  rfl

theorem instantOp_fenced (lane : Instant k) (may : startable s k opc = some o) (island : islandFenced s 39 = true) :
    instantOp k opc (fun _ => true) work s
      = .next (finishBatches (signal k o (opDone (jobFault k o.ctx 0x0011 0 none (beginOp k o s))))) := by
  have taken : (startable s k opc).filter (fun _ => true && !laneSafe s k) = some o := by
    rw [may, laneSafe_fenced lane island]
    rfl
  unfold instantOp
  rw [taken]
  dsimp only
  rw [island, if_pos rfl, opDone_of_band ((jobFault_band ..).trans (beginOp_band ..))]
  rfl

end

/-! ### Pin ops (R41, R64, R68) -/

section
variable {o : IssuedOp} {opc : Nat} {a : CueAction} {action : IssuedOp → CueAction} {x : Pin} {s : State}

theorem pinCue_eq (hx : s.pins[argPin o.word]? = some x) : pinCue o a s =
    { target := .pin (argPin o.word), source := .score, instant := o.instant, action := a, lateLimit := x.par.lateLimit, ctx := o.ctx
      opIssued := o.issued, counted := o.late || decide (o.instant + 4 < nowNs s) } := by
  unfold pinCue
  dsimp only
  rw [hx]
  rfl

theorem pinCue_begun (k : Nat) : pinCue o a (beginOp k o s) = pinCue o a s := by
  rw [beginOp_frame]
  rfl

theorem pinHolds_iff (hx : s.pins[argPin o.word]? = some x) :
    pinHolds (argPin o.word) s = true ↔ (x.mode = .output ∨ x.mode = .strobe) ∧ (16 ≤ x.cues.length ∨ x.held ≠ []) := by
  unfold pinHolds
  rw [hx]
  dsimp only
  rw [Bool.and_eq_true_iff, pinDrives_iff, Bool.not_eq_true', Bool.and_eq_false_iff, decide_eq_false_iff_not, Nat.not_lt,
    List.isEmpty_eq_false_iff, cueDepth]

theorem pinOp_taken (may : startable s pinLane opc = some o) (serves : laneSafe s pinLane = false) :
    pinOp opc action s = if !isTorn s o.ctx && !islandFenced s 39 && pinHolds (argPin o.word) s then
        done (occupy pinLane o [] false (issueCue (pinCue o (action o) s) (beginOp pinLane o s)))
      else instantOp pinLane opc (fun _ => true) (fun o t => issueCue (pinCue o (action o) t) t) s := by
  unfold pinOp
  rw [may, serves]
  rfl

/-- A pin op whose pin does not hold its cue back runs as any op of the sequencer's lanes. -/
theorem pinOp_goes (may : startable s pinLane opc = some o) (serves : laneSafe s pinLane = false)
    (goes : isTorn s o.ctx = true ∨ islandFenced s 39 = true ∨ pinHolds (argPin o.word) s = false) :
    pinOp opc action s = instantOp pinLane opc (fun _ => true) (fun o t => issueCue (pinCue o (action o) t) t) s := by
  rw [pinOp_taken may serves, if_neg]
  rcases goes with h | h | h <;> simp [h]

theorem pinOp_torn (may : startable s pinLane opc = some o) (torn : isTorn s o.ctx = true)
    (island : islandFenced s 39 = false) (sound : unitSafe s 39 24 = false) :
    pinOp opc action s = .next (finishBatches (signal pinLane o (opDone (beginOp pinLane o s)))) :=
  (pinOp_goes may (laneSafe_sequencer (.inr (.inl rfl)) sound) (.inl torn)).trans
    (instantOp_torn (.inr (.inl rfl)) may torn island sound)

theorem pinOp_fenced (may : startable s pinLane opc = some o) (island : islandFenced s 39 = true) :
    pinOp opc action s
      = .next (finishBatches (signal pinLane o (opDone (jobFault pinLane o.ctx 0x0011 0 none (beginOp pinLane o s))))) :=
  (pinOp_goes may (laneSafe_fenced (.inr (.inl rfl)) island) (.inr (.inl island))).trans
    (instantOp_fenced (.inr (.inl rfl)) may island)

/-- The cue is armed, or counted as misdirected, at once. -/
theorem pinOp_silent (may : startable s pinLane opc = some o) (silent : Silent o s) (hx : s.pins[argPin o.word]? = some x)
    (goes : x.mode = .disabled ∨ x.mode = .input ∨ (x.cues.length < 16 ∧ x.held = [])) :
    pinOp opc action s = .next (opDone (issueCue (pinCue o (action o) s) (beginOp pinLane o s))) := by
  have free : pinHolds (argPin o.word) s = false := by
    rw [← Bool.not_eq_true, pinHolds_iff hx]
    rintro ⟨drives, full⟩
    rcases goes with off | off | ⟨room, none⟩
    · simp [off] at drives
    · simp [off] at drives
    · exact full.elim (Nat.not_le_of_lt room) fun some => some none
  rw [pinOp_goes may (laneSafe_sequencer (.inr (.inl rfl)) silent.sound) (.inr (.inr free)),
    instantOp_silent (show Instant pinLane from .inr (.inl rfl)) may rfl silent (fun _ => issueCue_band ..)
      (fun _ => issueCue_batches ..), pinCue_begun]

/-- The op waits behind a full queue of its pin. -/
theorem pinOp_waits (may : startable s pinLane opc = some o) (whole : isTorn s o.ctx = false) (island : islandFenced s 39 = false)
    (sound : unitSafe s 39 24 = false) (holds : pinHolds (argPin o.word) s = true) :
    pinOp opc action s = .next (occupy pinLane o [] false (issueCue (pinCue o (action o) s) (beginOp pinLane o s))) := by
  rw [pinOp_taken may (laneSafe_sequencer (.inr (.inl rfl)) sound), if_pos (by rw [whole, island, holds]; rfl)]
  rfl

end

/-! ### Rows whose op does not do its work -/

/-- What a row answers for an op of a torn-down batch and for one that meets a fenced island 39. -/
def Undone (i : Instr) (k : Nat) (o : IssuedOp) (s : State) : Prop :=
  (isTorn s o.ctx = true → islandFenced s 39 = false → unitSafe s 39 24 = false →
    exec i s = .next (finishBatches (signal k o (opDone (beginOp k o s)))))
  ∧ (islandFenced s 39 = true →
    exec i s = .next (finishBatches (signal k o (opDone (jobFault k o.ctx 0x0011 0 none (beginOp k o s))))))

theorem instantOp_undone {i : Instr} {k opc : Nat} {o : IssuedOp} {work : IssuedOp → State → State} {s : State} (lane : Instant k)
    (row : exec i s = instantOp k opc (fun _ => true) work s) (may : startable s k opc = some o) : Undone i k o s := by
  rw [Undone, row]
  exact ⟨instantOp_torn lane may, instantOp_fenced lane may⟩

theorem pinOp_undone {i : Instr} {opc : Nat} {o : IssuedOp} {action : IssuedOp → CueAction} {s : State}
    (row : exec i s = pinOp opc action s) (may : startable s 54 opc = some o) : Undone i 54 o s := by
  rw [Undone, row]
  exact ⟨pinOp_torn may, pinOp_fenced may⟩

/-- Settles O24: an op of these lanes starts, does its work on what its start left, and completes; only a full pin queue keeps one waiting. -/
theorem controlLanesAct : Obligations.ControlLanesAct := by
  unfold Obligations.ControlLanesAct
  intro o s k t x put
  have token : Instant 0 := .inl rfl
  have pin : Instant 54 := .inr (.inl rfl)
  have trace : Instant 55 := .inr (.inr rfl)
  refine ⟨fun fresh => ?_, fun may island sound => tokenOp_runs may island sound rfl, fun may island sound => ⟨fun le => ?_, fun lt => ?_⟩,
    fun may idle silent => instantOp_silent token may (by rw [idle]; rfl) silent (fun _ => rfl) (fun _ => rfl), ?_,
    fun may silent => instantOp_silent pin may rfl silent (fun _ => rfl) (fun _ => rfl), ?_,
    fun may silent => instantOp_silent trace may rfl silent (fun _ => rfl) (fun _ => rfl)⟩
  · have now : t.band = s.band := beginOp_band ..
    rw [← now] at fresh ⊢
    exact cycleOf_fresh fresh
  · exact (tokenOp_runs may island sound (addToken_band ..)).trans (congrArg (done ∘ opDone) (addToken_within le))
  · exact (tokenOp_runs may island sound (addToken_band ..)).trans (congrArg (done ∘ opDone) (addToken_beyond lt))
  · intro i opc a row may whole island sound x hx
    have acts : ∃ action : IssuedOp → CueAction, action o = a ∧ exec i s = pinOp opc action s := by
      simp only [Prod.mk.injEq] at row
      rcases row with ⟨rfl, rfl, rfl⟩ | ⟨rfl, rfl, rfl⟩ | ⟨rfl, rfl, rfl⟩ | ⟨rfl, rfl, rfl⟩
      · exact ⟨fun o => .level (argBit o.word), rfl, rfl⟩
      · exact ⟨fun o => .pulse (8 * argWidth o.word), rfl, rfl⟩
      · exact ⟨fun _ => .strobeStart, rfl, rfl⟩
      · exact ⟨fun _ => .strobeStop, rfl, rfl⟩
    obtain ⟨action, rfl, runs⟩ := acts
    rw [runs, ← pinCue_eq (a := action o) hx]
    exact ⟨fun goes silent => pinOp_silent may silent hx goes,
      fun drives full => pinOp_waits may whole island sound ((pinHolds_iff hx).mpr ⟨drives, full⟩)⟩
  · intro i k opc row may
    simp only [Prod.mk.injEq] at row
    rcases row with ⟨rfl, rfl, rfl⟩ | ⟨rfl, rfl, rfl⟩ | ⟨rfl, rfl, rfl⟩ | ⟨rfl, rfl, rfl⟩ | ⟨rfl, rfl, rfl⟩ | ⟨rfl, rfl, rfl⟩ | ⟨rfl, rfl, rfl⟩
    · exact pinOp_undone (show exec .pinLevel s = execPinLevel s from rfl) may
    · exact pinOp_undone (show exec .pinPulse s = execPinPulse s from rfl) may
    · exact pinOp_undone (show exec .strobeStart s = execStrobeStart s from rfl) may
    · exact pinOp_undone (show exec .strobeStop s = execStrobeStop s from rfl) may
    · exact instantOp_undone pin (show exec .reflexArm s = execReflexArm s from rfl) may
    · exact instantOp_undone trace (show exec .digest s = execDigest s from rfl) may
    · exact instantOp_undone trace (show exec .trace s = execTrace s from rfl) may

end Sys2Proof.Machine
end

section
/-! The memory's own work touches no other unit's state (R305, R308), and the words of the score (R39, R60 to R74, R90). -/

namespace Sys2Proof.Machine

/-! ### What an access of a DRAM line or an SRAM word may touch -/

/-- Memory without the host's, the log, interrupt state, what leaves the package and the ledger with its copies may differ, and of the
ledger only the counts of corrections and its generation. -/
def MemFrame (s t : State) : Prop :=
  t = { s with
    mem := { t.mem with host := s.mem.host }, err := t.err, out := t.out
    gate := { s.gate with pba := t.gate.pba, inta := t.gate.inta }
    power := { s.power with
      ledger := { s.power.ledger with gen := t.power.ledger.gen, bankCounts := t.power.ledger.bankCounts }
      copyA := t.power.copyA, copyB := t.power.copyB, mirror := t.power.mirror } }

section
variable {s t u : State}

theorem MemFrame.refl (s : State) : MemFrame s s := rfl

theorem MemFrame.trans (h : MemFrame s t) (k : MemFrame t u) : MemFrame s u := by
  unfold MemFrame at *
  rw [k, h]

theorem MemFrame.log (h : LogFrame s t) : MemFrame s t := by
  rw [MemFrame, h]

theorem MemFrame.ite {c : Prop} [Decidable c] {f g : State} (hf : MemFrame s f) (hg : MemFrame s g) : MemFrame s (if c then f else g) := by
  split
  · exact hf
  · exact hg

theorem MemFrame.foldl {α : Type} {f : State → α → State} (hf : ∀ s x, MemFrame s (f s x)) (l : List α) (s : State) :
    MemFrame s (l.foldl f s) := by
  induction l generalizing s with
  | nil => exact .refl s
  | cons x l ih => exact (hf s x).trans (ih _)

theorem presentWrite_memFrame (c : Nat) (r : DramReq) (s : State) : MemFrame s (presentWrite c r s) := by
  unfold presentWrite
  split
  · exact .refl s
  · exact .ite rfl rfl

theorem presentRead_memFrame (c : Nat) (r : DramReq) (s : State) : MemFrame s (presentRead c r s) := by
  unfold presentRead
  split
  · exact .refl s
  · exact .ite rfl rfl

theorem writeCopy_frame (p : Power) : writeCopy p = { p with
    ledger := { p.ledger with gen := p.ledger.gen + 1 }, copyA := (writeCopy p).copyA, copyB := (writeCopy p).copyB } := by
  unfold writeCopy
  extract_lets l older
  split <;> rfl

theorem emitPin_memFrame (o : Out) (s : State) : MemFrame s (emitPin o s) := .ite rfl rfl

theorem saveLedger_memFrame (s : State) : MemFrame s (saveLedger s) := by
  refine .trans ?_ (emitPin_memFrame ..)
  unfold MemFrame
  simp only [updPower]
  rw [writeCopy_frame]

theorem countCorrection_memFrame (a : Nat) (s : State) : MemFrame s (countCorrection a s) := by
  unfold countCorrection
  refine .ite rfl ?_
  extract_lets b
  split
  exact .ite (.trans (.trans (by exact rfl) (saveLedger_memFrame _)) (.log (logErr_frame ..))) rfl

theorem correctWord_memFrame (w : Nat) (s : State) : MemFrame s (correctWord w s) := by
  unfold correctWord
  exact .trans (.trans (by exact rfl) (.log (logErr_frame ..))) (countCorrection_memFrame ..)

theorem noteWord_memFrame (w : Nat) (s : State) : MemFrame s (noteWord w s) :=
  .ite (.log (logErr_frame ..)) (.ite (correctWord_memFrame w s) rfl)

theorem evictLine_memFrame (c : Nat) (k : ReqClass) (w : CacheWay) (s : State) : MemFrame s (evictLine c k w s) := by
  unfold evictLine
  refine .ite rfl ?_
  extract_lets ws bad met t
  have hm : MemFrame s met := .ite (.foldl (fun s x => noteWord_memFrame x s) _ s) rfl
  have ht : MemFrame s t := hm.trans rfl
  exact .ite (ht.trans (presentWrite_memFrame ..)) ht

theorem allocateLine_memFrame (a : LineAccess) (s : State) : MemFrame s (allocateLine a s) := by
  unfold allocateLine
  extract_lets -merge -underBinder +onlyGivenNames x i full mark u w
  have hu : MemFrame s u := by
    unfold u
    split
    · exact evictLine_memFrame ..
    · exact .refl s
  have hw : MemFrame s w := .ite hu (hu.trans (presentRead_memFrame ..))
  exact hw.trans rfl

theorem accessLine_memFrame (a : LineAccess) (s : State) : MemFrame s (accessLine a s) := by
  unfold accessLine
  extract_lets x
  split
  · rfl
  · exact .ite (.ite (presentWrite_memFrame ..) (presentRead_memFrame ..)) (allocateLine_memFrame ..)

theorem unitLine_memFrame (a : LineAccess) (s : State) : MemFrame s (unitLine a s) := by
  unfold unitLine
  split
  · exact (accessLine_memFrame a s).trans rfl
  · exact accessLine_memFrame a s

theorem unitRead_memFrame (k : ReqClass) (a n : Nat) (s : State) : MemFrame s (unitRead k a n s) := by
  unfold unitRead
  refine .ite rfl ?_
  extract_lets -merge -underBinder +onlyGivenNames words lines u w
  have hu : MemFrame s u := .foldl (fun s l => by
    split
    · exact unitLine_memFrame ..
    · exact .refl s) lines s
  have hw : MemFrame s w := by
    unfold w
    split
    · exact hu.trans rfl
    · exact hu
  exact hw.trans (.foldl (fun s x => noteWord_memFrame x s) _ w)

theorem fetchWord_memFrame (off : Nat) (s : State) : MemFrame s (fetchWord off s) :=
  .foldl (fun _ _ => unitRead_memFrame ..) _ s

end

/-! ### SCORE_WORD_ISSUE (R39, R60 to R62) -/

section
variable {off k : Nat} {w : BitVec 64} {ops : List (Nat × BitVec 64)} {s t : State}

theorem MemFrame.score (h : MemFrame s t) : t.score = s.score := by rw [h]

theorem countBell_frame (ops : List (Nat × BitVec 64)) (s : State) :
    countBell ops s = { s with score := { s.score with batches := (countBell ops s).score.batches } } := by
  unfold countBell
  split <;> rfl

theorem countBell_batches (same : t.score = s.score) : (countBell ops t).score.batches = (countBell ops s).score.batches := by
  unfold countBell
  split
  · exact congrArg (fun c => upd c.batches _ _) same
  · exact congrArg (·.batches) same

/-- An op that is issued joins its lane's queues, no more. -/
theorem issueOp_frame (off : Nat) (op : Nat × BitVec 64) (s : State) :
    issueOp off op s = { s with score := { s.score with lanes := (issueOp off op s).score.lanes } } := by
  unfold issueOp
  extract_lets beat at_ ctx
  split
  · rfl
  · rw [issueCue_laneScore (k := op.1) rfl rfl]
    rfl

theorem issueOps_frame (off : Nat) (ops : List (Nat × BitVec 64)) (s : State) :
    ops.foldl (fun s op => issueOp off op s) s
      = { s with score := { s.score with lanes := (ops.foldl (fun s op => issueOp off op s) s).score.lanes } } := by
  induction ops generalizing s with
  | nil => rfl
  | cons op ops ih => rw [List.foldl_cons, ih, issueOp_frame]

/-- What the ops of the word at an offset are issued to. -/
def wordIssued (off : Nat) (s : State) : State :=
  (issuedNow (cueWord s.score.image off).1).foldl (fun s op => issueOp off op s)
    (countBell (cueWord s.score.image off).1 (fetchWord off s))

theorem wordIssued_frame (off : Nat) (s : State) : ∃ (m : Mem) (e : ErrLog) (o : List Out) (g : Gate) (p : Power), wordIssued off s = { s with
    score := { s.score with lanes := (wordIssued off s).score.lanes, batches := (countBell (cueWord s.score.image off).1 s).score.batches }
    mem := { m with host := s.mem.host }, err := e, out := o, gate := g, power := p } := by
  have batches := countBell_batches (ops := (cueWord s.score.image off).1) (fetchWord_memFrame off s).score
  unfold wordIssued
  rw [issueOps_frame, countBell_frame, batches, fetchWord_memFrame]
  exact ⟨_, _, _, _, _, rfl⟩

theorem wordIssued_single (h : (cueWord s.score.image off).1 = [(k, w)]) (bell : (k == 0 && opOpc w == 4) = false)
    (branch : (k == 0 && opOpc w == 5) = false) : wordIssued off s = issueOp off (k, w) (fetchWord off s) := by
  have counted : countBell [(k, w)] (fetchWord off s) = fetchWord off s := by simp only [countBell, List.find?, bell]
  have issued : issuedNow [(k, w)] = [(k, w)] := by simp only [issuedNow, List.filter, branch, Bool.not_false]
  rw [wordIssued, h, counted, issued]
  rfl

theorem wordIssued_branch (h : (cueWord s.score.image off).1 = [(0, w)]) (branch : opOpc w = 5) :
    (wordIssued off s).score.lanes = s.score.lanes := by
  have counted : countBell [(0, w)] (fetchWord off s) = fetchWord off s := by
    simp only [countBell, List.find?, branch]
    rfl
  have issued : issuedNow [(0, w)] = [] := by
    simp only [issuedNow, List.filter, branch]
    rfl
  rw [wordIssued, h, counted, issued]
  exact congrArg (·.lanes) (fetchWord_memFrame off s).score

theorem issueWord_eq (s : State) : issueWord s = updScore (fun c => { c with
    pc := s.score.pc + (cueWord s.score.image s.score.pc).2, beat := c.beat + 1
    control := wordControl (cueWord s.score.image s.score.pc).1 }) (wordIssued s.score.pc s) := rfl

theorem decide_late (early pin : Prop) [Decidable early] [Decidable pin] (ready : Bool) :
    decide ((early ∨ ready = false) ∧ ¬ pin) = ((decide early || !ready) && !decide pin) := by
  cases ready <;> simp

theorem issueOp_pinLane (same : MemFrame s t) : (issueOp off (54, w) t).score.lanes = upd s.score.lanes 54 fun l =>
    let late := decide ((s.score.epoch + 64 * s.score.beat < nowNs s + 160 ∨ targetReady (.lane 54) s = false)
      ∧ ¬ (0x38 ≤ opOpc w ∧ opOpc w ≤ 0x3B))
    { l with
      lateCues := l.lateCues + (if late then 1 else 0)
      due := l.due ++ [{ word := w, beat := s.score.beat, instant := s.score.epoch + 64 * s.score.beat, since := steadyNs s
                         ctx := opContext s off (54, w), late := late, issued := some (nowNs s) }] } := by
  rw [same]
  simp only [decide_late]
  rfl

theorem issueOp_lane (same : MemFrame s t) (ne : k ≠ 54) : (issueOp off (k, w) t).score.lanes = (issueCue
    { target := .lane k, source := .score, instant := s.score.epoch + 64 * s.score.beat, lateLimit := 0
      action := .slotOp w s.score.beat (opContext s off (k, w)) } s).score.lanes := by
  rw [issueOp, if_neg ne, issueCue_laneScore (k := k) rfl rfl, issueCue_laneScore (k := k) rfl rfl, same]
  rfl

end

/-! ### The control ops (R71, R72, R74) -/

section
variable {opc : Nat} {w : BitVec 64} {x : BatchId} {s : State}

theorem control?_eq (h : s.score.control = some w) (e : opOpc w = opc) : control? s opc = some w := by
  simp [control?, h, e]

theorem fillAtBell_acted (hx : s.score.batches[argHigh w]? = some x) (acted : bellsIssued s (argHigh w) = []) :
    fillAtBell s (argHigh w) = x.fill := by
  rw [fillAtBell, hx, acted]
  rfl

theorem exec_branchFill (h : s.score.control = some w) (e : opOpc w = 5) (come : bellPending s (argHigh w) = false) :
    exec .branchFill s = .next (goTo (if fillAtBell s (argHigh w) < argThreshold w then imgTarget s.score.image (argTarget w) else s.score.pc)
      (issueCue (opCue s 0 (s.score.beat - 1) w none) s)) := by
  have ready : branchReady s = some w := by simp [branchReady, control?_eq h e, come]
  show execBranchFill s = _
  rw [execBranchFill, ready]
  rfl

theorem exec_jump (h : s.score.control = some w) (e : opOpc w = 6) : exec .jump s = .next (
    if s.score.haltReq then haltScore (imgTarget s.score.image (argTarget w)) s else goTo (imgTarget s.score.image (argTarget w)) s) := by
  show execJump s = _
  rw [execJump, control?_eq h e]
  rfl

end

/-- Settles O25: the fetch of a word leaves the score alone, its ops join their lanes, and each control op has its branch. -/
theorem theSequencerReadsWords : Obligations.TheSequencerReadsWords := by
  unfold Obligations.TheSequencerReadsWords
  intro s c target halted
  refine ⟨fun armed on early => doneIf_pos ?_ .., fun may => ?_, ?_, fun w h e go => ?_, fun w h e stop => ?_, fun w h e => ?_⟩
  · rw [armed, on, decide_eq_true early]
    rfl
  · have issues : exec .scoreWordIssue s = .next (issueWord s) := doneIf_pos may ..
    obtain ⟨m, e, o, g, p, frame⟩ := wordIssued_frame s.score.pc s
    have fetched := fetchWord_memFrame s.score.pc s
    rw [issueWord_eq, frame] at issues
    refine ⟨_, issues, rfl, rfl, rfl, rfl, rfl, rfl, rfl, rfl, fun w one => ?_, fun k w one ne act => ?_, fun w one branch => ?_⟩
    · exact (congrArg (·.score.lanes) (wordIssued_single one rfl rfl)).trans (issueOp_pinLane fetched)
    · refine (congrArg (·.score.lanes) (wordIssued_single one ?_ ?_)).trans (issueOp_lane fetched ne)
      · rcases act with ⟨bell, -⟩ | act <;> simp [*]
      · rcases act with ⟨-, branch⟩ | act <;> simp [*]
    · exact wordIssued_branch one branch
  · intro w x h e hx come u
    have runs := exec_branchFill h e come
    refine ⟨fun acted => runs.trans ?_, fun _ => ⟨_, runs⟩⟩
    rw [fillAtBell_acted hx acted]
    rfl
  · rw [exec_jump h e, if_neg (ne_true_of_eq_false go)]
    rfl
  · rw [exec_jump h e, if_pos stop]
    exact congrArg Host.Outcome.next (by simp only [halted, ← stop]; rfl)
  · show execHalt s = _
    rw [execHalt, control?_eq h e]
    rfl

end Sys2Proof.Machine
end

section
/-! What the work of the memory, the cells, the Aviary's pages and the links leaves alone (R156 to R166, R305, R316, R338 to R342, R456). -/

namespace Sys2Proof.Machine

/-- From `p` to `s` only free values, memory, the Aviary, pools, links, the log, the package's edge, interrupt state and the ledger's
counts and copies have changed. -/
def Upkeep (p s : State) : Prop :=
  s = { p with
    freeCount := s.freeCount, out := s.out, mem := s.mem, aviary := s.aviary, pools := s.pools, err := s.err, trellis := s.trellis
    gate := { p.gate with pba := s.gate.pba, inta := s.gate.inta }
    power := { p.power with
      ledger := { p.power.ledger with gen := s.power.ledger.gen, bankCounts := s.power.ledger.bankCounts }
      copyA := s.power.copyA, copyB := s.power.copyB, mirror := s.power.mirror } }

section
variable {p s t : State}

theorem Upkeep.refl (s : State) : Upkeep s s := rfl

/-- A change of such parts. -/
theorem Upkeep.still (h : Upkeep p s) (e : Upkeep s t) : Upkeep p t := by
  unfold Upkeep at *
  rw [e, h]

theorem Upkeep.mem (h : Upkeep p s) (e : MemFrame s t) : Upkeep p t := h.still (by rw [Upkeep, e])

theorem Upkeep.log (h : Upkeep p s) (e : LogFrame s t) : Upkeep p t := h.mem (.log e)

theorem Upkeep.ite {c : Prop} [Decidable c] {a b : State} (ha : Upkeep p a) (hb : Upkeep p b) : Upkeep p (if c then a else b) := by
  split
  · exact ha
  · exact hb

theorem Upkeep.foldl {α : Type} {f : State → α → State} {l : List α} (h : Upkeep p s) (hf : ∀ s x, Upkeep p s → Upkeep p (f s x)) :
    Upkeep p (l.foldl f s) := by
  induction l generalizing s with
  | nil => exact h
  | cons x l ih => exact ih (hf s x h)

/-! ### Memory and translation (R305, R308, R314 to R316) -/

theorem logErr_upkeep {st i u : Nat} {a : LogArgs} (h : Upkeep p s) : Upkeep p (logErr st i u s a) := h.log (logErr_frame ..)

theorem unitRead_upkeep {k : ReqClass} {a n : Nat} (h : Upkeep p s) : Upkeep p (unitRead k a n s) := h.mem (unitRead_memFrame ..)

theorem clearDeferred_upkeep {a : Nat} (h : Upkeep p s) : Upkeep p (clearDeferred a s) := by
  unfold clearDeferred
  split
  · exact h
  · exact .ite (h.still (by exact rfl)) (h.still (by exact rfl))

theorem settleWord_upkeep {cs : List Cell} {w : Nat} (h : Upkeep p s) : Upkeep p (settleWord cs w s) := by
  unfold settleWord
  extract_lets here full marked
  split
  have marks : Upkeep p (if marked then updMem (fun m => { m with sramPoison := setAdd w m.sramPoison }) s else s) :=
    .ite (h.still (by exact rfl)) h
  exact .ite (h.still (by exact rfl)) (.ite (logErr_upkeep (h.still (by exact rfl))) (.ite (marks.mem (correctWord_memFrame ..)) marks))

theorem settleLine_upkeep {k : ReqClass} {cs : List Cell} {l : Nat} (h : Upkeep p s) : Upkeep p (settleLine k cs l s) := by
  unfold settleLine
  split
  · exact h
  · refine Upkeep.mem ?_ (unitLine_memFrame ..)
    exact (h.foldl fun s x h => h.mem (noteWord_memFrame x s)).still (by exact rfl)

theorem writePhys_upkeep {k : ReqClass} {cs : List Cell} (h : Upkeep p s) : Upkeep p (writePhys k cs s) := by
  unfold writePhys
  extract_lets t u words lines
  have ht : Upkeep p t := h.still (by exact rfl)
  have hu : Upkeep p u := Upkeep.ite (ht.foldl fun _ _ => clearDeferred_upkeep)
    ((ht.foldl fun _ _ => clearDeferred_upkeep).still (by exact rfl))
  exact (hu.foldl fun _ _ => settleWord_upkeep).foldl fun _ _ => settleLine_upkeep

theorem microFill_upkeep {g : Nat} {e : TlbEntry} (h : Upkeep p s) : Upkeep p (microFill g e s) := .ite h (h.still (by exact rfl))

theorem tlbFill_upkeep {g n : Nat} (h : Upkeep p s) : Upkeep p (tlbFill g n s) := by
  unfold tlbFill
  refine .ite h ?_
  split
  · exact microFill_upkeep h
  · extract_lets t
    have ht : Upkeep p t := h.foldl fun _ _ => unitRead_upkeep
    split
    · exact ht
    · exact microFill_upkeep (ht.still (by exact rfl))

theorem tlbDrop_upkeep {a n : Nat} (h : Upkeep p s) : Upkeep p (tlbDrop a n s) := h.still (by exact rfl)

theorem writeHost_upkeep {cs : List Cell} (h : Upkeep p s) : Upkeep p (writeHost cs s) :=
  .ite h (.ite (logErr_upkeep h) (Upkeep.foldl (h.still (by exact rfl)) fun _ _ h => .ite (h.still (by exact rfl)) h))

theorem noteWindow_upkeep {w : Bool} {a n : Nat} (h : Upkeep p s) : Upkeep p (noteWindow w a n s) := by
  unfold noteWindow
  extract_lets pages t
  have ht : Upkeep p t := h.foldl fun _ _ => tlbFill_upkeep
  split
  · exact logErr_upkeep ht
  · exact ht

theorem windowWrite_upkeep {a : Nat} {bs : List (Byte × Bool)} (h : Upkeep p s) : Upkeep p (windowWrite a bs s) :=
  writeHost_upkeep (writePhys_upkeep (noteWindow_upkeep h))

/-! ### Cells (R338 to R342) -/

theorem setNext_upkeep {i n : Nat} (h : Upkeep p s) : Upkeep p (setNext i n s) := writePhys_upkeep h

theorem setCount_upkeep {i n : Nat} (h : Upkeep p s) : Upkeep p (setCount i n s) := writePhys_upkeep h

theorem setAccount_upkeep {i n : Nat} (h : Upkeep p s) : Upkeep p (setAccount i n s) := writePhys_upkeep h

theorem writeBack_upkeep {q : Nat} (h : Upkeep p s) : Upkeep p (writeBack q s) := by
  unfold writeBack
  split
  · exact h
  · exact .ite ((writePhys_upkeep h).still (by exact rfl)) h

theorem releaseOp_upkeep {i : Nat} (h : Upkeep p s) : Upkeep p (releaseOp i s) := by
  have hn : Upkeep p (noteCell i s) := unitRead_upkeep h
  have hc : Upkeep p (setCount i (cellCount s i - 1) (noteCell i s)) := setCount_upkeep hn
  exact .ite hn (.ite (writeBack_upkeep ((unitRead_upkeep hc).still (by exact rfl))) hc)

theorem releaseChainOp_upkeep {n i : Nat} (h : Upkeep p s) : Upkeep p (releaseChainOp n i s) := by
  induction n generalizing i s with
  | zero => exact h
  | succ n ih => exact .ite (ih (releaseOp_upkeep h)) (releaseOp_upkeep h)

theorem freeChain_upkeep {i : Nat} (h : Upkeep p s) : Upkeep p (freeChain i s) := .ite h (releaseChainOp_upkeep h)

theorem refill_upkeep {q : Nat} (h : Upkeep p s) : Upkeep p (refill q s) := by
  unfold refill
  split
  · exact h
  · exact .ite ((h.foldl fun _ _ => unitRead_upkeep).still (by exact rfl)) h

theorem takeCell_upkeep {q : Nat} (h : Upkeep p s) : Upkeep p (takeCell q s).2 := by
  unfold takeCell
  split
  · exact h
  · split
    · exact h.still (by exact rfl)
    · exact h

theorem takeCells_upkeep {q a n prev : Nat} (h : Upkeep p s) : Upkeep p (takeCells q a n prev s).2 := by
  induction n generalizing prev s with
  | zero => exact h
  | succ n ih =>
    have fresh (c : Nat) : Upkeep p (setAccount c a (setCount c 1 (setNext c 0 (takeCell q s).2))) :=
      setAccount_upkeep (setCount_upkeep (setNext_upkeep (takeCell_upkeep h)))
    exact ih (.ite (fresh _) (setNext_upkeep (fresh _)))

theorem allocCells_upkeep {q a n tail : Nat} (h : Upkeep p s) : Upkeep p (allocCells q a n tail s).2 :=
  refill_upkeep ((takeCells_upkeep (refill_upkeep h)).still (by exact rfl))

theorem allocOp_upkeep {q a n tail : Nat} {r : Bool} (h : Upkeep p s) : Upkeep p (allocOp q a n r tail s).2.2 := by
  unfold allocOp
  extract_lets st t
  have ht : Upkeep p t := .ite h (unitRead_upkeep h)
  split
  · exact ht
  · split
    · exact .ite ht (ht.still (by exact rfl))
    · exact allocCells_upkeep ht

theorem fillCell_upkeep {k : ReqClass} {i : Nat} {d : List Byte} {m : List Bool} (h : Upkeep p s) : Upkeep p (fillCell k i d m s) :=
  .ite h (writePhys_upkeep h)

/-! ### Pages and their transfers (R159 to R166) -/

theorem putFrame_upkeep {k : Tier} {f : Nat} {bs : List (Byte × Bool)} (h : Upkeep p s) : Upkeep p (putFrame k f bs s) :=
  .ite (windowWrite_upkeep h) (writePhys_upkeep h)

theorem noteFrame_upkeep {k : Tier} {f : Nat} (h : Upkeep p s) : Upkeep p (noteFrame k f s) :=
  .ite (noteWindow_upkeep h) (unitRead_upkeep h)

theorem takeTransfer_upkeep {n : Nat} (h : Upkeep p s) (e : takeTransfer s = some (n, t)) : Upkeep p t := by
  unfold takeTransfer at e
  split at e
  · cases e
    exact h
  · next q pool =>
    have ht : Upkeep p (allocOp q 255 (transferCells s) true 0 s).2.2 := allocOp_upkeep h
    split at e
    · cases e
    · split at e
      · next taken =>
        cases e
        rwa [taken] at ht
      · cases e

theorem updPage_upkeep {d : Nat} {f : Page → Page} (h : Upkeep p s) : Upkeep p (updPage d f s) := h.still (by exact rfl)

theorem readingFor_upkeep {r : Reader} {work : State → State} (h : Upkeep p s) (hw : ∀ s, Upkeep p s → Upkeep p (work s)) :
    Upkeep p (readingFor r work s) := by
  have began : Upkeep p (updMem (fun m => { m with reader := r }) s) := h.still (by exact rfl)
  exact (hw _ began).still (by exact rfl)

theorem loadTransfer_upkeep {k : ReqClass} {n : Nat} {bs : List (Byte × Bool)} (h : Upkeep p s) : Upkeep p (loadTransfer k n bs s) :=
  h.foldl fun _ _ => fillCell_upkeep

theorem beginTransfer_upkeep {d n : Nat} {f : Page → Page} {x : Page} (h : Upkeep p s) : Upkeep p (beginTransfer d f x n s) := by
  unfold beginTransfer
  dsimp only
  exact updPage_upkeep (loadTransfer_upkeep (readingFor_upkeep (h.still (by exact rfl)) fun _ => noteFrame_upkeep))

theorem moveNow_upkeep {d : Nat} {f : Page → Page} (h : Upkeep p s) : Upkeep p (moveNow d f s) := by
  unfold moveNow
  split
  · split
    · next taken => exact beginTransfer_upkeep (takeTransfer_upkeep h taken)
    · exact beginTransfer_upkeep h
  · exact h

theorem dropTransfer_upkeep {d : Nat} {x : Page} (h : Upkeep p s) : Upkeep p (dropTransfer d x s) :=
  (freeChain_upkeep h).still (by exact rfl)

theorem logTransfer_upkeep {st d : Nat} {bad : Option Nat} (h : Upkeep p s) : Upkeep p (logTransfer st d bad s) :=
  .ite h (logErr_upkeep (.ite (logErr_upkeep h) h))

theorem endFill_upkeep {d : Nat} {x : Page} {ok : Bool} (h : Upkeep p s) : Upkeep p (endFill d x ok s) := by
  unfold endFill
  dsimp only
  have dropped : Upkeep p (dropTransfer d x (updAviary (fun a => { a with fills := setDel d a.fills }) s)) :=
    dropTransfer_upkeep (h.still (by exact rfl))
  refine .ite (dropped.still (by exact rfl)) (logTransfer_upkeep (updPage_upkeep (putFrame_upkeep ?_)))
  split
  · exact dropped
  · exact dropped.still (by exact rfl)

theorem endSpill_upkeep {d : Nat} {x : Page} {ok : Bool} (h : Upkeep p s) : Upkeep p (endSpill d x ok s) := by
  unfold endSpill
  dsimp only
  have dropped : Upkeep p (dropTransfer d x (countUnused x (updAviary (fun a => { a with spills := setDel d a.spills }) s))) :=
    dropTransfer_upkeep (h.still (by exact rfl))
  exact .ite (dropped.still (by exact rfl)) (logTransfer_upkeep (updPage_upkeep (.ite (putFrame_upkeep dropped) dropped)))

theorem endTransfer_upkeep {d : Nat} (h : Upkeep p s) : Upkeep p (endTransfer d s) := by
  unfold endTransfer
  split
  · exact .ite h (.ite (endSpill_upkeep h) (endFill_upkeep h))
  · exact h

theorem hotRoom_upkeep (h : Upkeep p s) : Upkeep p (hotRoom s) := by
  unfold hotRoom
  refine .ite h ?_
  extract_lets t
  have ht : Upkeep p t := h.foldl fun _ _ => endTransfer_upkeep
  refine .ite ht ?_
  split
  · exact endTransfer_upkeep ((moveNow_upkeep ht).still (by exact rfl))
  · exact ht

theorem hotNow_upkeep {d : Nat} (h : Upkeep p s) : Upkeep p (hotNow d s) := by
  unfold hotNow
  extract_lets t
  have ht : Upkeep p t := endTransfer_upkeep h
  split
  · exact ht
  · exact .ite ht (endTransfer_upkeep (moveNow_upkeep (hotRoom_upkeep ht)))

theorem putPage_upkeep {d : Nat} {bs : List (Byte × Bool)} (h : Upkeep p s) : Upkeep p (putPage d bs s) := by
  unfold putPage
  extract_lets t
  have ht : Upkeep p t := hotNow_upkeep h
  split
  · exact putFrame_upkeep ht
  · exact ht

theorem newPage_upkeep {o : Nat} (h : Upkeep p s) : Upkeep p (newPage o s).2 := h.still (by exact rfl)

theorem copyPage_upkeep {o d : Nat} (h : Upkeep p s) : Upkeep p (copyPage o d s).2 := by
  unfold copyPage
  extract_lets t
  have ht : Upkeep p t := hotNow_upkeep h
  split
  · exact newPage_upkeep ht
  · exact updPage_upkeep (putPage_upkeep (newPage_upkeep (noteFrame_upkeep ht)))

theorem sharePage_upkeep {o d : Nat} (h : Upkeep p s) : Upkeep p (sharePage o d s).2 := by
  unfold sharePage
  split
  · exact h
  · split
    · exact h.still (by exact rfl)
    · exact (copyPage_upkeep h).still (by exact rfl)

theorem mapPage_upkeep {k d : Nat} (h : Upkeep p s) : Upkeep p (mapPage k d s) := h.still (by exact rfl)

theorem releasePage_upkeep {d : Nat} (h : Upkeep p s) : Upkeep p (releasePage d s) := by
  unfold releasePage
  split
  · exact h
  · exact .ite (.ite (h.still (by exact rfl)) (h.still (by exact rfl))) (h.still (by exact rfl))

theorem unmapPage_upkeep {k : Nat} (h : Upkeep p s) : Upkeep p (unmapPage k s) := by
  unfold unmapPage
  split
  · exact h
  · exact releasePage_upkeep (h.still (by exact rfl))

theorem ownPage_upkeep {q k : Nat} (h : Upkeep p s) : Upkeep p (ownPage q k s) := by
  unfold ownPage
  split
  · exact h
  · split
    · exact h
    · exact .ite h (mapPage_upkeep ((copyPage_upkeep h).still (by exact rfl)))

/-! ### Sequences (R156 to R161, R175) -/

theorem endSeq_upkeep {q : Nat} (h : Upkeep p s) : Upkeep p (endSeq q s) :=
  tlbDrop_upkeep ((h.foldl fun _ _ => unmapPage_upkeep).still (by exact rfl))

theorem storeKv_upkeep {q o n : Nat} {kv : Nat × List Byte × List Byte × Bool} (h : Upkeep p s) : Upkeep p (storeKv q o n kv s) := by
  unfold storeKv
  extract_lets key t
  have ht : Upkeep p t := by
    unfold t
    split
    · exact ownPage_upkeep h
    · exact mapPage_upkeep (h.still (by exact rfl))
  split
  · exact ht
  · extract_lets u
    have hu : Upkeep p u := hotNow_upkeep ht
    split
    · exact hu
    · exact (writePhys_upkeep hu).still (by exact rfl)

theorem dropOldest_upkeep {q n : Nat} {x : Seq} (h : Upkeep p s) : Upkeep p (dropOldest q n x s) :=
  (h.foldl fun _ _ => unmapPage_upkeep).still (by exact rfl)

theorem commitToken_upkeep {q n : Nat} {k : Token} {kv : List (Nat × List Byte × List Byte × Bool)} (h : Upkeep p s) :
    Upkeep p (commitToken q n k kv s) := by
  unfold commitToken
  split
  · exact h
  · extract_lets t
    have ht : Upkeep p t := .ite (dropOldest_upkeep h) h
    split
    · exact ht
    · exact (ht.still (by exact rfl)).foldl fun _ _ => storeKv_upkeep

theorem forkPage_upkeep {o a b l n : Nat} {w : Bool} (h : Upkeep p s) : Upkeep p (forkPage o a b l n w s) := by
  unfold forkPage
  split
  · exact h
  · dsimp only
    refine mapPage_upkeep ?_
    cases w
    · exact copyPage_upkeep h
    · exact sharePage_upkeep h

theorem forkSeq_upkeep {q : Nat} {o : Option Nat} {x : Seq} (h : Upkeep p s) : Upkeep p (forkSeq q o x s) := by
  unfold forkSeq
  extract_lets y pages toks z t
  have ht : Upkeep p t := h.still (by exact rfl)
  split
  · unfold forkPages
    split
    · exact ht
    · exact ht.foldl fun _ _ h => h.foldl fun _ _ => forkPage_upkeep
  · exact ht

theorem clearHistories_upkeep {k n : Nat} (h : Upkeep p s) : Upkeep p (clearHistories k n s) :=
  h.foldl fun _ _ h => .ite (h.foldl fun _ _ => writePhys_upkeep) h

/-! ### Messages to other chips (R456, R458) -/

theorem updTrellis_upkeep {f : Trellis → Trellis} (h : Upkeep p s) : Upkeep p (updTrellis f s) := h.still (by exact rfl)

theorem enqueueMessage_upkeep {k d n v : Nat} {bs : List Byte} (h : Upkeep p s) : Upkeep p (enqueueMessage k d n v bs s) :=
  h.still (by exact rfl)

theorem startRelay_upkeep {d : Nat} (h : Upkeep p s) : Upkeep p (startRelay d s) := .ite h (logErr_upkeep (updTrellis_upkeep h))

theorem sendByRelay_upkeep {d v : Nat} {bs : List Byte} (h : Upkeep p s) : Upkeep p (sendByRelay d v bs s) := by
  unfold sendByRelay
  extract_lets keep
  split
  · exact updTrellis_upkeep (enqueueMessage_upkeep (updTrellis_upkeep (startRelay_upkeep h)))
  · exact updTrellis_upkeep h

theorem sendMessage_upkeep {d v n : Nat} {bs : List Byte} (h : Upkeep p s) : Upkeep p (sendMessage d v n bs s) := by
  refine .ite ?_ h
  have bumped : Upkeep p (bumpMnum d v s) := updTrellis_upkeep h
  unfold routeMessage
  split
  · exact .ite (enqueueMessage_upkeep bumped) (sendByRelay_upkeep bumped)
  · exact bumped

end

end Sys2Proof.Machine
end

section
/-! RECORD_FORM (R282, R288, R362, R430, R440): what a commit leaves of its stream, and what the forming of a record makes of it. -/

namespace Sys2Proof.Machine

/-! ### The side of a stream that its records are made of -/

/-- A stream without what commits, deliveries and bindings note beside its records. -/
def recordSide (x : Stream) : Stream := { x with nextTrack := 0, gallery := [], cacheSkipped := 0, bindings := [], ringDrops := 0 }

theorem recordSide_fields {x y : Stream} (h : recordSide y = recordSide x) : y.frames = x.frames ∧ y.formed = x.formed
    ∧ y.counts = x.counts ∧ y.committed = x.committed ∧ y.nextEmit = x.nextEmit ∧ y.closing = x.closing := by
  simp only [recordSide, Stream.mk.injEq] at h
  simp only [h, and_self]

/-- From `p` to `s` no stream has changed on its record side. -/
def SameRecords (p s : State) : Prop := s.streams.map (·.map recordSide) = p.streams.map (·.map recordSide)

section
variable {p s t : State} {n : Nat} {x y : Stream}

theorem SameRecords.refl (s : State) : SameRecords s s := rfl

theorem SameRecords.still (h : SameRecords p s) (e : t.streams = s.streams) : SameRecords p t := by
  rw [SameRecords, e]
  exact h

theorem SameRecords.ite {c : Prop} [Decidable c] {a b : State} (ha : SameRecords p a) (hb : SameRecords p b) :
    SameRecords p (if c then a else b) := by
  split
  · exact ha
  · exact hb

theorem SameRecords.foldl {α : Type} {f : State → α → State} {l : List α} (h : SameRecords p s)
    (hf : ∀ s x, SameRecords p s → SameRecords p (f s x)) : SameRecords p (l.foldl f s) := by
  induction l generalizing s with
  | nil => exact h
  | cons x l ih => exact ih (hf s x h)

theorem Upkeep.streams (h : Upkeep s t) : t.streams = s.streams := by rw [h]

theorem SameRecords.upkeep (h : SameRecords p s) (e : Upkeep s t) : SameRecords p t := h.still e.streams

theorem SameRecords.log (h : SameRecords p s) (e : LogFrame s t) : SameRecords p t := h.upkeep (Upkeep.log (.refl s) e)

theorem updStream_sameRecords {f : Stream → Stream} (h : SameRecords p s) (hf : ∀ x, recordSide (f x) = recordSide x) :
    SameRecords p (updStream n f s) := by
  refine Eq.trans ?_ h
  show (upd s.streams n (·.map f)).map (·.map recordSide) = _
  refine List.ext_getElem? fun i => ?_
  rw [List.getElem?_map, List.getElem?_map]
  by_cases e : n = i
  · subst e
    cases hs : s.streams[n]? with
    | none => rw [List.getElem?_eq_none ((length_upd ..).trans_le (List.getElem?_eq_none_iff.mp hs))]
    | some o =>
      rw [getElem?_upd_self hs]
      cases o <;> simp [hf]
  · rw [getElem?_upd_other e]

theorem SameRecords.stream (h : SameRecords p s) (hx : stream? p n = some x) : ∃ y, stream? s n = some y ∧ recordSide y = recordSide x := by
  have at_ : (s.streams[n]?).map (·.map recordSide) = (p.streams[n]?).map (·.map recordSide) := by
    rw [← List.getElem?_map, ← List.getElem?_map, h]
  rw [stream?_eq_some.mp hx] at at_
  cases hs : s.streams[n]? with
  | none => simp [hs] at at_
  | some o =>
    cases o with
    | none => simp [hs] at at_
    | some y => exact ⟨y, stream?_eq_some.mpr hs, by simpa [hs] using at_⟩

theorem stream?_updStream {f : Stream → Stream} (hx : stream? s n = some x) : stream? (updStream n f s) n = some (f x) := by
  rw [stream?_eq_some] at hx ⊢
  exact getElem?_upd_self hx

theorem stream?_of_streams (e : t.streams = s.streams) : stream? t n = stream? s n := congrArg (·.getD n none) e

/-! ### A commit (R139, R174, R176, R260, R266, R180) -/

theorem updAviary_upkeep {f : Aviary → Aviary} (h : Upkeep p s) : Upkeep p (updAviary f s) := h.still (by exact rfl)

theorem unreserve_upkeep {o : Nat} (h : Upkeep p s) : Upkeep p (unreserve o s) := h.still (by exact rfl)

theorem releasePrompt_upkeep {k : Nat} (h : Upkeep p s) : Upkeep p (releasePrompt k s) := by
  unfold releasePrompt
  split
  · exact h
  · refine .ite h ?_
    extract_lets t
    have ht : Upkeep p t := by
      unfold t
      split
      · exact endSeq_upkeep h
      · exact h
    clear_value t
    exact unreserve_upkeep (updAviary_upkeep ht)

theorem publishEffect_sameRecords {f : Frame} {q k : Nat} {b : Bool} (h : SameRecords p s) :
    SameRecords p (publishEffect n f q k b s) := by
  unfold publishEffect
  split
  · unfold publish addGallery
    refine .ite (updStream_sameRecords h fun x => ?_) (h.upkeep (sendMessage_upkeep (.refl s)))
    split
    · simp only [recordSide]
    · rfl
  · exact h

theorem commitEffect_sameRecords {num : Nat} {e : AviaryEffect} (h : SameRecords p s) : SameRecords p (commitEffect n num x e s) := by
  cases e with
  | hit q d => exact h.still rfl
  | miss q => exact h.still rfl
  | ends q => exact h.upkeep (endSeq_upkeep (.refl s))
  | birth d q i g =>
    exact updStream_sameRecords (h.upkeep (clearHistories_upkeep (forkSeq_upkeep (.refl s)))) fun _ => rfl
  | refused k => exact h.still rfl
  | token q k kv => exact h.upkeep (commitToken_upkeep (.refl s))
  | publish q k b => exact h

theorem commitJournal_sameRecords {num : Nat} {f : Frame} (h : SameRecords p s) : SameRecords p (commitJournal n num f x s) := by
  unfold commitJournal
  extract_lets es t
  have ht : SameRecords p t := h.foldl fun s e h => by
    split
    · exact publishEffect_sameRecords h
    · exact commitEffect_sameRecords h
  exact ht.foldl fun s e h => by
    split
    · exact publishEffect_sameRecords h
    · exact h

theorem pushHistories_upkeep {num : Nat} (h : Upkeep p s) : Upkeep p (pushHistories n num s) :=
  h.foldl fun _ _ h => writePhys_upkeep (unitRead_upkeep h)

theorem evictSamples_streams {quota need fuel : Nat} : (evictSamples n quota need fuel s).2.streams = s.streams := by
  induction fuel generalizing s with
  | zero => rfl
  | succ fuel ih =>
    unfold evictSamples
    extract_lets mine frames free
    split
    · rfl
    · split
      · rfl
      · exact ih

theorem cacheFrame_sameRecords {f : Frame} {l : List (List Byte)} (h : SameRecords p s) : SameRecords p (cacheFrame n f l s) := by
  unfold cacheFrame
  split
  · exact h
  · refine .ite h ?_
    extract_lets new
    have kept (quota : Nat) : SameRecords p (evictSamples n quota (sampleBytes new) ((streamSamples s n).length + 1) s).2 :=
      h.still evictSamples_streams
    exact .ite ((kept _).still rfl) (updStream_sameRecords (kept _) fun _ => rfl)

theorem triggerJob_sameRecords {num : Nat} {f : Frame} (h : SameRecords p s) : SameRecords p (triggerJob n num f s) := by
  unfold triggerJob
  split
  · exact h
  · refine .ite h ?_
    unfold reportSuperseded
    split
    · exact (h.log (logErr_frame ..)).still rfl
    · exact h.still rfl

theorem pruneBindings_sameRecords {k : Nat} (h : SameRecords p s) : SameRecords p (pruneBindings n k s) := by
  unfold pruneBindings
  split
  · exact h
  · extract_lets past old t
    have ht : SameRecords p t := updStream_sameRecords h fun _ => rfl
    exact ht.foldl fun s k h => h.upkeep (releasePrompt_upkeep (.refl s))

/-- A commit leaves its stream's record side but for the steering state and the newest committed frame. -/
theorem commitFrame_stream {num : Nat} {f : Frame} (hx : stream? s n = some x) : ∃ z steers, stream? (commitFrame n num y f s) n = some z
    ∧ recordSide z = recordSide { x with steers := steers, committed := some (num, f.stamp) } := by
  unfold commitFrame
  extract_lets es t u v
  have ht : SameRecords s t := commitJournal_sameRecords (SameRecords.upkeep (.refl s) (pushHistories_upkeep (.refl s)))
  obtain ⟨w, hw, side⟩ := ht.stream hx
  have hv : SameRecords u v := .ite (.refl u) (cacheFrame_sameRecords (.refl u))
  obtain ⟨z, hz, same⟩ := (pruneBindings_sameRecords (triggerJob_sameRecords hv)).stream (stream?_updStream hw)
  refine ⟨z, ((num, steerState t n) :: w.steers).take 10, hz, same.trans ?_⟩
  exact congrArg (fun x : Stream => { x with
    steers := ((num, steerState t n) :: w.steers).take 10, committed := some (num, f.stamp) }) side

/-! ### A skip record (R282, R288) -/

theorem overloadNotice_stream (hx : stream? s n = some x) : ∃ y, stream? (overloadNotice n s) n = some y
    ∧ y.frames = x.frames ∧ y.counts = x.counts := by
  unfold overloadNotice
  rw [hx]
  dsimp -zeta only
  extract_lets due
  split
  · exact ⟨_, stream?_updStream hx, rfl, rfl⟩
  · exact ⟨_, hx, rfl, rfl⟩

theorem noteSkip_stream {reason : Nat} (hx : stream? s n = some x) : ∃ y, stream? (noteSkip n reason s) n = some y
    ∧ y.frames = x.frames ∧ y.counts = countSkip reason x.counts := overloadNotice_stream (stream?_updStream hx)

end

/-! ### The record is formed -/

section
variable {s t : State} {n num : Nat} {x y : Stream} {f z : Frame}

/-- A stream with a change of its frames of a serial number. -/
def withFrames (id : Nat) (g : Frame → Frame) (x : Stream) : Stream :=
  { x with frames := x.frames.map fun f => if f.id = id then g f else f }

theorem stream?_updFrame {id : Nat} {g : Frame → Frame} (hx : stream? s n = some x) :
    stream? (updFrame n id g s) n = some (withFrames id g x) := stream?_updStream hx

theorem frameOf_withFrames {id : Nat} {g : Frame → Frame} (hz : frameOf x id = some z) (keeps : ∀ f, (g f).id = f.id) :
    frameOf (withFrames id g x) id = some (g z) := by
  have found : z.id = id := by simpa using List.find?_some hz
  have same : ((fun f : Frame => f.id == id) ∘ fun f => if f.id = id then g f else f) = fun f => f.id == id := by
    funext f
    show ((if f.id = id then g f else f).id == id) = _
    split
    · rw [keeps]
    · rfl
  rw [frameOf, withFrames, List.find?_map, same, show x.frames.find? (fun f => f.id == id) = some z from hz, Option.map_some, if_pos found]

theorem getFrame_eq (hy : stream? s n = some y) (id : Nat) : getFrame s n id = frameOf y id := by
  rw [getFrame, hy]
  rfl

/-- A frame whose cells are free. -/
def unchained (f : Frame) : Frame := { f with head := 0 }

/-- A frame that has yielded its record. -/
def spent (f : Frame) : Frame := { f with stage := .formed, store := none, samples := [] }

theorem clearFrame_stream (hx : stream? s n = some x) (hz : frameOf x f.id = some z) : ∃ l,
    stream? (clearFrame n num f.id s) n = some { x with frames := l } ∧ frameOf { x with frames := l } f.id = some (spent (unchained z)) := by
  unfold clearFrame
  extract_lets t
  have ht : stream? t n = some x := hx
  have freed : freeFrame n f.id t = updFrame n f.id unchained (freeChain z.head t) := by
    rw [freeFrame, getFrame_eq ht, hz]
    rfl
  rw [freed]
  have hu : stream? (freeChain z.head t) n = some x := (stream?_of_streams (freeChain_upkeep (.refl t)).streams).trans ht
  have first := stream?_updFrame (id := f.id) (g := unchained) hu
  have there := frameOf_withFrames (g := unchained) hz fun _ => rfl
  exact ⟨(withFrames f.id spent (withFrames f.id unchained x)).frames, stream?_updFrame (g := spent) first,
    frameOf_withFrames (g := spent) there fun _ => rfl⟩

/-- The outcome of a frame on its stream (R282): a commit, or a skip that is counted. -/
theorem outcome_stream (hx : stream? s n = some x) : ∃ w, stream? (if f.reason = 0 then commitFrame n num y f s else noteSkip n f.reason s) n = some w
    ∧ w.frames = x.frames ∧ (f.reason ≠ 0 → w.counts = countSkip f.reason x.counts)
    ∧ (f.reason = 0 → w.committed = some (num, f.stamp)) := by
  split
  · next served =>
    obtain ⟨w, steers, hw, side⟩ := commitFrame_stream (y := y) (num := num) (f := f) hx
    obtain ⟨frames, -, -, committed, -⟩ := recordSide_fields side
    exact ⟨w, hw, frames, fun skipped => absurd served skipped, fun _ => committed⟩
  · next skipped =>
    obtain ⟨w, hw, frames, counts⟩ := noteSkip_stream (reason := f.reason) hx
    exact ⟨w, hw, frames, fun _ => counts, fun served => absurd served skipped⟩

/-- A record of a frame is formed on a stream that was `x`, where the frame was `z`. -/
structure FormedOn (t : State) (n num : Nat) (x : Stream) (f z : Frame) : Prop where
  on : ∃ y, stream? t n = some y ∧ (∃ r ∈ y.formed, r.frame = num) ∧ y.lastOutcome = some num ∧ y.nextEvents = []
    ∧ getFrame t n f.id = some (spent (unchained z)) ∧ (f.reason ≠ 0 → y.counts = countSkip f.reason x.counts)
    ∧ (f.reason = 0 → y.committed = some (num, f.stamp))

theorem formRecord_formedOn (hx : stream? s n = some x) (hz : frameOf x f.id = some z) : FormedOn (formRecord n num y f s) n num x f z := by
  obtain ⟨w, hw, frames, counts, committed⟩ := outcome_stream (y := y) (num := num) (f := f) hx
  unfold formRecord
  extract_lets es t bs u v
  have hu : ∃ a, stream? u n = some a ∧ (∃ r ∈ a.formed, r.frame = num) ∧ a.lastOutcome = some num ∧ a.nextEvents = []
      ∧ a.frames = w.frames ∧ a.counts = w.counts ∧ a.committed = w.committed :=
    ⟨_, stream?_updStream hw, ⟨_, (insertBy_perm ..).mem_iff.mpr (List.mem_cons_self ..), rfl⟩, rfl, rfl, rfl, rfl, rfl⟩
  obtain ⟨a, ha, record, last, events, sameFrames, sameCounts, sameCommit⟩ := hu
  have found : frameOf a f.id = some z := by
    rw [frameOf, sameFrames, frames]
    exact hz
  obtain ⟨l, hb, stays⟩ := clearFrame_stream (num := num) ha found
  have hv : stream? v n = some { a with frames := l } := hb
  suffices h : ∀ r : State, r.streams = v.streams → FormedOn r n num x f z by
    split
    · exact h _ (releasePrompt_upkeep (.refl v)).streams
    · exact h _ rfl
  intro r same
  have hr : stream? r n = some { a with frames := l } := (stream?_of_streams same).trans hv
  exact ⟨_, hr, record, last, events, (getFrame_eq hr _).trans stays, fun skipped => sameCounts.trans (counts skipped),
    fun served => sameCommit.trans (committed served)⟩

end

end Sys2Proof.Machine
end

section
/-! RECORD_FORM, RECORD_EMIT and PIN_NOTICE (R44, R282 to R288, R355 to R362, R430 to R440). -/

namespace Sys2Proof.Machine

/-! ### Which frame comes next, and the two formings of its record (R282, R362) -/

section
variable {s t : State} {n num : Nat} {x : Stream} {f g : Frame}

theorem formNext_least (next : formNext s n x = some f) :
    f ∈ x.frames ∧ ∀ g ∈ x.frames, formable s n x g = true → f.num.getD 0 ≤ g.num.getD 0 := by
  obtain ⟨member, first⟩ := sortBy_head (lt := fun a b : Frame => decide (a.num.getD 0 < b.num.getD 0))
    (fun a b c ab bc => decide_eq_true (Nat.lt_trans (of_decide_eq_true ab) (of_decide_eq_true bc)))
    (fun a b ab => decide_eq_false (Nat.lt_asymm (of_decide_eq_true ab))) next
  exact ⟨(List.mem_filter.mp member).1,
    fun g hg can => Nat.le_of_not_lt (of_decide_eq_false (first g (List.mem_filter.mpr ⟨hg, can⟩)))⟩

theorem frameOf_of_mem (hf : f ∈ x.frames) : ∃ z, frameOf x f.id = some z :=
  Option.isSome_iff_exists.mp (List.find?_isSome.mpr ⟨f, hf, beq_self_eq_true _⟩)

theorem logRecordMark_streams : (logRecordMark n s).streams = s.streams := (Upkeep.log (.refl s) (logErr_frame ..)).streams

/-- What RECORD_FORM leaves of the stream, whatever the two formings meet. -/
theorem formClean_formedOn (hx : stream? s n = some x) (hf : f ∈ x.frames) (marked again : Bool) :
    ∃ w z, FormedOn (formClean n num x f marked again s) n num w (if marked && again then markedFrame f else f) z ∧ w.counts = x.counts
      ∧ (marked = true → again = true → z.reason = reasonFault ∧ z.status = 0x0611) := by
  obtain ⟨z, hz⟩ := frameOf_of_mem hf
  have logged {s : State} (hx : stream? s n = some x) : stream? (logRecordMark n s) n = some x :=
    (stream?_of_streams logRecordMark_streams).trans hx
  unfold formClean
  cases marked with
  | false => exact ⟨x, z, formRecord_formedOn hx hz, rfl, nofun⟩
  | true =>
    cases again with
    | false => exact ⟨x, z, formRecord_formedOn (logged hx) hz, rfl, nofun⟩
    | true =>
      have there := stream?_updFrame (id := f.id) (g := markedFrame) (logged (logged hx))
      exact ⟨withFrames f.id markedFrame x, markedFrame z,
        formRecord_formedOn (f := markedFrame f) there (frameOf_withFrames hz fun _ => rfl), rfl, fun _ _ => ⟨rfl, rfl⟩⟩

section
variable {marked again : Bool} (hx : s.streams[n]? = some (some x)) (next : formNext s n x = some f) (isNum : f.num = some num)
include hx next isNum

theorem exec_recordForm_forms (hot : f.reason = 0 → commitWaits s n num x = []) :
    exec (.recordForm ⟨n, marked, again⟩) s = doneIf (!islandFenced s 1 && s.power.running && !timeFrozen s
      && decide (unackedBytes (formClean n num x f marked again s) ≤ 262144)) (formClean n num x f marked again s) s := by
  have cold : (if f.reason = 0 then commitWaits s n num x else []) = [] := by
    split
    · next served => exact hot served
    · rfl
  show execRecordForm ⟨n, marked, again⟩ s = _
  simp only [execRecordForm, hx, next, isNum, Option.getD_some, cold, List.isEmpty_nil, if_true]

theorem exec_recordForm_waits (served : f.reason = 0) (cold : commitWaits s n num x ≠ []) :
    ∃ t, exec (.recordForm ⟨n, marked, again⟩) s = .next t ∧ t.streams = s.streams := by
  have wanted : ((commitWaits s n num x).foldl (fun s p => wantPage p s) s).streams = s.streams :=
    Upkeep.streams (Upkeep.foldl (.refl s) fun _ _ => updAviary_upkeep)
  have answers : exec (.recordForm ⟨n, marked, again⟩) s = doneIf (!islandFenced s 1 && s.power.running && !timeFrozen s
      && decide (unackedBytes ((commitWaits s n num x).foldl (fun s p => wantPage p s) s) ≤ 262144))
      ((commitWaits s n num x).foldl (fun s p => wantPage p s) s) s := by
    show execRecordForm ⟨n, marked, again⟩ s = _
    simp only [execRecordForm, hx, next, isNum, Option.getD_some, served, if_true, List.isEmpty_eq_false_iff.mpr cold,
      Bool.false_eq_true, if_false]
  refine ⟨_, answers, ?_⟩
  split
  · exact wanted
  · rfl

end

end

/-! ### Deliveries (R207, R208, R424 to R429) -/

/-- From `p` to `s` a record has gone to its takers: no record side has changed, no command and no notice record that waits. -/
structure Delivered (p s : State) : Prop where
  frame : s = { p with
    out := s.out, mem := s.mem, eth := s.eth, streams := s.streams, err := s.err, gate := s.gate
    mbx := { s.mbx with cmds := p.mbx.cmds, heldNotices := p.mbx.heldNotices } }
  records : SameRecords p s

section
variable {p s t : State} {n d : Nat} {x : Stream}

theorem Delivered.refl (s : State) : Delivered s s := ⟨rfl, .refl s⟩

/-- A change of other parts. -/
theorem Delivered.still (h : Delivered p s) (e : t = { s with
    out := t.out, mem := t.mem, eth := t.eth, err := t.err, gate := t.gate
    mbx := { t.mbx with cmds := s.mbx.cmds, heldNotices := s.mbx.heldNotices } }) : Delivered p t where
  frame := by
    rw [e, h.frame]
  records := h.records.still (by rw [e])

theorem Delivered.ite {c : Prop} [Decidable c] {a b : State} (ha : Delivered p a) (hb : Delivered p b) :
    Delivered p (if c then a else b) := by
  split
  · exact ha
  · exact hb

theorem Delivered.foldl {α : Type} {f : State → α → State} {l : List α} (h : Delivered p s)
    (hf : ∀ s x, Delivered p s → Delivered p (f s x)) : Delivered p (l.foldl f s) := by
  induction l generalizing s with
  | nil => exact h
  | cons x l ih => exact ih (hf s x h)

theorem logErr_delivered {st i u : Nat} {a : LogArgs} (h : Delivered p s) : Delivered p (logErr st i u s a) :=
  h.still (by rw [logErr_frame])

theorem hostWrite_delivered {a : Nat} {bs : List Byte} (h : Delivered p s) : Delivered p (hostWrite a bs s) :=
  .ite h (.ite (logErr_delivered h) (Delivered.foldl (h.still (by exact rfl)) fun _ _ h => .ite (h.still (by exact rfl)) h))

theorem setDr_delivered (h : Delivered p s) : Delivered p (setDr d s) := h.still (by rw [setDr, withCauses_frame]; rfl)

theorem updRing_delivered {f : RingSub → RingSub} (h : Delivered p s) : Delivered p (updRing d f s) := h.still (by exact rfl)

theorem updUdp_delivered {f : UdpSub → UdpSub} (h : Delivered p s) : Delivered p (updUdp d f s) := h.still (by exact rfl)

theorem dropForRing_delivered {r : RingSub} {o : Option Nat} (h : Delivered p s) : Delivered p (dropForRing d r o s) := by
  unfold dropForRing
  extract_lets r t u v
  have ht : Delivered p t := updRing_delivered h
  have hu : Delivered p u := by
    unfold u
    split
    · exact ⟨by rw [ht.frame]; rfl, updStream_sameRecords ht.records fun _ => rfl⟩
    · exact ht
  have hv : Delivered p v := logErr_delivered hu
  exact .ite (hostWrite_delivered hv) hv

theorem deliverRing_delivered {r : RingSub} {o : Option Nat} {bs : List Byte} (h : Delivered p s) :
    Delivered p (deliverRing d r o bs s) := by
  unfold deliverRing
  extract_lets size u k f at_ r' t r''
  have ht : Delivered p t := hostWrite_delivered (hostWrite_delivered h)
  exact .ite (dropForRing_delivered h) (.ite (setDr_delivered (hostWrite_delivered (updRing_delivered (hostWrite_delivered h))))
    (.ite (setDr_delivered (hostWrite_delivered (updRing_delivered ht))) (dropForRing_delivered h)))

theorem askNeighbour_delivered {k : Nat} {a : List Byte} (h : Delivered p s) : Delivered p (askNeighbour k a s) := by
  unfold askNeighbour
  split
  · exact .ite h (h.still (by exact rfl))
  · exact h

theorem flushUdp_delivered (h : Delivered p s) : Delivered p (flushUdp d s) := by
  unfold flushUdp
  split
  · exact .ite ((updUdp_delivered (askNeighbour_delivered h)).foldl fun _ _ h => h.still (by exact rfl)) h
  · exact h

theorem deliverUdp_delivered {u : UdpSub} {bs : List Byte} (h : Delivered p s) : Delivered p (deliverUdp d u bs s) := by
  unfold deliverUdp
  extract_lets gs t
  have ht : Delivered p t := .ite (askNeighbour_delivered h) h
  exact .ite (logErr_delivered (updUdp_delivered ht)) (flushUdp_delivered (updUdp_delivered ht))

theorem deliverOne_delivered {k : Nat} {o : Option Nat} {bs : List Byte} {y : Taker} (h : Delivered p s) :
    Delivered p (deliverOne k o bs y s) := by
  unfold deliverOne
  refine .ite ?_ ?_
  · split
    · exact .ite (deliverUdp_delivered h) h
    · exact h
  · split
    · exact .ite (deliverRing_delivered h) h
    · exact h

/-- A record that is emitted enters the journal last, and is delivered (R437, R439). -/
theorem emitRecord_delivered (k : Nat) (o : Option Nat) (f : Nat) (ts : List Taker) (bs : List Byte) (s : State) :
    Delivered (journalAdd { stream := o.getD 0xFF, frame := f, bytes := bs, recovered := false } s) (emitRecord k o f ts bs s) :=
  Delivered.still (Delivered.foldl (.refl _) fun _ _ => deliverOne_delivered) (by exact rfl)

end

/-! ### RECORD_EMIT (R286, R355, R357, R362, R437, R439) -/

section
variable {s t : State} {n now : Nat} {x : Stream} {f : Frame} {r : FormedRecord} {bs : List Byte} {ts : List Taker}

/-- A stream whose record of frame `f` has left at `now`; `f` carries the outcome that counts. -/
def emittedOn (x : Stream) (f : Frame) (now : Nat) (y : Stream) : Stream := { y with
  formed := y.formed.filter fun r => r.frame != x.nextEmit
  frames := y.frames.filter fun g => g.id != f.id
  nextEmit := y.nextEmit + 1
  counts := if f.reason ≠ 0 then y.counts else if decide (0 < lateness x f now) then { y.counts with delayed := y.counts.delayed + 1 }
            else { y.counts with served := y.counts.served + 1 } }

/-- A record leaves for its takers. -/
def emitFrom (n : Nat) (x : Stream) (f : Frame) (now : Nat) (bs : List Byte) (ts : List Taker) (s : State) : State :=
  finishClose n (formHeld (emitRecord (if f.reason = 0 then 0 else 1) (some n) x.nextEmit ts (emittedBytes x f now bs)
    (updStream n (emittedOn x f now) s)))

theorem formHeld_none (held : s.mbx.heldNotices = []) : formHeld s = updMbx (fun m => { m with heldNotices := [] }) s := by
  rw [formHeld, held]
  rfl

theorem finishClose_open (hx : stream? s n = some x) (stays : x.closing = false) : finishClose n s = s := by
  rw [finishClose, hx]
  dsimp only
  rw [stays, if_neg (by simp)]

theorem emitFrom_effect (hx : stream? s n = some x) (stays : x.closing = false) (held : s.mbx.heldNotices = []) :
    ∃ y, stream? (emitFrom n x f now bs ts s) n = some y ∧ recordSide y = recordSide (emittedOn x f now x)
      ∧ (emitFrom n x f now bs ts s).journal.getLast?
        = some { stream := n, frame := x.nextEmit, recovered := false, bytes := emittedBytes x f now bs } := by
  have sent := emitRecord_delivered (if f.reason = 0 then 0 else 1) (some n) x.nextEmit ts (emittedBytes x f now bs)
    (updStream n (emittedOn x f now) s)
  have there : stream? (updStream n (emittedOn x f now) s) n = some (emittedOn x f now x) := stream?_updStream hx
  obtain ⟨y, hy, side⟩ := sent.records.stream there
  have none : (emitRecord (if f.reason = 0 then 0 else 1) (some n) x.nextEmit ts (emittedBytes x f now bs)
      (updStream n (emittedOn x f now) s)).mbx.heldNotices = [] := by
    rw [sent.frame]
    exact held
  obtain ⟨-, -, -, -, -, closing⟩ := recordSide_fields side
  have after : stream? (updMbx (fun m => { m with heldNotices := [] }) (emitRecord (if f.reason = 0 then 0 else 1) (some n) x.nextEmit ts
      (emittedBytes x f now bs) (updStream n (emittedOn x f now) s))) n = some y := hy
  rw [emitFrom, formHeld_none none, finishClose_open after (closing.trans stays)]
  refine ⟨y, hy, side, ?_⟩
  show (emitRecord _ _ _ _ _ _).journal.getLast? = _
  rw [sent.frame]
  exact List.getLast?_concat ..

theorem quinbuarAsks_open {request i : Nat} {go giveUp : State → State} (serves : islandFenced s i = false) :
    ∃ l, quinbuarAsks request i go giveUp s = go (updMbx (fun m => { m with retries := l }) s) := by
  unfold quinbuarAsks
  extract_lets old tries drop
  split
  · rw [serves, if_neg Bool.false_ne_true]
    exact ⟨_, rfl⟩
  · next j fenced =>
    obtain ⟨job, at_⟩ := Option.filter_eq_some_iff.mp fenced
    rw [islandFenced, resetFenced, job] at serves
    simp [at_] at serves

/-- The outcome that counts for a frame whose record leaves (R357, R362). -/
def checkedFrame (f : Frame) (r : FormedRecord) : Frame := if trailerOk r.bytes || trailerOk r.source then f else markedFrame f

/-- The bytes that leave for it. -/
def checkedBytes (s : State) (n : Nat) (x : Stream) (f : Frame) (r : FormedRecord) : List Byte :=
  if trailerOk r.bytes then r.bytes else if trailerOk r.source then r.source
  else formBytes s n r.frame { x with nextEvents := [] } (checkedFrame f r) []

theorem checkedRecord_bytes : (checkedRecord s n x f r).1 = checkedBytes s n x f r := by
  unfold checkedRecord checkedBytes
  split
  · rfl
  · next bad =>
    split
    · rfl
    · next worse => rw [checkedFrame, if_neg (by simp [bad, worse])]

theorem exec_recordEmit (hx : s.streams[n]? = some (some x)) (record : (x.formed.find? fun r => r.frame == x.nextEmit) = some r)
    (frame : frameByNum x x.nextEmit = some f) (island : islandFenced s 1 = false) (on : s.power.running = true)
    (runs : timeFrozen s = false) (serves : islandFenced s 2 = false) : ∃ ts u,
    exec (.recordEmit n) s = .next (emitFrom n x (checkedFrame f r) (nowNs s) (checkedBytes s n x f r) ts u)
      ∧ u.streams = s.streams ∧ u.mbx.heldNotices = s.mbx.heldNotices := by
  rcases e : checkedRecord s n x f r with ⟨bs, clean⟩
  have kept : bs = checkedBytes s n x f r := by rw [← checkedRecord_bytes, e]
  obtain ⟨u, base⟩ : ∃ u, u = if clean then s else logRecordMark n s := ⟨_, rfl⟩
  have log : LogFrame s u := by
    rw [base]
    split
    · exact .refl s
    · exact logErr_frame ..
  have at2 : islandFenced u 2 = false := by
    rw [log]
    exact serves
  have answers : exec (.recordEmit n) s = .next (if (r.takers.filter fun t => !t.udp).isEmpty || s.gate.d3hot then
        emitFrom n x (checkedFrame f r) (nowNs s) bs r.takers u
      else quinbuarAsks (2 + n) 2 (emitFrom n x (checkedFrame f r) (nowNs s) bs r.takers)
        (fun s' => emitFrom n x (checkedFrame f r) (nowNs s) bs (r.takers.filter (·.udp)) (dropForRings r.takers n s')) u) := by
    show execRecordEmit n s = _
    unfold execRecordEmit
    rw [hx]
    dsimp -zeta only
    rw [record, frame]
    dsimp -zeta only
    rw [e]
    rw [base]
    exact doneIf_pos (by rw [island, on, runs]; rfl) ..
  obtain ⟨l, asks⟩ := quinbuarAsks_open (request := 2 + n) (go := emitFrom n x (checkedFrame f r) (nowNs s) bs r.takers)
    (giveUp := fun s' => emitFrom n x (checkedFrame f r) (nowNs s) bs (r.takers.filter (·.udp)) (dropForRings r.takers n s')) at2
  rw [answers, asks, ← kept]
  split
  · exact ⟨_, u, rfl, (Upkeep.log (.refl s) log).streams, by rw [log]⟩
  · exact ⟨_, _, rfl, (Upkeep.log (.refl s) log).streams, by rw [log]; rfl⟩

end

/-! ### PIN_NOTICE (R44, R436) -/

section
variable {s t : State} {n : Nat}

/-- A pin whose stamps have gone out. -/
def noticed (p : Pin) : Pin := if p.stamps = [] then p else { p with stamps := [], firstHeld := none }

theorem noticeRecord_keeps (o : Option Nat) (pins : Nat) (es : List Event) (s : State) :
    (noticeRecord o pins es s).pins = s.pins ∧ (noticeRecord o pins es s).mbx.cmds = s.mbx.cmds := by
  unfold noticeRecord
  extract_lets h bs
  split
  · rw [(emitRecord_delivered ..).frame]
    exact ⟨rfl, rfl⟩
  · exact ⟨rfl, rfl⟩

theorem formHeld_keeps (s : State) : (formHeld s).pins = s.pins ∧ (formHeld s).mbx.cmds = s.mbx.cmds := by
  unfold formHeld
  generalize s.mbx.heldNotices = l
  suffices h : ∀ t : State, (l.foldl (fun s x => noticeRecord x.stream x.pins x.entries s) t).pins = t.pins
      ∧ (l.foldl (fun s x => noticeRecord x.stream x.pins x.entries s) t).mbx.cmds = t.mbx.cmds from h _
  induction l with
  | nil => exact fun t => ⟨rfl, rfl⟩
  | cons x l ih =>
    intro t
    obtain ⟨pins, cmds⟩ := noticeRecord_keeps x.stream x.pins x.entries t
    exact ⟨(ih _).1.trans pins, (ih _).2.trans cmds⟩

theorem pinNotice_keeps (n : Nat) (s : State) : (pinNotice n s).pins = upd s.pins n noticed ∧ (pinNotice n s).mbx.cmds = s.mbx.cmds := by
  unfold pinNotice
  split
  · next out => exact ⟨(List.modify_eq_self (List.getElem?_eq_none_iff.mp out)).symm, rfl⟩
  · next p there =>
    split
    · next empty => exact ⟨(upd_fixed there (show noticed p = p from if_pos (List.isEmpty_iff.mp empty))).symm, rfl⟩
    · next some =>
      obtain ⟨pins, cmds⟩ := noticeRecord_keeps none (2 ^ n) ((pinEntries n p).take 255)
        (updPin n (fun p => { p with stamps := [], firstHeld := none }) s)
      exact ⟨pins.trans (upd_congr there (if_neg fun e => some (List.isEmpty_iff.mpr e)).symm), cmds⟩

theorem upd_mapIdx {α : Type} {g : α → α} (k : Nat) (l : List α) :
    upd (l.mapIdx fun i p => if i < k then g p else p) k g = l.mapIdx fun i p => if i < k + 1 then g p else p := by
  refine List.ext_getElem? fun i => ?_
  rw [upd, List.getElem?_modify, List.getElem?_mapIdx, List.getElem?_mapIdx, Option.map_eq_map, Option.map_map]
  congr 1
  funext p
  by_cases e : k = i
  · simp [e]
  · have : i < k ↔ i < k + 1 := by omega
    simp [e, this]

theorem mapIdx_none {α : Type} (l : List α) : (l.mapIdx fun _ p => p) = l := List.ext_getElem? fun i => by
  rw [List.getElem?_mapIdx, Option.map_id']

theorem pinNotices_keep (k : Nat) (s : State) : ((List.range k).foldl (fun s n => pinNotice n s) s).pins = s.pins.mapIdx
    (fun i p => if i < k then noticed p else p) ∧ ((List.range k).foldl (fun s n => pinNotice n s) s).mbx.cmds = s.mbx.cmds := by
  induction k with
  | zero => exact ⟨(mapIdx_none s.pins).symm, rfl⟩
  | succ k ih =>
    rw [List.range_succ, List.foldl_append]
    obtain ⟨pins, cmds⟩ := pinNotice_keeps k ((List.range k).foldl (fun s n => pinNotice n s) s)
    refine ⟨pins.trans ?_, cmds.trans ih.2⟩
    exact (congrArg (upd · k noticed) ih.1).trans (upd_mapIdx k s.pins)

end

theorem mapIdx_within {α : Type} {g : α → α} {k : Nat} (l : List α) (all : l.length = k) :
    l.mapIdx (fun i p => if i < k then g p else p) = l.map g := by
  refine List.ext_getElem? fun i => ?_
  rw [List.getElem?_mapIdx, List.getElem?_map]
  cases h : l[i]? with
  | none => rfl
  | some p =>
    obtain ⟨lt, -⟩ := List.getElem?_eq_some_iff.mp h
    rw [Option.map_some, Option.map_some, if_pos (all ▸ lt)]

theorem exec_pinNotice {s : State} (sixteen : s.pins.length = 16) (island : islandFenced s 1 = false) (on : s.power.running = true)
    (runs : timeFrozen s = false) : ∃ t, exec .pinNotice s = .next t ∧ t.pins = s.pins.map noticed ∧ t.mbx.cmds = s.mbx.cmds := by
  obtain ⟨heldPins, heldCmds⟩ := formHeld_keeps s
  obtain ⟨pins, cmds⟩ := pinNotices_keep 16 (formHeld s)
  exact ⟨_, doneIf_pos (by rw [on, island, runs]; rfl) .., pins.trans ((congrArg _ heldPins).trans (mapIdx_within _ sixteen)),
    cmds.trans heldCmds⟩

/-- A record within the bound of R440 is formed. -/
theorem recordForm_fits {s : State} {n num : Nat} {x : Stream} {f : Frame} {marked again : Bool} (island : islandFenced s 1 = false)
    (on : s.power.running = true) (runs : timeFrozen s = false) (hx : s.streams[n]? = some (some x)) (next : formNext s n x = some f)
    (isNum : f.num = some num) (hot : f.reason = 0 → commitWaits s n num x = [])
    (fits : unackedBytes (formClean n num x f marked again s) ≤ 262144) :
    let g := if marked && again then markedFrame f else f
    ∃ t y, exec (.recordForm ⟨n, marked, again⟩) s = .next t ∧ stream? t n = some y ∧ (∃ r ∈ y.formed, r.frame = num)
      ∧ y.lastOutcome = some num ∧ y.nextEvents = [] ∧ (getFrame t n f.id).map (·.stage) = some .formed
      ∧ (g.reason ≠ 0 → y.counts = countSkip g.reason x.counts) ∧ (g.reason = 0 → y.committed = some (num, f.stamp))
      ∧ (marked = true → again = true → (getFrame t n f.id).map (fun h => (h.reason, h.status)) = some (reasonFault, 0x0611)) := by
  intro g
  have answers := exec_recordForm_forms (marked := marked) (again := again) hx next isNum hot
  rw [island, on, runs, decide_eq_true fits] at answers
  obtain ⟨w, z, ⟨y, hy, record, last, events, stage, counts, committed⟩, same, marks⟩ :=
    formClean_formedOn (num := num) (stream?_eq_some.mpr hx) (formNext_least next).1 marked again
  have id : g.id = f.id := by
    unfold g
    split <;> rfl
  have stamp : g.stamp = f.stamp := by
    unfold g
    split <;> rfl
  have yields : getFrame (formClean n num x f marked again s) n f.id = some (spent (unchained z)) := id ▸ stage
  refine ⟨_, y, answers, hy, record, last, events, ?_, ?_, ?_, fun m a => ?_⟩
  · exact congrArg (Option.map (·.stage)) yields
  · rw [← same]
    exact counts
  · rw [← stamp]
    exact committed
  · obtain ⟨reason, status⟩ := marks m a
    refine (congrArg (Option.map fun h => (h.reason, h.status)) yields).trans ?_
    show some (z.reason, z.status) = _
    rw [reason, status]

/-- The record of the next number leaves. -/
theorem recordEmit_leaves {s : State} {n : Nat} {x : Stream} {f : Frame} {r : FormedRecord} (hx : stream? s n = some x)
    (record : (x.formed.find? fun r => r.frame == x.nextEmit) = some r) (frame : frameByNum x x.nextEmit = some f)
    (stays : x.closing = false) (held : s.mbx.heldNotices = []) (island : islandFenced s 1 = false) (on : s.power.running = true)
    (runs : timeFrozen s = false) (serves : islandFenced s 2 = false) :
    ∃ t y, exec (.recordEmit n) s = .next t ∧ stream? t n = some y ∧ y.nextEmit = x.nextEmit + 1
      ∧ y.frames = x.frames.filter (fun g => g.id != f.id) ∧ y.formed = x.formed.filter (fun r => r.frame != x.nextEmit)
      ∧ y.counts = (if (checkedFrame f r).reason ≠ 0 then x.counts else if 0 < lateness x (checkedFrame f r) (nowNs s) then
          { x.counts with delayed := x.counts.delayed + 1 } else { x.counts with served := x.counts.served + 1 })
      ∧ t.journal.getLast? = some { stream := n, frame := x.nextEmit, recovered := false,
                                    bytes := emittedBytes x (checkedFrame f r) (nowNs s) (checkedBytes s n x f r) } := by
  obtain ⟨ts, u, answers, streams, none⟩ := exec_recordEmit (stream?_eq_some.mp hx) record frame island on runs serves
  obtain ⟨y, hy, side, last⟩ := emitFrom_effect (f := checkedFrame f r) (now := nowNs s) (bs := checkedBytes s n x f r) (ts := ts)
    ((stream?_of_streams streams).trans hx) stays (none.trans held)
  obtain ⟨frames, formed, counts, -, emit, -⟩ := recordSide_fields side
  have id : (checkedFrame f r).id = f.id := by
    rw [checkedFrame]
    split <;> rfl
  refine ⟨_, y, answers, hy, emit, ?_, formed, ?_, last⟩
  · rw [frames, ← id]
    rfl
  · rw [counts]
    simp only [emittedOn, decide_eq_true_eq]

/-- Settles O42: a commit, deliveries and the freeing of cells leave the record side of every stream, which the forming and the emission of a
record then change as stated. -/
theorem recordsLeaveInFrameOrder : Obligations.RecordsLeaveInFrameOrder := by
  unfold Obligations.RecordsLeaveInFrameOrder
  intro s island on runs
  refine ⟨fun n num x f hx next isNum => ⟨(formNext_least next).2, fun marked again => ⟨fun hot => ?_, fun served cold => ?_⟩⟩,
    fun n x hx => ⟨fun r f record frame stays held serves => ?_, fun none => ?_⟩,
    fun sixteen => exec_pinNotice sixteen island on runs⟩
  · have answers := exec_recordForm_forms (marked := marked) (again := again) hx next isNum hot
    rw [island, on, runs] at answers
    refine ⟨recordForm_fits island on runs hx next isNum hot, fun full => ?_⟩
    rw [answers, decide_eq_false (Nat.not_le_of_lt full)]
    rfl
  · obtain ⟨t, answers, same⟩ := exec_recordForm_waits (marked := marked) (again := again) hx next isNum served cold
    exact ⟨t, answers, (stream?_of_streams same).trans (stream?_eq_some.mpr hx)⟩
  · exact recordEmit_leaves (stream?_eq_some.mpr hx) record frame stays held island on runs serves
  · show execRecordEmit n s = _
    unfold execRecordEmit
    rw [hx]
    dsimp -zeta only
    rw [none]
    rfl

end Sys2Proof.Machine
end

section
/-! What the work of the boot steps leaves alone (R476 to R481), and the runs of steps with their outcomes (R480). -/

namespace Sys2Proof.Machine

/-! ### What the work of a step may touch -/

/-- The island is fenced for this boot (R481), where there is one of that number. -/
def FencedAt (i : Nat) (s : State) : Prop := ∀ x, s.islands[i]? = some x → x.bootFenced = true

/-- From `b` to `s` of power no more than service, VDD_CORE, the ledger's contents, its copies and the saved sections has changed, of the
ledger not the serial, the boots and the steps, and each fenced island has stayed so. -/
structure Works (b s : State) : Prop where
  power : s.power = { b.power with
    running := s.power.running, vdd := s.power.vdd, store := s.power.store
    copyA := s.power.copyA, copyB := s.power.copyB, mirror := s.power.mirror
    ledger := { s.power.ledger with
      serial := b.power.ledger.serial, boots := b.power.ledger.boots, steps := b.power.ledger.steps } }
  fenced : ∀ i, FencedAt i b → FencedAt i s

section
variable {b s t : State}

theorem Works.refl (s : State) : Works s s := ⟨rfl, fun _ h => h⟩

theorem Works.trans (h : Works b s) (k : Works s t) : Works b t where
  power := by rw [k.power, h.power]
  fenced i hi := k.fenced i (h.fenced i hi)

/-- A change of other parts of the state. -/
theorem Works.still (h : Works b s) (hp : t.power = s.power) (hi : t.islands = s.islands) : Works b t where
  power := by rw [hp]; exact h.power
  fenced i k x hx := h.fenced i k x (hi ▸ hx)

theorem Works.upkeep (h : Works b s) (k : Upkeep s t) : Works b t :=
  h.trans ⟨by rw [k], fun _ hi => by rw [FencedAt, k]; exact hi⟩

theorem Works.log (h : Works b s) (k : LogFrame s t) : Works b t := h.upkeep ((Upkeep.refl s).log k)

theorem logErr_works {st i u : Nat} {a : LogArgs} (h : Works b s) : Works b (logErr st i u s a) := h.log (logErr_frame ..)

theorem Works.ite {c : Prop} [Decidable c] {x y : State} (hx : Works b x) (hy : Works b y) : Works b (if c then x else y) := by
  split
  · exact hx
  · exact hy

theorem Works.foldl {α : Type} {f : State → α → State} {l : List α} (h : Works b s) (hf : ∀ s x, Works b s → Works b (f s x)) :
    Works b (l.foldl f s) := by
  induction l generalizing s with
  | nil => exact h
  | cons x l ih => exact ih (hf s x h)

/-- The ledger may change but for the serial, the boots and the steps. -/
theorem updLedger_works {f : Ledger → Ledger} (h : Works b s) (hs : ∀ l, f l = { f l with serial := l.serial, boots := l.boots, steps := l.steps }) :
    Works b (updLedger f s) :=
  h.trans ⟨by simp only [updLedger, updPower]; rw [hs], fun _ hi => hi⟩

theorem fencedAt_updIsland {i k : Nat} {f : Island → Island} (hf : ∀ x, x.bootFenced = true → (f x).bootFenced = true)
    (h : FencedAt i s) : FencedAt i (updIsland k f s) := by
  intro x hx
  have hx : (upd s.islands k f)[i]? = some x := hx
  rw [upd, List.getElem?_modify] at hx
  obtain ⟨y, hy, rfl⟩ := Option.map_eq_some_iff.1 hx
  split
  · exact hf y (h y hy)
  · exact h y hy

/-! ### S1 and S3: the PLL and the fences (R471, R476, R481) -/

theorem emitPin_works {o : Out} (h : Works b s) : Works b (emitPin o s) := h.upkeep ((Upkeep.refl s).mem (emitPin_memFrame ..))

theorem setTimStat_works {m : BitVec 32} (h : Works b s) : Works b (setTimStat m s) := by
  rw [setTimStat_frame]
  exact h.still rfl rfl

theorem enterState_works {k : TimeState} (h : Works b s) : Works b (enterState k s) := .ite h (setTimStat_works (h.still rfl rfl))

theorem lockPll_works (h : Works b s) : Works b (lockPll s) :=
  .ite h (.ite (h.still rfl rfl) (enterState_works (h.still rfl rfl)))

theorem bootS1_works (f : BootFacts) (alt : Bool) (s : State) : Works s (bootS1 f alt s) := by
  unfold bootS1
  extract_lets target ack t
  have ht : Works s t := emitPin_works ⟨rfl, fun _ h => h⟩
  exact lockPll_works (.ite ht (logErr_works ht))

theorem applyFence_power (i : Nat) (s : State) : (applyFence i s).power = s.power := by
  unfold applyFence
  extract_lets t u
  have hu : u.power = s.power := by
    unfold u
    split <;> rfl
  split
  · rw [logErr_frame]
    exact hu
  · exact hu

theorem applyFence_works (i : Nat) (s : State) : Works s (applyFence i s) := by
  have fenced : Works s (updIsland i (fun x => { x with bootFenced := true }) s) := ⟨rfl, fun _ h => fencedAt_updIsland (fun _ _ => rfl) h⟩
  have chans (k : Nat) (c : Prop) [Decidable c] (t : State) (h : Works s t) :
      Works s (if c then updChan k (fun c => { c with fenced := true }) t else t) := .ite (h.still rfl rfl) h
  exact .ite (logErr_works ((chans _ _ _ fenced).still rfl rfl)) (chans _ _ _ fenced)

theorem fencedAt_applyFence (i : Nat) (s : State) : FencedAt i (applyFence i s) := by
  unfold applyFence
  extract_lets t u
  have ht : FencedAt i t := by
    intro x hx
    have hx : (upd s.islands i _)[i]? = some x := hx
    rw [upd, List.getElem?_modify_eq] at hx
    obtain ⟨y, -, rfl⟩ := Option.map_eq_some_iff.1 hx
    rfl
  have hu : FencedAt i u := by
    unfold u
    split <;> exact ht
  split
  · rw [FencedAt, logErr_frame]
    exact hu
  · exact hu

theorem fenceUnit_works (i : Nat) (s : State) : Works s (fenceUnit i s) :=
  .ite (.refl s) (logErr_works (updLedger_works (applyFence_works i s) fun _ => rfl))

theorem fenceUnits_works {is : List Nat} (h : Works b s) : Works b (fenceUnits is s) :=
  h.foldl fun _ _ h => .ite (((h.trans (fenceUnit_works ..)).trans (fenceUnit_works ..)).trans (fenceUnit_works ..)) (h.trans (fenceUnit_works ..))

theorem bootS3_works (f : BootFacts) (alt : Bool) (s : State) : Works s (bootS3 f alt s) :=
  fenceUnits_works (updLedger_works ((Works.refl s).foldl fun s i h => h.trans (applyFence_works i s)) fun _ => rfl)

/-! ### S4 to S7: the link, what is measured, the Orangeries, the channels (R329, R393, R476) -/

theorem openGate_works (alt : Bool) (s : State) : Works s (openGate alt s) :=
  .ite ((Works.refl s).still rfl rfl) ((Works.refl s).still rfl rfl)

theorem bootS5_works (f : BootFacts) (alt : Bool) (s : State) : Works s (bootS5 f alt s) := by
  unfold bootS5
  extract_lets t
  have ht : Works s t := .ite (.refl s) (updLedger_works (.refl s) fun _ => rfl)
  refine ht.trans ⟨rfl, fun i hi x hx => ?_⟩
  simp only [List.getElem?_map, List.getElem?_zipIdx, Option.map_map, Option.map_eq_some_iff] at hx
  obtain ⟨y, hy, rfl⟩ := hx
  exact hi y hy

theorem bootS6_works (f : BootFacts) (alt : Bool) (s : State) : Works s (bootS6 f alt s) := by
  unfold bootS6
  extract_lets stuck t cols u v bad perg
  have ht : Works s t := fenceUnits_works (.refl s)
  have hu : Works s u := updLedger_works ht fun _ => rfl
  exact fenceUnits_works (fenceUnits_works (hu.still rfl rfl))

theorem channelReady_works {k p : Nat} {d : Option DramDelays} (h : Works b s) : Works b (channelReady k p d s) := by
  have ledger : Works b (updLedger (fun l => { l with
      dram := l.dram.set k p, dramTrained := tabPut k (takenWith s) l.dramTrained
      dramResults := match d with | some d => tabPut k d l.dramResults | none => l.dramResults }) s) := updLedger_works h fun _ => rfl
  exact ledger.still rfl rfl

theorem trainChannel_works {f : BootFacts} {alt : Bool} {k : Nat} (h : Works b s) : Works b (trainChannel f alt k s) := by
  unfold trainChannel
  extract_lets slow
  have slowly (s : State) (h : Works b s) : Works b (slow s) :=
    .ite (logErr_works (channelReady_works (h.still rfl rfl)))
      (fenceUnits_works (logErr_works (updLedger_works (h.still rfl rfl) fun _ => rfl)))
  exact .ite (slowly s h) (.ite (channelReady_works (h.still rfl rfl)) (slowly _ (h.still rfl rfl)))

theorem cleanChannel_works {k : Nat} (h : Works b s) : Works b (cleanChannel k s) := by
  refine Works.still (s := List.foldl ..) (h.foldl fun s x h => h.foldl fun s w h => .ite ?_ h) rfl rfl
  exact h.upkeep ((Upkeep.refl s).mem (evictLine_memFrame ..))

theorem bootChannel_works {f : BootFacts} {alt : Bool} {k : Nat} (h : Works b s) : Works b (bootChannel f alt k s) := by
  unfold bootChannel
  extract_lets t p u
  have ht : Works b t := cleanChannel_works h
  exact .ite ht (.ite (.ite (channelReady_works (ht.still rfl rfl)) (trainChannel_works (logErr_works (ht.still rfl rfl))))
    (trainChannel_works ht))

/-! ### S8 to S10: the maps, the pools, the links (R325, R337, R339, R443 to R446) -/

theorem clearPoisonMap_works {k : Nat} (h : Works b s) : Works b (clearPoisonMap k s) := (cleanChannel_works h).still rfl rfl

theorem bootS8_works (s : State) : Works s (bootS8 s) := by
  have cleared : Works s ((List.range 16).foldl (fun s k => clearPoisonMap k s) s) := (Works.refl s).foldl fun _ _ => clearPoisonMap_works
  unfold bootS8
  generalize (List.range 16).foldl (fun s k => clearPoisonMap k s) s = t at *
  exact cleared.still rfl rfl

theorem bootPool_works {q : Nat} (h : Works b s) : Works b (bootPool q s) := by
  unfold bootPool
  split
  · exact h
  · exact .ite h (.ite ((h.still rfl rfl).upkeep (refill_upkeep (.refl _))) (logErr_works h))

theorem bootS9_works (s : State) : Works s (bootS9 s) :=
  Works.foldl ((Works.refl s).still rfl rfl) fun _ _ => bootPool_works

theorem sendPeerState_upkeep {p : State} {u : Bool} (h : Upkeep p s) : Upkeep p (sendPeerState u s) := by
  unfold sendPeerState
  extract_lets -merge -underBinder +onlyGivenNames t u
  have ht : Upkeep p t := updTrellis_upkeep h
  have hu : Upkeep p u := ht.foldl fun s k h => by
    split
    · exact .ite (enqueueMessage_upkeep (updTrellis_upkeep h)) h
    · exact h
  refine hu.foldl fun s k h => ?_
  split
  · exact .ite h (sendMessage_upkeep h)
  · exact h

theorem routeMessage_upkeep {p : State} {d v : Nat} {bs : List Byte} (h : Upkeep p s) : Upkeep p (routeMessage d v bs s) := by
  unfold routeMessage
  split
  · exact .ite (enqueueMessage_upkeep h) (sendByRelay_upkeep h)
  · exact h

theorem resendMessage_upkeep {p : State} {m : SentMsg} (h : Upkeep p s) : Upkeep p (resendMessage m s) := by
  unfold resendMessage
  extract_lets src
  split
  · split
    · exact .ite (h.still (by exact rfl)) (sendMessage_upkeep (updTrellis_upkeep h))
    · exact h
  · split
    exact routeMessage_upkeep h

theorem resendMessages_upkeep {p : State} {k : Nat} (h : Upkeep p s) : Upkeep p (resendMessages k s) := by
  have unloaded : Upkeep p (unloadLink k s).2 := by
    unfold unloadLink
    split
    · exact h.still (by exact rfl)
    · exact h
  exact unloaded.foldl fun _ _ => resendMessage_upkeep

theorem endRelay_upkeep {p : State} {d : Nat} (h : Upkeep p s) : Upkeep p (endRelay d s) := .ite (logErr_upkeep (updTrellis_upkeep h)) h

theorem linkEnters_works {k w : Nat} (h : Works b s) : Works b (linkEnters k w s) := by
  unfold linkEnters
  split
  · exact h
  · extract_lets -merge -underBinder +onlyGivenNames t u v
    have ht : Works b t := (h.still rfl rfl).upkeep (sendPeerState_upkeep (.refl _))
    have hu : Works b u := .ite (ht.upkeep (resendMessages_upkeep (.refl _))) ht
    have hv : Works b v := by
      unfold v
      split
      · exact hu.upkeep (endRelay_upkeep (.refl _))
      · exact hu
    refine .ite ?_ hv
    have narrowed : Works b (updLedger (fun l => { l with linkWidths := l.linkWidths.set k w }) v) := updLedger_works hv fun _ => rfl
    exact logErr_works (.ite (narrowed.upkeep ((Upkeep.refl _).mem (saveLedger_memFrame _))) narrowed)

theorem bootLink_works {f : BootFacts} {k : Nat} (h : Works b s) : Works b (bootLink f k s) :=
  .ite h (.ite (linkEnters_works h) (logErr_works (logErr_works (h.still rfl rfl))))

theorem formMembership_works {f : BootFacts} (h : Works b s) : Works b (formMembership f s) :=
  .ite (logErr_works (h.still rfl rfl)) (h.still rfl rfl)

theorem bootS10_works (f : BootFacts) (alt : Bool) (s : State) : Works s (bootS10 f alt s) := by
  unfold bootS10
  extract_lets -merge -underBinder +onlyGivenNames t u
  have ht : Works s t := .ite (updLedger_works (.refl s) fun _ => rfl) (.refl s)
  have hu : Works s u := ht.foldl fun _ _ => bootLink_works
  exact ((formMembership_works hu).still rfl rfl).upkeep (sendPeerState_upkeep (.refl _))

/-! ### S11 and S12: the saved records and service (R441, R473, R476) -/

theorem bootS11_works (s : State) : Works s (bootS11 s) := by
  unfold bootS11
  extract_lets st saved t u
  have ht : Works s t := (Works.refl s).foldl fun _ _ h => .ite (h.still rfl rfl) h
  have hu : Works s u := by
    unfold u
    split
    · exact .ite (logErr_works ht) ht
    · exact ht
  have cleared : Works s (updPower (fun p => { p with store := { p.store with records := none, begun := false } }) u) :=
    hu.trans ⟨rfl, fun _ h => h⟩
  exact cleared.upkeep ((Upkeep.refl _).mem (saveLedger_memFrame _))

end

end Sys2Proof.Machine
end

section
/-! The steps of a boot as they run, stop and end, and what S3 and S12 leave (R42, R476, R480, R481). -/

namespace Sys2Proof.Machine

/-! ### What the steps of a boot may touch -/

/-- From `b` to `s` of power no more than the work and the records of steps has changed, and each fenced island has stayed so. -/
structure Boots (b s : State) : Prop where
  power : s.power = { b.power with
    running := s.power.running, vdd := s.power.vdd, store := s.power.store, bootStep := s.power.bootStep, version := s.power.version
    runSlot := s.power.runSlot, cut := s.power.cut, copyA := s.power.copyA, copyB := s.power.copyB, mirror := s.power.mirror
    ledger := { s.power.ledger with serial := b.power.ledger.serial, boots := b.power.ledger.boots } }
  steps : s.power.ledger.steps.length = b.power.ledger.steps.length
  fenced : ∀ i, FencedAt i b → FencedAt i s

/-- What the record of a step says of its outcome (R480). -/
def outcomeAt (i : Nat) (s : State) : Option Nat := (s.power.ledger.steps[i]?).map (·.outcome)

/-- The outcome with which a step ends that no reset cuts off (R480). -/
def verdict (f : BootFacts) (i : Nat) : Nat := if f.steps.getD i true then 2 else 3

section
variable {b s t : State} {f : BootFacts} {i j : Nat} {work : Bool → State → State}

theorem Boots.refl (s : State) : Boots s s := ⟨rfl, rfl, fun _ h => h⟩

theorem Boots.trans (h : Boots b s) (k : Boots s t) : Boots b t where
  power := by rw [k.power, h.power]
  steps := k.steps.trans h.steps
  fenced i hi := k.fenced i (h.fenced i hi)

theorem Works.boots (h : Works b s) : Boots b s where
  power := by rw [h.power]
  steps := by rw [h.power]
  fenced := h.fenced

theorem Works.cut (h : Works b s) : s.power.cut = b.power.cut := by rw [h.power]

theorem Works.outcome (h : Works b s) : outcomeAt i s = outcomeAt i b := by rw [outcomeAt, h.power, outcomeAt]

/-! ### A step starts and ends (R480) -/

/-- A state with a change of the record of a step, which goes to the copies, or to a copy and the mirror, next. -/
def recordStep (i : Nat) (r : StepRecord → StepRecord) (s : State) : State := updLedger (fun l => { l with steps := upd l.steps i r }) s

theorem recordStep_boots (i : Nat) (r : StepRecord → StepRecord) (s : State) : Boots s (recordStep i r s) :=
  ⟨rfl, length_upd .., fun _ h => h⟩

theorem outcomeAt_recordStep_self {r : StepRecord → StepRecord} {n : Nat} (h : i < s.power.ledger.steps.length) (hr : ∀ x, (r x).outcome = n) :
    outcomeAt i (recordStep i r s) = some n := by
  exact (congrArg (Option.map _) (getElem?_upd_self (List.getElem?_eq_getElem h))).trans (congrArg some (hr _))

theorem outcomeAt_recordStep_other {r : StepRecord → StepRecord} (ne : i ≠ j) :
    outcomeAt j (recordStep i r s) = outcomeAt j s := congrArg (Option.map _) (getElem?_upd_other ne)

theorem writeCopy_upkeep (s : State) : Upkeep s (updPower writeCopy s) := by
  unfold Upkeep
  simp only [updPower]
  rw [writeCopy_frame]

theorem openStep_upkeep (i : Nat) (s : State) :
    Upkeep (recordStep i (fun r => { r with outcome := 1, boot := s.power.ledger.boots }) s) (openStep i s) := writeCopy_upkeep _

/-- A step that has ended is its record's change, its number in PWR_BOOTSTEP, and what keeping the ledger and logging may touch. -/
theorem closeStep_upkeep (i : Nat) (alt ok : Bool) (status : Nat) (s : State) : ∃ r : StepRecord, r.outcome = (if ok then 2 else 3)
    ∧ Upkeep (updPower (fun p => { p with bootStep := i }) (recordStep i (fun _ => r) s)) (closeStep i alt ok status s) := by
  unfold closeStep
  extract_lets old runs r t u v
  refine ⟨r, rfl, ?_⟩
  have ht : t = recordStep i (fun _ => r) s := by
    simp only [t, recordStep, updLedger, upd, List.set_eq_modify]
  have hu : Upkeep t u := .ite ((Upkeep.refl t).mem (saveLedger_memFrame t)) (writeCopy_upkeep t)
  have hv : Upkeep (updPower (fun p => { p with bootStep := i }) t) v := by
    unfold v
    rw [hu]
    exact rfl
  rw [← ht]
  exact .ite (logErr_upkeep hv) hv

theorem openStep_works (i : Nat) (s : State) :
    Works (recordStep i (fun r => { r with outcome := 1, boot := s.power.ledger.boots }) s) (openStep i s) :=
  (Works.refl _).upkeep (openStep_upkeep i s)

theorem openStep_boots (i : Nat) (s : State) : Boots s (openStep i s) := (recordStep_boots ..).trans (openStep_works i s).boots

theorem bootStep_boots (i : Nat) (s : State) : Boots s (updPower (fun p => { p with bootStep := i }) s) := ⟨rfl, rfl, fun _ h => h⟩

theorem closeStep_boots (i : Nat) (alt ok : Bool) (status : Nat) (s : State) : Boots s (closeStep i alt ok status s) := by
  obtain ⟨r, -, h⟩ := closeStep_upkeep i alt ok status s
  exact (recordStep_boots ..).trans ((bootStep_boots ..).trans ((Works.refl _).upkeep h).boots)

/-- What the opening and the closing of a step leave as it was. -/
structure StepKeeps (s t : State) : Prop where
  running : t.power.running = s.power.running
  cut : t.power.cut = s.power.cut
  store : t.power.store = s.power.store
  pins : t.pins = s.pins
  regs : t.gate.regs = s.gate.regs

theorem closeStep_keeps (i : Nat) (alt ok : Bool) (status : Nat) (s : State) : StepKeeps s (closeStep i alt ok status s) := by
  obtain ⟨r, -, h⟩ := closeStep_upkeep i alt ok status s
  rw [h]
  exact ⟨rfl, rfl, rfl, rfl, rfl⟩

theorem closeStep_bootStep (i : Nat) (alt ok : Bool) (status : Nat) (s : State) : (closeStep i alt ok status s).power.bootStep = i := by
  obtain ⟨r, -, h⟩ := closeStep_upkeep i alt ok status s
  rw [h]
  rfl

theorem openStep_keeps (i : Nat) (s : State) : StepKeeps s (openStep i s) := by
  rw [openStep_upkeep i s]
  exact ⟨rfl, rfl, rfl, rfl, rfl⟩

theorem outcomeAt_openStep (h : i < s.power.ledger.steps.length) : outcomeAt i (openStep i s) = some 1 :=
  (openStep_works i s).outcome.trans (outcomeAt_recordStep_self h fun _ => rfl)

theorem outcomeAt_openStep_other (ne : i ≠ j) : outcomeAt j (openStep i s) = outcomeAt j s :=
  (openStep_works i s).outcome.trans (outcomeAt_recordStep_other ne)

theorem outcomeAt_closeStep {alt ok : Bool} {status : Nat} (h : i < s.power.ledger.steps.length) :
    outcomeAt i (closeStep i alt ok status s) = some (if ok then 2 else 3) := by
  obtain ⟨r, hr, k⟩ := closeStep_upkeep i alt ok status s
  exact ((Works.refl _).upkeep k).outcome.trans (outcomeAt_recordStep_self h fun _ => hr)

theorem outcomeAt_closeStep_other {alt ok : Bool} {status : Nat} (ne : i ≠ j) :
    outcomeAt j (closeStep i alt ok status s) = outcomeAt j s := by
  obtain ⟨r, -, k⟩ := closeStep_upkeep i alt ok status s
  exact ((Works.refl _).upkeep k).outcome.trans (outcomeAt_recordStep_other ne)

/-! ### A step of a boot that was cut off, that is cut off in it, and that ends (R480) -/

theorem runStep_cut (h : s.power.cut = true) : runStep i f work s = s := by rw [runStep, if_pos h]

theorem runStep_stops (h : s.power.cut = false) (e : f.cutAt = some i) :
    runStep i f work s = updPower (fun p => { p with cut := true }) (openStep i s) := by
  rw [runStep, if_neg (ne_true_of_eq_false h)]
  exact if_pos e

theorem runStep_ends (h : s.power.cut = false) (e : f.cutAt ≠ some i) : runStep i f work s
    = closeStep i (alternate s i) (f.steps.getD i true) 0 (work (alternate s i) (openStep i s)) := by
  rw [runStep, if_neg (ne_true_of_eq_false h)]
  exact if_neg e

theorem runStep_boots (hw : ∀ alt s, Works s (work alt s)) (s : State) : Boots s (runStep i f work s) := by
  by_cases c : s.power.cut = true
  · rw [runStep_cut c]
    exact .refl s
  have c := eq_false_of_ne_true c
  by_cases e : f.cutAt = some i
  · rw [runStep_stops c e]
    exact (openStep_boots i s).trans ⟨rfl, rfl, fun _ h => h⟩
  · rw [runStep_ends c e]
    exact (openStep_boots i s).trans ((hw _ _).boots.trans (closeStep_boots ..))

theorem runStep_whole (hw : ∀ alt s, Works s (work alt s)) (h : s.power.cut = false) (e : f.cutAt ≠ some i) :
    (runStep i f work s).power.cut = false ∧ (i < s.power.ledger.steps.length → outcomeAt i (runStep i f work s) = some (verdict f i))
      ∧ ∀ j, i ≠ j → outcomeAt j (runStep i f work s) = outcomeAt j s := by
  rw [runStep_ends h e]
  have worked := hw (alternate s i) (openStep i s)
  refine ⟨?_, fun lt => outcomeAt_closeStep ?_, fun j ne => ?_⟩
  · rw [(closeStep_keeps ..).cut, worked.cut, (openStep_keeps ..).cut, h]
  · rwa [worked.boots.steps, (openStep_boots ..).steps]
  · rw [outcomeAt_closeStep_other ne, worked.outcome, outcomeAt_openStep_other ne]

/-! ### A row of steps -/

/-- Steps of a boot, each with its number and its work, one after another (R476). -/
def runSteps (f : BootFacts) (l : List (Nat × (Bool → State → State))) (s : State) : State :=
  l.foldl (fun s x => runStep x.1 f x.2 s) s

variable {l : List (Nat × (Bool → State → State))}

theorem runSteps_boots (hl : ∀ x ∈ l, ∀ alt s, Works s (x.2 alt s)) (s : State) : Boots s (runSteps f l s) := by
  induction l generalizing s with
  | nil => exact .refl s
  | cons x l ih => exact (runStep_boots (hl x List.mem_cons_self) s).trans (ih (fun y hy => hl y (List.mem_cons_of_mem _ hy)) _)

theorem runSteps_cut (h : s.power.cut = true) : runSteps f l s = s := by
  induction l with
  | nil => rfl
  | cons x l ih => exact (congrArg (runSteps f l) (runStep_cut h)).trans ih

/-- The row is cut off in one of its steps, which reads 1 from then on. -/
theorem runSteps_stops (hl : ∀ x ∈ l, ∀ alt s, Works s (x.2 alt s)) (h : s.power.cut = false) (e : f.cutAt = some i)
    (hi : i ∈ l.map (·.1)) : (runSteps f l s).power.cut = true
      ∧ (i < s.power.ledger.steps.length → outcomeAt i (runSteps f l s) = some 1) := by
  induction l generalizing s with
  | nil => cases hi
  | cons x l ih =>
    obtain ⟨j, work⟩ := x
    show (runSteps f l (runStep j f work s)).power.cut = true ∧ (_ → outcomeAt i (runSteps f l (runStep j f work s)) = _)
    by_cases ij : i = j
    · subst ij
      rw [runStep_stops h e, runSteps_cut rfl]
      exact ⟨rfl, outcomeAt_openStep⟩
    · have runs := hl _ List.mem_cons_self
      obtain ⟨cut, -⟩ := runStep_whole runs h (i := j) (f := f) (by rw [e]; simpa using ij)
      have rest := ih (fun y hy => hl y (List.mem_cons_of_mem _ hy)) cut ((List.mem_cons.1 hi).resolve_left ij)
      rwa [(runStep_boots runs s).steps] at rest

/-- The row is not cut off: each of its steps ends with its outcome, which the later ones leave. -/
theorem runSteps_whole (hl : ∀ x ∈ l, ∀ alt s, Works s (x.2 alt s)) (h : s.power.cut = false) (e : ∀ x ∈ l, f.cutAt ≠ some x.1) :
    (runSteps f l s).power.cut = false ∧ ∀ i, i < s.power.ledger.steps.length →
      outcomeAt i s = some (verdict f i) ∨ i ∈ l.map (·.1) → outcomeAt i (runSteps f l s) = some (verdict f i) := by
  induction l generalizing s with
  | nil => exact ⟨h, fun i _ k => k.resolve_right (by simp)⟩
  | cons x l ih =>
    obtain ⟨j, work⟩ := x
    have runs := hl _ List.mem_cons_self
    obtain ⟨cut, self, other⟩ := runStep_whole runs h (e _ List.mem_cons_self)
    obtain ⟨cut, rest⟩ := ih (fun y hy => hl y (List.mem_cons_of_mem _ hy)) cut fun y hy => e y (List.mem_cons_of_mem _ hy)
    refine ⟨cut, fun i lt k => rest i ?_ ?_⟩
    · rwa [(runStep_boots runs s).steps]
    · by_cases ij : j = i
      · subst ij
        exact .inl (self lt)
      · exact k.imp (other i ij).trans fun k => (List.mem_cons.1 k).resolve_left (Ne.symm ij)

end

end Sys2Proof.Machine
end

section
/-! S3 fences, S12 disables the cue pins and starts service, and S3 to S12 as rows of steps (R42, R476, R481). -/

namespace Sys2Proof.Machine

section
variable {b s t : State} {f : BootFacts} {i : Nat}

/-! ### The fences of S3 (R481) -/

/-- A run over units that keeps `P`, unfences none and fences each unit in its turn leaves all of them fenced. -/
theorem fencedAt_foldl {P : State → Prop} {g : State → Nat → State} {is : List Nat} (keeps : ∀ s k, P s → P (g s k))
    (stays : ∀ s k, Works s (g s k)) (fences : ∀ s k, P s → FencedAt k (g s k)) (h : P s) (hi : i ∈ is) : FencedAt i (is.foldl g s) := by
  induction is generalizing s with
  | nil => cases hi
  | cons k is ih =>
    obtain rfl | hi := List.mem_cons.1 hi
    · exact ((Works.refl (g s i)).foldl fun s k h => h.trans (stays s k)).fenced i (fences s i h)
    · exact ih (keeps s k h) hi

/-- Every unit that the ledger fences is fenced. -/
def LedgerFences (s : State) : Prop := ∀ i ∈ s.power.ledger.fencedIslands, FencedAt i s

theorem mem_setAdd {i k : Nat} {l : List Nat} (h : i ∈ setAdd k l) : i = k ∨ i ∈ l := by
  induction l with
  | nil => exact .inl (by simpa [setAdd] using h)
  | cons a l ih =>
    rw [setAdd] at h
    split at h
    · exact .inr h
    · split at h
      · exact List.mem_cons.1 h
      · obtain rfl | h := List.mem_cons.1 h
        · exact .inr List.mem_cons_self
        · exact (ih h).imp id (List.mem_cons_of_mem a)

/-- A unit that S3 has just fenced is fenced, and so is what the ledger fences, this unit with it. -/
theorem fenceUnit_fences (h : LedgerFences s) (k : Nat) : FencedAt k (fenceUnit k s) ∧ LedgerFences (fenceUnit k s) := by
  unfold fenceUnit
  split
  · next known => exact ⟨h k (List.contains_iff_mem.1 known), h⟩
  · rw [logErr_frame]
    have now := fencedAt_applyFence k s
    refine ⟨now, fun i hi => ?_⟩
    have hi : i ∈ setAdd k (applyFence k s).power.ledger.fencedIslands := hi
    rw [applyFence_power] at hi
    obtain rfl | hi := mem_setAdd hi
    · exact now
    · exact (applyFence_works k s).fenced i (h i hi)

/-- The units of a row, each with the Orangeries that drain through it (R94), are fenced. -/
theorem fencedAt_fenceUnits {is : List Nat} (h : LedgerFences s) (hi : i ∈ is) : FencedAt i (fenceUnits is s) := by
  refine fencedAt_foldl (P := LedgerFences) (fun s k h => ?_) (fun s k => fenceUnits_works (is := [k]) (.refl s)) (fun s k h => ?_) h hi
  all_goals
    dsimp only
    have one := fenceUnit_fences h k
    split
  · exact (fenceUnit_fences (fenceUnit_fences one.2 _).2 _).2
  · exact one.2
  · exact (fenceUnit_works _ _).fenced k ((fenceUnit_works _ _).fenced k one.1)
  · exact one.1

/-- S3 leaves each island that its test fails fenced. -/
theorem fencedAt_bootS3 (alt : Bool) (hi : i ∈ f.failedIslands) (lo : 1 ≤ i) (hi60 : i ≤ 60) : FencedAt i (bootS3 f alt s) := by
  refine fencedAt_fenceUnits (fun k hk => ?_) (List.mem_filter.2 ⟨List.mem_append_right _ hi, decide_eq_true ⟨lo, hi60⟩⟩)
  have same : (s.power.ledger.fencedIslands.foldl (fun s i => applyFence i s) s).power = s.power :=
    List.foldlRecOn (motive := fun t => t.power = s.power) _ _ rfl fun t h i _ => (applyFence_power i t).trans h
  have hk : k ∈ (s.power.ledger.fencedIslands.foldl (fun s i => applyFence i s) s).power.ledger.fencedIslands := hk
  rw [same] at hk
  exact fencedAt_foldl (P := fun _ => True) (fun _ _ _ => trivial) (fun s k => applyFence_works k s)
    (fun s k _ => fencedAt_applyFence k s) trivial hk

/-! ### The cue pins are disabled (R42) -/

theorem setPinMode_frame (n : Nat) (m : PinMode) (par : PinParams) (s : State) : setPinMode n m par s = { s with
    pins := (setPinMode n m par s).pins, out := (setPinMode n m par s).out, score := (setPinMode n m par s).score } := by
  have drive (g : Pin → Pin) : drivePin n g s = { s with pins := (drivePin n g s).pins, out := (drivePin n g s).out } := by
    unfold drivePin
    split
    · rfl
    · dsimp only
      split <;> rfl
  unfold setPinMode
  rw [drive]
  split <;> rfl

theorem setPinMode_other {n k : Nat} (ne : n ≠ k) (m : PinMode) (par : PinParams) : (setPinMode n m par s).pins[k]? = s.pins[k]? := by
  have drive (g : Pin → Pin) : (drivePin n g s).pins[k]? = s.pins[k]? := by
    unfold drivePin
    split
    · rfl
    · dsimp only
      split <;> exact getElem?_upd_other ne
  unfold setPinMode
  split <;> exact drive _

/-- One pin enters DISABLED, where there is one of that number. -/
def disablePin (n : Nat) (s : State) : State := match s.pins[n]? with | some p => setPinMode n .disabled p.par s | none => s

theorem disablePins_eq (s : State) : disablePins s = (List.range 16).foldl (fun s n => disablePin n s) s := rfl

/-- The pin of a number, where there is one, is DISABLED. -/
def DisabledAt (n : Nat) (s : State) : Prop := ∀ x, s.pins[n]? = some x → x.mode = .disabled

theorem disablePin_frame (n : Nat) (s : State) : disablePin n s = { s with
    pins := (disablePin n s).pins, out := (disablePin n s).out, score := (disablePin n s).score } := by
  unfold disablePin
  split
  · exact setPinMode_frame ..
  · rfl

theorem disabledAt_disablePin (n : Nat) (s : State) : DisabledAt n (disablePin n s) := by
  intro x hx
  unfold disablePin at hx
  split at hx
  · next p hp =>
    have set := setPinMode_pin hp .disabled p.par
    rw [hx] at set
    exact congrArg Prod.fst (Option.some.inj set)
  · next none => rw [none] at hx; cases hx

theorem DisabledAt.disablePin {n k : Nat} (h : DisabledAt n s) : DisabledAt n (disablePin k s) := by
  by_cases ne : k = n
  · exact ne ▸ disabledAt_disablePin k s
  · intro x hx
    unfold Machine.disablePin at hx
    split at hx
    · exact h x (setPinMode_other ne .. ▸ hx)
    · exact h x hx

theorem disablePins_frame (s : State) : disablePins s = { s with
    pins := (disablePins s).pins, out := (disablePins s).out, score := (disablePins s).score } := by
  rw [disablePins_eq]
  induction List.range 16 generalizing s with
  | nil => rfl
  | cons n l ih =>
    rw [List.foldl_cons, ih, disablePin_frame]

theorem disabledAt_foldl {n : Nat} {l : List Nat} (h : n ∈ l) (s : State) : DisabledAt n (l.foldl (fun s n => disablePin n s) s) := by
  induction l generalizing s with
  | nil => cases h
  | cons k l ih =>
    obtain rfl | h := List.mem_cons.1 h
    · exact List.foldlRecOn (motive := DisabledAt n) l _ (disabledAt_disablePin n s) fun _ h _ _ => h.disablePin
    · exact ih h _

theorem disabledAt_disablePins {n : Nat} (h : n < 16) (s : State) : DisabledAt n (disablePins s) :=
  disablePins_eq s ▸ disabledAt_foldl (List.mem_range.2 h) s

theorem disablePins_power (s : State) : (disablePins s).power = s.power := by rw [disablePins_frame]

theorem disablePins_islands (s : State) : (disablePins s).islands = s.islands := by rw [disablePins_frame]

/-! ### Service (R476) -/

/-- What S12 does once the cue pins are disabled. -/
def startService (s : State) : State :=
  let t := updBand (fun b => { b with ppsOut := false, ppsNext := secondAfter (nowNs s) }) (orReg 0x100050 0x100 s)
  updPower (fun p => { p with running := true }) { t with islands := t.islands.map fun x =>
    if x.bootFenced then x else { x with ready := false, agree := 0, missed := 0, gated := false, waking := false, skips := false } }

theorem bootS12_eq (s : State) : bootS12 s = startService (disablePins s) := by
  unfold bootS12 startService
  generalize disablePins s = t
  rfl

theorem startService_works (s : State) : Works s (startService s) := by
  refine ⟨rfl, fun i hi x hx => ?_⟩
  have hx : (s.islands.map _)[i]? = some x := hx
  rw [List.getElem?_map, Option.map_eq_some_iff] at hx
  obtain ⟨y, hy, rfl⟩ := hx
  rw [if_pos (hi y hy)]
  exact hi y hy

theorem bootS12_works (s : State) : Works s (bootS12 s) := by
  rw [bootS12_eq]
  exact ((Works.refl s).still (disablePins_power s) (disablePins_islands s)).trans (startService_works _)

theorem bootS12_running (s : State) : (bootS12 s).power.running = true := by
  rw [bootS12_eq]
  generalize disablePins s = t
  rfl

theorem bootS12_store (s : State) : (bootS12 s).power.store = s.power.store := by
  rw [bootS12_eq, ← disablePins_power s]
  generalize disablePins s = t
  rfl

theorem bootS12_ready (s : State) : (reg (bootS12 s) 0x100050).getLsbD 8 = true := by
  rw [bootS12_eq]
  generalize disablePins s = t
  exact reg_orReg_bit (by decide) t

theorem disabledAt_bootS12 {n : Nat} (h : n < 16) (s : State) : DisabledAt n (bootS12 s) := by
  have disabled := disabledAt_disablePins h s
  rw [bootS12_eq]
  generalize disablePins s = t at disabled
  exact disabled

/-! ### S3 to S12 -/

/-- The steps between S3 and S11. -/
def linkSteps (f : BootFacts) : List (Nat × (Bool → State → State)) :=
  [(4, openGate), (5, bootS5 f), (6, bootS6 f), (7, fun alt s => (List.range 16).foldl (fun s k => bootChannel f alt k s) s),
   (8, fun _ => bootS8), (9, fun _ => bootS9), (10, bootS10 f)]

def lodgeSteps (f : BootFacts) : List (Nat × (Bool → State → State)) :=
  (3, bootS3 f) :: (linkSteps f ++ [(11, fun _ => bootS11), (12, fun _ => bootS12)])

theorem bootLodge_eq (f : BootFacts) (s : State) : bootLodge f s = runSteps f (lodgeSteps f) s := by
  simp only [bootLodge, runSteps, lodgeSteps, linkSteps, List.cons_append, List.nil_append, List.foldl_cons, List.foldl_nil]

theorem linkSteps_works : ∀ x ∈ linkSteps f, ∀ alt s, Works s (x.2 alt s) := by
  simp only [linkSteps, List.forall_mem_cons]
  exact ⟨openGate_works, bootS5_works f, bootS6_works f, fun _ s => (Works.refl s).foldl fun _ _ => bootChannel_works, fun _ => bootS8_works,
    fun _ => bootS9_works, bootS10_works f, nofun⟩

theorem lodgeSteps_works : ∀ x ∈ lodgeSteps f, ∀ alt s, Works s (x.2 alt s) := by
  simp only [lodgeSteps, List.forall_mem_cons, List.forall_mem_append]
  exact ⟨bootS3_works f, linkSteps_works, fun _ => bootS11_works, fun _ => bootS12_works, nofun⟩

theorem mem_lodgeSteps : i ∈ (lodgeSteps f).map (·.1) ↔ 3 ≤ i ∧ i ≤ 12 := by
  simp [lodgeSteps, linkSteps]
  omega

/-- What service finds at the end of a boot that ran whole (R42, R476, R478, R481). -/
structure Serves (f : BootFacts) (t : State) : Prop where
  running : t.power.running = true
  bootStep : t.power.bootStep = 12
  ready : (reg t 0x100050).getLsbD 8 = true
  records : t.power.store.records = none
  mirror : t.power.mirror = some (copyOf t.power.ledger)
  pins : ∀ n, n < 16 → DisabledAt n t
  islands : ∀ i ∈ f.failedIslands, 1 ≤ i → i ≤ 60 → FencedAt i t

theorem emitPin_power (o : Out) (s : State) : (emitPin o s).power = s.power := by
  unfold emitPin
  split <;> rfl

theorem pinsTaken_eq_false (tap : s.power.tap ≠ .extest) : pinsTaken s = false := by
  unfold pinsTaken
  simpa using tap

theorem saveLedger_mirror (tap : s.power.tap ≠ .extest) : (saveLedger s).power.mirror = some (copyOf (saveLedger s).power.ledger) := by
  unfold saveLedger flashWrite
  rw [emitPin_power, pinsTaken_eq_false tap]
  rfl

/-- From S11 on a step's end is in the mirror (R478). -/
theorem closeStep_mirror {alt ok : Bool} {status : Nat} (h : 11 ≤ i) (tap : s.power.tap ≠ .extest) :
    (closeStep i alt ok status s).power.mirror = some (copyOf (closeStep i alt ok status s).power.ledger) := by
  unfold closeStep
  extract_lets old runs r t u v
  have hu : u.power.mirror = some (copyOf u.power.ledger) := by
    unfold u
    rw [if_pos h]
    exact saveLedger_mirror (s := t) tap
  have hv : v.power.mirror = some (copyOf v.power.ledger) := hu
  split
  · rw [logErr_frame]
    exact hv
  · exact hv

theorem bootS11_records (s : State) : (bootS11 s).power.store.records = none := by
  unfold bootS11
  rw [saveLedger_memFrame]
  rfl

theorem bootLodge_serves (cut : s.power.cut = false) (e : f.cutAt = none) (tap : s.power.tap ≠ .extest) : Serves f (bootLodge f s) := by
  have whole (i : Nat) : f.cutAt ≠ some i := by rw [e]; exact nofun
  have s12 (alt : Bool) (s : State) : Works s (bootS12 s) := bootS12_works s
  have s11 (alt : Bool) (s : State) : Works s (bootS11 s) := bootS11_works s
  obtain ⟨t, ht⟩ : ∃ t, t = runStep 3 f (bootS3 f) s := ⟨_, rfl⟩
  obtain ⟨u, hu⟩ : ∃ u, u = runSteps f (linkSteps f) t := ⟨_, rfl⟩
  obtain ⟨v, hv⟩ : ∃ v, v = runStep 11 f (fun _ => bootS11) u := ⟨_, rfl⟩
  have lodge : bootLodge f s = runStep 12 f (fun _ => bootS12) v := by
    rw [hv, hu, ht]
    simp only [bootLodge, runSteps, linkSteps, List.foldl_cons, List.foldl_nil]
  have cutT : t.power.cut = false := by rw [ht]; exact (runStep_whole (bootS3_works f) cut (whole 3)).1
  have cutU : u.power.cut = false := by rw [hu]; exact (runSteps_whole linkSteps_works cutT fun x _ => whole x.1).1
  have cutV : v.power.cut = false := by rw [hv]; exact (runStep_whole s11 cutU (whole 11)).1
  have records : v.power.store.records = none := by
    rw [hv, runStep_ends cutU (whole 11), (closeStep_keeps ..).store]
    exact bootS11_records _
  have kept : Boots t v := by
    rw [hv, hu]
    exact (runSteps_boots linkSteps_works t).trans (runStep_boots s11 _)
  have opened : Boots s (bootS12 (openStep 12 v)) := by
    refine .trans ?_ (kept.trans ((openStep_boots 12 v).trans (bootS12_works _).boots))
    rw [ht]
    exact runStep_boots (bootS3_works f) s
  have last := closeStep_keeps 12 (alternate v 12) (f.steps.getD 12 true) 0 (bootS12 (openStep 12 v))
  have tap12 : (bootS12 (openStep 12 v)).power.tap ≠ .extest := by rwa [opened.power]
  rw [lodge, runStep_ends cutV (whole 12)]
  refine ⟨last.running.trans (bootS12_running _), closeStep_bootStep .., ?_, ?_, closeStep_mirror (by decide) tap12, fun n h x hx => ?_, fun i hi lo hi60 => ?_⟩
  · rw [reg, last.regs]
    exact bootS12_ready _
  · rw [last.store, bootS12_store, (openStep_keeps 12 v).store, records]
  · exact disabledAt_bootS12 h _ x (last.pins ▸ hx)
  · refine (closeStep_boots ..).fenced i ((bootS12_works _).fenced i ((openStep_boots 12 v).fenced i (kept.fenced i ?_)))
    rw [ht, runStep_ends cut (whole 3)]
    exact (closeStep_boots ..).fenced i (fencedAt_bootS3 _ hi lo hi60)

end

end Sys2Proof.Machine
end

section
/-! A boot from the ledger of S0 to its end: in service, in recovery mode, stopped or cut off (R476 to R485, R511). -/

namespace Sys2Proof.Machine

section
variable {b s t : State} {f : BootFacts} {i : Nat}

/-! ### S1 and S2 (R471, R484) -/

/-- The fuses, the flash and the test port decide of a slot, and no step changes them. -/
theorem Boots.slotGood (h : Boots b s) (i : Nat) : slotGood s f i = slotGood b f i := by
  unfold Machine.slotGood imageValid pinsTaken
  rw [h.power]

theorem lockPll_power (s : State) : (lockPll s).power = s.power := by
  have enter (k : TimeState) (t : State) : (enterState k t).power = t.power := by
    unfold enterState
    split
    · rfl
    · rw [setTimStat_frame]
      rfl
  unfold lockPll
  split
  · rfl
  · extract_lets t
    split
    · rfl
    · exact enter _ t

theorem bootS1_running (f : BootFacts) (alt : Bool) (s : State) : (bootS1 f alt s).power.running = s.power.running := by
  unfold bootS1
  extract_lets target ack t
  have ht : t.power.running = s.power.running := by
    unfold t
    rw [emitPin_power]
    rfl
  rw [lockPll_power]
  split
  · exact ht
  · rw [logErr_frame]
    exact ht

theorem firstSlot_cases (n : Nat) (alt : Bool) : (if alt then 1 - n % 2 else n % 2) = 0 ∨ (if alt then 1 - n % 2 else n % 2) = 1 := by
  split <;> omega

theorem pickSlot_none {alt : Bool} (h0 : slotGood s f 0 = false) (h1 : slotGood s f 1 = false) : pickSlot s f alt = none := by
  unfold pickSlot
  extract_lets active first
  obtain e | e : first = 0 ∨ first = 1 := firstSlot_cases ..
  all_goals
    rw [e]
    simp [h0, h1]

theorem pickSlot_some {alt : Bool} (h : slotGood s f 0 = true ∨ slotGood s f 1 = true) : ∃ i, pickSlot s f alt = some i := by
  unfold pickSlot
  extract_lets active first
  obtain e | e : first = 0 ∨ first = 1 := firstSlot_cases ..
  all_goals
    rw [e]
    cases h0 : slotGood s f 0 <;> cases h1 : slotGood s f 1 <;> simp [h0, h1] at h ⊢

theorem logSlots_frame (f : BootFacts) (alt : Bool) (s : State) : LogFrame s (logSlots f alt s) := by
  unfold logSlots
  extract_lets active first t
  have ht : LogFrame s t := logErr_frame ..
  split
  · exact .refl s
  · split
    · exact ht
    · exact ht.trans (logErr_frame ..)

/-! ### What every boot keeps -/

/-- What a boot does not change after S0. -/
structure BootCore (b t : State) : Prop where
  lbdone : t.power.lbdone = b.power.lbdone
  maingood : t.power.maingood = b.power.maingood
  serial : t.power.ledger.serial = b.power.ledger.serial
  boots : t.power.ledger.boots = b.power.ledger.boots

theorem BootCore.trans (h : BootCore b s) (k : BootCore s t) : BootCore b t :=
  ⟨k.lbdone.trans h.lbdone, k.maingood.trans h.maingood, k.serial.trans h.serial, k.boots.trans h.boots⟩

theorem Boots.core (h : Boots b s) : BootCore b s := by
  constructor <;> rw [h.power]

/-- The steps that a stopped boot skips (R485). -/
def skipped (l : Ledger) : Ledger :=
  { l with steps := l.steps.zipIdx.map fun r => if 3 ≤ r.2 then { r.1 with outcome := 4, boot := l.boots } else r.1 }

theorem skipSteps_upkeep (s : State) : Upkeep (updLedger skipped s) (skipSteps s) := writeCopy_upkeep (updLedger skipped s)

theorem skipSteps_keeps (s : State) : BootCore s (skipSteps s) ∧ (skipSteps s).power.running = s.power.running
    ∧ (skipSteps s).power.recovery = s.power.recovery ∧ (skipSteps s).power.bootStep = s.power.bootStep
    ∧ (skipSteps s).power.cut = s.power.cut := by
  rw [skipSteps_upkeep]
  exact ⟨⟨rfl, rfl, rfl, rfl⟩, rfl, rfl, rfl, rfl⟩

theorem openGate_keeps (alt : Bool) (s : State) : (openGate alt s).power = s.power ∧ (openGate alt s).gate.configReady = true := by
  unfold openGate
  extract_lets t
  split <;> exact ⟨rfl, rfl⟩

theorem enterRecovery_keeps (s : State) : (enterRecovery s).power = { s.power with recovery := true, bootStep := 1 }
    ∧ (enterRecovery s).gate.configReady = true := openGate_keeps ..

/-! ### The branches of S2 -/

/-- S2 with its record opened and the invalid slots logged. -/
def searched (f : BootFacts) (s : State) : State := logSlots f (alternate s 2) (openStep 2 s)

theorem searched_boots (f : BootFacts) (s : State) : Boots s (searched f s) :=
  (openStep_boots 2 s).trans ((Works.refl _).log (logSlots_frame ..)).boots

/-- S2 has failed, or Quinbuar has not started: boot stops behind step 1. -/
def stopBoot (f : BootFacts) (status : Nat) (s : State) : State :=
  skipSteps (updPower (fun p => { p with bootStep := 1 }) (closeStep 2 (alternate s 2) false status (searched f s)))

/-- S2 has started the image of a slot. -/
def startImage (f : BootFacts) (i : Nat) (s : State) : State :=
  closeStep 2 (alternate s 2) true 0
    (updPower (fun p => { p with version := slotVersion s i, runSlot := i }) (searched f s))

theorem bootS2_cut (h : s.power.cut = true) : bootS2 f s = s := by rw [bootS2, if_pos h]

theorem bootS2_stops (h : s.power.cut = false) (e : f.cutAt = some 2) :
    bootS2 f s = updPower (fun p => { p with cut := true }) (openStep 2 s) := by
  rw [bootS2, if_neg (ne_true_of_eq_false h)]
  exact if_pos e

theorem bootS2_recovers (h : s.power.cut = false) (e : f.cutAt ≠ some 2) (none : pickSlot s f (alternate s 2) = none) :
    bootS2 f s = enterRecovery (stopBoot f 0x0803 s) := by
  unfold bootS2
  simp only [h, e, none, Bool.false_eq_true, if_false]
  rfl

theorem bootS2_halts (h : s.power.cut = false) (e : f.cutAt ≠ some 2) (some : pickSlot s f (alternate s 2) = some i)
    (q : f.quinbuarStarts = false) : bootS2 f s = stopBoot f 0 s := by
  unfold bootS2
  simp only [h, e, some, q, Bool.false_eq_true, if_false, Bool.not_false, if_true]
  rfl

theorem bootS2_starts (h : s.power.cut = false) (e : f.cutAt ≠ some 2) (some : pickSlot s f (alternate s 2) = some i)
    (q : f.quinbuarStarts = true) : bootS2 f s = bootLodge f (startImage f i s) := by
  unfold bootS2
  simp only [h, e, some, q, Bool.false_eq_true, if_false, Bool.not_true]
  rfl

/-! ### What the branches keep -/

theorem startImage_keeps (f : BootFacts) (i : Nat) (s : State) : Boots s (startImage f i s) ∧ (startImage f i s).power.cut = s.power.cut := by
  have set (t : State) : Boots t (updPower (fun p => { p with version := slotVersion s i, runSlot := i }) t) := ⟨rfl, rfl, fun _ h => h⟩
  refine ⟨(searched_boots f s).trans ((set _).trans (closeStep_boots ..)), (closeStep_keeps ..).cut.trans ?_⟩
  have logged := logSlots_frame f (alternate s 2) (openStep 2 s)
  exact (congrArg Power.cut logged.power).trans (openStep_keeps 2 s).cut

theorem stopBoot_keeps (f : BootFacts) (status : Nat) (s : State) : BootCore s (stopBoot f status s)
    ∧ (stopBoot f status s).power.running = s.power.running ∧ (stopBoot f status s).power.recovery = s.power.recovery
    ∧ (stopBoot f status s).power.bootStep = 1 ∧ (stopBoot f status s).power.cut = s.power.cut := by
  have search := searched_boots f s
  have logged := (logSlots_frame f (alternate s 2) (openStep 2 s)).power
  have opened := openStep_keeps 2 s
  have closed := closeStep_boots 2 (alternate s 2) false status (searched f s)
  have ends := closeStep_keeps 2 (alternate s 2) false status (searched f s)
  obtain ⟨core, running, recovery, bootStep, cut⟩ :=
    skipSteps_keeps (updPower (fun p => { p with bootStep := 1 }) (closeStep 2 (alternate s 2) false status (searched f s)))
  have both := search.trans (closed.trans (bootStep_boots 1 _))
  refine ⟨both.core.trans core, running.trans ?_, recovery.trans ?_, bootStep, cut.trans ?_⟩
  · exact ends.running.trans ((congrArg Power.running logged).trans opened.running)
  · rw [both.power]
  · exact ends.cut.trans ((congrArg Power.cut logged).trans opened.cut)

theorem bootS2_core (f : BootFacts) (s : State) : BootCore s (bootS2 f s) := by
  by_cases c : s.power.cut = true
  · rw [bootS2_cut c]
    exact (Boots.refl s).core
  have c := eq_false_of_ne_true c
  by_cases e : f.cutAt = some 2
  · rw [bootS2_stops c e]
    exact (openStep_boots 2 s).core.trans ⟨rfl, rfl, rfl, rfl⟩
  obtain none | ⟨i, some⟩ : pickSlot s f (alternate s 2) = none ∨ ∃ i, pickSlot s f (alternate s 2) = some i := by
    cases pickSlot s f (alternate s 2)
    · exact .inl rfl
    · exact .inr ⟨_, rfl⟩
  · rw [bootS2_recovers c e none]
    refine (stopBoot_keeps f 0x0803 s).1.trans ?_
    constructor <;> rw [(enterRecovery_keeps _).1]
  · cases q : f.quinbuarStarts
    · rw [bootS2_halts c e some q]
      exact (stopBoot_keeps f 0 s).1
    · rw [bootS2_starts c e some q, bootLodge_eq]
      exact ((startImage_keeps f i s).1.trans (runSteps_boots lodgeSteps_works _)).core

end

end Sys2Proof.Machine
end

section
/-! Boot from S1 on: it waits, stops, is cut off or ends in service or in recovery mode (R480, R485, R511). -/

namespace Sys2Proof.Machine

section
variable {b s t : State} {f : BootFacts} {i : Nat}

/-! ### Boot from S1 (R480, R511) -/

theorem deviceReset_power (s : State) : (deviceReset s).power = { s.power with
    running := false, waitingBoot := none, breath := false, bootStep := 0, recovery := false, version := 0, runSlot := 0
    update := Power.reset.update } := by
  rw [← disablePins_power s]
  unfold deviceReset
  generalize disablePins s = t
  rfl

theorem endBoot_core (s : State) : BootCore s (endBoot s) := by
  unfold endBoot
  split
  · constructor <;> rw [deviceReset_power] <;> rfl
  · exact (Boots.refl s).core

/-- The boot that waited at S1 waits no more. -/
def endWait (s : State) : State := updPower (fun p => { p with waitingBoot := none }) s

/-- What S1 leaves of a boot. -/
def throughS1 (f : BootFacts) (s : State) : State := runStep 1 f (bootS1 f) (endWait s)

theorem bootFrom1_waits (h : s.power.timeref = false) :
    bootFrom1 f s = updPower (fun p => { p with waitingBoot := some f }) s := by
  simp only [bootFrom1, h, Bool.not_false, if_true]

theorem bootFrom1_goes (h : s.power.timeref = true) : bootFrom1 f s = endBoot (bootS2 f (throughS1 f s)) := by
  simp only [bootFrom1, h, Bool.not_true, Bool.false_eq_true, if_false]
  rfl

theorem throughS1_boots (f : BootFacts) (s : State) : Boots (endWait s) (throughS1 f s) := runStep_boots (bootS1_works f) _

theorem bootFrom1_core (f : BootFacts) (s : State) : BootCore s (bootFrom1 f s) := by
  cases h : s.power.timeref
  · rw [bootFrom1_waits h]
    exact ⟨rfl, rfl, rfl, rfl⟩
  · rw [bootFrom1_goes h]
    have waited : BootCore s (endWait s) := ⟨rfl, rfl, rfl, rfl⟩
    exact waited.trans ((throughS1_boots f s).core.trans ((bootS2_core f _).trans (endBoot_core _)))

theorem throughS1_whole (h : s.power.cut = false) (e : f.cutAt ≠ some 1) : (throughS1 f s).power.cut = false
    ∧ (throughS1 f s).power.running = s.power.running := by
  refine ⟨(runStep_whole (bootS1_works f) (s := endWait s) h e).1, ?_⟩
  rw [throughS1, runStep_ends (s := endWait s) h e, (closeStep_keeps ..).running, bootS1_running, (openStep_keeps ..).running]
  rfl

/-- A slot is as good behind S1 as before it. -/
theorem throughS1_slotGood (f : BootFacts) (s : State) (i : Nat) : slotGood (throughS1 f s) f i = slotGood s f i :=
  ((throughS1_boots f s).slotGood i).trans rfl

theorem endBoot_whole (h : s.power.cut = false) : endBoot s = s := if_neg (ne_true_of_eq_false h)

/-- No valid slot: recovery mode (R485). -/
theorem bootFrom1_recovers (h : s.power.timeref = true) (cut : s.power.cut = false) (e : f.cutAt = none) (h0 : slotGood s f 0 = false)
    (h1 : slotGood s f 1 = false) : (bootFrom1 f s).power.recovery = true ∧ (bootFrom1 f s).power.running = s.power.running
      ∧ (bootFrom1 f s).power.bootStep = 1 ∧ (bootFrom1 f s).gate.configReady = true := by
  obtain ⟨cut1, running1⟩ := throughS1_whole cut (by rw [e]; exact nofun)
  have none : pickSlot (throughS1 f s) f (alternate (throughS1 f s) 2) = none :=
    pickSlot_none ((throughS1_slotGood ..).trans h0) ((throughS1_slotGood ..).trans h1)
  obtain ⟨-, running, -, -, cut2⟩ := stopBoot_keeps f 0x0803 (throughS1 f s)
  obtain ⟨power, ready⟩ := enterRecovery_keeps (stopBoot f 0x0803 (throughS1 f s))
  rw [bootFrom1_goes h, bootS2_recovers cut1 (by rw [e]; exact nofun) none, endBoot_whole (by rw [power]; exact cut2.trans cut1), power]
  exact ⟨rfl, running.trans running1, rfl, ready⟩

/-- Quinbuar does not start: boot stops behind S1. -/
theorem bootFrom1_halts (h : s.power.timeref = true) (cut : s.power.cut = false) (e : f.cutAt = none)
    (good : slotGood s f 0 = true ∨ slotGood s f 1 = true) (q : f.quinbuarStarts = false) :
    (bootFrom1 f s).power.running = s.power.running ∧ (bootFrom1 f s).power.recovery = s.power.recovery
      ∧ (bootFrom1 f s).power.bootStep = 1 := by
  obtain ⟨cut1, running1⟩ := throughS1_whole cut (by rw [e]; exact nofun)
  obtain ⟨i, some⟩ : ∃ i, pickSlot (throughS1 f s) f (alternate (throughS1 f s) 2) = some i :=
    pickSlot_some (by simpa only [throughS1_slotGood] using good)
  obtain ⟨-, running, recovery, bootStep, cut2⟩ := stopBoot_keeps f 0 (throughS1 f s)
  rw [bootFrom1_goes h, bootS2_halts cut1 (by rw [e]; exact nofun) some q, endBoot_whole (cut2.trans cut1)]
  refine ⟨running.trans running1, recovery.trans ?_, bootStep⟩
  rw [(throughS1_boots f s).power]
  rfl

/-- Every step runs: the device serves, and each record says its outcome. -/
theorem bootFrom1_serves (h : s.power.timeref = true) (cut : s.power.cut = false) (e : f.cutAt = none)
    (good : slotGood s f 0 = true ∨ slotGood s f 1 = true) (q : f.quinbuarStarts = true) (tap : s.power.tap ≠ .extest) :
    Serves f (bootFrom1 f s) ∧ (bootFrom1 f s).power.recovery = s.power.recovery ∧ (bootFrom1 f s).power.waitingBoot = none
      ∧ (bootFrom1 f s).power.timeref = true
      ∧ ∀ i, 3 ≤ i → i ≤ 12 → i < s.power.ledger.steps.length → outcomeAt i (bootFrom1 f s) = some (verdict f i) := by
  obtain ⟨cut1, -⟩ := throughS1_whole cut (by rw [e]; exact nofun)
  obtain ⟨i, some⟩ : ∃ i, pickSlot (throughS1 f s) f (alternate (throughS1 f s) 2) = some i :=
    pickSlot_some (by simpa only [throughS1_slotGood] using good)
  obtain ⟨kept2, cut2⟩ := startImage_keeps f i (throughS1 f s)
  have kept := (throughS1_boots f s).trans kept2
  have cut3 := cut2.trans cut1
  obtain ⟨cut4, outcomes⟩ := runSteps_whole (l := lodgeSteps f) lodgeSteps_works cut3 fun x _ => by rw [e]; exact nofun
  have all := kept.trans (runSteps_boots (f := f) (l := lodgeSteps f) lodgeSteps_works _)
  rw [← bootLodge_eq] at cut4 outcomes all
  rw [bootFrom1_goes h, bootS2_starts cut1 (by rw [e]; exact nofun) some q, endBoot_whole cut4]
  have tap2 : (startImage f i (throughS1 f s)).power.tap ≠ .extest := by rwa [kept.power]
  refine ⟨bootLodge_serves cut3 e tap2, ?_, ?_, ?_, fun j lo hi lt => ?_⟩
  · rw [all.power]
    rfl
  · rw [all.power]
    rfl
  · rw [all.power]
    exact h
  · refine outcomes j ?_ (.inr (mem_lodgeSteps.2 ⟨lo, hi⟩))
    rw [kept.steps]
    exact lt

/-- A reset cuts the boot off in a step: the device does not serve, and the record of that step goes on reading 1. -/
theorem bootFrom1_stops (h : s.power.timeref = true) (cut : s.power.cut = false) (e : f.cutAt = some i) (lo : 1 ≤ i) (hi : i ≤ 12)
    (good : slotGood s f 0 = true ∨ slotGood s f 1 = true) (q : f.quinbuarStarts = true) :
    (bootFrom1 f s).power.running = false ∧ (i < s.power.ledger.steps.length → outcomeAt i (bootFrom1 f s) = some 1) := by
  have stops : (bootS2 f (throughS1 f s)).power.cut = true
      ∧ (i < s.power.ledger.steps.length → outcomeAt i (bootS2 f (throughS1 f s)) = some 1) := by
    obtain one | two | three : i = 1 ∨ i = 2 ∨ 3 ≤ i := by omega
    · subst one
      have stopped : throughS1 f s = updPower (fun p => { p with cut := true }) (openStep 1 (endWait s)) := runStep_stops (s := endWait s) cut e
      rw [stopped, bootS2_cut rfl]
      exact ⟨rfl, outcomeAt_openStep (s := endWait s)⟩
    · subst two
      obtain ⟨cut1, -⟩ := throughS1_whole cut (f := f) (by rw [e]; exact nofun)
      rw [bootS2_stops cut1 e]
      have opened := outcomeAt_openStep (i := 2) (s := throughS1 f s)
      rw [(throughS1_boots f s).steps] at opened
      exact ⟨rfl, opened⟩
    · obtain ⟨cut1, -⟩ := throughS1_whole cut (f := f) (by rw [e]; simp; omega)
      obtain ⟨k, some⟩ : ∃ k, pickSlot (throughS1 f s) f (alternate (throughS1 f s) 2) = some k :=
        pickSlot_some (by simpa only [throughS1_slotGood] using good)
      obtain ⟨kept2, cut2⟩ := startImage_keeps f k (throughS1 f s)
      rw [bootS2_starts cut1 (by rw [e]; simp; omega) some q, bootLodge_eq]
      have rest := runSteps_stops (l := lodgeSteps f) lodgeSteps_works (cut2.trans cut1) e (mem_lodgeSteps.2 ⟨three, hi⟩)
      rwa [((throughS1_boots f s).trans kept2).steps] at rest
  obtain ⟨cutOff, outcome⟩ := stops
  have reset : bootFrom1 f s = deviceReset (updPower (fun p => { p with cut := false }) (bootS2 f (throughS1 f s))) := by
    rw [bootFrom1_goes h, endBoot, if_pos cutOff]
  rw [reset]
  refine ⟨by rw [deviceReset_power], fun lt => ?_⟩
  rw [outcomeAt, deviceReset_power]
  exact outcome lt

end

end Sys2Proof.Machine
end

section
/-! S0 and the commands that begin a boot: BOOT and TIMEREF_RETURN (R58, R476, R478, R502, R511). -/

namespace Sys2Proof.Machine

section
variable {b s t : State} {f : BootFacts} {i : Nat}

/-! ### S0 (R58, R476, R478) -/

/-- The ledger of S0, or the default where nothing holds a valid one. -/
def startLedger (p : Power) : Ledger := (pickLedger p).getD Ledger.default

/-- A boot has begun with a ledger: S0 has counted it and driven LBDONE low. -/
structure BeganWith (l : Ledger) (p q : Power) : Prop where
  power : q = { p with
    ledger := q.ledger, lbdone := false, countLost := false, bootStep := 0, copyA := q.copyA, copyB := q.copyB, mirror := q.mirror }
  serial : q.ledger.serial = l.serial
  boots : q.ledger.boots = l.boots + 1
  steps : q.ledger.steps.length = l.steps.length

theorem takeSizes_frame (l : Ledger) : (takeSizes l).serial = l.serial ∧ (takeSizes l).boots = l.boots ∧ (takeSizes l).steps = l.steps := by
  unfold takeSizes
  split <;> exact ⟨rfl, rfl, rfl⟩

theorem takeUnfence_frame (l : Ledger) :
    (takeUnfence l).serial = l.serial ∧ (takeUnfence l).boots = l.boots ∧ (takeUnfence l).steps = l.steps := by
  unfold takeUnfence
  split <;> exact ⟨rfl, rfl, rfl⟩

theorem bootS0_began (s : State) : BeganWith (startLedger s.power) s.power (bootS0 s).power := by
  unfold bootS0
  extract_lets t u saved v lost w x
  have hu : u.power = { s.power with ledger := startLedger s.power } := by
    unfold u startLedger
    have ht : t.power = s.power := rfl
    rw [← ht]
    split
    · next l h => rw [h]; rfl
    · next h => rw [h, logErr_frame]; rfl
  have hv : v.power = u.power := by
    unfold v
    split <;> rfl
  obtain ⟨sizesSerial, sizesBoots, sizesSteps⟩ := takeSizes_frame (startLedger s.power)
  obtain ⟨serial, boots, steps⟩ := takeUnfence_frame (takeSizes (startLedger s.power))
  have hw : w.power = { s.power with
      ledger := { takeUnfence (takeSizes (startLedger s.power)) with boots := (startLedger s.power).boots + 1, timeLost := lost } } := by
    unfold w
    simp only [updLedger, updPower]
    rw [hv, hu]
  have hx : x.power = w.power := rfl
  obtain ⟨r, -, closed⟩ := closeStep_upkeep 0 false true 0 (updPower (fun p => { p with countLost := false, lbdone := false }) x)
  have closed := congrArg State.power closed
  constructor
  all_goals
    rw [closed]
    simp only [updPower, recordStep, updLedger, hx, hw]
  · exact sizesSerial ▸ serial
  · exact (length_upd ..).trans (congrArg List.length (steps.trans sizesSteps))

/-! ### BOOT (R476, R502) -/

theorem settleAlert_power (s : State) : ∃ a r, (settleAlert s).power = { s.power with alert := a, alertReleased := r } := by
  unfold settleAlert
  cases alertCond s <;> exact ⟨_, _, rfl⟩

theorem raiseMaingood_power (f : BootFacts) (s : State) : ∃ a r, (raiseMaingood f s).power = { s.power with
    maingood := true, testEn := if s.power.maingood then s.power.testEn else f.testEn, alert := a, alertReleased := r } := by
  unfold raiseMaingood
  cases h : s.power.maingood
  · obtain ⟨a, r, settled⟩ := settleAlert_power (updPower (fun p => { p with maingood := true, testEn := f.testEn }) s)
    exact ⟨a, r, settled⟩
  · exact ⟨s.power.alert, s.power.alertReleased, by simp only [if_true, ← h]⟩

/-- What S0 leaves of a boot of a device that did not run. -/
def begun (f : BootFacts) (s : State) : State := bootS0 (deviceReset (raiseMaingood f s))

theorem begun_power (f : BootFacts) (s : State) : ∃ a r, BeganWith (startLedger s.power)
    { s.power with
      maingood := true, testEn := if s.power.maingood then s.power.testEn else f.testEn, alert := a, alertReleased := r
      running := false, waitingBoot := none, breath := false, recovery := false, version := 0, runSlot := 0
      update := Power.reset.update } (begun f s).power := by
  obtain ⟨a, r, raised⟩ := raiseMaingood_power f s
  have reset := deviceReset_power (raiseMaingood f s)
  rw [raised] at reset
  have began := bootS0_began (deviceReset (raiseMaingood f s))
  have ledger : startLedger (deviceReset (raiseMaingood f s)).power = startLedger s.power := by rw [reset]; rfl
  refine ⟨a, r, ?_, ledger ▸ began.serial, ledger ▸ began.boots, ledger ▸ began.steps⟩
  rw [begun, began.power, reset]

theorem begun_slotGood (f : BootFacts) (s : State) (i : Nat) : slotGood (begun f s) f i = slotGood s f i := by
  obtain ⟨a, r, began⟩ := begun_power f s
  unfold slotGood imageValid pinsTaken
  rw [began.power]

theorem exec_boot_dead (h : ¬ (s.power.running = false ∧ s.power.breath = false ∧ s.power.aonAlive = true)) :
    exec (.boot f) s = .next s := by
  have held : (!s.power.aonAlive || s.power.breath || s.power.running) = true := by
    revert h
    cases s.power.aonAlive <;> cases s.power.breath <;> cases s.power.running <;> simp
  show execBoot f s = _
  rw [execBoot, if_pos held]
  rfl

theorem exec_boot_alive (run : s.power.running = false) (breath : s.power.breath = false) (aon : s.power.aonAlive = true) :
    exec (.boot f) s = .next (if bootAllowed (raiseMaingood f s) then bootFrom1 f (begun f s) else raiseMaingood f s) := by
  show execBoot f s = _
  simp only [execBoot, run, breath, aon, Bool.not_true, Bool.or_self, Bool.false_eq_true, if_false]
  rfl

theorem bootAllowed_raiseMaingood (run : s.power.running = false) (breath : s.power.breath = false) (aon : s.power.aonAlive = true) :
    bootAllowed (raiseMaingood f s) = true ↔ s.power.recovery = false ∧ s.power.thermal = false ∧ s.power.waitingBoot = none
      ∧ (if s.power.maingood then s.power.testEn else f.testEn) = false
      ∧ (s.power.perstReleased = true ∨ s.power.ledger.perstScope = true) := by
  obtain ⟨a, r, raised⟩ := raiseMaingood_power f s
  unfold bootAllowed
  rw [raised]
  simp [run, breath, aon, and_assoc]

end

end Sys2Proof.Machine
end

section
/-! The end of a host session and the resets of the endpoint (R393, R394). -/

namespace Sys2Proof.Machine

/-! ### What the end of a session may touch -/

/-- From `b` to `s` the mailbox, which holds no command, the score, the package and the endpoint stand, interrupt state and the session's
end apart, and of power the ledger's counts and copies at most have changed. -/
structure Closing (b s : State) : Prop where
  idle : s.mbx.cmds = []
  mbx : s.mbx = b.mbx
  score : s.score = b.score
  pkg : s.pkg = b.pkg
  gate : s.gate = { b.gate with pba := s.gate.pba, inta := s.gate.inta, sessionOver := s.gate.sessionOver }
  power : s.power = { b.power with ledger := s.power.ledger, copyA := s.power.copyA, copyB := s.power.copyB, mirror := s.power.mirror }

section
variable {b s t : State}

theorem Closing.refl (h : s.mbx.cmds = []) : Closing s s := ⟨h, rfl, rfl, rfl, rfl, rfl⟩

theorem Closing.trans (h : Closing b s) (k : Closing s t) : Closing b t where
  idle := k.idle
  mbx := k.mbx.trans h.mbx
  score := k.score.trans h.score
  pkg := k.pkg.trans h.pkg
  gate := by rw [k.gate, h.gate]
  power := by rw [k.power, h.power]

/-- A change of other parts of the state. -/
theorem Closing.still (h : Closing b s) (e : (t.mbx, t.score, t.pkg, t.gate, t.power) = (s.mbx, s.score, s.pkg, s.gate, s.power)) :
    Closing b t := by
  simp only [Prod.mk.injEq] at e
  obtain ⟨hm, hs, hp, hg, hw⟩ := e
  exact ⟨hm ▸ h.idle, hm.trans h.mbx, hs.trans h.score, hp.trans h.pkg, hg ▸ h.gate, hw ▸ h.power⟩

theorem Closing.upkeep (h : Closing b s) (k : Upkeep s t) : Closing b t := by
  refine h.trans ⟨?_, ?_, ?_, ?_, ?_, ?_⟩
  all_goals rw [k]
  exact h.idle

theorem Closing.ite {c : Prop} [Decidable c] {x y : State} (hx : Closing b x) (hy : Closing b y) : Closing b (if c then x else y) := by
  split
  · exact hx
  · exact hy

theorem Closing.foldl {α : Type} {f : State → α → State} {l : List α} (h : Closing b s) (hf : ∀ s x, Closing b s → Closing b (f s x)) :
    Closing b (l.foldl f s) := by
  induction l generalizing s with
  | nil => exact h
  | cons x l ih => exact ih (hf s x h)

/-! ### A stream closes (R161, R180, R415, R456) -/

theorem freeChain_closing {i : Nat} (h : Closing b s) : Closing b (freeChain i s) := h.upkeep (freeChain_upkeep (.refl s))

theorem leaveGroups_closing {n : Nat} (h : Closing b s) : Closing b (leaveGroups n s) := by
  refine h.foldl fun s p h => ?_
  split
  · exact h
  · exact Closing.foldl (h.still (by rfl)) fun _ _ h => h.still (by rfl)

theorem endStreamSeqs_upkeep {p : State} {n : Nat} (h : Upkeep p s) : Upkeep p (endStreamSeqs n s) := h.foldl fun _ _ => endSeq_upkeep

theorem sendClosed_upkeep {p : State} {n : Nat} {x : Stream} (h : Upkeep p s) : Upkeep p (sendClosed n x s) := by
  unfold sendClosed
  extract_lets -merge -underBinder +onlyGivenNames at_ t
  have ht : Upkeep p t := updTrellis_upkeep h
  exact ht.foldl fun _ _ h => .ite h (sendMessage_upkeep h)

/-- With no command in progress none ends. -/
theorem endStreamCmds_idle {n : Nat} (h : s.mbx.cmds = []) : endStreamCmds n s = s := by
  rw [endStreamCmds, h]
  rfl

theorem removeStream_closing {n : Nat} {x : Stream} (h : Closing b s) : Closing b (removeStream n x s) := by
  unfold removeStream
  extract_lets -merge -underBinder +onlyGivenNames heads t u v w y z a
  have ht : Closing b t := h.foldl fun _ _ => freeChain_closing
  have hu : Closing b u := (leaveGroups_closing (ht.upkeep (endStreamSeqs_upkeep (.refl _)))).upkeep (sendClosed_upkeep (.refl _))
  have hv : Closing b v := hu.upkeep (unreserve_upkeep (unreserve_upkeep (unreserve_upkeep (.refl u))))
  clear_value v
  have hz : Closing b z := hv.still (by rfl)
  have hp : Closing b (putStream n none z) := hz.still (by rfl)
  have ha : Closing b a := by
    unfold a
    rw [endStreamCmds_idle hp.idle]
    exact hp
  exact ha.foldl fun _ _ h => h.upkeep (releasePrompt_upkeep (.refl _))

theorem finishClose_closing {n : Nat} (h : Closing b s) : Closing b (finishClose n s) := by
  unfold finishClose
  split
  · exact .ite (removeStream_closing h) h
  · exact h

theorem beginClose_closing {n : Nat} (h : Closing b s) : Closing b (beginClose n s) := by
  unfold beginClose
  split
  · exact h
  · extract_lets -merge -underBinder +onlyGivenNames t u v
    have ht : Closing b t := .ite (h.still (by rfl)) h
    have hu : Closing b u := by
      unfold u
      split
      · exact .ite ht (freeChain_closing ht)
      · exact ht
    exact finishClose_closing ((leaveGroups_closing hu).still (by rfl))

theorem endClip_closing {i k : Nat} (h : Closing b s) : Closing b (endClip i k s) := by
  unfold endClip
  split
  · exact h
  · next c _ =>
    extract_lets -merge -underBinder +onlyGivenNames t u
    have ht : Closing b t := h.foldl fun _ _ => freeChain_closing
    have hu : Closing b u := ht.still (by rfl)
    rw [hu.idle]
    exact hu

/-! ### The session ends (R302, R394) -/

theorem putLeaves_upkeep {p : State} {w n : Nat} {ls : List (Nat × Nat)} (h : Upkeep p s) : Upkeep p (putLeaves w n ls s) :=
  tlbDrop_upkeep (h.foldl fun _ _ => writePhys_upkeep)

theorem revokeCold_closing (h : Closing b s) : Closing b (revokeCold s) := by
  unfold revokeCold
  extract_lets t
  have ht : Closing b t := by
    unfold t
    split
    · exact h.upkeep (putLeaves_upkeep (.refl _))
    · exact h
  exact ht.still (by rfl)

theorem breakLocks_closing {i : Nat} (h : Closing b s) : Closing b (breakLocks i s) := h.still (by rfl)

/-- The session's end leaves no command and no session, and what the device does beside the host goes on. -/
theorem sessionEnd_closing (s : State) : Closing (updMbx dropRings s) (sessionEnd s) := by
  unfold sessionEnd
  extract_lets t u v w x
  have ht : Closing t t := .refl rfl
  have hu : Closing t u := ht.foldl fun _ _ => beginClose_closing
  have hv : Closing t v := hu.foldl fun _ _ => endClip_closing
  have hw : Closing t w := breakLocks_closing (revokeCold_closing hv)
  clear_value w
  have hx : Closing t x := hw.trans ⟨hw.idle, rfl, rfl, rfl, rfl, rfl⟩
  exact hx.upkeep (logErr_upkeep (.refl _))

end

end Sys2Proof.Machine
end

section
/-! PERST_N, hot reset and FLR (R393, R394, R485, R510, R517), and what boot and the resets leave. -/

namespace Sys2Proof.Machine

section
variable {s t : State} {f : BootFacts}

/-! ### The endpoint after its resets (R393) -/

/-- Every key of a table lies above a bound. -/
def KeysAbove {α : Type} (k : Nat) (t : Tab α) : Prop := ∀ x ∈ t, k < x.1

theorem KeysAbove.put {α : Type} {k j : Nat} {v : α} {t : Tab α} (h : KeysAbove k t) (lt : k < j) : KeysAbove k (tabPut j v t) := by
  induction t with
  | nil => simpa [tabPut, KeysAbove] using lt
  | cons x t ih =>
    obtain ⟨hx, ht⟩ := List.forall_mem_cons.1 h
    rw [tabPut]
    split
    · exact List.forall_mem_cons.2 ⟨lt, ht⟩
    · split
      · exact List.forall_mem_cons.2 ⟨lt, h⟩
      · exact List.forall_mem_cons.2 ⟨hx, ih ht⟩

theorem KeysAbove.del {α : Type} {k j : Nat} {t : Tab α} (h : KeysAbove k t) : KeysAbove k (tabDel j t) := by
  induction t with
  | nil => exact h
  | cons x t ih =>
    obtain ⟨hx, ht⟩ := List.forall_mem_cons.1 h
    rw [tabDel]
    split
    · exact ht
    · split
      · exact h
      · exact List.forall_mem_cons.2 ⟨hx, ih ht⟩

theorem KeysAbove.get {α : Type} {k : Nat} {t : Tab α} (h : KeysAbove k t) : tabGet k t = none := by
  cases t with
  | nil => rfl
  | cons x t =>
    have lt := h x List.mem_cons_self
    rw [tabGet, if_neg (Nat.ne_of_lt lt), if_pos lt]

theorem stickyCfg_above (cfg : Tab (BitVec 32)) : KeysAbove 4 (stickyCfg cfg) := by
  have start : KeysAbove 4 Gate.resetCfg := by unfold KeysAbove; decide
  have step (t : Tab (BitVec 32)) (j : Nat) (lt : 4 < j) (h : KeysAbove 4 t) :
      KeysAbove 4 (match tabGet j cfg with | some v => tabPut j v t | none => tabDel j t) := by
    split
    · exact h.put lt
    · exact h.del
  exact step _ _ (by decide) (step _ _ (by decide) (step _ _ (by decide) (step _ _ (by decide) start)))

theorem memSpace_stickyCfg {cfg : Tab (BitVec 32)} (h : s.gate.cfg = stickyCfg cfg) : memSpace s = false := by
  rw [memSpace, cfgReg, h, tabGetD, (stickyCfg_above cfg).get]
  rfl

theorem resetEndpoint_frame (k : BitVec 32) (s : State) : ∃ (o : List Out) (r : Tab (BitVec 32)) (e : ErrLog), resetEndpoint k s = { s with
    out := o, err := e
    gate := { Gate.reset with
      regs := r, cfg := stickyCfg s.gate.cfg, linkUp := s.gate.linkUp, configReady := s.gate.configReady, linkErrors := s.gate.linkErrors
      aer := s.gate.aer } } := by
  unfold resetEndpoint
  generalize endpointRegs s k = r
  split <;> exact ⟨_, r, _, rfl⟩

/-- A hot reset or an FLR that takes effect. -/
theorem endpointReset_leaves (s : State) : ∃ t, endpointReset s = t ∧ t.mbx.session = none ∧ t.mbx.cmds = []
    ∧ t.gate.linkUp = s.gate.linkUp ∧ t.gate.d3hot = false ∧ memSpace t = false ∧ t.gate.msix = Gate.reset.msix ∧ t.score = s.score
    ∧ t.pkg = s.pkg ∧ t.power = { s.power with
        ledger := t.power.ledger, copyA := t.power.copyA, copyB := t.power.copyB, mirror := t.power.mirror } := by
  obtain ⟨o, r, e, reset⟩ := resetEndpoint_frame (countFlr (reg s 0x00000C)) s
  have ends := sessionEnd_closing (resetEndpoint (countFlr (reg s 0x00000C)) s)
  rw [reset] at ends
  refine ⟨_, rfl, ?_⟩
  rw [endpointReset, reset]
  refine ⟨by rw [ends.mbx]; rfl, ends.idle, by rw [ends.gate]; rfl, by rw [ends.gate]; rfl, ?_, by rw [ends.gate]; rfl, ends.score, ends.pkg,
    ends.power⟩
  exact memSpace_stickyCfg (by rw [ends.gate]; rfl)

theorem resetGate_frame (s : State) : ∃ (r : Tab (BitVec 32)) (e : ErrLog),
    resetGate s = { s with err := e, gate := { Gate.reset with regs := r } } := by
  unfold resetGate
  generalize endpointRegs s 0 = r
  exact ⟨tabDel 0x000004 r, _, rfl⟩

/-- PERST_N with SCOPE 1 (R393, R394). -/
theorem assertPerst_session (released : s.power.perstReleased = true) (breath : s.power.breath = false) (run : s.power.running = true)
    (scope : (reg s 0x400018).getLsbD 0 = true) : ∃ t, assertPerst s = t ∧ t.power.running = true ∧ t.mbx.session = none ∧ t.mbx.cmds = []
      ∧ t.gate.linkUp = false ∧ t.gate.cfg = Gate.resetCfg ∧ t.pkg = s.pkg ∧ t.score = s.score := by
  obtain ⟨r, e, reset⟩ := resetGate_frame (updPower (fun p => { p with perstReleased := false }) s)
  have ends := sessionEnd_closing (resetGate (updPower (fun p => { p with perstReleased := false }) s))
  have asserts : assertPerst s = sessionEnd (resetGate (updPower (fun p => { p with perstReleased := false }) s)) := by
    simp only [assertPerst, released, breath, run, scope, Bool.not_true, Bool.false_eq_true, Bool.and_self, if_false, if_true]
  rw [reset] at ends asserts
  refine ⟨_, asserts, by rw [ends.power]; exact run, by rw [ends.mbx]; rfl, ends.idle, by rw [ends.gate]; rfl, by rw [ends.gate]; rfl,
    ends.pkg, ends.score⟩

theorem deviceReset_leaves (s : State) : (deviceReset s).band = s.band ∧ (deviceReset s).pkg = none
    ∧ (deviceReset s).streams = State.reset.streams ∧ (deviceReset s).mbx = Mailbox.reset := by
  have band : (disablePins s).band = s.band := by rw [disablePins_frame]
  rw [← band]
  unfold deviceReset
  generalize disablePins s = t
  exact ⟨rfl, rfl, rfl, rfl⟩

/-- The journal tail and the ledger are on the store die, as before a reset of the device (R393). -/
def flushed (s : State) : State := updPower (fun p =>
  let q := writeCopy { p with ledger := { p.ledger with timeLost := s.band.timeLost } }
  { q with store := { q.store with records := sealSection tailBytes (journalTail s), ledger := true, marker := true } }) s

theorem flushed_power (s : State) : (flushed s).power = { s.power with
    ledger := (flushed s).power.ledger, copyA := (flushed s).power.copyA, copyB := (flushed s).power.copyB
    store := (flushed s).power.store } := by
  unfold flushed
  simp only [updPower]
  rw [writeCopy_frame]

/-- PERST_N with SCOPE 0 (R393, log 69): the journal tail is on the store die, and the device resets. -/
theorem assertPerst_device (released : s.power.perstReleased = true) (breath : s.power.breath = false) (run : s.power.running = true)
    (scope : (reg s 0x400018).getLsbD 0 = false) : ∃ t, assertPerst s = t ∧ t.power.running = false ∧ t.power.perstReleased = false
      ∧ t.band = s.band ∧ t.power.store.records = some (journalTail s, crc64 (tailBytes (journalTail s))) ∧ t.power.store.marker = true
      ∧ t.pkg = none ∧ t.streams = State.reset.streams ∧ t.mbx = Mailbox.reset := by
  have tail : journalTail (updPower (fun p => { p with perstReleased := false }) s) = journalTail s := rfl
  have asserts : assertPerst s = deviceReset (flushed (updPower (fun p => { p with perstReleased := false }) s)) := by
    simp only [assertPerst, released, breath, run, scope, Bool.not_true, Bool.false_eq_true, Bool.and_false, if_false]
    exact if_neg (by simp [updPower, run])
  obtain ⟨band, pkg, streams, mbx⟩ := deviceReset_leaves (flushed (updPower (fun p => { p with perstReleased := false }) s))
  refine ⟨_, asserts, ?_, ?_, band, ?_, ?_, pkg, streams, mbx⟩
  all_goals rw [deviceReset_power]
  · rw [flushed_power]
    rfl
  · rw [← tail]
    rfl
  · rfl

/-! ### The commands -/

theorem exec_hotReset_flr {i : Instr} (hi : i = .hotReset ∨ i = .flr) (link : s.gate.linkUp = true) (ready : s.gate.configReady = true)
    (breath : s.power.breath = false) : exec i s = .next (requestEndpointReset (if i = .hotReset then 1 else 2) s) := by
  obtain rfl | rfl := hi
  · show execHotReset s = _
    simp [execHotReset, doneIf, link, breath]
  · show execFlr s = _
    simp [execFlr, doneIf, link, ready, breath]

theorem requestEndpointReset_free (k : Nat) (h : s.fenced = none) : requestEndpointReset k s = endpointReset s := by
  unfold requestEndpointReset
  rw [h]
  exact if_neg Bool.false_ne_true

/-- While island 2 is fenced the reset is held (R495 ruling 13). -/
theorem requestEndpointReset_held {j : ResetJob} (k : Nat) (h : s.fenced = some j) (two : j.island = 2) :
    requestEndpointReset k s = { s with gate := { s.gate with heldReset := k } } := by
  unfold requestEndpointReset
  rw [if_pos (by rw [h]; exact beq_iff_eq.2 two)]
  rfl

theorem exec_hotReset_flr_none {i : Instr} (hi : i = .hotReset ∨ i = .flr) (h : s.power.breath = true ∨ s.gate.linkUp = false) :
    exec i s = .next s := by
  obtain rfl | rfl := hi
  · show execHotReset s = _
    obtain h | h := h <;> simp [execHotReset, doneIf, h]
  · show execFlr s = _
    obtain h | h := h <;> simp [execFlr, doneIf, h]

theorem exec_perstNDeassert (tap : s.power.tap ≠ .extest) : exec .perstNDeassert s = .next (releasePerst s) := by
  show execPerstNDeassert s = _
  rw [execPerstNDeassert, pinsTaken_eq_false tap]
  rfl

theorem exec_fundamentalReset (tap : s.power.tap ≠ .extest) : exec .fundamentalReset s = .next (assertPerst s) := by
  show execFundamentalReset s = _
  rw [execFundamentalReset, pinsTaken_eq_false tap]
  rfl

theorem pinsTaken_eq_true (tap : s.power.tap = .extest) : pinsTaken s = true := by
  rw [pinsTaken, tap]
  rfl

theorem releasePerst_opens (held : s.power.perstReleased = false) (runs : s.power.running = true ∨ s.power.recovery = true) :
    ∃ t, releasePerst s = t ∧ t.power.perstReleased = true ∧ t.gate.configReady = true ∧ t.gate.linkUp = true ∧ t.mbx = s.mbx := by
  have opens : releasePerst s = openGate ((stepOf (updPower (fun p => { p with perstReleased := true }) s) 4).method == 1)
      (updPower (fun p => { p with perstReleased := true }) s) := by
    have gate : (s.power.running || s.power.recovery) = true := by simpa using runs
    unfold releasePerst
    rw [if_neg (ne_true_of_eq_false held)]
    exact if_pos gate
  exact ⟨_, opens, rfl, rfl, rfl, rfl⟩

theorem releasePerst_waits (held : s.power.perstReleased = false) (run : s.power.running = false) (rec : s.power.recovery = false) :
    releasePerst s = { s with power := { s.power with perstReleased := true } } := by
  have gate : ¬ (s.power.running || s.power.recovery) = true := by simp [run, rec]
  unfold releasePerst
  rw [if_neg (ne_true_of_eq_false held)]
  exact if_neg gate

end

end Sys2Proof.Machine
end

section
/-! What BOOT, TIMEREF_RETURN and the resets leave (R58, R393, R394, R476 to R485, R510, R511). -/

namespace Sys2Proof.Machine

section
variable {s t : State} {f : BootFacts} {i : Nat}

theorem startLedger_steps {p : Power} (h : ∀ l, pickLedger p = some l → l.steps.length = 13) : (startLedger p).steps.length = 13 := by
  unfold startLedger
  cases k : pickLedger p with
  | none => rfl
  | some l => exact h l k

theorem startLedger_copies {p : Power} {a b : Ledger} (ha : validLedger p.copyA = some a) (hb : validLedger p.copyB = some b) :
    startLedger p = if b.gen ≤ a.gen then a else b := by simp [startLedger, pickLedger, ha, hb]

theorem startLedger_copyA {p : Power} {a : Ledger} (ha : validLedger p.copyA = some a) (hb : validLedger p.copyB = none) :
    startLedger p = a := by simp [startLedger, pickLedger, ha, hb]

theorem startLedger_copyB {p : Power} {b : Ledger} (ha : validLedger p.copyA = none) (hb : validLedger p.copyB = some b) :
    startLedger p = b := by simp [startLedger, pickLedger, ha, hb]

theorem startLedger_mirror {p : Power} {m : Ledger} (ha : validLedger p.copyA = none) (hb : validLedger p.copyB = none)
    (tap : p.tap ≠ .extest) (hm : validLedger p.mirror = some m) : startLedger p = m := by simp [startLedger, pickLedger, ha, hb, tap, hm]

/-- A slot that the boot finds good is not kept from the Warden by EXTEST (R517). -/
theorem slotGood_tap (h : slotGood s f i = true) : s.power.tap ≠ .extest := by
  intro tap
  rw [slotGood, pinsTaken_eq_true tap] at h
  exact Bool.noConfusion h

theorem starts_tap (h : slotGood s f 0 = true ∨ slotGood s f 1 = true) : s.power.tap ≠ .extest := h.elim slotGood_tap slotGood_tap

/-! ### TIMEREF_RETURN (R511, R517) -/

theorem exec_timerefReturn (tap : s.power.tap ≠ .extest) (absent : s.power.timeref = false) :
    exec .timerefReturn s = .next (returnTimeref s) := by
  show execTimerefReturn s = _
  rw [execTimerefReturn, pinsTaken_eq_false tap, absent]
  rfl

theorem returnTimeref_none (h : s.power.waitingBoot = none) : returnTimeref s = updPower (fun p => { p with timeref := true }) s := by
  rw [returnTimeref, h]

/-- A boot that waits at S1 goes on. -/
theorem returnTimeref_serves (cut : s.power.cut = false) (e : f.cutAt = none) (waits : s.power.waitingBoot = some f)
    (good : slotGood s f 0 = true ∨ slotGood s f 1 = true) (q : f.quinbuarStarts = true) : ∃ t, returnTimeref s = t
      ∧ t.power.waitingBoot = none ∧ t.power.timeref = true ∧ t.power.running = true ∧ t.power.bootStep = 12 := by
  have goes : returnTimeref s = bootFrom1 f (updPower (fun p => { p with timeref := true }) s) := by
    rw [returnTimeref, waits]
  obtain ⟨serves, -, waiting, timeref, -⟩ :=
    bootFrom1_serves (s := updPower (fun p => { p with timeref := true }) s) rfl cut e good q (starts_tap good)
  exact ⟨_, goes, waiting, timeref, serves.running, serves.bootStep⟩

/-! ### The obligation -/

/-- Settles O55: S0 keeps serial and boots, each step its outcome, and the branches of S2 and of PERST_N have their ends. -/
theorem bootAndResetsLeaveTheirState : Obligations.BootAndResetsLeaveTheirState := by
  unfold Obligations.BootAndResetsLeaveTheirState
  refine ⟨fun f s => ?_, fun s => ?_⟩
  · intro p alive ready whole starts serves
    refine ⟨exec_boot_dead, fun live held => ?_, fun go => ?_, fun tap => ?_, fun tap on => ?_, fun tap off idle => ?_, ?_⟩
    · obtain ⟨run, breath, aon⟩ := live
      have kept : ¬ bootAllowed (raiseMaingood f s) = true := fun k =>
        held ⟨⟨run, breath, aon⟩, (bootAllowed_raiseMaingood run breath aon).1 k⟩
      rw [exec_boot_alive run breath aon, if_neg kept]
    · obtain ⟨⟨run, breath, aon⟩, allowed⟩ := go
      rw [exec_boot_alive run breath aon, if_pos ((bootAllowed_raiseMaingood run breath aon).2 allowed)]
      obtain ⟨a, r, began⟩ := begun_power f s
      have core := bootFrom1_core f (begun f s)
      have good := begun_slotGood f s
      generalize begun f s = b at began core good ⊢
      have cut : b.power.cut = s.power.cut := by rw [began.power]
      have timeref : b.power.timeref = s.power.timeref := by rw [began.power]
      have tap : b.power.tap = s.power.tap := by rw [began.power]
      have running : b.power.running = false := by rw [began.power]
      have recovery : b.power.recovery = false := by rw [began.power]
      have origin (l : Ledger) (e : startLedger s.power = l) : (bootFrom1 f b).power.ledger.serial = l.serial
          ∧ (bootFrom1 f b).power.ledger.boots = l.boots + 1 :=
        e ▸ ⟨core.serial.trans began.serial, core.boots.trans began.boots⟩
      refine ⟨_, rfl, core.lbdone.trans ?_, core.maingood.trans ?_, ?_, fun absent => ?_, fun h on h0 h1 => ?_, fun i e lo hi c on st => ?_,
        fun h on st => ?_, fun h on g q => ?_⟩
      · rw [began.power]
      · rw [began.power]
      · refine ⟨fun a b ha hb => ⟨fun le => ?_, fun lt => ?_⟩, fun a ha hb => ?_, fun b ha hb => ?_, fun m ha hb tap hm => ?_⟩
        · exact origin a ((startLedger_copies ha hb).trans (if_pos le))
        · exact origin b ((startLedger_copies ha hb).trans (if_neg (by omega)))
        · exact origin a (startLedger_copyA ha hb)
        · exact origin b (startLedger_copyB ha hb)
        · exact origin m (startLedger_mirror ha hb tap hm)
      · rw [bootFrom1_waits (timeref.trans absent)]
        exact ⟨rfl, running⟩
      · obtain ⟨rec, run', step, config⟩ := bootFrom1_recovers (timeref.trans on) (cut.trans h.1) h.2 ((good 0).trans h0) ((good 1).trans h1)
        exact ⟨rec, run'.trans running, step, config⟩
      · obtain ⟨stopped, outcome⟩ := bootFrom1_stops (timeref.trans on) (cut.trans c) e lo hi (by simpa only [good] using st.1) st.2
        refine ⟨stopped, fun len => outcome ?_⟩
        rw [began.steps, startLedger_steps len]
        omega
      · obtain ⟨srv, rec, -, -, outcomes⟩ := bootFrom1_serves (timeref.trans on) (cut.trans h.1) h.2 (by simpa only [good] using st.1) st.2
          (by rw [tap]; exact starts_tap st.1)
        refine ⟨⟨srv.running, srv.bootStep, rec.trans recovery, srv.ready, srv.records, srv.mirror, fun n x lt hx => srv.pins n lt x hx,
          fun i x mem lo hi hx => srv.islands i mem lo hi x hx⟩, fun len i lo hi => outcomes i lo hi ?_⟩
        rw [began.steps, startLedger_steps len]
        omega
      · obtain ⟨run', rec, step⟩ := bootFrom1_halts (timeref.trans on) (cut.trans h.1) h.2 (by simpa only [good] using g) q
        exact ⟨run'.trans running, rec.trans recovery, step⟩
    · show execTimerefReturn s = _
      rw [execTimerefReturn, pinsTaken_eq_true tap]
      rfl
    · show execTimerefReturn s = _
      rw [execTimerefReturn, pinsTaken_eq_false tap, if_neg Bool.false_ne_true, if_pos on]
      rfl
    · exact (exec_timerefReturn tap off).trans (congrArg _ (returnTimeref_none idle))
    · intro h off waits _ _ st
      obtain ⟨t, returns, waiting, timeref, running, step⟩ := returnTimeref_serves h.1 h.2 waits st.1 st.2
      exact ⟨t, (exec_timerefReturn (starts_tap st.1) off).trans (congrArg _ returns), waiting, timeref, running, step⟩
  · intro released asserted
    refine ⟨fun tap => ⟨?_, ?_⟩, fun tap => ?_, fun i hi => ⟨fun link ready breath free => ?_, fun j link ready breath held two => ?_,
      exec_hotReset_flr_none hi⟩⟩
    · show execPerstNDeassert s = _
      rw [execPerstNDeassert, pinsTaken_eq_true tap]
      rfl
    · show execFundamentalReset s = _
      rw [execFundamentalReset, pinsTaken_eq_true tap]
      rfl
    · rw [exec_perstNDeassert tap, exec_fundamentalReset tap]
      refine ⟨fun on => ?_, fun held run rec => ?_, fun held runs => ?_, fun held => ?_, fun on breath => ?_, fun on breath run scope => ?_,
        fun on breath run scope => ?_⟩
      · rw [releasePerst, if_pos on]
      · rw [releasePerst_waits held run rec]
      · obtain ⟨t, opens, rest⟩ := releasePerst_opens held runs
        exact ⟨t, congrArg _ opens, rest⟩
      · rw [assertPerst, held]
        rfl
      · rw [assertPerst, on, breath]
        rfl
      · obtain ⟨t, asserts, rest⟩ := assertPerst_session on breath run scope
        exact ⟨t, congrArg _ asserts, rest⟩
      · obtain ⟨t, asserts, rest⟩ := assertPerst_device on breath run scope
        exact ⟨t, congrArg _ asserts, rest⟩
    · obtain ⟨t, resets, session, cmds, up, rest⟩ := endpointReset_leaves s
      have goes := exec_hotReset_flr hi link ready breath
      rw [requestEndpointReset_free _ free, resets] at goes
      exact ⟨t, goes, session, cmds, up.trans link, rest⟩
    · rw [exec_hotReset_flr hi link ready breath, requestEndpointReset_held _ held two]

end

end Sys2Proof.Machine
end

section
/-! Batches (R71, R141, R149, R255 to R257): what STEER, BELL and DIGEST make of them, and what the end of an op leaves of them. -/

namespace Sys2Proof.Machine

/-! ### What the end of an op leaves of batch ids and of the trace (R68, R87, R149, R255) -/

/-- What STEER and BELL set of a batch id: the open batch with its slots, the next number, the fill and the last bell. -/
def BatchId.bellSide (x : BatchId) : Option (Nat × List Slot) × Nat × Nat × Option Nat :=
  (x.cur.map fun y => (y.num, y.slots), x.next, x.fill, x.lastBell)

/-- From `s` to `t` the trace and what STEER and BELL set of each batch id have not changed. -/
def SameBells (s t : State) : Prop :=
  t.score.batches.map BatchId.bellSide = s.score.batches.map BatchId.bellSide ∧ t.score.trace = s.score.trace

section
variable {s t u : State}

theorem SameBells.of_score (h : t.score = s.score) : SameBells s t := by
  rw [SameBells, h]
  exact ⟨rfl, rfl⟩

theorem SameBells.trans (h : SameBells s t) (k : SameBells t u) : SameBells s u := ⟨k.1.trans h.1, k.2.trans h.2⟩

theorem SameBells.ite {c : Prop} [Decidable c] (ht : SameBells s t) (hu : SameBells s u) : SameBells s (if c then t else u) := by
  split
  · exact ht
  · exact hu

theorem SameBells.foldl {α : Type} {f : State → α → State} (hf : ∀ s x, SameBells s (f s x)) (l : List α) (s : State) :
    SameBells s (l.foldl f s) := by
  induction l generalizing s with
  | nil => exact .of_score rfl
  | cons x l ih => exact (hf s x).trans (ih _)

/-- A batch id of `s` is one of `t` with the same bell side. -/
theorem SameBells.batch (h : SameBells s t) {b : Nat} {x : BatchId} (hx : s.score.batches[b]? = some x) :
    ∃ z, t.score.batches[b]? = some z ∧ z.bellSide = x.bellSide := by
  have same := congrArg (·[b]?) h.1
  simp only [List.getElem?_map, hx] at same
  exact Option.map_eq_some_iff.mp same

end

theorem updBatchId_sameBells {f : BatchId → BatchId} (hf : ∀ x, (f x).bellSide = x.bellSide) (b : Nat) (s : State) :
    SameBells s (updBatchId b f s) := by
  refine ⟨List.ext_getElem? fun i => ?_, rfl⟩
  show ((upd s.score.batches b f).map BatchId.bellSide)[i]? = _
  rw [List.getElem?_map, List.getElem?_map, upd, List.getElem?_modify]
  cases s.score.batches[i]? with
  | none => rfl
  | some x =>
    refine congrArg some ?_
    show BatchId.bellSide (if b = i then f x else x) = _
    split
    · exact hf x
    · rfl

/-- A change of an open batch that leaves its number and its slots alone. -/
theorem updBatch_sameBells {f : Batch → Batch} (hf : ∀ y, (f y).num = y.num ∧ (f y).slots = y.slots) (b n : Nat) (s : State) :
    SameBells s (updBatch b n f s) := by
  refine updBatchId_sameBells (fun x => ?_) b s
  have same (y : Batch) : ((if y.num = n then f y else y).num, (if y.num = n then f y else y).slots) = (y.num, y.slots) := by
    split
    · rw [(hf y).1, (hf y).2]
    · rfl
  have cur : (x.cur.map fun y => if y.num = n then f y else y).map (fun y => (y.num, y.slots)) = x.cur.map fun y => (y.num, y.slots) := by
    rw [Option.map_map]
    exact congrArg (Option.map · x.cur) (funext same)
  exact congrArg (·, x.next, x.fill, x.lastBell) cur

theorem tearDown_sameBells (b n st : Nat) (blame : Option Nat) (s : State) : SameBells s (tearDown b n st blame s) := by
  cases h : getBatch s b n with
  | none => exact .of_score (congrArg _ (tearDown_none h))
  | some y => cases torn : y.torn with
    | none => exact (updBatch_sameBells (fun _ => by exact ⟨rfl, rfl⟩) b n s).trans (.of_score (tearDown_score h torn))
    | some st' => exact .of_score (congrArg _ (tearDown_torn h (by rw [torn]; rfl)))

theorem jobFault_sameBells (k : Nat) (c : Option (Nat × Nat)) (st a : Nat) (blame : Option Nat) (s : State) :
    SameBells s (jobFault k c st a blame s) := by
  unfold jobFault
  extract_lets b t
  have ht : SameBells s t := .of_score (logErr_score ..)
  split
  · exact ht.trans (tearDown_sameBells ..)
  · exact ht

theorem addToken_sameBells (t v : Nat) (c : Option (Nat × Nat)) (s : State) : SameBells s (addToken t v c s) := by
  unfold addToken
  extract_lets x u
  have hu : SameBells s u := ⟨rfl, rfl⟩
  exact .ite hu (hu.trans (jobFault_sameBells ..))

theorem signal_sameBells (k : Nat) (o : IssuedOp) (s : State) : SameBells s (signal k o s) :=
  .ite (addToken_sameBells _ _ _ (signalWrites k (opStok o.word) s)) (.of_score rfl)

theorem endBatch_sameBells (b n : Nat) (s : State) : SameBells s (endBatch b n s) := by
  unfold endBatch
  split
  · exact .of_score rfl
  · extract_lets t
    have ht : SameBells s t := .of_score (foldl_score (fun s n => ite_score rfl (countFault_score ..)) _ s)
    exact ht.trans (updBatchId_sameBells (fun _ => by exact rfl) b t)

theorem finishBatch_sameBells (b n : Nat) (s : State) : SameBells s (finishBatch b n s) := by
  unfold finishBatch
  extract_lets -merge -underBinder +onlyGivenNames t u
  have ht : SameBells s t := by
    unfold t
    split
    · exact .of_score (foldl_score (fun _ _ => by rfl) _ s)
    · exact .of_score rfl
  have hu : SameBells t u := ⟨rfl, rfl⟩
  exact ((ht.trans hu).trans (.of_score (stampFrames_score b n 5 u))).trans (endBatch_sameBells ..)

theorem finishBatches_sameBells (s : State) : SameBells s (finishBatches s) :=
  SameBells.foldl (fun s x => by
    extract_lets written
    exact .ite (finishBatch_sameBells ..) (.of_score rfl)) _ s

theorem checkFill_sameBells (b n : Nat) (s : State) : SameBells s (checkFill b n s) := by
  unfold checkFill
  split
  · exact .of_score rfl
  · next y _ =>
    split
    · extract_lets t
      have ht : SameBells s t := .of_score (foldl_score (fun _ _ => by rfl) _ s)
      exact (ht.trans (updBatch_sameBells (fun _ => by exact ⟨rfl, rfl⟩) b n t)).trans (addToken_sameBells ..)
    · exact .of_score rfl

theorem launchFrame_score (n num : Nat) (s : State) : (launchFrame n num s).score = s.score := by
  unfold launchFrame
  split <;> rfl

/-! ### The start of an op (R40, R65, R66) -/

section
variable {k : Nat} {o : IssuedOp} {s : State}

theorem leaveQueue_sameBells (k : Nat) (o : IssuedOp) (s : State) : SameBells s (leaveQueue k o s) := by
  cases ctx : o.ctx with
  | none => exact ⟨congrArg _ (leaveQueue_outside ctx), by rw [leaveQueue_frame]⟩
  | some c =>
    rw [leaveQueue_batch ctx]
    exact SameBells.trans (t := updLane k _ s) ⟨rfl, rfl⟩ (updBatch_sameBells (fun _ => by exact ⟨rfl, rfl⟩) ..)

/-- What a gate takes is its token's. -/
theorem passGate_tokens (k : Nat) (w : BitVec 64) (s : State) : (passGate k w s).score = { s.score with
    tokens := (passGate k w s).score.tokens, cycles := (passGate k w s).score.cycles } := by
  rw [passGate_score]
  split <;> rfl

theorem beginOp_sameBells (k : Nat) (o : IssuedOp) (s : State) : SameBells s (beginOp k o s) := by
  refine ⟨(congrArg _ (beginOp_batches k o s)).trans (leaveQueue_sameBells k o s).1, ?_⟩
  rw [beginOp_eq, passGate_tokens]
  exact (leaveQueue_sameBells k o s).2

theorem beginOp_digests (k : Nat) (o : IssuedOp) (s : State) : (beginOp k o s).score.digests = s.score.digests := by
  rw [beginOp_eq, passGate_tokens, leaveQueue_frame]

/-- A batch of an id is the open one, or else a closed one. -/
theorem getBatch_eq {b : Nat} {x : BatchId} (hx : s.score.batches[b]? = some x) (n : Nat) :
    getBatch s b n = (x.cur.filter fun y => y.num == n).or (x.closed.find? fun y => y.num == n) := by
  unfold getBatch
  rw [hx]
  dsimp only
  cases x.cur.filter fun y => y.num == n <;> rfl

/-- A batch after a change of it. -/
theorem getBatch_updBatch {b n : Nat} {f : Batch → Batch} {y : Batch} (hf : ∀ y, (f y).num = y.num) (hy : getBatch s b n = some y) :
    getBatch (updBatch b n f s) b n = some (f y) := by
  cases hx : s.score.batches[b]? with
  | none => simp [getBatch, hx] at hy
  | some x =>
    have cur (l : Option Batch) : (l.map fun y => if y.num = n then f y else y).filter (fun y => y.num == n)
        = (l.filter fun y => y.num == n).map f := by
      cases l with
      | none => rfl
      | some y => by_cases e : y.num = n <;> simp [Option.filter, e, hf]
    have closed (l : List Batch) : (l.map fun y => if y.num = n then f y else y).find? (fun y => y.num == n)
        = (l.find? fun y => y.num == n).map f := by
      induction l with
      | nil => rfl
      | cons y l ih => by_cases e : y.num = n <;> simp [e, hf, ih]
    rw [getBatch_eq hx] at hy
    rw [getBatch_eq (getElem?_upd_self hx), cur, closed, ← Option.map_or, hy]
    rfl

/-- The frames of its batch an op finds at its start as they were. -/
theorem getBatch_beginOp {b n : Nat} {y : Batch} (ctx : o.ctx = some (b, n)) (hy : getBatch s b n = some y) :
    ∃ z, getBatch (beginOp k o s) b n = some z ∧ batchFrames z = batchFrames y := by
  have begun : getBatch (beginOp k o s) b n = getBatch (leaveQueue k o s) b n := by
    unfold getBatch
    rw [beginOp_batches]
  rw [begun, leaveQueue_batch ctx, getBatch_updBatch (by exact fun _ => rfl) (show getBatch (updLane k _ s) b n = some y from hy)]
  exact ⟨_, rfl, rfl⟩


end

/-! ### STEER, BELL and DIGEST -/

section
variable {b : Nat} {o : IssuedOp} {x : BatchId} {s : State}

theorem beginOp_streams (k : Nat) (o : IssuedOp) (s : State) : (beginOp k o s).streams = s.streams := by rw [beginOp_frame]

/-- An op of the sequencer's lanes does its work, completes and lets batches end. -/
theorem instantOp_runs {k opc : Nat} {work : IssuedOp → State → State} (lane : Instant k) (may : startable s k opc = some o)
    (whole : isTorn s o.ctx = false) (island : islandFenced s 39 = false) (sound : unitSafe s 39 24 = false) :
    instantOp k opc (fun _ => true) work s = .next (finishBatches (signal k o (updScore (fun c => { c with lastDone := nowNs s })
      (work o (beginOp k o s))))) := by
  unfold instantOp
  rw [taken_sequencer lane sound may rfl]
  dsimp only
  rw [island, whole, if_neg Bool.false_ne_true, if_neg Bool.false_ne_true]
  rfl

/-- What such an op's completion leaves of its work. -/
theorem completion_sameBells (k : Nat) (o : IssuedOp) (n : Nat) (s : State) :
    SameBells s (finishBatches (signal k o (updScore (fun c => { c with lastDone := n }) s))) :=
  (SameBells.trans (t := updScore (fun c => { c with lastDone := n }) s) ⟨rfl, rfl⟩ (signal_sameBells ..)).trans (finishBatches_sameBells _)

theorem openBatch_streams (n b : Nat) (s : State) : (openBatch n b s).streams = s.streams := by
  unfold openBatch
  split
  · rfl
  · split
    · rfl
    · exact (writePhys_upkeep (.refl _)).streams

/-- The open batch is steered once more (R255). -/
theorem openBatch_open {n : Nat} {z : Batch} (hx : s.score.batches[b]? = some x) (hz : x.cur = some z) :
    ((openBatch n b s).score.batches[b]?).bind (·.cur) = some { z with steered := setAdd n z.steered } := by
  have at_ : openBatch n b s = updBatch b z.num (fun y => { y with steered := setAdd n y.steered }) s := by
    unfold openBatch
    rw [hx]
    dsimp only
    rw [hz]
  rw [at_, updBatch, updBatchId_score, getElem?_upd_self hx]
  simp [hz]

/-- With no batch open the next one opens (R255). -/
theorem openBatch_fresh {n : Nat} (hx : s.score.batches[b]? = some x) (none : x.cur = none) :
    (openBatch n b s).score.batches[b]? =
      some { x with cur := some { freshBatch x.next with steered := [n] }, next := x.next + 1 } := by
  have at_ : (openBatch n b s).score.batches = upd s.score.batches b fun w =>
      { w with cur := some { freshBatch x.next with steered := [n] }, next := x.next + 1 } := by
    unfold openBatch
    rw [hx]
    dsimp only
    rw [none]
    exact congrArg Score.batches (writePhys_score ..)
  rw [at_, getElem?_upd_self hx]

/-- BELL closes the open batch, or an empty one of its own, and what follows leaves the batch id so (R71, R255, R256). -/
theorem ringBell_bellSide (hx : s.score.batches[b]? = some x) :
    let y := x.cur.getD (freshBatch x.next)
    ∃ z, (ringBell b o s).score.batches[b]? = some z ∧ z.bellSide = (none, y.num + 1, y.slots.length, some o.instant) := by
  intro y
  let belled (x : BatchId) : BatchId := { x with
    cur := none, next := y.num + 1, closed := x.closed ++ [{ y with bellAt := some o.instant }]
    fill := y.slots.length, lastBell := some o.instant }
  have rest : SameBells (updBatchId b belled s) (ringBell b o s) := by
    unfold ringBell
    rw [hx]
    dsimp only
    refine SameBells.trans ?_ (checkFill_sameBells ..)
    refine SameBells.trans ?_ (SameBells.foldl (fun _ _ => .of_score (launchFrame_score ..)) ..)
    exact .of_score (writePhys_score ..)
  exact rest.batch (getElem?_upd_self hx)

/-- What a batch id's bell side says of its fields. -/
theorem bellSide_closed {z : BatchId} {n f t : Nat} (h : z.bellSide = (none, n, f, some t)) :
    z.cur = none ∧ z.next = n ∧ z.fill = f ∧ z.lastBell = some t := by
  simp only [BatchId.bellSide, Prod.mk.injEq, Option.map_eq_none_iff] at h
  exact h

/-- The open batch of a batch id with the same bell side. -/
theorem bellSide_batch {z : BatchId} (h : z.bellSide = x.bellSide) :
    (z.cur.getD (freshBatch z.next)).num = (x.cur.getD (freshBatch x.next)).num
    ∧ (z.cur.getD (freshBatch z.next)).slots = (x.cur.getD (freshBatch x.next)).slots := by
  simp only [BatchId.bellSide, Prod.mk.injEq] at h
  obtain ⟨cur, next, -⟩ := h
  rw [next]
  cases hz : z.cur <;> cases hx : x.cur <;> simp_all

theorem exec_bell (may : startable s 0 4 = some o) (whole : isTorn s o.ctx = false) (island : islandFenced s 39 = false)
    (sound : unitSafe s 39 24 = false) (hx : s.score.batches[argHigh o.word]? = some x) :
    let y := x.cur.getD (freshBatch x.next)
    ∃ t z, exec .bell s = .next t ∧ t.score.batches[argHigh o.word]? = some z ∧ z.cur = none ∧ z.next = y.num + 1
      ∧ z.fill = y.slots.length ∧ z.lastBell = some o.instant := by
  obtain ⟨x', begun, side⟩ := (beginOp_sameBells 0 o s).batch hx
  obtain ⟨num, slots⟩ := bellSide_batch side
  obtain ⟨w, rung, belled⟩ := ringBell_bellSide (o := o) begun
  obtain ⟨z, ended, same⟩ := (completion_sameBells 0 o (nowNs s) (ringBell (argHigh o.word) o (beginOp 0 o s))).batch rung
  rw [num, slots] at belled
  exact ⟨_, z, instantOp_runs (.inl rfl) may whole island sound, ended, bellSide_closed (same.trans belled)⟩

theorem digestOf_digests {t : State} (h : t.score.digests = s.score.digests) : digestOf t = digestOf s := by
  unfold digestOf
  rw [h]

theorem exec_digest {n : Nat} {y : Batch} (may : startable s 55 0x3E = some o)
    (island : islandFenced s 39 = false) (sound : unitSafe s 39 24 = false) (ctx : o.ctx = some (b, n)) (hy : getBatch s b n = some y)
    (whole : y.torn = none) : ∃ t, exec .digest s = .next t ∧ t.score.trace = s.score.trace ++
      (batchFrames y).map fun f => .digest (argValue o.word) f.1 f.2 (digestOf s (argValue o.word) f.1 f.2) := by
  have torn : isTorn s o.ctx = false := by
    rw [ctx, isTorn, hy]
    exact Option.isSome_eq_false_iff.mpr (Option.isNone_iff_eq_none.mpr whole)
  obtain ⟨z, hz, frames⟩ := getBatch_beginOp (k := 55) ctx hy
  rw [show exec .digest s = execDigest s from rfl, execDigest, show traceLane = 55 from rfl]
  refine ⟨_, instantOp_runs (.inr (.inr rfl)) may torn island sound, (completion_sameBells ..).2.trans ?_⟩
  dsimp only
  rw [ctx]
  dsimp only
  rw [hz]
  dsimp only
  rw [updScore_score, frames, digestOf_digests (beginOp_digests ..), (beginOp_sameBells ..).2]

end

/-- Settles O26: STEER works on the open batch or on a fresh one, BELL's batch id keeps its bell side through the op's completion, and
DIGEST finds its batch's frames and digests as they were. -/
theorem batchesOpenAndClose : Obligations.BatchesOpenAndClose := by
  unfold Obligations.BatchesOpenAndClose
  refine ⟨fun n b o x s lt arg starts ctx hx => ?_, fun b o x s may whole island sound arg hx => ?_,
    fun b n o y s may _ island sound ctx hy whole => exec_digest may island sound ctx hy whole⟩
  · have lane : topiaryLane n = 49 + n := Nat.add_comm ..
    have runs : exec (.steer n) s = .next (occupy (49 + n) o [] true (openBatch n b (beginOp (49 + n) o s))) := by
      rw [← lane, arg]
      exact (inRange_pos (decide_eq_true lt) _ _).trans (startOp_runs (lane ▸ starts) rfl rfl)
    have begun : (beginOp (49 + n) o s).score.batches[b]? = some x := by rw [beginOp_batches, leaveQueue_outside ctx, hx]
    have streams : (openBatch n b (beginOp (49 + n) o s)).streams = s.streams := (openBatch_streams ..).trans (beginOp_streams ..)
    cases cur : x.cur with
    | some z =>
      refine ⟨_, _, runs, streams, openBatch_open begun cur, mem_setAdd_self n _, fun w hw => ?_, fun none => ?_⟩
      · cases hw
        exact ⟨rfl, rfl⟩
      · cases none
    | none =>
      have fresh := openBatch_fresh (n := n) begun cur
      exact ⟨_, _, runs, streams, by rw [fresh]; rfl, List.mem_singleton.mpr rfl, fun z hz => (Option.some_ne_none z hz.symm).elim,
        fun _ => ⟨rfl, by rw [fresh]; rfl⟩⟩
  · subst arg
    obtain ⟨t, z, runs, hz, cur, next, fill, bell⟩ := exec_bell may whole island sound hx
    refine ⟨t, z, runs, hz, cur, bell, fun y hy => ?_, fun none => ?_⟩
    · rw [next, fill, hy]
      exact ⟨rfl, rfl⟩
    · rw [next, fill, none]
      exact ⟨rfl, rfl⟩

end Sys2Proof.Machine
end

section
/-! AVIARY ops (R64, R152, R162, R168 to R174): how each of the five starts on its batch, and the matching of ASSOC (R170). -/

namespace Sys2Proof.Machine

/-! ### The start of an AVIARY op (R64, R162, R168, R169) -/

section
variable {i : Instr} {func : Nat} {ready : AvDesc → Batch → Bool} {pages : AvDesc → Batch → List Nat}
  {waits : AvDesc → Batch → List Wait} {work : AvDesc → IssuedOp → Batch → State → State} {o : IssuedOp} {y z : Batch} {s : State}

/-- An op of its function without a batch occupies the Aviary and does nothing else (R87; log 16). -/
theorem aviaryOp_batchless (row : exec i s = aviaryOp func ready pages waits work s) (h : Starts 53 0x30 o s)
    (fn : (avDesc s (argDesc o.word)).func = func) (without : avBatch s (avDesc s (argDesc o.word)) o = none)
    (begun : avBatch (beginOp 53 o s) (avDesc s (argDesc o.word)) o = none) :
    exec i s = .next (occupy 53 o [] true (beginOp 53 o s)) := by
  rw [row, aviaryOp]
  refine (startOp_runs h ?_ ?_).trans ?_
  · simp [fn, without]
  · dsimp only
    rw [without]
    rfl
  · dsimp only
    rw [begun]
    rfl

/-- On its batch it works with the pages that it touches pinned, once they are hot and its accesses have been answered; till then it asks for
them. -/
theorem aviaryOp_onBatch (row : exec i s = aviaryOp func ready pages waits work s) (h : Starts 53 0x30 o s)
    (fn : (avDesc s (argDesc o.word)).func = func) (hy : avBatch s (avDesc s (argDesc o.word)) o = some y)
    (hz : avBatch (beginOp 53 o s) (avDesc s (argDesc o.word)) o = some z) (rdy : ready (avDesc s (argDesc o.word)) y = true) :
    let d := avDesc s (argDesc o.word)
    let ws := (coldPages s (pages d y)).map Wait.page ++ waits d y
    (ws = [] → exec i s = .next (occupy 53 o (pages d y) true
      (writing 53 (fun u => pinPages (pages d y) (work d o z u)) (beginOp 53 o s))))
    ∧ (ws ≠ [] → exec i s = .next (ws.foldl (fun s w => awaitFor w s) s)) := by
  intro d ws
  have fits : ((avDesc s (argDesc o.word)).func == func && (isTorn s o.ctx || ready (avDesc s (argDesc o.word)) y)) = true := by
    rw [fn, rdy, beq_self_eq_true, Bool.or_true, Bool.and_self]
  refine ⟨fun now => ?_, fun later => ?_⟩
  · rw [row, aviaryOp]
    refine (startOp_runs h ?_ ?_).trans ?_
    · dsimp only
      rw [hy]
      exact fits
    · dsimp only
      rw [hy]
      exact now
    · dsimp only
      rw [hz, hy]
      rfl
  · obtain ⟨w, l, e⟩ := List.exists_cons_of_ne_nil later
    rw [row, aviaryOp, e]
    refine startOp_waits h ?_ ?_
    · dsimp only
      rw [hy]
      exact fits
    · dsimp only
      rw [hy]
      exact e

/-- The cells to which ALIST will write its list (R168). -/
def alistCells (s : State) (d : AvDesc) (y : Batch) : List Cell :=
  cellsAt d.dst (List.replicate (4 * (alistPages s d y).length) 0) false

theorem exec_alist (s : State) : exec .alist s = aviaryOp 5 (fun _ _ => true) (fun d y => cellPages s (alistCells s d y))
    (fun d y => writeWait s d.dst (alistCells s d y)) alistWork s := rfl

end

/-! ### The matching of ASSOC (R170) -/

section
variable {c : Int} {d t : Nat} {l : List (Int × Nat × Nat)} {m : List (Nat × Nat)}

/-- A pair one end of which is matched is passed over. -/
theorem greedy_taken (h : d ∈ m.map (·.1) ∨ t ∈ m.map (·.2)) :
    greedy ((c, t, d) :: l) m (m.map Prod.swap) = greedy l m (m.map Prod.swap) := by
  refine if_pos ?_
  simpa using h

/-- A pair both ends of which are free is matched. -/
theorem greedy_free (h : ¬ (d ∈ m.map (·.1) ∨ t ∈ m.map (·.2))) :
    greedy ((c, t, d) :: l) m (m.map Prod.swap) = greedy l (m ++ [(d, t)]) ((m ++ [(d, t)]).map Prod.swap) := by
  rw [List.map_append]
  refine if_neg ?_
  simpa using h

/-- What the matching makes of the pairs `l` and the matches `m` made before. -/
structure Matches (l : List (Int × Nat × Nat)) (m r : List (Nat × Nat)) : Prop where
  kept : m ⊆ r
  dets : (r.map (·.1)).Nodup
  tracks : (r.map (·.2)).Nodup
  given : ∀ p ∈ r, p ∈ m ∨ ∃ c ∈ l, p = (c.2.2, c.2.1)
  covers : ∀ c ∈ l, c.2.2 ∈ r.map (·.1) ∨ c.2.1 ∈ r.map (·.2)

theorem greedy_matches (l : List (Int × Nat × Nat)) (m : List (Nat × Nat)) (dets : (m.map (·.1)).Nodup) (tracks : (m.map (·.2)).Nodup) :
    Matches l m (greedy l m (m.map Prod.swap)) := by
  induction l generalizing m with
  | nil => exact ⟨fun _ h => h, dets, tracks, fun _ h => .inl h, fun _ h => (List.not_mem_nil h).elim⟩
  | cons p l ih =>
    obtain ⟨c, t, d⟩ := p
    by_cases h : d ∈ m.map (·.1) ∨ t ∈ m.map (·.2)
    · rw [greedy_taken h]
      have rest := ih m dets tracks
      refine ⟨rest.kept, rest.dets, rest.tracks, fun p hp => ?_, fun q hq => ?_⟩
      · exact (rest.given p hp).imp_right fun ⟨c, hc, e⟩ => ⟨c, List.mem_cons_of_mem _ hc, e⟩
      · rcases List.mem_cons.mp hq with rfl | hq
        · exact h.imp (List.map_subset _ rest.kept ·) (List.map_subset _ rest.kept ·)
        · exact rest.covers q hq
    · rw [greedy_free h]
      rw [not_or] at h
      have grows (f : Nat × Nat → Nat) (some : (m.map f).Nodup) (new : f (d, t) ∉ m.map f) : ((m ++ [(d, t)]).map f).Nodup := by
        rw [List.map_append]
        exact List.concat_eq_append ▸ some.concat new
      have rest := ih (m ++ [(d, t)]) (grows _ dets h.1) (grows _ tracks h.2)
      have here : (d, t) ∈ greedy l (m ++ [(d, t)]) ((m ++ [(d, t)]).map Prod.swap) :=
        rest.kept (List.mem_append_right _ (List.mem_singleton_self _))
      refine ⟨fun p hp => rest.kept (List.mem_append_left _ hp), rest.dets, rest.tracks, fun p hp => ?_, fun q hq => ?_⟩
      · rcases rest.given p hp with hp | ⟨c, hc, e⟩
        · rcases List.mem_append.mp hp with hp | hp
          · exact .inl hp
          · exact .inr ⟨_, List.mem_cons_self .., List.mem_singleton.mp hp⟩
        · exact .inr ⟨c, List.mem_cons_of_mem _ hc, e⟩
      · rcases List.mem_cons.mp hq with rfl | hq
        · exact .inl (List.mem_map_of_mem (f := (·.1)) here)
        · exact rest.covers q hq

/-- The costs within the gate, in the order in which the matching takes them. -/
theorem matchCosts_matches {gate : Int} {costs : List (Int × Nat × Nat)} (pos : 0 ≤ gate) : ∃ l : List (Int × Nat × Nat),
    l.Perm (costs.filter fun c => decide (c.1 ≤ gate)) ∧ Matches l [] (matchCosts gate costs) := by
  rw [matchCosts, if_neg (not_lt.mpr pos)]
  exact ⟨_, sortBy_perm _ _, greedy_matches _ [] List.nodup_nil List.nodup_nil⟩

end

/-- Settles O31: each op is the common start of the five with its own pages, waits and work, and the matching takes the pairs within the gate
in order of cost. -/
theorem aviaryOpsWorkOnTheirBatch : Obligations.AviaryOpsWorkOnTheirBatch := by
  unfold Obligations.AviaryOpsWorkOnTheirBatch
  refine ⟨?_, ?_⟩
  · intro o s starts d t
    refine ⟨fun hy hz x row fn => ?_, ?_⟩
    · simp only [List.mem_cons, List.not_mem_nil, or_false] at row
      rcases row with rfl | rfl | rfl | rfl | rfl
      · exact aviaryOp_batchless (show exec .gather s = execGather s from rfl) starts fn hy hz
      · exact aviaryOp_batchless (show exec .assoc s = execAssoc s from rfl) starts fn hy hz
      · exact aviaryOp_batchless (show exec .update s = execUpdate s from rfl) starts fn hy hz
      · exact aviaryOp_batchless (show exec .append s = execAppend s from rfl) starts fn hy hz
      · exact aviaryOp_batchless (exec_alist s) starts fn hy hz
    · intro y z hy hz run of on
      refine ⟨fun fn ready => ?_, fun fn => ?_, fun fn => ?_, fun fn => ?_, fun fn => ?_⟩
      · exact (aviaryOp_onBatch (show exec .gather s = execGather s from rfl) starts fn hy hz (List.all_eq_true.mpr ready) :)
      · exact (aviaryOp_onBatch (show exec .assoc s = execAssoc s from rfl) starts fn hy hz rfl :)
      · exact (aviaryOp_onBatch (show exec .update s = execUpdate s from rfl) starts fn hy hz rfl :)
      · exact (aviaryOp_onBatch (show exec .append s = execAppend s from rfl) starts fn hy hz rfl :)
      · exact (aviaryOp_onBatch (exec_alist s) starts fn hy hz rfl :)
  · intro gate costs m
    have below (neg : gate < 0) : m = [] := if_pos neg
    rcases lt_or_ge gate 0 with neg | pos
    · refine ⟨below, ?_, ?_, ?_, fun pos => (not_lt.mpr pos neg).elim⟩ <;> rw [below neg]
      · exact List.nodup_nil
      · exact List.nodup_nil
      · exact fun _ h => (List.not_mem_nil h).elim
    · obtain ⟨l, perm, matched⟩ := matchCosts_matches (costs := costs) pos
      refine ⟨below, matched.dets, matched.tracks, fun p hp => ?_, fun _ c hc within => ?_⟩
      · obtain ⟨c, hc, e⟩ := (matched.given p hp).resolve_left List.not_mem_nil
        obtain ⟨given, within⟩ := List.mem_filter.mp (perm.subset hc)
        exact ⟨c, given, of_decide_eq_true within, e⟩
      · exact matched.covers c (perm.symm.subset (List.mem_filter.mpr ⟨hc, decide_eq_true within⟩))

end Sys2Proof.Machine
end

section
/-! The first report that a source captures (R365): logging keeps what a source has captured, and captures the report of a source that has not. -/

namespace Sys2Proof.Machine

section
variable {i u : Nat} {x : ErrorSource} {r : Report} {s : State}

/-- Putting an element that is not sought in the place of one that is not sought changes nothing of a search. -/
theorem find?_set_unsought {α : Type} {p : α → Bool} {a : α} (new : p a = false) : ∀ {l : List α} {k : Nat},
    (∀ b, l[k]? = some b → p b = false) → (l.set k a).find? p = l.find? p
  | [], _, _ => rfl
  | b :: l, 0, old => by
    have hb := old b rfl
    simp [new, hb]
  | b :: l, k + 1, old => by
    have rest := find?_set_unsought new (l := l) (k := k) old
    simp [List.find?_cons, rest]

/-- A source's registers are those listed under its island and unit, or a fresh source's. -/
theorem getSource_eq_find (i u : Nat) (s : State) :
    getSource i u s = (s.err.sources.find? fun y => y.island == i && y.unit == u).getD (freshSource i u) := by
  unfold getSource sourceAt posOf
  generalize s.err.sources = l
  cases h : l.findIdx? fun y => y.island == i && y.unit == u with
  | none =>
    rw [List.find?_eq_none.mpr fun y hy => Bool.eq_false_iff.mp (List.findIdx?_eq_none_iff.mp h y hy)]
    rfl
  | some n =>
    obtain ⟨lt, found, first⟩ := List.findIdx?_eq_some_iff_getElem.mp h
    have e : (l.find? fun y => y.island == i && y.unit == u) = some l[n] :=
      List.find?_eq_some_iff_getElem.mpr ⟨found, n, lt, rfl, fun j hj => (Bool.not_eq_true' _).mpr (Bool.eq_false_iff.mpr (first j hj))⟩
    rw [e]
    exact List.getD_eq_getElem ..

/-- Storing a source's registers leaves those of another. -/
theorem getSource_putSource_other (ne : (x.island == i && x.unit == u) = false) (s : State) : getSource i u (putSource x s) = getSource i u s := by
  rw [getSource_eq_find, getSource_eq_find]
  congr 1
  unfold putSource
  simp only [updErr]
  cases h : sourceAt x.island x.unit s.err.sources with
  | none => simp [List.find?_append, ne]
  | some n =>
    dsimp only
    refine find?_set_unsought (p := fun y : ErrorSource => y.island == i && y.unit == u) ne fun y hy => ?_
    obtain ⟨lt, found, -⟩ := List.findIdx?_eq_some_iff_getElem.mp h
    obtain ⟨-, rfl⟩ := List.getElem?_eq_some_iff.mp hy
    obtain ⟨island, unit⟩ : s.err.sources[n].island = x.island ∧ s.err.sources[n].unit = x.unit := by simpa using found
    rw [island, unit, ne]

/-- Storing a source's registers with its own captured report captures nothing new. -/
theorem putSource_captured (h : x.captured = (getSource x.island x.unit s).captured) (i u : Nat) :
    (getSource i u (putSource x s)).captured = (getSource i u s).captured := by
  cases e : x.island == i && x.unit == u with
  | false => rw [getSource_putSource_other e]
  | true =>
    obtain ⟨rfl, rfl⟩ : x.island = i ∧ x.unit = u := by simpa using e
    rw [getSource_putSource, h]

theorem getSource_of_sources {t : State} (h : t.err.sources = s.err.sources) (i u : Nat) : getSource i u t = getSource i u s := by
  rw [getSource, getSource, h]

theorem setErrStat_sources (m : BitVec 3) (s : State) : (setErrStat m s).err.sources = s.err.sources := by rw [setErrStat_frame]

theorem pushEntry_sources (bs : List Byte) (s : State) : (pushEntry bs s).err.sources = s.err.sources := by
  rw [pushEntry, setErrStat_sources]

theorem pushOverflow_sources (s : State) : (pushOverflow s).err.sources = s.err.sources := by
  unfold pushOverflow
  split
  · rfl
  · exact pushEntry_sources ..

theorem writeEntry_captured (r : Report) (n i u : Nat) (s : State) :
    (getSource i u (writeEntry r n s)).captured = (getSource i u s).captured := by
  unfold writeEntry
  extract_lets -merge -underBinder +onlyGivenNames t
  have ht (i u : Nat) : getSource i u t = getSource i u s := getSource_of_sources (pushOverflow_sources s) i u
  rw [← ht]
  split
  · extract_lets y v
    obtain ⟨island, unit⟩ := getSource_key r.island r.unit t
    have hv : (getSource i u v).captured = (getSource i u t).captured := putSource_captured (by
      show y.captured = (getSource y.island y.unit t).captured
      rw [island, unit]) i u
    rw [getSource_of_sources (setErrStat_sources ..)]
    exact hv
  · rw [getSource_of_sources (pushEntry_sources ..)]

theorem flushSource_captured (x : ErrorSource) (i u : Nat) (s : State) :
    (getSource i u (flushSource x s)).captured = (getSource i u s).captured := by
  unfold flushSource
  split
  · split
    · exact writeEntry_captured ..
    · rfl
  · rfl

theorem dueFlush_captured (i u : Nat) (s : State) : (getSource i u (dueFlush i u s)).captured = (getSource i u s).captured := by
  unfold dueFlush
  extract_lets y
  split
  · split
    · obtain ⟨island, unit⟩ := getSource_key i u s
      refine (flushSource_captured ..).trans (putSource_captured ?_ i u)
      show y.captured = (getSource y.island y.unit s).captured
      rw [island, unit]
    · rfl
  · rfl

/-- A source that has captured no report captures this one. -/
theorem report_captures (h : (getSource r.island r.unit s).captured = none) :
    (getSource r.island r.unit (report r s)).captured = some r := by
  unfold report
  extract_lets -merge -underBinder +onlyGivenNames u x y t o v
  have hx : x.captured = none := (dueFlush_captured ..).trans h
  have hy : y.captured = some r := by
    show x.captured.or (some r) = some r
    rw [hx]
    rfl
  obtain ⟨island, unit⟩ : x.island = r.island ∧ x.unit = r.unit := getSource_key ..
  have stored (z : ErrorSource) (w : State) (hz : z.island = x.island ∧ z.unit = x.unit ∧ z.captured = y.captured) :
      (getSource r.island r.unit (putSource z w)).captured = some r := by
    obtain ⟨zi, zu, zc⟩ := hz
    rw [← island, ← unit, ← zi, ← zu, getSource_putSource, zc, hy]
  split
  · refine stored _ _ ?_
    split <;> exact ⟨rfl, rfl, rfl⟩
  · rw [writeEntry_captured, flushSource_captured]
    exact stored _ _ ⟨rfl, rfl, rfl⟩

theorem logErr_captures {st : Nat} {a : LogArgs} (h : (getSource i u s).captured = none) :
    ((getSource i u (logErr st i u s a)).captured).map (·.status) = some st :=
  congrArg (Option.map (·.status)) (report_captures (r :=
    { stamp := nowNs s, status := st, island := i, unit := u, stream := a.stream, arg0 := a.arg0, arg1 := a.arg1, torn := a.torn
      poison := a.poison }) h)

end

end Sys2Proof.Machine
end

section
/-! FW_UPDATE (R349, R414, R481 to R488): how its sub-operations run, what STAGE, COMMIT and the ledger's own leave, the switch with its halt,
and the takeover or the reversion. -/

namespace Sys2Proof.Machine

/-! ### A sub-operation in its turn (R414, R486) -/

section
variable {i : Instr} {q cid sub minPlen : Nat} {block : Bool} {work : HostCmd → State → State} {c : HostCmd} {s : State}

/-- The row of a sub-operation refuses while a load or another one is in progress, and else does its work. -/
theorem runUpdate_accepted (row : exec i s = runUpdate q cid sub block minPlen work s)
    (known : hostRow i = some (q, cid, { bareRow 0x70 sub with block := block, minPlen := minPlen })) (h : Accepts i c s) :
    exec i s = .next (if updateBusy (startCmd c s) c then endCmd c 0x0805 (startCmd c s) else work c (startCmd c s)) := by
  obtain ⟨taken, ok⟩ := h.of known
  rw [row]
  exact runCommand_accepted taken ok

theorem runUpdate_busy (row : exec i s = runUpdate q cid sub block minPlen work s)
    (known : hostRow i = some (q, cid, { bareRow 0x70 sub with block := block, minPlen := minPlen })) (h : Accepts i c s)
    (busy : updateBusy (startCmd c s) c = true) : exec i s = .next (endCmd c 0x0805 (startCmd c s)) := by
  rw [runUpdate_accepted row known h, if_pos busy]

theorem runUpdate_free (row : exec i s = runUpdate q cid sub block minPlen work s)
    (known : hostRow i = some (q, cid, { bareRow 0x70 sub with block := block, minPlen := minPlen })) (h : Accepts i c s)
    (free : updateBusy (startCmd c s) c = false) : exec i s = .next (work c (startCmd c s)) := by
  rw [runUpdate_accepted row known h, free, if_neg Bool.false_ne_true]

end

/-- The sub-operations of FW_UPDATE. -/
theorem updateOp_busy {i : Instr} {q cid : Nat} {c : HostCmd} {s : State} (h : Accepts i c s)
    (op : i ∈ [.stage q cid, .switch q cid, .commit q cid, .ledgerClear q cid, .ledgerSizes q cid])
    (busy : updateBusy (startCmd c s) c = true) : exec i s = .next (endCmd c 0x0805 (startCmd c s)) := by
  simp only [List.mem_cons, List.not_mem_nil, or_false] at op
  rcases op with rfl | rfl | rfl | rfl | rfl
  · exact runUpdate_busy (show exec (.stage q cid) s = execStage q cid s from rfl) rfl h busy
  · exact runUpdate_busy (show exec (.switch q cid) s = execSwitch q cid s from rfl) rfl h busy
  · exact runUpdate_busy (show exec (.commit q cid) s = execCommit q cid s from rfl) rfl h busy
  · exact runUpdate_busy (show exec (.ledgerClear q cid) s = execLedgerClear q cid s from rfl) rfl h busy
  · exact runUpdate_busy (show exec (.ledgerSizes q cid) s = execLedgerSizes q cid s from rfl) rfl h busy

/-! ### The ledger is saved (R478) -/

theorem saveLedger_ledger (s : State) : (saveLedger s).power.ledger = { s.power.ledger with gen := s.power.ledger.gen + 1 } := by
  rw [saveLedger, flashWrite_power]
  show (writeCopy s.power).ledger = _
  unfold writeCopy
  extract_lets l older
  split <;> rfl

/-- What a saved ledger leaves of power. -/
theorem saveLedger_keeps (s : State) : (saveLedger s).power.update = s.power.update ∧ (saveLedger s).power.version = s.power.version
    ∧ (saveLedger s).power.rollback = s.power.rollback ∧ (saveLedger s).pools = s.pools := by
  rw [saveLedger_memFrame s]
  exact ⟨rfl, rfl, rfl, rfl⟩

/-! ### STAGE (R483, R486) -/

section
variable {q cid off : Nat} {bs : List Byte} {c : HostCmd} {x : FlashSlot} {s t : State}

/-- A chunk changes the slots, and the flash hears of it unless EXTEST has its pins. -/
theorem putChunk_frame (off : Nat) (bs : List Byte) (s : State) : putChunk off bs s = { s with
    out := (putChunk off bs s).out, power := { s.power with slots := (putChunk off bs s).power.slots } } := by
  unfold putChunk
  split
  · rfl
  · extract_lets i old
    unfold flashWrite emitPin
    split <;> rfl

/-- The state in which a chunk has been put and counted. -/
def chunkStaged (off n : Nat) (bs : List Byte) (s : State) : State :=
  updUpdate (fun u => { u with staged := off + n, verified := false, trial := false }) (putChunk off bs s)

/-- What a staged chunk leaves: the ledger, the running version, what is valid and what the sources have captured. -/
structure ChunkKeeps (s t : State) : Prop where
  version : t.power.version = s.power.version
  ledger : t.power.ledger = s.power.ledger
  valid : imageValid t = imageValid s
  source : getSource 1 0 t = getSource 1 0 s
  unverified : t.power.update.verified = false

theorem chunkStaged_keeps (off n : Nat) (bs : List Byte) (s : State) : ChunkKeeps s (chunkStaged off n bs s) := by
  unfold chunkStaged
  rw [putChunk_frame]
  exact ⟨rfl, rfl, rfl, rfl, rfl⟩

theorem exec_stage (h : Accepts (.stage q cid) c s) (free : updateBusy (startCmd c s) c = false) :
    let t := startCmd c s
    let off := arg c 8 8
    let u := chunkStaged off c.plen (paramBlock t c) t
    exec (.stage q cid) s = .next (
      if off ≠ 0 ∧ off ≠ s.power.update.staged then endCmd c 0x0805 t
      else if 0x1000000 < off + c.plen then endCmd c 0x0002 t
      else if arg c 1 1 = 1 then verifySlot c u else okUpdate c u) :=
  runUpdate_free (show exec (.stage q cid) s = execStage q cid s from rfl) rfl h free

/-- The final chunk of a valid image: it is verified, and the ledger notes its version. -/
theorem verifySlot_valid (hx : s.power.slots.getD (inactiveSlot s) none = some x) (valid : imageValid s x.bytes = true) :
    ∃ v, verifySlot c s = okCmd c s.power.version v ∧ v.power.update.verified = true
      ∧ v.power.ledger.slotVersions = s.power.ledger.slotVersions.set (inactiveSlot s) (field x.bytes 4 4) := by
  unfold verifySlot
  extract_lets i b t w
  have hb : b = x.bytes := by
    unfold b i
    rw [hx]
  rw [show imageValid t b = true from hb ▸ valid, if_pos rfl]
  obtain ⟨update, version, -⟩ := saveLedger_keeps (updUpdate (fun u => { u with verified := true }) w)
  refine ⟨saveLedger (updUpdate (fun u => { u with verified := true }) w), ?_, ?_, ?_⟩
  · rw [okUpdate, version]
    rfl
  · rw [update]
    rfl
  · rw [saveLedger_ledger, ← hb]
    rfl

theorem verifySlot_invalid (hx : s.power.slots.getD (inactiveSlot s) none = some x) (invalid : imageValid s x.bytes = false)
    (unverified : s.power.update.verified = false) :
    ∃ v, verifySlot c s = endCmd c 0x0804 v ∧ v.power.update.verified = false
      ∧ ((getSource 1 0 s).captured = none → ((getSource 1 0 v).captured).map (·.status) = some 0x0804) := by
  unfold verifySlot
  extract_lets i b t w
  have hb : b = x.bytes := by
    unfold b i
    rw [hx]
  rw [show imageValid t b = false from hb ▸ invalid, if_neg Bool.false_ne_true]
  refine ⟨logErr 0x0804 1 0 t { arg0 := i }, rfl, ?_, fun none => logErr_captures none⟩
  rw [(logErr_frame ..).power]
  exact unverified

end

/-! ### SWITCH (R486, R487) -/

section
variable {q cid : Nat} {c : HostCmd} {s : State}

/-- The state in which a switch has begun and waits for the commands in progress. -/
def switchBegun (c : HostCmd) (s : State) : State :=
  updUpdate (fun u => { u with switching := some (1, c.q, c.cid, inactiveSlot s) }) (startCmd c s)

theorem exec_switch (h : Accepts (.switch q cid) c s) (free : updateBusy (startCmd c s) c = false) : exec (.switch q cid) s = .next (
    if !s.power.update.verified then endCmd c 0x0805 (startCmd c s) else switchHalt (switchBegun c s)) :=
  runUpdate_free (show exec (.switch q cid) s = execSwitch q cid s from rfl) rfl h free

/-- A command that a switch waits for (R487). -/
def holdsSwitch (s : State) (x : HostCmd) : Bool :=
  x.opc != 0x40 && !(x.opc == 0x70 && subCode x == 2 && x.started) && !resetCarried s x

theorem switchWaits_eq (s : State) : switchWaits s = s.mbx.cmds.any (holdsSwitch s) := rfl

/-- A command that has started holds a switch up by its opcode and its reset alone. -/
theorem holdsSwitch_started (c x : HostCmd) (s : State) : holdsSwitch (switchBegun c s) { x with started := true }
    = (x.opc != 0x40 && !(x.opc == 0x70 && subCode x == 2) && !resetCarried s x) := by
  show (x.opc != 0x40 && !(x.opc == 0x70 && subCode x == 2 && true) && !resetCarried s x) = _
  rw [Bool.and_true]

/-- Any other command than a clip's, an update's and a reset that is carried over holds the switch up. -/
theorem switchWaits_begun (h : ∃ x ∈ s.mbx.cmds, x.opc ≠ 0x40 ∧ x.opc ≠ 0x70 ∧ resetCarried s x = false) :
    switchWaits (switchBegun c s) = true := by
  obtain ⟨x, hx, clip, update, carried⟩ := h
  refine List.any_eq_true.mpr ⟨_, List.mem_map_of_mem hx, ?_⟩
  show holdsSwitch (switchBegun c s) _ = true
  split
  · rw [holdsSwitch_started]
    simp [clip, update, carried]
  · show holdsSwitch s x = true
    simp [holdsSwitch, clip, update, carried]

/-- The switch's own command, which has started, and clips do not. -/
theorem switchGoes_begun (opc : c.opc = 0x70) (sub : subCode c = 2) (h : ∀ x ∈ s.mbx.cmds, x ≠ c → x.opc = 0x40) :
    switchWaits (switchBegun c s) = false := by
  refine List.any_eq_false.mpr fun y hy => Bool.eq_false_iff.mp ?_
  obtain ⟨x, hx, rfl⟩ := List.mem_map.mp hy
  show holdsSwitch (switchBegun c s) _ = false
  by_cases own : x = c
  · subst own
    rw [if_pos ⟨rfl, rfl, rfl⟩, holdsSwitch_started]
    simp [opc, sub]
  · have clip := h x hx own
    split <;> simp [holdsSwitch, clip]

/-- Once nothing holds it up a switch asks the score to halt (R487). -/
theorem switchHalt_begun (opc : c.opc = 0x70) (sub : subCode c = 2) (h : ∀ x ∈ s.mbx.cmds, x ≠ c → x.opc = 0x40) :
    (switchHalt (switchBegun c s)).power.update.switching = some (2, c.q, c.cid, inactiveSlot s)
    ∧ (switchHalt (switchBegun c s)).score = { s.score with haltReq := s.score.running || s.score.armed || s.score.watchdogHalt } := by
  rw [switchHalt, switchGoes_begun opc sub h, if_neg Bool.false_ne_true]
  exact ⟨rfl, rfl⟩

end

/-! ### COMMIT, LEDGER_CLEAR and LEDGER_SIZES (R481, R486) -/

section
variable {q cid : Nat} {c : HostCmd} {s : State}

/-- ROLLBACK of the running image (R486). -/
def runningRollback (s : State) : Nat :=
  match s.power.slots.getD s.power.runSlot none with
  | some x => field x.bytes 0x08 1
  | none => 0

/-- The trial is over and the fuses are blown up to the running image's ROLLBACK; its slot is active, and the ledger is to be saved. -/
def committed (s : State) : State :=
  updLedger (fun l => { l with activeSlot := s.power.runSlot, unfence := true })
    (updPower (fun p => { p with rollback := max p.rollback (runningRollback s), update := { p.update with trial := false } }) s)

theorem exec_commit (h : Accepts (.commit q cid) c s) (free : updateBusy (startCmd c s) c = false) : exec (.commit q cid) s = .next (
    if !s.power.update.trial then endCmd c 0x0805 (startCmd c s) else okUpdate c (saveLedger (committed (startCmd c s)))) :=
  runUpdate_free (show exec (.commit q cid) s = execCommit q cid s from rfl) rfl h free

/-- The step records as LEDGER_CLEAR leaves them: every step by its normal method. -/
def clearStep (r : StepRecord) : StepRecord := { r with outcome := if r.outcome = 2 then 2 else 0, method := 0, goodRuns := 0 }

def stepsCleared (s : State) : State := updLedger (fun l => { l with steps := l.steps.map clearStep, unfence := true }) s

theorem exec_ledgerClear (h : Accepts (.ledgerClear q cid) c s) (free : updateBusy (startCmd c s) c = false) :
    exec (.ledgerClear q cid) s = .next (okUpdate c (saveLedger (stepsCleared (startCmd c s)))) :=
  runUpdate_free (show exec (.ledgerClear q cid) s = execLedgerClear q cid s from rfl) rfl h free

theorem exec_ledgerSizes (h : Accepts (.ledgerSizes q cid) c s) (free : updateBusy (startCmd c s) c = false) :
    let t := startCmd c s
    let z := sizesOf (paramBlock t c)
    exec (.ledgerSizes q cid) s = .next (
      if !sizesOk z then endCmd c 0x0002 t else okUpdate c (saveLedger (updLedger (fun l => { l with nextSizes := some z }) t))) :=
  runUpdate_free (show exec (.ledgerSizes q cid) s = execLedgerSizes q cid s from rfl) rfl h free

/-- A sub-operation that has saved the ledger ends with the running version. -/
theorem okUpdate_saved (c : HostCmd) (s : State) : okUpdate c (saveLedger s) = okCmd c s.power.version (saveLedger s) := by
  rw [okUpdate, (saveLedger_keeps s).2.1]

end

/-! ### SCORE_HALTED during a switch (R74, R487) -/

section
variable {q cid slot : Nat} {s : State}

/-- The Fountains stand at their next picture boundary. -/
def fountainsPaused (s : State) : State := { s with fountains := s.fountains.map fun u => { u with paused := true } }

theorem switchReady_paused (n : Nat) (s : State) : switchReady (setSwitchStep n (fountainsPaused s)) = switchReady s := by
  show ((s.fountains.map fun u => { u with paused := true }).all (fun u => u.busy.isNone) && _ && _) = _
  rw [List.all_map]
  rfl

/-- What SCORE_HALTED does in each step of a switch (R487). -/
def switchStep (k : Nat) (s : State) : State :=
  match k with
  | 1 => switchHalt s
  | 2 => switchOn s
  | 3 => if switchReady s then switchStart s else s
  | _ => s

theorem exec_scoreHalted_switch {k : Nat} (runs : quinbuarRuns s = true) (island : islandFenced s 1 = false) (load : s.load = none)
    (step : s.power.update.switching = some (k, q, cid, slot)) : exec .scoreHalted s = .next (switchStep k s) := by
  show execScoreHalted s = _
  unfold execScoreHalted
  rw [runs, island, load, step]
  rcases k with _ | _ | _ | _ | k <;> rfl

theorem switchOn_halted (halted : scoreHalted s = true) (flown : flightOver s = true) : switchOn s =
    if switchReady s then switchStart (setSwitchStep 3 (fountainsPaused s)) else setSwitchStep 3 (fountainsPaused s) := by
  rw [← switchReady_paused 3, switchOn, halted, flown, if_neg (by decide)]
  rfl

theorem switchOn_waits (h : scoreHalted s = false ∨ flightOver s = false) : switchOn s = s := by
  rw [switchOn, if_pos]
  rcases h with h | h <;> rw [h]
  · rfl
  · exact Bool.or_true _

end

/-! ### The staged image starts (R349, R487, R495) -/

section
variable {q cid slot : Nat} {s : State}

theorem switchStart_upkeep (s : State) : ∃ w, Upkeep s w
    ∧ switchStart s = setSwitchStep 4 (updUpdate (fun u => { u with startedAt := steadyNs s }) (breakLocks 1 w)) := by
  have told : Upkeep s (sendPeerState true s) := sendPeerState_upkeep (.refl s)
  refine ⟨_, told, ?_⟩
  have now : steadyNs (breakLocks 1 (sendPeerState true s)) = steadyNs s := by
    show (sendPeerState true s).band.steady = _
    rw [told]
    rfl
  rw [switchStart, now]

theorem switchStart_startedAt (s : State) : (switchStart s).power.update.startedAt = steadyNs s := by
  obtain ⟨w, -, e⟩ := switchStart_upkeep s
  rw [e]
  rfl

theorem switchStart_step (step : s.power.update.switching = some (3, q, cid, slot)) :
    (switchStart s).power.update.switching = some (4, q, cid, slot) := by
  obtain ⟨w, told, e⟩ := switchStart_upkeep s
  have same : w.power.update.switching = s.power.update.switching := by rw [told]
  rw [e]
  show w.power.update.switching.map _ = _
  rw [same, step]
  rfl

theorem switchStart_locks {n : Nat} {x : Lock} (hx : s.locks[n]? = some x) (held : x.held = true) (own : ownerIsland x.owner = 1) :
    (switchStart s).locks[n]? = some brokenLock := by
  obtain ⟨w, told, e⟩ := switchStart_upkeep s
  have same : w.locks = s.locks := by rw [told]
  rw [e]
  show (w.locks.map _)[n]? = _
  rw [List.getElem?_map, same, hx]
  simp [held, own]

end

/-! ### UPDATE_RESUME and UPDATE_REVERT (R487, R488) -/

section
variable {q cid slot : Nat} {s : State}

/-- The staged image has taken over as a trial. -/
def onTrial (slot : Nat) (s : State) : State :=
  updPower (fun p => { p with
    version := slotVersion s slot, runSlot := slot, update := { p.update with prevVersion := p.version, trial := true, verified := false } }) s

/-- The switch's command ends with 0x0806, where a session still has it. -/
def reverted (q cid : Nat) (s : State) : State :=
  match switchCmd s q cid with
  | some c => finishCmd c.q c.cid 0x0806 s.power.version false s
  | none => s

variable (power : s.power.running = true) (step : s.power.update.switching = some (4, q, cid, slot))
include power step

theorem exec_updateResume : exec .updateResume s = .next (
    if steadyNs s < s.power.update.startedAt + 150000000 then endSwitch q cid (resumeService (onTrial slot s)) else s) := by
  show execUpdateResume s = _
  unfold execUpdateResume
  rw [step]
  show doneIf (s.power.running && decide (steadyNs s < s.power.update.startedAt + 150000000))
    (endSwitch q cid (resumeService (onTrial slot s))) s = _
  rw [power, Bool.true_and]
  simp only [doneIf, decide_eq_true_eq]

theorem exec_updateRevert : exec .updateRevert s = .next (
    if s.power.update.startedAt + 150000000 ≤ steadyNs s then reverted q cid (resumeService (breakLocks 1 s)) else s) := by
  show execUpdateRevert s = _
  unfold execUpdateRevert
  rw [step]
  show doneIf (s.power.running && decide (s.power.update.startedAt + 150000000 ≤ steadyNs s))
    (reverted q cid (resumeService (breakLocks 1 s))) s = _
  rw [power, Bool.true_and]
  simp only [doneIf, decide_eq_true_eq]

end

theorem resumeScore_halted {s : State} (halt : s.score.haltReq = true) : resumeScore s =
    updScore (fun c => { c with
      haltReq := false, running := true, pc := c.resumeAt, epoch := c.epoch + roundUp (nowNs s - s.power.update.haltedAt) 64 }) s :=
  if_pos halt

/-- With a halt to end and no reset carried over, service goes on by these changes alone. -/
theorem resumeService_halted {s : State} (none : s.power.update.waitingReset = []) (halt : s.score.haltReq = true) :
    resumeService s = { s with
      band := { s.band with lastSample := s.band.lastSample + (steadyNs s - s.power.update.startedAt) }
      fountains := s.fountains.map fun u => { u with paused := false }
      score := { s.score with haltReq := false, running := true, pc := s.score.resumeAt
                              epoch := s.score.epoch + roundUp (nowNs s - s.power.update.haltedAt) 64 }
      power := { s.power with update := { s.power.update with switching := Option.none } } } := by
  unfold resumeService
  rw [none]
  extract_lets waiting pause t u v
  have resumed : u = _ := resumeScore_halted halt
  show updUpdate (fun x => { x with switching := Option.none, waitingReset := [] }) u = _
  rw [resumed, ← none]
  rfl

/-! ### The clauses of `FirmwareUpdatesInTurn` -/

section
variable {q cid slot : Nat} {c : HostCmd} {s : State}

theorem stage_inTurn (h : Accepts (.stage q cid) c s) (free : updateBusy (startCmd c s) c = false) :
    let t := startCmd c s
    let off := arg c 8 8
    let u := chunkStaged off c.plen (paramBlock t c) t
    (off ≠ 0 → off ≠ s.power.update.staged → exec (.stage q cid) s = .next (endCmd c 0x0805 t))
    ∧ (off = 0 ∨ off = s.power.update.staged → 0x1000000 < off + c.plen → exec (.stage q cid) s = .next (endCmd c 0x0002 t))
    ∧ (off = 0 ∨ off = s.power.update.staged → off + c.plen ≤ 0x1000000 →
      (arg c 1 1 ≠ 1 → exec (.stage q cid) s = .next (okCmd c s.power.version u))
      ∧ (arg c 1 1 = 1 → ∀ x, u.power.slots.getD (inactiveSlot s) none = some x →
        (imageValid s x.bytes = true → ∃ v, exec (.stage q cid) s = .next (okCmd c s.power.version v) ∧ v.power.update.verified = true
          ∧ v.power.ledger.slotVersions = s.power.ledger.slotVersions.set (inactiveSlot s) (field x.bytes 4 4))
        ∧ (imageValid s x.bytes = false → ∃ v, exec (.stage q cid) s = .next (endCmd c 0x0804 v) ∧ v.power.update.verified = false
          ∧ ((getSource 1 0 s).captured = none → ((getSource 1 0 v).captured).map (·.status) = some 0x0804)))) := by
  intro t off u
  have runs : exec (.stage q cid) s = .next (
      if off ≠ 0 ∧ off ≠ s.power.update.staged then endCmd c 0x0805 t
      else if 0x1000000 < off + c.plen then endCmd c 0x0002 t
      else if arg c 1 1 = 1 then verifySlot c u else okUpdate c u) := exec_stage h free
  have keeps : ChunkKeeps s u :=
    have k : ChunkKeeps t u := chunkStaged_keeps ..
    ⟨k.version, k.ledger, k.valid, k.source, k.unverified⟩
  refine ⟨fun ne gap => runs.trans (congrArg _ (if_pos ⟨ne, gap⟩)), fun joins long => ?_, fun joins fits => ?_⟩
  all_goals rw [if_neg fun gap => joins.elim gap.1 gap.2] at runs
  · exact runs.trans (congrArg _ (if_pos long))
  rw [if_neg (Nat.not_lt.mpr fits)] at runs
  refine ⟨fun more => ?_, fun last x hx => ?_⟩
  · rw [runs, if_neg more, okUpdate, keeps.version]
  · rw [if_pos last] at runs
    have slot : inactiveSlot u = inactiveSlot s := by rw [inactiveSlot, keeps.ledger, ← inactiveSlot]
    rw [← slot] at hx
    refine ⟨fun valid => ?_, fun invalid => ?_⟩
    · obtain ⟨v, ends, verified, versions⟩ := verifySlot_valid (c := c) hx (by rw [keeps.valid, valid])
      exact ⟨v, by rw [runs, ends, keeps.version], verified, by rw [versions, keeps.ledger, slot]⟩
    · obtain ⟨v, ends, unverified, logged⟩ := verifySlot_invalid (c := c) hx (by rw [keeps.valid, invalid]) keeps.unverified
      exact ⟨v, by rw [runs, ends], unverified, fun none => logged (by rw [keeps.source, none])⟩

theorem switch_inTurn (h : Accepts (.switch q cid) c s) (free : updateBusy (startCmd c s) c = false) :
    (s.power.update.verified = false → exec (.switch q cid) s = .next (endCmd c 0x0805 (startCmd c s)))
    ∧ (s.power.update.verified = true → (∃ x ∈ s.mbx.cmds, x.opc ≠ 0x40 ∧ x.opc ≠ 0x70 ∧ resetCarried s x = false) →
        exec (.switch q cid) s = .next (switchBegun c s))
    ∧ (s.power.update.verified = true → (∀ x ∈ s.mbx.cmds, x ≠ c → x.opc = 0x40) → ∃ v, exec (.switch q cid) s = .next v
        ∧ v.power.update.switching = some (2, c.q, c.cid, inactiveSlot s)
        ∧ v.score = { s.score with haltReq := s.score.running || s.score.armed || s.score.watchdogHalt }) := by
  have runs := exec_switch h free
  obtain ⟨taken, -⟩ := h.of rfl
  refine ⟨fun none => ?_, fun verified other => ?_, fun verified alone => ?_⟩
  · rw [runs, none]
    rfl
  · rw [runs, verified, if_neg (by decide), switchHalt, if_pos (switchWaits_begun other)]
  · obtain ⟨switching, score⟩ := switchHalt_begun taken.opc taken.sub alone
    exact ⟨switchHalt (switchBegun c s), by rw [runs, verified, if_neg (by decide)], switching, score⟩

theorem commit_inTurn (h : Accepts (.commit q cid) c s) (free : updateBusy (startCmd c s) c = false) :
    (s.power.update.trial = false → exec (.commit q cid) s = .next (endCmd c 0x0805 (startCmd c s)))
    ∧ (s.power.update.trial = true → ∃ v, exec (.commit q cid) s = .next (okCmd c s.power.version v) ∧ v.power.update.trial = false
      ∧ v.power.ledger = { s.power.ledger with activeSlot := s.power.runSlot, unfence := true, gen := s.power.ledger.gen + 1 }
      ∧ v.power.rollback = max s.power.rollback (runningRollback s)) := by
  have runs := exec_commit h free
  refine ⟨fun last => ?_, fun trial => ⟨saveLedger (committed (startCmd c s)), ?_, ?_, ?_, ?_⟩⟩
  · rw [runs, last]
    rfl
  · rw [runs, trial, if_neg (by decide), okUpdate_saved]
    rfl
  · rw [(saveLedger_keeps _).1]
    rfl
  · rw [saveLedger_ledger]
    rfl
  · rw [(saveLedger_keeps _).2.2.1]
    rfl

theorem ledgerClear_inTurn (h : Accepts (.ledgerClear q cid) c s) (free : updateBusy (startCmd c s) c = false) :
    ∃ v, exec (.ledgerClear q cid) s = .next (okCmd c s.power.version v) ∧ v.power.ledger.unfence = true
      ∧ (∀ r ∈ v.power.ledger.steps, r.method = 0) ∧ v.power.ledger.steps.length = s.power.ledger.steps.length := by
  refine ⟨saveLedger (stepsCleared (startCmd c s)), ?_, ?_⟩
  · rw [exec_ledgerClear h free, okUpdate_saved]
    rfl
  · rw [saveLedger_ledger]
    refine ⟨rfl, fun r hr => ?_, List.length_map ..⟩
    obtain ⟨r, -, rfl⟩ := List.mem_map.mp hr
    rfl

theorem ledgerSizes_inTurn (h : Accepts (.ledgerSizes q cid) c s) (free : updateBusy (startCmd c s) c = false) :
    let t := startCmd c s
    (sizesOk (sizesOf (paramBlock t c)) = false → exec (.ledgerSizes q cid) s = .next (endCmd c 0x0002 t))
    ∧ (sizesOk (sizesOf (paramBlock t c)) = true → ∃ v, exec (.ledgerSizes q cid) s = .next (okCmd c s.power.version v)
      ∧ v.power.ledger.nextSizes = some (sizesOf (paramBlock t c)) ∧ v.pools = s.pools) := by
  intro t
  have runs := exec_ledgerSizes h free
  dsimp only at runs
  refine ⟨fun bad => ?_, fun good => ⟨saveLedger (updLedger (fun l => { l with nextSizes := some (sizesOf (paramBlock t c)) }) t), ?_, ?_, ?_⟩⟩
  · rw [runs, bad]
    rfl
  · rw [runs, good, if_neg (by decide), okUpdate_saved]
    rfl
  · rw [saveLedger_ledger]
    rfl
  · rw [(saveLedger_keeps _).2.2.2]
    rfl

end

/-- Settles O51: a sub-operation in its turn does its own work, SCORE_HALTED takes a switch from step to step, and the image that started
takes over or is reverted by when it answers. -/
theorem firmwareUpdatesInTurn : Obligations.FirmwareUpdatesInTurn := by
  unfold Obligations.FirmwareUpdatesInTurn
  refine ⟨?_, ?_, fun q cid slot s => ⟨switchStart_startedAt s, switchStart_step, fun n x hx held own => switchStart_locks hx held own⟩, ?_,
    fun s none halt => resumeService_halted none halt⟩
  · intro i q cid c s h op t off
    refine ⟨updateOp_busy h op, fun free => ⟨?_, ?_, ?_, ?_, ?_⟩⟩ <;> rintro rfl
    · exact stage_inTurn h free
    · exact switch_inTurn h free
    · exact commit_inTurn h free
    · exact ledgerClear_inTurn h free
    · exact ledgerSizes_inTurn h free
  · intro q cid slot s runs island load paused
    have step {k : Nat} := exec_scoreHalted_switch (k := k) (q := q) (cid := cid) (slot := slot) runs island load
    refine ⟨step, fun two halted flown ready => ?_, fun two halted flown busy => ?_, fun two waits => ?_, fun three ready => ?_⟩
    · rw [step two, switchStep, switchOn_halted halted flown, if_pos ready]
      rfl
    · rw [step two, switchStep, switchOn_halted halted flown, busy, if_neg Bool.false_ne_true]
      rfl
    · rw [step two, switchStep, switchOn_waits waits]
    · rw [step three, switchStep, if_pos ready]
  · intro q cid slot s power step u
    refine ⟨fun within => ⟨?_, ?_⟩, fun late => ⟨?_, fun c hc => ?_⟩⟩
    · rw [exec_updateResume power step, if_pos within]
      rfl
    · rw [exec_updateRevert power step, if_neg (Nat.not_le.mpr within)]
    · rw [exec_updateResume power step, if_neg (Nat.not_lt.mpr late)]
    · rw [exec_updateRevert power step, if_pos late, reverted, hc]

end Sys2Proof.Machine
end

section
/-! The load of a package (R74, R90, R294, R295, R463, R495): what the installing of a package leaves, and who begins, waits for or refuses a
load. -/

namespace Sys2Proof.Machine

/-! ### What a swap brings stays till its end (R90, R270, R294) -/

/-- A stream after the swap: no gallery, context or candidate of the old package, and no quarantine (R294, R495). -/
structure Bare (x : Stream) : Prop where
  gallery : x.gallery = []
  context : x.context = none
  candidate : x.candidate = none
  free : x.quarantined = false

/-- Package `p` is resident with score `c`; caches and training are empty, and the streams are bare. -/
structure Brings (p : Package) (c : Score) (s : State) : Prop where
  pkg : s.pkg = some p
  score : s.score = c
  samples : s.samples = []
  pending : s.trainPending = []
  running : s.trainRunning = none
  bare : ∀ (n : Nat) (y : Stream), s.streams[n]? = some (some y) → Bare y

section
variable {p : Package} {c : Score} {s t : State}

/-- A change of other parts of the state. -/
theorem Brings.still (h : Brings p c s) (e : (t.pkg, t.score, t.samples, t.trainPending, t.trainRunning, t.streams)
    = (s.pkg, s.score, s.samples, s.trainPending, s.trainRunning, s.streams)) : Brings p c t := by
  simp only [Prod.mk.injEq] at e
  obtain ⟨pkg, score, samples, pending, running, streams⟩ := e
  exact ⟨pkg.trans h.pkg, score.trans h.score, samples.trans h.samples, pending.trans h.pending, running.trans h.running, streams ▸ h.bare⟩

theorem Brings.upkeep (h : Brings p c s) (k : Upkeep s t) : Brings p c t := h.still (by rw [k])

theorem Brings.ite {b : Prop} [Decidable b] {x y : State} (hx : Brings p c x) (hy : Brings p c y) : Brings p c (if b then x else y) := by
  split
  · exact hx
  · exact hy

theorem Brings.foldl {α : Type} {f : State → α → State} {l : List α} (h : Brings p c s) (hf : ∀ s x, Brings p c s → Brings p c (f s x)) :
    Brings p c (l.foldl f s) := by
  induction l generalizing s with
  | nil => exact h
  | cons x l ih => exact ih (hf s x h)

/-- A change of the streams that leaves each bare. -/
theorem Brings.withStreams {l : List (Option Stream)} (h : Brings p c s) (bare : ∀ (n : Nat) (y : Stream), l[n]? = some (some y) → Bare y) :
    Brings p c { s with streams := l } :=
  ⟨h.pkg, h.score, h.samples, h.pending, h.running, bare⟩

theorem updStream_brings {n : Nat} {f : Stream → Stream} (h : Brings p c s) (hf : ∀ x, Bare x → Bare (f x)) :
    Brings p c (updStream n f s) := by
  refine h.withStreams fun k y hy => ?_
  rw [upd, List.getElem?_modify] at hy
  obtain ⟨o, ho, e⟩ := Option.map_eq_some_iff.mp hy
  split at e
  · obtain ⟨x, rfl, rfl⟩ := Option.map_eq_some_iff.mp e
    exact hf x (h.bare k x ho)
  · exact h.bare k y (e ▸ ho)

theorem putStream_none_brings {n : Nat} (h : Brings p c s) : Brings p c (putStream n none s) := by
  refine h.withStreams fun k y hy => h.bare k y ?_
  rw [List.getElem?_set] at hy
  split at hy
  · split at hy <;> cases hy
  · exact hy

/-! ### A stream that no longer fits closes (R294, R415) -/

theorem freeChain_brings {i : Nat} (h : Brings p c s) : Brings p c (freeChain i s) := h.upkeep (freeChain_upkeep (.refl s))

theorem finishCmd_brings {q cid st r : Nat} {b : Bool} (h : Brings p c s) : Brings p c (finishCmd q cid st r b s) := by
  unfold finishCmd
  split
  · exact h.still (by rfl)
  · exact h

theorem leaveGroups_brings {n : Nat} (h : Brings p c s) : Brings p c (leaveGroups n s) := by
  refine h.foldl fun s p h => ?_
  split
  · exact h
  · exact Brings.foldl (h.still (by rfl)) fun _ _ h => h.still (by rfl)

theorem endStreamCmds_brings {n : Nat} (h : Brings p c s) : Brings p c (endStreamCmds n s) := h.foldl fun _ _ => finishCmd_brings

theorem removeStream_brings {n : Nat} {x : Stream} (h : Brings p c s) : Brings p c (removeStream n x s) := by
  unfold removeStream
  extract_lets -merge -underBinder +onlyGivenNames heads t u v w y z a
  have ht : Brings p c t := h.foldl fun _ _ => freeChain_brings
  have hu : Brings p c u := (leaveGroups_brings (ht.upkeep (endStreamSeqs_upkeep (.refl _)))).upkeep (sendClosed_upkeep (.refl _))
  have hv : Brings p c v := hu.upkeep (unreserve_upkeep (unreserve_upkeep (unreserve_upkeep (.refl u))))
  clear_value v
  have hy : Brings p c y := hv.still (by rfl)
  clear_value y
  have hz : Brings p c z := by
    refine ⟨hy.pkg, hy.score, ?_, ?_, ?_, hy.bare⟩
    · show y.samples.filter _ = []
      rw [hy.samples]
      rfl
    · show y.trainPending.filter _ = []
      rw [hy.pending]
      rfl
    · show y.trainRunning.filter _ = none
      rw [hy.running]
      rfl
  have ha : Brings p c a := endStreamCmds_brings (putStream_none_brings hz)
  clear_value a
  exact ha.foldl fun _ _ h => h.upkeep (releasePrompt_upkeep (.refl _))

theorem finishClose_brings {n : Nat} (h : Brings p c s) : Brings p c (finishClose n s) := by
  unfold finishClose
  split
  · exact .ite (removeStream_brings h) h
  · exact h

theorem beginClose_brings {n : Nat} (h : Brings p c s) : Brings p c (beginClose n s) := by
  unfold beginClose
  split
  · exact h
  · extract_lets -merge -underBinder +onlyGivenNames t u v
    have ht : Brings p c t := .ite (h.still (by rfl)) h
    have hu : Brings p c u := by
      unfold u
      split
      · exact .ite ht (freeChain_brings ht)
      · exact ht
    exact finishClose_brings (updStream_brings (leaveGroups_brings hu) fun x b => ⟨b.gallery, b.context, b.candidate, b.free⟩)

theorem rebindStreams_brings (l : List Nat) (kept : List OpenBlock) (h : Brings p c s) : Brings p c (rebindStreams l kept s) := by
  induction l generalizing kept s with
  | nil => exact h
  | cons n l ih =>
    unfold rebindStreams
    split
    · exact ih kept h
    · next x _ =>
      split
      · exact ih kept h
      · extract_lets st
        split
        · exact ih _ h
        · exact ih kept ((beginClose_brings h).still (by rfl))

/-! ### Reservations and prompts again (R163, R180, R294) -/

theorem reserve_upkeep {o n : Nat} {cold : Bool} (h : reserve o n cold s = some t) : Upkeep s t := by
  unfold reserve at h
  extract_lets put at h
  have taken (b : Bool) : Upkeep s (put b) := updAviary_upkeep (.refl s)
  split at h
  · exact Option.some.inj h ▸ taken false
  · split at h
    · exact Option.some.inj h ▸ taken true
    · cases h

theorem reserveAgain_upkeep (o n : Nat) (cold : Bool) (s : State) : Upkeep s (reserveAgain o n cold s) := by
  unfold reserveAgain
  cases h : reserve o n cold (unreserve o s) with
  | none => exact .refl s
  | some t => exact (unreserve_upkeep (.refl s)).still (reserve_upkeep h)

theorem galleryFor_upkeep {n : Nat} {x : Stream} (h : galleryFor n x s = .ok t) : Upkeep s t := by
  unfold galleryFor at h
  extract_lets has at h
  split at h
  · cases h
    exact .refl s
  · split at h
    · cases h
    · cases h
    · next u _ room =>
      cases h
      exact updAviary_upkeep (reserve_upkeep room)

theorem reserveStreams_upkeep (s : State) : Upkeep s (reserveStreams s) := by
  refine (Upkeep.refl s).foldl fun t n h => ?_
  split
  · exact h
  · next x _ =>
    extract_lets u v
    have hu : Upkeep s u := unreserve_upkeep (h.still (reserveAgain_upkeep ..))
    have hv : Upkeep s v := unreserve_upkeep hu
    clear_value v
    refine .ite hv ?_
    split
    · next w room => exact hv.still (galleryFor_upkeep room)
    · exact hv

theorem dropPrompt_upkeep (n : Nat) (s : State) : Upkeep s (dropPrompt n s) := by
  unfold dropPrompt
  split
  · next x _ =>
    extract_lets t
    have ht : Upkeep s t := by
      unfold t
      split
      · exact endSeq_upkeep (.refl s)
      · exact .refl s
    exact unreserve_upkeep (updAviary_upkeep ht)
  · exact .refl s

theorem fillPages_upkeep {q o a n : Nat} {f : Nat → Nat → List Byte} (h : Upkeep t s) : Upkeep t (fillPages q o a n f s) :=
  h.foldl fun _ _ h => h.foldl fun _ _ h => putPage_upkeep (mapPage_upkeep (newPage_upkeep h))

theorem encodePrompt_upkeep (n id : Nat) (x : Prompt) (s : State) : Upkeep s (encodePrompt n id x s) :=
  fillPages_upkeep (updAviary_upkeep (.refl s))

theorem renewPrompt_brings {n : Nat} (h : Brings p c s) : Brings p c (renewPrompt n s) := by
  unfold renewPrompt
  split
  · exact h
  · next y _ =>
    extract_lets toks fits y' t u
    have hu : Brings p c u := h.upkeep ((updAviary_upkeep (.refl s)).still (reserveAgain_upkeep ..))
    clear_value u
    split
    · exact .ite hu ((finishCmd_brings hu).upkeep (dropPrompt_upkeep ..))
    · refine .ite (hu.upkeep (dropPrompt_upkeep ..)) ?_
      split
      · exact .ite (hu.upkeep (encodePrompt_upkeep ..)) hu
      · exact hu

/-! ### Dictionary, score, weights and fences (R178, R294, R296, R367) -/

theorem fenceBanks_brings (h : Brings p c s) : Brings p c (fenceBanks s) := by
  unfold fenceBanks
  extract_lets bad
  refine .ite h ?_
  rw [saveLedger_memFrame]
  exact h.still (by rfl)

theorem placed_brings {j : LoadJob} (h : Brings p c s) : Brings p c (fenceBanks (placeWeights j.pkg.weights (placeScore j.image s))) :=
  fenceBanks_brings (h.upkeep (((Upkeep.refl s).foldl fun _ _ => writePhys_upkeep).foldl fun _ _ => writePhys_upkeep))

theorem clearAviary_upkeep (s : State) : Upkeep s (clearAviary s) := by
  unfold clearAviary
  extract_lets t
  have ht : Upkeep s t := (Upkeep.refl s).foldl fun _ _ => endSeq_upkeep
  exact updAviary_upkeep ht

/-- The epoch of a load (R90). -/
def loadEpoch (j : LoadJob) (s : State) : Nat := j.epoch.getD (roundUp (nowNs s + 1000000) 64)

theorem takePackage_brings (j : LoadJob) (s : State) : Brings j.pkg (loadScore j.image (loadEpoch j s) s.score) (takePackage j s) := by
  unfold takePackage
  extract_lets -merge -underBinder +onlyGivenNames t u v w epoch x y z a
  have ht : Upkeep s t := clearAviary_upkeep s
  have now : epoch = loadEpoch j s := by
    show j.epoch.getD (roundUp (nowNs t + 1000000) 64) = _
    rw [nowNs, ht]
    rfl
  have score : t.score = s.score := by rw [ht]
  have hx : Brings j.pkg (loadScore j.image (loadEpoch j s) s.score) x := by
    rw [← now, ← score]
    refine ⟨rfl, rfl, rfl, rfl, rfl, fun n y hy => ?_⟩
    rw [show x.streams = u.streams.map (fun o => o.map (swapStream v j.pkg)) from rfl, List.getElem?_map] at hy
    obtain ⟨o, -, swapped⟩ := Option.map_eq_some_iff.mp hy
    obtain ⟨y, -, rfl⟩ := Option.map_eq_some_iff.mp swapped
    exact ⟨rfl, rfl, rfl, rfl⟩
  clear_value x
  have hy : Brings j.pkg (loadScore j.image (loadEpoch j s) s.score) y := rebindStreams_brings _ _ hx
  have hz : Brings j.pkg (loadScore j.image (loadEpoch j s) s.score) z :=
    hy.foldl fun s _ h => .ite (h.upkeep (clearHistories_upkeep (.refl s))) h
  clear_value z
  have placed : Brings j.pkg (loadScore j.image (loadEpoch j s) s.score) (placeDictionary j.pkg (reserveStreams z)) :=
    hz.upkeep (writePhys_upkeep (reserveStreams_upkeep z))
  exact placed_brings (placed.foldl fun _ _ => renewPrompt_brings)

end

/-! ### The load ends (R294, R414) -/

section
variable {j : LoadJob} {s : State}

/-- The end of a load touches the mailbox and the job alone. -/
theorem endLoad_frame (j : LoadJob) (st : Nat) (s : State) : endLoad j st s = { s with load := none, mbx := (endLoad j st s).mbx } := by
  have ends (q cid st r : Nat) (b : Bool) (s : State) : finishCmd q cid st r b s = { s with mbx := (finishCmd q cid st r b s).mbx } := by
    unfold finishCmd
    split <;> rfl
  unfold endLoad
  extract_lets t
  split
  · next c _ =>
    split
    · exact (ends c.q c.cid 0 0 true _).trans rfl
    · exact (ends c.q c.cid st 0 false t).trans rfl
  · rfl

/-- What an install begins with: the notice of a swap, and the batches of the old package ended. -/
def swapBegun (j : LoadJob) (s : State) : State :=
  closeTorn (if s.pkg.isSome then addNotice { status := 0x0330, stream := 0xFFFF, result := j.pkg.pkgid } s else s)

theorem installPackage_eq (j : LoadJob) (s : State) : installPackage j s =
    let u := takePackage j (swapBegun j s)
    if unitsOk u j.image ((imgWords j.image).getD []) then endLoad j 0 u
    else endLoad j 0x0417 (updScore emptyScore { u with pkg := none }) := rfl

end

/-! ### PACKAGE_LOAD (R294, R414, R463) -/

section
variable {q cid : Nat} {pkg : Package} {c : HostCmd} {s : State}

/-! A chip's own place in its group, which chooses its image (R463). -/

/-- The chip's number and the number of chips. -/
def chipPlace (s : State) : Nat × Nat := (s.trellis.chip, s.trellis.chips)

theorem ownImage_of_chipPlace {s t : State} (same : chipPlace t = chipPlace s) (p : Package) : ownImage t p = ownImage s p := by
  obtain ⟨chip, chips⟩ := Prod.mk.injEq .. ▸ same
  rw [ownImage, ownImage, chip, chips]

theorem startRelay_chipPlace (d : Nat) (s : State) : chipPlace (startRelay d s) = chipPlace s := by
  unfold startRelay
  split
  · rfl
  · rw [chipPlace, logErr_frame]
    rfl

theorem enqueueMessage_chipPlace (k d n v : Nat) (bs : List Byte) (s : State) : chipPlace (enqueueMessage k d n v bs s) = chipPlace s := rfl

theorem bumpMnum_chipPlace (d v : Nat) (s : State) : chipPlace (bumpMnum d v s) = chipPlace s := rfl

theorem updTrellis_chipPlace {f : Trellis → Trellis} (s : State) (h : ∀ t, (f t).chip = t.chip ∧ (f t).chips = t.chips) :
    chipPlace (updTrellis f s) = chipPlace s := Prod.ext (h s.trellis).1 (h s.trellis).2

theorem sendByRelay_chipPlace (d v : Nat) (bs : List Byte) (s : State) : chipPlace (sendByRelay d v bs s) = chipPlace s := by
  unfold sendByRelay
  extract_lets keep
  split
  · extract_lets m t
    have relayed : chipPlace t = chipPlace s := by
      unfold t
      rw [enqueueMessage_chipPlace, bumpMnum_chipPlace, startRelay_chipPlace]
    clear_value t
    exact (updTrellis_chipPlace t fun _ => ⟨rfl, rfl⟩).trans relayed
  · rfl

/-- A message leaves a chip's place in its group. -/
theorem sendMessage_chipPlace (d v n : Nat) (bs : List Byte) (s : State) : chipPlace (sendMessage d v n bs s) = chipPlace s := by
  unfold sendMessage routeMessage
  split
  · split
    · split
      · rfl
      · exact (sendByRelay_chipPlace ..).trans rfl
    · rfl
  · rfl

theorem acknowledge_keeps (p : Package) (st : Nat) (s : State) :
    (∀ r, ownImage (acknowledge p st s) r = ownImage s r) ∧ steadyNs (acknowledge p st s) = steadyNs s := by
  unfold acknowledge
  split
  · exact ⟨fun _ => rfl, rfl⟩
  · refine ⟨ownImage_of_chipPlace (sendMessage_chipPlace ..), ?_⟩
    have sent : Upkeep s (sendMessage 0 vcControl 0x14 (leBytes 8 p.pkgid ++ leBytes 2 st ++ leBytes 2 (boundPrompts s) ++ leBytes 4 0) s) :=
      sendMessage_upkeep (.refl s)
    rw [steadyNs, sent]
    rfl

/-- The job of an accepted load at one of its steps. -/
def loadJob (q cid : Nat) (pkg : Package) (s : State) (k : Nat) : LoadJob :=
  { q := q, cid := cid, pkg := pkg, image := ownImage s pkg, step := k, since := steadyNs s, epoch := none }

theorem exec_packageLoad (h : Accepts (.packageLoad q cid pkg) c s) :
    let t := startCmd c s
    let joined := decide (1 < s.trellis.chips)
    let u := if joined then acknowledge pkg (packageStatus s pkg) t else t
    exec (.packageLoad q cid pkg) s = .next (
      if s.load.isSome then endCmd c 0x041B t
      else if updateRuns t then endCmd c 0x0805 t
      else if packageStatus s pkg ≠ 0 then endCmd c (packageStatus s pkg) u
      else if joined then judgeAcks pkg.pkgid { u with load := some (loadJob q cid pkg u 1) } else goOnLoad (loadJob q cid pkg u 1) u) := by
  obtain ⟨taken, ok⟩ := h.of rfl
  intro t joined u
  rw [show exec (.packageLoad q cid pkg) s = execPackageLoad q cid pkg s from rfl, execPackageLoad]
  refine (runCommand_accepted taken ok).trans (congrArg _ ?_)
  rfl

/-- A chip alone. -/
theorem packageLoad_alone (h : Accepts (.packageLoad q cid pkg) c s) (load : s.load = none) (update : updateRuns (startCmd c s) = false)
    (alone : s.trellis.chips ≤ 1) :
    let t := startCmd c s
    let i : Instr := .packageLoad q cid pkg
    (packageStatus s pkg ≠ 0 → exec i s = .next (endCmd c (packageStatus s pkg) t))
    ∧ (packageStatus s pkg = 0 → s.pkg = none → exec i s = .next (installPackage (loadJob q cid pkg s 1) t))
    ∧ (packageStatus s pkg = 0 → s.pkg.isSome = true → exec i s = .next { t with
        load := some (loadJob q cid pkg s 2)
        score := { s.score with haltReq := s.score.running || s.score.armed || s.score.watchdogHalt } }) := by
  intro t i
  have runs := exec_packageLoad h
  dsimp only at runs
  rw [load, update, decide_eq_false (Nat.not_lt.mpr alone)] at runs
  simp only [Option.isSome_none, Bool.false_eq_true, if_false] at runs
  refine ⟨fun bad => ?_, fun good empty => ?_, fun good resident => ?_⟩
  · rw [runs, if_pos bad]
  · rw [runs, if_neg (not_not.mpr good), goOnLoad, if_pos]
    · rfl
    · exact Option.isNone_iff_eq_none.mpr empty
  · rw [runs, if_neg (not_not.mpr good), goOnLoad, if_neg]
    · rfl
    · exact fun empty => Option.not_isSome_iff_eq_none.mpr (Option.isNone_iff_eq_none.mp empty) resident

/-- A member of a group (R463). -/
theorem packageLoad_member (h : Accepts (.packageLoad q cid pkg) c s) (load : s.load = none) (update : updateRuns (startCmd c s) = false)
    (member : 1 < s.trellis.chips) :
    let t := startCmd c s
    let i : Instr := .packageLoad q cid pkg
    (packageStatus s pkg ≠ 0 → exec i s = .next (endCmd c (packageStatus s pkg) (acknowledge pkg (packageStatus s pkg) t)))
    ∧ (packageStatus s pkg = 0 → exec i s = .next (judgeAcks pkg.pkgid { acknowledge pkg 0 t with load := some (loadJob q cid pkg s 1) })) := by
  intro t i
  have runs := exec_packageLoad h
  dsimp only at runs
  rw [load, update, decide_eq_true member] at runs
  simp only [Option.isSome_none, Bool.false_eq_true, if_false, if_true] at runs
  refine ⟨fun bad => ?_, fun good => ?_⟩
  · rw [runs, if_pos bad]
  · obtain ⟨image, now⟩ := acknowledge_keeps pkg 0 t
    rw [runs, if_neg (not_not.mpr good), good, loadJob, image, now]
    rfl

end

/-- Settles O50: each answer to a PACKAGE_LOAD is a branch of its row, and what a swap brings stays through the streams and prompts that
are bound again. -/
theorem packagesAreLoadedAndSwapped : Obligations.PackagesAreLoadedAndSwapped := by
  unfold Obligations.PackagesAreLoadedAndSwapped
  refine ⟨?_, ?_, ?_, ?_⟩
  · intro q cid pkg c s h i t job
    have runs := exec_packageLoad h
    dsimp only at runs
    refine ⟨fun loading => ?_, fun load update => ?_, fun load update => ⟨packageLoad_alone h load update, packageLoad_member h load update⟩⟩
    · rw [runs, if_pos loading]
    · rw [runs, load, if_neg (by decide), if_pos update]
  · intro j s power island load step
    have goes : exec .scoreHalted s = doneIf (j.step == 2 && scoreHalted s && flightOver s) (installPackage j s) s := by
      show execScoreHalted s = _
      unfold execScoreHalted
      rw [power, island, load]
      rfl
    rw [goes, step]
    refine ⟨fun halted flown => ?_, fun waits => ?_⟩
    · rw [halted, flown]
      rfl
    · have no : (scoreHalted s && flightOver s) = false := Bool.and_eq_false_iff.mpr waits
      show doneIf (scoreHalted s && flightOver s) (installPackage j s) s = .next s
      rw [no]
      rfl
  · intro j s u
    have brings : Brings j.pkg (loadScore j.image (loadEpoch j s) s.score) u := takePackage_brings j s
    rw [brings.score]
    refine ⟨brings.pkg, brings.samples, brings.pending, brings.running, rfl, rfl, rfl, rfl, rfl, rfl, fun n y hy => ?_⟩
    obtain ⟨gallery, context, candidate, free⟩ := brings.bare n y hy
    exact ⟨gallery, context, candidate, free⟩
  · intro j s t u
    have brings : Brings j.pkg _ u := takePackage_brings j (swapBegun j s)
    have ends : t = if unitsOk u j.image ((imgWords j.image).getD []) then endLoad j 0 u
        else endLoad j 0x0417 (updScore emptyScore { u with pkg := none }) := installPackage_eq j s
    clear_value t u
    subst ends
    refine ⟨?_, fun units => ?_, fun fenced => ?_⟩
    · split <;> rw [endLoad_frame]
    · rw [if_pos units, endLoad_frame]
      exact ⟨brings.pkg, rfl⟩
    · rw [if_neg (by rw [fenced]; decide), endLoad_frame]
      exact ⟨rfl, rfl, rfl⟩

end Sys2Proof.Machine
end

section
/-! What the selections of the vector units and of the clip encoder choose, and what the movers' block code keeps (R95, R119, R121 to
R123, R238). -/

namespace Sys2Proof.Machine

/-- A fold that trades what it holds for what goes before it is Mathlib's, whose first element is held at once. -/
theorem foldl_argAux_some {α : Type} (r : α → α → Prop) [DecidableRel r] (a : α) (l : List α) :
    l.foldl (List.argAux r) (some a) = some (l.foldl (fun b c => if r c b then c else b) a) :=
  List.foldl_hom some fun b c => by
    show (if r c b then some c else some b) = _
    split <;> rfl

/-! ### ARGMAX (R121) -/

/-- What ARGMAX names is the position of Mathlib's `argmax` over the values with their positions. -/
theorem argmax_zipIdx {xs : List Int} (ne : xs ≠ []) : ∃ v, xs.zipIdx.argmax (·.1) = some (v, argmaxOf xs) := by
  obtain ⟨x, l, rfl⟩ := List.exists_cons_of_ne_nil ne
  have folds := foldl_argAux_some (fun b c : Int × Nat => c.1 < b.1) (x, 0) (l.zipIdx 1)
  refine ⟨_, folds.trans (congrArg some (Prod.ext rfl ?_))⟩
  rw [argmaxOf, List.zipIdx_cons, List.foldl_cons, List.headD_cons, if_neg (lt_irrefl x)]

theorem idxOf_of_getElem? {α : Type} [DecidableEq α] {l : List α} (nodup : l.Nodup) {i : Nat} {a : α} (h : l[i]? = some a) :
    l.idxOf a = i := by
  obtain ⟨lt, rfl⟩ := List.getElem?_eq_some_iff.mp h
  exact nodup.idxOf_getElem i lt

theorem argmaxOf_first {xs : List Int} (ne : xs ≠ []) :
    ∃ v, xs[argmaxOf xs]? = some v ∧ (∀ x ∈ xs, x ≤ v) ∧ ∀ j x, j < argmaxOf xs → xs[j]? = some x → x < v := by
  obtain ⟨v, best⟩ := argmax_zipIdx ne
  have place : xs[argmaxOf xs]? = some v := List.mk_mem_zipIdx_iff_getElem?.mp (List.argmax_mem best)
  have nodup : xs.zipIdx.Nodup := .of_map _ (List.nodup_zipIdx_map_snd xs)
  have stands {i : Nat} {x : Int} (h : xs[i]? = some x) : xs.zipIdx[i]? = some (x, i) := by
    rw [List.getElem?_zipIdx, h, Option.map_some, zero_add]
  refine ⟨v, place, fun x hx => ?_, fun j x before hj => ?_⟩
  · obtain ⟨j, hj⟩ := List.mem_iff_getElem?.mp hx
    exact List.le_of_mem_argmax (List.mk_mem_zipIdx_iff_getElem?.mpr hj) best
  · by_contra least
    have first := List.index_of_argmax best (List.mk_mem_zipIdx_iff_getElem?.mpr hj) (not_lt.mp least)
    rw [idxOf_of_getElem? nodup (stands place), idxOf_of_getElem? nodup (stands hj)] at first
    exact absurd before (not_lt.mpr first)

/-! ### NMS (R119) -/

section
variable {per : Bool} {u : Nat}

theorem nmsKeep_length (cs kept : List (Detection × List Byte)) (n : Nat) : (nmsKeep per u cs kept n).length ≤ kept.length + n := by
  fun_induction nmsKeep per u cs kept n with
  | case1 kept n => exact Nat.le_add_right ..
  | case2 cs kept => exact le_rfl
  | case3 c cs kept n drop ih => exact ih
  | case4 c cs kept n keep ih =>
    rw [List.length_append, List.length_singleton] at ih
    omega

theorem mem_nmsKeep {cs kept : List (Detection × List Byte)} {n : Nat} {k : Detection × List Byte} (h : k ∈ nmsKeep per u cs kept n) :
    k ∈ kept ∨ k ∈ cs := by
  fun_induction nmsKeep per u cs kept n with
  | case1 kept n => exact .inl h
  | case2 cs kept => exact .inl h
  | case3 c cs kept n drop ih => exact (ih h).imp_right (List.mem_cons_of_mem c)
  | case4 c cs kept n keep ih =>
    rcases ih h with old | rest
    · exact (List.mem_append.mp old).imp_right fun new => List.mem_cons.mpr (.inl (List.mem_singleton.mp new))
    · exact .inr (List.mem_cons_of_mem c rest)

/-- Two records of one class, or of any where classes do not count, whose boxes do not overlap beyond the threshold. -/
def Apart (per : Bool) (u : Nat) (a b : Detection × List Byte) : Prop :=
  per = false ∨ a.1.cls = b.1.cls → overlaps u a.1.box b.1.box = false

theorem apart_iff {a b : Detection × List Byte} :
    Apart per u a b ↔ ((!per || a.1.cls == b.1.cls) && overlaps u a.1.box b.1.box) = false := by
  rw [Bool.and_eq_false_imp, Bool.or_eq_true, Bool.not_eq_true', beq_iff_eq]
  rfl

theorem nmsKeep_apart (cs : List (Detection × List Byte)) {kept : List (Detection × List Byte)} (n : Nat)
    (h : kept.Pairwise (Apart per u)) : (nmsKeep per u cs kept n).Pairwise (Apart per u) := by
  fun_induction nmsKeep per u cs kept n with
  | case1 kept n => exact h
  | case2 cs kept => exact h
  | case3 c cs kept n drop ih => exact ih h
  | case4 c cs kept n keep ih =>
    refine ih (List.pairwise_append.mpr ⟨h, List.pairwise_singleton .., fun k hk d hd => ?_⟩)
    rw [List.mem_singleton.mp hd]
    have clear := List.any_eq_false.mp (Bool.eq_false_iff.mpr keep) k hk
    exact apart_iff.mpr (Bool.eq_false_iff.mpr clear)

theorem nmsKeep_getElem?_apart {cs : List (Detection × List Byte)} {n i j : Nat} {a b : Detection × List Byte} (before : i < j)
    (ha : (nmsKeep per u cs [] n)[i]? = some a) (hb : (nmsKeep per u cs [] n)[j]? = some b) : Apart per u a b := by
  obtain ⟨hi, rfl⟩ := List.getElem?_eq_some_iff.mp ha
  obtain ⟨hj, rfl⟩ := List.getElem?_eq_some_iff.mp hb
  exact List.pairwise_iff_getElem.mp (nmsKeep_apart cs n .nil) i j hi hj before

end

/-! ### The vector among candidates (R238) -/

/-- What orders the candidates of a motion search. -/
def vectorKey (cost : Int × Int → Nat) (v : Int × Int) : List Int := [cost v, v.1.natAbs + v.2.natAbs, v.2, v.1]

theorem vectorKey_lt {cost : Int × Int → Nat} {v w : Int × Int} : vectorKey cost v < vectorKey cost w ↔
    cost v < cost w ∨ cost v = cost w ∧ (v.1.natAbs + v.2.natAbs < w.1.natAbs + w.2.natAbs
      ∨ v.1.natAbs + v.2.natAbs = w.1.natAbs + w.2.natAbs ∧ (v.2 < w.2 ∨ v.2 = w.2 ∧ v.1 < w.1)) := by
  simp only [vectorKey, List.cons_lt_cons_iff, lt_irrefl, and_false, or_false]
  norm_cast

/-- The search carries each vector with its cost, but trades by the key alone. -/
theorem bestVector_eq_argmin (cost : Int × Int → Nat) (l : List (Int × Int)) : bestVector cost l = l.argmin (vectorKey cost) := by
  cases l with
  | nil => rfl
  | cons v l =>
    refine .trans ?_ (foldl_argAux_some _ v l).symm
    refine congrArg (fun b : Nat × Int × Int => some b.2) (List.foldl_hom (fun b => (cost b, b)) fun b w => ?_)
    show (if decide (vectorKey cost w < vectorKey cost b) = true then (cost w, w) else (cost b, b)) = _
    simp only [decide_eq_true_eq]
    split <;> rfl

theorem bestVector_least (cost : Int × Int → Nat) {l : List (Int × Int)} (ne : l ≠ []) :
    ∃ v ∈ l, bestVector cost l = some v ∧ ∀ w ∈ l, ¬ vectorKey cost w < vectorKey cost v := by
  obtain ⟨v, hv⟩ := Option.ne_none_iff_exists'.mp (mt List.argmin_eq_none.mp ne : l.argmin (vectorKey cost) ≠ none)
  exact ⟨v, List.argmin_mem hv, (bestVector_eq_argmin cost l).trans hv, fun w hw => List.not_lt_of_mem_argmin hw hv⟩

/-! ### Bytes as digits (R7, R10) -/

theorem length_leBytes (n v : Nat) : (leBytes n v).length = n := by
  induction n generalizing v with
  | zero => rfl
  | succ n ih => exact congrArg (· + 1) (ih _)

theorem leNat_leBytes (n v : Nat) : leNat (leBytes n v) = v % 256 ^ n := by
  induction n generalizing v with
  | zero => exact (Nat.mod_one v).symm
  | succ n ih => rw [leBytes, leNat, ih, BitVec.toNat_ofNat, pow_succ' 256, Nat.mod_mul]

theorem leBytes_leNat (bs : List Byte) : leBytes bs.length (leNat bs) = bs := by
  induction bs with
  | nil => rfl
  | cons b bs ih =>
    have low : BitVec.ofNat 8 (b.toNat + 256 * leNat bs) = b :=
      BitVec.eq_of_toNat_eq (by rw [BitVec.toNat_ofNat]; omega)
    have high : (b.toNat + 256 * leNat bs) / 256 = leNat bs := by omega
    rw [List.length_cons, leBytes, leNat, low, high, ih]

theorem leNat_eq_ofDigits (bs : List Byte) : leNat bs = Nat.ofDigits (2 ^ 8) (bs.map BitVec.toNat) := by
  induction bs with
  | nil => rfl
  | cons b bs ih => rw [leNat, List.map_cons, Nat.ofDigits_cons, ih]; rfl

theorem bits_lt (v lo w : Nat) : bits v lo w < 2 ^ w := Nat.mod_lt _ (Nat.two_pow_pos w)

theorem bits_bits (v lo n : Nat) {lo' w : Nat} (h : lo' + w ≤ n) : bits (bits v lo n) lo' w = bits v (lo + lo') w := by
  obtain ⟨k, rfl⟩ := Nat.exists_eq_add_of_le h
  simp only [bits]
  rw [add_assoc, pow_add, Nat.mod_mul_right_div_self, pow_add 2 w k, Nat.mod_mul_right_mod, Nat.div_div_eq_div_mul, ← pow_add]

theorem bits_ofDigits {w : Nat} {ds : List Nat} (h : ∀ d ∈ ds, d < 2 ^ w) (j : Nat) :
    bits (Nat.ofDigits (2 ^ w) ds) (j * w) w = ds.getD j 0 := by
  have pos : 0 < 2 ^ w := Nat.two_pow_pos w
  induction ds generalizing j with
  | nil => simp [bits]
  | cons d ds ih =>
    have small : d < 2 ^ w := h d (List.mem_cons_self ..)
    rw [Nat.ofDigits_cons]
    cases j with
    | zero => simp [bits, Nat.mod_eq_of_lt small]
    | succ j =>
      rw [List.getD_cons_succ, ← ih (fun d hd => h d (List.mem_cons_of_mem _ hd)) j, bits, bits, add_mul, one_mul, add_comm (j * w),
        pow_add, ← Nat.div_div_eq_div_mul, Nat.add_mul_div_left _ _ pos, Nat.div_eq_of_lt small, zero_add]

theorem ofDigits_bits (v w n : Nat) : Nat.ofDigits (2 ^ w) ((List.range n).map fun j => bits v (j * w) w) = v % 2 ^ (w * n) := by
  induction n with
  | zero => exact (Nat.mod_one v).symm
  | succ n ih =>
    rw [List.range_succ, List.map_append, Nat.ofDigits_append, ih, List.length_map, List.length_range, List.map_singleton,
      Nat.ofDigits_singleton, bits, mul_comm n, pow_mul, pow_mul, Nat.mod_pow_succ]

/-! ### Packed codes (R95) -/

theorem packBytes_eq_ofDigits {w : Nat} {codes : List Nat} (h : ∀ c ∈ codes, c < 2 ^ w) (n : Nat) :
    packBytes w n codes = leBytes n (Nat.ofDigits (2 ^ w) codes) := by
  suffices sum : ∀ i v, (codes.zipIdx i).foldl (fun v c => v + c.1 % 2 ^ w * 2 ^ (c.2 * w)) v
      = v + (2 ^ w) ^ i * Nat.ofDigits (2 ^ w) codes by
    rw [packBytes, sum, pow_zero, one_mul, zero_add]
  induction codes with
  | nil => exact fun i v => by simp
  | cons c codes ih =>
    intro i v
    obtain ⟨hc, hcs⟩ := List.forall_mem_cons.mp h
    rw [List.zipIdx_cons, List.foldl_cons, ih hcs, Nat.ofDigits_cons, Nat.mod_eq_of_lt hc, mul_comm i w, pow_mul]
    ring

/-- A packed code is read back in its place. -/
theorem bits_packBytes {w n : Nat} {codes : List Nat} (h : ∀ c ∈ codes, c < 2 ^ w) (fits : w * codes.length = 8 * n) (pos : 0 < w)
    (j : Nat) :
    bits (leNat (packBytes w n codes)) (j * w) w = codes.getD j 0 := by
  have below : Nat.ofDigits (2 ^ w) codes < 256 ^ n := by
    have bound := Nat.ofDigits_lt_base_pow_length (Nat.one_lt_two_pow pos.ne') h
    rwa [← pow_mul, fits, pow_mul] at bound
  rw [packBytes_eq_ofDigits h, leNat_leBytes, Nat.mod_eq_of_lt below, bits_ofDigits h]

theorem codeAt_four (bs : List Byte) (j : Nat) : codeAt 4 bs j = bits (leNat bs) (j * 4) 4 := by
  have byte (i : Nat) : (bs.getD i 0).toNat = bits (leNat bs) (i * 8) 8 := by
    have small : ∀ d ∈ bs.map BitVec.toNat, d < 2 ^ 8 := List.forall_mem_map.mpr fun b _ => b.isLt
    rw [leNat_eq_ofDigits, bits_ofDigits small]
    exact (List.getD_map bs 0 BitVec.toNat).symm
  show bits (bs.getD (j * 4 / 8) 0).toNat (j * 4 % 8) 4 = _
  rw [byte, bits_bits _ _ _ (by omega), Nat.div_add_mod']

theorem length_blockCodes (bs : List Byte) : (blockCodes bs).length = 32 := rfl

theorem blockCodes_lt {bs : List Byte} : ∀ c ∈ blockCodes bs, c < 2 ^ 4 :=
  List.forall_mem_map.mpr fun j _ => codeAt_four bs j ▸ bits_lt ..

/-- The codes of a block, packed, are the block. -/
theorem packBytes_blockCodes {bs : List Byte} (h : bs.length = 16) : packBytes 4 16 (blockCodes bs) = bs := by
  have codes : blockCodes bs = (List.range 32).map fun j => bits (leNat bs) (j * 4) 4 := List.map_congr_left fun j _ => codeAt_four bs j
  have whole : leNat bs % 256 ^ 16 = leNat bs := by
    rw [← h, ← leNat_leBytes, leBytes_leNat]
  rw [packBytes_eq_ofDigits blockCodes_lt, codes, ofDigits_bits]
  exact (congrArg (leBytes 16) whole).trans (h ▸ leBytes_leNat bs)

/-! ### Compressed blocks (R122, R123) -/

/-- Bits of a code in a compressed block. -/
def codeWidth (mode : Nat) : Nat := if mode = 1 then 2 else 3

/-- The codes of a block lie so close together that the distances need no shift. -/
def Near (mode : Nat) (bs : List Byte) : Prop := ∀ x ∈ blockCodes bs, ∀ y ∈ blockCodes bs, x ≤ y + (2 ^ codeWidth mode - 1)

theorem length_compressBlock (mode : Nat) (bs : List Byte) : (compressBlock mode bs).length = 4 * codeWidth mode + 1 :=
  congrArg (· + 1) (length_leBytes ..)

theorem blockShift_zero {range l : Nat} (h : range ≤ l) : blockShift range l = 0 := by
  have fits : decide (range / 2 ^ 0 ≤ l) = true := by rwa [pow_zero, Nat.div_one, decide_eq_true_eq]
  rw [blockShift, List.range_succ_eq_map, List.find?_cons, fits]
  rfl

theorem getD_min?_least {l : List Nat} (ne : l ≠ []) : (l.min?).getD 0 ∈ l ∧ ∀ x ∈ l, (l.min?).getD 0 ≤ x := by
  obtain ⟨m, hm⟩ := Option.ne_none_iff_exists'.mp (mt List.min?_eq_none_iff.mp ne)
  rw [hm]
  exact List.min?_eq_some_iff.mp hm

theorem getD_max?_mem {l : List Nat} (ne : l ≠ []) : (l.max?).getD 0 ∈ l := by
  obtain ⟨m, hm⟩ := Option.ne_none_iff_exists'.mp (mt List.max?_eq_none_iff.mp ne)
  rw [hm]
  exact List.max?_mem hm

/-- A block whose codes lie close together is compressed without a shift: its code is the least one and the distances from it. -/
theorem compressBlock_near {mode : Nat} {bs : List Byte} (near : Near mode bs) :
    ∃ mn ∈ blockCodes bs, (∀ x ∈ blockCodes bs, mn ≤ x) ∧
      compressBlock mode bs = BitVec.ofNat 8 (mn + 64 * mode)
        :: packBytes (codeWidth mode) (4 * codeWidth mode) ((blockCodes bs).map (· - mn)) := by
  have ne : blockCodes bs ≠ [] := List.ne_nil_of_length_pos (by rw [length_blockCodes]; decide)
  obtain ⟨mem, least⟩ := getD_min?_least ne
  refine ⟨_, mem, least, ?_⟩
  have flat := blockShift_zero (Nat.sub_le_iff_le_add'.mpr (near _ (getD_max?_mem ne) _ mem))
  unfold codeWidth at flat ⊢
  simp only [compressBlock, flat, mul_zero, add_zero, pow_zero, Nat.div_one]

/-- A block of shift 0 expands to its least code and the distances from it. -/
theorem expandBlock_flat {mode mn : Nat} {ds : List Nat} (known : mode = 1 ∨ mode = 2) (code : mn < 16) (len : ds.length = 32)
    (small : ∀ d ∈ ds, d < 2 ^ codeWidth mode) :
    expandBlock (BitVec.ofNat 8 (mn + 64 * mode) :: packBytes (codeWidth mode) (4 * codeWidth mode) ds)
      = packBytes 4 16 ((List.range 32).map fun j => min 15 (mn + ds.getD j 0)) := by
  have head : (BitVec.ofNat 8 (mn + 64 * mode)).toNat = mn + 64 * mode := by
    rw [BitVec.toNat_ofNat]
    omega
  have fields : bits (mn + 64 * mode) 0 4 = mn ∧ bits (mn + 64 * mode) 4 2 = 0 ∧ bits (mn + 64 * mode) 6 2 = mode := by
    unfold bits
    omega
  obtain ⟨low, shift, top⟩ := fields
  have pos : 0 < codeWidth mode := by
    unfold codeWidth
    split <;> decide
  have body := bits_packBytes small (n := 4 * codeWidth mode) (by rw [len]; omega) pos
  unfold codeWidth at body ⊢
  simp only [expandBlock, List.getD_cons_zero, List.drop_succ_cons, List.drop_zero, head, low, shift, top, body, pow_zero, mul_one,
    Nat.reduceDiv, add_zero]

theorem expandBlock_compressBlock {mode : Nat} {bs : List Byte} (known : mode = 1 ∨ mode = 2) (len : bs.length = 16) (near : Near mode bs) :
    expandBlock (compressBlock mode bs) = bs := by
  obtain ⟨mn, mem, least, code⟩ := compressBlock_near near
  have small : ∀ d ∈ (blockCodes bs).map (· - mn), d < 2 ^ codeWidth mode := List.forall_mem_map.mpr fun x hx => by
    have close := near x hx mn mem
    have pos := Nat.two_pow_pos (codeWidth mode)
    omega
  have again : ((List.range 32).map fun j => min 15 (mn + ((blockCodes bs).map (· - mn)).getD j 0)) = blockCodes bs := by
    refine List.ext_getElem (by simp [length_blockCodes]) fun j hj hj' => ?_
    have above := least _ (List.getElem_mem hj')
    have below := blockCodes_lt _ (List.getElem_mem hj')
    have code : min 15 (mn + ((blockCodes bs)[j] - mn)) = (blockCodes bs)[j] := by omega
    simpa [hj'] using code
  have expands := expandBlock_flat known (blockCodes_lt mn mem) (by rw [List.length_map, length_blockCodes]) small
  rw [code, expands, again, packBytes_blockCodes len]

/-! ### The obligation -/

/-- Settles O29: ARGMAX and the motion search are Mathlib's `argmax` and `argmin`, NMS keeps records that are pairwise apart, and the block
code is a change of digits that loses none while the shift is 0. -/
theorem selectionsFollowTheirRules : Obligations.SelectionsFollowTheirRules := by
  unfold Obligations.SelectionsFollowTheirRules
  refine ⟨fun xs => argmaxOf_first, fun per u n cs => ⟨?_, fun k hk => ?_, fun i j a b => nmsKeep_getElem?_apart⟩,
    fun cost l ne => ?_, fun mode bs known len => ?_⟩
  · simpa using nmsKeep_length cs [] n
  · exact (mem_nmsKeep hk).resolve_left List.not_mem_nil
  · obtain ⟨v, mem, best, least⟩ := bestVector_least cost ne
    refine ⟨v, mem, best, fun w hw => ?_⟩
    have unbeaten := mt vectorKey_lt.mpr (least w hw)
    dsimp only
    omega
  · refine ⟨?_, fun near => expandBlock_compressBlock known len ?_⟩
    · rw [length_compressBlock]
      rcases known with rfl | rfl <;> rfl
    · rcases known with rfl | rfl <;> exact near

end Sys2Proof.Machine
end

section
/-! Host commands on a stream (R414, R415, R419): a row of the command set runs on the open stream that it names, and is refused without it. -/

namespace Sys2Proof.Machine

section
variable {i : Instr} {q cid : Nat} {r : CmdRow} {work : HostCmd → Nat → Stream → State → State} {c : HostCmd} {s : State}

/-- An accepted command on a stream does its row's work, begun. -/
theorem exec_openStream {x : Stream} (row : exec i s = streamCommand q cid r work s) (known : hostRow i = some (q, cid, r))
    (h : Accepts i c s) (o : stream? s (arg c 0 1) = some x) : exec i s = .next (work c (arg c 0 1) x (startCmd c s)) := by
  obtain ⟨taken, ok⟩ := h.of known
  exact row.trans (streamCommand_accepted taken ok o)

/-- Without the stream it ends with 0x0005 (R415). -/
theorem exec_closedStream (row : exec i s = streamCommand q cid r work s) (known : hostRow i = some (q, cid, r))
    (h : Accepts i c s) (o : stream? s (arg c 0 1) = none) : exec i s = .next (endCmd c 0x0005 (startCmd c s)) := by
  obtain ⟨taken, ok⟩ := h.of known
  rw [row, streamCommand, runCommand_accepted taken ok]
  show Host.Outcome.next (match stream? s (arg c 0 1) with | none => _ | some x => _) = _
  rw [o]

end

/-! ### Settings and statistics of a stream (R222, R228, R264, R269, R293, R422) -/

/-- The first field of STREAM_STATS counts the served frames. -/
theorem slice_statsBytes (x : Stream) : slice (statsBytes x) 0 8 = leBytes 8 x.counts.served := by
  simp [slice, statsBytes, padTo, length_leBytes, List.take_append]

theorem length_statsBytes (x : Stream) : (statsBytes x).length = 128 := by
  simp [statsBytes, padTo, length_leBytes]

/-- Settles O15: each row does its own work on the open stream, and `exec_closedStream` where there is none. -/
theorem streamSettingsChangeTheirStream : Obligations.StreamSettingsChangeTheirStream := by
  unfold Obligations.StreamSettingsChangeTheirStream
  rintro q cid n c s rfl t set
  refine ⟨fun i hi h o => ?_, fun x o => ⟨fun h small => ?_, fun h small => ?_, fun h small => ⟨fun coded => ?_, fun plain => ?_⟩, fun h => ?_,
    fun k h candidate due digest => ?_, fun h => ⟨statsBytes x, length_statsBytes x, slice_statsBytes x, ?_⟩⟩⟩
  · simp only [List.mem_cons, List.not_mem_nil, or_false] at hi
    rcases hi with rfl | rfl | rfl | rfl | rfl | rfl
    · exact exec_closedStream (.refl (execSetDecodeMode q cid s)) rfl h o
    · exact exec_closedStream (.refl (execSetAnalyseConcealed q cid s)) rfl h o
    · exact exec_closedStream (.refl (execLiftQuarantine q cid s)) rfl h o
    · exact exec_closedStream (.refl (execSetAdaptationMode q cid s)) rfl h o
    · exact exec_closedStream (.refl (execStreamStats q cid s)) rfl h o
    · exact exec_closedStream (.refl (execAdaptAdopt q cid s)) rfl h o
  · have run := exec_openStream (i := .setAnalyseConcealed q cid) (.refl (execSetAnalyseConcealed q cid s)) rfl h o
    exact run.trans (congrArg _ (if_neg (Nat.not_lt_of_le small)))
  · have run := exec_openStream (i := .setAdaptationMode q cid) (.refl (execSetAdaptationMode q cid s)) rfl h o
    exact run.trans (congrArg _ (if_neg (Nat.not_lt_of_le small)))
  · have run := exec_openStream (i := .setDecodeMode q cid) (.refl (execSetDecodeMode q cid s)) rfl h o
    have decodes : isCoded x = true := by simpa [isCoded, or_assoc] using coded
    exact run.trans (congrArg _ ((if_neg (Nat.not_lt_of_le small)).trans (if_pos decodes)))
  · have run := exec_openStream (i := .setDecodeMode q cid) (.refl (execSetDecodeMode q cid s)) rfl h o
    have raw : isCoded x = false := by rcases plain with e | e <;> simp [isCoded, e]
    exact run.trans (congrArg _ ((if_neg (Nat.not_lt_of_le small)).trans (if_neg (ne_true_of_eq_false raw))))
  · exact exec_openStream (i := .liftQuarantine q cid) (.refl (execLiftQuarantine q cid s)) rfl h o
  · have run := exec_openStream (i := .adaptAdopt q cid) (.refl (execAdaptAdopt q cid s)) rfl h o
    rw [candidate] at run
    exact run.trans (congrArg _ (if_neg (not_or.mpr ⟨Nat.not_lt_of_le due, not_not.mpr digest⟩)))
  · exact exec_openStream (i := .streamStats q cid) (.refl (execStreamStats q cid s)) rfl h o

/-! ### SET_LINKS (R176) and SET_CAPTURE_SET (R200, R202) -/

section
variable {n : Nat} {x : Stream} {s t : State}

/-- The links of a stream take a new list, and with it the gallery and the commits of the listed sources stay. -/
def relinked (es : List (Nat × Nat)) (x : Stream) : Stream :=
  { x with
    links := es, gallery := x.gallery.filter fun g => es.contains (g.chip, g.stream)
    commits := x.commits.filter fun k => es.contains (k.1, k.2.1) }

theorem dropGallery_upkeep (n : Nat) (s : State) : Upkeep s (dropGallery n s) :=
  unreserve_upkeep ((Upkeep.refl s).foldl fun _ _ => endSeq_upkeep)

theorem galleryFor_held (h : ∃ y ∈ s.aviary.seqs, y.2.kind = .gallery ∧ y.2.stream = n) : galleryFor n x s = .ok s := by
  obtain ⟨y, hy, kind, stream⟩ := h
  have has : (s.aviary.seqs.any fun y => y.2.kind == .gallery && y.2.stream == n) = true :=
    List.any_eq_true.mpr ⟨y, hy, by simp [kind, stream]⟩
  unfold galleryFor
  dsimp only
  rw [if_pos has]

theorem setPort_frame (sec : SourceSection) (s : State) : setPort sec s = { s with sensors := (setPort sec s).sensors } := by
  cases sec with
  | belvedere port channel dt w h lanes rate order polarity =>
    rw [show setPort (.belvedere port channel dt w h lanes rate order polarity) s = if portBusy s port then s else
      updSensor port (fun p => { p with lanes := lanes, laneRate := rate, laneOrder := order, polarity := polarity }) s from rfl]
    split <;> rfl
  | _ => rfl

/-- A stream's capture takes a new set, to be adopted with the commands that wait for it. -/
theorem updCapture_pending {old : Capture} (o : stream? s n = some x) (held : x.capture = some old) (new : CaptureSet)
    (p : Option (Nat × List (Nat × Nat))) : updCapture n (fun k => { k with shadow := new, pending := p }) s
      = updStream n (fun x => { x with capture := some { old with shadow := new, pending := p } }) s := by
  unfold updCapture updStream
  congr 1
  refine upd_congr (stream?_eq_some.mp o) ?_
  simp [held]

end

/-- Settles O17: the rows of SET_LINKS and SET_CAPTURE_SET, branch by branch. -/
theorem streamSetBlocksAreTaken : Obligations.StreamSetBlocksAreTaken := by
  unfold Obligations.StreamSetBlocksAreTaken
  rintro q cid n c x s rfl o t es
  have inLinks : (es.any fun e => decide (6 ≤ e.1 ∨ 128 ≤ e.2)) = true ↔ ∃ e ∈ es, 6 ≤ e.1 ∨ 128 ≤ e.2 := by
    simp only [List.any_eq_true, decide_eq_true_eq]
  refine ⟨fun h => ?_, fun sec old new h held given => ?_, fun sec h lacks => ?_⟩
  · have run := exec_openStream (i := .setLinks q cid) (.refl (execSetLinks q cid s)) rfl h o
    refine ⟨fun bad => run.trans (congrArg _ (if_pos (inLinks.mpr bad))), fun none => ?_, fun ne good => ?_⟩
    · have inside : ¬ (es.any fun e => decide (6 ≤ e.1 ∨ 128 ≤ e.2)) = true := by
        rw [none]
        exact Bool.false_ne_true
      refine ⟨_, run.trans (congrArg _ ((if_neg inside).trans (if_pos (List.isEmpty_iff.mpr none)))), ?_⟩
      rw [stream?_updStream ((stream?_of_streams (dropGallery_upkeep _ t).streams).trans o)]
      show some (relinked es x) = _
      rw [none]
      simp [relinked]
    · have inside : ¬ (es.any fun e => decide (6 ≤ e.1 ∨ 128 ≤ e.2)) = true := by
        intro bad
        obtain ⟨e, he, out⟩ := inLinks.mp bad
        have := good e he
        omega
      have some : ¬ es.isEmpty = true := mt List.isEmpty_iff.mp ne
      have kept := run.trans (congrArg _ ((if_neg inside).trans (if_neg some)))
      refine ⟨fun held => kept.trans ?_, fun st fails => kept.trans ?_⟩
      · rw [galleryFor_held (s := t) held]
        rfl
      · rw [fails]
  · have run := exec_openStream (i := .setCaptureSet q cid sec) (.refl (execSetCaptureSet q cid sec s)) rfl h o
    rw [held, given] at run
    intro k r
    have admitted (fits : captureOk new k.1 k.2 = true) (free : channelTaken s (arg c 0 1) new = false) :
        ¬ (!captureOk new k.1 k.2 || channelTaken t (arg c 0 1) new) = true := by
      rw [fits, show channelTaken t (arg c 0 1) new = false from free]
      exact Bool.false_ne_true
    refine ⟨fun bad => ?_, fun fits free loaded => ?_, fun fits free carried => ?_⟩
    · refine run.trans (congrArg _ (if_pos ?_))
      rcases bad with e | e
      · exact Bool.or_eq_true_iff.mpr (.inl ((Bool.not_eq_true' _).mpr e))
      · exact Bool.or_eq_true_iff.mpr (.inr e)
    · refine run.trans (congrArg _ ((if_neg (admitted fits free)).trans (if_pos loaded)))
    · refine run.trans (congrArg _ (((if_neg (admitted fits free)).trans (if_neg (ne_true_of_eq_false carried))).trans ?_))
      have o' : stream? (setPort sec t) (arg c 0 1) = some x := by
        rw [setPort_frame]
        exact o
      refine (updCapture_pending o' held new _).trans ?_
      rw [setPort_frame]
      rfl
  · have run := exec_openStream (i := .setCaptureSet q cid sec) (.refl (execSetCaptureSet q cid sec s)) rfl h o
    rcases lacks with e | e
    · rw [e] at run
      exact run
    · rw [e] at run
      cases hx : x.capture with
      | none => rw [hx] at run; exact run
      | some old => rw [hx] at run; exact run

end Sys2Proof.Machine
end

section
/-! What the work of the memory and of the cells keeps of the Aviary and of host memory (R305, R316, R338 to R342), and of the report that
the source of the page movers has captured (R365). -/

namespace Sys2Proof.Machine

/-- The Aviary and host memory are those of `p`. -/
structure Lodged (p s : State) : Prop where
  aviary : s.aviary = p.aviary
  host : s.mem.host = p.mem.host

section
variable {p s t : State}

theorem Lodged.refl (s : State) : Lodged s s := ⟨rfl, rfl⟩

theorem Lodged.trans (h : Lodged p s) (k : Lodged s t) : Lodged p t := ⟨k.aviary.trans h.aviary, k.host.trans h.host⟩

theorem Lodged.still (h : Lodged p s) (a : t.aviary = s.aviary) (m : t.mem.host = s.mem.host) : Lodged p t := h.trans ⟨a, m⟩

theorem Lodged.mem (h : Lodged p s) (e : MemFrame s t) : Lodged p t := h.trans ⟨by rw [e], by rw [e]⟩

theorem Lodged.ite {c : Prop} [Decidable c] {a b : State} (ha : Lodged p a) (hb : Lodged p b) : Lodged p (if c then a else b) := by
  split
  · exact ha
  · exact hb

theorem Lodged.foldl {α : Type} {f : State → α → State} {l : List α} (h : Lodged p s) (hf : ∀ s x, Lodged p s → Lodged p (f s x)) :
    Lodged p (l.foldl f s) := by
  induction l generalizing s with
  | nil => exact h
  | cons x l ih => exact ih (hf s x h)

/-! ### Memory and translation (R305, R308, R314 to R316) -/

theorem logErr_lodged {st i u : Nat} {a : LogArgs} (h : Lodged p s) : Lodged p (logErr st i u s a) := h.mem (.log (logErr_frame ..))

theorem unitRead_lodged {k : ReqClass} {a n : Nat} (h : Lodged p s) : Lodged p (unitRead k a n s) := h.mem (unitRead_memFrame ..)

theorem clearDeferred_lodged {a : Nat} (h : Lodged p s) : Lodged p (clearDeferred a s) := by
  unfold clearDeferred
  split
  · exact h
  · exact .ite ⟨h.aviary, h.host⟩ ⟨h.aviary, h.host⟩

theorem settleWord_lodged {cs : List Cell} {w : Nat} (h : Lodged p s) : Lodged p (settleWord cs w s) := by
  unfold settleWord
  extract_lets here full marked
  split
  have marks : Lodged p (if marked then updMem (fun m => { m with sramPoison := setAdd w m.sramPoison }) s else s) :=
    .ite ⟨h.aviary, h.host⟩ h
  exact .ite ⟨h.aviary, h.host⟩ (.ite (logErr_lodged ⟨h.aviary, h.host⟩) (.ite (marks.mem (correctWord_memFrame ..)) marks))

theorem settleLine_lodged {k : ReqClass} {cs : List Cell} {l : Nat} (h : Lodged p s) : Lodged p (settleLine k cs l s) := by
  unfold settleLine
  split
  · exact h
  · refine Lodged.mem ?_ (unitLine_memFrame ..)
    exact (h.foldl fun s x h => h.mem (noteWord_memFrame x s)).still rfl rfl

theorem writePhys_lodged {k : ReqClass} {cs : List Cell} (h : Lodged p s) : Lodged p (writePhys k cs s) := by
  unfold writePhys
  extract_lets t u words lines
  have ht : Lodged p t := ⟨h.aviary, h.host⟩
  have cleared : Lodged p (cs.foldl (fun s c => clearDeferred c.addr s) t) := ht.foldl fun _ _ => clearDeferred_lodged
  have hu : Lodged p u := .ite cleared ⟨cleared.aviary, cleared.host⟩
  exact (hu.foldl fun _ _ => settleWord_lodged).foldl fun _ _ => settleLine_lodged

theorem microFill_lodged {g : Nat} {e : TlbEntry} (h : Lodged p s) : Lodged p (microFill g e s) := .ite h ⟨h.aviary, h.host⟩

theorem tlbFill_lodged {g n : Nat} (h : Lodged p s) : Lodged p (tlbFill g n s) := by
  unfold tlbFill
  refine .ite h ?_
  split
  · exact microFill_lodged h
  · extract_lets t
    have ht : Lodged p t := h.foldl fun _ _ => unitRead_lodged
    split
    · exact ht
    · exact microFill_lodged ⟨ht.aviary, ht.host⟩

theorem noteWindow_lodged {w : Bool} {a n : Nat} (h : Lodged p s) : Lodged p (noteWindow w a n s) := by
  unfold noteWindow
  extract_lets pages t
  have ht : Lodged p t := h.foldl fun _ _ => tlbFill_lodged
  split
  · exact logErr_lodged ht
  · exact ht

/-! ### Cells (R338 to R342) -/

theorem setNext_lodged {i n : Nat} (h : Lodged p s) : Lodged p (setNext i n s) := writePhys_lodged h

theorem setCount_lodged {i n : Nat} (h : Lodged p s) : Lodged p (setCount i n s) := writePhys_lodged h

theorem setAccount_lodged {i n : Nat} (h : Lodged p s) : Lodged p (setAccount i n s) := writePhys_lodged h

theorem writeBack_lodged {q : Nat} (h : Lodged p s) : Lodged p (writeBack q s) := by
  unfold writeBack
  split
  · exact h
  · have written (cs : List Cell) := writePhys_lodged (k := .be) (cs := cs) h
    exact .ite ⟨(written _).aviary, (written _).host⟩ h

theorem releaseOp_lodged {i : Nat} (h : Lodged p s) : Lodged p (releaseOp i s) := by
  have counted (n : Nat) : Lodged p (setCount i n (noteCell i s)) := setCount_lodged (unitRead_lodged h)
  have freed := unitRead_lodged (k := .control) (a := ownerAddr (setCount i (cellCount s i - 1) (noteCell i s)) i) (n := 1)
    (counted (cellCount s i - 1))
  exact .ite (unitRead_lodged h) (.ite (writeBack_lodged ⟨freed.aviary, freed.host⟩) (counted _))

theorem releaseChainOp_lodged {n i : Nat} (h : Lodged p s) : Lodged p (releaseChainOp n i s) := by
  induction n generalizing i s with
  | zero => exact h
  | succ n ih => exact .ite (ih (releaseOp_lodged h)) (releaseOp_lodged h)

theorem freeChain_lodged {i : Nat} (h : Lodged p s) : Lodged p (freeChain i s) := .ite h (releaseChainOp_lodged h)

theorem refill_lodged {q : Nat} (h : Lodged p s) : Lodged p (refill q s) := by
  unfold refill
  split
  · exact h
  · have read (l : List Nat) : Lodged p (l.foldl (fun s l => unitRead .be (64 * l) 64 s) s) := h.foldl fun _ _ => unitRead_lodged
    exact .ite ⟨(read _).aviary, (read _).host⟩ h

theorem takeCell_lodged {q : Nat} (h : Lodged p s) : Lodged p (takeCell q s).2 := by
  unfold takeCell
  split
  · exact h
  · split
    · exact ⟨h.aviary, h.host⟩
    · exact h

theorem takeCells_lodged {q a n prev : Nat} (h : Lodged p s) : Lodged p (takeCells q a n prev s).2 := by
  induction n generalizing prev s with
  | zero => exact h
  | succ n ih =>
    have fresh (c : Nat) : Lodged p (setAccount c a (setCount c 1 (setNext c 0 (takeCell q s).2))) :=
      setAccount_lodged (setCount_lodged (setNext_lodged (takeCell_lodged h)))
    exact ih (.ite (fresh _) (setNext_lodged (fresh _)))

theorem allocCells_lodged {q a n tail : Nat} (h : Lodged p s) : Lodged p (allocCells q a n tail s).2 := by
  have taken := takeCells_lodged (q := q) (a := a) (n := n) (prev := tail) (refill_lodged (q := q) h)
  exact refill_lodged ⟨taken.aviary, taken.host⟩

theorem allocOp_lodged {q a n tail : Nat} {r : Bool} (h : Lodged p s) : Lodged p (allocOp q a n r tail s).2.2 := by
  unfold allocOp
  extract_lets st t
  have ht : Lodged p t := .ite h (unitRead_lodged h)
  split
  · exact ht
  · split
    · exact .ite ht ⟨ht.aviary, ht.host⟩
    · exact allocCells_lodged ht

theorem fillCell_lodged {k : ReqClass} {i : Nat} {d : List Byte} {m : List Bool} (h : Lodged p s) : Lodged p (fillCell k i d m s) :=
  .ite h (writePhys_lodged h)

/-! ### Frames of pages and the cells of a transfer (R159 to R166, R357) -/

theorem noteFrame_lodged {k : Tier} {f : Nat} (h : Lodged p s) : Lodged p (noteFrame k f s) :=
  .ite (noteWindow_lodged h) (unitRead_lodged h)

theorem readingFor_lodged {r : Reader} {work : State → State} (h : Lodged p s) (hw : ∀ s, Lodged p s → Lodged p (work s)) :
    Lodged p (readingFor r work s) := by
  have done := hw (updMem (fun m => { m with reader := r }) s) ⟨h.aviary, h.host⟩
  exact ⟨done.aviary, done.host⟩

theorem loadTransfer_lodged {k : ReqClass} {n : Nat} {bs : List (Byte × Bool)} (h : Lodged p s) : Lodged p (loadTransfer k n bs s) :=
  h.foldl fun _ _ => fillCell_lodged

theorem takeTransfer_lodged {n : Nat} (e : takeTransfer s = some (n, t)) : Lodged s t := by
  unfold takeTransfer at e
  split at e
  · cases e
    exact .refl s
  · next q pool =>
    have ht : Lodged s (allocOp q 255 (transferCells s) true 0 s).2.2 := allocOp_lodged (.refl s)
    split at e
    · cases e
    · split at e
      · next taken =>
        cases e
        rwa [taken] at ht
      · cases e

theorem writeHost_aviary (cs : List Cell) (s : State) : (writeHost cs s).aviary = s.aviary := by
  have sent (l : List (List Cell)) (t : State) : (l.foldl (fun s t => emitEp t s) t).aviary = t.aviary := by
    induction l generalizing t with
    | nil => rfl
    | cons x l ih =>
      rw [List.foldl_cons, ih]
      unfold emitEp
      split <;> rfl
  unfold writeHost
  split
  · rfl
  · split
    · exact (logErr_lodged (.refl s)).aviary
    · exact sent ..

theorem putFrame_aviary (k : Tier) (f : Nat) (bs : List (Byte × Bool)) (s : State) : (putFrame k f bs s).aviary = s.aviary := by
  unfold putFrame
  dsimp only
  split
  · unfold windowWrite
    rw [writeHost_aviary]
    exact (writePhys_lodged (noteWindow_lodged (.refl s))).aviary
  · exact (writePhys_lodged (.refl s)).aviary

end
/-! ### The report that the source of the page movers has captured (R162, R365) -/

section
variable {i u : Nat} {r : Report} {s t v : State}

theorem dueFlush_captured_any (i u j v : Nat) (s : State) : (getSource j v (dueFlush i u s)).captured = (getSource j v s).captured := by
  unfold dueFlush
  extract_lets y
  split
  · split
    · obtain ⟨island, unit⟩ := getSource_key i u s
      refine (flushSource_captured ..).trans (putSource_captured ?_ j v)
      show y.captured = (getSource y.island y.unit s).captured
      rw [island, unit]
    · rfl
  · rfl

/-- A report of another source captures nothing here. -/
theorem report_captured_other (ne : ¬ (r.island = i ∧ r.unit = u)) : (getSource i u (report r s)).captured = (getSource i u s).captured := by
  unfold report
  extract_lets -merge -underBinder +onlyGivenNames w x y t o z
  have flushed : (getSource i u w).captured = (getSource i u s).captured := dueFlush_captured_any ..
  obtain ⟨island, unit⟩ : x.island = r.island ∧ x.unit = r.unit := getSource_key ..
  have stored (y : ErrorSource) (hy : y.island = x.island ∧ y.unit = x.unit) : getSource i u (putSource y w) = getSource i u w := by
    refine getSource_putSource_other ?_ w
    rw [hy.1, hy.2, island, unit]
    simpa using ne
  split
  · rw [stored, flushed]
    split <;> exact ⟨rfl, rfl⟩
  · rw [writeEntry_captured, flushSource_captured]
    let fresh := { y with interval := some (r.status, t), counter := 0, first := none, anyTorn := false, anyPoison := false }
    exact (congrArg ErrorSource.captured (stored fresh ⟨rfl, rfl⟩)).trans flushed

/-- The addresses of the hot tier, whose words report under the page movers' source. -/
def InHot (a : Nat) : Prop := 0x8000000 ≤ a ∧ a < 0x9000000

theorem addr_of_orangery {a : Nat} (h : regionOf a = .orangery) : a < 0x6000000 := by grind [regionOf]

theorem addr_of_pergola {a : Nat} (h : regionOf a = .pergola) : a < 0x6400000 := by grind [regionOf]

theorem addr_of_hot {a : Nat} (h : regionOf a = .hot) : InHot a := by grind [regionOf, InHot]

/-- Only the hot tier's words, of all that a DRAM or SRAM access notes, report under the source of the page movers. -/
theorem wordSource_cool {a : Nat} (cool : ¬ InHot a) (s : State) : ¬ ((wordSource s a).1 = 38 ∧ (wordSource s a).2 = 0) := by
  unfold InHot at cool
  unfold wordSource
  split
  · next outside =>
    simp only [outsideSram, decide_eq_true_eq] at outside
    dsimp only
    omega
  · split
    · next sram =>
      unfold addrSource
      split
      · exact fun e => absurd (show 39 = 38 from e.1) (by decide)
      · next region =>
        have := addr_of_orangery region
        dsimp only
        omega
      · next region =>
        have := addr_of_pergola region
        dsimp only
        omega
      · next region => exact absurd (addr_of_hot region) cool
      · next terrace orangery pergola hot =>
        unfold isSram at sram
        split at sram
        · next region => exact absurd region terrace
        · next region => exact absurd region orangery
        · next region => exact absurd region pergola
        · next region => exact absurd region hot
        · cases sram
    · decide

/-- From `s` to `t` the page movers' source captures nothing. -/
def MoverQuiet (s t : State) : Prop := (getSource 38 0 t).captured = (getSource 38 0 s).captured

theorem MoverQuiet.refl (s : State) : MoverQuiet s s := rfl

theorem MoverQuiet.trans (h : MoverQuiet s t) (k : MoverQuiet t v) : MoverQuiet s v := Eq.trans k h

theorem MoverQuiet.still (e : t.err = s.err) : MoverQuiet s t := congrArg ErrorSource.captured (getSource_of_sources (by rw [e]) ..)

theorem MoverQuiet.ite {c : Prop} [Decidable c] {f g : State} (hf : MoverQuiet s f) (hg : MoverQuiet s g) : MoverQuiet s (if c then f else g) := by
  split
  · exact hf
  · exact hg

theorem MoverQuiet.foldl {α : Type} {f : State → α → State} {l : List α} (hf : ∀ s, ∀ x ∈ l, MoverQuiet s (f s x)) (s : State) :
    MoverQuiet s (l.foldl f s) := by
  induction l generalizing s with
  | nil => exact .refl s
  | cons x l ih => exact (hf s x (List.mem_cons_self ..)).trans (ih (fun s y hy => hf s y (List.mem_cons_of_mem _ hy)) _)

theorem logErr_moverQuiet {st : Nat} {a : LogArgs} (ne : ¬ (i = 38 ∧ u = 0)) (s : State) : MoverQuiet s (logErr st i u s a) :=
  report_captured_other ne

theorem presentWrite_moverQuiet (c : Nat) (r : DramReq) (s : State) : MoverQuiet s (presentWrite c r s) := by
  unfold presentWrite
  split
  · exact .refl s
  · exact .ite (.still rfl) (.still rfl)

theorem presentRead_moverQuiet (c : Nat) (r : DramReq) (s : State) : MoverQuiet s (presentRead c r s) := by
  unfold presentRead
  split
  · exact .refl s
  · exact .ite (.still rfl) (.still rfl)

theorem saveLedger_moverQuiet (s : State) : MoverQuiet s (saveLedger s) := .ite (.still rfl) (.still rfl)

theorem countCorrection_moverQuiet (a : Nat) (s : State) : MoverQuiet s (countCorrection a s) := by
  unfold countCorrection
  refine .ite (.refl s) ?_
  extract_lets b
  split
  exact .ite (.trans (.trans (.still (by exact rfl)) (saveLedger_moverQuiet _)) (logErr_moverQuiet (by omega) _)) (.still rfl)

theorem noteWord_moverQuiet {w : Nat} (cool : ¬ InHot (8 * w)) (s : State) : MoverQuiet s (noteWord w s) := by
  refine .ite (logErr_moverQuiet (wordSource_cool cool s) s) (.ite ?_ (.refl s))
  exact .trans (.trans (.still (by exact rfl)) (logErr_moverQuiet (wordSource_cool cool s) _)) (countCorrection_moverQuiet ..)

/-- An evicted line is one of DRAM. -/
theorem evictLine_moverQuiet (c : Nat) (k : ReqClass) (w : CacheWay) (s : State) : MoverQuiet s (evictLine c k w s) := by
  unfold evictLine
  refine .ite (.refl s) ?_
  extract_lets ws bad met t
  have cool : ∀ x ∈ ws, ¬ InHot (8 * x) := by
    intro x hx
    obtain ⟨j, -, rfl⟩ := List.mem_map.mp hx
    unfold InHot lineAddr
    dsimp only
    split <;> omega
  have hm : MoverQuiet s met := .ite (.foldl (fun s x hx => noteWord_moverQuiet (cool x (List.mem_of_mem_filter hx)) s) s) (.refl s)
  have ht : MoverQuiet s t := hm.trans (.still rfl)
  exact .ite (ht.trans (presentWrite_moverQuiet ..)) ht

theorem allocateLine_moverQuiet (a : LineAccess) (s : State) : MoverQuiet s (allocateLine a s) := by
  unfold allocateLine
  extract_lets -merge -underBinder +onlyGivenNames x i full mark u w
  have hu : MoverQuiet s u := by
    unfold u
    split
    · exact evictLine_moverQuiet ..
    · exact .refl s
  have hw : MoverQuiet s w := .ite hu (hu.trans (presentRead_moverQuiet ..))
  exact hw.trans (.still rfl)

theorem unitLine_moverQuiet (a : LineAccess) (s : State) : MoverQuiet s (unitLine a s) := by
  have accessed : MoverQuiet s (accessLine a s) := by
    unfold accessLine
    extract_lets x
    split
    · exact .still rfl
    · exact .ite (.ite (presentWrite_moverQuiet ..) (presentRead_moverQuiet ..)) (allocateLine_moverQuiet ..)
  unfold unitLine
  split
  · exact accessed.trans (.still rfl)
  · exact accessed

/-- The cells fill each word that they touch. -/
def FillsWords (cs : List Cell) : Prop := ∀ c ∈ cs, ∀ i < 8, ∃ d ∈ cs, d.addr = 8 * (c.addr / 8) + i

theorem FillsWords.full {cs : List Cell} (h : FillsWords cs) {c : Cell} (hc : c ∈ cs) {p : Cell → Bool}
    (hp : ∀ d ∈ cs, d.addr / 8 = c.addr / 8 → p d = true) :
    ((List.range 8).all fun i => (cs.filter p).any fun d => d.addr == 8 * (c.addr / 8) + i) = true := by
  refine List.all_eq_true.mpr fun i hi => List.any_eq_true.mpr ?_
  have small := List.mem_range.mp hi
  obtain ⟨d, hd, place⟩ := h c hc i small
  exact ⟨d, List.mem_filter.mpr ⟨hd, hp d hd (by omega)⟩, beq_iff_eq.mpr place⟩

theorem settleWord_moverQuiet {cs : List Cell} (h : FillsWords cs) {c : Cell} (hc : c ∈ cs) (s : State) :
    MoverQuiet s (settleWord cs (c.addr / 8) s) := by
  unfold settleWord
  extract_lets here full marked
  have filled : full = true := h.full hc fun d _ e => beq_iff_eq.mpr e
  split
  rw [if_pos filled]
  exact .still rfl

theorem settleLine_moverQuiet {cs : List Cell} (h : FillsWords cs) (k : ReqClass) (l : Nat) (s : State) :
    MoverQuiet s (settleLine k cs l s) := by
  unfold settleLine
  split
  · exact .refl s
  · extract_lets here full ws bad mark noted
    have whole : bad = [] := by
      refine List.filter_eq_nil_iff.mpr fun w hw => ?_
      obtain ⟨c, hc, rfl⟩ := List.mem_map.mp (List.mem_eraseDups.mp (List.mem_of_mem_filter hw))
      obtain ⟨mem, line⟩ := List.mem_filter.mp hc
      have filled : full (c.addr / 8) = true := h.full mem fun d _ e => by
        rw [beq_iff_eq] at line ⊢
        omega
      rw [filled]
      decide
    have quiet : MoverQuiet s noted := by
      unfold noted
      rw [whole]
      exact .refl s
    exact (quiet.trans (.still rfl)).trans (unitLine_moverQuiet ..)

theorem writePhys_moverQuiet {cs : List Cell} (h : FillsWords cs) (k : ReqClass) (s : State) : MoverQuiet s (writePhys k cs s) := by
  unfold writePhys
  extract_lets t v words lines
  have cleared : MoverQuiet t (cs.foldl (fun s c => clearDeferred c.addr s) t) := .foldl (fun s c _ => by
    unfold clearDeferred
    split
    · exact .refl s
    · exact .ite (.still rfl) (.still rfl)) t
  have hv : MoverQuiet s v := MoverQuiet.trans (.still rfl) (.ite cleared (cleared.trans (.still rfl)))
  refine (hv.trans (.foldl (fun s w hw => ?_) v)).trans (.foldl (fun s l _ => settleLine_moverQuiet h k l s) _)
  obtain ⟨c, hc, rfl⟩ := List.mem_map.mp (List.mem_eraseDups.mp hw)
  exact settleWord_moverQuiet h (List.mem_of_mem_filter hc) s

end

end Sys2Proof.Machine
end

section
/-! The tiers of the Aviary's pages (R162 to R166, R338, R341, R357): how a fill and a spill begin, end and fail. -/

namespace Sys2Proof.Machine

section
variable {n h : Nat} {p q : Page} {s t u : State}

theorem tabGet_tabUpd {α : Type} (k : Nat) (f : α → α) (t : Tab α) : tabGet k (tabUpd k f t) = (tabGet k t).map f := by
  unfold tabUpd
  split
  · next v e => rw [tabGet_tabPut_self, e]; rfl
  · next e => rw [e]; rfl

/-- A page after its change, which the rest of the memory's work leaves alone. -/
theorem tabGet_updPage {f : Page → Page} (k : Lodged s t) (hp : tabGet n s.aviary.pages = some p) :
    tabGet n (updPage n f t).aviary.pages = some (f p) := by
  show tabGet n (tabUpd n f t.aviary.pages) = _
  rw [tabGet_tabUpd, k.aviary, hp]
  rfl

theorem canAsk_upkeep (k : Upkeep s t) : canAsk t = canAsk s := by
  rw [k]
  rfl

/-! ### A transfer begins (R162, R164, R338, R341) -/

/-- A transfer that begins changes its page, ends its wait for cells, and works in memory and cells. -/
theorem beginTransfer_page {f : Page → Page} (hu : Lodged s u) (hp : tabGet n s.aviary.pages = some p) :
    tabGet n (beginTransfer n f p h u).aviary.pages = some { f p with tier := .moving, source := p.tier, cells := h }
      ∧ (beginTransfer n f p h u).aviary.fills = s.aviary.fills ∧ (beginTransfer n f p h u).aviary.spills = s.aviary.spills := by
  unfold beginTransfer
  extract_lets w
  have loaded (k : ReqClass) (t : Tier) (from_ : Nat) (bs : List (Byte × Bool)) :
      Lodged w (loadTransfer k h bs (readingFor (.page n) (noteFrame t from_) w)) :=
    loadTransfer_lodged (readingFor_lodged (.refl w) fun _ => noteFrame_lodged)
  have hw : tabGet n w.aviary.pages = some p := by
    show tabGet n u.aviary.pages = _
    rw [hu.aviary, hp]
  refine ⟨tabGet_updPage (loaded ..) hw, (congrArg Aviary.fills (loaded ..).aviary).trans ?_,
    (congrArg Aviary.spills (loaded ..).aviary).trans ?_⟩
  · show u.aviary.fills = _
    rw [hu.aviary]
  · show u.aviary.spills = _
    rw [hu.aviary]

theorem startTransfer_takes {f : Page → Page} (hp : tabGet n s.aviary.pages = some p) (taken : takeTransfer s = some (h, u)) :
    startTransfer n f s = beginTransfer n f p h u := by
  unfold startTransfer
  rw [hp, taken]

theorem startTransfer_starves {f : Page → Page} (hp : tabGet n s.aviary.pages = some p) (none : takeTransfer s = none) :
    startTransfer n f s = starve n s := by
  unfold startTransfer
  rw [hp, none]

theorem startTransfer_upkeep {f : Page → Page} (hp : tabGet n s.aviary.pages = some p) (taken : takeTransfer s = some (h, u)) :
    Upkeep s (startTransfer n f s) := by
  rw [startTransfer_takes hp taken]
  exact beginTransfer_upkeep (takeTransfer_upkeep (.refl s) taken)

theorem starve_keeps (n : Nat) (s : State) : (starve n s).aviary.pages = s.aviary.pages ∧ (starve n s).aviary.spills = s.aviary.spills := by
  unfold starve
  split
  · exact ⟨rfl, rfl⟩
  · constructor <;> rw [(logErr_lodged (.refl _)).aviary] <;> rfl

theorem failsNow_eq (hp : tabGet n s.aviary.pages = some p) : failsNow s n = (p.tier == .moving && coldFails s p true) := by
  unfold failsNow
  rw [hp]

theorem coldFails_warm (asks : p.backCold = false ∨ canAsk s = true) : coldFails s p true = false := by
  rcases asks with e | e <;> simp [coldFails, e]

theorem coldFails_cold (cold : p.backCold = true) (silent : canAsk s = false) (ok : Bool) : coldFails s p ok = true := by
  simp [coldFails, cold, silent]

theorem coldFails_failed (cold : p.backCold = true) : coldFails s p false = true := by simp [coldFails, cold]

theorem transferStatus_failed (cold : p.backCold = true) (s : State) (bad : Option Nat) : transferStatus (coldFails s p false) bad = 0x0504 := by
  rw [coldFails_failed cold]
  rfl

/-! ### DEMAND_FILL (R162, R166, R338) -/

theorem exec_demandFill (hp : tabGet n s.aviary.pages = some p) (wanted : n ∈ s.aviary.fills) (away : p.tier = .warm ∨ p.tier = .cold)
    (room : kvGran s ≤ hotFree s) : exec (.demandFill n) s = .next (fillIn n s) := by
  show execDemandFill n s = _
  unfold execDemandFill
  rw [hp]
  exact doneIf_pos (by rcases away with e | e <;> simp [wanted, e, room]) ..

theorem exec_demandFill_full (hp : tabGet n s.aviary.pages = some p) (full : hotFree s < kvGran s) :
    exec (.demandFill n) s = .next s := by
  show execDemandFill n s = _
  unfold execDemandFill
  rw [hp]
  dsimp only
  rw [doneIf, decide_eq_false (Nat.not_le_of_lt full), Bool.and_false]
  rfl

/-- Whether a fill that has begun fails at once turns on the page that it moves. -/
theorem fillIn_eq (hq : tabGet n (startFill n s).aviary.pages = some q) :
    fillIn n s = if q.tier == .moving && coldFails (startFill n s) q true then endFill n q false (startFill n s) else startFill n s := by
  unfold fillIn
  dsimp only
  rw [hq]
  dsimp only
  rw [failsNow_eq hq]

/-- The page of a fill that has begun. -/
def filling (s : State) (p : Page) (h : Nat) : Page :=
  { p with tier := .moving, source := p.tier, cells := h, frame := freeRun (hotUsed s) (kvGran s), lastUse := curBeat s }

theorem startFill_page (hp : tabGet n s.aviary.pages = some p) (taken : takeTransfer s = some (h, u)) :
    tabGet n (startFill n s).aviary.pages = some (filling s p h) ∧ (startFill n s).aviary.fills = s.aviary.fills := by
  obtain ⟨page, fills, -⟩ := beginTransfer_page (f := toHot s) (h := h) (takeTransfer_lodged taken) hp
  unfold startFill
  rw [startTransfer_takes hp taken]
  exact ⟨page, fills⟩

theorem fillIn_moves (hp : tabGet n s.aviary.pages = some p) (taken : takeTransfer s = some (h, u))
    (asks : p.backCold = false ∨ canAsk s = true) : fillIn n s = startFill n s := by
  have kept : canAsk (startFill n s) = canAsk s := canAsk_upkeep (startTransfer_upkeep hp taken)
  have warm : coldFails (startFill n s) (filling s p h) true = false := coldFails_warm (by rwa [kept])
  rw [fillIn_eq (startFill_page hp taken).1, warm, Bool.and_false]
  rfl

theorem fillIn_fails (hp : tabGet n s.aviary.pages = some p) (taken : takeTransfer s = some (h, u))
    (cold : p.backCold = true) (silent : canAsk s = false) : fillIn n s = endFill n (filling s p h) false (startFill n s) := by
  have kept : canAsk (startFill n s) = canAsk s := canAsk_upkeep (startTransfer_upkeep hp taken)
  rw [fillIn_eq (startFill_page hp taken).1, coldFails_cold (p := filling s p h) cold (kept.trans silent)]
  rfl

theorem fillIn_starves (hp : tabGet n s.aviary.pages = some p) (away : p.tier = .warm ∨ p.tier = .cold) (none : takeTransfer s = none) :
    fillIn n s = starve n s := by
  have started : startFill n s = starve n s := startTransfer_starves hp none
  have hq : tabGet n (startFill n s).aviary.pages = some p := by rw [started, (starve_keeps n s).1, hp]
  have rest : (p.tier == .moving) = false := by rcases away with e | e <;> rw [e] <;> rfl
  rw [fillIn_eq hq, rest, started, Bool.false_and]
  exact if_neg Bool.false_ne_true

/-! ### The end of a fill (R166, R338, R357) -/

/-- The page leaves the list of fills. -/
def unfilled (n : Nat) (s : State) : State := updAviary (fun a => { a with fills := setDel n a.fills }) s

theorem dropTransfer_page (hs : Lodged s t) (hp : tabGet n s.aviary.pages = some p) :
    tabGet n (dropTransfer n q t).aviary.pages = some { p with cells := 0 } :=
  tabGet_updPage (hs.trans (freeChain_lodged (.refl t))) hp

theorem dropTransfer_keeps (n : Nat) (q : Page) (s : State) : (dropTransfer n q s).mem.host = s.mem.host
    ∧ (dropTransfer n q s).aviary.unused = s.aviary.unused := by
  have freed : Lodged s (freeChain q.cells s) := freeChain_lodged (.refl s)
  refine ⟨freed.host, ?_⟩
  show (freeChain q.cells s).aviary.unused = _
  rw [freed.aviary]

theorem logTransfer_lodged {st d : Nat} {bad : Option Nat} (k : Lodged s t) : Lodged s (logTransfer st d bad t) :=
  .ite k (logErr_lodged (.ite (logErr_lodged k) k))

theorem stays_of_held (held : p.count ≠ 0 ∨ p.prefetched = true) : ¬ (p.count = 0 ∧ (!p.prefetched) = true) := by
  rintro ⟨zero, fresh⟩
  rcases held with e | e
  · exact e zero
  · rw [e] at fresh
    exact absurd fresh (by decide)

theorem endFill_whole (held : p.count ≠ 0 ∨ p.prefetched = true) (asks : p.backCold = false ∨ canAsk s = true)
    (good : (transferData s p (backTier p) p.backFrame).2 = none) : endFill n p true s =
      updPage n (fun p => { p with tier := .hot })
        (putFrame .hot p.frame (transferData s p (backTier p) p.backFrame).1 (dropTransfer n p (unfilled n s))) := by
  unfold endFill
  rw [coldFails_warm asks]
  revert good
  cases transferData s p (backTier p) p.backFrame with
  | mk bs bad =>
    rintro rfl
    refine (if_neg (stays_of_held held)).trans ?_
    simp [transferStatus, logTransfer, unfilled]

/-- What a failed fill leaves in the page's frame: free values, each with a mark. -/
def spoilt (n : Nat) (p : Page) (s : State) : State :=
  let r := freeBytes (4096 * kvGran (dropTransfer n p (unfilled n s))) (dropTransfer n p (unfilled n s))
  putFrame .hot p.frame (r.1.map fun b => (b, true)) r.2

theorem endFill_failed {st : Nat} {ok : Bool} (held : p.count ≠ 0 ∨ p.prefetched = true)
    (status : transferStatus (coldFails s p ok) (transferData s p (backTier p) p.backFrame).2 = st) (bad : st ≠ 0) :
    ∃ b, endFill n p ok s = logTransfer st n b
      (updPage n (fun p => { p with tier := .hot, poison := true, fillStatus := st }) (spoilt n p s)) := by
  refine ⟨if coldFails s p ok then none else (transferData s p (backTier p) p.backFrame).2, ?_⟩
  unfold endFill
  revert status
  cases transferData s p (backTier p) p.backFrame with
  | mk bs found =>
    intro status
    refine (if_neg (stays_of_held held)).trans ?_
    dsimp only at status ⊢
    rw [status]
    simp only [unfilled, spoilt, bne_iff_ne.mpr bad, Bool.or_true, if_neg bad]

theorem spoilt_page (hp : tabGet n s.aviary.pages = some p) : tabGet n (spoilt n q s).aviary.pages = some { p with cells := 0 } := by
  unfold spoilt
  rw [putFrame_aviary]
  exact dropTransfer_page (s := unfilled n s) (.refl _) hp

theorem endFill_failed_page {st : Nat} {ok : Bool} (hp : tabGet n s.aviary.pages = some q) (held : p.count ≠ 0 ∨ p.prefetched = true)
    (status : transferStatus (coldFails s p ok) (transferData s p (backTier p) p.backFrame).2 = st) (bad : st ≠ 0) :
    tabGet n (endFill n p ok s).aviary.pages = some { q with tier := .hot, cells := 0, poison := true, fillStatus := st } := by
  obtain ⟨b, e⟩ := endFill_failed (n := n) held status bad
  rw [e, (logTransfer_lodged (.refl _)).aviary]
  exact tabGet_updPage (.refl _) (spoilt_page hp)

/-! ### What a failed fill captures (R162, R365) -/

theorem fillsWords_run {a : Nat} {bs : List (Byte × Bool)} (base : a % 8 = 0) (len : bs.length % 8 = 0) :
    FillsWords (bs.zipIdx.map fun x => { addr := a + x.2, val := x.1.1, mark := x.1.2 }) := by
  intro c hc i small
  obtain ⟨⟨b, k⟩, hk, rfl⟩ := List.mem_map.mp hc
  have lt : k < bs.length := List.snd_lt_of_mem_zipIdx hk
  have inside : 8 * (k / 8) + i < bs.length := by omega
  refine ⟨_, List.mem_map.mpr ⟨(bs[8 * (k / 8) + i], 8 * (k / 8) + i), List.mk_mem_zipIdx_iff_getElem?.mpr ?_, rfl⟩, ?_⟩
  · exact List.getElem?_eq_getElem inside
  · dsimp only
    omega

theorem spoilt_moverQuiet (bare : p.cells = 0) (n : Nat) (s : State) : MoverQuiet s (spoilt n p s) := by
  have dropped : MoverQuiet s (dropTransfer n p (unfilled n s)) := by
    unfold dropTransfer freeChain
    rw [bare, if_pos rfl]
    exact .still rfl
  refine dropped.trans (MoverQuiet.trans (.still rfl) (writePhys_moverQuiet (fillsWords_run ?_ ?_) ..))
  · unfold frameAddr hotBase
    dsimp only
    omega
  · simp only [List.length_map, freeBytes, List.length_range]
    omega

/-- A cold transfer that failed reports at the host's island and at the page movers'. -/
theorem logTransfer_cold (n : Nat) (b : Option Nat) (s : State) :
    ∃ a c, logTransfer 0x0504 n b s = logErr 0x0504 38 0 (logErr 0x0604 2 0 s a) c := by
  unfold logTransfer
  rw [if_neg (by decide), if_pos rfl]
  exact ⟨_, _, rfl⟩

theorem endFill_cold_captures (held : p.count ≠ 0 ∨ p.prefetched = true) (cold : p.backCold = true) (bare : p.cells = 0)
    (none : (getSource 38 0 s).captured = none) :
    ((getSource 38 0 (endFill n p false s)).captured).map (·.status) = some 0x0504 := by
  obtain ⟨b, e⟩ := endFill_failed (n := n) held (transferStatus_failed cold s _) (by decide)
  have quiet : MoverQuiet s (updPage n (fun p => { p with tier := .hot, poison := true, fillStatus := 0x0504 }) (spoilt n p s)) :=
    (spoilt_moverQuiet bare n s).trans (.still rfl)
  obtain ⟨a, c, logged⟩ := logTransfer_cold n b (updPage n (fun p => { p with tier := .hot, poison := true, fillStatus := 0x0504 })
    (spoilt n p s))
  rw [e, logged]
  exact logErr_captures (Eq.trans (quiet.trans (logErr_moverQuiet (by decide) _)) none)

theorem exec_pageFillComplete (hp : tabGet n s.aviary.pages = some p) (moving : p.tier = .moving) (fills : n ∉ s.aviary.spills) (ok : Bool) :
    exec (.pageFillComplete n ok) s = .next (endFill n p ok s) := by
  show execPageFillComplete n ok s = _
  unfold execPageFillComplete
  rw [hp]
  exact doneIf_pos (by simp [moving, fills]) ..

theorem exec_pageFillComplete_spilling (hp : tabGet n s.aviary.pages = some p) (spills : n ∈ s.aviary.spills) (ok : Bool) :
    exec (.pageFillComplete n ok) s = .next s := by
  show execPageFillComplete n ok s = _
  unfold execPageFillComplete
  rw [hp]
  dsimp only
  rw [doneIf, List.contains_iff_mem.mpr spills, Bool.not_true, Bool.and_false]
  rfl

/-! ### The end of a spill (R164, R166, R357) -/

/-- The page leaves the list of spills, and counts as unused when nothing touched it since its prefetch. -/
def unspilled (n : Nat) (p : Page) (s : State) : State := countUnused p (updAviary (fun a => { a with spills := setDel n a.spills }) s)

theorem exec_pageSpillComplete (hp : tabGet n s.aviary.pages = some p) (moving : p.tier = .moving) (spills : n ∈ s.aviary.spills) (ok : Bool) :
    exec (.pageSpillComplete n ok) s = .next (endSpill n p ok s) := by
  show execPageSpillComplete n ok s = _
  unfold execPageSpillComplete
  rw [hp]
  exact doneIf_pos (by simp [moving, spills]) ..

theorem endSpill_dropped (free : p.count = 0) (ok : Bool) : endSpill n p ok s =
    updAviary (fun a => { a with pages := tabDel n a.pages }) (dropTransfer n p (unspilled n p s)) := by
  unfold endSpill
  exact if_pos free

theorem endSpill_whole (held : p.count ≠ 0) (asks : p.backCold = false ∨ canAsk s = true)
    (good : (transferData s p p.source p.frame).2 = none) : endSpill n p true s =
      updPage n (fun p => { p with tier := backTier p, frame := p.backFrame, prefetched := false })
        (putFrame (backTier p) p.backFrame (transferData s p p.source p.frame).1 (dropTransfer n p (unspilled n p s))) := by
  unfold endSpill
  rw [coldFails_warm asks]
  revert good
  cases transferData s p p.source p.frame with
  | mk bs bad =>
    rintro rfl
    refine (if_neg held).trans ?_
    simp [transferStatus, logTransfer, unspilled]

theorem endSpill_cold (held : p.count ≠ 0) (cold : p.backCold = true) : ∃ b, endSpill n p false s = logTransfer 0x0504 n b
    (updPage n (fun p => { p with tier := backTier p, frame := p.backFrame, poison := true, prefetched := false, fillStatus := 0x0504 })
      (dropTransfer n p (unspilled n p s))) := by
  refine ⟨none, ?_⟩
  unfold endSpill
  rw [coldFails_failed cold]
  cases transferData s p p.source p.frame with
  | mk bs bad =>
    refine (if_neg held).trans ?_
    simp [transferStatus, unspilled]

theorem endSpill_cold_page (hp : tabGet n s.aviary.pages = some p) (held : p.count ≠ 0) (cold : p.backCold = true) :
    (endSpill n p false s).mem.host = s.mem.host ∧ (endSpill n p false s).aviary.unused = (unspilled n p s).aviary.unused
      ∧ tabGet n (endSpill n p false s).aviary.pages = some { p with
          tier := backTier p, frame := p.backFrame, prefetched := false, cells := 0, poison := true, fillStatus := 0x0504 } := by
  obtain ⟨b, e⟩ := endSpill_cold (n := n) (s := s) held cold
  obtain ⟨host, unused⟩ := dropTransfer_keeps n p (unspilled n p s)
  have dropped := dropTransfer_page (q := p) (.refl (unspilled n p s)) hp
  have logged := logTransfer_lodged (st := 0x0504) (d := n) (bad := b) (.refl (updPage n (fun p =>
    { p with tier := backTier p, frame := p.backFrame, poison := true, prefetched := false, fillStatus := 0x0504 })
    (dropTransfer n p (unspilled n p s))))
  rw [e, logged.host, logged.aviary]
  exact ⟨host, unused, tabGet_updPage (.refl _) dropped⟩

/-! ### PAGE_SPILL (R164, R341) -/

theorem startSpill_moves (hp : tabGet n s.aviary.pages = some p) (taken : takeTransfer s = some (h, u)) :
    startSpill n s = updAviary (fun a => { a with spills := setAdd n a.spills }) (beginTransfer n id p h u) := by
  unfold startSpill
  rw [startTransfer_takes hp taken]
  dsimp only
  rw [(beginTransfer_page (f := id) (takeTransfer_lodged taken) hp).1]
  exact if_pos rfl

theorem spillOut_moves (hp : tabGet n s.aviary.pages = some p) (taken : takeTransfer s = some (h, u))
    (asks : p.backCold = false ∨ canAsk s = true) : spillOut n s = startSpill n s := by
  have kept : canAsk (startSpill n s) = canAsk s := by
    rw [startSpill_moves hp taken]
    exact canAsk_upkeep ((beginTransfer_upkeep (takeTransfer_upkeep (.refl s) taken)).still (by exact rfl))
  have page : tabGet n (startSpill n s).aviary.pages = some { p with tier := .moving, source := p.tier, cells := h } := by
    rw [startSpill_moves hp taken]
    exact (beginTransfer_page (f := id) (takeTransfer_lodged taken) hp).1
  unfold spillOut
  dsimp only
  rw [page]
  dsimp only
  rw [failsNow_eq page, coldFails_warm (by rwa [kept]), Bool.and_false, Bool.false_and]
  exact if_neg Bool.false_ne_true

theorem spillOut_starves (hp : tabGet n s.aviary.pages = some p) (hot : p.tier = .hot) (none : takeTransfer s = none) :
    spillOut n s = starve n s := by
  have page : tabGet n (starve n s).aviary.pages = some p := by rw [(starve_keeps n s).1, hp]
  have started : startSpill n s = starve n s := by
    unfold startSpill
    rw [startTransfer_starves hp none]
    dsimp only
    rw [page]
    exact if_neg (by rw [hot]; decide)
  unfold spillOut
  rw [started]
  dsimp only
  rw [page]
  dsimp only
  rw [failsNow_eq page, hot, show (Tier.hot == Tier.moving) = false from rfl, Bool.false_and, Bool.false_and]
  exact if_neg Bool.false_ne_true

/-- A hot page may be spilled when nothing pins it. -/
def Spillable (x : Nat × Page) : Prop := x.2.tier = .hot ∧ x.2.pins = 0

/-- The page that is spilled has the smallest LASTUSE, and of equal ones the lower frame. -/
theorem spillChoice_hot (some : ∃ x ∈ s.aviary.pages, Spillable x) : ∃ x, spillChoice s .hot = .some x ∧ x ∈ s.aviary.pages ∧ Spillable x
    ∧ ∀ y ∈ s.aviary.pages, Spillable y → x.2.lastUse < y.2.lastUse ∨ (x.2.lastUse = y.2.lastUse ∧ x.2.frame ≤ y.2.frame) := by
  have listed (x : Nat × Page) : x ∈ (s.aviary.pages.filter fun x => x.2.tier == .hot && x.2.pins == 0 && (Tier.hot == .hot || x.2.backCold))
      ↔ x ∈ s.aviary.pages ∧ Spillable x := by
    simp [Spillable]
  have head := @sortBy_head (Nat × Page)
    (fun a b => decide (a.2.lastUse < b.2.lastUse) || (a.2.lastUse == b.2.lastUse && decide (a.2.frame < b.2.frame)))
    (by intro a b c; simp; omega) (by intro a b; simp; omega)
    (s.aviary.pages.filter fun x => x.2.tier == .hot && x.2.pins == 0 && (Tier.hot == .hot || x.2.backCold))
  cases choice : spillChoice s .hot with
  | none =>
    obtain ⟨x, hx, free⟩ := some
    have mem := (sortBy_perm (fun a b : Nat × Page => decide (a.2.lastUse < b.2.lastUse)
      || (a.2.lastUse == b.2.lastUse && decide (a.2.frame < b.2.frame))) _).mem_iff.mpr ((listed x).mpr ⟨hx, free⟩)
    rw [List.head?_eq_none_iff.mp choice] at mem
    exact absurd mem List.not_mem_nil
  | some x =>
    obtain ⟨mem, least⟩ := head choice
    obtain ⟨hx, free⟩ := (listed x).mp mem
    refine ⟨x, rfl, hx, free, fun y hy fy => ?_⟩
    have := least y ((listed y).mpr ⟨hy, fy⟩)
    simp only [Bool.or_eq_false_iff, decide_eq_false_iff_not, Bool.and_eq_false_iff, beq_eq_false_iff_ne] at this
    omega

theorem exec_pageSpill_hot {x : Nat × Page} (few : hotFree s < 128) (choice : spillChoice s .hot = some x) :
    exec .pageSpill s = .next (spillOut x.1 s) := by
  show execPageSpill s = _
  unfold execPageSpill
  rw [if_pos few, choice]
  rfl

theorem exec_pageSpill_none (hot : 128 ≤ hotFree s) (warm : 1024 ≤ warmFrames - (backUsed s false).length) : exec .pageSpill s = .next s := by
  show execPageSpill s = _
  unfold execPageSpill
  rw [if_neg (Nat.not_lt_of_le hot), if_neg (Nat.not_lt_of_le warm)]
  rfl

end

/-- Settles O35: how a transfer begins, ends whole and fails, case by case. -/
theorem pagesMoveBetweenTiers : Obligations.PagesMoveBetweenTiers := by
  unfold Obligations.PagesMoveBetweenTiers
  refine ⟨fun n p s hp => ⟨fun wanted away room => ⟨fun h u taken => ⟨fun asks => ?_, fun cold silent held => ?_⟩, fun none => ?_⟩,
    fun full => exec_demandFill_full hp full, fun moving fills held => ⟨fun asks good => ?_, fun warm a bad => ?_, fun cold => ?_⟩,
    fun moving spills => ⟨fun ok => exec_pageFillComplete_spilling hp spills ok, fun free ok => ?_, fun held asks good => ?_,
      fun held cold => ?_⟩⟩, fun s => ⟨fun few some => ?_, exec_pageSpill_none⟩⟩
  · obtain ⟨page, fills⟩ := startFill_page hp taken
    exact ⟨_, (exec_demandFill hp wanted away room).trans (congrArg _ (fillIn_moves hp taken asks)), fills, page⟩
  · refine ⟨_, (exec_demandFill hp wanted away room).trans (congrArg _ (fillIn_fails hp taken cold silent)), ?_⟩
    have failed := transferStatus_failed (p := filling s p h) cold (startFill n s)
    rw [endFill_failed_page (p := filling s p h) (startFill_page hp taken).1 (.inl held) (failed _) (by decide)]
    rfl
  · rw [exec_demandFill hp wanted away room, fillIn_starves hp away none]
    rfl
  · rw [exec_pageFillComplete hp moving fills, endFill_whole held asks good]
    rfl
  · exact ⟨_, exec_pageFillComplete hp moving fills true, endFill_failed_page hp held (by
      rw [coldFails_warm (.inl warm), bad]
      rfl) (by decide)⟩
  · exact ⟨_, exec_pageFillComplete hp moving fills false, endFill_failed_page hp held (transferStatus_failed cold s _) (by decide),
      endFill_cold_captures held cold⟩
  · rw [exec_pageSpillComplete hp moving spills, endSpill_dropped free]
    rfl
  · rw [exec_pageSpillComplete hp moving spills, endSpill_whole held asks good]
    rfl
  · obtain ⟨host, unused, page⟩ := endSpill_cold_page hp held cold
    exact ⟨_, exec_pageSpillComplete hp moving spills false, host, page, unused⟩
  · obtain ⟨x, choice, hx, free, least⟩ := spillChoice_hot some
    refine ⟨x, hx, free.1, free.2, fun y hy hot pins => least y hy ⟨hot, pins⟩, _, exec_pageSpill_hot few choice, fun hp =>
      ⟨fun h u taken asks => ?_, fun none => ?_⟩⟩
    · obtain ⟨page, -, spills⟩ := beginTransfer_page (f := id) (h := h) (takeTransfer_lodged taken) hp
      rw [spillOut_moves hp taken asks, startSpill_moves hp taken]
      refine ⟨congrArg (setAdd x.1) spills, page.trans ?_⟩
      rw [free.1]
      rfl
    · rw [spillOut_starves hp free.1 none]
      exact ⟨(starve_keeps ..).2, (starve_keeps ..).1⟩

end Sys2Proof.Machine
end

section
/-! What the work on pages keeps of the sequence table and of the prompt slots (R156 to R166, R180). -/

namespace Sys2Proof.Machine

/-- The sequences and the prompts are those of `p`. -/
structure SameSeqs (p s : State) : Prop where
  seqs : s.aviary.seqs = p.aviary.seqs
  prompts : s.aviary.prompts = p.aviary.prompts

section
variable {p s t : State}

theorem SameSeqs.refl (s : State) : SameSeqs s s := ⟨rfl, rfl⟩

theorem SameSeqs.trans (h : SameSeqs p s) (k : SameSeqs s t) : SameSeqs p t := ⟨k.seqs.trans h.seqs, k.prompts.trans h.prompts⟩

theorem SameSeqs.still (h : SameSeqs p s) (e : t.aviary = s.aviary) : SameSeqs p t := h.trans ⟨by rw [e], by rw [e]⟩

theorem SameSeqs.lodged (h : SameSeqs p s) (e : Lodged s t) : SameSeqs p t := h.still e.aviary

theorem SameSeqs.ite {c : Prop} [Decidable c] {a b : State} (ha : SameSeqs p a) (hb : SameSeqs p b) : SameSeqs p (if c then a else b) := by
  split
  · exact ha
  · exact hb

theorem SameSeqs.foldl {α : Type} {f : State → α → State} {l : List α} (h : SameSeqs p s) (hf : ∀ s x, SameSeqs p s → SameSeqs p (f s x)) :
    SameSeqs p (l.foldl f s) := by
  induction l generalizing s with
  | nil => exact h
  | cons x l ih => exact ih (hf s x h)

/-! ### Transfers of pages (R162 to R166) -/

theorem updPage_sameSeqs {d : Nat} {f : Page → Page} (h : SameSeqs p s) : SameSeqs p (updPage d f s) := ⟨h.seqs, h.prompts⟩

theorem putFrame_sameSeqs {k : Tier} {f : Nat} {bs : List (Byte × Bool)} (h : SameSeqs p s) : SameSeqs p (putFrame k f bs s) :=
  h.still (putFrame_aviary ..)

theorem beginTransfer_sameSeqs {d n : Nat} {f : Page → Page} {x : Page} (h : SameSeqs p s) : SameSeqs p (beginTransfer d f x n s) := by
  unfold beginTransfer
  extract_lets w
  have hw : SameSeqs p w := ⟨h.seqs, h.prompts⟩
  exact updPage_sameSeqs (hw.lodged (loadTransfer_lodged (readingFor_lodged (.refl w) fun _ => noteFrame_lodged)))

theorem moveNow_sameSeqs {d : Nat} {f : Page → Page} (h : SameSeqs p s) : SameSeqs p (moveNow d f s) := by
  unfold moveNow
  split
  · split
    · next taken => exact beginTransfer_sameSeqs (h.lodged (takeTransfer_lodged taken))
    · exact beginTransfer_sameSeqs h
  · exact h

theorem dropTransfer_sameSeqs {d : Nat} {x : Page} (h : SameSeqs p s) : SameSeqs p (dropTransfer d x s) :=
  updPage_sameSeqs (h.lodged (freeChain_lodged (.refl s)))

theorem logTransfer_sameSeqs {st d : Nat} {bad : Option Nat} (h : SameSeqs p s) : SameSeqs p (logTransfer st d bad s) :=
  h.lodged (logTransfer_lodged (.refl s))

theorem endFill_sameSeqs {d : Nat} {x : Page} {ok : Bool} (h : SameSeqs p s) : SameSeqs p (endFill d x ok s) := by
  unfold endFill
  dsimp only
  have dropped : SameSeqs p (dropTransfer d x (updAviary (fun a => { a with fills := setDel d a.fills }) s)) :=
    dropTransfer_sameSeqs ⟨h.seqs, h.prompts⟩
  refine .ite ⟨dropped.seqs, dropped.prompts⟩ (logTransfer_sameSeqs (updPage_sameSeqs (putFrame_sameSeqs ?_)))
  split
  · exact dropped
  · exact ⟨dropped.seqs, dropped.prompts⟩

theorem endSpill_sameSeqs {d : Nat} {x : Page} {ok : Bool} (h : SameSeqs p s) : SameSeqs p (endSpill d x ok s) := by
  unfold endSpill
  dsimp only
  have dropped : SameSeqs p (dropTransfer d x (countUnused x (updAviary (fun a => { a with spills := setDel d a.spills }) s))) :=
    dropTransfer_sameSeqs ⟨h.seqs, h.prompts⟩
  exact .ite ⟨dropped.seqs, dropped.prompts⟩
    (logTransfer_sameSeqs (updPage_sameSeqs (.ite (putFrame_sameSeqs dropped) dropped)))

theorem endTransfer_sameSeqs {d : Nat} (h : SameSeqs p s) : SameSeqs p (endTransfer d s) := by
  unfold endTransfer
  split
  · exact .ite h (.ite (endSpill_sameSeqs h) (endFill_sameSeqs h))
  · exact h

theorem hotRoom_sameSeqs (h : SameSeqs p s) : SameSeqs p (hotRoom s) := by
  unfold hotRoom
  refine .ite h ?_
  extract_lets t
  have ht : SameSeqs p t := h.foldl fun _ _ => endTransfer_sameSeqs
  refine .ite ht ?_
  split
  · have moved (x : Nat) := moveNow_sameSeqs (d := x) (f := id) ht
    exact endTransfer_sameSeqs ⟨(moved _).seqs, (moved _).prompts⟩
  · exact ht

theorem hotNow_sameSeqs {d : Nat} (h : SameSeqs p s) : SameSeqs p (hotNow d s) := by
  unfold hotNow
  extract_lets t
  have ht : SameSeqs p t := endTransfer_sameSeqs h
  split
  · exact ht
  · exact .ite ht (endTransfer_sameSeqs (moveNow_sameSeqs (hotRoom_sameSeqs ht)))

/-! ### Pages of a sequence (R154 to R161) -/

theorem putPage_sameSeqs {d : Nat} {bs : List (Byte × Bool)} (h : SameSeqs p s) : SameSeqs p (putPage d bs s) := by
  unfold putPage
  extract_lets t
  have ht : SameSeqs p t := hotNow_sameSeqs h
  split
  · exact putFrame_sameSeqs ht
  · exact ht

theorem newPage_sameSeqs {o : Nat} (h : SameSeqs p s) : SameSeqs p (newPage o s).2 := ⟨h.seqs, h.prompts⟩

theorem copyPage_sameSeqs {o d : Nat} (h : SameSeqs p s) : SameSeqs p (copyPage o d s).2 := by
  unfold copyPage
  extract_lets t
  have ht : SameSeqs p t := hotNow_sameSeqs h
  split
  · exact newPage_sameSeqs ht
  · exact updPage_sameSeqs (putPage_sameSeqs (newPage_sameSeqs (ht.lodged (noteFrame_lodged (.refl t)))))

theorem sharePage_sameSeqs {o d : Nat} (h : SameSeqs p s) : SameSeqs p (sharePage o d s).2 := by
  unfold sharePage
  split
  · exact h
  · split
    · exact updPage_sameSeqs h
    · have copied := copyPage_sameSeqs (o := o) (d := d) h
      exact ⟨copied.seqs, copied.prompts⟩

theorem mapPage_sameSeqs {k d : Nat} (h : SameSeqs p s) : SameSeqs p (mapPage k d s) := ⟨h.seqs, h.prompts⟩

theorem releasePage_sameSeqs {d : Nat} (h : SameSeqs p s) : SameSeqs p (releasePage d s) := by
  unfold releasePage
  split
  · exact h
  · exact .ite (.ite ⟨h.seqs, h.prompts⟩ ⟨h.seqs, h.prompts⟩) ⟨h.seqs, h.prompts⟩

theorem unmapPage_sameSeqs {k : Nat} (h : SameSeqs p s) : SameSeqs p (unmapPage k s) := by
  unfold unmapPage
  split
  · exact h
  · exact releasePage_sameSeqs ⟨h.seqs, h.prompts⟩

theorem forkPage_sameSeqs {o a b l n : Nat} {w : Bool} (h : SameSeqs p s) : SameSeqs p (forkPage o a b l n w s) := by
  unfold forkPage
  split
  · exact h
  · dsimp only
    refine mapPage_sameSeqs ?_
    cases w
    · exact copyPage_sameSeqs h
    · exact sharePage_sameSeqs h

theorem forkPages_sameSeqs {o a b : Nat} (h : SameSeqs p s) : SameSeqs p (forkPages o a b s) := by
  unfold forkPages
  split
  · exact h
  · exact h.foldl fun _ _ h => h.foldl fun _ _ => forkPage_sameSeqs

theorem fillPages_sameSeqs {q o a n : Nat} {f : Nat → Nat → List Byte} (h : SameSeqs p s) : SameSeqs p (fillPages q o a n f s) :=
  h.foldl fun _ _ h => h.foldl fun _ _ h => putPage_sameSeqs (mapPage_sameSeqs (newPage_sameSeqs h))

/-! ### The end of a sequence and of a prompt (R180) -/

theorem endSeq_prompts (q : Nat) (s : State) : (endSeq q s).aviary.prompts = s.aviary.prompts := by
  have unmapped (l : List Nat) : SameSeqs s (l.foldl (fun s k => unmapPage k s) s) := (SameSeqs.refl s).foldl fun _ _ => unmapPage_sameSeqs
  exact (unmapped _).prompts

/-- A prompt slot that is dropped takes a new prompt as the slot before did. -/
theorem dropPrompt_set (n : Nat) (x : Prompt) (s : State) : (dropPrompt n s).aviary.prompts.set n (some x) = s.aviary.prompts.set n (some x) := by
  unfold dropPrompt
  split
  · next y _ =>
    have ended : (match y.seq with | some q => endSeq q s | none => s).aviary.prompts = s.aviary.prompts := by
      split
      · exact endSeq_prompts ..
      · rfl
    show ((match y.seq with | some q => endSeq q s | none => s).aviary.prompts.set n none).set n (some x) = _
    rw [ended, List.set_set]
  · rfl

theorem reserve_prompts {o n : Nat} {cold : Bool} (h : reserve o n cold s = some t) : t.aviary.prompts = s.aviary.prompts := by
  unfold reserve at h
  dsimp only at h
  split at h
  · cases h; rfl
  · split at h
    · cases h; rfl
    · cases h

end

/-! ### PROMPT_ENCODED (R180) -/

section
variable {slot id : Nat} {x : Prompt} {s : State}

theorem encodePrompt_prompts (h : s.aviary.prompts[slot]? = some (some x)) :
    (encodePrompt slot id x s).aviary.prompts = s.aviary.prompts.set slot (some { x with seq := some id, cmd := none }) := by
  unfold encodePrompt
  extract_lets token blank y t
  exact (fillPages_sameSeqs (.refl t)).prompts.trans (upd_eq_set h)

theorem encodePrompt_seq (slot id : Nat) (x : Prompt) (s : State) :
    (tabGet id (encodePrompt slot id x s).aviary.seqs).map (fun y => (y.kind, y.ntok)) = some (.prompt, x.tokens.length) := by
  unfold encodePrompt
  extract_lets token blank y t
  rw [(fillPages_sameSeqs (.refl t)).seqs]
  show (tabGet id (tabPut id y s.aviary.seqs)).map _ = _
  rw [tabGet_tabPut_self]
  rfl

end

/-! ### PROMPT_SET and PROMPT_BIND (R179, R180) -/

section
variable {q cid n : Nat} {c : HostCmd} {s : State}

/-- A slot without a sequence binds nothing (log 39). -/
theorem unencoded_iff {p : Nat} : ((s.aviary.prompts.getD p none).bind (·.seq)).isNone = true
    ↔ ∀ x, s.aviary.prompts[p]? = some (some x) → x.seq = none := by
  rw [List.getD_eq_getElem?_getD]
  rcases s.aviary.prompts[p]? with _ | _ | x <;> simp

/-- PROMPT_SET on an accepted command (R419). -/
theorem promptSet_run (h : Accepts (.promptSet q cid) c s) :
    exec (.promptSet q cid) s = .next (
      let t := startCmd c s
      let n := arg c 0 1
      let st := promptStatus t n (paramBlock t c)
      if st ≠ 0 then endCmd c st t
      else match reserve (384 + n) (4 * (kvLayers s * kvGran s + 1)) true (dropPrompt n t) with
        | none => endCmd c 0x0503 t
        | some u => updAviary (fun a => { a with prompts := a.prompts.set n (some
            { text := paramBlock t c, tokens := promptTokens s (paramBlock t c), seq := none, cmd := some (q, cid) }) }) u) := by
  obtain ⟨taken, ok⟩ := h.of rfl
  show execPromptSet q cid s = _
  unfold execPromptSet
  exact runCommand_accepted taken ok

/-- PROMPT_BIND on an accepted command of an open stream (R419). -/
theorem promptBind_run {x : Stream} (h : Accepts (.promptBind q cid) c s) (o : stream? s (arg c 0 1) = some x) :
    exec (.promptBind q cid) s = .next (
      let t := startCmd c s
      let p := arg c 1 1
      if arg c 8 8 < c.stamp then endCmd c 0x050B t
      else if p ≠ 0xFF ∧ ((s.aviary.prompts.getD p none).bind (·.seq)).isNone then endCmd c 0x0009 t
      else okCmd c 0 (rebindPrompt (arg c 0 1) (arg c 8 8) (if p = 0xFF then none else some p) x t)) := by
  obtain ⟨taken, ok⟩ := h.of rfl
  show execPromptBind q cid s = _
  unfold execPromptBind
  exact streamCommand_accepted taken ok o

end

/-- Settles O19: the branches of PROMPT_SET and PROMPT_BIND, and what `encodePrompt` leaves. -/
theorem promptsAreEncodedAndBound : Obligations.PromptsAreEncodedAndBound := by
  unfold Obligations.PromptsAreEncodedAndBound
  refine ⟨?_, ?_, ?_⟩
  · rintro q cid p c s rfl h - t text st
    have run := promptSet_run h
    refine ⟨fun bad => run.trans (congrArg _ (if_pos bad)), fun good full => ?_, fun good room => ?_⟩
    · refine run.trans (congrArg _ ((if_neg (not_not.mpr good)).trans ?_))
      rw [Option.isNone_iff_eq_none.mp full]
    · obtain ⟨u, reserved⟩ := Option.isSome_iff_exists.mp room
      refine ⟨_, run.trans (congrArg _ (if_neg (not_not.mpr good))), ?_⟩
      have kept : Upkeep t u := (dropPrompt_upkeep (arg c 0 1) t).still (reserve_upkeep reserved)
      rw [reserved]
      refine ⟨show u.mbx = t.mbx by rw [kept], ?_⟩
      show u.aviary.prompts.set _ _ = _
      rw [reserve_prompts reserved]
      exact dropPrompt_set ..
  · intro slot q cid id x s hx fresh cmd free
    refine ⟨encodePrompt slot id x s, ?_, by rw [encodePrompt_upkeep slot id x s], encodePrompt_prompts hx, encodePrompt_seq ..⟩
    show execPromptEncoded slot s = _
    unfold execPromptEncoded
    rw [hx]
    dsimp only
    rw [fresh, cmd, free]
    rfl
  · rintro q cid n c s rfl h opened t p
    obtain ⟨x, hx⟩ := Option.isSome_iff_exists.mp opened
    have run := promptBind_run h hx
    refine ⟨fun early => run.trans (congrArg _ (if_pos early)), fun due bound unencoded => ?_, ?_⟩
    · exact run.trans (congrArg _ ((if_neg (Nat.not_lt_of_le due)).trans (if_pos ⟨bound, unencoded_iff.mpr unencoded⟩)))
    · intro due encoded y hy
      cases hx.symm.trans hy
      have good : ¬ (arg c 1 1 ≠ 0xFF ∧ ((s.aviary.prompts.getD (arg c 1 1) none).bind (·.seq)).isNone = true) := by
        rintro ⟨bound, unencoded⟩
        rcases encoded with e | ⟨z, sq, hz, held⟩
        · exact bound e
        · cases held.symm.trans (unencoded_iff.mp unencoded z hz)
      exact run.trans (congrArg _ ((if_neg (Nat.not_lt_of_le due)).trans (if_neg good)))

end Sys2Proof.Machine
end

section
/-! CONTEXT_SET (R160, R163, R419): the sequence that a stream's context is. -/

namespace Sys2Proof.Machine

section
variable {n q cid : Nat} {c : HostCmd} {x : Stream} {s t : State}

/-! ### The sequence -/

/-- A fork is of the kind and of the stream that it was asked for. -/
theorem forkSeq_seq (q : Nat) (o : Option Nat) (x : Seq) (s : State) :
    (tabGet q (forkSeq q o x s).aviary.seqs).map (fun y => (y.kind, y.stream)) = some (x.kind, x.stream) := by
  unfold forkSeq
  extract_lets y pages toks z t
  have new : (tabGet q t.aviary.seqs).map (fun y => (y.kind, y.stream)) = some (x.kind, x.stream) := by
    show (tabGet q (tabPut q z s.aviary.seqs)).map _ = _
    rw [tabGet_tabPut_self]
    rfl
  split
  · rw [(forkPages_sameSeqs (.refl t)).seqs]
    exact new
  · exact new

theorem updSeq_upkeep {f : Seq → Seq} (h : Upkeep t s) : Upkeep t (updSeq q f s) := updAviary_upkeep h

theorem makeContext_seq (n q : Nat) (o : Option Nat) (rows : List Byte) (s : State) :
    (tabGet q (makeContext n q o rows s).aviary.seqs).map (fun y => (y.kind, y.stream)) = some (.context, n) := by
  have forked := forkSeq_seq q o (emptySeq .context n) s
  unfold makeContext
  extract_lets t k
  split
  · exact forked
  · extract_lets own u
    rw [(fillPages_sameSeqs (.refl u)).seqs]
    show (tabGet q (tabUpd q _ t.aviary.seqs)).map _ = _
    rw [tabGet_tabUpd, Option.map_map]
    exact forked

theorem makeContext_upkeep (n q : Nat) (o : Option Nat) (rows : List Byte) (s : State) : Upkeep s (makeContext n q o rows s) := by
  have forked : Upkeep s (forkSeq q o (emptySeq .context n) s) := forkSeq_upkeep (.refl s)
  unfold makeContext
  extract_lets t k
  split
  · exact forked
  · exact fillPages_upkeep (updSeq_upkeep forked)

theorem reserveContext_upkeep {pages : Nat} (h : reserveContext n pages x s = some t) : Upkeep s t := by
  unfold reserveContext at h
  split at h
  · cases h
  · obtain ⟨u, own, tracks⟩ := Option.bind_eq_some_iff.mp h
    have hu : Upkeep s u := (unreserve_upkeep (.refl s)).still (reserve_upkeep own)
    exact (unreserve_upkeep hu).still (reserve_upkeep tracks)

/-! ### The command -/

/-- What CONTEXT_SET leaves where its reservations hold: the old context ended and the new one made. -/
def contextMade (n id : Nat) (prompt : Option Nat) (rows : List Byte) (x : Stream) (s : State) : State :=
  let s := match x.context with | some old => endSeq old s | none => s
  updStream n (fun x => { x with context := some id }) (makeContext n id prompt rows s)

theorem freeSeq_startCmd (c : HostCmd) (s : State) :
    freeSeq (startCmd c s) (pendingSeqs (startCmd c s)) = freeSeq s (pendingSeqs s) := by
  unfold freeSeq
  rfl

/-- CONTEXT_SET on an accepted command of an open stream (R419). -/
theorem contextSet_run (h : Accepts (.contextSet q cid) c s) (o : stream? s (arg c 0 1) = some x) :
    exec (.contextSet q cid) s = .next (
      let t := startCmd c s
      let p := arg c 1 1
      let prompt := if p = 0xFF then none else (s.aviary.prompts.getD p none).bind (·.seq)
      if p ≠ 0xFF ∧ prompt.isNone then endCmd c 0x0009 t
      else if s.pkg.isNone then endCmd c 0x0327 t
      else match freeSeq s (pendingSeqs s), reserveContext (arg c 0 1) (contextPages s prompt (paramBlock t c)) x t with
        | none, _ => endCmd c 0x0502 t
        | _, none => endCmd c 0x0503 t
        | some id, some u => okCmd c 0 (contextMade (arg c 0 1) id prompt (paramBlock t c) x u)) := by
  obtain ⟨taken, ok⟩ := h.of rfl
  show execContextSet q cid s = _
  unfold execContextSet
  rw [streamCommand_accepted taken ok o]
  refine congrArg _ (if_congr Iff.rfl rfl (if_congr Iff.rfl rfl ?_))
  have asked : contextPages (startCmd c s) = contextPages s := rfl
  have prompts : (startCmd c s).aviary = s.aviary := rfl
  rw [freeSeq_startCmd, asked, prompts]
  generalize freeSeq s _ = id
  generalize reserveContext _ _ _ _ = reserved
  rfl

theorem contextMade_upkeep (n id : Nat) (o : Option Nat) (rows : List Byte) (x : Stream) (s : State) :
    ∃ u, Upkeep s u ∧ contextMade n id o rows x s = updStream n (fun x => { x with context := some id }) (makeContext n id o rows u) := by
  unfold contextMade
  extract_lets u
  refine ⟨u, ?_, rfl⟩
  unfold u
  split
  · exact endSeq_upkeep (.refl s)
  · exact .refl s

/-- The stream's context is the new sequence, and the rest of the stream and the mailbox stay. -/
theorem contextMade_context (n id : Nat) (o : Option Nat) (rows : List Byte) {x : Stream} {s t : State} (h : Upkeep t s)
    (hx : stream? t n = some x) :
    stream? (contextMade n id o rows x s) n = some { x with context := some id } ∧ (contextMade n id o rows x s).mbx = t.mbx
      ∧ (tabGet id (contextMade n id o rows x s).aviary.seqs).map (fun y => (y.kind, y.stream)) = some (.context, n) := by
  obtain ⟨u, ended, made⟩ := contextMade_upkeep n id o rows x s
  have kept : Upkeep t (makeContext n id o rows u) := (h.still ended).still (makeContext_upkeep ..)
  rw [made]
  refine ⟨stream?_updStream ((stream?_of_streams kept.streams).trans hx), ?_, makeContext_seq ..⟩
  show (makeContext n id o rows u).mbx = t.mbx
  rw [kept]

end

/-- Settles O20: the branches of CONTEXT_SET, and what `contextMade` leaves in the last. -/
theorem contextsForkTheirPrompt : Obligations.ContextsForkTheirPrompt := by
  unfold Obligations.ContextsForkTheirPrompt
  rintro q cid n c x s rfl h hx t p prompt pages
  have run := contextSet_run h hx
  refine ⟨fun bound unencoded => ?_, fun encoded bare => ?_, fun encoded packed => ?_⟩
  · exact run.trans (congrArg _ (if_pos ⟨bound, Option.isNone_iff_eq_none.mpr unencoded⟩))
  all_goals
    have good : ¬ (p ≠ 0xFF ∧ prompt.isNone = true) := fun bad =>
      encoded.elim bad.1 fun some_ => some_ (Option.isNone_iff_eq_none.mp bad.2)
    replace run := run.trans (congrArg _ (if_neg good))
  · exact run.trans (congrArg _ (if_pos (Option.isNone_iff_eq_none.mpr bare)))
  · replace run := run.trans (congrArg _ (if_neg fun none_ => packed (Option.isNone_iff_eq_none.mp none_)))
    refine ⟨fun full => ?_, fun id free => ⟨fun full => ?_, fun room => ?_⟩⟩
    · rw [full] at run
      exact run
    · rw [free, show reserveContext _ _ x _ = none from Option.isNone_iff_eq_none.mp full] at run
      exact run
    · obtain ⟨u, reserved⟩ := Option.isSome_iff_exists.mp room
      rw [free, show reserveContext _ _ x _ = some u from reserved] at run
      exact ⟨_, run, contextMade_context _ id prompt _ (reserveContext_upkeep reserved) hx⟩

end Sys2Proof.Machine
end

section
/-! PEER_STATE (R457): a direct one goes out on links 0 to 4 only. -/

namespace Sys2Proof.Machine

/-- A link that is up to chip 1. -/
def linkToOne : Link := { Link.reset with state := .up, peer := some 1 }

/-- A running member of chips 0 and 1 with a sixth link, to chip 1, at a time when PEER_STATE is due. -/
def sixLinks : State :=
  { State.reset with
    power := { State.reset.power with running := true }
    band := { State.reset.band with steady := 100000000 }
    trellis := { State.reset.trellis with links := State.reset.trellis.links ++ [linkToOne], members := [0, 1], chips := 2 } }

/-- How many flits link `k` has to send after an outcome. -/
def flitsOn (k : Nat) : Res → Option Nat
  | .next t => (t.trellis.links[k]?).map (·.queue.length)
  | _ => none

/-- Refutes O53: the clause of PEER_STATE takes a link of any index, while the message goes out on links 0 to 4 (R457); in `sixLinks` the
link to the member is the sixth, and its queue stays empty. -/
theorem not_membersKeepTimeAndGalleries : ¬ Obligations.MembersKeepTimeAndGalleries := by
  unfold Obligations.MembersKeepTimeAndGalleries
  rintro ⟨-, members, -⟩
  have reached : ∀ q ∈ peers sixLinks,
      ∃ j y, linkTo sixLinks q = some j ∧ linkUp sixLinks j = true ∧ sixLinks.trellis.links[j]? = some y := by
    intro q hq
    have one : peers sixLinks = [1] := by decide +kernel
    rw [one, List.mem_singleton] at hq
    subst hq
    exact ⟨5, linkToOne, by decide +kernel, by decide +kernel, by rfl⟩
  obtain ⟨-, -, -, claim, -⟩ := members 5 1 linkToOne sixLinks (by rfl) rfl (by decide +kernel) (by decide +kernel) reached (by decide +kernel)
  obtain ⟨t, x, out, -, on, sent⟩ := claim (by decide +kernel) (by decide +kernel) (by decide +kernel)
  have silent : flitsOn 5 (exec .peerStatePeriod sixLinks) = some 0 := by decide +kernel
  have flits : flitsOn 5 (exec .peerStatePeriod sixLinks) = some x.queue.length := by
    rw [out]
    exact congrArg (Option.map fun l : Link => l.queue.length) on
  have due : 0 < x.queue.length := by
    rw [sent]
    decide +kernel
  rw [silent] at flits
  exact absurd (Option.some.inj flits) due.ne

end Sys2Proof.Machine
end

section
/-! How a frame comes to its stream (R183 to R185, R233, R234, R281 to R285, R340): what the work on cells leaves alone, and what the end of
ingest makes of the stream. -/

namespace Sys2Proof.Machine

/-! ### Cells that a port fills (R303, R305, R340) -/

section
variable {p s t : State}

theorem meetOutside_upkeep {i : Nat} (h : Upkeep p s) : Upkeep p (meetOutside i s) :=
  (h.foldl fun s w h => h.mem (noteWord_memFrame w s)).still (by exact rfl)

theorem retainOp_upkeep {i : Nat} (h : Upkeep p s) : Upkeep p (retainOp i s).2 := by
  unfold retainOp
  extract_lets c t
  have ht : Upkeep p t := unitRead_upkeep h
  split
  · exact ht.still (by exact rfl)
  · exact setCount_upkeep (.ite (ht.still (by exact rfl)) ht)

theorem growChain_upkeep {q a fuel n tail : Nat} {r : Bool} (h : Upkeep p s) : Upkeep p (growChain q a r fuel n tail s).2 := by
  induction fuel generalizing n tail s with
  | zero => exact h
  | succ fuel ih =>
    cases n with
    | zero => exact h
    | succ n =>
      have grown : Upkeep p (allocOp q a (min (n + 1) 32) r tail s).2.2 := allocOp_upkeep h
      simp only [growChain]
      split
      · exact grown
      · exact ih grown

theorem buildChain_upkeep {k : ReqClass} {q a : Nat} {d : List Byte} {m : List Bool} (h : Upkeep p s) :
    Upkeep p (buildChain k q a d m s).2.2 := by
  unfold buildChain
  extract_lets parts n
  split
  next st head t taken =>
  have ht : Upkeep p t := by
    have := allocOp_upkeep (q := q) (a := a) (n := min n 32) (tail := 0) (r := false) h
    rwa [taken] at this
  split
  · exact h
  · split
    next st' u grown =>
    have hu : Upkeep p u := by
      have := growChain_upkeep (q := q) (a := a) (r := false) (fuel := n) (n := n - min n 32) (tail := growChain.lastCell 32 head t) ht
      rwa [grown] at this
    split
    · exact h
    · exact hu.foldl fun _ _ => fillCell_upkeep

theorem putData_upkeep {k : ReqClass} {i : Nat} {d : List Byte} {m : Bool} (h : Upkeep p s) : Upkeep p (putData k i d m s) :=
  .ite (writePhys_upkeep h) h

theorem sealCell_upkeep {k : ReqClass} {i b : Nat} (h : Upkeep p s) : Upkeep p (sealCell k i b s) := .ite h (writePhys_upkeep h)

/-- A stored line leaves all but memory and the pool alone (R201). -/
theorem storeLine_upkeep {k : ReqClass} {n q tail head last : Nat} {e : Bool} {bs : List Byte}
    (stored : storeLine k n q tail e bs s = some (head, last, t)) : Upkeep s t := by
  unfold storeLine at stored
  extract_lets parts at stored
  split at stored
  next st first u taken =>
  have hu : Upkeep s u := by
    have := allocOp_upkeep (q := q) (a := n) (n := min parts.length 32) (tail := tail) (r := false) (.refl s)
    rwa [taken] at this
  split at stored
  · cases stored
  · split at stored
    next st' v grown =>
    have hv : Upkeep s v := by
      have := growChain_upkeep (q := q) (a := n) (r := false) (fuel := parts.length) (n := parts.length - min parts.length 32)
        (tail := growChain.lastCell 32 first u) hu
      rwa [grown] at this
    split at stored
    · cases stored
    · extract_lets -merge -underBinder +onlyGivenNames cells final mark marks w at stored
      have filled : Upkeep s w :=
        (sealCell_upkeep (meetOutside_upkeep hv)).foldl fun _ _ h => .ite (putData_upkeep h) (fillCell_upkeep h)
      clear_value w final
      cases stored
      exact .ite (sealCell_upkeep filled) filled

end

/-! ### A change of one stream -/

/-- From `p` to `s` the entry of stream `n` has become `o`, and every other stream stands. -/
structure Only (n : Nat) (o : Option Stream) (p s : State) : Prop where
  stream : stream? s n = o
  others : ∀ m, m ≠ n → stream? s m = stream? p m

/-- The same, with the mailbox as it was. -/
structure Becomes (n : Nat) (y : Stream) (p s : State) : Prop extends Only n (some y) p s where
  mbx : s.mbx = p.mbx

section
variable {p s t : State} {n : Nat} {x y : Stream} {o : Option Stream} {f : Stream → Stream}

theorem Only.refl (h : stream? s n = o) : Only n o s s := ⟨h, fun _ _ => rfl⟩

theorem Becomes.refl (h : stream? s n = some y) : Becomes n y s s := ⟨.refl h, rfl⟩

/-- What leaves the streams alone. -/
theorem Only.still (h : Only n o p s) (e : t.streams = s.streams) : Only n o p t :=
  ⟨(stream?_of_streams e).trans h.stream, fun m ne => (stream?_of_streams e).trans (h.others m ne)⟩

theorem Becomes.still (h : Becomes n y p s) (e : t.streams = s.streams) (m : t.mbx = s.mbx) : Becomes n y p t :=
  ⟨h.toOnly.still e, m.trans h.mbx⟩

theorem Becomes.upkeep (h : Becomes n y p s) (k : Upkeep s t) : Becomes n y p t := h.still k.streams (by rw [k])

theorem Only.upkeep (h : Only n o p s) (k : Upkeep s t) : Only n o p t := h.still k.streams

theorem Only.ite {c : Prop} [Decidable c] {a b : State} (ha : Only n o p a) (hb : Only n o p b) : Only n o p (if c then a else b) := by
  split
  · exact ha
  · exact hb

theorem Only.foldl {α : Type} {g : State → α → State} {l : List α} (h : Only n o p s) (hg : ∀ s x, Only n o p s → Only n o p (g s x)) :
    Only n o p (l.foldl g s) := by
  induction l generalizing s with
  | nil => exact h
  | cons x l ih => exact ih (hg s x h)

theorem stream?_updStream_other {m : Nat} (ne : m ≠ n) : stream? (updStream n f s) m = stream? s m := by
  rw [stream?, stream?, List.getD_eq_getElem?_getD, List.getD_eq_getElem?_getD, updStream, getElem?_upd_other ne.symm]

theorem stream?_putStream_none : stream? (putStream n none s) n = none := by
  rw [stream?, putStream, List.getD_eq_getElem?_getD, List.getElem?_set, if_pos rfl]
  split <;> rfl

theorem stream?_putStream_other {m : Nat} (ne : m ≠ n) : stream? (putStream n o s) m = stream? s m := by
  rw [stream?, stream?, putStream, List.getD_eq_getElem?_getD, List.getD_eq_getElem?_getD, List.getElem?_set_ne ne.symm]

theorem putStream_putStream (a b : Option Stream) : putStream n b (putStream n a s) = putStream n b s :=
  congrArg (fun l => { s with streams := l }) (List.set_set ..)

/-- A stream that is open, in its place. -/
theorem stream?_putStream (hx : stream? s n = some x) (y : Stream) : stream? (putStream n (some y) s) n = some y :=
  stream?_eq_some.mpr (List.getElem?_set_self (List.getElem?_eq_some_iff.mp (stream?_eq_some.mp hx)).1)

/-- A change of an open stream is another one put in its place. -/
theorem updStream_eq_putStream (hx : stream? s n = some x) (f : Stream → Stream) : updStream n f s = putStream n (some (f x)) s := by
  rw [Machine.updStream, upd_eq_set (stream?_eq_some.mp hx)]
  rfl

theorem Only.updStream (h : Only n (some y) p s) : Only n (some (f y)) p (updStream n f s) :=
  ⟨stream?_updStream h.stream, fun m ne => (stream?_updStream_other ne).trans (h.others m ne)⟩

theorem Becomes.updStream (h : Becomes n y p s) : Becomes n (f y) p (updStream n f s) := ⟨h.toOnly.updStream, h.mbx⟩

end

/-! ### The newest frame of a stream -/

/-- A stream with one more frame at the end of its list. -/
def withLast (x : Stream) (g : Frame) : Stream := { x with frames := x.frames ++ [g] }

/-- A stream whose next device frame number is another. -/
def withNextNum (x : Stream) (k : Nat) : Stream := { x with nextNum := k }

/-- A frame with a device frame number, or none. -/
def withNum (f : Frame) (k : Option Nat) : Frame := { f with num := k }

/-- The frames of a stream carry serial numbers below `k`. -/
def NumberedBelow (k : Nat) (x : Stream) : Prop := ∀ y ∈ x.frames, y.id < k

section
variable {p s : State} {n id : Nat} {x y : Stream} {f g : Frame} {k : Frame → Frame}

/-- A change of the frames with the newest serial number is a change of the newest frame. -/
theorem withFrames_last (below : NumberedBelow id x) (newest : g.id = id) : withFrames id k (withLast x g) = withLast x (k g) := by
  have same : (x.frames.map fun f => if f.id = id then k f else f) = x.frames :=
    (List.map_congr_left fun f hf => if_neg (below f hf).ne).trans (List.map_id _)
  simp [withFrames, withLast, same, newest]

theorem frameOf_last (below : NumberedBelow id x) (newest : g.id = id) : frameOf (withLast x g) id = some g := by
  have older : x.frames.find? (fun f => f.id == id) = none := List.find?_eq_none.mpr fun f hf => by simpa using (below f hf).ne
  simp [frameOf, withLast, older, newest]

theorem Becomes.updLast (h : Becomes n (withLast x g) p s) (below : NumberedBelow id x) (newest : g.id = id) (k : Frame → Frame) :
    Becomes n (withLast x (k g)) p (updFrame n id k s) := by
  have changed := h.updStream (f := withFrames id k)
  rwa [withFrames_last below newest] at changed

/-- The newest frame takes its device frame number (R218). -/
theorem Becomes.numberLast (h : Becomes n (withLast x g) p s) (below : NumberedBelow id x) (newest : g.id = id) : ∃ a b,
    Becomes n (withLast (withNextNum x a) (withNum g b)) p (numberFrame n id s) := by
  unfold numberFrame
  rw [h.stream, getFrame_eq h.stream, frameOf_last below newest]
  dsimp only
  split
  · exact ⟨x.nextNum, g.num, h⟩
  · exact ⟨x.nextNum + 1, some x.nextNum, (h.updLast below newest (withNum · (some x.nextNum))).updStream (f := (withNextNum · (x.nextNum + 1)))⟩

/-- Its cells are free (R285). -/
theorem Becomes.freeLast (h : Becomes n (withLast x g) p s) (below : NumberedBelow id x) (newest : g.id = id) :
    Becomes n (withLast x (unchained g)) p (freeFrame n id s) := by
  have freed : freeFrame n id s = updFrame n id unchained (freeChain g.head s) := by
    rw [freeFrame, getFrame_eq h.stream, frameOf_last below newest]
    rfl
  rw [freed]
  exact (h.upkeep (freeChain_upkeep (.refl s))).updLast below newest unchained

end

end Sys2Proof.Machine
end

section
/-! The end of ingest (R204, R205, R218, R233, R234, R281 to R285): the stream has one more frame, its newest, whatever the tests say of it. -/

namespace Sys2Proof.Machine

section
variable {p s : State} {n : Nat} {x y : Stream} {f g : Frame}

/-! ### Clips and pre-roll (R233, R234) -/

theorem Becomes.clipTake {k m : Nat} (h : Becomes n y p s) : Becomes n y p (clipTake k m f s) := by
  unfold Machine.clipTake
  split
  · exact h
  · split
    · exact h
    · split
      · exact h.still rfl rfl
      · split
        · exact h.still rfl rfl
        · split
          next st t retained =>
          have ht : Becomes n y p t := by
            split at retained
            · cases retained
              exact h
            · have := h.upkeep (retainOp_upkeep (i := f.head) (.refl s))
              rwa [retained] at this
          split
          · exact ht.still rfl rfl
          · exact ht.still rfl rfl

theorem Becomes.clipsTake {m : Nat} (h : Becomes n y p s) : Becomes n y p (clipsTake m f s) := by
  unfold Machine.clipsTake
  generalize List.range 32 = ks
  induction ks generalizing s with
  | nil => exact h
  | cons k ks ih => exact ih h.clipTake

/-- A stream with another pre-roll ring. -/
def withRing (x : Stream) (l : List RingUnit) : Stream := { x with ring := l }

theorem Becomes.trimRing {t : Nat} (h : Becomes n y p s) : ∃ l, Becomes n (withRing y l) p (trimRing n t s) := by
  unfold Machine.trimRing
  rw [h.stream]
  dsimp only
  have freed := h.upkeep ((Upkeep.refl s).foldl (f := fun s (r : RingUnit) => freeChain r.head s)
    (l := y.ring.filter fun r => decide (r.tzero + y.cfg.preroll * 1000000000 < t)) fun _ _ => freeChain_upkeep)
  exact ⟨_, freed.updStream (f := fun x => withRing x (x.ring.filter fun r => decide (t ≤ r.tzero + x.cfg.preroll * 1000000000)))⟩

theorem Becomes.keepPreroll {irap : Bool} (h : Becomes n y p s) : ∃ l, Becomes n (withRing y l) p (keepPreroll n f irap s) := by
  unfold Machine.keepPreroll
  rw [h.stream]
  dsimp only
  split
  · exact ⟨y.ring, h⟩
  · have kept : Becomes n y p (retainOp f.head s).2 := h.upkeep (retainOp_upkeep (.refl s))
    split
    · exact (kept.updStream (f := fun x => withRing x (x.ring ++ [_]))).trimRing
    · exact kept.trimRing

/-! ### The end of ingest (R281 to R285) -/

/-- `y` is `x` with its next serial number given away: its frames, its depacketiser and its capture stand. -/
structure Counted (x y : Stream) : Prop where
  nextId : y.nextId = x.nextId + 1
  frames : y.frames = x.frames
  rtp : y.rtp = x.rtp
  capture : y.capture = x.capture

/-- A frame without what ingest, its tests and its numbering decide. -/
def arrived (f : Frame) : Frame := { f with id := 0, num := none, head := 0, stage := .queued, reason := 0, status := 0, decodeOnly := false }

/-- A stream that counts a frame: its serial number is given away, and the credit, the stamp and the steps are those behind it. -/
def counting (x : Stream) (credit : Int) (t : Nat) (shift : Int) : Stream :=
  { x with nextId := x.nextId + 1, credit := credit, prevStamp := some t, creditStep := shift }

/-- From `p` to `s` stream `n`, which was `x`, has one more frame, its newest, which arrived as `f`. -/
def Gains (n : Nat) (x : Stream) (f : Frame) (p s : State) : Prop :=
  ∃ y g, Becomes n (withLast y g) p s ∧ Counted x y ∧ g.id = x.nextId ∧ arrived g = arrived f

theorem numberFrame_gains (h : Becomes n (withLast y g) p s) (below : NumberedBelow x.nextId x) (counted : Counted x y)
    (id : g.id = x.nextId) (same : arrived g = arrived f) : Gains n x f p (numberFrame n x.nextId s) := by
  obtain ⟨a, b, numbered⟩ := h.numberLast (by rwa [NumberedBelow, counted.frames]) id
  exact ⟨_, _, numbered, ⟨counted.nextId, counted.frames, counted.rtp, counted.capture⟩, id, same⟩

/-- A frame that ends ingest is its stream's newest. -/
theorem endIngest_gains {irap room : Bool} (h : Becomes n x p s) (below : NumberedBelow x.nextId x) :
    Gains n x f p (endIngest n f irap room s) := by
  unfold endIngest
  rw [h.stream]
  dsimp -zeta only
  extract_lets g c test c' t u v
  have hu : Becomes n (withLast (counting x c' g.stamp g.shift) g) p u :=
    h.clipsTake.updStream (f := fun x => withLast (counting x c' g.stamp g.shift) g)
  have hv : ∃ y, Becomes n (withLast y g) p v ∧ Counted x y := by
    unfold v
    split
    · obtain ⟨l, kept⟩ := hu.keepPreroll (f := g) (irap := irap)
      exact ⟨withRing (counting x c' g.stamp g.shift) l, kept, rfl, rfl, rfl, rfl⟩
    · exact ⟨_, hu, rfl, rfl, rfl, rfl⟩
  obtain ⟨y, hv, counted⟩ := hv
  have belowY : NumberedBelow x.nextId y := by rwa [NumberedBelow, counted.frames]
  clear_value v test
  rcases test with _ | ⟨r, st⟩
  · dsimp only
    split
    · exact ⟨y, g, hv, counted, rfl, rfl⟩
    · exact numberFrame_gains hv below counted rfl rfl
  · dsimp only
    split
    · exact ⟨y, _, hv.updLast belowY rfl _, counted, rfl, rfl⟩
    · have decided : (decide1 r st g).id = x.nextId ∧ arrived (decide1 r st g) = arrived f := by
        unfold decide1
        split <;> exact ⟨rfl, rfl⟩
      obtain ⟨id, same⟩ := decided
      exact numberFrame_gains ((hv.updLast belowY rfl (decide1 r st)).freeLast belowY id) below counted id same

/-- A frame that is given up before its end of ingest is the stream's newest too, and takes its number (R203, R205). -/
theorem passed_becomes {t : Nat} {i : Int} (h : Becomes n x p s) (below : NumberedBelow x.nextId x) (id : f.id = x.nextId) : ∃ y num,
    Becomes n (withLast y (withNum f num)) p (numberFrame n x.nextId
      (updStream n (fun x => { x with nextId := x.nextId + 1, frames := x.frames ++ [f] }) (passFrame n t i s)))
    ∧ Counted x y := by
  have first := h.updStream (f := fun x => { x with credit := creditAt x t i, prevStamp := some t, creditStep := i })
  have passed : Becomes n (withLast (counting x (creditAt x t i) t i) f) p
      (updStream n (fun x => { x with nextId := x.nextId + 1, frames := x.frames ++ [f] }) (passFrame n t i s))  :=
    first.updStream (f := fun x => { x with nextId := x.nextId + 1, frames := x.frames ++ [f] })
  obtain ⟨a, num, numbered⟩ := passed.numberLast below id
  exact ⟨_, num, numbered, rfl, rfl, rfl, rfl⟩

end

/-! ### FRAME_SUBMIT (R204, R205, R361) -/

section
variable {p s : State} {n stamp given : Nat} {x : Stream} {bytes : List (Byte × Bool)} {irap : Bool}

/-- A host frame lands as its stream's newest, with its timestamp. -/
theorem landSubmission_gains (h : Becomes n x p s) (below : NumberedBelow x.nextId x) : ∃ y g,
    Becomes n (withLast y g) p (landSubmission n x stamp given bytes irap s) ∧ Counted x y ∧ g.id = x.nextId
      ∧ g.stamp = if given = 0 then stamp else given := by
  unfold landSubmission
  extract_lets t
  split
  next st head u built =>
  have hu : Becomes n x p u := by
    have := h.upkeep (buildChain_upkeep (k := landClass s x 4) (q := x.cfg.pool) (a := n) (d := bytes.map (·.1)) (m := bytes.map (·.2)) (.refl s))
    rwa [built] at this
  have ended (f : Frame) (stamp : f.stamp = t) (a b : Bool) : ∃ y g,
      Becomes n (withLast y g) p (endIngest n f a b u) ∧ Counted x y ∧ g.id = x.nextId ∧ g.stamp = t := by
    obtain ⟨y, g, hg, counted, id, same⟩ := endIngest_gains (f := f) (irap := a) (room := b) hu below
    exact ⟨y, g, hg, counted, id, (congrArg (·.stamp) same).trans stamp⟩
  split
  · exact ended _ rfl _ _
  · split
    · exact ended _ rfl _ _
    · obtain ⟨y, num, hy, counted⟩ := passed_becomes (t := t) (i := 0) (f := { freshFrame x.nextId t stamp 0 0 false (given != 0) with
        reason := reasonDamaged, status := 0x0107, stage := .skipped }) hu below rfl
      exact ⟨y, _, hy, counted, rfl, rfl⟩

/-- A submission with no failing check agrees with the stream's declaration. -/
theorem submission_of_submitStatus {bs : List Byte} {k : Nat} {data : List (Byte × Bool)} (h : submitStatus s x bs k given data = 0) :
    ∃ bytes irap, submission x data = some (bytes, irap) := by
  cases e : submission x data with
  | some l => exact ⟨l.1, l.2, rfl⟩
  | none =>
    unfold submitStatus at h
    simp [e] at h
    split_ifs at h

end

/-- Settles O18: FRAME_SUBMIT ends with its first failing check, and else its frame lands. -/
theorem hostFramesLand : Obligations.HostFramesLand := by
  unfold Obligations.HostFramesLand
  rintro q cid n c x s rfl o h t bs given data st
  have run := exec_openStream (i := .frameSubmit q cid) (.refl (execFrameSubmit q cid s)) rfl h o
  refine ⟨fun fails => run.trans (congrArg _ (if_pos fails)), fun good below => ?_⟩
  replace run := run.trans (congrArg _ (if_neg (not_not.mpr good)))
  obtain ⟨bytes, irap, agrees⟩ := submission_of_submitStatus good
  rw [show submission x (((submitBuffers (paramBlock (startCmd c s) c) (arg c 1 1)).map fun b =>
    hostMarked (startCmd c s) b.1 b.2).flatten) = some (bytes, irap) from agrees] at run
  dsimp -zeta only at run
  extract_lets u at run
  have hu : Becomes (arg c 0 1) x t u := by
    have begun : Becomes (arg c 0 1) x t t := .refl o
    unfold u
    split
    · exact begun.still rfl rfl
    · exact begun
  clear_value u
  obtain ⟨y, g, lands, counted, id, stamp⟩ := landSubmission_gains (stamp := c.stamp) (given := given) (bytes := bytes) (irap := irap) hu below
  have frames : (withLast y g).frames = x.frames ++ [g] := congrArg (· ++ [g]) counted.frames
  exact ⟨g, _, run, (congrArg (Option.map (·.frames)) lands.stream).trans (congrArg some frames),
    (congrArg (Option.map (·.nextId)) lands.stream).trans (congrArg some counted.nextId), id, stamp, lands.mbx⟩

end Sys2Proof.Machine
end

section
/-! The sensor ports (R198 to R203): what their packets make of the stream that captures the port and channel. -/

namespace Sys2Proof.Machine

/-! ### A stream's capture side -/

/-- A stream with another state of its capture. -/
def withCapture (x : Stream) (c : Capture) : Stream := { x with capture := some c }

section
variable {p s t : State} {n m port number stamp : Nat} {x : Stream} {cap : Capture} {c : CaptureFrame}

/-- A change of the capture of a stream is that stream put in its place. -/
theorem updCapture_eq (hx : stream? s n = some x) (hc : x.capture = some cap) (f : Capture → Capture) :
    updCapture n f s = { s with streams := s.streams.set n (some (withCapture x (f cap))) } := by
  rw [updCapture, updStream_eq_putStream hx, hc]
  rfl

theorem Only.updCapture (h : Only n (some x) p s) (hc : x.capture = some cap) (f : Capture → Capture) :
    Only n (some (withCapture x (f cap))) p (updCapture n f s) := by
  have changed := h.updStream (f := fun x => { x with capture := x.capture.map f })
  rw [hc] at changed
  exact changed

theorem Becomes.updCapture (h : Becomes n x p s) (hc : x.capture = some cap) (f : Capture → Capture) :
    Becomes n (withCapture x (f cap)) p (updCapture n f s) := ⟨h.toOnly.updCapture hc f, h.mbx⟩

/-- A capture whose open frame is `c`. -/
def withOpen (cap : Capture) (c : CaptureFrame) : Capture := { cap with frame := some c }

theorem Becomes.updOpenFrame (h : Becomes n x p s) (hc : x.capture = some cap) (hf : cap.frame = some c) (f : CaptureFrame → CaptureFrame) :
    Becomes n (withCapture x (withOpen cap (f c))) p (updOpenFrame n f s) := by
  have changed := h.updCapture hc fun k => { k with frame := k.frame.map f }
  rw [hf] at changed
  exact changed

theorem finishCmd_streams {q cid st r : Nat} {b : Bool} : (finishCmd q cid st r b s).streams = s.streams := by
  unfold finishCmd
  split <;> rfl

/-- Between frames an end leaves nothing to do. -/
theorem closeFrame_idle {byEnd : Bool} (hx : stream? s n = some x) (hc : x.capture = some cap) (hf : cap.frame = none) :
    closeFrame n byEnd number s = s := by
  rw [closeFrame, hx, Option.bind_some, hc]
  dsimp only
  rw [hf]

theorem adoptSet_settled (hx : stream? s n = some x) (hc : x.capture = some cap) (hp : cap.pending = none) : adoptSet n s = s := by
  rw [adoptSet, hx]
  dsimp only
  rw [hc]
  dsimp only
  rw [hp]

/-- A set that was committed in an earlier cycle is the active one from the Frame Start on (R202). -/
theorem adoptSet_pending {t0 : Nat} {l : List (Nat × Nat)} (hx : stream? s n = some x) (hc : x.capture = some cap)
    (hp : cap.pending = some (t0, l)) (earlier : t0 < steadyNs s) :
    Only n (some (withCapture x { cap with active := cap.shadow, pending := none })) s (adoptSet n s) := by
  rw [adoptSet, hx]
  dsimp only
  rw [hc]
  dsimp only
  rw [hp]
  dsimp only
  rw [if_pos earlier]
  exact ((Only.refl hx).updCapture hc fun c => { c with active := c.shadow, pending := none }).foldl fun _ _ h => h.still finishCmd_streams

/-! ### Frames that the port gives up (R203) -/

/-- The frame that a damaged one leaves. -/
def damagedFrame (id status : Nat) (c : CaptureFrame) : Frame :=
  { freshFrame id c.stamp c.stamp 0 0 false false with
    reason := reasonDamaged, status := status, stage := .skipped, events := [exposureEvent c.stamp] }

theorem damageFrame_becomes {status : Nat} (h : Becomes n x p s) (below : NumberedBelow x.nextId x) : ∃ y num,
    Becomes n (withLast y (withNum (damagedFrame x.nextId status c) num)) p (damageFrame n status c s) ∧ Counted x y := by
  rw [damageFrame, h.stream]
  exact passed_becomes (f := damagedFrame x.nextId status c) h below rfl

/-- What a given-up frame leaves of its stream: its skip record to come, and no open frame. -/
def GivesUp (n status : Nat) (x : Stream) (c : CaptureFrame) (t : State) : Prop :=
  ∃ f, (stream? t n).map (·.frames) = some (x.frames ++ [f]) ∧ ((stream? t n).bind (·.capture)).map (·.frame) = some none
    ∧ (f.id, f.reason, f.status, f.stamp) = (x.nextId, reasonDamaged, status, c.stamp)

theorem damageFrame_givesUp {status : Nat} {k : Capture} (h : Becomes n (withCapture x k) p s) (below : NumberedBelow x.nextId x)
    (closed : k.frame = none) : GivesUp n status x c (damageFrame n status c s) := by
  obtain ⟨y, num, damaged, counted⟩ := damageFrame_becomes (status := status) (c := c) h below
  refine ⟨withNum (damagedFrame x.nextId status c) num, ?_, ?_, rfl⟩
  · rw [damaged.stream]
    exact congrArg (fun l => some (l ++ [_])) counted.frames
  · rw [damaged.stream, Option.bind_some, show (withLast y _).capture = some k from counted.capture, Option.map_some, closed]

/-- An incomplete frame is given up at its end. -/
theorem closeFrame_givesUp {byEnd : Bool} (hx : stream? s n = some x) (hc : x.capture = some cap) (hf : cap.frame = some c)
    (short : c.complete = false) (below : NumberedBelow x.nextId x) :
    GivesUp n (if c.damaged = 0 then 0x0112 else c.damaged) x c (closeFrame n byEnd number s) := by
  rw [closeFrame, hx, Option.bind_some, hc]
  dsimp only
  rw [hf]
  dsimp only
  rw [short, if_neg Bool.false_ne_true]
  exact damageFrame_givesUp (((Becomes.refl hx).updCapture hc fun k => { k with
    frame := none, missingEnd := k.missingEnd + (if false && !byEnd then 1 else 0) }).upkeep (freeChain_upkeep (.refl _))) below rfl

theorem dropSync_givesUp (hx : stream? s n = some x) (hc : x.capture = some cap) (hf : cap.frame = some c)
    (own : cap.active.port = port) (short : c.complete = false) (below : NumberedBelow x.nextId x) :
    GivesUp n (if c.damaged = 0 then 0x0119 else c.damaged) x c (dropSync port n s) := by
  rw [dropSync, hx, Option.bind_some, hc]
  dsimp only
  rw [hf]
  dsimp only
  have reached : ¬ (cap.active.port != port || c.complete) = true := by simp [own, short]
  rw [if_neg reached]
  exact damageFrame_givesUp (((Becomes.refl hx).upkeep (freeChain_upkeep (.refl _))).updCapture hc fun k => { k with frame := none }) below rfl

theorem numberFrame_other {id : Nat} (ne : n ≠ m) : stream? (numberFrame m id s) n = stream? s n := by
  unfold numberFrame
  split
  · split
    · rfl
    · exact (stream?_updStream_other ne).trans (stream?_updStream_other ne)
  · rfl

theorem dropSync_other (ne : n ≠ m) : stream? (dropSync port m s) n = stream? s n := by
  have damaged (st : Nat) (c : CaptureFrame) (s : State) : stream? (damageFrame m st c s) n = stream? s n := by
    unfold damageFrame
    split
    · rfl
    · exact (numberFrame_other ne).trans ((stream?_updStream_other ne).trans (stream?_updStream_other ne))
  unfold dropSync
  split
  · rfl
  · split
    · split
      · rfl
      · exact (damaged ..).trans ((stream?_updStream_other ne).trans (stream?_of_streams (freeChain_upkeep (.refl s)).streams))
    · rfl

theorem dropSyncs_others {l : List Nat} (absent : n ∉ l) : stream? (l.foldl (fun s m => dropSync port m s) s) n = stream? s n := by
  induction l generalizing s with
  | nil => rfl
  | cons m l ih =>
    have ne : n ≠ m := fun e => absent (e ▸ List.mem_cons_self)
    exact (ih fun h => absent (List.mem_cons_of_mem _ h)).trans (dropSync_other ne)

/-- The loss of a port's synchronisation reaches each stream once (R203). -/
theorem dropSyncs_givesUp (hx : stream? s n = some x) (hc : x.capture = some cap) (hf : cap.frame = some c) (inside : n < 128)
    (own : cap.active.port = port) (short : c.complete = false) (below : NumberedBelow x.nextId x) :
    GivesUp n (if c.damaged = 0 then 0x0119 else c.damaged) x c ((List.range 128).foldl (fun s m => dropSync port m s) s) := by
  obtain ⟨before, after, split⟩ := List.append_of_mem (List.mem_range.mpr inside)
  have once : (before ++ n :: after).Nodup := split ▸ List.nodup_range
  obtain ⟨absent, -⟩ := List.nodup_cons.mp (List.nodup_middle.mp once)
  have absentBefore : n ∉ before := fun h => absent (List.mem_append_left _ h)
  have absentAfter : n ∉ after := fun h => absent (List.mem_append_right _ h)
  rw [split, List.foldl_append, List.foldl_cons]
  have here := dropSync_givesUp ((dropSyncs_others (port := port) absentBefore).trans hx) hc hf own short below
  rw [GivesUp, dropSyncs_others absentAfter]
  exact here

/-! ### Lines (R201, R203) -/

theorem lineOf_wrongType {dt : Nat} {payload : List Byte} {ok : Bool} (hx : stream? s n = some x) (hc : x.capture = some cap)
    (ne : cap.active.dataType ≠ dt) : lineOf n port dt payload ok stamp s = discardPacket port 0x0118 s := by
  rw [lineOf, hx]
  dsimp only
  rw [hc]
  exact if_pos ne

/-- A line whose check holds, of a frame that is open and whole. -/
theorem lineOf_open {payload : List Byte} (hx : stream? s n = some x) (hc : x.capture = some cap) (hf : cap.frame = some c)
    (short : c.complete = false) (whole : c.damaged = 0) : lineOf n port cap.active.dataType payload true stamp s =
      if payload.length < lineBytes cap.active.dataType cap.active.width then
        updOpenFrame n (fun c => { c with lines := c.lines + 1 }) (spoilFrame n 0x0114 c s)
      else takeLine n x cap c payload stamp s := by
  rw [lineOf, hx]
  dsimp only
  rw [hc]
  dsimp only
  rw [if_neg (not_not.mpr rfl), hf]
  dsimp only
  rw [short, if_neg Bool.false_ne_true, if_neg (not_not.mpr whole)]
  rfl

/-- A frame with one more line, which `payload` came in and whose cells begin at `head` and end at `last`. -/
def lineStored (cap : Capture) (c : CaptureFrame) (payload : List Byte) (head last : Nat) : CaptureFrame :=
  { c with
    lines := c.lines + 1, head := if c.head = 0 then head else c.head, tailCell := last
    truncated := c.truncated + (if decide (lineBytes cap.active.dataType cap.active.width < payload.length) then 1 else 0) }

theorem takeLine_stored {payload : List Byte} {head last : Nat}
    (stored : storeLine (landClass s x 3) n x.cfg.pool c.tailCell (c.lines + 1 == cap.active.height)
      (payload.take (lineBytes cap.active.dataType cap.active.width)) s = some (head, last, t)) :
    takeLine n x cap c payload stamp s =
      if c.lines + 1 = cap.active.height then
        completeFrame n stamp (lineStored cap c payload head last) (updOpenFrame n (fun _ => lineStored cap c payload head last) t)
      else updOpenFrame n (fun _ => lineStored cap c payload head last) t := by
  rw [takeLine, stored]
  rfl

/-- The frame that a complete capture enters its queue as. -/
def capturedFrame (cap : Capture) (c : CaptureFrame) (stamp : Nat) : Frame :=
  { freshFrame 0 stamp stamp c.head (cap.active.height * lineBytes cap.active.dataType cap.active.width) false false with
    set := some cap.active
    events := exposureEvent c.stamp :: (if c.truncated = 0 then [] else [ingestEvent 0x0114 c.truncated]) }

/-- The capture queue has room for one more frame (R185). -/
def captureRoom (x : Stream) : Bool := decide (heldFrames x < 3) || decide ((queuedFrames x).length < captureDepth x.cfg.period)

theorem completeFrame_gains (h : Becomes n (withCapture x (withOpen cap c)) p s) (below : NumberedBelow x.nextId x) : ∃ y g,
    Becomes n (withLast y g) p (completeFrame n stamp c s) ∧ y.nextId = x.nextId + 1 ∧ y.frames = x.frames ∧ g.id = x.nextId
      ∧ g.stamp = stamp ∧ g.set = some cap.active := by
  have closed := h.updOpenFrame rfl rfl fun c => { c with complete := true, id := x.nextId, head := 0, tailCell := 0 }
  obtain ⟨y, g, gained, counted, id, same⟩ :=
    endIngest_gains (f := capturedFrame cap c stamp) (irap := false) (room := captureRoom x) closed below
  rw [completeFrame, h.stream]
  exact ⟨y, g, gained, counted.nextId, counted.frames, id, congrArg (·.stamp) same, congrArg (·.set) same⟩

/-- A spoiled frame keeps its place and waits for its end (R203). -/
theorem spoilFrame_becomes {status : Nat} (hx : stream? s n = some x) (hc : x.capture = some cap) (hf : cap.frame = some c)
    (whole : c.damaged = 0) (f : CaptureFrame → CaptureFrame) :
    Becomes n (withCapture x (withOpen cap (f { c with damaged := status, head := 0, tailCell := 0 }))) s
      (updOpenFrame n f (spoilFrame n status c s)) := by
  have freed : Becomes n x s (freeChain c.head s) := (Becomes.refl hx).upkeep (freeChain_upkeep (.refl s))
  have spoiled := freed.updOpenFrame hc hf fun c => { c with damaged := if c.damaged = 0 then status else c.damaged, head := 0, tailCell := 0 }
  rw [if_pos whole] at spoiled
  exact spoiled.updOpenFrame rfl rfl f

end

/-! ### The packets (R201 to R203) -/

section
variable {s : State} {port channel n : Nat} {x : Stream} {cap : Capture}

/-- A port of island 4 takes packets: the device runs, and the port serves and is awake. -/
structure PortServes (port : Nat) (s : State) : Prop where
  known : port < 4
  running : s.power.running = true
  serves : unitFenced s 4 port = false
  awake : asleep s 4 = false

/-- A packet of a port that serves meets no other obstacle. -/
theorem PortServes.takes (h : PortServes port s) (known : channel < 4) (r : Res) :
    inRange (decide (port < 4 ∧ channel < 4)) s (if !s.power.running || unitFenced s 4 port || asleep s 4 then done s else r) = r := by
  simp [inRange, h.known, known, h.running, h.serves, h.awake]

theorem exec_uncaptured (h : PortServes port s) (known : channel < 4) (free : captureStream s port channel = none) {number stamp dt : Nat}
    {payload : List Byte} {ok : Bool} : ∀ i ∈ [Instr.frameStartPacket port channel number stamp, .frameEndPacket port channel number,
      .linePacket port channel dt payload true ok stamp], exec i s = .next (discardPacket port 0x0118 s) := by
  intro i hi
  simp only [List.mem_cons, List.not_mem_nil, or_false] at hi
  rcases hi with rfl | rfl | rfl
  · have row : execFrameStartPacket port channel number stamp s = _ := h.takes known _
    rw [free] at row
    exact row
  · have row : execFrameEndPacket port channel number s = _ := h.takes known _
    rw [free] at row
    exact row
  · have row : execLinePacket port channel dt payload true ok stamp s = _ := h.takes known _
    rw [free] at row
    exact row

/-- The frame that a Frame Start opens. -/
def openedFrame (number stamp : Nat) : CaptureFrame :=
  { number := number, stamp := stamp, lines := 0, head := 0, tailCell := 0, damaged := 0, truncated := 0, extra := 0, complete := false
    id := 0 }

theorem exec_frameStart (h : PortServes port s) (known : channel < 4) (captured : captureStream s port channel = some n) (number stamp : Nat) :
    exec (.frameStartPacket port channel number stamp) s = .next
      (updCapture n (fun c => withOpen c (openedFrame number stamp)) (adoptSet n (closeFrame n false number s))) := by
  have row : execFrameStartPacket port channel number stamp s = _ := h.takes known _
  rw [captured] at row
  exact row

theorem exec_frameEnd (h : PortServes port s) (known : channel < 4) (captured : captureStream s port channel = some n) (number : Nat) :
    exec (.frameEndPacket port channel number) s = .next (closeFrame n true number s) := by
  have row : execFrameEndPacket port channel number s = _ := h.takes known _
  rw [captured] at row
  exact row

theorem exec_line (h : PortServes port s) (known : channel < 4) (captured : captureStream s port channel = some n) (dt stamp : Nat)
    (payload : List Byte) (ok : Bool) :
    exec (.linePacket port channel dt payload true ok stamp) s = .next (lineOf n port dt payload ok stamp s) := by
  have row : execLinePacket port channel dt payload true ok stamp s = _ := h.takes known _
  rw [captured] at row
  exact row

theorem exec_badHeader (h : PortServes port s) (known : channel < 4) (dt stamp : Nat) (payload : List Byte) (ok : Bool) :
    exec (.linePacket port channel dt payload false ok stamp) s = .next
      (logErr 0x0115 4 port (updSensor port (fun p => { p with eccErrors := p.eccErrors + 1 }) s) { arg0 := port }) :=
  show execLinePacket port channel dt payload false ok stamp s = _ from h.takes known _

theorem exec_syncLoss (h : PortServes port s) :
    exec (.dphySyncLoss port) s = .next ((List.range 128).foldl (fun s n => dropSync port n s) s) := by
  show inRange (decide (port < 4)) s (doneIf (s.power.running && !unitFenced s 4 port && !asleep s 4) _ s) = _
  simp [inRange, doneIf, h.known, h.running, h.serves, h.awake]

/-- A stored line is one more of its frame, or completes it (R201). -/
theorem exec_storedLine (h : PortServes port s) (known : channel < 4) (captured : captureStream s port channel = some n)
    (hx : stream? s n = some x) (hc : x.capture = some cap) {c : CaptureFrame} (hf : cap.frame = some c) (short : c.complete = false)
    (whole : c.damaged = 0) {payload : List Byte} (stamp : Nat) (full : lineBytes cap.active.dataType cap.active.width ≤ payload.length)
    (stored : (storeLine (landClass s x 3) n x.cfg.pool c.tailCell (c.lines + 1 == cap.active.height)
      (payload.take (lineBytes cap.active.dataType cap.active.width)) s).isSome = true) :
    ∃ k u, Becomes n (withCapture x (withOpen cap k)) s u ∧ (k.lines, k.damaged, k.complete) = (c.lines + 1, 0, false)
      ∧ exec (.linePacket port channel cap.active.dataType payload true true stamp) s
        = .next (if c.lines + 1 = cap.active.height then completeFrame n stamp k u else u) := by
  obtain ⟨⟨head, last, t⟩, stored⟩ := Option.isSome_iff_exists.mp stored
  have held : Becomes n x s t := (Becomes.refl hx).upkeep (storeLine_upkeep stored)
  refine ⟨lineStored cap c payload head last, _, held.updOpenFrame hc hf fun _ => lineStored cap c payload head last, ?_, ?_⟩
  · exact congrArg (fun y => (c.lines + 1, y)) (congr (congrArg Prod.mk whole) short)
  · rw [exec_line h known captured, lineOf_open hx hc hf short whole, if_neg (Nat.not_lt_of_le full), takeLine_stored stored]

end

/-- Settles O38: packet by packet, on the stream that captures the port and channel. -/
theorem sensorFramesAreCaptured : Obligations.SensorFramesAreCaptured := by
  unfold Obligations.SensorFramesAreCaptured
  refine ⟨fun port channel s p4 c4 on serves awake free number at_ dt payload ok =>
    exec_uncaptured ⟨p4, on, serves, awake⟩ c4 free, ?_⟩
  intro port channel n x cap s p4 c4 on serves awake captured hx hc opened captures discard
  have h : PortServes port s := ⟨p4, on, serves, awake⟩
  refine ⟨fun number at_ idle => ⟨fun settled => ?_, fun t0 l waits earlier => ?_⟩, fun dt payload ok at_ => exec_badHeader h c4 ..,
    fun dt payload ok at_ ne => ?_, ?_,
    fun c i st number hf short below cause => ?_, fun number idle => ?_⟩
  · rw [exec_frameStart h c4 captured, closeFrame_idle hx hc idle, adoptSet_settled hx hc settled, updCapture_eq hx hc]
    rfl
  · refine ⟨_, exec_frameStart h c4 captured number at_, ?_⟩
    rw [closeFrame_idle hx hc idle, ((adoptSet_pending hx hc waits earlier).updCapture rfl _).stream]
    rfl
  · rw [exec_line h c4 captured, lineOf_wrongType hx hc ne]
    rfl
  · intro c payload at_ hf short whole dt b line
    refine ⟨fun less => ⟨_, exec_line h c4 captured .., ?_⟩, fun full stored => ?_⟩
    · rw [lineOf_open hx hc hf short whole, if_pos less, (spoilFrame_becomes hx hc hf whole _).stream]
      rfl
    · obtain ⟨k, u, hu, counted, run⟩ := exec_storedLine h c4 captured hx hc hf short whole at_ full stored
      refine ⟨fun more => ⟨u, run.trans (congrArg _ (if_neg more)), ?_⟩, fun last below => ?_⟩
      · rw [hu.stream]
        exact congrArg some counted
      · obtain ⟨y, g, complete, nextId, frames, id, stamp, set⟩ := completeFrame_gains (stamp := at_) hu below
        refine ⟨_, g, run.trans (congrArg _ (if_pos last)), ?_, id, stamp, set⟩
        rw [complete.stream]
        exact congrArg some (congr (congrArg Prod.mk nextId) (congrArg (· ++ [g]) frames))
  · rcases cause with e | ⟨e, own, inside⟩
    · obtain ⟨rfl, rfl⟩ := Prod.mk.inj e
      obtain ⟨f, given⟩ := closeFrame_givesUp (byEnd := true) (number := number) hx hc hf short below
      exact ⟨_, f, exec_frameEnd h c4 captured number, given⟩
    · obtain ⟨rfl, rfl⟩ := Prod.mk.inj e
      obtain ⟨f, given⟩ := dropSyncs_givesUp hx hc hf inside own short below
      exact ⟨_, f, exec_syncLoss h, given⟩
  · rw [exec_frameEnd h c4 captured, closeFrame_idle hx hc idle]

end Sys2Proof.Machine
end

section
/-! The slow path of an Ethernet port (R186, R187): what it takes within its rate, and what it makes of it. -/

namespace Sys2Proof.Machine

/-- Island 3 takes packets on every port: the device runs, and the island serves and is awake. -/
structure EtherServes (s : State) : Prop where
  running : s.power.running = true
  serves : ∀ u, unitFenced s 3 u = false
  awake : asleep s 3 = false

theorem EtherServes.unobstructed {s : State} {u : Nat} (h : EtherServes s) : ¬ (!s.power.running || unitFenced s 3 u || asleep s 3) = true := by
  simp [h.running, h.serves, h.awake]

/-- When the window of 1 s began that counts a packet at `now`, and what it has counted (R187). -/
def slowStart (now : Nat) (e : EthPort) : Nat := if e.slowFrom + 1000000000 ≤ now then now else e.slowFrom
def slowSeen (now : Nat) (e : EthPort) : Nat := if e.slowFrom + 1000000000 ≤ now then 0 else e.slowCount

/-- A port that has taken one more packet. -/
def slowTakenPort (now : Nat) (e : EthPort) : EthPort :=
  { e with slowFrom := slowStart now e, slowCount := slowSeen now e + 1, slowTaken := e.slowTaken + 1 }

section
variable {s : State} {port now : Nat} {e : EthPort} {k : SlowKind}

theorem slowTake_within (room : slowSeen now e < 100000) : slowTake now e = (slowTakenPort now e, true) := by
  unfold slowSeen at room
  unfold slowTake slowTakenPort slowStart slowSeen
  split
  · next fresh =>
    rw [if_pos fresh] at room
    exact if_pos room
  · next old =>
    rw [if_neg old] at room
    exact if_pos room

theorem slowTake_beyond (full : 100000 ≤ slowSeen now e) : slowTake now e =
    ({ e with slowFrom := slowStart now e, slowCount := slowSeen now e, slowDropped := e.slowDropped + 1 }, false) := by
  unfold slowSeen at full
  unfold slowTake slowStart slowSeen
  split
  · next fresh =>
    rw [if_pos fresh] at full
    exact if_neg (Nat.not_lt_of_le full)
  · next old =>
    rw [if_neg old] at full
    exact if_neg (Nat.not_lt_of_le full)

/-- A port with another state. -/
def putEth (port : Nat) (e : EthPort) (s : State) : State := { s with eth := s.eth.set port e }

theorem updEth_eq (there : s.eth[port]? = some e) (f : EthPort → EthPort) : updEth port f s = putEth port (f e) s := by
  rw [updEth, upd_eq_set there]
  rfl

theorem putEth_there (there : s.eth[port]? = some e) (e' : EthPort) : (putEth port e' s).eth[port]? = some e' :=
  List.getElem?_set_self (List.getElem?_eq_some_iff.mp there).1

theorem updEth_putEth (there : s.eth[port]? = some e) (e' : EthPort) (f : EthPort → EthPort) :
    updEth port f (putEth port e' s) = putEth port (f e') s := by
  rw [updEth_eq (putEth_there there e')]
  exact congrArg (fun l => { s with eth := l }) (List.set_set ..)

/-- A packet of any other kind than PAUSE and unsupported frames takes the slow path. -/
theorem exec_slowPathPacket (h : EtherServes s) (there : s.eth[port]? = some e) (kind : k ∉ [SlowKind.pauseFrame, .unsupported]) :
    exec (.slowPathPacket port k) s = .next (slowPath port k s) := by
  show execSlowPathPacket port k s = _
  unfold execSlowPathPacket
  rw [there]
  refine (if_neg h.unobstructed).trans ?_
  cases k with
  | pauseFrame => simp at kind
  | unsupported => simp at kind
  | _ => rfl

theorem slowPath_within (there : s.eth[port]? = some e) (room : slowSeen (steadyNs s) e < 100000) :
    slowPath port k s = slowAnswer port k (putEth port (slowTakenPort (steadyNs s) e) s) := by
  rw [slowPath, there]
  dsimp only
  rw [slowTake_within room, slowDeliver, updEth_eq there]
  rfl

theorem slowPath_beyond (there : s.eth[port]? = some e) (full : 100000 ≤ slowSeen (steadyNs s) e) :
    slowPath port k s = putEth port { e with
      slowFrom := slowStart (steadyNs s) e, slowCount := slowSeen (steadyNs s) e, slowDropped := e.slowDropped + 1 } s := by
  rw [slowPath, there]
  dsimp only
  rw [slowTake_beyond full, slowDeliver, updEth_eq there]
  rfl

/-- Frames that a port drops by their kind. -/
theorem exec_droppedFrame (h : EtherServes s) (there : s.eth[port]? = some e) :
    exec (.slowPathPacket port .pauseFrame) s = .next (putEth port { e with pauseDropped := e.pauseDropped + 1 } s)
    ∧ exec (.slowPathPacket port .unsupported) s = .next (putEth port { e with unsupported := e.unsupported + 1 } s) := by
  constructor
  · show execSlowPathPacket port .pauseFrame s = _
    rw [execSlowPathPacket, there]
    exact (if_neg h.unobstructed).trans (congrArg _ (updEth_eq there _))
  · show execSlowPathPacket port .unsupported s = _
    rw [execSlowPathPacket, there]
    exact (if_neg h.unobstructed).trans (congrArg _ (updEth_eq there _))

/-- A port whose DHCP client runs asks for an offered address and takes an acknowledged one (R186). -/
theorem dhcpAnswer_client {p : NetParams} (there : s.eth[port]? = some e) (net : e.net = some p) (client : p.dhcp = true) (a : List Byte) :
    dhcpAnswer port (.offer a) s = emit (.dhcpRequest port a) s
    ∧ dhcpAnswer port (.ack a) s = updEth port (fun e => { e with lease := some a }) s := by
  constructor
  all_goals
    rw [dhcpAnswer, there, Option.bind_some, net]
    dsimp only
    rw [client]
    rfl

end

end Sys2Proof.Machine
end

section
/-! Depacketisers (R188 to R192): the release of access units, and what one packet makes of its stream. -/

namespace Sys2Proof.Machine

/-- A stream with another state of its depacketiser. -/
def withRtp (x : Stream) (r : Rtp) : Stream := { x with rtp := r }

/-- The state with a stream of another depacketiser. -/
def putRtp (n : Nat) (x : Stream) (r : Rtp) (s : State) : State := putStream n (some (withRtp x r)) s

section
variable {p s : State} {n : Nat} {x : Stream} {f : Flow} {r : Rtp} {u : UnitSpan} {q : RtpPacket}

theorem updRtp_eq (hx : stream? s n = some x) (g : Rtp → Rtp) : updRtp n g s = putRtp n x (g x.rtp) s :=
  updStream_eq_putStream hx _

theorem stream?_putRtp (hx : stream? s n = some x) (r : Rtp) : stream? (putRtp n x r s) n = some (withRtp x r) :=
  stream?_putStream hx _

theorem updRtp_putRtp (hx : stream? s n = some x) (r : Rtp) (g : Rtp → Rtp) : updRtp n g (putRtp n x r s) = putRtp n x (g r) s := by
  rw [updRtp_eq (stream?_putRtp hx r)]
  exact putStream_putStream ..

theorem putRtp_becomes (hx : stream? s n = some x) (r : Rtp) : Becomes n (withRtp x r) s (putRtp n x r s) := by
  have changed := (Becomes.refl hx).updStream (f := (withRtp · r))
  rwa [updStream_eq_putStream hx] at changed

/-! ### The release of an access unit (R190, R192) -/

/-- What a release takes from the pieces: what lies within the span. -/
def piecesBehind (r : Rtp) (u : UnitSpan) : List (Nat × Piece) :=
  r.pieces.filter fun y => decide (((spanPieces r u).getLast?.map (·.1)).getD u.first < y.1)

/-- A depacketiser that has released a span. -/
def releasedRtp (u : UnitSpan) (last : Nat) (r : Rtp) : Rtp :=
  { r with
    pieces := r.pieces.filter fun p => decide (last < p.1), released := some (u.last.getD last), cut := none
    missingMarker := r.missingMarker + (if u.marked || u.last.isNone then 0 else 1) }

/-- An access unit that is released is its stream's newest frame, and lost where it is released so. -/
theorem releaseUnit_gains {at_ : Nat × Int} {lost : Bool} (h : Becomes n x p s) (below : NumberedBelow x.nextId x) : ∃ y g,
    Becomes n (withLast y g) p (releaseUnit n u at_ lost s) ∧ y.nextId = x.nextId + 1 ∧ y.frames = x.frames
      ∧ y.rtp.pieces = piecesBehind x.rtp u ∧ g.id = x.nextId ∧ g.stamp = at_.1 ∧ (lost = true → g.lost = true) := by
  unfold releaseUnit
  rw [h.stream]
  dsimp -zeta only
  extract_lets ps nals bytes last port marks t v
  have ht : Becomes n x p (buildChain (landClass s x (1 + port)) x.cfg.pool n bytes marks (meetOutside 3 s)).2.2 :=
    h.upkeep (buildChain_upkeep (meetOutside_upkeep (.refl s)))
  have hv : Becomes n x p t := by
    unfold t
    split
    · exact ht
    · exact ht.upkeep (logErr_upkeep (.refl _))
  have hw := hv.updStream (f := fun x => withRtp x (releasedRtp u last x.rtp))
  obtain ⟨y, g, gained, counted, id, same⟩ := endIngest_gains (f := _) (irap := unitIrap (streamHevc x) nals) (room := true) hw below
  refine ⟨y, g, gained, counted.nextId, counted.frames, congrArg (·.pieces) counted.rtp, id, congrArg (·.stamp) same, fun given => ?_⟩
  exact (congrArg (·.lost) same).trans (Bool.or_eq_true_iff.mpr (.inl given))

/-- What a stream keeps of a frame that an overdue access unit has left: its number, and that it is lost. -/
def HasLost (n id : Nat) (s : State) : Prop :=
  ∃ y g, stream? s n = some y ∧ NumberedBelow y.nextId y ∧ g ∈ y.frames ∧ g.id = id ∧ g.lost = true

theorem numberedBelow_gained {y : Stream} {g : Frame} (below : NumberedBelow x.nextId x) (next : y.nextId = x.nextId + 1)
    (frames : y.frames = x.frames) (id : g.id = x.nextId) : NumberedBelow (withLast y g).nextId (withLast y g) := by
  show ∀ f ∈ y.frames ++ [g], f.id < y.nextId
  intro f hf
  rw [frames, List.mem_append, List.mem_singleton] at hf
  rcases hf with old | rfl
  · have := below f old
    omega
  · omega

theorem releaseComplete_hasLost {id fuel : Nat} (h : HasLost n id s) : HasLost n id (releaseComplete n fuel s) := by
  induction fuel generalizing s with
  | zero => exact h
  | succ fuel ih =>
    unfold releaseComplete
    split
    · split
      · refine ih ?_
        obtain ⟨y, g, hy, below, there, hid, lost⟩ := h
        obtain ⟨z, k, gained, next, frames, -, newId, -⟩ := releaseUnit_gains (.refl hy) below
        refine ⟨withLast z k, g, gained.stream, numberedBelow_gained below next frames newId, ?_, hid, lost⟩
        exact List.mem_append_left _ (frames.symm ▸ there)
      · exact h
    · exact h

/-- The oldest access unit leaves a lost frame of the next serial number. -/
theorem releaseLost_hasLost (hx : stream? s n = some x) (below : NumberedBelow x.nextId x) (oldest : unitSpan x.rtp = some u) :
    HasLost n x.nextId (releaseLost n s) := by
  obtain ⟨y, g, gained, next, frames, -, id, -, lost⟩ :=
    releaseUnit_gains (u := u) (at_ := spanArrival x.rtp u) (lost := true) (.refl hx) below
  rw [releaseLost, hx, Option.bind_some, oldest]
  exact ⟨withLast y g, g, gained.stream, numberedBelow_gained below next frames id, List.mem_append_right _ (List.mem_singleton.mpr rfl), id,
    lost rfl⟩

theorem unitSpan_of_windowFrom {t : Nat} (h : windowFrom r = some t) : ∃ u, unitSpan r = some u := by
  unfold windowFrom at h
  split at h
  · next u span => exact ⟨u, span⟩
  · cases h

/-! ### One packet (R188 to R191) -/

/-- The depacketiser takes a packet with no failing check (R186, R189). -/
def packetOk (f : Flow) (q : RtpPacket) : Bool :=
  q.version == 2 && q.payloadType == f.payloadType && !q.fragmented && !q.options && !nalExcluded f.hevc (rtpPayload q) && q.checksOk

theorem packetOk_eq_false_iff : packetOk f q = false ↔
    (q.version != 2 || q.payloadType != f.payloadType || q.fragmented || q.options || nalExcluded f.hevc (rtpPayload q) || !q.checksOk) = true := by
  simp only [packetOk, bne, Bool.and_eq_false_iff, Bool.or_eq_true, Bool.not_eq_true', Bool.not_eq_false']

/-- A depacketiser that counts one more packet as discarded. -/
def discarding (r : Rtp) : Rtp := { r with discarded := r.discarded + 1 }

theorem takePacket_discarded (hx : stream? s n = some x) (hf : x.rtp.flow = some f) (bad : packetOk f q = false) :
    takePacket n q s = putRtp n x (discarding x.rtp) s := by
  rw [takePacket, hx]
  dsimp only
  rw [hf]
  dsimp only
  exact (if_pos (packetOk_eq_false_iff.mp bad)).trans (updRtp_eq hx discarding)

/-- The one piece that the first packet of a depacketiser becomes. -/
def firstPiece (q : RtpPacket) : Piece := { ts := q.ts, marker := q.marker, payload := rtpPayload q, stamp := q.stamp }

/-- A depacketiser that hears a packet at `now`, and one that holds it as its first. -/
def hearing (r : Rtp) (q : RtpPacket) (now : Nat) : Rtp := { r with ssrc := some q.ssrc, lastArrival := now }
def holding (r : Rtp) (q : RtpPacket) : Rtp :=
  { r with pieces := [(65536 + q.seq, firstPiece q)], expected := some (65536 + q.seq + 1) }

/-- A depacketiser of a playing stream that has seen no packet and takes `q` within the stream's reservation. -/
structure TakesFirst (x : Stream) (f : Flow) (q : RtpPacket) : Prop where
  flow : x.rtp.flow = some f
  ok : packetOk f q = true
  pieces : x.rtp.pieces = []
  expected : x.rtp.expected = none
  released : x.rtp.released = none
  playing : x.rtsp.phase = .playing
  ssrc : f.ssrc = none → x.rtp.ssrc = none ∨ x.rtp.ssrc = some q.ssrc
  uncut : x.rtp.cut ≠ some q.ts
  room : queueCells x + cellsOf ((rtpPayload q).length + 4) ≤ ingestCells x.cfg none

theorem TakesFirst.resyncs (h : TakesFirst x f q) : resyncs x q = false := by
  rw [Machine.resyncs, h.flow, h.expected]
  cases hs : x.rtp.ssrc with
  | none => rfl
  | some k =>
    cases any : f.ssrc with
    | some _ => simp [any]
    | none =>
      have same : k = q.ssrc := by simpa [hs] using h.ssrc any
      simp [any, same]

/-- The packet is held, and the access units at the head go where they are complete. -/
theorem placePacket_first (hx : stream? s n = some x) (pieces : x.rtp.pieces = []) (expected : x.rtp.expected = none)
    (released : x.rtp.released = none) (uncut : x.rtp.cut ≠ some q.ts)
    (room : queueCells x + cellsOf ((rtpPayload q).length + 4) ≤ ingestCells x.cfg none) :
    placePacket n q s = releaseComplete n 2 (putRtp n x (holding x.rtp q) s) := by
  rw [placePacket, hx]
  dsimp only
  rw [expected, released, pieces]
  refine (if_neg Bool.false_ne_true).trans ((if_neg uncut).trans ((if_neg (Nat.not_lt_of_le room)).trans ?_))
  rw [updRtp_eq hx, expected, pieces]
  show releaseComplete n 2 (putRtp n x { x.rtp with
    pieces := [(65536 + q.seq, firstPiece q)], expected := some (max (65536 + q.seq + 1) 0) } s) = _
  rw [Nat.max_zero]
  rfl

theorem takePacket_first (hx : stream? s n = some x) (h : TakesFirst x f q) :
    takePacket n q s = releaseComplete n 2 (putRtp n x (holding (hearing x.rtp q (steadyNs s)) q) s) := by
  have guard : ¬ (q.version != 2 || q.payloadType != f.payloadType || q.fragmented || q.options || nalExcluded f.hevc (rtpPayload q)
      || !q.checksOk) = true := by
    rw [← packetOk_eq_false_iff, h.ok]
    exact Bool.false_ne_true.symm
  have noted : noteArrival n s = putRtp n x { x.rtp with lastArrival := steadyNs s } s := by
    rw [noteArrival, hx]
    dsimp only
    rw [h.playing]
    exact (if_neg (by simp)).trans (updRtp_eq hx fun r => { r with lastArrival := steadyNs s })
  rw [takePacket, hx]
  dsimp only
  rw [h.flow]
  refine (if_neg guard).trans ?_
  rw [h.resyncs, noted]
  refine (congrArg (placePacket n q) (updRtp_putRtp hx _ fun r => { r with ssrc := some q.ssrc })).trans ?_
  refine (placePacket_first (stream?_putRtp hx (hearing x.rtp q (steadyNs s))) h.pieces h.expected h.released h.uncut h.room).trans ?_
  exact congrArg (releaseComplete n 2) (putStream_putStream ..)

/-- Without its marker the packet waits for the rest of its access unit. -/
theorem releaseComplete_waits {fuel : Nat} (hx : stream? s n = some (withRtp x (holding r q))) (released : r.released = none)
    (more : q.marker = false) : releaseComplete n (fuel + 1) s = s := by
  have span : unitSpan (holding r q) = some { first := 65536 + q.seq, ts := q.ts, last := none, marked := false } := by
    simp [unitSpan, holding, firstPiece, released, more]
  rw [releaseComplete, hx, Option.bind_some, show (withRtp x (holding r q)).rtp = holding r q from rfl, span]
  rfl

/-- The span of a packet that is an access unit of its own. -/
def singleSpan (q : RtpPacket) : UnitSpan := { first := 65536 + q.seq, ts := q.ts, last := some (65536 + q.seq), marked := true }

theorem unitSpan_single (released : r.released = none) (marked : q.marker = true) :
    unitSpan (holding r q) = some (singleSpan q) := by
  simp [unitSpan, holding, firstPiece, released, marked, singleSpan]

theorem spanPieces_single : spanPieces (holding r q) (singleSpan q) = [(65536 + q.seq, firstPiece q)] := by
  simp [spanPieces, holding, singleSpan]

theorem spanComplete_single : spanComplete (holding r q) (singleSpan q) = true := by
  rw [spanComplete, spanPieces_single]
  simp [singleSpan]

theorem completionStamp_single : (completionStamp (holding r q) (singleSpan q)).1 = q.stamp := by
  rw [completionStamp, spanPieces_single]
  simp only [List.map_cons, List.map_nil, List.foldl_cons, List.foldl_nil, pieceArrival, firstPiece]
  split
  · rfl
  · omega

theorem piecesBehind_single : piecesBehind (holding r q) (singleSpan q) = [] := by
  rw [piecesBehind, spanPieces_single]
  simp [holding]

/-- With its marker it is an access unit of its own. -/
theorem releaseComplete_single (hx : stream? s n = some (withRtp x (holding r q))) (below : NumberedBelow x.nextId x)
    (released : r.released = none) (marked : q.marker = true) : ∃ y g, stream? (releaseComplete n 2 s) n = some (withLast y g)
      ∧ y.nextId = x.nextId + 1 ∧ y.frames = x.frames ∧ y.rtp.pieces = [] ∧ g.id = x.nextId ∧ g.stamp = q.stamp := by
  obtain ⟨y, g, gained, next, frames, pieces, id, stamp, -⟩ := releaseUnit_gains (u := singleSpan q) (lost := false)
    (at_ := completionStamp (holding r q) (singleSpan q)) (.refl hx) below
  have empty : y.rtp.pieces = [] := pieces.trans piecesBehind_single
  refine ⟨y, g, ?_, next, frames, empty, id, stamp.trans completionStamp_single⟩
  have first : releaseComplete n 2 s
      = releaseComplete n 1 (releaseUnit n (singleSpan q) (completionStamp (holding r q) (singleSpan q)) false s) := by
    rw [releaseComplete, hx, Option.bind_some, show (withRtp x (holding r q)).rtp = holding r q from rfl,
      unitSpan_single released marked]
    exact if_pos spanComplete_single
  have nothingLeft : unitSpan (withLast y g).rtp = none := by
    rw [unitSpan, show (withLast y g).rtp.pieces = [] from empty]
  rw [first, releaseComplete, gained.stream, Option.bind_some, nothingLeft]
  exact gained.stream

end

end Sys2Proof.Machine
end

section
/-! Packets, reorder windows and the release of frames (R183, R186 to R192, R195): what each makes of the stream that it belongs to. -/

namespace Sys2Proof.Machine

section
variable {s : State} {n : Nat} {x : Stream} {f : Flow} {q : RtpPacket} {g : Frame}

theorem exec_rtpPacket (h : EtherServes s) (known : q.port < 2) : exec (.rtpPacket q) s = .next
    (match packetStream s q with | some n => takePacket n q s | none => slowPath q.port .unmatchedUdp s) := by
  show execRtpPacket q s = _
  rw [execRtpPacket, inRange, if_pos (decide_eq_true known), if_neg h.unobstructed]
  cases packetStream s q <;> rfl

/-- A packet that matches no flow entry is one of the slow path (R188). -/
theorem exec_rtpPacket_unmatched (h : EtherServes s) (known : q.port < 2) (free : packetStream s q = none) :
    exec (.rtpPacket q) s = exec (.slowPathPacket q.port .unmatchedUdp) s := by
  rw [exec_rtpPacket h known, free]
  cases there : s.eth[q.port]? with
  | none =>
    show _ = execSlowPathPacket q.port .unmatchedUdp s
    unfold execSlowPathPacket
    rw [slowPath, there]
    rfl
  | some e => rw [exec_slowPathPacket h there (by simp)]

theorem exec_rtpPacket_matched (h : EtherServes s) (known : q.port < 2) (found : packetStream s q = some n) :
    exec (.rtpPacket q) s = .next (takePacket n q s) := by
  rw [exec_rtpPacket h known, found]

/-- A TCP segment that completes a packet of an interleaved session counts like the packet (R195). -/
theorem exec_interleaved (h : EtherServes s) (hx : s.streams[n]? = some (some x)) (source : x.cfg.source = 0) (transport : x.rtsp.transport = 2) :
    exec (.interleavedRtpSegment n q) s = .next (takePacket n q s) := by
  show execInterleavedRtpSegment n q s = _
  rw [execInterleavedRtpSegment, hx]
  exact congrArg _ (if_pos (by simp [h.running, h.serves, h.awake, source, transport]))

/-- A reorder window that has not passed changes nothing, one that has passed releases the oldest unit as lost (R190). -/
theorem exec_windowExpiry {t : Nat} (hx : s.streams[n]? = some (some x)) (window : windowFrom x.rtp = some t) :
    exec (.reorderWindowExpiry n) s = .next (if t + 50000 * x.cfg.wr ≤ nowNs s then
      releaseComplete n (x.rtp.pieces.length + 1) (releaseLost n s) else s) := by
  show execReorderWindowExpiry n s = _
  rw [execReorderWindowExpiry, hx]
  dsimp only
  rw [window]
  exact (apply_ite done ..).symm

/-! ### FRAME_RELEASE (R183) -/

theorem updFrame_eq (hx : stream? s n = some x) (id : Nat) (k : Frame → Frame) :
    updFrame n id k s = { s with streams := s.streams.set n (some (withFrames id k x)) } :=
  updStream_eq_putStream hx _

/-- Two changes of the frames of a serial number are one. -/
theorem withFrames_withFrames {id : Nat} {j k : Frame → Frame} (keeps : ∀ f, (j f).id = f.id) :
    withFrames id k (withFrames id j x) = withFrames id (fun f => k (j f)) x := by
  have step (f : Frame) : (if (if f.id = id then j f else f).id = id then k (if f.id = id then j f else f) else if f.id = id then j f else f)
      = if f.id = id then k (j f) else f := by
    by_cases e : f.id = id
    · simp only [if_pos e, keeps]
    · simp only [if_neg e]
  simp only [withFrames, List.map_map, Function.comp_def, step]

theorem updFrame_updFrame {id : Nat} {j k : Frame → Frame} (hx : stream? s n = some x) (keeps : ∀ f, (j f).id = f.id) :
    updFrame n id k (updFrame n id j s) = { s with streams := s.streams.set n (some (withFrames id (fun f => k (j f)) x)) } := by
  rw [updFrame_eq (stream?_updFrame hx), withFrames_withFrames keeps, updFrame_eq hx]
  exact putStream_putStream ..

/-- A frame that enters landing at `t`. -/
def landing (t : Nat) (f : Frame) : Frame := stamp 0 t { f with stage := .landing, landed := true }

theorem exec_frameRelease (hx : s.streams[n]? = some (some x)) (next : nextQueued x = some g) :
    exec (.frameRelease n) s = .next (if decide (3 ≤ heldFrames x) || decodePaused s x then s
      else if isCoded x then updFrame n g.id (landing (nowNs s)) s
      else updFrame n g.id (fun f => stamp 1 (nowNs s) { f with stage := .ready }) (updFrame n g.id (landing (nowNs s)) s)) := by
  show execFrameRelease n s = _
  rw [execFrameRelease, hx]
  dsimp only
  rw [next]
  dsimp only
  split
  · rfl
  · split <;> rfl

end

/-- Settles O36: the slow path, the depacketiser of the packet's stream, its reorder window and its ingest queue, one by one. -/
theorem packetsReachTheirStream : Obligations.PacketsReachTheirStream := by
  unfold Obligations.PacketsReachTheirStream
  intro s on serves awake
  have h : EtherServes s := ⟨on, serves, awake⟩
  refine ⟨fun port e there => ?_, fun q known => ⟨exec_rtpPacket_unmatched h known, ?_⟩,
    fun n t0 x hx window below => ⟨fun due => ?_, fun early => ?_⟩, fun n x g hx next => ?_⟩
  · have within (room : slowSeen (steadyNs s) e < 100000) (k : SlowKind) (kind : k ∉ [SlowKind.pauseFrame, .unsupported]) :=
      (exec_slowPathPacket h there kind).trans (congrArg _ (slowPath_within (k := k) there room))
    obtain ⟨paused, unsupported⟩ := exec_droppedFrame h there
    intro count start seen taken
    refine ⟨paused, unsupported, fun room => ⟨fun k hk => ?_, fun k hk => ?_, fun _ => within room _ (by simp),
      fun _ _ => within room _ (by simp), fun p a net client => ?_⟩, fun k kind full =>
        (exec_slowPathPacket h there kind).trans (congrArg _ (slowPath_beyond there full))⟩
    · simp only [List.mem_cons, List.not_mem_nil, or_false] at hk
      rcases hk with rfl | rfl | rfl
      all_goals exact within room _ (by simp)
    · rcases hk with ⟨_, rfl⟩ | rfl | rfl
      all_goals exact within room _ (by simp)
    · obtain ⟨offer, ack⟩ := dhcpAnswer_client (putEth_there there (slowTakenPort (steadyNs s) e)) net client a
      refine ⟨(within room _ (by simp)).trans (congrArg _ offer), (within room _ (by simp)).trans (congrArg _ (ack.trans ?_))⟩
      exact updEth_putEth there _ fun e => { e with lease := some a }
  · intro n x f found hx hf ok rtp k
    have run := exec_rtpPacket_matched h known found
    refine ⟨fun bad => run.trans (congrArg _ (takePacket_discarded hx hf bad)),
      fun source transport _ opens => (exec_interleaved h opens source transport).trans run.symm,
      fun good pieces expected released playing ssrc uncut room => ?_⟩
    have first : TakesFirst x f q := ⟨hf, good, pieces, expected, released, playing, ssrc, uncut, room⟩
    have held := stream?_putRtp hx (holding (hearing x.rtp q (steadyNs s)) q)
    replace run := run.trans (congrArg _ (takePacket_first hx first))
    refine ⟨fun more => ?_, fun marked below => ?_⟩
    · rw [run, releaseComplete_waits held released more, holding, firstPiece, more]
      rfl
    · obtain ⟨y, g, released, nextId, frames, pieces, id, stamp⟩ := releaseComplete_single held below released marked
      refine ⟨_, g, run, ?_, id, stamp⟩
      rw [released]
      show some (y.nextId, y.frames ++ [g], y.rtp.pieces) = _
      rw [nextId, frames, pieces]
  · obtain ⟨u, oldest⟩ := unitSpan_of_windowFrom window
    obtain ⟨y, g, hy, -, there, id, lost⟩ := releaseComplete_hasLost (fuel := x.rtp.pieces.length + 1)
      (releaseLost_hasLost (stream?_eq_some.mpr hx) below oldest)
    exact ⟨_, y, g, (exec_windowExpiry hx window).trans (congrArg _ (if_pos due)), hy, there, id, lost⟩
  · exact (exec_windowExpiry hx window).trans (congrArg _ (if_neg (Nat.not_le_of_lt early)))
  · have run := exec_frameRelease hx next
    have opens := stream?_eq_some.mpr hx
    refine ⟨fun few decodes => ?_, fun held => run.trans (congrArg _ (if_pos (by simpa using held)))⟩
    replace run := run.trans (congrArg _ (if_neg (by simpa using ⟨few, decodes⟩)))
    refine ⟨fun coded => run.trans (congrArg _ ((if_pos coded).trans (updFrame_eq opens ..))), fun raw => ?_⟩
    exact run.trans (congrArg _ ((if_neg (ne_true_of_eq_false raw)).trans (updFrame_updFrame opens fun _ => rfl)))

end Sys2Proof.Machine
end

section
/-! Streams that close or lose their source (R161, R193, R194, R196, R415): what of the streams a close, a refused session and a lost one
leave. -/

namespace Sys2Proof.Machine

section
variable {p s t : State} {n : Nat} {x y : Stream} {o : Option Stream}

/-! ### A stream that goes (R415) -/

theorem Only.putNone (h : Only n o p s) : Only n none p (putStream n none s) :=
  ⟨stream?_putStream_none, fun m ne => (stream?_putStream_other ne).trans (h.others m ne)⟩

theorem leaveGroups_only {k : Nat} (h : Only n o p s) : Only n o p (leaveGroups k s) := by
  refine h.foldl fun s p h => ?_
  split
  · exact h
  · exact Only.foldl (h.still (by rfl)) fun _ _ h => h.still (by rfl)

/-- A stream that is removed is the only one that goes. -/
theorem removeStream_only (n : Nat) (x : Stream) (s : State) : Only n none s (removeStream n x s) := by
  have begun : Only n (stream? s n) s s := .refl rfl
  unfold removeStream
  extract_lets -merge -underBinder +onlyGivenNames heads t u v w y z a
  have ht : Only n (stream? s n) s t := begun.foldl fun _ _ h => h.upkeep (freeChain_upkeep (.refl _))
  have hu : Only n (stream? s n) s u := (leaveGroups_only (ht.upkeep (endStreamSeqs_upkeep (.refl _)))).upkeep (sendClosed_upkeep (.refl _))
  have hv : Only n (stream? s n) s v := hu.upkeep (unreserve_upkeep (unreserve_upkeep (unreserve_upkeep (.refl u))))
  clear_value v
  have hz : Only n (stream? s n) s z := hv.still (by rfl)
  have ha : Only n none s a := hz.putNone.foldl fun _ _ h => h.still finishCmd_streams
  exact ha.foldl fun _ _ h => h.upkeep (releasePrompt_upkeep (.refl _))

/-! ### A session that is refused or lost (R193, R194) -/

/-- A stream whose open no command waits for. -/
def answered (x : Stream) : Stream := { x with rtsp := { x.rtsp with openCmd := none } }

theorem answerOpen_stream {st r : Nat} (hx : stream? s n = some x) : stream? (answerOpen n st r s) n = some (answered x) := by
  rw [answerOpen, hx]
  dsimp only
  cases waits : x.rtsp.openCmd with
  | none =>
    have same : answered x = x := by rw [answered, ← waits]
    rw [same]
    exact hx
  | some c => exact (stream?_of_streams finishCmd_streams).trans (stream?_updStream hx)

theorem streamState_stream {st state attempt code : Nat} (hx : stream? s n = some x) :
    ∃ y, stream? (streamState n st state attempt code s) n = some y ∧ recordSide y = recordSide x := by
  have same : SameRecords s (streamState n st state attempt code s) := by
    unfold streamState noticeRecord
    extract_lets h bs
    split
    · exact (emitRecord_delivered ..).records.still rfl
    · exact .refl s
  exact same.stream hx

theorem closeRefused_closes (hx : stream? s n = some x) : stream? (closeRefused n s) n = none := by
  rw [closeRefused, hx]
  exact (removeStream_only ..).stream

/-- An open whose session is refused goes with its stream (R193). -/
theorem failSession_closes {st : Nat} (hx : stream? s n = some x) (waits : x.rtsp.openCmd.isSome = true) :
    stream? (failSession n st closeRefused s) n = none := by
  rw [failSession, hx]
  dsimp only
  rw [if_pos waits]
  exact closeRefused_closes (answerOpen_stream (stream?_updStream hx))

/-- A stream whose session is gone, with a reconnection due at `retryAt`. -/
def lostSession (x : Stream) (phase : RtspPhase) (attempts retryAt : Nat) : Stream :=
  { x with rtsp := { x.rtsp with phase := phase, attempts := attempts, retryAt := retryAt } }

/-- The failed attempts in a row that a loss counts from (R194). -/
def failedAttempts (x : Stream) : Nat := if x.rtsp.phase == .playing then 0 else x.rtsp.attempts

/-- A lost stream stays open, in its phase and with its delay. -/
theorem loseStream_stream {st code : Nat} {final : Bool} (hx : stream? s n = some x) : ∃ y, stream? (loseStream n st code final s) n = some y
    ∧ (y.rtsp.phase, y.rtsp.retryAt, y.rtsp.attempts)
      = (if final then .failed else .lost, steadyNs s + reconnectDelay (failedAttempts x), failedAttempts x) := by
  unfold loseStream
  rw [hx]
  dsimp -zeta only
  extract_lets first k t u v
  have ht : stream? t n = some x := by
    unfold t
    split
    · exact hx
    · exact hx
  have now : steadyNs t = steadyNs s := by
    unfold t
    split <;> rfl
  have hu : stream? u n = some (lostSession x (if final then .failed else .lost) k (steadyNs s + reconnectDelay k)) := by
    rw [← now]
    exact stream?_updStream ht
  have hv : ∃ y, stream? v n = some y ∧ y.rtsp = (lostSession x (if final then .failed else .lost) k (steadyNs s + reconnectDelay k)).rtsp := by
    unfold v
    split
    · exact ⟨_, stream?_updStream hu, rfl⟩
    · exact ⟨_, hu, rfl⟩
  obtain ⟨y, hy, rtsp⟩ := hv
  obtain ⟨z, hz, side⟩ := streamState_stream (n := n) (st := st) (state := 0) (attempt := k) (code := code)
    (answerOpen_stream (st := 0) (r := openResult x) hy)
  refine ⟨z, hz, ?_⟩
  have same : z.rtsp = (answered y).rtsp := congrArg (·.rtsp) side
  rw [same, answered, rtsp]
  rfl

/-- Where decode joins anew no picture has joined (R194). -/
theorem joinDecode_stream (hx : stream? s n = some x) : ∃ d : Decoder, stream? (joinDecode n s) n = some { x with dec := d } ∧ d.joined = false := by
  unfold joinDecode
  split
  · exact ⟨_, stream?_updStream hx, rfl⟩
  · exact ⟨_, stream?_updStream hx, rfl⟩

/-- A depacketiser that waits for its first packet from `now` on. -/
def emptied (now : Nat) (r : Rtp) : Rtp :=
  { r with lastArrival := now, ssrc := none, expected := none, released := none, cut := none, pieces := [] }

/-- A session that begins to play. -/
def playingSession (x : Stream) (now : Nat) : Stream :=
  { x with rtsp := { x.rtsp with phase := .playing, redirects := 0 }, rtp := emptied now x.rtp }

/-- What PLAY answered means for a stream: it plays, no command waits for it, nothing is held and no picture has joined. -/
def playsAnew (x : Stream) : RtspPhase × Option (Nat × Nat) × Bool × Bool := (x.rtsp.phase, x.rtsp.openCmd, x.rtp.pieces.isEmpty, x.dec.joined)

theorem playsAnew_of_recordSide (side : recordSide y = recordSide x) : playsAnew y = playsAnew x := by
  show playsAnew (recordSide y) = playsAnew (recordSide x)
  rw [side]

theorem startPlaying_stream (hx : stream? s n = some x) :
    ∃ y, stream? (startPlaying n s) n = some y ∧ playsAnew y = (.playing, none, true, false) := by
  unfold startPlaying
  rw [hx]
  dsimp -zeta only
  extract_lets t u v
  have began : stream? t n = some { x with rtsp := { x.rtsp with phase := .playing, redirects := 0 } } := stream?_updStream hx
  have ht : stream? (updRtp n (emptied (steadyNs t)) t) n = some (playingSession x (steadyNs t)) :=
    stream?_updStream (f := fun x => { x with rtp := emptied (steadyNs t) x.rtp }) began
  obtain ⟨d, hu, joined⟩ := joinDecode_stream ht
  have hv : ∃ y, stream? v n = some y ∧ playsAnew y = (.playing, none, true, false) := by
    unfold v
    split
    · exact ⟨_, answerOpen_stream hu, congrArg (fun b => (RtspPhase.playing, none, true, b)) joined⟩
    · next idle =>
      obtain ⟨y, hy, side⟩ := streamState_stream hu
      have unasked : x.rtsp.openCmd = none := by simpa using idle
      exact ⟨y, hy, (playsAnew_of_recordSide side).trans (congr (congrArg (fun c b => (RtspPhase.playing, c, true, b)) unasked) joined)⟩
  obtain ⟨y, hy, plays⟩ := hv
  exact ⟨_, stream?_updStream hy, plays⟩

end

end Sys2Proof.Machine
end

section
/-! RTSP sessions, and the reports of a stream (R186, R193, R194, R196, R209): what each event makes of the stream and sends. -/

namespace Sys2Proof.Machine

section
variable {s : State} {n m : Nat} {x y : Stream} {r : RtspResponse} {phase : RtspPhase} {close : Nat → State → State}

/-! ### Requests (R193) -/

/-- A stream that has sent a request at `now`, in a phase. -/
def asking (x : Stream) (phase : RtspPhase) (now : Nat) : Stream := { x with rtsp := { x.rtsp with phase := phase, lastSent := now } }

/-- A request that a stream sends, with its URL, transport and credentials. -/
theorem rtspSend_eq (hx : stream? s n = some x) :
    rtspSend n phase m s = emit (.rtspRequest n (rtspRequestOf x m)) (putStream n (some (asking x phase (steadyNs s))) s) := by
  rw [rtspSend, hx]
  exact congrArg (emit _) (updStream_eq_putStream hx (asking · phase (steadyNs s)))

theorem rtspSend_updStream (hx : stream? s n = some x) (f : Stream → Stream) :
    rtspSend n phase m (updStream n f s)
      = emit (.rtspRequest n (rtspRequestOf (f x) m)) (putStream n (some (asking (f x) phase (steadyNs s))) s) := by
  rw [updStream_eq_putStream hx, rtspSend_eq (stream?_putStream hx _)]
  exact congrArg (emit _) (putStream_putStream ..)

/-! ### Responses (R193, R209) -/

/-- The phases in which a session waits for a response. -/
def waitingPhases : List RtspPhase := [.options, .describe, .setup, .play]

theorem exec_rtspResponse (hx : s.streams[n]? = some (some x)) (on : s.power.running = true) (source : x.cfg.source = 0)
    (waits : x.rtsp.phase ∈ waitingPhases) : exec (.rtspResponse n r) s = .next (rtspAdvance n x r closeRefused s) := by
  show execRtspResponse n r s = _
  rw [execRtspResponse, hx]
  refine congrArg _ (if_pos ?_)
  simpa [on, source, waitingPhases, or_assoc] using waits

theorem oldServer_of_code_lt (code : r.code < 400) : oldServer x r = false := by
  simp only [oldServer, Bool.and_eq_false_iff, beq_eq_false_iff_ne]
  omega

/-- A response that neither asks for credentials, nor redirects, nor fails. -/
def GoodResponse (r : RtspResponse) : Prop := r.unauthorised = false ∧ r.redirect = none ∧ r.code < 400

/-- What a good response brings is its phase's next step. -/
theorem rtspAdvance_good (good : GoodResponse r) : rtspAdvance n x r close s = match x.rtsp.phase with
    | .options => rtspSend n .describe rtspDescribe (updRtsp n (fun y => { y with getParameter := r.getParameter }) s)
    | .describe => afterDescribe n x r close s
    | .setup => afterSetup n x r close s
    | .play => if refusesOpen s n x then refuseOpen n x close s else startPlaying n s
    | _ => s := by
  obtain ⟨authorised, here, code⟩ := good
  have fine : ¬ (r.redirect.isSome || decide (400 ≤ r.code)) = true := by simp [here, code]
  have stays : ¬ (r.redirect.isSome && decide (x.rtsp.redirects < 3)) = true := by simp [here]
  rw [rtspAdvance, oldServer_of_code_lt code, authorised]
  refine (if_neg Bool.false_ne_true).trans ((if_neg Bool.false_ne_true).trans ((if_neg stays).trans ((if_neg fine).trans ?_)))
  cases x.rtsp.phase <;> rfl

theorem afterDescribe_taken {d : MediaDesc} (chosen : chosenMedia r.media = some d) (plain : d.interleaved = false) (order : d.donDiff = 0)
    (udp : x.rtsp.transport ≠ 2) : afterDescribe n x r close s = rtspSend n .setup rtspSetup (updRtsp n (fun y => { y with media := some d }) s) := by
  rw [afterDescribe, chosen]
  exact (if_neg (by simp [plain, order])).trans (if_neg (by simp [udp]))

/-- A stream whose session is set up, with its flow entry. -/
def setUp (x : Stream) (r : RtspResponse) : Stream :=
  { x with
    rtp := { x.rtp with flow := some (rtspFlow x r) }
    rtsp := { x.rtsp with timeout := if r.sessionTimeout = 0 then 60 else r.sessionTimeout } }

/-- Its session's timeout, which the server names or which is 60 s (log 232). -/
def withTimeout (x : Stream) (r : RtspResponse) : Stream :=
  { x with rtsp := { x.rtsp with timeout := if r.sessionTimeout = 0 then 60 else r.sessionTimeout } }

theorem afterSetup_unicast (hx : stream? s n = some x) (unicast : x.rtsp.transport = 0) (free : flowTaken s n (rtspFlow x r) = false) :
    afterSetup n x r close s = emit (.rtspRequest n (rtspRequestOf (setUp x r) rtspPlay))
      (putStream n (some (asking (setUp x r) .play (steadyNs s))) s) := by
  have flowed : updStream n (fun y => { y with rtp := { y.rtp with flow := some (rtspFlow x r) } }) (updStream n (withTimeout · r) s)
      = putStream n (some (setUp x r)) s := by
    rw [updStream_eq_putStream hx, updStream_eq_putStream (stream?_putStream hx _), putStream_putStream]
    rfl
  rw [afterSetup, unicast, free]
  refine (if_neg (by simp)).trans ((if_neg (by simp)).trans ?_)
  refine (congrArg (rtspSend n .play rtspPlay) flowed).trans ?_
  rw [rtspSend_eq (stream?_putStream hx _)]
  exact congrArg (emit _) (putStream_putStream ..)

/-- An open whose session has passed its own checks and that R277 refuses goes with its stream. -/
theorem refuseOpen_closes (hx : stream? s n = some x) (refuses : refusesOpen s n x = true) :
    stream? (refuseOpen n x closeRefused s) n = none := by
  have waits : x.rtsp.openCmd.isSome = true := (Bool.and_eq_true_iff.mp refuses).1
  exact failSession_closes hx waits

/-- A second refusal of the credentials, or one that asks for none (log 178). -/
theorem answerChallenge_refused (again : r.challenges = [] ∨ x.rtsp.auth.isSome = true) :
    answerChallenge n x r close s = failSession n 0x0103 close s := by
  unfold answerChallenge
  split
  · next asked fresh => simp [asked, fresh] at again
  · rfl

theorem failSession_open {st : Nat} (hx : stream? s n = some x) (idle : x.rtsp.openCmd = none) :
    failSession n st close s = loseStream n 0 0 (st == 0x0103) s := by
  rw [failSession, hx]
  exact if_neg (by simp [idle])

/-- A session that had played, or whose first reconnection this is, is lost for 1 s. -/
theorem loseStream_first {st code : Nat} (hx : stream? s n = some x) (fresh : failedAttempts x = 0) :
    (stream? (loseStream n st code false s) n).map (fun y => (y.rtsp.phase, y.rtsp.retryAt, y.rtsp.attempts))
      = some (.lost, steadyNs s + 1000000000, 0) := by
  obtain ⟨y, hy, lost⟩ := loseStream_stream (st := st) (code := code) (final := false) hx
  rw [hy, Option.map_some, lost, fresh]
  rfl

theorem exec_sourceLost {cause : LostCause} (hx : s.streams[n]? = some (some x)) (on : s.power.running = true) (source : x.cfg.source ≤ 1)
    (plays : x.rtsp.phase = .playing) (admitted : refusesOpen s n x = false)
    (due : match cause with | .idle => x.rtp.lastArrival + idleNs x ≤ steadyNs s | .bye => True | .keepAlive => x.cfg.source = 0) :
    exec (.sourceLost n cause) s = .next (loseStream n 0 0 false s) := by
  show execSourceLost n cause s = _
  rw [execSourceLost, hx]
  refine (doneIf_pos ?_ _ _).trans (by rw [admitted]; rfl)
  cases cause with
  | idle => simp [on, source, plays, show x.rtp.lastArrival + idleNs x ≤ steadyNs s from due]
  | bye => simp [on, source, plays]
  | keepAlive => simp [on, plays, show x.cfg.source = 0 from due]

theorem foldl_emit {α : Type} (g : α → Out) (l : List α) :
    l.foldl (fun s a => emit (g a) s) s = { s with out := s.out ++ l.map g } := by
  induction l generalizing s with
  | nil => simp
  | cons a l ih =>
    rw [List.foldl_cons, ih, List.map_cons, emit, List.append_assoc]
    rfl

theorem rtspAdvance_redirected {u : List Byte} (newer : oldServer x r = false) (authorised : r.unauthorised = false) (target : r.redirect = some u)
    (few : x.rtsp.redirects < 3) : rtspAdvance n x r close s = rtspSend n .options rtspOptions (updRtsp n (fun y => { y with
      redirects := y.redirects + 1, url := u, auth := none, media := none }) s) := by
  rw [rtspAdvance, newer, authorised, target]
  exact (if_neg Bool.false_ne_true).trans ((if_neg Bool.false_ne_true).trans (if_pos (by simp [few])))

theorem rtspAdvance_failed (newer : oldServer x r = false) (authorised : r.unauthorised = false) (here : r.redirect = none)
    (code : 400 ≤ r.code) (admitted : refusesOpen s n x = false) : rtspAdvance n x r close s = loseStream n 0x0102 r.code false s := by
  rw [rtspAdvance, newer, authorised, here, admitted]
  exact (if_neg Bool.false_ne_true).trans ((if_neg Bool.false_ne_true).trans ((if_neg Bool.false_ne_true).trans (if_pos (by simp [code]))))

end

/-! ### The events of a session -/

/-- Settles O37: each response is the next step of its phase, which `rtspSend_updStream` puts in the stream's place with its request; a
refused open goes with its stream, and a lost source leaves the stream open with its reconnection due. -/
theorem sessionsFollowTheirSource : Obligations.SessionsFollowTheirSource := by
  intro n x s hx on
  have hs : stream? s n = some x := stream?_eq_some.mpr hx
  have respond (r : RtspResponse) (source : x.cfg.source = 0) {phase : RtspPhase} (at_ : x.rtsp.phase = phase) (waits : phase ∈ waitingPhases) :
      exec (.rtspResponse n r) s = .next (rtspAdvance n x r closeRefused s) := exec_rtspResponse hx on source (at_ ▸ waits)
  refine ⟨?options, ?describe, ?setup, ?refused, ?older, ?play, ?challenge, ?redirect, ?lost, ?reconnect, ?keepalive, ?report, ?rtcp⟩
  case options =>
    intro r source good phase
    rw [respond r source phase (by decide), rtspAdvance_good good, phase]
    exact congrArg Host.Outcome.next (rtspSend_updStream hs _)
  case describe =>
    intro r m source good phase chosen plain order udp
    rw [respond r source phase (by decide), rtspAdvance_good good, phase]
    exact congrArg Host.Outcome.next ((afterDescribe_taken chosen plain order udp).trans (rtspSend_updStream hs _))
  case setup =>
    intro r source good phase unicast free
    rw [respond r source phase (by decide), rtspAdvance_good good, phase]
    exact congrArg Host.Outcome.next (afterSetup_unicast hs unicast free)
  case refused =>
    intro r source good phase refuses
    rw [respond r source phase (by decide), rtspAdvance_good good, phase]
    exact ⟨_, congrArg Host.Outcome.next (if_pos refuses), refuseOpen_closes hs refuses⟩
  case older =>
    intro r source code version waits
    rw [respond r source rfl waits, rtspAdvance, if_pos (by simp [oldServer, code, version])]
    exact congrArg Host.Outcome.next (rtspSend_updStream hs _)
  case play =>
    intro r source good phase admitted
    rw [respond r source phase (by decide), rtspAdvance_good good, phase]
    obtain ⟨y, hy, plays⟩ := startPlaying_stream hs
    exact ⟨_, congrArg Host.Outcome.next (if_neg (by simp [admitted])), by rw [hy]; exact congrArg some plays⟩
  case challenge =>
    intro r source newer asked waits
    rw [respond r source rfl waits, rtspAdvance, newer, asked]
    refine ⟨fun c l challenges fresh => ?_, fun again => ⟨_, rfl, fun opening => ?_, fun idle => ?_⟩⟩
    · have answered : answerChallenge n x r closeRefused s
          = rtspSend n x.rtsp.phase (phaseMethod x.rtsp.phase) (updRtsp n (fun y => { y with auth := some c }) s) := by
        rw [answerChallenge, challenges, fresh]
      exact congrArg Host.Outcome.next (answered.trans (rtspSend_updStream hs _))
    · exact (congrArg (stream? · n) (answerChallenge_refused again)).trans (failSession_closes hs opening)
    · obtain ⟨y, hy, lost⟩ := loseStream_stream (st := 0) (code := 0) (final := true) hs
      have failed : stream? (answerChallenge n x r closeRefused s) n = some y :=
        (congrArg (stream? · n) ((answerChallenge_refused again).trans (failSession_open hs idle))).trans hy
      exact (congrArg (Option.map _) failed).trans (congrArg some (Prod.ext_iff.mp lost).1)
  case redirect =>
    intro r u source newer authorised target few waits
    rw [respond r source rfl waits, rtspAdvance_redirected newer authorised target few]
    exact congrArg Host.Outcome.next (rtspSend_updStream hs _)
  case lost =>
    rintro i admitted (⟨r, rfl, newer, authorised, here, code, source, phase, first⟩ | ⟨rfl, source, phase⟩ | ⟨rfl, source, phase⟩
      | ⟨rfl, source, phase, idle⟩)
    · rw [respond r source phase (by decide), rtspAdvance_failed newer authorised here code admitted]
      exact ⟨_, rfl, loseStream_first hs (by simp [failedAttempts, first])⟩
    · exact ⟨_, exec_sourceLost hx on (by omega) phase admitted source, loseStream_first hs (by simp [failedAttempts, phase])⟩
    · exact ⟨_, exec_sourceLost hx on source phase admitted trivial, loseStream_first hs (by simp [failedAttempts, phase])⟩
    · exact ⟨_, exec_sourceLost hx on source phase admitted idle, loseStream_first hs (by simp [failedAttempts, phase])⟩
  case reconnect =>
    intro source phase due
    show execReconnect n s = _
    rw [execReconnect, hx]
    exact (doneIf_pos (by simp [on, source, phase, due]) _ _).trans (congrArg Host.Outcome.next (rtspSend_updStream hs _))
  case keepalive =>
    intro source phase due
    show execRtspKeepalive n s = _
    rw [execRtspKeepalive, hx]
    exact (doneIf_pos (by simp [on, source, phase, due]) _ _).trans (congrArg Host.Outcome.next (rtspSend_eq hs))
  case report =>
    intro left due
    show execMulticastReport n s = _
    rw [execMulticastReport, hx]
    refine (doneIf_pos (by simp [on, left, due]) _ _).trans (congrArg Host.Outcome.next ?_)
    rw [foldl_emit, updRtsp, updStream_eq_putStream hs]
    rfl
  case rtcp =>
    intro source phase due
    show execRtcpReport n s = _
    rw [execRtcpReport, hx]
    refine (doneIf_pos (by simp [on, source, phase, due]) _ _).trans (congrArg Host.Outcome.next ?_)
    rw [updRtsp, updStream_eq_putStream hs]
    rfl

end Sys2Proof.Machine
end

section
/-! STREAM_OPEN and STREAM_CLOSE (R277, R415, R419, R420): the checks of an open, what it puts at its index, and what a close leaves. -/

namespace Sys2Proof.Machine

section
variable {p s t u : State} {n port q cid : Nat} {x y : Stream} {b : OpenBlock} {bs : List Byte} {sec : SourceSection} {c : HostCmd}
  {cmd : Option (Nat × Nat)}

/-! ### The checks of an open (R419, R420) -/

theorem openStatus_open (taken : (stream? s n).isSome = true) : openStatus s n bs sec = 0x0007 := if_pos taken

theorem openStatus_outOfRange (free : stream? s n = none) (bad : openRanges bs (openBlock bs) sec = false) : openStatus s n bs sec = 0x0002 :=
  (if_neg (by simp [free])).trans (if_pos (by simp [bad]))

/-- An open that passes its checks has its block in range. -/
theorem openRanges_of_openStatus (good : openStatus s n bs sec = 0) : openRanges bs (openBlock bs) sec = true := by
  by_contra bad
  rcases h : stream? s n with _ | x
  · exact absurd ((openStatus_outOfRange h (eq_false_of_ne_true bad)).symm.trans good) (by decide)
  · exact absurd ((openStatus_open (by rw [h]; rfl)).symm.trans good) (by decide)

theorem sectionOk_of_openStatus (good : openStatus s n bs sec = 0) : sectionOk (openBlock bs).source sec = true :=
  (Bool.and_eq_true_iff.mp (openRanges_of_openStatus good)).2

/-- A section is one of an RTSP source. -/
def isRtsp : SourceSection → Bool
  | .rtsp _ _ _ _ _ => true
  | _ => false

theorem isRtsp_of_sectionOk {k : Nat} (ok : sectionOk k sec = true) : isRtsp sec = true ↔ k = 0 := by
  cases sec <;> simp [sectionOk, isRtsp] at ok ⊢ <;> omega

/-! ### What an open does (R163, R185, R489) -/

theorem reserveStream_upkeep (h : Upkeep p s) : Upkeep p (reserveStream n b sec s) := by
  unfold reserveStream
  extract_lets cells t
  have ht : Upkeep p t := h.still (by exact rfl)
  cases room : reserveOpen t n b with
  | none => exact ht
  | some u => exact ht.still (reserve_upkeep room)

theorem Becomes.wakeFor (h : Becomes n y p s) : Becomes n y p (wakeFor n s) := by
  rw [Machine.wakeFor, h.stream]
  dsimp only
  induction streamIslands y generalizing s with
  | nil => exact h
  | cons i l ih => exact ih (h.still (t := wakeIsland i s) rfl rfl)

/-- A stream put at an index of the table. -/
theorem Becomes.put (inside : n < s.streams.length) : Becomes n y s (putStream n (some y) s) :=
  ⟨⟨stream?_eq_some.mpr (List.getElem?_set_self inside), fun _ ne => stream?_putStream_other ne⟩, rfl⟩

/-- The state in which a stream has opened, its source apart. -/
def opened (n : Nat) (b : OpenBlock) (sec : SourceSection) (cmd : Option (Nat × Nat)) (s : State) : State :=
  clearHistories 0 n (updTrellis (fun t => { t with closedLinks := t.closedLinks.filter fun c => c.1 != n })
    (wakeFor n (putStream n (some (freshStream s b sec cmd)) (reserveStream n b sec (setPort sec s)))))

theorem opened_becomes (inside : n < s.streams.length) : Becomes n (freshStream s b sec cmd) s (opened n b sec cmd s) := by
  have reserved : Upkeep (setPort sec s) (reserveStream n b sec (setPort sec s)) := reserveStream_upkeep (.refl _)
  have streams : (reserveStream n b sec (setPort sec s)).streams = s.streams := by
    rw [reserved.streams, setPort_frame]
  have mbx : (reserveStream n b sec (setPort sec s)).mbx = s.mbx := by
    rw [reserved, setPort_frame]
  have put : Becomes n (freshStream s b sec cmd) s (putStream n (some (freshStream s b sec cmd)) (reserveStream n b sec (setPort sec s))) :=
    (Becomes.put inside).still (congrArg (List.set · n _) streams) mbx
  exact put.wakeFor.upkeep (clearHistories_upkeep (updTrellis_upkeep (.refl _)))

/-- A stream with its membership report due (R196). -/
def withReport (x : Stream) (due : Nat) : Stream := { x with rtsp := { x.rtsp with reportsLeft := 1, reportAt := due } }

theorem Becomes.joinGroup {a : List Byte} {l : List (List Byte)} (h : Becomes n x p s) (joins : joinGroup n port a l s = some u) :
    ∃ due, Becomes n (withReport x due) p u := by
  have reported := h.updStream (f := (withReport · (steadyNs s + 1000000000)))
  unfold Machine.joinGroup at joins
  split at joins
  · cases joins
  · split_ifs at joins
    · cases joins
      exact ⟨_, reported.still rfl rfl⟩
    · cases joins
      exact ⟨_, reported.still rfl rfl⟩

/-- A stream of another source than RTSP stands as it opens; one that has joined a group has a report due. -/
theorem openStream_becomes (inside : n < s.streams.length) (given : isRtsp sec = false) : ∃ y,
    Becomes n y s (openStream n b sec cmd s) ∧ (y = freshStream s b sec cmd
      ∨ (∃ f, sectionFlow sec = some f ∧ isMulticast f.dst = true) ∧ ∃ due, y = withReport (freshStream s b sec cmd) due) := by
  have h := opened_becomes (b := b) (sec := sec) (cmd := cmd) inside
  cases sec with
  | rtsp => cases given
  | rtpFlow port vlan dst dport src ssrc pt hevc =>
    show ∃ y, Becomes n y s (if isMulticast dst then _ else _) ∧ _
    split
    next multicast =>
      cases joins : joinGroup n port dst src.toList (opened n b (.rtpFlow port vlan dst dport src ssrc pt hevc) cmd s) with
      | none => exact ⟨_, (congrArg (Option.getD · _) joins).symm ▸ h, .inl rfl⟩
      | some u =>
        obtain ⟨due, hu⟩ := h.joinGroup joins
        exact ⟨_, (congrArg (Option.getD · _) joins).symm ▸ hu, .inr ⟨⟨_, rfl, multicast⟩, due, rfl⟩⟩
    next => exact ⟨_, h, .inl rfl⟩
  | belvedere => exact ⟨_, h, .inl rfl⟩
  | hostFormat => exact ⟨_, h, .inl rfl⟩

/-- An RTSP stream opens with OPTIONS sent (R193). -/
theorem openStream_rtsp (inside : n < s.streams.length) (session : isRtsp sec = true) : ∃ now,
    Becomes n (asking (freshStream s b sec cmd) .options now) s (openStream n b sec cmd s)
      ∧ .rtspRequest n (rtspRequestOf (freshStream s b sec cmd) rtspOptions) ∈ (openStream n b sec cmd s).out := by
  have h := opened_becomes (b := b) (sec := sec) (cmd := cmd) inside
  cases sec with
  | rtsp transport port url user password =>
    have sent : openStream n b (.rtsp transport port url user password) cmd s
        = rtspSend n .options rtspOptions (opened n b (.rtsp transport port url user password) cmd s) := rfl
    rw [sent, rtspSend, h.stream]
    exact ⟨_, (h.updStream (f := (asking · .options (steadyNs _)))).still rfl rfl, List.mem_append_right _ (List.mem_singleton_self _)⟩
  | _ => cases session

/-! ### What a close leaves (R415) -/

theorem Only.trans {o o' : Option Stream} (h : Only n o p s) (k : Only n o' s t) : Only n o' p t :=
  ⟨k.stream, fun m ne => (k.others m ne).trans (h.others m ne)⟩

/-- A stream whose close has begun. -/
def closingStream (x : Stream) : Stream :=
  { x with closing := true, rtp := { x.rtp with flow := none, pieces := [] }, rtsp := { x.rtsp with phase := .failed }, capture := none }

theorem finishClose_gone (h : Only n (some x) p s) (closing : x.closing = true) (drained : x.frames = []) : Only n none p (finishClose n s) := by
  rw [finishClose, h.stream]
  dsimp only
  rw [if_pos (by simp [closing, drained])]
  exact h.trans (removeStream_only ..)

theorem finishClose_waits (h : stream? s n = some x) (held : x.frames ≠ []) : finishClose n s = s := by
  rw [finishClose, h]
  exact if_neg (by simp [held])

/-- A close stops the intake of its stream, which goes once no frame is left. -/
theorem beginClose_only (hx : stream? s n = some x) :
    ∃ u, Only n (some (closingStream x)) s u ∧ beginClose n s = finishClose n u := by
  unfold beginClose
  rw [hx]
  dsimp -zeta only
  extract_lets t v w
  have ht : Only n (some x) s t := Only.ite ((Only.refl hx).still rfl) (.refl hx)
  have hv : Only n (some x) s v := by
    unfold v
    split
    · exact .ite ht (ht.upkeep (freeChain_upkeep (.refl _)))
    · exact ht
  exact ⟨w, (leaveGroups_only hv).updStream (f := closingStream), rfl⟩

/-! ### STREAM_OPEN and STREAM_CLOSE -/

section
variable (h : Accepts (.streamOpen q cid sec) c s)
include h

theorem Accepts.openIndex : arg c 0 1 < 128 := by
  obtain ⟨-, ok⟩ := h.of rfl
  exact of_decide_eq_true (checkCommand_indexOk ok)

theorem exec_streamOpen_refused (bad : openStatus (startCmd c s) (arg c 0 1) (paramBlock (startCmd c s) c) sec ≠ 0) :
    exec (.streamOpen q cid sec) s
      = .next (endCmd c (openStatus (startCmd c s) (arg c 0 1) (paramBlock (startCmd c s) c) sec) (startCmd c s)) := by
  obtain ⟨taken, ok⟩ := h.of rfl
  show execStreamOpen q cid sec s = _
  exact (runCommand_accepted taken ok).trans (congrArg Host.Outcome.next (if_pos bad))

variable (good : openStatus (startCmd c s) (arg c 0 1) (paramBlock (startCmd c s) c) sec = 0)
  (hb : b = openBlock (paramBlock (startCmd c s) c))
include good hb

theorem exec_streamOpen_rtsp (source : b.source = 0) :
    exec (.streamOpen q cid sec) s = .next (openStream (arg c 0 1) b sec (some (q, cid)) (startCmd c s)) := by
  obtain ⟨taken, ok⟩ := h.of rfl
  subst hb
  show execStreamOpen q cid sec s = _
  exact (runCommand_accepted taken ok).trans (congrArg Host.Outcome.next ((if_neg (not_not.mpr good)).trans (if_pos source)))

theorem exec_streamOpen_given (source : b.source ≠ 0) (hx : stream? (openStream (arg c 0 1) b sec none (startCmd c s)) (arg c 0 1) = some x) :
    exec (.streamOpen q cid sec) s = .next (okCmd c (openResult x) (openStream (arg c 0 1) b sec none (startCmd c s))) := by
  obtain ⟨taken, ok⟩ := h.of rfl
  subst hb
  show execStreamOpen q cid sec s = _
  refine (runCommand_accepted taken ok).trans (congrArg Host.Outcome.next ((if_neg (not_not.mpr good)).trans ((if_neg source).trans ?_)))
  dsimp only
  rw [hx]

end

theorem exec_streamClose (h : Accepts (.streamClose q cid) c s) : exec (.streamClose q cid) s = .next (
    if (stream? s (arg c 0 1)).isNone then endCmd c 0x0005 (startCmd c s) else beginClose (arg c 0 1) (startCmd c s)) := by
  obtain ⟨taken, ok⟩ := h.of rfl
  show execStreamClose q cid s = _
  exact runCommand_accepted taken ok

end

/-- Settles O16: an open ends with its first failing check and else puts its fresh stream at the index; a close stops the intake and
frees the index once no frame is left. -/
theorem streamsOpenAndClose : Obligations.StreamsOpenAndClose := by
  unfold Obligations.StreamsOpenAndClose
  refine ⟨?opens, ?closes⟩
  case opens =>
    rintro q cid n sec c s rfl h full t bs b x
    have inside : arg c 0 1 < t.streams.length := h.openIndex.trans_eq full.symm
    have refused (st : Nat) (ne : st ≠ 0) (status : openStatus t (arg c 0 1) bs sec = st) :
        exec (.streamOpen q cid sec) s = .next (endCmd c st t) := status ▸ exec_streamOpen_refused h (status.trans_ne ne)
    refine ⟨fun taken => refused _ (by decide) (openStatus_open taken), fun free bad => refused _ (by decide) (openStatus_outOfRange free bad),
      fun bad => refused _ bad rfl, fun good source => ?_, fun good source => ?_⟩
    · have given : isRtsp sec = false := eq_false_of_ne_true (mt (isRtsp_of_sectionOk (sectionOk_of_openStatus good)).mp source)
      obtain ⟨y, hy, shape⟩ := openStream_becomes (b := b) (cmd := none) inside given
      have same : y.frames = [] ∧ y.credit = 5 * b.period ∧ y.cfg = b ∧ openResult y = openResult (x none) := by
        rcases shape with rfl | ⟨-, due, rfl⟩ <;> exact ⟨rfl, rfl, rfl, rfl⟩
      obtain ⟨frames, credit, cfg, result⟩ := same
      refine ⟨_, result ▸ exec_streamOpen_given h good rfl source hy.stream, ?_⟩
      rw [hy.stream]
      refine ⟨congrArg some frames, congrArg some credit, congrArg some cfg, congrArg some result, fun unicast => ?_, hy.others⟩
      rcases shape with rfl | ⟨⟨f, flow, multicast⟩, -⟩
      · rfl
      · exact absurd multicast (by simp [unicast f flow])
    · have session : isRtsp sec = true := (isRtsp_of_sectionOk (sectionOk_of_openStatus good)).mpr source
      obtain ⟨now, hy, asked⟩ := openStream_rtsp (b := b) (cmd := some (q, cid)) inside session
      refine ⟨_, exec_streamOpen_rtsp h good rfl source, ?_⟩
      rw [hy.stream]
      exact ⟨rfl, rfl, hy.mbx, ⟨_, rfl, asked⟩, hy.others⟩
  case closes =>
    rintro q cid n c s rfl h
    have run := exec_streamClose h
    refine ⟨fun free => run.trans (congrArg Host.Outcome.next (if_pos (by simp [free]))), fun x hx => ?_⟩
    obtain ⟨u, hu, closes⟩ := beginClose_only (s := startCmd c s) hx
    replace run := run.trans (congrArg Host.Outcome.next ((if_neg (by simp [hx])).trans closes))
    refine ⟨fun drained => ?_, fun held => ?_⟩
    · have gone := finishClose_gone hu rfl drained
      exact ⟨_, run, gone.stream, gone.others⟩
    · rw [finishClose_waits hu.stream held] at run
      refine ⟨u, run, ?_⟩
      rw [hu.stream]
      exact ⟨rfl, rfl, rfl, rfl, hu.others⟩

end Sys2Proof.Machine
end

section
/-! Clip sessions (R231 to R241): what reading a chain and writing to a clip's buffers leave alone, what one session becomes, and its end. -/

namespace Sys2Proof.Machine

section
variable {p s t : State} {i : Nat} {c d : Clip}

/-! ### Chains and the buffers of a clip (R302, R308, R340) -/

theorem noteChain_memFrame (k : ReqClass) (head : Nat) (s : State) : MemFrame s (noteChain k head s) :=
  .foldl (fun _ _ => unitRead_memFrame ..) _ s

theorem retainAll_upkeep (l : List RingUnit) (s : State) : Upkeep s (retainAll l s) :=
  (Upkeep.refl s).foldl fun _ _ => retainOp_upkeep

theorem clipWrite_upkeep {a : Nat} {bs : List Byte} (h : Upkeep p s) : Upkeep p (clipWrite i a bs s) :=
  putLeaves_upkeep (windowWrite_upkeep (putLeaves_upkeep h))

theorem writeClip_upkeep {l : List (Nat × Nat)} {off : Nat} {bs : List Byte} (h : Upkeep p s) : Upkeep p (writeClip i l off bs s) := by
  induction l generalizing off bs s with
  | nil => exact h
  | cons b l ih => exact .ite h (.ite (ih h) (ih (clipWrite_upkeep h)))

/-- Reading the source of a session's next picture touches the memory only. -/
theorem noteClipSource_memFrame (c : Clip) (s : State) : MemFrame s (noteClipSource c s) := by
  unfold noteClipSource
  split
  · split
    · exact unitRead_memFrame ..
    · exact .refl s
  · split
    · exact noteChain_memFrame ..
    · exact .refl s

/-- The log of a bad cell is a log entry at most (R358). -/
theorem logBadSource_memFrame (c : Clip) (q : NextPicture) (s : State) : MemFrame s (logBadSource c q s) := by
  unfold logBadSource
  split
  · exact .log (logErr_frame ..)
  · exact .refl s

/-! ### One session -/

/-- From `p` to `s` the session in place `i` has become `c`; every other one, the mailbox and the Fountains stand. -/
structure Session (i : Nat) (c : Clip) (p s : State) : Prop where
  inside : i < p.clips.length
  clips : s.clips = p.clips.set i (some c)
  mbx : s.mbx = p.mbx
  fountains : s.fountains = p.fountains

theorem Session.refl (h : s.clips[i]? = some (some c)) : Session i c s s := by
  obtain ⟨lt, e⟩ := List.getElem?_eq_some_iff.mp h
  exact ⟨lt, by rw [← e, List.set_getElem_self], rfl, rfl⟩

theorem Session.stands (h : Session i c p s) : s.clips[i]? = some (some c) := by
  rw [h.clips, List.getElem?_set_self h.inside]

theorem getD_clip (h : s.clips[i]? = some (some c)) : s.clips.getD i none = some c := by
  rw [List.getD_eq_getElem?_getD, h]
  rfl

theorem Session.upkeep (h : Session i c p s) (k : Upkeep s t) : Session i c p t :=
  ⟨h.inside, by rw [k, h.clips], by rw [k, h.mbx], by rw [k, h.fountains]⟩

theorem Session.mem (h : Session i c p s) (k : MemFrame s t) : Session i c p t := h.upkeep ((Upkeep.refl s).mem k)

theorem Session.updClip (h : Session i c p s) (f : Clip → Clip) : Session i (f c) p (updClip i f s) := by
  refine ⟨h.inside, ?_, h.mbx, h.fountains⟩
  rw [updClip_clips, upd_eq_set h.stands, h.clips, List.set_set]
  rfl

/-! ### The end of a session (R241) -/

theorem finishBuf_clips {q cid st r : Nat} {bs : List Byte} : (finishBuf q cid st r bs s).clips = s.clips := by
  unfold finishBuf finishCmd
  split <;> rfl

/-- The CLIP_REQUEST of a session, as the mailbox holds it. -/
def isRequestOf (c : Clip) (k : HostCmd) : Bool := k.q == c.q && k.cid == c.cid && k.opc == 0x40

/-- A session that ends is gone, and its request, where it waits, ends with the status, its first timestamp and 24 bytes. -/
theorem endClip_ends {st : Nat} (hx : s.clips[i]? = some (some c)) : ∃ u, u.clips = s.clips.set i none ∧ u.mbx = s.mbx
    ∧ u.mem.host = s.mem.host ∧ (endClip i st s).clips = u.clips
    ∧ ∀ k, s.mbx.cmds.find? (isRequestOf c) = some k →
      endClip i st s = finishBuf c.q c.cid st (c.firstStamp.getD 0 % 2 ^ 32) (clipResult c) u := by
  generalize ended : endClip i st s = v
  unfold endClip at ended
  rw [getD_clip hx] at ended
  dsimp -zeta only at ended
  extract_lets t u at ended
  have ht : Upkeep s t := (Upkeep.refl s).foldl fun _ _ => freeChain_upkeep
  have hl : Lodged s t := (Lodged.refl s).foldl fun _ _ => freeChain_lodged
  have clips : u.clips = s.clips.set i none := congrArg (List.set · i none) (by rw [ht])
  have mbx : u.mbx = s.mbx := by
    show t.mbx = s.mbx
    rw [ht]
  refine ⟨u, clips, mbx, hl.host, ?_, fun k found => ?_⟩
  · rw [← ended]
    split
    · exact finishBuf_clips
    · rfl
  · rw [← ended, show u.mbx.cmds.find? _ = some k from mbx ▸ found]

theorem endClip_clips {st : Nat} (hx : s.clips[i]? = some (some c)) : (endClip i st s).clips = s.clips.set i none := by
  obtain ⟨u, clips, -, -, same, -⟩ := endClip_ends (st := st) hx
  exact same.trans clips

end

/-! ### CLIP_REQUEST and CLIP_CANCEL (R231 to R234, R241, R414) -/

section
variable {q cid : Nat} {c : HostCmd} {s : State}

/-- The work of an accepted CLIP_REQUEST for an open stream that passes its checks: a fresh session in place `i`. -/
theorem exec_clipRequest_fresh {x : Stream} {i : Nat} (h : Accepts (.clipRequest q cid) c s)
    (hx : stream? s (clipBlock (paramBlock (startCmd c s) c)).stream = some x)
    (good : clipStatus (startCmd c s) x (clipBlock (paramBlock (startCmd c s) c)) (paramBlock (startCmd c s) c) = 0)
    (free : posOf (fun o : Option Clip => o.isNone) s.clips = some i) :
    let t := startCmd c s
    let k := clipBlock (paramBlock t c)
    let u := retainAll (clipRetained x k.t0) t
    exec (.clipRequest q cid) s = .next { u with clips := u.clips.set i (some (freshClip q cid (steadyNs u)
      ((pickClipStores t x).getD 0) x k ((clipRetained x k.t0).map retainedSource))) } := by
  obtain ⟨taken, ok⟩ := h.of rfl
  show execClipRequest q cid s = _
  unfold execClipRequest
  refine (runCommand_accepted taken ok).trans ?_
  dsimp only
  rw [show stream? (startCmd c s) _ = some x from hx]
  dsimp only
  rw [if_neg (not_not.mpr good), show posOf _ (startCmd c s).clips = some i from free]

/-- A CLIP_REQUEST whose checks fail ends with the status of the first. -/
theorem exec_clipRequest_refused {x : Stream} (h : Accepts (.clipRequest q cid) c s)
    (hx : stream? s (clipBlock (paramBlock (startCmd c s) c)).stream = some x)
    (bad : clipStatus (startCmd c s) x (clipBlock (paramBlock (startCmd c s) c)) (paramBlock (startCmd c s) c) ≠ 0) :
    exec (.clipRequest q cid) s = .next (endCmd c
      (clipStatus (startCmd c s) x (clipBlock (paramBlock (startCmd c s) c)) (paramBlock (startCmd c s) c)) (startCmd c s)) := by
  obtain ⟨taken, ok⟩ := h.of rfl
  show execClipRequest q cid s = _
  unfold execClipRequest
  refine (runCommand_accepted taken ok).trans ?_
  dsimp only
  rw [show stream? (startCmd c s) _ = some x from hx]
  dsimp only
  rw [if_pos bad]

theorem exec_clipRequest_closed (h : Accepts (.clipRequest q cid) c s)
    (absent : stream? s (clipBlock (paramBlock (startCmd c s) c)).stream = none) :
    exec (.clipRequest q cid) s = .next (endCmd c 0x0221 (startCmd c s)) := by
  obtain ⟨taken, ok⟩ := h.of rfl
  show execClipRequest q cid s = _
  unfold execClipRequest
  refine (runCommand_accepted taken ok).trans ?_
  dsimp only
  rw [show stream? (startCmd c s) _ = none from absent]

/-- The lowest free session number is the first empty place. -/
theorem posOf_isNone {l : List (Option Clip)} {i : Nat} (free : l[i]? = some none) (first : ∀ j, j < i → l[j]? ≠ some none) :
    posOf (fun o : Option Clip => o.isNone) l = some i := by
  obtain ⟨lt, e⟩ := List.getElem?_eq_some_iff.mp free
  refine List.findIdx?_eq_some_iff_getElem.mpr ⟨lt, by rw [e]; rfl, fun j hj taken => first j hj ?_⟩
  rw [List.getElem?_eq_getElem (hj.trans lt), Option.isNone_iff_eq_none.mp taken]

/-- CLIP_CANCEL's session: the one of its ring with the tag that it names. -/
def isSessionOf (q target : Nat) : Option Clip → Bool
  | some k => k.q == q && k.cid == target
  | none => false

theorem isSessionOf_iff {q target : Nat} {o : Option Clip} : isSessionOf q target o = true ↔ ∃ y, o = some y ∧ y.q = q ∧ y.cid = target := by
  cases o <;> simp [isSessionOf]

theorem exec_clipCancel_none (h : Accepts (.clipCancel q cid) c s) (absent : posOf (isSessionOf q (arg c 0 2)) s.clips = none) :
    exec (.clipCancel q cid) s = .next (endCmd c 0x0009 (startCmd c s)) := by
  obtain ⟨taken, ok⟩ := h.of rfl
  show execClipCancel q cid s = _
  unfold execClipCancel
  refine (runCommand_accepted taken ok).trans ?_
  show Host.Outcome.next (match posOf (isSessionOf q (arg c 0 2)) s.clips with | some i => _ | none => _) = _
  rw [absent]

theorem exec_clipCancel_ends {i : Nat} (h : Accepts (.clipCancel q cid) c s) (found : posOf (isSessionOf q (arg c 0 2)) s.clips = some i) :
    exec (.clipCancel q cid) s = .next (okCmd c 0 (endClip i 0 (startCmd c s))) := by
  obtain ⟨taken, ok⟩ := h.of rfl
  show execClipCancel q cid s = _
  unfold execClipCancel
  refine (runCommand_accepted taken ok).trans ?_
  show Host.Outcome.next (match posOf (isSessionOf q (arg c 0 2)) s.clips with | some i => _ | none => _) = _
  rw [found]

end

/-- Settles O21: a request ends with its first failing check and else puts a fresh session into the lowest free place; a cancel ends the
session that it names with its request. -/
theorem clipsRunFromRequestToEnd : Obligations.ClipsRunFromRequestToEnd := by
  unfold Obligations.ClipsRunFromRequestToEnd
  refine ⟨?requests, ?cancels⟩
  case requests =>
    intro q cid c s h t b k
    refine ⟨exec_clipRequest_closed h, fun x hx => ⟨exec_clipRequest_refused h hx, fun i good free first => ?_⟩⟩
    have kept : Upkeep t (retainAll (clipRetained x k.t0) t) := retainAll_upkeep ..
    have now : steadyNs (retainAll (clipRetained x k.t0) t) = steadyNs s := by
      rw [kept]
      rfl
    refine ⟨_, exec_clipRequest_fresh h hx good (posOf_isNone free first), ?_, ?_, ?_⟩
    · show (retainAll (clipRetained x k.t0) t).mbx = t.mbx
      rw [kept]
    · exact kept.streams
    · show (retainAll (clipRetained x k.t0) t).clips.set i _ = _
      rw [now, kept]
      rfl
  case cancels =>
    intro q cid i c k x s h t mine
    refine ⟨fun absent => exec_clipCancel_none h ?_, fun hx named first asked => ?_⟩
    · exact List.findIdx?_eq_none_iff.mpr fun o ho => eq_false_of_ne_true fun isMine => absent o ho (isSessionOf_iff.mp isMine)
    · obtain ⟨lt, e⟩ := List.getElem?_eq_some_iff.mp hx
      have found : posOf (isSessionOf q (arg c 0 2)) s.clips = some i :=
        List.findIdx?_eq_some_iff_getElem.mpr ⟨lt, by rw [e]; exact isSessionOf_iff.mpr named, fun j hj isMine =>
          first j _ hj (List.getElem?_eq_getElem (hj.trans lt)) (isSessionOf_iff.mp isMine)⟩
      obtain ⟨u, clips, mbx, host, -, ends⟩ := endClip_ends (s := t) (st := 0) hx
      exact ⟨u, (exec_clipCancel_ends h found).trans (by rw [ends k asked]), clips, mbx, host⟩

end Sys2Proof.Machine
end

section
/-! CLIP_PICTURE_ENCODE (R234 to R237, R239 to R241): what the encoder makes of a session and of its next picture. -/

namespace Sys2Proof.Machine

section
variable {p s t : State} {i : Nat} {c d : Clip} {q : NextPicture} {rowBits : List Nat}

/-! ### A session that goes on (R235, R241) -/

/-- A session has sources left before T1, or awaits more. -/
def Feeds (c : Clip) : Prop := (∃ x ∈ c.sources, x.stamp < c.t1) ∨ (c.lastLanded = false ∧ c.endStatus = none)

/-- A session has pictures left to code, or awaits more. -/
def GoesOn (c : Clip) : Prop :=
  (∃ x ∈ c.sources, x.stamp < c.t1) ∨ (∃ x ∈ c.ready, x.stamp < c.t1) ∨ (c.lastLanded = false ∧ c.endStatus = none)

theorem flushClip_feeds (h : Feeds c) : flushClip c = c := by
  refine if_neg fun flushes => ?_
  simp only [behindClip, Bool.and_eq_true, Bool.or_eq_true, List.all_eq_true, decide_eq_true_eq] at flushes
  obtain ⟨behind, landed⟩ := flushes
  rcases h with ⟨x, hx, before⟩ | ⟨more, goes⟩
  · exact absurd (behind x hx) (by omega)
  · simp [more, goes] at landed

theorem settleClip_goesOn (hx : s.clips[i]? = some (some c)) (h : GoesOn c) : settleClip i s = s := by
  unfold settleClip
  rw [getD_clip hx]
  refine if_neg fun settled => ?_
  simp only [behindClip, Bool.and_eq_true, Bool.or_eq_true, List.all_eq_true, decide_eq_true_eq] at settled
  obtain ⟨⟨sources, ready⟩, landed⟩ := settled
  rcases h with ⟨x, hx, before⟩ | ⟨x, hx, before⟩ | ⟨more, goes⟩
  · exact absurd (sources x hx) (by omega)
  · exact absurd (ready x hx) (by omega)
  · simp [more, goes] at landed

theorem getD_clips_set_none (l : List (Option Clip)) : (l.set i none).getD i none = none := by
  rw [List.getD_eq_getElem?_getD, List.getElem?_set, if_pos rfl]
  split <;> rfl

theorem dropPicture_gone (gone : s.clips.getD i none = none) : dropPicture i s = s := by
  unfold dropPicture
  rw [gone]

theorem settleClip_gone (gone : s.clips.getD i none = none) : settleClip i s = s := by
  unfold settleClip
  rw [gone]

/-! ### The next picture leaves (R234) -/

/-- A session without its next picture. -/
def withoutPicture (c : Clip) : Clip :=
  if c.fountain.isSome then { c with ready := c.ready.drop 1 } else { c with sources := c.sources.drop 1 }

/-- Of a session its next picture leaves the same behind, whatever its counts and its reference are. -/
theorem withoutPicture_eq (c : Clip) : ∃ sources ready, ∀ d : Clip, d.fountain = c.fountain → d.sources = c.sources → d.ready = c.ready →
    withoutPicture d = { d with sources := sources, ready := ready } := by
  by_cases decodes : c.fountain.isSome = true
  · refine ⟨c.sources, c.ready.drop 1, fun d fountain sources ready => ?_⟩
    rw [withoutPicture, if_pos (by rwa [fountain]), ready, ← sources]
  · refine ⟨c.sources.drop 1, c.ready, fun d fountain sources ready => ?_⟩
    rw [withoutPicture, if_neg (by rwa [fountain]), sources, ← ready]

theorem dropPicture_session (h : Session i c p s) : Session i (withoutPicture c) p (dropPicture i s) := by
  unfold dropPicture withoutPicture
  rw [getD_clip h.stands]
  dsimp only
  split
  · exact h.updClip fun c => { c with ready := c.ready.drop 1 }
  · split
    · exact (h.updClip fun c => { c with sources := c.sources.drop 1 }).upkeep (freeChain_upkeep (.refl _))
    · next empty =>
      have same : { c with sources := c.sources.drop 1 } = c := by
        rw [List.head?_eq_none_iff.mp empty, List.drop_nil, ← List.head?_eq_none_iff.mp empty]
      rwa [same]

theorem dropPicture_lodged (i : Nat) (s : State) : Lodged s (dropPicture i s) := by
  unfold dropPicture
  split
  · exact .refl s
  · split
    · exact ⟨rfl, rfl⟩
    · split
      · exact freeChain_lodged ⟨rfl, rfl⟩
      · exact .refl s

/-! ### The picture is coded (R232, R239, R240) -/

/-- A session after one picture more. -/
def withCoded (stamp total : Nat) (r : PictureRate) (samples : List Byte) (c : Clip) : Clip := { c with
  coded := c.coded + 1, written := c.written + total, omitted := 0, qprev := r.mean, fnum := r.fnum, reference := some samples
  firstStamp := c.firstStamp.or (some stamp), lastStamp := some stamp }

/-- With room for its bytes and its index entry the picture is written (R232, R240). -/
theorem putPicture_written {stamp : Nat} {concealed : Bool} {src : Source} (h : Session i c p s) :
    let r := rateOf c c.cfg.period (c.coded % c.gop == 0) rowBits
    let au := codePicture c (c.coded % c.gop == 0) r (encoderPicture c src)
    let total := au.bytes.length + r.filler
    c.written + total ≤ clipSpace c → 24 * (c.coded + 1) ≤ c.idxLen →
      Session i (withCoded stamp total r au.samples c) p (putPicture i c stamp concealed src rowBits s) := by
  intro r au total space entry
  unfold putPicture
  rw [if_neg (not_or.mpr ⟨not_lt.mpr space, not_lt.mpr entry⟩)]
  exact (h.upkeep (clipWrite_upkeep (writeClip_upkeep (.refl s)))).updClip _

/-- Without it the session ends (R232). -/
theorem putPicture_full {stamp : Nat} {concealed : Bool} {src : Source} :
    let r := rateOf c c.cfg.period (c.coded % c.gop == 0) rowBits
    let total := (codePicture c (c.coded % c.gop == 0) r (encoderPicture c src)).bytes.length + r.filler
    ¬ (c.written + total ≤ clipSpace c ∧ 24 * (c.coded + 1) ≤ c.idxLen) →
      putPicture i c stamp concealed src rowBits s = endClip i 0x0226 s := by
  intro r total full
  exact if_pos ((not_and_or.mp full).imp not_le.mp not_le.mp)

/-! ### CLIP_PICTURE_ENCODE -/

/-- The encoder takes the session's next picture where the command names it and gives its rows, and else does nothing. -/
theorem exec_clipPictureEncode (hx : s.clips[i]? = some (some c)) (running : s.power.running = true) (island : islandFenced s 13 = false)
    (steady : s.power.update.switching = none) (awake : s.gate.d3hot = false) (feeds : Feeds c) (next : nextClipPicture c s = some q)
    (stamp : Nat) (damaged concealed : Bool) :
    exec (.clipPictureEncode i stamp damaged concealed rowBits) s
      = .next (if q.stamp == stamp && q.damaged == damaged && q.concealed == concealed && rowsGiven c q rowBits
          then settleClip i (dropPicture i (encodeNext i c q rowBits s)) else s) := by
  have flushed : updClip i flushClip s = s := by
    rw [Machine.updClip, upd_fixed hx (congrArg some (flushClip_feeds feeds))]
  show execClipPictureEncode i stamp damaged concealed rowBits s = _
  unfold execClipPictureEncode
  rw [hx]
  dsimp only
  rw [if_neg (by simp [running, island, steady, awake]), flushed, flushClip_feeds feeds, next]
  exact (apply_ite Host.Outcome.next ..).symm

/-- What the encoder makes of a session that goes on without the picture. -/
theorem encoded_goesOn {e : Clip} (h : Session i d s (encodeNext i c q rowBits s)) (passed : withoutPicture d = e) (goes : GoesOn e) :
    settleClip i (dropPicture i (encodeNext i c q rowBits s)) = dropPicture i (encodeNext i c q rowBits s)
      ∧ Session i e s (dropPicture i (encodeNext i c q rowBits s)) := by
  have dropped := dropPicture_session h
  rw [passed] at dropped
  exact ⟨settleClip_goesOn dropped.stands goes, dropped⟩

theorem encodeNext_outside (outside : ¬ (c.t0 ≤ q.stamp ∧ q.stamp < c.t1)) : encodeNext i c q rowBits s = s := if_pos (by omega)

theorem encodeNext_damaged (inside : c.t0 ≤ q.stamp ∧ q.stamp < c.t1) (damaged : q.damaged = true) :
    encodeNext i c q rowBits s = updClip i (fun c => { c with omitted := c.omitted + 1 }) (logBadSource c q s) :=
  (if_neg (by omega)).trans (if_pos damaged)

theorem encodeNext_sound (inside : c.t0 ≤ q.stamp ∧ q.stamp < c.t1) (sound : q.damaged = false) :
    encodeNext i c q rowBits s = putPicture i c q.stamp q.concealed q.src rowBits (noteClipSource c s) :=
  (if_neg (by omega)).trans (if_neg (by simp [sound]))

/-! ### Access units and decimation (R236, R237) -/

theorem length_padTo (n : Nat) (bs : List Byte) : (padTo n bs).length = n := by
  simp only [padTo, List.length_append, List.length_take, List.length_replicate]
  omega

/-- A delimiter, an IDR picture's parameter sets, and a slice of the rows' bits (R236). -/
theorem codePicture_bytes (c : Clip) (r : PictureRate) (src : List Byte) (idr : Bool) : ∃ sets slice,
    (codePicture c idr r src).bytes = delimiter c.hevc idr ++ sets ++ slice ∧ slice.length = ceilDiv r.bits 8 ∧ (idr = false → sets = []) :=
  ⟨_, _, rfl, length_padTo .., fun predicted => by rw [predicted]; rfl⟩

/-- Luma decimated by 2 is the rounded mean of four samples (R237). -/
theorem decimated_two (src : Source) (x y : Nat) (half : c.decim = 2) :
    let at_ (i j : Nat) := encoderChannel src 0 (c.cx + 2 * x + i) (c.cy + 2 * y + j)
    decimated c src 0 x y = (at_ 0 0 + at_ 1 0 + at_ 0 1 + at_ 1 1 + 2) / 4 := by
  intro at_
  have two : List.range 2 = [0, 1] := rfl
  have sum : at_ 0 0 + (at_ 1 0 + 0) + (at_ 0 1 + (at_ 1 1 + 0) + 0) + 2 * 2 / 2 = at_ 0 0 + at_ 1 0 + at_ 0 1 + at_ 1 1 + 2 := by omega
  rw [← sum]
  unfold decimated
  rw [half]
  rfl

end

/-- Settles O22: the next picture passes, is omitted, is written or ends its session. -/
theorem clipPicturesAreCoded : Obligations.ClipPicturesAreCoded := by
  unfold Obligations.ClipPicturesAreCoded
  refine ⟨?pictures, fun c r src idr => codePicture_bytes c r src idr, fun c src x y half => decimated_two src x y half⟩
  intro i rowBits c q s hx running island steady awake next feeds left goes idr r au total inside room run
  have encode := exec_clipPictureEncode (rowBits := rowBits) hx running island steady awake feeds next
  have taken (rows : rowsGiven c q rowBits = true) : run = .next (settleClip i (dropPicture i (encodeNext i c q rowBits s))) :=
    (encode ..).trans (congrArg _ (if_pos (by simp [rows])))
  have begun : Session i c s s := .refl hx
  obtain ⟨sources, ready, passes⟩ := withoutPicture_eq c
  have leaves : left = { c with sources := sources, ready := ready } := passes c rfl rfl rfl
  clear_value left
  subst leaves
  refine ⟨fun outside => ?_, fun within damaged => ?_, fun within sound rows => ?_, fun stamp damaged concealed other => ?_,
    fun within sound rows fits => ?_, fun within sound rows full => ?_⟩
  · have same : encodeNext i c q rowBits s = s := encodeNext_outside outside
    obtain ⟨settled, dropped⟩ := encoded_goesOn (by rwa [same]) (passes c rfl rfl rfl) goes
    refine ⟨_, (taken ?_).trans (congrArg _ settled), dropped.clips, dropped.mbx, ?_⟩
    · have apart : q.stamp < c.t0 ∨ c.t1 ≤ q.stamp := by omega
      simp [rowsGiven, apart]
    · rw [same]
      exact (dropPicture_lodged i s).host
  · have same := encodeNext_damaged (i := i) (rowBits := rowBits) (s := s) within damaged
    have logged := logBadSource_memFrame c q s
    have counted : Session i { c with omitted := c.omitted + 1 } s (encodeNext i c q rowBits s) := by
      rw [same]
      exact (begun.mem logged).updClip fun c => { c with omitted := c.omitted + 1 }
    obtain ⟨settled, dropped⟩ := encoded_goesOn counted (passes _ rfl rfl rfl) goes
    refine ⟨_, (taken (by simp [rowsGiven, damaged])).trans (congrArg _ settled), dropped.clips, dropped.mbx, ?_⟩
    refine (dropPicture_lodged ..).host.trans ?_
    rw [same]
    exact ((Lodged.refl s).mem logged).host
  · have given : rowsGiven c q rowBits = false := by
      have near : ¬ (q.stamp < c.t0 ∨ c.t1 ≤ q.stamp) := by omega
      simp [rowsGiven, near, sound, rows]
    exact (encode ..).trans (congrArg _ (if_neg (by simp [given])))
  · refine (encode ..).trans (congrArg _ (if_neg fun named => other ?_))
    simp only [Bool.and_eq_true, beq_iff_eq] at named
    obtain ⟨⟨⟨stamp, damaged⟩, concealed⟩, -⟩ := named
    exact ⟨stamp.symm, damaged.symm, concealed.symm⟩
  · have written : Session i (withCoded q.stamp total r au.samples c) s (encodeNext i c q rowBits s) := by
      rw [encodeNext_sound within sound]
      exact putPicture_written (begun.mem (noteClipSource_memFrame c s)) fits.1 fits.2
    obtain ⟨settled, dropped⟩ := encoded_goesOn written (passes _ rfl rfl rfl) goes
    exact ⟨_, (taken (by simp [rowsGiven, rows])).trans (congrArg _ settled), dropped.mbx, dropped.clips⟩
  · have clips : (encodeNext i c q rowBits s).clips = s.clips.set i none := by
      have noted := begun.mem (noteClipSource_memFrame c s)
      rw [encodeNext_sound within sound, putPicture_full full, endClip_clips noted.stands, noted.clips, List.set_set]
    have gone : (encodeNext i c q rowBits s).clips.getD i none = none := by
      rw [clips, getD_clips_set_none]
    refine ⟨_, (taken (by simp [rowsGiven, rows])).trans ?_, clips⟩
    rw [dropPicture_gone gone, settleClip_gone gone]

end Sys2Proof.Machine
end

section
/-! The Fountains (R214 to R230, R234, R290): what the decode of a picture makes of its frame and of the decode context, whether it is a
stream's or a clip's. -/

namespace Sys2Proof.Machine

section
variable {p s t : State} {n k id : Nat} {d d' : Decoder} {z f : Frame} {x y : Stream} {us : List Fountain} {g : PictureFacts} {j : Judgement}

/-! ### Reading an access unit and decoding it (R225, R358) -/

theorem logBadCell_memFrame (k n : Nat) (r : ChainRead) (s : State) : MemFrame s (logBadCell k n r s) := by
  unfold logBadCell
  split
  · exact .log (logErr_frame ..)
  · exact .refl s

theorem parseChain_upkeep (n head : Nat) (s : State) : Upkeep s (parseChain n head s) := by
  have noted : Upkeep s (noteChain .control head s) := (Upkeep.refl s).mem (noteChain_memFrame ..)
  unfold parseChain
  split
  · exact logErr_upkeep noted
  · exact noted

theorem testLog_upkeep {l : List (Nat × Nat)} (h : Upkeep p s) : Upkeep p (testLog k n g l s) :=
  h.foldl fun _ _ h => h.log (writeEntry_frame ..)

theorem decodeInto_upkeep {u : Fountain} {b : OpenBlock} {r : ChainRead} {base : Nat → Nat} (h : Upkeep p s) :
    Upkeep p (decodeInto k u b d g j r base s) := by
  unfold decodeInto
  extract_lets size used v read mark
  have hv : Upkeep p v := h.foldl fun _ _ => unitRead_upkeep
  split
  · unfold storeContents
    split
    next contents made =>
    split at made <;> cases made
    · exact writePhys_upkeep (hv.still (by exact rfl))
    · exact writePhys_upkeep hv
  · exact hv

/-- A chain reads the same where only Fountains have changed. -/
theorem readChain_updFountain {h : Fountain → Fountain} (fuel head : Nat) :
    readChain fuel head (updFountain k h s) = readChain fuel head s := by
  induction fuel generalizing head with
  | zero => rfl
  | succ fuel ih =>
    simp only [readChain, ih]
    rfl

theorem upkeep_of_buildChain {cls : ReqClass} {q a st head : Nat} {bs : List Byte} {m : List Bool}
    (built : buildChain cls q a bs m s = (st, head, t)) : Upkeep s t := by
  have kept := buildChain_upkeep (k := cls) (q := q) (a := a) (d := bs) (m := m) (.refl s)
  rwa [built] at kept

/-! ### A stream's decode context and one of its frames -/

/-- Stream `n` has decode context `d` and, under serial number `id`, frame `z`; the Fountains are `us`. -/
structure InDecode (n id : Nat) (d : Decoder) (z : Frame) (us : List Fountain) (s : State) : Prop where
  context : (stream? s n).map (·.dec) = some d
  frame : getFrame s n id = some z
  fountains : s.fountains = us

theorem InDecode.of_stream (hx : stream? s n = some x) (hz : frameOf x id = some z) (dec : x.dec = d) (fountains : s.fountains = us) :
    InDecode n id d z us s :=
  ⟨(congrArg (Option.map (·.dec)) hx).trans (congrArg some dec), (getFrame_eq hx id).trans hz, fountains⟩

theorem InDecode.stream (h : InDecode n id d z us s) : ∃ x, stream? s n = some x ∧ frameOf x id = some z ∧ x.dec = d := by
  obtain ⟨context, frame, -⟩ := h
  obtain ⟨x, hx, dec⟩ := Option.map_eq_some_iff.mp context
  exact ⟨x, hx, (getFrame_eq hx id).symm.trans frame, dec⟩

theorem InDecode.map_context {α : Type} (h : InDecode n id d z us s) (v : Decoder → α) : (stream? s n).map (fun x => v x.dec) = some (v d) := by
  obtain ⟨x, hx, -, rfl⟩ := h.stream
  rw [hx]
  rfl

theorem InDecode.map_frame {α : Type} (h : InDecode n id d z us s) (v : Frame → α) : (getFrame s n id).map v = some (v z) :=
  congrArg (Option.map v) h.frame

theorem InDecode.still (h : InDecode n id d z us s) (e : t.streams = s.streams) (k : t.fountains = s.fountains) : InDecode n id d z us t := by
  obtain ⟨x, hx, hz, dec⟩ := h.stream
  exact .of_stream ((stream?_of_streams e).trans hx) hz dec (k.trans h.fountains)

theorem InDecode.upkeep (h : InDecode n id d z us s) (k : Upkeep s t) : InDecode n id d z us t := h.still k.streams (by rw [k])

/-- A change of the stream, its frames apart. -/
theorem InDecode.updStream (h : InDecode n id d z us s) {k : Stream → Stream} (frames : ∀ x, (k x).frames = x.frames)
    (dec : ∀ x, x.dec = d → (k x).dec = d') : InDecode n id d' z us (updStream n k s) := by
  obtain ⟨x, hx, hz, kept⟩ := h.stream
  have same : frameOf (k x) id = some z := by rwa [frameOf, frames]
  exact .of_stream (stream?_updStream hx) same (dec x kept) h.fountains

theorem InDecode.updDecoder (h : InDecode n id d z us s) (k : Decoder → Decoder) : InDecode n id (k d) z us (updDecoder n k s) :=
  h.updStream (fun _ => rfl) fun _ e => congrArg k e

theorem InDecode.updFrame (h : InDecode n id d z us s) {k : Frame → Frame} (keeps : ∀ f, (k f).id = f.id) :
    InDecode n id d (k z) us (updFrame n id k s) := by
  obtain ⟨x, hx, hz, dec⟩ := h.stream
  exact .of_stream (stream?_updFrame hx) (frameOf_withFrames hz keeps) dec h.fountains

/-- A change of the frames of any serial number leaves a frame under this one. -/
theorem InDecode.touch (h : InDecode n id d z us s) (m : Nat) {k : Frame → Frame} (keeps : ∀ f, (k f).id = f.id) :
    ∃ z', InDecode n id d z' us (Machine.updFrame n m k s) := by
  obtain ⟨x, hx, hz, dec⟩ := h.stream
  have touched (f : Frame) : (if f.id = m then k f else f).id = f.id := by
    split
    · exact keeps f
    · rfl
  have same : ((fun f : Frame => f.id == id) ∘ fun f => if f.id = m then k f else f) = fun f => f.id == id :=
    funext fun f => congrArg (· == id) (touched f)
  have found : frameOf (withFrames m k x) id = some (if z.id = m then k z else z) := by
    rw [frameOf, withFrames, List.find?_map, same, show x.frames.find? (fun f => f.id == id) = some z from hz, Option.map_some]
  exact ⟨_, .of_stream (stream?_updFrame hx) found dec h.fountains⟩

/-- Its cells are free (R285). -/
theorem InDecode.freeFrame (h : InDecode n id d z us s) : InDecode n id d (unchained z) us (freeFrame n id s) := by
  unfold Machine.freeFrame
  rw [h.frame]
  exact (h.upkeep (freeChain_upkeep (.refl s))).updFrame fun _ => rfl

/-- It takes a device frame number (R218). -/
theorem InDecode.numberFrame (h : InDecode n id d z us s) :
    ∃ num : Nat, InDecode n id d (withNum z (z.num.or (some num))) us (numberFrame n id s) := by
  obtain ⟨x, hx, -⟩ := h.stream
  unfold Machine.numberFrame
  rw [hx, h.frame]
  dsimp only
  refine ⟨x.nextNum, ?_⟩
  cases numbered : z.num with
  | some m =>
    rw [if_pos (by exact rfl), Option.some_or, withNum, ← numbered]
    exact h
  | none =>
    rw [if_neg (by exact Bool.false_ne_true)]
    exact (h.updFrame (k := (withNum · (some x.nextNum))) fun _ => rfl).updStream (fun _ => rfl) fun _ e => e

theorem InDecode.numberOther (h : InDecode n id d z us s) (m : Nat) : ∃ z', InDecode n id d z' us (Machine.numberFrame n m s) := by
  unfold Machine.numberFrame
  split
  next x f hx hf =>
    split
    · exact ⟨z, h⟩
    · obtain ⟨z', touched⟩ := h.touch m (k := (withNum · (some x.nextNum))) fun _ => rfl
      exact ⟨z', touched.updStream (k := (withNextNum · (x.nextNum + 1))) (fun _ => rfl) fun _ e => e⟩
  next => exact ⟨z, h⟩

/-! ### Pictures that leave the output process (R218) -/

/-- A frame that is over without output. -/
def givenUp (f : Frame) : Frame := { f with stage := .skipped, store := none, head := 0 }

theorem InDecode.endPicture (h : InDecode n id d z us s) :
    ∃ num : Nat, InDecode n id d (withNum (givenUp z) (z.num.or (some num))) us (endPicture n id s) :=
  (h.updFrame (k := fun f => { f with stage := .skipped, store := none }) fun _ => rfl).freeFrame.numberFrame

theorem decide1_id (r st : Nat) (f : Frame) : (decide1 r st f).id = f.id := by
  unfold decide1
  split <;> rfl

theorem InDecode.removePicture (h : InDecode n id d z us s) (q : RefPicture) : ∃ z', InDecode n id d z' us (removePicture n q s) := by
  obtain ⟨z', touched⟩ := h.touch q.frameId (k := fun f => { decide1 reasonDamaged 0x0207 f with store := none, stage := .skipped })
    fun f => decide1_id _ _ f
  exact touched.numberOther _

theorem InDecode.outputPicture (h : InDecode n id d z us s) (ready : Nat) (q : RefPicture) :
    ∃ z', InDecode n id d z' us (outputPicture n ready q s) := by
  obtain ⟨z₁, touched⟩ := h.touch q.frameId (k := fun f => { f with outReady := ready }) fun _ => rfl
  obtain ⟨z₂, numbered⟩ := touched.numberOther q.frameId
  unfold Machine.outputPicture
  extract_lets t
  split
  · split
    · exact numbered.touch _ fun _ => rfl
    · split
      · split
        next built =>
        have cell := numbered.upkeep (upkeep_of_buildChain built)
        split
        · exact cell.touch _ fun _ => rfl
        · exact cell.touch _ fun f => decide1_id _ _ f
      · exact ⟨_, numbered⟩
  · exact ⟨_, numbered⟩

theorem InDecode.foldl {α : Type} {h : State → α → State} (step : ∀ a s z, InDecode n id d z us s → ∃ z', InDecode n id d z' us (h s a))
    (l : List α) (start : InDecode n id d z us s) : ∃ z', InDecode n id d z' us (l.foldl h s) := by
  induction l generalizing s z with
  | nil => exact ⟨z, start⟩
  | cons a l ih =>
    obtain ⟨z', next⟩ := step a s z start
    exact ih next

/-- What follows a picture's entry into the DPB, or its passing by: the pictures removed, its own end, the pictures released. -/
def leaveOutput (n id ready : Nat) (out : Bool) (o : OutputStep) (s : State) : State :=
  let s := o.removed.foldl (fun s p => removePicture n p s) s
  let s := if out then s else endPicture n id s
  o.released.foldl (fun s p => outputPicture n ready p s) s

/-- A frame behind the output process that nothing else has left: as it was where its picture has entered it, and given up with its number
where not. -/
def leftFrame (out : Bool) (num : Nat) (z : Frame) : Frame := if out then z else withNum (givenUp z) (z.num.or (some num))

theorem leftFrame_outcome (out : Bool) (num : Nat) (z : Frame) :
    ((leftFrame out num z).reason, (leftFrame out num z).status) = (z.reason, z.status) := by
  cases out <;> rfl

theorem leftFrame_stage (out : Bool) (num : Nat) (z : Frame) : (leftFrame out num z).stage = if out then z.stage else .skipped := by
  cases out <;> rfl

theorem leftFrame_shape (out : Bool) (num : Nat) (z : Frame) : ((leftFrame out num z).stage, (leftFrame out num z).store,
    (leftFrame out num z).num.isSome) = if out then (z.stage, z.store, z.num.isSome) else (.skipped, none, true) := by
  cases out with
  | true => rfl
  | false => cases h : z.num <;> simp [leftFrame, withNum, givenUp, h]

/-- The decode context stands, and the frame too where nothing else leaves the output process. -/
theorem leaveOutput_inDecode {ready : Nat} {out : Bool} {o : OutputStep} (h : InDecode n id d z us s) : ∃ z',
    InDecode n id d z' us (leaveOutput n id ready out o s) ∧ (o.released = [] → o.removed = [] → ∃ num, z' = leftFrame out num z) := by
  obtain ⟨z₁, removed⟩ := h.foldl (fun q s z h => h.removePicture q) o.removed
  have ended : ∃ z₂, InDecode n id d z₂ us (if out then o.removed.foldl (fun s p => removePicture n p s) s
      else endPicture n id (o.removed.foldl (fun s p => removePicture n p s) s)) ∧ ∃ num, z₂ = leftFrame out num z₁ := by
    cases out with
    | true => exact ⟨z₁, removed, 0, rfl⟩
    | false =>
      obtain ⟨num, ended⟩ := removed.endPicture
      exact ⟨_, ended, num, rfl⟩
  obtain ⟨z₂, ended, num, rfl⟩ := ended
  obtain ⟨z₃, released⟩ := ended.foldl (fun q s z h => h.outputPicture ready q) o.released
  refine ⟨z₃, released, fun noneReleased noneRemoved => ⟨num, ?_⟩⟩
  rw [noneRemoved] at removed
  rw [noneReleased] at released
  have first : z₁ = z := Option.some.inj (removed.frame.symm.trans h.frame)
  exact first ▸ Option.some.inj (released.frame.symm.trans ended.frame)

/-- The output process counts the picture in decode order, and a random-access picture joins the stream (R218, R226). -/
theorem outputStep_dec (d : Decoder) (g : PictureFacts) (j : Judgement) (out : Bool) (q : RefPicture) :
    (outputStep d g j out q).dec.nextDec = d.nextDec + 1 ∧ (outputStep d g j out q).dec.joined = (d.joined || g.irap) := by
  unfold outputStep
  split
  split
  · exact ⟨rfl, rfl⟩
  · split <;> exact ⟨rfl, rfl⟩

end

end Sys2Proof.Machine
end

section
/-! PICTURE_DECODE_START, PICTURE_DECODE_COMPLETE and FOUNTAIN_WATCHDOG (R214 to R230, R234, R290). -/

namespace Sys2Proof.Machine

section
variable {p s t : State} {n k i id : Nat} {d : Decoder} {z f : Frame} {x y : Stream} {c : Clip} {us : List Fountain} {u : Fountain}
  {g : PictureFacts}

/-! ### Fountains (R214, R225) -/

theorem updFountain_eq (hu : s.fountains[k]? = some u) (h : Fountain → Fountain) :
    updFountain k h s = { s with fountains := s.fountains.set k (h u) } := by
  rw [updFountain, upd_eq_set hu]

/-- A Fountain that is done with its picture. -/
def idled (u : Fountain) : Fountain := { u with busy := none, reads := [], writes := [] }

/-- A Fountain in decode of a picture into frame store `w` of those from `base`: it may write that store only (R225). -/
theorem startFountain_fountains (hu : s.fountains[k]? = some u) (target : DecodeTarget) (b : OpenBlock) (d : Decoder) (base : Nat → Nat)
    (w head : Nat) : ∃ reads, (startFountain k target g b d base w head s).fountains = s.fountains.set k { u with
      busy := some (target, g, steadyNs s), store := w, reads := reads, writes := [(base w, storeSize b)] } :=
  ⟨_, congrArg State.fountains (updFountain_eq hu _)⟩

/-- A Fountain that may take a picture. -/
structure FountainServes (k : Nat) (u : Fountain) (s : State) : Prop where
  here : s.fountains[k]? = some u
  free : u.busy = none
  unpaused : u.paused = false
  unfenced : islandFenced s (5 + k) = false
  awake : asleep s (5 + k) = false
  running : s.power.running = true

theorem exec_pictureDecodeStart_stream (h : FountainServes k u s) (choice : fountainChoice s k = some (.stream n id)) :
    exec (.pictureDecodeStart k g) s = .next (startPicture k n id g s) := by
  show execPictureDecodeStart k g s = _
  unfold execPictureDecodeStart
  rw [h.here]
  dsimp only
  rw [if_neg (by simp [h.free, h.unpaused, h.unfenced, h.awake, h.running]), choice]
  rfl

theorem exec_pictureDecodeStart_clip (h : FountainServes k u s) (choice : fountainChoice s k = some (.clip i)) :
    exec (.pictureDecodeStart k g) s = .next (startClipPicture k i g s) := by
  show execPictureDecodeStart k g s = _
  unfold execPictureDecodeStart
  rw [h.here]
  dsimp only
  rw [if_neg (by simp [h.free, h.unpaused, h.unfenced, h.awake, h.running]), choice]
  rfl

/-! ### The parse (R221, R222) -/

/-- From `s` to `t` stream `n`, which was `x`, is `y`: of what a decode takes from it only its decode context may be another, and the Fountains
and the time stand. -/
structure Parsed (n : Nat) (x y : Stream) (s t : State) : Prop where
  stream : stream? t n = some y
  frames : y.frames = x.frames
  cfg : y.cfg = x.cfg
  storeBase : y.storeBase = x.storeBase
  nextDec : y.dec.nextDec = x.dec.nextDec
  fountains : t.fountains = s.fountains
  now : steadyNs t = steadyNs s

theorem parsePicture_nextDec (g : PictureFacts) (d : Decoder) : (parsePicture g d).nextDec = d.nextDec := by
  unfold parsePicture
  dsimp only
  split <;> rfl

theorem applyMode_parsed (hx : stream? s n = some x) (f : Frame) : ∃ y, Parsed n x y s (applyMode n f s) := by
  unfold applyMode
  split
  next m q cid pending =>
    have changed := stream?_updStream (f := fun x => { x with dec := { x.dec with mode := m }, modeChange := none }) hx
    refine ⟨_, (stream?_of_streams finishCmd_streams).trans changed, rfl, rfl, rfl, rfl, ?_, ?_⟩
    · unfold finishCmd
      split <;> rfl
    · unfold finishCmd
      split <;> rfl
  next => exact ⟨x, hx, rfl, rfl, rfl, rfl, rfl, rfl⟩

/-- Quinbuar's parse of a picture's access unit changes the stream's decode context, and counts nothing. -/
theorem parseStream_parsed (hx : stream? s n = some x) (g : PictureFacts) (f : Frame) (head : Nat) :
    ∃ y, Parsed n x y s (parseStream n g f (parseChain n head s)) := by
  have read : Upkeep s (parseChain n head s) := parseChain_upkeep ..
  obtain ⟨y, hy⟩ := applyMode_parsed ((stream?_of_streams read.streams).trans hx) f
  exact ⟨_, stream?_updStream hy.stream, hy.frames, hy.cfg, hy.storeBase, (parsePicture_nextDec ..).trans hy.nextDec,
    hy.fountains.trans (by rw [read]), hy.now.trans (by rw [read]; rfl)⟩

theorem Parsed.inDecode (h : Parsed n x y s t) (hz : frameOf x id = some z) : InDecode n id y.dec z s.fountains t :=
  .of_stream h.stream (by rwa [frameOf, h.frames]) rfl h.fountains

/-- The parse of a picture that a Fountain has chosen, and what follows it: a shed picture that is no reference passes by its headers, any
other takes a frame store (R220, R225). -/
theorem startPicture_shed (hx : stream? s n = some x) (hz : frameOf x id = some f)
    (parsed : Parsed n x y s (parseStream n g f (parseChain n f.head s))) (shed : f.reason ≠ 0) (spare : g.isReference = false) :
    startPicture k n id g s = shedPicture n y f g (parseStream n g f (parseChain n f.head s)) := by
  unfold startPicture
  rw [hx, Option.bind_some, hz]
  dsimp only [Option.map_some]
  rw [parsed.stream]
  exact if_pos (by simp [shed, spare])

theorem startPicture_full (hx : stream? s n = some x) (hz : frameOf x id = some f)
    (parsed : Parsed n x y s (parseStream n g f (parseChain n f.head s))) (wanted : f.reason = 0 ∨ g.isReference = true)
    (full : freeStore x = none) : startPicture k n id g s = s := by
  unfold startPicture
  rw [hx, Option.bind_some, hz]
  dsimp only [Option.map_some]
  rw [parsed.stream]
  dsimp only
  rw [if_neg (by rcases wanted with h | h <;> simp [h]), full]

/-- A frame in decode. -/
def decodingFrame (g : PictureFacts) (f : Frame) : Frame := { f with stage := .decoding, facts := some g }

theorem startPicture_decodes {w : Nat} (hx : stream? s n = some x) (hz : frameOf x id = some f)
    (parsed : Parsed n x y s (parseStream n g f (parseChain n f.head s))) (wanted : f.reason = 0 ∨ g.isReference = true)
    (store : freeStore x = some w) : startPicture k n id g s = startFountain k (.stream n id) g y.cfg y.dec (storeAt y) w f.head
      (updFrame n id (decodingFrame g) (parseStream n g f (parseChain n f.head s))) := by
  unfold startPicture
  rw [hx, Option.bind_some, hz]
  dsimp only [Option.map_some]
  rw [parsed.stream]
  dsimp only
  rw [if_neg (by rcases wanted with h | h <;> simp [h]), store]
  rfl

/-! ### A shed picture (R218, R220) -/

/-- A shed picture that is no reference counts in decode order, and its frame waits for its output or is over. -/
theorem shedPicture_inDecode (h : InDecode n f.id y.dec f us s) :
    let hd := headersOnly g
    let j := judge y.cfg y.dec f.lost hd false
    let out := entersOutput y.dec hd
    let o := outputStep y.dec hd j out { currentPicture y.cfg y.dec hd j [] f.id f.stamp 0 with bare := true }
    ∃ z', InDecode n f.id { o.dec with last := y.dec.last } z' us (shedPicture n y f g s)
      ∧ (o.released = [] → o.removed = [] →
        ∃ num, z' = leftFrame out num { unchained f with facts := some hd, stage := .reordering, store := none }) := by
  intro hd j out o
  exact leaveOutput_inDecode ((h.freeFrame.updFrame (k := fun f => { f with facts := some hd, stage := .reordering, store := none })
    fun _ => rfl).updDecoder fun _ => { o.dec with last := y.dec.last })

/-! ### PICTURE_DECODE_COMPLETE (R216 to R229) -/

theorem InDecode.idled (h : InDecode n id d z s.fountains s) (hu : s.fountains[k]? = some u) :
    InDecode n id d z (s.fountains.set k (idled u)) (updFountain k Machine.idled s) :=
  ⟨h.context, h.frame, congrArg State.fountains (updFountain_eq hu Machine.idled)⟩

theorem judgedFrame_keeps (x : Stream) (g : PictureFacts) (j : Judgement) (store : Option Nat) (f : Frame) :
    (judgedFrame x g j store f).stage = .reordering ∧ (judgedFrame x g j store f).id = f.id := by
  unfold judgedFrame
  dsimp only
  split_ifs <;> exact ⟨rfl, rfl⟩

/-- A picture that the judgement damages is DAMAGED with its status (R223). -/
theorem judgedFrame_damaged {j : Judgement} {store : Option Nat} (undecided : f.reason = 0) (damaged : j.damaged = true) :
    ((judgedFrame x g j store f).reason, (judgedFrame x g j store f).status) = (reasonDamaged, j.status) := by
  unfold judgedFrame
  rw [if_neg (not_not.mpr undecided), if_pos damaged]

/-- One that it conceals is CONCEALED unless concealed pictures are analysed (R228). -/
theorem judgedFrame_concealed {j : Judgement} {store : Option Nat} (undecided : f.reason = 0) (sound : j.damaged = false)
    (concealed : j.concealed = true) (withheld : x.analyseConcealed = false) :
    ((judgedFrame x g j store f).reason, (judgedFrame x g j store f).status) = (reasonConcealed, j.status) := by
  unfold judgedFrame
  rw [if_neg (not_not.mpr undecided), if_neg (by simp [sound]), if_pos (by simp [concealed, withheld])]

/-- The completion of a stream's picture judges its frame and takes it to the output process. -/
theorem completePicture_inDecode {r : ChainRead} (h : InDecode n id x.dec f us s) (chain : readChain chainFuel f.head s = r) :
    let j := judge x.cfg x.dec f.lost g r.bad.isSome
    let out := entersOutput x.dec g
    let o := outputStep x.dec g j out (currentPicture x.cfg x.dec g j r.bytes id f.stamp u.store)
    ∃ z', InDecode n id o.dec z' us (completePicture k n id g u x f s)
      ∧ (o.released = [] → o.removed = [] →
        ∃ num, z' = leftFrame out num (judgedFrame x g j (if out then some u.store else none) (unchained f))) := by
  intro j out o
  generalize completed : completePicture k n id g u x f s = w
  unfold completePicture at completed
  extract_lets -merge -underBinder +onlyGivenNames r₀ r₁ v₁ j₁ v₂ out₁ v₃ o₁ v₄ v₅ at completed
  have chain₀ : r₀ = r := chain
  clear_value r₀
  subst chain₀
  have bad : r₁.bad = r₀.bad := by
    unfold r₁
    split <;> rfl
  have bytes : r₁.bytes = r₀.bytes := by
    unfold r₁
    split <;> rfl
  have judged : j₁ = j := by
    show judge x.cfg x.dec f.lost g r₁.bad.isSome = judge x.cfg x.dec f.lost g r₀.bad.isSome
    rw [bad]
  have stepped : o₁ = o := by
    show outputStep x.dec g j₁ out (currentPicture x.cfg x.dec g j₁ r₁.bytes id f.stamp u.store) = o
    rw [judged, bytes]
  have read : Upkeep s v₁ := meetOutside_upkeep
    ((readingFor_upkeep (.refl s) fun _ h => h.mem (noteChain_memFrame ..)).mem (logBadCell_memFrame ..))
  have tested : Upkeep s v₂ := .ite (testLog_upkeep read) read
  have decoded : Upkeep s v₃ := .ite (readingFor_upkeep tested fun _ h => decodeInto_upkeep h) tested
  have framed : InDecode n id x.dec (judgedFrame x g j₁ (if out then some u.store else none) (unchained f)) us v₄ :=
    (h.upkeep decoded).freeFrame.updFrame fun f => (judgedFrame_keeps _ _ _ _ f).2
  have context : InDecode n id o₁.dec _ us v₅ := framed.updDecoder fun _ => o₁.dec
  rw [judged, stepped] at context
  clear_value v₅
  subst completed
  rw [stepped]
  exact leaveOutput_inDecode context

theorem exec_pictureDecodeComplete_stream {t0 : Nat} (hu : s.fountains[k]? = some u) (busy : u.busy = some (.stream n id, g, t0))
    (hx : stream? s n = some x) (hz : getFrame s n id = some f) :
    exec (.pictureDecodeComplete k) s = .next (completePicture k n id g u x f (updFountain k idled s)) := by
  show execPictureDecodeComplete k s = _
  unfold execPictureDecodeComplete
  rw [hu]
  dsimp only
  rw [busy]
  dsimp only
  rw [hx, hz]
  rfl

/-! ### A clip's picture (R234, R235) -/

/-- A clip's decode of its next source begins: its context is that of the parse (R221, R234). -/
theorem startClipPicture_eq {a : ClipSource} {w : Nat} (hc : s.clips[i]? = some (some c)) (source : c.sources.head? = some a)
    (store : freeClipStore c = some w) : startClipPicture k i g s = startFountain k (.clip i) g c.cfg (parsePicture g c.dec) (clipStoreAt c) w
      a.head (updClip i (fun c' => { c' with dec := parsePicture g c.dec }) (parseChain c.stream a.head s)) := by
  unfold startClipPicture
  rw [getD_clip hc]
  dsimp only
  rw [source, store]

/-- It takes frame store `w` of the clip's own, and the Fountain may write that one only (R225). -/
theorem startClipPicture_decodes {w : Nat} (hu : s.fountains[k]? = some u) (hc : s.clips[i]? = some (some c)) (held : c.sources ≠ [])
    (store : freeClipStore c = some w) : ∃ reads, (startClipPicture k i g s).fountains = s.fountains.set k { u with
        busy := some (.clip i, g, steadyNs s), store := w, reads := reads, writes := [(clipStoreAt c w, storeSize c.cfg)] }
      ∧ (startClipPicture k i g s).clips[i]? = some (some { c with dec := parsePicture g c.dec }) := by
  have source := List.head?_eq_some_head held
  have read : Upkeep s (parseChain c.stream (c.sources.head held).head s) := parseChain_upkeep ..
  have parsed := ((Session.refl hc).upkeep read).updClip fun c' => { c' with dec := parsePicture g c.dec }
  obtain ⟨reads, fountains⟩ := startFountain_fountains (g := g) (parsed.fountains ▸ hu) (.clip i) c.cfg (parsePicture g c.dec)
    (clipStoreAt c) w (c.sources.head held).head
  rw [startClipPicture_eq hc source store]
  refine ⟨reads, fountains.trans ?_, parsed.stands⟩
  have now : steadyNs (parseChain c.stream (c.sources.head held).head s) = steadyNs s := by
    rw [read]
    rfl
  rw [parsed.fountains, show steadyNs (updClip i _ (parseChain c.stream (c.sources.head held).head s)) = steadyNs s from now]

/-- A session with more pictures for the encoder. -/
def withOutput (damaged : Bool) (ps : List RefPicture) (c : Clip) : Clip := { c with
  ready := c.ready ++ ps.map fun p =>
    { stamp := p.stamp, damaged := p.damaged || damaged, concealed := p.concealed, sps := p.sps, store := p.store } }

theorem clipOutput_session {damaged : Bool} {ps : List RefPicture} (h : Session i c p s) :
    Session i (withOutput damaged ps c) p (clipOutput i damaged ps s) := h.updClip _

/-- The completion of a clip's picture takes the next of its sources and counts it in decode order. -/
theorem completeClip_session {a : ClipSource} (h : Session i c p s) : ∃ e, Session i e p (completeClip k i g u c a s)
    ∧ e.sources = c.sources.drop 1 ∧ e.dec.nextDec = c.dec.nextDec + 1 := by
  generalize completed : completeClip k i g u c a s = w
  unfold completeClip at completed
  extract_lets -merge -underBinder +onlyGivenNames r₀ r₁ v₁ j₀ j₁ out q b v₂ o v₃ v₄ v₅ at completed
  have read : Upkeep s v₁ := meetOutside_upkeep (((Upkeep.refl s).mem (noteChain_memFrame ..)).mem (logBadCell_memFrame ..))
  have decoded : Upkeep s v₂ := .ite (decodeInto_upkeep read) read
  have counted : o.dec.nextDec = c.dec.nextDec + 1 := (outputStep_dec ..).1
  clear_value v₂ o
  subst completed
  have taken := (h.upkeep decoded).updClip fun c => { c with dec := o.dec, sources := c.sources.drop 1 }
  have put : Session i _ p v₄ := clipOutput_session (clipOutput_session taken)
  have freed {e : Clip} {v : State} (hv : Session i e p v) : Session i e p (freeChain a.head v) := hv.upkeep (freeChain_upkeep (.refl v))
  cases enters : out with
  | true =>
    have same : v₅ = v₄ := if_pos enters
    exact ⟨_, freed (same ▸ put), rfl, counted⟩
  | false =>
    have same : v₅ = clipOutput i true [q] v₄ := if_neg (by simp [enters])
    exact ⟨_, freed (same ▸ clipOutput_session put), rfl, counted⟩

theorem exec_pictureDecodeComplete_clip {t0 : Nat} {a : ClipSource} (hu : s.fountains[k]? = some u) (busy : u.busy = some (.clip i, g, t0))
    (hc : s.clips[i]? = some (some c)) (source : c.sources.head? = some a) :
    exec (.pictureDecodeComplete k) s = .next (completeClip k i g u c a (updFountain k idled s)) := by
  show execPictureDecodeComplete k s = _
  unfold execPictureDecodeComplete
  rw [hu]
  dsimp only
  rw [busy]
  dsimp only
  rw [getD_clip hc]
  dsimp only
  rw [source]
  rfl

/-! ### FOUNTAIN_WATCHDOG (R225, R290) -/

theorem exec_fountainWatchdog {target : DecodeTarget} {t0 : Nat} (hu : s.fountains[k]? = some u) (busy : u.busy = some (target, g, t0)) :
    exec (.fountainWatchdog k) s = doneIf (decide (t0 + 50000000 ≤ steadyNs s))
      (logErr 0x0213 (5 + k) 0 (abortPicture k 0x0213 s) { stream := targetStream s target }) s := by
  show execFountainWatchdog k s = _
  unfold execFountainWatchdog
  rw [hu]
  dsimp only
  rw [busy]

/-- A frame that yields FAULT with a status, unless its outcome is decided (R225, R230). -/
def faulted (status : Nat) (f : Frame) : Frame := if f.reason = 0 then { f with reason := reasonFault, status := status } else f

theorem faulted_id (status : Nat) (f : Frame) : (faulted status f).id = f.id := by
  unfold faulted
  split <;> rfl

/-- The frame of a picture that is given up in decode is over, FAULT or as it was decided before. -/
theorem abortPicture_inDecode {t0 status : Nat} (hu : s.fountains[k]? = some u) (busy : u.busy = some (.stream n id, g, t0))
    (h : InDecode n id d f s.fountains s) : ∃ e num, InDecode n id e (withNum (givenUp (faulted status f)) num)
      (s.fountains.set k (idled u)) (abortPicture k status s) := by
  obtain ⟨num, ended⟩ := (((h.idled hu).updDecoder fun d => { d with nextDec := d.nextDec + 1, inDamage := true }).updFrame
    (faulted_id status)).endPicture
  unfold abortPicture
  rw [hu, Option.bind_some, busy]
  exact ⟨_, _, ended⟩

/-- The clip of a picture that is given up in decode is gone (R290). -/
theorem abortPicture_clip {t0 status : Nat} (hu : s.fountains[k]? = some u) (busy : u.busy = some (.clip i, g, t0))
    (hc : s.clips[i]? = some (some c)) : (abortPicture k status s).clips = s.clips.set i none := by
  unfold abortPicture
  rw [hu, Option.bind_some, busy]
  exact endClip_clips (s := updFountain k idled s) hc

/-! ### What the commands leave -/

/-- A shed picture that is no reference holds no frame store: its frame waits for its output, or is skipped and numbered. -/
theorem Parsed.shed {t : State} (parsed : Parsed n x y s t) (hz : frameOf x f.id = some f) :
    let hd := headersOnly g
    let out := entersOutput y.dec hd
    let o := outputStep y.dec hd (judge y.cfg y.dec f.lost hd false) out
      { currentPicture y.cfg y.dec hd (judge y.cfg y.dec f.lost hd false) [] f.id f.stamp 0 with bare := true }
    let v := shedPicture n y f g t
    v.fountains = s.fountains ∧ (stream? v n).map (·.dec.nextDec) = some (x.dec.nextDec + 1)
      ∧ (o.released = [] → o.removed = [] → (getFrame v n f.id).map (fun z => (z.stage, z.store, z.num.isSome))
        = some (if out then (.reordering, none, f.num.isSome) else (.skipped, none, true))) := by
  intro hd out o v
  obtain ⟨z, h, frame⟩ := shedPicture_inDecode (g := g) (parsed.inDecode hz)
  have counted : o.dec.nextDec = x.dec.nextDec + 1 := (outputStep_dec ..).1.trans (congrArg (· + 1) parsed.nextDec)
  refine ⟨h.fountains, (h.map_context (·.nextDec)).trans (congrArg some counted), fun released removed => ?_⟩
  obtain ⟨num, rfl⟩ := frame released removed
  exact (h.map_frame _).trans (congrArg some (leftFrame_shape ..))

/-- A picture that takes frame store `w` is in decode, into that store only (R225). -/
theorem Parsed.decodes {t : State} {w : Nat} (parsed : Parsed n x y s t) (hu : s.fountains[k]? = some u) (hz : frameOf x f.id = some f) :
    let v := startFountain k (.stream n f.id) g y.cfg y.dec (storeAt y) w f.head (updFrame n f.id (decodingFrame g) t)
    ∃ reads, v.fountains = s.fountains.set k { u with
        busy := some (.stream n f.id, g, steadyNs s), store := w, reads := reads, writes := [(storeAt x w, storeSize x.cfg)] }
      ∧ (getFrame v n f.id).map (fun y => (y.stage, y.facts)) = some (.decoding, some g) := by
  intro v
  have here : (updFrame n f.id (decodingFrame g) t).fountains[k]? = some u := parsed.fountains ▸ hu
  obtain ⟨reads, fountains⟩ := startFountain_fountains (g := g) here (.stream n f.id) y.cfg y.dec (storeAt y) w f.head
  have base : storeAt y w = storeAt x w := by rw [storeAt, storeAt, parsed.storeBase, parsed.cfg]
  refine ⟨reads, fountains.trans ?_, ((parsed.inDecode hz).updFrame (k := decodingFrame g) fun _ => rfl).map_frame _⟩
  rw [base, parsed.cfg]
  exact congrArg₂ (fun l now => l.set k { u with
    busy := some (.stream n f.id, g, now), store := w, reads := reads, writes := [(storeAt x w, storeSize x.cfg)] }) parsed.fountains parsed.now

/-- The completion of a stream's picture counts it in decode order; where nothing else leaves the output process, its frame has the outcome of
the judgement. -/
theorem completePicture_judges {r : ChainRead} (h : InDecode n id x.dec f us s) (chain : readChain chainFuel f.head s = r) :
    let j := judge x.cfg x.dec f.lost g r.bad.isSome
    let o := outputStep x.dec g j (entersOutput x.dec g) (currentPicture x.cfg x.dec g j r.bytes id f.stamp u.store)
    let t := completePicture k n id g u x f s
    t.fountains = us
      ∧ (stream? t n).map (fun y => (y.dec.nextDec, y.dec.joined)) = some (x.dec.nextDec + 1, x.dec.joined || g.irap)
      ∧ (o.released = [] → o.removed = [] →
        (f.reason = 0 → (j.damaged = true → (getFrame t n id).map (fun y => (y.reason, y.status)) = some (reasonDamaged, j.status))
          ∧ (j.damaged = false → j.concealed = true → x.analyseConcealed = false →
            (getFrame t n id).map (fun y => (y.reason, y.status)) = some (reasonConcealed, j.status)))
        ∧ (getFrame t n id).map (·.stage) = some (if entersOutput x.dec g then .reordering else .skipped)) := by
  intro j o t
  obtain ⟨z, ht, frame⟩ := completePicture_inDecode (k := k) (g := g) (u := u) h chain
  refine ⟨ht.fountains, ?_, fun released removed => ?_⟩
  · have counted := outputStep_dec x.dec g j (entersOutput x.dec g) (currentPicture x.cfg x.dec g j r.bytes id f.stamp u.store)
    exact (ht.map_context fun d => (d.nextDec, d.joined)).trans (congrArg some (Prod.ext counted.1 counted.2))
  · obtain ⟨num, rfl⟩ := frame released removed
    have outcome : (getFrame t n id).map (fun y => (y.reason, y.status)) = some _ :=
      (ht.map_frame _).trans (congrArg some (leftFrame_outcome ..))
    refine ⟨fun undecided => ⟨fun damaged => ?_, fun sound concealed withheld => ?_⟩, (ht.map_frame _).trans (congrArg some ?_)⟩
    · exact outcome.trans (congrArg some (judgedFrame_damaged undecided damaged))
    · exact outcome.trans (congrArg some (judgedFrame_concealed undecided sound concealed withheld))
    · rw [leftFrame_stage, (judgedFrame_keeps ..).1]

theorem faulted_outcome (status : Nat) (f : Frame) : ((faulted status f).reason, (faulted status f).status)
    = if f.reason = 0 then (reasonFault, status) else (f.reason, f.status) := by
  unfold faulted
  split <;> rfl

end

/-- Settles O39: a Fountain takes its choice, completes it with the judgement of its mode, or gives it up after 50 ms. -/
theorem picturesAreDecodedAndJudged : Obligations.PicturesAreDecodedAndJudged := by
  unfold Obligations.PicturesAreDecodedAndJudged
  intro k u s hu idle
  refine ⟨fun free unpaused unfenced awake running => ⟨?frames, ?sources⟩, ?streams, ?clips⟩
  case frames =>
    intro g n x f choice hx hz
    have run := exec_pictureDecodeStart_stream (g := g) ⟨hu, free, unpaused, unfenced, awake, running⟩ choice
    obtain ⟨y, parsed⟩ := parseStream_parsed hx g f f.head
    refine ⟨fun shed spare y' hy' => ?_, fun wanted => ⟨fun w store => ?_, fun full => ?_⟩⟩
    · obtain rfl : y = y' := Option.some.inj (parsed.stream.symm.trans hy')
      exact ⟨_, run.trans (congrArg _ (startPicture_shed hx hz parsed shed spare)), parsed.shed hz⟩
    · obtain ⟨reads, fountains, frame⟩ := parsed.decodes (g := g) (w := w) hu hz
      exact ⟨_, reads, run.trans (congrArg _ (startPicture_decodes hx hz parsed wanted store)), fountains, frame⟩
    · exact run.trans (congrArg _ (startPicture_full hx hz parsed wanted full))
  case sources =>
    intro g i c choice hc held w store
    obtain ⟨reads, fountains, clips⟩ := startClipPicture_decodes (g := g) hu hc held store
    exact ⟨_, reads, exec_pictureDecodeStart_clip ⟨hu, free, unpaused, unfenced, awake, running⟩ choice, fountains, clips⟩
  case streams =>
    intro g n id t0 x f busy hx hz
    have found : frameOf x id = some f := (getFrame_eq hx id).symm.trans hz
    have begun : InDecode n id x.dec f s.fountains s := .of_stream hx found rfl rfl
    have watch := exec_fountainWatchdog hu busy
    refine ⟨?_, fun due => ?_, fun early => ?_⟩
    · generalize chain : readChain chainFuel f.head s = r
      exact ⟨_, exec_pictureDecodeComplete_stream hu busy hx hz,
        completePicture_judges (begun.idled hu) ((readChain_updFountain ..).trans chain)⟩
    · obtain ⟨e, num, aborted⟩ := abortPicture_inDecode (status := 0x0213) hu busy begun
      have logged := aborted.upkeep (logErr_upkeep (st := 0x0213) (i := 5 + k) (u := 0) (a := { stream := targetStream s (.stream n id) })
        (.refl (abortPicture k 0x0213 s)))
      refine ⟨_, watch.trans (doneIf_pos (decide_eq_true due) _ _), logged.fountains, (logged.map_frame _).trans (congrArg some ?_)⟩
      have outcome := congrArg (Prod.mk FrameStage.skipped) (faulted_outcome 0x0213 f)
      exact outcome.trans (apply_ite ..)
    · exact watch.trans (congrArg _ (if_neg (by simpa using early)))
  case clips =>
    intro g i t0 c busy hc
    refine ⟨fun held => ?_, fun due => ?_⟩
    · obtain ⟨e, session, taken, counted⟩ := completeClip_session (k := k) (g := g) (u := u) (a := c.sources.head held)
        (Session.refl (s := updFountain k idled s) hc)
      exact ⟨_, e, exec_pictureDecodeComplete_clip hu busy hc (List.head?_eq_some_head held),
        session.fountains.trans (congrArg State.fountains (updFountain_eq hu idled)), session.stands, taken, counted⟩
    · refine ⟨_, (exec_fountainWatchdog hu busy).trans (doneIf_pos (decide_eq_true due) _ _), ?_⟩
      rw [logErr_frame]
      show (abortPicture k 0x0213 s).clips[i]? = some none
      rw [abortPicture_clip hu busy hc, List.getElem?_set_self (List.getElem?_eq_some_iff.mp hc).1]

end Sys2Proof.Machine
end
